-- ==== Sys2Proof/Word.lean ====
section
/-! DEFINITION. The word types of the LX96 and the limits that name them (R2, R17, R169). -/

namespace Sys2Proof

/-- One byte of memory (R2). -/
abbrev Byte := BitVec 8

/-- One lane of a V or K register: 32 bits (R21). -/
abbrev Lane := BitVec 32

/-- A uniform register or a 64-bit word of memory (R76, R276). -/
abbrev Word := BitVec 64

/-- A mask of lanes, bit l for lane l (R126). -/
abbrev LaneMask := BitVec 64

end Sys2Proof
end

