-- ==== Sys2Proof/Syntax.lean ====
section
/-! DEFINITION. The syntax of the LX96: the fields of every instruction format (R76 to R93), the operands of the
part's operations and events (95_what_each_step_holds.md), and `Instr`, one constructor for each row of the opcode table. -/

namespace Sys2Proof

/-- The common header of a first word, less the major (R72). -/
structure Hdr where
  rm : Bool
  ge : Bool
  gn : Bool
  gp : BitVec 6
  deriving DecidableEq, Repr, Inhabited

/-- VR body (R77). -/
structure VR where
  vd : BitVec 8
  va : BitVec 8
  vb : BitVec 8
  swk : BitVec 3
  swp : BitVec 6
  lra : Bool
  lrb : Bool
  eba : Bool
  ebb : Bool
  type : BitVec 4
  rnd : BitVec 3
  sat : Bool
  deriving DecidableEq, Repr, Inhabited

/-- VI body (R79). -/
structure VI where
  vd : BitVec 8
  va : BitVec 8
  imm : BitVec 16
  lra : Bool
  eba : Bool
  type : BitVec 4
  rnd : BitVec 3
  sat : Bool
  ik : BitVec 2
  deriving DecidableEq, Repr, Inhabited

/-- VS body (R80). -/
structure VS where
  vd : BitVec 8
  va : BitVec 8
  sb : BitVec 6
  fn : BitVec 11
  lra : Bool
  eba : Bool
  type : BitVec 4
  rnd : BitVec 3
  sat : Bool
  deriving DecidableEq, Repr, Inhabited

/-- V3 body (R81). -/
structure V3 where
  vd : BitVec 8
  va : BitVec 8
  vb : BitVec 8
  vc : BitVec 8
  lrc : Bool
  lra : Bool
  lrb : Bool
  eba : Bool
  ebb : Bool
  type : BitVec 4
  rnd : BitVec 3
  sat : Bool
  ebc : Bool
  deriving DecidableEq, Repr, Inhabited

/-- VP body (R82). -/
structure VP where
  pd : BitVec 6
  va : BitVec 8
  vb : BitVec 8
  swk : BitVec 3
  swp : BitVec 6
  lra : Bool
  lrb : Bool
  eba : Bool
  ebb : Bool
  type : BitVec 4
  cond : BitVec 4
  bs : Bool
  deriving DecidableEq, Repr, Inhabited

/-- CV body (R83). -/
structure CV where
  vd : BitVec 8
  va : BitVec 8
  dtype : BitVec 4
  stype : BitVec 4
  aux : BitVec 9
  lra : Bool
  eba : Bool
  rnd : BitVec 3
  sat : Bool
  deriving DecidableEq, Repr, Inhabited

/-- PR body (R84). -/
structure PR where
  pd : BitVec 6
  pa : BitVec 6
  pb : BitVec 6
  eba : Bool
  ebb : Bool
  fn : BitVec 27
  deriving DecidableEq, Repr, Inhabited

/-- SV body (R85). -/
structure SV where
  sd : BitVec 6
  va : BitVec 8
  fn : BitVec 17
  lra : Bool
  eba : Bool
  type : BitVec 4
  deriving DecidableEq, Repr, Inhabited

/-- RS body (R86). -/
structure RS where
  d : BitVec 8
  dv : Bool
  name : BitVec 12
  deriving DecidableEq, Repr, Inhabited

/-- X body (R87). -/
structure XF where
  vop : BitVec 8
  vbase : BitVec 8
  pst : BitVec 6
  t : Bool
  lro : Bool
  ebo : Bool
  ebw : Bool
  deriving DecidableEq, Repr, Inhabited

/-- M body (R88). -/
structure MF where
  vt : BitVec 8
  sb : BitVec 6
  vi : BitVec 8
  ix : Bool
  off : BitVec 8
  scope : BitVec 3
  lrt : Bool
  lri : Bool
  ebt : Bool
  ebi : Bool
  type : BitVec 4
  size : BitVec 3
  sync : BitVec 2
  deriving DecidableEq, Repr, Inhabited

/-- UR body (R90). -/
structure UR where
  sd : BitVec 6
  sa : BitVec 6
  sb : BitVec 6
  fn : BitVec 29
  deriving DecidableEq, Repr, Inhabited

/-- UI body (R91). -/
structure UI where
  sd : BitVec 6
  sa : BitVec 6
  imm : BitVec 32
  ik : BitVec 2
  deriving DecidableEq, Repr, Inhabited

/-- C body (R92). -/
structure CF where
  off : BitVec 16
  cp : BitVec 6
  cn : Bool
  ce : Bool
  ebp : Bool
  sig : BitVec 16
  deriving DecidableEq, Repr, Inhabited

/-- Extension word of `at` (R286), less the marker. -/
structure AtX where
  aop : BitVec 4
  uni : Bool
  x : BitVec 8
  y : BitVec 8
  lrx : Bool
  lry : Bool
  ebx : Bool
  eby : Bool
  deriving DecidableEq, Repr, Inhabited

/-- Extension word of `atc` (R289), less the marker. -/
structure AtcX where
  aop : BitVec 4
  cond : BitVec 3
  sx : BitVec 6
  sy : BitVec 6
  stk : BitVec 6
  sst : BitVec 6
  sarg : BitVec 6
  ebs : Bool
  deriving DecidableEq, Repr, Inhabited

/-- Extension word of `mloop` and `mloop.sp` (R268), less the marker. -/
structure MloopX where
  pat : BitVec 2
  za : Bool
  me : Bool
  tile : BitVec 4
  bfmt : BitVec 4
  afmt : BitVec 4
  pb : BitVec 3
  pa : BitVec 3
  kcount : BitVec 16
  deriving DecidableEq, Repr, Inhabited

/-- Extension word of `cpx` (R255), less the marker. -/
structure CpxX where
  sppitch : BitVec 24
  rowlen : BitVec 24
  deriving DecidableEq, Repr, Inhabited

/-- Where a launch is held while its class queue is full (R45). -/
inductive HeldSource where
  | command (p : Nat)
  | port (die : Nat)
  | slipway (slice p : Nat)
  | bin (slice p : Nat)
  deriving DecidableEq, Repr, Inhabited

/-- One element of a partial message (R392). DESIGN CHOICE (log entry 24): it also tells whether every addend of the sum was −0, which the
root needs (R185) and for which R392 names no bit. -/
structure PartialElem where
  z : BitVec 320
  count : BitVec 32
  flags : BitVec 8
  negz : Bool
  deriving DecidableEq, Repr, Inhabited

/-- What FINISH carries (R406): the requester's signature over the transcript, and the proof that it holds the session's secret. -/
structure FinishProof where
  signature : List Byte
  verify : List Byte
  deriving DecidableEq, Repr, Inhabited

/-- What a UE remote operation names: partition, window, key, offset, and a tag that its answer repeats (R396). -/
structure RemoteRef where
  part : Nat
  window : Nat
  key : BitVec 64
  offset : Nat
  tag : Nat
  deriving DecidableEq, Repr, Inhabited

/-- What management command 0x07 gives a memory window (R396, R407). -/
structure WindowSpec where
  base : Nat
  length : Nat
  read : Bool
  write : Bool
  atomic : Bool
  key : BitVec 64
  deriving DecidableEq, Repr, Inhabited

/-- A signed image in flash (R401): eight header words, the body, and its two signatures. -/
structure Image where
  header : List Word
  body : List Byte
  ed25519 : List Byte
  mldsa : List Byte
  deriving DecidableEq, Repr, Inhabited

/-- A unit that the readiness map names (R404). -/
inductive ReadyUnit where
  | pair (n : Nat)
  | mgmt
  | ford (n : Nat)
  | port (n : Nat)
  | stack (n : Nat)
  | sliceGroup (n : Nat)
  deriving DecidableEq, Repr, Inhabited

/-- What a start of the management core reads beside the images (R399, R403): the start-up state of the SRAM array, the helper data, and
the identity certificate. -/
structure StartInputs where
  puf : List Byte
  helper : List Byte
  cert : List Byte
  deriving DecidableEq, Repr, Inhabited

/-- A unit passes its test, and by now the Caslan links of some dies are trained: C-dies 0 to 3, then edge dies 0 and 1 (R399, R404). -/
structure UnitReport where
  unit : ReadyUnit
  links : BitVec 6
  deriving DecidableEq, Repr, Inhabited

/-- One sensor reading (R407, R408): the die it belongs to (none for the module), kind and value. -/
inductive Sample where
  | junction (die : Nat) (celsius : Int)
  | power (watts : Nat)
  | inlet (celsius : Int)
  | flow (centilitresPerMinute : Nat) (milliseconds : Nat)
  | rail (inRange : Bool)
  deriving DecidableEq, Repr, Inhabited

/-- An SRAM array that may enter retention (R383). -/
inductive ArrayId where
  | pool (core unit : Nat)
  | slice (slice sub : Nat)
  deriving DecidableEq, Repr, Inhabited

/-- One constructor for each row of the opcode table: instructions with their fields, then operations and events of the part. -/
inductive Instr where
  | /-- ADD_VR (R137), major 0x01. -/ addVr (h : Hdr) (f : VR)
  | /-- SUB_VR (R137), major 0x02. -/ subVr (h : Hdr) (f : VR)
  | /-- MUL_VR (R137), major 0x03. -/ mulVr (h : Hdr) (f : VR)
  | /-- MULHI (R137), major 0x04. -/ mulhi (h : Hdr) (f : VR)
  | /-- MIN_VR (R137), major 0x05. -/ minVr (h : Hdr) (f : VR)
  | /-- MAX_VR (R137), major 0x06. -/ maxVr (h : Hdr) (f : VR)
  | /-- ABS (R137), major 0x07. -/ abs (h : Hdr) (f : VR)
  | /-- NEG (R137), major 0x08. -/ neg (h : Hdr) (f : VR)
  | /-- DIV (R137), major 0x09. -/ div (h : Hdr) (f : VR)
  | /-- REM (R137), major 0x0A. -/ rem (h : Hdr) (f : VR)
  | /-- SHL_VR (R137), major 0x0B. -/ shlVr (h : Hdr) (f : VR)
  | /-- SHR_VR (R137), major 0x0C. -/ shrVr (h : Hdr) (f : VR)
  | /-- RSHR_VR (R137), major 0x0D. -/ rshrVr (h : Hdr) (f : VR)
  | /-- ADIFF (R137), major 0x0E. -/ adiff (h : Hdr) (f : VR)
  | /-- MAD (R137), major 0x0F. -/ mad (h : Hdr) (f : V3)
  | /-- AND_VR (R143), major 0x10. -/ andVr (h : Hdr) (f : VR)
  | /-- OR_VR (R143), major 0x11. -/ orVr (h : Hdr) (f : VR)
  | /-- XOR_VR (R143), major 0x12. -/ xorVr (h : Hdr) (f : VR)
  | /-- ANDN (R143), major 0x13. -/ andn (h : Hdr) (f : VR)
  | /-- NOT (R143), major 0x14. -/ notVr (h : Hdr) (f : VR)
  | /-- MOV_VR (R141), major 0x15. -/ movVr (h : Hdr) (f : VR)
  | /-- POPC (R144), major 0x16. -/ popc (h : Hdr) (f : VR)
  | /-- CLZ (R144), major 0x17. -/ clz (h : Hdr) (f : VR)
  | /-- CTZ (R144), major 0x18. -/ ctz (h : Hdr) (f : VR)
  | /-- BREV (R144), major 0x19. -/ brev (h : Hdr) (f : VR)
  | /-- BDEP (R145), major 0x1A. -/ bdep (h : Hdr) (f : VR)
  | /-- BEXT (R145), major 0x1B. -/ bext (h : Hdr) (f : VR)
  | /-- BPERM (R146), major 0x1C. -/ bperm (h : Hdr) (f : VR)
  | /-- GFMAT (R147), major 0x1D. -/ gfmat (h : Hdr) (f : VR)
  | /-- BFX (R148), major 0x1E. -/ bfx (h : Hdr) (f : VI)
  | /-- BFI (R149), major 0x1F. -/ bfi (h : Hdr) (f : V3)
  | /-- ADD_VI (R137), major 0x20. -/ addVi (h : Hdr) (f : VI)
  | /-- RSUB (R137), major 0x21. -/ rsub (h : Hdr) (f : VI)
  | /-- MUL_VI (R137), major 0x22. -/ mulVi (h : Hdr) (f : VI)
  | /-- AND_VI (R143), major 0x23. -/ andVi (h : Hdr) (f : VI)
  | /-- OR_VI (R143), major 0x24. -/ orVi (h : Hdr) (f : VI)
  | /-- XOR_VI (R143), major 0x25. -/ xorVi (h : Hdr) (f : VI)
  | /-- SHL_VI (R137), major 0x26. -/ shlVi (h : Hdr) (f : VI)
  | /-- SHR_VI (R137), major 0x27. -/ shrVi (h : Hdr) (f : VI)
  | /-- RSHR_VI (R137), major 0x28. -/ rshrVi (h : Hdr) (f : VI)
  | /-- MIN_VI (R137), major 0x29. -/ minVi (h : Hdr) (f : VI)
  | /-- MAX_VI (R137), major 0x2A. -/ maxVi (h : Hdr) (f : VI)
  | /-- MOV_VI (R141), major 0x2B. -/ movVi (h : Hdr) (f : VI)
  | /-- ADD_VS (R137), major 0x30. -/ addVs (h : Hdr) (f : VS)
  | /-- SUB_VS (R137), major 0x31. -/ subVs (h : Hdr) (f : VS)
  | /-- MUL_VS (R137), major 0x32. -/ mulVs (h : Hdr) (f : VS)
  | /-- AND_VS (R143), major 0x33. -/ andVs (h : Hdr) (f : VS)
  | /-- OR_VS (R143), major 0x34. -/ orVs (h : Hdr) (f : VS)
  | /-- XOR_VS (R143), major 0x35. -/ xorVs (h : Hdr) (f : VS)
  | /-- SHL_VS (R137), major 0x36. -/ shlVs (h : Hdr) (f : VS)
  | /-- SHR_VS (R137), major 0x37. -/ shrVs (h : Hdr) (f : VS)
  | /-- MIN_VS (R137), major 0x38. -/ minVs (h : Hdr) (f : VS)
  | /-- MAX_VS (R137), major 0x39. -/ maxVs (h : Hdr) (f : VS)
  | /-- MOV_VS (R141), major 0x3A. -/ movVs (h : Hdr) (f : VS)
  | /-- LEA (R142), major 0x3B. -/ lea (h : Hdr) (f : VS)
  | /-- FMA (R192), major 0x40. -/ fma (h : Hdr) (f : V3)
  | /-- SQRT (R192), major 0x41. -/ sqrt (h : Hdr) (f : VR)
  | /-- EXP2 (R193), major 0x42. -/ exp2 (h : Hdr) (f : VR)
  | /-- LOG2 (R193), major 0x43. -/ log2 (h : Hdr) (f : VR)
  | /-- RCP (R193), major 0x44. -/ rcp (h : Hdr) (f : VR)
  | /-- RSQRT (R193), major 0x45. -/ rsqrt (h : Hdr) (f : VR)
  | /-- TANH (R193), major 0x46. -/ tanh (h : Hdr) (f : VR)
  | /-- SIGM (R193), major 0x47. -/ sigm (h : Hdr) (f : VR)
  | /-- RNDI (R194), major 0x48. -/ rndi (h : Hdr) (f : VR)
  | /-- FCLASS (R195), major 0x49. -/ fclass (h : Hdr) (f : VR)
  | /-- SCALE (R194), major 0x4A. -/ scale (h : Hdr) (f : VR)
  | /-- COPYSIGN (R194), major 0x4B. -/ copysign (h : Hdr) (f : VR)
  | /-- CVT (R199), major 0x50. -/ cvt (h : Hdr) (f : CV)
  | /-- CVT_TODX (R202), major 0x51. -/ cvtTodx (h : Hdr) (f : CV)
  | /-- CVT_FROMDX (R203), major 0x52. -/ cvtFromdx (h : Hdr) (f : CV)
  | /-- TAG_SET (R204), major 0x53. -/ tagSet (h : Hdr) (f : VI)
  | /-- TAG_CHK (R205), major 0x54. -/ tagChk (h : Hdr) (f : VP)
  | /-- CMP (R124), major 0x60. -/ cmp (h : Hdr) (f : VP)
  | /-- PAND (R125), major 0x61. -/ pand (h : Hdr) (f : PR)
  | /-- POR (R125), major 0x62. -/ por (h : Hdr) (f : PR)
  | /-- PXOR (R125), major 0x63. -/ pxor (h : Hdr) (f : PR)
  | /-- PNOT (R125), major 0x64. -/ pnot (h : Hdr) (f : PR)
  | /-- PMOV (R125), major 0x65. -/ pmov (h : Hdr) (f : PR)
  | /-- PSET (R125), major 0x66. -/ pset (h : Hdr) (f : PR)
  | /-- XV (R217), major 0x68. -/ xv (h : Hdr) (f : XF)
  | /-- KPUSH (R219), major 0x69. -/ kpush (h : Hdr) (f : VR)
  | /-- KPOP (R220), major 0x6A. -/ kpop (h : Hdr) (f : VR)
  | /-- KPOP_KEEP (R220), major 0x6A. -/ kpopKeep (h : Hdr) (f : VR)
  | /-- KPOP_DEPTH (R220), major 0x6A. -/ kpopDepth (h : Hdr) (f : VR)
  | /-- KCLR (R221), major 0x6B. -/ kclr (h : Hdr) (f : VR)
  | /-- SHFL_VR (R152), major 0x70. -/ shflVr (h : Hdr) (f : VR)
  | /-- SHFL_VS (R152), major 0x71. -/ shflVs (h : Hdr) (f : VS)
  | /-- VOTE (R153), major 0x72. -/ vote (h : Hdr) (f : PR)
  | /-- BALLOT (R154), major 0x73. -/ ballot (h : Hdr) (f : UR)
  | /-- SCAN (R156), major 0x74. -/ scan (h : Hdr) (f : VR)
  | /-- RED (R156), major 0x75. -/ red (h : Hdr) (f : VR)
  | /-- LD (R245), major 0x80. -/ ld (h : Hdr) (f : MF)
  | /-- ST (R246), major 0x81. -/ st (h : Hdr) (f : MF)
  | /-- LD_S (R245), major 0x82. -/ ldS (h : Hdr) (f : MF)
  | /-- ST_S (R246), major 0x83. -/ stS (h : Hdr) (f : MF)
  | /-- LDU (R247), major 0x84. -/ ldu (h : Hdr) (f : MF)
  | /-- STU (R247), major 0x85. -/ stu (h : Hdr) (f : MF)
  | /-- PF (R248), major 0x86. -/ pf (h : Hdr) (f : MF)
  | /-- LDB (R245), major 0x87. -/ ldb (h : Hdr) (f : MF)
  | /-- STB (R246), major 0x88. -/ stb (h : Hdr) (f : MF)
  | /-- AT (R288), major 0x90. -/ atM (h : Hdr) (f : MF) (x : AtX)
  | /-- ATC (R290), major 0x91. -/ atc (h : Hdr) (f : MF) (x : AtcX)
  | /-- SIG_ADD (R278), major 0x92. -/ sigAdd (h : Hdr) (f : UR)
  | /-- WAIT_GE (R280), major 0x93. -/ waitGe (h : Hdr) (f : UR)
  | /-- FENCE (R295), major 0x94. -/ fence (h : Hdr) (f : UR)
  | /-- XFENCE (R298), major 0x95. -/ xfence (h : Hdr) (f : UR)
  | /-- ADD_UR (R160), major 0xA0. -/ addUr (h : Hdr) (f : UR)
  | /-- SUB_UR (R160), major 0xA1. -/ subUr (h : Hdr) (f : UR)
  | /-- MUL_UR (R160), major 0xA2. -/ mulUr (h : Hdr) (f : UR)
  | /-- DIV_UR (R160), major 0xA3. -/ divUr (h : Hdr) (f : UR)
  | /-- REM_UR (R160), major 0xA4. -/ remUr (h : Hdr) (f : UR)
  | /-- AND_UR (R160), major 0xA5. -/ andUr (h : Hdr) (f : UR)
  | /-- OR_UR (R160), major 0xA6. -/ orUr (h : Hdr) (f : UR)
  | /-- XOR_UR (R160), major 0xA7. -/ xorUr (h : Hdr) (f : UR)
  | /-- SHL_UR (R160), major 0xA8. -/ shlUr (h : Hdr) (f : UR)
  | /-- SHR_UR (R160), major 0xA9. -/ shrUr (h : Hdr) (f : UR)
  | /-- MIN_UR (R160), major 0xAA. -/ minUr (h : Hdr) (f : UR)
  | /-- MAX_UR (R160), major 0xAB. -/ maxUr (h : Hdr) (f : UR)
  | /-- CMP_UR (R161), major 0xAC. -/ cmpUr (h : Hdr) (f : UR)
  | /-- ADD_UI (R162), major 0xAD. -/ addUi (h : Hdr) (f : UI)
  | /-- MOV_UI (R162), major 0xAE. -/ movUi (h : Hdr) (f : UI)
  | /-- MOV_SV (R158), major 0xAF. -/ movSv (h : Hdr) (f : SV)
  | /-- MOVL (R163), major 0xE1. -/ movl (h : Hdr) (f : UR) (x : BitVec 56)
  | /-- IF (R129), major 0xB0. -/ ifC (h : Hdr) (f : CF)
  | /-- ELSE (R129), major 0xB1. -/ elseC (h : Hdr) (f : CF)
  | /-- ENDIF (R129), major 0xB2. -/ endifC (h : Hdr) (f : CF)
  | /-- LOOP (R129), major 0xB3. -/ loopC (h : Hdr) (f : CF)
  | /-- ENDLOOP (R129), major 0xB5. -/ endloopC (h : Hdr) (f : CF)
  | /-- BRK (R129), major 0xB6. -/ brkC (h : Hdr) (f : CF)
  | /-- CONT (R129), major 0xB7. -/ contC (h : Hdr) (f : CF)
  | /-- RET (R129), major 0xB8. -/ retC (h : Hdr) (f : CF)
  | /-- EXIT (R129), major 0xB9. -/ exitC (h : Hdr) (f : CF)
  | /-- CALL (R129), major 0xE0. -/ callC (h : Hdr) (f : CF) (x : BitVec 32)
  | /-- LAUNCH (R42), major 0xB4. -/ launch (h : Hdr) (f : UR)
  | /-- BAR (R135), major 0xBA. -/ bar (h : Hdr) (f : UR)
  | /-- NOP (R106), major 0xBB. -/ nop (h : Hdr) (f : UR)
  | /-- RDS (R134), major 0xBC. -/ rds (h : Hdr) (f : RS)
  | /-- CP (R256), major 0xC0. -/ cp (h : Hdr) (f : UR)
  | /-- CPX (R256), major 0xE4. -/ cpx (h : Hdr) (f : UR) (x : CpxX)
  | /-- MRES (R260), major 0xC1. -/ mres (h : Hdr) (f : UR)
  | /-- MREL (R261), major 0xC2. -/ mrel (h : Hdr) (f : UR)
  | /-- MLD (R272), major 0xC3. -/ mld (h : Hdr) (f : UR)
  | /-- MST (R272), major 0xC4. -/ mst (h : Hdr) (f : UR)
  | /-- MZERO (R272), major 0xC5. -/ mzero (h : Hdr) (f : UR)
  | /-- OSM_MAX (R273), major 0xC6. -/ osmMax (h : Hdr) (f : UR)
  | /-- OSM_ACC (R274), major 0xC7. -/ osmAcc (h : Hdr) (f : UR)
  | /-- MLOOP (R269), major 0xE2. -/ mloop (h : Hdr) (f : UR) (x : MloopX)
  | /-- MLOOP_SP (R270), major 0xE3. -/ mloopSp (h : Hdr) (f : UR) (x : MloopX)
  | /-- FB_RED (R390), major 0xC8. -/ fbRed (h : Hdr) (f : UR)
  | /-- FB_BCAST (R391), major 0xC9. -/ fbBcast (h : Hdr) (f : UR)
  | /-- Q_PUSH (R324), major 0xD0. -/ qPush (h : Hdr) (f : UR)
  | /-- Q_POP (R324), major 0xD1. -/ qPop (h : Hdr) (f : UR)
  | /-- BIN_PUT (R328), major 0xD2. -/ binPut (h : Hdr) (f : UR)
  | /-- JY_PUSH (R331), major 0xD3. -/ jyPush (h : Hdr) (f : UR)
  | /-- JY_POP (R331), major 0xD4. -/ jyPop (h : Hdr) (f : UR)
  | /-- TS_DESC (R343), major 0xD5. -/ tsDesc (h : Hdr) (f : UR)
  | /-- TS_BACK (R345), major 0xD6. -/ tsBack (h : Hdr) (f : UR)
  | /-- TS_EXP (R346), major 0xD7. -/ tsExp (h : Hdr) (f : UR)
  | /-- TS_ROOT (R348), major 0xD8. -/ tsRoot (h : Hdr) (f : UR)
  | /-- TS_ANC (R350), major 0xD9. -/ tsAnc (h : Hdr) (f : UR)
  | /-- TRAP (R379), major 0xDA. -/ trap (h : Hdr) (f : UR)
  | /-- SYSCALL (R380), major 0xDB. -/ syscall (h : Hdr) (f : UR)
  | /-- DIAG_ST (R382), major 0xDC. -/ diagSt (h : Hdr) (f : MF)
  | /-- COMMAND_SEND_ARRIVAL (R35). -/ commandSendArrival (p : Nat) (payload : List Byte)
  | /-- LAUNCH_COMMAND (R36). -/ launchCommand (p : Nat)
  | /-- STOP_TASK_TABLE (R37). -/ stopTaskTable (p : Nat)
  | /-- RESTART_TASK_TABLE (R37). -/ restartTaskTable (p : Nat)
  | /-- RESET_PARTITION (R54). -/ resetPartition (p : Nat)
  | /-- PARTITION_RESET_COMPLETE (R54). -/ partitionResetComplete (p : Nat)
  | /-- LAUNCH_PORT_HANDOFF (R43). -/ launchPortHandoff (die : Nat)
  | /-- HELD_LAUNCH_ENTRY (R45). -/ heldLaunchEntry (src : HeldSource)
  | /-- TEAM_PLACEMENT (R46). -/ teamPlacement (p : Nat)
  | /-- TEAM_DISCARD_SAVE (R373). -/ teamDiscardSave (team : Nat)
  | /-- ACKNOWLEDGEMENT_RETURN (R49). -/ acknowledgementReturn (req : Nat)
  | /-- TEAM_RETIREMENT (R386). -/ teamRetirement (team : Nat)
  | /-- LAUNCH_COMPLETION (R51). -/ launchCompletion (launch : Nat)
  | /-- LAUNCH_FAULT_END (R362). -/ launchFaultEnd (launch : Nat)
  | /-- EVENT_TIMER_EXPIRY (R52). -/ eventTimerExpiry (p cls : Nat)
  | /-- INSTRUCTION_FILL (R69). -/ instructionFill (die : Nat)
  | /-- SEQUENTIAL_PREFETCH (R70). -/ sequentialPrefetch (die : Nat)
  | /-- PASS_OVER (R123). -/ passOver (group : Nat)
  | /-- TRANSLATION_WALK (R228). -/ translationWalk (die : Nat)
  | /-- HOME_SLICE_ACCESS (R233). -/ homeSliceAccess (req : Nat)
  | /-- WAIT_TABLE_RETRY (R281). -/ waitTableRetry (group : Nat)
  | /-- WATCH_REARM (R282). -/ watchRearm (req : Nat)
  | /-- WATCHDOG_FIRE (R285). -/ watchdogFire (p : Nat)
  | /-- PAGE_REPLY (R366). -/ pageReply (p entry : Nat) (value : Word)
  | /-- PENDING_FAULT_ENTRY (R367). -/ pendingFaultEntry (p : Nat)
  | /-- COPY_COMMAND_START (R255). -/ copyCommandStart (pair : Nat)
  | /-- COPY_COUNTER_STEP (R257). -/ copyCounterStep (cmd part : Nat)
  | /-- COPY_COMMAND_COMPLETE (R253). -/ copyCommandComplete (cmd : Nat)
  | /-- MATRIX_ENGINE_STEP (R263). -/ matrixEngineStep (pair : Nat)
  | /-- ATC_SLICE_PERFORM (R291). -/ atcSlicePerform (req : Nat)
  | /-- SLIPWAY_HANDOFF (R293). -/ slipwayHandoff (slice p : Nat)
  | /-- BIN_TIMER_EXPIRY (R328). -/ binTimerExpiry (bin : Nat)
  | /-- BIN_LAUNCH_HANDOFF (R329). -/ binLaunchHandoff (slice p : Nat)
  | /-- FORD_ACCEPTANCE (R339). -/ fordAcceptance (die : Nat)
  | /-- FORD_ACTION (R338). -/ fordAction (op : Nat)
  | /-- FREEING_PUSH (R349). -/ freeingPush (op : Nat)
  | /-- PARTIAL_MESSAGE (R392). -/ partialMessage (p : Nat) (record round : Word) (elems : List PartialElem)
  | /-- RESULT_MESSAGE (R390). -/ resultMessage (p : Nat) (record round : Word) (payload : List Byte)
  | /-- REMOTE_WRITE (R314). -/ remoteWrite (r : RemoteRef) (payload : List Byte)
  | /-- REMOTE_READ (R314). -/ remoteRead (r : RemoteRef) (len : Nat)
  | /-- REMOTE_FETCH_ADD (R396). -/ remoteFetchAdd (r : RemoteRef) (value : Word)
  | /-- REMOTE_SWAP (R396). -/ remoteSwap (r : RemoteRef) (value : Word)
  | /-- REMOTE_COMPARE_SWAP (R396). -/ remoteCompareSwap (r : RemoteRef) (value compare : Word)
  | /-- UNSUPPORTED_UE_PACKET (R394). -/ unsupportedUePacket (service : Nat)
  | /-- GET_VERSION (R406). -/ getVersion
  | /-- GET_CAPABILITIES (R406). -/ getCapabilities
  | /-- NEGOTIATE_ALGORITHMS (R406). -/ negotiateAlgorithms
  | /-- GET_DIGESTS (R406). -/ getDigests
  | /-- GET_CERTIFICATE (R406). -/ getCertificate
  | /-- CHALLENGE (R406). -/ challenge (nonce : BitVec 256)
  | /-- GET_MEASUREMENTS (R406). -/ getMeasurements
  | /-- KEY_EXCHANGE (R406). -/ keyExchange (requester : BitVec 256) (exchange : List Byte)
  | /-- FINISH (R406). -/ finish (proof : FinishProof)
  | /-- HEARTBEAT (R406). -/ heartbeat
  | /-- KEY_UPDATE (R406). -/ keyUpdate
  | /-- END_SESSION (R406). -/ endSession
  | /-- READ_READINESS_MAP (R407). -/ readReadinessMap
  | /-- CONFIGURE_PARTITION (R407). -/ configurePartition (p : Nat) (record : List Word) (fq save : Nat)
  | /-- START_PARTITION (R407). -/ startPartition (p : Nat)
  | /-- STOP_PARTITION (R407). -/ stopPartition (p : Nat)
  | /-- MANAGEMENT_RESET_PARTITION (R407). -/ managementResetPartition (p : Nat)
  | /-- READ_CODE_KEY (R407). -/ readCodeKey (p : Nat)
  | /-- SET_WATCHDOG_PERIOD (R407). -/ setWatchdogPeriod (p period : Nat)
  | /-- CREATE_JETTY (R407). -/ createJetty (j prod cons ringpa capm1 : Nat)
  | /-- CLEAR_JETTY_RESET (R333). -/ clearJettyReset (j : Nat)
  | /-- SET_MEMORY_WINDOW (R407). -/ setMemoryWindow (p w : Nat) (win : WindowSpec)
  | /-- SET_EVENT_THRESHOLDS (R407). -/ setEventThresholds (p cls threshold period : Nat)
  | /-- GRANT_DIAGNOSTICS (R407). -/ grantDiagnostics (p : Nat) (grant : Bool)
  | /-- READ_FAULT_QUEUE_ADDRESSES (R407). -/ readFaultQueueAddresses (p : Nat)
  | /-- READ_POWER_AND_TEMPERATURES (R407). -/ readPowerAndTemperatures
  | /-- MODULE_RESET (R399). -/ moduleReset (start : StartInputs) (flash : List Image)
  | /-- UNIT_READY (R404). -/ unitReady (u : UnitReport)
  | /-- THERMAL_THROTTLE (R408). -/ thermalThrottle (sample : List Sample)
  | /-- THROTTLE_END (R408). -/ throttleEnd (sample : List Sample)
  | /-- CRITICAL_SHUTDOWN (R408). -/ criticalShutdown (sample : List Sample)
  | /-- RETENTION_ENTRY (R383). -/ retentionEntry (arr : ArrayId)
  | /-- RETENTION_EXIT (R383). -/ retentionExit (arr : ArrayId)
  | /-- BANK_ACCESS (R235). -/ bankAccess (req : Nat)
  | /-- MATRIX_COMMAND_COMPLETE (R263). -/ matrixCommandComplete (cmd : Nat)
  | /-- RESERVED_MAJOR (R105). -/ reservedMajor (w : Word)
  | /-- RESERVED_COMMAND (R36). -/ reservedCommand (p : Nat)
  deriving DecidableEq, Repr, Inhabited

end Sys2Proof
end

