-- ==== Sys2Proof/Config.lean ====
section
/-! DEFINITION. What an implementation fixes and the free values: constants with no body, of which nothing can be proved. -/

namespace Sys2Proof

/-- The operations of KEY_UPDATE (R406). -/
inductive KeyUpdateOp where
  | /-- the requester's direction only. -/ updateKey
  | updateAll
  | /-- the new key is confirmed. -/ verifyNewKey
  deriving DecidableEq, Repr, Inhabited

namespace Config

/-- The partition code key that the management plane creates at configuration (R68): 256 bits, a free value for every creation. -/
opaque codeKey : Nat → BitVec 256

/-- The vendor's Ed25519 public key that the ROM holds (R401). -/
opaque vendorEd25519 : BitVec 256

/-- The vendor's ML-DSA-65 public key that the ROM holds (R401). -/
opaque vendorMldsa : List Byte

/-- The identity seed that the start-up state of the SRAM array gives with helper data, or none where it cannot be reconstructed (R399). -/
opaque reconstructSeed : List Byte → List Byte → Option (BitVec 256)

/-- The signed part of the alias certificate, of the identity's and the alias public key (R403 gives it no layout). -/
opaque aliasTbs : List Byte → List Byte → List Byte

/-- What the management endpoint answers to an SPDM request beyond the contents that the spec names, in the layout of SPDM 1.3 (R406):
a free value of the request's code and of a counter. -/
opaque spdmBody : Nat → Nat → List Byte

/-- The transcript of SPDM 1.3 that an answer signs (R406): of the request's code, of what the requester sent, and of a counter. -/
opaque spdmTranscript : Nat → List Byte → Nat → List Byte

/-- The device's private key of a key exchange over secp384r1 (R406): a free value for every exchange. -/
opaque exchangeKey : Nat → BitVec 384

/-- The operation that a KEY_UPDATE asks for (R406): the requester's choice, a free value for every request. -/
opaque keyUpdateOp : Nat → KeyUpdateOp

/-- The bytes in which `read power, coolant and temperatures` returns the last samples (R407 gives them no layout). -/
opaque sensorBody : List Sample → List Byte

/-- The operator public keys of a configuration image (R406): the ROM's reading of its body. -/
opaque operatorKeys : List Byte → List (BitVec 256)

/-- The word that a unit of the device reads where the word is uncorrectable and its rule names no other outcome (R369): free, of a
counter and the address. -/
opaque lost : Nat → Nat → Word

/-- Which entry a full cache drops (R64, R65, R230). -/
opaque victim : Nat → Nat

/-- The place among the scratchpad units of a core's teams of what a unit of the core's pool holds (R383 names the unit only). -/
opaque poolPlace : Nat → Nat → Nat

/-- The partition to whose fault queue a word that retention found uncorrectable in a slice is logged (R383 names none). -/
opaque arrayOwner : Nat → Nat

/-- Which of a quadrant's free slots a group takes (R63 names the quadrant only). -/
opaque slotPick : Nat → Nat

/-- Whether a saved team's state meets an uncorrectable word when it is read back (R376). -/
opaque saveLost : Nat → Bool

/-- Which of the part's agents moves next, where the state has not fixed it: a place in the list of those that may. -/
opaque turn : Nat → Nat

end Config

end Sys2Proof
end

