-- ==== Sys2Proof/Machine/State.lean ====
section
/-! DEFINITION. The state of an LX96 module: everything the spec gives the machine, as plain data, and the state after a module reset. -/

namespace Sys2Proof.Machine

/-- Why a step stops. -/
inductive Fault where
  | /-- raised by the meaning of every instruction row when it is run without an issuing group (`State.cur` names none, or none that
    is resident): an instruction has an effect only in a group (R17). Safe: `step` never does so. -/ noGroup
  deriving DecidableEq, Repr, Inhabited

/-- Why the model declines a step. -/
inductive Refusal where
  | /-- raised by `exec` for an instruction that has no meaning yet. Safe. -/ notModelled (mnemonic : String)
  deriving DecidableEq, Repr, Inhabited

/-- The causes of R355. -/
inductive Cause where
  | illegal | format | emptyread | maskstack | diverged | page | prot | align | bound | uncorr | signature | tree | launch
  | watchdog | preempt | syscall | codeauth | xvlane | counter
  deriving DecidableEq, Repr, Inhabited

/-- A record of a cause, as an entry of the fault queue reports it (R359): `reason`, `sub`, `tag`, `a`, `b`, `c` of R360. -/
structure Report where
  cause : Cause
  reason : Nat := 0
  sub : Nat := 0
  tag : BitVec 32 := 0
  a : Word := 0
  b : Word := 0
  c : Word := 0
  deriving DecidableEq, Repr, Inhabited

/-- A fault-queue entry with its place of origin (R359): core, slot, team, group; `none` where the entry has no group. -/
structure Entry where
  report : Report
  origin : Option (Nat × Nat × Nat × Nat) := none
  pc : Nat := 0
  serial : Option Nat := none
  deriving DecidableEq, Repr, Inhabited

/-- A physical register (R113): contents of 64 lanes, tag, the cc from which it is full (`none` while empty), lanes marked
uncorrectable (R369), lanes still owed by writes in flight (R117), the register whose landing supplies what its first write left
unchanged (whole lanes, and bits of the other lanes), and whether it only waits for a landing write (R117, R118). -/
structure PReg where
  id : Nat
  lanes : List Lane
  tag : BitVec 4
  ready : Option Nat
  bad : LaneMask
  pend : Nat
  merge : Option (Nat × LaneMask × Lane)
  orphan : Bool
  deriving DecidableEq, Repr, Inhabited

/-- A uniform register (R76): value, the cc from which it is full, uncorrectable mark (R288). -/
structure UReg where
  val : Word
  ready : Option Nat
  bad : Bool
  deriving DecidableEq, Repr, Inhabited

/-- A predicate (R107): one bit a lane, and the cc from which it is full. -/
structure PredReg where
  bits : LaneMask
  ready : Option Nat
  deriving DecidableEq, Repr, Inhabited

/-- The kinds of a mask-stack entry (R126). -/
inductive MaskKind where
  | ifk | loop | call
  deriving DecidableEq, Repr, Inhabited

/-- A mask-stack entry (R126). -/
structure MaskEntry where
  kind : MaskKind
  sv : LaneMask
  xv : LaneMask
  elseTaken : Bool
  addr : Nat
  check : BitVec 16
  deriving DecidableEq, Repr, Inhabited

/-- A region-entry checkpoint (R117, R210). -/
structure Ckpt where
  preds : List PredReg
  stack : List MaskEntry
  active : LaneMask
  live : LaneMask
  sig : BitVec 16
  depths : List Nat
  taken : Bool
  po : Bool
  poFirst : Bool
  deriving DecidableEq, Repr, Inhabited

/-- What a group waits for beside its registers. -/
inductive Hold where
  | none
  | /-- parked in `wait.ge` (R280); the request carries its state. -/ wait
  | /-- parked in `jy.pop.park` (R332). -/ jetty
  | /-- parked at a barrier (R135). -/ bar (n : Nat)
  | /-- parked on a PAGE entry of this number (R366). -/ page (entry : Nat)
  | /-- parked on a PAGE entry that still waits for fault-queue space (R358, R367). -/ pagePending
  | /-- the PAGE entry has been answered with this reply while the team was not resident; it takes effect at the restore (R367). -/
    replied (v : Word)
  | /-- waits until the Ford instruction of this number is accepted, or under `.t` answered (R339, R346). -/ ford (op : Nat)
  | /-- issues nothing until its `diag.st` is performed (R382). -/ diag
  deriving DecidableEq, Repr, Inhabited

/-- Whether a group is on a core. -/
inductive Life where
  | resident
  | /-- exited, or ended with its launch: it issues nothing more; kept while accesses of it are in flight (R118). -/ gone
  | /-- discarded with its team; its state is the saved state of R374. -/ saved
  deriving DecidableEq, Repr, Inhabited

/-- A group (R107 to R135). `cur` and `ent` are the current map and the region-entry map: names 0 to 255 are V0 to V255 and names
256 to 263 are K0 to K7. -/
structure Group where
  gid : Nat
  team : Nat
  launch : Nat
  part : Nat
  groupId : Nat
  width : Nat
  core : Nat
  quadrant : Nat
  slot : Nat
  life : Life
  hold : Hold
  pc : Nat
  active : LaneMask
  live : LaneMask
  dead : LaneMask
  sregs : List UReg
  preds : List PredReg
  cur : List (Nat × Nat)
  ent : List (Nat × Nat)
  pregs : List PReg
  nextPid : Nat
  resv : Nat
  stack : List MaskEntry
  sig : BitVec 16
  taken : Bool
  po : Bool
  poFirst : Bool
  depths : List Nat
  fflags : BitVec 6
  replays : Nat
  regionStart : Nat
  regionFresh : Bool
  regionReads : List Nat
  sigFailed : Bool
  ckpt : Ckpt
  outst : Nat
  fences : List (Nat × Nat)
  xfences : List (Nat × Nat × Nat)
  retryAt : Nat
  stamp : Nat
  admitted : Nat
  deriving DecidableEq, Repr, Inhabited

/-- A tile (R267): tag, and its 128 by 64 cells row by row; an empty list stands for cells that are all zero. -/
structure Tile where
  tag : BitVec 4
  cells : List Lane
  deriving DecidableEq, Repr, Inhabited

/-- A lane of a load that an unplaced group still owes (R374): the place of its load in the order of issue, which its lanes share, and
its request's data, to be issued again at restore. -/
structure OwedFe where
  load : Nat
  addr : Nat
  len : Nat
  pids : List Nat
  lane : Nat
  size : Nat
  signed : Bool
  take : Bool
  deriving DecidableEq, Repr, Inhabited

/-- Where a team stands. -/
inductive TeamStatus where
  | placed
  | /-- placed again, with loads of `owed` still to be issued again before any of its groups issues (R376). -/ restoring
  | /-- stopping for a discard (R373). -/ discarding
  | /-- discarded and waiting in its class queue; its state is the saved state of R375. -/ saved
  | /-- retired (R386): its resources are free; kept until its launch is. -/ retired
  deriving DecidableEq, Repr, Inhabited

/-- A team (R17): placement, scratchpad with its granule bits and syndromes (R59, R238, R381), tiles (R267), sticky flags (R264),
`stall.bank` (R236), barrier releases and arrivals (R135), share count of its reservation (R260), and the `.fe` lanes that a saved or restoring team still owes (R374, R376). -/
structure Team where
  tid : Nat
  launch : Nat
  part : Nat
  teamId : Nat
  cores : List Nat
  status : TeamStatus
  sp : List Host.Cell
  empties : List Nat
  spSyn : List (Nat × Nat)
  tiles : List Tile
  mxflags : BitVec 8
  stall : Word
  barRel : List Nat
  barArr : List (Nat × Nat × Nat)
  shares : Nat
  owed : List (Nat × OwedFe)
  deriving DecidableEq, Repr, Inhabited

/-- The fields of a kernel header (R20). -/
structure KHeader where
  width : Nat
  codebase : Nat
  codelen : Nat
  entry : Nat
  partword : BitVec 32
  peak : Nat
  entryfp : Nat
  tagbase : Nat
  argtags : Word
  argc : Nat
  deriving DecidableEq, Repr, Inhabited

/-- What started a launch (R45, R360). -/
inductive Source where
  | command (tag : BitVec 32)
  | group
  | slipway (slice : Nat) (va : Word) (old : Word)
  | bin (slice : Nat) (pa : Nat) (slot : Nat)
  deriving DecidableEq, Repr, Inhabited

/-- A launch (R17, R25, R45, R51, R362). -/
structure Launch where
  lid : Nat
  part : Nat
  serial : Option Nat
  cls : Nat
  source : Source
  task : Nat
  hdr : KHeader
  teams : Nat
  teamSize : Nat
  args : List Word
  donectr : Nat
  next : Nat
  retired : Nat
  ended : Bool
  deriving DecidableEq, Repr, Inhabited

/-- A member of a class queue (R45, R47). -/
inductive QEntry where
  | launch (lid : Nat)
  | team (tid : Nat)
  deriving DecidableEq, Repr, Inhabited

/-- A class of events (R52): threshold, period, count, time left on its timer (`none` while stopped). -/
structure EvClass where
  threshold : Nat
  period : Nat
  count : Nat
  timer : Option Nat
  deriving DecidableEq, Repr, Inhabited

/-- A memory window (R396). -/
structure Window where
  base : Nat
  length : Nat
  read : Bool
  write : Bool
  atomic : Bool
  key : BitVec 64
  deriving DecidableEq, Repr, Inhabited

/-- The state of a partition (R32 w7, and none before its first configuration). -/
inductive PState where
  | none | stopped | running | resetting
  deriving DecidableEq, Repr, Inhabited

/-- A partition: its record (R32) and what the device keeps for it. `pendEntries` are the entries that its fault queue has not taken yet:
PAGE entries, with their group, that wait for space (R358, R367), and any entry that waits until the queue's slice takes work (R16, R383,
R405). -/
structure Part where
  num : Nat
  pairs : BitVec 96
  ptroot : Nat
  asidbase : Nat
  tasktab : Nat
  tstop : Bool
  taskcount : Nat
  cmdq : Nat
  weight : Nat
  endpoint : Nat
  state : PState
  codeKey : BitVec 256
  cmdHead : Nat
  cmdCount : Nat
  cmdHeld : Option Launch
  queues : List (List QEntry)
  entered : Nat
  fq : Nat
  save : Nat
  pendEntries : List (Option Nat × Entry)
  wdPeriod : Nat
  wdCounts : List Nat
  diag : Bool
  events : List EvClass
  oldest : Option Nat
  reachable : Bool
  windows : List (Option Window)
  deriving DecidableEq, Repr, Inhabited

/-- Where a lane's or a group's result goes: physical registers (low first) of a lane, or a uniform register. -/
inductive Dest where
  | none
  | lane (pids : List Nat) (lane : Nat)
  | uni (s : Nat)
  deriving DecidableEq, Repr, Inhabited

/-- One performing of an access: address, bytes, and whether its page is SO or UO (R229, R244, R249). -/
structure Piece where
  addr : Nat
  len : Nat
  so : Bool
  uo : Bool
  deriving DecidableEq, Repr, Inhabited

/-- One addend sum of a fabric reduction (R185): Z, addend count, NaN, +∞ and −∞ seen, and whether every addend so far was −0. -/
structure FabElem where
  z : Int
  count : Nat
  nan : Bool
  pinf : Bool
  ninf : Bool
  negz : Bool
  deriving DecidableEq, Repr, Inhabited

/-- What a request does where it is performed. -/
inductive ReqOp where
  | load (dest : Dest) (size : Nat) (signed : Bool)
  | fe (dest : Dest) (size : Nat) (signed : Bool) (take : Bool)
  | store (data : List Byte)
  | atomic (aop type : Nat) (x y : Word) (dest : Dest)
  | sigAdd (v va : Word)
  | waitGe (target : Word) (rem : Bool)
  | atc (aop cond type : Nat) (x y arg tk va : Word) (vt sst : Nat)
  | diag (data : Word) (mask : Nat)
  | syscall (code : BitVec 32) (a b c : Word) (sd pc : Nat)
  | qPush (x : List Word) (sd room : Nat)
  | qPop (sd sb room : Nat)
  | binPut (x : List Word) (va : Word) (sd room : Nat)
  | jyPush (j : Nat) (t0 t1 : Word) (sd : Nat)
  | jyPop (j sd sb : Nat) (park : Bool)
  | fbRed (recVa count round data sd : Nat)
  | fbBcast (recVa count round data sd : Nat)
  deriving DecidableEq, Repr, Inhabited

/-- How far a request has come. -/
inductive Phase where
  | /-- not performed yet. -/ flying
  | /-- parked at its bank, slice or jetty (R239, R281, R332), in the order of the number. -/ parked (order : Nat)
  | /-- refused a watch; the arm is sent again from this cc on (R282). -/ rearm (at_ : Nat)
  | /-- accepted at a switch; performed when its round delivers (R393). -/ contributed
  | /-- performed; the acknowledgement has not returned (R49). -/ done
  deriving DecidableEq, Repr, Inhabited

/-- A request in flight: one lane access, atomic or operation of an issued instruction (R300, R301). `seq` is the place of its
instruction in the order of issue, `cls` its access-path class (R296), `moved` says that its count stands in a launch counter (R50,
R373). -/
structure Req where
  id : Nat
  seq : Nat
  gid : Nat
  launch : Nat
  team : Nat
  part : Nat
  core : Nat
  pc : Nat
  lane : Nat
  cls : Nat
  sp : Bool
  pieces : List Piece
  got : List Byte
  bad : Bool
  op : ReqOp
  acq : Bool
  rel : Bool
  wt : Bool
  watch : Bool
  counted : Bool
  moved : Bool
  drop : Bool
  phase : Phase
  deriving DecidableEq, Repr, Inhabited

/-- An entry of a pair's scoreboard (R258): issue order, owner (a group access, or a command), ranges [lo, hi) with a write mark. -/
structure Score where
  seq : Nat
  pair : Nat
  team : Nat
  gid : Nat
  cmd : Option Nat
  ranges : List (Int × Int × Bool)
  deriving DecidableEq, Repr, Inhabited

/-- A copy command (R255 to R257): `ctr` is a team offset or the physical address of its counter, `ctrVa` its address as
the command names it, `leaves` the pages that it touches (virtual base, size, physical base). `parts` are the numbers of the parts
performed beyond the first `steps`, which are all performed and signalled. -/
structure CopyCmd where
  id : Nat
  seq : Nat
  pc : Nat
  gid : Nat
  launch : Nat
  team : Nat
  part : Nat
  pair : Nat
  out : Bool
  conv : Nat
  m : Nat
  d : Nat
  cs : Nat
  ctr : Nat
  ctrVa : Word
  va : Word
  off : Nat
  rows : Nat
  pitch : Int
  rowlen : Nat
  sppitch : Nat
  leaves : List (Nat × Nat × Nat)
  active : Bool
  parts : List Nat
  steps : Nat
  deriving DecidableEq, Repr, Inhabited

/-- The work of a matrix command (R268 to R274). -/
inductive MxOp where
  | mloop (sparse : Bool) (x : MloopX) (a b ai bi mask meta_ mi : Int)
  | mzero (tile : Nat) (f32 : Bool)
  | mld (tile : Nat) (f32 : Bool) (off pitch : Int)
  | mst (tile form m d : Nat) (off pitch : Int)
  | osmMax (tile : Nat) (mv lv cv : Int)
  | osmAcc (tile : Nat) (cv : Int)
  deriving DecidableEq, Repr, Inhabited

/-- A matrix command (R262, R263): `k` K-steps performed, `finished` after the last step. -/
structure MxCmd where
  id : Nat
  seq : Nat
  pc : Nat
  gid : Nat
  launch : Nat
  team : Nat
  part : Nat
  pair : Nat
  slotNo : Nat
  op : MxOp
  k : Nat
  finished : Bool
  deriving DecidableEq, Repr, Inhabited

/-- A matrix engine (R260, R263): which team holds each of the four wheel positions, the position served last, for each team the slot
served last, and the positions that return when the team's commands accepted before an `mrel` have completed (R261). -/
structure MxEngine where
  pair : Nat
  wheel : List (Option Nat)
  pos : Nat
  rot : List (Nat × Nat)
  old : List (Nat × Nat)
  deriving DecidableEq, Repr, Inhabited

/-- The kinds of Ford instruction (R339). -/
inductive FordKind where
  | desc (user : Word)
  | back (leaf : Nat) (value : Int) (alt nv : Bool)
  | exp (node k : Nat) (array : Word) (t : Bool)
  | root (r : Nat) (sync : Bool)
  | anc (rows cols : Nat) (rowList colList mask : Word)
  deriving DecidableEq, Repr, Inhabited

/-- One pending piece of a re-root's freeing walk (R349): a node of the old chain with the child that stays, the subtrees of two ranges
of nodes, the children block of a node with the subtrees below it, a part of a children block, and a chain node itself. -/
inductive FreeJob where
  | chain (n kept : Nat)
  | scan (lo1 hi1 lo2 hi2 : Nat)
  | kids (n : Nat)
  | part (lo hi : Nat)
  | self (n : Nat)
  deriving DecidableEq, Repr, Inhabited

/-- How far a Ford instruction has come (R339). -/
inductive FordPhase where
  | /-- at the input of the engine of the issuing group's die, or of the owner. -/ input
  | accepted
  | /-- a descent that removes its virtual loss (R343): the reason it will report. -/ undo (reason : Nat)
  | /-- a re-root whose answer is given; blocks are still to be freed. -/ freeing
  deriving DecidableEq, Repr, Inhabited

/-- A Ford instruction in flight: its tree header (virtual and physical address), destination registers, and the state of its walk: the
node or row that it has reached, its depth, the nodes of its path (of a re-root: those whose children block it has freed), the records
of an expansion once they have been read, and the pieces still to be freed. -/
structure FordOp where
  id : Nat
  seq : Nat
  gid : Nat
  launch : Nat
  team : Nat
  part : Nat
  die : Nat
  kind : FordKind
  header : Word
  pa : Nat
  sd : Nat
  sb : Nat
  instr : Word
  pc : Nat
  phase : FordPhase
  node : Nat
  depth : Nat
  path : List Nat
  sa : Bool
  aux : Nat
  recs : Option (List Word)
  jobs : List FreeJob
  answered : Bool
  drop : Bool
  deriving DecidableEq, Repr, Inhabited

/-- A launch port entry (R42, R43); `held` is the launch that waits for a place in its class queue (R45). -/
structure PortEntry where
  id : Nat
  die : Nat
  part : Nat
  gid : Nat
  launch : Nat
  team : Nat
  seq : Nat
  task : Nat
  teams : Nat
  clsSel : Nat
  cls : Nat
  sa : Nat
  window : List Word
  sd : Nat
  pc : Nat
  drop : Bool
  held : Option Launch
  deriving DecidableEq, Repr, Inhabited

/-- A Slipway slot that holds a start (R291, R293), or one that a Moorings bin hands on (R329): arguments and origin. -/
structure Start where
  id : Nat
  slice : Nat
  part : Nat
  task : Nat
  teams : Nat
  cls : Option Nat
  desc : List Word
  args : List Word
  source : Source
  held : Option Launch
  deriving DecidableEq, Repr, Inhabited

/-- A running bin timer (R328). -/
structure BinTimer where
  id : Nat
  pa : Nat
  part : Nat
  deriving DecidableEq, Repr, Inhabited

/-- A jetty record (R330). -/
structure Jetty where
  num : Nat
  prst : Bool
  crst : Bool
  prod : Nat
  cons : Nat
  ringpa : Nat
  capm1 : Nat
  head : Nat
  count : Nat
  pushed : Word
  popped : Word
  deriving DecidableEq, Repr, Inhabited

/-- A reduction context: the physical address of its record, its round and the sums of its elements, with the dies whose switch holds it
(R389, R390). -/
structure FabCtx where
  part : Nat
  pa : Nat
  round : Word
  dies : List Nat
  elems : List FabElem
  waiting : Bool
  deriving DecidableEq, Repr, Inhabited

/-- A cached translation (R230, R231): the cache of a core, or the shared one of a die. -/
structure TlbEntry where
  die : Nat
  core : Option Nat
  part : Nat
  vbase : Nat
  size : Nat
  pbase : Nat
  r : Bool
  w : Bool
  x : Bool
  ord : Nat
  lines : List Nat
  deriving DecidableEq, Repr, Inhabited

/-- A line of a die's instruction level and the level-1 copies it covers (R64, R65). -/
structure ILine where
  die : Nat
  pa : Nat
  va : Nat
  asid : Nat
  mask : BitVec 48
  deriving DecidableEq, Repr, Inhabited

/-- A fill that a group waits for (R69): the core, the group and the line. -/
structure Fill where
  die : Nat
  core : Nat
  gid : Nat
  va : Nat
  deriving DecidableEq, Repr, Inhabited

/-- A prefetch that a demand fill has left to make (R70), or a translation that `pf` asked for (R248). -/
structure Prefetch where
  die : Nat
  core : Nat
  part : Nat
  va : Nat
  lo : Nat
  hi : Nat
  tagbase : Nat
  deriving DecidableEq, Repr, Inhabited

/-- What a demand fill found for a group (R69): the report it takes when it would issue from the line. -/
structure FillFault where
  gid : Nat
  va : Nat
  report : Report
  deriving DecidableEq, Repr, Inhabited

/-- A message from the device to the outside. -/
inductive HostMsg where
  | event (p : Nat) (w0 w1 : Word)
  | accepted (p : Nat)
  | busy (p : Nat)
  | unsupported (service : Nat)
  | writeDone (tag : Nat)
  | readData (tag : Nat) (data : List Byte)
  | atomicDone (tag : Nat) (old : Word)
  | accessError (tag : Nat)
  | partialOut (peer : Word) (p : Nat) (recVa round : Word) (elems : List PartialElem)
  | resultOut (peer : Word) (p : Nat) (recVa round : Word) (payload : List Byte)
  | mgmt (status : Nat) (data : List Byte)
  | spdm (code : Nat) (data : List Byte)
  deriving DecidableEq, Repr, Inhabited

/-- The stage of the management core (R399). -/
inductive Stage where
  | /-- the ROM runs: no Halone image has been accepted. -/ rom
  | halone
  deriving DecidableEq, Repr, Inhabited

/-- The secrets of a management session (R406): the one that the key exchange agreed on, and those of the two directions, from which the
keys of the secured messages and of the proofs follow. -/
structure SessionKeys where
  agreed : BitVec 384
  request : BitVec 384
  response : BitVec 384
  deriving DecidableEq, Repr, Inhabited

/-- The state of the one management session (R406), with the operator key of its requester. -/
inductive Session where
  | none
  | /-- keys exchanged, not finished. -/ handshake (key : BitVec 256) (keys : SessionKeys)
  | opened (key : BitVec 256) (keys : SessionKeys)
  deriving DecidableEq, Repr, Inhabited

/-- What the management core keeps (R399 to R408): `seed`, `idKey` and `aliasKey` are the identity seed and the two private keys (R403),
none before the start-up has derived them; `links` are the dies whose Caslan links are trained, C-dies 0 to 3 and then edge dies 0 and 1;
`waiting` are the commands that wait for a reset to end, oldest first (R407). -/
structure Mgmt where
  stage : Stage
  seed : Option (BitVec 256)
  idKey : Option (BitVec 256)
  aliasKey : Option (BitVec 256)
  idCert : List Byte
  aliasCert : List Byte
  links : BitVec 6
  ready : BitVec 256
  meas : List (BitVec 384)
  svns : List Nat
  opKeys : List (BitVec 256)
  session : Session
  samples : List Sample
  throttled : List Bool
  stopped : Bool
  waiting : List Instr
  deriving DecidableEq, Repr, Inhabited

/-- What moves next: a group issues, an operation or event of the part happens, or time passes. -/
inductive Act where
  | issue (gid : Nat)
  | event (i : Instr)
  | elapse (n : Nat)
  deriving DecidableEq, Repr, Inhabited

/-- The state of the module. `mem` lists the bytes of device memory that differ from zero, by rising address; `syn` the words whose
check bits differ from the code of their data, with the syndrome, and `corrected` counts the corrected words (R381). The fields from
`agenda` on are the model's own: which agent moves next, model time in cc, the count of issues, of identifiers and of free values taken,
and the issuing group. -/
structure State where
  mem : List Host.Cell
  syn : List (Nat × Nat)
  corrected : Nat
  presT : List (Nat × Nat)
  presC : List (Nat × Nat)
  retained : List ArrayId
  parts : List Part
  launches : List Launch
  teams : List Team
  groups : List Group
  coreWords : List (Nat × BitVec 32)
  launchCtrs : List (Nat × Nat × Nat)
  tlb : List TlbEntry
  ilines : List ILine
  fills : List Fill
  prefetches : List Prefetch
  fillFaults : List FillFault
  walks : List Prefetch
  reqs : List Req
  scores : List Score
  copies : List CopyCmd
  mxcmds : List MxCmd
  engines : List MxEngine
  fords : List FordOp
  ports : List PortEntry
  starts : List Start
  binLaunches : List Start
  binTimers : List BinTimer
  jettys : List Jetty
  fabs : List FabCtx
  mgmt : Mgmt
  outbox : List HostMsg
  agenda : List Act
  now : Nat
  seq : Nat
  nextId : Nat
  fresh : Nat
  cur : Option Nat
  deriving DecidableEq, Repr, Inhabited

/-- A class of events with a threshold and a period (R52). -/
def EvClass.start (threshold period : Nat) : EvClass := ⟨threshold, period, 0, none⟩

/-- The event classes of a newly configured partition (R52). -/
def EvClass.initial : List EvClass :=
  [.start 1 65536, .start 1 65536, .start 1 65536, .start 1 65536, .start 1 65536]

/-- Partition `p` before any configuration: the values of log entry 4. -/
def Part.unset (p : Nat) : Part where
  num := p
  pairs := 0
  ptroot := 0
  asidbase := 0
  tasktab := 0
  tstop := false
  taskcount := 0
  cmdq := 0
  weight := 0
  endpoint := p
  state := .none
  codeKey := 0
  cmdHead := 0
  cmdCount := 0
  cmdHeld := none
  queues := [[], [], [], []]
  entered := 0
  fq := 0
  save := 0
  pendEntries := []
  wdPeriod := 0
  wdCounts := [0, 0, 0, 0]
  diag := false
  events := EvClass.initial
  oldest := none
  reachable := true
  windows := List.replicate 16 none

/-- The management core after a module reset: measurement registers and readiness map are zero (R402, R404), and no image has been
accepted yet (R399). -/
def Mgmt.reset : Mgmt where
  stage := .rom
  seed := none
  idKey := none
  aliasKey := none
  idCert := []
  aliasCert := []
  links := 0
  ready := 0
  meas := List.replicate 8 0
  svns := [0, 0, 0, 0]
  opKeys := []
  session := .none
  samples := []
  throttled := [false, false, false, false]
  stopped := false
  waiting := []

/-- The module right after a module reset (R399): nothing is configured, no launch exists, nothing is in flight. -/
def State.reset : State where
  mem := []
  syn := []
  corrected := 0
  presT := []
  presC := []
  retained := []
  parts := (List.range 8).map Part.unset
  launches := []
  teams := []
  groups := []
  coreWords := []
  launchCtrs := []
  tlb := []
  ilines := []
  fills := []
  prefetches := []
  fillFaults := []
  walks := []
  reqs := []
  scores := []
  copies := []
  mxcmds := []
  engines := []
  fords := []
  ports := []
  starts := []
  binLaunches := []
  binTimers := []
  jettys := []
  fabs := []
  mgmt := .reset
  outbox := []
  agenda := []
  now := 0
  seq := 0
  nextId := 0
  fresh := 0
  cur := none

end Sys2Proof.Machine
end

