-- ==== Sys2Proof/Machine/Mem.lean ====
section
/-! DEFINITION. Device memory as a canonical list of cells, its check codes (R381), its regions and home slices (R224, R232), and
`Prog`, the form in which every meaning writes memory. -/

namespace Sys2Proof.Machine

/-- What an address that `mem` does not list reads as (log entry 3). -/
def Memory.blank : Byte := 0

/-- The byte at an address. -/
def Memory.get : List Host.Cell → Nat → Byte
  | [], _ => Memory.blank
  | (a', b) :: m, a => if a' = a then b else Memory.get m a

/-- Writes one byte and keeps the canonical form. -/
def Memory.put : List Host.Cell → Nat → Byte → List Host.Cell
  | [], a, b => if b = Memory.blank then [] else [(a, b)]
  | (a', b') :: m, a, b =>
    if a < a' then (if b = Memory.blank then (a', b') :: m else (a, b) :: (a', b') :: m)
    else if a = a' then (if b = Memory.blank then m else (a, b) :: m)
    else (a', b') :: Memory.put m a b

/-- The canonical form: addresses strictly rising, and no entry equal to what an unlisted address reads as. -/
abbrev Memory.wf (m : List Host.Cell) : Prop :=
  m.Pairwise (fun x y => x.1 < y.1) ∧ ∀ c ∈ m, c.2 ≠ Memory.blank

/-- `n` bytes from an address up. -/
def Memory.bytes (m : List Host.Cell) (a n : Nat) : List Byte := (List.range n).map fun i => Memory.get m (a + i)

/-- Writes bytes from an address up. -/
def Memory.putBytes (m : List Host.Cell) (a : Nat) : List Byte → List Host.Cell
  | [] => m
  | b :: bs => Memory.putBytes (Memory.put m a b) (a + 1) bs

/-- Bytes as a number, lowest byte first (R2). -/
def bytesNat : List Byte → Nat
  | [] => 0
  | b :: bs => b.toNat + 256 * bytesNat bs

/-- A number as `n` bytes, lowest first (R2). -/
def natBytes : Nat → Nat → List Byte
  | 0, _ => []
  | n + 1, v => BitVec.ofNat 8 v :: natBytes n (v / 256)

/-- A word as its eight bytes. -/
def wordBytes (w : Word) : List Byte := natBytes 8 w.toNat

/-- Words in their order of addresses. -/
def wordsBytes (ws : List Word) : List Byte := ws.flatMap wordBytes

/-- Bits [hi:lo] of a word as a number. -/
def bitsOf (w : Word) (lo len : Nat) : Nat := (w.extractLsb' lo len).toNat

/-! ### Regions and homes -/

/-- HBM4E holds 576 GiB from address 0 (R224). -/
def hbmEnd : Nat := 0x009000000000

/-- Slice SRAM (R224). -/
def sramBase : Nat := 0x00F000000000

/-- The end of slice SRAM (R224). -/
def sramEnd : Nat := 0x00F030000000

/-- A physical address that some memory backs (R224). -/
def backed (pa : Nat) : Bool := pa < hbmEnd || (sramBase ≤ pa && pa < sramEnd)

/-- A physical address in slice SRAM (R224). -/
def inSram (pa : Nat) : Bool := sramBase ≤ pa && pa < sramEnd

/-- Some bytes lie whole in slice SRAM. -/
def sramHolds (pa n : Nat) : Bool := inSram pa && decide (pa + n ≤ sramEnd)

/-- The home slice of a physical address (R224, R232). -/
def homeSlice (pa : Nat) : Nat :=
  if inSram pa then (pa - sramBase) / 0x200000
  else
    let g := pa / 4096
    let c := fun k => g / 2 ^ (5 * k) % 32
    let top := g / 2 ^ 35 % 2
    let stack := g / 32 % 2 ^ 31 % 12
    let loc := Nat.xor (Nat.xor (Nat.xor (Nat.xor (Nat.xor (Nat.xor (Nat.xor (c 0) (c 1)) (c 2)) (c 3)) (c 4)) (c 5)) (c 6)) top
    32 * stack + loc

/-- The C-die beside a slice's stack (R11). -/
def dieOfSlice (slice : Nat) : Nat := slice / 32 / 3

/-- The C-die of a core (R11). -/
def dieOfCore (core : Nat) : Nat := core / 48

/-- The pair of a core (R11). -/
def pairOfCore (core : Nat) : Nat := core / 2

/-! ### Check codes -/

/-- The number of set bits among the low 16. -/
def weight (n : Nat) : Nat := (List.range 16).countP fun i => n.testBit i

/-- Columns of the data bits in the 8-bit code (R381). -/
def cols8 : List Nat :=
  ((List.range 256).filter fun v => weight v == 3) ++ ((List.range 256).filter fun v => weight v == 5).take 8

/-- Columns of the data bits in the 16-bit code (R381). -/
def cols16 : List Nat := ((List.range 512).filter fun v => weight v == 3).take 64

/-- What a read makes of a syndrome (R381). -/
inductive Syndrome where
  | good
  | checkBit
  | dataBit (i : Nat)
  | uncorrectable
  deriving DecidableEq, Repr

/-- The table of R381. -/
def classify (cols : List Nat) (s : Nat) : Syndrome :=
  if s = 0 then .good
  else if weight s = 1 then .checkBit
  else match cols.findIdx? (· == s) with
    | some i => .dataBit i
    | none => .uncorrectable

/-- The syndrome recorded for a word, 0 where none is (R381). -/
def synOf (syn : List (Nat × Nat)) (w : Nat) : Nat := (syn.lookup w).getD 0

/-- Records a syndrome; 0 records nothing. -/
def synSet (syn : List (Nat × Nat)) (w v : Nat) : List (Nat × Nat) :=
  let r := syn.filter fun p => p.1 != w
  if v = 0 then r else (w, v) :: r

/-- The state of the device word at `w` (R381). -/
def devSyndrome (s : State) (w : Nat) : Syndrome := classify (if inSram w then cols8 else cols16) (synOf s.syn w)

/-- Flips bit `i` of a word of eight bytes. -/
def flipByte (i k : Nat) (b : Byte) : Byte := if i / 8 = k then b ^^^ BitVec.ofNat 8 (2 ^ (i % 8)) else b

/-- The aligned words that `n` bytes from `a` touch. -/
def wordsOf (a n : Nat) : List Nat :=
  if n = 0 then [] else (List.range ((a + n - 1) / 8 - a / 8 + 1)).map fun i => 8 * (a / 8 + i)

/-- The byte that a read delivers: corrected where one data bit is wrong (R381). -/
def devByte (s : State) (a : Nat) : Byte :=
  let b := Memory.get s.mem a
  if s.syn.isEmpty then b
  else match devSyndrome s (a / 8 * 8) with
    | .dataBit i => flipByte i (a % 8) b
    | _ => b

/-- The bytes that a read delivers. -/
def devBytes (s : State) (a n : Nat) : List Byte := (List.range n).map fun i => devByte s (a + i)

/-- A word that a read delivers. -/
def devWord (s : State) (a : Nat) : Word := BitVec.ofNat 64 (bytesNat (devBytes s a 8))

/-- The bytes touch an uncorrectable word (R369). -/
def devBad (s : State) (a n : Nat) : Bool :=
  !s.syn.isEmpty && (wordsOf a n).any fun w => devSyndrome s w == .uncorrectable

/-- A word as a unit of the device reads it: a free value where it is uncorrectable and no rule says what the unit makes of it. -/
def unitWord (s : State) (a : Nat) : Word := if devBad s a 8 then Config.lost s.fresh a else devWord s a

/-! ### Programs over memory -/

/-- What a meaning does: bytes written to device memory one by one, and changes to everything else. Writing memory only through
`poke` keeps its canonical form once for all meanings. -/
inductive Prog where
  | done
  | poke (a : Nat) (b : Byte) (k : Prog)
  | upd (f : State → State) (k : Prog)
  | dyn (f : State → Prog)

/-- Runs a program. An `upd` leaves device memory and the management core as they are. -/
def Prog.run : Prog → State → State
  | .done, s => s
  | .poke a b k, s => k.run { s with mem := Memory.put s.mem a b }
  | .upd f k, s => k.run { f s with mem := s.mem, mgmt := s.mgmt }
  | .dyn f, s => (f s).run s

/-- One program after another. -/
def Prog.seq : Prog → Prog → Prog
  | .done, q => q
  | .poke a b k, q => .poke a b (k.seq q)
  | .upd f k, q => .upd f (k.seq q)
  | .dyn f, q => .dyn fun s => (f s).seq q

/-- Programs one after another. -/
def Prog.all : List Prog → Prog
  | [] => .done
  | p :: ps => p.seq (Prog.all ps)

/-- A change to the state outside memory. -/
def Prog.change (f : State → State) : Prog := .upd f .done

/-- Bytes written to memory as they stand, with no check code and no invalidation. -/
def Prog.pokes : Nat → List Byte → Prog
  | _, [] => .done
  | a, b :: bs => .poke a b (Prog.pokes (a + 1) bs)

/-- A program where a condition holds. -/
def Prog.when (c : Bool) (p : Prog) : Prog := if c then p else .done

end Sys2Proof.Machine
end

