-- ==== Sys2Proof/Machine/Hash.lean ====
section
/-! DEFINITION. The hashes that the spec names by their standards: KMAC128 of NIST SP 800-185 for code tags (R68), SHA-384 of FIPS 180-4
for measurements (R402), HKDF of RFC 5869 over it for keys (R403), and SHA-512 and SHAKE, which the signatures of R401 use. -/

namespace Sys2Proof.Machine

/-! ### Keccak -/

/-- Rotates left by `n` of 64. -/
def rotl (w : Word) (n : Nat) : Word := w.rotateLeft n

/-- The rotation of lane (x, y), at place x + 5y. -/
def keccakRot : List Nat :=
  [0, 1, 62, 28, 27, 36, 44, 6, 55, 20, 3, 10, 43, 25, 39, 41, 45, 15, 21, 8, 18, 2, 61, 56, 14]

/-- The round constants. -/
def keccakRc : List Word :=
  [0x0000000000000001, 0x0000000000008082, 0x800000000000808A, 0x8000000080008000, 0x000000000000808B, 0x0000000080000001,
    0x8000000080008081, 0x8000000000008009, 0x000000000000008A, 0x0000000000000088, 0x0000000080008009, 0x000000008000000A] ++
  [0x000000008000808B, 0x800000000000008B, 0x8000000000008089, 0x8000000000008003, 0x8000000000008002, 0x8000000000000080,
    0x000000000000800A, 0x800000008000000A, 0x8000000080008081, 0x8000000000008080, 0x0000000080000001, 0x8000000080008008]

/-- A lane of a Keccak state. -/
def lane5 (a : List Word) (x y : Nat) : Word := a.getD (x % 5 + 5 * (y % 5)) 0

/-- One round of Keccak-f[1600]. -/
def keccakRound (a : List Word) (rc : Word) : List Word :=
  let c := (List.range 5).map fun x => lane5 a x 0 ^^^ lane5 a x 1 ^^^ lane5 a x 2 ^^^ lane5 a x 3 ^^^ lane5 a x 4
  let d := (List.range 5).map fun x => c.getD ((x + 4) % 5) 0 ^^^ rotl (c.getD ((x + 1) % 5) 0) 1
  let e := (List.range 25).map fun i => a.getD i 0 ^^^ d.getD (i % 5) 0
  -- B at (x, y) comes from the lane (x', y') with x = y' and y = 2x' + 3y'
  let b := (List.range 25).map fun i =>
    let x := i % 5
    let y := i / 5
    let x' := (x + 3 * y) % 5
    rotl (lane5 e x' x) (keccakRot.getD (x' + 5 * x) 0)
  let f := (List.range 25).map fun i =>
    let x := i % 5
    let y := i / 5
    lane5 b x y ^^^ (~~~(lane5 b (x + 1) y) &&& lane5 b (x + 2) y)
  f.modify 0 (· ^^^ rc)

/-- Keccak-f[1600]. -/
def keccakF (a : List Word) : List Word := keccakRc.foldl keccakRound a

/-- The word of eight bytes from place `i` of a list, lowest first. -/
def wordAt (bs : List Byte) (i : Nat) : Word := BitVec.ofNat 64 (bytesNat ((bs.drop i).take 8))

/-- Absorbs one block of `rate` bytes. -/
def absorb (rate : Nat) (a : List Word) (block : List Byte) : List Word :=
  keccakF ((List.range 25).map fun i => a.getD i 0 ^^^ (if 8 * i < rate then wordAt block (8 * i) else 0))

/-- Absorbs whole blocks; `fuel` bounds their number. -/
def absorbAll (rate : Nat) : Nat → List Word → List Byte → List Word
  | 0, a, _ => a
  | n + 1, a, bs => if bs.isEmpty then a else absorbAll rate n (absorb rate a (bs.take rate)) (bs.drop rate)

/-- The state of a sponge that has absorbed some bytes, with the suffix bits of its function as its first byte of padding. -/
def sponge (rate : Nat) (suffix : Byte) (bs : List Byte) : List Word :=
  let pad := rate - bs.length % rate
  let tail : List Byte := if pad = 1 then [suffix ||| 0x80] else suffix :: List.replicate (pad - 2) 0 ++ [0x80]
  let all := bs ++ tail
  absorbAll rate (all.length / rate) (List.replicate 25 0) all

/-- The first `n` blocks that a sponge puts out. -/
def squeeze (rate : Nat) : Nat → List Word → List Byte
  | 0, _ => []
  | n + 1, a => ((wordsBytes a).take rate) ++ squeeze rate n (keccakF a)

/-- SHAKE256 of FIPS 202: the first `n` bytes of its output. -/
def shake256 (bs : List Byte) (n : Nat) : List Byte := (squeeze 136 ((n + 135) / 136) (sponge 136 0x1F bs)).take n

/-- SHAKE128 of FIPS 202. -/
def shake128 (bs : List Byte) (n : Nat) : List Byte := (squeeze 168 ((n + 167) / 168) (sponge 168 0x1F bs)).take n

/-- cSHAKE128 with the suffix bits 00 of SP 800-185; the first eight bytes of its output. -/
def cshake64 (bs : List Byte) : Word := (sponge 168 0x04 bs).getD 0 0

/-- A number's bytes, most significant first, at least one. -/
def beBytes (n : Nat) : List Byte :=
  if n < 256 then [BitVec.ofNat 8 n]
  else if n < 65536 then [BitVec.ofNat 8 (n / 256), BitVec.ofNat 8 n]
  else [BitVec.ofNat 8 (n / 65536), BitVec.ofNat 8 (n / 256), BitVec.ofNat 8 n]

/-- left_encode of SP 800-185. -/
def leftEncode (n : Nat) : List Byte := BitVec.ofNat 8 (beBytes n).length :: beBytes n

/-- right_encode. -/
def rightEncode (n : Nat) : List Byte := beBytes n ++ [BitVec.ofNat 8 (beBytes n).length]

/-- encode_string. -/
def encodeString (bs : List Byte) : List Byte := leftEncode (8 * bs.length) ++ bs

/-- bytepad to 168 bytes. -/
def bytepad168 (bs : List Byte) : List Byte :=
  let l := leftEncode 168 ++ bs
  l ++ List.replicate ((168 - l.length % 168) % 168) 0

/-- The bytes of a text in ASCII. -/
def ascii (s : String) : List Byte := s.toList.map fun c => BitVec.ofNat 8 c.toNat

/-- KMAC128 with an output of 64 bits, first byte lowest. -/
def kmac64 (key msg custom : List Byte) : Word :=
  cshake64 (bytepad168 (encodeString (ascii "KMAC") ++ encodeString custom) ++ bytepad168 (encodeString key) ++ msg ++ rightEncode 64)

/-- The tag of a code line (R68). -/
def codeTag (key : BitVec 256) (line : List Byte) (va asid : Nat) : Word :=
  kmac64 (natBytes 32 key.toNat) (line ++ natBytes 8 (va % 2 ^ 52) ++ natBytes 2 asid) (ascii "LX96 CODE")

/-! ### SHA-384 and SHA-512 -/

/-- The 80 constants of SHA-384. -/
def shaK : List Word :=
  [0x428a2f98d728ae22, 0x7137449123ef65cd, 0xb5c0fbcfec4d3b2f, 0xe9b5dba58189dbbc, 0x3956c25bf348b538, 0x59f111f1b605d019,
    0x923f82a4af194f9b, 0xab1c5ed5da6d8118, 0xd807aa98a3030242, 0x12835b0145706fbe, 0x243185be4ee4b28c, 0x550c7dc3d5ffb4e2] ++
  [0x72be5d74f27b896f, 0x80deb1fe3b1696b1, 0x9bdc06a725c71235, 0xc19bf174cf692694, 0xe49b69c19ef14ad2, 0xefbe4786384f25e3,
    0x0fc19dc68b8cd5b5, 0x240ca1cc77ac9c65, 0x2de92c6f592b0275, 0x4a7484aa6ea6e483, 0x5cb0a9dcbd41fbd4, 0x76f988da831153b5] ++
  [0x983e5152ee66dfab, 0xa831c66d2db43210, 0xb00327c898fb213f, 0xbf597fc7beef0ee4, 0xc6e00bf33da88fc2, 0xd5a79147930aa725,
    0x06ca6351e003826f, 0x142929670a0e6e70, 0x27b70a8546d22ffc, 0x2e1b21385c26c926, 0x4d2c6dfc5ac42aed, 0x53380d139d95b3df] ++
  [0x650a73548baf63de, 0x766a0abb3c77b2a8, 0x81c2c92e47edaee6, 0x92722c851482353b, 0xa2bfe8a14cf10364, 0xa81a664bbc423001,
    0xc24b8b70d0f89791, 0xc76c51a30654be30, 0xd192e819d6ef5218, 0xd69906245565a910, 0xf40e35855771202a, 0x106aa07032bbd1b8] ++
  [0x19a4c116b8d2d0c8, 0x1e376c085141ab53, 0x2748774cdf8eeb99, 0x34b0bcb5e19b48a8, 0x391c0cb3c5c95a63, 0x4ed8aa4ae3418acb,
    0x5b9cca4f7763e373, 0x682e6ff3d6b2b8a3, 0x748f82ee5defb2fc, 0x78a5636f43172f60, 0x84c87814a1f0ab72, 0x8cc702081a6439ec] ++
  [0x90befffa23631e28, 0xa4506cebde82bde9, 0xbef9a3f7b2c67915, 0xc67178f2e372532b, 0xca273eceea26619c, 0xd186b8c721c0c207,
    0xeada7dd6cde0eb1e, 0xf57d4f7fee6ed178, 0x06f067aa72176fba, 0x0a637dc5a2c898a6, 0x113f9804bef90dae, 0x1b710b35131c471b] ++
  [0x28db77f523047d84, 0x32caab7b40c72493, 0x3c9ebe0a15c9bebc, 0x431d67c49c100d4c, 0x4cc5d4becb3e42b6, 0x597f299cfc657e2a,
    0x5fcb6fab3ad6faec, 0x6c44198c4a475817]

/-- The initial hash value of SHA-384. -/
def shaIv : List Word :=
  [0xcbbb9d5dc1059ed8, 0x629a292a367cd507, 0x9159015a3070dd17, 0x152fecd8f70e5939, 0x67332667ffc00b31, 0x8eb44a8768581511,
    0xdb0c2e0d64f98fa7, 0x47b5481dbefa4fa4]

/-- Rotates right. -/
def rotr (w : Word) (n : Nat) : Word := w.rotateRight n

/-- The message schedule, latest word first. -/
def shaSchedule : Nat → List Word → List Word
  | 0, ws => ws
  | n + 1, ws =>
    let x := ws.getD 14 0
    let y := ws.getD 1 0
    let s0 := rotr x 1 ^^^ rotr x 8 ^^^ (x >>> 7)
    let s1 := rotr y 19 ^^^ rotr y 61 ^^^ (y >>> 6)
    shaSchedule n ((ws.getD 15 0 + s0 + ws.getD 6 0 + s1) :: ws)

/-- One step of the compression. -/
def shaStep (h : List Word) (kw : Word) : List Word :=
  match h with
  | [a, b, c, d, e, f, g, hh] =>
    let t1 := hh + (rotr e 14 ^^^ rotr e 18 ^^^ rotr e 41) + ((e &&& f) ^^^ (~~~e &&& g)) + kw
    let t2 := (rotr a 28 ^^^ rotr a 34 ^^^ rotr a 39) + ((a &&& b) ^^^ (a &&& c) ^^^ (b &&& c))
    [t1 + t2, a, b, c, d + t1, e, f, g]
  | _ => h

/-- A big-endian word of a block. -/
def beWordAt (bs : List Byte) (i : Nat) : Word := BitVec.ofNat 64 (bytesNat ((bs.drop i).take 8).reverse)

/-- One block of 128 bytes. -/
def shaBlock (h : List Word) (block : List Byte) : List Word :=
  let w := (shaSchedule 64 ((List.range 16).map fun i => beWordAt block (8 * i)).reverse).reverse
  let r := (List.zipWith (· + ·) shaK w).foldl shaStep h
  List.zipWith (· + ·) h r

/-- Whole blocks; `fuel` bounds their number. -/
def shaBlocks : Nat → List Word → List Byte → List Word
  | 0, h, _ => h
  | n + 1, h, bs => if bs.isEmpty then h else shaBlocks n (shaBlock h (bs.take 128)) (bs.drop 128)

/-- The hash of some bytes from an initial value: 64 bytes. -/
def shaFrom (iv : List Word) (bs : List Byte) : List Byte :=
  let n := bs.length
  let zeros := (128 - (n + 17) % 128) % 128
  let all := bs ++ (0x80 : Byte) :: List.replicate zeros 0 ++ (natBytes 16 (8 * n)).reverse
  (shaBlocks (all.length / 128) iv all).flatMap fun w => (wordBytes w).reverse

/-- SHA-384: 48 bytes. -/
def sha384 (bs : List Byte) : List Byte := (shaFrom shaIv bs).take 48

/-- The initial hash value of SHA-512. -/
def sha512Iv : List Word :=
  [0x6a09e667f3bcc908, 0xbb67ae8584caa73b, 0x3c6ef372fe94f82b, 0xa54ff53a5f1d36f1, 0x510e527fade682d1, 0x9b05688c2b3e6c1f,
    0x1f83d9abfb41bd6b, 0x5be0cd19137e2179]

/-- SHA-512: 64 bytes. -/
def sha512 (bs : List Byte) : List Byte := shaFrom sha512Iv bs

/-! ### HKDF-SHA-384 -/

/-- HMAC-SHA-384 of RFC 2104, with a key of at most 128 bytes. -/
def hmac384 (key msg : List Byte) : List Byte :=
  let k := key ++ List.replicate (128 - key.length) 0
  sha384 (k.map (· ^^^ 0x5C) ++ sha384 (k.map (· ^^^ 0x36) ++ msg))

/-- HKDF-SHA-384 of RFC 5869 to 32 bytes: an absent salt is 48 zero bytes. -/
def hkdf384 (salt ikm info : List Byte) : List Byte := (hmac384 (hmac384 salt ikm) (info ++ [1])).take 32

end Sys2Proof.Machine
end

