-- ==== Sys2Proof/Machine/Flags.lean ====
section
/-! DEFINITION. The sticky flags of a group (R196) and of a team (R264), and how an instruction ORs them in (R197). -/

namespace Sys2Proof.Machine

/-- The floating sticky flags of one result (R196). -/
abbrev FFlags := BitVec 6

/-- No flag. -/
def ffNone : FFlags := 0
/-- nv: invalid (R196). -/
def ffNv : FFlags := 1
/-- dz: an exact infinity from a finite operand (R196). -/
def ffDz : FFlags := 2
/-- of: above the largest finite value (R196). -/
def ffOf : FFlags := 4
/-- uf: tiny after rounding and inexact (R196). -/
def ffUf : FFlags := 8
/-- nx: rounded inexactly (R196). -/
def ffNx : FFlags := 16
/-- sa: a value was clamped (R196). -/
def ffSa : FFlags := 32

/-- Flags raised by several lanes and elements (R197). -/
def orFlags (fs : List FFlags) : FFlags := fs.foldl (· ||| ·) 0

/-- An instruction ORs its flags into fflags (R197). -/
def Group.raiseFlags (g : Group) (f : FFlags) : Group := { g with fflags := g.fflags ||| f }

/-- of in mxflags (R264). -/
def mxOf : BitVec 8 := 1
/-- nv in mxflags. -/
def mxNv : BitVec 8 := 2
/-- sa in mxflags. -/
def mxSa : BitVec 8 := 4
/-- io in mxflags. -/
def mxIo : BitVec 8 := 16
/-- ue in mxflags. -/
def mxUe : BitVec 8 := 32
/-- cu in mxflags. -/
def mxCu : BitVec 8 := 64
/-- mv in mxflags. -/
def mxMv : BitVec 8 := 128

/-- An engine command ORs its flags into its team's mxflags (R264). -/
def Team.raiseMx (t : Team) (f : BitVec 8) : Team := { t with mxflags := t.mxflags ||| f }

/-- The nv, of and sa of lane flags as mxflags keeps them; no other flag is kept (R176, R274). -/
def mxOfFlags (f : FFlags) : BitVec 8 :=
  (if f &&& ffNv != 0 then mxNv else 0) ||| (if f &&& ffOf != 0 then mxOf else 0) ||| (if f &&& ffSa != 0 then mxSa else 0)

end Sys2Proof.Machine
end

