-- ==== Sys2Proof/WellFormed.lean ====
section
/-! DEFINITION. Which field values an encoding may hold: items 3 to 6 of R74, entry by entry. `Instr.illegalItem` gives the
lowest-numbered item that an instruction meets (R74), and `Instr.WellFormed` says that it meets none. -/

namespace Sys2Proof

/-- The four kinds of field check of R74; true means that no condition of that item holds. -/
structure Checks where
  /-- item 3: no reserved field is non-zero (R73, R78, R82, R88, R106). -/
  res0 : Bool := true
  /-- item 4: no value is reserved, outside its limit or in a forbidden combination. -/
  vals : Bool := true
  /-- item 5: the entry accepts the type code. -/
  types : Bool := true
  /-- item 6: no register operand breaks an alignment or range rule. -/
  regs : Bool := true
  deriving DecidableEq, Repr, Inhabited

/-- The lowest-numbered item of R74 that holds. -/
def Checks.item (c : Checks) : Option Nat :=
  if !c.res0 then some 3
  else if !c.vals then some 4
  else if !c.types then some 5
  else if !c.regs then some 6
  else none

/-- Types 7, 8 and 12 take register pairs (R95). -/
def isPairType (t : BitVec 4) : Bool := t == 7 || t == 8 || t == 12

/-- Types 9, 10 and 11 are floating (R94). -/
def isFloatType (t : BitVec 4) : Bool := t == 9 || t == 10 || t == 11

/-- The type code is one of `l`. -/
def typeIn (t : BitVec 4) (l : List Nat) : Bool := l.contains t.toNat

/-- An even register number (R95). -/
def isEven (r : BitVec 8) : Bool := r.toNat % 2 == 0

/-- Codes 13 to 15 are reserved (R94). -/
def typeVal (t : BitVec 4) : Bool := t.toNat < 13

/-- Rounding codes 5 to 7 are reserved (R96). -/
def rndVal (r : BitVec 3) : Bool := r.toNat < 5

/-- Scope codes 6 and 7 are reserved (R89). -/
def scopeVal (s : BitVec 3) : Bool := s.toNat < 6

/-- Swizzle kinds and parameter limits (R97). -/
def swzVal (k : BitVec 3) (p : BitVec 6) : Bool :=
  match k.toNat with
  | 0 => p == 0
  | 1 => p.toNat ≤ 5
  | 2 => 1 ≤ p.toNat && p.toNat ≤ 7
  | 3 => 1 ≤ p.toNat && p.toNat ≤ 6
  | 4 => true
  | _ => false

/-- With GE 0, GN and GP are zero (R73). -/
def Hdr.ok (h : Hdr) : Bool := h.ge || (!h.gn && h.gp == 0)

/-- In the C format GE, GN and GP are reserved (R73). -/
def Hdr.okC (h : Hdr) : Bool := !h.ge && !h.gn && h.gp == 0

/-- How an entry uses its rounding field (R78, R96). -/
inductive RndUse where
  | none        -- reserved
  | float       -- used by floating types, reserved otherwise
  | f32         -- used by type 9, reserved otherwise (`div`, R139)
  | used
  | zero        -- must be 0 (R191)
  deriving DecidableEq, Repr

/-- The rounding field is reserved and non-zero (item 3). -/
def rndRes0 (u : RndUse) (t : BitVec 4) (r : BitVec 3) : Bool :=
  match u with
  | .none => r == 0
  | .float => isFloatType t || r == 0
  | .f32 => t == 9 || r == 0
  | .used => true
  | .zero => true

/-- The rounding field holds a value the entry does not allow (item 4). -/
def rndVals (u : RndUse) (r : BitVec 3) : Bool :=
  match u with
  | .zero => r == 0
  | _ => rndVal r

/-- Pair operands name even registers (R95). -/
def pairRegs (t : BitVec 4) (rs : List (BitVec 8)) : Bool := !isPairType t || rs.all isEven

/-- VR entries with two sources, the second read through its swizzle (R77, R139, R143, R145). -/
def vr2Checks (types : List Nat) (u : RndUse) (sat : Bool) (h : Hdr) (f : VR) : Checks where
  res0 := h.ok && rndRes0 u f.type f.rnd && (sat || !f.sat)
  vals := typeVal f.type && rndVals u f.rnd && swzVal f.swk f.swp
  types := typeIn f.type types
  regs := pairRegs f.type [f.vd, f.va, f.vb]

/-- VR entries with one source, read through vb (R78). -/
def vr1Checks (types : List Nat) (u : RndUse) (sat : Bool) (h : Hdr) (f : VR) : Checks where
  res0 := h.ok && f.va == 0 && !f.lra && !f.eba && rndRes0 u f.type f.rnd && (sat || !f.sat)
  vals := typeVal f.type && rndVals u f.rnd && swzVal f.swk f.swp
  types := typeIn f.type types
  regs := pairRegs f.type [f.vd, f.vb]

/-- VI entries whose immediate is an operand (R79, R136, R188): `ik` 2 is refused for types 1 to 4 and required for the
floating types that the entry accepts. -/
def viChecks (types : List Nat) (u : RndUse) (sat : Bool) (h : Hdr) (f : VI) : Checks where
  res0 := h.ok && rndRes0 u f.type f.rnd && (sat || !f.sat)
  vals := typeVal f.type && rndVals u f.rnd && f.ik != 3
    && !(typeIn f.type [1, 2, 3, 4] && f.ik == 2) && !(isFloatType f.type && typeIn f.type types && f.ik != 2)
  types := typeIn f.type types
  regs := pairRegs f.type [f.vd, f.va]

/-- VS entries (R80, R139). -/
def vsChecks (types : List Nat) (u : RndUse) (sat : Bool) (h : Hdr) (f : VS) : Checks where
  res0 := h.ok && f.fn == 0 && rndRes0 u f.type f.rnd && (sat || !f.sat)
  vals := typeVal f.type && rndVals u f.rnd
  types := typeIn f.type types
  regs := pairRegs f.type [f.vd, f.va]

/-- V3 entries (R81). -/
def v3Checks (types : List Nat) (u : RndUse) (sat : Bool) (h : Hdr) (f : V3) : Checks where
  res0 := h.ok && rndRes0 u f.type f.rnd && (sat || !f.sat)
  vals := typeVal f.type && rndVals u f.rnd
  types := typeIn f.type types
  regs := pairRegs f.type [f.vd, f.va, f.vb, f.vc]

/-- `mov` in VI and VS has no source A (R141). -/
def movViChecks (h : Hdr) (f : VI) : Checks :=
  let c := viChecks [0, 1, 2, 3, 4, 5, 6, 7, 8, 9, 10, 11] .none false h f
  { c with res0 := c.res0 && f.va == 0 && !f.lra && !f.eba }

/-- `mov` in VS (R141). -/
def movVsChecks (h : Hdr) (f : VS) : Checks :=
  let c := vsChecks [0, 1, 2, 3, 4, 5, 6, 7, 8, 9, 10, 11, 12] .none false h f
  { c with res0 := c.res0 && f.va == 0 && !f.lra && !f.eba }

/-- `lea` (R142): sh stands in fn[17:14], that is the low four bits of fn. -/
def leaChecks (h : Hdr) (f : VS) : Checks where
  res0 := h.ok && f.fn.toNat < 16 && f.rnd == 0 && !f.sat
  vals := typeVal f.type
  types := typeIn f.type [5, 6]
  regs := isEven f.vd

/-- `bfx` (R148). -/
def bfxChecks (h : Hdr) (f : VI) : Checks where
  res0 := h.ok && f.imm.extractLsb' 12 4 == 0 && f.ik == 0 && f.rnd == 0 && !f.sat
  vals := typeVal f.type
    && (f.imm.extractLsb' 0 6).toNat + (f.imm.extractLsb' 6 6).toNat + 1 ≤ (if isPairType f.type then 64 else 32)
  types := typeIn f.type [5, 6, 7, 8]
  regs := pairRegs f.type [f.vd, f.va]

/-- `tag.set` (R204). -/
def tagSetChecks (h : Hdr) (f : VI) : Checks where
  res0 := h.ok && f.imm.extractLsb' 4 12 == 0 && f.type == 0 && f.ik == 0 && f.rnd == 0 && !f.sat
  vals := (f.imm.extractLsb' 0 4).toNat < 13
  regs := !(f.imm.extractLsb' 0 4 == 7 || f.imm.extractLsb' 0 4 == 8) || (isEven f.vd && isEven f.va)

/-- `tag.chk` (R205). -/
def tagChkChecks (h : Hdr) (f : VP) : Checks where
  res0 := h.ok && f.vb.extractLsb' 4 4 == 0 && f.swk == 0 && f.swp == 0 && !f.lrb && !f.ebb && !f.bs && f.type == 0
  vals := f.cond.toNat < 2 && (f.vb.extractLsb' 0 4).toNat < 13

/-- `cmp` (R82, R124). -/
def cmpChecks (h : Hdr) (f : VP) : Checks where
  res0 := h.ok && (!f.bs || (f.vb.extractLsb' 6 2 == 0 && f.swk == 0 && f.swp == 0 && !f.lrb && !f.ebb))
  vals := typeVal f.type && f.cond.toNat < 8 && (f.bs || swzVal f.swk f.swp)
    && (f.cond.toNat < 6 || isFloatType f.type) && (f.cond.toNat < 2 || !(f.type == 0 || f.type == 12))
  types := typeIn f.type [0, 5, 6, 7, 8, 9, 12]
  regs := pairRegs f.type (if f.bs then [f.va] else [f.va, f.vb])

/-- Types 1 to 8 are integer (R94). -/
def isIntType (t : BitVec 4) : Bool := 1 ≤ t.toNat && t.toNat ≤ 8

/-- The elements per lane of a type, a pair counting as 1 (R199). -/
def typeElems (t : BitVec 4) : Nat :=
  if t == 1 || t == 2 then 4 else if t == 3 || t == 4 || t == 10 || t == 11 then 2 else 1

/-- `cvt` (R198, R199). DEDUCED (log entry 12): rnd from integer to integer and SAT from floating to integer select nothing and are item 3. -/
def cvtChecks (h : Hdr) (f : CV) : Checks :=
  let es := typeElems f.stype
  let ed := typeElems f.dtype
  { res0 := h.ok && f.aux.extractLsb' 2 7 == 0
      && !(isIntType f.stype && isIntType f.dtype && f.rnd != 0)
      && !(isFloatType f.stype && isIntType f.dtype && f.sat)
    vals := typeVal f.dtype && typeVal f.stype && rndVal f.rnd && f.dtype != f.stype
      && (f.aux.extractLsb' 0 2).toNat < max es ed / min es ed
    types := typeIn f.dtype [1, 2, 3, 4, 5, 6, 7, 8, 9, 10, 11] && typeIn f.stype [1, 2, 3, 4, 5, 6, 7, 8, 9, 10, 11]
    regs := pairRegs f.stype [f.va] && pairRegs f.dtype [f.vd] }

/-- `cvt.todx` (R202). The odd register of width 16 is item 6. DEDUCED (log entry 12): dtype, rnd and SAT, which select nothing, are item 3. -/
def cvtTodxChecks (width : Nat) (h : Hdr) (f : CV) : Checks where
  res0 := h.ok && f.aux.extractLsb' 8 1 == 0 && f.dtype == 0 && f.rnd == 0 && !f.sat
  vals := typeVal f.stype && (f.aux.extractLsb' 0 4).toNat < 8 && f.aux.extractLsb' 4 4 != 0
  types := typeIn f.stype [9, 10, 11]
  regs := !(width == 16 && f.stype == 9) || isEven f.va

/-- `cvt.fromdx` (R203). -/
def cvtFromdxChecks (width : Nat) (h : Hdr) (f : CV) : Checks where
  res0 := h.ok && f.aux.extractLsb' 8 1 == 0
  vals := typeVal f.stype && typeVal f.dtype && rndVal f.rnd && (f.aux.extractLsb' 0 4).toNat < 8
    && (f.aux.extractLsb' 4 4).toNat ≤ (f.aux.extractLsb' 0 4).toNat
  types := typeIn f.dtype [9, 10, 11] && typeIn f.stype [0, 6]
  regs := !(width == 16 && f.dtype == 9) || isEven f.vd

/-- PR entries (R84, R125, R153): `a` and `b` say which sources are used and `fnBits` how many low fn bits. -/
def prChecks (a b : Bool) (fnBits : Nat) (h : Hdr) (f : PR) : Checks where
  res0 := h.ok && (a || (f.pa == 0 && !f.eba)) && (b || (f.pb == 0 && !f.ebb)) && f.fn.toNat < 2 ^ fnBits

/-- `vote`: kind 3 is reserved (R153). -/
def voteChecks (h : Hdr) (f : PR) : Checks :=
  { prChecks true false 2 h f with vals := f.fn.toNat != 3 }

/-- `shfl` in VR: only vb's index register is read, and pairs are even (R152). -/
def shflVrChecks (h : Hdr) (f : VR) : Checks := vr2Checks [0, 1, 2, 3, 4, 5, 6, 7, 8, 9, 10, 11, 12] .none false h f

/-- `shfl` in VS (R152). -/
def shflVsChecks (h : Hdr) (f : VS) : Checks := vsChecks [0, 1, 2, 3, 4, 5, 6, 7, 8, 9, 10, 11, 12] .none false h f

/-- `scan` and `red` (R155): swp[2:0] is the operation and swp[3] is EX in `scan`. -/
def scanChecks (red : Bool) (h : Hdr) (f : VR) : Checks :=
  let op := (f.swp.extractLsb' 0 3).toNat
  { res0 := h.ok && f.va == 0 && !f.lra && !f.eba && f.swk == 0 && f.swp.extractLsb' 4 2 == 0
      && (!red || f.swp.extractLsb' 3 1 == 0)
      && ((op == 0 && f.type == 9) || f.rnd == 0) && ((op == 0 && isIntType f.type) || !f.sat)
    vals := typeVal f.type && rndVal f.rnd && op < 6 && (if op < 3 then typeIn f.type [5, 6, 7, 8, 9] else typeIn f.type [0, 12])
    regs := pairRegs f.type [f.vd, f.vb] }

/-- `mov` into a uniform register (R158): fn[19:14] is N, fn[20] is FA, fn[30:21] is reserved, counted from bit 14. -/
def movSvChecks (h : Hdr) (f : SV) : Checks where
  res0 := h.ok && f.fn.extractLsb' 7 10 == 0
  vals := typeVal f.type && !(f.fn.extractLsb' 6 1 == 1 && f.fn.extractLsb' 0 6 != 0)
  regs := pairRegs f.type [f.va]

/-- `kpush` (R219). -/
def kpushChecks (h : Hdr) (f : VR) : Checks where
  res0 := h.ok && f.vd == 0 && f.va == 0 && !f.lra && !f.eba && f.rnd == 0 && !f.sat
  vals := typeVal f.type && swzVal f.swk f.swp
  types := typeIn f.type [0, 1, 2, 3, 4, 5, 6, 9, 10, 11]

/-- The three forms of `kpop` (R220). -/
def kpopChecks (form : Nat) (h : Hdr) (f : VR) : Checks where
  res0 := h.ok && f.va.extractLsb' 2 6 == 0 && !f.lra && !f.eba && f.swk == 0 && f.swp == 0 && !f.lrb && f.rnd == 0 && !f.sat
    && f.vb.extractLsb' 3 5 == 0 && (form == 1 || f.vb == 0)
  vals := typeVal f.type && f.va.toNat % 4 == form
  types := if form == 2 then f.type == 6 else typeIn f.type [0, 1, 2, 3, 4, 5, 6, 9, 10, 11]

/-- `kclr`: bits [46:0] are reserved (R221). -/
def kclrChecks (h : Hdr) (f : VR) : Checks where
  res0 := h.ok && f == ⟨0, 0, 0, 0, 0, false, false, false, false, 0, 0, false⟩

/-- `xv` (R87, R215). -/
def xvChecks (h : Hdr) (f : XF) : Checks where
  res0 := h.ok
  regs := f.vbase.toNat ≤ 248

/-- The special-value names of R134 that `rds` accepts. -/
def rdsChecks (h : Hdr) (f : RS) : Checks where
  res0 := h.ok
  vals := f.name.toNat ≤ 0x14 && !(f.dv && 0x0D ≤ f.name.toNat)
  regs := f.dv || f.d.extractLsb' 6 2 == 0

/-- The pairs of size and type that a load or store accepts (R241). -/
def sizeTypeOk (uniform : Bool) (f : MF) : Bool :=
  if uniform then (f.size.toNat ≤ 2 && typeIn f.type [0, 5, 6]) || (f.size == 3 && typeIn f.type [7, 8, 12])
  else
    (f.size.toNat ≤ 1 && typeIn f.type [0, 5, 6]) || (f.size == 3 && typeIn f.type [7, 8, 12])
      || ((f.size == 2 || f.size == 4) && typeIn f.type [0, 1, 2, 3, 4, 5, 6, 9, 10, 11])

/-- What the lane-wise and per-group memory entries share (R88, R240, R241). DEDUCED (log entry 12): bits 7:6 of vt in `ldu` and `stu`, which
name no register of S, are item 3. -/
def mChecks (load uniform pf : Bool) (scratch bounded pairIx : Bool) (maxSync : Nat) (h : Hdr) (f : MF) : Checks where
  res0 := h.ok && (f.ix || (f.vi == 0 && !f.lri && !f.ebi)) && (!load || (!f.lrt && !f.ebt))
    && (f.sync == 1 || f.scope == 0) && (!uniform || (f.vt.extractLsb' 6 2 == 0 && !f.lrt))
    && (!pf || (f.vt == 0 && f.type == 0 && f.sync == 0))
  vals := typeVal f.type && f.size.toNat < 5 && scopeVal f.scope && f.sync.toNat ≤ maxSync
    && !(scratch && f.sync == 1 && 2 < f.scope.toNat) && (pf || sizeTypeOk uniform f) && !(uniform && f.ix)
  regs := !(bounded && f.sb == 63) && !(pairIx && f.ix && !isEven f.vi)
    && (uniform || pf || ((f.size != 3 || isEven f.vt) && (f.size != 4 || f.vt.toNat % 4 == 0)))

/-- The types and sizes of atomics (R287). -/
def aopTypes (aop : BitVec 4) (t : BitVec 4) (size : BitVec 3) : Bool :=
  (if aop.toNat < 4 then typeIn t [5, 6, 7, 8] else typeIn t [0, 5, 6, 7, 8, 12])
  && (if isPairType t then size == 3 else size == 2)

/-- `at` (R286). DEDUCED (log entry 12): bits 7:6 of vt, x and y under UNI, which name no register of S, are item 3. -/
def atChecks (h : Hdr) (f : MF) (x : AtX) : Checks where
  res0 := h.ok && !f.lrt && !f.ebt && (f.ix || (f.vi == 0 && !f.lri && !f.ebi)) && (f.sync == 1 || f.scope == 0)
    && (x.aop == 8 || (x.y == 0 && !x.lry && !x.eby))
    && (!x.uni || (f.vt.extractLsb' 6 2 == 0 && x.x.extractLsb' 6 2 == 0 && x.y.extractLsb' 6 2 == 0 && !x.lrx && !x.lry))
  vals := typeVal f.type && f.size.toNat < 5 && scopeVal f.scope && f.sync.toNat ≤ 1 && x.aop.toNat ≤ 8
    && aopTypes x.aop f.type f.size && !(x.uni && f.ix)
  regs := (x.uni || pairRegs f.type [f.vt, x.x, x.y]) && !(f.ix && !isEven f.vi)

/-- `atc` (R289). -/
def atcChecks (h : Hdr) (f : MF) (x : AtcX) : Checks where
  res0 := h.ok && f.vt.extractLsb' 6 2 == 0 && f.vi == 0 && !f.ix && !f.lri && !f.ebi && !f.lrt && !f.ebt && (f.sync == 1 || f.scope == 0)
  vals := typeVal f.type && f.size.toNat < 5 && f.sync == 1 && (f.scope == 4 || f.scope == 5) && x.aop.toNat ≤ 8
    && x.cond.toNat ≤ 5 && (x.aop != 8 || x.cond == 0) && aopTypes x.aop f.type f.size

/-- `diag.st` (R382). -/
def diagStChecks (h : Hdr) (f : MF) : Checks where
  res0 := h.ok && f.vt.extractLsb' 6 2 == 0 && f.vi.extractLsb' 6 2 == 0 && !f.ix && f.scope == 0 && !f.lrt && !f.lri && !f.ebi
  vals := typeVal f.type && f.size == 3 && f.sync.toNat ≤ 1
  types := f.type == 12

/-- A UR entry: which of sd, sa, sb it uses and how many low fn bits it names (R90). -/
def urChecks (sd sa sb : Bool) (fnBits : Nat) (h : Hdr) (f : UR) : Checks where
  res0 := h.ok && (sd || f.sd == 0) && (sa || f.sa == 0) && (sb || f.sb == 0) && f.fn.toNat < 2 ^ fnBits

/-- A field of fn. -/
def UR.fld (f : UR) (lo len : Nat) : Nat := (f.fn.extractLsb' lo len).toNat

/-- `sig.add` and `wait.ge` (R277, R279): scope at `lo`, SP in fn[0]. -/
def counterChecks (lo bits : Nat) (h : Hdr) (f : UR) : Checks :=
  { urChecks false true true bits h f with
    vals := f.fld lo 3 < 6 && !(f.fld 0 1 == 1 && 2 < f.fld lo 3) }

/-- `fence` (R295). -/
def fenceChecks (h : Hdr) (f : UR) : Checks :=
  { urChecks false false false 5 h f with vals := f.fld 0 3 < 6 && f.fld 3 2 != 3 }

/-- `xfence` (R298). -/
def xfenceChecks (h : Hdr) (f : UR) : Checks :=
  { urChecks false false false 9 h f with
    vals := f.fld 0 3 != 7 && f.fld 3 3 != 7 && f.fld 0 3 != f.fld 3 3 && f.fld 6 3 < 6 }

/-- Uniform arithmetic (R159, R160): condition only for `cmp`, SAT where allowed. -/
def uniChecks (types : List Nat) (sat : BitVec 4 → Bool) (h : Hdr) (f : UR) : Checks :=
  let t : BitVec 4 := f.fn.extractLsb' 0 4
  { res0 := h.ok && f.fld 7 4 == 0 && f.fld 11 18 == 0 && (sat t || f.fld 4 1 == 0)
    vals := typeVal t
    types := typeIn t types }

/-- Uniform `cmp` (R161). -/
def uniCmpChecks (h : Hdr) (f : UR) : Checks :=
  let t : BitVec 4 := f.fn.extractLsb' 0 4
  { res0 := h.ok && f.fld 4 1 == 0 && f.fld 11 18 == 0
    vals := typeVal t && f.fld 7 4 < 6 && !(t == 12 && 2 ≤ f.fld 7 4)
    types := typeIn t [5, 6, 7, 8, 12] }

/-- A block of `n` uniform registers from `r` stays at or below S63 (R252, R322). -/
def blockOk (r : BitVec 6) (n : Nat) : Bool := r.toNat + n ≤ 64

/-- `cp` and `cpx` (R255, R256). -/
def copyChecks (x : Option CpxX) (h : Hdr) (f : UR) : Checks :=
  let conv := f.fld 7 3
  let cs := f.fld 1 2
  let dx := conv == 1 || conv == 2
  { res0 := h.ok && f.sd == 0 && (cs != 0 || (f.sb == 0 && f.fld 3 3 == 0)) && f.fld 17 12 == 0
      && (x.isSome || conv == 0) && (dx || (f.fld 13 4 == 0 && f.fld 10 3 == 0))
    vals := cs != 3 && conv < 4 && f.fld 3 3 < 6 && !(dx && f.fld 13 4 == 0) && !(conv != 0 && f.fld 0 1 == 1)
      && (match x with
          | none => true
          | some x => x.rowlen != 0 && !(conv == 1 && x.rowlen.toNat % 128 != 0)
              && !(conv == 2 && x.rowlen.toNat % 64 != 0) && !(conv == 3 && x.rowlen.toNat % 32 != 0))
    regs := blockOk f.sa (if x.isSome then 4 else 3) }

/-- Magnitude width of a matrix operand format, 0 for a reserved code (R268). -/
def mxPlanes (fmt : BitVec 4) : Nat :=
  if 1 ≤ fmt.toNat && fmt.toNat ≤ 8 then fmt.toNat else if fmt == 9 then 7 else 0

/-- `mloop` and `mloop.sp` (R268). -/
def mloopChecks (sparse : Bool) (h : Hdr) (f : UR) (x : MloopX) : Checks where
  res0 := h.ok && f.sb == 0 && f.fn.toNat < 2 && (sparse || x.pat == 0)
  vals := mxPlanes x.afmt != 0 && mxPlanes x.bfmt != 0 && (x.afmt == 9) == (x.bfmt == 9) && x.pat.toNat < 2
    && x.pa.toNat + 1 ≤ mxPlanes x.afmt && x.pb.toNat + 1 ≤ mxPlanes x.bfmt && x.kcount != 0 && !(x.me && x.afmt == 9)
  regs := blockOk f.sa (if sparse then 7 else if x.me then 5 else 4)

/-- `mst` (R272). -/
def mstChecks (h : Hdr) (f : UR) : Checks :=
  let form := f.fld 4 2
  { res0 := h.ok && f.sb == 0 && f.fld 14 15 == 0 && (form == 2 || f.fld 6 7 == 0)
    vals := form != 3 && !(form == 2 && f.fld 9 4 == 0)
    regs := blockOk f.sa 2 }

/-- Queue, bin and jetty entries (R322): block of n registers at sb. -/
def queueChecks (n fnBits : Nat) (h : Hdr) (f : UR) : Checks :=
  { urChecks true true true fnBits h f with regs := blockOk f.sb n }

/-- `launch` (R40, R41). -/
def launchChecks (h : Hdr) (f : UR) : Checks where
  res0 := h.ok && f.fld 0 26 == 0
  vals := f.fld 27 2 != 3

/-- `syscall` (R380): an sa of 63 is refused. -/
def syscallChecks (h : Hdr) (f : UR) : Checks :=
  { urChecks true true true 17 h f with regs := f.sa != 63 }

/-- Control entries (R92, R128): whether off16 names a target and whether a condition is refused, allowed or required. -/
def cChecks (target : Bool) (cond : Nat) (h : Hdr) (f : CF) : Checks where
  res0 := h.okC && (target || f.off == 0)
    && (if cond == 0 then !f.ce && f.cp == 0 && !f.cn && !f.ebp else (f.ce || (f.cp == 0 && !f.cn && !f.ebp && cond != 2) || cond == 2))
  vals := cond != 2 || f.ce

/-- The immediate of UI: ik 3 is reserved (R91). -/
def uiChecks (sa : Bool) (h : Hdr) (f : UI) : Checks where
  res0 := h.ok && (sa || f.sa == 0)
  vals := f.ik != 3

def intTypes : List Nat := [1, 2, 3, 4, 5, 6, 7, 8]
def arithTypes : List Nat := [1, 2, 3, 4, 5, 6, 7, 8, 9, 10, 11]
def shiftTypes : List Nat := [0, 1, 2, 3, 4, 5, 6, 7, 8, 12]
def rawTypes : List Nat := [0, 12]
def floatTypes : List Nat := [9, 10, 11]
def uniTypes : List Nat := [5, 6, 7, 8]

/-- The checks of each entry. `width` is the declared width of the group (R74 item 6). An operation or event of the part
is no encoding and has no field to check. -/
def Instr.checks (width : Nat) (i : Instr) : Checks :=
  match i with
  | .addVr h f => vr2Checks arithTypes .float true h f
  | .subVr h f => vr2Checks arithTypes .float true h f
  | .mulVr h f => vr2Checks arithTypes .float true h f
  | .mulhi h f => vr2Checks intTypes .none false h f
  | .minVr h f => vr2Checks arithTypes .none false h f
  | .maxVr h f => vr2Checks arithTypes .none false h f
  | .abs h f => vr1Checks [1, 3, 5, 7, 9, 10, 11] .none true h f
  | .neg h f => vr1Checks [1, 3, 5, 7, 9, 10, 11] .none true h f
  | .div h f => vr2Checks [1, 2, 3, 4, 5, 6, 7, 8, 9] .f32 true h f
  | .rem h f => vr2Checks intTypes .none false h f
  | .shlVr h f => vr2Checks shiftTypes .none true h f
  | .shrVr h f => vr2Checks shiftTypes .none false h f
  | .rshrVr h f => vr2Checks intTypes .used false h f
  | .adiff h f => vr2Checks intTypes .none false h f
  | .mad h f => v3Checks intTypes .none true h f
  | .andVr h f => vr2Checks rawTypes .none false h f
  | .orVr h f => vr2Checks rawTypes .none false h f
  | .xorVr h f => vr2Checks rawTypes .none false h f
  | .andn h f => vr2Checks rawTypes .none false h f
  | .notVr h f => vr1Checks rawTypes .none false h f
  | .movVr h f => vr1Checks [0, 1, 2, 3, 4, 5, 6, 7, 8, 9, 10, 11, 12] .none false h f
  | .popc h f => vr1Checks rawTypes .none false h f
  | .clz h f => vr1Checks rawTypes .none false h f
  | .ctz h f => vr1Checks rawTypes .none false h f
  | .brev h f => vr1Checks rawTypes .none false h f
  | .bdep h f => vr2Checks rawTypes .none false h f
  | .bext h f => vr2Checks rawTypes .none false h f
  | .bperm h f => vr2Checks [12] .none false h f
  | .gfmat h f => vr2Checks [12] .none false h f
  | .bfx h f => bfxChecks h f
  | .bfi h f => v3Checks rawTypes .none false h f
  | .addVi h f => viChecks arithTypes .float true h f
  | .rsub h f => viChecks intTypes .none true h f
  | .mulVi h f => viChecks arithTypes .float true h f
  | .andVi h f => viChecks rawTypes .none false h f
  | .orVi h f => viChecks rawTypes .none false h f
  | .xorVi h f => viChecks rawTypes .none false h f
  | .shlVi h f => viChecks shiftTypes .none true h f
  | .shrVi h f => viChecks shiftTypes .none false h f
  | .rshrVi h f => viChecks intTypes .used false h f
  | .minVi h f => viChecks arithTypes .none false h f
  | .maxVi h f => viChecks arithTypes .none false h f
  | .movVi h f => movViChecks h f
  | .addVs h f => vsChecks arithTypes .float true h f
  | .subVs h f => vsChecks arithTypes .float true h f
  | .mulVs h f => vsChecks arithTypes .float true h f
  | .andVs h f => vsChecks rawTypes .none false h f
  | .orVs h f => vsChecks rawTypes .none false h f
  | .xorVs h f => vsChecks rawTypes .none false h f
  | .shlVs h f => vsChecks shiftTypes .none true h f
  | .shrVs h f => vsChecks shiftTypes .none false h f
  | .minVs h f => vsChecks arithTypes .none false h f
  | .maxVs h f => vsChecks arithTypes .none false h f
  | .movVs h f => movVsChecks h f
  | .lea h f => leaChecks h f
  | .fma h f => v3Checks floatTypes .used true h f
  | .sqrt h f => vr1Checks floatTypes .used false h f
  | .exp2 h f => vr1Checks floatTypes .zero true h f
  | .log2 h f => vr1Checks floatTypes .zero false h f
  | .rcp h f => vr1Checks floatTypes .zero true h f
  | .rsqrt h f => vr1Checks floatTypes .zero false h f
  | .tanh h f => vr1Checks floatTypes .zero false h f
  | .sigm h f => vr1Checks floatTypes .zero false h f
  | .rndi h f => vr1Checks floatTypes .used false h f
  | .fclass h f => vr1Checks floatTypes .none false h f
  | .scale h f => vr2Checks floatTypes .used true h f
  | .copysign h f => vr2Checks floatTypes .none false h f
  | .cvt h f => cvtChecks h f
  | .cvtTodx h f => cvtTodxChecks width h f
  | .cvtFromdx h f => cvtFromdxChecks width h f
  | .tagSet h f => tagSetChecks h f
  | .tagChk h f => tagChkChecks h f
  | .cmp h f => cmpChecks h f
  | .pand h f => prChecks true true 2 h f
  | .por h f => prChecks true true 2 h f
  | .pxor h f => prChecks true true 2 h f
  | .pnot h f => prChecks true false 0 h f
  | .pmov h f => prChecks true false 0 h f
  | .pset h f => prChecks false false 1 h f
  | .xv h f => xvChecks h f
  | .kpush h f => kpushChecks h f
  | .kpop h f => kpopChecks 0 h f
  | .kpopKeep h f => kpopChecks 1 h f
  | .kpopDepth h f => kpopChecks 2 h f
  | .kclr h f => kclrChecks h f
  | .shflVr h f => shflVrChecks h f
  | .shflVs h f => shflVsChecks h f
  | .vote h f => voteChecks h f
  | .ballot h f => urChecks true true false 1 h f
  | .scan h f => scanChecks false h f
  | .red h f => scanChecks true h f
  | .ld h f => mChecks true false false false false true 1 h f
  | .st h f => mChecks false false false false false true 1 h f
  | .ldS h f => mChecks true false false true false false 3 h f
  | .stS h f => mChecks false false false true false false 1 h f
  | .ldu h f => mChecks true true false false false false 1 h f
  | .stu h f => mChecks false true false false false false 1 h f
  | .pf h f => mChecks true false true false false true 0 h f
  | .ldb h f => mChecks true false false false true false 1 h f
  | .stb h f => mChecks false false false false true false 1 h f
  | .atM h f x => atChecks h f x
  | .atc h f x => atcChecks h f x
  | .sigAdd h f => counterChecks 1 5 h f
  | .waitGe h f => counterChecks 2 6 h f
  | .fence h f => fenceChecks h f
  | .xfence h f => xfenceChecks h f
  | .addUr h f => uniChecks uniTypes (fun _ => true) h f
  | .subUr h f => uniChecks uniTypes (fun _ => true) h f
  | .mulUr h f => uniChecks uniTypes (fun _ => true) h f
  | .divUr h f => uniChecks uniTypes (fun _ => true) h f
  | .remUr h f => uniChecks uniTypes (fun _ => false) h f
  | .andUr h f => uniChecks [12] (fun _ => false) h f
  | .orUr h f => uniChecks [12] (fun _ => false) h f
  | .xorUr h f => uniChecks [12] (fun _ => false) h f
  | .shlUr h f => uniChecks [5, 6, 7, 8, 12] (fun t => typeIn t uniTypes) h f
  | .shrUr h f => uniChecks [5, 6, 7, 8, 12] (fun _ => false) h f
  | .minUr h f => uniChecks uniTypes (fun _ => false) h f
  | .maxUr h f => uniChecks uniTypes (fun _ => false) h f
  | .cmpUr h f => uniCmpChecks h f
  | .addUi h f => uiChecks true h f
  | .movUi h f => uiChecks false h f
  | .movSv h f => movSvChecks h f
  | .movl h f _ => urChecks true false false 8 h f
  | .ifC h f => cChecks true 2 h f
  | .elseC h f => cChecks true 0 h f
  | .endifC h f => cChecks false 0 h f
  | .loopC h f => cChecks false 0 h f
  | .endloopC h f => cChecks true 1 h f
  | .brkC h f => cChecks true 1 h f
  | .contC h f => cChecks true 1 h f
  | .retC h f => cChecks false 1 h f
  | .exitC h f => cChecks true 1 h f
  | .callC h f _ => cChecks false 0 h f
  | .launch h f => launchChecks h f
  | .bar h f => urChecks false false false 3 h f
  | .nop h f => urChecks false false false 0 h f
  | .rds h f => rdsChecks h f
  | .cp h f => copyChecks none h f
  | .cpx h f x => copyChecks (some x) h f
  | .mres h f => urChecks true true false 1 h f
  | .mrel h f => urChecks true false false 0 h f
  | .mld h f => { urChecks true true false 6 h f with regs := blockOk f.sa 2 }
  | .mst h f => mstChecks h f
  | .mzero h f => urChecks true false false 5 h f
  | .osmMax h f => { urChecks true true false 5 h f with regs := blockOk f.sa 3 }
  | .osmAcc h f => urChecks true true false 5 h f
  | .mloop h f x => mloopChecks false h f x
  | .mloopSp h f x => mloopChecks true h f x
  | .fbRed h f => { urChecks true true false 1 h f with regs := blockOk f.sa 4 }
  | .fbBcast h f => { urChecks true true false 1 h f with regs := blockOk f.sa 4 }
  | .qPush h f => queueChecks 8 1 h f
  | .qPop h f => queueChecks 8 1 h f
  | .binPut h f => queueChecks 8 1 h f
  | .jyPush h f => queueChecks 2 1 h f
  | .jyPop h f => queueChecks 2 2 h f
  | .tsDesc h f => queueChecks 3 7 h f
  | .tsBack h f => queueChecks 2 3 h f
  | .tsExp h f => queueChecks 3 2 h f
  | .tsRoot h f => queueChecks 1 2 h f
  | .tsAnc h f => queueChecks 3 14 h f
  | .trap h f => urChecks false true false 17 h f
  | .syscall h f => syscallChecks h f
  | .diagSt h f => diagStChecks h f
  | .commandSendArrival _ _ => {}
  | .launchCommand _ => {}
  | .stopTaskTable _ => {}
  | .restartTaskTable _ => {}
  | .resetPartition _ => {}
  | .partitionResetComplete _ => {}
  | .launchPortHandoff _ => {}
  | .heldLaunchEntry _ => {}
  | .teamPlacement _ => {}
  | .teamDiscardSave _ => {}
  | .acknowledgementReturn _ => {}
  | .teamRetirement _ => {}
  | .launchCompletion _ => {}
  | .launchFaultEnd _ => {}
  | .eventTimerExpiry _ _ => {}
  | .instructionFill _ => {}
  | .sequentialPrefetch _ => {}
  | .passOver _ => {}
  | .translationWalk _ => {}
  | .homeSliceAccess _ => {}
  | .waitTableRetry _ => {}
  | .watchRearm _ => {}
  | .watchdogFire _ => {}
  | .pageReply _ _ _ => {}
  | .pendingFaultEntry _ => {}
  | .copyCommandStart _ => {}
  | .copyCounterStep _ _ => {}
  | .copyCommandComplete _ => {}
  | .matrixEngineStep _ => {}
  | .atcSlicePerform _ => {}
  | .slipwayHandoff _ _ => {}
  | .binTimerExpiry _ => {}
  | .binLaunchHandoff _ _ => {}
  | .fordAcceptance _ => {}
  | .fordAction _ => {}
  | .freeingPush _ => {}
  | .partialMessage _ _ _ _ => {}
  | .resultMessage _ _ _ _ => {}
  | .remoteWrite _ _ => {}
  | .remoteRead _ _ => {}
  | .remoteFetchAdd _ _ => {}
  | .remoteSwap _ _ => {}
  | .remoteCompareSwap _ _ _ => {}
  | .unsupportedUePacket _ => {}
  | .getVersion => {}
  | .getCapabilities => {}
  | .negotiateAlgorithms => {}
  | .getDigests => {}
  | .getCertificate => {}
  | .challenge _ => {}
  | .getMeasurements => {}
  | .keyExchange _ _ => {}
  | .finish _ => {}
  | .heartbeat => {}
  | .keyUpdate => {}
  | .endSession => {}
  | .readReadinessMap => {}
  | .configurePartition _ _ _ _ => {}
  | .startPartition _ => {}
  | .stopPartition _ => {}
  | .managementResetPartition _ => {}
  | .readCodeKey _ => {}
  | .setWatchdogPeriod _ _ => {}
  | .createJetty _ _ _ _ _ => {}
  | .clearJettyReset _ => {}
  | .setMemoryWindow _ _ _ => {}
  | .setEventThresholds _ _ _ _ => {}
  | .grantDiagnostics _ _ => {}
  | .readFaultQueueAddresses _ => {}
  | .readPowerAndTemperatures => {}
  | .moduleReset _ _ => {}
  | .unitReady _ => {}
  | .thermalThrottle _ => {}
  | .throttleEnd _ => {}
  | .criticalShutdown _ => {}
  | .retentionEntry _ => {}
  | .retentionExit _ => {}
  | .bankAccess _ => {}
  | .matrixCommandComplete _ => {}
  | .reservedMajor _ => {}
  | .reservedCommand _ => {}

/-- The item of R74 that an encoding meets, none where it meets none. -/
def Instr.illegalItem (width : Nat) (i : Instr) : Option Nat := (i.checks width).item

/-- An instruction whose fields meet no item of R74. -/
abbrev Instr.WellFormed (width : Nat) (i : Instr) : Prop := i.illegalItem width = none

/-- The instruction rows of the table: those that have an encoding. The word of a reserved major is not one (R105). -/
def Instr.isEvent : Instr → Bool
  | .commandSendArrival _ _ => true
  | .launchCommand _ => true
  | .stopTaskTable _ => true
  | .restartTaskTable _ => true
  | .resetPartition _ => true
  | .partitionResetComplete _ => true
  | .launchPortHandoff _ => true
  | .heldLaunchEntry _ => true
  | .teamPlacement _ => true
  | .teamDiscardSave _ => true
  | .acknowledgementReturn _ => true
  | .teamRetirement _ => true
  | .launchCompletion _ => true
  | .launchFaultEnd _ => true
  | .eventTimerExpiry _ _ => true
  | .instructionFill _ => true
  | .sequentialPrefetch _ => true
  | .passOver _ => true
  | .translationWalk _ => true
  | .homeSliceAccess _ => true
  | .waitTableRetry _ => true
  | .watchRearm _ => true
  | .watchdogFire _ => true
  | .pageReply _ _ _ => true
  | .pendingFaultEntry _ => true
  | .copyCommandStart _ => true
  | .copyCounterStep _ _ => true
  | .copyCommandComplete _ => true
  | .matrixEngineStep _ => true
  | .atcSlicePerform _ => true
  | .slipwayHandoff _ _ => true
  | .binTimerExpiry _ => true
  | .binLaunchHandoff _ _ => true
  | .fordAcceptance _ => true
  | .fordAction _ => true
  | .freeingPush _ => true
  | .partialMessage _ _ _ _ => true
  | .resultMessage _ _ _ _ => true
  | .remoteWrite _ _ => true
  | .remoteRead _ _ => true
  | .remoteFetchAdd _ _ => true
  | .remoteSwap _ _ => true
  | .remoteCompareSwap _ _ _ => true
  | .unsupportedUePacket _ => true
  | .getVersion => true
  | .getCapabilities => true
  | .negotiateAlgorithms => true
  | .getDigests => true
  | .getCertificate => true
  | .challenge _ => true
  | .getMeasurements => true
  | .keyExchange _ _ => true
  | .finish _ => true
  | .heartbeat => true
  | .keyUpdate => true
  | .endSession => true
  | .readReadinessMap => true
  | .configurePartition _ _ _ _ => true
  | .startPartition _ => true
  | .stopPartition _ => true
  | .managementResetPartition _ => true
  | .readCodeKey _ => true
  | .setWatchdogPeriod _ _ => true
  | .createJetty _ _ _ _ _ => true
  | .clearJettyReset _ => true
  | .setMemoryWindow _ _ _ => true
  | .setEventThresholds _ _ _ _ => true
  | .grantDiagnostics _ _ => true
  | .readFaultQueueAddresses _ => true
  | .readPowerAndTemperatures => true
  | .moduleReset _ _ => true
  | .unitReady _ => true
  | .thermalThrottle _ => true
  | .throttleEnd _ => true
  | .criticalShutdown _ => true
  | .retentionEntry _ => true
  | .retentionExit _ => true
  | .bankAccess _ => true
  | .matrixCommandComplete _ => true
  | .reservedMajor _ => true
  | .reservedCommand _ => true
  | _ => false

end Sys2Proof
end

