-- ==== Sys2Proof/Decode.lean ====
section
/-! DEFINITION. The decoder of instruction words (R71 to R75, R105), written from the encoding tables of the formats (R76 to
R93) and the opcode map (R103), and after it the encoder. Decoding is total on any bytes and rejects by name. -/

namespace Sys2Proof

/-- Why an encoding raises ILLEGAL: items 2 to 6 of R74. Item 1 is no rejection here: a reserved major decodes to
`Instr.reservedMajor`, the row of the table whose meaning is to raise ILLEGAL with item 1. `truncated`: fewer bytes than the
instruction has, which a fetch never gives. -/
inductive Reject where
  | truncated
  | extension
  | reserved
  | value
  | type
  | register
  deriving DecidableEq, Repr, Inhabited

/-- What the decoder answers. -/
inductive Decoded where
  | instr (i : Instr)
  | reject (r : Reject)
  deriving DecidableEq, Repr, Inhabited

/-- The item of R74 behind a rejection (R360). -/
def Reject.item : Reject → Nat
  | .truncated => 0
  | .extension => 2
  | .reserved => 3
  | .value => 4
  | .type => 5
  | .register => 6

/-- The rejection of an item found among the instruction's fields. -/
def Reject.ofItem (n : Nat) : Reject :=
  match n with
  | 3 => .reserved
  | 4 => .value
  | 5 => .type
  | _ => .register

/-- The header of a first word (R72). -/
def hdrOf (w : Word) : Hdr where
  rm := w.getLsbD 55
  ge := w.getLsbD 54
  gn := w.getLsbD 53
  gp := w.extractLsb' 47 6

/-- The VR fields of a word (R77). -/
def getVR (w : Word) : VR where
  vd := w.extractLsb' 39 8
  va := w.extractLsb' 31 8
  vb := w.extractLsb' 23 8
  swk := w.extractLsb' 20 3
  swp := w.extractLsb' 14 6
  lra := w.getLsbD 13
  lrb := w.getLsbD 12
  eba := w.getLsbD 11
  ebb := w.getLsbD 10
  type := w.extractLsb' 6 4
  rnd := w.extractLsb' 3 3
  sat := w.getLsbD 2

/-- The VI fields of a word (R79). -/
def getVI (w : Word) : VI where
  vd := w.extractLsb' 39 8
  va := w.extractLsb' 31 8
  imm := w.extractLsb' 15 16
  lra := w.getLsbD 13
  eba := w.getLsbD 11
  type := w.extractLsb' 6 4
  rnd := w.extractLsb' 3 3
  sat := w.getLsbD 2
  ik := w.extractLsb' 0 2

/-- The VS fields of a word (R80). -/
def getVS (w : Word) : VS where
  vd := w.extractLsb' 39 8
  va := w.extractLsb' 31 8
  sb := w.extractLsb' 25 6
  fn := w.extractLsb' 14 11
  lra := w.getLsbD 13
  eba := w.getLsbD 11
  type := w.extractLsb' 6 4
  rnd := w.extractLsb' 3 3
  sat := w.getLsbD 2

/-- The V3 fields of a word (R81). -/
def getV3 (w : Word) : V3 where
  vd := w.extractLsb' 39 8
  va := w.extractLsb' 31 8
  vb := w.extractLsb' 23 8
  vc := w.extractLsb' 15 8
  lrc := w.getLsbD 14
  lra := w.getLsbD 13
  lrb := w.getLsbD 12
  eba := w.getLsbD 11
  ebb := w.getLsbD 10
  type := w.extractLsb' 6 4
  rnd := w.extractLsb' 3 3
  sat := w.getLsbD 2
  ebc := w.getLsbD 1

/-- The VP fields of a word (R82). -/
def getVP (w : Word) : VP where
  pd := w.extractLsb' 41 6
  va := w.extractLsb' 31 8
  vb := w.extractLsb' 23 8
  swk := w.extractLsb' 20 3
  swp := w.extractLsb' 14 6
  lra := w.getLsbD 13
  lrb := w.getLsbD 12
  eba := w.getLsbD 11
  ebb := w.getLsbD 10
  type := w.extractLsb' 6 4
  cond := w.extractLsb' 2 4
  bs := w.getLsbD 1

/-- The CV fields of a word (R83). -/
def getCV (w : Word) : CV where
  vd := w.extractLsb' 39 8
  va := w.extractLsb' 31 8
  dtype := w.extractLsb' 27 4
  stype := w.extractLsb' 23 4
  aux := w.extractLsb' 14 9
  lra := w.getLsbD 13
  eba := w.getLsbD 11
  rnd := w.extractLsb' 3 3
  sat := w.getLsbD 2

/-- The PR fields of a word (R84). -/
def getPR (w : Word) : PR where
  pd := w.extractLsb' 41 6
  pa := w.extractLsb' 35 6
  pb := w.extractLsb' 29 6
  eba := w.getLsbD 28
  ebb := w.getLsbD 27
  fn := w.extractLsb' 0 27

/-- The SV fields of a word (R85). -/
def getSV (w : Word) : SV where
  sd := w.extractLsb' 41 6
  va := w.extractLsb' 31 8
  fn := w.extractLsb' 14 17
  lra := w.getLsbD 13
  eba := w.getLsbD 11
  type := w.extractLsb' 6 4

/-- The RS fields of a word (R86). -/
def getRS (w : Word) : RS where
  d := w.extractLsb' 39 8
  dv := w.getLsbD 38
  name := w.extractLsb' 24 12

/-- The X fields of a word (R87). -/
def getXF (w : Word) : XF where
  vop := w.extractLsb' 39 8
  vbase := w.extractLsb' 31 8
  pst := w.extractLsb' 25 6
  t := w.getLsbD 24
  lro := w.getLsbD 23
  ebo := w.getLsbD 22
  ebw := w.getLsbD 21

/-- The M fields of a word (R88). -/
def getMF (w : Word) : MF where
  vt := w.extractLsb' 39 8
  sb := w.extractLsb' 33 6
  vi := w.extractLsb' 25 8
  ix := w.getLsbD 24
  off := w.extractLsb' 16 8
  scope := w.extractLsb' 13 3
  lrt := w.getLsbD 12
  lri := w.getLsbD 11
  ebt := w.getLsbD 10
  ebi := w.getLsbD 9
  type := w.extractLsb' 5 4
  size := w.extractLsb' 2 3
  sync := w.extractLsb' 0 2

/-- The UR fields of a word (R90). -/
def getUR (w : Word) : UR where
  sd := w.extractLsb' 41 6
  sa := w.extractLsb' 35 6
  sb := w.extractLsb' 29 6
  fn := w.extractLsb' 0 29

/-- The UI fields of a word (R91). -/
def getUI (w : Word) : UI where
  sd := w.extractLsb' 41 6
  sa := w.extractLsb' 35 6
  imm := w.extractLsb' 3 32
  ik := w.extractLsb' 1 2

/-- The C fields of a word (R92). -/
def getCF (w : Word) : CF where
  off := w.extractLsb' 31 16
  cp := w.extractLsb' 25 6
  cn := w.getLsbD 24
  ce := w.getLsbD 23
  ebp := w.getLsbD 22
  sig := w.extractLsb' 6 16

/-- The fields of the extension word of R286. -/
def getAtX (w : Word) : AtX where
  aop := w.extractLsb' 52 4
  uni := w.getLsbD 51
  x := w.extractLsb' 43 8
  y := w.extractLsb' 35 8
  lrx := w.getLsbD 34
  lry := w.getLsbD 33
  ebx := w.getLsbD 32
  eby := w.getLsbD 31

/-- The fields of the extension word of R289. -/
def getAtcX (w : Word) : AtcX where
  aop := w.extractLsb' 52 4
  cond := w.extractLsb' 49 3
  sx := w.extractLsb' 43 6
  sy := w.extractLsb' 37 6
  stk := w.extractLsb' 31 6
  sst := w.extractLsb' 25 6
  sarg := w.extractLsb' 19 6
  ebs := w.getLsbD 18

/-- The fields of the extension word of R268. -/
def getMloopX (w : Word) : MloopX where
  pat := w.extractLsb' 36 2
  za := w.getLsbD 35
  me := w.getLsbD 34
  tile := w.extractLsb' 30 4
  bfmt := w.extractLsb' 26 4
  afmt := w.extractLsb' 22 4
  pb := w.extractLsb' 19 3
  pa := w.extractLsb' 16 3
  kcount := w.extractLsb' 0 16

/-- The fields of the extension word of R255. -/
def getCpxX (w : Word) : CpxX where
  sppitch := w.extractLsb' 24 24
  rowlen := w.extractLsb' 0 24

/-- A first word read by its major: the instruction, the `res0` bits of its format in the first word, and for a long form
those of its extension word (R71, R76, R93). -/
structure Raw where
  instr : Instr
  mask : Word
  ext : Option Word
  deriving DecidableEq, Repr, Inhabited

/-- A VR entry. -/
def rawVR (c : Hdr → VR → Instr) (w : Word) : Raw := ⟨c (hdrOf w) (getVR w), 0x3, none⟩

/-- A VI entry. -/
def rawVI (c : Hdr → VI → Instr) (w : Word) : Raw := ⟨c (hdrOf w) (getVI w), 0x5400, none⟩

/-- A VS entry. -/
def rawVS (c : Hdr → VS → Instr) (w : Word) : Raw := ⟨c (hdrOf w) (getVS w), 0x1403, none⟩

/-- A V3 entry. -/
def rawV3 (c : Hdr → V3 → Instr) (w : Word) : Raw := ⟨c (hdrOf w) (getV3 w), 0x1, none⟩

/-- A VP entry. -/
def rawVP (c : Hdr → VP → Instr) (w : Word) : Raw := ⟨c (hdrOf w) (getVP w), 0x18000000001, none⟩

/-- A CV entry. -/
def rawCV (c : Hdr → CV → Instr) (w : Word) : Raw := ⟨c (hdrOf w) (getCV w), 0x17C3, none⟩

/-- A PR entry. -/
def rawPR (c : Hdr → PR → Instr) (w : Word) : Raw := ⟨c (hdrOf w) (getPR w), 0x0, none⟩

/-- A SV entry. -/
def rawSV (c : Hdr → SV → Instr) (w : Word) : Raw := ⟨c (hdrOf w) (getSV w), 0x1800000143F, none⟩

/-- A RS entry. -/
def rawRS (c : Hdr → RS → Instr) (w : Word) : Raw := ⟨c (hdrOf w) (getRS w), 0x3000FFFFFF, none⟩

/-- A X entry. -/
def rawXF (c : Hdr → XF → Instr) (w : Word) : Raw := ⟨c (hdrOf w) (getXF w), 0x1FFFFF, none⟩

/-- A M entry. -/
def rawMF (c : Hdr → MF → Instr) (w : Word) : Raw := ⟨c (hdrOf w) (getMF w), 0x0, none⟩

/-- A UR entry. -/
def rawUR (c : Hdr → UR → Instr) (w : Word) : Raw := ⟨c (hdrOf w) (getUR w), 0x0, none⟩

/-- A UI entry. -/
def rawUI (c : Hdr → UI → Instr) (w : Word) : Raw := ⟨c (hdrOf w) (getUI w), 0x1, none⟩

/-- A C entry. -/
def rawCF (c : Hdr → CF → Instr) (w : Word) : Raw := ⟨c (hdrOf w) (getCF w), 0x3F, none⟩

/-- A M+L entry with the extension word of R286. -/
def rawAtX (c : Hdr → MF → AtX → Instr) (w x : Word) : Raw :=
  ⟨c (hdrOf w) (getMF w) (getAtX x), 0x0, some 0x7FFFFFFF⟩

/-- A M+L entry with the extension word of R289. -/
def rawAtcX (c : Hdr → MF → AtcX → Instr) (w x : Word) : Raw :=
  ⟨c (hdrOf w) (getMF w) (getAtcX x), 0x0, some 0x3FFFF⟩

/-- A UR+L entry with the extension word of R268. -/
def rawMloopX (c : Hdr → UR → MloopX → Instr) (w x : Word) : Raw :=
  ⟨c (hdrOf w) (getUR w) (getMloopX x), 0x0, some 0xFFFFC000000000⟩

/-- A UR+L entry with the extension word of R255. -/
def rawCpxX (c : Hdr → UR → CpxX → Instr) (w x : Word) : Raw :=
  ⟨c (hdrOf w) (getUR w) (getCpxX x), 0x0, some 0xFF000000000000⟩

/-- `movl`: ext[55:0] is imm64[55:0] (R163). -/
def rawMovl (w x : Word) : Raw := ⟨.movl (hdrOf w) (getUR w) (x.extractLsb' 0 56), 0, some 0⟩

/-- `call`: ext[31:0] is the offset and ext[55:32] is reserved (R92). -/
def rawCall (w x : Word) : Raw := ⟨.callC (hdrOf w) (getCF w) (x.extractLsb' 0 32), 0x3F, some 0xFFFFFF00000000⟩

/-- A reserved major (R74 item 1, R105). -/
def rawReserved (w : Word) : Raw := ⟨.reservedMajor w, 0, none⟩

/-- Major 0x6A: va[1:0] tells the three forms apart (R220); a value of 3 is refused under the first form's checks. -/
def rawKpop (w : Word) : Raw :=
  match (w.extractLsb' 31 2).toNat with
  | 1 => rawVR .kpopKeep w
  | 2 => rawVR .kpopDepth w
  | _ => rawVR .kpop w

/-- Majors 0x00 to 0x0F of the opcode map (R103). -/
def rawRow0 (lo : Nat) (w _x : Word) : Raw :=
  match lo with
  | 0x1 => rawVR .addVr w
  | 0x2 => rawVR .subVr w
  | 0x3 => rawVR .mulVr w
  | 0x4 => rawVR .mulhi w
  | 0x5 => rawVR .minVr w
  | 0x6 => rawVR .maxVr w
  | 0x7 => rawVR .abs w
  | 0x8 => rawVR .neg w
  | 0x9 => rawVR .div w
  | 0xA => rawVR .rem w
  | 0xB => rawVR .shlVr w
  | 0xC => rawVR .shrVr w
  | 0xD => rawVR .rshrVr w
  | 0xE => rawVR .adiff w
  | 0xF => rawV3 .mad w
  | _ => rawReserved w

/-- Majors 0x10 to 0x1F of the opcode map (R103). -/
def rawRow1 (lo : Nat) (w _x : Word) : Raw :=
  match lo with
  | 0x0 => rawVR .andVr w
  | 0x1 => rawVR .orVr w
  | 0x2 => rawVR .xorVr w
  | 0x3 => rawVR .andn w
  | 0x4 => rawVR .notVr w
  | 0x5 => rawVR .movVr w
  | 0x6 => rawVR .popc w
  | 0x7 => rawVR .clz w
  | 0x8 => rawVR .ctz w
  | 0x9 => rawVR .brev w
  | 0xA => rawVR .bdep w
  | 0xB => rawVR .bext w
  | 0xC => rawVR .bperm w
  | 0xD => rawVR .gfmat w
  | 0xE => rawVI .bfx w
  | 0xF => rawV3 .bfi w
  | _ => rawReserved w

/-- Majors 0x20 to 0x2F of the opcode map (R103). -/
def rawRow2 (lo : Nat) (w _x : Word) : Raw :=
  match lo with
  | 0x0 => rawVI .addVi w
  | 0x1 => rawVI .rsub w
  | 0x2 => rawVI .mulVi w
  | 0x3 => rawVI .andVi w
  | 0x4 => rawVI .orVi w
  | 0x5 => rawVI .xorVi w
  | 0x6 => rawVI .shlVi w
  | 0x7 => rawVI .shrVi w
  | 0x8 => rawVI .rshrVi w
  | 0x9 => rawVI .minVi w
  | 0xA => rawVI .maxVi w
  | 0xB => rawVI .movVi w
  | _ => rawReserved w

/-- Majors 0x30 to 0x3F of the opcode map (R103). -/
def rawRow3 (lo : Nat) (w _x : Word) : Raw :=
  match lo with
  | 0x0 => rawVS .addVs w
  | 0x1 => rawVS .subVs w
  | 0x2 => rawVS .mulVs w
  | 0x3 => rawVS .andVs w
  | 0x4 => rawVS .orVs w
  | 0x5 => rawVS .xorVs w
  | 0x6 => rawVS .shlVs w
  | 0x7 => rawVS .shrVs w
  | 0x8 => rawVS .minVs w
  | 0x9 => rawVS .maxVs w
  | 0xA => rawVS .movVs w
  | 0xB => rawVS .lea w
  | _ => rawReserved w

/-- Majors 0x40 to 0x4F of the opcode map (R103). -/
def rawRow4 (lo : Nat) (w _x : Word) : Raw :=
  match lo with
  | 0x0 => rawV3 .fma w
  | 0x1 => rawVR .sqrt w
  | 0x2 => rawVR .exp2 w
  | 0x3 => rawVR .log2 w
  | 0x4 => rawVR .rcp w
  | 0x5 => rawVR .rsqrt w
  | 0x6 => rawVR .tanh w
  | 0x7 => rawVR .sigm w
  | 0x8 => rawVR .rndi w
  | 0x9 => rawVR .fclass w
  | 0xA => rawVR .scale w
  | 0xB => rawVR .copysign w
  | _ => rawReserved w

/-- Majors 0x50 to 0x5F of the opcode map (R103). -/
def rawRow5 (lo : Nat) (w _x : Word) : Raw :=
  match lo with
  | 0x0 => rawCV .cvt w
  | 0x1 => rawCV .cvtTodx w
  | 0x2 => rawCV .cvtFromdx w
  | 0x3 => rawVI .tagSet w
  | 0x4 => rawVP .tagChk w
  | _ => rawReserved w

/-- Majors 0x60 to 0x6F of the opcode map (R103). -/
def rawRow6 (lo : Nat) (w _x : Word) : Raw :=
  match lo with
  | 0x0 => rawVP .cmp w
  | 0x1 => rawPR .pand w
  | 0x2 => rawPR .por w
  | 0x3 => rawPR .pxor w
  | 0x4 => rawPR .pnot w
  | 0x5 => rawPR .pmov w
  | 0x6 => rawPR .pset w
  | 0x8 => rawXF .xv w
  | 0x9 => rawVR .kpush w
  | 0xA => rawKpop w
  | 0xB => rawVR .kclr w
  | _ => rawReserved w

/-- Majors 0x70 to 0x7F of the opcode map (R103). -/
def rawRow7 (lo : Nat) (w _x : Word) : Raw :=
  match lo with
  | 0x0 => rawVR .shflVr w
  | 0x1 => rawVS .shflVs w
  | 0x2 => rawPR .vote w
  | 0x3 => rawUR .ballot w
  | 0x4 => rawVR .scan w
  | 0x5 => rawVR .red w
  | _ => rawReserved w

/-- Majors 0x80 to 0x8F of the opcode map (R103). -/
def rawRow8 (lo : Nat) (w _x : Word) : Raw :=
  match lo with
  | 0x0 => rawMF .ld w
  | 0x1 => rawMF .st w
  | 0x2 => rawMF .ldS w
  | 0x3 => rawMF .stS w
  | 0x4 => rawMF .ldu w
  | 0x5 => rawMF .stu w
  | 0x6 => rawMF .pf w
  | 0x7 => rawMF .ldb w
  | 0x8 => rawMF .stb w
  | _ => rawReserved w

/-- Majors 0x90 to 0x9F of the opcode map (R103). -/
def rawRow9 (lo : Nat) (w x : Word) : Raw :=
  match lo with
  | 0x0 => rawAtX .atM w x
  | 0x1 => rawAtcX .atc w x
  | 0x2 => rawUR .sigAdd w
  | 0x3 => rawUR .waitGe w
  | 0x4 => rawUR .fence w
  | 0x5 => rawUR .xfence w
  | _ => rawReserved w

/-- Majors 0xA0 to 0xAF of the opcode map (R103). -/
def rawRowA (lo : Nat) (w _x : Word) : Raw :=
  match lo with
  | 0x0 => rawUR .addUr w
  | 0x1 => rawUR .subUr w
  | 0x2 => rawUR .mulUr w
  | 0x3 => rawUR .divUr w
  | 0x4 => rawUR .remUr w
  | 0x5 => rawUR .andUr w
  | 0x6 => rawUR .orUr w
  | 0x7 => rawUR .xorUr w
  | 0x8 => rawUR .shlUr w
  | 0x9 => rawUR .shrUr w
  | 0xA => rawUR .minUr w
  | 0xB => rawUR .maxUr w
  | 0xC => rawUR .cmpUr w
  | 0xD => rawUI .addUi w
  | 0xE => rawUI .movUi w
  | 0xF => rawSV .movSv w
  | _ => rawReserved w

/-- Majors 0xB0 to 0xBF of the opcode map (R103). -/
def rawRowB (lo : Nat) (w _x : Word) : Raw :=
  match lo with
  | 0x0 => rawCF .ifC w
  | 0x1 => rawCF .elseC w
  | 0x2 => rawCF .endifC w
  | 0x3 => rawCF .loopC w
  | 0x4 => rawUR .launch w
  | 0x5 => rawCF .endloopC w
  | 0x6 => rawCF .brkC w
  | 0x7 => rawCF .contC w
  | 0x8 => rawCF .retC w
  | 0x9 => rawCF .exitC w
  | 0xA => rawUR .bar w
  | 0xB => rawUR .nop w
  | 0xC => rawRS .rds w
  | _ => rawReserved w

/-- Majors 0xC0 to 0xCF of the opcode map (R103). -/
def rawRowC (lo : Nat) (w _x : Word) : Raw :=
  match lo with
  | 0x0 => rawUR .cp w
  | 0x1 => rawUR .mres w
  | 0x2 => rawUR .mrel w
  | 0x3 => rawUR .mld w
  | 0x4 => rawUR .mst w
  | 0x5 => rawUR .mzero w
  | 0x6 => rawUR .osmMax w
  | 0x7 => rawUR .osmAcc w
  | 0x8 => rawUR .fbRed w
  | 0x9 => rawUR .fbBcast w
  | _ => rawReserved w

/-- Majors 0xD0 to 0xDF of the opcode map (R103). -/
def rawRowD (lo : Nat) (w _x : Word) : Raw :=
  match lo with
  | 0x0 => rawUR .qPush w
  | 0x1 => rawUR .qPop w
  | 0x2 => rawUR .binPut w
  | 0x3 => rawUR .jyPush w
  | 0x4 => rawUR .jyPop w
  | 0x5 => rawUR .tsDesc w
  | 0x6 => rawUR .tsBack w
  | 0x7 => rawUR .tsExp w
  | 0x8 => rawUR .tsRoot w
  | 0x9 => rawUR .tsAnc w
  | 0xA => rawUR .trap w
  | 0xB => rawUR .syscall w
  | 0xC => rawMF .diagSt w
  | _ => rawReserved w

/-- Majors 0xE0 to 0xEF of the opcode map (R103). -/
def rawRowE (lo : Nat) (w x : Word) : Raw :=
  match lo with
  | 0x0 => rawCall w x
  | 0x1 => rawMovl w x
  | 0x2 => rawMloopX .mloop w x
  | 0x3 => rawMloopX .mloopSp w x
  | 0x4 => rawCpxX .cpx w x
  | _ => rawReserved w

/-- The opcode map (R103). -/
def rawOf (w x : Word) : Raw :=
  let lo := (w.extractLsb' 56 4).toNat
  match (w.extractLsb' 60 4).toNat with
  | 0x0 => rawRow0 lo w x
  | 0x1 => rawRow1 lo w x
  | 0x2 => rawRow2 lo w x
  | 0x3 => rawRow3 lo w x
  | 0x4 => rawRow4 lo w x
  | 0x5 => rawRow5 lo w x
  | 0x6 => rawRow6 lo w x
  | 0x7 => rawRow7 lo w x
  | 0x8 => rawRow8 lo w x
  | 0x9 => rawRow9 lo w x
  | 0xA => rawRowA lo w x
  | 0xB => rawRowB lo w x
  | 0xC => rawRowC lo w x
  | 0xD => rawRowD lo w x
  | 0xE => rawRowE lo w x
  | _ => rawReserved w

/-- A first word starts a long form (R71). -/
def isLong (w : Word) : Bool := (rawOf w 0).ext.isSome

/-- Bytes of the instruction that a first word starts (R71). -/
def instrBytes (w : Word) : Nat := if isLong w then 16 else 8

/-- The conditions of R74 in the order of their items, for a first word and the word after it. -/
def decodeWords (width : Nat) (w x : Word) : Decoded :=
  let r := rawOf w x
  match r.ext with
  | none =>
    if w &&& r.mask != 0 then .reject .reserved
    else match r.instr.illegalItem width with
      | none => .instr r.instr
      | some n => .reject (.ofItem n)
  | some m =>
    if x.extractLsb' 56 8 != 0xFF then .reject .extension
    else if w &&& r.mask != 0 || x &&& m != 0 then .reject .reserved
    else match r.instr.illegalItem width with
      | none => .instr r.instr
      | some n => .reject (.ofItem n)

/-- Bytes in little-endian order as a number (R2). -/
def leNat : List Byte → Nat
  | [] => 0
  | b :: bs => b.toNat + 256 * leNat bs

/-- The first 64-bit word of some bytes (R71). -/
def leWord (bs : List Byte) : Word := BitVec.ofNat 64 (leNat (bs.take 8))

/-- The instruction at the start of some bytes. -/
def decode (width : Nat) (bs : List Byte) : Decoded :=
  let w := leWord bs
  if bs.length < instrBytes w then .reject .truncated
  else decodeWords width w (if isLong w then leWord (bs.drop 8) else 0)

/-- The `n` low bytes of a number, lowest first (R2). -/
def leBytes : Nat → Nat → List Byte
  | 0, _ => []
  | n + 1, v => BitVec.ofNat 8 v :: leBytes n (v / 256)

/-- The instruction that the decoder reads from the bits `w`, with every bit above `nbits` zero, in a group of width 64. -/
def decodeTableWord (nbits w : Nat) : Option Instr :=
  match decode 64 (leBytes 16 (w % 2 ^ nbits)) with
  | .instr i => some i
  | .reject _ => none

/-- A field whose lowest bit stands at `lo`. -/
def fieldAt {n : Nat} (v : BitVec n) (lo : Nat) : Word := v.setWidth 64 <<< lo

/-- A flag at bit `lo`. -/
def bitAt (b : Bool) (lo : Nat) : Word := fieldAt (BitVec.ofBool b) lo

/-- The header fields of R72. -/
def putHdr (major : BitVec 8) (h : Hdr) : Word :=
  fieldAt major 56 ||| bitAt h.rm 55 ||| bitAt h.ge 54 ||| bitAt h.gn 53 ||| fieldAt h.gp 47

/-- The VR word (R77). -/
def putVR (major : BitVec 8) (h : Hdr) (f : VR) : Word :=
  putHdr major h ||| fieldAt f.vd 39 ||| fieldAt f.va 31 ||| fieldAt f.vb 23 ||| fieldAt f.swk 20 ||| fieldAt f.swp 14 ||| bitAt f.lra 13 ||| bitAt f.lrb 12 ||| bitAt f.eba 11 ||| bitAt f.ebb 10 ||| fieldAt f.type 6 ||| fieldAt f.rnd 3 ||| bitAt f.sat 2

/-- The VI word (R79). -/
def putVI (major : BitVec 8) (h : Hdr) (f : VI) : Word :=
  putHdr major h ||| fieldAt f.vd 39 ||| fieldAt f.va 31 ||| fieldAt f.imm 15 ||| bitAt f.lra 13 ||| bitAt f.eba 11 ||| fieldAt f.type 6 ||| fieldAt f.rnd 3 ||| bitAt f.sat 2 ||| fieldAt f.ik 0

/-- The VS word (R80). -/
def putVS (major : BitVec 8) (h : Hdr) (f : VS) : Word :=
  putHdr major h ||| fieldAt f.vd 39 ||| fieldAt f.va 31 ||| fieldAt f.sb 25 ||| fieldAt f.fn 14 ||| bitAt f.lra 13 ||| bitAt f.eba 11 ||| fieldAt f.type 6 ||| fieldAt f.rnd 3 ||| bitAt f.sat 2

/-- The V3 word (R81). -/
def putV3 (major : BitVec 8) (h : Hdr) (f : V3) : Word :=
  putHdr major h ||| fieldAt f.vd 39 ||| fieldAt f.va 31 ||| fieldAt f.vb 23 ||| fieldAt f.vc 15 ||| bitAt f.lrc 14 ||| bitAt f.lra 13 ||| bitAt f.lrb 12 ||| bitAt f.eba 11 ||| bitAt f.ebb 10 ||| fieldAt f.type 6 ||| fieldAt f.rnd 3 ||| bitAt f.sat 2 ||| bitAt f.ebc 1

/-- The VP word (R82). -/
def putVP (major : BitVec 8) (h : Hdr) (f : VP) : Word :=
  putHdr major h ||| fieldAt f.pd 41 ||| fieldAt f.va 31 ||| fieldAt f.vb 23 ||| fieldAt f.swk 20 ||| fieldAt f.swp 14 ||| bitAt f.lra 13 ||| bitAt f.lrb 12 ||| bitAt f.eba 11 ||| bitAt f.ebb 10 ||| fieldAt f.type 6 ||| fieldAt f.cond 2 ||| bitAt f.bs 1

/-- The CV word (R83). -/
def putCV (major : BitVec 8) (h : Hdr) (f : CV) : Word :=
  putHdr major h ||| fieldAt f.vd 39 ||| fieldAt f.va 31 ||| fieldAt f.dtype 27 ||| fieldAt f.stype 23 ||| fieldAt f.aux 14 ||| bitAt f.lra 13 ||| bitAt f.eba 11 ||| fieldAt f.rnd 3 ||| bitAt f.sat 2

/-- The PR word (R84). -/
def putPR (major : BitVec 8) (h : Hdr) (f : PR) : Word :=
  putHdr major h ||| fieldAt f.pd 41 ||| fieldAt f.pa 35 ||| fieldAt f.pb 29 ||| bitAt f.eba 28 ||| bitAt f.ebb 27 ||| fieldAt f.fn 0

/-- The SV word (R85). -/
def putSV (major : BitVec 8) (h : Hdr) (f : SV) : Word :=
  putHdr major h ||| fieldAt f.sd 41 ||| fieldAt f.va 31 ||| fieldAt f.fn 14 ||| bitAt f.lra 13 ||| bitAt f.eba 11 ||| fieldAt f.type 6

/-- The RS word (R86). -/
def putRS (major : BitVec 8) (h : Hdr) (f : RS) : Word :=
  putHdr major h ||| fieldAt f.d 39 ||| bitAt f.dv 38 ||| fieldAt f.name 24

/-- The X word (R87). -/
def putXF (major : BitVec 8) (h : Hdr) (f : XF) : Word :=
  putHdr major h ||| fieldAt f.vop 39 ||| fieldAt f.vbase 31 ||| fieldAt f.pst 25 ||| bitAt f.t 24 ||| bitAt f.lro 23 ||| bitAt f.ebo 22 ||| bitAt f.ebw 21

/-- The M word (R88). -/
def putMF (major : BitVec 8) (h : Hdr) (f : MF) : Word :=
  putHdr major h ||| fieldAt f.vt 39 ||| fieldAt f.sb 33 ||| fieldAt f.vi 25 ||| bitAt f.ix 24 ||| fieldAt f.off 16 ||| fieldAt f.scope 13 ||| bitAt f.lrt 12 ||| bitAt f.lri 11 ||| bitAt f.ebt 10 ||| bitAt f.ebi 9 ||| fieldAt f.type 5 ||| fieldAt f.size 2 ||| fieldAt f.sync 0

/-- The UR word (R90). -/
def putUR (major : BitVec 8) (h : Hdr) (f : UR) : Word :=
  putHdr major h ||| fieldAt f.sd 41 ||| fieldAt f.sa 35 ||| fieldAt f.sb 29 ||| fieldAt f.fn 0

/-- The UI word (R91). -/
def putUI (major : BitVec 8) (h : Hdr) (f : UI) : Word :=
  putHdr major h ||| fieldAt f.sd 41 ||| fieldAt f.sa 35 ||| fieldAt f.imm 3 ||| fieldAt f.ik 1

/-- The C word (R92). -/
def putCF (major : BitVec 8) (h : Hdr) (f : CF) : Word :=
  putHdr major h ||| fieldAt f.off 31 ||| fieldAt f.cp 25 ||| bitAt f.cn 24 ||| bitAt f.ce 23 ||| bitAt f.ebp 22 ||| fieldAt f.sig 6

/-- The extension word of R286. -/
def putAtX (f : AtX) : Word :=
  fieldAt (0xFF : BitVec 8) 56 ||| fieldAt f.aop 52 ||| bitAt f.uni 51 ||| fieldAt f.x 43 ||| fieldAt f.y 35 ||| bitAt f.lrx 34 ||| bitAt f.lry 33 ||| bitAt f.ebx 32 ||| bitAt f.eby 31

/-- The extension word of R289. -/
def putAtcX (f : AtcX) : Word :=
  fieldAt (0xFF : BitVec 8) 56 ||| fieldAt f.aop 52 ||| fieldAt f.cond 49 ||| fieldAt f.sx 43 ||| fieldAt f.sy 37 ||| fieldAt f.stk 31 ||| fieldAt f.sst 25 ||| fieldAt f.sarg 19 ||| bitAt f.ebs 18

/-- The extension word of R268. -/
def putMloopX (f : MloopX) : Word :=
  fieldAt (0xFF : BitVec 8) 56 ||| fieldAt f.pat 36 ||| bitAt f.za 35 ||| bitAt f.me 34 ||| fieldAt f.tile 30 ||| fieldAt f.bfmt 26 ||| fieldAt f.afmt 22 ||| fieldAt f.pb 19 ||| fieldAt f.pa 16 ||| fieldAt f.kcount 0

/-- The extension word of R255. -/
def putCpxX (f : CpxX) : Word :=
  fieldAt (0xFF : BitVec 8) 56 ||| fieldAt f.sppitch 24 ||| fieldAt f.rowlen 0

/-- The words of an instruction; an operation or event of the part has none, and a reserved major has the word it stands for. -/
def encode : Instr → List Word
  | .addVr h f => [putVR 0x01 h f]
  | .subVr h f => [putVR 0x02 h f]
  | .mulVr h f => [putVR 0x03 h f]
  | .mulhi h f => [putVR 0x04 h f]
  | .minVr h f => [putVR 0x05 h f]
  | .maxVr h f => [putVR 0x06 h f]
  | .abs h f => [putVR 0x07 h f]
  | .neg h f => [putVR 0x08 h f]
  | .div h f => [putVR 0x09 h f]
  | .rem h f => [putVR 0x0A h f]
  | .shlVr h f => [putVR 0x0B h f]
  | .shrVr h f => [putVR 0x0C h f]
  | .rshrVr h f => [putVR 0x0D h f]
  | .adiff h f => [putVR 0x0E h f]
  | .mad h f => [putV3 0x0F h f]
  | .andVr h f => [putVR 0x10 h f]
  | .orVr h f => [putVR 0x11 h f]
  | .xorVr h f => [putVR 0x12 h f]
  | .andn h f => [putVR 0x13 h f]
  | .notVr h f => [putVR 0x14 h f]
  | .movVr h f => [putVR 0x15 h f]
  | .popc h f => [putVR 0x16 h f]
  | .clz h f => [putVR 0x17 h f]
  | .ctz h f => [putVR 0x18 h f]
  | .brev h f => [putVR 0x19 h f]
  | .bdep h f => [putVR 0x1A h f]
  | .bext h f => [putVR 0x1B h f]
  | .bperm h f => [putVR 0x1C h f]
  | .gfmat h f => [putVR 0x1D h f]
  | .bfx h f => [putVI 0x1E h f]
  | .bfi h f => [putV3 0x1F h f]
  | .addVi h f => [putVI 0x20 h f]
  | .rsub h f => [putVI 0x21 h f]
  | .mulVi h f => [putVI 0x22 h f]
  | .andVi h f => [putVI 0x23 h f]
  | .orVi h f => [putVI 0x24 h f]
  | .xorVi h f => [putVI 0x25 h f]
  | .shlVi h f => [putVI 0x26 h f]
  | .shrVi h f => [putVI 0x27 h f]
  | .rshrVi h f => [putVI 0x28 h f]
  | .minVi h f => [putVI 0x29 h f]
  | .maxVi h f => [putVI 0x2A h f]
  | .movVi h f => [putVI 0x2B h f]
  | .addVs h f => [putVS 0x30 h f]
  | .subVs h f => [putVS 0x31 h f]
  | .mulVs h f => [putVS 0x32 h f]
  | .andVs h f => [putVS 0x33 h f]
  | .orVs h f => [putVS 0x34 h f]
  | .xorVs h f => [putVS 0x35 h f]
  | .shlVs h f => [putVS 0x36 h f]
  | .shrVs h f => [putVS 0x37 h f]
  | .minVs h f => [putVS 0x38 h f]
  | .maxVs h f => [putVS 0x39 h f]
  | .movVs h f => [putVS 0x3A h f]
  | .lea h f => [putVS 0x3B h f]
  | .fma h f => [putV3 0x40 h f]
  | .sqrt h f => [putVR 0x41 h f]
  | .exp2 h f => [putVR 0x42 h f]
  | .log2 h f => [putVR 0x43 h f]
  | .rcp h f => [putVR 0x44 h f]
  | .rsqrt h f => [putVR 0x45 h f]
  | .tanh h f => [putVR 0x46 h f]
  | .sigm h f => [putVR 0x47 h f]
  | .rndi h f => [putVR 0x48 h f]
  | .fclass h f => [putVR 0x49 h f]
  | .scale h f => [putVR 0x4A h f]
  | .copysign h f => [putVR 0x4B h f]
  | .cvt h f => [putCV 0x50 h f]
  | .cvtTodx h f => [putCV 0x51 h f]
  | .cvtFromdx h f => [putCV 0x52 h f]
  | .tagSet h f => [putVI 0x53 h f]
  | .tagChk h f => [putVP 0x54 h f]
  | .cmp h f => [putVP 0x60 h f]
  | .pand h f => [putPR 0x61 h f]
  | .por h f => [putPR 0x62 h f]
  | .pxor h f => [putPR 0x63 h f]
  | .pnot h f => [putPR 0x64 h f]
  | .pmov h f => [putPR 0x65 h f]
  | .pset h f => [putPR 0x66 h f]
  | .xv h f => [putXF 0x68 h f]
  | .kpush h f => [putVR 0x69 h f]
  | .kpop h f => [putVR 0x6A h f]
  | .kpopKeep h f => [putVR 0x6A h f]
  | .kpopDepth h f => [putVR 0x6A h f]
  | .kclr h f => [putVR 0x6B h f]
  | .shflVr h f => [putVR 0x70 h f]
  | .shflVs h f => [putVS 0x71 h f]
  | .vote h f => [putPR 0x72 h f]
  | .ballot h f => [putUR 0x73 h f]
  | .scan h f => [putVR 0x74 h f]
  | .red h f => [putVR 0x75 h f]
  | .ld h f => [putMF 0x80 h f]
  | .st h f => [putMF 0x81 h f]
  | .ldS h f => [putMF 0x82 h f]
  | .stS h f => [putMF 0x83 h f]
  | .ldu h f => [putMF 0x84 h f]
  | .stu h f => [putMF 0x85 h f]
  | .pf h f => [putMF 0x86 h f]
  | .ldb h f => [putMF 0x87 h f]
  | .stb h f => [putMF 0x88 h f]
  | .atM h f x => [putMF 0x90 h f, putAtX x]
  | .atc h f x => [putMF 0x91 h f, putAtcX x]
  | .sigAdd h f => [putUR 0x92 h f]
  | .waitGe h f => [putUR 0x93 h f]
  | .fence h f => [putUR 0x94 h f]
  | .xfence h f => [putUR 0x95 h f]
  | .addUr h f => [putUR 0xA0 h f]
  | .subUr h f => [putUR 0xA1 h f]
  | .mulUr h f => [putUR 0xA2 h f]
  | .divUr h f => [putUR 0xA3 h f]
  | .remUr h f => [putUR 0xA4 h f]
  | .andUr h f => [putUR 0xA5 h f]
  | .orUr h f => [putUR 0xA6 h f]
  | .xorUr h f => [putUR 0xA7 h f]
  | .shlUr h f => [putUR 0xA8 h f]
  | .shrUr h f => [putUR 0xA9 h f]
  | .minUr h f => [putUR 0xAA h f]
  | .maxUr h f => [putUR 0xAB h f]
  | .cmpUr h f => [putUR 0xAC h f]
  | .addUi h f => [putUI 0xAD h f]
  | .movUi h f => [putUI 0xAE h f]
  | .movSv h f => [putSV 0xAF h f]
  | .movl h f x => [putUR 0xE1 h f, fieldAt (0xFF : BitVec 8) 56 ||| fieldAt x 0]
  | .ifC h f => [putCF 0xB0 h f]
  | .elseC h f => [putCF 0xB1 h f]
  | .endifC h f => [putCF 0xB2 h f]
  | .loopC h f => [putCF 0xB3 h f]
  | .endloopC h f => [putCF 0xB5 h f]
  | .brkC h f => [putCF 0xB6 h f]
  | .contC h f => [putCF 0xB7 h f]
  | .retC h f => [putCF 0xB8 h f]
  | .exitC h f => [putCF 0xB9 h f]
  | .callC h f x => [putCF 0xE0 h f, fieldAt (0xFF : BitVec 8) 56 ||| fieldAt x 0]
  | .launch h f => [putUR 0xB4 h f]
  | .bar h f => [putUR 0xBA h f]
  | .nop h f => [putUR 0xBB h f]
  | .rds h f => [putRS 0xBC h f]
  | .cp h f => [putUR 0xC0 h f]
  | .cpx h f x => [putUR 0xE4 h f, putCpxX x]
  | .mres h f => [putUR 0xC1 h f]
  | .mrel h f => [putUR 0xC2 h f]
  | .mld h f => [putUR 0xC3 h f]
  | .mst h f => [putUR 0xC4 h f]
  | .mzero h f => [putUR 0xC5 h f]
  | .osmMax h f => [putUR 0xC6 h f]
  | .osmAcc h f => [putUR 0xC7 h f]
  | .mloop h f x => [putUR 0xE2 h f, putMloopX x]
  | .mloopSp h f x => [putUR 0xE3 h f, putMloopX x]
  | .fbRed h f => [putUR 0xC8 h f]
  | .fbBcast h f => [putUR 0xC9 h f]
  | .qPush h f => [putUR 0xD0 h f]
  | .qPop h f => [putUR 0xD1 h f]
  | .binPut h f => [putUR 0xD2 h f]
  | .jyPush h f => [putUR 0xD3 h f]
  | .jyPop h f => [putUR 0xD4 h f]
  | .tsDesc h f => [putUR 0xD5 h f]
  | .tsBack h f => [putUR 0xD6 h f]
  | .tsExp h f => [putUR 0xD7 h f]
  | .tsRoot h f => [putUR 0xD8 h f]
  | .tsAnc h f => [putUR 0xD9 h f]
  | .trap h f => [putUR 0xDA h f]
  | .syscall h f => [putUR 0xDB h f]
  | .diagSt h f => [putMF 0xDC h f]
  | .reservedMajor w => [w]
  | _ => []

/-- The bytes of an instruction as memory holds them (R2, R71). -/
def encodeBytes (i : Instr) : List Byte := (encode i).flatMap fun w => leBytes 8 w.toNat

end Sys2Proof
end

