-- ==== Sys2Proof/Machine/Ops.lean ====
section
/-! DEFINITION. The named operations over memory, registers, regions and faults that the meanings share: access to the parts of the
state, writes to device memory and scratchpad with all that follows from them, fault entries and events, taking a cause (R355) and
replay (R364), the end of a launch (R362), and translation (R228). -/

namespace Sys2Proof.Machine

/-! ### Parts of the state -/

/-- The group of an identifier. -/
def State.grp? (s : State) (gid : Nat) : Option Group := s.groups.find? fun g => g.gid == gid

/-- Changes one group. -/
def State.modGrp (s : State) (gid : Nat) (f : Group → Group) : State :=
  { s with groups := s.groups.map fun g => if g.gid == gid then f g else g }

/-- The team of an identifier. -/
def State.team? (s : State) (tid : Nat) : Option Team := s.teams.find? fun t => t.tid == tid

/-- Changes one team. -/
def State.modTeam (s : State) (tid : Nat) (f : Team → Team) : State :=
  { s with teams := s.teams.map fun t => if t.tid == tid then f t else t }

/-- The launch of an identifier. -/
def State.launch? (s : State) (lid : Nat) : Option Launch := s.launches.find? fun l => l.lid == lid

/-- Changes one launch. -/
def State.modLaunch (s : State) (lid : Nat) (f : Launch → Launch) : State :=
  { s with launches := s.launches.map fun l => if l.lid == lid then f l else l }

/-- Partition `p`. -/
def State.part (s : State) (p : Nat) : Part := s.parts.getD p (Part.unset p)

/-- Changes one partition. -/
def State.modPart (s : State) (p : Nat) (f : Part → Part) : State :=
  { s with parts := s.parts.map fun q => if q.num == p then f q else q }

/-- Changes one request. -/
def State.modReq (s : State) (id : Nat) (f : Req → Req) : State :=
  { s with reqs := s.reqs.map fun r => if r.id == id then f r else r }

/-- Removes one request. -/
def State.dropReq (s : State) (id : Nat) : State := { s with reqs := s.reqs.filter fun r => r.id != id }

/-! ### Units that are ready and arrays that are awake (R383, R404, R405) -/

/-- The pair has passed its tests. -/
def pairReady (s : State) (pair : Nat) : Bool := s.mgmt.ready.getLsbD pair

/-- The slice's group is ready. -/
def sliceReady (s : State) (slice : Nat) : Bool := s.mgmt.ready.getLsbD (128 + slice / 8)

/-- A die's Ford engine is ready. -/
def fordReady (s : State) (die : Nat) : Bool := s.mgmt.ready.getLsbD (120 + die)

/-- Some UE port is ready: a port that is not carries no traffic (R405). -/
def portReady (s : State) : Bool := s.mgmt.ready.extractLsb' 108 12 != 0

/-- The sub-array of slice SRAM that holds an address. -/
def arrayOf (pa : Nat) : ArrayId := .slice ((pa - sramBase) / 0x200000) ((pa - sramBase) % 0x200000 / 0x40000)

/-- An access to the address waits for its array to leave retention (R383). -/
def inRetention (s : State) (pa : Nat) : Bool := inSram pa && s.retained.contains (arrayOf pa)

/-- The slice of an address takes work: its group is ready (R16, R405), the array that holds it is awake (R383), and the C-dies through
which it is reached have not stopped (R10, R408). -/
def awakeAt (s : State) (pa : Nat) : Bool := sliceReady s (homeSlice pa) && !inRetention s pa && !s.mgmt.stopped

/-- The slices of `n` bytes take work. -/
def awake (s : State) (a n : Nat) : Bool :=
  (List.range ((a + n - 1) / 4096 - a / 4096 + 1)).all fun k => awakeAt s (max a ((a / 4096 + k) * 4096))

/-- The slices of some words take work. -/
def awakeWords (s : State) (ws : List Nat) : Bool := ws.all (awakeAt s)

/-- How many partitions are configured (R43, R293). -/
def State.partCount (s : State) : Nat := s.parts.countP fun p => p.state != .none

/-- Full at this cc (R119). -/
def isFull (now : Nat) (r : Option Nat) : Bool :=
  match r with
  | some t => t ≤ now
  | none => false

/-- All lanes below the width. -/
def laneMask (width : Nat) : LaneMask := BitVec.ofNat 64 (2 ^ width - 1)

/-- The lanes of a mask in ascending order. -/
def lanesOf (m : LaneMask) : List Nat := (List.range 64).filter fun l => m.getLsbD l

/-- The mask of some lanes. -/
def maskOf (ls : List Nat) : LaneMask := ls.foldl (fun m l => m ||| BitVec.ofNat 64 (2 ^ l)) 0

/-- The 16-bit fold of a mask (R126). -/
def fold16 (m : LaneMask) : BitVec 16 :=
  m.extractLsb' 0 16 ^^^ m.extractLsb' 16 16 ^^^ m.extractLsb' 32 16 ^^^ m.extractLsb' 48 16

/-- Sets place `i` of a file of registers; the places beyond a list's end hold `d`. -/
def putAt {α : Type} (d v : α) : Nat → List α → List α
  | 0, [] => [v]
  | 0, _ :: l => v :: l
  | i + 1, [] => d :: putAt d v i []
  | i + 1, x :: l => x :: putAt d v i l

/-- A uniform register that holds zero (R107). -/
def UReg.zero : UReg := ⟨0, some 0, false⟩

/-- A predicate that holds zero (R107). -/
def PredReg.zero : PredReg := ⟨0, some 0⟩

/-! ### Physical registers -/

/-- The physical register that a name maps to (R113). -/
def Group.preg? (g : Group) (name : Nat) : Option PReg :=
  match g.cur.lookup name with
  | some pid => g.pregs.find? fun r => r.id == pid
  | none => none

/-- Changes one physical register. -/
def Group.modPreg (g : Group) (pid : Nat) (f : PReg → PReg) : Group :=
  { g with pregs := g.pregs.map fun r => if r.id == pid then f r else r }

/-- The contents of a lane; a list shorter than 64 stands for zeros above. -/
def laneOf (ls : List Lane) (l : Nat) : Lane := ls.getD l 0

/-- Sets a lane. -/
def setLane (ls : List Lane) (l : Nat) (v : Lane) : List Lane := putAt 0 v l ls

/-- Takes the lanes of `m` whole, and of the other lanes the bits of `k`. -/
def mixLanes (m : LaneMask) (k : Lane) (src dst : List Lane) : List Lane :=
  (List.range 64).map fun l => if m.getLsbD l then laneOf src l else (laneOf src l &&& k) ||| (laneOf dst l &&& ~~~k)

/-- Registers whose unwritten parts wait for `pid` take them, now that it is full. -/
def mergeFrom (now pid : Nat) (rs : List PReg) : List PReg :=
  match rs.find? fun r => r.id == pid with
  | none => rs
  | some src => rs.map fun r =>
    match r.merge with
    | some (p, m, k) =>
      if p == pid then
        { r with
          lanes := mixLanes m k src.lanes r.lanes
          bad := (r.bad &&& ~~~m) ||| (if k = 0 then src.bad &&& m else src.bad)
          merge := none
          ready := r.ready.map fun t => max t now }
      else r
    | none => r

/-- Resolves every merge whose source is full and no longer waits itself. -/
def settleMerges (now : Nat) : Nat → List PReg → List PReg
  | 0, rs => rs
  | k + 1, rs =>
    match rs.find? fun r => match r.merge with
        | some (p, _, _) => rs.any fun q => q.id == p && q.ready.isSome && q.merge.isNone
        | none => false with
    | some r => settleMerges now k (mergeFrom now ((r.merge.map Prod.fst).getD 0) rs)
    | none => rs

/-- A name's register is full (R119); an unmapped name is full (R114). -/
def Group.nameFull (g : Group) (now name : Nat) : Bool :=
  match g.preg? name with
  | some r => isFull now r.ready && r.merge.isNone
  | none => true

/-- Lane values landing in registers of a group (R245): when the last lane lands, the register is full (R119); a register that only
waited for its write returns to the pool (R117). -/
def Group.land (g : Group) (now : Nat) (pids : List Nat) (lane : Nat) (vals : List Lane) (bad : Bool) : Group :=
  let rs := g.pregs.map fun r =>
    match pids.findIdx? (· == r.id) with
    | some i =>
      { r with
        lanes := setLane r.lanes lane (vals.getD i 0)
        bad := if bad then r.bad ||| maskOf [lane] else r.bad &&& ~~~maskOf [lane]
        pend := r.pend - 1
        ready := if r.pend ≤ 1 then some now else none }
    | none => r
  let rs := settleMerges now rs.length rs
  { g with pregs := rs.filter fun r => !(r.orphan && r.pend == 0 && r.merge.isNone) }

/-- A uniform register as the group holds it. -/
def Group.sreg (g : Group) (r : Nat) : UReg := g.sregs.getD r UReg.zero

/-- A predicate as the group holds it. -/
def Group.pred (g : Group) (r : Nat) : PredReg := g.preds.getD r PredReg.zero

/-- A value arriving in a uniform register; a write to S0 is dropped (R247). -/
def Group.setS (g : Group) (now r : Nat) (v : Word) (bad : Bool := false) : Group :=
  if r = 0 then g else { g with sregs := putAt UReg.zero ⟨v, some now, bad⟩ r g.sregs }

/-- A uniform register marked empty; S0 is never empty (R110). -/
def Group.emptyS (g : Group) (r : Nat) : Group :=
  if r = 0 then g else { g with sregs := putAt UReg.zero { g.sreg r with ready := none } r g.sregs }

/-- The contents of a uniform register; S0 reads zero (R107). -/
def Group.s (g : Group) (r : Nat) : Word := if r = 0 then 0 else (g.sreg r).val

/-- A uniform register is full. -/
def Group.sFull (g : Group) (now r : Nat) : Bool :=
  r = 0 || isFull now (g.sreg r).ready

/-- The bits of a predicate. -/
def Group.p (g : Group) (r : Nat) : LaneMask := (g.pred r).bits

/-- A predicate is full. -/
def Group.pFull (g : Group) (now r : Nat) : Bool := isFull now (g.pred r).ready

/-- Writes the bits of a predicate in some lanes, full from `t` on. -/
def Group.setP (g : Group) (r : Nat) (m bits : LaneMask) (t : Option Nat) : Group :=
  { g with preds := putAt PredReg.zero ⟨(g.p r &&& ~~~m) ||| (bits &&& m), t⟩ r g.preds }

/-! ### Regions (R113 to R118) and replay (R364) -/

/-- The checkpoint of a region that begins now (R117, R210). -/
def Group.snapshot (g : Group) : Ckpt where
  preds := g.preds
  stack := g.stack
  active := g.active
  live := g.live
  sig := g.sig
  depths := g.depths
  taken := g.taken
  po := g.po
  poFirst := g.poFirst

/-- Registers that a map no longer names return to the pool, or wait for their landing write, or for the landing write of the register
that supplies their unwritten lanes (R117). -/
def keepMapped (m : List (Nat × Nat)) (rs : List PReg) : List PReg :=
  let named := fun (r : PReg) => m.any fun e => e.2 == r.id
  (rs.filter fun r => named r || r.pend != 0 || r.merge.isSome).map fun r => if named r then r else { r with orphan := true }

/-- Closes the region; the next one begins at `g.pc` (R117). -/
def Group.closeRegion (g : Group) : Group :=
  { g with
    ent := g.cur
    pregs := keepMapped g.cur g.pregs
    regionReads := []
    regionFresh := true
    regionStart := g.pc
    sigFailed := false
    ckpt := g.snapshot }

/-- Restores the region-entry checkpoint (R364): lanes that have died since stay dead (R372), and a group whose last active lanes
these are passes over (R123, R370). A checkpoint whose active mask a taken transfer had emptied stays what it was. -/
def Group.rollback (g : Group) : Group :=
  let dry := g.ckpt.active != 0 && g.ckpt.active &&& ~~~g.dead == 0 && !g.ckpt.po
  { g with
    cur := g.ent
    pregs := keepMapped g.ent g.pregs
    preds := g.ckpt.preds
    stack := g.ckpt.stack
    active := g.ckpt.active &&& ~~~g.dead
    live := g.ckpt.live &&& ~~~g.dead
    sig := g.ckpt.sig
    depths := g.ckpt.depths
    taken := g.ckpt.taken
    po := g.ckpt.po || dry
    poFirst := g.ckpt.poFirst || dry
    regionReads := []
    regionFresh := true
    pc := g.regionStart }

/-- Replay in place (R364). -/
def Group.replay (g : Group) : Group := { g.rollback with replays := g.replays + 1 }

/-! ### Events (R52, R53) and the fault queue (R358, R359) -/

/-- The event message of a class with its count (R53). -/
def eventMsg (p cls count : Nat) (oldest : Word) : HostMsg :=
  .event p (BitVec.ofNat 64 (cls * 2 ^ 56 + p * 2 ^ 48 + count)) oldest

/-- A message of the class may be sent now (R52): some port is ready to carry it (R405). -/
def maySend (s : State) (q : Part) (cls : Nat) : Bool := portReady s && q.reachable && (q.state != .resetting || cls == 1)

/-- Sends the message of a class: its count is cleared and its timer stopped (R52, R53). -/
def sendEvent (p cls : Nat) (s : State) : State :=
  let q := s.part p
  match q.events[cls]? with
  | none => s
  | some e =>
    let oldest : Word := if cls = 0 then BitVec.ofNat 64 (q.oldest.getD 0) else 0
    let s := s.modPart p fun q =>
      { q with
        events := q.events.set cls { e with count := 0, timer := none }
        oldest := if cls = 0 then none else q.oldest }
    { s with outbox := s.outbox ++ [eventMsg p cls e.count oldest] }

/-- One event of a class of a partition (R52). -/
def countEvent (p cls : Nat) (s : State) : State :=
  let q := s.part p
  match q.events[cls]? with
  | none => s
  | some e =>
    let n := min (e.count + 1) 65535
    let s := s.modPart p fun q =>
      { q with events := q.events.set cls { e with count := n, timer := if e.count = 0 then some e.period else e.timer } }
    if e.threshold ≤ n && maySend s q cls then sendEvent p cls s else s

/-- The code of a cause (R355). -/
def Cause.code : Cause → Nat
  | .illegal => 1
  | .format => 2
  | .emptyread => 3
  | .maskstack => 4
  | .diverged => 5
  | .page => 6
  | .prot => 7
  | .align => 8
  | .bound => 9
  | .uncorr => 10
  | .signature => 11
  | .tree => 12
  | .launch => 13
  | .watchdog => 14
  | .preempt => 15
  | .syscall => 16
  | .codeauth => 17
  | .xvlane => 18
  | .counter => 19

/-- The eight words of an entry (R359). -/
def Entry.words (e : Entry) : List Word :=
  let r := e.report
  let w1 := match e.origin with
    | some (core, slot, team, group) => core * 2 ^ 48 + slot * 2 ^ 40 + team * 2 ^ 20 + group * 2 ^ 12
    | none => 0xFF * 2 ^ 48 + 0xFF * 2 ^ 40 + 0xFFFFF * 2 ^ 20 + 0xFF * 2 ^ 12
  [BitVec.ofNat 64 (r.cause.code * 2 ^ 56 + r.reason % 256 * 2 ^ 48 + r.sub % 256 * 2 ^ 40 + r.tag.toNat),
    BitVec.ofNat 64 w1, BitVec.ofNat 64 (e.pc % 2 ^ 52), r.a, r.b, r.c,
    match e.serial with
      | some n => BitVec.ofNat 64 n
      | none => BitVec.allOnes 64,
    0]

/-! ### Writes to device memory and what follows from them -/

/-- The lines of `unit` bytes that `n` bytes from `a` touch. -/
def linesOf (unit a n : Nat) : List Nat :=
  if n = 0 then [] else (List.range ((a + n - 1) / unit - a / unit + 1)).map fun i => unit * (a / unit + i)

/-- The die's bit of a presence mask is set (R66, R231). -/
def presHas (pres : List (Nat × Nat)) (line die : Nat) : Bool := ((pres.lookup line).getD 0).testBit die

/-- Sets the die's bit of a line. -/
def presSet (pres : List (Nat × Nat)) (line die : Nat) : List (Nat × Nat) :=
  (line, Nat.lor ((pres.lookup line).getD 0) (2 ^ die)) :: pres.filter fun p => p.1 != line

/-- A write to walked table lines removes the translations read from them, and the level-1 lines of the pages they mapped (R231). -/
def dropTranslations (lines : List Nat) (s : State) : State :=
  let hit := fun (e : TlbEntry) => lines.any fun l => e.lines.contains l && presHas s.presT l e.die
  let gone := s.tlb.filter hit
  { s with
    tlb := s.tlb.filter fun e => !hit e
    ilines := s.ilines.map fun i =>
      if gone.any fun e => e.die == i.die && i.asid == (s.part e.part).asidbase && e.vbase ≤ i.va && i.va < e.vbase + e.size
      then { i with mask := 0 } else i
    presT := s.presT.filter fun p => !lines.contains p.1 }

/-- A write to code lines invalidates the marked instruction levels and the level-1 copies they cover (R66). -/
def dropCode (lines : List Nat) (s : State) : State :=
  { s with
    ilines := s.ilines.filter fun i => !(lines.contains i.pa && presHas s.presC i.pa i.die)
    presC := s.presC.filter fun p => !lines.contains p.1 }

/-- A parked group goes on (R283). -/
def unpark (gid : Nat) (s : State) : State := s.modGrp gid fun g => { g with hold := .none }

/-- Waits parked on device words that the new values satisfy (R276, R283). -/
def wakeDevWaits (a n : Nat) (s : State) : State :=
  let hit := fun (r : Req) =>
    match r.op, r.phase, r.pieces with
    | .waitGe t _, .parked _, p :: _ =>
      !r.sp && a < p.addr + 8 && p.addr < a + n && decide (t.toNat ≤ (unitWord s p.addr).toNat)
    | _, _, _ => false
  let woken := s.reqs.filter hit
  let s := { s with reqs := s.reqs.filter fun r => !hit r }
  woken.foldl (fun s r => unpark r.gid s) s

/-- What follows from a write that has been performed at its home slice (R66, R231, R283). -/
def afterWrite (a n : Nat) (s : State) : State :=
  let s := if s.presT.isEmpty then s else dropTranslations (linesOf 64 a n) s
  let s := if s.presC.isEmpty then s else dropCode (linesOf 128 a n) s
  wakeDevWaits a n s

/-- The check codes after a write of `n` bytes at `a`: a word written whole is good again, a word written in part stays as
uncorrectable as it was, and otherwise is re-encoded (R369). -/
def writeSyn (a n : Nat) (s : State) : State :=
  if s.syn.isEmpty then s
  else
    let keep := fun w => !(a ≤ w && w + 8 ≤ a + n) && devSyndrome s w == .uncorrectable
    { s with syn := s.syn.filter fun p => !(wordsOf a n).contains p.1 || keep p.1 }

/-- Corrections that a read or a partial write makes to words with one wrong data bit, each counted (R381). -/
def fixWords (s : State) (ws : List Nat) : Prog :=
  .all (ws.map fun w =>
    match devSyndrome s w with
    | .dataBit i =>
      .poke (w + i / 8) (flipByte i (i / 8) (Memory.get s.mem (w + i / 8)))
        (.change fun s => { s with syn := synSet s.syn w 0, corrected := s.corrected + 1 })
    | _ => .done)

/-- The lines of uncorrectable words among some words are poisoned (R369). -/
def poisonLines (ws : List Nat) (s : State) : State :=
  let ones := fun w => if inSram w then 0xFF else 0xFFFF
  let lines := ws.filterMap fun w => if devSyndrome s w == .uncorrectable then some (w / 64 * 64) else none
  lines.foldl (fun s l => (wordsOf l 64).foldl (fun s w => { s with syn := synSet s.syn w (ones w) }) s) s

/-- What reading words leaves: corrected words are written back, and the line of an uncorrectable word is poisoned (R369, R381). -/
def readWords (ws : List Nat) : Prog :=
  .dyn fun s => if s.syn.isEmpty then .done else .all [fixWords s ws, .change (poisonLines ws)]

/-- What a read leaves. -/
def devReadEffect (a n : Nat) : Prog := readWords (wordsOf a n)

/-- The words that a write of `n` bytes at `a` writes in part, and therefore reads first (R369). -/
def partWords (a n : Nat) : List Nat := (wordsOf a n).filter fun w => !(a ≤ w && w + 8 ≤ a + n)

/-- Bytes written to device memory in one performing at their home slice. -/
def devWrite (a : Nat) (bs : List Byte) : Prog :=
  .all [
    readWords (partWords a bs.length),
    .change (writeSyn a bs.length),
    Prog.pokes a bs,
    .change (afterWrite a bs.length)]

/-- A word written to device memory. -/
def devWriteWord (a : Nat) (w : Word) : Prog := devWrite a (wordBytes w)

/-- The number of entries a fault queue has taken (R358). -/
def fqWritten (s : State) (p : Nat) : Nat := (devWord s (s.part p).fq).toNat

/-- The fault queue is full (R358). -/
def fqFull (s : State) (p : Nat) : Bool :=
  let w := fqWritten s p
  let c := min (devWord s ((s.part p).fq + 8)).toNat w
  w - c == 512

/-- Writes an entry, then `written`, then counts the class 0 event (R52, R358). -/
def fqWrite (p : Nat) (e : Entry) : Prog :=
  .dyn fun s =>
    let n := fqWritten s p
    let fq := (s.part p).fq
    .all [
      devWrite (fq + 64 + 64 * (n % 512)) (wordsBytes e.words),
      devWriteWord fq (BitVec.ofNat 64 (n + 1)),
      .change fun s => countEvent p 0 (s.modPart p fun q => { q with oldest := some (q.oldest.getD n) })]

/-- An entry that a full queue does not take: `dropped` increases (R358). -/
def fqDrop (p : Nat) : Prog :=
  .dyn fun s =>
    let a := (s.part p).fq + 16
    devWriteWord a (devWord s a + 1)

/-- The slice of a fault queue takes an access to the control block and to the place of the next entry (R16, R383, R405). -/
def fqAwake (s : State) (p : Nat) : Bool :=
  let fq := (s.part p).fq
  awake s fq 64 && awake s (fq + 64 + 64 * (fqWritten s p % 512)) 64

/-- An entry waits: the slice of the queue takes no work, or an entry that waited for it has still to be written (R383, R405). -/
def fqHeld (s : State) (p : Nat) : Bool := !fqAwake s p || (s.part p).pendEntries.any fun e => e.1.isNone

/-- An entry of a cause, or of a log, is written, dropped where the queue is full, or waits for the queue's slice (R16, R358, R383, R405).
DEDUCED (log entry 79): entries of one queue keep the order of their causes. -/
def fqEntry (p : Nat) (e : Entry) : Prog :=
  .dyn fun s =>
    if fqHeld s p then .change fun s => s.modPart p fun q => { q with pendEntries := q.pendEntries ++ [(none, e)] }
    else if fqFull s p then fqDrop p
    else fqWrite p e

/-- The origin fields of a group's entry (R359). -/
def Group.origin (g : Group) (s : State) : Nat × Nat × Nat × Nat :=
  (g.core, 24 * g.quadrant + g.slot, ((s.team? g.team).map Team.teamId).getD 0, g.groupId)

/-- The serial of a launch that has entered its queue (R359). -/
def State.serialOf (s : State) (launch : Nat) : Option Nat := ((s.launch? launch).map Launch.serial).join

/-- The entry of a group at an instruction (R359). -/
def groupEntry (s : State) (g : Group) (r : Report) (pc : Nat) : Entry where
  report := r
  origin := some (g.origin s)
  pc := pc
  serial := s.serialOf g.launch

/-! ### The end of a group and of a launch (R50, R362) -/

/-- Counts acknowledgements that a launch still owes on a core (R50). -/
def addLaunchCtr (core lid n : Nat) (s : State) : State :=
  if n = 0 then s
  else
    let old := ((s.launchCtrs.find? fun c => c.1 == core && c.2.1 == lid).map fun c => c.2.2).getD 0
    { s with launchCtrs := (core, lid, old + n) :: (s.launchCtrs.filter fun c => !(c.1 == core && c.2.1 == lid)) }

/-- The launch counter of a core (R50). -/
def launchCtr (s : State) (core lid : Nat) : Nat :=
  ((s.launchCtrs.find? fun c => c.1 == core && c.2.1 == lid).map fun c => c.2.2).getD 0

/-- One acknowledgement returns to a launch counter, which is unbound at zero (R50). -/
def decLaunchCtr (core lid : Nat) (s : State) : State :=
  let cs := s.launchCtrs.map fun c => if c.1 == core && c.2.1 == lid then (c.1, c.2.1, c.2.2 - 1) else c
  { s with launchCtrs := cs.filter fun c => c.2.2 != 0 }

/-- A launch counter of 20 bits takes `n` more counts (R50). -/
def ctrTakes (s : State) (core lid n : Nat) : Bool := launchCtr s core lid < 1048575 && launchCtr s core lid + n ≤ 1048575

/-- A group leaves its slot: its outstanding count moves to its launch's counter and only registers that wait for landing writes
stay (R50, R118). -/
def Group.leave (g : Group) : Group :=
  { g with
    life := .gone
    hold := .none
    live := 0
    active := 0
    cur := []
    ent := []
    resv := 0
    outst := 0
    pregs := keepMapped [] g.pregs }

/-- The groups of a team that have not ended. -/
def State.teamGroups (s : State) (tid : Nat) : List Group := s.groups.filter fun g => g.team == tid

/-- Barrier `n` of a team releases when every group has arrived, exited or has no live lane (R135). -/
def barReady (s : State) (t : Team) (n : Nat) : Bool :=
  let rel := t.barRel.getD n 0
  let arrived := fun (g : Group) => ((t.barArr.find? fun a => a.1 == g.groupId && a.2.1 == n).map fun a => a.2.2).getD 0
  let gs := s.teamGroups t.tid
  gs.any (fun g => g.hold == .bar n && g.life != .gone)
    && gs.all fun g => g.life == .gone || g.live == 0 || arrived g == rel + 1

/-- Releases every barrier of a team that is ready (R135). -/
def releaseBars (tid : Nat) (s : State) : State :=
  (List.range 8).foldl (fun s n =>
    match s.team? tid with
    | none => s
    | some t =>
      if barReady s t n then
        let s := s.modTeam tid fun t => { t with barRel := t.barRel.set n (t.barRel.getD n 0 + 1) }
        { s with groups := s.groups.map fun g => if g.team == tid && g.hold == .bar n then { g with hold := .none } else g }
      else s) s

/-- The group exits, or ends because no lane of it is live (R108, R386). It holds its slot while its count would take its launch's
counter above 1,048,575 (R50). -/
def exitGroup (gid : Nat) (s : State) : State :=
  match s.grp? gid with
  | none => s
  | some g =>
    if !ctrTakes s g.core g.launch g.outst then releaseBars g.team s
    else releaseBars g.team (addLaunchCtr g.core g.launch g.outst (s.modGrp gid Group.leave))

/-- A value from memory widened into lanes (R241): the size code, and whether a narrow value is sign-extended. -/
def widenLanes (size : Nat) (signed : Bool) (bs : List Byte) : List Lane :=
  let n := bytesNat bs
  match size with
  | 0 => [if signed then (BitVec.ofNat 8 n).signExtend 32 else BitVec.ofNat 32 n]
  | 1 => [if signed then (BitVec.ofNat 16 n).signExtend 32 else BitVec.ofNat 32 n]
  | 2 => [BitVec.ofNat 32 n]
  | 3 => [BitVec.ofNat 32 n, BitVec.ofNat 32 (n / 2 ^ 32)]
  | _ => [BitVec.ofNat 32 n, BitVec.ofNat 32 (n / 2 ^ 32), BitVec.ofNat 32 (n / 2 ^ 64), BitVec.ofNat 32 (n / 2 ^ 96)]

/-- A value from memory widened into a uniform register (R247). -/
def widenUni (size : Nat) (signed : Bool) (bs : List Byte) : Word :=
  let n := bytesNat bs
  match size with
  | 0 => if signed then (BitVec.ofNat 8 n).signExtend 64 else BitVec.ofNat 64 n
  | 1 => if signed then (BitVec.ofNat 16 n).signExtend 64 else BitVec.ofNat 64 n
  | 2 => if signed then (BitVec.ofNat 32 n).signExtend 64 else BitVec.ofNat 64 n
  | _ => BitVec.ofNat 64 n

/-- A result arrives at its destination, unless the answer is dropped. -/
def deliver (r : Req) (d : Dest) (size : Nat) (signed : Bool) (bs : List Byte) (bad : Bool) (s : State) : State :=
  match d with
  | .none => s
  | .lane pids lane => s.modGrp r.gid fun g => g.land s.now pids lane (widenLanes size signed bs) bad
  | .uni x => if r.drop then s else s.modGrp r.gid fun g => g.setS s.now x (widenUni size signed bs) bad

/-- Requests of a launch or partition whose answers are dropped; those that only wait are withdrawn (R362, R378). -/
def dropAnswers (mine : Req → Bool) (s : State) : State :=
  let waits := fun (r : Req) => mine r && (match r.phase with
    | .parked _ => true
    | .rearm _ => true
    | _ => false)
  let lands := s.reqs.filter waits
  let s := lands.foldl (fun s r => match r.op with
    | .fe d size signed _ => deliver r d size signed [] false s
    | _ => s) s
  { s with reqs := (s.reqs.filter fun r => !waits r).map fun r => if mine r then { r with drop := true } else r }

/-- A group whose launch ends issues nothing more and waits for nothing. DESIGN CHOICE (log entry 47): it holds its slot, as a group that
exits does, while its count would take its launch's counter above 1,048,575 (R50, R362). -/
def endGroup (s : State) (g : Group) : State :=
  if ctrTakes s g.core g.launch g.outst then addLaunchCtr g.core g.launch g.outst (s.modGrp g.gid Group.leave)
  else s.modGrp g.gid fun g => { g with hold := .none, live := 0, active := 0 }

/-- The loads that a team of the launch has still to issue again after its restore (R376) are given up: no register waits for them. -/
def forgetOwed (lid : Nat) (s : State) : State :=
  let owes := fun (g : Group) (r : PReg) => (s.teams.map fun t =>
    if t.tid == g.team && t.launch == lid && t.status != .saved then t.owed.countP fun o => o.1 == g.gid && o.2.pids.contains r.id else 0).foldl (· + ·) 0
  { s with
    groups := s.groups.map fun g => if g.launch == lid then { g with pregs := g.pregs.map fun r => { r with pend := r.pend - owes g r } } else g
    teams := s.teams.map fun t => if t.launch == lid && t.status != .saved then { t with owed := [] } else t }

/-- Items 2 to 4 of R362: every group of the launch stops, its waits are freed, and its teams that wait leave their queues. A PAGE entry that
one of them raised before and that still waits is written all the same (R363). -/
def endLaunch (lid : Nat) (s : State) : State :=
  let s := forgetOwed lid (s.modLaunch lid fun l => { l with ended := true })
  let mine := s.groups.filter fun g => g.launch == lid && g.life == .resident
  let s := mine.foldl endGroup s
  let s := dropAnswers (fun r => r.launch == lid) s
  let savedTids := (s.teams.filter fun t => t.launch == lid && t.status == .saved).map Team.tid
  { s with
    fords := s.fords.map fun f => if f.launch == lid then { f with drop := true } else f
    ports := s.ports.map fun e => if e.launch == lid then { e with drop := true } else e
    fills := s.fills.filter fun f => !mine.any fun g => g.gid == f.gid
    fillFaults := s.fillFaults.filter fun f => !mine.any fun g => g.gid == f.gid
    teams := s.teams.filter fun t => !savedTids.contains t.tid
    groups := s.groups.filter fun g => !(savedTids.contains g.team && g.life == .saved)
    parts := s.parts.map fun q => { q with
      queues := q.queues.map fun es => es.filter fun e =>
        match e with
        | .launch l => l != lid
        | .team t => !savedTids.contains t } }

/-! ### Taking a cause (R355) -/

/-- The cause ends the launch (R355). -/
def Report.ends (r : Report) : Bool :=
  match r.cause with
  | .page => false
  | .uncorr => r.reason == 3
  | .launch => false
  | .preempt => true
  | .syscall => r.reason == 1
  | .counter => r.reason == 1
  | _ => true

/-- The group parks on a PAGE entry after its roll-back (R366); the entry waits where the queue is full (R358) or its slice takes no work
(R405). -/
def raisePage (gid : Nat) (r : Report) : Prog :=
  .dyn fun s =>
    match s.grp? gid with
    | none => .done
    | some g =>
      let e := groupEntry s g r g.pc
      if fqHeld s g.part || fqFull s g.part then
        .change fun s =>
          (s.modPart g.part fun q => { q with pendEntries := q.pendEntries ++ [(some gid, e)] }).modGrp gid
            fun g => { g.rollback with hold := .pagePending }
      else
        let n := fqWritten s g.part
        .all [.change fun s => s.modGrp gid fun g => { g.rollback with hold := .page n }, fqWrite g.part e]

/-- Taking a cause at the group's instruction at `pc`: its entry is written, and then the outcome of R355 follows. -/
def raiseAt (gid pc : Nat) (r : Report) : Prog :=
  .dyn fun s =>
    match s.grp? gid with
    | none => .done
    | some g =>
      if r.cause == .page then raisePage gid r
      else .all [fqEntry g.part (groupEntry s g r pc),
        Prog.when r.ends (.change (endLaunch g.launch))]

/-- Taking a cause at the group's next instruction. -/
def raise (gid : Nat) (r : Report) : Prog :=
  .dyn fun s =>
    match s.grp? gid with
    | none => .done
    | some g => raiseAt gid g.pc r

/-- A logged entry without a group (R361, R371). -/
def logEntry (p : Nat) (r : Report) (serial : Option Nat := none) : Prog := fqEntry p { report := r, serial := serial }

/-- The return from a PAGE entry: the host's reply (R366). -/
def takeReply (gid : Nat) (v : Word) : State → State := fun s =>
  match s.grp? gid with
  | none => s
  | some g => if v = 1 then s.modGrp gid fun g => { g.replay with hold := .none } else endLaunch g.launch s

/-- The reply word of entry `n` (R359). -/
def replyAddr (q : Part) (n : Nat) : Nat := q.fq + 64 + 64 * (n % 512) + 56

/-- Groups parked on an entry whose reply word the write touched take the reply (R366); that of a saved group is kept for its restore
(R367). An entry that a later one has overwritten is no longer answered through its place. DEDUCED (log entry 84): the first reply that is
not 0 counts. -/
def takeReplies (a n : Nat) (s : State) : State :=
  let hit := s.groups.filterMap fun g =>
    match g.hold with
    | .page k =>
      let q := s.part g.part
      let w := replyAddr q k
      if a < w + 8 && w < a + n && fqWritten s g.part ≤ k + 512 then
        let v := devWord s w
        if v = 0 then none else some (g, v)
      else none
    | _ => none
  hit.foldl (fun s h =>
    if h.1.life == .saved then s.modGrp h.1.gid fun g => { g with hold := .replied h.2 } else takeReply h.1.gid h.2 s) s

/-- The byte lies in a word of a fault queue that only the device writes (R4, R358, R359): all of the control block but `consumed`, and all
of an entry but its reply. -/
def fqKept (s : State) (a : Nat) : Bool :=
  s.parts.any fun q =>
    let d := a - q.fq
    q.state != .none && decide (q.fq ≤ a) && (if d < 64 then d / 8 != 1 else d < 64 + 64 * 512 && d % 64 / 8 != 7)

/-- The runs of bytes that are kept, each with the place of its first. -/
def keepRuns (skip : Nat → Bool) : Nat → List Byte → List (Nat × List Byte)
  | _, [] => []
  | i, b :: bs =>
    if skip i then keepRuns skip (i + 1) bs
    else match keepRuns skip (i + 1) bs with
      | (j, r) :: rest => if j = i + 1 then (i, b :: r) :: rest else (i, [b]) :: (j, r) :: rest
      | [] => [(i, [b])]

/-- A write by a host, a group or an engine: what it would change of a fault queue's words that only the device writes is ignored (R4).
The device's own writes to a fault queue go through `devWrite` alone. -/
def agentWrite (a : Nat) (bs : List Byte) : Prog :=
  .dyn fun s =>
    if (List.range bs.length).any fun i => fqKept s (a + i) then
      .all ((keepRuns (fqKept s) a bs).map fun r => .all [devWrite r.1 r.2, .change (takeReplies r.1 r.2.length)])
    else .all [devWrite a bs, .change (takeReplies a bs.length)]

/-! ### Scratchpad (R234 to R239) -/

/-- The bytes of a team's scratchpad (R60). -/
def teamLimit (s : State) (t : Team) : Nat :=
  match s.launch? t.launch with
  | some l => (l.hdr.partword.extractLsb' 16 8).toNat * 65536 * t.cores.length
  | none => 0

/-- An access of `b` bytes at a signed offset lies in range (R234). -/
def inRange (lim : Nat) (t : Int) (b : Nat) : Bool := decide (0 ≤ t) && decide (t + b ≤ lim)

/-- The state of a scratchpad word (R381). -/
def spSyndrome (t : Team) (w : Nat) : Syndrome := classify cols8 (synOf t.spSyn w)

/-- The byte that a bank read delivers (R381). -/
def spByte (t : Team) (a : Nat) : Byte :=
  let b := Memory.get t.sp a
  match spSyndrome t (a / 8 * 8) with
  | .dataBit i => flipByte i (a % 8) b
  | _ => b

/-- The bytes that a bank read delivers. -/
def spBytes (t : Team) (a n : Nat) : List Byte := (List.range n).map fun i => spByte t (a + i)

/-- A word of scratchpad. -/
def spWord (t : Team) (a : Nat) : Word := BitVec.ofNat 64 (bytesNat (spBytes t a 8))

/-- The bytes touch an uncorrectable bank word (R369). -/
def spBad (t : Team) (a n : Nat) : Bool := (wordsOf a n).any fun w => spSyndrome t w == .uncorrectable

/-- A word of scratchpad as a wait or a unit reads it: a free value where it is uncorrectable and no rule names another outcome. -/
def spUnitWord (s : State) (t : Team) (a : Nat) : Word := if spBad t a 8 then Config.lost s.fresh a else spWord t a

/-- Corrects the words of a scratchpad read or partial write (R381). -/
def spFix (t : Team) (ws : List Nat) : Team :=
  ws.foldl (fun t w =>
    match spSyndrome t w with
    | .dataBit i =>
      { t with
        sp := Memory.put t.sp (w + i / 8) (flipByte i (i / 8) (Memory.get t.sp (w + i / 8)))
        spSyn := synSet t.spSyn w 0 }
    | _ => t) t

/-- The words that a read corrects. -/
def spFixes (t : Team) (ws : List Nat) : Nat := ws.countP fun w => match spSyndrome t w with
  | .dataBit _ => true
  | _ => false

/-- A read that meets an uncorrectable bank word poisons that word (R369). -/
def spPoison (t : Team) (ws : List Nat) : Team :=
  (ws.filter fun w => spSyndrome t w == .uncorrectable).foldl (fun t w => { t with spSyn := synSet t.spSyn w 0xFF }) t

/-- What reading bank words leaves: corrected words are counted and written back, uncorrectable ones are poisoned (R369, R381). -/
def spReadWords (tid : Nat) (ws : List Nat) (s : State) : State :=
  match s.team? tid with
  | none => s
  | some t =>
    if t.spSyn.isEmpty then s
    else { s.modTeam tid fun t => spPoison (spFix t ws) ws with corrected := s.corrected + spFixes t ws }

/-- What a read of scratchpad leaves. -/
def spRead (tid a n : Nat) (s : State) : State := spReadWords tid (wordsOf a n) s

/-- Bytes of scratchpad with their check codes; a word that is uncorrectable and written in part stays so (R369). -/
def spPut (a : Nat) (bs : List Byte) (t : Team) : Team :=
  let n := bs.length
  let keep := fun w => !(a ≤ w && w + 8 ≤ a + n) && spSyndrome t w == .uncorrectable
  { t with
    sp := Memory.putBytes t.sp a bs
    spSyn := t.spSyn.filter fun p => !(wordsOf a n).contains p.1 || keep p.1 }

/-- The granules that some bytes touch are full (R238). -/
def spFill (a n : Nat) (t : Team) : Team := { t with empties := t.empties.filter fun g => !(linesOf 16 a n).contains g }

/-- A granule is empty (R238). -/
def spEmpty (gran : Nat) (t : Team) : Team := { t with empties := gran :: t.empties.filter (· != gran) }

/-- Scoreboard entries of group accesses that have no request left are released (R258, R259). -/
def settleScores (s : State) : State :=
  let busy := fun (e : Score) => s.reqs.any fun r => r.gid == e.gid && r.seq == e.seq && (match r.phase with
    | .parked _ => false
    | .contributed => false
    | .done => false
    | _ => true)
  { s with scores := s.scores.filter fun e => e.cmd.isSome || busy e }

/-- The place of a park among the parks at its bank or slice (R283, R332): its cc, then side and quadrant (R258). -/
def parkOrder (s : State) (r : Req) : Nat := (s.now * 2 + r.core % 2) * 4 + ((s.grp? r.gid).map Group.quadrant).getD 0

/-- The request parks. -/
def park (id : Nat) (f : Req → Req) (s : State) : State := s.modReq id fun q => { f q with phase := .parked (parkOrder s q) }

/-- The place of a parked request. -/
def Req.order (r : Req) : Nat := match r.phase with
  | .parked k => k
  | _ => 0

/-- The request that parked first; the numbers of requests, which rise with issue, decide among equals. -/
def firstPark : List Req → Option Req
  | [] => none
  | r :: rs => match firstPark rs with
    | none => some r
    | some x => if x.order < r.order || (x.order == r.order && x.id < r.id) then some x else some r

/-- Not performed yet. -/
def Req.undone (r : Req) : Bool := r.phase == .flying || (match r.phase with
  | .rearm _ => true
  | _ => false)

/-- Parked at a bank, slice or jetty. -/
def Req.isParked (r : Req) : Bool := match r.phase with
  | .parked _ => true
  | _ => false

/-- Two requests are of one instruction. -/
def sameInstr (a b : Req) : Bool := a.gid == b.gid && a.seq == b.seq

/-- A `.fe` lane on a granule, and whether it takes (R239). -/
def Req.feOn (r : Req) (tid gran : Nat) : Option Bool :=
  match r.op, r.pieces with
  | .fe _ _ _ take, p :: _ => if r.sp && r.team == tid && p.addr / 16 * 16 == gran then some take else none
  | _, _ => none

/-- The `.fe` lanes of a granule that one filling completes (R283): every parked lane without `take`, and of the takers the one that
parked first, with the lanes of its instruction that share the granule (R239); and whether one takes. -/
def feWoken (s : State) (tid gran : Nat) : List Req × Bool :=
  let plain := s.reqs.filter fun r => r.isParked && r.feOn tid gran == some false
  match firstPark (s.reqs.filter fun r => r.isParked && r.feOn tid gran == some true) with
  | none => (plain, false)
  | some f => (plain ++ s.reqs.filter fun r => sameInstr r f && r.feOn tid gran == some true && (r.isParked || r.undone), true)

/-- Completes one parked or arriving `.fe` lane from its granule. -/
def feComplete (r : Req) (s : State) : State :=
  match r.op, r.pieces, s.team? r.team with
  | .fe d size signed _, p :: _, some t =>
    (spRead r.team p.addr p.len (deliver r d size signed (spBytes t p.addr p.len) (spBad t p.addr p.len) s)).dropReq r.id
  | _, _, _ => s

/-- The `.fe` lanes that the filling of a granule completes, and the granule empty again where one takes (R283). -/
def fillGranule (tid gran : Nat) (s : State) : State :=
  let w := feWoken s tid gran
  if w.1.isEmpty then s
  else
    let s := settleScores (w.1.foldl (fun s r => feComplete r s) s)
    if w.2 then s.modTeam tid (spEmpty gran) else s

/-- Waits on a counter that a write to scratchpad satisfies (R283). -/
def wakeSpWaits (tid a n : Nat) (s : State) : State :=
  let hit := fun (r : Req) =>
    match r.op, r.phase, r.pieces, s.team? tid with
    | .waitGe t _, .parked _, p :: _, some tm =>
      r.sp && r.team == tid && a < p.addr + 8 && p.addr < a + n && decide (t.toNat ≤ (spUnitWord s tm p.addr).toNat)
    | _, _, _, _ => false
  let woken := s.reqs.filter hit
  woken.foldl (fun s r => unpark r.gid s) { s with reqs := s.reqs.filter fun r => !hit r }

/-- Waits and parked lanes that a write to scratchpad wakes (R283): only the engines and `st.s` fill granules (R238). -/
def afterSpWrite (fill : Bool) (tid a n : Nat) (s : State) : State :=
  wakeSpWaits tid a n (if fill then (linesOf 16 a n).foldl (fun s gran => fillGranule tid gran s) (s.modTeam tid (spFill a n)) else s)

/-- Bytes written to a team's scratchpad in one performing at its banks. -/
def spWrite (fill : Bool) (tid a : Nat) (bs : List Byte) (s : State) : State :=
  afterSpWrite fill tid a bs.length ((spReadWords tid (partWords a bs.length) s).modTeam tid (spPut a bs))

/-! ### Translation (R226 to R231) -/

/-- What an access needs of a page (R228). -/
structure Need where
  r : Bool := false
  w : Bool := false
  x : Bool := false
  deriving DecidableEq, Repr

/-- The answer of a translation: a physical address and its page, or the outcome of R228 that ends the walk. -/
inductive Trans where
  | ok (pa : Nat) (e : TlbEntry)
  | fail (outcome : Nat)
  deriving DecidableEq, Repr

/-- The leaf has the permissions that the access needs. -/
def Need.ok (n : Need) (r w x : Bool) : Bool := (!n.r || r) && (!n.w || w) && (!n.x || x)

/-- The tests of R228 at one entry of a level: page size at a leaf of the level, alignment of the next table. DEDUCED (log entry 89): the
final address that outcome 4 tests is that of the access's first byte in the page. -/
def walkEntry (level : Nat) (e : Word) (va : Nat) (need : Need) : Except Nat (Bool × Nat) :=
  let size := match level with
    | 3 => 2 ^ 30
    | 2 => 2 ^ 21
    | _ => 2 ^ 16
  let tbl := e.getLsbD 1
  let addr := bitsOf e 8 40 * 256
  let tAlign := if level = 2 then 256 else 4096
  if !e.getLsbD 0 then .error 2
  else if bitsOf e 48 16 != 0 || e.getLsbD 7 then .error 3
  else if (level = 4 && !tbl) || (level = 1 && tbl) then .error 3
  else if tbl then
    if bitsOf e 2 5 != 0 then .error 3
    else if addr % tAlign != 0 then .error 3
    else if !backed addr then .error 4
    else .ok (true, addr)
  else if addr % size != 0 then .error 3
  else if !backed (addr + va % size) then .error 4
  else if bitsOf e 4 2 == 3 then .error 5
  else if !need.ok (e.getLsbD 2) (e.getLsbD 3) (e.getLsbD 6) then .error 6
  else .ok (false, addr)

/-- The index of a level (R226). -/
def levelIndex (level va : Nat) : Nat :=
  match level with
  | 4 => va / 2 ^ 39 % 8192
  | 3 => va / 2 ^ 30 % 512
  | 2 => va / 2 ^ 21 % 512
  | _ => va / 2 ^ 16 % 32

/-- The walk from a level down (R228): each entry is read and tested, and the first outcome ends the walk. An uncorrectable entry
delivers a free value. -/
def walkFrom (s : State) (die part va : Nat) (need : Need) : Nat → Nat → List Nat → Trans
  | 0, _, _ => .fail 3
  | level + 1, table, lines =>
    let a := table + 8 * levelIndex (level + 1) va
    let lines := (a / 64 * 64) :: lines
    let e := unitWord s a
    match walkEntry (level + 1) e va need with
    | .error o => .fail o
    | .ok (true, next) => walkFrom s die part va need level next lines
    | .ok (false, base) =>
      let size := match level + 1 with
        | 3 => 2 ^ 30
        | 2 => 2 ^ 21
        | _ => 2 ^ 16
      .ok (base + va % size) ⟨die, none, part, va / size * size, size, base, e.getLsbD 2, e.getLsbD 3, e.getLsbD 6, bitsOf e 4 2, lines⟩

/-- A walk of the partition's tables (R228). -/
def walk (s : State) (die part : Nat) (va : Word) (need : Need) : Trans :=
  if bitsOf va 52 12 != 0 then .fail 1
  else walkFrom s die part va.toNat need 4 (s.part part).ptroot []

/-- The table words that a walk reads (R228). -/
def walkReads (s : State) (va : Nat) (need : Need) : Nat → Nat → List Nat
  | 0, _ => []
  | level + 1, table =>
    let a := table + 8 * levelIndex (level + 1) va
    match walkEntry (level + 1) (unitWord s a) va need with
    | .ok (true, next) => a :: walkReads s va need level next
    | _ => [a]

/-- The lines of some table words that a walker of a die has read carry its presence bit (R231). -/
def markTables (die : Nat) (ws : List Nat) (s : State) : State :=
  { s with presT := ws.foldl (fun p w => presSet p (w / 64 * 64) die) s.presT }

/-- What reading words for a unit leaves, where any check code is not good (R369). -/
def touchWords (s : State) (ws : List Nat) : Prog := if s.syn.isEmpty then .done else .all (ws.map fun a => devReadEffect a 8)

/-- What the table words that a walk reads leave (R231, R369). -/
def readTables (s : State) (die : Nat) (ws : List Nat) : Prog :=
  if ws.isEmpty then .done else .all [touchWords s ws, .change (markTables die ws)]

/-- The caches of a core and of its die (R230). -/
def cached? (s : State) (die : Nat) (core : Option Nat) (part va : Nat) : Option TlbEntry :=
  s.tlb.find? fun e => e.part == part && e.die == die && (e.core == none || e.core == core) && e.vbase ≤ va && va < e.vbase + e.size

/-- The translation of one address (R228, R230): from a cached leaf, tested for the final address and the permissions, or by a walk. -/
def translate (s : State) (die : Nat) (core : Option Nat) (part : Nat) (va : Word) (need : Need) : Trans :=
  if bitsOf va 52 12 != 0 then .fail 1
  else match cached? s die core part va.toNat with
    | some e =>
      let pa := e.pbase + (va.toNat - e.vbase)
      if !backed pa then .fail 4
      else if !need.ok e.r e.w e.x then .fail 6
      else .ok pa e
    | none => walk s die part va need

/-- The table words that a translation reads: none when a cache holds the page. -/
def transReads (s : State) (die : Nat) (core : Option Nat) (part : Nat) (va : Word) (need : Need) : List Nat :=
  if bitsOf va 52 12 != 0 || (cached? s die core part va.toNat).isSome then []
  else walkReads s va.toNat need 4 (s.part part).ptroot

/-- Drops an entry of a full cache; which one is left open (R230). -/
def trimTlb (cap : Nat) (mine : TlbEntry → Bool) (fresh : Nat) (es : List TlbEntry) : List TlbEntry :=
  if es.countP mine < cap then es
  else
    let k := Config.victim fresh % cap
    match (es.filter mine)[k]? with
    | some v => es.filter fun e => !(mine e && e == v)
    | none => es

/-- Installs a leaf in the caches of the core and its die; the lines that its walk read carry the die's presence bit (R230, R231). -/
def installLeaf (core : Option Nat) (e : TlbEntry) (s : State) : State :=
  if s.tlb.any fun x => x.die == e.die && x.core == core && x.part == e.part && x.vbase == e.vbase then s
  else
    let shared := { e with core := none }
    let es := trimTlb 8192 (fun x => x.die == e.die && x.core == none) s.fresh s.tlb
    let es := if es.any fun x => x.die == e.die && x.core == none && x.part == e.part && x.vbase == e.vbase then es else shared :: es
    let es := match core with
      | some c => { e with core := some c } :: trimTlb 512 (fun x => x.core == some c) (s.fresh + 1) es
      | none => es
    { s with tlb := es, fresh := s.fresh + 2, presT := e.lines.foldl (fun p l => presSet p l e.die) s.presT }

end Sys2Proof.Machine
end

