-- ==== Sys2Proof/Machine/Issue.lean ====
section
/-! DEFINITION. Issuing one instruction of a group (R109 to R123): readiness, the causes raised at issue in the order of R356, regions
(R116), register allocation (R115), dead lanes (R370) and the signature (R132). Each meaning supplies a `Plan`. -/

namespace Sys2Proof.Machine

/-- A source operand: its register, last-read and empty-behaviour bits (R76, R114, R120). Names 256 to 263 are K0 to K7. -/
inductive Src where
  | v (name : Nat) (lr eb : Bool)
  | s (r : Nat) (eb : Bool)
  | p (r : Nat) (eb : Bool)
  deriving DecidableEq, Repr

/-- A destination operand. -/
inductive Dst where
  | v (name : Nat)
  | s (r : Nat)
  | p (r : Nat)
  deriving DecidableEq, Repr

/-- How an instruction acts (R122). -/
inductive Acts where
  | lanes
  | group
  deriving DecidableEq, Repr

/-- What is particular to an instruction. `keepBits` are the bits of
a written lane that keep their value (R199), `release` says that it is a release beyond a store, atomic or launch (R295), `touches` the table words that its translations read, `stall` is a further condition of R110 item 6, `check` the entry's own checks on the
effective lanes, `consumed` the lanes that read a marked value (R370), `effect` the entry's effect, given the group as it issues. -/
structure Plan where
  acts : Acts := .lanes
  srcs : List Src := []
  dsts : List Dst := []
  keepBits : Lane := 0
  collective : Bool := false
  closes : State → Group → LaneMask → Bool := fun _ _ _ => false
  cls : Option Nat := none
  load : Bool := false
  store : Bool := false
  atomic : Bool := false
  release : Bool := false
  launches : Bool := false
  counts : Bool := false
  tq : Bool := false
  wt : State → Group → LaneMask → Bool := fun _ _ _ => false
  stall : State → Group → Bool := fun _ _ => false
  touches : State → Group → LaneMask → List Nat := fun _ _ _ => []
  check : State → Group → LaneMask → Option Report := fun _ _ _ => none
  consumed : Group → LaneMask → LaneMask := fun _ _ => 0
  effect : State → Group → LaneMask → Prog

/-- The first of some answers. -/
def firstSome {α : Type} : List (Option α) → Option α
  | [] => none
  | some a :: _ => some a
  | none :: l => firstSome l

/-! ### The signature (R131, R132) -/

/-- One bit shifted into the CRC. -/
def crcBit (sig : BitVec 16) (b : Bool) : BitVec 16 :=
  let top := sig.getLsbD 15 ^^ b
  if top then (sig <<< 1) ^^^ 0x1021 else sig <<< 1

/-- Some bits, most significant first. -/
def crcBits : Nat → Nat → BitVec 16 → BitVec 16
  | 0, _, sig => sig
  | n + 1, v, sig => crcBits n v (crcBit sig (v.testBit n))

/-- A major shifted into the signature. -/
def shiftMajor (sig : BitVec 16) (major : Nat) : BitVec 16 := crcBits 8 major sig

/-- The major of an instruction, from its first word. -/
def majorOf (i : Instr) : Nat := ((encode i).headD 0 >>> 56).toNat

/-- The first word and the extension word, for reports (R360). -/
def word0Of (i : Instr) : Word := (encode i).headD 0

/-- The extension word, 0 when there is none. -/
def word1Of (i : Instr) : Word := (encode i).getD 1 0

/-- The bytes of an instruction (R71). -/
def instrSize (i : Instr) : Nat := 8 * (encode i).length

/-! ### Register space (R61, R115) -/

/-- Slices that a group takes: its reservation, or what it holds beyond it. -/
def Group.slices (g : Group) : Nat := max g.resv g.pregs.length * (g.width / 16)

/-- The peak footprint of a group's kernel (R21). -/
def State.peak (s : State) (g : Group) : Nat := ((s.launch? g.launch).map fun l => l.hdr.peak).getD 0

/-- The register part of a core in slices (R56, R61). -/
def coreSlices (s : State) (core : Nat) : Nat :=
  (((s.coreWords.lookup core).getD 0).extractLsb' 24 8).toNat * 1024

/-- The emergency reserve of a core (R61). -/
def coreReserve (s : State) (core : Nat) : Nat :=
  (s.groups.filter fun g => g.core == core && g.life == .resident).foldl (fun m g => max m (s.peak g * (g.width / 16))) 0

/-- Slices in use on a core. -/
def coreUsed (s : State) (core : Nat) : Nat :=
  (s.groups.filter fun g => g.core == core && g.life != .saved).foldl (fun n g => n + g.slices) 0

/-- The core's oldest group (R115). -/
def isOldest (s : State) (g : Group) : Bool :=
  s.groups.all fun h =>
    !(h.core == g.core && h.life == .resident && h.gid != g.gid)
      || g.admitted < h.admitted
      || (g.admitted == h.admitted && (g.quadrant < h.quadrant || (g.quadrant == h.quadrant && g.slot < h.slot)))

/-- A write to this name takes a fresh register in this region (R113): its register is the one that the name held at the region's
entry, or is not the name's alone. -/
def Group.needsFresh (g : Group) (name : Nat) : Bool :=
  match g.preg? name with
  | none => true
  | some r => g.ent.lookup name == some r.id || g.cur.any fun e => e.1 != name && e.2 == r.id

/-- The identifier of the next register that the group takes: above every one in use. -/
def Group.nextReg (g : Group) : Nat :=
  let above := fun (m : Nat) (ids : List Nat) => ids.foldl (fun m k => max m (k + 1)) m
  above (above g.nextPid (g.pregs.map PReg.id)) (g.cur.map Prod.snd)

/-- The names that the instruction writes. -/
def dstNames (ds : List Dst) : List Nat := (ds.filterMap fun d => match d with
  | .v n => some n
  | _ => none).eraseDups

/-- The names that the instruction's last reads free (R114). -/
def lastNames (ss : List Src) : List Nat := ss.filterMap fun x => match x with
  | .v n true _ => some n
  | _ => none

/-- After the last reads (R114). -/
def Group.unmap (g : Group) (names : List Nat) : Group := { g with cur := g.cur.filter fun e => !names.contains e.1 }

/-- Fresh registers that the instruction allocates. -/
def freshCount (g : Group) (ss : List Src) (ds : List Dst) : Nat :=
  let g := g.unmap (lastNames ss)
  (dstNames ds).countP fun n => g.needsFresh n

/-- The allocation that R115 asks for can be made for a group as it stands after its region has closed (R116, R117). -/
def allocOk (s : State) (g : Group) (k : Nat) : Bool :=
  let s := s.modGrp g.gid fun _ => g
  let n := g.pregs.length
  let delta := (max g.resv (n + k) - max g.resv n) * (g.width / 16)
  if delta = 0 then true
  else
    let free := coreSlices s g.core - coreUsed s g.core
    if isOldest s g then delta ≤ free else delta + coreReserve s g.core ≤ free

/-- A register for a write to a name: the fresh one of this region, or a new one, whose other lanes are those that the name held
(R113, R122). -/
def Group.prepare (g : Group) (now : Nat) (keep : LaneMask) (bits : Lane) (name : Nat) : Group :=
  if !g.needsFresh name then g
  else
    let pid := g.nextReg
    let r : PReg := match g.preg? name with
      | none => ⟨pid, List.replicate 64 0, 0, some now, 0, 0, none, false⟩
      | some o =>
        let open_ := o.ready.isNone || o.merge.isSome
        let kept := keep != 0 || bits != 0
        ⟨pid, o.lanes, o.tag, some (if kept then max now (o.ready.getD now) else now), o.bad, 0,
          if open_ && kept then some (o.id, keep, bits) else none, false⟩
    { g with
      nextPid := pid + 1
      pregs := g.pregs ++ [r]
      cur := (name, pid) :: g.cur.filter fun e => e.1 != name }

/-! ### Fences and pending work (R295 to R298) -/

/-- A request counts as pending (R296): a store until it is acknowledged, an add until it is done at its slice. -/
def Req.pending (r : Req) : Bool := r.cls != 3 || r.phase != .done

/-- The request writes. -/
def Req.writes (r : Req) : Bool := match r.op with
  | .load .. => false
  | .fe .. => false
  | .waitGe .. => false
  | _ => true

/-- An access of class `ls` or `at` that has not been performed (R296). -/
def State.pendingAcc (s : State) (gid seq : Nat) : Bool :=
  s.reqs.any fun r => r.gid == gid && r.seq < seq && (r.cls == 0 || r.cls == 3) && r.pending

/-- A load or atomic that has not returned its value (R295). -/
def State.pendingLoad (s : State) (gid seq : Nat) : Bool :=
  s.reqs.any fun r => r.gid == gid && r.seq < seq && (r.cls == 0 || r.cls == 3) && r.phase != .done
    && (match r.op with
      | .store _ => false
      | .sigAdd .. => false
      | _ => true)

/-- An instruction of a class that the group issued before `seq` and that has not been performed (R296). -/
def State.pendingCls (s : State) (gid cls seq : Nat) : Bool :=
  match cls with
  | 1 => s.copies.any fun c => c.gid == gid && c.seq < seq
  | 2 => s.mxcmds.any fun c => c.gid == gid && c.seq < seq
  | 4 => s.fords.any fun f => f.gid == gid && f.seq < seq
  | 6 => (s.reqs.any fun r => r.gid == gid && r.seq < seq && r.cls == 6) || s.ports.any fun e => e.gid == gid && e.seq < seq
  | c => s.reqs.any fun r => r.gid == gid && r.seq < seq && r.cls == c && r.pending

/-- A fence or cross-path fence in force holds the instruction (R295, R298). -/
def fenceHolds (s : State) (g : Group) (p : Plan) : Bool :=
  (g.fences.any fun f =>
    let rel := f.1 == 2 || f.1 == 0
    let acq := f.1 == 1 || f.1 == 0
    (rel && (p.store || p.atomic || p.launches || p.release) && s.pendingAcc g.gid f.2)
      || (acq && (p.cls == some 0 || p.cls == some 3) && s.pendingLoad g.gid f.2)
      || (f.1 == 0 && p.load && s.pendingAcc g.gid f.2))
  || g.xfences.any fun x => p.cls == some x.2.1 && s.pendingCls g.gid x.1 x.2.2

/-- Fences that hold nothing any more. -/
def Group.pruneFences (s : State) (g : Group) : Group :=
  { g with
    fences := g.fences.filter fun f => s.pendingAcc g.gid f.2
    xfences := g.xfences.filter fun x => s.pendingCls g.gid x.1 x.2.2 }

/-- Ford, fabric and tq operations of a team that have not been answered (R386). -/
def State.teamOps (s : State) (tid : Nat) : Nat :=
  (s.reqs.countP fun r => r.team == tid && (r.cls == 5 || r.cls == 6)) + (s.ports.countP fun e => e.team == tid)
    + s.fords.countP fun f => f.team == tid

/-- Entries of a core's wait table in use (R281). -/
def waitTable (s : State) (core : Nat) : Nat := ((s.reqs.filter fun r => r.wt && r.core == core).map fun r => (r.gid, r.seq)).eraseDups.length

/-! ### Readiness (R110) -/

/-- A source holds issue (R110 item 3). -/
def Src.waits (g : Group) (now : Nat) : Src → Bool
  | .v n _ eb => !eb && !g.nameFull now n
  | .s r eb => !eb && !g.sFull now r
  | .p r eb => !eb && !g.pFull now r

/-- A source is empty (R120). -/
def Src.empty (g : Group) (now : Nat) : Src → Bool
  | .v n _ _ => !g.nameFull now n
  | .s r _ => !g.sFull now r
  | .p r _ => !g.pFull now r

/-- The report of an empty source (R360). -/
def Src.report (i : Instr) : Src → Report
  | .v n _ _ => ⟨.emptyread, if n < 256 then 1 else 2, if n < 256 then n else n - 256, 0, word0Of i, word1Of i, 0⟩
  | .s r _ => ⟨.emptyread, 3, r, 0, word0Of i, word1Of i, 0⟩
  | .p r _ => ⟨.emptyread, 4, r, 0, word0Of i, word1Of i, 0⟩

/-- A K destination that the instruction also reads with EB = 1: its emptiness raises EMPTYREAD and holds nothing (R120, R220). -/
def Plan.kRaises (p : Plan) : Dst → Bool
  | .v n => 256 ≤ n && p.srcs.any fun x => match x with
    | .v m _ eb => m == n && eb
    | _ => false
  | _ => false

/-- A destination is empty (R110 item 4). -/
def Dst.waits (g : Group) (now : Nat) : Dst → Bool
  | .v n => !g.needsFresh n && !g.nameFull now n
  | .s r => !g.sFull now r
  | .p r => !g.pFull now r

/-- The uniform registers that the sources read (R116). -/
def readsOf (ss : List Src) : List Nat := ss.filterMap fun x => match x with
  | .s r _ => if r = 0 then none else some r
  | _ => none

/-- The uniform registers that the destinations write. -/
def writesOf (ds : List Dst) : List Nat := ds.filterMap fun x => match x with
  | .s r => if r = 0 then none else some r
  | _ => none

/-- The instruction reads a uniform register that it writes (R116). -/
def selfWrites (p : Plan) : Bool := (writesOf p.dsts).any fun r => (readsOf p.srcs).contains r

/-- A region closes before the instruction (R116 items 1 and 3), unless the instruction already begins one. -/
def Group.opened (g : Group) (h : Hdr) (p : Plan) : Group :=
  let open_ := h.rm || selfWrites p || (writesOf p.dsts).any fun r => g.regionReads.contains r
  if open_ && !g.regionFresh then g.closeRegion else g

/-- Lanes on which the instruction acts (R122). -/
def effLanes (g : Group) (h : Hdr) : LaneMask :=
  if h.ge then g.active &&& (if h.gn then ~~~(g.p h.gp.toNat) else g.p h.gp.toNat) else g.active

/-- The group is ready for the instruction (R110), region opening and wait table apart. -/
def ready (s : State) (g : Group) (h : Hdr) (p : Plan) : Bool :=
  g.hold == .none && g.retryAt ≤ s.now && g.active != 0
    && (!h.ge || g.pFull s.now h.gp.toNat)
    && !(p.srcs.any fun x => x.waits g s.now)
    && !(p.dsts.any fun x => x.waits (g.opened h p) s.now && !p.kRaises x)
    && (s.peak g < (g.opened h p).pregs.length + freshCount (g.opened h p) p.srcs p.dsts
        || allocOk s (g.opened h p) (freshCount (g.opened h p) p.srcs p.dsts))
    && !(p.counts && g.outst == 4095)
    && !(p.tq && s.teamOps g.team ≥ 65535)
    && !fenceHolds s g p
    && !p.stall s g

/-- The causes at issue, in the order of R356 from DIVERGED on: a register above the declared peak (R21) is BOUND at the end of the entry's
checks, before XVLANE. DEDUCED (log entry 86): its entry carries the count that would be reached, and an instruction whose guard passes in no
lane makes its first writes too. -/
def causeAt (i : Instr) (s : State) (g : Group) (h : Hdr) (p : Plan) : Option Report :=
  let g1 := g.opened h p
  let eff := effLanes g h
  let eff := eff &&& ~~~(p.consumed g eff)
  let need := g1.pregs.length + freshCount g1 p.srcs p.dsts
  firstSome [
    if p.collective && g.active != g.live then some ⟨.diverged, 0, 0, 0, word0Of i, g.active, g.live⟩ else none,
    ((p.srcs.find? fun x => x.empty g s.now).map fun x => x.report i),
    firstSome (p.srcs.map fun x => match x with
      | .s r _ => if r != 0 && (g.sreg r).bad then some ⟨.uncorr, 3, r, 0, word0Of i, 0, 0⟩ else none
      | _ => none),
    (p.check s g eff).filter fun r => r.cause != .xvlane,
    if freshCount g1 p.srcs p.dsts != 0 && s.peak g < need then some ⟨.bound, 0, 0, 0, BitVec.ofNat 64 need, word0Of i, word1Of i⟩ else none,
    p.check s g eff]

/-- Lanes that consume a marked value die (R370). -/
def Group.kill (g : Group) (m : LaneMask) : Group :=
  { g with active := g.active &&& ~~~m, live := g.live &&& ~~~m, dead := g.dead ||| m }

/-- The lowest lane of a mask. -/
def lowLane (m : LaneMask) : Nat := (lanesOf m).headD 0

/-- The lanes of the group that an instruction leaves as they are. -/
def Group.otherLanes (g : Group) (eff : LaneMask) : LaneMask := laneMask g.width &&& ~~~eff

/-- The group after the bookkeeping of an issue: last reads, dead lanes, destination registers, the signature and the pc. -/
def Group.issued (g : Group) (i : Instr) (s : State) (p : Plan) (eff dead : LaneMask) : Group :=
  let keep := g.otherLanes eff
  let g := (g.kill dead).unmap (lastNames p.srcs)
  let g := (dstNames p.dsts).foldl (fun g n => g.prepare s.now keep p.keepBits n) g
  { g with
    pc := g.pc + instrSize i
    sig := shiftMajor g.sig (majorOf i)
    taken := false
    regionFresh := false
    regionReads := (g.regionReads ++ readsOf p.srcs).eraseDups
    stamp := s.now }

/-- After the effect: the region closes where the instruction is non-idempotent or writes what it reads; a group with no live lane
ends, and one with no active lane passes over (R116, R123, R370). -/
def settle (gid : Nat) (close : Bool) (s : State) : State :=
  match s.grp? gid with
  | none => s
  | some g =>
    if g.life != .resident then s
    else
      let s := if close then s.modGrp gid Group.closeRegion else s
      if g.live = 0 then exitGroup gid s
      else if g.active = 0 && !g.po then s.modGrp gid fun g => { g with po := true, poFirst := true }
      else s

/-- The instruction issues: bookkeeping, effect, settlement. `seq` is its place in the order of issue. -/
def perform (i : Instr) (h : Hdr) (p : Plan) (g0 : Group) (s0 : State) : Prog :=
  let g := (g0.opened h p).pruneFences s0
  let eff0 := effLanes g h
  let dead := if p.acts == .lanes then p.consumed g eff0 &&& eff0 else 0
  let eff := eff0 &&& ~~~dead
  let close := selfWrites p || p.closes s0 g eff
  .all [
    .change fun s => { s.modGrp g.gid fun _ => g.issued i s p eff dead with seq := s.seq + 1 },
    if p.acts == .lanes || eff0 != 0 then p.effect s0 g eff else .done,
    if dead != 0 then fqEntry g.part (groupEntry s0 g ⟨.uncorr, 2, lowLane dead, 0, 0, dead, 0⟩ g.pc) else .done,
    .change (settle g.gid close)]

/-- A cause that a translation has found. -/
def Report.byWalk (r : Report) : Bool := r.cause == .page || r.cause == .prot

/-- One attempt to issue: nothing happens while the group is not ready, or while a table word that it walks lies in a slice that takes no
work yet (R383, R405); a cause is raised; a full wait table refuses (R281); else the instruction issues. -/
def attempt (i : Instr) (h : Hdr) (p : Plan) (gid : Nat) : Prog :=
  .dyn fun s =>
    match s.grp? gid with
    | none => .done
    | some g =>
      let ws := p.touches s g (effLanes g h)
      if !ready s g h p then .done
      else match causeAt i s g h p with
        | some r =>
          if !r.byWalk then raise gid r
          else if awakeWords s ws then .all [readTables s (dieOfCore g.core) ws, raise gid r]
          else .done
        | none =>
          if !awakeWords s ws then .done
          else if p.wt s g (effLanes g h) && waitTable s g.core ≥ 64 then
            .change fun s => s.modGrp gid fun g => { g with retryAt := s.now + 64 }
          else .all [readTables s (dieOfCore g.core) ws, perform i h p g s]

/-- Runs a program as the meaning of a step. -/
def commit (s : State) (p : Prog) : Host.Outcome State Fault Refusal := .next (p.run s)

/-- A group's team is placed, and not being discarded (R373). -/
def State.placed (s : State) (g : Group) : Bool := ((s.team? g.team).map Team.status) == some .placed

/-- The issuing group, where one is resident. -/
def State.issuing (s : State) : Option Group :=
  match s.cur with
  | none => none
  | some gid => match s.grp? gid with
    | none => none
    | some g => if g.life == .resident && s.placed g then some g else none

/-- The meaning of an instruction from its plan. -/
def runPlan (i : Instr) (h : Hdr) (p : Plan) (s : State) : Host.Outcome State Fault Refusal :=
  match s.issuing with
  | none => .fault .noGroup
  | some g => commit s (attempt i h p g.gid)

end Sys2Proof.Machine
end

