-- ==== Sys2Proof/Machine/Operands.lean ====
section
/-! DEFINITION. Every operand form: vector registers and pairs, swizzles and cross-lane reads (R97, R150, R151), immediates (R79, R91, R136),
uniform operands (R80), elements (R136), tag checks (R178) and results (R122, R179). -/

namespace Sys2Proof.Machine

/-! ### Elements -/

/-- Element width in bits (R94, R136). -/
def elemW (t : BitVec 4) : Nat :=
  match t.toNat with
  | 1 => 8
  | 2 => 8
  | 3 => 16
  | 4 => 16
  | 10 => 16
  | 11 => 16
  | 7 => 64
  | 8 => 64
  | 12 => 64
  | _ => 32

/-- Operand width in bits: 64 for pairs (R95). -/
def opW (t : BitVec 4) : Nat := if isPairType t then 64 else 32

/-- Elements in a lane (R136). -/
def elemCount (t : BitVec 4) : Nat := opW t / elemW t

/-- The type's elements are signed (R136). -/
def isSigned (t : BitVec 4) : Bool := t == 1 || t == 3 || t == 5 || t == 7

/-- The bits of element `e` as an unsigned number. -/
def elemNat (w : Nat) (v : Word) (e : Nat) : Nat := v.toNat / 2 ^ (w * e) % 2 ^ w

/-- The value of `w` bits read as signed or unsigned. -/
def readInt (signed : Bool) (w n : Nat) : Int := if signed && 2 ^ (w - 1) ≤ n then (n : Int) - 2 ^ w else n

/-- The `w`-bit pattern of an integer (R137). -/
def wrapInt (w : Nat) (v : Int) : Nat := (v % (2 ^ w : Int)).toNat

/-- The least value of a type (R137). -/
def loOf (signed : Bool) (w : Nat) : Int := if signed then -(2 ^ (w - 1) : Int) else 0

/-- The greatest value of a type (R137). -/
def hiOf (signed : Bool) (w : Nat) : Int := if signed then 2 ^ (w - 1) - 1 else 2 ^ w - 1

/-- clamp (R137). -/
def clampInt (lo hi v : Int) : Int := if v < lo then lo else if hi < v then hi else v

/-- Narrowing of an exact value (R137). -/
def narrow (sat signed : Bool) (w : Nat) (v : Int) : Nat :=
  wrapInt w (if sat then clampInt (loOf signed w) (hiOf signed w) v else v)

/-- Elements put together, element 0 lowest. -/
def joinElems (w : Nat) (es : List Nat) : Word := BitVec.ofNat 64 (es.foldr (fun e acc => e % 2 ^ w + 2 ^ w * acc) 0)

/-! ### Reading lanes -/

/-- The source lane of a swizzle before the modulo (R150). -/
def swzLane (k : BitVec 3) (p l : Nat) : Nat :=
  match k.toNat with
  | 1 => Nat.xor l (2 ^ p)
  | 2 => l / 8 * 8 + (l + p) % 8
  | 3 => Nat.xor l (2 ^ p - 1)
  | 4 => p
  | _ => l

/-- The nearest lane at or below `s` in the active mask (R151). -/
def nearest (active : LaneMask) : Nat → Option Nat
  | 0 => if active.getLsbD 0 then some 0 else none
  | s + 1 => if active.getLsbD (s + 1) then some (s + 1) else nearest active s

/-- The lanes of a name; an unmapped name reads zero (R114). -/
def Group.vLanes (g : Group) (name : Nat) : List Lane := ((g.preg? name).map PReg.lanes).getD []

/-- The tag of a name; RAW when unmapped (R114). -/
def Group.vTag (g : Group) (name : Nat) : BitVec 4 := ((g.preg? name).map PReg.tag).getD 0

/-- The marks of a name. -/
def Group.vBad (g : Group) (name : Nat) : LaneMask := ((g.preg? name).map PReg.bad).getD 0

/-- A lane of a register or pair, low half first (R95). -/
def Group.val (g : Group) (pair : Bool) (name l : Nat) : Word :=
  let lo := laneOf (g.vLanes name) l
  if pair then laneOf (g.vLanes (name + 1)) l ++ lo else lo.setWidth 64

/-- A lane of a register or pair is marked uncorrectable (R369). -/
def Group.valBad (g : Group) (pair : Bool) (name l : Nat) : Bool :=
  (g.vBad name).getLsbD l || (pair && (g.vBad (name + 1)).getLsbD l)

/-- A vector source as an instruction reads it: name, pair, swizzle, last-read and empty-behaviour bits, and the type it is
checked against. -/
structure VSrc where
  name : Nat
  pair : Bool
  swk : BitVec 3 := 0
  swp : BitVec 6 := 0
  lr : Bool
  eb : Bool
  type : BitVec 4
  deriving DecidableEq, Repr

/-- The registers of a source. -/
def VSrc.names (x : VSrc) : List Nat := if x.pair then [x.name, x.name + 1] else [x.name]

/-- The lane that lane `l` reads: its own without a swizzle, else by R150 and R151. -/
def VSrc.laneFor (x : VSrc) (g : Group) (l : Nat) : Option Nat :=
  if x.swk = 0 then some l else nearest g.active (swzLane x.swk x.swp.toNat l % g.width)

/-- The value that lane `l` reads; the identity operand is zero (R151). -/
def VSrc.read (x : VSrc) (g : Group) (l : Nat) : Word :=
  match x.laneFor g l with
  | some m => g.val x.pair x.name m
  | none => 0

/-- The value that lane `l` reads is marked uncorrectable (R370). -/
def VSrc.readBad (x : VSrc) (g : Group) (l : Nat) : Bool :=
  match x.laneFor g l with
  | some m => g.valBad x.pair x.name m
  | none => false

/-- The source operands of a vector source. -/
def VSrc.srcs (x : VSrc) : List Src := x.names.map fun n => .v n x.lr x.eb

/-- A tag passes a type (R178). -/
def tagPasses (type tag : BitVec 4) : Bool := type == 0 || type == 12 || tag == 0 || tag == type

/-- The first tag mismatch of some sources (R178, R360). -/
def formatCheck (i : Instr) (g : Group) (xs : List VSrc) : Option Report :=
  firstSome (xs.flatMap fun x => x.names.map fun n =>
    if tagPasses x.type (g.vTag n) then none
    else some ⟨.format, (g.vTag n).toNat, n % 256, 0, word0Of i, word1Of i, 0⟩)

/-- The lanes for which some source reads a marked value (R370). -/
def consumedBy (xs : List VSrc) (g : Group) (eff : LaneMask) : LaneMask :=
  if g.pregs.all fun r => r.bad == 0 then 0
  else maskOf ((lanesOf eff).filter fun l => xs.any fun x => x.readBad g l)

/-! ### Immediates and uniform operands -/

/-- imm16 widened by ik to 32 or 64 bits (R79). -/
def imm16 (imm : BitVec 16) (ik : BitVec 2) (wide : Bool) : Word :=
  let v : Word := match ik.toNat with
    | 0 => imm.signExtend 64
    | 1 => imm.setWidth 64
    | _ => ((imm.setWidth 32 : BitVec 32) <<< 16).signExtend 64
  if wide then v else (v.setWidth 32).setWidth 64

/-- The immediate operand of R136: cut to the element width and in every element for types 1 to 4. -/
def immOperand (t : BitVec 4) (imm : BitVec 16) (ik : BitVec 2) : Word :=
  let v := imm16 imm ik (isPairType t)
  if typeIn t [1, 2, 3, 4] then joinElems (elemW t) (List.replicate (elemCount t) (v.toNat % 2 ^ elemW t)) else v

/-- The uniform operand: 32 or 64 bits (R80). -/
def uniOperand (t : BitVec 4) (v : Word) : Word := if isPairType t then v else (v.setWidth 32).setWidth 64

/-- imm32 as the 64-bit immediate (R91). -/
def imm32 (imm : BitVec 32) (ik : BitVec 2) : Word :=
  match ik.toNat with
  | 0 => imm.signExtend 64
  | 1 => imm.setWidth 64
  | _ => (imm.setWidth 64) <<< 32

/-! ### Writing results -/

/-- Writes lanes of the register that a name maps to (R122, R179), less the bits of `keep`, which stay with their mark (R199). -/
def Group.writeV (g : Group) (name : Nat) (eff : LaneMask) (f : Nat → Lane) (tag : BitVec 4) (ready : Nat) (keep : Lane := 0) :
    Group :=
  match g.cur.lookup name with
  | none => g
  | some pid => g.modPreg pid fun r =>
    { r with
      lanes := (List.range 64).map fun l =>
        if eff.getLsbD l then (f l &&& ~~~keep) ||| (laneOf r.lanes l &&& keep) else laneOf r.lanes l
      tag := tag
      bad := if keep = 0 then r.bad &&& ~~~eff else r.bad
      ready := some (max ready (r.ready.getD ready)) }

/-- The low and the high half of a pair. -/
def loLane (w : Word) : Lane := w.setWidth 32

/-- The high half. -/
def hiLane (w : Word) : Lane := w.extractLsb' 32 32

/-- Writes the results of the effective lanes into a register or pair. -/
def Group.writeResult (g : Group) (pair : Bool) (name : Nat) (eff : LaneMask) (res : List (Nat × Word)) (tag : BitVec 4)
    (ready : Nat) : Group :=
  let at_ := fun l => (res.lookup l).getD 0
  let g := g.writeV name eff (fun l => loLane (at_ l)) tag ready
  if pair then g.writeV (name + 1) eff (fun l => hiLane (at_ l)) tag ready else g

/-- The destination registers. -/
def dstV (pair : Bool) (name : Nat) : List Dst := if pair then [.v name, .v (name + 1)] else [.v name]

/-- A lane-wise instruction over vector sources: each effective lane computes a result and flags from its operands. `lat` is the time
its destination shows empty, 0 where it shows none (R119); `guide` gives the uniform sources. -/
def lanePlan (i : Instr) (vd : Nat) (pairD : Bool) (xs : List VSrc) (us : List Src) (tag : Group → BitVec 4) (lat : Nat)
    (f : Group → Nat → List Word → Word × FFlags) : Plan where
  srcs := xs.flatMap VSrc.srcs ++ us
  dsts := dstV pairD vd
  check := fun _ g _ => formatCheck i g xs
  consumed := consumedBy xs
  effect := fun s g eff =>
    let res := (lanesOf eff).map fun l => (l, f g l (xs.map fun x => x.read g l))
    .change fun t => t.modGrp g.gid fun h =>
      (h.writeResult pairD vd eff (res.map fun r => (r.1, r.2.1)) (tag g) (s.now + lat)).raiseFlags (orFlags (res.map fun r => r.2.2))

/-- A value for a uniform register, full `lat` cc after issue. -/
def setUniform (gid r lat : Nat) (v : Word) : Prog :=
  .change fun s => s.modGrp gid fun g => g.setS (s.now + lat) r v

/-- A per-group instruction that writes one uniform register from the group's state. -/
def uniPlan (srcs : List Src) (sd lat : Nat) (f : Group → Word) : Plan where
  acts := .group
  srcs := srcs
  dsts := [.s sd]
  effect := fun _ g _ => setUniform g.gid sd lat (f g)

/-- Source A of a VR, VI, VS or V3 body. -/
def srcA (name : BitVec 8) (lr eb : Bool) (t : BitVec 4) : VSrc :=
  { name := name.toNat, pair := isPairType t, lr := lr, eb := eb, type := t }

/-- Source A of the VR format. -/
def vrA (f : VR) : VSrc := srcA f.va f.lra f.eba f.type

/-- Source B of the VR format, read through its swizzle (R77). -/
def vrB (f : VR) : VSrc := { srcA f.vb f.lrb f.ebb f.type with swk := f.swk, swp := f.swp }

end Sys2Proof.Machine
end

