-- ==== Sys2Proof/Machine/Float.lean ====
section
/-! DEFINITION. The floating formats (R166), exact arithmetic and one rounding (R167, R168), and the functions of R189 to R195. Every
result is computed exactly as a dyadic number, or to 256 bits with a mark that it is not exact, and then rounded once. -/

namespace Sys2Proof.Machine

/-- A binary interchange format: exponent and fraction widths (R166). -/
structure Fmt where
  eb : Nat
  fb : Nat
  deriving DecidableEq, Repr

/-- F32 (R166). -/
def fmtF32 : Fmt := ⟨8, 23⟩
/-- F16 (R166). -/
def fmtF16 : Fmt := ⟨5, 10⟩
/-- BF16 (R166). -/
def fmtBF16 : Fmt := ⟨8, 7⟩

/-- The format of a floating type (R94). -/
def fmtOf (t : BitVec 4) : Fmt := if t = 10 then fmtBF16 else if t = 11 then fmtF16 else fmtF32

/-- The width of a format. -/
def Fmt.width (f : Fmt) : Nat := 1 + f.eb + f.fb

/-- The bias. -/
def Fmt.bias (f : Fmt) : Nat := 2 ^ (f.eb - 1) - 1

/-- The exponent of the last place of subnormal numbers. -/
def Fmt.qmin (f : Fmt) : Int := 1 - (f.bias : Int) - f.fb

/-- The sign bit. -/
def Fmt.signBit (f : Fmt) (neg : Bool) : Nat := if neg then 2 ^ (f.eb + f.fb) else 0

/-- The infinity of a sign. -/
def Fmt.inf (f : Fmt) (neg : Bool) : Nat := f.signBit neg + (2 ^ f.eb - 1) * 2 ^ f.fb

/-- The largest finite value of a sign (R166). -/
def Fmt.maxFin (f : Fmt) (neg : Bool) : Nat := f.inf neg - 1

/-- The zero of a sign. -/
def Fmt.zero (f : Fmt) (neg : Bool) : Nat := f.signBit neg

/-- The canonical quiet NaN (R167). -/
def Fmt.nan (f : Fmt) : Nat := (2 ^ f.eb - 1) * 2 ^ f.fb + 2 ^ (f.fb - 1)

/-- A value read from bits: NaN, an infinity, or (−1)^neg × m × 2^e. -/
inductive FV where
  | nan (signalling : Bool)
  | inf (neg : Bool)
  | fin (neg : Bool) (m : Nat) (e : Int)
  deriving DecidableEq, Repr

/-- Reads bits (R166, R167): subnormals at their exact value. -/
def Fmt.read (f : Fmt) (b : Nat) : FV :=
  let neg := b.testBit (f.eb + f.fb)
  let ex := b / 2 ^ f.fb % 2 ^ f.eb
  let fr := b % 2 ^ f.fb
  if ex = 2 ^ f.eb - 1 then (if fr = 0 then .inf neg else .nan (fr < 2 ^ (f.fb - 1)))
  else if ex = 0 then .fin neg fr f.qmin
  else .fin neg (2 ^ f.fb + fr) (f.qmin + (ex - 1 : Nat))

/-- The quotient goes up (R168): `q` truncated, `c` the comparison of the remainder with one half. -/
def roundsUp (rnd : Nat) (neg : Bool) (q : Nat) (c : Ordering) (inexact : Bool) : Bool :=
  match rnd with
  | 0 => c == .gt || (c == .eq && q % 2 == 1)
  | 1 => false
  | 2 => inexact && !neg
  | 3 => inexact && neg
  | _ => c == .gt || c == .eq

/-- m × 2^e, and a little more where `sticky`, as an integer multiple of 2^t, rounded; with whether that was inexact. -/
def roundTo (rnd : Nat) (neg : Bool) (m : Nat) (e : Int) (sticky : Bool) (t : Int) : Nat × Bool :=
  if t ≤ e then
    let q := m * 2 ^ (e - t).toNat
    (if roundsUp rnd neg q .lt sticky then q + 1 else q, sticky)
  else
    let s := (t - e).toNat
    let q := m / 2 ^ s
    let r := m % 2 ^ s
    let half := 2 ^ (s - 1)
    let c := if r < half then Ordering.lt else if r = half && !sticky then .eq else .gt
    let inexact := r != 0 || sticky
    (if roundsUp rnd neg q c inexact then q + 1 else q, inexact)

/-- Rounds a non-zero magnitude into a format with the flags of R196: tininess is detected after rounding (R167). -/
def Fmt.round (f : Fmt) (rnd : Nat) (neg : Bool) (m : Nat) (e : Int) (sticky : Bool) : Nat × FFlags :=
  if m = 0 && !sticky then (f.zero neg, 0)
  else
    let top := (Nat.log2 m : Int) + e
    let t := max (top - f.fb) f.qmin
    let (q, inexact) := roundTo rnd neg m e sticky t
    let nx := if inexact then ffNx else 0
    let free := roundTo rnd neg m e sticky (top - f.fb)
    let tiny := decide ((Nat.log2 free.1 : Int) + (top - f.fb) < f.qmin + f.fb)
    if q = 0 then (f.zero neg, nx ||| (if inexact then ffUf else 0))
    else
      let bits := if q < 2 ^ f.fb then q else ((t - f.qmin).toNat + 1) * 2 ^ f.fb + (q - 2 ^ f.fb)
      if (2 ^ f.eb - 1) * 2 ^ f.fb ≤ bits then
        let toInf := rnd == 0 || rnd == 4 || (rnd == 2 && !neg) || (rnd == 3 && neg)
        (if toInf then f.inf neg else f.maxFin neg, ffOf ||| ffNx)
      else (f.signBit neg + bits, nx ||| (if tiny && inexact then ffUf else 0))

/-- A NaN result; a signalling input raises nv (R167). -/
def Fmt.quiet (f : Fmt) (xs : List FV) : Nat × FFlags := (f.nan, if xs.any (· == .nan true) then ffNv else 0)

/-- An invalid operation (R196). -/
def Fmt.invalid (f : Fmt) : Nat × FFlags := (f.nan, ffNv)

/-- A value is a NaN. -/
def FV.isNan : FV → Bool
  | .nan _ => true
  | _ => false

/-- The sign with which an exact zero sum is delivered (R168). -/
def zeroSign (rnd : Nat) (a b : Bool) : Bool := if a = b then a else rnd == 3

/-- The exact sum of two finite values as a signed integer multiple of a power of two. -/
def exactSum (n1 : Bool) (m1 : Nat) (e1 : Int) (n2 : Bool) (m2 : Nat) (e2 : Int) : Int × Int :=
  let e := min e1 e2
  let v := fun (n : Bool) (m : Nat) (x : Int) => (if n then -1 else 1) * ((m * 2 ^ (x - e).toNat : Nat) : Int)
  (v n1 m1 e1 + v n2 m2 e2, e)

/-- x + y (R189). -/
def Fmt.addV (f : Fmt) (rnd : Nat) (x y : FV) : Nat × FFlags :=
  match x, y with
  | .nan _, _ => f.quiet [x, y]
  | _, .nan _ => f.quiet [x, y]
  | .inf a, .inf b => if a = b then (f.inf a, 0) else f.invalid
  | .inf a, _ => (f.inf a, 0)
  | _, .inf b => (f.inf b, 0)
  | .fin n1 m1 e1, .fin n2 m2 e2 =>
    let (v, e) := exactSum n1 m1 e1 n2 m2 e2
    if v = 0 then (f.zero (zeroSign rnd n1 n2), 0) else f.round rnd (v < 0) v.natAbs e false

/-- The negative of a value. -/
def FV.negate : FV → FV
  | .nan s => .nan s
  | .inf n => .inf !n
  | .fin n m e => .fin (!n) m e

/-- x × y (R189). -/
def Fmt.mulV (f : Fmt) (rnd : Nat) (x y : FV) : Nat × FFlags :=
  match x, y with
  | .nan _, _ => f.quiet [x, y]
  | _, .nan _ => f.quiet [x, y]
  | .inf a, .inf b => (f.inf (a ^^ b), 0)
  | .inf a, .fin n m _ => if m = 0 then f.invalid else (f.inf (a ^^ n), 0)
  | .fin n m _, .inf b => if m = 0 then f.invalid else (f.inf (n ^^ b), 0)
  | .fin n1 m1 e1, .fin n2 m2 e2 => f.round rnd (n1 ^^ n2) (m1 * m2) (e1 + e2) false

/-- x ÷ y (R189): a quotient of at least 40 bits beyond the format, with the remainder as the mark. -/
def Fmt.divV (f : Fmt) (rnd : Nat) (x y : FV) : Nat × FFlags :=
  match x, y with
  | .nan _, _ => f.quiet [x, y]
  | _, .nan _ => f.quiet [x, y]
  | .inf _, .inf _ => f.invalid
  | .inf a, .fin n _ _ => (f.inf (a ^^ n), 0)
  | .fin n _ _, .inf b => (f.zero (n ^^ b), 0)
  | .fin n1 m1 e1, .fin n2 m2 e2 =>
    if m2 = 0 then (if m1 = 0 then f.invalid else (f.inf (n1 ^^ n2), ffDz))
    else if m1 = 0 then (f.zero (n1 ^^ n2), 0)
    else
      let k := 80 + Nat.log2 m2
      let n := m1 * 2 ^ k
      f.round rnd (n1 ^^ n2) (n / m2) (e1 - e2 - k) (n % m2 != 0)

/-- x × y + z, rounded once (R192). -/
def Fmt.fmaV (f : Fmt) (rnd : Nat) (x y z : FV) : Nat × FFlags :=
  let zeroInf := match x, y with
    | .inf _, .fin _ 0 _ => true
    | .fin _ 0 _, .inf _ => true
    | _, _ => false
  if zeroInf then f.invalid
  else if x.isNan || y.isNan || z.isNan then f.quiet [x, y, z]
  else
    let prod : FV := match x, y with
      | .inf a, .inf b => .inf (a ^^ b)
      | .inf a, .fin n _ _ => .inf (a ^^ n)
      | .fin n _ _, .inf b => .inf (n ^^ b)
      | .fin n1 m1 e1, .fin n2 m2 e2 => .fin (n1 ^^ n2) (m1 * m2) (e1 + e2)
      | _, _ => .nan false
    f.addV rnd prod z

/-- The greatest integer whose square is at most `n`. -/
def isqrt (n : Nat) : Nat :=
  let rec go : Nat → Nat → Nat
    | 0, r => r
    | k + 1, r => let c := r + 2 ^ k; go k (if c * c ≤ n then c else r)
  go (Nat.log2 n / 2 + 1) 0

/-- √x (R192). -/
def Fmt.sqrtV (f : Fmt) (rnd : Nat) (x : FV) : Nat × FFlags :=
  match x with
  | .nan _ => f.quiet [x]
  | .inf n => if n then f.invalid else (f.inf false, 0)
  | .fin n m e =>
    if m = 0 then (f.zero n, 0)
    else if n then f.invalid
    else
      let odd := e % 2 == 1
      let m2 := (if odd then 2 * m else m) * 2 ^ 128
      let e2 := (if odd then e - 1 else e) / 2 - 64
      let r := isqrt m2
      f.round rnd false r e2 (r * r != m2)

/-- The order of R190: −∞ < negative < −0 < +0 < positive < +∞; not for NaN. -/
def FV.less (x y : FV) : Bool :=
  match x, y with
  | .inf a, .inf b => a && !b
  | .inf a, _ => a
  | _, .inf b => !b
  | .fin n1 m1 e1, .fin n2 m2 e2 =>
    if m1 = 0 && m2 = 0 then n1 && !n2 else (exactSum n1 m1 e1 (!n2) m2 e2).1 < 0
  | _, _ => false

/-- The numerical relation of two values (R124): −0 equals +0; not for NaN. -/
def FV.lt (x y : FV) : Bool :=
  match x, y with
  | .fin _ 0 _, .fin _ 0 _ => false
  | _, _ => x.less y

/-- Bits of a value that is one of the operands. -/
def Fmt.keep (f : Fmt) (x : FV) : Nat :=
  match x with
  | .nan _ => f.nan
  | .inf n => f.inf n
  | .fin n m e => (f.round 1 n m e false).1

/-- min and max (R190). -/
def Fmt.minmaxV (f : Fmt) (isMax : Bool) (x y : FV) : Nat × FFlags :=
  let fl := (f.quiet [x, y]).2
  if x.isNan && y.isNan then (f.nan, fl)
  else if x.isNan then (f.keep y, fl)
  else if y.isNan then (f.keep x, fl)
  else (f.keep (if isMax then (if x.less y then y else x) else if y.less x then y else x), fl)

/-- abs and neg (R189). -/
def Fmt.signV (f : Fmt) (absolute : Bool) (x : FV) : Nat × FFlags :=
  match x with
  | .nan _ => f.quiet [x]
  | .inf n => (f.inf (!absolute && !n), 0)
  | .fin n m e => (f.keep (.fin (!absolute && !n) m e), 0)

/-- SAT: an infinity becomes the largest finite value of its sign and raises sa (R189). -/
def Fmt.saturate (f : Fmt) (sat : Bool) (r : Nat × FFlags) : Nat × FFlags :=
  if sat && (r.1 == f.inf false || r.1 == f.inf true) then (f.maxFin (r.1 == f.inf true), r.2 ||| ffSa) else r

/-! ### The special functions (R186, R193) -/

/-- Fraction bits of the fixed-point numbers below. -/
def fpBits : Nat := 256

/-- ⌊ln 2 × 2^256⌋. -/
def ln2Fix : Nat := 0xb17217f7d1cf79abc9e3b39803f2f6af40f343267298b62d8a0d175b8baafa2b

/-- e^t for a fixed-point t below 1, by its series. -/
def expFix (t : Nat) : Nat :=
  let rec go : Nat → Nat → Nat → Nat → Nat
    | 0, _, _, acc => acc
    | k + 1, n, term, acc => let term := term * t / 2 ^ fpBits / n; go k (n + 1) term (acc + term)
  go 70 1 (2 ^ fpBits) (2 ^ fpBits)

/-- 2^(a ÷ 2^256), as a mantissa of 256 fraction bits and an exponent. -/
def exp2Fix (a : Int) : Nat × Int :=
  let n := a / (2 ^ fpBits : Int)
  let fr := (a % (2 ^ fpBits : Int)).toNat
  (expFix (fr * ln2Fix / 2 ^ fpBits), n)

/-- A finite value as a fixed-point number, truncated. -/
def toFix (n : Bool) (m : Nat) (e : Int) : Int :=
  let s := e + fpBits
  let v : Int := if 0 ≤ s then ((m * 2 ^ s.toNat : Nat) : Int) else ((m / 2 ^ (-s).toNat : Nat) : Int)
  if n then -v else v

/-- e^x for a fixed-point x: mantissa and exponent. -/
def expOf (a : Int) : Nat × Int := exp2Fix (a * (2 ^ fpBits : Int) / (ln2Fix : Int))

/-- The natural logarithm of 1 + δ through 2 artanh(z), for a fixed-point z = δ ÷ (2 + δ). -/
def artanh2 (z : Int) : Int :=
  let z2 := z * z / (2 ^ fpBits : Int)
  let rec go : Nat → Nat → Int → Int → Int
    | 0, _, _, acc => acc
    | k + 1, n, p, acc => go k (n + 2) (p * z2 / (2 ^ fpBits : Int)) (acc + p / (n : Int))
  2 * go 180 1 z 0

/-- Just above or just below a value (R186): the exact result differs from it by less than the format can show. -/
def nearly (m : Nat) (e : Int) (above : Bool) : Nat × Int := if above then (m * 2 ^ 80, e - 80) else (m * 2 ^ 80 - 1, e - 80)

/-- 2^x for a finite x (R193). -/
def Fmt.exp2V (f : Fmt) (x : FV) : Nat × FFlags :=
  match x with
  | .nan _ => f.quiet [x]
  | .inf n => (if n then f.zero false else f.inf false, 0)
  | .fin n m e =>
    if m = 0 then f.round 0 false 1 0 false
    else
      let top := (Nat.log2 m : Int) + e
      if top < -100 then let (v, k) := nearly 1 0 (!n); f.round 0 false v k true
      else if 20 < top then (if n then f.round 0 false 1 (-100000) true else f.round 0 false 1 100000 false)
      else
        let a := toFix n m e
        if a % (2 ^ fpBits : Int) = 0 then f.round 0 false 1 (a / (2 ^ fpBits : Int)) false
        else let (v, k) := exp2Fix a; f.round 0 false v (k - fpBits) true

/-- log2 x (R193). -/
def Fmt.log2V (f : Fmt) (x : FV) : Nat × FFlags :=
  match x with
  | .nan _ => f.quiet [x]
  | .inf n => if n then f.invalid else (f.inf false, 0)
  | .fin n m e =>
    if m = 0 then (f.inf true, ffDz)
    else if n then f.invalid
    else
      let l := Nat.log2 m
      let k := (l : Int) + e
      if m = 2 ^ l then f.round 0 (k < 0) k.natAbs 0 false
      else
        let up := decide (3 * 2 ^ l < 2 * m)
        let k := if up then k + 1 else k
        let one : Int := if up then 2 ^ (l + 1) else 2 ^ l
        let z := ((m : Int) - one) * (2 ^ fpBits : Int) / ((m : Int) + one)
        let v := artanh2 z * (2 ^ fpBits : Int) / (ln2Fix : Int) + k * (2 ^ fpBits : Int)
        f.round 0 (v < 0) v.natAbs (-(fpBits : Int)) true

/-- 1 ÷ x (R193). -/
def Fmt.rcpV (f : Fmt) (x : FV) : Nat × FFlags :=
  match x with
  | .nan _ => f.quiet [x]
  | .inf n => (f.zero n, 0)
  | .fin n 0 _ => (f.inf n, ffDz)
  | .fin n m e => f.divV 0 (.fin false 1 0) (.fin n m e)

/-- 1 ÷ √x (R193). -/
def Fmt.rsqrtV (f : Fmt) (x : FV) : Nat × FFlags :=
  match x with
  | .nan _ => f.quiet [x]
  | .inf n => if n then f.invalid else (f.zero false, 0)
  | .fin n 0 _ => (f.inf n, ffDz)
  | .fin n m e =>
    if n then f.invalid
    else
      let odd := e % 2 == 1
      let m2 := if odd then 2 * m else m
      let e2 := if odd then e - 1 else e
      let a := 2 ^ 256
      let r := isqrt (a / m2)
      f.round 0 false r (-128 - e2 / 2) (r * r * m2 != a)

/-- tanh x (R193). -/
def Fmt.tanhV (f : Fmt) (x : FV) : Nat × FFlags :=
  match x with
  | .nan _ => f.quiet [x]
  | .inf n => f.round 0 n 1 0 false
  | .fin n m e =>
    if m = 0 then (f.zero n, 0)
    else
      let top := (Nat.log2 m : Int) + e
      if top < -40 then let (v, k) := nearly m e false; f.round 0 n v k true
      else if 5 < top then let (v, k) := nearly 1 0 false; f.round 0 n v k true
      else
        let (v, k) := expOf (2 * toFix false m e)
        let y := v * 2 ^ k.toNat
        let one := 2 ^ fpBits
        f.round 0 n ((y - one) * one / (y + one)) (-(fpBits : Int)) true

/-- 1 ÷ (1 + e^−x) (R193). -/
def Fmt.sigmV (f : Fmt) (x : FV) : Nat × FFlags :=
  match x with
  | .nan _ => f.quiet [x]
  | .inf n => if n then (f.zero false, 0) else f.round 0 false 1 0 false
  | .fin n m e =>
    if m = 0 then f.round 0 false 1 (-1) false
    else
      let top := (Nat.log2 m : Int) + e
      if top < -100 then let (v, k) := nearly 1 (-1) (!n); f.round 0 false v k true
      else if 7 < top then
        (if n then f.round 0 false 1 (-100000) true else let (v, k) := nearly 1 0 false; f.round 0 false v k true)
      else
        let (v, k) := expOf (-(toFix false m e))
        let one := 2 ^ fpBits
        let s := (-k).toNat
        let y := v * one
        let den := one * 2 ^ s + v
        if n then f.round 0 false (y * one / den) (-(2 * fpBits : Int)) true
        else f.round 0 false (one * one * 2 ^ s / den) (-(fpBits : Int)) true

/-- Rounding to an integral value (R194). -/
def Fmt.rndiV (f : Fmt) (rnd : Nat) (x : FV) : Nat × FFlags :=
  match x with
  | .nan _ => f.quiet [x]
  | .inf n => (f.inf n, 0)
  | .fin n m e =>
    if 0 ≤ e || m = 0 then (f.keep x, 0)
    else (f.keep (.fin n (roundTo rnd n m e false 0).1 0), 0)

/-- x × 2^k (R194). The exponent is cut to a range beyond which every format over- or underflows. -/
def Fmt.scaleV (f : Fmt) (rnd : Nat) (x : FV) (k : Int) : Nat × FFlags :=
  match x with
  | .nan _ => f.quiet [x]
  | .inf n => (f.inf n, 0)
  | .fin n m e =>
    if m = 0 then (f.zero n, 0) else f.round rnd n m (e + clampInt (-10000) 10000 k) false

/-- The magnitude of x with the sign of y's bit pattern (R194). -/
def Fmt.copysignV (f : Fmt) (x : FV) (neg : Bool) : Nat × FFlags :=
  match x with
  | .nan _ => f.quiet [x]
  | .inf _ => (f.inf neg, 0)
  | .fin _ m e => (f.keep (.fin neg m e), 0)

/-- The class bit of R195. -/
def Fmt.classBit (f : Fmt) (b : Nat) : Nat :=
  match f.read b with
  | .nan s => if s then 8 else 9
  | .inf n => if n then 0 else 7
  | .fin n m _ =>
    if m = 0 then (if n then 3 else 4)
    else if m < 2 ^ f.fb then (if n then 2 else 5)
    else if n then 1 else 6

/-! ### Over the elements of a lane (R188) -/

/-- A function of bit patterns applied to every element, with the flags of all of them. -/
def mapElems (w n : Nat) (f : Nat → Nat × FFlags) : Word × FFlags :=
  let rs := (List.range n).map f
  (joinElems w (rs.map Prod.fst), orFlags (rs.map Prod.snd))

/-- A floating function of one operand over the elements of a lane. -/
def float1 (t : BitVec 4) (sat : Bool) (op : Fmt → FV → Nat × FFlags) (x : Word) : Word × FFlags :=
  let f := fmtOf t
  mapElems (elemW t) (elemCount t) fun e => f.saturate sat (op f (f.read (elemNat (elemW t) x e)))

/-- A floating function of two operands. -/
def float2 (t : BitVec 4) (sat : Bool) (op : Fmt → FV → FV → Nat × FFlags) (x y : Word) : Word × FFlags :=
  let f := fmtOf t
  mapElems (elemW t) (elemCount t) fun e =>
    f.saturate sat (op f (f.read (elemNat (elemW t) x e)) (f.read (elemNat (elemW t) y e)))

/-- A floating function of three operands. -/
def float3 (t : BitVec 4) (sat : Bool) (op : Fmt → FV → FV → FV → Nat × FFlags) (x y z : Word) : Word × FFlags :=
  let f := fmtOf t
  mapElems (elemW t) (elemCount t) fun e =>
    f.saturate sat (op f (f.read (elemNat (elemW t) x e)) (f.read (elemNat (elemW t) y e)) (f.read (elemNat (elemW t) z e)))

/-- The floating immediate of VI: the BF16 value of imm16, rounded to F16 without flags for type 11 (R188). -/
def floatImm (t : BitVec 4) (imm : BitVec 16) : Word :=
  if t = 9 then BitVec.ofNat 64 (imm.toNat * 65536)
  else if t = 10 then joinElems 16 [imm.toNat, imm.toNat]
  else
    let b := match fmtBF16.read imm.toNat with
      | .nan _ => fmtF16.nan
      | .inf n => fmtF16.inf n
      | .fin n m e => (fmtF16.round 0 n m e false).1
    joinElems 16 [b, b]

/-- The B operand of a VI form (R136, R188). -/
def viOperand (t : BitVec 4) (imm : BitVec 16) (ik : BitVec 2) : Word :=
  if isFloatType t then floatImm t imm else immOperand t imm ik

end Sys2Proof.Machine
end

