-- ==== Sys2Proof/Machine/Dx.lean ====
section
/-! DEFINITION. DX blocks: reading (R170 to R174) and building (R175, R176). A block is the list of its 3 + m plane words. -/

namespace Sys2Proof.Machine

/-- A word of a block. -/
def dxWord (ws : List Nat) (i : Nat) : Nat := ws.getD i 0 % 2 ^ 32

/-- The header holds a non-zero byte 2 or 3 (R173). -/
def dxBadHeader (ws : List Nat) : Bool := dxWord ws 0 / 2 ^ 16 != 0

/-- Element `j` of a block of which the top `p` planes are read (R170, R171, R173, R174). -/
def dxElem (p : Nat) (ws : List Nat) (j : Nat) : FV :=
  let h := dxWord ws 0
  let ex := if (dxWord ws 1).testBit j then h / 256 % 256 else h % 256
  let m := (List.range p).foldl (fun v i => 2 * v + (if (dxWord ws (3 + i)).testBit j then 1 else 0)) 0
  if dxBadHeader ws || ex = 255 then .nan false
  else if m = 0 then .fin false 0 0
  else .fin ((dxWord ws 2).testBit j) m ((ex : Int) - 127 - (p - 1 : Nat))

/-- rne_int(|x| ÷ u(E)) of R175. -/
def dxQuot (m : Nat) (e : Nat) (mant : Nat) (ex : Int) : Nat := (roundTo 0 false mant ex false ((e : Int) - 127 - (m - 1 : Nat))).1

/-- fits(|x|, E) of R175. -/
def dxFits (m : Nat) (x : FV) (e : Nat) : Bool :=
  match x with
  | .fin _ mant ex => dxQuot m e mant ex ≤ 2 ^ m - 1
  | _ => false

/-- The magnitude under exponent E, and whether min clamped it (R175, R176). -/
def dxMag (m : Nat) (x : FV) (e : Nat) : Nat × Bool :=
  match x with
  | .fin _ mant ex =>
    let q := dxQuot m e mant ex
    if q ≤ 2 ^ m - 1 then (q, false) else (2 ^ m - 1, true)
  | .inf _ => (2 ^ m - 1, true)
  | .nan _ => (0, false)

/-- The magnitude of a value. -/
def FV.abs : FV → FV
  | .nan s => .nan s
  | .inf _ => .inf false
  | .fin _ m e => .fin false m e

/-- The value is below zero. -/
def FV.isNeg : FV → Bool
  | .nan _ => false
  | .inf n => n
  | .fin n m _ => n && m != 0

/-- A plane: bit j from element j. -/
def dxPlane (b : List Bool) : Nat := b.foldr (fun x acc => (if x then 1 else 0) + 2 * acc) 0

/-- The block of 32 values with magnitude width `m` and split distance `d` (R175), and the flags of R176. -/
def dxBuild (m d : Nat) (xs : List FV) : List Nat × FFlags :=
  let live := xs.filter fun x => !x.isNan
  let amax := live.foldl (fun a x => if a.less x.abs then x.abs else a) (.fin false 0 0)
  let eb := ((List.range 255).find? fun e => dxFits m amax e).getD 254
  let hasNan := xs.any FV.isNan
  let ea := if hasNan then eb else eb - d
  let els := xs.map fun x =>
    if hasNan then (let q := dxMag m x ea; (x.isNan, x.isNeg && q.1 != 0, q.1, q.2))
    else if dxFits m x ea then (let q := dxMag m x ea; (false, x.isNeg && q.1 != 0, q.1, q.2))
    else (let q := dxMag m x eb; (true, x.isNeg && q.1 != 0, q.1, q.2))
  let top := if hasNan then 255 else eb
  ([ea + 256 * top, dxPlane (els.map fun e => e.1), dxPlane (els.map fun e => e.2.1)]
      ++ (List.range m).map fun i => dxPlane (els.map fun e => e.2.2.1.testBit (m - 1 - i)),
    (if els.any fun e => e.2.2.2 then ffSa else 0) ||| (if xs.any fun x => x == .nan true then ffNv else 0))

end Sys2Proof.Machine
end

