-- ==== Sys2Proof/Machine/Int.lean ====
section
/-! DEFINITION. Lane-wise integer and floating arithmetic at the shared majors (R136 to R139, R188 to R190), moves and addresses (R141,
R142), and bit operations (R143 to R149). -/

namespace Sys2Proof.Machine

/-! ### Plans of the four vector formats -/

/-- The tag that a result takes: the type's, or under types 0 and 12 that of source A (R94, R138). -/
def tagOr (t : BitVec 4) (src : Nat) (g : Group) : BitVec 4 := if t == 0 || t == 12 then g.vTag src else t

/-- VR with two sources (R77). -/
def vrPlan (i : Instr) (f : VR) (lat : Nat) (op : Word → Word → Word × FFlags) : Plan :=
  lanePlan i f.vd.toNat (isPairType f.type) [vrA f, vrB f] [] (tagOr f.type f.va.toNat) lat
    fun _ _ xs => op (xs.getD 0 0) (xs.getD 1 0)

/-- VR with one source, read through vb (R78). -/
def vr1Plan (i : Instr) (f : VR) (tag : Group → BitVec 4) (lat : Nat) (op : Word → Word × FFlags) : Plan :=
  lanePlan i f.vd.toNat (isPairType f.type) [vrB f] [] tag lat fun _ _ xs => op (xs.getD 0 0)

/-- VI (R79): the immediate is the B operand. -/
def viPlan (i : Instr) (f : VI) (op : Word → Word → Word × FFlags) : Plan :=
  lanePlan i f.vd.toNat (isPairType f.type) [srcA f.va f.lra f.eba f.type] [] (tagOr f.type f.va.toNat) 0
    fun _ _ xs => op (xs.getD 0 0) (viOperand f.type f.imm f.ik)

/-- VS (R80): a uniform register is the B operand. -/
def vsPlan (i : Instr) (f : VS) (op : Word → Word → Word × FFlags) : Plan :=
  lanePlan i f.vd.toNat (isPairType f.type) [srcA f.va f.lra f.eba f.type] [.s f.sb.toNat false] (tagOr f.type f.va.toNat) 0
    fun g _ xs => op (xs.getD 0 0) (uniOperand f.type (g.s f.sb.toNat))

/-- The three sources of V3 (R81). -/
def v3Srcs (f : V3) : List VSrc :=
  [srcA f.va f.lra f.eba f.type, srcA f.vb f.lrb f.ebb f.type, srcA f.vc f.lrc f.ebc f.type]

/-- V3 (R81). -/
def v3Plan (i : Instr) (f : V3) (op : Word → Word → Word → Word × FFlags) : Plan :=
  lanePlan i f.vd.toNat (isPairType f.type) (v3Srcs f) [] (tagOr f.type f.va.toNat) 0
    fun _ _ xs => op (xs.getD 0 0) (xs.getD 1 0) (xs.getD 2 0)

/-! ### Exact values (R137) -/

/-- An exact value: of the signedness, the width and the elements x and y. -/
abbrev IntFn := Bool → Nat → Int → Int → Int

/-- B's element read as an unsigned number. A count beyond `w + 2` acts as `w + 2`, which no exact result can tell apart. -/
def shiftCount (w : Nat) (y : Int) : Nat := min (y % (2 ^ w : Int)).toNat (w + 2)

/-- add. -/
def xAdd : IntFn := fun _ _ x y => x + y
/-- sub. -/
def xSub : IntFn := fun _ _ x y => x - y
/-- rsub. -/
def xRsub : IntFn := fun _ _ x y => y - x
/-- mul. -/
def xMul : IntFn := fun _ _ x y => x * y
/-- mulhi: the floor of x × y ÷ 2^w. -/
def xMulhi : IntFn := fun _ w x y => x * y / (2 ^ w : Int)
/-- min. -/
def xMin : IntFn := fun _ _ x y => if y < x then y else x
/-- max. -/
def xMax : IntFn := fun _ _ x y => if x < y then y else x
/-- abs of y. -/
def xAbs : IntFn := fun _ _ _ y => if y < 0 then -y else y
/-- neg of y. -/
def xNeg : IntFn := fun _ _ _ y => -y
/-- adiff. -/
def xAdiff : IntFn := fun _ _ x y => if x < y then y - x else x - y
/-- div: truncated toward zero; by zero, hi or lo. -/
def xDiv : IntFn := fun sg w x y => if y = 0 then (if 0 ≤ x then hiOf sg w else loOf sg w) else Int.tdiv x y
/-- rem: x for a zero divisor. -/
def xRem : IntFn := fun _ _ x y => if y = 0 then x else x - y * Int.tdiv x y
/-- shl. -/
def xShl : IntFn := fun _ w x y => x * (2 ^ shiftCount w y : Int)
/-- shr: the floor of x ÷ 2^n. -/
def xShr : IntFn := fun _ w x y => x / (2 ^ shiftCount w y : Int)
/-- rshr: x ÷ 2^n rounded by rnd. -/
def xRshr (rnd : Nat) : IntFn := fun _ w x y =>
  let q : Int := (roundTo rnd (decide (x < 0)) x.natAbs 0 false (shiftCount w y : Int)).1
  if x < 0 then -q else q

/-- The elements of two lanes combined and narrowed (R138). -/
def intElems (t : BitVec 4) (sat : Bool) (v : IntFn) (x y : Word) : Word :=
  let w := elemW t
  let sg := isSigned t
  joinElems w ((List.range (elemCount t)).map fun e =>
    narrow sat sg w (v sg w (readInt sg w (elemNat w x e)) (readInt sg w (elemNat w y e))))

/-- An integer operation of two operands; it raises no flag (R138, R197). -/
def intOp (t : BitVec 4) (sat : Bool) (v : IntFn) (x y : Word) : Word × FFlags := (intElems t sat v x y, ffNone)

/-- The arithmetic of a shared major: floating for types 9 to 11 (R188), else integer. -/
def arith (t : BitVec 4) (sat : Bool) (v : IntFn) (fl : Fmt → FV → FV → Nat × FFlags) (x y : Word) : Word × FFlags :=
  if isFloatType t then float2 t sat fl x y else intOp t sat v x y

/-- add at a type. -/
def addOp (t : BitVec 4) (rnd : BitVec 3) (sat : Bool) : Word → Word → Word × FFlags :=
  arith t sat xAdd fun f x y => f.addV rnd.toNat x y

/-- sub at a type. -/
def subOp (t : BitVec 4) (rnd : BitVec 3) (sat : Bool) : Word → Word → Word × FFlags :=
  arith t sat xSub fun f x y => f.addV rnd.toNat x y.negate

/-- mul at a type. -/
def mulOp (t : BitVec 4) (rnd : BitVec 3) (sat : Bool) : Word → Word → Word × FFlags :=
  arith t sat xMul fun f x y => f.mulV rnd.toNat x y

/-- min at a type. -/
def minOp (t : BitVec 4) : Word → Word → Word × FFlags := arith t false xMin fun f x y => f.minmaxV false x y

/-- max at a type. -/
def maxOp (t : BitVec 4) : Word → Word → Word × FFlags := arith t false xMax fun f x y => f.minmaxV true x y

/-- abs at a type. -/
def absOp (t : BitVec 4) (sat : Bool) (y : Word) : Word × FFlags :=
  if isFloatType t then float1 t sat (fun f x => f.signV true x) y else intOp t sat xAbs 0 y

/-- neg at a type. -/
def negOp (t : BitVec 4) (sat : Bool) (y : Word) : Word × FFlags :=
  if isFloatType t then float1 t sat (fun f x => f.signV false x) y else intOp t sat xNeg 0 y

/-- div at a type. -/
def divOp (t : BitVec 4) (rnd : BitVec 3) (sat : Bool) : Word → Word → Word × FFlags :=
  arith t sat xDiv fun f x y => f.divV rnd.toNat x y

/-- The unsigned type of the same width (R137). -/
def unsignedOf (t : BitVec 4) : BitVec 4 := if isSigned t then t + 1 else t

/-- mad: x × y + z narrowed (R137). -/
def madOp (t : BitVec 4) (sat : Bool) (x y z : Word) : Word × FFlags :=
  let w := elemW t
  let sg := isSigned t
  (joinElems w ((List.range (elemCount t)).map fun e =>
    narrow sat sg w (readInt sg w (elemNat w x e) * readInt sg w (elemNat w y e) + readInt sg w (elemNat w z e))), ffNone)

/-- add, VR (R137, R189). -/
def planAddVr (h : Hdr) (f : VR) : Plan :=
  vrPlan (.addVr h f) f 0 (addOp f.type f.rnd f.sat)

/-- The meaning of ADD_VR. -/
def execAddVr (h : Hdr) (f : VR) : State → Host.Outcome State Fault Refusal :=
  runPlan (.addVr h f) h (planAddVr h f)

/-- sub, VR (R137, R189). -/
def planSubVr (h : Hdr) (f : VR) : Plan :=
  vrPlan (.subVr h f) f 0 (subOp f.type f.rnd f.sat)

/-- The meaning of SUB_VR. -/
def execSubVr (h : Hdr) (f : VR) : State → Host.Outcome State Fault Refusal :=
  runPlan (.subVr h f) h (planSubVr h f)

/-- mul, VR (R137, R189). -/
def planMulVr (h : Hdr) (f : VR) : Plan :=
  vrPlan (.mulVr h f) f 0 (mulOp f.type f.rnd f.sat)

/-- The meaning of MUL_VR. -/
def execMulVr (h : Hdr) (f : VR) : State → Host.Outcome State Fault Refusal :=
  runPlan (.mulVr h f) h (planMulVr h f)

/-- mulhi (R137). -/
def planMulhi (h : Hdr) (f : VR) : Plan :=
  vrPlan (.mulhi h f) f 0 (intOp f.type false xMulhi)

/-- The meaning of MULHI. -/
def execMulhi (h : Hdr) (f : VR) : State → Host.Outcome State Fault Refusal :=
  runPlan (.mulhi h f) h (planMulhi h f)

/-- min, VR (R137, R190). -/
def planMinVr (h : Hdr) (f : VR) : Plan :=
  vrPlan (.minVr h f) f 0 (minOp f.type)

/-- The meaning of MIN_VR. -/
def execMinVr (h : Hdr) (f : VR) : State → Host.Outcome State Fault Refusal :=
  runPlan (.minVr h f) h (planMinVr h f)

/-- max, VR (R137, R190). -/
def planMaxVr (h : Hdr) (f : VR) : Plan :=
  vrPlan (.maxVr h f) f 0 (maxOp f.type)

/-- The meaning of MAX_VR. -/
def execMaxVr (h : Hdr) (f : VR) : State → Host.Outcome State Fault Refusal :=
  runPlan (.maxVr h f) h (planMaxVr h f)

/-- abs (R137, R189). -/
def planAbs (h : Hdr) (f : VR) : Plan :=
  vr1Plan (.abs h f) f (fun _ => f.type) 0 (absOp f.type f.sat)

/-- The meaning of ABS. -/
def execAbs (h : Hdr) (f : VR) : State → Host.Outcome State Fault Refusal :=
  runPlan (.abs h f) h (planAbs h f)

/-- neg (R137, R189). -/
def planNeg (h : Hdr) (f : VR) : Plan :=
  vr1Plan (.neg h f) f (fun _ => f.type) 0 (negOp f.type f.sat)

/-- The meaning of NEG. -/
def execNeg (h : Hdr) (f : VR) : State → Host.Outcome State Fault Refusal :=
  runPlan (.neg h f) h (planNeg h f)

/-- div (R137, R189). -/
def planDiv (h : Hdr) (f : VR) : Plan :=
  vrPlan (.div h f) f 0 (divOp f.type f.rnd f.sat)

/-- The meaning of DIV. -/
def execDiv (h : Hdr) (f : VR) : State → Host.Outcome State Fault Refusal :=
  runPlan (.div h f) h (planDiv h f)

/-- rem (R137). -/
def planRem (h : Hdr) (f : VR) : Plan :=
  vrPlan (.rem h f) f 0 (intOp f.type false xRem)

/-- The meaning of REM. -/
def execRem (h : Hdr) (f : VR) : State → Host.Outcome State Fault Refusal :=
  runPlan (.rem h f) h (planRem h f)

/-- shl, VR (R137). -/
def planShlVr (h : Hdr) (f : VR) : Plan :=
  vrPlan (.shlVr h f) f 0 (intOp f.type f.sat xShl)

/-- The meaning of SHL_VR. -/
def execShlVr (h : Hdr) (f : VR) : State → Host.Outcome State Fault Refusal :=
  runPlan (.shlVr h f) h (planShlVr h f)

/-- shr, VR (R137). -/
def planShrVr (h : Hdr) (f : VR) : Plan :=
  vrPlan (.shrVr h f) f 0 (intOp f.type false xShr)

/-- The meaning of SHR_VR. -/
def execShrVr (h : Hdr) (f : VR) : State → Host.Outcome State Fault Refusal :=
  runPlan (.shrVr h f) h (planShrVr h f)

/-- rshr, VR (R137). -/
def planRshrVr (h : Hdr) (f : VR) : Plan :=
  vrPlan (.rshrVr h f) f 0 (intOp f.type false (xRshr f.rnd.toNat))

/-- The meaning of RSHR_VR. -/
def execRshrVr (h : Hdr) (f : VR) : State → Host.Outcome State Fault Refusal :=
  runPlan (.rshrVr h f) h (planRshrVr h f)

/-- adiff: the result and its tag are of the unsigned type (R137, R138). -/
def planAdiff (h : Hdr) (f : VR) : Plan :=
  lanePlan (.adiff h f) f.vd.toNat (isPairType f.type) [vrA f, vrB f] [] (fun _ => unsignedOf f.type) 0
    fun _ _ xs => intOp f.type false xAdiff (xs.getD 0 0) (xs.getD 1 0)

/-- The meaning of ADIFF. -/
def execAdiff (h : Hdr) (f : VR) : State → Host.Outcome State Fault Refusal :=
  runPlan (.adiff h f) h (planAdiff h f)

/-- mad (R137). -/
def planMad (h : Hdr) (f : V3) : Plan :=
  v3Plan (.mad h f) f (madOp f.type f.sat)

/-- The meaning of MAD. -/
def execMad (h : Hdr) (f : V3) : State → Host.Outcome State Fault Refusal :=
  runPlan (.mad h f) h (planMad h f)

/-- add, VI (R137, R189). -/
def planAddVi (h : Hdr) (f : VI) : Plan :=
  viPlan (.addVi h f) f (addOp f.type f.rnd f.sat)

/-- The meaning of ADD_VI. -/
def execAddVi (h : Hdr) (f : VI) : State → Host.Outcome State Fault Refusal :=
  runPlan (.addVi h f) h (planAddVi h f)

/-- rsub (R137). -/
def planRsub (h : Hdr) (f : VI) : Plan :=
  viPlan (.rsub h f) f (intOp f.type f.sat xRsub)

/-- The meaning of RSUB. -/
def execRsub (h : Hdr) (f : VI) : State → Host.Outcome State Fault Refusal :=
  runPlan (.rsub h f) h (planRsub h f)

/-- mul, VI (R137, R189). -/
def planMulVi (h : Hdr) (f : VI) : Plan :=
  viPlan (.mulVi h f) f (mulOp f.type f.rnd f.sat)

/-- The meaning of MUL_VI. -/
def execMulVi (h : Hdr) (f : VI) : State → Host.Outcome State Fault Refusal :=
  runPlan (.mulVi h f) h (planMulVi h f)

/-- shl, VI (R137). -/
def planShlVi (h : Hdr) (f : VI) : Plan :=
  viPlan (.shlVi h f) f (intOp f.type f.sat xShl)

/-- The meaning of SHL_VI. -/
def execShlVi (h : Hdr) (f : VI) : State → Host.Outcome State Fault Refusal :=
  runPlan (.shlVi h f) h (planShlVi h f)

/-- shr, VI (R137). -/
def planShrVi (h : Hdr) (f : VI) : Plan :=
  viPlan (.shrVi h f) f (intOp f.type false xShr)

/-- The meaning of SHR_VI. -/
def execShrVi (h : Hdr) (f : VI) : State → Host.Outcome State Fault Refusal :=
  runPlan (.shrVi h f) h (planShrVi h f)

/-- rshr, VI (R137). -/
def planRshrVi (h : Hdr) (f : VI) : Plan :=
  viPlan (.rshrVi h f) f (intOp f.type false (xRshr f.rnd.toNat))

/-- The meaning of RSHR_VI. -/
def execRshrVi (h : Hdr) (f : VI) : State → Host.Outcome State Fault Refusal :=
  runPlan (.rshrVi h f) h (planRshrVi h f)

/-- min, VI (R137, R190). -/
def planMinVi (h : Hdr) (f : VI) : Plan :=
  viPlan (.minVi h f) f (minOp f.type)

/-- The meaning of MIN_VI. -/
def execMinVi (h : Hdr) (f : VI) : State → Host.Outcome State Fault Refusal :=
  runPlan (.minVi h f) h (planMinVi h f)

/-- max, VI (R137, R190). -/
def planMaxVi (h : Hdr) (f : VI) : Plan :=
  viPlan (.maxVi h f) f (maxOp f.type)

/-- The meaning of MAX_VI. -/
def execMaxVi (h : Hdr) (f : VI) : State → Host.Outcome State Fault Refusal :=
  runPlan (.maxVi h f) h (planMaxVi h f)

/-- add, VS (R137, R189). -/
def planAddVs (h : Hdr) (f : VS) : Plan :=
  vsPlan (.addVs h f) f (addOp f.type f.rnd f.sat)

/-- The meaning of ADD_VS. -/
def execAddVs (h : Hdr) (f : VS) : State → Host.Outcome State Fault Refusal :=
  runPlan (.addVs h f) h (planAddVs h f)

/-- sub, VS (R137, R189). -/
def planSubVs (h : Hdr) (f : VS) : Plan :=
  vsPlan (.subVs h f) f (subOp f.type f.rnd f.sat)

/-- The meaning of SUB_VS. -/
def execSubVs (h : Hdr) (f : VS) : State → Host.Outcome State Fault Refusal :=
  runPlan (.subVs h f) h (planSubVs h f)

/-- mul, VS (R137, R189). -/
def planMulVs (h : Hdr) (f : VS) : Plan :=
  vsPlan (.mulVs h f) f (mulOp f.type f.rnd f.sat)

/-- The meaning of MUL_VS. -/
def execMulVs (h : Hdr) (f : VS) : State → Host.Outcome State Fault Refusal :=
  runPlan (.mulVs h f) h (planMulVs h f)

/-- shl, VS (R137). -/
def planShlVs (h : Hdr) (f : VS) : Plan :=
  vsPlan (.shlVs h f) f (intOp f.type f.sat xShl)

/-- The meaning of SHL_VS. -/
def execShlVs (h : Hdr) (f : VS) : State → Host.Outcome State Fault Refusal :=
  runPlan (.shlVs h f) h (planShlVs h f)

/-- shr, VS (R137). -/
def planShrVs (h : Hdr) (f : VS) : Plan :=
  vsPlan (.shrVs h f) f (intOp f.type false xShr)

/-- The meaning of SHR_VS. -/
def execShrVs (h : Hdr) (f : VS) : State → Host.Outcome State Fault Refusal :=
  runPlan (.shrVs h f) h (planShrVs h f)

/-- min, VS (R137, R190). -/
def planMinVs (h : Hdr) (f : VS) : Plan :=
  vsPlan (.minVs h f) f (minOp f.type)

/-- The meaning of MIN_VS. -/
def execMinVs (h : Hdr) (f : VS) : State → Host.Outcome State Fault Refusal :=
  runPlan (.minVs h f) h (planMinVs h f)

/-- max, VS (R137, R190). -/
def planMaxVs (h : Hdr) (f : VS) : Plan :=
  vsPlan (.maxVs h f) f (maxOp f.type)

/-- The meaning of MAX_VS. -/
def execMaxVs (h : Hdr) (f : VS) : State → Host.Outcome State Fault Refusal :=
  runPlan (.maxVs h f) h (planMaxVs h f)

/-! ### Moves and addresses (R141, R142) -/

/-- mov, VR: the source's lane value through its swizzle (R141). -/
def planMovVr (h : Hdr) (f : VR) : Plan :=
  vr1Plan (.movVr h f) f (tagOr f.type f.vb.toNat) 0 fun y => (y, ffNone)

/-- The meaning of MOV_VR. -/
def execMovVr (h : Hdr) (f : VR) : State → Host.Outcome State Fault Refusal :=
  runPlan (.movVr h f) h (planMovVr h f)

/-- mov, VI: the immediate in every effective lane; RAW under type 0 (R141). -/
def planMovVi (h : Hdr) (f : VI) : Plan :=
  lanePlan (.movVi h f) f.vd.toNat (isPairType f.type) [] [] (fun _ => f.type) 0
    fun _ _ _ => (viOperand f.type f.imm f.ik, ffNone)

/-- The meaning of MOV_VI. -/
def execMovVi (h : Hdr) (f : VI) : State → Host.Outcome State Fault Refusal :=
  runPlan (.movVi h f) h (planMovVi h f)

/-- mov, VS: a uniform register in every effective lane; RAW under types 0 and 12 (R141). -/
def planMovVs (h : Hdr) (f : VS) : Plan :=
  lanePlan (.movVs h f) f.vd.toNat (isPairType f.type) [] [.s f.sb.toNat false]
    (fun _ => if f.type == 12 then 0 else f.type) 0
    fun g _ _ => (uniOperand f.type (g.s f.sb.toNat), ffNone)

/-- The meaning of MOV_VS. -/
def execMovVs (h : Hdr) (f : VS) : State → Host.Outcome State Fault Refusal :=
  runPlan (.movVs h f) h (planMovVs h f)

/-- The address of `lea` (R142): trunc64(S[sb] + i × 2^sh). -/
def leaAddr (t : BitVec 4) (base : Word) (sh : Nat) (lane : Word) : Word :=
  base + BitVec.ofInt 64 (readInt (isSigned t) 32 (elemNat 32 lane 0) * (2 ^ sh : Int))

/-- lea: a 64-bit address in a pair tagged N64 (R142). -/
def planLea (h : Hdr) (f : VS) : Plan :=
  lanePlan (.lea h f) f.vd.toNat true [srcA f.va f.lra f.eba f.type] [.s f.sb.toNat false]
    (fun _ => 8) 0
    fun g _ xs => (leaAddr f.type (g.s f.sb.toNat) (f.fn.toNat % 16) (xs.getD 0 0), ffNone)

/-- The meaning of LEA. -/
def execLea (h : Hdr) (f : VS) : State → Host.Outcome State Fault Refusal :=
  runPlan (.lea h f) h (planLea h f)

/-! ### Bit operations (R143 to R149) -/

/-- A result cut to the operand width. -/
def cutTo (w : Nat) (v : Word) : Word := if w = 64 then v else (v.setWidth 32).setWidth 64

/-- A bitwise operation (R143). -/
def bitOp (t : BitVec 4) (op : Word → Word → Word) (x y : Word) : Word × FFlags := (cutTo (opW t) (op x y), ffNone)

/-- and, VR (R143). -/
def planAndVr (h : Hdr) (f : VR) : Plan :=
  vrPlan (.andVr h f) f 0 (bitOp f.type (· &&& ·))

/-- The meaning of AND_VR. -/
def execAndVr (h : Hdr) (f : VR) : State → Host.Outcome State Fault Refusal :=
  runPlan (.andVr h f) h (planAndVr h f)

/-- or, VR (R143). -/
def planOrVr (h : Hdr) (f : VR) : Plan :=
  vrPlan (.orVr h f) f 0 (bitOp f.type (· ||| ·))

/-- The meaning of OR_VR. -/
def execOrVr (h : Hdr) (f : VR) : State → Host.Outcome State Fault Refusal :=
  runPlan (.orVr h f) h (planOrVr h f)

/-- xor, VR (R143). -/
def planXorVr (h : Hdr) (f : VR) : Plan :=
  vrPlan (.xorVr h f) f 0 (bitOp f.type (· ^^^ ·))

/-- The meaning of XOR_VR. -/
def execXorVr (h : Hdr) (f : VR) : State → Host.Outcome State Fault Refusal :=
  runPlan (.xorVr h f) h (planXorVr h f)

/-- andn (R143). -/
def planAndn (h : Hdr) (f : VR) : Plan :=
  vrPlan (.andn h f) f 0 (bitOp f.type fun x y => x &&& ~~~y)

/-- The meaning of ANDN. -/
def execAndn (h : Hdr) (f : VR) : State → Host.Outcome State Fault Refusal :=
  runPlan (.andn h f) h (planAndn h f)

/-- not, with the tag of vb (R143). -/
def planNotVr (h : Hdr) (f : VR) : Plan :=
  vr1Plan (.notVr h f) f (tagOr f.type f.vb.toNat) 0 (bitOp f.type (fun _ y => ~~~y) 0)

/-- The meaning of NOT. -/
def execNotVr (h : Hdr) (f : VR) : State → Host.Outcome State Fault Refusal :=
  runPlan (.notVr h f) h (planNotVr h f)

/-- and, VI (R143). -/
def planAndVi (h : Hdr) (f : VI) : Plan :=
  viPlan (.andVi h f) f (bitOp f.type (· &&& ·))

/-- The meaning of AND_VI. -/
def execAndVi (h : Hdr) (f : VI) : State → Host.Outcome State Fault Refusal :=
  runPlan (.andVi h f) h (planAndVi h f)

/-- or, VI (R143). -/
def planOrVi (h : Hdr) (f : VI) : Plan :=
  viPlan (.orVi h f) f (bitOp f.type (· ||| ·))

/-- The meaning of OR_VI. -/
def execOrVi (h : Hdr) (f : VI) : State → Host.Outcome State Fault Refusal :=
  runPlan (.orVi h f) h (planOrVi h f)

/-- xor, VI (R143). -/
def planXorVi (h : Hdr) (f : VI) : Plan :=
  viPlan (.xorVi h f) f (bitOp f.type (· ^^^ ·))

/-- The meaning of XOR_VI. -/
def execXorVi (h : Hdr) (f : VI) : State → Host.Outcome State Fault Refusal :=
  runPlan (.xorVi h f) h (planXorVi h f)

/-- and, VS (R143). -/
def planAndVs (h : Hdr) (f : VS) : Plan :=
  vsPlan (.andVs h f) f (bitOp f.type (· &&& ·))

/-- The meaning of AND_VS. -/
def execAndVs (h : Hdr) (f : VS) : State → Host.Outcome State Fault Refusal :=
  runPlan (.andVs h f) h (planAndVs h f)

/-- or, VS (R143). -/
def planOrVs (h : Hdr) (f : VS) : Plan :=
  vsPlan (.orVs h f) f (bitOp f.type (· ||| ·))

/-- The meaning of OR_VS. -/
def execOrVs (h : Hdr) (f : VS) : State → Host.Outcome State Fault Refusal :=
  runPlan (.orVs h f) h (planOrVs h f)

/-- xor, VS (R143). -/
def planXorVs (h : Hdr) (f : VS) : Plan :=
  vsPlan (.xorVs h f) f (bitOp f.type (· ^^^ ·))

/-- The meaning of XOR_VS. -/
def execXorVs (h : Hdr) (f : VS) : State → Host.Outcome State Fault Refusal :=
  runPlan (.xorVs h f) h (planXorVs h f)

/-- The number of set bits. -/
def popCount (w : Nat) (v : Word) : Nat := (List.range w).countP fun i => v.getLsbD i

/-- Zero bits below the lowest set one; `w` for zero (R144). -/
def ctzOf (w : Nat) (v : Word) : Nat := ((List.range w).find? fun i => v.getLsbD i).getD w

/-- Zero bits above the highest set one; `w` for zero (R144). -/
def clzOf (w : Nat) (v : Word) : Nat := ((List.range w).find? fun i => v.getLsbD (w - 1 - i)).getD w

/-- A word from its bits. -/
def ofBits (w : Nat) (b : Nat → Bool) : Word :=
  (List.range w).foldl (fun v i => if b i then v ||| BitVec.ofNat 64 (2 ^ i) else v) 0

/-- Bit i of the result is bit w − 1 − i (R144). -/
def brevOf (w : Nat) (v : Word) : Word := ofBits w fun i => v.getLsbD (w - 1 - i)

/-- The tag of a count (R144). -/
def countTag (t : BitVec 4) : Group → BitVec 4 := fun _ => if t == 12 then 8 else 6

/-- popc (R144). -/
def planPopc (h : Hdr) (f : VR) : Plan :=
  vr1Plan (.popc h f) f (countTag f.type) 0 fun y => (BitVec.ofNat 64 (popCount (opW f.type) y), ffNone)

/-- The meaning of POPC. -/
def execPopc (h : Hdr) (f : VR) : State → Host.Outcome State Fault Refusal :=
  runPlan (.popc h f) h (planPopc h f)

/-- clz (R144). -/
def planClz (h : Hdr) (f : VR) : Plan :=
  vr1Plan (.clz h f) f (countTag f.type) 0 fun y => (BitVec.ofNat 64 (clzOf (opW f.type) y), ffNone)

/-- The meaning of CLZ. -/
def execClz (h : Hdr) (f : VR) : State → Host.Outcome State Fault Refusal :=
  runPlan (.clz h f) h (planClz h f)

/-- ctz (R144). -/
def planCtz (h : Hdr) (f : VR) : Plan :=
  vr1Plan (.ctz h f) f (countTag f.type) 0 fun y => (BitVec.ofNat 64 (ctzOf (opW f.type) y), ffNone)

/-- The meaning of CTZ. -/
def execCtz (h : Hdr) (f : VR) : State → Host.Outcome State Fault Refusal :=
  runPlan (.ctz h f) h (planCtz h f)

/-- brev (R144). -/
def planBrev (h : Hdr) (f : VR) : Plan :=
  vr1Plan (.brev h f) f (tagOr f.type f.vb.toNat) 0 fun y => (brevOf (opW f.type) y, ffNone)

/-- The meaning of BREV. -/
def execBrev (h : Hdr) (f : VR) : State → Host.Outcome State Fault Refusal :=
  runPlan (.brev h f) h (planBrev h f)

/-- How many mask bits stand below bit i. -/
def rankOf (m : Word) (i : Nat) : Nat := (List.range i).countP fun j => m.getLsbD j

/-- bdep: bit i of the result is bit rank(i) of A where the mask has bit i (R145). -/
def bdepOf (w : Nat) (a m : Word) : Word := ofBits w fun i => m.getLsbD i && a.getLsbD (rankOf m i)

/-- bext: the bits of A at the mask's positions, gathered low (R145). -/
def bextOf (w : Nat) (a m : Word) : Word :=
  let at_ := (List.range w).filter fun i => m.getLsbD i
  ofBits w fun k => match at_[k]? with
    | some i => a.getLsbD i
    | none => false

/-- bdep (R145). -/
def planBdep (h : Hdr) (f : VR) : Plan :=
  vrPlan (.bdep h f) f 0 fun x y => (bdepOf (opW f.type) x y, ffNone)

/-- The meaning of BDEP. -/
def execBdep (h : Hdr) (f : VR) : State → Host.Outcome State Fault Refusal :=
  runPlan (.bdep h f) h (planBdep h f)

/-- bext (R145). -/
def planBext (h : Hdr) (f : VR) : Plan :=
  vrPlan (.bext h f) f 0 fun x y => (bextOf (opW f.type) x y, ffNone)

/-- The meaning of BEXT. -/
def execBext (h : Hdr) (f : VR) : State → Host.Outcome State Fault Refusal :=
  runPlan (.bext h f) h (planBext h f)

/-- bperm: the bit permutation of every byte, then the gathering of bytes (R146). -/
def bpermOf (a b : Word) : Word :=
  let t := ofBits 64 fun q => a.getLsbD (8 * (q / 8) + bitsOf b (24 + 3 * (q % 8)) 3)
  ofBits 64 fun q => t.getLsbD (8 * bitsOf b (3 * (q / 8)) 3 + q % 8)

/-- bperm (R146). -/
def planBperm (h : Hdr) (f : VR) : Plan :=
  vrPlan (.bperm h f) f 0 fun x y => (bpermOf x y, ffNone)

/-- The meaning of BPERM. -/
def execBperm (h : Hdr) (f : VR) : State → Host.Outcome State Fault Refusal :=
  runPlan (.bperm h f) h (planBperm h f)

/-- gfmat: each byte of A times the matrix whose rows are the bytes of B (R147). -/
def gfmatOf (a b : Word) : Word :=
  ofBits 64 fun q => (List.range 8).foldl (fun x j => x ^^ (a.getLsbD (8 * (q / 8) + j) && b.getLsbD (8 * (q % 8) + j))) false

/-- gfmat (R147). -/
def planGfmat (h : Hdr) (f : VR) : Plan :=
  vrPlan (.gfmat h f) f 0 fun x y => (gfmatOf x y, ffNone)

/-- The meaning of GFMAT. -/
def execGfmat (h : Hdr) (f : VR) : State → Host.Outcome State Fault Refusal :=
  runPlan (.gfmat h f) h (planGfmat h f)

/-- bfx: the field of `len` bits at `pos`, widened as the type says (R148). -/
def bfxOf (t : BitVec 4) (pos len : Nat) (a : Word) : Word :=
  BitVec.ofNat 64 (wrapInt (opW t) (readInt (isSigned t) len (a.toNat / 2 ^ pos % 2 ^ len)))

/-- bfx (R148). -/
def planBfx (h : Hdr) (f : VI) : Plan :=
  lanePlan (.bfx h f) f.vd.toNat (isPairType f.type) [srcA f.va f.lra f.eba f.type] [] (fun _ => f.type) 0
    fun _ _ xs => (bfxOf f.type (f.imm.extractLsb' 0 6).toNat ((f.imm.extractLsb' 6 6).toNat + 1) (xs.getD 0 0), ffNone)

/-- The meaning of BFX. -/
def execBfx (h : Hdr) (f : VI) : State → Host.Outcome State Fault Refusal :=
  runPlan (.bfx h f) h (planBfx h f)

/-- bfi: the field mask of R149 applied (R149). -/
def bfiOf (w : Nat) (a b c : Word) : Word :=
  let pos := bitsOf c 0 6
  let len := bitsOf c 8 6
  let m : Word := BitVec.ofNat 64 ((2 ^ len - 1) * 2 ^ pos % 2 ^ w)
  cutTo w ((a &&& ~~~m) ||| (BitVec.ofNat 64 (b.toNat * 2 ^ pos) &&& m))

/-- bfi (R149). -/
def planBfi (h : Hdr) (f : V3) : Plan :=
  v3Plan (.bfi h f) f fun x y z => (bfiOf (opW f.type) x y z, ffNone)

/-- The meaning of BFI. -/
def execBfi (h : Hdr) (f : V3) : State → Host.Outcome State Fault Refusal :=
  runPlan (.bfi h f) h (planBfi h f)

end Sys2Proof.Machine
end

