-- ==== Sys2Proof/Machine/CrossLane.lean ====
section
/-! DEFINITION. Instructions that read other lanes: shfl, vote, ballot, scan, red, and mov into a uniform register (R150 to R158). -/

namespace Sys2Proof.Machine

/-! ### shfl (R152) -/

/-- The value that `shfl` moves to a lane: va of the nearest active lane at or below index modulo width (R150, R151). -/
def shflRead (g : Group) (pair : Bool) (name idx : Nat) : Word :=
  match nearest g.active (idx % g.width) with
  | some m => g.val pair name m
  | none => 0

/-- The value so moved is marked uncorrectable. -/
def shflBad (g : Group) (pair : Bool) (name idx : Nat) : Bool :=
  match nearest g.active (idx % g.width) with
  | some m => g.valBad pair name m
  | none => false

/-- `shfl`, given the index of a lane and the lanes whose index is marked; vd is full after 4 cc. -/
def shflPlan (i : Instr) (a : VSrc) (vd : Nat) (more : List Src) (check : Group → Option Report) (index : Group → Nat → Nat)
    (indexBad : Group → Nat → Bool) : Plan where
  srcs := a.srcs ++ more
  dsts := dstV a.pair vd
  check := fun _ g _ => firstSome [formatCheck i g [a], check g]
  consumed := fun g eff => maskOf ((lanesOf eff).filter fun l => indexBad g l || shflBad g a.pair a.name (index g l))
  effect := fun s g eff => .change fun t => t.modGrp g.gid fun h =>
    h.writeResult a.pair vd eff ((lanesOf eff).map fun l => (l, shflRead g a.pair a.name (index g l)))
      (tagOr a.type a.name g) (s.now + 4)

/-- The index register of the VR form: one register, read through vb's swizzle. -/
def shflIndex (f : VR) : VSrc := { name := f.vb.toNat, pair := false, swk := f.swk, swp := f.swp, lr := f.lrb, eb := f.ebb, type := 6 }

/-- The index register carries N32, I32 or RAW, or FORMAT is raised (R152). -/
def shflCheck (i : Instr) (f : VR) (g : Group) : Option Report :=
  let t := g.vTag f.vb.toNat
  if typeIn t [0, 5, 6] then none else some ⟨.format, t.toNat, f.vb.toNat, 0, word0Of i, word1Of i, 0⟩

/-- shfl with an index for each lane (R152). -/
def planShflVr (h : Hdr) (f : VR) : Plan :=
  shflPlan (.shflVr h f) (vrA f) f.vd.toNat (shflIndex f).srcs (shflCheck (.shflVr h f) f)
    (fun g l => ((shflIndex f).read g l).toNat) fun g l => (shflIndex f).readBad g l

/-- The meaning of SHFL_VR. -/
def execShflVr (h : Hdr) (f : VR) : State → Host.Outcome State Fault Refusal :=
  runPlan (.shflVr h f) h (planShflVr h f)

/-- shfl with one index for all lanes (R152). -/
def planShflVs (h : Hdr) (f : VS) : Plan :=
  shflPlan (.shflVs h f) (srcA f.va f.lra f.eba f.type) f.vd.toNat [.s f.sb.toNat false] (fun _ => none)
    (fun g _ => (g.s f.sb.toNat).toNat % 2 ^ 32) fun _ _ => false

/-- The meaning of SHFL_VS. -/
def execShflVs (h : Hdr) (f : VS) : State → Host.Outcome State Fault Refusal :=
  runPlan (.shflVs h f) h (planShflVs h f)

/-! ### vote and ballot (R153, R154) -/

/-- The combined bit of `vote` over the effective lanes. -/
def voteBit (kind : Nat) (q bits : LaneMask) : Bool :=
  match kind with
  | 0 => q &&& ~~~bits == 0
  | 1 => q &&& bits != 0
  | _ => q &&& ~~~bits == 0 || q &&& bits == 0

/-- vote (R153). -/
def planVote (f : PR) : Plan :=
  {
    srcs := [.p f.pa.toNat f.eba]
    dsts := [.p f.pd.toNat]
    effect := fun s g eff =>
      let c := voteBit (f.fn.toNat % 4) eff (g.p f.pa.toNat)
      .change fun t => t.modGrp g.gid fun h => h.setP f.pd.toNat eff (if c then eff else 0) (some (s.now + 2)) }

/-- The meaning of VOTE. -/
def execVote (h : Hdr) (f : PR) : State → Host.Outcome State Fault Refusal :=
  runPlan (.vote h f) h (planVote f)

/-- ballot: sa names the predicate and fn[0] its empty behaviour (R154). -/
def planBallot (f : UR) : Plan :=
  {
    acts := .group
    srcs := [.p f.sa.toNat (f.fn.getLsbD 0)]
    dsts := [.s f.sd.toNat]
    effect := fun _ g eff => setUniform g.gid f.sd.toNat 2 (eff &&& g.p f.sa.toNat) }

/-- The meaning of BALLOT. -/
def execBallot (h : Hdr) (f : UR) : State → Host.Outcome State Fault Refusal :=
  runPlan (.ballot h f) h (planBallot f)

/-! ### scan and red (R155 to R157) -/

/-- The operation of `scan` and `red` (R155). -/
def scanOpOf (f : VR) : Nat := (f.swp.extractLsb' 0 3).toNat

/-- EX of `scan` (R155). -/
def scanEx (f : VR) : Bool := f.swp.getLsbD 3

/-- The integer and bitwise operations as exact combinations of element values. -/
def scanInt (op : Nat) (x y : Int) : Int :=
  match op with
  | 0 => x + y
  | 1 => if y < x then y else x
  | 2 => if x < y then y else x
  | 3 => (Nat.land x.toNat y.toNat : Nat)
  | 4 => (Nat.lor x.toNat y.toNat : Nat)
  | _ => (Nat.xor x.toNat y.toNat : Nat)

/-- The identity of an integer or bitwise operation (R155). -/
def scanIdInt (op : Nat) (t : BitVec 4) : Int :=
  match op with
  | 1 => hiOf (isSigned t) (opW t)
  | 2 => loOf (isSigned t) (opW t)
  | 3 => 2 ^ opW t - 1
  | _ => 0

/-- The identity of a type 9 operation: −0, +∞ or −∞ (R155). -/
def scanIdF32 (op : Nat) : Nat :=
  match op with
  | 0 => fmtF32.zero true
  | 1 => fmtF32.inf false
  | _ => fmtF32.inf true

/-- One node of a type 9 combination, with its flags. -/
def scanF32 (op rnd : Nat) (x y : Nat × FFlags) : Nat × FFlags :=
  let r := match op with
    | 0 => fmtF32.addV rnd (fmtF32.read x.1) (fmtF32.read y.1)
    | _ => fmtF32.minmaxV (op == 2) (fmtF32.read x.1) (fmtF32.read y.1)
  (r.1, r.2 ||| x.2 ||| y.2)

/-- Adjacent pairs combined, the lower first (R156). -/
def pairUp (f : Nat × FFlags → Nat × FFlags → Nat × FFlags) : List (Nat × FFlags) → List (Nat × FFlags)
  | x :: y :: l => f x y :: pairUp f l
  | l => l

/-- The pairwise tree by lane index (R156): at most six levels. -/
def treeOf (f : Nat × FFlags → Nat × FFlags → Nat × FFlags) : Nat → List (Nat × FFlags) → List (Nat × FFlags)
  | 0, l => l
  | k + 1, l => treeOf f k (pairUp f l)

/-- One step of the inclusive scan (R156). -/
def scanStep (f : Nat × FFlags → Nat × FFlags → Nat × FFlags) (d : Nat) (us : List (Nat × FFlags)) : List (Nat × FFlags) :=
  (List.range us.length).map fun l =>
    let u := us.getD l (0, 0)
    if d ≤ l then f (us.getD (l - d) (0, 0)) u else u

/-- A type 9 source value: a NaN is read as the canonical one, and a signalling one raises nv (R167). -/
def scanLeaf (v : Word) : Nat × FFlags :=
  let x := fmtF32.read (v.toNat % 2 ^ 32)
  (fmtF32.keep x, if x.isNan then (fmtF32.quiet [x]).2 else 0)

/-- The result of `red` or `scan` for every lane below the width, with the flags of the nodes that it combines (R156, R197). -/
def scanAll (isRed : Bool) (t : BitVec 4) (op rnd : Nat) (sat ex : Bool) (width : Nat) (val : Nat → Option Word) :
    List (Word × FFlags) :=
  if t == 9 then
    let one : Nat × FFlags := (scanIdF32 op, 0)
    let ts := (List.range width).map fun l => ((val l).map scanLeaf).getD one
    let f := scanF32 op rnd
    let rs := if isRed then List.replicate width ((treeOf f 6 ts).getD 0 one)
      else
        let us := [1, 2, 4, 8, 16, 32].foldl (fun us d => if d < width then scanStep f d us else us) ts
        if ex then one :: us else us
    (rs.take width).map fun r => (BitVec.ofNat 64 r.1, r.2)
  else
    let w := opW t
    let sg := isSigned t
    let one := scanIdInt op t
    let ts := (List.range width).map fun l => ((val l).map fun v => readInt sg w (elemNat w v 0)).getD one
    let rs := if isRed then List.replicate width (ts.foldl (scanInt op) one)
      else
        let pre := (ts.foldl (fun (a : Int × List Int) x => let v := scanInt op a.1 x; (v, a.2 ++ [v])) (one, [])).2
        if ex then one :: pre else pre
    (rs.take width).map fun v => (BitVec.ofNat 64 (narrow sat sg w v), 0)

/-- When a result is full (R157). -/
def scanLat (t : BitVec 4) (op width : Nat) : Nat :=
  (if t == 9 && op == 0 then 4 * Nat.log2 width + 4 else 8) + (if width = 64 then 2 else 0)

/-- The lanes that consume a marked value (R370). -/
def scanConsumed (isRed ex : Bool) (x : VSrc) (g : Group) (eff : LaneMask) : LaneMask :=
  let bad := (lanesOf eff).filter fun m => g.valBad x.pair x.name m
  if isRed then (if bad.isEmpty then 0 else eff)
  else maskOf ((lanesOf eff).filter fun l => bad.any fun m => if ex then m < l else m ≤ l)

/-- The source of `scan` and `red`: vb with no swizzle (R155). -/
def scanSrc (f : VR) : VSrc := srcA f.vb f.lrb f.ebb f.type

/-- `scan` and `red`: lanes that are not effective contribute the identity (R156). -/
def scanPlan (i : Instr) (isRed : Bool) (f : VR) : Plan where
  srcs := (scanSrc f).srcs
  dsts := dstV (isPairType f.type) f.vd.toNat
  check := fun _ g _ => formatCheck i g [scanSrc f]
  consumed := scanConsumed isRed (scanEx f) (scanSrc f)
  effect := fun s g eff =>
    let r := scanAll isRed f.type (scanOpOf f) f.rnd.toNat f.sat (!isRed && scanEx f) g.width
      fun l => if eff.getLsbD l then some (g.val (isPairType f.type) f.vb.toNat l) else none
    let at_ := (lanesOf eff).map fun l => (l, r.getD l (0, 0))
    .change fun t => t.modGrp g.gid fun h =>
      (h.writeResult (isPairType f.type) f.vd.toNat eff (at_.map fun x => (x.1, x.2.1))
        (tagOr f.type f.vb.toNat g) (s.now + scanLat f.type (scanOpOf f) g.width)).raiseFlags (orFlags (at_.map fun x => x.2.2))

/-- scan (R156). -/
def planScan (h : Hdr) (f : VR) : Plan :=
  scanPlan (.scan h f) false f

/-- The meaning of SCAN. -/
def execScan (h : Hdr) (f : VR) : State → Host.Outcome State Fault Refusal :=
  runPlan (.scan h f) h (planScan h f)

/-- red (R156). -/
def planRed (h : Hdr) (f : VR) : Plan :=
  scanPlan (.red h f) true f

/-- The meaning of RED. -/
def execRed (h : Hdr) (f : VR) : State → Host.Outcome State Fault Refusal :=
  runPlan (.red h f) h (planRed h f)

/-! ### mov into a uniform register (R158) -/

/-- The lane that `mov` reads: the lowest active one, or N modulo the width (R158). -/
def movSvLane (f : SV) (g : Group) : Nat :=
  if f.fn.getLsbD 6 then lowLane g.active else (f.fn.extractLsb' 0 6).toNat % g.width

/-- The value that arrives in the uniform register (R158). -/
def movSvValue (f : SV) (g : Group) : Word :=
  let x := shflRead g (isPairType f.type) f.va.toNat (movSvLane f g)
  if f.type == 5 then (x.setWidth 32).signExtend 64 else x

/-- mov into a uniform register: a marked value raises UNCORR with reason 3 (R158, R370). DEDUCED (log entry 20): where its guard fails, the
tag is still checked, and a marked value is not read. -/
def planMovSv (h : Hdr) (f : SV) : Plan :=
  let x := srcA f.va f.lra f.eba f.type
  {
    acts := .group
    srcs := x.srcs
    dsts := [.s f.sd.toNat]
    check := fun _ g eff => firstSome [formatCheck (.movSv h f) g [x],
      if eff != 0 && shflBad g x.pair x.name (movSvLane f g) then
        some ⟨.uncorr, 3, f.va.toNat, 0, word0Of (.movSv h f), 0, 0⟩
      else none]
    effect := fun _ g _ => setUniform g.gid f.sd.toNat 2 (movSvValue f g) }

/-- The meaning of MOV_SV. -/
def execMovSv (h : Hdr) (f : SV) : State → Host.Outcome State Fault Refusal :=
  runPlan (.movSv h f) h (planMovSv h f)

end Sys2Proof.Machine
end

