-- ==== Sys2Proof/Machine/Uniform.lean ====
section
/-! DEFINITION. Uniform instructions (R159 to R163). -/

namespace Sys2Proof.Machine

/-- The type of a uniform operation (R159). -/
def uType (f : UR) : BitVec 4 := f.fn.extractLsb' 0 4

/-- The two uniform sources with the empty-behaviour bits of R159. -/
def uSrcs (f : UR) : List Src := [.s f.sa.toNat (f.fn.getLsbD 5), .s f.sb.toNat (f.fn.getLsbD 6)]

/-- A 32-bit result widened into a uniform register as its type says (R160). -/
def widenU (t : BitVec 4) (v : Word) : Word :=
  if isPairType t then v else if t == 5 then (v.setWidth 32).signExtend 64 else (v.setWidth 32).setWidth 64

/-- An exact value of R137 on uniform operands (R160). -/
def uniInt (t : BitVec 4) (sat : Bool) (v : IntFn) (x y : Word) : Word := widenU t (intElems t sat v x y)

/-- Uniform arithmetic (R160). -/
def uniArith (f : UR) (v : IntFn) : Plan :=
  uniPlan (uSrcs f) f.sd.toNat 0 fun g => uniInt (uType f) (f.fn.getLsbD 4) v (g.s f.sa.toNat) (g.s f.sb.toNat)

/-- Uniform logic on 64 raw bits (R160). -/
def uniLogic (f : UR) (op : Word → Word → Word) : Plan :=
  uniPlan (uSrcs f) f.sd.toNat 0 fun g => op (g.s f.sa.toNat) (g.s f.sb.toNat)

/-- add on uniform registers (R160). -/
def planAddUr (f : UR) : Plan :=
  uniArith f xAdd

/-- The meaning of ADD_UR. -/
def execAddUr (h : Hdr) (f : UR) : State → Host.Outcome State Fault Refusal :=
  runPlan (.addUr h f) h (planAddUr f)

/-- sub on uniform registers (R160). -/
def planSubUr (f : UR) : Plan :=
  uniArith f xSub

/-- The meaning of SUB_UR. -/
def execSubUr (h : Hdr) (f : UR) : State → Host.Outcome State Fault Refusal :=
  runPlan (.subUr h f) h (planSubUr f)

/-- mul on uniform registers (R160). -/
def planMulUr (f : UR) : Plan :=
  uniArith f xMul

/-- The meaning of MUL_UR. -/
def execMulUr (h : Hdr) (f : UR) : State → Host.Outcome State Fault Refusal :=
  runPlan (.mulUr h f) h (planMulUr f)

/-- div on uniform registers (R160). -/
def planDivUr (f : UR) : Plan :=
  uniArith f xDiv

/-- The meaning of DIV_UR. -/
def execDivUr (h : Hdr) (f : UR) : State → Host.Outcome State Fault Refusal :=
  runPlan (.divUr h f) h (planDivUr f)

/-- rem on uniform registers (R160). -/
def planRemUr (f : UR) : Plan :=
  uniArith f xRem

/-- The meaning of REM_UR. -/
def execRemUr (h : Hdr) (f : UR) : State → Host.Outcome State Fault Refusal :=
  runPlan (.remUr h f) h (planRemUr f)

/-- and on uniform registers (R160). -/
def planAndUr (f : UR) : Plan :=
  uniLogic f (· &&& ·)

/-- The meaning of AND_UR. -/
def execAndUr (h : Hdr) (f : UR) : State → Host.Outcome State Fault Refusal :=
  runPlan (.andUr h f) h (planAndUr f)

/-- or on uniform registers (R160). -/
def planOrUr (f : UR) : Plan :=
  uniLogic f (· ||| ·)

/-- The meaning of OR_UR. -/
def execOrUr (h : Hdr) (f : UR) : State → Host.Outcome State Fault Refusal :=
  runPlan (.orUr h f) h (planOrUr f)

/-- xor on uniform registers (R160). -/
def planXorUr (f : UR) : Plan :=
  uniLogic f (· ^^^ ·)

/-- The meaning of XOR_UR. -/
def execXorUr (h : Hdr) (f : UR) : State → Host.Outcome State Fault Refusal :=
  runPlan (.xorUr h f) h (planXorUr f)

/-- shl on uniform registers (R160). -/
def planShlUr (f : UR) : Plan :=
  uniArith f xShl

/-- The meaning of SHL_UR. -/
def execShlUr (h : Hdr) (f : UR) : State → Host.Outcome State Fault Refusal :=
  runPlan (.shlUr h f) h (planShlUr f)

/-- shr on uniform registers (R160). -/
def planShrUr (f : UR) : Plan :=
  uniArith f xShr

/-- The meaning of SHR_UR. -/
def execShrUr (h : Hdr) (f : UR) : State → Host.Outcome State Fault Refusal :=
  runPlan (.shrUr h f) h (planShrUr f)

/-- min on uniform registers (R160). -/
def planMinUr (f : UR) : Plan :=
  uniArith f xMin

/-- The meaning of MIN_UR. -/
def execMinUr (h : Hdr) (f : UR) : State → Host.Outcome State Fault Refusal :=
  runPlan (.minUr h f) h (planMinUr f)

/-- max on uniform registers (R160). -/
def planMaxUr (f : UR) : Plan :=
  uniArith f xMax

/-- The meaning of MAX_UR. -/
def execMaxUr (h : Hdr) (f : UR) : State → Host.Outcome State Fault Refusal :=
  runPlan (.maxUr h f) h (planMaxUr f)

/-- The relation of a condition code on two integers (R82, R124). -/
def condInt (cond : Nat) (x y : Int) : Bool :=
  match cond with
  | 0 => x == y
  | 1 => x != y
  | 2 => x < y
  | 3 => x ≤ y
  | 4 => y < x
  | _ => y ≤ x

/-- cmp on uniform registers: the result stands in every lane of P[sd] (R161). -/
def planCmpUr (f : UR) : Plan :=
  {
    acts := .group
    srcs := (uSrcs f)
    dsts := [.p f.sd.toNat]
    effect := fun s g _ =>
      let w := opW (uType f)
      let sg := isSigned (uType f)
      let c := condInt (f.fn.extractLsb' 7 4).toNat (readInt sg w (elemNat w (g.s f.sa.toNat) 0)) (readInt sg w (elemNat w (g.s f.sb.toNat) 0))
      .change fun t => t.modGrp g.gid fun h =>
        h.setP f.sd.toNat (laneMask g.width) (if c then laneMask g.width else 0) (some (s.now + 1)) }

/-- The meaning of CMP_UR. -/
def execCmpUr (h : Hdr) (f : UR) : State → Host.Outcome State Fault Refusal :=
  runPlan (.cmpUr h f) h (planCmpUr f)

/-- add with an immediate (R162). -/
def planAddUi (f : UI) : Plan :=
  uniPlan [.s f.sa.toNat false] f.sd.toNat 0 fun g => g.s f.sa.toNat + imm32 f.imm f.ik

/-- The meaning of ADD_UI. -/
def execAddUi (h : Hdr) (f : UI) : State → Host.Outcome State Fault Refusal :=
  runPlan (.addUi h f) h (planAddUi f)

/-- mov of an immediate (R162). -/
def planMovUi (f : UI) : Plan :=
  uniPlan [] f.sd.toNat 0 fun _ => imm32 f.imm f.ik

/-- The meaning of MOV_UI. -/
def execMovUi (h : Hdr) (f : UI) : State → Host.Outcome State Fault Refusal :=
  runPlan (.movUi h f) h (planMovUi f)

/-- movl: imm64[63:56] stands in fn[7:0], the rest in the extension word (R163). -/
def planMovl (f : UR) (x : BitVec 56) : Plan :=
  uniPlan [] f.sd.toNat 0 fun _ => (f.fn.extractLsb' 0 8) ++ x

/-- The meaning of MOVL. -/
def execMovl (h : Hdr) (f : UR) (x : BitVec 56) : State → Host.Outcome State Fault Refusal :=
  runPlan (.movl h f x) h (planMovl f x)

end Sys2Proof.Machine
end

