-- ==== Sys2Proof/Machine/FloatOps.lean ====
section
/-! DEFINITION. The floating majors (R191 to R195), conversions (R198 to R203), tag instructions (R204, R205) and cmp (R124). -/

namespace Sys2Proof.Machine

/-- fma (R192). -/
def planFma (h : Hdr) (f : V3) : Plan :=
  v3Plan (.fma h f) f (float3 f.type f.sat fun m x y z => m.fmaV f.rnd.toNat x y z)

/-- The meaning of FMA. -/
def execFma (h : Hdr) (f : V3) : State → Host.Outcome State Fault Refusal :=
  runPlan (.fma h f) h (planFma h f)

/-- A floating instruction of one source with the type's tag (R191). -/
def fl1Plan (i : Instr) (f : VR) (op : Fmt → FV → Nat × FFlags) : Plan :=
  vr1Plan i f (fun _ => f.type) 0 (float1 f.type f.sat op)

/-- sqrt (R192). -/
def planSqrt (h : Hdr) (f : VR) : Plan :=
  fl1Plan (.sqrt h f) f fun m x => m.sqrtV f.rnd.toNat x

/-- The meaning of SQRT. -/
def execSqrt (h : Hdr) (f : VR) : State → Host.Outcome State Fault Refusal :=
  runPlan (.sqrt h f) h (planSqrt h f)

/-- exp2 (R193). -/
def planExp2 (h : Hdr) (f : VR) : Plan :=
  fl1Plan (.exp2 h f) f Fmt.exp2V

/-- The meaning of EXP2. -/
def execExp2 (h : Hdr) (f : VR) : State → Host.Outcome State Fault Refusal :=
  runPlan (.exp2 h f) h (planExp2 h f)

/-- log2 (R193). -/
def planLog2 (h : Hdr) (f : VR) : Plan :=
  fl1Plan (.log2 h f) f Fmt.log2V

/-- The meaning of LOG2. -/
def execLog2 (h : Hdr) (f : VR) : State → Host.Outcome State Fault Refusal :=
  runPlan (.log2 h f) h (planLog2 h f)

/-- rcp (R193). -/
def planRcp (h : Hdr) (f : VR) : Plan :=
  fl1Plan (.rcp h f) f Fmt.rcpV

/-- The meaning of RCP. -/
def execRcp (h : Hdr) (f : VR) : State → Host.Outcome State Fault Refusal :=
  runPlan (.rcp h f) h (planRcp h f)

/-- rsqrt (R193). -/
def planRsqrt (h : Hdr) (f : VR) : Plan :=
  fl1Plan (.rsqrt h f) f Fmt.rsqrtV

/-- The meaning of RSQRT. -/
def execRsqrt (h : Hdr) (f : VR) : State → Host.Outcome State Fault Refusal :=
  runPlan (.rsqrt h f) h (planRsqrt h f)

/-- tanh (R193). -/
def planTanh (h : Hdr) (f : VR) : Plan :=
  fl1Plan (.tanh h f) f Fmt.tanhV

/-- The meaning of TANH. -/
def execTanh (h : Hdr) (f : VR) : State → Host.Outcome State Fault Refusal :=
  runPlan (.tanh h f) h (planTanh h f)

/-- sigm (R193). -/
def planSigm (h : Hdr) (f : VR) : Plan :=
  fl1Plan (.sigm h f) f Fmt.sigmV

/-- The meaning of SIGM. -/
def execSigm (h : Hdr) (f : VR) : State → Host.Outcome State Fault Refusal :=
  runPlan (.sigm h f) h (planSigm h f)

/-- rndi (R194). -/
def planRndi (h : Hdr) (f : VR) : Plan :=
  fl1Plan (.rndi h f) f fun m x => m.rndiV f.rnd.toNat x

/-- The meaning of RNDI. -/
def execRndi (h : Hdr) (f : VR) : State → Host.Outcome State Fault Refusal :=
  runPlan (.rndi h f) h (planRndi h f)

/-- fclass: one class bit for each element, tagged N32 or N16X2 (R195). -/
def planFclass (h : Hdr) (f : VR) : Plan :=
  vr1Plan (.fclass h f) f (fun _ => if f.type == 9 then 6 else 4) 0 fun x =>
    mapElems (elemW f.type) (elemCount f.type) fun e => (2 ^ (fmtOf f.type).classBit (elemNat (elemW f.type) x e), 0)

/-- The meaning of FCLASS. -/
def execFclass (h : Hdr) (f : VR) : State → Host.Outcome State Fault Refusal :=
  runPlan (.fclass h f) h (planFclass h f)

/-- The exponent source of `scale`: I32 or I16X2 (R194). -/
def scaleB (f : VR) : VSrc := { vrB f with type := if f.type == 9 then 5 else 3 }

/-- scale: x × 2^n, rounded once (R194). -/
def planScale (h : Hdr) (f : VR) : Plan :=
  lanePlan (.scale h f) f.vd.toNat false [vrA f, scaleB f] [] (fun _ => f.type) 0 fun _ _ xs =>
    let m := fmtOf f.type
    let w := elemW f.type
    mapElems w (elemCount f.type) fun e =>
      m.saturate f.sat (m.scaleV f.rnd.toNat (m.read (elemNat w (xs.getD 0 0) e)) (readInt true w (elemNat w (xs.getD 1 0) e)))

/-- The meaning of SCALE. -/
def execScale (h : Hdr) (f : VR) : State → Host.Outcome State Fault Refusal :=
  runPlan (.scale h f) h (planScale h f)

/-- copysign: vb is read for its sign bit only (R194). -/
def planCopysign (h : Hdr) (f : VR) : Plan :=
  vrPlan (.copysign h f) f 0 fun x y =>
    let m := fmtOf f.type
    let w := elemW f.type
    mapElems w (elemCount f.type) fun e => m.copysignV (m.read (elemNat w x e)) ((elemNat w y e).testBit (w - 1))

/-- The meaning of COPYSIGN. -/
def execCopysign (h : Hdr) (f : VR) : State → Host.Outcome State Fault Refusal :=
  runPlan (.copysign h f) h (planCopysign h f)

/-! ### Conversions (R198 to R200) -/

/-- A floating value rounded to an integer and clamped (R200). -/
def toIntV (signed : Bool) (w rnd : Nat) (x : FV) : Nat × FFlags :=
  match x with
  | .nan _ => (0, ffNv)
  | .inf n => (wrapInt w (if n then loOf signed w else hiOf signed w), ffNv)
  | .fin n m e =>
    let q := roundTo rnd n m e false 0
    let v : Int := if n then -(q.1 : Int) else q.1
    let c := clampInt (loOf signed w) (hiOf signed w) v
    (wrapInt w c, if c != v then ffNv else if q.2 then ffNx else 0)

/-- An integer rounded to a floating format (R200). -/
def Fmt.ofInt (f : Fmt) (rnd : Nat) (v : Int) : Nat × FFlags := f.round rnd (v < 0) v.natAbs 0 false

/-- A floating value in another format (R200). -/
def Fmt.convert (f : Fmt) (rnd : Nat) (x : FV) : Nat × FFlags :=
  match x with
  | .nan _ => f.quiet [x]
  | .inf n => (f.inf n, 0)
  | .fin n m e => f.round rnd n m e false

/-- conv of R200: one element's bits in the destination type, with its flags. -/
def convElem (s d : BitVec 4) (rnd : Nat) (sat : Bool) (b : Nat) : Nat × FFlags :=
  if isFloatType s then
    let x := (fmtOf s).read b
    if isFloatType d then (fmtOf d).saturate sat ((fmtOf d).convert rnd x) else toIntV (isSigned d) (elemW d) rnd x
  else
    let v := readInt (isSigned s) (elemW s) b
    if isFloatType d then (fmtOf d).saturate sat ((fmtOf d).ofInt rnd v)
    else (narrow sat (isSigned d) (elemW d) v,
      if sat && clampInt (loOf (isSigned d) (elemW d)) (hiOf (isSigned d) (elemW d)) v != v then ffSa else 0)

/-- Element counts and first elements of R199: how many elements, from which source element, into which destination element. -/
def cvtPart (s d : BitVec 4) (q : Nat) : Nat × Nat × Nat :=
  let es := elemCount s
  let ed := elemCount d
  if ed ≤ es then (ed, q * ed, 0) else (es, 0, q * es)

/-- The bits of a destination lane that a `cvt` leaves (R199). -/
def cvtKeep (s d : BitVec 4) (q : Nat) : Lane :=
  if elemCount d ≤ elemCount s then 0
  else
    let (n, _, db) := cvtPart s d q
    ~~~(BitVec.ofNat 32 ((2 ^ (n * elemW d) - 1) * 2 ^ (db * elemW d)))

/-- The converted elements of a lane at their places, with their flags (R199). -/
def cvtLane (s d : BitVec 4) (rnd : Nat) (sat : Bool) (q : Nat) (x : Word) : Word × FFlags :=
  let (n, sb, db) := cvtPart s d q
  let rs := (List.range n).map fun k => convElem s d rnd sat (elemNat (elemW s) x (sb + k))
  (joinElems (elemW d) (List.replicate db 0 ++ rs.map Prod.fst), orFlags (rs.map Prod.snd))

/-- The source of a CV instruction. -/
def cvSrc (f : CV) (pair : Bool) : VSrc := { srcA f.va f.lra f.eba f.stype with pair := pair }

/-- cvt: elements that it does not write keep their bits (R199). -/
def planCvt (h : Hdr) (f : CV) : Plan :=
  let q := (f.aux.extractLsb' 0 2).toNat
  let x := cvSrc f (isPairType f.stype)
  let keep := cvtKeep f.stype f.dtype q
  {
    srcs := x.srcs
    dsts := dstV (isPairType f.dtype) f.vd.toNat
    keepBits := keep
    check := fun _ g _ => formatCheck (.cvt h f) g [x]
    consumed := consumedBy [x]
    effect := fun s g eff =>
      let res := (lanesOf eff).map fun l => (l, cvtLane f.stype f.dtype f.rnd.toNat f.sat q (x.read g l))
      let at_ := fun l => ((res.lookup l).map Prod.fst).getD 0
      .change fun t => t.modGrp g.gid fun h =>
        let h := h.writeV f.vd.toNat eff (fun l => loLane (at_ l)) f.dtype s.now keep
        let h := if isPairType f.dtype then h.writeV (f.vd.toNat + 1) eff (fun l => hiLane (at_ l)) f.dtype s.now else h
        h.raiseFlags (orFlags (res.map fun r => r.2.2)) }

/-- The meaning of CVT. -/
def execCvt (h : Hdr) (f : CV) : State → Host.Outcome State Fault Refusal :=
  runPlan (.cvt h f) h (planCvt h f)

/-! ### DX blocks in the lanes (R201 to R203) -/

/-- Lanes of a segment (R201). -/
def dxSeg (t : BitVec 4) : Nat := if t == 9 then 32 else 16

/-- A group of width 16 holds an F32 block in a register pair (R201). -/
def dxPair (t : BitVec 4) (width : Nat) : Bool := t == 9 && width == 16

/-- The lane, register of the pair and element of a lane at which element `j` of block `b` lies (R201). -/
def dxPlace (t : BitVec 4) (width b j : Nat) : Nat × Nat × Nat :=
  if dxPair t width then (j % 16, j / 16, 0)
  else if t == 9 then (32 * b + j, 0, 0)
  else (16 * b + j / 2, 0, j % 2)

/-- The width of the issuing group. -/
def issuingWidth (s : State) : Nat := (s.issuing.map Group.width).getD 0

/-- The element `j` of block `b` in the registers of a group; a lane outside the active mask holds +0 (R202). -/
def dxTake (t : BitVec 4) (name : Nat) (g : Group) (b j : Nat) : FV :=
  let (lane, reg, e) := dxPlace t g.width b j
  if g.active.getLsbD lane then (fmtOf t).read (elemNat (elemW t) ((g.val false (name + reg) lane)) e) else .fin false 0 0

/-- The latency of the DX conversions (R206). -/
def dxLat (width : Nat) : Nat := if width = 64 then 14 else 12

/-- The lanes of the segment of lane `l`. -/
def segLanes (t : BitVec 4) (l : Nat) : List Nat := (List.range (dxSeg t)).map fun k => l / dxSeg t * dxSeg t + k

/-- cvt.todx: every word of a block depends on all its elements, so that every effective lane of a segment consumes a marked value
in it (R202, R370). DEDUCED (log entry 80): a block raises its flags where a lane of its segment is effective. -/
def planCvtTodx (h : Hdr) (f : CV) (s : State) : Plan :=
  let t := f.stype
  let x := cvSrc f (dxPair t (issuingWidth s))
  let m := (f.aux.extractLsb' 0 4).toNat + 1
  let d := (f.aux.extractLsb' 4 4).toNat
  {
    srcs := x.srcs
    dsts := [.v f.vd.toNat]
    collective := true
    check := fun _ g _ => formatCheck (.cvtTodx h f) g [x]
    consumed := fun g eff => maskOf ((lanesOf eff).filter fun l =>
      (segLanes t l).any fun k => g.active.getLsbD k && x.names.any fun n => (g.vBad n).getLsbD k)
    effect := fun s g eff =>
      let block := fun b => dxBuild m d ((List.range 32).map (dxTake t f.va.toNat g b))
      let blocks := (List.range (max 1 (g.width / dxSeg t))).map block
      let word := fun l => ((blocks.getD (l / dxSeg t) ([], 0)).1.getD (l % dxSeg t) 0 : Nat)
      let used := (lanesOf eff).map fun l => (blocks.getD (l / dxSeg t) ([], 0)).2
      .change fun u => u.modGrp g.gid fun h =>
        (h.writeV f.vd.toNat eff (fun l => BitVec.ofNat 32 (word l)) 0 (s.now + dxLat g.width)).raiseFlags (orFlags used) }

/-- The meaning of CVT_TODX. -/
def execCvtTodx (h : Hdr) (f : CV) (s : State) : Host.Outcome State Fault Refusal :=
  runPlan (.cvtTodx h f) h (planCvtTodx h f s) s

/-- The words of block `b` in the lanes of a register; a lane outside the active mask holds zero (R203). -/
def dxWords (t : BitVec 4) (name : Nat) (m : Nat) (g : Group) (b : Nat) : List Nat :=
  (List.range (3 + m)).map fun i =>
    let l := dxSeg t * b + i
    if g.active.getLsbD l then (g.val false name l).toNat else 0

/-- One element read from a block into a format (R203): NaN from a bad header raises nv. -/
def fromDxElem (t : BitVec 4) (rnd : Nat) (sat : Bool) (p : Nat) (ws : List Nat) (j : Nat) : Nat × FFlags :=
  let m := fmtOf t
  let r := m.saturate sat (m.convert rnd (dxElem p ws j))
  (r.1, if dxBadHeader ws then ffNv else r.2)

/-- cvt.fromdx: an element depends on every word of its block that is read (R203, R370). -/
def planCvtFromdx (h : Hdr) (f : CV) (s : State) : Plan :=
  let t := f.dtype
  let x := cvSrc f false
  let pair := dxPair t (issuingWidth s)
  let m := (f.aux.extractLsb' 0 4).toNat + 1
  let p := (f.aux.extractLsb' 4 4).toNat + 1
  {
    srcs := x.srcs
    dsts := dstV pair f.vd.toNat
    collective := true
    check := fun _ g _ => if f.stype == 6 then formatCheck (.cvtFromdx h f) g [x] else none
    consumed := fun g eff => maskOf ((lanesOf eff).filter fun l =>
      (segLanes t l).any fun k => k % dxSeg t < 3 + p && g.active.getLsbD k && (g.vBad x.name).getLsbD k)
    effect := fun s g eff =>
      let blocks := (List.range (max 1 (g.width / dxSeg t))).map (dxWords t f.va.toNat m g)
      let elem := fun b j => fromDxElem t f.rnd.toNat f.sat p (blocks.getD b []) j
      let res := (lanesOf eff).map fun l =>
        let b := l / dxSeg t
        let es := if pair then [elem 0 l, elem 0 (16 + l)]
          else if t == 9 then [elem b (l % 32)]
          else [elem b (2 * (l % 16)), elem b (2 * (l % 16) + 1)]
        (l, joinElems (elemW t) (es.map Prod.fst), orFlags (es.map Prod.snd))
      .change fun u => u.modGrp g.gid fun h =>
        (h.writeResult pair f.vd.toNat eff (res.map fun r => (r.1, r.2.1)) t (s.now + dxLat g.width)).raiseFlags
          (orFlags (res.map fun r => r.2.2)) }

/-- The meaning of CVT_FROMDX. -/
def execCvtFromdx (h : Hdr) (f : CV) (s : State) : Host.Outcome State Fault Refusal :=
  runPlan (.cvtFromdx h f) h (planCvtFromdx h f s) s

/-! ### Tag instructions (R204, R205) and cmp (R124) -/

/-- tag.set: the value under a new tag; no tag is checked (R204). -/
def planTagSet (h : Hdr) (f : VI) : Plan :=
  let t : BitVec 4 := f.imm.extractLsb' 0 4
  let pair := t == 7 || t == 8
  let x : VSrc := { name := f.va.toNat, pair := pair, lr := f.lra, eb := f.eba, type := 0 }
  lanePlan (.tagSet h f) f.vd.toNat pair [x] [] (fun _ => t) 0 fun _ _ xs => (xs.getD 0 0, ffNone)

/-- The meaning of TAG_SET. -/
def execTagSet (h : Hdr) (f : VI) : State → Host.Outcome State Fault Refusal :=
  runPlan (.tagSet h f) h (planTagSet h f)

/-- The latency of tag.chk (R206). -/
def tagChkLat (width : Nat) : Nat := if width = 64 then 3 else 2

/-- tag.chk: the exact tag of va against t in every effective lane (R205). -/
def planTagChk (f : VP) : Plan :=
  {
    srcs := [.v f.va.toNat f.lra f.eba]
    dsts := [.p f.pd.toNat]
    effect := fun s g eff =>
      let c := (g.vTag f.va.toNat == f.vb.extractLsb' 0 4) != (f.cond == 1)
      .change fun t => t.modGrp g.gid fun h => h.setP f.pd.toNat eff (if c then eff else 0) (some (s.now + tagChkLat g.width)) }

/-- The meaning of TAG_CHK. -/
def execTagChk (h : Hdr) (f : VP) : State → Host.Outcome State Fault Refusal :=
  runPlan (.tagChk h f) h (planTagChk f)

/-- A comparison of two F32 values (R124). -/
def condF32 (cond : Nat) (x y : FV) : Bool :=
  let un := x.isNan || y.isNan
  match cond with
  | 0 => !un && !x.lt y && !y.lt x
  | 1 => un || x.lt y || y.lt x
  | 2 => !un && x.lt y
  | 3 => !un && !y.lt x
  | 4 => !un && y.lt x
  | 5 => !un && !x.lt y
  | 6 => !un
  | _ => un

/-- The result of `cmp` for two operands (R124). -/
def cmpBit (t : BitVec 4) (cond : Nat) (x y : Word) : Bool :=
  if t == 9 then condF32 cond (fmtF32.read (elemNat 32 x 0)) (fmtF32.read (elemNat 32 y 0))
  else
    let w := opW t
    condInt cond (readInt (isSigned t) w (elemNat w x 0)) (readInt (isSigned t) w (elemNat w y 0))

/-- The vector sources of a VP instruction (R82). -/
def vpSrcs (f : VP) : List VSrc :=
  let a := srcA f.va f.lra f.eba f.type
  if f.bs then [a] else [a, { srcA f.vb f.lrb f.ebb f.type with swk := f.swk, swp := f.swp }]

/-- When the predicate of `cmp` is full (R124). -/
def cmpLat (t : BitVec 4) : Nat := if typeIn t [5, 6, 0] then 2 else 4

/-- cmp (R124). -/
def planCmp (h : Hdr) (f : VP) : Plan :=
  let xs := vpSrcs f
  let sb := (f.vb.extractLsb' 0 6).toNat
  {
    srcs := xs.flatMap VSrc.srcs ++ (if f.bs then [.s sb false] else [])
    dsts := [.p f.pd.toNat]
    check := fun _ g _ => formatCheck (.cmp h f) g xs
    consumed := consumedBy xs
    effect := fun s g eff =>
      let bit := fun l =>
        let vs := xs.map fun x => x.read g l
        cmpBit f.type f.cond.toNat (vs.getD 0 0) (if f.bs then uniOperand f.type (g.s sb) else vs.getD 1 0)
      .change fun t => t.modGrp g.gid fun h =>
        h.setP f.pd.toNat eff (maskOf ((lanesOf eff).filter bit)) (some (s.now + cmpLat f.type)) }

/-- The meaning of CMP. -/
def execCmp (h : Hdr) (f : VP) : State → Host.Outcome State Fault Refusal :=
  runPlan (.cmp h f) h (planCmp h f)

end Sys2Proof.Machine
end

