-- ==== Sys2Proof/Machine/Control.lean ====
section
/-! DEFINITION. Predicate logic (R125), structured control (R126 to R133), rds (R134), bar (R135) and nop (R106). -/

namespace Sys2Proof.Machine

/-! ### Predicate logic (R125) -/

/-- A PR instruction: each effective lane's bit of pd from the whole source predicates; complete in 1 cc with no empty state. -/
def prPlan (f : PR) (srcs : List Src) (op : LaneMask → LaneMask → LaneMask) : Plan where
  srcs := srcs
  dsts := [.p f.pd.toNat]
  effect := fun s g eff =>
    .change fun t => t.modGrp g.gid fun h => h.setP f.pd.toNat eff (op (g.p f.pa.toNat) (g.p f.pb.toNat)) (some s.now)

/-- The first source of a PR instruction. -/
def prA (f : PR) : Src := .p f.pa.toNat f.eba

/-- The second source. -/
def prB (f : PR) : Src := .p f.pb.toNat f.ebb

/-- A source negated where its bit of fn says so. -/
def negIf (b : Bool) (m : LaneMask) : LaneMask := if b then ~~~m else m

/-- pand (R125). -/
def planPand (f : PR) : Plan :=
  prPlan f [prA f, prB f] fun a b => negIf (f.fn.getLsbD 0) a &&& negIf (f.fn.getLsbD 1) b

/-- The meaning of PAND. -/
def execPand (h : Hdr) (f : PR) : State → Host.Outcome State Fault Refusal :=
  runPlan (.pand h f) h (planPand f)

/-- por (R125). -/
def planPor (f : PR) : Plan :=
  prPlan f [prA f, prB f] fun a b => negIf (f.fn.getLsbD 0) a ||| negIf (f.fn.getLsbD 1) b

/-- The meaning of POR. -/
def execPor (h : Hdr) (f : PR) : State → Host.Outcome State Fault Refusal :=
  runPlan (.por h f) h (planPor f)

/-- pxor (R125). -/
def planPxor (f : PR) : Plan :=
  prPlan f [prA f, prB f] fun a b => negIf (f.fn.getLsbD 0) a ^^^ negIf (f.fn.getLsbD 1) b

/-- The meaning of PXOR. -/
def execPxor (h : Hdr) (f : PR) : State → Host.Outcome State Fault Refusal :=
  runPlan (.pxor h f) h (planPxor f)

/-- pnot (R125). -/
def planPnot (f : PR) : Plan :=
  prPlan f [prA f] fun a _ => ~~~a

/-- The meaning of PNOT. -/
def execPnot (h : Hdr) (f : PR) : State → Host.Outcome State Fault Refusal :=
  runPlan (.pnot h f) h (planPnot f)

/-- pmov (R125). -/
def planPmov (f : PR) : Plan :=
  prPlan f [prA f] fun a _ => a

/-- The meaning of PMOV. -/
def execPmov (h : Hdr) (f : PR) : State → Host.Outcome State Fault Refusal :=
  runPlan (.pmov h f) h (planPmov f)

/-- pset (R125). -/
def planPset (f : PR) : Plan :=
  prPlan f [] fun _ _ => if f.fn.getLsbD 0 then BitVec.allOnes 64 else 0

/-- The meaning of PSET. -/
def execPset (h : Hdr) (f : PR) : State → Host.Outcome State Fault Refusal :=
  runPlan (.pset h f) h (planPset f)

/-! ### Structured control (R126 to R133) -/

/-- What is particular to a control instruction: its failing check with the reason of MASKSTACK (R129, R360), the entries that it pops
(R132), its effect on masks, stack and pc (R129), and whether it is a restoring step (R123). The pc has already moved on. -/
structure Ctl where
  check : Group → Option Nat := fun _ => none
  popped : Group → List MaskEntry := fun _ => []
  effect : Group → Group
  restores : Group → Bool := fun _ => false

/-- cond of R128 over the declared width. -/
def condMask (f : CF) (g : Group) : LaneMask :=
  laneMask g.width &&& (if f.ce then negIf f.cn (g.p f.cp.toNat) else BitVec.allOnes 64)

/-- Changes Sv with its check word (R126). -/
def MaskEntry.setSv (e : MaskEntry) (m : LaneMask) : MaskEntry := { e with sv := m, check := fold16 m }

/-- A new entry (R126). -/
def newEntry (k : MaskKind) (sv xv : LaneMask) (addr : Nat) : MaskEntry := ⟨k, sv, xv, false, addr, fold16 sv⟩

/-- The address `off` 8-byte words from an instruction at `pc` (R92, R128). -/
def offTarget (pc : Nat) (off : Int) : Nat := ((pc + 8 * off) % (2 ^ 64 : Int)).toNat

/-- A taken transfer (R133). -/
def Group.goto (g : Group) (target : Nat) : Group := { g with pc := target, taken := true }

/-- To the partner when the active mask is empty (R127). -/
def Group.ifEmpty (g : Group) (target : Nat) : Group := if g.active = 0 then g.goto target else g

/-- The place of the innermost entry of a kind, above any entry of the kind `stop` (R129); the top is place 0. -/
def findEntry (kind : MaskKind) (stop : Option MaskKind) (st : List MaskEntry) : Option Nat :=
  match st.findIdx? fun e => e.kind == kind || some e.kind == stop with
  | some k => if (st.map MaskEntry.kind)[k]? == some kind then some k else none
  | none => none

/-- Lanes stripped from the `k` top entries (R129). -/
def stripTop (k : Nat) (q : LaneMask) (st : List MaskEntry) : List MaskEntry :=
  (st.take k).map (fun e => { e.setSv (e.sv &&& ~~~q) with xv := e.xv &&& ~~~q }) ++ st.drop k

/-- The mask word (R132). -/
def maskWord (g : Group) (popped : List MaskEntry) : BitVec 16 :=
  popped.foldl (fun m e => m ^^^ e.check ^^^ fold16 e.sv) (fold16 (g.active &&& ~~~g.live))

/-- The sources of a control instruction (R121). -/
def ctlSrcs (f : CF) : List Src := if f.ce then [.p f.cp.toNat f.ebp] else []

/-- Pass-over after a control instruction (R123). DEDUCED (log entry 66): only a restoring step that begins the pass-over makes the next
control instruction skip its comparison, not one that leaves the mask empty again within it. -/
def Group.afterCtl (g : Group) (restored : Bool) : Group :=
  if g.active != 0 then { g with po := false }
  else if restored && !g.po then { g with po := true, poFirst := true }
  else g

/-- The issue of a control instruction: readiness (R110), EMPTYREAD, MASKSTACK, the comparison of R132 and R133 with its replay (R365),
and the effect. -/
def ctlAttempt (i : Instr) (h : Hdr) (f : CF) (c : Ctl) (gid : Nat) : Prog :=
  .dyn fun s =>
    match s.grp? gid with
    | none => .done
    | some g0 =>
      let p : Plan := { srcs := ctlSrcs f, effect := fun _ _ _ => .done }
      let g := g0.opened h p
      if g.hold != .none || s.now < g.retryAt || p.srcs.any (fun x => x.waits g s.now) then .done
      else
        let cause := firstSome [
          ((p.srcs.find? fun x => x.empty g s.now).map fun x => x.report i),
          ((c.check g).map fun r => ⟨.maskstack, r, 0, 0, word0Of i, BitVec.ofNat 64 g.stack.length, 0⟩)]
        match cause with
        | some r => raise gid r
        | none =>
          let mw := maskWord g (c.popped g)
          let found := crcBits 16 mw.toNat (shiftMajor g.sig (majorOf i))
          let count : State → State := fun s => { s with seq := s.seq + 1 }
          if g.taken || g.poFirst || found == f.sig then
            let restored := c.restores g
            let g1 : Group := { g with
              sig := 0xFFFF
              taken := false
              poFirst := false
              regionFresh := false
              stamp := s.now
              pc := g.pc + instrSize i }
            let g2 := (c.effect g1).afterCtl restored
            .change fun s =>
              let s := count (s.modGrp gid fun _ => g2)
              if g2.live = 0 then exitGroup gid s else s
          else if g.sigFailed then
            .all [.change fun s => count (s.modGrp gid fun _ => { g with sig := found, regionFresh := false, stamp := s.now }),
              raise gid ⟨.signature, 0, 0, 0, f.sig.setWidth 64, found.setWidth 64, mw.setWidth 64⟩]
          else .change fun s => count (s.modGrp gid fun _ => { g.replay with sigFailed := true, stamp := s.now })

/-- The meaning of a control instruction. -/
def runCtl (i : Instr) (h : Hdr) (f : CF) (c : Ctl) (s : State) : Host.Outcome State Fault Refusal :=
  match s.issuing with
  | none => .fault .noGroup
  | some g => commit s (ctlAttempt i h f c g.gid)

/-- A push at depth 32 fails (R129). -/
def pushCheck (g : Group) : Option Nat := if g.stack.length ≥ 32 then some 1 else none

/-- The top entry is of a kind (R129). -/
def topCheck (ok : MaskEntry → Bool) (g : Group) : Option Nat :=
  match g.stack with
  | e :: _ => if ok e then none else some 2
  | [] => some 2

/-- An entry of a kind is found (R129). -/
def findCheck (kind : MaskKind) (stop : Option MaskKind) (g : Group) : Option Nat :=
  if (findEntry kind stop g.stack).isSome then none else some 2

/-- The partner address in off16, of an instruction of one word that the pc has passed. -/
def partnerOf (f : CF) (g : Group) : Nat := offTarget (g.pc - 8) f.off.toInt

/-- if (R129). -/
def ctlIf (f : CF) : Ctl where
  check := pushCheck
  effect := fun g =>
    let c := condMask f g
    { g with stack := newEntry .ifk g.active (g.active &&& ~~~c) 0 :: g.stack, active := g.active &&& c }.ifEmpty (partnerOf f g)

/-- else (R129). -/
def ctlElse (f : CF) : Ctl where
  check := topCheck fun e => e.kind == .ifk && !e.elseTaken
  effect := fun g =>
    match g.stack with
    | e :: st => { g with stack := { e with elseTaken := true } :: st, active := e.xv &&& g.live }.ifEmpty (partnerOf f g)
    | [] => g

/-- endif (R129). -/
def ctlEndif : Ctl where
  check := topCheck fun e => e.kind == .ifk
  popped := fun g => g.stack.take 1
  effect := fun g =>
    match g.stack with
    | e :: st => { g with stack := st, active := e.sv &&& g.live }
    | [] => g
  restores := fun _ => true

/-- loop: its address is the first body instruction (R129). -/
def ctlLoop : Ctl where
  check := pushCheck
  effect := fun g => { g with stack := newEntry .loop g.active 0 g.pc :: g.stack }

/-- Lanes that go round again at `endloop` (R129). -/
def loopAgain (f : CF) (g : Group) : LaneMask :=
  match g.stack with
  | e :: _ => (g.active ||| e.xv) &&& g.live &&& condMask f g
  | [] => 0

/-- endloop (R129). -/
def ctlEndloop (f : CF) : Ctl where
  check := topCheck fun e => e.kind == .loop
  popped := fun g => if loopAgain f g = 0 then g.stack.take 1 else []
  effect := fun g =>
    match g.stack with
    | e :: st =>
      let a := loopAgain f g
      if a = 0 then { g with stack := st, active := e.sv &&& g.live }
      else { g with stack := { e with xv := 0 } :: st, active := a }.goto (partnerOf f g)
    | [] => g
  restores := fun g => loopAgain f g = 0

/-- brk and, with the parking step, cont (R129). -/
def ctlLeave (f : CF) (park : Bool) : Ctl where
  check := findCheck .loop (some .call)
  effect := fun g =>
    match findEntry .loop (some .call) g.stack with
    | some k =>
      let q := g.active &&& condMask f g
      let st := stripTop k q g.stack
      let st := if park then st.modify k fun e => { e with xv := e.xv ||| q } else st
      { g with active := g.active &&& ~~~q, stack := st }.ifEmpty (partnerOf f g)
    | none => g

/-- call: the return address is the next instruction's (R128, R129). -/
def ctlCall (x : BitVec 32) : Ctl where
  check := pushCheck
  effect := fun g => { g with stack := newEntry .call g.active 0 g.pc :: g.stack }.goto (offTarget (g.pc - 16) x.toInt)

/-- Lanes that stay when others return. -/
def retStay (f : CF) (g : Group) : LaneMask := g.active &&& ~~~(condMask f g)

/-- ret (R129). -/
def ctlRet (f : CF) : Ctl where
  check := findCheck .call none
  popped := fun g => if retStay f g = 0 then g.stack.take (((findEntry .call none g.stack).map (· + 1)).getD 0) else []
  effect := fun g =>
    match findEntry .call none g.stack with
    | some k =>
      let q := g.active &&& condMask f g
      let st := stripTop k q g.stack
      if retStay f g = 0 then
        match st.drop k with
        | e :: rest => { g with active := e.sv &&& g.live, stack := rest }.goto e.addr
        | [] => g
      else { g with active := retStay f g, stack := st }
    | none => g
  restores := fun g => retStay f g = 0

/-- exit (R129): a group with no live lane left ends. -/
def ctlExit (f : CF) : Ctl where
  effect := fun g =>
    let q := g.active &&& condMask f g
    let g := { g with active := g.active &&& ~~~q, live := g.live &&& ~~~q }
    if g.live = 0 then g else g.ifEmpty (partnerOf f g)

/-- if (R129). -/
def execIfC (h : Hdr) (f : CF) : State → Host.Outcome State Fault Refusal := runCtl (.ifC h f) h f (ctlIf f)

/-- else (R129). -/
def execElseC (h : Hdr) (f : CF) : State → Host.Outcome State Fault Refusal := runCtl (.elseC h f) h f (ctlElse f)

/-- endif (R129). -/
def execEndifC (h : Hdr) (f : CF) : State → Host.Outcome State Fault Refusal := runCtl (.endifC h f) h f ctlEndif

/-- loop (R129). -/
def execLoopC (h : Hdr) (f : CF) : State → Host.Outcome State Fault Refusal := runCtl (.loopC h f) h f ctlLoop

/-- endloop (R129). -/
def execEndloopC (h : Hdr) (f : CF) : State → Host.Outcome State Fault Refusal := runCtl (.endloopC h f) h f (ctlEndloop f)

/-- brk (R129). -/
def execBrkC (h : Hdr) (f : CF) : State → Host.Outcome State Fault Refusal := runCtl (.brkC h f) h f (ctlLeave f false)

/-- cont (R129). -/
def execContC (h : Hdr) (f : CF) : State → Host.Outcome State Fault Refusal := runCtl (.contC h f) h f (ctlLeave f true)

/-- ret (R129). -/
def execRetC (h : Hdr) (f : CF) : State → Host.Outcome State Fault Refusal := runCtl (.retC h f) h f (ctlRet f)

/-- exit (R129). -/
def execExitC (h : Hdr) (f : CF) : State → Host.Outcome State Fault Refusal := runCtl (.exitC h f) h f (ctlExit f)

/-- call (R129). -/
def execCallC (h : Hdr) (f : CF) (x : BitVec 32) : State → Host.Outcome State Fault Refusal := runCtl (.callC h f x) h f (ctlCall x)

/-! ### rds (R134) -/

/-- The value of a name (R134) for a lane; a destination S takes lane 0's. -/
def rdsValue (s : State) (g : Group) (name lane : Nat) : Word :=
  let n := fun (k : Nat) => BitVec.ofNat 64 k
  let l := s.launch? g.launch
  let t := s.team? g.team
  match name with
  | 0x00 => n lane
  | 0x01 => n g.groupId
  | 0x02 => n ((t.map Team.teamId).getD 0)
  | 0x03 => n g.core
  | 0x04 => n (pairOfCore g.core)
  | 0x05 => n (dieOfCore g.core)
  | 0x06 => n g.width
  | 0x07 => n g.quadrant
  | 0x08 => n g.slot
  | 0x09 => n g.part
  | 0x0A => n ((l.map Launch.teams).getD 0)
  | 0x0B => n ((l.map Launch.teamSize).getD 0 / g.width)
  | 0x0C => n ((l.map Launch.cls).getD 0)
  | 0x0D => g.active
  | 0x0E => g.live
  | 0x0F => g.sig.setWidth 64
  | 0x10 => (t.map Team.stall).getD 0
  | 0x11 => n s.now
  | 0x12 => n g.replays
  | 0x13 => g.fflags.setWidth 64
  | _ => ((t.map Team.mxflags).getD 0).setWidth 64

/-- rds: into every effective lane as N32, or once for the group into a uniform register (R134). -/
def planRds (f : RS) : Plan :=
  if f.dv then
      { dsts := [.v f.d.toNat]
        effect := fun s g eff => .change fun t => t.modGrp g.gid fun h =>
          h.writeV f.d.toNat eff (fun l => (rdsValue s g f.name.toNat l).setWidth 32) 6 s.now }
    else
      { acts := .group
        dsts := [.s f.d.toNat]
        effect := fun s g _ => setUniform g.gid f.d.toNat 0 (rdsValue s g f.name.toNat 0) }

/-- The meaning of RDS. -/
def execRds (h : Hdr) (f : RS) : State → Host.Outcome State Fault Refusal :=
  runPlan (.rds h f) h (planRds f)

/-! ### bar and nop -/

/-- Arrivals of a group at a barrier so far (R135). -/
def arrivals (t : Team) (groupId n : Nat) : Nat := ((t.barArr.find? fun a => a.1 == groupId && a.2.1 == n).map fun a => a.2.2).getD 0

/-- One more arrival (R135). -/
def Team.arrive (t : Team) (groupId n : Nat) : Team :=
  { t with barArr := (groupId, n, arrivals t groupId n + 1) :: (t.barArr.filter fun a => !(a.1 == groupId && a.2.1 == n)) }

/-- bar: collective; it holds issue until the group's earlier loads, stores and atomics are performed, closes the region, arrives and
parks (R135). -/
def planBar (f : UR) : Plan :=
  let n := (f.fn.extractLsb' 0 3).toNat
  {
    acts := .group
    collective := true
    closes := fun _ _ _ => true
    stall := fun s g => s.pendingAcc g.gid s.seq
    effect := fun _ g _ => .change fun s =>
      releaseBars g.team ((s.modTeam g.team fun t => t.arrive g.groupId n).modGrp g.gid fun h => { h with hold := .bar n }) }

/-- The meaning of BAR. -/
def execBar (h : Hdr) (f : UR) : State → Host.Outcome State Fault Refusal :=
  runPlan (.bar h f) h (planBar f)

/-- nop (R106). -/
def planNop : Plan :=
  { acts := .group, effect := fun _ _ _ => .done }

/-- The meaning of NOP. -/
def execNop (h : Hdr) (f : UR) : State → Host.Outcome State Fault Refusal :=
  runPlan (.nop h f) h planNop

end Sys2Proof.Machine
end

