-- ==== Sys2Proof/Machine/Xv.lean ====
section
/-! DEFINITION. The execute-vector unit: lane opcodes (R207, R211 to R214), xv (R215 to R217), kpush, kpop and kclr (R219 to R221). -/

namespace Sys2Proof.Machine

/-- The name of K0 among a group's register names. -/
def k0 : Nat := 256

/-- The names of K0 to K7. -/
def kNames : List Nat := (List.range 8).map (k0 + ·)

/-- The kinds of lane opcode (R211). -/
inductive LopKind where
  | n | p | s | u | b | t
  deriving DecidableEq, Repr

/-- The kind of a lane opcode; none for an illegal one (R212). -/
def lopKind (lop : Nat) : Option LopKind :=
  if lop = 0x00 then some .n
  else if lop = 0x01 then some .p
  else if 0x02 ≤ lop && lop ≤ 0x05 then some .s
  else if 0x08 ≤ lop && lop ≤ 0x18 then some .b
  else if 0x19 ≤ lop && lop ≤ 0x1B then some .u
  else if lop = 0x1C then some .t
  else if 0x20 ≤ lop && lop ≤ 0x22 then some .b
  else if lop = 0x23 then some .t
  else if 0x28 ≤ lop && lop ≤ 0x2B then some .b
  else if 0x40 ≤ lop && lop ≤ 0x42 then some .b
  else if lop = 0x43 then some .t
  else if lop = 0x44 || lop = 0x45 then some .b
  else if lop = 0x46 || lop = 0x47 then some .u
  else if 0x48 ≤ lop && lop ≤ 0x4A then some .b
  else if lop = 0x4B || lop = 0x4C then some .u
  else if 0x50 ≤ lop && lop ≤ 0x57 then some .u
  else if lop = 0x58 then some .b
  else if lop = 0x59 then some .u
  else none

/-- The latency class of a lane opcode (R212). -/
def lopLat (lop : Nat) : Nat :=
  if lop < 0x20 then 1
  else if lop ≤ 0x23 then 2
  else if lop ≤ 0x2B then 14
  else if lop ≤ 0x4C || lop = 0x57 then 4
  else if lop ≤ 0x56 then 8
  else 12

/-- A lane value read as I32. -/
def sInt (v : Lane) : Int := v.toInt

/-- trunc32 of an exact value. -/
def trunc32 (v : Int) : Lane := BitVec.ofInt 32 v

/-- A truth value. -/
def truth (b : Bool) : Lane := if b then 1 else 0

/-- An F32 pattern read. -/
def rdF (v : Lane) : FV := fmtF32.read v.toNat

/-- An F32 result with its flags. -/
def outF (r : Nat × FFlags) : Lane × FFlags := (BitVec.ofNat 32 r.1, r.2)

/-- A quiet comparison: false for NaN, and nv for a signalling one (R213). -/
def quietCmp (c : FV → FV → Bool) (a b : FV) : Lane × FFlags :=
  (truth (!a.isNan && !b.isNan && c a b), (fmtF32.quiet [a, b]).2)

/-- silu: A × sigm A, rounded twice, with its special inputs (R212, R213). -/
def siluV (a : FV) : Nat × FFlags :=
  match a with
  | .nan _ => fmtF32.quiet [a]
  | .inf n => (if n then fmtF32.zero true else fmtF32.inf false, 0)
  | .fin n m _ =>
    if m = 0 then (fmtF32.zero n, 0)
    else
      let s := fmtF32.sigmV a
      let r := fmtF32.mulV 0 a (fmtF32.read s.1)
      (r.1, r.2 ||| s.2)

/-- The result of a lane opcode of kind P, U, B or T (R212). -/
def lopResult (lop : Nat) (a b c : Lane) : Lane × FFlags :=
  let i := fun (v : Int) => (trunc32 v, ffNone)
  let n := b.toNat
  let fa := rdF a
  let fb := rdF b
  match lop with
  | 0x01 => (b, 0)
  | 0x08 => i (sInt a + sInt b)
  | 0x09 => i (sInt a - sInt b)
  | 0x0A => (a &&& b, 0)
  | 0x0B => (a ||| b, 0)
  | 0x0C => (a ^^^ b, 0)
  | 0x0D => (if 32 ≤ n then 0 else a <<< n, 0)
  | 0x0E => (if 32 ≤ n then 0 else a >>> n, 0)
  | 0x0F => i (sInt a / (2 ^ min n 32 : Int))
  | 0x10 => (if sInt b < sInt a then b else a, 0)
  | 0x11 => (if sInt a < sInt b then b else a, 0)
  | 0x12 => (if b.toNat < a.toNat then b else a, 0)
  | 0x13 => (if a.toNat < b.toNat then b else a, 0)
  | 0x14 => (truth (a == b), 0)
  | 0x15 => (truth (sInt a < sInt b), 0)
  | 0x16 => (truth (a.toNat < b.toNat), 0)
  | 0x17 => i (clampInt (loOf true 32) (hiOf true 32) (sInt a + sInt b))
  | 0x18 => i (clampInt (loOf true 32) (hiOf true 32) (sInt a - sInt b))
  | 0x19 => i (-(sInt a))
  | 0x1A => (~~~a, 0)
  | 0x1B => i (if sInt a < 0 then -(sInt a) else sInt a)
  | 0x1C => (if c != 0 then a else b, 0)
  | 0x20 => i (sInt a * sInt b)
  | 0x21 => i (sInt a * sInt b / (2 ^ 32 : Int))
  | 0x22 => i ((a.toNat * b.toNat / 2 ^ 32 : Nat))
  | 0x23 => i (sInt a * sInt b + sInt c)
  | 0x28 => i (Int.tdiv (sInt a) (sInt b))
  | 0x29 => i (sInt a - sInt b * Int.tdiv (sInt a) (sInt b))
  | 0x2A => i ((a.toNat / b.toNat : Nat))
  | 0x2B => i ((a.toNat % b.toNat : Nat))
  | 0x40 => outF (fmtF32.addV 0 fa fb)
  | 0x41 => outF (fmtF32.addV 0 fa fb.negate)
  | 0x42 => outF (fmtF32.mulV 0 fa fb)
  | 0x43 => outF (fmtF32.fmaV 0 fa fb (rdF c))
  | 0x44 => outF (fmtF32.minmaxV false fa fb)
  | 0x45 => outF (fmtF32.minmaxV true fa fb)
  | 0x46 => outF (fmtF32.signV false fa)
  | 0x47 => outF (fmtF32.signV true fa)
  | 0x48 => quietCmp (fun x y => !x.lt y && !y.lt x) fa fb
  | 0x49 => quietCmp FV.lt fa fb
  | 0x4A => quietCmp (fun x y => !y.lt x) fa fb
  | 0x4B => outF (fmtF32.ofInt 0 (sInt a))
  | 0x4C => outF (toIntV true 32 0 fa)
  | 0x50 => outF (fmtF32.exp2V fa)
  | 0x51 => outF (fmtF32.log2V fa)
  | 0x52 => outF (fmtF32.rcpV fa)
  | 0x53 => outF (fmtF32.rsqrtV fa)
  | 0x54 => outF (fmtF32.tanhV fa)
  | 0x55 => outF (fmtF32.sigmV fa)
  | 0x56 => outF (siluV fa)
  | 0x57 => outF (fmtF32.minmaxV true fa (.fin false 0 0))
  | 0x58 => outF (fmtF32.divV 0 fa fb)
  | _ => outF (fmtF32.sqrtV 0 fa)

/-- The kind accepts a bsel value (R211). -/
def bselOk (k : LopKind) (bsel : Nat) : Bool :=
  match k with
  | .n => bsel == 0
  | .s => bsel == 0
  | .u => bsel == 0
  | .p => 1 ≤ bsel && bsel ≤ 10
  | .b => bsel ≤ 10
  | .t => bsel ≤ 10

/-- The kind accepts KA = 1 (R211). -/
def kaOk (k : LopKind) : Bool :=
  match k with
  | .u => true
  | .b => true
  | .t => true
  | _ => false

/-- The depth that an opcode needs (R211, R212). -/
def depthNeed (k : LopKind) (lop : Nat) (pops : Nat) : Nat :=
  match k with
  | .n => 0
  | .p => 0
  | .s => if lop = 0x02 || lop = 0x03 then 1 else 2
  | .u => 1
  | .b => 1 + pops
  | .t => 2 + pops

/-- The depth after the step (R211, R212). -/
def depthAfter (k : LopKind) (lop : Nat) (pops ka d : Nat) : Nat :=
  match k with
  | .n => d
  | .p => d + 1
  | .s => if lop = 0x02 || lop = 0x05 then d + 1 else if lop = 0x03 then d - 1 else d
  | .u => d - (1 - ka) + 1
  | .b => d - pops - (1 - ka) + 1
  | .t => d - 1 - pops - (1 - ka) + 1

/-- A completed step: the new entries, top first, the latency class and the flags. -/
structure LaneStep where
  stack : List Lane
  lat : Nat
  flags : FFlags
  deriving DecidableEq, Repr

/-- The stack opcodes of kind S (R212). -/
def stackOp (lop : Nat) (st : List Lane) : List Lane :=
  match lop, st with
  | 0x02, x :: r => x :: x :: r
  | 0x03, _ :: r => r
  | 0x04, x :: y :: r => y :: x :: r
  | 0x05, x :: y :: r => y :: x :: y :: r
  | _, st => st

/-- The operands C, B and A taken in order, and the entries beneath (R211). -/
def takeOperands (k : LopKind) (pops : Bool) (keepA : Bool) (bsrc : Lane) (st : List Lane) : Lane × Lane × Lane × List Lane :=
  let (c, st) := if k == .t then (st.headD 0, st.drop 1) else (0, st)
  let (b, st) := if pops && (k == .b || k == .t) then (st.headD 0, st.drop 1) else (bsrc, st)
  if k == .p then (0, b, c, st) else (st.headD 0, b, c, if keepA then st else st.drop 1)

/-- One step of a lane (R211 to R214): a fault reason or the completed step. `win` is the lane of the selected window register. -/
def laneStep (w : Lane) (st : List Lane) (win : Lane) : Except Nat LaneStep :=
  let lop := w.toNat / 2 ^ 24
  let bsel := w.toNat / 2 ^ 20 % 16
  let ka := w.getLsbD 16
  let imm : BitVec 16 := w.extractLsb' 0 16
  match lopKind lop with
  | none => .error 1
  | some k =>
    let pops := if bsel = 0 then 1 else 0
    if !bselOk k bsel then .error 2
    else if w.toNat / 2 ^ 17 % 8 != 0 || (ka && !kaOk k) then .error 3
    else if st.length < depthNeed k lop pops then .error 4
    else if 8 < depthAfter k lop pops (if ka then 1 else 0) st.length then .error 5
    else if k == .n then .ok ⟨st, 1, 0⟩
    else if k == .s then .ok ⟨stackOp lop st, 1, 0⟩
    else
      let bsrc : Lane := if bsel = 9 then imm.signExtend 32 else if bsel = 10 then (imm.setWidth 32) <<< 16 else win
      let (a, b, c, rest) := takeOperands k (bsel = 0) ka bsrc st
      if 0x28 ≤ lop && lop ≤ 0x2B && b == 0 then .error 6
      else
        let r := lopResult lop a b c
        .ok ⟨r.1 :: rest, lopLat lop, r.2⟩

/-- The depth of a lane, 0 to 8 (R208). -/
def Group.depth (g : Group) (l : Nat) : Nat := min 8 (g.depths.getD l 0)

/-- The entries of a lane's stack, top first (R208). -/
def Group.laneStack (g : Group) (l : Nat) : List Lane := (List.range (g.depth l)).map fun i => laneOf (g.vLanes (k0 + i)) l

/-- Writes stacks of lanes with one tag; entries at and above the depth are zero (R208, R209). -/
def Group.writeStacks (g : Group) (eff : LaneMask) (st : Nat → List Lane) (tag : BitVec 4) (ready : Nat) : Group :=
  let g := (List.range 8).foldl (fun g i => g.writeV (k0 + i) eff (fun l => (st l).getD i 0) tag ready) g
  { g with depths := (List.range 64).map fun l => if eff.getLsbD l then (st l).length else g.depth l }

/-- K0 to K7 as sources; they always hold issue while empty, unless `eb` (R216, R220). -/
def kSrcs (eb : Bool) : List Src := kNames.map fun n => .v n false eb

/-- K0 to K7 as destinations (R209). -/
def kDsts : List Dst := kNames.map Dst.v

/-! ### xv (R215 to R217) -/

/-- The op word of a lane. -/
def xvWord (f : XF) (g : Group) (l : Nat) : Lane := laneOf (g.vLanes f.vop.toNat) l

/-- bsel of an op word (R207). -/
def bselOf (w : Lane) : Nat := w.toNat / 2 ^ 20 % 16

/-- The window register that a lane's op word selects (R216). -/
def xvWindow (f : XF) (g : Group) (l : Nat) : Option Nat :=
  let b := bselOf (xvWord f g l)
  if 1 ≤ b && b ≤ 8 then some (f.vbase.toNat + b - 1) else none

/-- The window registers that effective lanes select, rising (R216). DEDUCED (log entry 83): an op word is taken as its register holds it,
whether or not the word is there yet. -/
def xvSelected (h : Hdr) (f : XF) (g : Group) : List Nat :=
  let sel := (lanesOf (effLanes g h)).filterMap (xvWindow f g)
  ((List.range 8).map fun i => f.vbase.toNat + i).filter fun n => sel.contains n

/-- The step of a lane (R217). -/
def xvLane (f : XF) (g : Group) (l : Nat) : Except Nat LaneStep :=
  laneStep (xvWord f g l) (g.laneStack l) (((xvWindow f g l).map fun n => laneOf (g.vLanes n) l).getD 0)

/-- A lane's step completes. -/
def stepOk : Except Nat LaneStep → Bool
  | .ok _ => true
  | .error _ => false

/-- The checks of R217: the exact tag OPW, and XVLANE under T for every effective lane, one that reads a marked value too (R357). -/
def xvCheck (i : Instr) (f : XF) (g : Group) (eff : LaneMask) : Option Report :=
  if g.vTag f.vop.toNat != 12 then some ⟨.format, (g.vTag f.vop.toNat).toNat, f.vop.toNat, 0, word0Of i, word1Of i, 0⟩
  else if f.t then
    firstSome ((lanesOf eff).map fun l => match xvLane f g l with
      | .ok _ => none
      | .error r => some ⟨.xvlane, r, l, 0, word0Of i, 0, 0⟩)
  else none

/-- xv: one step of every effective lane on its own stack (R217). -/
def xvPlan (i : Instr) (h : Hdr) (f : XF) (g0 : Option Group) : Plan where
  srcs := [.v f.vop.toNat f.lro f.ebo] ++ ((g0.map (xvSelected h f)).getD []).map (fun n => .v n false f.ebw) ++ kSrcs false
  dsts := kDsts ++ [.p f.pst.toNat]
  check := fun _ g _ => xvCheck i f g (effLanes g h)
  consumed := fun g eff => maskOf ((lanesOf eff).filter fun l =>
    (g.vBad f.vop.toNat).getLsbD l || ((xvWindow f g l).map fun n => (g.vBad n).getLsbD l).getD false)
  effect := fun s g eff =>
    let rs := (lanesOf eff).map fun l => (l, xvLane f g l)
    let lat0 := rs.foldl (fun m r => match r.2 with
      | .ok x => max m x.lat
      | .error _ => m) 1
    let at_ := if 1 < lat0 then s.now + lat0 + (if g.width = 64 then 1 else 0) else s.now
    let st := fun l => match rs.lookup l with
      | some (.ok x) => x.stack
      | _ => g.laneStack l
    let ok := maskOf ((rs.filter fun r => stepOk r.2).map Prod.fst)
    let fl := orFlags (rs.map fun r => match r.2 with
      | .ok x => x.flags
      | .error _ => 0)
    .change fun t => t.modGrp g.gid fun h => ((h.writeStacks eff st 0 at_).setP f.pst.toNat eff ok (some at_)).raiseFlags fl

/-- xv (R217). -/
def planXv (h : Hdr) (f : XF) (s : State) : Plan :=
  xvPlan (.xv h f) h f s.issuing

/-- The meaning of XV. -/
def execXv (h : Hdr) (f : XF) (s : State) : Host.Outcome State Fault Refusal :=
  runPlan (.xv h f) h (planXv h f s) s

/-! ### kpush, kpop and kclr (R219 to R221) -/

/-- The lowest effective lane whose depth meets a condition raises XVLANE with a reason (R219, R220). -/
def depthCheck (i : Instr) (h : Hdr) (reason : Nat) (bad : Nat → Bool) (g : Group) : Option Report :=
  ((lanesOf (effLanes g h)).find? fun l => bad (g.depth l)).map fun l => ⟨.xvlane, reason, l, 0, word0Of i, 0, 0⟩

/-- The tag that an instruction of this chapter gives: the type's, or the source's under type 0. -/
def tagOrRaw (t : BitVec 4) (src : Nat) (g : Group) : BitVec 4 := if t == 0 then g.vTag src else t

/-- kpush (R219). -/
def planKpush (h : Hdr) (f : VR) : Plan :=
  let x := vrB f
  let i := Instr.kpush h f
  {
    srcs := x.srcs ++ kSrcs false
    dsts := kDsts
    check := fun _ g _ => firstSome [formatCheck i g [x], depthCheck i h 5 (· == 8) g]
    consumed := consumedBy [x]
    effect := fun s g eff => .change fun t => t.modGrp g.gid fun h =>
      h.writeStacks eff (fun l => (x.read g l).setWidth 32 :: g.laneStack l) (tagOrRaw f.type f.vb.toNat g) s.now }

/-- The meaning of KPUSH. -/
def execKpush (h : Hdr) (f : VR) : State → Host.Outcome State Fault Refusal :=
  runPlan (.kpush h f) h (planKpush h f)

/-- The stack's tag is checked as that of a source K0 (R220). -/
def kSrc (t : BitVec 4) : VSrc := { name := k0, pair := false, lr := false, eb := false, type := t }

/-- kpop: the top entry into vd, and the pop (R220). -/
def planKpop (h : Hdr) (f : VR) : Plan :=
  let i := Instr.kpop h f
  {
    srcs := kSrcs f.ebb
    dsts := [.v f.vd.toNat] ++ kDsts
    check := fun _ g _ => firstSome [formatCheck i g [kSrc f.type], depthCheck i h 4 (· == 0) g]
    effect := fun s g eff => .change fun t => t.modGrp g.gid fun h =>
      (h.writeV f.vd.toNat eff (fun l => (g.laneStack l).headD 0) (tagOrRaw f.type k0 g) s.now).writeStacks
        eff (fun l => (g.laneStack l).drop 1) (g.vTag k0) s.now }

/-- The meaning of KPOP. -/
def execKpop (h : Hdr) (f : VR) : State → Host.Outcome State Fault Refusal :=
  runPlan (.kpop h f) h (planKpop h f)

/-- kpop.keep: entry N into vd, zero at or above the depth (R220). -/
def planKpopKeep (h : Hdr) (f : VR) : Plan :=
  let i := Instr.kpopKeep h f
  {
    srcs := kSrcs f.ebb
    dsts := [.v f.vd.toNat]
    check := fun _ g _ => formatCheck i g [kSrc f.type]
    effect := fun s g eff => .change fun t => t.modGrp g.gid fun h =>
      h.writeV f.vd.toNat eff (fun l => (g.laneStack l).getD (f.vb.toNat % 8) 0) (tagOrRaw f.type k0 g) s.now }

/-- The meaning of KPOP_KEEP. -/
def execKpopKeep (h : Hdr) (f : VR) : State → Host.Outcome State Fault Refusal :=
  runPlan (.kpopKeep h f) h (planKpopKeep h f)

/-- kpop.depth: the lane's depth as N32 (R220). -/
def planKpopDepth (f : VR) : Plan :=
  {
    srcs := kSrcs f.ebb
    dsts := [.v f.vd.toNat]
    effect := fun s g eff => .change fun t => t.modGrp g.gid fun h =>
      h.writeV f.vd.toNat eff (fun l => BitVec.ofNat 32 (g.depth l)) 6 s.now }

/-- The meaning of KPOP_DEPTH. -/
def execKpopDepth (h : Hdr) (f : VR) : State → Host.Outcome State Fault Refusal :=
  runPlan (.kpopDepth h f) h (planKpopDepth f)

/-- kclr: every effective lane's stack is emptied (R221). -/
def planKclr : Plan :=
  {
    srcs := kSrcs false
    dsts := kDsts
    effect := fun s g eff => .change fun t => t.modGrp g.gid fun h => h.writeStacks eff (fun _ => []) 0 s.now }

/-- The meaning of KCLR. -/
def execKclr (h : Hdr) (f : VR) : State → Host.Outcome State Fault Refusal :=
  runPlan (.kclr h f) h planKclr

end Sys2Proof.Machine
end

