-- ==== Sys2Proof/Machine/Access.lean ====
section
/-! DEFINITION. What every access shares: where it goes (R242, R244, R249), the request that carries it (R300, R301), when it may be
performed (R259, R303 to R305, R319), and its performing at a home slice or a bank (R233, R235, R245, R246, R369). -/

namespace Sys2Proof.Machine

/-! ### Where an access goes -/

/-- An access of one lane that has been translated: its pieces, the leaves it uses, and the address that failed otherwise. -/
structure Found where
  pieces : List Piece
  leaves : List TlbEntry
  deriving DecidableEq, Repr

/-- One part of an access, in its single-copy atomic pieces (R249): aligned and at most 8 bytes one piece, 16 bytes two, and an
unaligned one byte by byte. -/
def cutPieces (aligned : Bool) (pa n : Nat) (ord : Nat) : List Piece :=
  let so := ord == 1
  let uo := ord == 2
  if aligned && n ≤ 8 then [⟨pa, n, so, uo⟩]
  else if aligned then (List.range (n / 8)).map fun k => ⟨pa + 8 * k, 8, so, uo⟩
  else (List.range n).map fun k => ⟨pa + k, 1, so, uo⟩

/-- Translates an access of `b` bytes, split at a page boundary (R244), in ascending address order. A failure gives its outcome and
the address of the part that failed. -/
def locate (s : State) (core part : Nat) (va : Word) (b : Nat) (need : Need) : Except (Nat × Word) Found :=
  let die := dieOfCore core
  match translate s die (some core) part va need with
  | .fail o => .error (o, va)
  | .ok pa e =>
    let room := e.vbase + e.size - va.toNat
    let aligned := va.toNat % b == 0
    if b ≤ room then .ok ⟨cutPieces aligned pa b e.ord, [e]⟩
    else
      let va2 := va + BitVec.ofNat 64 room
      match translate s die (some core) part va2 need with
      | .fail o => .error (o, va2)
      | .ok pa2 e2 => .ok ⟨cutPieces false pa room e.ord ++ cutPieces false pa2 (b - room) e2.ord, [e, e2]⟩

/-- The table words that the translation of an access reads. -/
def locateReads (s : State) (core part : Nat) (va : Word) (b : Nat) (need : Need) : List Nat :=
  let die := dieOfCore core
  transReads s die (some core) part va need ++
    (match translate s die (some core) part va need with
    | .fail _ => []
    | .ok _ e =>
      let room := e.vbase + e.size - va.toNat
      if b ≤ room then [] else transReads s die (some core) part (va + BitVec.ofNat 64 room) need)

/-- PAGE for an invalid entry, PROT for every other outcome (R228). -/
def transCause (o : Nat) : Cause := if o = 2 then .page else .prot

/-- The report of a failed translation (R360). -/
def transReport (i : Instr) (lane : Nat) (f : Nat × Word) : Report := ⟨transCause f.1, f.1, lane, 0, f.2, word0Of i, 0⟩

/-- The report of ALIGN or BOUND (R360). -/
def addrReport (c : Cause) (i : Instr) (lane : Nat) (a : Word) : Report := ⟨c, 0, lane, 0, a, word0Of i, word1Of i⟩

/-- The first lane whose access does not translate (R243 item 5). -/
def transCheck (i : Instr) (s : State) (g : Group) (b : Nat) (need : Need) (as : List (Nat × Word)) : Option Report :=
  firstSome (as.map fun a => match locate s g.core g.part a.2 b need with
    | .error f => some (transReport i a.1 f)
    | .ok _ => none)

/-- The first lane whose address is not a multiple of `b` (R243 item 4). -/
def alignCheck (i : Instr) (b : Nat) (as : List (Nat × Word)) : Option Report :=
  firstSome (as.map fun a => if a.2.toNat % b = 0 then none else some (addrReport .align i a.1 a.2))

/-- The pieces of a lane's access that has passed its checks. -/
def piecesOf (s : State) (g : Group) (b : Nat) (need : Need) (a : Word) : List Piece :=
  match locate s g.core g.part a b need with
  | .ok f => f.pieces
  | .error _ => []

/-- Installs the translations that an instruction has used (R230). -/
def installAll (g : Group) (b : Nat) (need : Need) (as : List (Nat × Word)) (s : State) : State :=
  let es := (as.flatMap fun a => match locate s g.core g.part a.2 b need with
    | .ok f => f.leaves
    | .error _ => []).eraseDups
  es.foldl (fun s e => installLeaf (some g.core) { e with die := dieOfCore g.core } s) s

/-- The table words that an instruction's translations read, up to the first lane that fails. -/
def touchesOf (s : State) (g : Group) (b : Nat) (need : Need) : List (Nat × Word) → List Nat
  | [] => []
  | a :: as =>
    locateReads s g.core g.part a.2 b need ++
      (match locate s g.core g.part a.2 b need with
      | .ok _ => touchesOf s g b need as
      | .error _ => [])

/-! ### Requests -/

/-- A request of an instruction that issues at `g.pc` as number `s.seq`; `addReqs` numbers it. -/
def newReq (s : State) (g : Group) (lane cls : Nat) (sp : Bool) (ps : List Piece) (op : ReqOp) : Req where
  id := 0
  seq := s.seq
  gid := g.gid
  launch := g.launch
  team := g.team
  part := g.part
  core := g.core
  pc := g.pc
  lane := lane
  cls := cls
  sp := sp
  pieces := ps
  got := []
  bad := false
  op := op
  acq := false
  rel := false
  wt := false
  watch := false
  counted := false
  moved := false
  drop := false
  phase := .flying

/-- Requests leave, in order. -/
def addReqs (rs : List Req) (s : State) : State :=
  { s with
    reqs := s.reqs ++ (rs.zipIdx.map fun r => { r.1 with id := s.nextId + r.2 })
    nextId := s.nextId + rs.length }

/-- A load marks its destination registers empty, with the tag they will carry (R245), and its requests leave. -/
def beginLoad (gid : Nat) (names : List Nat) (eff : LaneMask) (tag : BitVec 4) (mk : List Nat → List Req) (s : State) : State :=
  match s.grp? gid with
  | none => s
  | some g =>
    let pids := names.filterMap fun n => g.cur.lookup n
    let n := (lanesOf eff).length
    let g := pids.foldl (fun g pid => g.modPreg pid fun r =>
      { r with tag := tag, pend := r.pend + n, ready := if n = 0 then r.ready else none }) g
    addReqs (mk pids) (s.modGrp gid fun _ => g)

/-- The outstanding count of a group rises by one (R49). -/
def countOne (gid : Nat) (s : State) : State := s.modGrp gid fun g => { g with outst := g.outst + 1 }

/-- The outstanding count falls by one; a group that has left has passed its count to its launch's counter (R49, R50). -/
def uncountOne (gid core launch : Nat) (moved : Bool) (s : State) : State :=
  match s.grp? gid with
  | some g =>
    if g.life == .resident && !moved then s.modGrp gid fun g => { g with outst := g.outst - 1 }
    else decLaunchCtr core launch s
  | none => decLaunchCtr core launch s

/-! ### Order -/

/-- A plain access of class ls (R229): neither an acquire nor a release. -/
def Req.plain (r : Req) : Bool := r.cls == 0 && !r.acq && !r.rel

/-- The request reads or writes plain memory, or is an atomic: class ls or at (R296). -/
def Req.isAcc (r : Req) : Bool := r.cls == 0 || r.cls == 3

/-- Two pieces touch a common byte. -/
def Piece.meets (p q : Piece) : Bool := p.addr < q.addr + q.len && q.addr < p.addr + p.len

/-- Two requests name places of one kind: device memory, or the scratchpad of one team. -/
def samePlace (a b : Req) : Bool := a.sp == b.sp && (!a.sp || a.team == b.team)

/-- What is left of `o` must come before the next piece of `r`: they touch a common byte (R303), which does not lie on a UO page between
two plain accesses (R304). -/
def ordersPiece (o r : Req) : Bool :=
  samePlace o r && match r.pieces with
    | p :: _ => o.pieces.any fun q => q.meets p && !(o.plain && r.plain && q.uo && p.uo)
    | [] => false

/-- An earlier access of the group to a common byte comes first (R303, R304, R311); accesses of other classes are not ordered (R317). -/
def heldBySame (s : State) (r : Req) : Bool :=
  r.isAcc && s.reqs.any fun o => o.gid == r.gid && o.seq < r.seq && o.isAcc && o.undone && ordersPiece o r

/-- A lower lane of the same store to a common byte comes first (R303). -/
def heldByLane (s : State) (r : Req) : Bool :=
  r.writes && s.reqs.any fun o => sameInstr o r && o.lane < r.lane && o.undone && samePlace o r &&
    (match r.pieces with
    | p :: _ => o.pieces.any fun q => q.meets p
    | [] => false)

/-- The next piece of a plain access lies on an SO page (R305, R311). -/
def Req.nextSo (r : Req) : Bool := r.plain && ((r.pieces.head?.map Piece.so).getD false)

/-- A release, and each part of a plain access on an SO page, comes after every earlier access of classes ls and at (R305). -/
def heldByRelease (s : State) (r : Req) : Bool :=
  (r.rel && s.pendingAcc r.gid r.seq)
    || (r.nextSo && s.reqs.any fun o => o.gid == r.gid && o.seq < r.seq && o.isAcc && o.phase != .done)

/-- An acquire, and each part of a plain access on an SO page, comes before every later access of classes ls and at (R305, R319). -/
def heldByAcquire (s : State) (r : Req) : Bool :=
  r.isAcc && s.reqs.any fun o => o.gid == r.gid && o.seq < r.seq && o.phase != .done && (o.acq || (o.plain && o.pieces.any Piece.so))

/-- Two ranges of a scoreboard overlap and one of them writes (R259). -/
def rangesMeet (a b : List (Int × Int × Bool)) : Bool :=
  a.any fun x => b.any fun y => (x.2.2 || y.2.2) && decide (x.1 < y.2.1) && decide (y.1 < x.2.1)

/-- The ranges that a scratchpad request answers for: those of its entry while it has one, else its own bytes. -/
def scoreRanges (s : State) (r : Req) : List (Int × Int × Bool) :=
  match s.scores.find? fun e => e.cmd == none && e.gid == r.gid && e.seq == r.seq with
  | some e => e.ranges
  | none => r.pieces.map fun p => ((p.addr : Int), (p.addr : Int) + p.len, r.writes)

/-- An earlier entry of the team overlaps (R259). -/
def heldByScore (s : State) (r : Req) : Bool :=
  r.sp && (match r.op with
    | .load .. => true
    | .fe .. => true
    | .store _ => true
    | _ => false) &&
    s.scores.any fun e => e.team == r.team && e.seq < r.seq && rangesMeet e.ranges (scoreRanges s r)

/-- An earlier operation of the group on the same queue or bin comes first (R322). -/
def heldByStruct (s : State) (r : Req) : Bool :=
  r.cls == 6 && match r.pieces with
    | p :: _ => s.reqs.any fun o => o.gid == r.gid && o.seq < r.seq && o.cls == 6 && o.undone && o.pieces.any fun q => q.addr == p.addr
    | [] => false

/-- An earlier access holds the next piece of the request back. -/
def heldBack (s : State) (r : Req) : Bool :=
  heldBySame s r || heldByRelease s r || heldByAcquire s r || heldByScore s r || heldByStruct s r

/-- The unit of scratchpad that the lanes of one instruction share (R235, R239): a bank word, and for a taker its granule; none for a
request that is no load or store of scratchpad. -/
def Req.shared (r : Req) : Option Nat :=
  match r.op, r.pieces with
  | .load .., p :: _ => if r.sp then some (p.addr / 8 * 8) else none
  | .store _, p :: _ => if r.sp then some (p.addr / 8 * 8) else none
  | .fe _ _ _ take, p :: _ => if take then some (p.addr / 16 * 16) else some (p.addr / 8 * 8)
  | _, _ => none

/-- The lanes that are performed in one access with a request, in ascending order (R235, R239). -/
def together (s : State) (r : Req) : List Req :=
  if r.shared.isSome then s.reqs.filter fun q => sameInstr q r && q.undone && q.shared == r.shared else [r]

/-- The request, or its next piece, may be performed now, with the lanes that share its access. -/
def canPerform (s : State) (r : Req) : Bool :=
  r.phase == .flying && (r.sp || !heldByLane s r) && !heldBack s r && (together s r).all fun q => !heldBack s q

/-! ### Arrays of the scratchpad pools (R60, R383) -/

/-- The units of a core's pool in use, as teams with the numbers of their units there: those of a team's first half lie on side 0 (R60). -/
def poolUnits (s : State) (core : Nat) : List (Nat × Nat) :=
  (s.teams.filter fun t => t.cores.contains core && t.status != .retired && t.status != .saved).flatMap fun t =>
    let n := teamLimit s t / 65536 / max t.cores.length 1
    (List.range n).map fun k => (t.tid, t.cores.idxOf core * n + k)

/-- The team whose scratchpad a unit of a core's pool holds, and the number of its own unit there; the spec leaves the place of a
team's units in the pool open. -/
def poolTeam (s : State) (core unit : Nat) : Option (Nat × Nat) := (poolUnits s core)[Config.poolPlace core unit]?

/-- No array that holds these bytes of a team's scratchpad is in retention (R383). -/
def poolAwake (s : State) (tid a n : Nat) : Bool :=
  s.retained.all fun arr => match arr with
    | .pool core unit => (match poolTeam s core unit with
      | some (t, k) => !(t == tid && a / 65536 ≤ k && k ≤ (a + n - 1) / 65536)
      | none => true)
    | _ => true

/-- The banks of a scratchpad request are awake. -/
def bankAwake (s : State) (r : Req) : Bool := r.pieces.all fun p => poolAwake s r.team p.addr p.len

/-! ### Reports of requests -/

/-- An entry for a request, with its group's place and pc (R359, R371). -/
def reqEntry (s : State) (r : Req) (rep : Report) : Entry :=
  match s.grp? r.gid with
  | some g => groupEntry s g rep r.pc
  | none => { report := rep, serial := s.serialOf r.launch }

/-- A logged entry for a request. -/
def logReq (r : Req) (rep : Report) : Prog := .dyn fun s => fqEntry r.part (reqEntry s r rep)

/-- The lines of uncorrectable words of device memory among some bytes. -/
def badLines (s : State) (a n : Nat) : List Nat :=
  ((wordsOf a n).filterMap fun w => if devSyndrome s w == .uncorrectable then some (w / 64 * 64) else none).eraseDups

/-- The uncorrectable bank words of scratchpad among some bytes (R369). -/
def spBadWords (t : Team) (a n : Nat) : List Nat :=
  ((wordsOf a n).filter fun w => spSyndrome t w == .uncorrectable)

/-- The uncorrectable bank words that some lanes read, each once for the lanes of one instruction that share it (R235, R369). -/
def badReads (t : Team) (rs : List Req) : List (Req × Nat) :=
  (rs.flatMap fun q => match q.pieces with
    | x :: _ => (spBadWords t x.addr x.len).map fun w => (q, w)
    | [] => []).foldl (fun acc x => if acc.any fun y => sameInstr y.1 x.1 && y.2 == x.2 then acc else acc ++ [x]) []

/-- A log of each uncorrectable bank word that some lanes of a team read. -/
def logReads (tid : Nat) (rs : List Req) : Prog :=
  .dyn fun s => .all (match s.team? tid with
    | some t => (badReads t rs).map fun x => logReq x.1 ⟨.uncorr, 1, x.1.lane, 0, BitVec.ofNat 64 x.2, 0, 0⟩
    | none => [])

/-- A change `put` of the scratchpad bytes from `a` up, with all that it wakes and a log of each uncorrectable word that a lane which it
wakes reads (R283, R369). `fill` says that it fills granules (R238). -/
def spChange (fill : Bool) (put : State → State) (tid a n : Nat) : Prog :=
  .dyn fun s =>
    let go := fun (s : State) => afterSpWrite fill tid a n (put s)
    let left := (go s).reqs
    let woken := s.reqs.filter fun q => (match q.op with
      | .fe .. => q.sp && q.team == tid
      | _ => false) && !(left.any fun x => x.id == q.id)
    .all [
      .all (match (put s).team? tid with
        | some t => (badReads t woken).map fun x => logReq x.1 ⟨.uncorr, 1, x.1.lane, 0, BitVec.ofNat 64 x.2, 0, 0⟩
        | none => []),
      .change go]

/-- A write to scratchpad, of which the words written in part are read first (R369). -/
def spWriteLogged (fill : Bool) (tid a : Nat) (bs : List Byte) : Prog :=
  spChange fill (fun s => (spReadWords tid (partWords a bs.length) s).modTeam tid (spPut a bs)) tid a bs.length

/-! ### Performing -/

/-- The request has been answered in full and is removed; scoreboard entries and waits that hung on it settle. -/
def finishReq (id : Nat) (s : State) : State := settleScores (s.dropReq id)

/-- A load of device memory performs its next piece: the bytes, a log of each uncorrectable line, and delivery with the last. -/
def loadPiece (r : Req) (p : Piece) (rest : List Piece) (d : Dest) (size : Nat) (signed : Bool) : Prog :=
  .dyn fun s =>
    let bs := r.got ++ devBytes s p.addr p.len
    let bad := r.bad || devBad s p.addr p.len
    .all [
      .all ((badLines s p.addr p.len).map fun l => logReq r ⟨.uncorr, 1, r.lane, 0, BitVec.ofNat 64 l, 0, 0⟩),
      devReadEffect p.addr p.len,
      .change fun s =>
        if rest.isEmpty then finishReq r.id (deliver r d size signed bs bad s)
        else s.modReq r.id fun q => { q with pieces := rest, got := bs, bad := bad }]

/-- A store to device memory performs its next piece; after the last it waits for its acknowledgement (R246). -/
def storePiece (r : Req) (p : Piece) (rest : List Piece) (data : List Byte) : Prog :=
  .all [
    agentWrite p.addr (data.take p.len),
    .change fun s => s.modReq r.id fun q =>
      { q with pieces := if rest.isEmpty then [p] else rest, op := .store (data.drop p.len), phase := if rest.isEmpty then .done else .flying }]

/-- One lane's part in a read of its next bank word. -/
def spLoadLane (r : Req) (s : State) : State :=
  match r.op, r.pieces, s.team? r.team with
  | .load d size signed, p :: rest, some t =>
    let bs := r.got ++ spBytes t p.addr p.len
    let bad := r.bad || spBad t p.addr p.len
    if rest.isEmpty then (deliver r d size signed bs bad s).dropReq r.id
    else s.modReq r.id fun q => { q with pieces := rest, got := bs, bad := bad }
  | _, _, _ => s

/-- A load of scratchpad reads one bank word for every lane that shares it: a log where the word is uncorrectable, delivery, and what the
read leaves (R235, R249, R369). -/
def spLoad (r : Req) (w : Nat) : Prog :=
  .dyn fun s =>
    let rs := together s r
    .all [
      logReads r.team rs,
      .change fun s => settleScores (spReadWords r.team [w] (rs.foldl (fun s q => spLoadLane q s) s))]

/-- What a lane stores in its next bank word. -/
def Req.putting (r : Req) : Nat × List Byte :=
  match r.op, r.pieces with
  | .store data, p :: _ => (p.addr, data.take p.len)
  | _, _ => (0, [])

/-- The byte that some writes leave at an address: the last one's (R303). -/
def lastByte (ws : List (Nat × List Byte)) (a : Nat) : Option Byte :=
  ws.foldl (fun o w => if w.1 ≤ a && a < w.1 + w.2.length then w.2[a - w.1]? else o) none

/-- The writes of some lanes to a bank word, in one access. -/
def wordWrites (w : Nat) (ws : List (Nat × List Byte)) : List (Nat × List Byte) :=
  let bs := (List.range 8).map fun k => lastByte ws (w + k)
  if bs.all Option.isSome then [(w, bs.map fun b => b.getD 0)] else ws

/-- A lane has stored its next bank word. -/
def spStored (r : Req) (s : State) : State :=
  match r.op, r.pieces with
  | .store data, p :: rest =>
    if rest.isEmpty then s.dropReq r.id else s.modReq r.id fun q => { q with pieces := rest, op := .store (data.drop p.len) }
  | _, _ => s

/-- A store of scratchpad writes one bank word for every lane that shares it, in ascending lane order (R235, R249, R303).
DEDUCED (log entry 28): each 8-byte half of a 16-byte store fills the granule. -/
def spStore (r : Req) (w : Nat) : Prog :=
  .dyn fun s =>
    let rs := together s r
    let ws := wordWrites w (rs.map Req.putting)
    .all [
      spChange true (fun s => (spReadWords r.team (ws.flatMap fun x => partWords x.1 x.2.length).eraseDups s).modTeam r.team
        fun t => ws.foldl (fun t x => spPut x.1 x.2 t) t) r.team w 8,
      .change fun s => settleScores (rs.foldl (fun s q => spStored q s) s)]

/-- The lanes of a `.fe` access reach their bank (R239): on a full granule they complete, and a taker empties the granule; on an empty one
they park, and their load releases its scoreboard entry (R259). -/
def feLane (r : Req) (take : Bool) : Prog :=
  .dyn fun s =>
    match s.team? r.team, r.pieces with
    | some t, p :: _ =>
      let gran := p.addr / 16 * 16
      let rs := together s r
      if t.empties.contains gran then
        .change fun s =>
          let s := rs.foldl (fun s q => park q.id (fun q => q) s) s
          { s with scores := s.scores.filter fun e => !(e.cmd == none && e.gid == r.gid && e.seq == r.seq) }
      else
        .all [
          logReads r.team rs,
          .change fun s =>
            let s := settleScores (rs.foldl (fun s q => feComplete q s) s)
            if take then s.modTeam r.team (spEmpty gran) else s]
    | _, _ => .done

/-- A device access of class ls performs its next piece at its home slice (R233). -/
def lsPiece (r : Req) : Prog :=
  match r.pieces, r.op with
  | p :: rest, .load d size signed => loadPiece r p rest d size signed
  | p :: rest, .store data => storePiece r p rest data
  | _, _ => .done

/-- A scratchpad access of class ls is performed at its banks (R235). -/
def spAccess (r : Req) : Prog :=
  match r.op, r.pieces with
  | .load .., p :: _ => spLoad r (p.addr / 8 * 8)
  | .store _, p :: _ => spStore r (p.addr / 8 * 8)
  | .fe _ _ _ take, _ => feLane r take
  | _, _ => .done

end Sys2Proof.Machine
end

