-- ==== Sys2Proof/Machine/Memory.lean ====
section
/-! DEFINITION. Loads, stores and pf (R240 to R250), and the accesses of classes ls and at where they are performed. -/

namespace Sys2Proof.Machine

/-- The bytes of an access (R88). -/
def sizeBytes (size : BitVec 3) : Nat := 2 ^ size.toNat

/-- The tag that a result of a type carries (R179): RAW under types 0 and 12. -/
def typeTag (t : BitVec 4) : BitVec 4 := if t == 12 then 0 else t

/-- The index register or pair (R240). -/
def mIndex (f : MF) (pair : Bool) : VSrc :=
  { name := f.vi.toNat, pair := pair, lr := f.lri, eb := f.ebi, type := 0 }

/-- The index as a source, where the instruction has one. -/
def mIndexSrcs (f : MF) (pair : Bool) : List VSrc := if f.ix then [mIndex f pair] else []

/-- The tags that an index may carry (R240). -/
def indexTagOk (pair : Bool) (tag : BitVec 4) : Bool := if pair then typeIn tag [0, 7, 8] else typeIn tag [0, 5, 6]

/-- FORMAT of the index (R243 item 1). -/
def indexCheck (i : Instr) (f : MF) (pair : Bool) (g : Group) : Option Report :=
  if f.ix then firstSome ((mIndex f pair).names.map fun n =>
    if indexTagOk pair (g.vTag n) then none else some ⟨.format, (g.vTag n).toNat, n, 0, word0Of i, word1Of i, 0⟩)
  else none

/-- idx of a lane (R242): a pair of 64 bits, or a register sign-extended under I32. -/
def indexOf (f : MF) (pair : Bool) (g : Group) (l : Nat) : Int :=
  if !f.ix then 0
  else
    let v := g.val pair f.vi.toNat l
    if pair then v.toNat
    else if g.vTag f.vi.toNat == 5 then ((v.setWidth 32).toInt : Int) else v.toNat

/-- sext(off8) (R242). -/
def offOf (f : MF) : Int := f.off.toInt

/-- VA of a lane of `ld`, `st`, `pf` and `at` (R242). -/
def laneVa (f : MF) (g : Group) (l : Nat) : Word :=
  BitVec.ofInt 64 ((g.s f.sb.toNat).toNat + indexOf f true g l + offOf f * sizeBytes f.size)

/-- The team offset of a lane of `ld.s` and `st.s`, exact and signed (R242). -/
def laneOff (f : MF) (g : Group) (l : Nat) : Int :=
  (g.s f.sb.toNat).toInt + indexOf f false g l + offOf f * sizeBytes f.size

/-- The element index of a lane of `ldb` and `stb` (R242). -/
def laneElem (f : MF) (g : Group) (l : Nat) : Int := indexOf f false g l + offOf f

/-- VA of a lane of `ldb` and `stb` (R242). -/
def boundedVa (f : MF) (g : Group) (l : Nat) : Word :=
  BitVec.ofInt 64 ((g.s f.sb.toNat).toNat + laneElem f g l * sizeBytes f.size)

/-- VA of `ldu`, `stu` and `atc` (R242). -/
def groupVa (f : MF) (g : Group) : Word := BitVec.ofInt 64 ((g.s f.sb.toNat).toNat + offOf f * sizeBytes f.size)

/-- The addresses of the effective lanes. -/
def vasOf (va : Group → Nat → Word) (g : Group) (eff : LaneMask) : List (Nat × Word) := (lanesOf eff).map fun l => (l, va g l)

/-- The registers that a load writes or a store reads (R241). -/
def mRegs (f : MF) : List Nat :=
  match f.size.toNat with
  | 3 => [f.vt.toNat, f.vt.toNat + 1]
  | 4 => (List.range 4).map (f.vt.toNat + ·)
  | _ => [f.vt.toNat]

/-- The registers that a store reads, as sources (R246). -/
def dataSrcs (f : MF) : List VSrc :=
  (mRegs f).map fun n => { name := n, pair := false, lr := f.lrt, eb := f.ebt, type := f.type }

/-- The bytes that a lane stores (R241). -/
def storeBytes (f : MF) (g : Group) (l : Nat) : List Byte :=
  ((mRegs f).flatMap fun n => natBytes 4 (laneOf (g.vLanes n) l).toNat).take (sizeBytes f.size)

/-- A load's type is sign-extended when it is narrow (R241). -/
def mSigned (f : MF) : Bool := f.type == 5

/-- The load reads, the store writes, the atomic does both. -/
def needR : Need := { r := true }

/-- W. -/
def needW : Need := { w := true }

/-- R and W. -/
def needRW : Need := { r := true, w := true }

/-! ### Lane-wise device accesses -/

/-- A load of device memory (R245); `more` are its further uniform sources and `bound` its check of ranges. -/
def devLoad (i : Instr) (f : MF) (pair : Bool) (va : Group → Nat → Word) (more : List Src)
    (bound : Group → LaneMask → Option Report) : Plan :=
  let b := sizeBytes f.size
  { srcs := .s f.sb.toNat false :: more ++ (mIndexSrcs f pair).flatMap VSrc.srcs
    dsts := (mRegs f).map .v
    cls := some 0
    load := true
    touches := fun s g eff => touchesOf s g b needR (vasOf va g eff)
    consumed := consumedBy (mIndexSrcs f pair)
    check := fun s g eff => firstSome [
      indexCheck i f pair g,
      bound g eff,
      if f.sync = 1 then alignCheck i b (vasOf va g eff) else none,
      transCheck i s g b needR (vasOf va g eff)]
    effect := fun s g eff =>
      let as := vasOf va g eff
      .change fun t => beginLoad g.gid (mRegs f) eff (typeTag f.type) (fun pids => as.map fun a =>
        { newReq s g a.1 0 false (piecesOf s g b needR a.2) (.load (.lane pids a.1) f.size.toNat (mSigned f)) with acq := f.sync = 1 })
        (installAll g b needR as t) }

/-- A store to device memory (R246). -/
def devStore (i : Instr) (f : MF) (pair : Bool) (va : Group → Nat → Word) (more : List Src)
    (bound : Group → LaneMask → Option Report) : Plan :=
  let b := sizeBytes f.size
  { srcs := (dataSrcs f).flatMap VSrc.srcs ++ (.s f.sb.toNat false :: more) ++ (mIndexSrcs f pair).flatMap VSrc.srcs
    cls := some 0
    store := true
    counts := true
    closes := fun s g eff => (vasOf va g eff).any fun a => (piecesOf s g b needW a.2).any Piece.so
    touches := fun s g eff => touchesOf s g b needW (vasOf va g eff)
    consumed := consumedBy (dataSrcs f ++ mIndexSrcs f pair)
    check := fun s g eff => firstSome [
      indexCheck i f pair g,
      formatCheck i g (dataSrcs f),
      bound g eff,
      if f.sync = 1 then alignCheck i b (vasOf va g eff) else none,
      transCheck i s g b needW (vasOf va g eff)]
    effect := fun s g eff =>
      let as := vasOf va g eff
      .change fun t =>
        let t := addReqs (as.map fun a =>
          { newReq s g a.1 0 false (piecesOf s g b needW a.2) (.store (storeBytes f g a.1)) with rel := f.sync = 1, counted := true })
          (installAll g b needW as t)
        if as.isEmpty then t else countOne g.gid t }

/-- BOUND of the bounded forms: the first lane whose element is out of range (R242, R243). -/
def elemCheck (i : Instr) (f : MF) (g : Group) (eff : LaneMask) : Option Report :=
  firstSome ((lanesOf eff).map fun l =>
    let e := laneElem f g l
    if 0 ≤ e ∧ e < ((g.s (f.sb.toNat + 1)).toNat : Int) then none else some (addrReport .bound i l (BitVec.ofInt 64 e)))

/-- No check of ranges. -/
def noBound (_ : Group) (_ : LaneMask) : Option Report := none

/-- ld (R245). -/
def planLd (h : Hdr) (f : MF) : Plan :=
  devLoad (.ld h f) f true (laneVa f) [] noBound

/-- The meaning of LD. -/
def execLd (h : Hdr) (f : MF) : State → Host.Outcome State Fault Refusal :=
  runPlan (.ld h f) h (planLd h f)

/-- st (R246). -/
def planSt (h : Hdr) (f : MF) : Plan :=
  devStore (.st h f) f true (laneVa f) [] noBound

/-- The meaning of ST. -/
def execSt (h : Hdr) (f : MF) : State → Host.Outcome State Fault Refusal :=
  runPlan (.st h f) h (planSt h f)

/-- ldb (R242, R245). -/
def planLdb (h : Hdr) (f : MF) : Plan :=
  devLoad (.ldb h f) f false (boundedVa f) [.s (f.sb.toNat + 1) false] (elemCheck (.ldb h f) f)

/-- The meaning of LDB. -/
def execLdb (h : Hdr) (f : MF) : State → Host.Outcome State Fault Refusal :=
  runPlan (.ldb h f) h (planLdb h f)

/-- stb (R242, R246). -/
def planStb (h : Hdr) (f : MF) : Plan :=
  devStore (.stb h f) f false (boundedVa f) [.s (f.sb.toNat + 1) false] (elemCheck (.stb h f) f)

/-- The meaning of STB. -/
def execStb (h : Hdr) (f : MF) : State → Host.Outcome State Fault Refusal :=
  runPlan (.stb h f) h (planStb h f)

/-! ### Scratchpad accesses -/

/-- The team of a group has this many bytes of scratchpad (R234). -/
def groupLimit (s : State) (g : Group) : Nat := ((s.team? g.team).map fun t => teamLimit s t).getD 0

/-- BOUND of a team offset (R234, R243). -/
def offCheck (i : Instr) (s : State) (g : Group) (b : Nat) (ts : List (Nat × Int)) : Option Report :=
  firstSome (ts.map fun t => if inRange (groupLimit s g) t.2 b then none else some (addrReport .bound i t.1 (BitVec.ofInt 64 t.2)))

/-- ALIGN of a team offset (R234, R243). -/
def offAlign (i : Instr) (b : Nat) (ts : List (Nat × Int)) : Option Report :=
  firstSome (ts.map fun t => if t.2 % (b : Int) = 0 then none else some (addrReport .align i t.1 (BitVec.ofInt 64 t.2)))

/-- The offsets of the effective lanes. -/
def offsOf (f : MF) (g : Group) (eff : LaneMask) : List (Nat × Int) := (lanesOf eff).map fun l => (l, laneOff f g l)

/-- The greatest of some numbers. -/
def maxOf (l : List Nat) : Nat := l.foldl max 0

/-- The conflict cost of one pass (R236): bank words as (core half, word). DEDUCED (log entry 88): a team that spans a pair has the 64 banks
of each of its cores. -/
def passCost (half b : Nat) (ts : List Nat) : Nat :=
  let words := (ts.flatMap fun t => wordsOf t b).eraseDups
  let banks := words.map fun w => (if half = 0 then 0 else w / half, w / 8 % 64)
  maxOf (banks.eraseDups.map fun k => banks.countP fun x => x == k) - 1

/-- The conflict cost of an instruction over its passes of 32 lanes (R236). -/
def bankCost (half b : Nat) (ts : List (Nat × Int)) : Nat :=
  passCost half b ((ts.filter fun t => t.1 < 32).map fun t => t.2.toNat) + passCost half b ((ts.filter fun t => 32 ≤ t.1).map fun t => t.2.toNat)

/-- The bytes of scratchpad of one core of the group's team (R60). -/
def coreHalf (s : State) (g : Group) : Nat :=
  match s.team? g.team with
  | some t => teamLimit s t / max t.cores.length 1
  | none => 0

/-- All 64 entries of the pair's scoreboard are taken (R258). -/
def scoreFull (s : State) (core : Nat) : Bool := s.scores.countP (fun e => e.pair == pairOfCore core) ≥ 64

/-- The entry of a scratchpad access: the hull of its lanes (R258). -/
def hullEntry (s : State) (g : Group) (b : Nat) (write : Bool) (ts : List (Nat × Int)) : List Score :=
  match ts with
  | [] => []
  | t :: _ =>
    let lo : Int := ts.foldl (fun (m : Int) x => min m x.2) t.2
    let hi : Int := ts.foldl (fun (m : Int) x => max m (x.2 + b)) (t.2 + b)
    [⟨s.seq, pairOfCore g.core, g.team, g.gid, none, [(lo, hi, write)]⟩]

/-- `stall.bank` grows and the access enters the scoreboard (R236, R258). -/
def spIssue (s : State) (g : Group) (b : Nat) (write : Bool) (ts : List (Nat × Int)) (t : State) : State :=
  let c := bankCost (coreHalf s g) b ts
  let t := t.modTeam g.team fun tm => { tm with stall := tm.stall + BitVec.ofNat 64 c }
  { t with scores := t.scores ++ hullEntry s g b write ts }

/-- The pieces of a scratchpad access: one, or two bank words; a `.fe` lane completes at once. -/
def spPieces (b : Nat) (whole : Bool) (t : Int) : List Piece :=
  if whole || b ≤ 8 then [⟨t.toNat, b, false, false⟩] else [⟨t.toNat, 8, false, false⟩, ⟨t.toNat + 8, b - 8, false, false⟩]

/-- ld.s (R234 to R239, R245): sync 2 is `.fe` and sync 3 `.fe.take`. -/
def planLdS (h : Hdr) (f : MF) : Plan :=
  let b := sizeBytes f.size
  let i := Instr.ldS h f
  let fe := decide (2 ≤ f.sync.toNat)
  let take := decide (f.sync = 3)
  {
    srcs := .s f.sb.toNat false :: (mIndexSrcs f false).flatMap VSrc.srcs
    dsts := (mRegs f).map .v
    cls := some 0
    load := true
    release := take
    closes := fun _ _ _ => take
    wt := fun _ _ _ => fe
    stall := fun s g => scoreFull s g.core
    consumed := consumedBy (mIndexSrcs f false)
    check := fun s g eff => firstSome [
      indexCheck i f false g,
      offCheck i s g b (offsOf f g eff),
      offAlign i b (offsOf f g eff)]
    effect := fun s g eff =>
      let ts := offsOf f g eff
      .change fun t => beginLoad g.gid (mRegs f) eff (typeTag f.type) (fun pids => ts.map fun a =>
        let d := Dest.lane pids a.1
        { newReq s g a.1 0 true (spPieces b fe a.2)
            (if fe then .fe d f.size.toNat (mSigned f) take else .load d f.size.toNat (mSigned f)) with
          acq := f.sync = 1
          wt := fe })
        (spIssue s g b false ts t) }

/-- The meaning of LD_S. -/
def execLdS (h : Hdr) (f : MF) : State → Host.Outcome State Fault Refusal :=
  runPlan (.ldS h f) h (planLdS h f)

/-- st.s (R238, R246). -/
def planStS (h : Hdr) (f : MF) : Plan :=
  let b := sizeBytes f.size
  let i := Instr.stS h f
  {
    srcs := (dataSrcs f).flatMap VSrc.srcs ++ (.s f.sb.toNat false :: (mIndexSrcs f false).flatMap VSrc.srcs)
    cls := some 0
    store := true
    stall := fun s g => scoreFull s g.core
    consumed := consumedBy (dataSrcs f ++ mIndexSrcs f false)
    check := fun s g eff => firstSome [
      indexCheck i f false g,
      formatCheck i g (dataSrcs f),
      offCheck i s g b (offsOf f g eff),
      offAlign i b (offsOf f g eff)]
    effect := fun s g eff =>
      let ts := offsOf f g eff
      .change fun t => addReqs (ts.map fun a =>
        { newReq s g a.1 0 true (spPieces b false a.2) (.store (storeBytes f g a.1)) with rel := f.sync = 1 })
        (spIssue s g b true ts t) }

/-- The meaning of ST_S. -/
def execStS (h : Hdr) (f : MF) : State → Host.Outcome State Fault Refusal :=
  runPlan (.stS h f) h (planStS h f)

/-! ### Accesses of the group -/

/-- The checks of `ldu` and `stu` on their one address (R247). -/
def groupCheck (i : Instr) (f : MF) (need : Need) (align : Bool) (s : State) (g : Group) : Option Report :=
  let b := sizeBytes f.size
  firstSome [
    if align then alignCheck i b [(0, groupVa f g)] else none,
    transCheck i s g b need [(0, groupVa f g)]]

/-- ldu (R247). -/
def planLdu (h : Hdr) (f : MF) : Plan :=
  let b := sizeBytes f.size
  let i := Instr.ldu h f
  let r := (f.vt.extractLsb' 0 6).toNat
  {
    acts := .group
    srcs := [.s f.sb.toNat false]
    dsts := [.s r]
    cls := some 0
    load := true
    touches := fun s g eff => if eff = 0 then [] else touchesOf s g b needR [(0, groupVa f g)]
    check := fun s g eff => if eff = 0 then none else groupCheck i f needR (f.sync = 1) s g
    effect := fun s g _ => .change fun t =>
      let t := installAll g b needR [(0, groupVa f g)] t
      addReqs [{ newReq s g 0 0 false (piecesOf s g b needR (groupVa f g)) (.load (.uni r) f.size.toNat (mSigned f)) with acq := f.sync = 1 }]
        (t.modGrp g.gid fun h => h.emptyS r) }

/-- The meaning of LDU. -/
def execLdu (h : Hdr) (f : MF) : State → Host.Outcome State Fault Refusal :=
  runPlan (.ldu h f) h (planLdu h f)

/-- stu (R247): the low bytes of S[vt]. -/
def planStu (h : Hdr) (f : MF) : Plan :=
  let b := sizeBytes f.size
  let i := Instr.stu h f
  let r := (f.vt.extractLsb' 0 6).toNat
  {
    acts := .group
    srcs := [.s r f.ebt, .s f.sb.toNat false]
    cls := some 0
    store := true
    counts := true
    closes := fun s g eff => eff != 0 && (piecesOf s g b needW (groupVa f g)).any Piece.so
    touches := fun s g eff => if eff = 0 then [] else touchesOf s g b needW [(0, groupVa f g)]
    check := fun s g eff => if eff = 0 then none else groupCheck i f needW (f.sync = 1) s g
    effect := fun s g _ => .change fun t =>
      let t := installAll g b needW [(0, groupVa f g)] t
      countOne g.gid (addReqs [{ newReq s g 0 0 false (piecesOf s g b needW (groupVa f g)) (.store ((wordBytes (g.s r)).take b)) with
        rel := f.sync = 1, counted := true }] t) }

/-- The meaning of STU. -/
def execStu (h : Hdr) (f : MF) : State → Host.Outcome State Fault Refusal :=
  runPlan (.stu h f) h (planStu h f)

/-! ### pf -/

/-- The pages that an access of `b` bytes touches, by an address in each (R248). -/
def pfAddrs (va : Word) (b : Nat) : List Word :=
  [va] ++ (if va.toNat / 65536 = (va.toNat + b - 1) / 65536 then [] else [va + BitVec.ofNat 64 (b - 1)])

/-- pf: translations are installed in the core's cache or asked of a walker; a lane that meets any outcome is dropped (R248). -/
def planPf (f : MF) : Plan :=
  let b := sizeBytes f.size
  {
    srcs := .s f.sb.toNat false :: (mIndexSrcs f true).flatMap VSrc.srcs
    consumed := consumedBy (mIndexSrcs f true)
    effect := fun _ g eff =>
      let ok := !f.ix || (mIndex f true).names.all fun n => indexTagOk true (g.vTag n)
      let asks := if ok then (lanesOf eff).flatMap fun l => pfAddrs (laneVa f g l) b else []
      .change fun t => { t with walks := t.walks ++ (asks.eraseDups.map fun a =>
        ⟨dieOfCore g.core, g.core, g.part, a.toNat, 0, 0, 0⟩) } }

/-- The meaning of PF. -/
def execPf (h : Hdr) (f : MF) : State → Host.Outcome State Fault Refusal :=
  runPlan (.pf h f) h (planPf f)

end Sys2Proof.Machine
end

