-- ==== Sys2Proof/Machine/Sync.lean ====
section
/-! DEFINITION. Slice atomics (R286 to R288), the issue of continuation atomics (R289, R290), counters and waits (R276 to R283), and
fences (R295, R298). -/

namespace Sys2Proof.Machine

/-! ### Atomics -/

/-- The new word f(old, x, y) of R287, at the width of the type. -/
def atomicNew (aop type : Nat) (old x y : Word) : Word :=
  let t := BitVec.ofNat 4 type
  let w := opW t
  let sg := isSigned t
  let less := fun (a b : Word) => decide (readInt sg w (elemNat w a 0) < readInt sg w (elemNat w b 0))
  cutTo w (match aop with
    | 0 => old + x
    | 1 => old - x
    | 2 => if less x old then x else old
    | 3 => if less old x then x else old
    | 4 => old &&& x
    | 5 => old ||| x
    | 6 => old ^^^ x
    | 7 => x
    | _ => if cutTo w old == cutTo w y then x else old)

/-- An operand register or pair of a lane-wise `at` (R286). -/
def atSrc (f : MF) (r : BitVec 8) (lr eb : Bool) : VSrc := srcA r lr eb f.type

/-- The operands of a lane-wise `at`: x, and y for `cas`. -/
def atData (f : MF) (x : AtX) : List VSrc :=
  atSrc f x.x x.lrx x.ebx :: (if x.aop == 8 then [atSrc f x.y x.lry x.eby] else [])

/-- The operands of the uniform form. -/
def atUniSrcs (x : AtX) : List Src :=
  .s (x.x.extractLsb' 0 6).toNat x.ebx :: (if x.aop == 8 then [.s (x.y.extractLsb' 0 6).toNat x.eby] else [])

/-- The lane-wise form of `at` (R288). -/
def atLanes (i : Instr) (f : MF) (x : AtX) : Plan :=
  let b := sizeBytes f.size
  let pair := isPairType f.type
  { srcs := .s f.sb.toNat false :: (mIndexSrcs f true ++ atData f x).flatMap VSrc.srcs
    dsts := (mRegs f).map .v
    cls := some 3
    atomic := true
    closes := fun _ _ _ => true
    touches := fun s g eff => touchesOf s g b needRW (vasOf (laneVa f) g eff)
    consumed := consumedBy (mIndexSrcs f true ++ atData f x)
    check := fun s g eff => firstSome [
      indexCheck i f true g,
      formatCheck i g (atData f x),
      alignCheck i b (vasOf (laneVa f) g eff),
      transCheck i s g b needRW (vasOf (laneVa f) g eff)]
    effect := fun s g eff =>
      let as := vasOf (laneVa f) g eff
      .change fun t => beginLoad g.gid (mRegs f) eff (typeTag f.type) (fun pids => as.map fun a =>
        { newReq s g a.1 3 false (piecesOf s g b needRW a.2)
            (.atomic x.aop.toNat f.type.toNat (g.val pair x.x.toNat a.1) (g.val pair x.y.toNat a.1) (.lane pids a.1)) with
          acq := f.sync = 1
          rel := f.sync = 1 })
        (installAll g b needRW as t) }

/-- The uniform form of `at` (R288). -/
def atUni (i : Instr) (f : MF) (x : AtX) : Plan :=
  let b := sizeBytes f.size
  let r := (f.vt.extractLsb' 0 6).toNat
  { acts := .group
    srcs := .s f.sb.toNat false :: atUniSrcs x
    dsts := [.s r]
    cls := some 3
    atomic := true
    closes := fun _ _ _ => true
    touches := fun s g eff => if eff = 0 then [] else touchesOf s g b needRW [(0, groupVa f g)]
    check := fun s g eff => if eff = 0 then none else groupCheck i f needRW true s g
    effect := fun s g _ => .change fun t =>
      addReqs [{ newReq s g 0 3 false (piecesOf s g b needRW (groupVa f g))
          (.atomic x.aop.toNat f.type.toNat (g.s (x.x.extractLsb' 0 6).toNat) (g.s (x.y.extractLsb' 0 6).toNat) (.uni r)) with
        acq := f.sync = 1
        rel := f.sync = 1 }]
        ((installAll g b needRW [(0, groupVa f g)] t).modGrp g.gid fun h => h.emptyS r) }

/-- at (R288). -/
def planAtM (h : Hdr) (f : MF) (x : AtX) : Plan :=
  if x.uni then atUni (.atM h f x) f x else atLanes (.atM h f x) f x

/-- The meaning of AT. -/
def execAtM (h : Hdr) (f : MF) (x : AtX) : State → Host.Outcome State Fault Refusal :=
  runPlan (.atM h f x) h (planAtM h f x)

/-- One lane's atomic at its home slice (R288): an uncorrectable word is left unchanged and logged, and its result carries the mark. -/
def atomicOne (r : Req) : Prog :=
  .dyn fun s =>
    match r.op, r.pieces with
    | .atomic aop type x y d, p :: _ =>
      let size := if p.len = 8 then 3 else 2
      let old := BitVec.ofNat 64 (bytesNat (devBytes s p.addr p.len))
      let back := fun (bad : Bool) => Prog.change fun s =>
        finishReq r.id (deliver r d size (type == 5) (natBytes p.len old.toNat) bad s)
      if devBad s p.addr p.len then
        .all [devReadEffect p.addr p.len, logReq r ⟨.uncorr, 7, r.lane, 0, BitVec.ofNat 64 p.addr, 0, 0⟩, back true]
      else
        .all [devReadEffect p.addr p.len, agentWrite p.addr (natBytes p.len (atomicNew aop type old x y).toNat), back false]
    | _, _ => .done

/-- Atomics at a home slice: the lanes of one instruction that name the word are performed consecutively, in ascending order (R288). -/
def atomicWord (r : Req) : Prog :=
  .dyn fun s =>
    let mine := s.reqs.filter fun q => sameInstr q r && q.undone && (q.pieces.head?.map Piece.addr) == (r.pieces.head?.map Piece.addr)
    .all (mine.map atomicOne)

/-! ### Continuation atomics, at issue -/

/-- The uniform sources of `atc` in field order, with EBS (R289, R290). -/
def atcSrcs (f : MF) (x : AtcX) : List Src :=
  [f.sb, x.sx, x.sy, x.stk, x.sarg].map fun r => .s r.toNat x.ebs

/-- atc at issue (R290): its request leaves as a release. -/
def planAtc (h : Hdr) (f : MF) (x : AtcX) : Plan :=
  let i := Instr.atc h f x
  let b := sizeBytes f.size
  let r := (f.vt.extractLsb' 0 6).toNat
  {
    acts := .group
    srcs := atcSrcs f x
    dsts := [.s r, .s x.sst.toNat]
    cls := some 3
    atomic := true
    closes := fun _ _ _ => true
    touches := fun s g eff => if eff = 0 then [] else touchesOf s g b needRW [(0, groupVa f g)]
    check := fun s g eff =>
      let tk := g.s x.stk.toNat
      if eff = 0 then none else firstSome [
        if bitsOf tk 39 25 != 0 || (s.part g.part).taskcount ≤ bitsOf tk 0 16 then some (addrReport .bound i 0 tk) else none,
        groupCheck i f needRW true s g]
    effect := fun s g _ => .change fun t =>
      addReqs [{ newReq s g 0 3 false (piecesOf s g b needRW (groupVa f g))
          (.atc x.aop.toNat x.cond.toNat f.type.toNat (g.s x.sx.toNat) (g.s x.sy.toNat) (g.s x.sarg.toNat) (g.s x.stk.toNat) (groupVa f g)
            r x.sst.toNat) with rel := true }]
        ((installAll g b needRW [(0, groupVa f g)] t).modGrp g.gid fun h => (h.emptyS r).emptyS x.sst.toNat) }

/-- The meaning of ATC. -/
def execAtc (h : Hdr) (f : MF) (x : AtcX) : State → Host.Outcome State Fault Refusal :=
  runPlan (.atc h f x) h (planAtc h f x)

/-! ### Counters -/

/-- min(c + v, 2^64 − 1), and whether it was clamped (R276). -/
def counterSum (c v : Word) : Word × Bool :=
  if 2 ^ 64 ≤ c.toNat + v.toNat then (BitVec.allOnes 64, true) else (c + v, false)

/-- The entry of a clamped add (R276, R360): `va` is the counter's address as it is named, `v` the increment, and `serial` that of the launch
that adds (R359). DEDUCED (log entry 29): it names no group. -/
def clampEntry (p : Nat) (va v : Word) (serial : Option Nat) : Prog := logEntry p ⟨.counter, 2, 0, 0, va, v, 0⟩ serial

/-- An add to a counter in device memory by a unit of the device or a group; an uncorrectable word gets nothing and is logged. -/
def counterAddDev (p a : Nat) (va v : Word) (serial : Option Nat) (log : Prog) : Prog :=
  .dyn fun s =>
    if devBad s a 8 then .all [devReadEffect a 8, log]
    else
      let r := counterSum (devWord s a) v
      .all [devReadEffect a 8, agentWrite a (wordBytes r.1), if r.2 then clampEntry p va v serial else .done]

/-- An add to a counter in a team's scratchpad. DEDUCED (log entry 90): no add fills a granule, a counter step of a copy engine neither, since
R238 names what sets granules full. -/
def counterAddSp (p tid a : Nat) (va v : Word) (serial : Option Nat) (log : Prog) : Prog :=
  .dyn fun s =>
    match s.team? tid with
    | none => .done
    | some t =>
      if spBad t a 8 then .all [.change (spRead tid a 8), log]
      else
        let r := counterSum (spWord t a) v
        .all [.change (spRead tid a 8), spWriteLogged false tid a (wordBytes r.1), if r.2 then clampEntry p va v serial else .done]

/-- The checks on the address of a counter (R278, R280). -/
def counterCheck (i : Instr) (sp : Bool) (need : Need) (s : State) (g : Group) (a : Word) : Option Report :=
  firstSome [
    if sp then offCheck i s g 8 [(0, a.toInt)] else none,
    alignCheck i 8 [(0, a)],
    if sp then none else transCheck i s g 8 need [(0, a)]]

/-- The one piece of a counter access. -/
def counterPieces (sp : Bool) (need : Need) (s : State) (g : Group) (a : Word) : List Piece :=
  if sp then [⟨a.toNat, 8, false, false⟩] else piecesOf s g 8 need a

/-- sig.add (R278): a release; in device memory it counts as outstanding. -/
def planSigAdd (h : Hdr) (f : UR) : Plan :=
  let i := Instr.sigAdd h f
  let sp := f.fn.getLsbD 0
  let eb := f.fn.getLsbD 4
  {
    acts := .group
    srcs := [.s f.sa.toNat eb, .s f.sb.toNat eb]
    cls := some 3
    store := true
    atomic := true
    counts := !sp
    closes := fun _ _ _ => true
    touches := fun s g eff => if eff = 0 || sp then [] else touchesOf s g 8 needRW [(0, g.s f.sa.toNat)]
    check := fun s g eff =>
      let a := g.s f.sa.toNat
      let v := g.s f.sb.toNat
      if eff = 0 then none else firstSome [
        if 0xFFFFFFFF < v.toNat then some ⟨.counter, 1, 0, 0, a, v, 0⟩ else none,
        counterCheck i sp needRW s g a]
    effect := fun s g _ => .change fun t =>
      let a := g.s f.sa.toNat
      let t := if sp then t else countOne g.gid (installAll g 8 needRW [(0, a)] t)
      addReqs [{ newReq s g 0 3 sp (counterPieces sp needRW s g a) (.sigAdd (g.s f.sb.toNat) a) with rel := true, counted := !sp }] t }

/-- The meaning of SIG_ADD. -/
def execSigAdd (h : Hdr) (f : UR) : State → Host.Outcome State Fault Refusal :=
  runPlan (.sigAdd h f) h (planSigAdd h f)

/-- A sig.add is performed (R278): in device memory it then awaits its acknowledgement (R49). DEDUCED (log entry 90): an uncorrectable counter
word stays as it is, with an UNCORR entry of reason 7. -/
def sigAddAt (r : Req) : Prog :=
  match r.op, r.pieces with
  | .sigAdd v va, p :: _ =>
    let log := logReq r ⟨.uncorr, 7, 0, 0, BitVec.ofNat 64 p.addr, 0, 0⟩
    .dyn fun s => .all [
      if r.sp then counterAddSp r.part r.team p.addr va v (s.serialOf r.launch) log
      else counterAddDev r.part p.addr va v (s.serialOf r.launch) log,
      .change fun s => if r.sp then finishReq r.id s else s.modReq r.id fun q => { q with phase := .done }]
  | _, _ => .done

/-- wait.ge at issue (R280): it claims a wait-table entry and holds the group. -/
def planWaitGe (h : Hdr) (f : UR) : Plan :=
  let i := Instr.waitGe h f
  let sp := f.fn.getLsbD 0
  let eb := f.fn.getLsbD 5
  {
    acts := .group
    srcs := [.s f.sa.toNat eb, .s f.sb.toNat eb]
    cls := some 3
    wt := fun _ _ eff => eff != 0
    touches := fun s g eff => if eff = 0 || sp then [] else touchesOf s g 8 needR [(0, g.s f.sa.toNat)]
    check := fun s g eff => if eff = 0 then none else counterCheck i sp needR s g (g.s f.sa.toNat)
    effect := fun s g _ => .change fun t =>
      let a := g.s f.sa.toNat
      let t := if sp then t else installAll g 8 needR [(0, a)] t
      addReqs [{ newReq s g 0 3 sp (counterPieces sp needR s g a) (.waitGe (g.s f.sb.toNat) (f.fn.getLsbD 1)) with acq := true, wt := true }]
        (t.modGrp g.gid fun h => { h with hold := .wait }) }

/-- The meaning of WAIT_GE. -/
def execWaitGe (h : Hdr) (f : UR) : State → Host.Outcome State Fault Refusal :=
  runPlan (.waitGe h f) h (planWaitGe h f)

/-- Watches in use at a slice (R282). -/
def watchesAt (s : State) (slice : Nat) : Nat :=
  s.reqs.countP fun q => q.watch && q.isParked && (q.pieces.head?.map fun p => homeSlice p.addr) == some slice

/-- A wait reads its counter and arms, in one action (R280): it is satisfied at once, parks, or, at a slice whose 128 watches are in
use, is refused and comes again 64 cc later (R282). -/
def waitAt (r : Req) : Prog :=
  .dyn fun s =>
    match r.op, r.pieces with
    | .waitGe target _, p :: _ =>
      let v := if r.sp then ((s.team? r.team).map fun t => spUnitWord s t p.addr).getD 0 else unitWord s p.addr
      .all [
        if r.sp then .change (spRead r.team p.addr 8) else devReadEffect p.addr 8,
        .change fun s =>
          if r.drop then finishReq r.id s
          else if target.toNat ≤ v.toNat then unpark r.gid (finishReq r.id s)
          else if !r.sp && 128 ≤ watchesAt s (homeSlice p.addr) then
            s.modReq r.id fun q => { q with phase := .rearm (s.now + 64), wt := false }
          else park r.id (fun q => { q with watch := !r.sp }) s]
    | _, _ => .done

/-! ### Fences -/

/-- fence (R295): instructions that it holds are not ready. -/
def planFence (f : UR) : Plan :=
  {
    acts := .group
    effect := fun s g _ => .change fun t => t.modGrp g.gid fun h => { h with fences := h.fences ++ [((f.fn.extractLsb' 3 2).toNat, s.seq)] } }

/-- The meaning of FENCE. -/
def execFence (h : Hdr) (f : UR) : State → Host.Outcome State Fault Refusal :=
  runPlan (.fence h f) h (planFence f)

/-- xfence (R298). -/
def planXfence (f : UR) : Plan :=
  {
    acts := .group
    effect := fun s g _ => .change fun t => t.modGrp g.gid fun h =>
      { h with xfences := h.xfences ++ [((f.fn.extractLsb' 0 3).toNat, (f.fn.extractLsb' 3 3).toNat, s.seq)] } }

/-- The meaning of XFENCE. -/
def execXfence (h : Hdr) (f : UR) : State → Host.Outcome State Fault Refusal :=
  runPlan (.xfence h f) h (planXfence f)

end Sys2Proof.Machine
end

