-- ==== Sys2Proof/Machine/Fetch.lean ====
section
/-! DEFINITION. Instruction fetch (R22, R64 to R70): what a group finds at its pc, demand fills with their code tags, prefetches,
translation walks for `pf` (R230, R248), pass-over (R123) and reserved majors (R105). -/

namespace Sys2Proof.Machine

/-- A word of code as a group finds it: the word, a line that is not there yet, or a cause. -/
inductive CodeWord where
  | word (w : Word)
  | wait (line : Nat)
  | cause (r : Report)
  deriving DecidableEq, Repr

/-- The kernel header of a group. -/
def codeHdr (s : State) (g : Group) : Option KHeader := (s.launch? g.launch).map Launch.hdr

/-- An address lies in the kernel's code range (R22). -/
def inCode (h : KHeader) (va : Nat) : Bool := h.codebase ≤ va && va < h.codebase + h.codelen

/-- The line of a level-1 cache that holds an address (R64). -/
def iline? (s : State) (core asid va : Nat) : Option ILine :=
  s.ilines.find? fun i => i.die == dieOfCore core && i.asid == asid && i.va == va / 128 * 128 && i.mask.getLsbD (core % 48)

/-- The word of code at an address (R22, R64, R69): a group that waited on a fill takes what the fill found. DESIGN CHOICE (log entry 70): a
PROT of the word itself carries no instruction, so its `b` is 0. -/
def codeWord (s : State) (g : Group) (va : Nat) : CodeWord :=
  match codeHdr s g with
  | none => .cause ⟨.prot, 7, 0, 0, BitVec.ofNat 64 va, 0, 0⟩
  | some h =>
    if !inCode h va then .cause ⟨.prot, 7, 0, 0, BitVec.ofNat 64 va, 0, 0⟩
    else match s.fillFaults.find? fun f => f.gid == g.gid && f.va == va / 128 * 128 with
      | some f => .cause f.report
      | none => match iline? s g.core (s.part g.part).asidbase va with
        | some i => .word (devWord s (i.pa + va % 128))
        | none => .wait (va / 128 * 128)

/-- What a group fetches at its pc. -/
inductive Fetched where
  | instr (i : Instr)
  | wait (line : Nat)
  | cause (r : Report)
  deriving DecidableEq, Repr

/-- Decoding of the words that were fetched; a rejection raises ILLEGAL (R74). -/
def decodeFetched (width : Nat) (w0 w1 : Word) : Fetched :=
  match decodeWords width w0 w1 with
  | .instr i => .instr i
  | .reject r => .cause ⟨.illegal, r.item, 0, 0, w0, w1, 0⟩

/-- PROT at an extension word names the instruction's first word (R75, R360). -/
def Report.ofExt (w0 : Word) (r : Report) : Report := if r.cause == .prot then { r with b := w0 } else r

/-- The fetch of a group's next instruction (R71, R93). -/
def fetch (s : State) (g : Group) : Fetched :=
  match codeWord s g g.pc with
  | .cause r => .cause r
  | .wait l => .wait l
  | .word w0 =>
    if isLong w0 then
      match codeWord s g (g.pc + 8) with
      | .cause r => .cause (r.ofExt w0)
      | .wait l => .wait l
      | .word w1 => decodeFetched g.width w0 w1
    else decodeFetched g.width w0 0

/-- A group takes the fault of a fill (R69). -/
def takeFillFault (gid : Nat) (s : State) : State := { s with fillFaults := s.fillFaults.filter fun f => f.gid != gid }

/-- The group waits on a demand fill of a line (R69). -/
def askFill (g : Group) (line : Nat) (s : State) : State :=
  let f : Fill := ⟨dieOfCore g.core, g.core, g.gid, line⟩
  if s.fills.contains f then s else { s with fills := s.fills ++ [f] }

/-- What happens in place of an instruction that could not be fetched. -/
def fetchProg (g : Group) (f : Fetched) : Prog :=
  match f with
  | .instr _ => .done
  | .wait l => .change (askFill g l)
  | .cause r => .all [.change (takeFillFault g.gid), raise g.gid r]

/-- The group may fetch: it is resident, its team is not being discarded, it waits for nothing, and its refusal time has passed. -/
def mayFetch (s : State) (g : Group) : Bool :=
  g.life == .resident && s.placed g && g.hold == .none && g.retryAt ≤ s.now && g.live != 0

/-! ### Fills -/

/-- The set of a level-1 line (R64): 128 sets, by the virtual address of the line. DESIGN CHOICE (log entry 69): the low bits of its number. -/
def set1 (va : Nat) : Nat := va / 128 % 128

/-- The set of a line of the instruction level (R65): 65,536 lines in 16 ways make 4,096 sets, by the physical address (log entry 69). -/
def set2 (pa : Nat) : Nat := pa / 128 % 4096

/-- The line that leaves a full set of some ways; which one is left open. -/
def victimOf (ways : Nat) (s : State) (held : List ILine) : Option Nat :=
  if held.length < ways then none else (held[Config.victim s.fresh % held.length]?).map ILine.pa

/-- The level-1 line is held by one more core (R65); a full set of its 8 ways drops a line (R64). -/
def holdLine (die core pa : Nat) (s : State) : State :=
  let bit : BitVec 48 := BitVec.ofNat 48 (2 ^ (core % 48))
  match s.ilines.find? fun i => i.die == die && i.pa == pa with
  | none => s
  | some l =>
    let held := s.ilines.filter fun i => i.die == die && i.mask &&& bit != 0 && i.pa != pa && set1 i.va == set1 l.va
    let victim := victimOf 8 s held
    { s with
      fresh := s.fresh + 1
      ilines := s.ilines.map fun i =>
        if i.die != die then i
        else if i.pa == pa then { i with mask := i.mask ||| bit }
        else if some i.pa == victim then { i with mask := i.mask &&& ~~~bit }
        else i }

/-- A line enters a die's instruction level and its presence bit is set (R65, R66); a full set of its 16 ways drops a line. DESIGN CHOICE
(log entry 68): a line that is checked again under another address or identifier leaves the level-1 caches that held it. -/
def installLine (die pa va asid : Nat) (s : State) : State :=
  let victim := victimOf 16 s (s.ilines.filter fun i => i.die == die && i.pa != pa && set2 i.pa == set2 pa)
  let rest := s.ilines.filter fun i => !(i.die == die && (i.pa == pa || some i.pa == victim))
  { s with ilines := ⟨die, pa, va, asid, 0⟩ :: rest, presC := presSet s.presC pa die, fresh := s.fresh + 1 }

/-- What a fill finds: a good line, with the physical address and whether it must be installed, or a report (R69). -/
inductive FillResult where
  | good (pa : Nat) (install : Bool)
  | bad (r : Report)
  deriving DecidableEq, Repr

/-- X. -/
def needX : Need := { x := true }

/-- The tag word's address of a line (R22). -/
def tagVa (codebase tagbase line : Nat) : Nat := tagbase + 8 * ((line - codebase) / 128)

/-- A fetch fault of translation: the outcome plus 0x10 (R360). -/
def fetchFault (o va : Nat) : Report := ⟨transCause o, o + 0x10, 0, 0, BitVec.ofNat 64 va, 0, 0⟩

/-- The instruction level of a die holds a physical line as checked under an address and the partition's identifier (R65). -/
def checkedLine (s : State) (die part pa line : Nat) : Bool :=
  s.ilines.any fun i => i.die == die && i.pa == pa && i.va == line && i.asid == (s.part part).asidbase

/-- The fill of a line: translation, the check of R65 under which the line was checked, and otherwise the tag (R68, R69). DESIGN CHOICE (log
entry 7): a fill reads the bytes and the tag word as they stand when it is performed (R67). -/
def fillLine (s : State) (die core part line codebase tagbase : Nat) : FillResult :=
  match translate s die (some core) part (BitVec.ofNat 64 line) needX with
  | .fail o => .bad (fetchFault o line)
  | .ok pa _ =>
    let asid := (s.part part).asidbase
    if checkedLine s die part pa line then .good pa false
    else
      let tv := tagVa codebase tagbase line
      match translate s die (some core) part (BitVec.ofNat 64 tv) needX with
      | .fail o => .bad (fetchFault o tv)
      | .ok ta _ =>
        let bytes := (List.range 16).flatMap fun k => wordBytes (unitWord s (pa + 8 * k))
        let stored := unitWord s ta
        let tag := codeTag (s.part part).codeKey bytes line asid
        if stored == tag then .good pa true
        else .bad ⟨.codeauth, 0, 0, 0, BitVec.ofNat 64 line, stored, tag⟩

/-- The addresses that a fill translates: its line, and the tag word where the line must be checked. -/
def fillVas (s : State) (die core part line codebase tagbase : Nat) : List Nat :=
  match translate s die (some core) part (BitVec.ofNat 64 line) needX with
  | .fail _ => [line]
  | .ok pa _ => if checkedLine s die part pa line then [line] else [line, tagVa codebase tagbase line]

/-- The table words that a fill's walks read. -/
def fillWalks (s : State) (die core part line codebase tagbase : Nat) : List Nat :=
  (fillVas s die core part line codebase tagbase).flatMap fun va => transReads s die (some core) part (BitVec.ofNat 64 va) needX

/-- The words of the line and of its tag that a fill reads. -/
def fillReads (s : State) (die core part line codebase tagbase : Nat) : List Nat :=
  match translate s die (some core) part (BitVec.ofNat 64 line) needX,
    translate s die (some core) part (BitVec.ofNat 64 (tagVa codebase tagbase line)) needX with
  | .ok pa _, .ok ta _ => if checkedLine s die part pa line then [] else ((List.range 16).map fun k => pa + 8 * k) ++ [ta]
  | _, _ => []

/-- The translations of a fill enter the caches (R230). -/
def installCode (die core part : Nat) (vas : List Nat) (s : State) : State :=
  vas.foldl (fun s va => match translate s die (some core) part (BitVec.ofNat 64 va) needX with
    | .ok _ e => installLeaf (some core) { e with die := die } s
    | .fail _ => s) s

/-- A demand fill of a die (R69): the groups that wait on the line hold it, or will take its cause when they would issue from it; the
next line is then asked for (R70). It waits while a slice that it reads takes no work (R383, R405). DESIGN CHOICE (log entry 67): the
groups of a partition that wait on one line of a die share one fill, made with the first group's core, code base and tag array. -/
def demandFill (die : Nat) : Prog :=
  .dyn fun s =>
    match s.fills.find? fun f => f.die == die with
    | none => .done
    | some f =>
      match (s.grp? f.gid).bind fun g => (codeHdr s g).map fun h => (g, h) with
      | none => .change fun s => { s with fills := s.fills.filter (· != f) }
      | some (g, h) =>
        let waiting := s.fills.filter fun x => x.die == die && x.va == f.va && ((s.grp? x.gid).map Group.part) == some g.part
        let res := fillLine s die f.core g.part f.va h.codebase h.tagbase
        let walks := fillWalks s die f.core g.part f.va h.codebase h.tagbase
        let data := fillReads s die f.core g.part f.va h.codebase h.tagbase
        let vas := fillVas s die f.core g.part f.va h.codebase h.tagbase
        let cores := (waiting.map Fill.core).eraseDups
        if !awakeWords s (walks ++ data) then .done
        else .all [
          readTables s die walks,
          touchWords s data,
          .change fun s =>
            let s := installCode die f.core g.part vas { s with fills := s.fills.filter fun x => !waiting.contains x }
            let s := match res with
              | .bad r => { s with fillFaults := s.fillFaults ++ (waiting.map fun x => ⟨x.gid, f.va, r⟩) }
              | .good pa install =>
                let s := if install then installLine die pa f.va (s.part g.part).asidbase s else s
                cores.foldl (fun s c => holdLine die c pa s) s
            let next := f.va + 128
            if inCode h next then
              { s with prefetches := s.prefetches ++ (cores.map fun c => ⟨die, c, g.part, next, h.codebase, h.codebase + h.codelen, h.tagbase⟩) }
            else s]

/-- INSTRUCTION_FILL (R69). -/
def execInstructionFill (die : Nat) (s : State) : Host.Outcome State Fault Refusal := commit s (demandFill die)

/-- A prefetch of a die: a check or translation that fails installs nothing and raises nothing (R70). -/
def prefetchLine (die : Nat) : Prog :=
  .dyn fun s =>
    match s.prefetches.find? fun p => p.die == die with
    | none => .done
    | some p =>
      let rest := fun (s : State) => { s with prefetches := s.prefetches.erase p }
      let walks := fillWalks s die p.core p.part p.va p.lo p.tagbase
      let data := fillReads s die p.core p.part p.va p.lo p.tagbase
      if (iline? s p.core (s.part p.part).asidbase p.va).isSome then .change rest
      else if !awakeWords s (walks ++ data) then .done
      else
        .all [
          readTables s die walks,
          touchWords s data,
          match fillLine s die p.core p.part p.va p.lo p.tagbase with
          | .bad _ => .change rest
          | .good pa install => .change fun s =>
            let s := installCode die p.core p.part (fillVas s die p.core p.part p.va p.lo p.tagbase) (rest s)
            holdLine die p.core pa (if install then installLine die pa p.va (s.part p.part).asidbase s else s)]

/-- SEQUENTIAL_PREFETCH (R70). -/
def execSequentialPrefetch (die : Nat) (s : State) : Host.Outcome State Fault Refusal := commit s (prefetchLine die)

/-- A walk that `pf` asked for (R230, R248): a good leaf enters the caches, any other outcome drops it. -/
def prefetchWalk (die : Nat) : Prog :=
  .dyn fun s =>
    match s.walks.find? fun p => p.die == die with
    | none => .done
    | some p =>
      let va := BitVec.ofNat 64 p.va
      let walks := transReads s die (some p.core) p.part va needR
      if !awakeWords s walks then .done
      else .all [
        readTables s die walks,
        .change fun s =>
          let s := { s with walks := s.walks.erase p }
          match translate s die (some p.core) p.part va needR with
          | .ok _ e => installLeaf (some p.core) { e with die := die } s
          | .fail _ => s]

/-- TRANSLATION_WALK (R228, R230). -/
def execTranslationWalk (die : Nat) (s : State) : Host.Outcome State Fault Refusal := commit s (prefetchWalk die)

/-! ### Pass-over -/

/-- An instruction of the C format (R92, R103). -/
def isCFormat (i : Instr) : Bool :=
  match majorOf i with
  | 0xB0 => true
  | 0xB1 => true
  | 0xB2 => true
  | 0xB3 => true
  | 0xB5 => true
  | 0xB6 => true
  | 0xB7 => true
  | 0xB8 => true
  | 0xB9 => true
  | 0xE0 => true
  | _ => false

/-- ILLEGAL of a reserved major (R74 item 1, R105). -/
def reservedReport (w : Word) : Report := ⟨.illegal, 1, 0, 0, w, 0, 0⟩

/-- A group in pass-over goes over one instruction outside the C format (R123); a control instruction after it is not one that a taken
transfer reached (R133). -/
def passOne (gid : Nat) : Prog :=
  .dyn fun s =>
    match s.grp? gid with
    | none => .done
    | some g =>
      if !mayFetch s g || !g.po || g.active != 0 then .done
      else match fetch s g with
        | .instr (.reservedMajor w) => raise gid (reservedReport w)
        | .instr i => if isCFormat i then .done else .change fun s => s.modGrp gid fun h => { h with pc := h.pc + instrSize i, taken := false }
        | f => fetchProg g f

/-- PASS_OVER (R123). -/
def execPassOver (group : Nat) (s : State) : Host.Outcome State Fault Refusal := commit s (passOne group)

/-- A reserved major decodes and raises ILLEGAL (R105). -/
def execReservedMajor (w : Word) (s : State) : Host.Outcome State Fault Refusal :=
  match s.issuing with
  | none => .fault .noGroup
  | some g => commit s (if mayFetch s g then raise g.gid (reservedReport w) else .done)

end Sys2Proof.Machine
end

