-- ==== Sys2Proof/Machine/Admit.lean ====
section
/-! DEFINITION. Launches up to their class queues: records, descriptors, kernel headers and the checks of R31, command queues (R35 to
R38), `launch` and its port (R40 to R44), class queues (R45), the Slipway's atomics and hand-offs (R291 to R294). -/

namespace Sys2Proof.Machine

/-! ### The readiness map (R404, R405) -/

/-- Traffic of a configured partition's endpoints reaches the device (R395, R405). -/
def reachesPart (s : State) (p : Nat) : Bool := portReady s && (s.part p).state != .none

/-- Every slice that a request reaches next is ready and awake (R383, R405). -/
def served (s : State) (r : Req) : Bool :=
  r.sp || r.pieces.all fun p => awakeAt s p.addr

/-! ### Kernel headers and partition words -/

/-- The fields of a partition word (R56). -/
structure PartWord where
  regu : Nat
  spu : Nat
  tiles : Nat
  tmax : Nat
  deriving DecidableEq, Repr

/-- Reading a partition word. -/
def PartWord.of (w : BitVec 32) : PartWord :=
  ⟨(w.extractLsb' 24 8).toNat, (w.extractLsb' 16 8).toNat, (w.extractLsb' 11 5).toNat, (w.extractLsb' 4 7).toNat⟩

/-- Accumulator units of a team (R56). -/
def PartWord.acc (p : PartWord) : Nat := (p.tiles + 1) / 2

/-- A valid partition word (R57). -/
def partWordOk (w : BitVec 32) : Bool :=
  let p := PartWord.of w
  w.extractLsb' 0 4 == 0 && 16 ≤ p.regu && p.regu ≤ 192 && p.spu ≤ 176 && p.tiles ≤ 16 && 1 ≤ p.tmax && p.tmax ≤ 96
    && p.regu + p.tmax * (p.spu + p.acc) ≤ 192

/-- The conditions of R31 that a header meets or fails, 4 to 8. -/
def headerFail (ws : List Word) : Option Nat :=
  let w := fun k => ws.getD k 0
  let codelen := bitsOf (w 0) 0 32
  let entry := bitsOf (w 2) 32 32
  let peak := bitsOf (w 3) 32 16
  let entryfp := bitsOf (w 3) 16 16
  firstSome [
    if bitsOf (w 0) 48 16 != 0x5A4B || bitsOf (w 0) 40 8 != 1 then some 4 else none,
    if bitsOf (w 0) 32 2 == 3 || bitsOf (w 0) 34 6 != 0 || bitsOf (w 1) 52 12 != 0 || bitsOf (w 3) 48 16 != 0 || bitsOf (w 3) 0 16 != 0
        || bitsOf (w 4) 52 12 != 0 || bitsOf (w 6) 5 59 != 0 || w 7 != 0 || 16 < bitsOf (w 6) 0 5 then some 5 else none,
    if codelen % 128 != 0 || codelen < 128 || 2 ^ 24 < codelen || bitsOf (w 1) 0 7 != 0 || entry % 8 != 0 || codelen ≤ entry
        || bitsOf (w 4) 0 3 != 0 then some 6 else none,
    if 264 < entryfp || peak < 1 || 1023 < peak || peak < entryfp then some 7 else none,
    if !partWordOk ((w 2).setWidth 32) then some 8 else none]

/-- A header read (R20). -/
def headerOf (ws : List Word) : KHeader :=
  let w := fun k => ws.getD k 0
  { width := 16 * 2 ^ bitsOf (w 0) 32 2
    codebase := bitsOf (w 1) 0 52
    codelen := bitsOf (w 0) 0 32
    entry := bitsOf (w 2) 32 32
    partword := (w 2).setWidth 32
    peak := bitsOf (w 3) 32 16
    entryfp := bitsOf (w 3) 16 16
    tagbase := bitsOf (w 4) 0 52
    argtags := w 5
    argc := bitsOf (w 6) 0 5 }

/-- Tag `i` of a word of tags. -/
def argTag (tags : Word) (i : Nat) : Nat := bitsOf tags (4 * i) 4

/-- The tags of the arguments pass R24. -/
def tagsPass (supplied declared : Word) (argc : Nat) : Bool :=
  (List.range argc).all fun i =>
    let a := argTag supplied i
    let b := argTag declared i
    a < 13 && b < 13 && (a == b || a == 0 || b == 0)

/-- Groups of a team that stand on each of its cores (R18, R62): of G groups, those below G/2 on side 0. -/
def groupSplit (teamSize width : Nat) : List Nat :=
  let n := teamSize / width
  if teamSize ≤ 1536 then [n] else [(n + 1) / 2, n / 2]

/-- The partition holds a pair. -/
def Part.holdsPair (q : Part) : Bool := q.pairs != 0

/-- The team can never be placed (R31 reason 11). -/
def neverPlaced (q : Part) (h : KHeader) (teamSize : Nat) : Bool :=
  let regu := (PartWord.of h.partword).regu
  !q.holdsPair || (groupSplit teamSize h.width).any fun n => regu * 1024 < (n * h.entryfp + (if n = 0 then 0 else h.peak)) * (h.width / 16)

/-- What a source asks for, before its kernel header is read. -/
structure Request where
  header : Word
  teams : Nat
  teamSize : Nat
  cls : Nat
  donectr : Nat
  argc : Nat
  argtags : Word
  args : List Word
  deriving DecidableEq, Repr

/-- Words that the device reads at a virtual address of a partition, where it translates and no word is uncorrectable. DESIGN CHOICE (log entry
85): the translation is made at C-die 0. -/
def readVa (s : State) (p : Nat) (va : Word) (n : Nat) : Option (List Word) :=
  match translate s 0 none p va needR with
  | .ok pa _ => if devBad s pa (8 * n) then none else some ((List.range n).map fun k => devWord s (pa + 8 * k))
  | .fail _ => none

/-- The table words that a kernel header's translation reads, and the words of the header. DESIGN CHOICE (log entry 85): at C-die 0. -/
def headerReads (s : State) (p : Nat) (header : Word) : List Nat × List Nat :=
  (transReads s 0 none p header needR,
    match translate s 0 none p header needR with
    | .ok pa _ => (List.range 8).map fun k => pa + 8 * k
    | .fail _ => [])

/-- Words that a launch's checks read leave what a read leaves (R231, R369). -/
def readProg (s : State) (rd : List Nat × List Nat) : Prog := .all [readTables s 0 rd.1, touchWords s rd.2]

/-- The checks of a launch read these words, once every slice of them takes work (R383, R405); then it goes on. -/
def reading (s : State) (rd : List Nat × List Nat) (k : Prog) : Prog :=
  if awakeWords s (rd.1 ++ rd.2) then .all [readProg s rd, k] else .done

/-- Conditions 4 to 11 of R31: the launch that may enter its queue, or the reason that fails. -/
def checkRequest (s : State) (p : Nat) (source : Source) (task : Nat) (r : Request) : Except Nat Launch :=
  match readVa s p r.header 8 with
  | none => .error 4
  | some ws =>
    match headerFail ws with
    | some n => .error n
    | none =>
      let h := headerOf ws
      if r.teams = 0 || r.teamSize = 0 || 3072 < r.teamSize || r.teamSize % h.width != 0 then .error 9
      else if r.argc != h.argc || !tagsPass r.argtags h.argtags h.argc then .error 10
      else if neverPlaced (s.part p) h r.teamSize then .error 11
      else .ok {
        lid := 0
        part := p
        serial := none
        cls := r.cls
        source := source
        task := task
        hdr := h
        teams := r.teams
        teamSize := r.teamSize
        args := (r.args ++ List.replicate 16 0).take h.argc
        donectr := r.donectr
        next := 0
        retired := 0
        ended := false }

/-! ### Descriptors -/

/-- The address of a descriptor (R27). -/
def descAddr (s : State) (p task : Nat) : Nat := (s.part p).tasktab + 32 * task

/-- The words of a descriptor. -/
def descWords (s : State) (p task : Nat) : List Nat := (List.range 4).map fun k => descAddr s p task + 8 * k

/-- A descriptor read whole (R29). -/
def readDesc (s : State) (p task : Nat) : List Word := (descWords s p task).map (unitWord s)

/-- A descriptor breaks R28, or is not valid (R31 reason 2). -/
def descBad (d : List Word) : Bool :=
  let w := fun k => d.getD k 0
  !(w 0).getLsbD 63 || bitsOf (w 0) 60 3 != 0 || bitsOf (w 0) 52 6 != 0 || bitsOf (w 0) 0 6 != 0 || 16 < bitsOf (w 1) 59 5
    || bitsOf (w 1) 44 15 != 0 || bitsOf (w 1) 20 12 != 0 || bitsOf (w 3) 52 12 != 0 || bitsOf (w 3) 0 3 != 0

/-- prio of a descriptor. -/
def descPrio (d : List Word) : Nat := bitsOf (d.getD 0 0) 58 2

/-- teams of a descriptor. -/
def descTeams (d : List Word) : Nat := bitsOf (d.getD 1 0) 0 20

/-- teamsize of a descriptor. -/
def descSize (d : List Word) : Nat := bitsOf (d.getD 1 0) 32 12

/-- argc of a descriptor. -/
def descArgc (d : List Word) : Nat := bitsOf (d.getD 1 0) 59 5

/-- Conditions 2 and 3 of R31 on a launch by task number. -/
def taskFail (s : State) (p task : Nat) (d : List Word) : Option Nat :=
  if (s.part p).taskcount ≤ task || descBad d then some 2
  else if (s.part p).tstop then some 3
  else none

/-- What a descriptor asks for (R28, R30), with the source's team count, class, tags and words. -/
def descRequest (d : List Word) (teams : Nat) (cls : Option Nat) (tags : Word) (args : List Word) : Request where
  header := (d.getD 0 0).extractLsb' 0 52 |>.setWidth 64
  teams := if teams = 0 then descTeams d else teams
  teamSize := descSize d
  cls := cls.getD (descPrio d)
  donectr := bitsOf (d.getD 3 0) 0 52
  argc := descArgc d
  argtags := tags
  args := args.take (descArgc d)

/-! ### Class queues -/

/-- A LAUNCH entry (R360). DEDUCED (log entry 29): it names no group, that of a failing `launch` neither. -/
def launchReport (src : Source) (task reason : Nat) : Report :=
  let c := fun (slice : Nat) => BitVec.ofNat 64 (slice * 2 ^ 32 + task)
  match src with
  | .command tag => ⟨.launch, reason, 0, tag, 0, 0, c 0x1FF⟩
  | .group => ⟨.launch, reason, 1, 0, 0, 0, c 0x1FF⟩
  | .slipway slice va old => ⟨.launch, reason, 2, 0, va, old, c slice⟩
  | .bin slice _ _ => ⟨.launch, reason, 3, 0, 0, 0, c slice⟩

/-- A launch fails: its entry is written (R31). -/
def launchFails (p : Nat) (src : Source) (task reason : Nat) : Prog := logEntry p (launchReport src task reason)

/-- A class queue holds 1,024 launches (R45). -/
def classFull (s : State) (p cls : Nat) : Bool :=
  1024 ≤ (((s.part p).queues.getD cls []).countP fun e => match e with
    | .launch _ => true
    | .team _ => false)

/-- The launches of a partition that are held at their source for a place in a class queue, each with its place in the order of sources:
command queue, `launch`, Slipway, Moorings (R45). -/
def heldLaunches (s : State) (p : Nat) : List (Nat × Launch) :=
  let tag := fun (k : Nat) (x : Option Launch) => x.map fun l => (k, l)
  (tag 0 (s.part p).cmdHeld).toList ++ (s.ports.filterMap fun e => if e.part == p then tag 1 e.held else none)
    ++ (s.starts.filterMap fun x => if x.part == p then tag 2 x.held else none)
    ++ s.binLaunches.filterMap fun x => if x.part == p then tag 3 x.held else none

/-- A new launch of a class is held at its source: the queue is full, or an earlier one is held for it (R45). -/
def mustWait (s : State) (p cls : Nat) : Bool := classFull s p cls || (heldLaunches s p).any fun h => h.2.cls == cls

/-- A held launch may enter: a place is free, and no source before its own holds a launch of the class (R45). -/
def mayEnter (s : State) (rank : Nat) (l : Launch) : Bool :=
  !classFull s l.part l.cls && (heldLaunches s l.part).all fun h => h.2.cls != l.cls || rank ≤ h.1

/-- A launch enters the tail of its class queue (R45) and takes its serial number (R359). -/
def enterQueue (l : Launch) (s : State) : State :=
  let q := s.part l.part
  let l := { l with lid := s.nextId, serial := some q.entered }
  let s := { s with launches := s.launches ++ [l], nextId := s.nextId + 1 }
  s.modPart l.part fun q => { q with
    entered := q.entered + 1
    queues := q.queues.modify l.cls fun es => es ++ [.launch l.lid] }

/-! ### Command queues (R35 to R38) -/

/-- The kinds of a command (R36); a non-zero res0 makes it reserved. -/
def commandKind (w0 : Word) : Nat :=
  let k := bitsOf w0 56 8
  if bitsOf w0 32 24 != 0 || 4 < k then 0 else k

/-- The bytes that a command requires (R35). -/
def commandNeeds (payload : List Byte) : Nat :=
  if (payload.getD 7 0).toNat = 1 then
    40 + (if payload.length < 24 then 0 else 8 * ((payload.getD 23 0).toNat / 8))
  else 8

/-- The place of the next free slot of a command queue (R35). -/
def nextSlot (q : Part) : Nat := q.cmdq + 256 * ((q.cmdHead + q.cmdCount) % 128)

/-- A send arrives at a command endpoint (R35): resource-busy while the partition resets or no slot is free; a send of a wrong length
is acknowledged and dropped. DESIGN CHOICE (log entry 71): its entry carries as tag the send's low four bytes, or 0 where the send does not
hold word 0, and task 0. -/
def commandSend (p : Nat) (payload : List Byte) : Prog :=
  .dyn fun s =>
    let q := s.part p
    let say := fun (m : HostMsg) => Prog.change fun s => { s with outbox := s.outbox ++ [m] }
    let tag : BitVec 32 := if payload.length < 8 then 0 else BitVec.ofNat 32 (bytesNat (payload.take 4))
    if q.state == .resetting || 128 ≤ q.cmdCount then say (.busy p)
    else if s.mgmt.stopped then .done
    else if 256 < payload.length || payload.length < commandNeeds payload then
      .all [say (.accepted p), launchFails p (.command tag) 0 1]
    else if !awake s (nextSlot q) payload.length then .done
    else
      .all [
        agentWrite (nextSlot q) payload,
        .change fun s => s.modPart p fun q => { q with cmdCount := q.cmdCount + 1 },
        say (.accepted p)]

/-- COMMAND_SEND_ARRIVAL (R35). -/
def execCommandSendArrival (p : Nat) (payload : List Byte) (s : State) : Host.Outcome State Fault Refusal :=
  commit s (if reachesPart s p then commandSend p payload else .done)

/-- The words of the slot at the head of a queue. -/
def slotWords (s : State) (p : Nat) : List Nat := (List.range 32).map fun k => (s.part p).cmdq + 256 * (s.part p).cmdHead + 8 * k

/-- The words of the command at the head of a queue. -/
def headCommand (s : State) (p : Nat) : List Word := (slotWords s p).map (unitWord s)

/-- The head's slot is free again (R38). -/
def freeSlot (p : Nat) (s : State) : State :=
  s.modPart p fun q => { q with cmdHead := (q.cmdHead + 1) % 128, cmdCount := q.cmdCount - 1 }

/-- The device may take the command at the head of a queue, and it is of this kind (R37); after a critical shutdown it takes none (R408). -/
def mayTake (s : State) (p kind : Nat) : Bool :=
  let q := s.part p
  q.state == .running && !s.mgmt.stopped && q.cmdCount != 0 && q.cmdHeld.isNone && awakeWords s (slotWords s p) && commandKind ((headCommand s p).getD 0 0) == kind

/-- A command at the head is taken. -/
def takeCommand (p kind : Nat) (act : List Word → Prog) : Prog :=
  .dyn fun s => if mayTake s p kind then .all [touchWords s (slotWords s p), act (headCommand s p)] else .done

/-- A record breaks R25 (R31 reason 1). -/
def recordBad (r : List Word) : Bool :=
  let w := fun k => r.getD k 0
  let kind := bitsOf (w 0) 60 4
  (kind != 1 && kind != 2) || bitsOf (w 0) 52 6 != 0 || 16 < bitsOf (w 1) 59 5 || bitsOf (w 1) 44 15 != 0 || bitsOf (w 1) 20 12 != 0
    || bitsOf (w 2) 52 12 != 0 || bitsOf (w 2) 0 3 != 0
    || (kind == 1 && bitsOf (w 0) 0 6 != 0) || (kind == 2 && (bitsOf (w 0) 16 36 != 0 || bitsOf (w 1) 32 12 != 0))

/-- The task number that a record names, for its entry (R360). DESIGN CHOICE (log entry 71): a record that names none gives 0. -/
def recordTask (r : List Word) : Nat := if bitsOf (r.getD 0 0) 60 4 = 2 then bitsOf (r.getD 0 0) 0 16 else 0

/-- The words that the checks of a record read: a descriptor, and a kernel header. -/
def recordReads (s : State) (p : Nat) (r : List Word) : List Nat × List Nat :=
  if recordBad r then ([], [])
  else if bitsOf (r.getD 0 0) 60 4 == 2 then
    let task := recordTask r
    let d := readDesc s p task
    if (s.part p).taskcount ≤ task then ([], [])
    else
      let h := if (taskFail s p task d).isSome then ([], []) else headerReads s p (d.getD 0 0 &&& 0xFFFFFFFFFFFFF)
      (h.1, descWords s p task ++ h.2)
  else headerReads s p (r.getD 0 0 &&& 0xFFFFFFFFFFFFF)

/-- The checks of R31 on a record. DESIGN CHOICE (log entry 72): a record that names a task brings its own donectr and argument tags. -/
def checkRecord (s : State) (p : Nat) (src : Source) (r : List Word) : Except Nat Launch :=
  let w := fun k => r.getD k 0
  let task := recordTask r
  if recordBad r then .error 1
  else
    let d := readDesc s p task
    let byTask := bitsOf (w 0) 60 4 == 2
    match if byTask then taskFail s p task d else none with
    | some n => .error n
    | none =>
      let argc := bitsOf (w 1) 59 5
      let q : Request := {
        header := if byTask then (d.getD 0 0).extractLsb' 0 52 |>.setWidth 64 else (w 0).extractLsb' 0 52 |>.setWidth 64
        teams := bitsOf (w 1) 0 20
        teamSize := if byTask then descSize d else bitsOf (w 1) 32 12
        cls := bitsOf (w 0) 58 2
        donectr := bitsOf (w 2) 0 52
        argc := if byTask && descArgc d != argc then 31 else argc
        argtags := w 3
        args := (r.drop 4).take argc }
      checkRequest s p src task q

/-- LAUNCH_COMMAND (R36, R37, R45): the launch enters its class queue, fails, or is held in its slot. -/
def execLaunchCommand (p : Nat) (s : State) : Host.Outcome State Fault Refusal :=
  commit s (takeCommand p 1 fun ws => .dyn fun s =>
    let src := Source.command ((ws.getD 0 0).setWidth 32)
    let r := ws.drop 1
    reading s (recordReads s p r) (match checkRecord s p src r with
    | .error n => .all [launchFails p src (recordTask r) n, .change (freeSlot p)]
    | .ok l =>
      if mustWait s p l.cls then .change fun s => s.modPart p fun q => { q with cmdHeld := some l }
      else .change fun s => freeSlot p (enterQueue l s)))

/-- STOP_TASK_TABLE (R37). -/
def execStopTaskTable (p : Nat) (s : State) : Host.Outcome State Fault Refusal :=
  commit s (takeCommand p 2 fun _ => .change fun s => freeSlot p (s.modPart p fun q => { q with tstop := true }))

/-- RESTART_TASK_TABLE (R37). -/
def execRestartTaskTable (p : Nat) (s : State) : Host.Outcome State Fault Refusal :=
  commit s (takeCommand p 3 fun _ => .change fun s => freeSlot p (s.modPart p fun q => { q with tstop := false }))

/-- RESERVED_COMMAND (R36). DESIGN CHOICE (log entry 71): its entry carries task 0. -/
def execReservedCommand (p : Nat) (s : State) : Host.Outcome State Fault Refusal :=
  commit s (takeCommand p 0 fun ws => .all [launchFails p (.command ((ws.getD 0 0).setWidth 32)) 0 1, .change (freeSlot p)])

/-! ### launch and the launch port (R40 to R44) -/

/-- A partition may take one more of `total` places, of which it and the others are assured a share (R43, R293). -/
def mayClaim (s : State) (total p : Nat) (used : Nat → Nat) : Bool :=
  let n := max s.partCount 1
  let sure := total / n
  let others := (s.parts.filter fun q => q.state != .none && q.num != p).map fun q => sure - used q.num
  let free := total - ((List.range 8).map used).foldl (· + ·) 0
  others.foldl (· + ·) 0 + 1 ≤ free

/-- Entries of a die's launch port that a partition holds. -/
def portUsed (s : State) (die p : Nat) : Nat := s.ports.countP fun e => e.die == die && e.part == p

/-- The registers of the argument window (R41). -/
def launchWindow (f : UR) : List Nat :=
  if f.sb = 0 then [] else (List.range 16).map (f.sb.toNat + ·) |>.filter (· ≤ 63)

/-- launch (R41, R42): it takes a port entry, or is refused. -/
def planLaunch (h : Hdr) (f : UR) : Plan :=
  let i := Instr.launch h f
  let eb := f.fn.getLsbD 26
  {
    acts := .group
    srcs := .s f.sa.toNat eb :: (launchWindow f).map fun r => .s r eb
    dsts := [.s f.sd.toNat]
    cls := some 6
    launches := true
    tq := true
    closes := fun _ _ _ => true
    check := fun _ g eff =>
      let st := g.s f.sa.toNat
      if eff != 0 && bitsOf st 38 26 != 0 then some (addrReport .bound i 0 st) else none
    effect := fun s g _ => .change fun t =>
      let st := g.s f.sa.toNat
      let die := dieOfCore g.core
      if !mayClaim t 64 g.part (portUsed t die) then t.modGrp g.gid fun h => h.setS s.now f.sd.toNat 1
      else
        let e : PortEntry := {
          id := t.nextId
          die := die
          part := g.part
          gid := g.gid
          launch := g.launch
          team := g.team
          seq := s.seq
          task := bitsOf st 0 16
          teams := bitsOf st 16 20
          clsSel := (f.fn.extractLsb' 27 2).toNat
          cls := bitsOf st 36 2
          sa := f.sb.toNat
          window := (launchWindow f).map g.s
          sd := f.sd.toNat
          pc := g.pc
          drop := false
          held := none }
        { t.modGrp g.gid fun h => h.emptyS f.sd.toNat with ports := t.ports ++ [e], nextId := t.nextId + 1 } }

/-- The meaning of LAUNCH. -/
def execLaunch (h : Hdr) (f : UR) : State → Host.Outcome State Fault Refusal :=
  runPlan (.launch h f) h (planLaunch h f)

/-- The answer of a `launch`. -/
def portAnswer (e : PortEntry) (v : Nat) (s : State) : State :=
  let s := { s with ports := s.ports.filter fun x => x.id != e.id }
  if e.drop then s else s.modGrp e.gid fun g => g.setS s.now e.sd (BitVec.ofNat 64 v)

/-- The checks of a port entry (R42). -/
def checkPort (s : State) (e : PortEntry) : Except Nat Launch :=
  let d := readDesc s e.part e.task
  match taskFail s e.part e.task d with
  | some n => .error n
  | none =>
    let own := ((s.launch? e.launch).map Launch.cls).getD 0
    let cls := match e.clsSel with
      | 1 => some e.cls
      | 2 => some own
      | _ => none
    match checkRequest s e.part .group e.task (descRequest d e.teams cls (d.getD 2 0) e.window) with
    | .error n => .error n
    | .ok l => if e.sa != 0 && 63 < e.sa + descArgc d - 1 then .error 10 else .ok l

/-- The words that the checks of a port entry read (R42). -/
def portReads (s : State) (e : PortEntry) : List Nat × List Nat :=
  let d := readDesc s e.part e.task
  if (s.part e.part).taskcount ≤ e.task then ([], [])
  else
    let h := if (taskFail s e.part e.task d).isSome then ([], []) else headerReads s e.part (d.getD 0 0 &&& 0xFFFFFFFFFFFFF)
    (h.1, descWords s e.part e.task ++ h.2)

/-- The port entry that a die hands over next (R43): entries whose launch waits for a place stay, and a later entry of the same group
waits behind them (R44). -/
def nextPort (s : State) (die : Nat) : Option PortEntry :=
  s.ports.find? fun e => e.die == die && e.held.isNone && !(s.ports.any fun x => x.gid == e.gid && x.seq < e.seq)

/-- An earlier write of the group, or an acquiring access, has not been performed: the child would not see what it must (R44). Plain loads do
not hold a launch. DEDUCED (log entry 33). -/
def State.pendingForChild (s : State) (gid seq : Nat) : Bool :=
  s.reqs.any fun r => r.gid == gid && r.seq < seq && (r.cls == 0 || r.cls == 3) && r.pending && (r.writes || r.acq)

/-- LAUNCH_PORT_HANDOFF (R42 to R45): it waits until what the child must see is performed (R44). -/
def execLaunchPortHandoff (die : Nat) (s : State) : Host.Outcome State Fault Refusal :=
  commit s (.dyn fun s =>
    match nextPort s die with
    | none => .done
    | some e =>
      if s.pendingForChild e.gid e.seq then .done
      else if (s.part e.part).state == .resetting then .change (portAnswer { e with drop := true } 0)
      else reading s (portReads s e) (match checkPort s e with
        | .error n => .all [launchFails e.part .group e.task n, .change (portAnswer e (n * 256 + 1))]
        | .ok l =>
          if mustWait s e.part l.cls then
            .change fun s => { s with ports := s.ports.map fun x => if x.id == e.id then { x with held := some l } else x }
          else .change fun s => portAnswer e 0 (enterQueue l s)))

/-! ### Continuation atomics at their slice (R291 to R294) -/

/-- Slipway slots of a slice that a partition holds. -/
def slipUsed (s : State) (slice p : Nat) : Nat := s.starts.countP fun x => x.slice == slice && x.part == p

/-- cond of `atc` on the new word and y (R291). -/
def atcCond (type cond : Nat) (x y : Word) : Bool :=
  let t := BitVec.ofNat 4 type
  let w := opW t
  let sg := isSigned t
  condInt cond (readInt sg w (elemNat w x 0)) (readInt sg w (elemNat w y 0))

/-- The old value as `atc` returns it (R291). -/
def atcOld (type : Nat) (old : Word) : Word := widenU (BitVec.ofNat 4 type) old

/-- Words that a descriptor read meets as uncorrectable make the slice's check see free values; a word that the atomic meets so is
refused. -/
def atcAnswer (r : Req) (vt sst : Nat) (old : Word) (fired : Bool) (reason status : Nat) (s : State) : State :=
  let v := BitVec.ofNat 64 ((if fired then 65536 else 0) + 256 * reason + status)
  let s := if r.drop then s else s.modGrp r.gid fun g => (g.setS s.now vt old).setS s.now sst v
  finishReq r.id s

/-- A continuation atomic is performed (R291). -/
def atcPerform (r : Req) : Prog :=
  .dyn fun s =>
    match r.op, r.pieces with
    | .atc aop cond type x y arg tk va vt sst, p :: _ =>
      let slice := homeSlice p.addr
      let task := bitsOf tk 0 16
      let d := readDesc s r.part task
      let n := if bitsOf tk 16 20 = 0 then descTeams d else bitsOf tk 16 20
      let src := fun (old : Word) => Source.slipway slice va old
      if (s.part r.part).state == .resetting then .change (atcAnswer r vt sst 0 false 0 4)
      else if !mayClaim s 64 r.part (slipUsed s slice) then .change (atcAnswer r vt sst 0 false 0 1)
      else if !awakeWords s (descWords s r.part task) then .done
      else if descSize d = 0 || 3072 < descSize d || n = 0 then
        .all [
          touchWords s (descWords s r.part task),
          launchFails r.part (src 0) task 9,
          .change (atcAnswer r vt sst 0 false 9 1)]
      else if devBad s p.addr p.len then
        .all [
          touchWords s (descWords s r.part task),
          devReadEffect p.addr p.len,
          logReq r ⟨.uncorr, 7, 0, 0, BitVec.ofNat 64 p.addr, 0, 0⟩,
          .change (atcAnswer r vt sst 0 false 16 1)]
      else
        let w := opW (BitVec.ofNat 4 type)
        let old := BitVec.ofNat 64 (bytesNat (devBytes s p.addr p.len))
        let new := atomicNew aop type old x y
        let c := if aop = 8 then cutTo w old == cutTo w y else atcCond type cond new y
        let oldR := atcOld type old
        .all [
          touchWords s (descWords s r.part task),
          devReadEffect p.addr p.len,
          agentWrite p.addr (natBytes p.len new.toNat),
          .change fun s =>
            let s := atcAnswer r vt sst oldR c 0 0 s
            if c then
              let st : Start := {
                id := s.nextId
                slice := slice
                part := r.part
                task := task
                teams := n
                cls := if tk.getLsbD 38 then some (bitsOf tk 36 2) else none
                desc := d
                args := [oldR, va, arg]
                source := src oldR
                held := none }
              { s with starts := s.starts ++ [st], nextId := s.nextId + 1 }
            else s]
    | _, _ => .done

/-- ATC_SLICE_PERFORM (R291). -/
def execAtcSlicePerform (req : Nat) (s : State) : Host.Outcome State Fault Refusal :=
  commit s (.dyn fun s =>
    match s.reqs.find? fun r => r.id == req with
    | some r => if canPerform s r && served s r then (match r.op with
        | .atc .. => atcPerform r
        | _ => .done) else .done
    | none => .done)

/-- The checks of a Slipway start at hand-off (R294): the descriptor it read, and the task table. -/
def checkStart (s : State) (x : Start) : Except Nat Launch :=
  match taskFail s x.part x.task x.desc with
  | some n => .error n
  | none => checkRequest s x.part x.source x.task (descRequest x.desc x.teams x.cls 0 x.args)

/-- The words that the checks of a start read: its descriptor has been read already (R291). -/
def startReads (s : State) (x : Start) : List Nat × List Nat :=
  if (taskFail s x.part x.task x.desc).isSome then ([], []) else headerReads s x.part (x.desc.getD 0 0 &&& 0xFFFFFFFFFFFFF)

/-- The first start of a partition at a slice (R293). -/
def nextStart (s : State) (slice p : Nat) : Option Start := s.starts.find? fun x => x.slice == slice && x.part == p

/-- A Slipway slot is freed. -/
def dropStart (id : Nat) (s : State) : State := { s with starts := s.starts.filter fun x => x.id != id }

/-- SLIPWAY_HANDOFF (R293, R294): a start that waits for a place holds the later ones of its partition behind it. -/
def execSlipwayHandoff (slice p : Nat) (s : State) : Host.Outcome State Fault Refusal :=
  commit s (.dyn fun s =>
    match nextStart s slice p with
    | none => .done
    | some x =>
      if x.held.isSome || (s.part p).state == .resetting then .done
      else reading s (startReads s x) (match checkStart s x with
        | .error n => .all [launchFails p x.source x.task n, .change (dropStart x.id)]
        | .ok l =>
          if mustWait s p l.cls then
            .change fun s => { s with starts := s.starts.map fun y => if y.id == x.id then { y with held := some l } else y }
          else .change fun s => dropStart x.id (enterQueue l s)))

end Sys2Proof.Machine
end

