-- ==== Sys2Proof/Machine/Place.lean ====
section
/-! DEFINITION. Placement of teams (R46 to R48, R58 to R63, R107), pre-emption by discard and restore (R47, R373 to R377),
acknowledgements (R49, R50) and retirement (R386). -/

namespace Sys2Proof.Machine

/-! ### Engines' shares -/

/-- The engine of a pair; an idle one where none is recorded. -/
def engineOf (s : State) (pair : Nat) : MxEngine := (s.engines.find? fun e => e.pair == pair).getD ⟨pair, [none, none, none, none], 3, [], []⟩

/-- Changes the engine of a pair. -/
def modEngine (pair : Nat) (f : MxEngine → MxEngine) (s : State) : State :=
  { s with engines := f (engineOf s pair) :: s.engines.filter fun e => e.pair != pair }

/-- Free shares of an engine (R260). -/
def freeShares (s : State) (pair : Nat) : Nat := (engineOf s pair).wheel.countP fun w => w.isNone

/-- Gives `n` free wheel positions, lowest first, to a team. -/
def fillWheel (tid : Nat) : Nat → List (Option Nat) → List (Option Nat)
  | _, [] => []
  | 0, ws => ws
  | n + 1, none :: ws => some tid :: fillWheel tid n ws
  | n, some t :: ws => some t :: fillWheel tid n ws

/-- A team receives shares (R254, R260). -/
def grantShares (tid pair n : Nat) (s : State) : State :=
  (modEngine pair (fun e => { e with wheel := fillWheel tid n e.wheel }) s).modTeam tid fun t => { t with shares := n }

/-- An engine without a team's positions. -/
def dropShare (tid : Nat) (e : MxEngine) : MxEngine :=
  { e with
    wheel := e.wheel.map fun w => if w == some tid then none else w
    rot := e.rot.filter fun r => r.1 != tid
    old := e.old.filter fun o => e.wheel.getD o.1 none != some tid }

/-- A team's shares return to the engine (R261). -/
def dropShares (tid : Nat) (s : State) : State :=
  ({ s with engines := s.engines.map (dropShare tid) }).modTeam tid fun t => { t with shares := 0 }

/-- The pair of a placed team. -/
def teamPair (t : Team) : Nat := pairOfCore (t.cores.headD 0)

/-! ### A team about to be placed -/

/-- What placement needs to know of a team: its launch, its kernel, for each group to be placed its `group_id` and the slices it takes at
once, and the shares that the team held. -/
structure Incoming where
  launch : Nat
  hdr : KHeader
  teamSize : Nat
  foots : List (Nat × Nat)
  shares : Nat
  deriving DecidableEq, Repr

/-- A new team of a launch. -/
def incomingNew (l : Launch) : Incoming :=
  ⟨l.lid, l.hdr, l.teamSize, (List.range (l.teamSize / l.hdr.width)).map fun k => (k, l.hdr.entryfp * (l.hdr.width / 16)), 0⟩

/-- A discarded team: only its groups that have not exited are placed, and the registers of a group's saved entry map may exceed its entry
footprint (R50, R376). -/
def incomingSaved (s : State) (l : Launch) (t : Team) : Incoming :=
  let foot := fun (k : Nat) => (s.groups.find? fun g => g.team == t.tid && g.groupId == k && g.life == .saved).map fun g =>
    (k, max l.hdr.entryfp g.ent.length * (l.hdr.width / 16))
  ⟨l.lid, l.hdr, l.teamSize, (List.range (l.teamSize / l.hdr.width)).filterMap foot, t.shares⟩

/-- The groups that stand on each of the team's cores: those with a `group_id` below G/2 on side 0 (R62). -/
def Incoming.halves (n : Incoming) : List (List (Nat × Nat)) :=
  let low := fun (x : Nat × Nat) => decide (2 * x.1 < n.teamSize / n.hdr.width)
  if n.teamSize ≤ 1536 then [n.foots] else [n.foots.filter low, n.foots.filter fun x => !low x]

/-- The team stands on its cores (R58). -/
def Team.stands (t : Team) : Bool := t.status == .placed || t.status == .restoring || t.status == .discarding

/-- A core holds its word while a team placed on it has not retired, or a register on it waits for a landing write (R58). -/
def coreBusy (s : State) (core : Nat) : Bool :=
  (s.teams.any fun t => t.cores.contains core && t.stands)
    || s.groups.any fun g => g.core == core && g.life == .gone && g.pregs.any fun r => r.pend != 0

/-- The partition word in force on a core (R58). -/
def coreWord (s : State) (core : Nat) : Option (BitVec 32) := if coreBusy s core then s.coreWords.lookup core else none

/-- Teams on a core (R58). -/
def coreTeams (s : State) (core : Nat) : Nat := s.teams.countP fun t => t.cores.contains core && t.stands

/-- Resident groups of a core. -/
def coreGroups (s : State) (core : Nat) : List Group := s.groups.filter fun g => g.core == core && g.life == .resident

/-- Resident threads of a core (R62). -/
def coreThreads (s : State) (core : Nat) : Nat := ((coreGroups s core).map Group.width).foldl (· + ·) 0

/-- Launches whose counters are bound on a core (R50). -/
def boundLaunches (s : State) (core : Nat) : List Nat :=
  (((s.launchCtrs.filter fun c => c.1 == core).map fun c => c.2.1) ++ (coreGroups s core).map Group.launch).eraseDups

/-- The quadrant for a group: most thread capacity left, lowest on a tie (R63); `occ` lists (quadrant, slot, width). -/
def chooseQuadrant (occ : List (Nat × Nat × Nat)) (width : Nat) : Option Nat :=
  let used := fun (q : Nat) => ((occ.filter fun o => o.1 == q).map fun o => o.2.2).foldl (· + ·) 0
  let count := fun (q : Nat) => occ.countP fun o => o.1 == q
  let ok := (List.range 4).filter fun q => used q + width ≤ 384 && count q < 24
  ok.foldl (fun (b : Option Nat) q => match b with
    | none => some q
    | some p => if used q < used p then some q else some p) none

/-- Quadrants and slots for `n` groups (R63); which free slot of the quadrant is left open. -/
def chooseSlots (fresh width : Nat) : Nat → List (Nat × Nat × Nat) → Option (List (Nat × Nat))
  | 0, _ => some []
  | n + 1, occ =>
    match chooseQuadrant occ width with
    | none => none
    | some q =>
      let free := (List.range 24).filter fun k => !(occ.any fun o => o.1 == q && o.2.1 == k)
      let slot := free.getD (Config.slotPick (fresh + n) % free.length) 0
      (chooseSlots fresh width n ((q, slot, width) :: occ)).map fun l => (q, slot) :: l

/-- Places taken on a core. -/
def coreOccupied (s : State) (core : Nat) : List (Nat × Nat × Nat) := (coreGroups s core).map fun g => (g.quadrant, g.slot, g.width)

/-- A core takes some groups (R46, R50, R58, R61, R63, R405). -/
def coreFits (s : State) (core : Nat) (n : Incoming) (foots : List (Nat × Nat)) : Bool :=
  let pw := PartWord.of n.hdr.partword
  let word := coreWord s core
  let bound := boundLaunches s core
  let gs := coreGroups s core
  let unit := n.hdr.width / 16
  let slices := pw.regu * 1024
  let reserve := max (coreReserve s core) (if foots.isEmpty then 0 else n.hdr.peak * unit)
  pairReady s (pairOfCore core)
    && (word.isNone || word == some n.hdr.partword)
    && coreTeams s core < pw.tmax
    && (bound.contains n.launch || bound.length < 32)
    && gs.length + foots.length ≤ 96
    && (chooseSlots 0 n.hdr.width foots.length (coreOccupied s core)).isSome
    && (foots.map Prod.snd).foldl (· + ·) 0 + reserve + coreUsed s core ≤ slices

/-- The shares that a team held can be granted again (R254). -/
def sharesFit (s : State) (pair : Nat) (n : Incoming) : Bool := n.shares ≤ freeShares s pair

/-- The cores, or the pair's two cores, that may take a team in partition `q`, with their resident threads (R62). -/
def places (s : State) (q : Part) (n : Incoming) : List (List Nat × Nat) :=
  let pairs := (List.range 96).filter fun p => q.pairs.getLsbD p
  match n.halves with
  | [one] =>
    (pairs.flatMap fun p => [2 * p, 2 * p + 1]).filterMap fun c =>
      if coreFits s c n one && sharesFit s (pairOfCore c) n then some ([c], coreThreads s c) else none
  | [a, b] =>
    pairs.filterMap fun p =>
      if coreFits s (2 * p) n a && coreFits s (2 * p + 1) n b && sharesFit s p n then
        some ([2 * p, 2 * p + 1], coreThreads s (2 * p) + coreThreads s (2 * p + 1))
      else none
  | _ => []

/-- The first of the least loaded places (R62). -/
def bestPlace (ps : List (List Nat × Nat)) : Option (List Nat) :=
  (ps.foldl (fun (b : Option (List Nat × Nat)) x => match b with
    | none => some x
    | some y => if x.2 < y.2 then some x else some y) none).map Prod.fst

/-! ### New teams -/

/-- A group at its first instruction (R23, R107). -/
def newGroup (gid tid : Nat) (l : Launch) (k core quadrant slot now : Nat) : Group :=
  let pc := l.hdr.codebase + l.hdr.entry
  let m := laneMask l.hdr.width
  let preds : List PredReg := List.replicate 64 ⟨0, some 0⟩
  let depths := List.replicate 64 0
  { gid := gid
    team := tid
    launch := l.lid
    part := l.part
    groupId := k
    width := l.hdr.width
    core := core
    quadrant := quadrant
    slot := slot
    life := .resident
    hold := .none
    pc := pc
    active := m
    live := m
    dead := 0
    sregs := ⟨0, some 0, false⟩ :: ((l.args.map fun a => ⟨a, some 0, false⟩) ++ List.replicate (63 - l.args.length) ⟨0, some 0, false⟩)
    preds := preds
    cur := []
    ent := []
    pregs := []
    nextPid := 0
    resv := l.hdr.entryfp
    stack := []
    sig := 0xFFFF
    taken := false
    po := false
    poFirst := false
    depths := depths
    fflags := 0
    replays := 0
    regionStart := pc
    regionFresh := true
    regionReads := []
    sigFailed := false
    ckpt := ⟨preds, [], m, m, 0xFFFF, depths, false, false, false⟩
    outst := 0
    fences := []
    xfences := []
    retryAt := 0
    stamp := now
    admitted := now }

/-- A team as it is placed (R59, R236, R264). -/
def newTeam (tid : Nat) (l : Launch) (cores : List Nat) : Team where
  tid := tid
  launch := l.lid
  part := l.part
  teamId := l.next
  cores := cores
  status := .placed
  sp := []
  empties := []
  spSyn := []
  tiles := List.replicate (PartWord.of l.hdr.partword).tiles ⟨0, []⟩
  mxflags := 0
  stall := 0
  barRel := List.replicate 8 0
  barArr := []
  shares := 0
  owed := []

/-- The cores adopt the team's word (R58). -/
def adoptWord (cores : List Nat) (w : BitVec 32) (s : State) : State :=
  { s with coreWords := (cores.map fun c => (c, w)) ++ s.coreWords.filter fun x => !cores.contains x.1 }

/-- The core, quadrant and slot of each group that is placed, by its `group_id` (R63). -/
def seats (s : State) (n : Incoming) (cores : List Nat) : List (Nat × Nat × Nat × Nat) :=
  (cores.zip n.halves).flatMap fun ch =>
    ((ch.2.map Prod.fst).zip ((chooseSlots s.fresh n.hdr.width ch.2.length (coreOccupied s ch.1)).getD [])).map fun x => (x.1, ch.1, x.2)

/-- The next team of a launch is placed; its queue entry leaves with its last team (R45). -/
def placeNew (p : Nat) (l : Launch) (cores : List Nat) (s : State) : State :=
  let tid := s.nextId
  let n := incomingNew l
  let at_ := seats s n cores
  let gs := at_.map fun x => newGroup (tid + 1 + x.1) tid l x.1 x.2.1 x.2.2.1 x.2.2.2 s.now
  let s := adoptWord cores l.hdr.partword s
  let s := { s with
    teams := s.teams ++ [newTeam tid l cores]
    groups := s.groups ++ gs
    nextId := tid + 1 + gs.length
    fresh := s.fresh + gs.length }
  let s := s.modLaunch l.lid fun l => { l with next := l.next + 1 }
  if l.next + 1 = l.teams then
    s.modPart p fun q => { q with queues := q.queues.modify l.cls fun es => es.filter fun e => e != .launch l.lid }
  else s

/-! ### Restore (R376) -/

/-- An owed `.fe` load is issued again for its lanes: one instruction in the order of issue, with one scoreboard entry, one wait-table entry
and its conflict cost (R236, R258, R281, R374, R376). -/
def reissueFe (gid : Nat) (os : List OwedFe) (s : State) : State :=
  match s.grp? gid, os with
  | some g, o :: _ =>
    let s1 := spIssue s g o.len false (os.map fun o => (o.lane, (o.addr : Int))) s
    addReqs (os.map fun o =>
      { newReq s g o.lane 0 true [⟨o.addr, o.len, false, false⟩] (.fe (.lane o.pids o.lane) o.size o.signed o.take) with wt := true })
      { s1 with seq := s.seq + 1 }
  | _, _ => s

/-- The wait tables of some cores and the scoreboard of their pair hold what stands in them (R258, R281). -/
def tablesHold (cores : List Nat) (s : State) : Bool :=
  cores.all fun c => waitTable s c ≤ 64 && s.scores.countP (fun e => e.pair == pairOfCore c) ≤ 64

/-- A load that a placed team owes is issued again where the tables of its cores take it, and is owed still where they do not. -/
def reissueOwed (t : Team) (a : State × List (Nat × OwedFe)) (k : Nat × Nat) : State × List (Nat × OwedFe) :=
  let mine := t.owed.filter fun o => o.1 == k.1 && o.2.load == k.2
  let s := reissueFe k.1 (mine.map Prod.snd) a.1
  if tablesHold t.cores s then (s, a.2) else (a.1, a.2 ++ mine)

/-- The loads that a placed team owes are issued again, in order; its groups issue once none is owed (R376). DESIGN CHOICE (log entry 73): a
load that finds no free entry of a wait table or of the scoreboard waits for one. -/
def reissueAll (t : Team) (s : State) : State :=
  let r := ((t.owed.map fun o => (o.1, o.2.load)).eraseDups).foldl (reissueOwed t) (s, [])
  r.1.modTeam t.tid fun t => { t with owed := r.2, status := if r.2.isEmpty then .placed else .restoring }

/-- Restoring teams of a partition go on issuing the loads that they owe (R376). -/
def restoreTeams (p : Nat) (s : State) : State :=
  (s.teams.filter fun t => t.part == p && t.status == .restoring).foldl (fun s t => reissueAll t s) s

/-- A discarded team is placed again: its groups take new places and `replays` grows (R376). -/
def placeSaved (p : Nat) (l : Launch) (t : Team) (cores : List Nat) (s : State) : State :=
  let n := incomingSaved s l t
  let at_ := seats s n cores
  let s := adoptWord cores l.hdr.partword s
  let s := { s with
    groups := s.groups.map fun (g : Group) =>
      if g.team == t.tid && g.life == Life.saved then
        match at_.lookup g.groupId with
        | some (c, q, k) =>
          { g with
            life := .resident
            core := c
            quadrant := q
            slot := k
            resv := max l.hdr.entryfp g.ent.length
            replays := g.replays + 1
            outst := 0
            retryAt := 0
            stamp := s.now
            admitted := s.now }
        | none => g
      else g
    fresh := s.fresh + at_.length }
  let s := s.modTeam t.tid fun t => { t with cores := cores }
  let s := if t.shares = 0 then s else grantShares t.tid (pairOfCore (cores.headD 0)) t.shares s
  let s := reissueAll { t with cores := cores } s
  s.modPart p fun q => { q with queues := q.queues.modify l.cls fun es => es.filter fun e => e != .team t.tid }

/-- A reply that was written while the team was away takes effect (R367). -/
def takeStoredReplies (tid : Nat) (s : State) : State :=
  let gs := s.groups.filter fun g => g.team == tid
  gs.foldl (fun s g => match g.hold with
    | .replied v => takeReply g.gid v s
    | _ => s) s

/-! ### Choosing (R46, R47) -/

/-- The team at the head of a class queue. -/
inductive Head where
  | fresh (l : Launch)
  | saved (l : Launch) (t : Team)
  deriving DecidableEq, Repr

/-- What a queue entry stands for. -/
def headOf (s : State) (e : QEntry) : Option Head :=
  match e with
  | .launch lid => (s.launch? lid).map .fresh
  | .team tid => match s.team? tid with
    | some t => (s.launch? t.launch).map fun l => .saved l t
    | none => none

/-- What placement needs to know of it. -/
def Head.incoming (s : State) : Head → Incoming
  | .fresh l => incomingNew l
  | .saved l t => incomingSaved s l t

/-- Resident teams of classes below `c` on some cores, in the order in which they would be discarded (R47 item 1). DEDUCED (log entry 87): a
team whose groups have all exited is none of them. -/
def victims (s : State) (p c : Nat) (cores : List Nat) : List Team :=
  let cls := fun (t : Team) => ((s.launch? t.launch).map Launch.cls).getD 0
  let before := fun (a b : Team) =>
    cls a < cls b || (cls a == cls b && (b.launch < a.launch || (a.launch == b.launch && b.teamId ≤ a.teamId)))
  (s.teams.filter fun t => t.part == p && (t.status == .placed || t.status == .restoring) && cls t < c && (t.cores.any fun x => cores.contains x)
    && (s.groups.any fun g => g.team == t.tid && g.life == .resident)).mergeSort before

/-- The state as if some teams had been discarded. -/
def without (ts : List Team) (s : State) : State :=
  let tids := ts.map Team.tid
  let s := tids.foldl (fun s t => dropShares t s) s
  { s with
    teams := s.teams.filter fun t => !tids.contains t.tid
    groups := s.groups.filter fun g => !tids.contains g.team }

/-- How many of the listed teams must be discarded before the head fits (R47 item 2); `k` have been tried. -/
def discardsNeeded (fits : State → Bool) (s : State) (vs : List Team) : Nat → Option Nat
  | 0 => none
  | n + 1 =>
    let k := vs.length - n
    if fits (without (vs.take k) s) then some k else discardsNeeded fits s vs n

/-- The teams chosen for discard (R47). -/
def chooseDiscards (s : State) (p c : Nat) (n : Incoming) : List Team :=
  let pairs := (List.range 96).filter fun x => (s.part p).pairs.getLsbD x
  let sites : List (List Nat) := if n.teamSize ≤ 1536 then pairs.flatMap fun x => [[2 * x], [2 * x + 1]] else pairs.map fun x => [2 * x, 2 * x + 1]
  let fits := fun (cores : List Nat) (s : State) =>
    ((cores.zip n.halves).all fun ch => coreFits s ch.1 n ch.2) && sharesFit s (pairOfCore (cores.headD 0)) n
  let cands := sites.filterMap fun cores =>
    let vs := victims s p c cores
    (discardsNeeded (fits cores) s vs vs.length).map fun k => (k, vs.take k)
  ((cands.foldl (fun (b : Option (Nat × List Team)) x => match b with
    | none => some x
    | some y => if x.1 < y.1 then some x else some y) none).map Prod.snd).getD []

/-- One act of admission: the highest class first; the head is placed, or teams below it are chosen for discard, or the next class is
served (R46, R47). -/
def admitFrom (p : Nat) : List Nat → Prog
  | [] => .done
  | c :: cs =>
    .dyn fun s =>
      match (((s.part p).queues.getD c []).head?).bind (headOf s) with
      | none => admitFrom p cs
      | some h =>
        let n := h.incoming s
        match bestPlace (places s (s.part p) n) with
        | some cores =>
          (match h with
          | .fresh l => .change (placeNew p l cores)
          | .saved l t =>
            if Config.saveLost s.fresh then
              .all [logEntry p ⟨.preempt, 1, 0, 0, 0, 0, 0⟩ l.serial, .change (endLaunch l.lid)]
            else .change fun s => takeStoredReplies t.tid (placeSaved p l t cores s))
        | none =>
          let busy := s.teams.any fun t => t.part == p && t.status == .discarding
          let ds := if busy then [] else chooseDiscards s p c n
          if ds.isEmpty then admitFrom p cs
          else .change fun s => ds.foldl (fun s t => s.modTeam t.tid fun t => { t with status := .discarding }) s

/-- TEAM_PLACEMENT (R46, R47, R376): none after a critical shutdown (R408). -/
def execTeamPlacement (p : Nat) (s : State) : Host.Outcome State Fault Refusal :=
  commit s (if (s.part p).state == .running && !s.mgmt.stopped then .all [.change (restoreTeams p), admitFrom p [3, 2, 1, 0]] else .done)

/-! ### Discard (R373 to R375) -/

/-- A request that a discard waits for: it owes an answer (R373 item 2), or it is a `.fe` lane or a wait on its way to where it will be
performed or park (R301). -/
def Req.owesAnswer (r : Req) : Bool :=
  match r.op with
  | .atomic .. => true
  | .sigAdd .. => false
  | .load .. => false
  | .fe .. => !r.isParked
  | .store _ => false
  | .waitGe .. => r.phase == .flying
  | .jyPop .. => !r.isParked
  | .fbRed .. => r.phase == .flying
  | .fbBcast .. => r.phase == .flying
  | _ => true

/-- The registers that a request writes. -/
def Req.pids (r : Req) : List Nat :=
  match r.op with
  | .load (.lane ps _) _ _ => ps
  | .fe (.lane ps _) _ _ _ => ps
  | .atomic _ _ _ _ (.lane ps _) => ps
  | _ => []

/-- Some registers with those that their unwritten parts still wait for. -/
def withSources (rs : List PReg) : Nat → List Nat → List Nat
  | 0, ids => ids
  | n + 1, ids => withSources rs n (ids ++ (rs.filterMap fun r => if ids.contains r.id then r.merge.map Prod.fst else none)).eraseDups

/-- A register of the group's region-entry map, or one that supplies lanes of such a register (R373 item 3). -/
def Group.inEntry (g : Group) (pid : Nat) : Bool := (withSources g.pregs g.pregs.length (g.ent.map Prod.snd)).contains pid

/-- A parked `.fe` lane. -/
def Req.parkedFe (r : Req) : Bool := (match r.op with
  | .fe .. => true
  | _ => false) && r.isParked

/-- A `.fe.take` access. -/
def Req.takes (r : Req) : Bool := match r.op with
  | .fe _ _ _ take => take
  | _ => false

/-- A launch counter takes the counts of a team's groups (R50). -/
def counterTakes (s : State) (gs : List Group) (core lid : Nat) : Bool :=
  ctrTakes s core lid (((gs.filter fun g => g.core == core).map Group.outst).foldl (· + ·) 0)

/-- The team can be saved now (R373 items 2 to 4): its launch has not ended (R363). -/
def mayDiscard (s : State) (t : Team) : Bool :=
  let gs := s.groups.filter fun g => g.team == t.tid && g.life == .resident
  let mine := s.reqs.filter fun r => gs.any fun g => g.gid == r.gid
  t.status == .discarding && !((s.launch? t.launch).any Launch.ended)
    && t.cores.all (fun c => counterTakes s gs c t.launch)
    && !(mine.any Req.owesAnswer)
    && !(s.ports.any fun e => gs.any fun g => g.gid == e.gid)
    && !(s.fords.any fun f => gs.any fun g => g.gid == f.gid && !f.answered)
    && !(mine.any fun r => !r.parkedFe && r.pids.any fun p => gs.any fun g => g.gid == r.gid && g.inEntry p)
    && !(s.copies.any fun c => c.team == t.tid) && !(s.mxcmds.any fun c => c.team == t.tid)

/-- What a parked `.fe` lane still owes (R374). -/
def owedOf (r : Req) : Option (Nat × OwedFe) :=
  match r.op, r.pieces with
  | .fe (.lane ps l) size sg take, p :: _ => some (r.gid, ⟨r.seq, p.addr, p.len, ps, l, size, sg, take⟩)
  | _, _ => none

/-- A register stays behind on its core when its group is saved: a load of the region that is given up still has to land in it (R58, R117). -/
def Group.leftBehind (g : Group) : List PReg := (keepMapped [] g.pregs).filter fun r => r.pend != 0 && !g.inEntry r.id

/-- Registers that stay behind for loads in flight, as a group that has ended, with the loads that land in them (R58, R117). -/
def leaveBehind (g : Group) (s : State) : State :=
  if g.leftBehind.isEmpty then s
  else
    let lands := fun (r : Req) => r.gid == g.gid && r.pids.any fun p => !g.inEntry p
    { s with
      groups := s.groups ++ [{ g.leave with gid := s.nextId, pregs := g.leftBehind }]
      reqs := s.reqs.map fun r => if lands r then { r with gid := s.nextId } else r
      nextId := s.nextId + 1 }

/-- The team is saved (R373 item 5, R374, R375): parked lanes of region-entry registers and of takers are recorded, other waits of its
groups are withdrawn, counts move to launch counters, every group stands at its checkpoint, and the team re-enters its class queue at the
head. -/
def saveTeam (t : Team) (s : State) : State :=
  let gs := s.groups.filter fun g => g.team == t.tid && g.life == .resident
  let isMine := fun (r : Req) => gs.any fun g => g.gid == r.gid
  let inEnt := fun (r : Req) => gs.any fun g => g.gid == r.gid && r.pids.any g.inEntry
  let owed := (s.reqs.filter fun r => isMine r && r.parkedFe && (inEnt r || r.takes)).filterMap owedOf
  let gone := fun (r : Req) => isMine r && (match r.op with
    | .waitGe .. => true
    | .fe .. => true
    | .jyPop .. => true
    | _ => false)
  let empties := s.reqs.filter fun r => isMine r && (match r.op with
    | .jyPop .. => true
    | _ => false)
  let cls := ((s.launch? t.launch).map Launch.cls).getD 0
  let s := empties.foldl (fun s r => match r.op with
    | .jyPop _ sd sb _ => s.modGrp r.gid fun g => { ((g.setS s.now sb 0).setS s.now (sb + 1) 0).setS s.now sd 5 with hold := .none }
    | _ => s) s
  let s := gs.foldl (fun s g => addLaunchCtr g.core g.launch g.outst s) s
  let lost := s.reqs.filter fun r => gone r && !(inEnt r)
  let s := lost.foldl (fun s r => match r.op with
    | .fe d size sg _ => deliver r d size sg [] false s
    | _ => s) s
  let s := { s with reqs := s.reqs.filter fun r => !gone r }
  let s := (s.groups.filter fun g => g.team == t.tid && g.life == .resident).foldl (fun s g => leaveBehind g s) s
  let s := { s with
    reqs := s.reqs.map fun r => if isMine r && r.counted then { r with moved := true } else r
    fills := s.fills.filter fun f => !gs.any fun g => g.gid == f.gid
    fillFaults := s.fillFaults.filter fun f => !gs.any fun g => g.gid == f.gid
    groups := s.groups.map fun g =>
      if g.team == t.tid && g.life == .resident then
        let r := g.rollback
        { r with
          life := .saved
          outst := 0
          pregs := (r.pregs.filter fun q => !q.orphan || g.inEntry q.id).map fun q => { q with pend := (owed ++ t.owed).countP fun o => o.1 == g.gid && o.2.pids.contains q.id }
          hold := match g.hold with
            | .bar n => .bar n
            | .page n => .page n
            | .replied v => .replied v
            | .pagePending => .pagePending
            | _ => .none }
      else g }
  let s := settleScores (dropSharesOf t s)
  let s := s.modTeam t.tid fun t => { t with status := .saved, cores := [], owed := owed ++ t.owed }
  s.modPart t.part fun q => { q with queues := q.queues.modify cls fun es => .team t.tid :: es }
where
  /-- The engine's positions are free; the share count is part of the saved state (R254). -/
  dropSharesOf (t : Team) (s : State) : State := (dropShares t.tid s).modTeam t.tid fun u => { u with shares := t.shares }

/-- TEAM_DISCARD_SAVE (R373). -/
def execTeamDiscardSave (team : Nat) (s : State) : Host.Outcome State Fault Refusal :=
  commit s (.dyn fun s =>
    match s.team? team with
    | none => .done
    | some t => if mayDiscard s t then .change (saveTeam t) else .done)

/-! ### Acknowledgements and retirement -/

/-- Groups that held their slots for their launch's counter leave (R50). -/
def leaveLate (core : Nat) (s : State) : State :=
  (s.groups.filter fun g => g.core == core && g.life == .resident && g.live == 0).foldl (fun s g => exitGroup g.gid s) s

/-- An acknowledgement returns (R49, R246): the count falls when every part of the instruction has been acknowledged. -/
def acknowledge (id : Nat) (s : State) : State :=
  match s.reqs.find? fun r => r.id == id with
  | none => s
  | some r =>
    if !(r.phase == .done && r.counted) then s
    else
      let s := finishReq id s
      if s.reqs.any fun o => sameInstr o r && o.counted then s
      else leaveLate r.core (uncountOne r.gid r.core r.launch r.moved s)

/-- ACKNOWLEDGEMENT_RETURN (R49, R50). -/
def execAcknowledgementReturn (req : Nat) (s : State) : Host.Outcome State Fault Refusal := commit s (.change (acknowledge req))

/-- A team retires when its groups have and nothing that it issued is outstanding (R301, R386). -/
def mayRetire (s : State) (t : Team) : Bool :=
  t.stands
    && (s.teamGroups t.tid).all (fun g => g.life == .gone)
    && !(s.copies.any fun c => c.team == t.tid) && !(s.mxcmds.any fun c => c.team == t.tid)
    && s.teamOps t.tid == 0
    && !(s.reqs.any fun r => r.sp && r.team == t.tid && r.undone)

/-- The team retires: its scratchpad, tiles and reservation are free (R261, R386), and nothing of it waits at the banks any more.
DEDUCED (log entry 92): a `.fe` lane that is still parked is withdrawn unperformed. -/
def retireTeam (t : Team) (s : State) : State :=
  let mine := s.reqs.filter fun r => r.sp && r.team == t.tid
  let s := mine.foldl (fun s r => match r.op with
    | .fe d size sg _ => deliver r d size sg [] false s
    | _ => s) s
  let s := settleScores { s with reqs := s.reqs.filter fun r => !(r.sp && r.team == t.tid) }
  let s := (dropShares t.tid s).modTeam t.tid fun t => { t with status := .retired, tiles := [] }
  s.modLaunch t.launch fun l => { l with retired := l.retired + 1 }

/-- TEAM_RETIREMENT (R386). -/
def execTeamRetirement (team : Nat) (s : State) : Host.Outcome State Fault Refusal :=
  commit s (.dyn fun s =>
    match s.team? team with
    | none => .done
    | some t => if mayRetire s t then .change (retireTeam t) else .done)

end Sys2Proof.Machine
end

