-- ==== Sys2Proof/Machine/Engines.lean ====
section
/-! DEFINITION. The copy engine and the matrix engine of a pair (R251 to R274): the issue and acceptance of their commands, the parts
of a copy, K-steps and tile moves, the online-softmax pair, and completion. -/

namespace Sys2Proof.Machine

/-! ### What all engine instructions share (R252, R253) -/

/-- Registers of an operand block as sources; one EB bit covers them all (R252). -/
def blockSrcs (f : UR) (eb : Bool) (ks : List Nat) : List Src := ks.map fun k => .s (f.sa.toNat + k) eb

/-- Item `k` of an operand block. -/
def blk (f : UR) (g : Group) (k : Nat) : Word := g.s (f.sa.toNat + k)

/-- The bytes of the issuing group's scratchpad. -/
def spLimit (s : State) (g : Group) : Nat := groupLimit s g

/-- An entry for a command: it names the group that issued it (R371). -/
def cmdEntry (s : State) (gid launch pc : Nat) (rep : Report) : Entry :=
  match s.grp? gid with
  | some g => groupEntry s g rep pc
  | none => { report := rep, serial := s.serialOf launch }

/-- An earlier entry of the team overlaps the ranges of a command (R259). -/
def cmdHeld (s : State) (team seq id : Nat) : Bool :=
  let mine := ((s.scores.find? fun e => e.cmd == some id).map Score.ranges).getD []
  s.scores.any fun e => e.team == team && e.seq < seq && rangesMeet e.ranges mine

/-- A command has completed: its count falls (R49, R253) and its scoreboard entry is free (R258). -/
def cmdDone (gid launch id : Nat) (s : State) : State :=
  let s := { s with scores := s.scores.filter fun e => e.cmd != some id }
  match s.grp? gid with
  | some g => leaveLate g.core (uncountOne gid g.core launch false s)
  | none => s

/-- Some condition fails: the report of BOUND or ALIGN with the offending value. -/
def failIf (c : Bool) (cause : Cause) (i : Instr) (v : Word) : Option Report := if c then some (addrReport cause i 0 v) else none

/-! ### Pages of a copy (R256 item 4) -/

/-- What the translation of a range found: the addresses that were translated, the leaves, and the first failure. -/
structure Walked where
  probes : List Word
  used : List TlbEntry
  fail : Option (Nat × Word)
  deriving DecidableEq, Repr

/-- The pages of `n` bytes from an address, in ascending order. -/
def walkRange (s : State) (core part : Nat) (need : Need) : Nat → Word → Nat → Walked
  | 0, _, _ => ⟨[], [], none⟩
  | k + 1, va, n =>
    match translate s (dieOfCore core) (some core) part va need with
    | .fail o => ⟨[va], [], some (o, va)⟩
    | .ok _ e =>
      let room := e.vbase + e.size - va.toNat
      if n ≤ room then ⟨[va], [e], none⟩
      else
        let r := walkRange s core part need k (va + BitVec.ofNat 64 room) (n - room)
        ⟨va :: r.probes, e :: r.used, r.fail⟩

/-- The pages of rows, in ascending row and address order. -/
def walkRows (s : State) (core part : Nat) (need : Need) (len : Nat) (pitch : Int) : Nat → Word → Walked
  | 0, _ => ⟨[], [], none⟩
  | n + 1, va =>
    let a := walkRange s core part need (len / 65536 + 2) va len
    if a.fail.isSome then a
    else
      let b := walkRows s core part need len pitch n (va + BitVec.ofInt 64 pitch)
      ⟨a.probes ++ b.probes, a.used ++ b.used, b.fail⟩

/-- The physical pieces of `n` bytes from an address of a command. -/
def pageSpans (ls : List (Nat × Nat × Nat)) : Nat → Nat → Nat → List (Nat × Nat)
  | 0, _, _ => []
  | k + 1, va, n =>
    match ls.find? fun l => l.1 ≤ va && va < l.1 + l.2.1 with
    | none => []
    | some l =>
      let room := l.1 + l.2.1 - va
      if n ≤ room then [(l.2.2 + (va - l.1), n)] else (l.2.2 + (va - l.1), room) :: pageSpans ls k (va + room) (n - room)

/-! ### Copy commands (R255 to R257) -/

/-- Source bytes of one block: 1 where nothing is converted. -/
def srcUnit (conv : Nat) : Nat :=
  match conv with
  | 1 => 128
  | 2 => 64
  | 3 => 32
  | _ => 1

/-- Destination bytes of one block. -/
def dstUnit (conv m : Nat) : Nat :=
  match conv with
  | 1 => 4 * (3 + m)
  | 2 => 4 * (3 + m)
  | 3 => 32
  | _ => 1

/-- Element size (R256 item 3). -/
def convSize (conv : Nat) : Nat :=
  match conv with
  | 1 => 4
  | 2 => 2
  | _ => 1

/-- dl: the bytes of a destination row (R256). -/
def CopyCmd.dl (c : CopyCmd) : Nat := c.rowlen / srcUnit c.conv * dstUnit c.conv c.m

/-- Steps of a row (R257). -/
def CopyCmd.perRow (c : CopyCmd) : Nat := (c.dl + 4095) / 4096

/-- Parts of the command. -/
def CopyCmd.total (c : CopyCmd) : Nat := c.rows * c.perRow

/-- Row, first byte and byte count of a part (R257). -/
def CopyCmd.partOf (c : CopyCmd) (n : Nat) : Nat × Nat × Nat :=
  let k := n % c.perRow * 4096
  (n / c.perRow, k, min 4096 (c.dl - k))

/-- The blocks that begin in a part: the first and their number. -/
def CopyCmd.blocksOf (c : CopyCmd) (n : Nat) : Nat × Nat :=
  let (_, k, len) := c.partOf n
  let u := dstUnit c.conv c.m
  ((k + u - 1) / u, (k + len + u - 1) / u - (k + u - 1) / u)

/-- The device address of a row. -/
def CopyCmd.devRow (c : CopyCmd) (r : Nat) : Nat := (c.va + BitVec.ofInt 64 (r * c.pitch)).toNat

/-- The destination address of a row's first byte. -/
def CopyCmd.dstRow (c : CopyCmd) (r : Nat) : Nat := if c.out then c.devRow r else c.off + r * c.sppitch

/-- The destination bytes of a part. -/
def CopyCmd.dstRange (c : CopyCmd) (n : Nat) : Nat × Nat :=
  let (b, k) := c.blocksOf n
  let u := dstUnit c.conv c.m
  let a := c.dstRow (c.partOf n).1 + b * u
  (a, a + k * u)

/-- The command that a group's operands describe; its pages and counter are filled in at acceptance. -/
def copyOf (f : UR) (x : Option CpxX) (s : State) (g : Group) : CopyCmd where
  id := 0
  seq := s.seq
  pc := g.pc
  gid := g.gid
  launch := g.launch
  team := g.team
  part := g.part
  pair := pairOfCore g.core
  out := f.fn.getLsbD 0
  conv := if x.isSome then f.fld 7 3 else 0
  m := f.fld 10 3 + 1
  d := f.fld 13 4
  cs := f.fld 1 2
  ctr := (g.s f.sb.toNat).toNat
  ctrVa := g.s f.sb.toNat
  va := blk f g 0
  off := (blk f g 1).toNat
  rows := if x.isSome then (blk f g 2).toNat else 1
  pitch := if x.isSome then (blk f g 3).toInt else 0
  rowlen := match x with
    | some e => e.rowlen.toNat
    | none => (blk f g 2).toNat
  sppitch := match x with
    | some e => e.sppitch.toNat
    | none => 0
  leaves := []
  active := false
  parts := []
  steps := 0

/-- The end of the scratchpad hull beyond its offset (R256 item 2). -/
def CopyCmd.hull (c : CopyCmd) : Nat := (c.rows - 1) * c.sppitch + c.dl

/-- The pages of the command's data. -/
def copyWalk (s : State) (g : Group) (c : CopyCmd) : Walked :=
  walkRows s g.core g.part (if c.out then needW else needR) c.rowlen c.pitch c.rows c.va

/-- The pages of the data and of a device counter. -/
def copyWalkAll (s : State) (g : Group) (c : CopyCmd) : Walked :=
  let a := copyWalk s g c
  if a.fail.isSome || c.cs != 2 then a
  else
    let b := walkRange s g.core g.part needW 1 (BitVec.ofNat 64 c.ctr) 8
    ⟨a.probes ++ b.probes, a.used ++ b.used, b.fail⟩

/-- A length or row count outside its limit (R256 item 1). -/
def copyCountBad (x : Option CpxX) (v : Word) : Bool :=
  v = 0 || (if x.isSome then 65536 else 16777216) < v.toNat

/-- The checks of R256, in order. -/
def copyCheck (i : Instr) (f : UR) (x : Option CpxX) (s : State) (g : Group) : Option Report :=
  let c := copyOf f x s g
  let lim := spLimit s g
  let e := convSize c.conv
  let ctr := g.s f.sb.toNat
  if copyCountBad x (blk f g 2) then some (addrReport .bound i 0 (blk f g 2))
  else firstSome [
    failIf (!inRange lim (blk f g 1).toInt c.hull) .bound i (blk f g 1),
    failIf (c.cs == 1 && !inRange lim ctr.toInt 8) .bound i ctr,
    failIf (c.conv != 0 && c.va.toNat % e != 0) .align i c.va,
    failIf (c.conv != 0 && c.pitch % e != 0) .align i (BitVec.ofInt 64 c.pitch),
    failIf (c.conv != 0 && c.off % 4 != 0) .align i (blk f g 1),
    failIf (c.conv != 0 && c.sppitch % 4 != 0) .align i (BitVec.ofNat 64 c.sppitch),
    failIf (c.cs != 0 && c.ctr % 8 != 0) .align i ctr,
    (copyWalkAll s g c).fail.map (transReport i 0)]

/-- Acceptance of a copy (R253, R258): its entry covers the scratchpad hull. -/
def acceptCopy (f : UR) (x : Option CpxX) (s : State) (g : Group) (t : State) : State :=
  let c := copyOf f x s g
  let w := copyWalkAll s g c
  let es := w.used.eraseDups
  let data := (copyWalk s g c).used.eraseDups
  let ctr := if c.cs = 2 then
      (match translate s (dieOfCore g.core) (some g.core) g.part (BitVec.ofNat 64 c.ctr) needW with
      | .ok pa _ => pa
      | .fail _ => 0)
    else c.ctr
  let t := es.foldl (fun t e => installLeaf (some g.core) { e with die := dieOfCore g.core } t) t
  let c := { c with id := t.nextId, ctr := ctr, leaves := data.map fun e => (e.vbase, e.size, e.pbase) }
  let e : Score := ⟨s.seq, c.pair, g.team, g.gid, some c.id, [((c.off : Int), (c.off : Int) + c.hull, !c.out)]⟩
  countOne g.gid { t with copies := t.copies ++ [c], scores := t.scores ++ [e], nextId := t.nextId + 1 }

/-- The queue of a pair's copy engine is full (R253). -/
def copyFull (s : State) (pair : Nat) : Bool := 32 ≤ s.copies.countP fun c => c.pair == pair

/-- `cp` and `cpx` (R256). -/
def copyPlan (i : Instr) (f : UR) (x : Option CpxX) : Plan where
  acts := .group
  srcs := blockSrcs f (f.fn.getLsbD 6) (if x.isSome then [0, 1, 2, 3] else [0, 1, 2]) ++
    (if f.fld 1 2 = 0 then [] else [.s f.sb.toNat (f.fn.getLsbD 6)])
  cls := some 1
  counts := true
  closes := fun _ _ _ => true
  stall := fun s g => copyFull s (pairOfCore g.core) || scoreFull s g.core
  touches := fun s g eff =>
    if eff = 0 || copyCountBad x (blk f g 2) then []
    else (copyWalkAll s g (copyOf f x s g)).probes.flatMap fun va => transReads s (dieOfCore g.core) (some g.core) g.part va needR
  check := fun s g eff => if eff = 0 then none else copyCheck i f x s g
  effect := fun s g _ => .change (acceptCopy f x s g)

/-- cp (R256). -/
def planCp (h : Hdr) (f : UR) : Plan :=
  copyPlan (.cp h f) f none

/-- The meaning of CP. -/
def execCp (h : Hdr) (f : UR) : State → Host.Outcome State Fault Refusal :=
  runPlan (.cp h f) h (planCp h f)

/-- cpx (R256). -/
def planCpx (h : Hdr) (f : UR) (x : CpxX) : Plan :=
  copyPlan (.cpx h f x) f (some x)

/-- The meaning of CPX. -/
def execCpx (h : Hdr) (f : UR) (x : CpxX) : State → Host.Outcome State Fault Refusal :=
  runPlan (.cpx h f x) h (planCpx h f x)

/-- COPY_COMMAND_START (R255): the oldest command that waits starts while fewer than 8 run. -/
def startCopy (pair : Nat) (s : State) : State :=
  let mine := s.copies.filter fun c => c.pair == pair
  match mine.find? fun c => !c.active with
  | none => s
  | some c =>
    if 8 ≤ mine.countP CopyCmd.active then s
    else { s with copies := s.copies.map fun x => if x.id == c.id then { x with active := true } else x }

/-- COPY_COMMAND_START (R255). -/
def execCopyCommandStart (pair : Nat) (s : State) : Host.Outcome State Fault Refusal := commit s (.change (startCopy pair))

/-- The I8 plane form of 32 bytes (R266), and whether a value was clamped. -/
def i8Planes (bs : List Byte) : List Nat × Bool :=
  let vs := bs.map BitVec.toInt
  let mags := vs.map fun v => min v.natAbs 127
  (dxPlane (vs.map fun v => decide (v < 0)) :: (List.range 7).map fun i => dxPlane (mags.map fun m => m.testBit (6 - i)),
    vs.any fun v => v == -128)

/-- One converted block and its flags (R175, R266, R176). -/
def convBlock (conv m d : Nat) (bs : List Byte) : List Byte × BitVec 8 :=
  let out := fun (ws : List Nat) => ws.flatMap fun w => natBytes 4 w
  match conv with
  | 1 =>
    let r := dxBuild m d ((List.range 32).map fun j => fmtF32.read (bytesNat ((bs.drop (4 * j)).take 4)))
    (out r.1, mxOfFlags r.2)
  | 2 =>
    let r := dxBuild m d ((List.range 32).map fun j => fmtBF16.read (bytesNat ((bs.drop (2 * j)).take 2)))
    (out r.1, mxOfFlags r.2)
  | 3 =>
    let r := i8Planes bs
    (out r.1, if r.2 then mxSa else 0)
  | _ => (bs, 0)

/-- Some bytes converted block by block. -/
def convBytes (c : CopyCmd) (bs : List Byte) : List Byte × BitVec 8 :=
  if c.conv = 0 then (bs, 0)
  else
    let u := srcUnit c.conv
    let rs := (List.range (bs.length / u)).map fun b => convBlock c.conv c.m c.d ((bs.drop (b * u)).take u)
    (rs.flatMap Prod.fst, (rs.map Prod.snd).foldl (· ||| ·) 0)

/-- The bytes of a part that a higher row has not written yet (R256). -/
def freshRuns (c : CopyCmd) (n : Nat) (bs : List Byte) : List (Nat × List Byte) :=
  let a := (c.dstRange n).1
  let above := (c.parts.filter fun q => (c.partOf n).1 < (c.partOf q).1).map c.dstRange
  if above.isEmpty then [(a, bs)] else keepRuns (fun i => above.any fun r => r.1 ≤ i && i < r.2) a bs

/-- The bytes that a copy reads of device memory: the lines that are uncorrectable give zeros (R257). -/
def copyBytes (s : State) (ps : List (Nat × Nat)) : List Byte :=
  ps.flatMap fun p =>
    let bad := badLines s p.1 p.2
    if bad.isEmpty then devBytes s p.1 p.2
    else (List.range p.2).map fun i => if bad.contains ((p.1 + i) / 64 * 64) then 0 else devByte s (p.1 + i)

/-- A log of a command: it names the group, and so the team, that issued the command (R271, R359). -/
def logCmd (gid launch pc part : Nat) (rep : Report) : Prog := .dyn fun s => fqEntry part (cmdEntry s gid launch pc rep)

/-- A log of a copy command. -/
def CopyCmd.log (c : CopyCmd) (rep : Report) : Prog := logCmd c.gid c.launch c.pc c.part rep

/-- Flags into a team's `mxflags` (R264). -/
def raiseMx (tid : Nat) (f : BitVec 8) (s : State) : State := if f = 0 then s else s.modTeam tid fun t => t.raiseMx f

/-- One part of an `.in` copy (R256, R257). -/
def copyIn (c : CopyCmd) (n : Nat) : Prog :=
  .dyn fun s =>
    let (b, k) := c.blocksOf n
    let u := srcUnit c.conv
    let ps := pageSpans c.leaves (k * u / 65536 + 2) (c.devRow (c.partOf n).1 + b * u) (k * u)
    let bad := ps.flatMap fun p => badLines s p.1 p.2
    let r := convBytes c (copyBytes s ps)
    .all [
      .all (bad.map fun l => c.log ⟨.uncorr, 5, 0, 0, BitVec.ofNat 64 l, BitVec.ofNat 64 c.pair, 0⟩),
      .all (ps.map fun p => devReadEffect p.1 p.2),
      .change (raiseMx c.team (r.2 ||| (if bad.isEmpty then 0 else mxCu))),
      .all ((freshRuns c n r.1).map fun w => spWriteLogged true c.team w.1 w.2)]

/-- A line written marked uncorrectable (R257), but for words of a fault queue that only the device writes (R4). -/
def poisonLine (l : Nat) (s : State) : State :=
  ((wordsOf l 64).filter fun w => !fqKept s w).foldl (fun s w => { s with syn := synSet s.syn w (if inSram w then 0xFF else 0xFFFF) }) s

/-- One part of an `.out` copy: the lines that receive bytes of an uncorrectable bank word are written marked (R257). -/
def copyOut (c : CopyCmd) (n : Nat) : Prog :=
  .dyn fun s =>
    match s.team? c.team with
    | none => .done
    | some t =>
      let (r, k, len) := c.partOf n
      let a := c.off + r * c.sppitch + k
      let dst := (c.dstRange n).1
      let bad := spBadWords t a len
      let runs := freshRuns c n (spBytes t a len)
      let pieces := runs.flatMap fun w => (pageSpans c.leaves (w.2.length / 65536 + 2) w.1 w.2.length).foldl
        (fun (acc : List (Nat × Nat × List Byte) × Nat) p => (acc.1 ++ [(p.1, w.1 + acc.2, (w.2.drop acc.2).take p.2)], acc.2 + p.2)) ([], 0) |>.1
      let badOf := fun (p : Nat × Nat × List Byte) =>
        ((List.range p.2.2.length).filterMap fun i =>
          if bad.contains ((a + (p.2.1 + i - dst)) / 8 * 8) then some ((p.1 + i) / 64 * 64) else none).eraseDups
      .all [
        .all (bad.map fun l => c.log ⟨.uncorr, 1, 0, 0, BitVec.ofNat 64 l, 0, 0⟩),
        .change (spRead c.team a len),
        .all (pieces.map fun p => .all [
          agentWrite p.1 p.2.2,
          .change fun s => if bad.isEmpty then s else (badOf p).foldl (fun s l => poisonLine l s) s])]

/-- Changes one copy command. -/
def State.modCopy (s : State) (id : Nat) (f : CopyCmd → CopyCmd) : State :=
  { s with copies := s.copies.map fun c => if c.id == id then f c else c }

/-- The steps of the counter that are due (R257): a step is made when its part and every earlier one have been performed. -/
def signalSteps (id : Nat) : Nat → Prog
  | 0 => .done
  | k + 1 =>
    .dyn fun s =>
      match s.copies.find? fun c => c.id == id with
      | none => .done
      | some c =>
        if !c.parts.contains c.steps then .done
        else
          let v := BitVec.ofNat 64 (c.partOf c.steps).2.2
          let serial := s.serialOf c.launch
          let log := c.log ⟨.uncorr, 7, 0, 0, BitVec.ofNat 64 c.ctr, 0, 0⟩
          .all [
            (match c.cs with
            | 1 => counterAddSp c.part c.team c.ctr c.ctrVa v serial log
            | 2 => counterAddDev c.part c.ctr c.ctrVa v serial log
            | _ => .done),
            .change fun s => s.modCopy id fun c => { c with parts := c.parts.filter (· != c.steps), steps := c.steps + 1 },
            signalSteps id k]

/-- The device bytes of a part, as physical pieces. -/
def CopyCmd.spans (c : CopyCmd) (n : Nat) : List (Nat × Nat) :=
  if c.out then pageSpans c.leaves (((c.dstRange n).2 - (c.dstRange n).1) / 65536 + 2) (c.dstRange n).1 ((c.dstRange n).2 - (c.dstRange n).1)
  else
    let (b, k) := c.blocksOf n
    let len := k * srcUnit c.conv
    pageSpans c.leaves (len / 65536 + 2) (c.devRow (c.partOf n).1 + b * srcUnit c.conv) len

/-- Every array that a part and its counter reach takes work (R383, R405). -/
def CopyCmd.awake (s : State) (c : CopyCmd) (n : Nat) : Bool :=
  ((c.spans n).all fun p => Machine.awake s p.1 p.2)
    && poolAwake s c.team (c.off + (c.partOf n).1 * c.sppitch) (max c.dl 1)
    && (c.cs != 1 || poolAwake s c.team c.ctr 8) && (c.cs != 2 || awakeAt s c.ctr)

/-- A part of a copy is performed, where the scoreboard lets it (R257, R259). -/
def copyPart (cmd part : Nat) : Prog :=
  .dyn fun s =>
    match s.copies.find? fun c => c.id == cmd with
    | none => .done
    | some c =>
      if !c.active || part < c.steps || c.total ≤ part || c.parts.contains part || cmdHeld s c.team c.seq c.id || !c.awake s part then .done
      else .all [
        if c.out then copyOut c part else copyIn c part,
        .change fun s => s.modCopy cmd fun c => { c with parts := part :: c.parts },
        signalSteps cmd (c.parts.length + 1)]

/-- COPY_COUNTER_STEP (R257). -/
def execCopyCounterStep (cmd part : Nat) (s : State) : Host.Outcome State Fault Refusal := commit s (copyPart cmd part)

/-- COPY_COMMAND_COMPLETE (R253): every part has been performed and signalled. -/
def execCopyCommandComplete (cmd : Nat) (s : State) : Host.Outcome State Fault Refusal :=
  commit s (.change fun s =>
    match s.copies.find? fun c => c.id == cmd with
    | none => s
    | some c =>
      if c.steps < c.total then s
      else cmdDone c.gid c.launch c.id { s with copies := s.copies.filter fun x => x.id != cmd })

/-! ### Reservations (R260, R261) -/

/-- mres (R260). -/
def planMres (h : Hdr) (f : UR) : Plan :=
  let i := Instr.mres h f
  {
    acts := .group
    srcs := [.s f.sa.toNat (f.fn.getLsbD 0)]
    dsts := [.p f.sd.toNat]
    collective := true
    closes := fun _ _ _ => true
    check := fun _ g eff =>
      let n := g.s f.sa.toNat
      if eff = 0 then none else failIf (n = 0 || 4 < n.toNat) .bound i n
    effect := fun s g _ => .change fun t =>
      let n := (g.s f.sa.toNat).toNat
      let pair := pairOfCore g.core
      let held := ((t.team? g.team).map Team.shares).getD 0
      let grant := held = 0 && n ≤ freeShares t pair
      let ok := grant || held = n
      let t := if grant then grantShares g.team pair n t else t
      t.modGrp g.gid fun h => h.setP f.sd.toNat (laneMask h.width) (if ok then laneMask h.width else 0) (some (s.now + 8)) }

/-- The meaning of MRES. -/
def execMres (h : Hdr) (f : UR) : State → Host.Outcome State Fault Refusal :=
  runPlan (.mres h f) h (planMres h f)

/-- An engine after the return of a team's positions, where `busy` says that a command accepted before a place in the order of issue
has not completed. -/
def returned (tid : Nat) (busy : Nat → Bool) (e : MxEngine) : MxEngine :=
  let due := e.old.filter fun o => e.wheel.getD o.1 none == some tid && !busy o.2
  { e with
    wheel := due.foldl (fun w o => w.set o.1 none) e.wheel
    old := e.old.filter fun o => !due.contains o }

/-- The positions that a team holds are to return. -/
def givenBack (tid seq : Nat) (e : MxEngine) : MxEngine :=
  let held := (List.range 4).filter fun k => e.wheel.getD k none == some tid && !(e.old.any fun o => o.1 == k)
  { e with old := e.old ++ held.map fun k => (k, seq) }

/-- Wheel positions that a team gave back return when its commands accepted before have completed (R261). -/
def returnShares (tid : Nat) (s : State) : State :=
  { s with engines := s.engines.map (returned tid fun k => s.mxcmds.any fun c => c.team == tid && c.seq < k) }

/-- The reservation of a team ends for new commands (R261). -/
def endReservation (tid seq : Nat) (s : State) : State :=
  let s := { s with engines := s.engines.map (givenBack tid seq) }
  returnShares tid (s.modTeam tid fun t => { t with shares := 0 })

/-- An engine instruction of a group other than `mres` is not ready: four commands of the group are queued, or the scoreboard is full
(R253, R263). -/
def mxStalls (s : State) (g : Group) : Bool := decide (4 ≤ s.mxcmds.countP fun c => c.gid == g.gid) || scoreFull s g.core

/-- mrel (R261). -/
def planMrel (f : UR) : Plan :=
  {
    acts := .group
    dsts := [.s f.sd.toNat]
    collective := true
    closes := fun _ _ _ => true
    stall := mxStalls
    effect := fun s g _ => .change fun t =>
      let held := ((t.team? g.team).map Team.shares).getD 0
      let t := if held = 0 then t else endReservation g.team s.seq t
      t.modGrp g.gid fun h => h.setS s.now f.sd.toNat (if held = 0 then 1 else 0) }

/-- The meaning of MREL. -/
def execMrel (h : Hdr) (f : UR) : State → Host.Outcome State Fault Refusal :=
  runPlan (.mrel h f) h (planMrel f)

/-! ### Acceptance of matrix commands (R262, R263, R267) -/

/-- The tile that a command names. -/
def MxOp.tile : MxOp → Nat
  | .mloop _ x .. => x.tile.toNat
  | .mzero t _ => t
  | .mld t .. => t
  | .mst t .. => t
  | .osmMax t .. => t
  | .osmAcc t _ => t

/-- The tag that the command needs, `none` where it checks none (R267 to R273). -/
def MxOp.needsTag : MxOp → Option (BitVec 4)
  | .mloop _ x .. => if x.za then none else some (if x.afmt == 9 then 5 else 9)
  | .mst _ form .. => if form = 0 then none else some 9
  | .osmMax .. => some 9
  | .osmAcc .. => some 9
  | _ => none

/-- The tag that the tile carries after the command. DEDUCED (log entry 42): a RAW tile that `mst` reads as F32 is F32 from then on (R267). -/
def MxOp.newTag : MxOp → Option (BitVec 4)
  | .mloop _ x .. => some (if x.afmt == 9 then 5 else 9)
  | .mzero _ f32 => some (if f32 then 9 else 5)
  | .mld _ f32 .. => some (if f32 then 9 else 5)
  | op => op.needsTag

/-- Bytes of a block of a format (R265). -/
def fmtBytes (fmt : BitVec 4) : Nat := if fmt == 9 then 32 else 4 * (3 + fmt.toNat)

/-- Logical blocks of B for each column (R270). -/
def bBlocks (sparse : Bool) (x : MloopX) : Nat := if !sparse then 1 else if x.pat = 0 then 2 else 4

/-- The hull of `k` ranges of `n` bytes, `inc` apart. -/
def hullOf (base inc : Int) (k n : Nat) : Int × Int :=
  let last := base + inc * ((k : Int) - 1)
  (min base last, max base last + n)

/-- The scratchpad ranges of a command with their write marks (R258, R273). -/
def MxOp.ranges : MxOp → List (Int × Int × Bool)
  | .mloop sparse x a b ai bi mask md mi =>
    let k := x.kcount.toNat
    let ra := hullOf a ai k (128 * fmtBytes x.afmt)
    let rb := hullOf b bi k (64 * bBlocks sparse x * fmtBytes x.bfmt)
    let rm := hullOf md mi k 1024
    [(ra.1, ra.2, false), (rb.1, rb.2, false)] ++ (if x.me then [(mask, mask + 1024, false)] else [])
      ++ (if sparse then [(rm.1, rm.2, false)] else [])
  | .mzero .. => []
  | .mld _ _ off pitch => let r := hullOf off pitch 128 256; [(r.1, r.2, false)]
  | .mst _ form m _ off pitch =>
    let r := match form with
      | 0 => hullOf off pitch 128 256
      | 1 => hullOf off pitch 128 128
      | _ => hullOf off pitch 2 (128 * (4 * (3 + m)))
    [(r.1, r.2, true)]
  | .osmMax _ mv lv cv => [(mv, mv + 512, true), (lv, lv + 512, true), (cv, cv + 512, true)]
  | .osmAcc _ cv => [(cv, cv + 512, false)]

/-- Offsets and increments that must be multiples, in the order of the entry (R268, R272, R273). -/
def MxOp.aligned : MxOp → List (Int × Nat)
  | .mloop sparse x a b ai bi mask md mi =>
    [(a, 4), (b, 4)] ++ (if x.kcount = 1 then [] else [(ai, 4), (bi, 4)]) ++ (if x.me then [(mask, 8)] else [])
      ++ (if sparse then [(md, 8), (mi, 8)] else [])
  | .mzero .. => []
  | .mld _ _ off pitch => [(off, 16), (pitch, 16)]
  | .mst _ form _ _ off pitch => if form = 2 then [(off, 4), (pitch, 4)] else [(off, 16), (pitch, 16)]
  | .osmMax _ mv lv cv => [(mv, 16), (lv, 16), (cv, 16)]
  | .osmAcc _ cv => [(cv, 16)]

/-- The value that a BOUND of the range at a place of `ranges` reports: the base of the panel, vector or tile rows. -/
def MxOp.bases : MxOp → List Int
  | .mloop sparse x a b _ _ mask md _ => [a, b] ++ (if x.me then [mask] else []) ++ (if sparse then [md] else [])
  | .mzero .. => []
  | .mld _ _ off _ => [off]
  | .mst _ _ _ _ off _ => [off]
  | .osmMax _ mv lv cv => [mv, lv, cv]
  | .osmAcc _ cv => [cv]

/-- The tag of a tile as the command will find it: commands that name one tile are performed in the order of their acceptance (R263),
so a command sets the tag when it is accepted. -/
def tileTag (s : State) (g : Group) (k : Nat) : BitVec 4 :=
  (((s.team? g.team).bind fun t => t.tiles[k]?).map Tile.tag).getD 0

/-- The checks of a matrix command, in the order of R268, R272 and R273. -/
def mxCheck (i : Instr) (s : State) (g : Group) (op : MxOp) : Option Report :=
  let tiles := ((s.team? g.team).map fun t => t.tiles.length).getD 0
  let tag := tileTag s g op.tile
  let lim : Int := spLimit s g
  firstSome ([
    failIf (tiles ≤ op.tile) .bound i (BitVec.ofNat 64 op.tile),
    match op.needsTag with
      | some t => if tag == 0 || tag == t then none else some ⟨.format, tag.toNat, op.tile, 0, word0Of i, word1Of i, 0⟩
      | none => none]
    ++ ((op.ranges.zip op.bases).map fun r => failIf (decide (r.1.1 < 0) || decide (lim < r.1.2.1)) .bound i (BitVec.ofInt 64 r.2))
    ++ (op.aligned.map fun a => failIf (a.1 % (a.2 : Int) != 0) .align i (BitVec.ofInt 64 a.1)))

/-- Changes one tile of a team. -/
def modTile (tid k : Nat) (f : Tile → Tile) (s : State) : State := s.modTeam tid fun t => { t with tiles := t.tiles.modify k f }

/-- A group's place in the rotation of its team (R263). -/
def slotIndex (g : Group) : Nat := g.core % 2 * 96 + 24 * g.quadrant + g.slot

/-- Acceptance (R262): status 0 with the command queued, or 1 where the team holds no reservation. -/
def acceptMx (sd : Nat) (op : MxOp) (s : State) (g : Group) (t : State) : State :=
  let held := ((t.team? g.team).map Team.shares).getD 0
  if held = 0 then t.modGrp g.gid fun h => h.setS s.now sd 1
  else
    let c : MxCmd := ⟨t.nextId, s.seq, g.pc, g.gid, g.launch, g.team, g.part, pairOfCore g.core, slotIndex g, op, 0, false⟩
    let e : Score := ⟨s.seq, c.pair, g.team, g.gid, some c.id, op.ranges⟩
    let t := match op.newTag with
      | some k => modTile g.team op.tile (fun x => { x with tag := k }) t
      | none => t
    countOne g.gid ({ t with mxcmds := t.mxcmds ++ [c], scores := t.scores ++ [e], nextId := t.nextId + 1 }.modGrp g.gid
      fun h => h.setS s.now sd 0)

/-- A matrix instruction other than `mres` and `mrel`: a full queue of the group, or a full scoreboard, holds issue (R253, R263). -/
def mxPlan (i : Instr) (f : UR) (eb : Bool) (ks : List Nat) (op : Group → MxOp) : Plan where
  acts := .group
  srcs := blockSrcs f eb ks
  dsts := [.s f.sd.toNat]
  cls := some 2
  collective := true
  counts := true
  closes := fun _ _ _ => true
  stall := mxStalls
  check := fun s g eff => if eff = 0 then none else mxCheck i s g (op g)
  effect := fun s g _ => .change (acceptMx f.sd.toNat (op g) s g)

/-- The operand block of `mloop` (R268). -/
def mloopOp (sparse : Bool) (f : UR) (x : MloopX) (g : Group) : MxOp :=
  let v := fun k => (blk f g k).toInt
  .mloop sparse x (v 0) (v 1) (v 2) (v 3) (if x.me then v 4 else 0) (if sparse then v 5 else 0) (if sparse then v 6 else 0)

/-- The registers of the block that are read (R268). -/
def mloopRegs (sparse : Bool) (x : MloopX) : List Nat := [0, 1, 2, 3] ++ (if x.me then [4] else []) ++ (if sparse then [5, 6] else [])

/-- mloop (R269). -/
def planMloop (h : Hdr) (f : UR) (x : MloopX) : Plan :=
  mxPlan (.mloop h f x) f (f.fn.getLsbD 0) (mloopRegs false x) (mloopOp false f x)

/-- The meaning of MLOOP. -/
def execMloop (h : Hdr) (f : UR) (x : MloopX) : State → Host.Outcome State Fault Refusal :=
  runPlan (.mloop h f x) h (planMloop h f x)

/-- mloop.sp (R270). -/
def planMloopSp (h : Hdr) (f : UR) (x : MloopX) : Plan :=
  mxPlan (.mloopSp h f x) f (f.fn.getLsbD 0) (mloopRegs true x) (mloopOp true f x)

/-- The meaning of MLOOP_SP. -/
def execMloopSp (h : Hdr) (f : UR) (x : MloopX) : State → Host.Outcome State Fault Refusal :=
  runPlan (.mloopSp h f x) h (planMloopSp h f x)

/-- mzero (R272). -/
def planMzero (h : Hdr) (f : UR) : Plan :=
  mxPlan (.mzero h f) f false [] fun _ => .mzero (f.fld 0 4) (!f.fn.getLsbD 4)

/-- The meaning of MZERO. -/
def execMzero (h : Hdr) (f : UR) : State → Host.Outcome State Fault Refusal :=
  runPlan (.mzero h f) h (planMzero h f)

/-- mld (R272). -/
def planMld (h : Hdr) (f : UR) : Plan :=
  mxPlan (.mld h f) f (f.fn.getLsbD 5) [0, 1] fun g =>
    .mld (f.fld 0 4) (!f.fn.getLsbD 4) (blk f g 0).toInt (blk f g 1).toInt

/-- The meaning of MLD. -/
def execMld (h : Hdr) (f : UR) : State → Host.Outcome State Fault Refusal :=
  runPlan (.mld h f) h (planMld h f)

/-- mst (R272). -/
def planMst (h : Hdr) (f : UR) : Plan :=
  mxPlan (.mst h f) f (f.fn.getLsbD 13) [0, 1] fun g =>
    .mst (f.fld 0 4) (f.fld 4 2) (f.fld 6 3 + 1) (f.fld 9 4) (blk f g 0).toInt (blk f g 1).toInt

/-- The meaning of MST. -/
def execMst (h : Hdr) (f : UR) : State → Host.Outcome State Fault Refusal :=
  runPlan (.mst h f) h (planMst h f)

/-- osm.max (R273). -/
def planOsmMax (h : Hdr) (f : UR) : Plan :=
  mxPlan (.osmMax h f) f (f.fn.getLsbD 4) [0, 1, 2] fun g =>
    .osmMax (f.fld 0 4) (blk f g 0).toInt (blk f g 1).toInt (blk f g 2).toInt

/-- The meaning of OSM_MAX. -/
def execOsmMax (h : Hdr) (f : UR) : State → Host.Outcome State Fault Refusal :=
  runPlan (.osmMax h f) h (planOsmMax h f)

/-- osm.acc (R274). -/
def planOsmAcc (h : Hdr) (f : UR) : Plan :=
  mxPlan (.osmAcc h f) f (f.fn.getLsbD 4) [0] fun g => .osmAcc (f.fld 0 4) (blk f g 0).toInt

/-- The meaning of OSM_ACC. -/
def execOsmAcc (h : Hdr) (f : UR) : State → Host.Outcome State Fault Refusal :=
  runPlan (.osmAcc h f) h (planOsmAcc h f)

/-! ### The work of the engine -/

/-- The 8,192 cells of a tile. -/
def Tile.all (t : Tile) : List Lane := if t.cells.isEmpty then List.replicate 8192 0 else t.cells

/-- Element `j` of a block of the I8 plane form under `p` planes (R266). -/
def i8Elem (p : Nat) (ws : List Nat) (j : Nat) : FV :=
  let m := (List.range p).foldl (fun v i => 2 * v + (if (dxWord ws (1 + i)).testBit j then 1 else 0)) 0
  .fin ((dxWord ws 0).testBit j) (m * 2 ^ (7 - p)) 0

/-- The words of a block that a read with `p` planes takes (R174, R266). -/
def fetchedWords (fmt : BitVec 4) (p : Nat) : Nat := if fmt == 9 then 1 + p else 3 + p

/-- A block as the engine reads it: its 32 elements, whether a word was uncorrectable, and whether its header failed R173. -/
structure BlockRead where
  elems : List FV
  bad : Bool
  header : Bool
  deriving DecidableEq, Repr

/-- Reads a block (R170 to R174, R266); an uncorrectable word makes the elements that depend on it, which are all of the block, zero
(R271). -/
def readBlock (t : Team) (fmt : BitVec 4) (p : Nat) (a : Nat) : BlockRead :=
  let n := fetchedWords fmt p
  if spBad t a (4 * n) then ⟨List.replicate 32 (.fin false 0 0), true, false⟩
  else
    let ws := (List.range n).map fun i => bytesNat (spBytes t (a + 4 * i) 4)
    ⟨(List.range 32).map fun j => if fmt == 9 then i8Elem p ws j else dxElem p ws j, false, fmt != 9 && dxBadHeader ws⟩

/-- An exact product (R183). -/
def FV.times (x y : FV) : FV :=
  match x, y with
  | .fin n1 m1 e1, .fin n2 m2 e2 => .fin (n1 ^^ n2) (m1 * m2) (e1 + e2)
  | .inf a, .fin n m _ => if m = 0 then .nan false else .inf (a ^^ n)
  | .fin n m _, .inf b => if m = 0 then .nan false else .inf (n ^^ b)
  | .inf a, .inf b => .inf (a ^^ b)
  | _, _ => .nan false

/-- An exact sum (R183). -/
def FV.plus (x y : FV) : FV :=
  match x, y with
  | .fin n1 m1 e1, .fin n2 m2 e2 => let r := exactSum n1 m1 e1 n2 m2 e2; .fin (r.1 < 0) r.1.natAbs r.2
  | .inf a, .inf b => if a = b then .inf a else .nan false
  | .inf a, .fin _ _ _ => .inf a
  | .fin _ _ _, .inf b => .inf b
  | _, _ => .nan false

/-- The exact sum of products (R183). -/
def dot (xs ys : List FV) : FV := (xs.zip ys).foldl (fun e p => e.plus (p.1.times p.2)) (.fin false 0 0)

/-- An integer that a value holds at exponent 0. -/
def FV.int : FV → Int
  | .fin n m e => let v : Int := (m * 2 ^ e.toNat : Nat); if n then -v else v
  | _ => 0

/-- A cell after one K-step into an F32 tile (R183), with of, and nv where the cell held a signalling NaN (R167, R264). -/
def cellF32 (acc : Lane) (e : FV) : Lane × BitVec 8 :=
  let e := match e with
    | .fin _ 0 _ => .fin false 0 0
    | e => e
  let r := fmtF32.addV 0 (fmtF32.read acc.toNat) e
  (BitVec.ofNat 32 r.1, (if r.2 &&& ffOf != 0 then mxOf else 0) ||| (if r.2 &&& ffNv != 0 then mxNv else 0))

/-- A cell after one K-step into an I32 tile (R184), and io. -/
def cellI32 (acc : Lane) (e : FV) : Lane × BitVec 8 :=
  let v := acc.toInt + e.int
  (BitVec.ofInt 32 v, if v < -2147483648 || 2147483647 < v then mxIo else 0)

/-- Field a of an UNCORR entry of the matrix engine (R371). -/
def mxField (k row col tile : Nat) : Word := BitVec.ofNat 64 (k * 2 ^ 48 + row * 2 ^ 32 + col * 2 ^ 16 + tile)

/-- A log of an uncorrectable read of the matrix engine (R271). -/
def logMx (c : MxCmd) (k row col : Nat) : Prog :=
  logCmd c.gid c.launch c.pc c.part ⟨.uncorr, 4, 0, 0, mxField k row col c.op.tile, BitVec.ofNat 64 c.pair, 0⟩

/-- The logical position of stored element `e`, and whether its group of two is ascending (R270). -/
def sparsePos (pat : Nat) (md : Word) (e : Nat) : Nat × Bool :=
  let idx := fun e => bitsOf md (2 * e) 2
  if pat = 0 then (4 * (e / 2) + idx e, idx (e / 2 * 2) < idx (e / 2 * 2 + 1)) else (4 * e + idx e, true)

/-- One K-step (R269, R270): the tile's cells, the flags, the logs, and the ranges that were read. -/
def kStep (c : MxCmd) (t : Team) (sparse : Bool) (x : MloopX) (a b md : Nat) (cells : List Lane) :
    List Lane × BitVec 8 × List Prog × List (Nat × Nat) :=
  let pa := x.pa.toNat + 1
  let pb := x.pb.toNat + 1
  let nb := bBlocks sparse x
  let la := 4 * fetchedWords x.afmt pa
  let lb := 4 * fetchedWords x.bfmt pb
  let arows := (List.range 128).map fun i => readBlock t x.afmt pa (a + i * fmtBytes x.afmt)
  let bcols := (List.range 64).map fun j => (List.range nb).map fun k => readBlock t x.bfmt pb (b + (j * nb + k) * fmtBytes x.bfmt)
  let mds := (List.range 128).map fun i => if sparse then (spWord t (md + 8 * i), spBad t (md + 8 * i) 8) else (0, false)
  let ok := fun (i e : Nat) => !sparse || (sparsePos x.pat.toNat (mds.getD i (0, false)).1 e).2
  let rows := (List.range 128).map fun i =>
    let r := (arows.getD i ⟨[], true, false⟩).elems
    r.zipIdx.map fun q => if ok i q.2 && !(mds.getD i (0, false)).2 then q.1 else .fin false 0 0
  let poss := (List.range 128).map fun i => (List.range 32).map fun e =>
    if sparse then (sparsePos x.pat.toNat (mds.getD i (0, false)).1 e).1 else e
  let cols := bcols.map fun bs => (bs.flatMap BlockRead.elems).toArray
  let old := cells.toArray
  let res := (rows.zip poss).zipIdx.flatMap fun r => cols.zipIdx.map fun q =>
    let e := dot r.1.1 (r.1.2.map fun p => q.1.getD p (.fin false 0 0))
    let acc := old.getD (64 * r.2 + q.2) 0
    if x.afmt == 9 then cellI32 acc e else cellF32 acc e
  let mv := sparse && (List.range 128).any fun i => !(mds.getD i (0, false)).2 && (List.range 32).any fun e => !ok i e
  let header := arows.any BlockRead.header || bcols.any fun bs => bs.any BlockRead.header
  let badRows := (List.range 128).filter fun i => (arows.getD i ⟨[], false, false⟩).bad
  let badMd := (List.range 128).filter fun i => (mds.getD i (0, false)).2
  let badCols := bcols.zipIdx.flatMap fun q => (q.1.filter BlockRead.bad).map fun _ => q.2
  let ue := !(badRows.isEmpty && badCols.isEmpty && badMd.isEmpty)
  (res.map Prod.fst,
    (res.map Prod.snd).foldl (· ||| ·) 0 ||| (if mv then mxMv else 0) ||| (if header then mxNv else 0) ||| (if ue then mxUe else 0),
    (badRows.map fun i => logMx c c.k i 0xFFFF) ++ (badMd.map fun i => logMx c c.k i 0xFFFF) ++ (badCols.map fun j => logMx c c.k 0xFFFF j),
    ((List.range 128).map fun i => (a + i * fmtBytes x.afmt, la)) ++ ((List.range (64 * nb)).map fun k => (b + k * fmtBytes x.bfmt, lb))
      ++ (if sparse then [(md, 1024)] else []))

/-- What reading scratchpad leaves (R369, R381). -/
def spTouch (tid : Nat) (rs : List (Nat × Nat)) (s : State) : State := rs.foldl (fun s r => spRead tid r.1 r.2 s) s

/-- The tree mask applied after the last K-step (R269). -/
def applyMask (s : State) (t : Team) (off : Nat) (cells : List Lane) : List Lane :=
  cells.zipIdx.map fun c => if (spUnitWord s t (off + 8 * (c.2 / 64))).getLsbD (c.2 % 64) then c.1 else BitVec.ofNat 32 (fmtF32.inf true)

/-- Changes one matrix command. -/
def State.modMx (s : State) (id : Nat) (f : MxCmd → MxCmd) : State :=
  { s with mxcmds := s.mxcmds.map fun c => if c.id == id then f c else c }

/-- Sets the cells of a tile. -/
def setCells (tid k : Nat) (cs : List Lane) (s : State) : State := modTile tid k (fun x => { x with cells := cs }) s

/-- One step of a `mloop` (R269, R270). -/
def stepMloop (c : MxCmd) (sparse : Bool) (x : MloopX) (a b ai bi mask md mi : Int) : Prog :=
  .dyn fun s =>
    match s.team? c.team with
    | none => .done
    | some t =>
      let k := x.tile.toNat
      let cells := if x.za && c.k = 0 then List.replicate 8192 0 else (t.tiles.getD k ⟨0, []⟩).all
      let at_ := fun (base inc : Int) => (base + (c.k : Int) * inc).toNat
      let r := kStep c t sparse x (at_ a ai) (at_ b bi) (at_ md mi) cells
      let last := x.kcount.toNat ≤ c.k + 1
      let out := if last && x.me then applyMask s t mask.toNat r.1 else r.1
      .all [
        .all r.2.2.1,
        .change fun s => spTouch c.team (r.2.2.2 ++ (if last && x.me then [(mask.toNat, 1024)] else []))
          ((raiseMx c.team r.2.1 (setCells c.team k out s)).modMx c.id fun q => { q with k := q.k + 1, finished := last })]

/-- A vector of 128 F32 values; an uncorrectable element is zero (R271). -/
def readVec (t : Team) (off : Nat) : List (Nat × Bool) :=
  (List.range 128).map fun i => if spBad t (off + 4 * i) 4 then (0, true) else (bytesNat (spBytes t (off + 4 * i) 4), false)

/-- The logs of the elements of a vector. -/
def logVec (c : MxCmd) (v : List (Nat × Bool)) : List Prog := v.zipIdx.filterMap fun e => if e.1.2 then some (logMx c 0xFFFF e.2 0xFFFF) else none

/-- A value and flags as the F32 operations return them, read again. -/
def rd (r : Nat × FFlags) : FV := fmtF32.read r.1

/-- One row of `osm.max` (R273): the new sum, maximum, correction and cells, with the flags. -/
def osmRow (mo lo : Nat) (cells : List Nat) : Nat × Nat × Nat × List Nat × FFlags :=
  let mxr := cells.foldl (fun (a : Nat × FFlags) x => let r := fmtF32.minmaxV true (fmtF32.read a.1) (fmtF32.read x); (r.1, a.2 ||| r.2))
    (mo, 0)
  let mx := fmtF32.keep (fmtF32.read mxr.1)
  let sub := fun (x : Nat) => fmtF32.addV 0 (fmtF32.read x) (fmtF32.read mx).negate
  let ex := fun (x : Nat) => let d := sub x; let e := fmtF32.exp2V (rd d); (e.1, d.2 ||| e.2)
  let low := mx == fmtF32.inf true
  let one := (fmtF32.round 0 false 1 0 false).1
  let c : Nat × FFlags := if low then (one, 0) else ex mo
  let ps := cells.map fun x => if low then ((0 : Nat), (0 : FFlags)) else ex x
  let sum := (treeOf (scanF32 0 0) 6 (ps.map fun p => (p.1, (0 : FFlags)))).getD 0 (0, 0)
  let sc := fmtF32.mulV 0 (fmtF32.read lo) (rd c)
  let l := fmtF32.addV 0 (rd sc) (rd sum)
  (l.1, mx, c.1, ps.map Prod.fst, mxr.2 ||| c.2 ||| orFlags (ps.map Prod.snd) ||| sum.2 ||| sc.2 ||| l.2)

/-- The bytes of a vector. -/
def vecBytes (v : List Nat) : List Byte := v.flatMap fun x => natBytes 4 x

/-- nv and of of `osm`; no other flag is kept (R274). -/
def osmFlags (f : FFlags) : BitVec 8 := mxOfFlags f &&& (mxNv ||| mxOf)

/-- What `osm.max` has done after some rows: the elements that it has written, the last first, what it read of mv and lv, the cells, and the
flags. -/
structure OsmRun where
  out : List (Nat × Nat)
  ms : List (Nat × Bool)
  ls : List (Nat × Bool)
  cells : List Lane
  flags : FFlags
  deriving DecidableEq, Repr

/-- The element at an offset as the rows so far leave it: what one of them wrote there, else `old`. -/
def osmElem (out : List (Nat × Nat)) (a : Nat) (old : Nat × Bool) : Nat × Bool :=
  match out.lookup a with
  | some v => (v, false)
  | none => old

/-- One row of `osm.max`: it reads mv and lv as the rows before it leave them, and writes lv, mv and cv in this order (R5, R273). -/
def osmNext (ms ls : List (Nat × Bool)) (cells : Array Nat) (mv lv cv : Nat) (o : OsmRun) (i : Nat) : OsmRun :=
  let m := osmElem o.out (mv + 4 * i) (ms.getD i (0, false))
  let l := osmElem o.out (lv + 4 * i) (ls.getD i (0, false))
  let r := osmRow m.1 l.1 ((List.range 64).map fun j => cells.getD (64 * i + j) 0)
  { out := (cv + 4 * i, r.2.2.1) :: (mv + 4 * i, r.2.1) :: (lv + 4 * i, r.1) :: o.out
    ms := o.ms ++ [m]
    ls := o.ls ++ [l]
    cells := o.cells ++ r.2.2.2.1.map fun x => BitVec.ofNat 32 x
    flags := o.flags ||| r.2.2.2.2 }

/-- The rows of `osm.max` in order. -/
def osmRows (ms ls : List (Nat × Bool)) (cells : Array Nat) (mv lv cv : Nat) : OsmRun :=
  (List.range 128).foldl (osmNext ms ls cells mv lv cv) ⟨[], [], [], [], 0⟩

/-- osm.max (R273). -/
def stepOsmMax (c : MxCmd) (k : Nat) (mv lv cv : Nat) : Prog :=
  .dyn fun s =>
    match s.team? c.team with
    | none => .done
    | some t =>
      let cells := ((t.tiles.getD k ⟨0, []⟩).all.map BitVec.toNat).toArray
      let o := osmRows (readVec t mv) (readVec t lv) cells mv lv cv
      let bad := o.ms.any Prod.snd || o.ls.any Prod.snd
      let vec := fun (v : Nat) => vecBytes ((List.range 128).map fun i => (o.out.lookup (v + 4 * i)).getD 0)
      .all [
        .all (logVec c o.ms ++ logVec c o.ls),
        .change fun s => spTouch c.team [(mv, 512), (lv, 512)] (raiseMx c.team
          (osmFlags o.flags ||| (if bad then mxUe else 0)) (setCells c.team k o.cells s)),
        spWriteLogged true c.team lv (vec lv),
        spWriteLogged true c.team mv (vec mv),
        spWriteLogged true c.team cv (vec cv)]

/-- osm.acc (R274). -/
def stepOsmAcc (c : MxCmd) (k cv : Nat) : Prog :=
  .dyn fun s =>
    match s.team? c.team with
    | none => .done
    | some t =>
      let cs := readVec t cv
      let fac := cs.toArray
      let res := (t.tiles.getD k ⟨0, []⟩).all.zipIdx.map fun x =>
        fmtF32.mulV 0 (fmtF32.read x.1.toNat) (fmtF32.read (fac.getD (x.2 / 64) (0, false)).1)
      .all [
        .all (logVec c cs),
        .change fun s => spTouch c.team [(cv, 512)] (raiseMx c.team
          (osmFlags (orFlags (res.map Prod.snd)) ||| (if cs.any Prod.snd then mxUe else 0))
          (setCells c.team k (res.map fun r => BitVec.ofNat 32 r.1) s))]

/-- mld (R272): an uncorrectable word gives zeros (R271). -/
def stepMld (c : MxCmd) (k : Nat) (off pitch : Int) : Prog :=
  .dyn fun s =>
    match s.team? c.team with
    | none => .done
    | some t =>
      let row := fun (i : Nat) => (off + (i : Int) * pitch).toNat
      let cell := fun (i j : Nat) => let a := row i + 4 * j; if spBad t a 4 then (0 : Nat) else bytesNat (spBytes t a 4)
      let bad := if t.spSyn.isEmpty then [] else (List.range 128).flatMap fun i => (List.range 32).filterMap fun w =>
        if spBad t (row i + 8 * w) 8 then some (i, 2 * w) else none
      .all [
        .all (bad.map fun b => logMx c 0xFFFF b.1 b.2),
        .change fun s => spTouch c.team ((List.range 128).map fun i => (row i, 256)) (raiseMx c.team (if bad.isEmpty then 0 else mxUe)
          (setCells c.team k ((List.range 128).flatMap fun i => (List.range 64).map fun j => BitVec.ofNat 32 (cell i j)) s))]

/-- The rows that `mst` writes, as offsets and bytes, with its flags (R272). DEDUCED (log entry 42): they are written in this order, which shows
where rows or panels overlap. -/
def mstRows (form m d : Nat) (off pitch : Int) (cells : List Lane) : List (Nat × List Byte) × BitVec 8 :=
  let arr := cells.toArray
  let cell := fun (i j : Nat) => (arr.getD (64 * i + j) 0).toNat
  match form with
  | 0 => ((List.range 128).map fun (i : Nat) => ((off + (i : Int) * pitch).toNat, (List.range 64).flatMap fun (j : Nat) => natBytes 4 (cell i j)), 0)
  | 1 =>
    let rs := (List.range 128).map fun i => (List.range 64).map fun j => fmtBF16.convert 0 (fmtF32.read (cell i j))
    (rs.zipIdx.map fun r => ((off + (r.2 : Int) * pitch).toNat, r.1.flatMap fun x => natBytes 2 x.1),
      if rs.any fun r => r.any fun x => x.2 &&& ffNv != 0 then mxNv else 0)
  | _ =>
    let bs := [0, 1].flatMap fun c => (List.range 128).map fun i =>
      (c, i, dxBuild m d ((List.range 32).map fun j => fmtF32.read (cell i (32 * c + j))))
    (bs.map fun b => ((off + (b.1 : Int) * pitch).toNat + b.2.1 * (4 * (3 + m)), b.2.2.1.flatMap fun w => natBytes 4 w),
      (bs.map fun b => mxOfFlags b.2.2.2).foldl (· ||| ·) 0)

/-- mst (R272): the tile is unchanged. -/
def stepMst (c : MxCmd) (k form m d : Nat) (off pitch : Int) : Prog :=
  .dyn fun s =>
    match s.team? c.team with
    | none => .done
    | some t =>
      let r := mstRows form m d off pitch (t.tiles.getD k ⟨0, []⟩).all
      .all [.change (raiseMx c.team r.2), .all (r.1.map fun w => spWriteLogged true c.team w.1 w.2)]

/-- One step of a command: a K-step of `mloop`, or the whole of any other command (R263). -/
def stepMx (c : MxCmd) : Prog :=
  let fin := Prog.change fun s => s.modMx c.id fun q => { q with finished := true }
  match c.op with
  | .mloop sparse x a b ai bi mask md mi => stepMloop c sparse x a b ai bi mask md mi
  | .mzero k _ => .all [.change (setCells c.team k []), fin]
  | .mld k _ off pitch => .all [stepMld c k off pitch, fin]
  | .mst k form m d off pitch => .all [stepMst c k form m d off pitch, fin]
  | .osmMax k mv lv cv => .all [stepOsmMax c k mv.toNat lv.toNat cv.toNat, fin]
  | .osmAcc k cv => .all [stepOsmAcc c k cv.toNat, fin]

/-- The head command of a group is ready (R263): no earlier one of the team names the same tile, and the scoreboard does not hold it. -/
def mxReady (s : State) (c : MxCmd) : Bool :=
  !c.finished
    && !(s.mxcmds.any fun o => o.gid == c.gid && o.seq < c.seq && !o.finished)
    && !(s.mxcmds.any fun o => o.team == c.team && o.seq < c.seq && o.op.tile == c.op.tile)
    && !cmdHeld s c.team c.seq c.id
    && c.op.ranges.all fun r => poolAwake s c.team r.1.toNat (r.2.1 - r.1).toNat

/-- The command of a team that is served next: ascending slots, rotating after the slot served last (R263). -/
def nextOfTeam (s : State) (e : MxEngine) (tid : Nat) : Option MxCmd :=
  let heads := s.mxcmds.filter fun c => c.team == tid && c.pair == e.pair && mxReady s c
  let low := fun (cs : List MxCmd) => cs.foldl (fun (b : Option MxCmd) c => match b with
    | none => some c
    | some x => if c.slotNo < x.slotNo then some c else some x) none
  match e.rot.lookup tid with
  | none => low heads
  | some k => match low (heads.filter fun c => k < c.slotNo) with
    | some c => some c
    | none => low heads

/-- The position of the wheel that is served next, and its command (R263). -/
def nextServed (s : State) (e : MxEngine) : Option (Nat × MxCmd) :=
  firstSome ([1, 2, 3, 4].map fun d =>
    let p := (e.pos + d) % 4
    ((e.wheel.getD p none).bind (nextOfTeam s e)).map fun c => (p, c))

/-- MATRIX_ENGINE_STEP (R263). -/
def execMatrixEngineStep (pair : Nat) (s : State) : Host.Outcome State Fault Refusal :=
  commit s (.dyn fun s =>
    match nextServed s (engineOf s pair) with
    | none => .done
    | some (p, c) => .all [
        .change (modEngine pair fun e => { e with pos := p, rot := (c.team, c.slotNo) :: e.rot.filter fun r => r.1 != c.team }),
        stepMx c])

/-- MATRIX_COMMAND_COMPLETE (R253, R263): its results are complete in the tile. -/
def execMatrixCommandComplete (cmd : Nat) (s : State) : Host.Outcome State Fault Refusal :=
  commit s (.change fun s =>
    match s.mxcmds.find? fun c => c.id == cmd with
    | none => s
    | some c =>
      if !c.finished then s
      else returnShares c.team (cmdDone c.gid c.launch c.id { s with mxcmds := s.mxcmds.filter fun x => x.id != cmd }))

end Sys2Proof.Machine
end

