-- ==== Sys2Proof/Machine/Queues.lean ====
section
/-! DEFINITION. Hardware queues (R322 to R325), Moorings bins (R327 to R329), jettys (R330 to R333), and the launches that bins hand to
admission. -/

namespace Sys2Proof.Machine

/-! ### Issue (R322, R324) -/

/-- A status word (R322). -/
def statusWord (ring : Bool) (reason status : Nat) : Word := BitVec.ofNat 64 ((if ring then 65536 else 0) + 256 * reason + status)

/-- Uniform registers marked empty. -/
def emptyRegs (gid : Nat) (rs : List Nat) (s : State) : State := s.modGrp gid fun g => rs.foldl (fun g r => g.emptyS r) g

/-- The answer of a request to uniform registers, unless it is dropped (R322). -/
def answerRegs (r : Req) (vs : List (Nat × Word × Bool)) (s : State) : State :=
  finishReq r.id (if r.drop then s else s.modGrp r.gid fun g => vs.foldl (fun g v => g.setS s.now v.1 v.2.1 v.2.2) g)

/-- The registers of a data block. -/
def dataRegs (f : UR) (n : Nat) : List Nat := (List.range n).map (f.sb.toNat + ·)

/-- The translation of a structure's address (R324). -/
def structLoc (s : State) (g : Group) (va : Word) : Trans := translate s (dieOfCore g.core) (some g.core) g.part va needRW

/-- The checks of R324 items 2 to 4. -/
def structCheck (i : Instr) (align : Nat) (s : State) (g : Group) (va : Word) : Option Report :=
  firstSome [
    alignCheck i align [(0, va)],
    transCheck i s g 1 needRW [(0, va)],
    match structLoc s g va with
      | .ok pa _ => if inSram pa then none else some ⟨.prot, 9, 0, 0, va, word0Of i, 0⟩
      | .fail _ => none]

/-- A queue or bin instruction (R322, R324): its request names the header, and how far the header's page reaches beyond it. -/
def structPlan (i : Instr) (f : UR) (align : Nat) (srcs dsts : List Nat) (acq rel : Bool) (op : Group → Word → Nat → ReqOp) : Plan where
  acts := .group
  srcs := .s f.sa.toNat (f.fn.getLsbD 0) :: srcs.map fun r => .s r (f.fn.getLsbD 0)
  dsts := (f.sd.toNat :: dsts).map .s
  cls := some 6
  tq := true
  release := rel
  closes := fun _ _ _ => true
  touches := fun s g eff =>
    if eff = 0 then [] else transReads s (dieOfCore g.core) (some g.core) g.part (g.s f.sa.toNat) needRW
  check := fun s g eff => if eff = 0 then none else structCheck i align s g (g.s f.sa.toNat)
  effect := fun s g _ => .change fun t =>
    let va := g.s f.sa.toNat
    match structLoc s g va with
    | .fail _ => t
    | .ok pa e =>
      let r := { newReq s g 0 6 false [⟨pa, align, false, false⟩] (op g va (e.vbase + e.size - va.toNat)) with acq := acq, rel := rel }
      addReqs [r] (emptyRegs g.gid (f.sd.toNat :: dsts) (installAll g 1 needRW [(0, va)] t))

/-- q.push (R324). -/
def planQPush (h : Hdr) (f : UR) : Plan :=
  structPlan (.qPush h f) f 64 (dataRegs f 8) [] false true fun g _ room =>
    .qPush ((dataRegs f 8).map g.s) f.sd.toNat room

/-- The meaning of Q_PUSH. -/
def execQPush (h : Hdr) (f : UR) : State → Host.Outcome State Fault Refusal :=
  runPlan (.qPush h f) h (planQPush h f)

/-- q.pop (R324). -/
def planQPop (h : Hdr) (f : UR) : Plan :=
  structPlan (.qPop h f) f 64 [] (dataRegs f 8) true false fun _ _ room => .qPop f.sd.toNat f.sb.toNat room

/-- The meaning of Q_POP. -/
def execQPop (h : Hdr) (f : UR) : State → Host.Outcome State Fault Refusal :=
  runPlan (.qPop h f) h (planQPop h f)

/-- bin.put (R328). -/
def planBinPut (h : Hdr) (f : UR) : Plan :=
  structPlan (.binPut h f) f 128 (dataRegs f 8) [] false true fun g va room =>
    .binPut ((dataRegs f 8).map g.s) va f.sd.toNat room

/-- The meaning of BIN_PUT. -/
def execBinPut (h : Hdr) (f : UR) : State → Host.Outcome State Fault Refusal :=
  runPlan (.binPut h f) h (planBinPut h f)

/-! ### Queues at their slice (R323, R324) -/

/-- Words that a slice reads of a structure. -/
def structWords (s : State) (pa n : Nat) : List Word := (List.range n).map fun k => unitWord s (pa + 8 * k)

/-- The block of `n` bytes ends within the page, which reaches `room` bytes beyond the header, and within the slice. -/
def blockFits (pa room n : Nat) : Bool := n ≤ room && (pa - sramBase) % 0x200000 + n ≤ 0x200000

/-- The fields of a queue header (R323). -/
structure QHead where
  cap : Nat
  rhead : Nat
  rcount : Nat
  spill : Bool
  qhead : Nat
  qcount : Nat
  pushed : Word
  popped : Word
  deriving DecidableEq, Repr

/-- A queue header read. -/
def QHead.of (ws : List Word) : QHead :=
  let w1 := ws.getD 1 0
  ⟨bitsOf (ws.getD 0 0) 0 16, bitsOf w1 32 16, bitsOf w1 16 16, w1.getLsbD 15, bitsOf w1 8 5, bitsOf w1 0 6, ws.getD 2 0, ws.getD 3 0⟩

/-- w1 to w3 of a queue header. -/
def QHead.words (h : QHead) : List Word :=
  [BitVec.ofNat 64 (h.rhead * 2 ^ 32 + h.rcount * 2 ^ 16 + (if h.spill then 2 ^ 15 else 0) + h.qhead * 2 ^ 8 + h.qcount), h.pushed, h.popped]

/-- The header is invalid (R323). -/
def queueBad (ws : List Word) (pa room : Nat) : Bool :=
  let h := QHead.of ws
  let w1 := ws.getD 1 0
  bitsOf (ws.getD 0 0) 16 48 != 0 || bitsOf w1 48 16 != 0 || bitsOf w1 13 2 != 0 || bitsOf w1 6 2 != 0
    || ws.getD 4 0 != 0 || ws.getD 5 0 != 0 || ws.getD 6 0 != 0 || ws.getD 7 0 != 0
    || h.cap = 0 || h.cap ≤ h.rhead || h.cap < h.rcount || 32 < h.qcount || h.spill != decide (0 < h.rcount)
    || !blockFits pa room (2112 + 64 * h.cap)

/-- Entry `k` of a queue. -/
def queueEntry (pa k : Nat) : Nat := pa + 64 + 64 * k

/-- Ring record `k` of a queue. -/
def queueRing (pa k : Nat) : Nat := pa + 2112 + 64 * k

/-- A record written by a slice. -/
def writeWords (a : Nat) (ws : List Word) : Prog := agentWrite a (wordsBytes ws)

/-- A push is performed (R324). -/
def queuePush (r : Req) (pa : Nat) (x : List Word) (sd room : Nat) : Prog :=
  .dyn fun s =>
    let ws := structWords s pa 8
    let h := QHead.of ws
    let say := fun (ring : Bool) (reason status : Nat) => Prog.change (answerRegs r [(sd, statusWord ring reason status, false)])
    .all [
      touchWords s ((List.range 8).map fun k => pa + 8 * k),
      if queueBad ws pa room then say false 2 1
      else if !h.spill && h.qcount < 32 then
        .all [
          writeWords (queueEntry pa ((h.qhead + h.qcount) % 32)) x,
          writeWords (pa + 8) { h with qcount := h.qcount + 1, pushed := h.pushed + 1 }.words,
          say false 0 0]
      else if h.rcount = h.cap then say false 0 2
      else
        .all [
          writeWords (queueRing pa ((h.rhead + h.rcount) % h.cap)) x,
          writeWords (pa + 8) { h with rcount := h.rcount + 1, spill := true, pushed := h.pushed + 1 }.words,
          say true 0 0]]

/-- A pop is performed (R324): while the queue is spilled it refills one entry from the ring in the same action. -/
def queuePop (r : Req) (pa sd sb room : Nat) : Prog :=
  .dyn fun s =>
    let ws := structWords s pa 8
    let h := QHead.of ws
    let say := fun (reason status : Nat) (y : Nat → Word × Bool) =>
      Prog.change (answerRegs r ((sd, statusWord false reason status, false) :: (List.range 8).map fun k => (sb + k, y k)))
    let zero := fun (_ : Nat) => ((0 : Word), false)
    .all [
      touchWords s ((List.range 8).map fun k => pa + 8 * k),
      if queueBad ws pa room then say 2 1 zero
      else if h.qcount = 0 then say 0 5 zero
      else
        let a := queueEntry pa h.qhead
        let b := queueRing pa h.rhead
        let y := fun (k : Nat) => (devWord s (a + 8 * k), devBad s (a + 8 * k) 8)
        let qh := (h.qhead + 1) % 32
        let h1 := { h with qhead := qh, qcount := h.qcount - 1, popped := h.popped + 1 }
        let h2 := { h1 with qcount := h.qcount, rhead := (h.rhead + 1) % h.cap, rcount := h.rcount - 1, spill := decide (1 < h.rcount) }
        .all [
          touchWords s ((List.range 8).map fun k => a + 8 * k),
          if h.spill then
            .all [
              touchWords s ((List.range 8).map fun k => b + 8 * k),
              writeWords (queueEntry pa ((qh + (h.qcount - 1)) % 32)) (structWords s b 8),
              writeWords (pa + 8) h2.words]
          else writeWords (pa + 8) h1.words,
          say 0 0 y]]

/-! ### Moorings bins at their slice (R327 to R329) -/

/-- The fields of a bin header (R327). -/
structure BinHead where
  task : Nat
  coal : Nat
  nsm1 : Nat
  period : Nat
  cur : Nat
  fill : Nat
  remain : Nat
  deriving DecidableEq, Repr

/-- A bin header read. -/
def BinHead.of (ws : List Word) : BinHead :=
  let w0 := ws.getD 0 0
  let w1 := ws.getD 1 0
  ⟨bitsOf w0 48 16, bitsOf w0 40 8, bitsOf w0 32 8, bitsOf w0 0 24, bitsOf w1 48 8, bitsOf w1 32 6, bitsOf w1 0 24⟩

/-- w1 of a bin header. -/
def BinHead.word (h : BinHead) : Word := BitVec.ofNat 64 (h.cur * 2 ^ 48 + h.fill * 2 ^ 32 + h.remain)

/-- The header is invalid (R327). -/
def binBad (ws : List Word) (pa room : Nat) : Bool :=
  let h := BinHead.of ws
  let w1 := ws.getD 1 0
  bitsOf (ws.getD 0 0) 24 8 != 0 || bitsOf w1 56 8 != 0 || bitsOf w1 38 10 != 0 || bitsOf w1 24 8 != 0
    || bitsOf (ws.getD 8 0) 52 12 != 0 || ((List.range 7).any fun k => ws.getD (9 + k) 0 != 0)
    || h.coal = 0 || 32 < h.coal || h.coal ≤ h.fill || h.nsm1 < h.cur || !blockFits pa room (128 + 2048 * (h.nsm1 + 1))

/-- A slot is busy (R327). -/
def binBusy (ws : List Word) (k : Nat) : Bool := (ws.getD (4 + k / 64) 0).getLsbD (k % 64)

/-- Timers that run at a slice (R328). -/
def timersAt (s : State) (slice : Nat) : Nat := s.binTimers.countP fun t => homeSlice t.pa == slice

/-- Closing the slot of a bin (R329), whose last put was of partition `p`. -/
def binClose (p pa : Nat) : Prog :=
  .dyn fun s =>
    let ws := structWords s pa 9
    let h := BinHead.of ws
    let vbase := ws.getD 8 0
    let slice := homeSlice pa
    let d := readDesc s p h.task
    .all [
      touchWords s (((List.range 9).map fun k => pa + 8 * k) ++ descWords s p h.task),
      writeWords (pa + 32 + 8 * (h.cur / 64)) [ws.getD (4 + h.cur / 64) 0 ||| BitVec.ofNat 64 (2 ^ (h.cur % 64))],
      writeWords (pa + 24) [ws.getD 3 0 + 1],
      writeWords (pa + 8) [{ h with fill := 0, cur := (h.cur + 1) % (h.nsm1 + 1) }.word],
      .change fun s =>
        let x : Start := {
          id := s.nextId
          slice := slice
          part := p
          task := h.task
          teams := 1
          cls := none
          desc := d
          args := [vbase + BitVec.ofNat 64 (128 + 2048 * h.cur), BitVec.ofNat 64 h.fill, vbase, BitVec.ofNat 64 h.cur]
          source := .bin slice pa h.cur
          held := none }
        { s with
          binLaunches := s.binLaunches ++ [x]
          binTimers := s.binTimers.filter fun t => t.pa != pa
          nextId := s.nextId + 1 }]

/-- A record put into a bin (R328); `k` takes the status and the reason. -/
def binPutWith (p pa room : Nat) (va : Word) (x : List Word) (k : Nat → Nat → Prog) : Prog :=
  .dyn fun s =>
    let ws := structWords s pa 16
    let h := BinHead.of ws
    .all [
      touchWords s ((List.range 16).map fun k => pa + 8 * k),
      if binBad ws pa room then k 1 2
      else if binBusy ws h.cur then k 2 0
      else if h.fill = 0 && h.period != 0 && 64 ≤ timersAt s (homeSlice pa) then k 1 1
      else
        let start := h.fill = 0 && h.period != 0
        .all [
          writeWords (pa + 128 + 2048 * h.cur + 64 * h.fill) x,
          writeWords (pa + 8) [{ h with fill := h.fill + 1, remain := if start then h.period else h.remain }.word, ws.getD 2 0 + 1],
          writeWords (pa + 64) [va],
          .change fun s =>
            if start then
              { s with
                binTimers := (s.binTimers.filter fun t => t.pa != pa) ++ [⟨s.nextId, pa, p⟩]
                nextId := s.nextId + 1 }
            else { s with binTimers := s.binTimers.map fun t => if t.pa == pa then { t with part := p } else t },
          if h.fill + 1 = h.coal then binClose p pa else .done,
          k 0 0]]

/-- BIN_TIMER_EXPIRY (R328): a timer whose count has reached 0 closes the slot that holds records.
DEDUCED (log entry 45): it does not test the header. -/
def execBinTimerExpiry (bin : Nat) (s : State) : Host.Outcome State Fault Refusal :=
  commit s (.dyn fun s =>
    match s.binTimers.find? fun t => t.id == bin with
    | none => .done
    | some t =>
      let ws := structWords s t.pa 2
      let h := BinHead.of ws
      if h.remain != 0 || !awakeWords s ([t.pa, t.pa + 56] ++ descWords s t.part h.task) then .done
      else if h.fill = 0 then .change fun s => { s with binTimers := s.binTimers.filter fun x => x.id != bin }
      else binClose t.part t.pa)

/-- A slot of a bin is free again (R329). -/
def freeBinSlot (src : Source) : Prog :=
  match src with
  | .bin _ pa k => .dyn fun s =>
    let a := pa + 32 + 8 * (k / 64)
    .all [touchWords s [a], writeWords a [unitWord s a &&& ~~~(BitVec.ofNat 64 (2 ^ (k % 64)))]]
  | _ => .done

/-- The slot that a source names lies in a slice that takes work. -/
def sourceAwake (s : State) (src : Source) : Bool := match src with
  | .bin _ pa k => awakeAt s (pa + 32 + 8 * (k / 64))
  | _ => true

/-- The first launch that a slice's bins wait to hand over for a partition (R329). -/
def nextBinStart (s : State) (slice p : Nat) : Option Start := s.binLaunches.find? fun x => x.slice == slice && x.part == p

/-- A bin's launch has left its slice. -/
def dropBinStart (id : Nat) (s : State) : State := { s with binLaunches := s.binLaunches.filter fun x => x.id != id }

/-- BIN_LAUNCH_HANDOFF (R329): as the Slipway hands over; a launch that fails frees its slot. -/
def execBinLaunchHandoff (slice p : Nat) (s : State) : Host.Outcome State Fault Refusal :=
  commit s (.dyn fun s =>
    match nextBinStart s slice p with
    | none => .done
    | some x =>
      if x.held.isSome || (s.part p).state == .resetting || !sourceAwake s x.source then .done
      else reading s (startReads s x) (match checkStart s x with
        | .error n => .all [launchFails p x.source x.task n, .change (dropBinStart x.id), freeBinSlot x.source]
        | .ok l =>
          if mustWait s p l.cls then
            .change fun s => { s with binLaunches := s.binLaunches.map fun y => if y.id == x.id then { y with held := some l } else y }
          else .change fun s => dropBinStart x.id (enterQueue l s)))

/-! ### Jettys (R330 to R333) -/

/-- A jetty instruction (R331). -/
def jettyPlan (i : Instr) (f : UR) (srcs dsts : List Nat) (park acq : Bool) (op : Group → Nat → ReqOp) : Plan where
  acts := .group
  srcs := .s f.sa.toNat (f.fn.getLsbD 0) :: srcs.map fun r => .s r (f.fn.getLsbD 0)
  dsts := (f.sd.toNat :: dsts).map .s
  cls := some 6
  tq := true
  release := !acq
  closes := fun _ _ _ => true
  wt := fun _ _ eff => park && eff != 0
  check := fun _ g eff =>
    let v := g.s f.sa.toNat
    if eff = 0 then none else failIf (bitsOf v 10 54 != 0) .bound i v
  effect := fun s g _ => .change fun t =>
    let r := { newReq s g 0 6 false [] (op g (bitsOf (g.s f.sa.toNat) 0 10)) with acq := acq, rel := !acq, wt := park }
    let t := emptyRegs g.gid (f.sd.toNat :: dsts) t
    addReqs [r] (if park then t.modGrp g.gid fun h => { h with hold := .jetty } else t)

/-- jy.push (R331). -/
def planJyPush (h : Hdr) (f : UR) : Plan :=
  jettyPlan (.jyPush h f) f (dataRegs f 2) [] false false fun g j =>
    .jyPush j (g.s f.sb.toNat) (g.s (f.sb.toNat + 1)) f.sd.toNat

/-- The meaning of JY_PUSH. -/
def execJyPush (h : Hdr) (f : UR) : State → Host.Outcome State Fault Refusal :=
  runPlan (.jyPush h f) h (planJyPush h f)

/-- jy.pop and jy.pop.park (R331, R332): a parking pop holds its group until it is answered. -/
def planJyPop (h : Hdr) (f : UR) : Plan :=
  let park := f.fn.getLsbD 1
  jettyPlan (.jyPop h f) f [] (dataRegs f 2) park true fun _ j => .jyPop j f.sd.toNat f.sb.toNat park

/-- The meaning of JY_POP. -/
def execJyPop (h : Hdr) (f : UR) : State → Host.Outcome State Fault Refusal :=
  runPlan (.jyPop h f) h (planJyPop h f)

/-- The jetty of a number. -/
def State.jetty? (s : State) (j : Nat) : Option Jetty := s.jettys.find? fun x => x.num == j

/-- Changes one jetty. -/
def State.modJetty (s : State) (j : Nat) (f : Jetty → Jetty) : State :=
  { s with jettys := s.jettys.map fun x => if x.num == j then f x else x }

/-- The address of a token (R330). -/
def tokenAt (j : Jetty) (i : Nat) : Nat := j.ringpa + 16 * ((j.head + i) % (j.capm1 + 1))

/-- The answer of a pop: that of a parking pop lets its group go on. DEDUCED (log entry 44): the data come after the status. -/
def answerPop (r : Req) (sd sb : Nat) (v : Nat) (t : Nat → Word × Bool) (s : State) : State :=
  let s := answerRegs r [(sd, BitVec.ofNat 64 v, false), (sb, t 0), (sb + 1, t 1)] s
  match r.op with
  | .jyPop _ _ _ true => s.modGrp r.gid fun g => if g.hold == .jetty then { g with hold := .none } else g
  | _ => s

/-- The oldest token is delivered to a pop (R331). -/
def jettyTake (r : Req) (j sd sb : Nat) : Prog :=
  .dyn fun s =>
    match s.jetty? j with
    | none => .done
    | some q =>
      let a := tokenAt q 0
      .all [
        touchWords s [a, a + 8],
        .change fun t => answerPop r sd sb 0 (fun k => (devWord s (a + 8 * k), devBad s (a + 8 * k) 8))
          (t.modJetty j fun q => { q with head := (q.head + 1) % (q.capm1 + 1), count := q.count - 1, popped := q.popped + 1 })]

/-- The consumer that parked first at a jetty (R332). -/
def firstParked (s : State) (j : Nat) : Option Req :=
  firstPark (s.reqs.filter fun r => match r.op with
    | .jyPop k _ _ _ => r.isParked && k == j
    | _ => false)

/-- An earlier operation of the group on the same jetty is still to be performed (R322). -/
def heldByJetty (s : State) (r : Req) (j : Nat) : Bool :=
  s.reqs.any fun o => o.gid == r.gid && o.seq < r.seq && (match o.op with
    | .jyPush k .. => k == j
    | .jyPop k .. => k == j
    | _ => false)

/-- The right to an end of a jetty, and whether it is reset (R331). -/
def jettyState (s : State) (p j : Nat) (push : Bool) : Option Nat :=
  match s.jetty? j with
  | none => some 3
  | some q => if p != (if push then q.prod else q.cons) then some 3 else if q.prst || q.crst then some 4 else none

/-- A jy.push is performed (R331): a token for a parked consumer is delivered in the same action. -/
def jettyPush (r : Req) (j : Nat) (t0 t1 : Word) (sd : Nat) : Prog :=
  .dyn fun s =>
    let say := fun (reason status : Nat) => Prog.change (answerRegs r [(sd, statusWord false reason status, false)])
    match s.jetty? j, jettyState s r.part j true with
    | some q, none =>
      if q.count = q.capm1 + 1 then say 0 2
      else .all [
        writeWords (tokenAt q q.count) [t0, t1],
        .change fun s => s.modJetty j fun q => { q with count := q.count + 1, pushed := q.pushed + 1 },
        say 0 0,
        .dyn fun s => match firstParked s j with
          | some c => (match c.op with
            | .jyPop _ csd csb _ => jettyTake c j csd csb
            | _ => .done)
          | none => .done]
    | _, some 4 => .all [.change (countEvent r.part 2), say 0 4]
    | _, _ => say 3 1

/-- A jy.pop is performed (R331, R332): it parks on an empty jetty, unless the slice's watches are all in use (R282) or its launch has
ended, so that nothing of it waits any more (R362). -/
def jettyPop (r : Req) (j sd sb : Nat) (park : Bool) : Prog :=
  .dyn fun s =>
    let say := fun (v : Word) => Prog.change (answerPop r sd sb v.toNat fun _ => (0, false))
    match s.jetty? j, jettyState s r.part j false with
    | some q, none =>
      if q.count != 0 then jettyTake r j sd sb
      else if !park || r.drop then say (statusWord false 0 5)
      else
        if 128 ≤ watchesAt s (homeSlice q.ringpa) then
          .change fun s => s.modReq r.id fun x => { x with phase := .rearm (s.now + 64), wt := false }
        else .change (Machine.park r.id fun x => { x with watch := true, pieces := [⟨q.ringpa, 0, false, false⟩] })
    | _, some 4 => .all [.change (countEvent r.part 2), say (statusWord false 0 4)]
    | _, _ => say (statusWord false 3 1)

/-- Both ends of a jetty are reset (R333): its tokens are dropped and its parked consumers wake with RESET (R332). -/
def resetJetty (j : Nat) (s : State) : State :=
  let s := s.modJetty j fun q => { q with prst := true, crst := true, count := 0 }
  let here := s.reqs.filter fun r => match r.op, r.phase with
    | .jyPop k _ _ _, .parked _ => k == j
    | _, _ => false
  here.foldl (fun s r => match r.op with
    | .jyPop _ sd sb _ => countEvent r.part 2 (answerPop r sd sb 4 (fun _ => (0, false)) s)
    | _ => s) s

/-- The arrays that hold a queue are awake, where its header is valid (R383). -/
def queueAwake (s : State) (pa room : Nat) : Bool :=
  let ws := structWords s pa 8
  queueBad ws pa room || awake s pa (2112 + 64 * (QHead.of ws).cap)

/-- The arrays that hold a bin are awake, and its task's descriptor, where its header is valid (R383, R405). -/
def binAwake (s : State) (p pa room : Nat) : Bool :=
  let ws := structWords s pa 16
  binBad ws pa room || (awake s pa (128 + 2048 * ((BinHead.of ws).nsm1 + 1)) && awakeWords s (descWords s p (BinHead.of ws).task))

/-- Every array that an operation on a structure reaches is awake. -/
def structAwake (s : State) (r : Req) : Bool :=
  match r.op, r.pieces with
  | .qPush _ _ room, p :: _ => queueAwake s p.addr room
  | .qPop _ _ room, p :: _ => queueAwake s p.addr room
  | .binPut _ _ _ room, p :: _ => binAwake s r.part p.addr room
  | .jyPush j .., _ => jettyAwake j
  | .jyPop j .., _ => jettyAwake j
  | _, _ => true
where
  /-- The ring of a jetty is awake. -/
  jettyAwake (j : Nat) : Bool := match s.jetty? j with
    | some q => awake s q.ringpa (16 * (q.capm1 + 1))
    | none => true

/-- A queue, bin or jetty operation is performed at its home slice. -/
def tqPerform (r : Req) : Prog :=
  match r.op, r.pieces with
  | .qPush x sd room, p :: _ => queuePush r p.addr x sd room
  | .qPop sd sb room, p :: _ => queuePop r p.addr sd sb room
  | .binPut x va sd room, p :: _ =>
    binPutWith r.part p.addr room va x fun status reason => .change (answerRegs r [(sd, statusWord false reason status, false)])
  | .jyPush j t0 t1 sd, _ => .dyn fun s => if heldByJetty s r j then .done else jettyPush r j t0 t1 sd
  | .jyPop j sd sb park, _ => .dyn fun s => if heldByJetty s r j then .done else jettyPop r j sd sb park
  | _, _ => .done

end Sys2Proof.Machine
end

