-- ==== Sys2Proof/Machine/Watch.lean ====
section
/-! DEFINITION. Waits that are retried (R281, R282), the watchdog (R284, R285), replies to PAGE entries and entries that waited for
space (R366, R367), and the timers of event classes (R52). -/

namespace Sys2Proof.Machine

/-! ### Retries -/

/-- WAIT_TABLE_RETRY (R281): 64 cc after a refusal the group competes again. -/
def execWaitTableRetry (group : Nat) (s : State) : Host.Outcome State Fault Refusal :=
  commit s (.change fun s => s.modGrp group fun g => if g.retryAt ≤ s.now then { g with retryAt := 0 } else g)

/-- WATCH_REARM (R282): the core claims an entry again, where one is free, and the read and arm are sent again. -/
def execWatchRearm (req : Nat) (s : State) : Host.Outcome State Fault Refusal :=
  commit s (.change fun s =>
    match s.reqs.find? fun r => r.id == req with
    | none => s
    | some r => match r.phase with
      | .rearm t => if t ≤ s.now && waitTable s r.core < 64 then s.modReq req fun r => { r with phase := .flying, wt := true } else s
      | _ => s)

/-! ### What an instruction waits on (R110) -/

/-- The V sources of the VR instructions that read both operands. -/
def vrBoth (f : VR) : List VSrc := [vrA f, vrB f]

/-- The V sources whose emptiness can hold the issue of an instruction (R110 item 3). -/
def heldSources (g : Group) : Instr → List VSrc
  | .abs _ f | .neg _ f | .notVr _ f | .movVr _ f | .popc _ f | .clz _ f | .ctz _ f | .brev _ f | .sqrt _ f | .exp2 _ f | .log2 _ f
  | .rcp _ f | .rsqrt _ f | .tanh _ f | .sigm _ f | .rndi _ f | .fclass _ f | .scan _ f | .red _ f | .kpush _ f => [vrB f]
  | .addVr _ f | .subVr _ f | .mulVr _ f | .mulhi _ f | .minVr _ f | .maxVr _ f | .div _ f | .rem _ f | .shlVr _ f | .shrVr _ f
  | .rshrVr _ f | .adiff _ f | .andVr _ f | .orVr _ f | .xorVr _ f | .andn _ f | .bdep _ f | .bext _ f | .bperm _ f | .gfmat _ f
  | .scale _ f | .copysign _ f => vrBoth f
  | .shflVr _ f => [vrA f, { srcA f.vb f.lrb f.ebb 0 with pair := false }]
  | .mad _ f | .fma _ f | .bfi _ f =>
    [srcA f.va f.lra f.eba f.type, srcA f.vb f.lrb f.ebb f.type, srcA f.vc f.lrc f.ebc f.type]
  | .addVi _ f | .rsub _ f | .mulVi _ f | .andVi _ f | .orVi _ f | .xorVi _ f | .shlVi _ f | .shrVi _ f | .rshrVi _ f | .minVi _ f
  | .maxVi _ f | .bfx _ f => [srcA f.va f.lra f.eba f.type]
  | .tagSet _ f => [{ srcA f.va f.lra f.eba 0 with pair := f.imm.extractLsb' 0 4 == 7 || f.imm.extractLsb' 0 4 == 8 }]
  | .addVs _ f | .subVs _ f | .mulVs _ f | .andVs _ f | .orVs _ f | .xorVs _ f | .shlVs _ f | .shrVs _ f | .minVs _ f | .maxVs _ f
  | .lea _ f | .shflVs _ f => [srcA f.va f.lra f.eba f.type]
  | .cvt _ f => [cvSrc f (isPairType f.stype)]
  | .cvtTodx _ f => [cvSrc f (dxPair f.stype g.width)]
  | .cvtFromdx _ f => [cvSrc f false]
  | .cmp _ f => vpSrcs f
  | .tagChk _ f => [{ srcA f.va f.lra f.eba 0 with pair := false }]
  | .movSv _ f => [srcA f.va f.lra f.eba f.type]
  | .xv h f => { srcA f.vop f.lro f.ebo 0 with pair := false } ::
      (xvSelected h f g).map fun n => { name := n, pair := false, lr := false, eb := f.ebw, type := 0 }
  | .ld _ f => mIndexSrcs f true
  | .pf _ f => mIndexSrcs f true
  | .ldb _ f | .ldS _ f => mIndexSrcs f false
  | .st _ f => dataSrcs f ++ mIndexSrcs f true
  | .stb _ f | .stS _ f => dataSrcs f ++ mIndexSrcs f false
  | .atM _ f x => if x.uni then [] else mIndexSrcs f true ++ atData f x
  | _ => []

/-- The V destinations whose emptiness can hold the issue of an instruction (R110 item 4). -/
def heldDests (g : Group) : Instr → List Nat
  | .abs _ f | .neg _ f | .notVr _ f | .movVr _ f | .brev _ f | .sqrt _ f | .exp2 _ f | .log2 _ f | .rcp _ f | .rsqrt _ f | .tanh _ f
  | .sigm _ f | .rndi _ f | .scan _ f | .red _ f | .addVr _ f | .subVr _ f | .mulVr _ f | .mulhi _ f | .minVr _ f | .maxVr _ f
  | .div _ f | .rem _ f | .shlVr _ f | .shrVr _ f | .rshrVr _ f | .adiff _ f | .andVr _ f | .orVr _ f | .xorVr _ f | .andn _ f
  | .bdep _ f | .bext _ f | .bperm _ f | .gfmat _ f | .scale _ f | .copysign _ f | .shflVr _ f | .popc _ f | .clz _ f | .ctz _ f
  | .fclass _ f | .kpop _ f | .kpopKeep _ f | .kpopDepth _ f => writesV (isPairType f.type) f.vd
  | .mad _ f | .fma _ f | .bfi _ f => writesV (isPairType f.type) f.vd
  | .addVi _ f | .rsub _ f | .mulVi _ f | .andVi _ f | .orVi _ f | .xorVi _ f | .shlVi _ f | .shrVi _ f | .rshrVi _ f | .minVi _ f
  | .maxVi _ f | .bfx _ f | .movVi _ f => writesV (isPairType f.type) f.vd
  | .tagSet _ f => writesV (f.imm.extractLsb' 0 4 == 7 || f.imm.extractLsb' 0 4 == 8) f.vd
  | .addVs _ f | .subVs _ f | .mulVs _ f | .andVs _ f | .orVs _ f | .xorVs _ f | .shlVs _ f | .shrVs _ f | .minVs _ f | .maxVs _ f
  | .shflVs _ f | .movVs _ f => writesV (isPairType f.type) f.vd
  | .lea _ f => writesV true f.vd
  | .cvt _ f => writesV (isPairType f.dtype) f.vd
  | .cvtTodx _ f => writesV false f.vd
  | .cvtFromdx _ f => writesV (dxPair f.dtype g.width) f.vd
  | .ld _ f | .ldb _ f | .ldS _ f => mRegs f
  | .atM _ f x => if x.uni then [] else mRegs f
  | .rds _ f => if f.dv then [f.d.toNat] else []
  | _ => []
where
  /-- The registers of a destination. -/
  writesV (pair : Bool) (vd : BitVec 8) : List Nat := if pair then [vd.toNat, vd.toNat + 1] else [vd.toNat]

/-- A name's register, or one that supplies lanes of it, is still to be written by an `ld.s` lane that is parked on an empty granule. -/
def awaitsParked (s : State) (g : Group) (name : Nat) : Bool :=
  match g.preg? name with
  | none => false
  | some r =>
    let ids := withSources g.pregs g.pregs.length [r.id]
    s.reqs.any fun q => q.gid == g.gid && q.parkedFe && q.pids.any ids.contains

/-- The group as an instruction that writes V registers meets it: one that begins a region closes the one before it (R116 item 1). -/
def Group.openedBy (g : Group) (i : Instr) : Group := if (word0Of i).getLsbD 55 && !g.regionFresh then g.closeRegion else g

/-- A `bar` of the group waits for an `ld.s` of the group that is parked on an empty granule (R135, R284). -/
def barOnParked (s : State) (g : Group) (i : Instr) : Bool :=
  (match i with
  | .bar .. => true
  | _ => false) && s.reqs.any fun q => q.gid == g.gid && q.seq < s.seq && q.parkedFe

/-- The issue of a group is held on a register whose producer is a parked `ld.s` (R284). DEDUCED (log entry 78): a `bar` that may not issue
before such a load is performed counts as waiting at `bar`. -/
def heldByParked (s : State) (g : Group) : Bool :=
  g.hold == .none && (match fetch s g with
    | .instr i =>
      let g1 := g.openedBy i
      ((heldSources g i).any fun x => !x.eb && x.names.any fun n => !g.nameFull s.now n && awaitsParked s g n)
        || ((heldDests g i).any fun n => !g1.needsFresh n && !g1.nameFull s.now n && awaitsParked s g1 n)
        || barOnParked s g i
    | _ => false)

/-! ### The watchdog (R284, R285) -/

/-- A group is parked without `.rem` (R284). -/
def parkedNoRem (s : State) (g : Group) : Bool :=
  match g.hold with
  | .wait => s.reqs.any fun r => r.gid == g.gid && (match r.op with
      | .waitGe _ rem => !rem
      | _ => false)
  | .bar _ => true
  | .none => heldByParked s g
  | _ => false

/-- Groups of a partition that are resident on a die. -/
def dieGroups (s : State) (p die : Nat) : List Group :=
  s.groups.filter fun g => g.part == p && g.life == .resident && dieOfCore g.core == die

/-- The count of a die advances (R285, R329). DEDUCED (log entry 91): engine commands are copy and matrix commands. -/
def wdAdvances (s : State) (p die : Nat) : Bool :=
  let gs := dieGroups s p die
  !gs.isEmpty && gs.all (parkedNoRem s) && !(s.copies.any fun c => c.part == p) && !(s.mxcmds.any fun c => c.part == p)
    && !(s.starts.any fun x => x.part == p) && !(s.binTimers.any fun t => t.part == p)

/-- The counts of a partition after `n` cc: 32 bits each (R285). -/
def wdCount (s : State) (n : Nat) (q : Part) : List Nat :=
  q.wdCounts.zipIdx.map fun c => if q.wdPeriod != 0 && wdAdvances s q.num c.2 then min (c.1 + n) (2 ^ 32 - 1) else 0

/-- The watchdog of a partition fires (R285). -/
def wdDue (s : State) (p : Nat) : Bool :=
  let q := s.part p
  let dies := (List.range 4).filter fun d => !(dieGroups s p d).isEmpty
  q.wdPeriod != 0 && !dies.isEmpty && dies.all fun d => q.wdPeriod * 65536 ≤ q.wdCounts.getD d 0

/-- WATCHDOG_FIRE (R285): one entry; the launch of every group parked without `.rem` ends. -/
def execWatchdogFire (p : Nat) (s : State) : Host.Outcome State Fault Refusal :=
  commit s (.dyn fun s =>
    if !wdDue s p then .done
    else
      let hit := s.groups.filter fun g => g.part == p && g.life == .resident && parkedNoRem s g
      .all [
        logEntry p ⟨.watchdog, 0, 0, 0, BitVec.ofNat 64 (s.part p).wdPeriod, 0, 0⟩,
        .change fun s =>
          let s := (hit.map Group.launch).eraseDups.foldl (fun s l => endLaunch l s) s
          s.modPart p fun q => { q with wdCounts := [0, 0, 0, 0] }])

/-! ### PAGE entries (R358, R366, R367) -/

/-- PAGE_REPLY (R366): the host writes the reply word of an entry. -/
def execPageReply (p entry : Nat) (value : Word) (s : State) : Host.Outcome State Fault Refusal :=
  commit s (.dyn fun s =>
    let a := replyAddr (s.part p) entry
    if reachesPart s p && awakeAt s a then agentWrite a (wordBytes value) else .done)

/-- An entry may be served while the queue is full or not: a PAGE entry waits for space, any other is counted as dropped (R358). -/
def mayServe (full : Bool) (e : Option Nat × Entry) : Bool := !full || e.1.isNone

/-- A group parked on an entry that is now written is linked to its number (R366, R367). -/
def linkPage (gid n : Nat) (s : State) : State :=
  s.modGrp gid fun g => if g.hold == .pagePending then { g with hold := .page n } else g

/-- PENDING_FAULT_ENTRY (R358, R367, R405): once the slice of the queue takes work, the first entry that need not wait for space is written,
and its group is linked to its number. -/
def execPendingFaultEntry (p : Nat) (s : State) : Host.Outcome State Fault Refusal :=
  commit s (.dyn fun s =>
    let full := fqFull s p
    if !fqAwake s p then .done
    else match (s.part p).pendEntries.find? (mayServe full) with
      | none => .done
      | some x =>
        let n := fqWritten s p
        .all [
          .change fun s => s.modPart p fun q => { q with pendEntries := q.pendEntries.eraseP (mayServe full) },
          (match x.1 with
          | none => .done
          | some gid => .change (linkPage gid n)),
          if full then fqDrop p else fqWrite p x.2])

/-! ### Event timers (R52) -/

/-- EVENT_TIMER_EXPIRY (R52): the timer of a class has run out with events counted. -/
def execEventTimerExpiry (p cls : Nat) (s : State) : Host.Outcome State Fault Refusal :=
  commit s (.change fun s =>
    match (s.part p).events[cls]? with
    | some e => if e.timer == some 0 && e.count != 0 && maySend s (s.part p) cls then sendEvent p cls s else s
    | none => s)

end Sys2Proof.Machine
end

