-- ==== Sys2Proof/Machine/System.lean ====
section
/-! DEFINITION. trap (R379), syscall (R380), the diagnostic store (R382), completion and the fault end of launches (R26, R51, R362),
launches held for a place in their class queue (R45), and retention (R383). -/

namespace Sys2Proof.Machine

/-! ### trap and syscall -/

/-- trap (R379). -/
def planTrap (f : UR) : Plan :=
  {
    acts := .group
    srcs := [.s f.sa.toNat (f.fn.getLsbD 16)]
    effect := fun _ g _ => raiseAt g.gid g.pc ⟨.syscall, 1, 0, BitVec.ofNat 32 (f.fld 0 16), g.s f.sa.toNat, 0, 0⟩ }

/-- The meaning of TRAP. -/
def execTrap (h : Hdr) (f : UR) : State → Host.Outcome State Fault Refusal :=
  runPlan (.trap h f) h (planTrap f)

/-- syscall at issue (R380). -/
def planSyscall (f : UR) : Plan :=
  let eb := f.fn.getLsbD 16
  let sa := f.sa.toNat
  {
    acts := .group
    srcs := [.s sa eb, .s (sa + 1) eb, .s f.sb.toNat eb]
    dsts := [.s f.sd.toNat]
    closes := fun _ _ _ => true
    effect := fun s g _ => .change fun t =>
      addReqs [newReq s g 0 7 false [] (.syscall (BitVec.ofNat 32 (f.fld 0 16)) (g.s sa) (g.s (sa + 1)) (g.s f.sb.toNat) f.sd.toNat g.pc)]
        (emptyRegs g.gid [f.sd.toNat] t) }

/-- The meaning of SYSCALL. -/
def execSyscall (h : Hdr) (f : UR) : State → Host.Outcome State Fault Refusal :=
  runPlan (.syscall h f) h (planSyscall f)

/-- A syscall's entry is written after every earlier access of the group (R380), once the slice of the fault queue takes work (R405); a full
queue answers all ones. -/
def syscallAt (r : Req) (code : BitVec 32) (a b c : Word) (sd : Nat) : Prog :=
  .dyn fun s =>
    if s.pendingAcc r.gid r.seq || fqHeld s r.part then .done
    else if fqFull s r.part then .change (answerRegs r [(sd, BitVec.allOnes 64, false)])
    else .all [
      fqWrite r.part (reqEntry s r ⟨.syscall, 0, 0, code, a, b, c⟩),
      .change (answerRegs r [(sd, BitVec.ofNat 64 (fqWritten s r.part), false)])]

/-! ### The diagnostic store -/

/-- The address of a diag.st: team offset or virtual address. -/
def diagOff (f : MF) (g : Group) : Int := (g.s f.sb.toNat).toInt + offOf f * 8

/-- The check width of the word that a diag.st targets (R382). -/
def diagWidth (f : MF) (s : State) (g : Group) : Nat :=
  if f.sync = 1 then 8
  else match locate s g.core g.part (groupVa f g) 8 needW with
    | .ok x => if (x.pieces.head?.map fun p => inSram p.addr) == some true then 8 else 16
    | .error _ => 16

/-- The checks of R382, in order. -/
def diagCheck (i : Instr) (f : MF) (s : State) (g : Group) : Option Report :=
  let sp := f.sync = 1
  let a := groupVa f g
  let mask := g.s (f.vi.extractLsb' 0 6).toNat
  firstSome [
    if (s.part g.part).diag then none else some ⟨.prot, 8, 0, 0, if sp then BitVec.ofInt 64 (diagOff f g) else a, word0Of i, 0⟩,
    if sp then offCheck i s g 8 [(0, diagOff f g)] else none,
    if sp then offAlign i 8 [(0, diagOff f g)] else alignCheck i 8 [(0, a)],
    if sp then none else transCheck i s g 8 needW [(0, a)],
    failIf (mask.toNat / 2 ^ diagWidth f s g != 0) .bound i mask]

/-- diag.st at issue (R382): the group issues nothing until the word is performed. -/
def planDiagSt (h : Hdr) (f : MF) : Plan :=
  let i := Instr.diagSt h f
  let sp := decide (f.sync = 1)
  let data := (f.vt.extractLsb' 0 6).toNat
  let mask := (f.vi.extractLsb' 0 6).toNat
  {
    acts := .group
    srcs := [.s data f.ebt, .s f.sb.toNat false, .s mask f.ebt]
    closes := fun _ _ _ => true
    touches := fun s g eff => if eff = 0 || sp then [] else touchesOf s g 8 needW [(0, groupVa f g)]
    check := fun s g eff => if eff = 0 then none else diagCheck i f s g
    effect := fun s g _ => .change fun t =>
      let t := if sp then t else installAll g 8 needW [(0, groupVa f g)] t
      let ps := if sp then [⟨(diagOff f g).toNat, 8, false, false⟩] else piecesOf s g 8 needW (groupVa f g)
      addReqs [newReq s g 0 7 sp ps (.diag (g.s data) (g.s mask).toNat)] (t.modGrp g.gid fun h => { h with hold := .diag }) }

/-- The meaning of DIAG_ST. -/
def execDiagSt (h : Hdr) (f : MF) : State → Host.Outcome State Fault Refusal :=
  runPlan (.diagSt h f) h (planDiagSt h f)

/-- The diagnostic word is written, and fills no granule (R238): its check bits give the mask as the next syndrome (R382). A write to a word
of a fault queue that only the device writes is ignored (R4). -/
def diagAt (r : Req) (data : Word) (mask : Nat) : Prog :=
  let go := Prog.change fun s => (finishReq r.id s).modGrp r.gid fun g => if g.hold == .diag then { g with hold := .none } else g
  match r.pieces with
  | p :: _ =>
    if r.sp then
      .all [spChange false (fun s => s.modTeam r.team fun t =>
          let t := spPut p.addr (wordBytes data) t
          { t with spSyn := synSet t.spSyn p.addr mask }) r.team p.addr 8, go]
    else
      .dyn fun s => if fqKept s p.addr then go else .all [
        Prog.pokes p.addr (wordBytes data),
        .change fun s => afterWrite p.addr 8 { s with syn := synSet s.syn p.addr mask },
        .change (takeReplies p.addr 8),
        go]
  | [] => go

/-! ### Completion (R26, R51, R362) -/

/-- The table words of a donectr's translation, and the counter (R26). DESIGN CHOICE (log entry 85): at C-die 0. -/
def doneReads (s : State) (l : Launch) : List Nat × List Nat :=
  let va := BitVec.ofNat 64 l.donectr
  if l.donectr = 0 then ([], [])
  else (transReads s 0 none l.part va needRW,
    match translate s 0 none l.part va needRW with
    | .ok pa _ => [pa]
    | .fail _ => [])

/-- Every slice that the end of a launch reaches takes work (R383, R405). -/
def doneAwake (s : State) (l : Launch) : Bool := awakeWords s ((doneReads s l).1 ++ (doneReads s l).2) && sourceAwake s l.source

/-- The addition to a launch's donectr (R26). -/
def addDone (l : Launch) (v : Word) : Prog :=
  if l.donectr = 0 then .done
  else .dyn fun s =>
    let va := BitVec.ofNat 64 l.donectr
    .all [
      readTables s 0 (doneReads s l).1,
      match translate s 0 none l.part va needRW with
        | .fail _ => logEntry l.part ⟨.prot, 12, 0, 0, va, v, 0⟩ l.serial
        | .ok pa _ => counterAddDev l.part pa va v l.serial (logEntry l.part ⟨.uncorr, 7, 0, 0, BitVec.ofNat 64 pa, 0, 0⟩ l.serial)]

/-- What the device keeps of launches that are over goes; groups stay while a register of theirs waits for its write (R118). -/
def sweep (s : State) : State :=
  { s with
    teams := s.teams.filter fun t => (s.launch? t.launch).isSome
    groups := s.groups.filter fun g => (s.launch? g.launch).isSome || (g.life == .gone && g.pregs.any fun r => r.pend != 0) }

/-- A launch is over: its addition is made, the slot of a bin is free again, and its record goes. -/
def finishLaunch (l : Launch) (v : Word) : Prog :=
  .all [addDone l v, freeBinSlot l.source, .change fun s => sweep { s with launches := s.launches.filter fun x => x.lid != l.lid }]

/-- Nothing of the launch is counted on any core (R50, R51). -/
def countersZero (s : State) (lid : Nat) : Bool :=
  !(s.launchCtrs.any fun c => c.2.1 == lid) && !(s.groups.any fun g => g.launch == lid && g.life != .gone)

/-- Accesses, commands and Ford instructions that a launch still has to see performed (R26, R315, R362 item 3). -/
def launchBusy (s : State) (lid : Nat) : Bool :=
  (s.reqs.any fun r => r.launch == lid) || (s.copies.any fun c => c.launch == lid) || (s.mxcmds.any fun c => c.launch == lid)
    || (s.fords.any fun f => f.launch == lid) || (s.ports.any fun e => e.launch == lid)

/-- LAUNCH_COMPLETION (R51): every access of the launch has been performed (R26, R315). -/
def execLaunchCompletion (launch : Nat) (s : State) : Host.Outcome State Fault Refusal :=
  commit s (.dyn fun s =>
    match s.launch? launch with
    | none => .done
    | some l =>
      if !l.ended && l.retired = l.teams && countersZero s launch && !launchBusy s launch && doneAwake s l then finishLaunch l 1 else .done)

/-- LAUNCH_FAULT_END (R362): everything that the launch issued has been performed. -/
def execLaunchFaultEnd (launch : Nat) (s : State) : Host.Outcome State Fault Refusal :=
  commit s (.dyn fun s =>
    match s.launch? launch with
    | none => .done
    | some l =>
      if l.ended && countersZero s launch && !launchBusy s launch && (s.teams.all fun t => t.launch != launch || t.status == .retired)
          && doneAwake s l then
        finishLaunch l 0x100000001
      else .done)

/-! ### Launches that wait for a place in their class queue (R45) -/

/-- HELD_LAUNCH_ENTRY (R45): of the launches held for a class, the one of the first source enters as a place becomes free. -/
def execHeldLaunchEntry (src : HeldSource) (s : State) : Host.Outcome State Fault Refusal :=
  commit s (.change fun s =>
    match src with
    | .command p => match (s.part p).cmdHeld with
      | some l => if !mayEnter s 0 l then s else freeSlot p (enterQueue l (s.modPart p fun q => { q with cmdHeld := none }))
      | none => s
    | .port die => match s.ports.find? fun e => e.die == die && (match e.held with
          | some l => mayEnter s 1 l
          | none => false) with
      | some e => (match e.held with
        | some l => portAnswer e 0 (enterQueue l s)
        | none => s)
      | none => s
    | .slipway slice p => match nextStart s slice p with
      | some x => (match x.held with
        | some l => if !mayEnter s 2 l then s else dropStart x.id (enterQueue l s)
        | none => s)
      | none => s
    | .bin slice p => match nextBinStart s slice p with
      | some x => (match x.held with
        | some l => if !mayEnter s 3 l then s else dropBinStart x.id (enterQueue l s)
        | none => s)
      | none => s)

/-! ### Retention (R383) -/

/-- Words of an array are re-encoded: correctable ones are corrected, an uncorrectable one stays so and is logged (R383). -/
def reencode (arr : ArrayId) : Prog :=
  .dyn fun s =>
    match arr with
    | .slice slice sub =>
      let lo := sramBase + slice * 0x200000 + sub * 0x40000
      let ws := (s.syn.map Prod.fst).filter fun w => lo ≤ w && w < lo + 0x40000
      let bad := ws.filter fun w => devSyndrome s w == .uncorrectable
      .all [
        fixWords s ws,
        .change fun s => { s with syn := s.syn.filter fun p => !(ws.contains p.1 && !bad.contains p.1) },
        let p := Config.arrayOwner s.fresh % 8
        Prog.when ((s.part p).state != .none) (.all (bad.map fun w => logEntry p ⟨.uncorr, 8, 0, 0, BitVec.ofNat 64 w, 0, 0⟩))]
    | .pool core unit =>
      match poolTeam s core unit with
      | none => .done
      | some (tid, k) =>
        match s.team? tid with
        | none => .done
        | some t =>
          let ws := (t.spSyn.map Prod.fst).filter fun w => w / 65536 = k
          let bad := ws.filter fun w => spSyndrome t w == .uncorrectable
          .all [
            .change fun s =>
              let s := { s with corrected := s.corrected + spFixes t ws }
              s.modTeam tid fun t =>
                let t := spFix t ws
                { t with spSyn := t.spSyn.filter fun p => !(ws.contains p.1 && !bad.contains p.1) },
            .all (bad.map fun _ => logEntry t.part ⟨.uncorr, 8, 0, 0, 0, BitVec.ofNat 64 unit, 0⟩)]

/-- RETENTION_ENTRY (R383). DESIGN CHOICE (log entry 74): that no access has reached the array for 65,536 cc is timing, which is not kept. -/
def execRetentionEntry (arr : ArrayId) (s : State) : Host.Outcome State Fault Refusal :=
  commit s (.dyn fun s =>
    if s.retained.contains arr then .done
    else .all [reencode arr, .change fun s => { s with retained := s.retained ++ [arr] }])

end Sys2Proof.Machine
end

