-- ==== Sys2Proof/Machine/Ford.lean ====
section
/-! DEFINITION. The Ford tree-search engines (R334 to R351): issue, acceptance, and the actions of ts.desc, ts.back, ts.exp, ts.root and
ts.anc. -/

namespace Sys2Proof.Machine

/-! ### Headers and nodes (R334 to R337) -/

/-- The index that means "none" (R337). -/
def noNode : Nat := 0xFFFFFFFF

/-- The fields of a tree header (R334). -/
structure THead where
  arena : Nat
  cap : Nat
  freehead : Nat
  c : Int
  lambda : Int
  fpv : Int
  die : Nat
  bin : Nat
  task : Nat
  batch : Nat
  root : Nat
  next : Nat
  pend : Nat
  deriving DecidableEq, Repr

/-- The I32 in some bits of a word. -/
def signedAt (w : Word) (lo : Nat) : Int := (w.extractLsb' lo 32).toInt

/-- A tree header read. -/
def THead.of (ws : List Word) : THead :=
  let w := fun k => ws.getD k 0
  { arena := bitsOf (w 0) 0 52
    cap := bitsOf (w 1) 32 32
    freehead := bitsOf (w 1) 0 32
    c := signedAt (w 2) 32
    lambda := signedAt (w 2) 0
    fpv := signedAt (w 3) 32
    die := bitsOf (w 3) 24 2
    bin := bitsOf (w 4) 0 52
    task := bitsOf (w 5) 48 16
    batch := bitsOf (w 5) 40 8
    root := bitsOf (w 6) 32 32
    next := bitsOf (w 6) 0 32
    pend := bitsOf (w 7) 32 32 }

/-- The header is invalid (R335); a die above 3 shows in reserved bits. -/
def treeBad (ws : List Word) : Bool :=
  let w := fun k => ws.getD k 0
  let h := THead.of ws
  bitsOf (w 0) 52 12 != 0 || bitsOf (w 3) 26 6 != 0 || bitsOf (w 3) 0 24 != 0 || bitsOf (w 4) 52 12 != 0 || bitsOf (w 5) 0 40 != 0
    || bitsOf (w 7) 0 32 != 0 || h.cap = 0 || 0xFFFFFFFE < h.cap || h.c < 0 || h.lambda < 0 || h.batch = 0 || 32 < h.batch
    || h.cap ≤ h.root || h.cap < h.next || (h.freehead != noNode && h.cap ≤ h.freehead) || h.arena % 32 != 0 || h.bin % 128 != 0

/-- The fields of a node (R336). -/
structure TNode where
  n : Nat
  w : Word
  p : Nat
  v : Nat
  first : Nat
  count : Nat
  flags : Byte
  res : Byte
  parent : Nat
  token : Nat
  deriving DecidableEq, Repr

/-- EX (R336). -/
def TNode.ex (t : TNode) : Bool := t.flags.getLsbD 0
/-- TE. -/
def TNode.te (t : TNode) : Bool := t.flags.getLsbD 1
/-- PE. -/
def TNode.pe (t : TNode) : Bool := t.flags.getLsbD 2
/-- FR. -/
def TNode.fr (t : TNode) : Bool := t.flags.getLsbD 3

/-- A node from its 32 bytes. -/
def TNode.of (bs : List Byte) : TNode :=
  let f := fun (o n : Nat) => bytesNat ((bs.drop o).take n)
  ⟨f 0 4, BitVec.ofNat 64 (f 4 8), f 12 2, f 14 2, f 16 4, f 20 2, BitVec.ofNat 8 (f 22 1), BitVec.ofNat 8 (f 23 1), f 24 4, f 28 4⟩

/-- The 32 bytes of a node. -/
def TNode.bytes (t : TNode) : List Byte :=
  natBytes 4 t.n ++ wordBytes t.w ++ natBytes 2 t.p ++ natBytes 2 t.v ++ natBytes 4 t.first ++ natBytes 2 t.count ++ [t.flags, t.res]
    ++ natBytes 4 t.parent ++ natBytes 4 t.token

/-- A freed node that is no head of a block (R347). -/
def TNode.freed : TNode := ⟨0, 0, 0, 0, 0, 0, 8, 0, 0, 0⟩

/-- The header of an instruction's tree as it stands. -/
def treeHead (s : State) (o : FordOp) : THead := THead.of (structWords s o.pa 8)

/-- What ends an instruction at an action: a reason of R340, and the virtual address of an uncorrectable word. -/
structure Stop where
  reason : Nat
  va : Word
  deriving DecidableEq, Repr

/-- The first uncorrectable word among `n` bytes at a physical address, as a virtual address. -/
def badWordVa (s : State) (va pa n : Nat) : Word :=
  match (wordsOf pa n).find? fun w => devSyndrome s w == .uncorrectable with
  | some w => BitVec.ofNat 64 (va + w - pa)
  | none => 0

/-- Where a node lies (R337, R340). -/
def nodeLoc (s : State) (o : FordOp) (h : THead) (i : Nat) : Except Stop Nat :=
  if h.cap ≤ i then .error ⟨5, 0⟩
  else match translate s o.die none o.part (BitVec.ofNat 64 (h.arena + 32 * i)) needRW with
    | .ok pa _ => .ok pa
    | .fail _ => .error ⟨7, 0⟩

/-- A node read in an action (R338, R340). -/
def nodeAt (s : State) (o : FordOp) (h : THead) (i : Nat) : Except Stop TNode :=
  match nodeLoc s o h i with
  | .error e => .error e
  | .ok pa => if devBad s pa 32 then .error ⟨8, badWordVa s (h.arena + 32 * i) pa 32⟩ else .ok (TNode.of (devBytes s pa 32))

/-- A node written in an action (R338). -/
def putNode (o : FordOp) (h : THead) (i : Nat) (t : TNode) : Prog :=
  .dyn fun s => match nodeLoc s o h i with
    | .ok pa => agentWrite pa t.bytes
    | .error _ => .done

/-- What the reads of some nodes leave (R369). -/
def touchNodes (o : FordOp) (h : THead) (is : List Nat) : Prog :=
  .dyn fun s =>
    if s.syn.isEmpty then .done
    else .all (is.map fun i => match nodeLoc s o h i with
      | .ok pa => devReadEffect pa 32
      | .error _ => .done)

/-- A word of the header written by its engine. -/
def putHead (o : FordOp) (k : Nat) (w : Word) : Prog := agentWrite (o.pa + 8 * k) (wordBytes w)

/-- Two 32-bit halves as a word. -/
def halves (hi lo : Nat) : Word := BitVec.ofNat 64 (hi % 2 ^ 32 * 2 ^ 32 + lo % 2 ^ 32)

/-! ### The end of an instruction (R340) -/

/-- A status word (R340). -/
def fordWord (aux : Nat) (sa qd td : Bool) (reason status : Nat) : Word :=
  BitVec.ofNat 64 (aux % 2 ^ 32 * 2 ^ 32 + (if sa then 2 ^ 18 else 0) + (if qd then 2 ^ 17 else 0) + (if td then 2 ^ 16 else 0)
    + reason * 256 + status)

/-- Changes one Ford instruction. -/
def State.modFord (s : State) (id : Nat) (f : FordOp → FordOp) : State :=
  { s with fords := s.fords.map fun o => if o.id == id then f o else o }

/-- The answer of an instruction to its registers, unless it is dropped; a group that waited for this instruction goes on. -/
def fordAnswer (o : FordOp) (vs : List (Nat × Word)) (s : State) : State :=
  if o.drop || o.answered then s
  else s.modGrp o.gid fun g =>
    let g := vs.foldl (fun g v => g.setS s.now v.1 v.2) g
    if g.hold == .ford o.id then { g with hold := .none } else g

/-- The last action of an instruction has been performed. -/
def fordEnd (o : FordOp) (vs : List (Nat × Word)) : Prog :=
  .change fun s => fordAnswer o vs { s with fords := s.fords.filter fun x => x.id != o.id }

/-- A log of an uncorrectable word (R340, R371). -/
def logFord (o : FordOp) (va : Word) : Prog :=
  .dyn fun s => fqEntry o.part (cmdEntry s o.gid o.launch o.pc ⟨.uncorr, 6, 0, 0, va, 0, 0⟩)

/-- The log that goes with a reason. -/
def logStop (o : FordOp) (e : Stop) : Prog := if e.reason = 8 then logFord o e.va else .done

/-- An instruction other than a descent ends at the action that met a reason; a `ts.anc` still counts the rows written as zero (R350). -/
def fordRefuse (o : FordOp) (e : Stop) : Prog := .all [logStop o e, fordEnd o [(o.sd, fordWord o.aux o.sa false false e.reason 1)]]

/-! ### Issue (R339) -/

/-- A Ford instruction (R339): the header's alignment, then that of the further addresses of the block; the limit of a count; the
translation of the header. -/
def fordPlan (i : Instr) (f : UR) (blkRegs : List Nat) (more dsts : List Nat) (aligned : List (Nat × Nat)) (bound : Group → Option Word)
    (kind : Group → FordKind) : Plan where
  acts := .group
  srcs := .s f.sa.toNat (f.fn.getLsbD 0) :: (blkRegs.map fun k => .s (f.sb.toNat + k) (f.fn.getLsbD 0))
    ++ more.map fun r => .s r (f.fn.getLsbD 0)
  dsts := (f.sd.toNat :: dsts).map .s
  cls := some 4
  tq := true
  closes := fun _ _ _ => true
  touches := fun s g eff =>
    if eff = 0 then [] else transReads s (dieOfCore g.core) (some g.core) g.part (g.s f.sa.toNat) needRW
  check := fun s g eff =>
    if eff = 0 then none
    else firstSome ([alignCheck i 64 [(0, g.s f.sa.toNat)]]
      ++ (aligned.map fun a => alignCheck i a.2 [(0, g.s (f.sb.toNat + a.1))])
      ++ [(bound g).map (addrReport .bound i 0), transCheck i s g 1 needRW [(0, g.s f.sa.toNat)]])
  effect := fun s g _ => .change fun t =>
    let va := g.s f.sa.toNat
    match structLoc s g va with
    | .fail _ => t
    | .ok pa _ =>
      let o : FordOp := {
        id := t.nextId
        seq := s.seq
        gid := g.gid
        launch := g.launch
        team := g.team
        part := g.part
        die := dieOfCore g.core
        kind := kind g
        header := va
        pa := pa
        sd := f.sd.toNat
        sb := f.sb.toNat
        instr := word0Of i
        pc := g.pc
        phase := .input
        node := 0
        depth := 0
        path := []
        sa := false
        aux := 0
        recs := none
        jobs := []
        answered := false
        drop := false }
      let t := emptyRegs g.gid (f.sd.toNat :: dsts) (installAll g 1 needRW [(0, va)] t)
      { t.modGrp g.gid fun h => { h with hold := .ford o.id } with fords := t.fords ++ [o], nextId := t.nextId + 1 }

/-- No limit on an operand. -/
def noLimit (_ : Group) : Option Word := none

/-- ts.desc (R342). -/
def planTsDesc (h : Hdr) (f : UR) : Plan :=
  fordPlan (.tsDesc h f) f [] [f.fld 1 6] (dataRegs f 3) [] noLimit fun g => .desc (g.s (f.fld 1 6))

/-- The meaning of TS_DESC. -/
def execTsDesc (h : Hdr) (f : UR) : State → Host.Outcome State Fault Refusal :=
  runPlan (.tsDesc h f) h (planTsDesc h f)

/-- ts.back (R345). -/
def planTsBack (h : Hdr) (f : UR) : Plan :=
  fordPlan (.tsBack h f) f [0, 1] [] [] [] noLimit fun g =>
    .back (g.s f.sb.toNat).toNat (signedAt (g.s (f.sb.toNat + 1)) 0) (f.fn.getLsbD 1) (f.fn.getLsbD 2)

/-- The meaning of TS_BACK. -/
def execTsBack (h : Hdr) (f : UR) : State → Host.Outcome State Fault Refusal :=
  runPlan (.tsBack h f) h (planTsBack h f)

/-- ts.exp (R346). -/
def planTsExp (h : Hdr) (f : UR) : Plan :=
  let k := fun (g : Group) => g.s (f.sb.toNat + 1)
  fordPlan (.tsExp h f) f [0, 1, 2] [] [] [(2, 8)] (fun g => if 65535 < (k g).toNat then some (k g) else none) fun g =>
    .exp (g.s f.sb.toNat).toNat (k g).toNat (g.s (f.sb.toNat + 2)) (f.fn.getLsbD 1)

/-- The meaning of TS_EXP. -/
def execTsExp (h : Hdr) (f : UR) : State → Host.Outcome State Fault Refusal :=
  runPlan (.tsExp h f) h (planTsExp h f)

/-- ts.root (R348). -/
def planTsRoot (h : Hdr) (f : UR) : Plan :=
  fordPlan (.tsRoot h f) f [0] [] [] [] noLimit fun g => .root (g.s f.sb.toNat).toNat (f.fn.getLsbD 1)

/-- The meaning of TS_ROOT. -/
def execTsRoot (h : Hdr) (f : UR) : State → Host.Outcome State Fault Refusal :=
  runPlan (.tsRoot h f) h (planTsRoot h f)

/-- ts.anc (R350). -/
def planTsAnc (h : Hdr) (f : UR) : Plan :=
  fordPlan (.tsAnc h f) f [0, 1, 2] [] [] [(0, 4), (1, 4), (2, 8)] noLimit fun g =>
    .anc (f.fld 1 7 + 1) (f.fld 8 6 + 1) (g.s f.sb.toNat) (g.s (f.sb.toNat + 1)) (g.s (f.sb.toNat + 2))

/-- The meaning of TS_ANC. -/
def execTsAnc (h : Hdr) (f : UR) : State → Host.Outcome State Fault Refusal :=
  runPlan (.tsAnc h f) h (planTsAnc h f)

/-! ### Acceptance (R339) -/

/-- The node that the operands name (R337). -/
def FordKind.names : FordKind → Option Nat
  | .back leaf .. => some leaf
  | .exp node .. => some node
  | .root r _ => some r
  | _ => none

/-- The group keeps waiting after acceptance (R346). -/
def FordKind.holds : FordKind → Bool
  | .exp _ _ _ t => t
  | _ => false

/-- TREE is raised at the instruction (R339); a group that has ended takes nothing. -/
def raiseTree (o : FordOp) (reason : Nat) : Prog :=
  .all [
    .change fun s => { s with fords := s.fords.filter fun x => x.id != o.id },
    if o.drop then .done else raiseAt o.gid o.pc ⟨.tree, reason, 0, 0, o.header, o.instr, 0⟩]

/-- Instructions that an engine holds. -/
def fordHeld (s : State) (die : Nat) : Nat := s.fords.countP fun o => o.die == die && o.phase != .input

/-- The instruction at the head of an engine's input. -/
def fordInput (s : State) (die : Nat) : Option FordOp := s.fords.find? fun o => o.die == die && o.phase == .input

/-- FORD_ACCEPTANCE (R339): an instruction that a ready engine (R405) finds at its input travels on to the engine that its
header names, or is accepted. -/
def execFordAcceptance (die : Nat) (s : State) : Host.Outcome State Fault Refusal :=
  commit s (.dyn fun s =>
    match fordInput s die with
    | none => .done
    | some o =>
      let ws := structWords s o.pa 8
      let h := THead.of ws
      if !fordReady s die || !awake s o.pa 64 then .done
      else .all [
        touchWords s ((List.range 8).map fun k => o.pa + 8 * k),
        if bitsOf (ws.getD 3 0) 26 6 != 0 then raiseTree o 1
        else if h.die != die then
          .change fun s => { s with fords := (s.fords.filter fun x => x.id != o.id) ++ [{ o with die := h.die }] }
        else if 256 ≤ fordHeld s die then .done
        else if treeBad ws then raiseTree o 1
        else if (match o.kind.names with
          | some i => decide (h.cap ≤ i)
          | none => false) then raiseTree o 2
        else .change fun s =>
          let s := s.modFord o.id fun o => { o with phase := .accepted }
          if o.drop || o.kind.holds then s else s.modGrp o.gid fun g => if g.hold == .ford o.id then { g with hold := .none } else g])

/-! ### ts.desc (R341, R343, R344) -/

/-- The score of a child (R341). -/
def childScore (h : THead) (t : Nat) (ch : TNode) : Int :=
  let r := isqrt (t * 2 ^ 32)
  let ni := ch.n + ch.v
  let q := if ni = 0 then h.fpv else (ch.w.toInt - h.lambda * ch.v) / (ni : Int)
  q + h.c * ch.p * r / (((1 + ni) * 2 ^ 32 : Nat) : Int)

/-- The child with the greatest score, the lowest index among equals (R341). -/
def chooseChild (h : THead) (t : Nat) (kids : List (Nat × TNode)) : Option (Nat × TNode) :=
  ((kids.filter fun k => !k.2.fr).foldl (fun (b : Option (Int × Nat × TNode)) k =>
    let sc := childScore h t k.2
    match b with
    | none => some (sc, k)
    | some x => if x.1 < sc then some (sc, k) else some x) none).map Prod.snd

/-- The outputs of a descent (R343). -/
def descOut (o : FordOp) (w : Word) (n d token : Nat) : List (Nat × Word) :=
  [(o.sd, w), (o.sb, BitVec.ofNat 64 n), (o.sb + 1, BitVec.ofNat 64 d), (o.sb + 2, BitVec.ofNat 64 token)]

/-- A descent that is refused (R343). -/
def descRefuse (o : FordOp) (reason : Nat) : Prog := fordEnd o (descOut o (fordWord 0 false false false reason 1) noNode o.depth 0)

/-- A descent turns to undoing its virtual loss, or ends where it holds none. -/
def descUndo (o : FordOp) (reason : Nat) : Prog :=
  if o.path.isEmpty then descRefuse o reason else .change fun s => s.modFord o.id fun x => { o with phase := .undo reason, drop := x.drop }

/-- The leaf record (R344). -/
def leafRecord (o : FordOp) (i d token : Nat) (user : Word) : List Word :=
  [o.header, BitVec.ofNat 64 i, BitVec.ofNat 64 d, BitVec.ofNat 64 token, user, 0, 0, 0]

/-- The leaf record put into the tree's bin (R344); `k` says whether it was. -/
def leafPut (o : FordOp) (h : THead) (x : List Word) (k : Bool → Prog) : Prog :=
  .dyn fun s =>
    let va := BitVec.ofNat 64 h.bin
    match translate s o.die none o.part va needRW with
    | .fail _ => k false
    | .ok pa e =>
      if !inSram pa then k false
      else if devBad s pa 128 then .all [touchWords s (wordsOf pa 128), logFord o (badWordVa s h.bin pa 128), k false]
      else
        let b := BinHead.of (structWords s pa 2)
        if b.task != h.task || b.coal != h.batch then k false
        else binPutWith o.part pa (e.vbase + e.size - h.bin) va x fun status _ => k (status = 0)

/-- A descent enters a node: its virtual loss and test(n) in one action (R343). -/
def descEnter (o : FordOp) (h : THead) (user : Word) (i d : Nat) (t : TNode) : Prog :=
  let t1 := { t with v := t.v + 1 }
  let o1 := { o with node := i, depth := d, path := i :: o.path }
  let pend := { t1 with flags := t1.flags ||| 4 }
  let bare := { t1 with flags := t1.flags &&& ~~~4 }
  if t.te || (t.ex && t.count = 0) then
    .all [putNode o h i t1, fordEnd o (descOut o (fordWord 0 false false true 0 0) i d t.token)]
  else if t.ex then .all [putNode o h i t1, .change fun s => s.modFord o.id fun x => { o1 with drop := x.drop }]
  else if t.pe then .all [putNode o h i t1, fordEnd o (descOut o (fordWord 0 false false false 0 3) i d t.token)]
  else .all [
    putNode o h i pend,
    leafPut o h (leafRecord o i d t.token user) fun ok =>
      if ok then fordEnd o (descOut o (fordWord 0 false true false 0 0) i d t.token)
      else .all [putNode o h i bare, descUndo o1 1]]

/-- The first failure among some reads. -/
def firstStop : List (Except Stop (Nat × TNode)) → Except Stop (List (Nat × TNode))
  | [] => .ok []
  | .error e :: _ => .error e
  | .ok x :: l => match firstStop l with
    | .ok xs => .ok (x :: xs)
    | .error e => .error e

/-- The children of a node with their indices. -/
def childrenOf (s : State) (o : FordOp) (h : THead) (t : TNode) : Except Stop (List (Nat × TNode)) :=
  firstStop ((List.range t.count).map fun j => match nodeAt s o h (t.first + j) with
    | .ok c => .ok (t.first + j, c)
    | .error e => .error e)

/-- One action of a descent (R343): a root that is freed is not in the tree (R337); a node of the path that cannot be read keeps its virtual
loss. -/
def descAction (o : FordOp) (user : Word) : Prog :=
  .dyn fun s =>
    let h := treeHead s o
    match o.path with
    | [] =>
      .all [touchNodes o h [h.root],
        match nodeAt s o h h.root with
        | .error e => .all [logStop o e, descRefuse o e.reason]
        | .ok t => if t.fr then descRefuse o 5 else if t.v = 65535 then descRefuse o 2 else descEnter o h user h.root 0 t]
    | n :: rest =>
      match nodeAt s o h n with
      | .error e => .all [touchNodes o h [n], logStop o e, descUndo { o with path := rest } e.reason]
      | .ok t =>
        .all [touchNodes o h (n :: (List.range t.count).map (t.first + ·)),
          match childrenOf s o h t with
          | .error e => .all [logStop o e, descUndo o e.reason]
          | .ok kids =>
            match chooseChild h (t.n + t.v) kids with
            | none => descUndo o 5
            | some (i, c) =>
              if c.v = 65535 then descUndo o 2
              else if o.depth = 65535 then descUndo o 6
              else descEnter o h user i (o.depth + 1) c]

/-- One action of the undoing of a descent (R343): the nodes of the path from the end back to the root. DESIGN CHOICE (log entry 49): a node
that cannot be read is left as it is, and the undoing goes on. -/
def undoAction (o : FordOp) (reason : Nat) : Prog :=
  .dyn fun s =>
    let h := treeHead s o
    match o.path with
    | [] => descRefuse o reason
    | n :: rest =>
      match nodeAt s o h n with
      | .error e => .all [touchNodes o h [n], logStop o e, undoOn rest]
      | .ok t => .all [touchNodes o h [n], putNode o h n { t with v := t.v - 1 }, undoOn rest]
where
  /-- The undoing goes on with the nodes that remain, or the descent ends. -/
  undoOn (rest : List Nat) : Prog :=
    if rest.isEmpty then descRefuse o reason else .change fun s => s.modFord o.id fun x => { x with path := rest }

/-! ### ts.back (R345) -/

/-- The node of a backup after its action, and whether a count was held at its limit. -/
def backNode (t : TNode) (v : Int) (nv first : Bool) : TNode × Bool :=
  let t1 := if nv then t
    else { t with
      n := if t.n = 2 ^ 32 - 1 then t.n else t.n + 1
      w := t.w + BitVec.ofInt 64 v
      flags := if first then t.flags &&& ~~~4 else t.flags }
  ({ t1 with v := t.v - 1 }, (!nv && t.n = 2 ^ 32 - 1) || t.v = 0)

/-- One action of a backup (R345). -/
def backAction (o : FordOp) (leaf : Nat) (value : Int) (alt nv : Bool) : Prog :=
  .dyn fun s =>
    let h := treeHead s o
    let m := if o.depth = 0 then leaf else o.node
    match nodeAt s o h m with
    | .error e => .all [touchNodes o h [m], fordRefuse o e]
    | .ok t =>
      if t.fr then fordRefuse o ⟨5, 0⟩
      else
        let r := backNode t (if alt && o.depth % 2 = 1 then -value else value) nv (o.depth = 0)
        let sa := o.sa || r.2
        let k := o.depth + 1
        .all [
          touchNodes o h [m],
          putNode o h m r.1,
          if t.parent = noNode then fordEnd o [(o.sd, fordWord 0 sa false false 0 0)]
          else if k = 65536 then fordEnd o [(o.sd, fordWord 0 sa false false 6 1)]
          else .change fun s => s.modFord o.id fun x => { x with node := t.parent, depth := k, sa := sa }]

/-! ### ts.exp (R346, R347) -/

/-- Bytes that an engine reads at a virtual address (R340). -/
def readArray (s : State) (o : FordOp) : Nat → Nat → Nat → Except Stop (List Byte)
  | 0, _, _ => .ok []
  | k + 1, va, n =>
    if n = 0 then .ok []
    else match translate s o.die none o.part (BitVec.ofNat 64 va) needR with
      | .fail _ => .error ⟨7, 0⟩
      | .ok pa e =>
        let m := min n (e.vbase + e.size - va)
        if devBad s pa m then .error ⟨8, badWordVa s va pa m⟩
        else match readArray s o k (va + m) (n - m) with
          | .ok bs => .ok (devBytes s pa m ++ bs)
          | .error x => .error x

/-- The words that the read of an array touches. -/
def touchArray (s : State) (o : FordOp) (va n : Nat) : Prog :=
  if s.syn.isEmpty then .done
  else .all ((linesOf 64 va n).map fun l => match translate s o.die none o.part (BitVec.ofNat 64 l) needR with
    | .ok pa _ => devReadEffect pa 64
    | .fail _ => .done)

/-- What an allocation changes (R347): the first node, the word of the header with its new value, and a new head block. -/
structure Alloc where
  base : Nat
  word : Nat
  value : Word
  head : Option (Nat × TNode)
  deriving DecidableEq, Repr

/-- Allocation of `k` nodes (R347); `none` where there is no space. A new head of the list that is no legal node ends the action (R337). -/
def allocate (s : State) (o : FordOp) (h : THead) (k : Nat) : Except Stop (Option Alloc) :=
  let fromNext : Option Alloc := if h.next + k ≤ h.cap then some ⟨h.next, 6, halves h.root (h.next + k), none⟩ else none
  if h.freehead = noNode then .ok fromNext
  else match nodeAt s o h h.freehead with
    | .error e => .error e
    | .ok t =>
      if t.count = k then .ok (some ⟨h.freehead, 1, halves h.cap t.first, none⟩)
      else if k < t.count then
        (match nodeLoc s o h (h.freehead + k) with
        | .error e => .error e
        | .ok _ => .ok (some ⟨h.freehead, 1, halves h.cap (h.freehead + k),
            some (h.freehead + k, { TNode.freed with first := t.first, count := t.count - k })⟩))
      else .ok fromNext

/-- A new child (R346). -/
def newChild (parent : Nat) (r : Word) : TNode :=
  ⟨0, 0, bitsOf r 0 16, 0, noNode, 0, if r.getLsbD 16 then 2 else 0, 0, parent, bitsOf r 32 32⟩

/-- The parent chain of a node, up to a node that is the root, has no parent, or cannot be read. -/
def parentChain (s : State) (o : FordOp) (h : THead) : Nat → Nat → List Nat × Option Stop
  | 0, _ => ([], some ⟨6, 0⟩)
  | k + 1, x =>
    match nodeAt s o h x with
    | .error e => ([], some e)
    | .ok t =>
      if t.parent = noNode then ([x], none)
      else let r := parentChain s o h k t.parent; (x :: r.1, r.2)

/-- The node stands under the current root. -/
def underRoot (s : State) (o : FordOp) (h : THead) (x : Nat) : Bool := (parentChain s o h 65536 x).1.contains h.root

/-- An engine reads the child records before its action (R346). -/
def recsAction (o : FordOp) (k : Nat) (array : Word) : Prog :=
  .dyn fun s =>
    .all [
      touchArray s o array.toNat (8 * k),
      match readArray s o (8 * k + 1) array.toNat (8 * k) with
      | .error e => fordRefuse o e
      | .ok bs => .change fun s => s.modFord o.id fun x =>
          { x with recs := some ((List.range k).map fun i => BitVec.ofNat 64 (bytesNat ((bs.drop (8 * i)).take 8))) }]

/-- The one action of an expansion (R346, R349). -/
def expAction (o : FordOp) (node k : Nat) (recs : List Word) (tf : Bool) : Prog :=
  .dyn fun s =>
    let h := treeHead s o
    let say := fun (aux reason status : Nat) => fordEnd o [(o.sd, fordWord aux false false false reason status)]
    .all [
      touchNodes o h [node],
      match nodeAt s o h node with
      | .error e => fordRefuse o e
      | .ok t =>
        if t.fr then say 0 5 1
        else if t.ex || t.te then say 0 3 1
        else if recs.any fun r => bitsOf r 17 15 != 0 then say 0 9 1
        else if k = 0 then
          .all [putNode o h node { t with flags := t.flags ||| 3, first := noNode }, say noNode 0 0]
        else match allocate s o h k with
          | .error e => fordRefuse o e
          | .ok none => if tf then raiseTree o 3 else say noNode 0 2
          | .ok (some a) =>
            let locs := (List.range k).map fun i => nodeLoc s o h (a.base + i)
            match locs.findSome? fun l => match l with
              | .error e => some e
              | .ok _ => none with
            | some e => fordRefuse o e
            | none =>
              let late := h.pend != 0 && !underRoot s o h node
              .all [
                putHead o a.word a.value,
                (match a.head with
                | some x => putNode o h x.1 x.2
                | none => .done),
                .all ((recs.zipIdx).map fun r => putNode o h (a.base + r.2) (newChild node r.1)),
                putNode o h node { t with first := a.base, count := k, flags := t.flags ||| 1 },
                if late then putHead o 7 (halves (h.pend + 1) 0) else .done,
                say a.base 0 0]]

/-! ### ts.root and freeing (R348, R349) -/

/-- The children block of a node: first index and one beyond the last, equal where it has none; a link to none ends the action (R337). -/
def TNode.block (t : TNode) : Except Stop (Nat × Nat) :=
  if t.count = 0 then .ok (0, 0) else if t.first = noNode then .error ⟨5, 0⟩ else .ok (t.first, t.first + t.count)

/-- A node's children block, read in an action. -/
def blockAt (s : State) (o : FordOp) (h : THead) (i : Nat) : Except Stop (Nat × Nat) :=
  match nodeAt s o h i with
  | .error e => .error e
  | .ok t => t.block

/-- The indices of a range. -/
def indices (r : Nat × Nat) : List Nat := (List.range (r.2 - r.1)).map (r.1 + ·)

/-- A sum of counts, ending at the first failure. -/
def sumStops (f : Nat → Except Stop Nat) (start : Nat) (xs : List Nat) : Except Stop Nat :=
  xs.foldl (fun (a : Except Stop Nat) y => match a with
    | .error e => .error e
    | .ok n => match f y with
      | .ok m => .ok (n + m)
      | .error e => .error e) (.ok start)

/-- The blocks that a walk frees below a node, its own children block among them. -/
def blocksBelow (s : State) (o : FordOp) (h : THead) : Nat → Nat → Except Stop Nat
  | 0, _ => .ok 0
  | k + 1, x =>
    match blockAt s o h x with
    | .error e => .error e
    | .ok b => if b.1 = b.2 then .ok 0 else sumStops (blocksBelow s o h k) 1 (indices b)

/-- The nodes of a subtree, as far as they can be read. -/
def nodesBelow (s : State) (o : FordOp) (h : THead) : Nat → Nat → List Nat
  | 0, _ => []
  | k + 1, x => x :: (match blockAt s o h x with
    | .error _ => []
    | .ok b => (indices b).flatMap (nodesBelow s o h k))

/-- The parts of a chain node's children block `b` beside the child that stays (R349). -/
def besides (b : Nat × Nat) (kept : Nat) : (Nat × Nat) × (Nat × Nat) :=
  ((b.1, max b.1 (min kept b.2)), (min (max (kept + 1) b.1) b.2, b.2))

/-- The number of blocks that a re-root frees, over the tree as it stands (R348). -/
def blocksToFree (s : State) (o : FordOp) (h : THead) : List Nat → Except Stop Nat
  | kept :: ai :: rest =>
    match blockAt s o h ai with
    | .error e => .error e
    | .ok b =>
      let p := besides b kept
      let parts := (if p.1.1 < p.1.2 then 1 else 0) + if p.2.1 < p.2.2 then 1 else 0
      match sumStops (blocksBelow s o h h.cap) (parts + 1) (indices p.1 ++ indices p.2), blocksToFree s o h (ai :: rest) with
      | .ok a, .ok b => .ok (a + b)
      | .error e, _ => .error e
      | _, .error e => .error e
  | _ => .ok 0

/-- The part of a chain up to the current root, and whether it gets there without a freed node (R348). -/
def chainToRoot (s : State) (o : FordOp) (h : THead) : Nat → Nat → Except Stop (List Nat)
  | 0, _ => .error ⟨5, 0⟩
  | k + 1, x =>
    match nodeAt s o h x with
    | .error e => .error e
    | .ok t =>
      if t.fr then .error ⟨5, 0⟩
      else if x = h.root then .ok [x]
      else if t.parent = noNode then .error ⟨5, 0⟩
      else match chainToRoot s o h k t.parent with
        | .ok c => .ok (x :: c)
        | .error e => .error e

/-- The pieces of a re-root's freeing, in order (R349). -/
def freeJobs : List Nat → List FreeJob
  | kept :: ai :: rest => .chain ai kept :: freeJobs (ai :: rest)
  | _ => []

/-- The first action of a re-root (R348). -/
def rootAction (o : FordOp) (r : Nat) (sync : Bool) : Prog :=
  .dyn fun s =>
    let h := treeHead s o
    let say := fun (reason status : Nat) => fordEnd o [(o.sd, fordWord 0 false false false reason status)]
    match chainToRoot s o h 65536 r with
    | .error e => .all [touchNodes o h (parentChain s o h 65536 r).1, fordRefuse o e]
    | .ok chain =>
      .all [
        touchNodes o h chain,
        match nodeAt s o h h.root, nodeAt s o h r with
        | .ok rt, .ok t =>
          if rt.v != 0 then say 4 1
          else if r = h.root then say 0 0
          else (match blocksToFree s o h chain with
            | .error e => fordRefuse o e
            | .ok n => .all [
                putNode o h r { t with parent := noNode },
                putHead o 6 (halves r h.next),
                putHead o 7 (halves (h.pend + n) 0),
                .change fun s =>
                  let s := if sync then s else fordAnswer o [(o.sd, fordWord 0 false false false 0 0)] s
                  s.modFord o.id fun x => { x with phase := .freeing, jobs := freeJobs chain, answered := !sync }])
        | .error e, _ => fordRefuse o e
        | _, .error e => fordRefuse o e]

/-- The first node of some that still has a children block to free. -/
def nextBlock (s : State) (o : FordOp) (h : THead) (freed : List Nat) : List Nat → Except Stop (Option Nat)
  | [] => .ok none
  | x :: xs =>
    if freed.contains x then nextBlock s o h freed xs
    else match blockAt s o h x with
      | .error e => .error e
      | .ok b => if b.1 = b.2 then nextBlock s o h freed xs else .ok (some x)

/-- The next block that a re-root pushes (R349): the walk reads each node again at the action in which it frees it, and a node that has no
block by then has none freed. The answer holds the
block, the pieces that remain, and the nodes that still stand whose children block is freed. -/
def nextPush (s : State) (o : FordOp) (h : THead) : Nat → List FreeJob → List Nat → Except Stop (Option ((Nat × Nat) × List FreeJob × List Nat))
  | 0, _, _ => .ok none
  | _, [], _ => .ok none
  | k + 1, j :: js, freed =>
    let still := fun (b : Nat × Nat) => freed.filter fun x => x < b.1 || b.2 ≤ x
    match j with
    | .chain ai kept => match blockAt s o h ai with
      | .error e => .error e
      | .ok b =>
        let p := besides b kept
        nextPush s o h k (.scan p.1.1 p.1.2 p.2.1 p.2.2 :: .part p.1.1 p.1.2 :: .part p.2.1 p.2.2 :: .self ai :: js) freed
    | .scan a b c d => match nextBlock s o h freed (indices (a, b) ++ indices (c, d)) with
      | .error e => .error e
      | .ok none => nextPush s o h k js freed
      | .ok (some x) => nextPush s o h k (.kids x :: j :: js) freed
    | .kids x => match blockAt s o h x with
      | .error e => .error e
      | .ok b => if b.1 = b.2 then nextPush s o h k js freed else match nextBlock s o h freed (indices b) with
        | .error e => .error e
        | .ok none => .ok (some (b, js, x :: still b))
        | .ok (some y) => nextPush s o h k (.kids y :: j :: js) freed
    | .part a b =>
      if b ≤ a then nextPush s o h k js freed
      else match nextBlock s o h freed (indices (a, b)) with
        | .error e => .error e
        | .ok none => .ok (some ((a, b), js, still (a, b)))
        | .ok (some x) => nextPush s o h k (.kids x :: j :: js) freed
    | .self ai => .ok (some ((ai, ai + 1), js, still (ai, ai + 1)))

/-- A re-root has freed its last block, or ends at the action that met a reason. -/
def freeEnd (o : FordOp) (e : Option Stop) : Prog :=
  match e with
  | none => fordEnd o [(o.sd, fordWord 0 false false false 0 0)]
  | some x => .all [logStop o x, fordEnd o [(o.sd, fordWord 0 false false false x.reason 1)]]

/-- One push of a block onto the free list (R349). -/
def pushBlock (o : FordOp) (h : THead) (b : Nat × Nat) : Prog :=
  .all [
    .all ((indices b).map fun i => putNode o h i
      (if i = b.1 then { TNode.freed with first := h.freehead, count := b.2 - b.1 } else TNode.freed)),
    putHead o 1 (halves h.cap b.1),
    putHead o 7 (halves (h.pend - 1) 0)]

/-- An earlier instruction of the group on the same tree has actions left (R338). -/
def fordWaits (s : State) (o : FordOp) : Bool := s.fords.any fun x => x.gid == o.gid && x.pa == o.pa && x.seq < o.seq

/-- The reason for which the first of some nodes that cannot be read ends an instruction (R340). -/
def nodesStop (s : State) (o : FordOp) (h : THead) (is : List Nat) : Option Stop :=
  firstSome (is.map fun i => match nodeAt s o h i with
    | .error e => some e
    | .ok _ => none)

/-- One freeing action of a re-root (R349): it reads each node that it frees. -/
def freeAction (o : FordOp) : Prog :=
  .dyn fun s =>
    let h := treeHead s o
    match nextPush s o h (4 * h.cap + 16) o.jobs o.path with
    | .error e => freeEnd o (some e)
    | .ok none => freeEnd o none
    | .ok (some (b, js, freed)) =>
      match nodesStop s o h (indices b) with
      | some e => freeEnd o (some e)
      | none => .all [
          touchNodes o h (indices b),
          pushBlock o h b,
          if js.isEmpty then freeEnd o none else .change fun s => s.modFord o.id fun x => { x with jobs := js, path := freed }]

/-- The nodes that the pieces still to be freed begin with. -/
def jobNodes : List FreeJob → List Nat
  | [] => []
  | .chain n _ :: _ => [n]
  | .scan a b c d :: _ => indices (a, b) ++ indices (c, d)
  | .kids n :: _ => [n]
  | .part a b :: _ => indices (a, b)
  | .self n :: _ => [n]

/-- The table words that an engine's translations of some addresses read, and where the addresses lie. -/
def fordReads (s : State) (o : FordOp) (vas : List Nat) : List Nat × List Nat :=
  (vas.flatMap fun va => transReads s o.die none o.part (BitVec.ofNat 64 va) needR,
    vas.filterMap fun va => match translate s o.die none o.part (BitVec.ofNat 64 va) needR with
      | .ok pa _ => some pa
      | .fail _ => none)

/-- An action whose nodes lie at some addresses: it waits while a slice that it reaches takes no work (R383, R405). -/
def fordReach (s : State) (o : FordOp) (vas : List Nat) (k : Prog) : Prog :=
  let rd := fordReads s o vas
  if awake s o.pa 64 && awakeWords s (rd.1 ++ rd.2) then .all [readTables s o.die rd.1, k] else .done

/-- The addresses of some nodes. -/
def nodeVas (h : THead) (is : List Nat) : List Nat := (is.filter (· < h.cap)).map fun i => h.arena + 32 * i

/-- FREEING_PUSH (R349). -/
def execFreeingPush (op : Nat) (s : State) : Host.Outcome State Fault Refusal :=
  commit s (.dyn fun s =>
    match s.fords.find? fun o => o.id == op with
    | some o =>
      let h := treeHead s o
      if o.phase == .freeing && !fordWaits s o then
        fordReach s o (nodeVas h ((jobNodes o.jobs).flatMap (nodesBelow s o h h.cap))) (freeAction o)
      else .done
    | none => .done)

/-! ### ts.anc (R350) -/

/-- The chain of a row: `none` for a row that is none, out of range, freed or whose walk is too long. -/
def rowChain (s : State) (o : FordOp) (h : THead) (x : Nat) : Except Stop (Option (List Nat)) :=
  if h.cap ≤ x then .ok none
  else match nodeAt s o h x with
    | .error e => .error e
    | .ok t =>
      if t.fr then .ok none
      else match parentChain s o h 65536 x with
        | (c, none) => .ok (some c)
        | (_, some ⟨6, _⟩) => .ok none
        | (_, some e) => .error e

/-- One action of ts.anc: one row (R350). -/
def ancAction (o : FordOp) (rows cols : Nat) (rowList colList mask : Word) : Prog :=
  .dyn fun s =>
    let h := treeHead s o
    let i := o.node
    match readArray s o 2 (rowList.toNat + 4 * i) 4, readArray s o (4 * cols) colList.toNat (4 * cols) with
    | .ok rb, .ok cb =>
      match rowChain s o h (bytesNat rb) with
      | .error e => .all [touchNodes o h (parentChain s o h 65536 (bytesNat rb)).1, fordRefuse o e]
      | .ok c =>
        let on := fun (j : Nat) => (c.getD []).contains (bytesNat ((cb.drop (4 * j)).take 4))
        let w := (List.range cols).foldl (fun (w : Word) j => if on j then w ||| BitVec.ofNat 64 (2 ^ j) else w) 0
        let last := rows ≤ i + 1
        let words := w :: if last then List.replicate (128 - rows) 0 else []
        let locs := words.zipIdx.map fun x => (x.1, translate s o.die none o.part (mask + BitVec.ofNat 64 (8 * (i + x.2))) needW)
        let aux := o.aux + if c.isNone then 1 else 0
        if locs.any fun l => match l.2 with
          | .fail _ => true
          | .ok _ _ => false then fordRefuse o ⟨7, 0⟩
        else .all [
          touchArray s o (rowList.toNat + 4 * i) 4,
          touchArray s o colList.toNat (4 * cols),
          touchNodes o h (c.getD []),
          .all (locs.map fun l => match l.2 with
            | .ok pa _ => agentWrite pa (wordBytes l.1)
            | .fail _ => .done),
          if last then fordEnd o [(o.sd, fordWord aux false false false 0 0)]
          else .change fun s => s.modFord o.id fun x => { x with node := i + 1, aux := aux }]
    | .error e, _ => .all [touchArray s o (rowList.toNat + 4 * i) 4, fordRefuse o e]
    | _, .error e => .all [touchArray s o colList.toNat (4 * cols), fordRefuse o e]

/-! ### Actions -/

/-- The next action of an accepted instruction. -/
def fordAct (o : FordOp) : Prog :=
  match o.phase, o.kind with
  | .undo r, _ => undoAction o r
  | .accepted, .desc user => descAction o user
  | .accepted, .back leaf v alt nv => backAction o leaf v alt nv
  | .accepted, .exp n k a t => (match o.recs with
    | none => recsAction o k a
    | some rs => expAction o n k rs t)
  | .accepted, .root r sync => rootAction o r sync
  | .accepted, .anc rows cols rl cl m => ancAction o rows cols rl cl m
  | _, _ => .done

/-- The virtual addresses that the next action of an instruction reaches. -/
def fordVas (s : State) (o : FordOp) : List Nat :=
  let h := treeHead s o
  let kids := fun (i : Nat) => match blockAt s o h i with
    | .ok b => indices b
    | .error _ => []
  match o.phase, o.kind, o.path with
  | .undo _, _, n :: _ => nodeVas h [n]
  | .accepted, .desc _, [] => nodeVas h [h.root] ++ [h.bin]
  | .accepted, .desc _, n :: _ => nodeVas h (n :: kids n) ++ [h.bin]
  | .accepted, .back leaf .., _ => nodeVas h [if o.depth = 0 then leaf else o.node]
  | .accepted, .exp n k a _, _ =>
    if o.recs.isNone then linesOf 64 a.toNat (8 * k)
    else nodeVas h (n :: h.freehead :: (List.range (k + 1)).flatMap fun i => [h.freehead + i, h.next + i])
  | .accepted, .root r _, _ =>
    let c := (parentChain s o h 65536 r).1
    nodeVas h (c ++ (c.drop 1).flatMap fun i => (kids i).flatMap (nodesBelow s o h h.cap))
  | .accepted, .anc rows cols rl cl m, _ =>
    let row := match readArray s o 2 (rl.toNat + 4 * o.node) 4 with
      | .ok bs => bytesNat bs
      | .error _ => noNode
    linesOf 64 (rl.toNat + 4 * o.node) 4 ++ linesOf 64 cl.toNat (4 * cols)
      ++ linesOf 64 (m.toNat + 8 * o.node) (if rows ≤ o.node + 1 then 1024 - 8 * o.node else 8)
      ++ nodeVas h (parentChain s o h 65536 row).1
  | _, _, _ => []

/-- The bin of a tree takes a record, where a descent may put one (R344). -/
def fordBinAwake (s : State) (o : FordOp) : Bool :=
  let h := treeHead s o
  match o.kind, translate s o.die none o.part (BitVec.ofNat 64 h.bin) needRW with
  | .desc _, .ok pa e => !inSram pa || binAwake s o.part pa (e.vbase + e.size - h.bin)
  | _, _ => true

/-- FORD_ACTION (R338): one action, in the tree's single order. -/
def execFordAction (op : Nat) (s : State) : Host.Outcome State Fault Refusal :=
  commit s (.dyn fun s =>
    match s.fords.find? fun o => o.id == op with
    | some o => if fordWaits s o || !fordBinAwake s o then .done else fordReach s o (fordVas s o) (fordAct o)
    | none => .done)

end Sys2Proof.Machine
end

