-- ==== Sys2Proof/Machine/Fabric.lean ====
section
/-! DEFINITION. Fabric collectives (R387 to R393, R185), and the remote operations of hosts and peer devices (R314, R394, R396). -/

namespace Sys2Proof.Machine

/-! ### Collective records (R387) -/

/-- The fields of a collective record. -/
structure FRec where
  result : Word
  doneVa : Word
  contributions : Nat
  children : Nat
  parent : Nat
  rnd : Nat
  sat : Bool
  type : Nat
  elems : Nat
  round : Word
  peers : Word
  arrived : Word
  carrived : Word
  deriving DecidableEq, Repr

/-- A record read. -/
def FRec.of (ws : List Word) : FRec :=
  let w := fun k => ws.getD k 0
  { result := w 0
    doneVa := w 1
    contributions := bitsOf (w 2) 48 16
    children := bitsOf (w 2) 44 4
    parent := bitsOf (w 2) 38 6
    rnd := bitsOf (w 2) 35 3
    sat := (w 2).getLsbD 34
    type := bitsOf (w 2) 30 4
    elems := bitsOf (w 2) 21 9 + 1
    round := w 3
    peers := w 4
    arrived := w 5
    carrived := w 6 }

/-- The type sums integers. -/
def FRec.isInt (h : FRec) : Bool := h.type == 5 || h.type == 7

/-- Bytes of an element (R387). -/
def FRec.size (h : FRec) : Nat := match h.type with
  | 7 => 8
  | 10 => 2
  | 11 => 2
  | _ => 4

/-- The record is invalid (R387). -/
def recordInvalid (ws : List Word) : Bool :=
  let h := FRec.of ws
  let w := fun k => ws.getD k 0
  bitsOf (w 0) 52 12 != 0 || bitsOf (w 1) 52 12 != 0 || bitsOf (w 2) 0 21 != 0 || bitsOf (w 4) 52 12 != 0 || bitsOf (w 7) 2 62 != 0
    || h.contributions = 0 || !([5, 7, 9, 10, 11].contains h.type) || 4 < h.rnd || (h.isInt && h.rnd != 0) || (!h.isInt && h.sat)

/-- Entry `k` of the peer table: the peer's fabric address and its record's virtual address (R387). -/
def peerEntry (s : State) (p : Nat) (h : FRec) (k : Nat) : Option (Word × Word) :=
  (readVa s p (h.peers + BitVec.ofNat 64 (16 * k)) 2).map fun ws => (ws.getD 0 0, (ws.getD 1 0).extractLsb' 0 52 |>.setWidth 64)

/-- The entries of the peer table that the device uses. -/
def FRec.peerNumbers (h : FRec) : List Nat := List.range h.children ++ (if h.parent < 63 then [h.parent] else [])

/-! ### Sums (R185) -/

/-- Z as the 320-bit register holds it. -/
def wrap320 (z : Int) : Int := (BitVec.ofInt 320 z).toInt

/-- One addend (R185). -/
def addendOf (h : FRec) (n : Nat) : FabElem :=
  if h.isInt then ⟨readInt true (8 * h.size) n, 1, false, false, false, false⟩
  else match (fmtOf (BitVec.ofNat 4 h.type)).read n with
    | .nan _ => ⟨0, 1, true, false, false, false⟩
    | .inf neg => ⟨0, 1, false, !neg, neg, false⟩
    | .fin neg m e =>
      let z : Int := (m * 2 ^ (e + 160).toNat : Nat)
      ⟨if neg then -z else z, 1, false, false, false, neg && m == 0⟩

/-- Two sums merged (R185). -/
def FabElem.merge (a b : FabElem) : FabElem :=
  ⟨wrap320 (a.z + b.z), a.count + b.count, a.nan || b.nan, a.pinf || b.pinf, a.ninf || b.ninf, a.negz && b.negz⟩

/-- A child's partial as a sum (R392). -/
def FabElem.ofPartial (e : PartialElem) : FabElem :=
  ⟨e.z.toInt, e.count.toNat, e.flags.getLsbD 0, e.flags.getLsbD 1, e.flags.getLsbD 2, e.negz⟩

/-- A sum as a partial message carries it (R392). -/
def FabElem.toPartial (e : FabElem) : PartialElem :=
  ⟨BitVec.ofInt 320 e.z, BitVec.ofNat 32 (min e.count (2 ^ 32 - 1)),
    BitVec.ofNat 8 ((if e.nan then 1 else 0) + (if e.pinf then 2 else 0) + (if e.ninf then 4 else 0)), e.negz⟩

/-- The result of one element at the root (R185, R390), with OC and OV. -/
def rootElem (h : FRec) (e : FabElem) : Nat × Bool × Bool :=
  if h.isInt then (narrow h.sat true (8 * h.size) e.z, false, false)
  else
    let f := fmtOf (BitVec.ofNat 4 h.type)
    if 2 ^ 31 < e.count then (f.nan, true, false)
    else if e.nan || (e.pinf && e.ninf) then (f.nan, false, false)
    else if e.pinf || e.ninf then (f.inf e.ninf, false, false)
    else if e.z = 0 then (f.zero e.negz, false, false)
    else
      let r := (f.round h.rnd (decide (e.z < 0)) e.z.natAbs (-160) false).1
      (r, false, r == f.inf false || r == f.inf true)

/-! ### Delivery (R390) -/

/-- The physical pieces of some bytes at a virtual address, or the address that fails. -/
def vaSpans (s : State) (p : Nat) (need : Need) : Nat → Word → Nat → Except Word (List (Nat × Nat))
  | 0, _, _ => .ok []
  | k + 1, va, n =>
    match translate s 0 none p va need with
    | .fail _ => .error va
    | .ok pa e =>
      let room := e.vbase + e.size - va.toNat
      if n ≤ room then .ok [(pa, n)]
      else match vaSpans s p need k (va + BitVec.ofNat 64 room) (n - room) with
        | .error a => .error a
        | .ok l => .ok ((pa, room) :: l)

/-- The table words that reading `n` bytes at a virtual address translates with, of its first and its last byte. -/
def vaReads (s : State) (p : Nat) (need : Need) (va : Word) (n : Nat) : List Nat :=
  transReads s 0 none p va need ++ transReads s 0 none p (va + BitVec.ofNat 64 (n - 1)) need

/-- Bytes written to physical pieces. -/
def writeSpans : List (Nat × Nat) → List Byte → Prog
  | [], _ => .done
  | (a, n) :: l, bs => .all [agentWrite a (bs.take n), writeSpans l (bs.drop n)]

/-- The table words that the entries of a record's peer table translate with, and the entries' words. -/
def peerReads (s : State) (p : Nat) (h : FRec) : List Nat × List Nat :=
  let vas := h.peerNumbers.map fun k => h.peers + BitVec.ofNat 64 (16 * k)
  (vas.flatMap fun va => transReads s 0 none p va needR,
    vas.flatMap fun va => match translate s 0 none p va needR with
      | .ok pa _ => [pa, pa + 8]
      | .fail _ => [])

/-- The table words that a delivery translates with (R390). -/
def deliverTables (s : State) (p : Nat) (h : FRec) : List Nat :=
  vaReads s p needW h.result (h.elems * h.size) ++ transReads s 0 none p h.doneVa needRW

/-- Every slice that a delivery reaches takes work (R383, R405). -/
def deliverAwake (s : State) (p : Nat) (h : FRec) : Bool :=
  awakeWords s (deliverTables s p h)
    && (match vaSpans s p needW 3 h.result (h.elems * h.size) with
      | .ok l => l.all fun x => awake s x.1 x.2
      | .error _ => true)
    && (match translate s 0 none p h.doneVa needRW with
      | .ok a _ => awakeAt s a
      | .fail _ => true)

/-- Every slice that closing or serving a record may reach takes work: its peer table, and those of a delivery where one may follow; and a
port can carry the messages to the peers that it has (R405). -/
def fabAwake (s : State) (p : Nat) (h : FRec) (delivers : Bool) : Bool :=
  let rd := peerReads s p h
  awakeWords s (rd.1 ++ rd.2) && (!delivers || (deliverAwake s p h && (portReady s || h.peerNumbers.isEmpty)))

/-- The context of the record at a physical address, whichever virtual address named it. DEDUCED (log entry 81). -/
def FabCtx.of (p pa : Nat) (c : FabCtx) : Bool := c.part == p && c.pa == pa

/-- An instruction that contributed to the round of the record at a physical address. -/
def contributedTo (p pa : Nat) (r : Req) : Bool :=
  r.phase == .contributed && r.part == p && (r.pieces.head?.map Piece.addr) == some pa && (match r.op with
    | .fbRed .. => true
    | _ => false)

/-- A round is delivered (R390): the result, the record, the done counter, the children; the context is free, and the round's
contributions are performed (R393). -/
def fabDeliver (p recVa pa : Nat) (bs : List Byte) : Prog :=
  .dyn fun s =>
    let h := FRec.of (structWords s pa 8)
    let log := fun (sub : Nat) (va : Word) => logEntry p ⟨.prot, 10, sub, 0, va, BitVec.ofNat 64 recVa, h.round⟩
    .all [
      readTables s 0 (deliverTables s p h),
      match vaSpans s p needW 3 h.result bs.length with
        | .error va => log 0 va
        | .ok l => writeSpans l bs,
      writeWords (pa + 24) [h.round + 1],
      writeWords (pa + 40) [0, 0],
      match translate s 0 none p h.doneVa needRW with
        | .fail _ => log 1 h.doneVa
        | .ok a _ => counterAddDev p a h.doneVa 1 none (logEntry p ⟨.uncorr, 7, 0, 0, BitVec.ofNat 64 a, 0, 0⟩),
      .change fun s =>
        let outs := (List.range h.children).filterMap fun k => (peerEntry s p h k).map fun e => HostMsg.resultOut e.1 p e.2 h.round bs
        { s with
          outbox := s.outbox ++ outs
          fabs := s.fabs.filter fun c => !c.of p pa
          reqs := s.reqs.filter fun r => !contributedTo p pa r }]

/-- The device's round closes where its last contribution or partial has come (R390): the root delivers, another device sends one
partial to its parent. -/
def fabClose (p recVa pa : Nat) : Prog :=
  .dyn fun s =>
    let h := FRec.of (structWords s pa 8)
    match s.fabs.find? (FabCtx.of p pa) with
    | none => .done
    | some c =>
      if h.arrived.toNat != h.contributions || h.carrived.toNat != h.children then .done
      else if h.parent = 63 then
        let rs := c.elems.map (rootElem h)
        let bits := (if rs.any fun r => r.2.1 then 2 else 0) + (if rs.any fun r => r.2.2 then 1 else 0)
        .all [
          Prog.when (bits != 0) (writeWords (pa + 56) [unitWord s (pa + 56) ||| BitVec.ofNat 64 bits]),
          fabDeliver p recVa pa (rs.flatMap fun r => natBytes h.size r.1)]
      else .change fun s =>
        let outs := match peerEntry s p h h.parent with
          | some e => [HostMsg.partialOut e.1 p e.2 h.round (c.elems.map FabElem.toPartial)]
          | none => []
        { s with
          outbox := s.outbox ++ outs
          fabs := s.fabs.map fun x => if x.of p pa then { x with waiting := true } else x }

/-- Sums merged into a record's context, which is taken where none is open. -/
def fabMerge (p pa : Nat) (die : Option Nat) (h : FRec) (es : List FabElem) (s : State) : State :=
  let ds := die.toList
  if s.fabs.any (FabCtx.of p pa) then
    { s with fabs := s.fabs.map fun c =>
        if c.of p pa then
          { c with
            dies := (c.dies ++ ds).eraseDups
            elems := (c.elems.zip es).map fun x => x.1.merge x.2 }
        else c }
  else
    let c : FabCtx := ⟨p, pa, h.round, ds, es, false⟩
    { s with fabs := s.fabs ++ [c] }

/-! ### fb.red and fb.bcast (R388 to R391) -/

/-- Reduction contexts of a die's switch that are open or that an instruction on its way will take (R389). -/
def switchUsed (s : State) (die : Nat) : Nat :=
  let open_ := (s.fabs.filter fun c => c.dies.contains die).map fun c => (c.part, c.pa)
  let coming := s.reqs.filterMap fun r => match r.op, r.phase, r.pieces with
    | .fbRed .., .flying, x :: _ => if dieOfCore r.core = die then some (r.part, x.addr) else none
    | .fbBcast .., .flying, x :: _ => if dieOfCore r.core = die then some (r.part, x.addr) else none
    | _, _, _ => none
  (open_ ++ coming).eraseDups.length

/-- The checks of R389 items 2 to 6. -/
def fabCheck (i : Instr) (f : UR) (s : State) (g : Group) : Option Report :=
  let recVa := blk f g 0
  let data := blk f g 1
  let count := blk f g 2
  firstSome [
    alignCheck i 64 [(0, recVa)],
    failIf (count = 0 || 256 < count.toNat) .bound i count,
    if inRange (groupLimit s g) data.toInt (8 * count.toNat) then none else some (addrReport .bound i 0 data),
    alignCheck i 8 [(0, data)],
    transCheck i s g 1 needRW [(0, recVa)]]

/-- A collective instruction at issue (R388, R389): its data range enters the scoreboard as a read (R258). -/
def fabPlan (i : Instr) (f : UR) (op : Nat → Nat → Nat → Nat → Nat → ReqOp) : Plan where
  acts := .group
  srcs := blockSrcs f (f.fn.getLsbD 0) [0, 1, 2, 3]
  dsts := [.s f.sd.toNat]
  cls := some 5
  tq := true
  release := true
  closes := fun _ _ _ => true
  stall := fun s g => scoreFull s g.core || 64 ≤ switchUsed s (dieOfCore g.core)
  touches := fun s g eff => if eff = 0 then [] else transReads s (dieOfCore g.core) (some g.core) g.part (blk f g 0) needRW
  check := fun s g eff => if eff = 0 then none else fabCheck i f s g
  effect := fun s g _ => .change fun t =>
    let recVa := blk f g 0
    let data := (blk f g 1).toNat
    let count := (blk f g 2).toNat
    let ps := (piecesOf s g 8 needRW recVa).map fun p => { p with len := 64 }
    let r := { newReq s g 0 5 false ps (op recVa.toNat count (blk f g 3).toNat data f.sd.toNat) with rel := true }
    let t := addReqs [r] (emptyRegs g.gid [f.sd.toNat] (installAll g 8 needRW [(0, recVa)] t))
    { t with scores := t.scores ++ [⟨s.seq, pairOfCore g.core, g.team, g.gid, none, [((data : Int), (data : Int) + 8 * count, false)]⟩] }

/-- fb.red (R388 to R390). -/
def planFbRed (h : Hdr) (f : UR) : Plan :=
  fabPlan (.fbRed h f) f .fbRed

/-- The meaning of FB_RED. -/
def execFbRed (h : Hdr) (f : UR) : State → Host.Outcome State Fault Refusal :=
  runPlan (.fbRed h f) h (planFbRed h f)

/-- fb.bcast (R388, R389, R391). -/
def planFbBcast (h : Hdr) (f : UR) : Plan :=
  fabPlan (.fbBcast h f) f .fbBcast

/-- The meaning of FB_BCAST. -/
def execFbBcast (h : Hdr) (f : UR) : State → Host.Outcome State Fault Refusal :=
  runPlan (.fbBcast h f) h (planFbBcast h f)

/-- An earlier entry of the team's scoreboard still orders the data range (R259, R389). -/
def heldByData (s : State) (r : Req) (data count : Nat) : Bool :=
  s.scores.any fun e => e.team == r.team && e.seq < r.seq && rangesMeet e.ranges [((data : Int), (data : Int) + 8 * count, false)]

/-- The reason for which a switch refuses (R389). -/
def fabReason (s : State) (p : Nat) (ws : List Word) (bcast : Bool) (count round : Nat) : Option Nat :=
  let h := FRec.of ws
  if recordInvalid ws || (h.peerNumbers.any fun k => (peerEntry s p h k).isNone) then some 1
  else if round != h.round.toNat then some 2
  else if count != h.elems then some 3
  else if !bcast && h.arrived.toNat = h.contributions then some 4
  else if bcast && (h.parent != 63 || h.contributions != 1) then some 5
  else none

/-- The bytes of scratchpad that a switch reads: an uncorrectable word gives a free value. -/
def fabBytes (s : State) (tid data n : Nat) : List Byte :=
  match s.team? tid with
  | none => []
  | some t => ((List.range ((n + 7) / 8)).flatMap fun k => wordBytes (spUnitWord s t (data + 8 * k))).take n

/-- Elements of some bytes. -/
def elemsOf (h : FRec) (bs : List Byte) : List Nat := (List.range h.elems).map fun k => bytesNat ((bs.drop (h.size * k)).take h.size)

/-- A switch reads the record and accepts or refuses (R389); an accepted contribution is merged, and closes the device's round where it
is the last (R390); an accepted broadcast is delivered (R391). -/
def fabAccept (r : Req) (bcast : Bool) (recVa count round data sd : Nat) : Prog :=
  .dyn fun s =>
    match r.pieces with
    | [] => .done
    | p :: _ =>
      let ws := structWords s p.addr 8
      let h := FRec.of ws
      if heldByData s r data count || !poolAwake s r.team data (8 * count) || !(recordInvalid ws || fabAwake s r.part h true) then .done
      else .all [
        touchWords s ((List.range 8).map fun k => p.addr + 8 * k),
        Prog.when (!recordInvalid ws) (readProg s (peerReads s r.part h)),
        match fabReason s r.part ws bcast count round with
        | some n => .change (answerRegs r [(sd, statusWord false n 1, false)])
        | none =>
          let bs := fabBytes s r.team data (count * h.size)
          let say := fun (s : State) => if r.drop then s else s.modGrp r.gid fun g => g.setS s.now sd 0
          let read := spRead r.team data (count * h.size)
          if bcast then .all [.change fun s => finishReq r.id (say (read s)), fabDeliver r.part recVa p.addr bs]
          else .all [
            .change fun s =>
              let s := fabMerge r.part p.addr (some (dieOfCore r.core)) h ((elemsOf h bs).map (addendOf h)) (say (read s))
              settleScores (s.modReq r.id fun q => { q with phase := .contributed }),
            writeWords (p.addr + 40) [h.arrived + 1],
            fabClose r.part recVa p.addr]]

/-- A collective instruction reaches its switch. -/
def fabPerform (r : Req) : Prog :=
  match r.op with
  | .fbRed recVa count round data sd => fabAccept r false recVa count round data sd
  | .fbBcast recVa count round data sd => fabAccept r true recVa count round data sd
  | _ => .done

/-! ### Messages between devices (R392) -/

/-- A message reaches a partition's collective endpoint: the record that it names, in the message's round, is given to `k`. -/
def fabMessage (p : Nat) (record round : Word) (sub : Nat) (k : Nat → FRec → Prog) : Prog :=
  .dyn fun s =>
    let log := fun (c : Word) => logEntry p ⟨.prot, 11, sub, 0, record, round, c⟩
    let rd := (transReads s 0 none p record needRW, match translate s 0 none p record needRW with
      | .ok pa _ => (List.range 8).map fun k => pa + 8 * k
      | .fail _ => [])
    if !reachesPart s p || (s.part p).state == .resetting || s.mgmt.stopped || !awakeWords s (rd.1 ++ rd.2) then .done
    else .all [
      readProg s rd,
      match translate s 0 none p record needRW with
      | .fail _ => log (BitVec.allOnes 64)
      | .ok pa _ =>
        let ws := structWords s pa 8
        let h := FRec.of ws
        if record.toNat % 64 != 0 || recordInvalid ws then log (BitVec.allOnes 64)
        else if h.round != round then log h.round
        else .dyn fun s => if fabAwake s p h true then .all [readProg s (peerReads s p h), k pa h] else .done]

/-- PARTIAL_MESSAGE (R390, R392): a child's partial is merged like a contribution. -/
def execPartialMessage (p : Nat) (record round : Word) (elems : List PartialElem) (s : State) : Host.Outcome State Fault Refusal :=
  commit s (fabMessage p record round 0 fun pa h =>
    if elems.length != h.elems then .done
    else .all [
      .change (fabMerge p pa none h (elems.map FabElem.ofPartial)),
      writeWords (pa + 48) [h.carrived + 1],
      fabClose p record.toNat pa])

/-- RESULT_MESSAGE (R390, R392): the round is delivered on this device. -/
def execResultMessage (p : Nat) (record round : Word) (payload : List Byte) (s : State) : Host.Outcome State Fault Refusal :=
  commit s (fabMessage p record round 1 fun pa h =>
    if payload.length != h.elems * h.size then .done else fabDeliver p record.toNat pa payload)

/-! ### Remote operations (R314, R396) -/

/-- The rights that a remote operation needs. -/
inductive RemoteKind where
  | read
  | write
  | atomic
  deriving DecidableEq, Repr

/-- The window grants a kind of access. -/
def Window.grants (w : Window) : RemoteKind → Bool
  | .read => w.read
  | .write => w.write
  | .atomic => w.atomic

/-- The permissions of the page that a kind of access needs. -/
def RemoteKind.need : RemoteKind → Need
  | .read => needR
  | .write => needW
  | .atomic => needRW

/-- Where a remote access goes, or nothing where its range, right, key or translation fails (R396). -/
def remoteSpans (s : State) (r : RemoteRef) (kind : RemoteKind) (n : Nat) : Option (List (Nat × Nat)) :=
  match ((s.part r.part).windows.getD r.window none) with
  | none => none
  | some w =>
    if w.key != r.key || !w.grants kind || w.length < r.offset + n then none
    else match vaSpans s r.part kind.need (n / 65536 + 2) (BitVec.ofNat 64 (w.base + r.offset)) n with
      | .error _ => none
      | .ok l => some l

/-- The table words that the translations of a remote access read. -/
def remoteReads (s : State) (r : RemoteRef) (need : Need) (n : Nat) : List Nat :=
  match ((s.part r.part).windows.getD r.window none) with
  | none => []
  | some w => (List.range ((n + 65535) / 65536 + 1)).flatMap fun k =>
    transReads s 0 none r.part (BitVec.ofNat 64 (w.base + r.offset + min (65536 * k) (n - 1))) need

/-- Every byte's slice group is ready, and no array of it is in retention (R383, R405). -/
def spansOpen (s : State) (l : List (Nat × Nat)) : Bool := l.all fun x => awake s x.1 x.2

/-- A message to the outside. -/
def tell (m : HostMsg) (s : State) : State := { s with outbox := s.outbox ++ [m] }

/-- A remote access that passes its checks, or its error completion. -/
def remote (r : RemoteRef) (kind : RemoteKind) (n : Nat) (act : State → List (Nat × Nat) → Prog) : Prog :=
  .dyn fun s =>
    let open_ := ((remoteSpans s r kind n).map (spansOpen s)).getD true
    if !reachesPart s r.part || s.mgmt.stopped || !open_ || !awakeWords s (remoteReads s r kind.need n) then .done
    else .all [
      readTables s 0 (remoteReads s r kind.need n),
      match remoteSpans s r kind n with
        | none => .change (tell (.accessError r.tag))
        | some l => .dyn fun s => act s l]

/-- REMOTE_WRITE (R314): the completion follows the last byte. -/
def execRemoteWrite (r : RemoteRef) (payload : List Byte) (s : State) : Host.Outcome State Fault Refusal :=
  commit s (remote r .write payload.length fun _ l => .all [writeSpans l payload, .change (tell (.writeDone r.tag))])

/-- The bytes that a remote read returns: an uncorrectable word gives a free value. -/
def remoteBytes (s : State) (a n : Nat) : List Byte :=
  (List.range n).map fun i =>
    let x := a + i
    if devBad s (x / 8 * 8) 8 then (Config.lost s.fresh (x / 8 * 8)).extractLsb' (8 * (x % 8)) 8 else devByte s x

/-- REMOTE_READ (R314). -/
def execRemoteRead (r : RemoteRef) (len : Nat) (s : State) : Host.Outcome State Fault Refusal :=
  commit s (remote r .read len fun s l => .all [
    .all (l.map fun x => devReadEffect x.1 x.2),
    .change (tell (.readData r.tag (l.flatMap fun x => remoteBytes s x.1 x.2)))])

/-- A 64-bit remote atomic (R396), like an `at` with `.ar` at `.sys`: `f` gives the new word. -/
def remoteAtomic (r : RemoteRef) (f : Word → Word) : Prog :=
  .dyn fun s =>
    let base := (((s.part r.part).windows.getD r.window none).map Window.base).getD 0
    if reachesPart s r.part && (base + r.offset) % 8 != 0 then .change (tell (.accessError r.tag))
    else remote r .atomic 8 fun s l =>
      match l with
      | [] => .done
      | x :: _ =>
        let old := unitWord s x.1
        .all [
          devReadEffect x.1 8,
          if devBad s x.1 8 then logEntry r.part ⟨.uncorr, 7, 0, 0, BitVec.ofNat 64 x.1, 0, 0⟩
          else agentWrite x.1 (wordBytes (f old)),
          .change (tell (.atomicDone r.tag old))]

/-- REMOTE_FETCH_ADD (R396). -/
def execRemoteFetchAdd (r : RemoteRef) (value : Word) (s : State) : Host.Outcome State Fault Refusal :=
  commit s (remoteAtomic r fun old => atomicNew 0 8 old value 0)

/-- REMOTE_SWAP (R396). -/
def execRemoteSwap (r : RemoteRef) (value : Word) (s : State) : Host.Outcome State Fault Refusal :=
  commit s (remoteAtomic r fun old => atomicNew 7 8 old value 0)

/-- REMOTE_COMPARE_SWAP (R396). -/
def execRemoteCompareSwap (r : RemoteRef) (value compare : Word) (s : State) : Host.Outcome State Fault Refusal :=
  commit s (remoteAtomic r fun old => atomicNew 8 8 old value compare)

/-- UNSUPPORTED_UE_PACKET (R394): a port that is not ready carries no packet (R405). -/
def execUnsupportedUePacket (service : Nat) (s : State) : Host.Outcome State Fault Refusal :=
  commit s (.dyn fun s => if portReady s then .change (tell (.unsupported service)) else .done)

end Sys2Proof.Machine
end

