-- ==== Sys2Proof/Machine/Crypto.lean ====
section
/-! DEFINITION. The signatures that the spec names by their standards, Ed25519 of RFC 8032 and ML-DSA-65 of FIPS 204 (R401, R403), and the
key exchange over secp384r1 with the keys of SPDM 1.3 (R406). -/

namespace Sys2Proof.Machine

/-! ### Ed25519 (RFC 8032) -/

/-- The prime of the field. -/
def edP : Nat := 2 ^ 255 - 19

/-- The order of the base point. -/
def edL : Nat := 2 ^ 252 + 27742317777372353535851937790883648493

/-- `b` to the power `e`, modulo `m`; `k` bounds the bits of `e`. -/
def powMod (m b : Nat) : Nat → Nat → Nat
  | 0, _ => 1
  | k + 1, e => let h := powMod m (b * b % m) k (e / 2); if e % 2 = 1 then b * h % m else h

/-- The inverse in the field. -/
def edInv (x : Nat) : Nat := powMod edP x 255 (edP - 2)

/-- d of the curve, −121665 ÷ 121666. -/
def edD : Nat := (edP - 121665) * edInv 121666 % edP

/-- A point in extended coordinates. -/
structure EdPoint where
  x : Nat
  y : Nat
  z : Nat
  t : Nat
  deriving DecidableEq, Repr

/-- The neutral point. -/
def EdPoint.zero : EdPoint := ⟨0, 1, 1, 0⟩

/-- The sum of two points. -/
def EdPoint.add (p q : EdPoint) : EdPoint :=
  let a := (p.y + edP - p.x) * (q.y + edP - q.x) % edP
  let b := (p.y + p.x) * (q.y + q.x) % edP
  let c := p.t * 2 * edD * q.t % edP
  let d := p.z * 2 * q.z % edP
  let e := b + edP - a
  let f := d + edP - c
  let g := d + c
  let h := b + a
  ⟨e * f % edP, g * h % edP, f * g % edP, e * h % edP⟩

/-- `n` times a point; `k` bounds the bits of `n`. -/
def EdPoint.mul : Nat → Nat → EdPoint → EdPoint
  | 0, _, _ => .zero
  | k + 1, n, p => let h := EdPoint.mul k (n / 2) (p.add p); if n % 2 = 1 then p.add h else h

/-- Two points are the same point of the curve. -/
def EdPoint.same (p q : EdPoint) : Bool := p.x * q.z % edP == q.x * p.z % edP && p.y * q.z % edP == q.y * p.z % edP

/-- The 32 bytes of a point. -/
def EdPoint.bytes (p : EdPoint) : List Byte :=
  let zi := edInv p.z
  natBytes 32 (p.y * zi % edP + p.x * zi % edP % 2 * 2 ^ 255)

/-- x from y and the sign bit, where the curve has such a point. -/
def edRecover (y sign : Nat) : Option Nat :=
  if edP ≤ y then none
  else
    let u := (y * y + edP - 1) % edP
    let v := (edD * (y * y) + 1) % edP
    let x2 := u * edInv v % edP
    let x0 := powMod edP x2 255 ((edP + 3) / 8)
    let x := if x0 * x0 % edP = x2 then x0 else x0 * powMod edP 2 255 ((edP - 1) / 4) % edP
    if x * x % edP != x2 then none
    else if x = 0 && sign = 1 then none
    else some (if x % 2 = sign then x else edP - x)

/-- A point from its 32 bytes. -/
def EdPoint.of (bs : List Byte) : Option EdPoint :=
  let n := bytesNat bs
  (edRecover (n % 2 ^ 255) (n / 2 ^ 255)).map fun x => ⟨x, n % 2 ^ 255, 1, x * (n % 2 ^ 255) % edP⟩

/-- The base point. -/
def edBase : EdPoint :=
  let y := 4 * edInv 5 % edP
  let x := (edRecover y 0).getD 0
  ⟨x, y, 1, x * y % edP⟩

/-- The secret scalar and the prefix of a private key. -/
def edExpand (sk : List Byte) : Nat × List Byte :=
  let h := sha512 sk
  (2 ^ 254 + bytesNat (h.take 32) % 2 ^ 254 / 8 * 8, h.drop 32)

/-- The public key of a private key. -/
def edPublic (sk : List Byte) : List Byte := (EdPoint.mul 255 (edExpand sk).1 edBase).bytes

/-- The 64-byte signature of a message (RFC 8032, pure form). -/
def edSign (sk msg : List Byte) : List Byte :=
  let (a, pre) := edExpand sk
  let r := bytesNat (sha512 (pre ++ msg)) % edL
  let rb := (EdPoint.mul 253 r edBase).bytes
  let k := bytesNat (sha512 (rb ++ edPublic sk ++ msg)) % edL
  rb ++ natBytes 32 ((r + k * a) % edL)

/-- The signature of a message verifies under a public key: 8sB = 8R + 8kA (RFC 8032, pure form). -/
def edVerify (pk msg sig : List Byte) : Bool :=
  match EdPoint.of pk, EdPoint.of (sig.take 32) with
  | some a, some r =>
    let s := bytesNat (sig.drop 32)
    let k := bytesNat (sha512 (sig.take 32 ++ pk ++ msg)) % edL
    sig.length == 64 && pk.length == 32 && decide (s < edL)
      && (EdPoint.mul 4 8 (EdPoint.mul 253 s edBase)).same (EdPoint.mul 4 8 (r.add (EdPoint.mul 253 k a)))
  | _, _ => false

/-! ### ML-DSA-65 (FIPS 204) -/

/-- q. -/
def dsaQ : Nat := 8380417

/-- γ2, the range of the low part. -/
def dsaG2 : Nat := 261888

/-- γ1, the range of the mask. -/
def dsaG1 : Nat := 2 ^ 19

/-- The bits of eight of a number in reverse order. -/
def bitRev8 (n : Nat) : Nat := (List.range 8).foldl (fun v i => 2 * v + n / 2 ^ i % 2) 0

/-- The powers of the 512th root of unity 1753. -/
def dsaPowers : Array Nat := ((List.range 512).foldl (fun (a : List Nat × Nat) _ => (a.2 :: a.1, a.2 * 1753 % dsaQ)) ([], 1)).1.reverse.toArray

/-- The transform of a polynomial of 256 coefficients: its values at the odd powers of the root, in bit-reversed order. -/
def ntt (pw : Array Nat) (f : List Nat) : List Nat :=
  (List.range 256).map fun i =>
    let e := 2 * bitRev8 i + 1
    f.zipIdx.foldl (fun s c => (s + c.1 * pw.getD (e * c.2 % 512) 0) % dsaQ) 0

/-- The inverse of the transform. -/
def nttInv (pw : Array Nat) (f : List Nat) : List Nat :=
  let n := powMod dsaQ 256 24 (dsaQ - 2)
  let es := f.zipIdx.map fun c => (c.1, 2 * bitRev8 c.2 + 1)
  (List.range 256).map fun j => es.foldl (fun s c => (s + c.1 * pw.getD ((512 - c.2 * j % 512) % 512) 0) % dsaQ) 0 * n % dsaQ

/-- The coefficients below q among groups of three bytes, the top bit of each group cleared. -/
def rejNtt : List Byte → List Nat
  | a :: b :: c :: l =>
    let z := a.toNat + 256 * b.toNat + 65536 * (c.toNat % 128)
    if z < dsaQ then z :: rejNtt l else rejNtt l
  | _ => []

/-- Entry (r, s) of the matrix of a public key, transformed. -/
def dsaMatrix (rho : List Byte) (r s : Nat) : List Nat :=
  (rejNtt (shake128 (rho ++ [BitVec.ofNat 8 s, BitVec.ofNat 8 r]) 1344)).take 256

/-- Places 207 to 255 of the challenge take their values in order: each swaps in a place that the stream of bytes names. -/
def ballStep (signs : Nat) : Nat → Nat → List Byte → List Nat → List Nat
  | 0, _, _, c => c
  | _, _, [], c => c
  | n + 1, i, b :: bs, c =>
    if 256 ≤ i then c
    else if i < b.toNat then ballStep signs n i bs c
    else
      let c := (c.set i (c.getD b.toNat 0)).set b.toNat (if signs / 2 ^ (i - 207) % 2 = 1 then dsaQ - 1 else 1)
      ballStep signs n (i + 1) bs c

/-- The challenge polynomial of a commitment hash: 49 coefficients are 1 or −1. -/
def sampleInBall (ct : List Byte) : List Nat :=
  let bs := shake256 ct 1088
  ballStep (bytesNat (bs.take 8)) 1080 207 (bs.drop 8) (List.replicate 256 0)

/-- Coefficients of `w` bits each from a string of bytes. -/
def unpackBits (w : Nat) (bs : List Byte) : List Nat :=
  let n := bytesNat bs
  (List.range (8 * bs.length / w)).map fun i => n / 2 ^ (w * i) % 2 ^ w

/-- Bytes in pieces of a length. -/
def chunks (n k : Nat) (bs : List Byte) : List (List Byte) := (List.range k).map fun i => (bs.drop (n * i)).take n

/-- The places of the hints of each polynomial; none where the string is malformed. -/
def hintUnpack (y : List Byte) : Option (List (List Nat)) :=
  let at_ := fun i => (y.getD i 0).toNat
  let ends := (List.range 6).map fun i => at_ (55 + i)
  let starts := 0 :: ends
  let parts := (List.range 6).map fun i => ((y.take (ends.getD i 0)).drop (starts.getD i 0)).map BitVec.toNat
  let ok := (List.range 6).all fun i => decide (starts.getD i 0 ≤ ends.getD i 0) && decide (ends.getD i 0 ≤ 55)
  let rising := parts.all fun p => (List.range (p.length - 1)).all fun i => decide (p.getD i 0 < p.getD (i + 1) 0)
  let rest := ((y.take 55).drop (ends.getD 5 0)).all fun b => b == 0
  if ok && rising && rest then some parts else none

/-- The high part of a coefficient and whether its low part is above zero. -/
def decompose (r : Nat) : Nat × Bool :=
  let m := r % (2 * dsaG2)
  let low : Int := if dsaG2 < m then (m : Int) - 2 * dsaG2 else m
  if (r : Int) - low = dsaQ - 1 then (0, decide (0 < low - 1)) else (((r : Int) - low).toNat / (2 * dsaG2), decide (0 < low))

/-- The high part that a hint corrects. -/
def useHint (h : Bool) (r : Nat) : Nat :=
  let d := decompose r
  if !h then d.1 else if d.2 then (d.1 + 1) % 16 else (d.1 + 15) % 16

/-- The signature of a message verifies under a public key (FIPS 204, pure form, empty context). -/
def dsaVerify (pk msg sig : List Byte) : Bool :=
  let rho := pk.take 32
  let ct := sig.take 48
  let zs := (chunks 640 5 (sig.drop 48)).map fun c => (unpackBits 20 c).map fun v => (dsaG1 : Int) - v
  match hintUnpack (sig.drop 3248) with
  | none => false
  | some hints =>
    let pw := dsaPowers
    let mu := shake256 (shake256 pk 64 ++ [0, 0] ++ msg) 64
    let c := ntt pw (sampleInBall ct)
    let zh := zs.map fun z => ntt pw (z.map fun v => (v % (dsaQ : Int)).toNat)
    let ts := (chunks 320 6 (pk.drop 32)).map fun b => ntt pw ((unpackBits 10 b).map fun v => v * 2 ^ 13 % dsaQ)
    let w1 := (List.range 6).flatMap fun r =>
      let acc := zh.zipIdx.foldl (fun a z => List.zipWith (fun s p => (s + p) % dsaQ) a (List.zipWith (· * ·) (dsaMatrix rho r z.2) z.1))
        (List.replicate 256 0)
      let w := nttInv pw (List.zipWith (fun a b => (a + dsaQ - b) % dsaQ) acc (List.zipWith (fun a b => a * b % dsaQ) c (ts.getD r [])))
      w.zipIdx.map fun x => useHint ((hints.getD r []).contains x.2) x.1
    let packed := (List.range 768).map fun i => BitVec.ofNat 8 (w1.getD (2 * i) 0 + 16 * w1.getD (2 * i + 1) 0)
    sig.length == 3309 && pk.length == 1952 && (zs.all fun z => z.all fun v => decide (v.natAbs < dsaG1 - 196))
      && shake256 (mu ++ packed) 48 == ct

/-! ### secp384r1 (R406) -/

/-- The prime of the field. -/
def ecP : Nat := 2 ^ 384 - 2 ^ 128 - 2 ^ 96 + 2 ^ 32 - 1

/-- The order of the base point. -/
def ecN : Nat := 0xffffffffffffffffffffffffffffffffffffffffffffffffc7634d81f4372ddf581a0db248b0a77aecec196accc52973

/-- b of the curve y² = x³ − 3x + b. -/
def ecB : Nat := 0xb3312fa7e23ee7e4988e056be3f82d19181d9c6efe8141120314088f5013875ac656398d8a2ed19d2a85c8edd3ec2aef

/-- A point in projective coordinates. -/
structure EcPoint where
  x : Nat
  y : Nat
  z : Nat
  deriving DecidableEq, Repr

/-- The neutral point. -/
def EcPoint.zero : EcPoint := ⟨0, 1, 0⟩

/-- The sum of two points: the complete formulas of a curve of odd order, with a = −3. -/
def EcPoint.add (p q : EcPoint) : EcPoint :=
  let a := ecP - 3
  let sub := fun (u v : Nat) => u + (ecP - v % ecP)
  let xx := p.x * q.x % ecP
  let yy := p.y * q.y % ecP
  let zz := p.z * q.z % ecP
  let xy := (p.x * q.y + q.x * p.y) % ecP
  let xz := (p.x * q.z + q.x * p.z) % ecP
  let yz := (p.y * q.z + q.y * p.z) % ecP
  let t := (a * xz + 3 * ecB * zz) % ecP
  let lo := sub yy t
  let hi := yy + t
  let m := (3 * xx + a * zz) % ecP
  let n := sub (a * xx + 3 * ecB * xz) (a * a * zz) % ecP
  ⟨sub (xy * lo) (yz * n) % ecP, (m * n + hi * lo) % ecP, (yz * hi + xy * m) % ecP⟩

/-- `n` times a point; `k` bounds the bits of `n`. -/
def EcPoint.mul : Nat → Nat → EcPoint → EcPoint
  | 0, _, _ => .zero
  | k + 1, n, p => let h := EcPoint.mul k (n / 2) (p.add p); if n % 2 = 1 then p.add h else h

/-- The base point. -/
def ecBase : EcPoint :=
  ⟨0xaa87ca22be8b05378eb1c71ef320ad746e1d3b628ba79b9859f741e082542a385502f25dbf55296c3a545e3872760ab7,
    0x3617de4a96262c6f5d9e98bf9292dc29f8f41dbd289a147ce9da3113b5f0b8c00a60b1ce1d7e819d7a431d7c90ea0e5f, 1⟩

/-- A number as its 48 bytes, the most significant first. -/
def beBytes48 (n : Nat) : List Byte := (natBytes 48 n).reverse

/-- The coordinates of a point, x and then y. -/
def EcPoint.bytes (p : EcPoint) : List Byte :=
  let zi := powMod ecP p.z 384 (ecP - 2)
  beBytes48 (p.x * zi % ecP) ++ beBytes48 (p.y * zi % ecP)

/-- A point of the curve from its coordinates. -/
def EcPoint.of (bs : List Byte) : Option EcPoint :=
  let x := bytesNat (bs.take 48).reverse
  let y := bytesNat (bs.drop 48).reverse
  if bs.length = 96 && x < ecP && y < ecP && y * y % ecP == (x * x * x + (ecP - 3) * x + ecB) % ecP then some ⟨x, y, 1⟩ else none

/-- What both ends of an exchange agree on: x of the private number times the other end's point. -/
def ecAgree (d : Nat) (q : EcPoint) : List Byte := (EcPoint.mul 384 d q).bytes.take 48

/-! ### The keys of a session (R406, SPDM 1.3)

PRESUMED (log entry 18): the key schedule is that of DMTF DSP0274 1.3. -/

/-- A secret as its 48 bytes. -/
def secretBytes (k : BitVec 384) : List Byte := natBytes 48 k.toNat

/-- A secret from its 48 bytes. -/
def secretOf (bs : List Byte) : BitVec 384 := BitVec.ofNat 384 (bytesNat bs)

/-- The input of one derivation: the length of its result, the version, a label and its context. -/
def spdmBin (label : String) (context : List Byte) : List Byte := natBytes 2 48 ++ ascii "spdm1.3 " ++ ascii label ++ context

/-- A secret derived from another. -/
def deriveSecret (k : BitVec 384) (label : String) (context : List Byte) : BitVec 384 :=
  secretOf (hmac384 (secretBytes k) (spdmBin label context ++ [1]))

/-- The secrets of a handshake, from what the exchange agreed on and the hash of the transcript up to it. -/
def handshakeKeys (agreed th : List Byte) : SessionKeys :=
  let k := secretOf (hmac384 (List.replicate 48 0) agreed)
  ⟨k, deriveSecret k "req hs data" th, deriveSecret k "rsp hs data" th⟩

/-- The secrets of the open session that follows a handshake, with the hash of the transcript up to FINISH. -/
def dataKeys (hs : SessionKeys) (th : List Byte) : SessionKeys :=
  let master := secretOf (hmac384 (secretBytes (deriveSecret hs.agreed "derived" [])) (List.replicate 48 0))
  ⟨hs.agreed, deriveSecret master "req app data" th, deriveSecret master "rsp app data" th⟩

/-- The proof that one end holds the secret of its direction, over a transcript. -/
def verifyData (k : BitVec 384) (transcript : List Byte) : List Byte :=
  hmac384 (secretBytes (deriveSecret k "finished" [])) (sha384 transcript)

/-- The next secret of a direction. -/
def nextSecret (k : BitVec 384) : BitVec 384 := deriveSecret k "traffic upd" []

/-- The secrets after a KEY_UPDATE (R406). -/
def SessionKeys.update (op : KeyUpdateOp) (k : SessionKeys) : SessionKeys :=
  match op with
  | .updateKey => { k with request := nextSecret k.request }
  | .updateAll => { k with request := nextSecret k.request, response := nextSecret k.response }
  | .verifyNewKey => k

end Sys2Proof.Machine
end

