-- ==== Sys2Proof/Machine/Reset.lean ====
section
/-! DEFINITION. Partition reset (R54, R55, R294, R329, R333, R378). -/

namespace Sys2Proof.Machine

/-- Nothing of the partition's groups, teams, launches, commands, accesses and queue entries is left (R54 steps 1 and 2, R254, R301,
R378, R393); its translations and code lines are invalid (step 3). -/
def dropPartition (p : Nat) (s : State) : State :=
  let tids := (s.teams.filter fun t => t.part == p).map Team.tid
  let gids := (s.groups.filter fun g => g.part == p).map Group.gid
  let lids := (s.launches.filter fun l => l.part == p).map Launch.lid
  let asid := (s.part p).asidbase
  { s with
    launches := s.launches.filter fun l => l.part != p
    teams := s.teams.filter fun t => t.part != p
    groups := s.groups.filter fun g => g.part != p
    launchCtrs := s.launchCtrs.filter fun c => !lids.contains c.2.1
    tlb := s.tlb.filter fun e => e.part != p
    ilines := s.ilines.filter fun i => i.asid != asid
    fills := s.fills.filter fun f => !gids.contains f.gid
    prefetches := s.prefetches.filter fun x => x.part != p
    fillFaults := s.fillFaults.filter fun x => !gids.contains x.gid
    walks := s.walks.filter fun x => x.part != p
    reqs := s.reqs.filter fun r => r.part != p
    scores := s.scores.filter fun e => !tids.contains e.team
    copies := s.copies.filter fun c => c.part != p
    mxcmds := s.mxcmds.filter fun c => c.part != p
    engines := s.engines.map fun e =>
      { e with
        wheel := e.wheel.map fun w => if w.any tids.contains then none else w
        rot := e.rot.filter fun x => !tids.contains x.1
        old := e.old.filter fun o => (e.wheel.getD o.1 none).any fun t => !tids.contains t }
    fords := s.fords.filter fun o => o.part != p
    ports := s.ports.filter fun e => e.part != p
    starts := s.starts.filter fun x => x.part != p
    binLaunches := s.binLaunches.filter fun x => x.part != p
    fabs := s.fabs.filter fun c => c.part != p }

/-- Clears what the partition itself keeps of waiting launches, and the PAGE entries of its groups that wait; an entry of a cause that was
taken before still waits for the slice of the queue (R363, R405). -/
def dropWaiting (p : Nat) (s : State) : State :=
  s.modPart p fun q =>
    { q with queues := [[], [], [], []], pendEntries := q.pendEntries.filter fun e => e.1.isNone, wdCounts := [0, 0, 0, 0], cmdHeld := none }

/-- A launch of a continuation atomic that no team of has been placed, or a launch of a bin: it is reported when a reset drops it
(R294, R329). -/
def reportedDrop (l : Launch) : Bool := match l.source with
  | .slipway .. => l.next == 0
  | .bin .. => true
  | _ => false

/-- The slots of bins that a reset frees lie in slices that take work (R329, R383, R405). -/
def resetAwake (s : State) (p : Nat) : Bool :=
  (s.starts.all fun x => x.part != p || sourceAwake s x.source) && (s.binLaunches.all fun x => x.part != p || sourceAwake s x.source)
    && s.launches.all fun l => l.part != p || sourceAwake s l.source

/-- A reset begins (R54): steps 1 to 4, with an entry for every continuation launch and every bin launch that it drops (R55), and the
slots of those bins free again (R329), where their slices take work: after a critical condition no access reaches them any more (R408). -/
def beginReset (p : Nat) : Prog :=
  .dyn fun s =>
    let lost := (s.launches.filter fun l => l.part == p && reportedDrop l).map fun l => (l.source, l.task)
    let slots := (s.starts ++ s.binLaunches).filterMap fun x => if x.part == p then some (x.source, x.task) else none
    let ends := (s.jettys.filter fun j => j.prod == p || j.cons == p).map Jetty.num
    .all [
      .change fun s => (dropWaiting p (dropPartition p s)).modPart p fun q => { q with state := .resetting },
      .all ((slots ++ lost).map fun x => .all [launchFails p x.1 x.2 17, Prog.when (sourceAwake s x.1) (freeBinSlot x.1)]),
      .change fun s => ends.foldl (fun s j => resetJetty j s) s]

/-- RESET_PARTITION (R36, R37, R54): command 0x04, whose slot is free when the reset begins (R38). -/
def execResetPartition (p : Nat) (s : State) : Host.Outcome State Fault Refusal :=
  commit s (.dyn fun s => if resetAwake s p then takeCommand p 4 fun _ => .all [.change (freeSlot p), beginReset p] else .done)

/-- Step 5 of a reset (R54): the counts of classes 0 and 2 are dropped, every slot of the command queue is free (R38), the class 1 event is
sent; the partition runs with its task table stopped, and counts of classes 3 and 4 follow. The oldest entry that no message has reported
stays so (R53). -/
def endReset (p : Nat) (s : State) : State :=
  let s := s.modPart p fun q => { q with
    events := q.events.zipIdx.map fun e => if e.2 == 0 || e.2 == 2 then { e.1 with count := 0, timer := none } else e.1
    cmdHead := (q.cmdHead + q.cmdCount) % 128
    cmdCount := 0 }
  let s := countEvent p 1 s
  let s := s.modPart p fun q => { q with state := .running, tstop := true }
  [3, 4].foldl (fun s c =>
    match (s.part p).events[c]? with
    | some e => if e.count != 0 then sendEvent p c s else s
    | none => s) s

end Sys2Proof.Machine
end

