-- ==== Sys2Proof/Machine/Manage.lean ====
section
/-! DEFINITION. The management core: start of the module and its images (R399 to R402), the readiness map (R404), the SPDM session
(R406), management commands (R407), and power and cooling (R408). -/

namespace Sys2Proof.Machine

/-! ### Measurements (R402) -/

/-- A measurement register as its 48 bytes. -/
def measBytes (r : BitVec 384) : List Byte := natBytes 48 r.toNat

/-- Register `k` extended by the digest of some bytes (R402). -/
def extendMeas (k : Nat) (bs : List Byte) (m : Mgmt) : Mgmt :=
  { m with meas := m.meas.modify k fun r => BitVec.ofNat 384 (bytesNat (sha384 (measBytes r ++ sha384 bs))) }

/-! ### Images (R401) -/

/-- kind of an image. -/
def imageKind (i : Image) : Nat := bitsOf (i.header.getD 0 0) 24 8

/-- svn of an image. -/
def imageSvn (i : Image) : Nat := bitsOf (i.header.getD 1 0) 32 32

/-- Header and body of an image, which both signatures cover (R401). -/
def imageBytes (i : Image) : List Byte := wordsBytes i.header ++ i.body

/-- Both signatures of an image verify under the vendor's public keys (R401). -/
def imageSigned (i : Image) : Bool :=
  edVerify (natBytes 32 Config.vendorEd25519.toNat) (imageBytes i) i.ed25519 && dsaVerify Config.vendorMldsa (imageBytes i) i.mldsa

/-- The image is accepted (R401). -/
def imageAccepted (i : Image) : Bool :=
  let w := fun k => i.header.getD k 0
  i.header.length == 8 && bitsOf (w 0) 32 32 == 0x484C4E45 && decide (imageKind i ≤ 3) && bitsOf (w 0) 0 24 == 0
    && ((List.range 6).all fun k => w (2 + k) == 0)
    && bitsOf (w 1) 0 32 == i.body.length && decide (1 ≤ i.body.length) && decide (i.body.length ≤ 2 ^ 24)
    && i.ed25519.length == 64 && i.mldsa.length == 3309 && imageSigned i

/-- An accepted image is measured (R402). -/
def measure (i : Image) (m : Mgmt) : Mgmt :=
  let m := extendMeas (imageKind i) (imageBytes i) m
  { m with svns := m.svns.set (imageKind i) (imageSvn i) }

/-- A Halone image that is accepted (R399). -/
def haloneOk (i : Image) : Bool := imageKind i == 0 && imageAccepted i

/-- Halone accepts the first image of a kind beyond the two slots, where there is one (R399). -/
def takeImage (flash : List Image) (k : Nat) (m : Mgmt) : Mgmt :=
  match (flash.drop 2).find? fun i => imageKind i == k with
  | none => m
  | some i =>
    if !imageAccepted i then m
    else
      let m := measure i m
      if k = 3 then { m with opKeys := (Config.operatorKeys i.body).take 4 } else m

/-! ### Identity (R403) -/

/-- A key that is derived from the seed (R403). -/
def deriveKey (seed : BitVec 256) (salt : List Byte) (label : String) : BitVec 256 :=
  BitVec.ofNat 256 (bytesNat (hkdf384 salt (natBytes 32 seed.toNat) (ascii label)))

/-- A private key as its 32 bytes. -/
def keyBytes (k : BitVec 256) : List Byte := natBytes 32 k.toNat

/-- The public key of a private key, none where there is no key. -/
def publicOf (k : Option (BitVec 256)) : List Byte := (k.map fun k => edPublic (keyBytes k)).getD []

/-- Bytes signed with a private key, none where there is no key. -/
def signWith (k : Option (BitVec 256)) (bs : List Byte) : List Byte := (k.map fun k => edSign (keyBytes k) bs).getD []

/-- The identity key, and the alias key under the Halone image that register 0 measures; Halone issues the alias certificate, signed with
the identity key (R403). -/
def deriveIdentity (seed : BitVec 256) (cert : List Byte) (m : Mgmt) : Mgmt :=
  let idKey := deriveKey seed [] "LX96 ID"
  let aliasKey := deriveKey seed (measBytes (m.meas.getD 0 0)) "LX96 ALIAS"
  let tbs := Config.aliasTbs (publicOf (some idKey)) (publicOf (some aliasKey))
  { m with
    seed := some seed
    idKey := some idKey
    aliasKey := some aliasKey
    idCert := cert
    aliasCert := tbs ++ signWith (some idKey) tbs }

/-- The management core after its start (R399): the seed from the array's start-up state and the helper data, slot 0 or else slot 1, and
then the other images; without a seed or a Halone image the ROM stays. -/
def startMgmt (start : StartInputs) (flash : List Image) : Mgmt :=
  match Config.reconstructSeed start.puf start.helper, (flash.take 2).find? haloneOk with
  | some seed, some i =>
    [1, 2, 3].foldl (fun m k => takeImage flash k m) (deriveIdentity seed start.cert { measure i .reset with stage := .halone })
  | _, _ => .reset

/-- MODULE_RESET (R399): device memory keeps its contents, and what the outside has been told stays told. -/
def execModuleReset (start : StartInputs) (flash : List Image) (s : State) : Host.Outcome State Fault Refusal :=
  .next { State.reset with
    mem := s.mem
    syn := s.syn
    mgmt := startMgmt start flash
    outbox := s.outbox
    now := s.now
    seq := s.seq
    nextId := s.nextId
    fresh := s.fresh }

/-! ### Answers -/

/-- A message of the management endpoint beside a new state of the management core. -/
def answer (s : State) (m : Mgmt) (msg : HostMsg) : Host.Outcome State Fault Refusal :=
  .next { s with mgmt := m, outbox := s.outbox ++ [msg] }

/-- An SPDM answer of a response code, whose contents the spec leaves to SPDM (R406): free, after `known`. PRESUMED (log entry 18): the code is
that of SPDM 1.3. -/
def spdmAnswer (s : State) (code : Nat) (known : List Byte) (m : Mgmt) : Host.Outcome State Fault Refusal :=
  answer s m (.spdm code (known ++ Config.spdmBody code s.fresh))

/-- The code of an SPDM ERROR answer. -/
def spdmError : Nat := 0x7F

/-- An ERROR answer whose code the spec does not name. -/
def spdmRefuse (s : State) (m : Mgmt) : Host.Outcome State Fault Refusal := spdmAnswer s spdmError [] m

/-- An SPDM request that Halone answers; the ROM does not (R399). -/
def haloneAnswer (s : State) (code : Nat) (known : List Byte) : Host.Outcome State Fault Refusal :=
  if s.mgmt.stage == .halone then spdmAnswer s code known s.mgmt else .next s

/-! ### SPDM requests (R406) -/

/-- GET_VERSION (R399, R406): the ROM answers it too. -/
def execGetVersion (s : State) : Host.Outcome State Fault Refusal := spdmAnswer s 0x04 [] s.mgmt

/-- GET_CAPABILITIES (R399, R406): the ROM answers it too. -/
def execGetCapabilities (s : State) : Host.Outcome State Fault Refusal := spdmAnswer s 0x61 [] s.mgmt

/-- The algorithms that Halone selects (R406): Ed25519, SHA-384, secp384r1 and AES-256-GCM. PRESUMED (log entry 18): each is its bit in
SPDM 1.3's fields BaseAsymSel, BaseHashSel, DHE and AEAD, in this order. -/
def algorithms : List Byte := natBytes 4 (2 ^ 10) ++ natBytes 4 (2 ^ 1) ++ natBytes 2 (2 ^ 4) ++ natBytes 2 (2 ^ 1)

/-- NEGOTIATE_ALGORITHMS (R406). -/
def execNegotiateAlgorithms (s : State) : Host.Outcome State Fault Refusal := haloneAnswer s 0x63 algorithms

/-- The certificates of the device: the identity's, and the alias's that it signs (R403). -/
def certChain (m : Mgmt) : List Byte := m.idCert ++ m.aliasCert

/-- GET_DIGESTS (R406). -/
def execGetDigests (s : State) : Host.Outcome State Fault Refusal := haloneAnswer s 0x01 (sha384 (certChain s.mgmt))

/-- GET_CERTIFICATE (R403, R406). -/
def execGetCertificate (s : State) : Host.Outcome State Fault Refusal := haloneAnswer s 0x02 (certChain s.mgmt)

/-- An answer that ends in a signature of the alias key over its transcript, which holds what the requester sent (R403, R406). -/
def signedAnswer (s : State) (code : Nat) (sent : List Byte) (m : Mgmt) : Host.Outcome State Fault Refusal :=
  answer s m (.spdm code (Config.spdmBody code s.fresh ++ signWith s.mgmt.aliasKey (Config.spdmTranscript code sent s.fresh)))

/-- CHALLENGE (R406): signed with the alias key, over the nonce too. -/
def execChallenge (nonce : BitVec 256) (s : State) : Host.Outcome State Fault Refusal :=
  if s.mgmt.stage == .halone then signedAnswer s 0x03 (natBytes 32 nonce.toNat) s.mgmt else .next s

/-- The measurement blocks (R406): the eight registers, the first four with the svn of their image. -/
def measBlocks (m : Mgmt) : List Byte :=
  m.meas.zipIdx.flatMap fun r => measBytes r.1 ++ (if r.2 < 4 then natBytes 4 (m.svns.getD r.2 0) else [])

/-- GET_MEASUREMENTS (R402, R406). -/
def execGetMeasurements (s : State) : Host.Outcome State Fault Refusal := haloneAnswer s 0x60 (measBlocks s.mgmt)

/-- The endpoint accepts sessions (R404). -/
def mgmtReady (s : State) : Bool := s.mgmt.stage == .halone && s.mgmt.ready.getLsbD 124

/-- The device's private number of a key exchange (R406): free, from 1 to below the order of the base point. -/
def exchangeNumber (s : State) : Nat := (Config.exchangeKey s.fresh).toNat % (ecN - 1) + 1

/-- The answer to a key exchange that succeeds (R406): the device's point, a signature of the alias key over the transcript, and the proof
that the device holds the secret of its direction. -/
def exchangeAnswer (s : State) (requester : BitVec 256) (exchange : List Byte) (q : EcPoint) : Host.Outcome State Fault Refusal :=
  let t := Config.spdmTranscript 0x64 (natBytes 32 requester.toNat ++ exchange) s.fresh
  let keys := handshakeKeys (ecAgree (exchangeNumber s) q) (sha384 t)
  answer s { s.mgmt with session := .handshake requester keys }
    (.spdm 0x64 ((EcPoint.mul 384 (exchangeNumber s) ecBase).bytes ++ Config.spdmBody 0x64 s.fresh ++ signWith s.mgmt.aliasKey t
      ++ verifyData keys.response t))

/-- KEY_EXCHANGE (R406): one session only, with a requester whose public key is one of the operator keys; the point that it sends is one of the
curve. -/
def execKeyExchange (requester : BitVec 256) (exchange : List Byte) (s : State) : Host.Outcome State Fault Refusal :=
  if s.mgmt.stage != .halone then .next s
  else if s.mgmt.session != .none then answer s s.mgmt (.spdm spdmError [3])
  else match EcPoint.of exchange with
    | some q => if mgmtReady s && s.mgmt.opKeys.contains requester then exchangeAnswer s requester exchange q else spdmRefuse s s.mgmt
    | none => spdmRefuse s s.mgmt

/-- The requester authenticates (R406): its signature over the transcript verifies under its operator key, and it holds the secret of its
direction. -/
def finishProves (s : State) (key : BitVec 256) (keys : SessionKeys) (proof : FinishProof) : Bool :=
  edVerify (natBytes 32 key.toNat) (Config.spdmTranscript 0x65 [] s.fresh) proof.signature
    && proof.verify == verifyData keys.request (Config.spdmTranscript 0x65 proof.signature s.fresh)

/-- FINISH (R406): a requester that does not authenticate opens no session. -/
def execFinish (proof : FinishProof) (s : State) : Host.Outcome State Fault Refusal :=
  match s.mgmt.session with
  | .handshake key keys =>
    if finishProves s key keys proof then
      let th := sha384 (Config.spdmTranscript 0x65 (proof.signature ++ proof.verify) s.fresh)
      spdmAnswer s 0x65 [] { s.mgmt with session := .opened key (dataKeys keys th) }
    else spdmRefuse s { s.mgmt with session := .none }
  | _ => if s.mgmt.stage == .halone then spdmRefuse s s.mgmt else .next s

/-- The session is open. -/
def inSession (s : State) : Bool := match s.mgmt.session with
  | .opened .. => true
  | _ => false

/-- A request that belongs to an open session (R406). -/
def sessionAnswer (s : State) (code : Nat) (m : Mgmt) : Host.Outcome State Fault Refusal :=
  if s.mgmt.stage != .halone then .next s
  else if inSession s then spdmAnswer s code [] m
  else spdmRefuse s s.mgmt

/-- HEARTBEAT (R406). -/
def execHeartbeat (s : State) : Host.Outcome State Fault Refusal := sessionAnswer s 0x68 s.mgmt

/-- An open session with other secrets. -/
def Session.update (op : KeyUpdateOp) : Session → Session
  | .opened key keys => .opened key (keys.update op)
  | x => x

/-- KEY_UPDATE (R406); which operation it asks for is the requester's choice (log entry 18). -/
def execKeyUpdate (s : State) : Host.Outcome State Fault Refusal :=
  sessionAnswer s 0x69 { s.mgmt with session := s.mgmt.session.update (Config.keyUpdateOp s.fresh) }

/-- END_SESSION (R406). -/
def execEndSession (s : State) : Host.Outcome State Fault Refusal := sessionAnswer s 0x6C { s.mgmt with session := .none }

/-! ### Management commands (R407) -/

/-- The answer of a command: status and data. -/
def reply (status : Nat) (data : List Byte) (s : State) : State := { s with outbox := s.outbox ++ [.mgmt status data] }

/-- A management command is performed and answered: where its condition fails it has no effect and status 1 (R407). -/
def command (cond : Bool) (act : State → State) (data : List Byte) (s : State) : State :=
  if cond then reply 0 data (act s) else reply 1 [] s

/-- The partition has been configured. -/
def configured (s : State) (p : Nat) : Bool := decide (p < 8) && (s.part p).state != .none

/-- A command that changes a partition (R407). -/
def partCommand (p : Nat) (cond : Bool) (act : Part → Part) (s : State) : State :=
  command (configured s p && cond) (fun s => s.modPart p act) [] s

/-- `read readiness map` (R404, R407). -/
def cmdReadinessMap (s : State) : State := command true id (natBytes 32 s.mgmt.ready.toNat) s

/-- The record of a partition breaks R32: its task table and its command queue lie whole in slice SRAM (R27, R35). -/
def partRecordBad (p : Nat) (ws : List Word) : Bool :=
  let w := fun k => ws.getD k 0
  ws.length != 8 || bitsOf (w 1) 32 32 != 0 || bitsOf (w 2) 48 16 != 0 || bitsOf (w 2) 0 12 != 0 || bitsOf (w 3) 48 8 != 0
    || bitsOf (w 3) 0 5 != 0 || bitsOf (w 4) 19 45 != 0 || (w 4).getLsbD 17 || bitsOf (w 4) 0 17 = 0 || 65536 < bitsOf (w 4) 0 17
    || bitsOf (w 5) 48 16 != 0 || bitsOf (w 5) 0 8 != 0 || bitsOf (w 6) 16 48 != 0 || bitsOf (w 6) 0 8 != p
    || bitsOf (w 7) 2 62 != 0 || 1 < bitsOf (w 7) 0 2 || !sramHolds (bitsOf (w 3) 5 43 * 32) (32 * bitsOf (w 4) 0 17)
    || !sramHolds (bitsOf (w 5) 8 40 * 256) (128 * 256)

/-- The pairs of a record (R32). -/
def recordPairs (ws : List Word) : BitVec 96 := (ws.getD 1 0).extractLsb' 0 32 ++ ws.getD 0 0

/-- A partition under a record (R32), newly configured (R52), with its code key (R68). DESIGN CHOICE (log entry 82): sends that stand in its
command queue, launches that are held or queued, and entries that wait to be written stay under the new record. -/
def Part.configure (ws : List Word) (fq save : Nat) (key : BitVec 256) (q : Part) : Part :=
  let w := fun k => ws.getD k 0
  { q with
    pairs := recordPairs ws
    ptroot := bitsOf (w 2) 12 36 * 4096
    asidbase := bitsOf (w 3) 48 16
    tasktab := bitsOf (w 3) 5 43 * 32
    tstop := (w 4).getLsbD 18
    taskcount := bitsOf (w 4) 0 17
    cmdq := bitsOf (w 5) 8 40 * 256
    weight := bitsOf (w 6) 8 8
    endpoint := bitsOf (w 6) 0 8
    state := if bitsOf (w 7) 0 2 = 1 then .running else .stopped
    codeKey := key
    fq := fq
    save := save
    entered := 0
    oldest := none
    events := EvClass.initial }

/-- A fault queue may lie there: in the SRAM of one slice (R358). -/
def fqPlaceOk (fq : Nat) : Bool :=
  let last := fq + 64 + 64 * 512 - 1
  inSram fq && inSram last && (fq - sramBase) / 0x200000 == (last - sramBase) / 0x200000

/-- The condition of `configure partition` (R32 to R34, R407). -/
def configureOk (s : State) (p : Nat) (ws : List Word) (fq : Nat) : Bool :=
  let others := s.parts.filter fun q => q.num != p && q.state != .none
  decide (p < 8) && !partRecordBad p ws && fqPlaceOk fq
    && ((s.part p).state == .stopped || (s.part p).state == .none)
    && decide ((others.map Part.weight).foldl (· + ·) 0 + bitsOf (ws.getD 6 0) 8 8 ≤ 256)
    && (others.all fun q => q.pairs &&& recordPairs ws == 0 && q.asidbase != bitsOf (ws.getD 3 0) 48 16)

/-- No translation and no code line of what the partition was before is left (R33). -/
def forgetAddresses (p : Nat) (s : State) : State :=
  { s with
    tlb := s.tlb.filter fun e => e.part != p
    ilines := s.ilines.filter fun i => i.asid != (s.part p).asidbase }

/-- `configure partition` (R32, R33, R68, R358, R402): the fault queue's control block counts from zero. DESIGN CHOICE (log entry 75): its
`consumed` word is zero too. -/
def cmdConfigure (p : Nat) (record : List Word) (fq save : Nat) (s : State) : State :=
  command (configureOk s p record fq) (fun s =>
    let s := (forgetAddresses p s).modPart p (Part.configure record fq save (Config.codeKey s.fresh))
    let s := (devWrite fq (List.replicate 64 0)).run s
    { s with mgmt := extendMeas (4 + p / 2) (wordsBytes record) s.mgmt }) [] s

/-- `start partition` (R407). -/
def cmdStart (p : Nat) (s : State) : State := partCommand p true (fun q => { q with state := .running }) s

/-- `stop partition` (R407). -/
def cmdStop (p : Nat) (s : State) : State := partCommand p true (fun q => { q with state := .stopped }) s

/-- `reset partition` (R54, R407). -/
def cmdReset (p : Nat) (s : State) : State := command (configured s p) (beginReset p).run [] s

/-- `read code key` (R68, R407). -/
def cmdCodeKey (p : Nat) (s : State) : State := command (configured s p) id (natBytes 32 (s.part p).codeKey.toNat) s

/-- `set watchdog period` (R285, R407). -/
def cmdWatchdogPeriod (p period : Nat) (s : State) : State := partCommand p true (fun q => { q with wdPeriod := period }) s

/-- The fields of a jetty record that can be written (R330): a ring within one slice. -/
def jettyOk (j prod cons ringpa capm1 : Nat) : Bool :=
  decide (j < 1024) && decide (prod < 8) && decide (cons < 8) && ringpa % 16 == 0 && decide (capm1 < 4096) && inSram ringpa
    && (ringpa - sramBase) / 0x200000 == (ringpa + 16 * (capm1 + 1) - 1 - sramBase) / 0x200000

/-- `create jetty` (R330, R407). -/
def cmdCreateJetty (j prod cons ringpa capm1 : Nat) (s : State) : State :=
  command (jettyOk j prod cons ringpa capm1) (fun s =>
    let x : Jetty := ⟨j, false, false, prod, cons, ringpa, capm1, 0, 0, 0, 0⟩
    { s with jettys := (s.jettys.filter fun y => y.num != j) ++ [x] }) [] s

/-- `clear a jetty's reset` (R333, R407). -/
def cmdClearJetty (j : Nat) (s : State) : State :=
  command (s.jetty? j).isSome (fun s => s.modJetty j fun q => { q with prst := false, crst := false, head := 0, count := 0 }) [] s

/-- `set memory window` (R396, R407). -/
def cmdMemoryWindow (p w : Nat) (win : WindowSpec) (s : State) : State :=
  partCommand p (decide (w < 16)) (fun q =>
    { q with windows := q.windows.set w (some ⟨win.base, win.length, win.read, win.write, win.atomic, win.key⟩) }) s

/-- `set event thresholds and timer periods` (R52, R407): of the two classes whose threshold is set. -/
def cmdEventThresholds (p cls threshold period : Nat) (s : State) : State :=
  partCommand p ((cls == 0 || cls == 2) && decide (1 ≤ threshold) && decide (threshold ≤ 65535) && decide (1 ≤ period)
      && decide (period ≤ 16777215))
    (fun q => { q with events := q.events.modify cls fun e => { e with threshold := threshold, period := period } }) s

/-- `grant or withdraw diagnostics` (R382, R407). -/
def cmdDiagnostics (p : Nat) (grant : Bool) (s : State) : State := partCommand p true (fun q => { q with diag := grant }) s

/-- `read fault-queue and save-area addresses` (R358, R377, R407). -/
def cmdFaultQueueAddresses (p : Nat) (s : State) : State :=
  command (configured s p) id (natBytes 8 (s.part p).fq ++ natBytes 8 (s.part p).save) s

/-- `read power, coolant and temperatures` (R407): the last sample of each sensor. -/
def cmdSensors (s : State) : State := command true id (Config.sensorBody s.mgmt.samples) s

/-- A command is performed and answered; other operations are no commands. -/
def runCommand : Instr → State → State
  | .readReadinessMap => cmdReadinessMap
  | .configurePartition p record fq save => cmdConfigure p record fq save
  | .startPartition p => cmdStart p
  | .stopPartition p => cmdStop p
  | .managementResetPartition p => cmdReset p
  | .readCodeKey p => cmdCodeKey p
  | .setWatchdogPeriod p period => cmdWatchdogPeriod p period
  | .createJetty j prod cons ringpa capm1 => cmdCreateJetty j prod cons ringpa capm1
  | .clearJettyReset j => cmdClearJetty j
  | .setMemoryWindow p w win => cmdMemoryWindow p w win
  | .setEventThresholds p cls threshold period => cmdEventThresholds p cls threshold period
  | .grantDiagnostics p grant => cmdDiagnostics p grant
  | .readFaultQueueAddresses p => cmdFaultQueueAddresses p
  | .readPowerAndTemperatures => cmdSensors
  | _ => id

/-- The partition that a command changes (R407). -/
def changedPart : Instr → Option Nat
  | .configurePartition p .. => some p
  | .startPartition p => some p
  | .stopPartition p => some p
  | .managementResetPartition p => some p
  | .setWatchdogPeriod p _ => some p
  | .setMemoryWindow p .. => some p
  | .setEventThresholds p .. => some p
  | .grantDiagnostics p _ => some p
  | _ => none

/-- A command waits for the end of a reset: it changes a partition that is being reset (R407). -/
def waitsForReset (s : State) (i : Instr) : Bool := match changedPart i with
  | some p => (s.part p).state == .resetting
  | none => false

/-- A command waits for a slice: it would write there, and the slice takes no work yet (R16, R383, R405). -/
def waitsForSlice (s : State) : Instr → Bool
  | .configurePartition p record fq _ => configureOk s p record fq && !awake s fq 64
  | .managementResetPartition p => configured s p && !resetAwake s p
  | .createJetty j prod cons ringpa capm1 => jettyOk j prod cons ringpa capm1 && !awakeAt s ringpa
  | .clearJettyReset j => (match s.jetty? j with
    | some q => !awakeAt s q.ringpa
    | none => false)
  | _ => false

/-- A command may not be performed yet. -/
def commandWaits (s : State) (i : Instr) : Bool := waitsForReset s i || waitsForSlice s i

/-- A command arrives (R407): outside the session it has no effect; within it, commands are performed one at a time in order of arrival, so
it waits behind those that wait. -/
def arrive (i : Instr) (s : State) : Host.Outcome State Fault Refusal :=
  if s.mgmt.stage != .halone then .next s
  else if !inSession s then .next (reply 1 [] s)
  else if !s.mgmt.waiting.isEmpty || commandWaits s i then .next { s with mgmt := { s.mgmt with waiting := s.mgmt.waiting ++ [i] } }
  else .next (runCommand i s)

/-- The commands that waited are performed, as far as the next of them need not wait. -/
def serveWaiting : Nat → State → State
  | 0, s => s
  | n + 1, s => match s.mgmt.waiting with
    | [] => s
    | i :: l => if commandWaits s i then s else serveWaiting n (runCommand i { s with mgmt := { s.mgmt with waiting := l } })

/-- Every command that waited and need wait no more is performed. -/
def serveAll (s : State) : State := serveWaiting s.mgmt.waiting.length s

/-- RETENTION_EXIT (R383): a command that waited for the array is performed. -/
def execRetentionExit (arr : ArrayId) (s : State) : Host.Outcome State Fault Refusal :=
  .next (serveAll { s with retained := s.retained.filter (· != arr) })

/-- No entry of the partition waits for the slice of its fault queue (R55); once the C-dies have stopped none can be written any more (R408). -/
def entriesWritten (s : State) (p : Nat) : Bool := s.mgmt.stopped || !((s.part p).pendEntries.any fun e => e.1.isNone)

/-- PARTITION_RESET_COMPLETE (R54): the drains have ended, their entries are written (R55), and the class 1 event can be sent; the commands
that waited follow (R407). -/
def execPartitionResetComplete (p : Nat) (s : State) : Host.Outcome State Fault Refusal :=
  if (s.part p).state == .resetting && (s.part p).reachable && portReady s && entriesWritten s p then
    .next (serveAll (endReset p s))
  else .next s

/-- READ_READINESS_MAP (R404, R407). -/
def execReadReadinessMap (s : State) : Host.Outcome State Fault Refusal := arrive .readReadinessMap s

/-- CONFIGURE_PARTITION (R32, R407). -/
def execConfigurePartition (p : Nat) (record : List Word) (fq save : Nat) (s : State) : Host.Outcome State Fault Refusal :=
  arrive (.configurePartition p record fq save) s

/-- START_PARTITION (R407). -/
def execStartPartition (p : Nat) (s : State) : Host.Outcome State Fault Refusal := arrive (.startPartition p) s

/-- STOP_PARTITION (R407). -/
def execStopPartition (p : Nat) (s : State) : Host.Outcome State Fault Refusal := arrive (.stopPartition p) s

/-- MANAGEMENT_RESET_PARTITION (R54, R407). -/
def execManagementResetPartition (p : Nat) (s : State) : Host.Outcome State Fault Refusal := arrive (.managementResetPartition p) s

/-- READ_CODE_KEY (R68, R407). -/
def execReadCodeKey (p : Nat) (s : State) : Host.Outcome State Fault Refusal := arrive (.readCodeKey p) s

/-- SET_WATCHDOG_PERIOD (R285, R407). -/
def execSetWatchdogPeriod (p period : Nat) (s : State) : Host.Outcome State Fault Refusal := arrive (.setWatchdogPeriod p period) s

/-- CREATE_JETTY (R330, R407). -/
def execCreateJetty (j prod cons ringpa capm1 : Nat) (s : State) : Host.Outcome State Fault Refusal :=
  arrive (.createJetty j prod cons ringpa capm1) s

/-- CLEAR_JETTY_RESET (R333, R407). -/
def execClearJettyReset (j : Nat) (s : State) : Host.Outcome State Fault Refusal := arrive (.clearJettyReset j) s

/-- SET_MEMORY_WINDOW (R396, R407). -/
def execSetMemoryWindow (p w : Nat) (win : WindowSpec) (s : State) : Host.Outcome State Fault Refusal :=
  arrive (.setMemoryWindow p w win) s

/-- SET_EVENT_THRESHOLDS (R52, R407). -/
def execSetEventThresholds (p cls threshold period : Nat) (s : State) : Host.Outcome State Fault Refusal :=
  arrive (.setEventThresholds p cls threshold period) s

/-- GRANT_DIAGNOSTICS (R382, R407). -/
def execGrantDiagnostics (p : Nat) (grant : Bool) (s : State) : Host.Outcome State Fault Refusal := arrive (.grantDiagnostics p grant) s

/-- READ_FAULT_QUEUE_ADDRESSES (R358, R377, R407). -/
def execReadFaultQueueAddresses (p : Nat) (s : State) : Host.Outcome State Fault Refusal := arrive (.readFaultQueueAddresses p) s

/-- READ_POWER_AND_TEMPERATURES (R407). -/
def execReadPowerAndTemperatures (s : State) : Host.Outcome State Fault Refusal := arrive .readPowerAndTemperatures s

/-! ### The readiness map (R404) -/

/-- The bit of a unit (R404). -/
def readyBit : ReadyUnit → Nat
  | .pair n => n
  | .mgmt => 124
  | .ford n => 120 + n
  | .port n => 108 + n
  | .stack n => 96 + n
  | .sliceGroup n => 128 + n

/-- The device has the unit (R404). -/
def unitExists : ReadyUnit → Bool
  | .pair n => decide (n < 96)
  | .mgmt => true
  | .ford n => decide (n < 4)
  | .port n => decide (n < 12)
  | .stack n => decide (n < 12)
  | .sliceGroup n => decide (n < 48)

/-- The dependences of a unit are ready (R404): a slice group's stack; the Caslan links of a pair's or a Ford engine's C-die, and of a
port's edge die (R9). -/
def unitMayBeReady (m : Mgmt) : ReadyUnit → Bool
  | .sliceGroup n => m.ready.getLsbD (96 + n / 4)
  | .pair n => m.links.getLsbD (n / 24)
  | .ford n => m.links.getLsbD n
  | .port n => m.links.getLsbD (4 + n / 6)
  | .stack _ => true
  | .mgmt => true

/-- One event of a class in every configured partition (R52). -/
def countAll (cls : Nat) (s : State) : State :=
  (List.range 8).foldl (fun s p => if (s.part p).state == .none then s else countEvent p cls s) s

/-- UNIT_READY (R399, R404): by now the Caslan links of these dies are trained; a bit, once set, stays set, and its change is a class 3
event. A command that waited for a slice of the unit is performed (R405). -/
def execUnitReady (u : UnitReport) (s : State) : Host.Outcome State Fault Refusal :=
  if s.mgmt.stage != .halone then .next s
  else
    let m := { s.mgmt with links := s.mgmt.links ||| u.links }
    if unitExists u.unit && unitMayBeReady m u.unit && !m.ready.getLsbD (readyBit u.unit) then
      .next (serveAll (countAll 3 { s with mgmt := { m with ready := m.ready ||| BitVec.ofNat 256 (2 ^ readyBit u.unit) } }))
    else .next { s with mgmt := m }

/-! ### Power and cooling (R408) -/

/-- Two samples are of one sensor. -/
def sameSensor : Sample → Sample → Bool
  | .junction a _, .junction b _ => a == b
  | .power _, .power _ => true
  | .inlet _, .inlet _ => true
  | .flow _ _, .flow _ _ => true
  | .rail _, .rail _ => true
  | _, _ => false

/-- The last sample of each sensor. -/
def addSamples (old new : List Sample) : List Sample :=
  new.foldl (fun l x => (l.filter fun y => !sameSensor x y) ++ [x]) old

/-- A die that the samples throttle (R408). -/
def throttles (xs : List Sample) (die : Nat) : Bool :=
  xs.any fun x => match x with
    | .junction d t => d == die && decide (95 ≤ t)
    | .power w => decide (2800 < w)
    | _ => false

/-- A die whose throttling ends (R408). -/
def cools (xs : List Sample) (die : Nat) : Bool :=
  (xs.any fun x => match x with
    | .junction d t => d == die && decide (t < 90)
    | _ => false)
  && xs.any fun x => match x with
    | .power w => decide (w < 2700)
    | _ => false

/-- The samples call for the critical response (R408). -/
def critical (xs : List Sample) : Bool :=
  xs.any fun x => match x with
    | .junction _ t => decide (105 ≤ t)
    | .flow f ms => decide (f < 200) && decide (100 ≤ ms)
    | .rail ok => !ok
    | _ => false

/-- THERMAL_THROTTLE (R408): timing only; a class 4 event where a die begins to be throttled. -/
def execThermalThrottle (sample : List Sample) (s : State) : Host.Outcome State Fault Refusal :=
  let xs := addSamples s.mgmt.samples sample
  let now := s.mgmt.throttled.zipIdx.map fun t => t.1 || throttles xs t.2
  let s := if now == s.mgmt.throttled then s else countAll 4 s
  .next { s with mgmt := { s.mgmt with samples := xs, throttled := now } }

/-- THROTTLE_END (R408). -/
def execThrottleEnd (sample : List Sample) (s : State) : Host.Outcome State Fault Refusal :=
  let xs := addSamples s.mgmt.samples sample
  .next { s with mgmt := { s.mgmt with samples := xs, throttled := s.mgmt.throttled.zipIdx.map fun t => t.1 && !cools xs t.2 } }

/-- CRITICAL_SHUTDOWN (R408): every partition is reset and the C-dies stop. -/
def execCriticalShutdown (sample : List Sample) (s : State) : Host.Outcome State Fault Refusal :=
  let xs := addSamples s.mgmt.samples sample
  if critical xs && !s.mgmt.stopped then
    let go := Prog.all ((List.range 8).map fun p => .dyn fun s =>
      if (s.part p).state == .none || (s.part p).state == .resetting then .done else beginReset p)
    let s := countAll 4 (go.run s)
    .next { s with mgmt := { s.mgmt with samples := xs, stopped := true } }
  else .next { s with mgmt := { s.mgmt with samples := xs } }

end Sys2Proof.Machine
end

