-- ==== Sys2Proof/Machine/Home.lean ====
section
/-! DEFINITION. Requests at their places: a home slice (R233) and the banks of a scratchpad (R235). -/

namespace Sys2Proof.Machine

/-- The slice of a jetty operation is ready and awake (R330, R405). -/
def jettyServed (s : State) (j : Nat) : Bool := match s.jetty? j with
  | some q => awakeAt s q.ringpa
  | none => true

/-- A request is performed at its home slice, at its switch or at the fault queue. -/
def homeAccess (r : Req) : Prog :=
  match r.op with
  | .load .. => lsPiece r
  | .store _ => lsPiece r
  | .fe .. => .done
  | .atomic .. => atomicWord r
  | .sigAdd .. => sigAddAt r
  | .waitGe .. => waitAt r
  | .atc .. => .done
  | .diag data mask => diagAt r data mask
  | .syscall code a b c sd _ => syscallAt r code a b c sd
  | .qPush .. => tqPerform r
  | .qPop .. => tqPerform r
  | .binPut .. => tqPerform r
  | .jyPush j .. => .dyn fun s => if jettyServed s j then tqPerform r else .done
  | .jyPop j .. => .dyn fun s => if jettyServed s j then tqPerform r else .done
  | .fbRed .. => fabPerform r
  | .fbBcast .. => fabPerform r

/-- HOME_SLICE_ACCESS (R233): a request that nothing holds is performed, in one action. -/
def execHomeSliceAccess (req : Nat) (s : State) : Host.Outcome State Fault Refusal :=
  commit s (.dyn fun s =>
    match s.reqs.find? fun r => r.id == req with
    | none => .done
    | some r => if !r.sp && canPerform s r && served s r && structAwake s r then homeAccess r else .done)

/-- A request is performed at the banks of its team. -/
def bankPerform (r : Req) : Prog :=
  match r.op with
  | .sigAdd .. => sigAddAt r
  | .waitGe .. => waitAt r
  | .diag data mask => diagAt r data mask
  | _ => spAccess r

/-- BANK_ACCESS (R235): it waits while an array that it reaches is in retention (R383). -/
def execBankAccess (req : Nat) (s : State) : Host.Outcome State Fault Refusal :=
  commit s (.dyn fun s =>
    match s.reqs.find? fun r => r.id == req with
    | none => .done
    | some r => if r.sp && canPerform s r && bankAwake s r then bankPerform r else .done)

end Sys2Proof.Machine
end

