-- ==== Sys2Proof/Machine/Dispatch.lean ====
section
/-! DEFINITION. The meaning of every constructor of Instr, one arm each. -/

namespace Sys2Proof.Machine

/-- The meaning of an instruction, operation or event. -/
def exec (i : Instr) (s : State) : Host.Outcome State Fault Refusal :=
  match i with
  | .addVr h f => Sys2Proof.Machine.execAddVr h f s
  | .subVr h f => Sys2Proof.Machine.execSubVr h f s
  | .mulVr h f => Sys2Proof.Machine.execMulVr h f s
  | .mulhi h f => Sys2Proof.Machine.execMulhi h f s
  | .minVr h f => Sys2Proof.Machine.execMinVr h f s
  | .maxVr h f => Sys2Proof.Machine.execMaxVr h f s
  | .abs h f => Sys2Proof.Machine.execAbs h f s
  | .neg h f => Sys2Proof.Machine.execNeg h f s
  | .div h f => Sys2Proof.Machine.execDiv h f s
  | .rem h f => Sys2Proof.Machine.execRem h f s
  | .shlVr h f => Sys2Proof.Machine.execShlVr h f s
  | .shrVr h f => Sys2Proof.Machine.execShrVr h f s
  | .rshrVr h f => Sys2Proof.Machine.execRshrVr h f s
  | .adiff h f => Sys2Proof.Machine.execAdiff h f s
  | .mad h f => Sys2Proof.Machine.execMad h f s
  | .andVr h f => Sys2Proof.Machine.execAndVr h f s
  | .orVr h f => Sys2Proof.Machine.execOrVr h f s
  | .xorVr h f => Sys2Proof.Machine.execXorVr h f s
  | .andn h f => Sys2Proof.Machine.execAndn h f s
  | .notVr h f => Sys2Proof.Machine.execNotVr h f s
  | .movVr h f => Sys2Proof.Machine.execMovVr h f s
  | .popc h f => Sys2Proof.Machine.execPopc h f s
  | .clz h f => Sys2Proof.Machine.execClz h f s
  | .ctz h f => Sys2Proof.Machine.execCtz h f s
  | .brev h f => Sys2Proof.Machine.execBrev h f s
  | .bdep h f => Sys2Proof.Machine.execBdep h f s
  | .bext h f => Sys2Proof.Machine.execBext h f s
  | .bperm h f => Sys2Proof.Machine.execBperm h f s
  | .gfmat h f => Sys2Proof.Machine.execGfmat h f s
  | .bfx h f => Sys2Proof.Machine.execBfx h f s
  | .bfi h f => Sys2Proof.Machine.execBfi h f s
  | .addVi h f => Sys2Proof.Machine.execAddVi h f s
  | .rsub h f => Sys2Proof.Machine.execRsub h f s
  | .mulVi h f => Sys2Proof.Machine.execMulVi h f s
  | .andVi h f => Sys2Proof.Machine.execAndVi h f s
  | .orVi h f => Sys2Proof.Machine.execOrVi h f s
  | .xorVi h f => Sys2Proof.Machine.execXorVi h f s
  | .shlVi h f => Sys2Proof.Machine.execShlVi h f s
  | .shrVi h f => Sys2Proof.Machine.execShrVi h f s
  | .rshrVi h f => Sys2Proof.Machine.execRshrVi h f s
  | .minVi h f => Sys2Proof.Machine.execMinVi h f s
  | .maxVi h f => Sys2Proof.Machine.execMaxVi h f s
  | .movVi h f => Sys2Proof.Machine.execMovVi h f s
  | .addVs h f => Sys2Proof.Machine.execAddVs h f s
  | .subVs h f => Sys2Proof.Machine.execSubVs h f s
  | .mulVs h f => Sys2Proof.Machine.execMulVs h f s
  | .andVs h f => Sys2Proof.Machine.execAndVs h f s
  | .orVs h f => Sys2Proof.Machine.execOrVs h f s
  | .xorVs h f => Sys2Proof.Machine.execXorVs h f s
  | .shlVs h f => Sys2Proof.Machine.execShlVs h f s
  | .shrVs h f => Sys2Proof.Machine.execShrVs h f s
  | .minVs h f => Sys2Proof.Machine.execMinVs h f s
  | .maxVs h f => Sys2Proof.Machine.execMaxVs h f s
  | .movVs h f => Sys2Proof.Machine.execMovVs h f s
  | .lea h f => Sys2Proof.Machine.execLea h f s
  | .fma h f => Sys2Proof.Machine.execFma h f s
  | .sqrt h f => Sys2Proof.Machine.execSqrt h f s
  | .exp2 h f => Sys2Proof.Machine.execExp2 h f s
  | .log2 h f => Sys2Proof.Machine.execLog2 h f s
  | .rcp h f => Sys2Proof.Machine.execRcp h f s
  | .rsqrt h f => Sys2Proof.Machine.execRsqrt h f s
  | .tanh h f => Sys2Proof.Machine.execTanh h f s
  | .sigm h f => Sys2Proof.Machine.execSigm h f s
  | .rndi h f => Sys2Proof.Machine.execRndi h f s
  | .fclass h f => Sys2Proof.Machine.execFclass h f s
  | .scale h f => Sys2Proof.Machine.execScale h f s
  | .copysign h f => Sys2Proof.Machine.execCopysign h f s
  | .cvt h f => Sys2Proof.Machine.execCvt h f s
  | .cvtTodx h f => Sys2Proof.Machine.execCvtTodx h f s
  | .cvtFromdx h f => Sys2Proof.Machine.execCvtFromdx h f s
  | .tagSet h f => Sys2Proof.Machine.execTagSet h f s
  | .tagChk h f => Sys2Proof.Machine.execTagChk h f s
  | .cmp h f => Sys2Proof.Machine.execCmp h f s
  | .pand h f => Sys2Proof.Machine.execPand h f s
  | .por h f => Sys2Proof.Machine.execPor h f s
  | .pxor h f => Sys2Proof.Machine.execPxor h f s
  | .pnot h f => Sys2Proof.Machine.execPnot h f s
  | .pmov h f => Sys2Proof.Machine.execPmov h f s
  | .pset h f => Sys2Proof.Machine.execPset h f s
  | .xv h f => Sys2Proof.Machine.execXv h f s
  | .kpush h f => Sys2Proof.Machine.execKpush h f s
  | .kpop h f => Sys2Proof.Machine.execKpop h f s
  | .kpopKeep h f => Sys2Proof.Machine.execKpopKeep h f s
  | .kpopDepth h f => Sys2Proof.Machine.execKpopDepth h f s
  | .kclr h f => Sys2Proof.Machine.execKclr h f s
  | .shflVr h f => Sys2Proof.Machine.execShflVr h f s
  | .shflVs h f => Sys2Proof.Machine.execShflVs h f s
  | .vote h f => Sys2Proof.Machine.execVote h f s
  | .ballot h f => Sys2Proof.Machine.execBallot h f s
  | .scan h f => Sys2Proof.Machine.execScan h f s
  | .red h f => Sys2Proof.Machine.execRed h f s
  | .ld h f => Sys2Proof.Machine.execLd h f s
  | .st h f => Sys2Proof.Machine.execSt h f s
  | .ldS h f => Sys2Proof.Machine.execLdS h f s
  | .stS h f => Sys2Proof.Machine.execStS h f s
  | .ldu h f => Sys2Proof.Machine.execLdu h f s
  | .stu h f => Sys2Proof.Machine.execStu h f s
  | .pf h f => Sys2Proof.Machine.execPf h f s
  | .ldb h f => Sys2Proof.Machine.execLdb h f s
  | .stb h f => Sys2Proof.Machine.execStb h f s
  | .atM h f x => Sys2Proof.Machine.execAtM h f x s
  | .atc h f x => Sys2Proof.Machine.execAtc h f x s
  | .sigAdd h f => Sys2Proof.Machine.execSigAdd h f s
  | .waitGe h f => Sys2Proof.Machine.execWaitGe h f s
  | .fence h f => Sys2Proof.Machine.execFence h f s
  | .xfence h f => Sys2Proof.Machine.execXfence h f s
  | .addUr h f => Sys2Proof.Machine.execAddUr h f s
  | .subUr h f => Sys2Proof.Machine.execSubUr h f s
  | .mulUr h f => Sys2Proof.Machine.execMulUr h f s
  | .divUr h f => Sys2Proof.Machine.execDivUr h f s
  | .remUr h f => Sys2Proof.Machine.execRemUr h f s
  | .andUr h f => Sys2Proof.Machine.execAndUr h f s
  | .orUr h f => Sys2Proof.Machine.execOrUr h f s
  | .xorUr h f => Sys2Proof.Machine.execXorUr h f s
  | .shlUr h f => Sys2Proof.Machine.execShlUr h f s
  | .shrUr h f => Sys2Proof.Machine.execShrUr h f s
  | .minUr h f => Sys2Proof.Machine.execMinUr h f s
  | .maxUr h f => Sys2Proof.Machine.execMaxUr h f s
  | .cmpUr h f => Sys2Proof.Machine.execCmpUr h f s
  | .addUi h f => Sys2Proof.Machine.execAddUi h f s
  | .movUi h f => Sys2Proof.Machine.execMovUi h f s
  | .movSv h f => Sys2Proof.Machine.execMovSv h f s
  | .movl h f x => Sys2Proof.Machine.execMovl h f x s
  | .ifC h f => Sys2Proof.Machine.execIfC h f s
  | .elseC h f => Sys2Proof.Machine.execElseC h f s
  | .endifC h f => Sys2Proof.Machine.execEndifC h f s
  | .loopC h f => Sys2Proof.Machine.execLoopC h f s
  | .endloopC h f => Sys2Proof.Machine.execEndloopC h f s
  | .brkC h f => Sys2Proof.Machine.execBrkC h f s
  | .contC h f => Sys2Proof.Machine.execContC h f s
  | .retC h f => Sys2Proof.Machine.execRetC h f s
  | .exitC h f => Sys2Proof.Machine.execExitC h f s
  | .callC h f x => Sys2Proof.Machine.execCallC h f x s
  | .launch h f => Sys2Proof.Machine.execLaunch h f s
  | .bar h f => Sys2Proof.Machine.execBar h f s
  | .nop h f => Sys2Proof.Machine.execNop h f s
  | .rds h f => Sys2Proof.Machine.execRds h f s
  | .cp h f => Sys2Proof.Machine.execCp h f s
  | .cpx h f x => Sys2Proof.Machine.execCpx h f x s
  | .mres h f => Sys2Proof.Machine.execMres h f s
  | .mrel h f => Sys2Proof.Machine.execMrel h f s
  | .mld h f => Sys2Proof.Machine.execMld h f s
  | .mst h f => Sys2Proof.Machine.execMst h f s
  | .mzero h f => Sys2Proof.Machine.execMzero h f s
  | .osmMax h f => Sys2Proof.Machine.execOsmMax h f s
  | .osmAcc h f => Sys2Proof.Machine.execOsmAcc h f s
  | .mloop h f x => Sys2Proof.Machine.execMloop h f x s
  | .mloopSp h f x => Sys2Proof.Machine.execMloopSp h f x s
  | .fbRed h f => Sys2Proof.Machine.execFbRed h f s
  | .fbBcast h f => Sys2Proof.Machine.execFbBcast h f s
  | .qPush h f => Sys2Proof.Machine.execQPush h f s
  | .qPop h f => Sys2Proof.Machine.execQPop h f s
  | .binPut h f => Sys2Proof.Machine.execBinPut h f s
  | .jyPush h f => Sys2Proof.Machine.execJyPush h f s
  | .jyPop h f => Sys2Proof.Machine.execJyPop h f s
  | .tsDesc h f => Sys2Proof.Machine.execTsDesc h f s
  | .tsBack h f => Sys2Proof.Machine.execTsBack h f s
  | .tsExp h f => Sys2Proof.Machine.execTsExp h f s
  | .tsRoot h f => Sys2Proof.Machine.execTsRoot h f s
  | .tsAnc h f => Sys2Proof.Machine.execTsAnc h f s
  | .trap h f => Sys2Proof.Machine.execTrap h f s
  | .syscall h f => Sys2Proof.Machine.execSyscall h f s
  | .diagSt h f => Sys2Proof.Machine.execDiagSt h f s
  | .commandSendArrival p payload => Sys2Proof.Machine.execCommandSendArrival p payload s
  | .launchCommand p => Sys2Proof.Machine.execLaunchCommand p s
  | .stopTaskTable p => Sys2Proof.Machine.execStopTaskTable p s
  | .restartTaskTable p => Sys2Proof.Machine.execRestartTaskTable p s
  | .resetPartition p => Sys2Proof.Machine.execResetPartition p s
  | .partitionResetComplete p => Sys2Proof.Machine.execPartitionResetComplete p s
  | .launchPortHandoff die => Sys2Proof.Machine.execLaunchPortHandoff die s
  | .heldLaunchEntry src => Sys2Proof.Machine.execHeldLaunchEntry src s
  | .teamPlacement p => Sys2Proof.Machine.execTeamPlacement p s
  | .teamDiscardSave team => Sys2Proof.Machine.execTeamDiscardSave team s
  | .acknowledgementReturn req => Sys2Proof.Machine.execAcknowledgementReturn req s
  | .teamRetirement team => Sys2Proof.Machine.execTeamRetirement team s
  | .launchCompletion launch => Sys2Proof.Machine.execLaunchCompletion launch s
  | .launchFaultEnd launch => Sys2Proof.Machine.execLaunchFaultEnd launch s
  | .eventTimerExpiry p cls => Sys2Proof.Machine.execEventTimerExpiry p cls s
  | .instructionFill die => Sys2Proof.Machine.execInstructionFill die s
  | .sequentialPrefetch die => Sys2Proof.Machine.execSequentialPrefetch die s
  | .passOver group => Sys2Proof.Machine.execPassOver group s
  | .translationWalk die => Sys2Proof.Machine.execTranslationWalk die s
  | .homeSliceAccess req => Sys2Proof.Machine.execHomeSliceAccess req s
  | .waitTableRetry group => Sys2Proof.Machine.execWaitTableRetry group s
  | .watchRearm req => Sys2Proof.Machine.execWatchRearm req s
  | .watchdogFire p => Sys2Proof.Machine.execWatchdogFire p s
  | .pageReply p entry value => Sys2Proof.Machine.execPageReply p entry value s
  | .pendingFaultEntry p => Sys2Proof.Machine.execPendingFaultEntry p s
  | .copyCommandStart pair => Sys2Proof.Machine.execCopyCommandStart pair s
  | .copyCounterStep cmd part => Sys2Proof.Machine.execCopyCounterStep cmd part s
  | .copyCommandComplete cmd => Sys2Proof.Machine.execCopyCommandComplete cmd s
  | .matrixEngineStep pair => Sys2Proof.Machine.execMatrixEngineStep pair s
  | .atcSlicePerform req => Sys2Proof.Machine.execAtcSlicePerform req s
  | .slipwayHandoff slice p => Sys2Proof.Machine.execSlipwayHandoff slice p s
  | .binTimerExpiry bin => Sys2Proof.Machine.execBinTimerExpiry bin s
  | .binLaunchHandoff slice p => Sys2Proof.Machine.execBinLaunchHandoff slice p s
  | .fordAcceptance die => Sys2Proof.Machine.execFordAcceptance die s
  | .fordAction op => Sys2Proof.Machine.execFordAction op s
  | .freeingPush op => Sys2Proof.Machine.execFreeingPush op s
  | .partialMessage p record round elems => Sys2Proof.Machine.execPartialMessage p record round elems s
  | .resultMessage p record round payload => Sys2Proof.Machine.execResultMessage p record round payload s
  | .remoteWrite r payload => Sys2Proof.Machine.execRemoteWrite r payload s
  | .remoteRead r len => Sys2Proof.Machine.execRemoteRead r len s
  | .remoteFetchAdd r value => Sys2Proof.Machine.execRemoteFetchAdd r value s
  | .remoteSwap r value => Sys2Proof.Machine.execRemoteSwap r value s
  | .remoteCompareSwap r value compare => Sys2Proof.Machine.execRemoteCompareSwap r value compare s
  | .unsupportedUePacket service => Sys2Proof.Machine.execUnsupportedUePacket service s
  | .getVersion => Sys2Proof.Machine.execGetVersion s
  | .getCapabilities => Sys2Proof.Machine.execGetCapabilities s
  | .negotiateAlgorithms => Sys2Proof.Machine.execNegotiateAlgorithms s
  | .getDigests => Sys2Proof.Machine.execGetDigests s
  | .getCertificate => Sys2Proof.Machine.execGetCertificate s
  | .challenge nonce => Sys2Proof.Machine.execChallenge nonce s
  | .getMeasurements => Sys2Proof.Machine.execGetMeasurements s
  | .keyExchange requester exchange => Sys2Proof.Machine.execKeyExchange requester exchange s
  | .finish proof => Sys2Proof.Machine.execFinish proof s
  | .heartbeat => Sys2Proof.Machine.execHeartbeat s
  | .keyUpdate => Sys2Proof.Machine.execKeyUpdate s
  | .endSession => Sys2Proof.Machine.execEndSession s
  | .readReadinessMap => Sys2Proof.Machine.execReadReadinessMap s
  | .configurePartition p record fq save => Sys2Proof.Machine.execConfigurePartition p record fq save s
  | .startPartition p => Sys2Proof.Machine.execStartPartition p s
  | .stopPartition p => Sys2Proof.Machine.execStopPartition p s
  | .managementResetPartition p => Sys2Proof.Machine.execManagementResetPartition p s
  | .readCodeKey p => Sys2Proof.Machine.execReadCodeKey p s
  | .setWatchdogPeriod p period => Sys2Proof.Machine.execSetWatchdogPeriod p period s
  | .createJetty j prod cons ringpa capm1 => Sys2Proof.Machine.execCreateJetty j prod cons ringpa capm1 s
  | .clearJettyReset j => Sys2Proof.Machine.execClearJettyReset j s
  | .setMemoryWindow p w win => Sys2Proof.Machine.execSetMemoryWindow p w win s
  | .setEventThresholds p cls threshold period => Sys2Proof.Machine.execSetEventThresholds p cls threshold period s
  | .grantDiagnostics p grant => Sys2Proof.Machine.execGrantDiagnostics p grant s
  | .readFaultQueueAddresses p => Sys2Proof.Machine.execReadFaultQueueAddresses p s
  | .readPowerAndTemperatures => Sys2Proof.Machine.execReadPowerAndTemperatures s
  | .moduleReset start flash => Sys2Proof.Machine.execModuleReset start flash s
  | .unitReady u => Sys2Proof.Machine.execUnitReady u s
  | .thermalThrottle sample => Sys2Proof.Machine.execThermalThrottle sample s
  | .throttleEnd sample => Sys2Proof.Machine.execThrottleEnd sample s
  | .criticalShutdown sample => Sys2Proof.Machine.execCriticalShutdown sample s
  | .retentionEntry arr => Sys2Proof.Machine.execRetentionEntry arr s
  | .retentionExit arr => Sys2Proof.Machine.execRetentionExit arr s
  | .bankAccess req => Sys2Proof.Machine.execBankAccess req s
  | .matrixCommandComplete cmd => Sys2Proof.Machine.execMatrixCommandComplete cmd s
  | .reservedMajor w => Sys2Proof.Machine.execReservedMajor w s
  | .reservedCommand p => Sys2Proof.Machine.execReservedCommand p s

end Sys2Proof.Machine
end

