-- ==== Sys2Proof/Machine/Sched.lean ====
section
/-! DEFINITION. Which agent moves next, the passing of time, and an instruction placed for the next step. The agenda of the state says
what moves; where it is empty a free choice picks one of the moves that the part itself may make (log entries 1 and 2). -/

namespace Sys2Proof.Machine

/-! ### Time -/

/-- A bin timer after `n` cc: it counts down in its header (R327, R328). -/
def tickBin (n : Nat) (t : BinTimer) : Prog :=
  .dyn fun s =>
    let a := t.pa + 8
    let w := devWord s a
    if devBad s a 8 then .done
    else devWriteWord a (BitVec.ofNat 64 (w.toNat / 2 ^ 24 * 2 ^ 24 + (w.toNat % 2 ^ 24 - n)))

/-- The timers of event classes after `n` cc (R52). -/
def tickEvents (n : Nat) (es : List EvClass) : List EvClass := es.map fun e => { e with timer := e.timer.map fun t => t - n }

/-- `n` cc pass: event timers, watchdog counts (R285) and bin timers. -/
def tick (n : Nat) : Prog :=
  .dyn fun s =>
    .all [
      .change fun t => { t with
        now := t.now + n
        parts := t.parts.map fun q => { q with events := tickEvents n q.events, wdCounts := wdCount s n q } },
      .all (s.binTimers.map (tickBin n))]

/-! ### The moves that the part may make -/

/-- An operation that may happen where a condition holds. -/
def mayBe (c : Bool) (i : Instr) : List Act := if c then [.event i] else []

/-- The groups that may issue or pass over. -/
def groupMoves (s : State) : List Act :=
  if s.mgmt.stopped then []
  else (s.groups.filter (mayFetch s)).flatMap fun g =>
    Act.issue g.gid :: (mayBe g.po (.passOver g.gid) ++ mayBe (g.retryAt != 0) (.waitTableRetry g.gid))

/-- The moves of one request. -/
def reqMove (r : Req) : Act :=
  match r.phase with
  | .done => .event (.acknowledgementReturn r.id)
  | .rearm _ => .event (.watchRearm r.id)
  | _ => match r.op with
    | .atc .. => .event (.atcSlicePerform r.id)
    | _ => if r.sp then .event (.bankAccess r.id) else .event (.homeSliceAccess r.id)

/-- Requests move but while they are parked or wait for their round. -/
def reqMoves (s : State) : List Act :=
  (s.reqs.filter fun r => !r.isParked && r.phase != .contributed).map reqMove

/-- Fills, prefetches and walks (R69, R70, R228). -/
def fetchMoves (s : State) : List Act :=
  ((s.fills.map Fill.die).eraseDups.map fun d => .event (.instructionFill d))
    ++ ((s.prefetches.map Prefetch.die).eraseDups.map fun d => .event (.sequentialPrefetch d))
    ++ ((s.walks.map Prefetch.die).eraseDups.map fun d => .event (.translationWalk d))

/-- A copy command that runs: its completion, and the next of its counter steps. -/
def copyMoves (c : CopyCmd) : List Act :=
  mayBe c.active (.copyCommandComplete c.id) ++ (List.range 4).flatMap fun k => mayBe c.active (.copyCounterStep c.id (c.steps + k))

/-- Copy and matrix engines (R253 to R263). -/
def engineMoves (s : State) : List Act :=
  (s.copies.map CopyCmd.pair).eraseDups.map (fun p => Act.event (.copyCommandStart p))
    ++ s.copies.flatMap copyMoves
    ++ (s.mxcmds.map MxCmd.pair).eraseDups.map (fun p => Act.event (.matrixEngineStep p))
    ++ s.mxcmds.flatMap (fun c => mayBe c.finished (.matrixCommandComplete c.id))

/-- Ford engines (R338, R339, R349). -/
def fordMoves (s : State) : List Act :=
  s.fords.map fun o => match o.phase with
    | .input => .event (.fordAcceptance o.die)
    | .freeing => .event (.freeingPush o.id)
    | _ => .event (.fordAction o.id)

/-- The command at the head of a queue, by its kind (R36). -/
def commandMove (s : State) (p : Nat) : Instr :=
  match commandKind ((headCommand s p).getD 0 0) with
  | 1 => .launchCommand p
  | 2 => .stopTaskTable p
  | 3 => .restartTaskTable p
  | 4 => .resetPartition p
  | _ => .reservedCommand p

/-- Commands, held commands, placement, and the end of a reset of a partition. -/
def partMoves (s : State) (q : Part) : List Act :=
  mayBe (q.cmdCount != 0) (commandMove s q.num) ++ mayBe q.cmdHeld.isSome (.heldLaunchEntry (.command q.num))
    ++ mayBe (!q.queues.all List.isEmpty || s.teams.any fun t => t.part == q.num && t.status == .restoring) (.teamPlacement q.num) ++ mayBe (q.state == .resetting) (.partitionResetComplete q.num)

/-- A hand-off and the entry of a launch that it holds. -/
def handoffMoves (i : Instr) (src : HeldSource) : List Act := [Act.event i, Act.event (.heldLaunchEntry src)]

/-- Commands, hand-offs, placement, and the ends of teams, launches and resets. -/
def launchMoves (s : State) : List Act :=
  s.parts.flatMap (partMoves s)
    ++ s.ports.flatMap (fun e => handoffMoves (.launchPortHandoff e.die) (.port e.die))
    ++ s.starts.flatMap (fun x => handoffMoves (.slipwayHandoff x.slice x.part) (.slipway x.slice x.part))
    ++ s.binLaunches.flatMap (fun x => handoffMoves (.binLaunchHandoff x.slice x.part) (.bin x.slice x.part))
    ++ s.teams.map (fun t => Act.event (if t.status == .discarding then .teamDiscardSave t.tid else .teamRetirement t.tid))
    ++ s.launches.map (fun l => Act.event (if l.ended then .launchFaultEnd l.lid else .launchCompletion l.lid))

/-- The timers of a partition's events and watchdogs, and its entries that wait (R52, R285, R367). -/
def partTimers (q : Part) : List Act :=
  (List.range 5).flatMap (fun c => mayBe (((q.events[c]?).map EvClass.timer).join == some 0) (.eventTimerExpiry q.num c))
    ++ mayBe (q.wdPeriod != 0) (.watchdogFire q.num) ++ mayBe (!q.pendEntries.isEmpty) (.pendingFaultEntry q.num)

/-- Timers and entries that wait for space (R52, R285, R328, R367). -/
def timerMoves (s : State) : List Act :=
  s.parts.flatMap partTimers ++ s.binTimers.map (fun t => Act.event (.binTimerExpiry t.id))

/-- Arrays may enter retention, of which only those that hold a word to re-encode are listed, and leave it (R383). -/
def retentionMoves (s : State) : List Act :=
  let slices := (s.syn.filter fun x => inSram x.1).map fun x => arrayOf x.1
  let pools := s.teams.flatMap fun t =>
    if t.spSyn.isEmpty then [] else t.cores.flatMap fun c => (List.range (teamLimit s t / 65536)).map fun k => ArrayId.pool c k
  (((slices ++ pools).eraseDups.filter fun a => !s.retained.contains a).map fun a => .event (.retentionEntry a))
    ++ (s.retained.map fun a => .event (.retentionExit a))

/-- Everything that may move now; time may always pass. -/
def moves (s : State) : List Act :=
  [.elapse 1] ++ groupMoves s ++ reqMoves s ++ fetchMoves s ++ engineMoves s ++ fordMoves s ++ launchMoves s ++ timerMoves s
    ++ retentionMoves s

/-- What moves next, and the state in which it moves. -/
def nextMove (s : State) : Act × State :=
  let s1 := { s with fresh := s.fresh + 1 }
  match s.agenda with
  | a :: rest => (a, { s1 with agenda := rest })
  | [] => ((moves s).getD (Config.turn s.fresh % (moves s).length) (.elapse 1), s1)

/-- What a step does: it runs an instruction or an event, or it is complete. -/
inductive Todo where
  | run (i : Instr) (s : State)
  | rest (s : State)
  deriving DecidableEq, Repr

/-- A group fetches, and issues what it has fetched (R71, R109). -/
def groupTurn (gid : Nat) (s : State) : Todo :=
  match s.grp? gid with
  | none => .rest s
  | some g =>
    if s.mgmt.stopped || !mayFetch s g then .rest s
    else match fetch s g with
      | .instr i => .run i { s with cur := some gid }
      | f => .rest ((fetchProg g f).run s)

/-- An operation or event of the part, as against an instruction that a group fetches (95_what_each_step_holds.md). -/
def isOperation (i : Instr) : Bool := i.isEvent && (match i with
  | .reservedMajor _ => false
  | _ => true)

/-- Commands of hosts, and the way of launches and teams. -/
def launchWork : Instr → Bool
  | .launchCommand _ => true
  | .stopTaskTable _ => true
  | .restartTaskTable _ => true
  | .resetPartition _ => true
  | .reservedCommand _ => true
  | .launchPortHandoff _ => true
  | .heldLaunchEntry _ => true
  | .teamPlacement _ => true
  | .teamDiscardSave _ => true
  | .teamRetirement _ => true
  | .launchCompletion _ => true
  | .launchFaultEnd _ => true
  | .slipwayHandoff .. => true
  | .binTimerExpiry _ => true
  | .binLaunchHandoff .. => true
  | _ => false

/-- Fetches, translations, accesses of groups, and their entries. -/
def accessWork : Instr → Bool
  | .instructionFill _ => true
  | .sequentialPrefetch _ => true
  | .passOver _ => true
  | .translationWalk _ => true
  | .homeSliceAccess _ => true
  | .bankAccess _ => true
  | .acknowledgementReturn _ => true
  | .waitTableRetry _ => true
  | .watchRearm _ => true
  | .watchdogFire _ => true
  | .atcSlicePerform _ => true
  | .pendingFaultEntry _ => true
  | .pageReply .. => true
  | _ => false

/-- Work of the engines. -/
def engineWork : Instr → Bool
  | .copyCommandStart _ => true
  | .copyCounterStep .. => true
  | .copyCommandComplete _ => true
  | .matrixEngineStep _ => true
  | .matrixCommandComplete _ => true
  | .fordAcceptance _ => true
  | .fordAction _ => true
  | .freeingPush _ => true
  | _ => false

/-- Operations of hosts and peer devices on memory. -/
def outsideWork : Instr → Bool
  | .partialMessage .. => true
  | .resultMessage .. => true
  | .remoteWrite .. => true
  | .remoteRead .. => true
  | .remoteFetchAdd .. => true
  | .remoteSwap .. => true
  | .remoteCompareSwap .. => true
  | _ => false

/-- The operation is work of the C-dies, of their cores, engines, walkers and switches (R9), through which every access to a slice
goes (R10). -/
def cdieWork (i : Instr) : Bool := launchWork i || accessWork i || engineWork i || outsideWork i

/-- What the next step does: once a critical condition has stopped the C-dies, none of their work goes on (R408). -/
def todo (s : State) : Todo :=
  match nextMove s with
  | (.issue gid, s) => groupTurn gid s
  | (.event i, s) => if isOperation i && !(s.mgmt.stopped && cdieWork i) then .run i s else .rest s
  | (.elapse n, s) => .rest ((tick n).run s)

/-! ### An instruction placed for the next step -/

/-- The launch that the placed instruction belongs to: one team of one group of 64 lanes, with its code at virtual address 0. -/
def loaderLaunch (lid : Nat) : Launch where
  lid := lid
  part := 0
  serial := none
  cls := 0
  source := .group
  task := 0
  hdr := {
    width := 64
    codebase := 0
    codelen := 4096
    entry := 0
    partword := 0x40408010#32
    peak := 128
    entryfp := 32
    tagbase := 0
    argtags := 0
    argc := 0 }
  teams := 1
  teamSize := 64
  args := []
  donectr := 0
  next := 0
  retired := 0
  ended := false

/-- The physical address of the placed instruction. -/
def loaderPa : Nat := 0x10000

/-- An instruction's words stored where a group of a new launch fetches next, with the group's line in its caches and its turn at the
head of the agenda, and every unit ready. -/
def placeWords (s : State) (w0 w1 : Word) : State :=
  let lid := s.nextId
  let l := loaderLaunch lid
  let g := newGroup (lid + 2) (lid + 1) l 0 0 0 0 s.now
  let line : ILine := ⟨0, loaderPa, 0, (s.part 0).asidbase, 1⟩
  { s with
    mem := Memory.putBytes s.mem loaderPa (wordsBytes [w0, w1])
    syn := synSet (synSet s.syn loaderPa 0) (loaderPa + 8) 0
    launches := l :: s.launches
    teams := newTeam (lid + 1) l [0] :: s.teams
    groups := g :: s.groups
    coreWords := (0, l.hdr.partword) :: s.coreWords.filter fun x => x.1 != 0
    ilines := line :: s.ilines
    mgmt := { s.mgmt with ready := BitVec.allOnes 256 }
    nextId := lid + 3
    agenda := .issue (lid + 2) :: s.agenda }

end Sys2Proof.Machine
end

