-- ==== Sys2Proof/Machine/Step.lean ====
section
/-! DEFINITION. One step of the part. -/

namespace Sys2Proof.Machine

/-- One step: what moves next moves (R109, 95_what_each_step_holds.md). -/
def step (s : State) : Host.Outcome State Fault Refusal :=
  match todo s with
  | .run i s => exec i s
  | .rest s => .next s

/-- `s` with an instruction, given by the bits of its words from the first word up, where the next step fetches it. -/
def State.withFetchWord (s : State) (nbits w : Nat) : State :=
  placeWords s (BitVec.ofNat 64 (w % 2 ^ nbits)) (BitVec.ofNat 64 (w % 2 ^ nbits / 2 ^ 64))

end Sys2Proof.Machine
end

