-- ==== Sys2Proof/Safety.lean ====
section
/-! DEFINITION. The terms in which claims speak: what a safe run is, the invariant of memory, when an instruction issues, and what an
instruction leaves unchanged. -/

namespace Sys2Proof.Machine

/-- A state of a safe run: device memory is in its canonical form. -/
abbrev State.Inv (s : State) : Prop := Memory.wf s.mem

/-- The machine goes on: the step answers a next state. -/
def GoesOn (s : State) : Prop := ∃ t, step s = .next t

/-- `n` steps from `s` all answer next states, and the last is `t`. -/
def Runs : Nat → State → State → Prop
  | 0, s, t => s = t
  | n + 1, s, t => ∃ u, step s = .next u ∧ Runs n u t

/-- A run from `s` is safe: it never stops, and memory stays canonical. -/
def SafeRun (s : State) : Prop := ∀ n, ∃ t, Runs n s t ∧ t.Inv

/-! ### What issues -/

/-- The header and the plan of an instruction that issues under R110 to R123; none for control instructions, the reserved majors and
the part's own operations. -/
def planOf (i : Instr) (s : State) : Option (Hdr × Plan) :=
  match i with
  | .addVr h f => some (h, planAddVr h f)
  | .subVr h f => some (h, planSubVr h f)
  | .mulVr h f => some (h, planMulVr h f)
  | .mulhi h f => some (h, planMulhi h f)
  | .minVr h f => some (h, planMinVr h f)
  | .maxVr h f => some (h, planMaxVr h f)
  | .abs h f => some (h, planAbs h f)
  | .neg h f => some (h, planNeg h f)
  | .div h f => some (h, planDiv h f)
  | .rem h f => some (h, planRem h f)
  | .shlVr h f => some (h, planShlVr h f)
  | .shrVr h f => some (h, planShrVr h f)
  | .rshrVr h f => some (h, planRshrVr h f)
  | .adiff h f => some (h, planAdiff h f)
  | .mad h f => some (h, planMad h f)
  | .andVr h f => some (h, planAndVr h f)
  | .orVr h f => some (h, planOrVr h f)
  | .xorVr h f => some (h, planXorVr h f)
  | .andn h f => some (h, planAndn h f)
  | .notVr h f => some (h, planNotVr h f)
  | .movVr h f => some (h, planMovVr h f)
  | .popc h f => some (h, planPopc h f)
  | .clz h f => some (h, planClz h f)
  | .ctz h f => some (h, planCtz h f)
  | .brev h f => some (h, planBrev h f)
  | .bdep h f => some (h, planBdep h f)
  | .bext h f => some (h, planBext h f)
  | .bperm h f => some (h, planBperm h f)
  | .gfmat h f => some (h, planGfmat h f)
  | .bfx h f => some (h, planBfx h f)
  | .bfi h f => some (h, planBfi h f)
  | .addVi h f => some (h, planAddVi h f)
  | .rsub h f => some (h, planRsub h f)
  | .mulVi h f => some (h, planMulVi h f)
  | .andVi h f => some (h, planAndVi h f)
  | .orVi h f => some (h, planOrVi h f)
  | .xorVi h f => some (h, planXorVi h f)
  | .shlVi h f => some (h, planShlVi h f)
  | .shrVi h f => some (h, planShrVi h f)
  | .rshrVi h f => some (h, planRshrVi h f)
  | .minVi h f => some (h, planMinVi h f)
  | .maxVi h f => some (h, planMaxVi h f)
  | .movVi h f => some (h, planMovVi h f)
  | .addVs h f => some (h, planAddVs h f)
  | .subVs h f => some (h, planSubVs h f)
  | .mulVs h f => some (h, planMulVs h f)
  | .andVs h f => some (h, planAndVs h f)
  | .orVs h f => some (h, planOrVs h f)
  | .xorVs h f => some (h, planXorVs h f)
  | .shlVs h f => some (h, planShlVs h f)
  | .shrVs h f => some (h, planShrVs h f)
  | .minVs h f => some (h, planMinVs h f)
  | .maxVs h f => some (h, planMaxVs h f)
  | .movVs h f => some (h, planMovVs h f)
  | .lea h f => some (h, planLea h f)
  | .fma h f => some (h, planFma h f)
  | .sqrt h f => some (h, planSqrt h f)
  | .exp2 h f => some (h, planExp2 h f)
  | .log2 h f => some (h, planLog2 h f)
  | .rcp h f => some (h, planRcp h f)
  | .rsqrt h f => some (h, planRsqrt h f)
  | .tanh h f => some (h, planTanh h f)
  | .sigm h f => some (h, planSigm h f)
  | .rndi h f => some (h, planRndi h f)
  | .fclass h f => some (h, planFclass h f)
  | .scale h f => some (h, planScale h f)
  | .copysign h f => some (h, planCopysign h f)
  | .cvt h f => some (h, planCvt h f)
  | .cvtTodx h f => some (h, planCvtTodx h f s)
  | .cvtFromdx h f => some (h, planCvtFromdx h f s)
  | .tagSet h f => some (h, planTagSet h f)
  | .tagChk h f => some (h, planTagChk f)
  | .cmp h f => some (h, planCmp h f)
  | .pand h f => some (h, planPand f)
  | .por h f => some (h, planPor f)
  | .pxor h f => some (h, planPxor f)
  | .pnot h f => some (h, planPnot f)
  | .pmov h f => some (h, planPmov f)
  | .pset h f => some (h, planPset f)
  | .xv h f => some (h, planXv h f s)
  | .kpush h f => some (h, planKpush h f)
  | .kpop h f => some (h, planKpop h f)
  | .kpopKeep h f => some (h, planKpopKeep h f)
  | .kpopDepth h f => some (h, planKpopDepth f)
  | .kclr h _ => some (h, planKclr)
  | .shflVr h f => some (h, planShflVr h f)
  | .shflVs h f => some (h, planShflVs h f)
  | .vote h f => some (h, planVote f)
  | .ballot h f => some (h, planBallot f)
  | .scan h f => some (h, planScan h f)
  | .red h f => some (h, planRed h f)
  | .ld h f => some (h, planLd h f)
  | .st h f => some (h, planSt h f)
  | .ldS h f => some (h, planLdS h f)
  | .stS h f => some (h, planStS h f)
  | .ldu h f => some (h, planLdu h f)
  | .stu h f => some (h, planStu h f)
  | .pf h f => some (h, planPf f)
  | .ldb h f => some (h, planLdb h f)
  | .stb h f => some (h, planStb h f)
  | .atM h f x => some (h, planAtM h f x)
  | .atc h f x => some (h, planAtc h f x)
  | .sigAdd h f => some (h, planSigAdd h f)
  | .waitGe h f => some (h, planWaitGe h f)
  | .fence h f => some (h, planFence f)
  | .xfence h f => some (h, planXfence f)
  | .addUr h f => some (h, planAddUr f)
  | .subUr h f => some (h, planSubUr f)
  | .mulUr h f => some (h, planMulUr f)
  | .divUr h f => some (h, planDivUr f)
  | .remUr h f => some (h, planRemUr f)
  | .andUr h f => some (h, planAndUr f)
  | .orUr h f => some (h, planOrUr f)
  | .xorUr h f => some (h, planXorUr f)
  | .shlUr h f => some (h, planShlUr f)
  | .shrUr h f => some (h, planShrUr f)
  | .minUr h f => some (h, planMinUr f)
  | .maxUr h f => some (h, planMaxUr f)
  | .cmpUr h f => some (h, planCmpUr f)
  | .addUi h f => some (h, planAddUi f)
  | .movUi h f => some (h, planMovUi f)
  | .movSv h f => some (h, planMovSv h f)
  | .movl h f x => some (h, planMovl f x)
  | .launch h f => some (h, planLaunch h f)
  | .bar h f => some (h, planBar f)
  | .nop h _ => some (h, planNop)
  | .rds h f => some (h, planRds f)
  | .cp h f => some (h, planCp h f)
  | .cpx h f x => some (h, planCpx h f x)
  | .mres h f => some (h, planMres h f)
  | .mrel h f => some (h, planMrel f)
  | .mld h f => some (h, planMld h f)
  | .mst h f => some (h, planMst h f)
  | .mzero h f => some (h, planMzero h f)
  | .osmMax h f => some (h, planOsmMax h f)
  | .osmAcc h f => some (h, planOsmAcc h f)
  | .mloop h f x => some (h, planMloop h f x)
  | .mloopSp h f x => some (h, planMloopSp h f x)
  | .fbRed h f => some (h, planFbRed h f)
  | .fbBcast h f => some (h, planFbBcast h f)
  | .qPush h f => some (h, planQPush h f)
  | .qPop h f => some (h, planQPop h f)
  | .binPut h f => some (h, planBinPut h f)
  | .jyPush h f => some (h, planJyPush h f)
  | .jyPop h f => some (h, planJyPop h f)
  | .tsDesc h f => some (h, planTsDesc h f)
  | .tsBack h f => some (h, planTsBack h f)
  | .tsExp h f => some (h, planTsExp h f)
  | .tsRoot h f => some (h, planTsRoot h f)
  | .tsAnc h f => some (h, planTsAnc h f)
  | .trap h f => some (h, planTrap f)
  | .syscall h f => some (h, planSyscall f)
  | .diagSt h f => some (h, planDiagSt h f)
  | _ => none

/-- The header, fields and effect of a control instruction (R126 to R133). -/
def ctlOf (i : Instr) : Option (Hdr × CF × Ctl) :=
  match i with
  | .ifC h f => some (h, f, ctlIf f)
  | .elseC h f => some (h, f, ctlElse f)
  | .endifC h f => some (h, f, ctlEndif)
  | .loopC h f => some (h, f, ctlLoop)
  | .endloopC h f => some (h, f, ctlEndloop f)
  | .brkC h f => some (h, f, ctlLeave f false)
  | .contC h f => some (h, f, ctlLeave f true)
  | .retC h f => some (h, f, ctlRet f)
  | .exitC h f => some (h, f, ctlExit f)
  | .callC h f x => some (h, f, ctlCall x)
  | _ => none

/-- The group `g` issues the instruction in `s`: it is the issuing group and has a live lane, it is ready (R110), no cause of R356 is
raised, the slices of the table words that it walks take work (R383, R405), and the wait table takes what it parks (R281). -/
structure Issues (s : State) (g : Group) (i : Instr) (h : Hdr) (p : Plan) : Prop where
  issuing : s.issuing = some g
  alive : g.live ≠ 0
  ready : ready s g h p = true
  clear : causeAt i s g h p = none
  tables : awakeWords s (p.touches s g (effLanes g h)) = true
  room : (p.wt s g (effLanes g h) && decide (64 ≤ waitTable s g.core)) = false

/-- The group as it issues: its region opened (R116), its spent fences gone. -/
def Group.atIssue (g : Group) (s : State) (h : Hdr) (p : Plan) : Group := (g.opened h p).pruneFences s

/-- The lanes that die of the instruction (R370). -/
def dying (s : State) (g : Group) (h : Hdr) (p : Plan) : LaneMask :=
  if p.acts == .lanes then p.consumed (g.atIssue s h p) (effLanes g h) &&& effLanes g h else 0

/-- The lanes on which the instruction acts (R122, R370). -/
def acting (s : State) (g : Group) (h : Hdr) (p : Plan) : LaneMask := effLanes g h &&& ~~~(dying s g h p)

/-! ### What stays -/

/-- Nothing changes but groups, and of these only `gid`; one instruction more has issued. -/
structure OnlyGroup (s t : State) (gid : Nat) : Prop where
  rest : t = { s with groups := t.groups, seq := s.seq + 1 }
  others : ∀ k, k ≠ gid → t.grp? k = s.grp? k

/-- The registers of a group but for the vector names `vs`, the uniform registers `ss` and the predicates `ps` keep what they hold. -/
structure KeepsRegs (g g' : Group) (vs ss ps : List Nat) : Prop where
  vectors : ∀ n, n ∉ vs → g'.preg? n = g.preg? n
  uniforms : ∀ r, r ∉ ss → g'.sreg r = g.sreg r
  predicates : ∀ r, r ∉ ps → g'.pred r = g.pred r

/-- What every instruction outside the C format leaves of its group when no lane dies: masks, mask stack, place and counts. -/
structure KeepsGroup (g g' : Group) : Prop where
  masks : g'.active = g.active ∧ g'.live = g.live ∧ g'.dead = g.dead
  stack : g'.stack = g.stack
  place : g'.core = g.core ∧ g'.quadrant = g.quadrant ∧ g'.slot = g.slot ∧ g'.team = g.team ∧ g'.launch = g.launch ∧
    g'.part = g.part ∧ g'.width = g.width ∧ g'.life = g.life
  counts : g'.replays = g.replays ∧ g'.retryAt = g.retryAt

/-- What an instruction leaves of its group that touches neither a K register nor memory and holds nothing: the depths of the K
registers, the accesses outstanding, and that the group waits for nothing but its registers. -/
structure KeepsWork (g g' : Group) : Prop where
  depths : g'.depths = g.depths
  outst : g'.outst = g.outst
  hold : g'.hold = g.hold
  place : g'.groupId = g.groupId ∧ g'.admitted = g.admitted

/-- The pc has moved past the instruction (R71), and its major has entered the signature (R132). -/
structure MovesOn (i : Instr) (g g' : Group) : Prop where
  pc : g'.pc = g.pc + instrSize i
  sig : g'.sig = shiftMajor g.sig (majorOf i)

/-- The vector names that an instruction writes or frees by a last read (R114). -/
def touchedV (p : Plan) : List Nat := dstNames p.dsts ++ lastNames p.srcs

/-- The registers of a destination: one, or a pair with the low half first (R95). -/
def regsOf (pair : Bool) (vd : Nat) : List Nat := if pair then [vd, vd + 1] else [vd]

/-- A lane-wise instruction without dying lanes has written `res` into the effective lanes of its destination and nothing else: the other
lanes hold what they held (zero where a last read of the same instruction has freed the name, R114), the tag and the marks follow
R179 and R122, the flags of the results are ORed into fflags (R197), and the names read for the last time hold nothing. -/
structure WroteLanes (i : Instr) (g g' : Group) (h : Hdr) (p : Plan) (pair : Bool) (vd : Nat) (tag : BitVec 4)
    (res : Nat → Word × FFlags) : Prop where
  value : ∀ l, l < 64 → (effLanes g h).getLsbD l = true →
    g'.val pair vd l = if pair then (res l).1 else ((res l).1.setWidth 32).setWidth 64
  others : ∀ n l, n ∈ regsOf pair vd → l < 64 → (effLanes g h).getLsbD l = false →
    laneOf (g'.vLanes n) l = laneOf ((g.unmap (lastNames p.srcs)).vLanes n) l
  tags : ∀ n, n ∈ regsOf pair vd → g'.vTag n = tag
  marks : ∀ n, n ∈ regsOf pair vd → g'.vBad n = (g.unmap (lastNames p.srcs)).vBad n &&& ~~~(effLanes g h)
  flags : g'.fflags = g.fflags ||| orFlags ((lanesOf (effLanes g h)).map fun l => (res l).2)
  freed : ∀ n, n ∈ lastNames p.srcs → n ∉ regsOf pair vd → g'.preg? n = none
  regs : KeepsRegs g g' (touchedV p) [] []
  keeps : KeepsGroup g g'
  work : KeepsWork g g'
  moves : MovesOn i g g'

/-- Device memory reads as before: every byte that is not marked uncorrectable, and where no word has a bad check code, as it is. -/
structure SameMemory (s t : State) : Prop where
  bytes : ∀ a, devBad t a 1 = false → devByte t a = devByte s a
  exact : s.syn = [] → t.mem = s.mem ∧ t.syn = []

/-- An instruction of group `gid` has issued and done to the rest of the machine what `u` shows; caches of translations may have grown,
and check codes of table words may have been corrected or marked by reading them (R230, R369). -/
structure Sends (s u t : State) (gid : Nat) : Prop where
  rest : t = { u with
    groups := t.groups, seq := s.seq + 1, tlb := t.tlb, presT := t.presT, fresh := t.fresh, mem := t.mem, syn := t.syn,
    corrected := t.corrected }
  others : ∀ k, k ≠ gid → t.grp? k = s.grp? k
  memory : SameMemory s t

/-- What an instruction leaves of its group that writes or frees the vector names `vs` and the uniform registers `ss`, with the group's
count of outstanding accesses and what the group waits for. -/
structure AfterIssue (i : Instr) (g g' : Group) (vs ss ps : List Nat) (outst : Nat) (hold : Hold) : Prop where
  regs : KeepsRegs g g' vs ss ps
  flags : g'.fflags = g.fflags
  keeps : KeepsGroup g g'
  work : KeepsWork g { g' with outst := g.outst, hold := g.hold }
  count : g'.outst = outst
  waits : g'.hold = hold
  moves : MovesOn i g g'

/-- A uniform register has been marked empty; S0 never is (R110). -/
def Emptied (g g' : Group) (r : Nat) : Prop := if r = 0 then g'.sreg 0 = g.sreg 0 else g'.sreg r = { g.sreg r with ready := none }

/-- A per-group instruction has written one uniform register, full `lat` cc after issue; a write to S0 is dropped (R107, R122). -/
structure WroteUniform (i : Instr) (s : State) (g g' : Group) (p : Plan) (sd lat : Nat) (v : Word) : Prop where
  value : g'.s sd = if sd = 0 then 0 else v
  full : sd ≠ 0 → g'.sreg sd = ⟨v, some (s.now + lat), false⟩
  freed : ∀ n, n ∈ lastNames p.srcs → g'.preg? n = none
  regs : KeepsRegs g g' (touchedV p) [sd] []
  zero : g'.sreg 0 = g.sreg 0
  flags : g'.fflags = g.fflags
  keeps : KeepsGroup g g'
  work : KeepsWork g g'
  moves : MovesOn i g g'

/-- An instruction has written the lanes `m` of a predicate, the other lanes keeping their bits. -/
structure WrotePredicate (i : Instr) (g g' : Group) (p : Plan) (pd : Nat) (m bits : LaneMask) : Prop where
  value : ∀ l, l < 64 → (g'.p pd).getLsbD l = if m.getLsbD l then bits.getLsbD l else (g.p pd).getLsbD l
  freed : ∀ n, n ∈ lastNames p.srcs → g'.preg? n = none
  regs : KeepsRegs g g' (touchedV p) [] [pd]
  keeps : KeepsGroup g g'
  work : KeepsWork g g'
  moves : MovesOn i g g'

/-! ### Control, faults and the parts of the machine -/

/-- The signature with which a control instruction compares its own (R132). -/
def ctlSig (g : Group) (i : Instr) (c : Ctl) : BitVec 16 := crcBits 16 (maskWord g (c.popped g)).toNat (shiftMajor g.sig (majorOf i))

/-- The group `g` issues the control instruction: it waits for nothing, its condition is full, its check of the mask stack passes, and
its signature agrees or is not compared (R110, R129, R132, R133). -/
structure CtlIssues (s : State) (g : Group) (i : Instr) (f : CF) (c : Ctl) : Prop where
  issuing : s.issuing = some g
  alive : g.live ≠ 0
  free : g.hold = .none ∧ g.retryAt ≤ s.now
  cond : f.ce = true → g.pFull s.now f.cp.toNat = true
  stack : c.check g = none
  signature : g.taken = true ∨ g.poFirst = true ∨ ctlSig g i c = f.sig

/-- What every control instruction leaves of its group: the registers, the flags and the place; its signature starts again (R132). -/
structure AfterCtl (g g' : Group) : Prop where
  regs : KeepsRegs g g' [] [] []
  flags : g'.fflags = g.fflags
  sig : g'.sig = 0xFFFF
  dead : g'.dead = g.dead
  place : g'.core = g.core ∧ g'.quadrant = g.quadrant ∧ g'.slot = g.slot ∧ g'.team = g.team ∧ g'.launch = g.launch ∧
    g'.part = g.part ∧ g'.width = g.width ∧ g'.life = g.life
  counts : g'.replays = g.replays ∧ g'.outst = g.outst ∧ g'.depths = g.depths

/-- Memory after bytes were written from an address up: those bytes, and every other byte as before. -/
def WroteBytes (s t : State) (a : Nat) (bs : List Byte) : Prop :=
  ∀ x, Memory.get t.mem x = if a ≤ x ∧ x < a + bs.length then bs.getD (x - a) 0 else Memory.get s.mem x

/-- Every partition but `p` is as it was. -/
def OtherParts (s t : State) (p : Nat) : Prop := (t.parts.filter fun q => q.num != p) = s.parts.filter fun q => q.num != p

/-- A group of the machine after an event that leaves its work as it was: only what it waits for may have changed. -/
def SameWork (g g' : Group) : Prop :=
  g'.pc = g.pc ∧ g'.active = g.active ∧ g'.live = g.live ∧ g'.stack = g.stack ∧ g'.cur = g.cur ∧ g'.preds = g.preds ∧ g'.life = g.life ∧
    g'.team = g.team ∧ g'.launch = g.launch ∧ g'.part = g.part

/-- Every group of a team of another launch keeps its work; no group of this launch has its identifier. -/
def OtherLaunches (s t : State) (lid : Nat) : Prop :=
  ∀ k g, s.grp? k = some g → (∀ x, x ∈ s.groups → x.gid = k → x.launch ≠ lid) → (∀ x, x ∈ s.teams → x.tid = g.team → x.launch ≠ lid) →
    ∃ g', t.grp? k = some g' ∧ SameWork g g'

/-- Every group keeps its work. -/
def KeepsWorkOfAll (s t : State) : Prop := ∀ k g, s.grp? k = some g → ∃ g', t.grp? k = some g' ∧ SameWork g g'

/-- The launch has ended: no saved team of it waits, and a group of it is resident only with no live lane, while the launch's counter cannot
take what it has outstanding (R50, R362). -/
def LaunchEnded (t : State) (lid : Nat) : Prop :=
  (∀ x, x ∈ t.groups → x.launch = lid → x.life = .resident →
    x.live = 0 ∧ x.active = 0 ∧ x.hold = .none ∧ ctrTakes t x.core lid x.outst = false) ∧ (∀ x, x ∈ t.teams → x.launch = lid → x.status ≠ .saved) ∧
    ∀ l, l ∈ t.launches → l.lid = lid → l.ended = true

/-- Nothing of the launch goes on, and the launch has ended (R355, R362). -/
def LaunchStopped (t : State) (lid : Nat) : Prop :=
  (∀ x, x ∈ t.groups → x.launch = lid → x.life = .resident → x.live = 0) ∧ ∀ l, l ∈ t.launches → l.lid = lid → l.ended = true

/-- A cause has ended the launch of a group whose instruction has done nothing (R6): what is left of the group is as it was before it, and
no request, command or instruction has been sent. -/
structure StopsAsItWas (s t : State) (g : Group) : Prop where
  launch : LaunchStopped t g.launch
  others : OtherLaunches s t g.launch
  group : ∀ g', t.grp? g.gid = some g' → g'.pc = g.pc ∧ g'.preds = g.preds ∧ g'.stack = g.stack ∧ g'.fflags = g.fflags ∧ g'.sig = g.sig ∧
    g'.depths = g.depths
  uniforms : (∀ q d size signed take, q ∈ s.reqs → q.op = .fe d size signed take → ∃ pids l, d = .lane pids l) →
    ∀ g', t.grp? g.gid = some g' → g'.sregs = g.sregs
  requests : ∀ r, r ∈ t.reqs → ∃ q, q ∈ s.reqs ∧ q.id = r.id
  commands : t.copies = s.copies ∧ t.mxcmds = s.mxcmds ∧ t.fords.map FordOp.id = s.fords.map FordOp.id

/-- The request of an identifier. -/
def State.req? (s : State) (id : Nat) : Option Req := s.reqs.find? fun r => r.id == id

/-- The values `vals` have landed in lane `l` of the registers `pids` of the request's group (R245): the other lanes and the tag stay, and
a register that waited for this lane only is full. -/
def Landed (s t : State) (r : Req) (pids : List Nat) (l : Nat) (vals : List Lane) : Prop :=
  ∀ g, s.grp? r.gid = some g → ∃ g', t.grp? r.gid = some g' ∧ SameWork g g' ∧
    ∀ k pid x, pids.Nodup → pids[k]? = some pid → (g.pregs.find? fun y => y.id == pid) = some x → x.merge = none → x.orphan = false →
      ∃ y, (g'.pregs.find? fun y => y.id == pid) = some y ∧ laneOf y.lanes l = vals.getD k 0 ∧
        (∀ m, m ≠ l → laneOf y.lanes m = laneOf x.lanes m) ∧ y.tag = x.tag ∧ y.ready = if x.pend ≤ 1 then some s.now else none

/-- The request of group accesses is answered: it is in flight no more. -/
def Answered (t : State) (r : Req) : Prop := ∀ q, q ∈ t.reqs → q.id ≠ r.id

/-- No byte lies in a word of a fault queue that only the device writes (R4, R358, R359). -/
def Writable (s : State) (a n : Nat) : Prop := ∀ i, i < n → fqKept s (a + i) = false

/-- The bytes are no reply word that a group is parked on (R366). -/
def NoReply (s : State) (a n : Nat) : Prop :=
  ∀ q, q ∈ s.groups → ∀ k, q.hold = .page k → ¬(a < replyAddr (s.part q.part) k + 8 ∧ replyAddr (s.part q.part) k < a + n)

/-- No wait is parked on a word that the bytes touch (R283). -/
def NoWait (s : State) (a n : Nat) : Prop :=
  ∀ q, q ∈ s.reqs → ∀ v rem k p rest, q.op = .waitGe v rem → q.phase = .parked k → q.pieces = p :: rest →
    q.sp = true ∨ ¬(a < p.addr + 8 ∧ p.addr < a + n)

/-- Waits that are parked, of those which `on` names, on the counter at `w` that now holds `v` (R283): each whose target it meets is satisfied
and its group goes on, and the others stay parked. -/
def WaitsWoken (s t : State) (on : Req → Prop) (w : Nat) (v : Word) : Prop :=
  ∀ q target rem k x more, q ∈ s.reqs → (∀ o, o ∈ s.reqs → o.id = q.id → o = q) → q.op = .waitGe target rem → q.phase = .parked k →
    on q → q.pieces = x :: more → x.addr = w →
    if target.toNat ≤ v.toNat then
      Answered t q ∧ ∀ g, s.grp? q.gid = some g → ∃ g', t.grp? q.gid = some g' ∧ SameWork g g' ∧ g'.hold = .none
    else q ∈ t.reqs

/-- A parked lane of a `.fe` load completes (R239, R283): it is answered, and its lane holds what the scratchpad `tm` holds at its offset,
where no other request of its group would write that lane of those registers. -/
def Completes (s t : State) (q : Req) (tm : Team) : Prop :=
  (∀ o, o ∈ s.reqs → o.id = q.id → o = q) → Answered t q ∧
    ∀ pids l size signed take x more g, q.op = .fe (.lane pids l) size signed take → q.pieces = x :: more → pids.Nodup →
      (∀ o ps m n b c, o ∈ s.reqs → o.gid = q.gid → o ≠ q → o.op = .fe (.lane ps m) n b c → m ≠ l) →
      s.grp? q.gid = some g → ∃ g', t.grp? q.gid = some g' ∧ SameWork g g' ∧
        ∀ k pid y, pids[k]? = some pid → (g.pregs.find? fun z => z.id == pid) = some y → y.merge = none → y.orphan = false →
          ∃ z, (g'.pregs.find? fun z => z.id == pid) = some z ∧
            laneOf z.lanes l = (widenLanes size signed (Memory.bytes tm.sp x.addr x.len)).getD k 0

/-- Every byte may be written (R4), no wait is parked there, and no group on a reply word. -/
def NoWaiter (s : State) (a n : Nat) : Prop := Writable s a n ∧ NoReply s a n ∧ NoWait s a n

/-- Some bytes have been written to device memory and nothing else has happened, but that copies of what was there are invalid (R66,
R231). -/
structure OnlyWrote (s t : State) (a : Nat) (bs : List Byte) : Prop where
  bytes : WroteBytes s t a bs
  rest : t = { s with mem := t.mem, tlb := t.tlb, ilines := t.ilines, presT := t.presT, presC := t.presC }

/-- The machine with a launch at the tail of its class queue, under the next identifier and the next serial of its partition (R45,
R359); `f` is what else changes of the partition. -/
def State.withLaunch (s : State) (p : Nat) (l : Launch) (f : Part → Part) : State :=
  { s with
    launches := s.launches ++ [{ l with lid := s.nextId, serial := some (s.part p).entered }]
    nextId := s.nextId + 1
    parts := s.parts.map fun q =>
      if q.num = p then
        { f q with entered := q.entered + 1, queues := q.queues.modify l.cls fun es => es ++ [.launch s.nextId] }
      else q }

/-- The head's slot of a command queue is free again (R38). -/
def Part.nextCommand (q : Part) : Part := { q with cmdHead := (q.cmdHead + 1) % 128, cmdCount := q.cmdCount - 1 }

/-- A port entry is answered with a value and is free (R42); the answer of a group that has left is dropped. -/
def State.answerPort (s : State) (e : PortEntry) (v : Nat) : State :=
  { s with
    ports := s.ports.filter fun x => x.id != e.id
    groups := if e.drop then s.groups else s.groups.map fun g => if g.gid = e.gid then g.setS s.now e.sd (BitVec.ofNat 64 v) else g }

/-- A group as it stands before its first instruction (R23, R107): at the kernel's entry with all its lanes live and active, the
launch's arguments in S1 and up, every other uniform register and every predicate zero, no name mapped, an empty mask stack. -/
structure AtEntry (g : Group) (l : Launch) : Prop where
  pc : g.pc = l.hdr.codebase + l.hdr.entry
  lanes : g.width = l.hdr.width ∧ g.active = laneMask l.hdr.width ∧ g.live = laneMask l.hdr.width ∧ g.dead = 0
  uniforms : ∀ r, r < 64 → g.s r = if r = 0 then 0 else l.args.getD (r - 1) 0
  predicates : ∀ r, g.p r = 0
  names : g.cur = [] ∧ g.ent = [] ∧ g.resv = l.hdr.entryfp
  control : g.stack = [] ∧ g.sig = 0xFFFF ∧ g.fflags = 0 ∧ g.replays = 0 ∧ g.outst = 0
  resident : g.life = .resident ∧ g.hold = .none

/-- A group as a discard saves it (R374): at the start of its region, with the state of its checkpoint, the lanes that died since being
dead. -/
structure SavedFrom (g g' : Group) : Prop where
  life : g'.life = .saved
  place : g'.pc = g.regionStart ∧ g'.cur = g.ent ∧ g'.ent = g.ent
  ckpt : g'.preds = g.ckpt.preds ∧ g'.stack = g.ckpt.stack ∧ g'.sig = g.ckpt.sig ∧ g'.depths = g.ckpt.depths
  lanes : g'.active = g.ckpt.active &&& ~~~g.dead ∧ g'.live = g.ckpt.live &&& ~~~g.dead ∧ g'.dead = g.dead
  rest : g'.fflags = g.fflags ∧ g'.replays = g.replays ∧ g'.outst = 0 ∧ g'.groupId = g.groupId ∧ g'.team = g.team

/-- The cores, or pairs of cores, of a partition on which a team could stand, rising (R18, R62). -/
def sitesOf (q : Part) (n : Incoming) : List (List Nat) :=
  let pairs := (List.range 96).filter fun x => q.pairs.getLsbD x
  if n.teamSize ≤ 1536 then pairs.flatMap fun x => [[2 * x], [2 * x + 1]] else pairs.map fun x => [2 * x, 2 * x + 1]

/-- Every core of a site takes the groups that would stand on it, and its engine the team's shares (R46, R58, R61, R254). -/
def fitsOn (s : State) (n : Incoming) (site : List Nat) : Bool :=
  ((site.zip n.halves).all fun c => coreFits s c.1 n c.2) && sharesFit s (pairOfCore (site.headD 0)) n

/-- `vs` is the list of R47 item 1 for a site: the resident teams of the partition of classes below `c` on it, lowest class first, then the
youngest launch, then the highest `team_id`; a team whose groups have all exited is none (log entry 87). -/
def VictimsOf (s : State) (p c : Nat) (site : List Nat) (vs : List Team) : Prop :=
  let cls := fun (t : Team) => ((s.launch? t.launch).map Launch.cls).getD 0
  (∀ t, t ∈ vs ↔ t ∈ s.teams ∧ t.part = p ∧ (t.status = .placed ∨ t.status = .restoring) ∧ cls t < c ∧ (∃ x, x ∈ t.cores ∧ x ∈ site) ∧
    ∃ g, g ∈ s.groups ∧ g.team = t.tid ∧ g.life = .resident) ∧
  vs.Pairwise fun a b => cls a < cls b ∨ (cls a = cls b ∧ (b.launch < a.launch ∨ (b.launch = a.launch ∧ b.teamId < a.teamId)))

/-- The head `n` of class `c` waits: no place takes it, and either a team of the partition is stopping already (log entry 37) or no site would
take it whatever lower teams were discarded there (R46, R47). -/
def Waits (s : State) (p c : Nat) (n : Incoming) : Prop :=
  places s (s.part p) n = [] ∧
  ((∃ x, x ∈ s.teams ∧ x.part = p ∧ x.status = .discarding) ∨
    ∀ site vs k, site ∈ sitesOf (s.part p) n → VictimsOf s p c site vs → k ≤ vs.length → fitsOn (without (vs.take k) s) n site = false)

/-- Admission comes to class `c`: the partition runs, no team of it has loads to issue again, and every higher class is empty or its head
waits. -/
structure ServesClass (s : State) (p c : Nat) : Prop where
  running : (s.part p).state = .running ∧ s.mgmt.stopped = false ∧ c ≤ 3
  settled : ∀ x, x ∈ s.teams → x.part = p → x.status ≠ .restoring
  teams : (s.teams.map Team.tid).Nodup ∧
    ∀ x y, x ∈ s.teams → y ∈ s.teams → x.launch = y.launch → x.teamId = y.teamId → x = y
  higher : ∀ k, c < k → k ≤ 3 → ∀ e es h, (s.part p).queues.getD k [] = e :: es → headOf s e = some h → Waits s p k (h.incoming s)

/-- The tables of a team's cores and of their pair take all the loads that it owes (R258, R281). -/
def OwedFit (s : State) (tm : Team) (cores : List Nat) : Prop :=
  (∀ o, o ∈ tm.owed → ∃ g, s.grp? o.1 = some g ∧ g.team = tm.tid) ∧
  ∀ c, c ∈ cores → waitTable s c + tm.owed.length ≤ 64 ∧ s.scores.countP (fun e => e.pair == pairOfCore c) + tm.owed.length ≤ 64

/-- A load lane that a team owed is on its way again (R374, R376). -/
def Reissued (t : State) (tm : Team) (o : Nat × OwedFe) : Prop :=
  ∃ r, r ∈ t.reqs ∧ r.gid = o.1 ∧ r.lane = o.2.lane ∧ r.sp = true ∧ r.team = tm.tid ∧ r.pieces = [⟨o.2.addr, o.2.len, false, false⟩] ∧
    r.op = .fe (.lane o.2.pids o.2.lane) o.2.size o.2.signed o.2.take ∧ r.phase = .flying ∧ r.wt = true

/-- A partition after one more event of a class, and what is sent (R52, R53): the message goes where the count reaches the threshold, the
endpoint can be reached through a ready port, and the partition is not resetting (but for class 1); it clears the count and stops the timer.
Else the count stands one higher, up to 65,535, and the first event starts the timer. For classes other than 0. -/
def afterEvent (s : State) (cls : Nat) (q : Part) : Part × List HostMsg :=
  match q.events[cls]? with
  | none => (q, [])
  | some e =>
    let n := min (e.count + 1) 65535
    if e.threshold ≤ n ∧ portReady s = true ∧ q.reachable = true ∧ (q.state = .resetting → cls = 1) then
      ({ q with events := q.events.set cls { e with count := 0, timer := none } }, [eventMsg q.num cls n 0])
    else
      ({ q with events := q.events.set cls { e with count := n, timer := if e.count = 0 then some e.period else e.timer } }, [])

/-- Partition `p` stands at place `p`. -/
def Numbered (s : State) : Prop := ∀ (p : Nat) (q : Part), s.parts[p]? = some q → q.num = p

/-- Every configured partition has had one event of a class, and nothing else of the partitions and the messages has changed (R404, R408). -/
def NoticeInAll (s t : State) (cls : Nat) : Prop :=
  let told := fun (q : Part) => if q.num < 8 ∧ q.state ≠ .none then afterEvent s cls q else (q, [])
  t.parts = s.parts.map (fun q => (told q).1) ∧ t.outbox = s.outbox ++ s.parts.flatMap fun q => (told q).2

/-- A command has completed (R49, R253, R258): it has no scoreboard entry any more, and the count of its group, which is on its core, has
fallen by one. -/
structure CommandDone (s t : State) (gid id : Nat) : Prop where
  scores : t.scores = s.scores.filter fun e => e.cmd != some id
  count : ∀ g, s.grp? gid = some g → g.life = .resident → (∀ x, x ∈ s.groups → x.core = g.core → x.live ≠ 0) →
    t.groups = s.groups.map fun x => if x.gid = gid then { x with outst := x.outst - 1 } else x
  memory : t.mem = s.mem

/-- The groups of the machine after one has had an answer in some uniform registers and goes on where it waited in the way `h`; an answer
that is dropped leaves them as they are. -/
def State.groupsTold (s : State) (drop : Bool) (gid : Nat) (h : Hold) (vs : List (Nat × Word)) : List Group :=
  if drop then s.groups
  else s.groups.map fun g =>
    if g.gid = gid then
      let g := vs.foldl (fun g v => g.setS s.now v.1 v.2) g
      if g.hold = h then { g with hold := .none } else g
    else g

/-- Two ranges of bytes have no byte in common. -/
def Apart (a n b m : Nat) : Prop := a + n ≤ b ∨ b + m ≤ a

/-- The group of a request has had values in uniform registers; the others, and its work, are as they were. An answer that is dropped says
nothing. -/
def Told (s t : State) (r : Req) (vs : List (Nat × Word)) : Prop :=
  r.drop = false → (vs.map Prod.fst).Nodup → ∀ g, s.grp? r.gid = some g → ∃ g', t.grp? r.gid = some g' ∧ SameWork g g' ∧
    (∀ v, v ∈ vs → v.1 ≠ 0 → g'.sreg v.1 = ⟨v.2, some s.now, false⟩) ∧ ∀ x, x ∉ vs.map Prod.fst → g'.sreg x = g.sreg x

/-- The word of device memory at an address, as it stands. -/
def memWord (s : State) (a : Nat) : Word := BitVec.ofNat 64 (bytesNat (Memory.bytes s.mem a 8))

/-- `n` words of device memory. -/
def memWords (s : State) (a n : Nat) : List Word := (List.range n).map fun k => memWord s (a + 8 * k)

/-- Every aligned word of device memory outside the given places, each with a number of bytes, is as it was. -/
def WordsKept (s t : State) (places : List (Nat × Nat)) : Prop :=
  ∀ a, a % 8 = 0 → (∀ p, p ∈ places → Apart a 8 p.1 p.2) → memWord t a = memWord s a

/-- `u` differs from `s` in what the bytes of some places hold, and in caches from which translations may have gone; every check code is
good. -/
structure Rewrote (s u : State) (places : List (Nat × Nat)) : Prop where
  parts : u.parts = s.parts
  syn : u.syn = []
  tlb : u.tlb.Sublist s.tlb
  bytes : ∀ x, (∀ p, p ∈ places → x < p.1 ∨ p.1 + p.2 ≤ x) → Memory.get u.mem x = Memory.get s.mem x

/-- The header and the nodes of a tree lie apart, each node at `at_`, whatever they hold: no table that translates them lies among them. -/
def Laid (s : State) (o : FordOp) (h : THead) (at_ : Nat → Nat) : Prop :=
  NoWaiter s o.pa 64 ∧ ∀ i, i < h.cap → NoWaiter s (at_ i) 32 ∧ Apart (at_ i) 32 o.pa 64 ∧
    (∀ j, j < h.cap → j ≠ i → Apart (at_ i) 32 (at_ j) 32) ∧
    ∀ u, Rewrote s u ((o.pa, 64) :: (List.range h.cap).map fun j => (at_ j, 32)) → nodeLoc u o h i = .ok (at_ i)

/-- The nodes of a tree that lies at `at_` hold `f` where it gives one, and else what they held; of its header only some words have changed,
and of the rest of memory nothing. -/
structure TreeIs (s t : State) (o : FordOp) (h : THead) (at_ : Nat → Nat) (f : Nat → Option TNode) (words : List (Nat × Word)) : Prop where
  nodes : ∀ i, i < h.cap → Memory.bytes t.mem (at_ i) 32 = match f i with
    | some n => n.bytes
    | none => Memory.bytes s.mem (at_ i) 32
  head : ∀ k, k < 8 → memWord t (o.pa + 8 * k) = (words.lookup k).getD (memWord s (o.pa + 8 * k))
  rest : ∀ x, (x < o.pa ∨ o.pa + 64 ≤ x) → (∀ i, i < h.cap → x < at_ i ∨ at_ i + 32 ≤ x) → Memory.get t.mem x = Memory.get s.mem x

/-- The slices that the next action of a Ford instruction reaches take work (R383, R405). -/
def FordServed (s : State) (o : FordOp) (vas : List Nat) : Prop :=
  awake s o.pa 64 = true ∧ awakeWords s ((fordReads s o vas).1 ++ (fordReads s o vas).2) = true

/-- What a collective record leads to lies apart from it and from each other: the result at `ra`, the done counter at `da`, the entries of
the peer table that the device uses, whatever these places hold. -/
structure FabLaid (s : State) (p pa : Nat) (h : FRec) (ra da : Nat) (peers : Nat → Word × Word) : Prop where
  apart : Apart ra (h.elems * h.size) pa 64 ∧ Apart da 8 pa 64 ∧ Apart ra (h.elems * h.size) da 8
  free : NoWaiter s pa 64 ∧ NoWaiter s ra (h.elems * h.size) ∧ NoWaiter s da 8
  room : (memWord s da).toNat + 1 < 2 ^ 64
  steady : ∀ u, Rewrote s u [(pa, 64), (ra, h.elems * h.size), (da, 8)] →
    vaSpans u p needW 3 h.result (h.elems * h.size) = .ok [(ra, h.elems * h.size)] ∧
    (∃ e, translate u 0 none p h.doneVa needRW = .ok da e) ∧ ∀ k, k ∈ h.peerNumbers → peerEntry u p h k = some (peers k)

/-- A round has been delivered on the device (R390, R391, R393): the result is written, the record stands at the next round with nothing
arrived and with `bits` in its w7, the done counter is one higher, every child has been sent the result, and the round's context and the
instructions that contributed are gone, with the request `own`. -/
structure Delivered (s t : State) (p pa : Nat) (h : FRec) (ra da : Nat) (peers : Nat → Word × Word) (bs : List Byte) (bits : Word)
    (own : Option Nat) : Prop where
  result : Memory.bytes t.mem ra (h.elems * h.size) = bs
  record : memWord t (pa + 24) = h.round + 1 ∧ memWord t (pa + 40) = 0 ∧ memWord t (pa + 48) = 0 ∧
    memWord t (pa + 56) = memWord s (pa + 56) ||| bits
  done : memWord t da = memWord s da + 1
  rest : ∀ x, (x < ra ∨ ra + h.elems * h.size ≤ x) → (x < da ∨ da + 8 ≤ x) → (x < pa + 24 ∨ (pa + 32 ≤ x ∧ x < pa + 40) ∨ pa + 64 ≤ x) →
    Memory.get t.mem x = Memory.get s.mem x
  sent : t.outbox = s.outbox ++ (List.range h.children).map fun k => .resultOut (peers k).1 p (peers k).2 h.round bs
  contexts : ∀ c, c ∈ t.fabs ↔ c ∈ s.fabs ∧ ¬(c.part = p ∧ c.pa = pa)
  requests : ∀ q, q ∈ t.reqs ↔ q ∈ s.reqs ∧ contributedTo p pa q = false ∧ own ≠ some q.id

/-- The measurement registers after a command (R402): the configuration of partition p extends register 4 + p/2 with the digest of its
record. -/
def measuredBy (ms : List (BitVec 384)) : Instr → List (BitVec 384)
  | .configurePartition p record _ _ =>
    ms.modify (4 + p / 2) fun r => BitVec.ofNat 384 (bytesNat (sha384 (natBytes 48 r.toNat ++ sha384 (wordsBytes record))))
  | _ => ms

end Sys2Proof.Machine
end

