-- ==== Sys2Proof/Results.lean ====
section
/-! DEFINITION. What the spec's tables give each instruction as its result: the operands of a lane or a group, and the value computed from
them, in terms of integers and bits. Claims compare the machine with these. -/

namespace Sys2Proof.Machine

/-- A lane-wise instruction as R136 describes it: header, type, whether SAT asks for clamping, destination, the operands A, B and C as
lane l reads them, the tag of the destination, its vector sources, and the registers with lanes that it reads besides. -/
structure LaneOp where
  h : Hdr
  type : BitVec 4
  sat : Bool
  pair : Bool
  vd : Nat
  args : Group → Nat → List Word
  tag : Group → BitVec 4
  srcs : List VSrc
  more : Group → Nat → List (Nat × Nat) := fun _ _ => []

/-- The registers, each with the lane of it, that lane `l` reads through its vector sources (R94, R151). -/
def LaneOp.reads (o : LaneOp) (g : Group) (l : Nat) : List (Nat × Nat) :=
  (o.srcs.flatMap fun x => match x.laneFor g l with
    | some m => x.names.map fun n => (n, m)
    | none => []) ++ o.more g l

/-- VR with two sources (R77, R136). -/
def laneVR (h : Hdr) (f : VR) : LaneOp :=
  ⟨h, f.type, f.sat, isPairType f.type, f.vd.toNat, fun g l => [(vrA f).read g l, (vrB f).read g l], tagOr f.type f.va.toNat,
    [vrA f, vrB f], fun _ _ => []⟩

/-- VR with one source, read through vb (R78). -/
def laneVR1 (h : Hdr) (f : VR) : LaneOp :=
  ⟨h, f.type, f.sat, isPairType f.type, f.vd.toNat, fun g l => [(vrB f).read g l], fun _ => f.type, [vrB f],
    fun _ _ => []⟩

/-- VI: the immediate is B (R79, R136). -/
def laneVI (h : Hdr) (f : VI) : LaneOp :=
  ⟨h, f.type, f.sat, isPairType f.type, f.vd.toNat,
    fun g l => [(srcA f.va f.lra f.eba f.type).read g l, viOperand f.type f.imm f.ik], tagOr f.type f.va.toNat,
    [srcA f.va f.lra f.eba f.type], fun _ _ => []⟩

/-- VS: a uniform register is B (R80, R136). -/
def laneVS (h : Hdr) (f : VS) : LaneOp :=
  ⟨h, f.type, f.sat, isPairType f.type, f.vd.toNat,
    fun g l => [(srcA f.va f.lra f.eba f.type).read g l, uniOperand f.type (g.s f.sb.toNat)], tagOr f.type f.va.toNat,
    [srcA f.va f.lra f.eba f.type], fun _ _ => []⟩

/-- V3 with three sources (R81). -/
def laneV3 (h : Hdr) (f : V3) : LaneOp :=
  ⟨h, f.type, f.sat, isPairType f.type, f.vd.toNat, fun g l => (v3Srcs f).map fun x => x.read g l, tagOr f.type f.va.toNat, v3Srcs f,
    fun _ _ => []⟩

/-! ### Integers (R137) -/

/-- B's element as an unsigned number: the shift count n of R137. -/
def countOf (w : Nat) (y : Int) : Nat := (y % (2 ^ w : Int)).toNat

/-- x ÷ 2^n rounded to an integer by the rounding code of R96: to nearest with ties to even, toward zero, up, down, to nearest with ties
away from zero. -/
def roundShift (rnd : Nat) (x : Int) (n : Nat) : Int :=
  let d : Int := 2 ^ n
  let q := x / d
  let r := x % d
  match rnd with
  | 0 => if 2 * r < d || (2 * r == d && q % 2 == 0) then q else q + 1
  | 1 => if x < 0 && r != 0 then q + 1 else q
  | 2 => if r = 0 then q else q + 1
  | 3 => q
  | _ => if 2 * r < d || (2 * r == d && x < 0) then q else q + 1

/-- The exact values of R137, of the signedness, the element width and the elements x, y and z. -/
inductive IntOp where
  | add | sub | rsub | mul | mulhi | min | max | abs | neg | adiff | div | rem | shl | shr | rshr (rnd : Nat) | mad
  deriving DecidableEq, Repr

/-- The table of R137. A one-source instruction has its source in place of x. -/
def IntOp.exact (o : IntOp) (signed : Bool) (w : Nat) (x y z : Int) : Int :=
  match o with
  | .add => x + y
  | .sub => x - y
  | .rsub => y - x
  | .mul => x * y
  | .mulhi => x * y / 2 ^ w
  | .min => Min.min x y
  | .max => Max.max x y
  | .abs => (x.natAbs : Int)
  | .neg => -x
  | .adiff => ((x - y).natAbs : Int)
  | .div => if y = 0 then (if 0 ≤ x then hiOf signed w else loOf signed w) else Int.tdiv x y
  | .rem => if y = 0 then x else x - y * Int.tdiv x y
  | .shl => x * 2 ^ countOf w y
  | .shr => x / 2 ^ countOf w y
  | .rshr rnd => roundShift rnd x (countOf w y)
  | .mad => x * y + z

/-- The lane-wise integer instructions (R137, R139). -/
def intLaneOp (i : Instr) : Option (LaneOp × IntOp) :=
  match i with
  | .addVr h f => some (laneVR h f, .add)
  | .subVr h f => some (laneVR h f, .sub)
  | .mulVr h f => some (laneVR h f, .mul)
  | .mulhi h f => some ({ laneVR h f with sat := false }, .mulhi)
  | .minVr h f => some ({ laneVR h f with sat := false }, .min)
  | .maxVr h f => some ({ laneVR h f with sat := false }, .max)
  | .abs h f => some (laneVR1 h f, .abs)
  | .neg h f => some (laneVR1 h f, .neg)
  | .div h f => some (laneVR h f, .div)
  | .rem h f => some ({ laneVR h f with sat := false }, .rem)
  | .shlVr h f => some (laneVR h f, .shl)
  | .shrVr h f => some ({ laneVR h f with sat := false }, .shr)
  | .rshrVr h f => some ({ laneVR h f with sat := false }, .rshr f.rnd.toNat)
  | .adiff h f => some ({ laneVR h f with sat := false, tag := fun _ => unsignedOf f.type }, .adiff)
  | .mad h f => some (laneV3 h f, .mad)
  | .addVi h f => some (laneVI h f, .add)
  | .rsub h f => some (laneVI h f, .rsub)
  | .mulVi h f => some (laneVI h f, .mul)
  | .shlVi h f => some (laneVI h f, .shl)
  | .shrVi h f => some ({ laneVI h f with sat := false }, .shr)
  | .rshrVi h f => some ({ laneVI h f with sat := false }, .rshr f.rnd.toNat)
  | .minVi h f => some ({ laneVI h f with sat := false }, .min)
  | .maxVi h f => some ({ laneVI h f with sat := false }, .max)
  | .addVs h f => some (laneVS h f, .add)
  | .subVs h f => some (laneVS h f, .sub)
  | .mulVs h f => some (laneVS h f, .mul)
  | .shlVs h f => some (laneVS h f, .shl)
  | .shrVs h f => some ({ laneVS h f with sat := false }, .shr)
  | .minVs h f => some ({ laneVS h f with sat := false }, .min)
  | .maxVs h f => some ({ laneVS h f with sat := false }, .max)
  | _ => none

/-- Element `e` of operand `k` as a number of the type (R136). -/
def LaneOp.elem (o : LaneOp) (g : Group) (l k e : Nat) : Int :=
  readInt (isSigned o.type) (elemW o.type) (elemNat (elemW o.type) ((o.args g l).getD k 0) e)

/-! ### Bits (R143 to R149) -/

/-- How many of the `n` low bits of `v` are set. -/
def onesBelow (v : Word) (n : Nat) : Nat := ((List.range n).filter fun i => v.getLsbD i).length

/-- Bit `q` of the result of a bitwise instruction of operand width `w` over A, B and C (R143 to R149); none for counts. -/
inductive BitOp where
  | and | or | xor | andn | not | popc | clz | ctz | brev | bdep | bext | bperm | gfmat | bfx (signed : Bool) (pos len : Nat) | bfi
  deriving DecidableEq, Repr

/-- Bit `q` of the result (R143 to R149). A one-source instruction has its source in place of A. -/
def BitOp.bit (o : BitOp) (w : Nat) (a b c : Word) (q : Nat) : Bool :=
  match o with
  | .and => a.getLsbD q && b.getLsbD q
  | .or => a.getLsbD q || b.getLsbD q
  | .xor => a.getLsbD q ^^ b.getLsbD q
  | .andn => a.getLsbD q && !b.getLsbD q
  | .not => !a.getLsbD q
  | .popc => (onesBelow a w).testBit q
  | .clz => (((List.range w).find? fun k => a.getLsbD (w - 1 - k)).getD w).testBit q
  | .ctz => (((List.range w).find? fun k => a.getLsbD k).getD w).testBit q
  | .brev => a.getLsbD (w - 1 - q)
  | .bdep => b.getLsbD q && a.getLsbD (onesBelow b q)
  | .bext => match ((List.range w).filter fun i => b.getLsbD i)[q]? with
    | some i => a.getLsbD i
    | none => false
  | .bperm =>
    let j := 8 * (b.toNat / 2 ^ (3 * (q / 8)) % 8) + q % 8
    a.getLsbD (8 * (j / 8) + b.toNat / 2 ^ (24 + 3 * (j % 8)) % 8)
  | .gfmat => (((List.range 8).filter fun j => a.getLsbD (8 * (q / 8) + j) && b.getLsbD (8 * (q % 8) + j)).length) % 2 == 1
  | .bfx signed pos len => if q < len then a.getLsbD (pos + q) else signed && a.getLsbD (pos + len - 1)
  | .bfi =>
    let pos := c.toNat % 64
    let len := c.toNat / 2 ^ 8 % 64
    if pos ≤ q && q < pos + len then b.getLsbD (q - pos) else a.getLsbD q

/-- The tag of a raw result: that of source A (R143, R145 to R149), or of vb for one source (R78). -/
def rawTag (t : BitVec 4) (src : Nat) : Group → BitVec 4 := tagOr t src

/-- The lane-wise bit instructions (R143 to R149). -/
def bitLaneOp (i : Instr) : Option (LaneOp × BitOp) :=
  match i with
  | .andVr h f => some (laneVR h f, .and)
  | .orVr h f => some (laneVR h f, .or)
  | .xorVr h f => some (laneVR h f, .xor)
  | .andn h f => some (laneVR h f, .andn)
  | .notVr h f => some ({ laneVR1 h f with tag := rawTag f.type f.vb.toNat }, .not)
  | .andVi h f => some (laneVI h f, .and)
  | .orVi h f => some (laneVI h f, .or)
  | .xorVi h f => some (laneVI h f, .xor)
  | .andVs h f => some (laneVS h f, .and)
  | .orVs h f => some (laneVS h f, .or)
  | .xorVs h f => some (laneVS h f, .xor)
  | .popc h f => some ({ laneVR1 h f with tag := fun _ => if f.type = 12 then 8 else 6 }, .popc)
  | .clz h f => some ({ laneVR1 h f with tag := fun _ => if f.type = 12 then 8 else 6 }, .clz)
  | .ctz h f => some ({ laneVR1 h f with tag := fun _ => if f.type = 12 then 8 else 6 }, .ctz)
  | .brev h f => some ({ laneVR1 h f with tag := rawTag f.type f.vb.toNat }, .brev)
  | .bdep h f => some (laneVR h f, .bdep)
  | .bext h f => some (laneVR h f, .bext)
  | .bperm h f => some (laneVR h f, .bperm)
  | .gfmat h f => some (laneVR h f, .gfmat)
  | .bfx h f => some ({ laneVI h f with tag := fun _ => f.type },
      .bfx (isSigned f.type) (f.imm.extractLsb' 0 6).toNat ((f.imm.extractLsb' 6 6).toNat + 1))
  | .bfi h f => some (laneV3 h f, .bfi)
  | _ => none

/-! ### Floating values (R188 to R195) -/

/-- The floating functions of R189 to R195 on one element: format, rounding code, and the bit patterns of A, B and C. -/
def floatElem (i : Instr) (m : Fmt) (w rnd : Nat) (xs : List Nat) : Option (Nat × FFlags) :=
  let a := m.read (xs.getD 0 0)
  let b := m.read (xs.getD 1 0)
  let c := m.read (xs.getD 2 0)
  match i with
  | .addVr _ _ => some (m.addV rnd a b)
  | .addVi _ _ => some (m.addV rnd a b)
  | .addVs _ _ => some (m.addV rnd a b)
  | .subVr _ _ => some (m.addV rnd a b.negate)
  | .subVs _ _ => some (m.addV rnd a b.negate)
  | .mulVr _ _ => some (m.mulV rnd a b)
  | .mulVi _ _ => some (m.mulV rnd a b)
  | .mulVs _ _ => some (m.mulV rnd a b)
  | .div _ _ => some (m.divV rnd a b)
  | .minVr _ _ => some (m.minmaxV false a b)
  | .minVi _ _ => some (m.minmaxV false a b)
  | .minVs _ _ => some (m.minmaxV false a b)
  | .maxVr _ _ => some (m.minmaxV true a b)
  | .maxVi _ _ => some (m.minmaxV true a b)
  | .maxVs _ _ => some (m.minmaxV true a b)
  | .abs _ _ => some (m.signV true a)
  | .neg _ _ => some (m.signV false a)
  | .fma _ _ => some (m.fmaV rnd a b c)
  | .sqrt _ _ => some (m.sqrtV rnd a)
  | .exp2 _ _ => some (m.exp2V a)
  | .log2 _ _ => some (m.log2V a)
  | .rcp _ _ => some (m.rcpV a)
  | .rsqrt _ _ => some (m.rsqrtV a)
  | .tanh _ _ => some (m.tanhV a)
  | .sigm _ _ => some (m.sigmV a)
  | .rndi _ _ => some (m.rndiV rnd a)
  | .fclass _ _ => some (2 ^ m.classBit (xs.getD 0 0), 0)
  | .scale _ _ => some (m.scaleV rnd a (readInt true w (xs.getD 1 0)))
  | .copysign _ _ => some (m.copysignV a ((xs.getD 1 0).testBit (w - 1)))
  | _ => none

/-- The lane-wise floating instructions with their rounding codes (R188, R191). SAT stands only where an entry accepts it. -/
def floatLaneOp (i : Instr) : Option (LaneOp × Nat) :=
  match i with
  | .addVr h f => some (laneVR h f, f.rnd.toNat)
  | .addVi h f => some (laneVI h f, f.rnd.toNat)
  | .addVs h f => some (laneVS h f, f.rnd.toNat)
  | .subVr h f => some (laneVR h f, f.rnd.toNat)
  | .subVs h f => some (laneVS h f, f.rnd.toNat)
  | .mulVr h f => some (laneVR h f, f.rnd.toNat)
  | .mulVi h f => some (laneVI h f, f.rnd.toNat)
  | .mulVs h f => some (laneVS h f, f.rnd.toNat)
  | .div h f => some (laneVR h f, f.rnd.toNat)
  | .minVr h f => some ({ laneVR h f with sat := false }, 0)
  | .minVi h f => some ({ laneVI h f with sat := false }, 0)
  | .minVs h f => some ({ laneVS h f with sat := false }, 0)
  | .maxVr h f => some ({ laneVR h f with sat := false }, 0)
  | .maxVi h f => some ({ laneVI h f with sat := false }, 0)
  | .maxVs h f => some ({ laneVS h f with sat := false }, 0)
  | .abs h f => some (laneVR1 h f, 0)
  | .neg h f => some (laneVR1 h f, 0)
  | .fma h f => some (laneV3 h f, f.rnd.toNat)
  | .sqrt h f => some (laneVR1 h f, f.rnd.toNat)
  | .exp2 h f => some (laneVR1 h f, 0)
  | .log2 h f => some (laneVR1 h f, 0)
  | .rcp h f => some (laneVR1 h f, 0)
  | .rsqrt h f => some (laneVR1 h f, 0)
  | .tanh h f => some (laneVR1 h f, 0)
  | .sigm h f => some (laneVR1 h f, 0)
  | .rndi h f => some (laneVR1 h f, f.rnd.toNat)
  | .fclass h f => some ({ laneVR1 h f with sat := false, tag := fun _ => if f.type = 9 then 6 else 4 }, 0)
  | .scale h f => some ({ laneVR h f with args := fun g l => [(vrA f).read g l, (scaleB f).read g l], tag := fun _ => f.type, pair := false, srcs := [vrA f, scaleB f] }, f.rnd.toNat)
  | .copysign h f => some ({ laneVR h f with sat := false }, 0)
  | _ => none

/-! ### Lane opcodes (R211 to R214) -/

/-- A row of the table of lane opcodes (R212): code, kind, latency class, and the result of A, B and C with its flags. -/
structure LopRow where
  code : Nat
  kind : LopKind
  cc : Nat
  result : Lane → Lane → Lane → Lane × FFlags

/-- A row whose result is a function of the patterns of A, B and C. -/
def rowW (code : Nat) (kind : LopKind) (f : Lane → Lane → Lane → Lane) : LopRow := ⟨code, kind, 1, fun a b c => (f a b c, 0)⟩

/-- A row whose result is trunc32 of an exact value of A, B and C read as I32. -/
def rowS (code : Nat) (kind : LopKind) (cc : Nat) (f : Int → Int → Int → Int) : LopRow :=
  ⟨code, kind, cc, fun a b c => (BitVec.ofInt 32 (f a.toInt b.toInt c.toInt), 0)⟩

/-- A row whose result is trunc32 of an exact value of A and B read as N32. -/
def rowU (code cc : Nat) (f : Nat → Nat → Nat) : LopRow := ⟨code, .b, cc, fun a b _ => (BitVec.ofNat 32 (f a.toNat b.toNat), 0)⟩

/-- A row whose result is an F32 value of A, B and C read as F32 (R213). -/
def rowF (code : Nat) (kind : LopKind) (cc : Nat) (f : FV → FV → FV → Nat × FFlags) : LopRow :=
  ⟨code, kind, cc, fun a b c =>
    let r := f (fmtF32.read a.toNat) (fmtF32.read b.toNat) (fmtF32.read c.toNat)
    (BitVec.ofNat 32 r.1, r.2)⟩

/-- A row that compares A and B as F32: false where either is a NaN, with nv where either signals (R213). -/
def rowC (code : Nat) (f : FV → FV → Bool) : LopRow :=
  ⟨code, .b, 4, fun a b _ =>
    let x := fmtF32.read a.toNat
    let y := fmtF32.read b.toNat
    (if !x.isNan && !y.isNan && f x y then 1 else 0, if x = .nan true ∨ y = .nan true then ffNv else 0)⟩

/-- Two values that are no NaN are equal: one value, or both zero. -/
def FV.same (x y : FV) : Bool :=
  match x, y with
  | .fin _ 0 _, .fin _ 0 _ => true
  | _, _ => x == y

/-- silu: the product of A and the value of `sigm`, each rounded, but for the special inputs (R213). -/
def siluRef (a : FV) : Nat × FFlags :=
  if a.isNan then (0x7FC00000, if a = .nan true then ffNv else 0)
  else if a = .inf true then (0x80000000, 0)
  else if a = .inf false then (0x7F800000, 0)
  else if a.same (.fin false 0 0) then (if a = fmtF32.read 0 then 0 else 0x80000000, 0)
  else
    let s := fmtF32.sigmV a
    let r := fmtF32.mulV 0 a (fmtF32.read s.1)
    (r.1, r.2 ||| s.2)

/-- The table of R212. -/
def lopTable : List LopRow :=
  [rowW 0x00 .n fun a _ _ => a, rowW 0x01 .p fun _ b _ => b, rowW 0x02 .s fun a _ _ => a, rowW 0x03 .s fun a _ _ => a,
    rowW 0x04 .s fun a _ _ => a, rowW 0x05 .s fun a _ _ => a] ++
  [rowS 0x08 .b 1 fun a b _ => a + b, rowS 0x09 .b 1 fun a b _ => a - b, rowW 0x0A .b fun a b _ => a &&& b,
    rowW 0x0B .b fun a b _ => a ||| b, rowW 0x0C .b fun a b _ => a ^^^ b, rowU 0x0D 1 fun a n => if n < 32 then a * 2 ^ n else 0,
    rowU 0x0E 1 fun a n => if n < 32 then a / 2 ^ n else 0,
    rowW 0x0F .b fun a n _ => BitVec.ofInt 32 (if n.toNat < 32 then a.toInt / (2 ^ n.toNat : Nat) else if a.toInt < 0 then -1 else 0),
    rowS 0x10 .b 1 fun a b _ => min a b, rowS 0x11 .b 1 fun a b _ => max a b, rowU 0x12 1 min, rowU 0x13 1 max] ++
  [rowW 0x14 .b fun a b _ => if a = b then 1 else 0, rowS 0x15 .b 1 fun a b _ => if a < b then 1 else 0,
    rowU 0x16 1 fun a b => if a < b then 1 else 0, rowS 0x17 .b 1 fun a b _ => max (-2 ^ 31) (min (2 ^ 31 - 1) (a + b)),
    rowS 0x18 .b 1 fun a b _ => max (-2 ^ 31) (min (2 ^ 31 - 1) (a - b)), rowS 0x19 .u 1 fun a _ _ => -a,
    rowS 0x1A .u 1 fun a _ _ => -a - 1, rowS 0x1B .u 1 fun a _ _ => a.natAbs, rowW 0x1C .t fun a b c => if c = 0 then b else a] ++
  [rowS 0x20 .b 2 fun a b _ => a * b, rowS 0x21 .b 2 fun a b _ => a * b / 2 ^ 32, rowU 0x22 2 fun a b => a * b / 2 ^ 32,
    rowS 0x23 .t 2 fun a b c => a * b + c, rowS 0x28 .b 14 fun a b _ => Int.tdiv a b, rowS 0x29 .b 14 fun a b _ => a - b * Int.tdiv a b,
    rowU 0x2A 14 fun a b => a / b, rowU 0x2B 14 fun a b => a % b] ++
  [rowF 0x40 .b 4 fun a b _ => fmtF32.addV 0 a b, rowF 0x41 .b 4 fun a b _ => fmtF32.addV 0 a b.negate,
    rowF 0x42 .b 4 fun a b _ => fmtF32.mulV 0 a b, rowF 0x43 .t 4 fun a b c => fmtF32.fmaV 0 a b c,
    rowF 0x44 .b 4 fun a b _ => fmtF32.minmaxV false a b, rowF 0x45 .b 4 fun a b _ => fmtF32.minmaxV true a b,
    rowF 0x46 .u 4 fun a _ _ => fmtF32.signV false a, rowF 0x47 .u 4 fun a _ _ => fmtF32.signV true a] ++
  [rowC 0x48 FV.same, rowC 0x49 FV.lt, rowC 0x4A fun x y => x.lt y || x.same y,
    ⟨0x4B, .u, 4, fun a _ _ => ((BitVec.ofNat 32 (fmtF32.ofInt 0 a.toInt).1), (fmtF32.ofInt 0 a.toInt).2)⟩,
    ⟨0x4C, .u, 4, fun a _ _ => ((BitVec.ofNat 32 (toIntV true 32 0 (fmtF32.read a.toNat)).1), (toIntV true 32 0 (fmtF32.read a.toNat)).2)⟩] ++
  [rowF 0x50 .u 8 fun a _ _ => fmtF32.exp2V a, rowF 0x51 .u 8 fun a _ _ => fmtF32.log2V a, rowF 0x52 .u 8 fun a _ _ => fmtF32.rcpV a,
    rowF 0x53 .u 8 fun a _ _ => fmtF32.rsqrtV a, rowF 0x54 .u 8 fun a _ _ => fmtF32.tanhV a, rowF 0x55 .u 8 fun a _ _ => fmtF32.sigmV a,
    rowF 0x56 .u 8 fun a _ _ => siluRef a, rowF 0x57 .u 4 fun a _ _ => fmtF32.minmaxV true a (fmtF32.read 0),
    rowF 0x58 .b 12 fun a b _ => fmtF32.divV 0 a b, rowF 0x59 .u 12 fun a _ _ => fmtF32.sqrtV 0 a]

/-- The values of bsel that a kind accepts (R211). -/
def LopKind.bsels : LopKind → List Nat
  | .n => [0]
  | .p => [1, 2, 3, 4, 5, 6, 7, 8, 9, 10]
  | .s => [0]
  | .u => [0]
  | .b => [0, 1, 2, 3, 4, 5, 6, 7, 8, 9, 10]
  | .t => [0, 1, 2, 3, 4, 5, 6, 7, 8, 9, 10]

/-- The step of an op word on a stack, top first, with the value that a window register gives (R207, R211 to R214): the operands leave the
stack in the order C, B, A, and the result comes on top of what is left, of A too where KA keeps it. -/
def lopStep (w : Lane) (st : List Lane) (win : Lane) : Except Nat LaneStep :=
  let bsel := w.toNat / 2 ^ 20 % 16
  let imm : Nat := w.toNat % 2 ^ 16
  let b : Lane := if bsel = 9 then BitVec.ofInt 32 (if imm < 2 ^ 15 then (imm : Int) else (imm : Int) - 2 ^ 16)
    else if bsel = 10 then BitVec.ofNat 32 (imm * 2 ^ 16) else win
  match lopTable.find? fun r => r.code == w.toNat / 2 ^ 24 with
  | none => .error 1
  | some row =>
    if bsel ∉ row.kind.bsels then .error 2
    else if w.toNat / 2 ^ 17 % 8 ≠ 0 ∨ (w.getLsbD 16 = true ∧ row.kind ∉ [.u, .b, .t]) then .error 3
    else
      let left := fun (a : Lane) (r : List Lane) => if w.getLsbD 16 then a :: r else r
      let push := fun (a b c : Lane) (r : List Lane) =>
        if 8 ≤ r.length then .error 5
        else if row.code ∈ [0x28, 0x29, 0x2A, 0x2B] ∧ b = 0 then .error 6
        else .ok ⟨(row.result a b c).1 :: r, row.cc, (row.result a b c).2⟩
      match row.kind, bsel == 0, st with
      | .n, _, st => .ok ⟨st, 1, 0⟩
      | .p, _, st => push 0 b 0 st
      | .u, _, a :: r => push a 0 0 (left a r)
      | .b, true, b :: a :: r => push a b 0 (left a r)
      | .b, false, a :: r => push a b 0 (left a r)
      | .t, true, c :: b :: a :: r => push a b c (left a r)
      | .t, false, c :: a :: r => push a b c (left a r)
      | .s, _, x :: r =>
        match row.code, r with
        | 0x02, r => if 8 ≤ r.length + 1 then .error 5 else .ok ⟨x :: x :: r, 1, 0⟩
        | 0x03, r => .ok ⟨r, 1, 0⟩
        | 0x04, y :: r => .ok ⟨y :: x :: r, 1, 0⟩
        | 0x05, y :: r => if 8 ≤ r.length + 2 then .error 5 else .ok ⟨y :: x :: y :: r, 1, 0⟩
        | _, _ => .error 4
      | _, _, _ => .error 4

/-- The step of a lane in `xv` (R216, R217): the op word of its register, the lane's stack, and the window register that bsel names. -/
def xvRef (f : XF) (g : Group) (l : Nat) : Except Nat LaneStep :=
  let w := laneOf (g.vLanes f.vop.toNat) l
  lopStep w (g.laneStack l) (laneOf (g.vLanes (f.vbase.toNat + w.toNat / 2 ^ 20 % 16 - 1)) l)

/-! ### Moves, addresses, tags and stack entries (R141, R142, R152, R204, R220) -/

/-- What `shfl` and `mov` read at an index: the lane at index modulo the width, or below it the nearest active one; zero where there is
none (R150, R151). -/
def fromLane (g : Group) (pair : Bool) (name index : Nat) : Word :=
  match nearest g.active (index % g.width) with
  | some m => g.val pair name m
  | none => 0

/-- The registers and the lane of which `fromLane` reads. -/
def fromLaneReads (g : Group) (pair : Bool) (name index : Nat) : List (Nat × Nat) :=
  match nearest g.active (index % g.width) with
  | some m => (regsOf pair name).map fun n => (n, m)
  | none => []

/-- The lane-wise instructions that move a value: destination, tag and the value that lane l gets. -/
def moveLaneOp (i : Instr) : Option (LaneOp × (Group → Nat → Word)) :=
  match i with
  | .movVr h f => some ({ laneVR1 h f with tag := rawTag f.type f.vb.toNat }, fun g l => (vrB f).read g l)
  | .movVi h f => some ({ laneVI h f with tag := fun _ => f.type, srcs := [] }, fun _ _ => viOperand f.type f.imm f.ik)
  | .movVs h f => some ({ laneVS h f with tag := fun _ => if f.type = 12 then 0 else f.type, srcs := [] },
      fun g _ => if isPairType f.type then g.s f.sb.toNat else ((g.s f.sb.toNat).setWidth 32).setWidth 64)
  | .lea h f => some ({ laneVS h f with pair := true, tag := fun _ => 8 }, fun g l =>
      let x := ((srcA f.va f.lra f.eba f.type).read g l).setWidth 32
      let index : Word := if isSigned f.type then x.signExtend 64 else x.setWidth 64
      g.s f.sb.toNat + index <<< (f.fn.toNat % 16))
  | .tagSet h f =>
    let t : BitVec 4 := f.imm.extractLsb' 0 4
    let pair := t = 7 || t = 8
    some ({ laneVI h f with pair := pair, tag := fun _ => t, srcs := [{ name := f.va.toNat, pair := pair, lr := f.lra, eb := f.eba, type := 0 }] }, fun g l => g.val pair f.va.toNat l)
  | .shflVr h f =>
    let index : VSrc := { name := f.vb.toNat, pair := false, swk := f.swk, swp := f.swp, lr := f.lrb, eb := f.ebb, type := 6 }
    some ({ laneVR h f with
        srcs := [index]
        more := fun g l => fromLaneReads g (isPairType f.type) f.va.toNat (index.read g l).toNat },
      fun g l => fromLane g (isPairType f.type) f.va.toNat (index.read g l).toNat)
  | .shflVs h f => some ({ laneVS h f with
        srcs := []
        more := fun g _ => fromLaneReads g (isPairType f.type) f.va.toNat ((g.s f.sb.toNat).toNat % 2 ^ 32) }, fun g _ => fromLane g (isPairType f.type) f.va.toNat ((g.s f.sb.toNat).toNat % 2 ^ 32))
  | .kpopKeep h f => some ({ laneVR h f with pair := false, tag := fun g => if f.type = 0 then g.vTag k0 else f.type, srcs := [] },
      fun g l => ((g.laneStack l).getD (f.vb.toNat % 8) 0).setWidth 64)
  | .kpopDepth h f => some ({ laneVR h f with pair := false, tag := fun _ => 6, srcs := [] }, fun g l => BitVec.ofNat 64 (g.depth l))
  | _ => none

/-! ### Uniform registers (R158 to R163) and ballot (R154) -/

/-- An exact value of R137 on uniform registers, narrowed, and widened as the type says (R160). -/
def uniExact (f : UR) (o : IntOp) (g : Group) : Word :=
  let t := uType f
  let w := opW t
  let sg := isSigned t
  let r := fun (k : Nat) => readInt sg w (elemNat w (g.s k) 0)
  BitVec.ofInt 64 (readInt sg w (narrow (f.fn.getLsbD 4) sg w (o.exact sg w (r f.sa.toNat) (r f.sb.toNat) 0)))

/-- The instructions with a result in a uniform register: header, register, the cc after which it is full, and the value. -/
def uniformOp (i : Instr) : Option (Hdr × Nat × Nat × (Group → Word)) :=
  match i with
  | .addUr h f => some (h, f.sd.toNat, 0, uniExact f .add)
  | .subUr h f => some (h, f.sd.toNat, 0, uniExact f .sub)
  | .mulUr h f => some (h, f.sd.toNat, 0, uniExact f .mul)
  | .divUr h f => some (h, f.sd.toNat, 0, uniExact f .div)
  | .remUr h f => some (h, f.sd.toNat, 0, uniExact f .rem)
  | .shlUr h f => some (h, f.sd.toNat, 0, uniExact f .shl)
  | .shrUr h f => some (h, f.sd.toNat, 0, uniExact f .shr)
  | .minUr h f => some (h, f.sd.toNat, 0, uniExact f .min)
  | .maxUr h f => some (h, f.sd.toNat, 0, uniExact f .max)
  | .andUr h f => some (h, f.sd.toNat, 0, fun g => g.s f.sa.toNat &&& g.s f.sb.toNat)
  | .orUr h f => some (h, f.sd.toNat, 0, fun g => g.s f.sa.toNat ||| g.s f.sb.toNat)
  | .xorUr h f => some (h, f.sd.toNat, 0, fun g => g.s f.sa.toNat ^^^ g.s f.sb.toNat)
  | .addUi h f => some (h, f.sd.toNat, 0, fun g => g.s f.sa.toNat + imm32 f.imm f.ik)
  | .movUi h f => some (h, f.sd.toNat, 0, fun _ => imm32 f.imm f.ik)
  | .movl h f x => some (h, f.sd.toNat, 0, fun _ => (f.fn.extractLsb' 0 8).setWidth 64 <<< 56 ||| x.setWidth 64)
  | .ballot h f => some (h, f.sd.toNat, 2, fun g => effLanes g h &&& g.p f.sa.toNat)
  | .movSv h f => some (h, f.sd.toNat, 2, fun g =>
      let n := if f.fn.getLsbD 6 then lowLane g.active else (f.fn.extractLsb' 0 6).toNat % g.width
      let x := fromLane g (isPairType f.type) f.va.toNat n
      if f.type = 5 then (x.setWidth 32).signExtend 64 else x)
  | _ => none

/-! ### Special names (R134) -/

/-- The table of R134: the value of each name for a lane of a group, its launch and its team. DESIGN CHOICE (log entry 62): the signature
is read before this instruction's own major is folded in. DESIGN CHOICE (log entry 6): every core counts the same cc. -/
def specials (s : State) (g : Group) (l : Launch) (t : Team) (lane : Nat) : List (Nat × Word) :=
  let n := BitVec.ofNat 64
  [(0x00, n lane), (0x01, n g.groupId), (0x02, n t.teamId), (0x03, n g.core), (0x04, n (g.core / 2)), (0x05, n (g.core / 48)),
    (0x06, n g.width), (0x07, n g.quadrant), (0x08, n g.slot), (0x09, n g.part), (0x0A, n l.teams), (0x0B, n (l.teamSize / g.width)),
    (0x0C, n l.cls), (0x0D, g.active), (0x0E, g.live), (0x0F, g.sig.setWidth 64), (0x10, t.stall), (0x11, n s.now), (0x12, n g.replays),
    (0x13, g.fflags.setWidth 64), (0x14, t.mxflags.setWidth 64)]

/-! ### Predicates (R124, R125, R153, R161, R205) -/

/-- The instructions with a result in a predicate: header, predicate, the cc after which it is full, the lanes written, and the bits. -/
def predicateOp (i : Instr) : Option (Hdr × Nat × (Group → Nat) × (Group → LaneMask) × (Group → Nat → Bool)) :=
  match i with
  | .pand h f => some (h, f.pd.toNat, fun _ => 0, fun g => effLanes g h,
      fun g l => ((g.p f.pa.toNat).getLsbD l ^^ f.fn.getLsbD 0) && ((g.p f.pb.toNat).getLsbD l ^^ f.fn.getLsbD 1))
  | .por h f => some (h, f.pd.toNat, fun _ => 0, fun g => effLanes g h,
      fun g l => ((g.p f.pa.toNat).getLsbD l ^^ f.fn.getLsbD 0) || ((g.p f.pb.toNat).getLsbD l ^^ f.fn.getLsbD 1))
  | .pxor h f => some (h, f.pd.toNat, fun _ => 0, fun g => effLanes g h,
      fun g l => ((g.p f.pa.toNat).getLsbD l ^^ f.fn.getLsbD 0) ^^ ((g.p f.pb.toNat).getLsbD l ^^ f.fn.getLsbD 1))
  | .pnot h f => some (h, f.pd.toNat, fun _ => 0, fun g => effLanes g h, fun g l => !(g.p f.pa.toNat).getLsbD l)
  | .pmov h f => some (h, f.pd.toNat, fun _ => 0, fun g => effLanes g h, fun g l => (g.p f.pa.toNat).getLsbD l)
  | .pset h f => some (h, f.pd.toNat, fun _ => 0, fun g => effLanes g h, fun _ _ => f.fn.getLsbD 0)
  | .vote h f => some (h, f.pd.toNat, fun _ => 2, fun g => effLanes g h, fun g _ =>
      let bit := fun (l : Nat) => (g.p f.pa.toNat).getLsbD l
      let ls := lanesOf (effLanes g h)
      match f.fn.toNat % 4 with
      | 0 => ls.all bit
      | 1 => ls.any bit
      | _ => ls.all bit || ls.all fun l => !bit l)
  | .cmp h f => some (h, f.pd.toNat, fun _ => if typeIn f.type [5, 6, 0] then 2 else 4, fun g => effLanes g h, fun g l =>
      let a := (srcA f.va f.lra f.eba f.type).read g l
      let b := if f.bs then uniOperand f.type (g.s (f.vb.extractLsb' 0 6).toNat)
        else ({ srcA f.vb f.lrb f.ebb f.type with swk := f.swk, swp := f.swp } : VSrc).read g l
      if f.type = 9 then condF32 f.cond.toNat (fmtF32.read (elemNat 32 a 0)) (fmtF32.read (elemNat 32 b 0))
      else
        let x := readInt (isSigned f.type) (opW f.type) (elemNat (opW f.type) a 0)
        let y := readInt (isSigned f.type) (opW f.type) (elemNat (opW f.type) b 0)
        match f.cond.toNat with
        | 0 => x == y
        | 1 => x != y
        | 2 => x < y
        | 3 => x ≤ y
        | 4 => x > y
        | _ => x ≥ y)
  | .tagChk h f => some (h, f.pd.toNat, fun g => if g.width = 64 then 3 else 2, fun g => effLanes g h, fun g _ => (g.vTag f.va.toNat == f.vb.extractLsb' 0 4) ^^ (f.cond == 1))
  | .cmpUr h f => some (h, f.sd.toNat, fun _ => 1, fun g => laneMask g.width, fun g _ =>
      let t := uType f
      let x := readInt (isSigned t) (opW t) (elemNat (opW t) (g.s f.sa.toNat) 0)
      let y := readInt (isSigned t) (opW t) (elemNat (opW t) (g.s f.sb.toNat) 0)
      match (f.fn.extractLsb' 7 4).toNat with
      | 0 => x == y
      | 1 => x != y
      | 2 => x < y
      | 3 => x ≤ y
      | 4 => x > y
      | _ => x ≥ y)
  | _ => none

/-! ### scan and red (R155, R156) -/

/-- The effective lanes that the result of lane `l` covers (R156): all of them in `red`, in `scan` those up to `l`, without it under EX. -/
def covered (isRed ex : Bool) (eff : LaneMask) (width l : Nat) : List Nat :=
  (lanesOf eff).filter fun k => k < width && (isRed || if ex then k < l else k ≤ l)

/-- Two numbers combined by an operation of R155. -/
def combine (op : Nat) (x y : Int) : Int :=
  match op with
  | 0 => x + y
  | 1 => min x y
  | 2 => max x y
  | 3 => (x.toNat &&& y.toNat : Nat)
  | 4 => (x.toNat ||| y.toNat : Nat)
  | _ => (x.toNat ^^^ y.toNat : Nat)

/-- The inclusive scan by rounds at the given distances (R156). -/
def scanRounds (f : Nat × FFlags → Nat × FFlags → Nat × FFlags) : List Nat → (Nat → Nat × FFlags) → Nat → Nat × FFlags
  | [], u => u
  | d :: ds, u => scanRounds f ds fun l => if d ≤ l then f (u (l - d)) (u l) else u l

/-! ### Accesses that leave with an instruction (R240 to R250, R286 to R291, R322 to R331, R380, R382, R388) -/

/-- A lane-wise access: header, fields, whether it writes registers and whether it goes to scratchpad, whether it counts as outstanding,
and the request of lane l, given the physical registers of its destination. -/
structure LaneAccess where
  h : Hdr
  f : MF
  loads : Bool := false
  sp : Bool := false
  counts : Bool := false
  req : State → Group → List Nat → Nat → Req

/-- What a load asks of device memory at an address (R241, R245). -/
def loadReq (f : MF) (va : Group → Nat → Word) (s : State) (g : Group) (pids : List Nat) (l : Nat) : Req :=
  { newReq s g l 0 false (piecesOf s g (sizeBytes f.size) needR (va g l)) (.load (.lane pids l) f.size.toNat (f.type == 5)) with
    acq := f.sync = 1 }

/-- What a store brings to device memory at an address (R241, R246). -/
def storeReq (f : MF) (va : Group → Nat → Word) (s : State) (g : Group) (_ : List Nat) (l : Nat) : Req :=
  { newReq s g l 0 false (piecesOf s g (sizeBytes f.size) needW (va g l)) (.store (storeBytes f g l)) with rel := f.sync = 1, counted := true }

/-- The lane-wise accesses. -/
def laneAccess (i : Instr) : Option LaneAccess :=
  match i with
  | .ld h f => some { h := h, f := f, loads := true, req := loadReq f (laneVa f) }
  | .ldb h f => some { h := h, f := f, loads := true, req := loadReq f (boundedVa f) }
  | .ldS h f => some { h := h, f := f, loads := true, sp := true, req := fun s g pids l =>
      let b := sizeBytes f.size
      let fe := decide (2 ≤ f.sync.toNat)
      { newReq s g l 0 true (spPieces b fe (laneOff f g l))
          (if fe then .fe (.lane pids l) f.size.toNat (f.type == 5) (f.sync = 3) else .load (.lane pids l) f.size.toNat (f.type == 5)) with
        acq := f.sync = 1, wt := fe } }
  | .st h f => some { h := h, f := f, counts := true, req := storeReq f (laneVa f) }
  | .stb h f => some { h := h, f := f, counts := true, req := storeReq f (boundedVa f) }
  | .stS h f => some { h := h, f := f, sp := true, req := fun s g _ l =>
      { newReq s g l 0 true (spPieces (sizeBytes f.size) false (laneOff f g l)) (.store (storeBytes f g l)) with rel := f.sync = 1 } }
  | .atM h f x =>
    if x.uni then none
    else some { h := h, f := f, loads := true, req := fun s g pids l =>
      { newReq s g l 3 false (piecesOf s g (sizeBytes f.size) needRW (laneVa f g l))
          (.atomic x.aop.toNat f.type.toNat (g.val (isPairType f.type) x.x.toNat l) (g.val (isPairType f.type) x.y.toNat l) (.lane pids l)) with
        acq := f.sync = 1, rel := f.sync = 1 } }
  | _ => none

/-- The physical registers of a load's destination in a group. -/
def LaneAccess.dests (x : LaneAccess) (g : Group) : List Nat := (mRegs x.f).filterMap fun n => g.cur.lookup n

/-- The machine with the requests of the effective lanes, of ascending lane; an access to scratchpad also adds its conflict cost to
`stall.bank` and enters the scoreboard (R236, R258). -/
def LaneAccess.send (x : LaneAccess) (s : State) (g : Group) (pids : List Nat) : State :=
  addReqs ((lanesOf (effLanes g x.h)).map (x.req s g pids))
    (if x.sp then spIssue s g (sizeBytes x.f.size) (!x.loads) (offsOf x.f g (effLanes g x.h)) s else s)

/-- A request that a group sends once: header, the request, the uniform registers it marks empty, whether it counts as outstanding, what
the group waits for from then on, and its scoreboard entry. -/
structure GroupSend where
  h : Hdr
  req : State → Group → Req
  emptied : List Nat := []
  counts : Bool := false
  hold : Option Hold := none
  score : State → Group → List Score := fun _ _ => []

/-- The place of a structure's header and how far its page reaches beyond it (R324). -/
def structAt (s : State) (g : Group) (va : Word) : Nat × Nat :=
  match structLoc s g va with
  | .ok pa e => (pa, e.vbase + e.size - va.toNat)
  | .fail _ => (0, 0)

/-- A queue or bin instruction (R324). -/
def structSend (h : Hdr) (f : UR) (align : Nat) (dsts : List Nat) (acq : Bool) (op : Group → Word → Nat → ReqOp) : GroupSend :=
  { h := h
    emptied := f.sd.toNat :: dsts
    req := fun s g =>
      let va := g.s f.sa.toNat
      let x := structAt s g va
      { newReq s g 0 6 false [⟨x.1, align, false, false⟩] (op g va x.2) with acq := acq, rel := !acq } }

/-- A jetty instruction (R331). -/
def jettySend (h : Hdr) (f : UR) (dsts : List Nat) (park acq : Bool) (op : Group → Nat → ReqOp) : GroupSend :=
  { h := h
    emptied := f.sd.toNat :: dsts
    hold := if park then some .jetty else none
    req := fun s g => { newReq s g 0 6 false [] (op g ((g.s f.sa.toNat).toNat % 1024)) with acq := acq, rel := !acq, wt := park } }

/-- A collective instruction (R388, R389). -/
def fabSend (h : Hdr) (f : UR) (op : Nat → Nat → Nat → Nat → Nat → ReqOp) : GroupSend :=
  { h := h
    emptied := [f.sd.toNat]
    req := fun s g => { newReq s g 0 5 false ((piecesOf s g 8 needRW (blk f g 0)).map fun p => { p with len := 64 })
      (op (blk f g 0).toNat (blk f g 2).toNat (blk f g 3).toNat (blk f g 1).toNat f.sd.toNat) with rel := true }
    score := fun s g =>
      [⟨s.seq, pairOfCore g.core, g.team, g.gid, none, [(((blk f g 1).toNat : Int), ((blk f g 1).toNat : Int) + 8 * (blk f g 2).toNat, false)]⟩] }

/-- The instructions that send one request for their group. -/
def groupSend (i : Instr) : Option GroupSend :=
  match i with
  | .ldu h f =>
    let r := f.vt.toNat % 64
    some { h := h, emptied := [r], req := fun s g =>
      { newReq s g 0 0 false (piecesOf s g (sizeBytes f.size) needR (groupVa f g)) (.load (.uni r) f.size.toNat (f.type == 5)) with
        acq := f.sync = 1 } }
  | .stu h f =>
    some { h := h, counts := true, req := fun s g =>
      { newReq s g 0 0 false (piecesOf s g (sizeBytes f.size) needW (groupVa f g))
          (.store ((wordBytes (g.s (f.vt.toNat % 64))).take (sizeBytes f.size))) with
        rel := f.sync = 1, counted := true } }
  | .atM h f x =>
    if x.uni then
      let r := f.vt.toNat % 64
      some { h := h, emptied := [r], req := fun s g =>
        { newReq s g 0 3 false (piecesOf s g (sizeBytes f.size) needRW (groupVa f g))
            (.atomic x.aop.toNat f.type.toNat (g.s (x.x.toNat % 64)) (g.s (x.y.toNat % 64)) (.uni r)) with
          acq := f.sync = 1, rel := f.sync = 1 } }
    else none
  | .atc h f x =>
    let r := f.vt.toNat % 64
    some { h := h, emptied := [r, x.sst.toNat], req := fun s g =>
      { newReq s g 0 3 false (piecesOf s g (sizeBytes f.size) needRW (groupVa f g))
          (.atc x.aop.toNat x.cond.toNat f.type.toNat (g.s x.sx.toNat) (g.s x.sy.toNat) (g.s x.sarg.toNat) (g.s x.stk.toNat) (groupVa f g)
            r x.sst.toNat) with rel := true } }
  | .sigAdd h f =>
    let sp := f.fn.getLsbD 0
    some { h := h, counts := !sp, req := fun s g =>
      { newReq s g 0 3 sp (counterPieces sp needRW s g (g.s f.sa.toNat)) (.sigAdd (g.s f.sb.toNat) (g.s f.sa.toNat)) with rel := true, counted := !sp } }
  | .waitGe h f =>
    let sp := f.fn.getLsbD 0
    some { h := h, hold := some .wait, req := fun s g =>
      { newReq s g 0 3 sp (counterPieces sp needR s g (g.s f.sa.toNat)) (.waitGe (g.s f.sb.toNat) (f.fn.getLsbD 1)) with
        acq := true, wt := true } }
  | .qPush h f => some (structSend h f 64 [] false fun g _ room => .qPush ((dataRegs f 8).map g.s) f.sd.toNat room)
  | .qPop h f => some (structSend h f 64 (dataRegs f 8) true fun _ _ room => .qPop f.sd.toNat f.sb.toNat room)
  | .binPut h f => some (structSend h f 128 [] false fun g va room => .binPut ((dataRegs f 8).map g.s) va f.sd.toNat room)
  | .jyPush h f => some (jettySend h f [] false false fun g j => .jyPush j (g.s f.sb.toNat) (g.s (f.sb.toNat + 1)) f.sd.toNat)
  | .jyPop h f => some (jettySend h f (dataRegs f 2) (f.fn.getLsbD 1) true fun _ j => .jyPop j f.sd.toNat f.sb.toNat (f.fn.getLsbD 1))
  | .fbRed h f => some (fabSend h f .fbRed)
  | .fbBcast h f => some (fabSend h f .fbBcast)
  | .syscall h f =>
    some { h := h, emptied := [f.sd.toNat], req := fun s g => (newReq s g 0 7 false []
      (.syscall (BitVec.ofNat 32 (f.fld 0 16)) (g.s f.sa.toNat) (g.s (f.sa.toNat + 1)) (g.s f.sb.toNat) f.sd.toNat g.pc)) }
  | .diagSt h f =>
    let sp := f.sync = 1
    some { h := h, hold := some .diag, req := fun s g =>
      (newReq s g 0 7 sp (if sp then [⟨(diagOff f g).toNat, 8, false, false⟩] else piecesOf s g 8 needW (groupVa f g))
        (.diag (g.s (f.vt.toNat % 64)) (g.s (f.vi.toNat % 64)).toNat)) }
  | _ => none

/-- The matrix instructions that queue a command: header, fields, and the command of a group's operands (R268, R272 to R274). -/
def matrixOp (i : Instr) : Option (Hdr × UR × (Group → MxOp)) :=
  let v := fun (f : UR) (g : Group) (k : Nat) => (g.s (f.sa.toNat + k)).toInt
  match i with
  | .mloop h f x => some (h, f, fun g =>
      .mloop false x (v f g 0) (v f g 1) (v f g 2) (v f g 3) (if x.me then v f g 4 else 0) 0 0)
  | .mloopSp h f x => some (h, f, fun g =>
      .mloop true x (v f g 0) (v f g 1) (v f g 2) (v f g 3) (if x.me then v f g 4 else 0) (v f g 5) (v f g 6))
  | .mzero h f => some (h, f, fun _ => .mzero (f.fn.toNat % 16) (!f.fn.getLsbD 4))
  | .mld h f => some (h, f, fun g => .mld (f.fn.toNat % 16) (!f.fn.getLsbD 4) (v f g 0) (v f g 1))
  | .mst h f => some (h, f, fun g =>
      .mst (f.fn.toNat % 16) (f.fn.toNat / 16 % 4) (f.fn.toNat / 64 % 8 + 1) (f.fn.toNat / 512 % 16) (v f g 0) (v f g 1))
  | .osmMax h f => some (h, f, fun g => .osmMax (f.fn.toNat % 16) (v f g 0) (v f g 1) (v f g 2))
  | .osmAcc h f => some (h, f, fun g => .osmAcc (f.fn.toNat % 16) (v f g 0))
  | _ => none

/-- Cell (i, j) of a tile of a team. -/
def Team.cell (t : Team) (tile i j : Nat) : Lane := ((t.tiles.getD tile ⟨0, []⟩).all).getD (64 * i + j) 0

/-- The 32 pairs of elements that a K-step multiplies for a cell (R269, R270): each stored element of a row of A with the element of the column
of B at its logical position. A sparse group of two whose indices do not rise counts as zero. -/
def mloopPairs (t : Team) (sparse : Bool) (x : MloopX) (a b md : Nat) (i j : Nat) : List (FV × FV) :=
  let nb := if !sparse then 1 else if x.pat = 0 then 2 else 4
  let row := (readBlock t x.afmt (x.pa.toNat + 1) (a + i * fmtBytes x.afmt)).elems
  let col := (List.range nb).flatMap fun k => (readBlock t x.bfmt (x.pb.toNat + 1) (b + (j * nb + k) * fmtBytes x.bfmt)).elems
  let idx := fun (e : Nat) => bytesNat (Memory.bytes t.sp (md + 8 * i) 8) / 2 ^ (2 * e) % 4
  let good := fun (e : Nat) => !sparse || x.pat != 0 || decide (idx (e / 2 * 2) < idx (e / 2 * 2 + 1))
  let place := fun (e : Nat) => if !sparse then e else if x.pat = 0 then 4 * (e / 2) + idx e else 4 * e + idx e
  (List.range 32).map fun e => (if good e then row.getD e (.fin false 0 0) else .fin false 0 0, col.getD (place e) (.fin false 0 0))

/-- What a K-step leaves in an I32 cell before it wraps (R184). -/
def mloopInt (ps : List (FV × FV)) (old : Lane) : Int := old.toInt + (ps.map fun p => p.1.int * p.2.int).foldl (· + ·) 0

/-- What a K-step leaves in an F32 cell, with the flags of its one rounding (R183): an exact sum of zero counts as +0. -/
def mloopF32 (ps : List (FV × FV)) (old : Lane) : Nat × FFlags :=
  fmtF32.addV 0 (fmtF32.read old.toNat) (match dot (ps.map Prod.fst) (ps.map Prod.snd) with
    | .fin _ 0 _ => .fin false 0 0
    | e => e)

/-- The value that one K-step of `mloop`, or with `sparse` of `mloop.sp`, leaves in a cell (R183, R184, R269, R270): the exact sum of the
products added to the cell, wrapped in an I32 tile and rounded once in an F32 tile. -/
def mloopCell (t : Team) (sparse : Bool) (x : MloopX) (a b md : Nat) (old : Lane) (i j : Nat) : Lane :=
  let ps := mloopPairs t sparse x a b md i j
  if x.afmt = 9 then BitVec.ofInt 32 (mloopInt ps old) else BitVec.ofNat 32 (mloopF32 ps old).1

/-- A cell of some row and column of a tile meets `p`. -/
def someCell (p : Nat → Nat → Bool) : Bool := (List.range 128).any fun i => (List.range 64).any fun j => p i j

/-- The bits of `mxflags` that a K-step sets where no word of scratchpad is bad (R173, R184, R264, R270): of (bit 0) where an F32 cell
overflows, nv (bit 1) where its sum is invalid or the header of a DX block fails, io (bit 4) where an I32 cell leaves its range, mv (bit 7) where
the indices of a group of two do not rise. -/
def mloopMarks (t : Team) (sparse : Bool) (x : MloopX) (a b md : Nat) (old : Nat → Nat → Lane) : BitVec 8 :=
  let nb := if !sparse then 1 else if x.pat = 0 then 2 else 4
  let ps := mloopPairs t sparse x a b md
  let header := fun (fmt : BitVec 4) (q : Nat) => fmt != 9 && bytesNat (Memory.bytes t.sp (q + 2) 2) != 0
  let headers := ((List.range 128).any fun i => header x.afmt (a + i * fmtBytes x.afmt)) ||
    (List.range (64 * nb)).any fun k => header x.bfmt (b + k * fmtBytes x.bfmt)
  let f := fun (n i j : Nat) => x.afmt != 9 && (mloopF32 (ps i j) (old i j)).2.getLsbD n
  let out := fun (i j : Nat) => let v := mloopInt (ps i j) (old i j); x.afmt == 9 && (decide (v < -2 ^ 31) || decide (2 ^ 31 ≤ v))
  let idx := fun (i e : Nat) => bytesNat (Memory.bytes t.sp (md + 8 * i) 8) / 2 ^ (2 * e) % 4
  let unsorted := sparse && x.pat == 0 && (List.range 128).any fun i => (List.range 16).any fun q => decide (idx i (2 * q + 1) ≤ idx i (2 * q))
  (if someCell (f 2) then 1 else 0) ||| (if someCell (f 0) || headers then 2 else 0) ||| (if someCell out then 16 else 0) |||
    (if unsorted then 128 else 0)

/-- The words of a block that a copy or `mst` builds of 32 values (R175, R266), with the bits of `mxflags` that it sets (R176, R264): conv 1
of F32, 2 of BF16, 3 of I8. -/
def builtBlock (conv m d : Nat) (bs : List Byte) : List Nat × BitVec 8 :=
  let el := fun (n j : Nat) => bytesNat ((bs.drop (n * j)).take n)
  let marks := fun (f : FFlags) => (if f.getLsbD 5 then (4 : BitVec 8) else 0) ||| (if f.getLsbD 0 then 2 else 0)
  let planes := fun (bit : Nat → Nat → Bool) (n : Nat) => (List.range n).map fun k => dxPlane ((List.range 32).map (bit k))
  let v := fun (j : Nat) => ((bs.getD j 0).toInt : Int)
  match conv with
  | 1 => let r := dxBuild m d ((List.range 32).map fun j => fmtF32.read (el 4 j)); (r.1, marks r.2)
  | 2 => let r := dxBuild m d ((List.range 32).map fun j => fmtBF16.read (el 2 j)); (r.1, marks r.2)
  | _ => (planes (fun _ j => decide (v j < 0)) 1 ++ planes (fun k j => (min (v j).natAbs 127).testBit (6 - k)) 7,
      if (List.range 32).any fun j => v j == -128 then 4 else 0)

/-- The management commands (R407). -/
def isCommand (i : Instr) : Bool :=
  match i with
  | .readReadinessMap | .readPowerAndTemperatures | .readCodeKey _ | .readFaultQueueAddresses _ | .createJetty .. | .clearJettyReset _ => true
  | i => (changedPart i).isSome

/-- The partition that a management command names. -/
def namedPart (i : Instr) : Option Nat :=
  match i with
  | .readCodeKey p => some p
  | .readFaultQueueAddresses p => some p
  | i => changedPart i

/-- The Ford instructions: header, fields, the registers of their answer beside the status, and what they ask (R342 to R350). -/
def fordInstr (i : Instr) : Option (Hdr × UR × List Nat × (Group → FordKind)) :=
  let b := fun (f : UR) (g : Group) (k : Nat) => g.s (f.sb.toNat + k)
  match i with
  | .tsDesc h f => some (h, f, [f.sb.toNat, f.sb.toNat + 1, f.sb.toNat + 2], fun g => .desc (g.s (f.fn.toNat / 2 % 64)))
  | .tsBack h f => some (h, f, [], fun g =>
      .back (b f g 0).toNat ((b f g 1).setWidth 32).toInt (f.fn.getLsbD 1) (f.fn.getLsbD 2))
  | .tsExp h f => some (h, f, [], fun g => .exp (b f g 0).toNat (b f g 1).toNat (b f g 2) (f.fn.getLsbD 1))
  | .tsRoot h f => some (h, f, [], fun g => .root (b f g 0).toNat (f.fn.getLsbD 1))
  | .tsAnc h f => some (h, f, [], fun g => .anc (f.fn.toNat / 2 % 128 + 1) (f.fn.toNat / 256 % 64 + 1) (b f g 0) (b f g 1) (b f g 2))
  | _ => none

/-- The lane-wise instructions that write a result (R136). -/
def laneInstr (i : Instr) : Option LaneOp :=
  firstSome [(intLaneOp i).map Prod.fst, (bitLaneOp i).map Prod.fst, (floatLaneOp i).map Prod.fst, (moveLaneOp i).map Prod.fst]

/-! ### Causes at issue (R356) -/

/-- The collective instructions (R135, R202, R203, R262). -/
def isCollective (i : Instr) : Bool :=
  match i with
  | .bar .. => true
  | .cvtTodx .. => true
  | .cvtFromdx .. => true
  | .mres .. => true
  | .mrel .. => true
  | .mld .. => true
  | .mst .. => true
  | .mzero .. => true
  | .osmMax .. => true
  | .osmAcc .. => true
  | .mloop .. => true
  | .mloopSp .. => true
  | _ => false

/-- The lane-wise arithmetic, bit and floating instructions. -/
def arithInstr (i : Instr) : Option LaneOp :=
  firstSome [(intLaneOp i).map Prod.fst, (bitLaneOp i).map Prod.fst, (floatLaneOp i).map Prod.fst]

/-- A tag does not pass a type (R178). -/
def tagWrong (type tag : BitVec 4) : Prop := type ≠ 0 ∧ type ≠ 12 ∧ tag ≠ 0 ∧ tag ≠ type

/-- BOUND of a first write that takes the group above its declared peak (R21). -/
def peakCause (i : Instr) (s : State) (g : Group) (h : Hdr) (p : Plan) : Option Report :=
  let new := freshCount (g.opened h p) p.srcs p.dsts
  let need := (g.opened h p).pregs.length + new
  if new ≠ 0 ∧ s.peak g < need then some ⟨.bound, 0, 0, 0, BitVec.ofNat 64 need, word0Of i, word1Of i⟩ else none

/-- What a lane-wise access checks (R243, R288): whether its index is a pair, the registers whose tags it checks against its type, whether
it must be aligned, what it needs of a page (none in scratchpad), and for a lane the number that must lie in range, whether it does, and
the place that is accessed. -/
structure AccessChecks where
  h : Hdr
  f : MF
  pairIx : Bool
  data : List Nat
  aligned : Bool
  need : Option Need
  value : Group → Nat → Int
  inside : State → Group → Nat → Prop
  place : Group → Nat → Int

/-- The checks of a load or store of device memory without a range. -/
def plainChecks (h : Hdr) (f : MF) (data : List Nat) (aligned : Bool) (need : Need) : AccessChecks :=
  ⟨h, f, true, data, aligned, some need, fun _ _ => 0, fun _ _ _ => True, fun g l => ((laneVa f g l).toNat : Int)⟩

/-- The checks of a bounded load or store. -/
def boundedChecks (h : Hdr) (f : MF) (data : List Nat) (need : Need) : AccessChecks :=
  ⟨h, f, false, data, decide (f.sync = 1), some need, laneElem f,
    fun _ g l => 0 ≤ laneElem f g l ∧ laneElem f g l < ((g.s (f.sb.toNat + 1)).toNat : Int), fun g l => ((boundedVa f g l).toNat : Int)⟩

/-- The checks of a load or store of scratchpad. -/
def spChecks (h : Hdr) (f : MF) (data : List Nat) : AccessChecks :=
  ⟨h, f, false, data, true, none, laneOff f,
    fun s g l => 0 ≤ laneOff f g l ∧ laneOff f g l + sizeBytes f.size ≤ (groupLimit s g : Int), laneOff f⟩

/-- The lane-wise accesses with their checks. -/
def accessChecks (i : Instr) : Option AccessChecks :=
  match i with
  | .ld h f => some (plainChecks h f [] (decide (f.sync = 1)) needR)
  | .st h f => some (plainChecks h f (mRegs f) (decide (f.sync = 1)) needW)
  | .ldb h f => some (boundedChecks h f [] needR)
  | .stb h f => some (boundedChecks h f (mRegs f) needW)
  | .ldS h f => some (spChecks h f [])
  | .stS h f => some (spChecks h f (mRegs f))
  | .atM h f x =>
    if x.uni then none
    else some (plainChecks h f (regsOf (isPairType f.type) x.x.toNat ++ if x.aop = 8 then regsOf (isPairType f.type) x.y.toNat else [])
      true needRW)
  | _ => none

/-- The accesses of a group, whether they must be aligned, and what they need of a page (R247, R288). -/
def groupChecks (i : Instr) : Option (Hdr × MF × Bool × Need) :=
  match i with
  | .ldu h f => some (h, f, decide (f.sync = 1), needR)
  | .stu h f => some (h, f, decide (f.sync = 1), needW)
  | .atM h f x => if x.uni then some (h, f, true, needRW) else none
  | _ => none

/-! ### The checks at launch (R20 to R31) -/

/-- Bits [hi:lo] of a word, as a number. -/
def field (w : Word) (hi lo : Nat) : Nat := w.toNat / 2 ^ lo % 2 ^ (hi + 1 - lo)

/-- What a source asks for: kernel header address, team count, team size, class, donectr, the argument counts that must equal the header's,
argument tags, and argument words. -/
structure LaunchAsk where
  header : Nat
  teams : Nat
  teamSize : Nat
  cls : Nat
  donectr : Nat
  argcs : List Nat
  argtags : Word
  args : List Word

/-- The threads that a team of `size` threads in groups of `width` places on each core that it takes: one core up to 1,536 threads, and above
that the two of a pair, groups below half their number on the first (R18, R62). -/
def groupsOnCores (size width : Nat) : List Nat :=
  let g := size / width
  if size ≤ 1536 then [g]
  else [(List.range g).countP fun i => decide (2 * i < g), (List.range g).countP fun i => decide (g ≤ 2 * i)]

/-- Conditions 4 to 11 of R31 on the header words `w`, in their order, each with its reason; R20, R24, R56, R57 and R61 give the limits. -/
def headerReasons (q : Part) (a : LaunchAsk) (w : Nat → Word) : List (Nat × Bool) :=
  let width := 16 * 2 ^ field (w 0) 33 32
  let codelen := field (w 0) 31 0
  let entry := field (w 2) 63 32
  let peak := field (w 3) 47 32
  let entryfp := field (w 3) 31 16
  let regu := field (w 2) 31 24
  let tiles := field (w 2) 15 11
  let tmax := field (w 2) 10 4
  let argc := field (w 6) 4 0
  let tag := fun (t : Word) (i : Nat) => field t (4 * i + 3) (4 * i)
  [(4, field (w 0) 63 48 != 0x5A4B || field (w 0) 47 40 != 0x01),
    (5, field (w 0) 33 32 == 3 || field (w 0) 39 34 != 0 || field (w 1) 63 52 != 0 || field (w 3) 63 48 != 0 || field (w 3) 15 0 != 0 ||
      field (w 4) 63 52 != 0 || field (w 6) 63 5 != 0 || w 7 != 0 || 16 < argc),
    (6, codelen % 128 != 0 || codelen < 128 || 16 * 2 ^ 20 < codelen || field (w 1) 6 0 != 0 || entry % 8 != 0 || codelen ≤ entry ||
      field (w 4) 2 0 != 0),
    (7, 264 < entryfp || peak < 1 || 1023 < peak || peak < entryfp),
    (8, field (w 2) 3 0 != 0 || regu < 16 || 192 < regu || 176 < field (w 2) 23 16 || 16 < tiles || tmax < 1 || 96 < tmax ||
      192 < regu + tmax * (field (w 2) 23 16 + (tiles + 1) / 2)),
    (9, a.teamSize == 0 || 3072 < a.teamSize || a.teamSize % width != 0 || a.teams == 0),
    (10, a.argcs.any (· != argc) || (List.range argc).any fun i =>
      12 < tag a.argtags i || 12 < tag (w 5) i || (tag a.argtags i != tag (w 5) i && tag a.argtags i != 0 && tag (w 5) i != 0)),
    (11, q.pairs == 0 || (groupsOnCores a.teamSize width).any fun n =>
      regu * 1024 < n * (entryfp * width / 16) + if n = 0 then 0 else peak * width / 16)]

/-- The launch that a source asks for, with the kernel whose header words are `w` (R20, R23, R30). -/
def askedLaunch (p : Nat) (source : Source) (task : Nat) (a : LaunchAsk) (w : Nat → Word) : Launch where
  lid := 0
  part := p
  serial := none
  cls := a.cls
  source := source
  task := task
  hdr := {
    width := 16 * 2 ^ field (w 0) 33 32
    codebase := field (w 1) 51 0
    codelen := field (w 0) 31 0
    entry := field (w 2) 63 32
    partword := BitVec.ofNat 32 (field (w 2) 31 0)
    peak := field (w 3) 47 32
    entryfp := field (w 3) 31 16
    tagbase := field (w 4) 51 0
    argtags := w 5
    argc := field (w 6) 4 0 }
  teams := a.teams
  teamSize := a.teamSize
  args := (List.range (field (w 6) 4 0)).map fun i => a.args.getD i 0
  donectr := a.donectr
  next := 0
  retired := 0
  ended := false

/-- The outcome of the checks of R31: the first condition that fails gives the reason, those of the source (`before`) first, then the header
that must be readable and its own conditions, then what the source adds (`after`); else the launch is made. -/
def launchChecked (s : State) (p : Nat) (source : Source) (task : Nat) (before : List (Nat × Bool)) (a : LaunchAsk)
    (after : List (Nat × Bool)) : Except Nat Launch :=
  match before.find? Prod.snd, readVa s p (BitVec.ofNat 64 a.header) 8 with
  | some x, _ => .error x.1
  | none, none => .error 4
  | none, some ws =>
    match (headerReasons (s.part p) a (fun k => ws.getD k 0) ++ after).find? Prod.snd with
    | some x => .error x.1
    | none => .ok (askedLaunch p source task a fun k => ws.getD k 0)

/-- Conditions 2 and 3 of R31 on task number `task`, whose descriptor holds the words `d` (R27, R28, R37). -/
def taskReasons (q : Part) (task : Nat) (d : Nat → Word) : List (Nat × Bool) :=
  [(2, q.taskcount ≤ task || field (d 0) 63 63 == 0 || field (d 0) 62 60 != 0 || field (d 0) 57 52 != 0 || field (d 0) 5 0 != 0 ||
      16 < field (d 1) 63 59 || field (d 1) 58 44 != 0 || field (d 1) 31 20 != 0 || field (d 3) 63 52 != 0 || field (d 3) 2 0 != 0),
    (3, q.tstop)]

/-- What a descriptor asks for (R28): the source may bring a team count and a class, and brings the argument tags and words. -/
def descAsk (d : Nat → Word) (teams : Nat) (cls : Option Nat) (tags : Word) (args : List Word) : LaunchAsk where
  header := field (d 0) 51 0
  teams := if teams = 0 then field (d 1) 19 0 else teams
  teamSize := field (d 1) 43 32
  cls := cls.getD (field (d 0) 59 58)
  donectr := field (d 3) 51 0
  argcs := [field (d 1) 63 59]
  argtags := tags
  args := args.take (field (d 1) 63 59)

/-- The descriptor of a task in device memory (R27). -/
def descOf (s : State) (p task : Nat) (k : Nat) : Word := memWord s ((s.part p).tasktab + 32 * task + 8 * k)

/-- A launch record by header or by task (R25, R31). -/
def recordChecked (s : State) (p : Nat) (source : Source) (r : List Word) : Except Nat Launch :=
  let w := fun k => r.getD k 0
  let kind := field (w 0) 63 60
  let task := field (w 0) 15 0
  let d := descOf s p task
  launchChecked s p source (if kind = 2 then task else 0)
    ((1, (kind != 1 && kind != 2) || field (w 0) 57 52 != 0 || (kind == 1 && field (w 0) 5 0 != 0) || (kind == 2 && field (w 0) 51 16 != 0) ||
        16 < field (w 1) 63 59 || field (w 1) 58 44 != 0 || (kind == 2 && field (w 1) 43 32 != 0) || field (w 1) 31 20 != 0 ||
        field (w 2) 63 52 != 0 || field (w 2) 2 0 != 0) :: if kind = 2 then taskReasons (s.part p) task d else [])
    { header := if kind = 2 then field (d 0) 51 0 else field (w 0) 51 0
      teams := field (w 1) 19 0
      teamSize := if kind = 2 then field (d 1) 43 32 else field (w 1) 43 32
      cls := field (w 0) 59 58
      donectr := field (w 2) 51 0
      argcs := if kind = 2 then [field (w 1) 63 59, field (d 1) 63 59] else [field (w 1) 63 59]
      argtags := w 3
      args := (r.drop 4).take (field (w 1) 63 59) } []

/-- A `launch` in its port (R40 to R42): the class is the descriptor's, that of S[st], or the issuing launch's own; an argument block that
runs past S63 fails last. -/
def portChecked (s : State) (e : PortEntry) : Except Nat Launch :=
  let d := descOf s e.part e.task
  let cls := match e.clsSel with
    | 1 => some e.cls
    | 2 => some (((s.launch? e.launch).map Launch.cls).getD 0)
    | _ => none
  launchChecked s e.part .group e.task (taskReasons (s.part e.part) e.task d) (descAsk d e.teams cls (d 2) e.window)
    [(10, e.sa != 0 && 63 < e.sa + field (d 1) 63 59 - 1)]

/-- A start of a continuation atomic, a bin or a leaf batch (R24, R291, R294, R329): all its words are RAW. -/
def startChecked (s : State) (x : Start) : Except Nat Launch :=
  let d := fun k => x.desc.getD k 0
  launchChecked s x.part x.source x.task (taskReasons (s.part x.part) x.task d) (descAsk d x.teams x.cls 0 x.args) []

/-- The registers, each with a lane, that lane `l` reads through some sources. -/
def readsThrough (xs : List VSrc) (g : Group) (l : Nat) : List (Nat × Nat) :=
  xs.flatMap fun x => match x.laneFor g l with
    | some m => x.names.map fun n => (n, m)
    | none => []

/-- Some registers in every lane that `on` holds of. -/
def inLanes (names : List Nat) (on : Nat → Bool) : List (Nat × Nat) :=
  ((List.range 64).filter on).flatMap fun m => names.map fun n => (n, m)

/-- What lane `l` reads of vector registers in the instructions beside those of `laneInstr` that read any (R156, R202, R203, R216, R370): a
word of a DX block depends on all active lanes of its segment, an element on those of its planes that are read, a scan on the effective
lanes up to its own, a red on all of them. -/
def marksRead (i : Instr) : Option (Hdr × (Group → Nat → List (Nat × Nat))) :=
  match i with
  | .cmp h f => some (h, readsThrough (vpSrcs f))
  | .kpush h f => some (h, readsThrough [vrB f])
  | .cvt h f => some (h, readsThrough [cvSrc f (isPairType f.stype)])
  | .cvtTodx h f => some (h, fun g l => inLanes (regsOf (dxPair f.stype g.width) f.va.toNat)
      fun k => k / dxSeg f.stype == l / dxSeg f.stype && g.active.getLsbD k)
  | .cvtFromdx h f => some (h, fun g l => inLanes [f.va.toNat]
      fun k => k / dxSeg f.dtype == l / dxSeg f.dtype && decide (k % dxSeg f.dtype < 4 + (f.aux.extractLsb' 4 4).toNat) && g.active.getLsbD k)
  | .scan h f => some (h, fun g l => inLanes (regsOf (isPairType f.type) f.vb.toNat)
      fun k => (effLanes g h).getLsbD k && decide (if scanEx f then k < l else k ≤ l))
  | .red h f => some (h, fun g _ => inLanes (regsOf (isPairType f.type) f.vb.toNat) fun k => (effLanes g h).getLsbD k)
  | .xv h f => some (h, fun g l =>
      let bsel := (laneOf (g.vLanes f.vop.toNat) l).toNat / 2 ^ 20 % 16
      (f.vop.toNat, l) :: if 1 ≤ bsel ∧ bsel ≤ 8 then [(f.vbase.toNat + bsel - 1, l)] else [])
  | _ => (accessChecks i).map fun c =>
      (c.h, fun _ l => ((if c.f.ix then (mIndex c.f c.pairIx).names else []) ++ c.data).map fun n => (n, l))

/-- The group with no value marked uncorrectable. -/
def Group.unmarked (g : Group) : Group := { g with pregs := g.pregs.map fun r => { r with bad := 0 } }

/-- The reason with which a control instruction raises MASKSTACK (R129, R360). -/
def maskStackFails (i : Instr) (g : Group) : Option Nat :=
  let top := fun (ok : MaskEntry → Bool) => if (g.stack.take 1).any ok then none else some 2
  let push := if 32 ≤ g.stack.length then some 1 else none
  let leave := if (g.stack.takeWhile fun e => e.kind != .call).any fun e => e.kind == .loop then none else some 2
  match i with
  | .ifC .. => push
  | .loopC .. => push
  | .callC .. => push
  | .elseC .. => top fun e => e.kind == .ifk && !e.elseTaken
  | .endifC .. => top fun e => e.kind == .ifk
  | .endloopC .. => top fun e => e.kind == .loop
  | .brkC .. => leave
  | .contC .. => leave
  | .retC .. => if g.stack.any fun e => e.kind == .call then none else some 2
  | _ => none

end Sys2Proof.Machine
end

