-- ==== Sys2Proof/Certificates/Slice0/Obligations.lean ====
section
/-! DEFINITION. The statements for the provers. -/

open Sys2Proof Sys2Proof.Machine

/-! ### Lane-wise results -/

/-- R122, R136 to R139: an integer instruction of types 0 to 8 and 12 writes into element e of every effective lane the exact value of R137,
clamped under SAT and else wrapped; it raises no flag, tags its destination, and leaves everything else as it was. Model's choices: a lane
that is not written reads zero where the instruction's own last read frees its destination (log entry 13), the tag of a result of types 0
and 12 (log entry 19), and that SAT raises no flag (log entry 17). -/
def Obligations.IntegerLanes : Prop :=
  ∀ (i : Instr) (o : LaneOp) (x : IntOp) (s : State) (g : Group) (p : Plan),
    intLaneOp i = some (o, x) → typeIn o.type [0, 1, 2, 3, 4, 5, 6, 7, 8, 12] → planOf i s = some (o.h, p) →
    Issues s g i o.h p → dying s g o.h p = 0 →
    ∃ t g' res, exec i s = .next t ∧ t.grp? g.gid = some g' ∧ OnlyGroup s t g.gid ∧ WroteLanes i g g' o.h p o.pair o.vd (o.tag g) res ∧
      ∀ l, (res l).2 = ffNone ∧ ∀ e, e < elemCount o.type →
        elemNat (elemW o.type) (res l).1 e =
          narrow o.sat (isSigned o.type) (elemW o.type)
            (x.exact (isSigned o.type) (elemW o.type) (o.elem g l 0 e) (o.elem g l 1 e) (o.elem g l 2 e))

/-- R122, R143 to R149: a bit instruction writes every bit of every effective lane as its rule gives it from the bits of the operands. Model's
choices: the lanes that are not written where the instruction's own last read frees its destination (log entry 13), and the tag that a pair
gives its result (log entry 19). -/
def Obligations.BitLanes : Prop :=
  ∀ (i : Instr) (o : LaneOp) (x : BitOp) (s : State) (g : Group) (p : Plan),
    bitLaneOp i = some (o, x) → i.WellFormed 64 → planOf i s = some (o.h, p) → Issues s g i o.h p → dying s g o.h p = 0 →
    ∃ t g' res, exec i s = .next t ∧ t.grp? g.gid = some g' ∧ OnlyGroup s t g.gid ∧ WroteLanes i g g' o.h p o.pair o.vd (o.tag g) res ∧
      ∀ l, (res l).2 = ffNone ∧ ∀ q, q < opW o.type →
        (res l).1.getLsbD q = x.bit (opW o.type) ((o.args g l).getD 0 0) ((o.args g l).getD 1 0) ((o.args g l).getD 2 0) q

/-- R188 to R197: a floating instruction applies its function to every element of every effective lane, saturates where SAT says so,
and ORs the flags of all elements into fflags. Model's choices: the lanes that are not written after an own last read (log entry 13), and
the values of exp2, log2, tanh and sigm (log entry 25). -/
def Obligations.FloatLanes : Prop :=
  ∀ (i : Instr) (o : LaneOp) (rnd : Nat) (s : State) (g : Group) (p : Plan),
    floatLaneOp i = some (o, rnd) → isFloatType o.type → planOf i s = some (o.h, p) → Issues s g i o.h p → dying s g o.h p = 0 →
    ∃ t g' res, exec i s = .next t ∧ t.grp? g.gid = some g' ∧ OnlyGroup s t g.gid ∧ WroteLanes i g g' o.h p o.pair o.vd (o.tag g) res ∧
      ∀ l, ∃ r : Nat → Nat × FFlags,
        (∀ e, floatElem i (fmtOf o.type) (elemW o.type) rnd ((o.args g l).map fun v => elemNat (elemW o.type) v e) = some (r e)) ∧
        (res l).2 = orFlags ((List.range (elemCount o.type)).map fun e => ((fmtOf o.type).saturate o.sat (r e)).2) ∧
        ∀ e, e < elemCount o.type → elemNat (elemW o.type) (res l).1 e = ((fmtOf o.type).saturate o.sat (r e)).1 % 2 ^ elemW o.type

/-- R141, R142, R150 to R152, R204, R220: mov, lea, tag.set, shfl, kpop.keep and kpop.depth write into every effective lane the value
that their rule names, under its tag, with no flag. Model's choices: the lanes that are not written after an own last read (log entry 13),
and the tag of a pair (log entry 19). -/
def Obligations.MoveLanes : Prop :=
  ∀ (i : Instr) (o : LaneOp) (v : Group → Nat → Word) (s : State) (g : Group) (p : Plan),
    moveLaneOp i = some (o, v) → planOf i s = some (o.h, p) → Issues s g i o.h p → dying s g o.h p = 0 →
    ∃ t g', exec i s = .next t ∧ t.grp? g.gid = some g' ∧ OnlyGroup s t g.gid ∧
      WroteLanes i g g' o.h p o.pair o.vd (o.tag g) fun l => (v g l, ffNone)

/-- R199, R200: cvt converts the elements that its part names, leaves the other bits of the lane as they were, gives its destination the
tag of the destination type, and ORs the flags of the conversions into fflags. The bits kept are those after the instruction's own last
reads, which is the model's choice (log entry 13). -/
def Obligations.CvtResults : Prop :=
  ∀ (h : Hdr) (f : CV) (s : State) (g : Group),
    Issues s g (.cvt h f) h (planCvt h f) → dying s g h (planCvt h f) = 0 →
    ∃ t g', exec (.cvt h f) s = .next t ∧ t.grp? g.gid = some g' ∧ OnlyGroup s t g.gid ∧
      (let p := planCvt h f
       let pair := isPairType f.dtype
       let (n, sb, db) := cvtPart f.stype f.dtype (f.aux.extractLsb' 0 2).toNat
       let w := elemW f.dtype
       let conv := fun l k => convElem f.stype f.dtype f.rnd.toNat f.sat
         (elemNat (elemW f.stype) ((cvSrc f (isPairType f.stype)).read g l) (sb + k))
       (∀ l k, l < 64 → (effLanes g h).getLsbD l = true → k < n →
          elemNat w (g'.val pair f.vd.toNat l) (db + k) = (conv l k).1 % 2 ^ w) ∧
       (∀ l b, l < 64 → b < opW f.dtype → ((effLanes g h).getLsbD l = false ∨ b < db * w ∨ (db + n) * w ≤ b) →
          (g'.val pair f.vd.toNat l).getLsbD b = ((g.unmap (lastNames p.srcs)).val pair f.vd.toNat l).getLsbD b) ∧
       (∀ r, r ∈ regsOf pair f.vd.toNat → g'.vTag r = f.dtype) ∧
       g'.fflags = g.fflags ||| orFlags ((lanesOf (effLanes g h)).map fun l => orFlags ((List.range n).map fun k => (conv l k).2)) ∧
       KeepsRegs g g' (touchedV p) [] [] ∧ KeepsGroup g g' ∧ KeepsWork g g' ∧ MovesOn (.cvt h f) g g')

/-- R170 to R176, R201 to R203: cvt.todx writes into each effective lane of a segment the word of that number of the DX block built from
the segment's values, inactive lanes counting as +0, with the tag RAW and the flags of the block; cvt.fromdx writes into each effective
lane the elements at its place of the DX block that its segment holds, read from the top planes and rounded, with their flags. Model's
choices: the lanes that are not written after an own last read (log entry 13), that every active lane of a segment is read (log entry 22),
and that a block gives its flags where a lane of its segment is effective (log entry 80). -/
def Obligations.DxResults : Prop :=
  (∀ (h : Hdr) (f : CV) (s : State) (g : Group) (p : Plan),
      planOf (.cvtTodx h f) s = some (h, p) → Issues s g (.cvtTodx h f) h p → dying s g h p = 0 →
      ∃ t g', exec (.cvtTodx h f) s = .next t ∧ t.grp? g.gid = some g' ∧ OnlyGroup s t g.gid ∧
        WroteLanes (.cvtTodx h f) g g' h p false f.vd.toNat 0 fun l =>
          let seg := dxSeg f.stype
          let b := dxBuild ((f.aux.extractLsb' 0 4).toNat + 1) (f.aux.extractLsb' 4 4).toNat
            ((List.range 32).map (dxTake f.stype f.va.toNat g (l / seg)))
          if l / seg < max 1 (g.width / seg) then (BitVec.ofNat 64 (b.1.getD (l % seg) 0), b.2) else (0, 0)) ∧
  (∀ (h : Hdr) (f : CV) (s : State) (g : Group) (p : Plan),
      planOf (.cvtFromdx h f) s = some (h, p) → Issues s g (.cvtFromdx h f) h p → dying s g h p = 0 → g.width ∈ [16, 32, 64] →
      (f.dtype = 9 ∨ f.dtype = 10 ∨ f.dtype = 11) →
      ∃ t g' res, exec (.cvtFromdx h f) s = .next t ∧ t.grp? g.gid = some g' ∧ OnlyGroup s t g.gid ∧
        WroteLanes (.cvtFromdx h f) g g' h p (dxPair f.dtype g.width) f.vd.toNat f.dtype res ∧
        (∀ b j lane reg e, b < max 1 (g.width / dxSeg f.dtype) → dxPlace f.dtype g.width b j = (lane, reg, e) → j < 32 → lane < g.width →
          (effLanes g h).getLsbD lane = true →
          let words := dxWords f.dtype f.va.toNat ((f.aux.extractLsb' 0 4).toNat + 1) g b
          elemNat (elemW f.dtype) (res lane).1 (if dxPair f.dtype g.width then reg else e) =
            (fromDxElem f.dtype f.rnd.toNat f.sat ((f.aux.extractLsb' 4 4).toNat + 1) words j).1 % 2 ^ elemW f.dtype) ∧
        ∀ lane, lane < g.width → (effLanes g h).getLsbD lane = true →
          (res lane).2 = orFlags ((List.range (max 1 (g.width / dxSeg f.dtype))).flatMap fun b => (List.range 32).filterMap fun j =>
            if (dxPlace f.dtype g.width b j).1 = lane then
              some (fromDxElem f.dtype f.rnd.toNat f.sat ((f.aux.extractLsb' 4 4).toNat + 1)
                (dxWords f.dtype f.va.toNat ((f.aux.extractLsb' 0 4).toNat + 1) g b) j).2
            else none))

/-- R155 to R157, R182: scan and red give every effective lane the combination of the effective lanes that it covers, lanes that are not
effective counting as the identity. The integer and bitwise operations are exact and narrowed once; under type 9, red gives the root of
the pairwise tree over all lanes of the width and scan the lane's partial combination after rounds at distances 1, 2, 4, …, under EX
that of the lane below, with the flags of the nodes that it combines. What a leaf that is no number counts as, and which nodes give
flags, is the model's choice (log entry 17); so are the lanes that are not written after an own last read (log entry 13) and the tag of a
result of types 0 and 12 (log entry 19). -/
def Obligations.ScanRed : Prop :=
  (∀ (i : Instr) (h : Hdr) (f : VR) (isRed : Bool) (s : State) (g : Group) (p : Plan),
      ((i = .scan h f ∧ isRed = false) ∨ (i = .red h f ∧ isRed = true)) → i.WellFormed 64 → f.type ≠ 9 →
      planOf i s = some (h, p) → Issues s g i h p → dying s g h p = 0 → g.width ≤ 64 →
      ∃ t g' res, exec i s = .next t ∧ t.grp? g.gid = some g' ∧ OnlyGroup s t g.gid ∧
        WroteLanes i g g' h p (isPairType f.type) f.vd.toNat (tagOr f.type f.vb.toNat g) res ∧
        ∀ l, l < g.width → (effLanes g h).getLsbD l = true → (res l).2 = ffNone ∧
          let w := opW f.type
          let sg := isSigned f.type
          let x := fun k => readInt sg w (elemNat w (g.val (isPairType f.type) f.vb.toNat k) 0)
          elemNat w (res l).1 0 = narrow f.sat sg w
            (((covered isRed (!isRed && scanEx f) (effLanes g h) g.width l).map x).foldl (combine (scanOpOf f)) (scanIdInt (scanOpOf f) f.type))) ∧
  (∀ (h : Hdr) (f : VR) (s : State) (g : Group) (p : Plan),
      f.type = 9 → planOf (.red h f) s = some (h, p) → Issues s g (.red h f) h p → dying s g h p = 0 → g.width ∈ [16, 32, 64] →
      ∃ t g' res, exec (.red h f) s = .next t ∧ t.grp? g.gid = some g' ∧ OnlyGroup s t g.gid ∧
        WroteLanes (.red h f) g g' h p false f.vd.toNat 9 res ∧
        ∀ l, l < g.width →
          let leaf := fun k => if (effLanes g h).getLsbD k then scanLeaf (g.val false f.vb.toNat k) else (scanIdF32 (scanOpOf f), 0)
          let root := (treeOf (scanF32 (scanOpOf f) f.rnd.toNat) 6 ((List.range g.width).map leaf)).getD 0 (0, 0)
          res l = (BitVec.ofNat 64 root.1, root.2)) ∧
  (∀ (h : Hdr) (f : VR) (s : State) (g : Group) (p : Plan),
    f.type = 9 → planOf (.scan h f) s = some (h, p) → Issues s g (.scan h f) h p → dying s g h p = 0 → g.width ∈ [16, 32, 64] →
    ∃ t g' res, exec (.scan h f) s = .next t ∧ t.grp? g.gid = some g' ∧ OnlyGroup s t g.gid ∧
      WroteLanes (.scan h f) g g' h p false f.vd.toNat 9 res ∧
      (let one := (scanIdF32 (scanOpOf f), 0)
       let leaf := fun k => if (effLanes g h).getLsbD k then scanLeaf (g.val false f.vb.toNat k) else one
       let incl := scanRounds (scanF32 (scanOpOf f) f.rnd.toNat) ([1, 2, 4, 8, 16, 32].filter (· < g.width)) leaf
       let out := fun l => if scanEx f then (if l = 0 then one else incl (l - 1)) else incl l
       ∀ l, l < g.width → res l = (BitVec.ofNat 64 (out l).1, (out l).2)))

/-- R134: rds writes the named value of the table of R134, of its lane into every effective lane of a V register as N32, or once into a
uniform register; it changes nothing else. That the signature is read without this instruction's own word, and that one clock counts the
cc of every core, is the model's choice (log entries 62 and 6). -/
def Obligations.ReadSpecial : Prop :=
  ∀ (h : Hdr) (f : RS) (s : State) (g : Group) (l : Launch) (tm : Team) (p : Plan) (v : Nat → Word),
    planOf (.rds h f) s = some (h, p) → Issues s g (.rds h f) h p → (f.dv = false → effLanes g h ≠ 0) →
    s.launch? g.launch = some l → s.team? g.team = some tm →
    (∀ lane, (specials s g l tm lane).lookup f.name.toNat = some (v lane)) →
    ∃ t g', exec (.rds h f) s = .next t ∧ t.grp? g.gid = some g' ∧ OnlyGroup s t g.gid ∧
      if f.dv then WroteLanes (.rds h f) g g' h p false f.d.toNat 6 fun k => (v k, ffNone)
      else WroteUniform (.rds h f) s g g' p f.d.toNat 0 (v 0)

/-! ### Uniform registers and predicates -/

/-- R154, R158 to R163: the instructions with a uniform result write the value of their rule, widened as the type says, once for the
group; nothing else changes. -/
def Obligations.UniformResults : Prop :=
  ∀ (i : Instr) (h : Hdr) (sd lat : Nat) (v : Group → Word) (s : State) (g : Group) (p : Plan),
    uniformOp i = some (h, sd, lat, v) → i.WellFormed 64 → planOf i s = some (h, p) → Issues s g i h p → effLanes g h ≠ 0 →
    ∃ t g', exec i s = .next t ∧ t.grp? g.gid = some g' ∧ OnlyGroup s t g.gid ∧ WroteUniform i s g g' p sd lat (v g)

/-- R124, R125, R153, R161, R205: the predicate writers set the bits of their lanes as their rule gives them and leave the other bits of
the predicate, every other register and fflags as they were. -/
def Obligations.PredicateResults : Prop :=
  ∀ (i : Instr) (h : Hdr) (pd : Nat) (lat : Group → Nat) (lanes : Group → LaneMask) (bit : Group → Nat → Bool) (s : State) (g : Group) (p : Plan),
    predicateOp i = some (h, pd, lat, lanes, bit) → i.WellFormed 64 → planOf i s = some (h, p) → Issues s g i h p →
    dying s g h p = 0 → ((∃ f, i = .cmpUr h f) → effLanes g h ≠ 0) →
    ∃ t g' bits, exec i s = .next t ∧ t.grp? g.gid = some g' ∧ OnlyGroup s t g.gid ∧ WrotePredicate i g g' p pd (lanes g) bits ∧
      (∀ l, l < 64 → (lanes g).getLsbD l = true → bits.getLsbD l = bit g l) ∧
      g'.fflags = g.fflags ∧ (g'.pred pd).ready = some (s.now + lat g)

/-! ### The execute-vector unit -/

/-- R207, R211 to R218: xv runs one step of every effective lane on that lane's own stack, with the operands, the result and the fault reason
that the tables of lane opcodes give: a completed step replaces the stack and sets the lane's bit of the status predicate, a failed one leaves
the stack and clears the bit; the other lanes keep both. The K registers become RAW, the flags of the completed steps are ORed into fflags,
and nothing else changes. A completed step leaves at most eight entries, and as many as its opcode, bsel and KA say. An op-word register
without the tag OPW raises FORMAT, and under T the lowest effective lane that fails raises XVLANE with its reason. Model's choice: the values
of exp2, log2, tanh and sigm (log entry 25). -/
def Obligations.XvSteps : Prop :=
  (∀ (h : Hdr) (f : XF) (s : State) (g : Group) (p : Plan),
      planOf (.xv h f) s = some (h, p) → Issues s g (.xv h f) h p → dying s g h p = 0 →
      ∃ t g', exec (.xv h f) s = .next t ∧ t.grp? g.gid = some g' ∧ OnlyGroup s t g.gid ∧
        (∀ l, l < 64 → (effLanes g h).getLsbD l = true →
          match xvRef f g l with
          | .ok x => g'.laneStack l = x.stack ∧ (g'.p f.pst.toNat).getLsbD l = true
          | .error _ => g'.laneStack l = g.laneStack l ∧ (g'.p f.pst.toNat).getLsbD l = false) ∧
        (∀ l, l < 64 → (effLanes g h).getLsbD l = false →
          g'.laneStack l = g.laneStack l ∧ (g'.p f.pst.toNat).getLsbD l = (g.p f.pst.toNat).getLsbD l) ∧
        (∀ n, n ∈ kNames → g'.vTag n = 0) ∧
        g'.fflags = g.fflags ||| orFlags ((lanesOf (effLanes g h)).map fun l => match xvRef f g l with
          | .ok x => x.flags
          | .error _ => 0) ∧
        KeepsRegs g g' (touchedV p) [] [f.pst.toNat] ∧ KeepsGroup g g' ∧ MovesOn (.xv h f) g g' ∧ g'.outst = g.outst ∧ g'.hold = g.hold) ∧
  (∀ (w : Lane) (st : List Lane) (win : Lane) (x : LaneStep) (k : LopKind),
      lopKind (w.toNat / 2 ^ 24) = some k → laneStep w st win = .ok x →
      x.stack.length ≤ 8 ∧
      x.stack.length = depthAfter k (w.toNat / 2 ^ 24) (if w.toNat / 2 ^ 20 % 16 = 0 then 1 else 0) (if w.getLsbD 16 then 1 else 0) st.length) ∧
  (∀ (w : Lane) (st : List Lane) (win : Lane), st.length ≤ 8 → laneStep w st win = lopStep w st win) ∧
  (∀ (h : Hdr) (f : XF) (s : State) (g : Group) (p : Plan),
      planOf (.xv h f) s = some (h, p) → (∀ x, x ∈ p.srcs → x.empty g s.now = false) →
      (g.vTag f.vop.toNat ≠ 12 →
        causeAt (.xv h f) s g h p = some ⟨.format, (g.vTag f.vop.toNat).toNat, f.vop.toNat, 0, word0Of (.xv h f), word1Of (.xv h f), 0⟩) ∧
      (g.vTag f.vop.toNat = 12 → peakCause (.xv h f) s g h p = none → ∀ lo l hi r, f.t = true → lanesOf (effLanes g h) = lo ++ l :: hi →
        (∀ k, k ∈ lo → ∃ x, xvRef f g k = .ok x) → xvRef f g l = .error r →
        causeAt (.xv h f) s g h p = some ⟨.xvlane, r, l, 0, word0Of (.xv h f), 0, 0⟩))

/-- R219 to R221: kpush puts a value on the stack of every effective lane, kpop takes the top entry into its destination, kclr empties the
stacks; the other lanes keep their stacks and what the destination held (R122), names that are read for the last time are free, and
nothing else changes. -/
def Obligations.StackResults : Prop :=
  ∀ (i : Instr) (h : Hdr) (f : VR) (after : List Lane → Lane → List Lane) (tag : BitVec 4) (s : State) (g : Group) (p : Plan),
    ((i = .kpush h f ∧ (after = fun st v => v :: st) ∧ tag = if f.type = 0 then g.vTag f.vb.toNat else f.type) ∨
      (i = .kpop h f ∧ (after = fun st _ => st.drop 1) ∧ tag = g.vTag k0) ∨
      (i = .kclr h f ∧ (after = fun _ _ => []) ∧ tag = 0)) →
    planOf i s = some (h, p) → Issues s g i h p → dying s g h p = 0 →
    ∃ t g', exec i s = .next t ∧ t.grp? g.gid = some g' ∧ OnlyGroup s t g.gid ∧
      (∀ l, l < 64 → (effLanes g h).getLsbD l = true → g'.laneStack l = after (g.laneStack l) (((vrB f).read g l).setWidth 32)) ∧
      (∀ l, l < 64 → (effLanes g h).getLsbD l = false → g'.laneStack l = g.laneStack l) ∧
      (∀ n, n ∈ kNames → g'.vTag n = tag) ∧
      (i = .kpop h f → g'.vTag f.vd.toNat = (if f.type = 0 then g.vTag k0 else f.type) ∧
        g'.vBad f.vd.toNat = g.vBad f.vd.toNat &&& ~~~(effLanes g h) ∧
        ∀ l, l < 64 → laneOf (g'.vLanes f.vd.toNat) l =
          if (effLanes g h).getLsbD l then (g.laneStack l).headD 0 else laneOf (g.vLanes f.vd.toNat) l) ∧
      (∀ n, n ∈ lastNames p.srcs → g'.preg? n = none) ∧
      KeepsRegs g g' (touchedV p) [] [] ∧ KeepsGroup g g' ∧ MovesOn i g g' ∧ g'.fflags = g.fflags ∧ g'.outst = g.outst ∧ g'.hold = g.hold

/-! ### Accesses and commands that leave with an instruction -/

/-- R240 to R248, R288: a lane-wise access sends one request for each effective lane, with the address, size, data and order of its rule;
a load marks its destination registers empty under the tag of its type, a store to device memory counts as outstanding, and an access
to scratchpad adds its conflict cost and enters the scoreboard. No byte of memory changes before the requests are performed. What the
lanes of a load's destination hold until then, after the instruction's own last reads, is the model's choice (log entry 13). -/
def Obligations.LaneAccessesLeave : Prop :=
  ∀ (i : Instr) (x : LaneAccess) (s : State) (g : Group) (p : Plan),
    laneAccess i = some x → planOf i s = some (x.h, p) → Issues s g i x.h p → dying s g x.h p = 0 →
    ∃ t g', exec i s = .next t ∧ t.grp? g.gid = some g' ∧ Sends s (x.send s g (x.dests g')) t g.gid ∧
      AfterIssue i g g' (touchedV p) [] [] (g.outst + if x.counts && effLanes g x.h != 0 then 1 else 0) g.hold ∧
      (x.loads = true → ∀ n, n ∈ mRegs x.f → ∃ r, g'.preg? n = some r ∧ r.tag = typeTag x.f.type ∧
        (effLanes g x.h ≠ 0 → r.ready = none) ∧ ∀ l, l < 64 → laneOf r.lanes l = laneOf ((g.unmap (lastNames p.srcs)).vLanes n) l)

/-- R247, R278, R280, R288, R290, R324, R331, R380, R382, R388: an access of the group, a counter or wait, an atomic of the group, a
queue, bin, jetty or collective instruction, a syscall and a diagnostic store each send one request, mark the uniform registers of
their answer empty, and leave everything else as it was; what parks or holds its group says so. That jy.pop.park holds its group from its issue on is
the model's choice (log entry 44). -/
def Obligations.GroupRequestsLeave : Prop :=
  ∀ (i : Instr) (x : GroupSend) (s : State) (g : Group) (p : Plan),
    groupSend i = some x → planOf i s = some (x.h, p) → Issues s g i x.h p → effLanes g x.h ≠ 0 →
    ∃ t g', exec i s = .next t ∧ t.grp? g.gid = some g' ∧
      Sends s { addReqs [x.req s g] s with scores := s.scores ++ x.score s g } t g.gid ∧
      AfterIssue i g g' [] x.emptied [] (g.outst + if x.counts then 1 else 0) (x.hold.getD g.hold) ∧
      ∀ r, r ∈ x.emptied → Emptied g g' r

/-- R248: pf asks the walkers for the page of every effective lane's address, for two where the access crosses a page, and raises
nothing; where the tags of its index are not accepted it asks for none. -/
def Obligations.PrefetchAsks : Prop :=
  ∀ (h : Hdr) (f : MF) (s : State) (g : Group),
    Issues s g (.pf h f) h (planPf f) → dying s g h (planPf f) = 0 →
    ∃ t g', exec (.pf h f) s = .next t ∧ t.grp? g.gid = some g' ∧ Sends s { s with walks := t.walks } t g.gid ∧
      AfterIssue (.pf h f) g g' (touchedV (planPf f)) [] [] g.outst g.hold ∧
      ∃ ws, t.walks = s.walks ++ ws ∧ ws.Nodup ∧
        ∀ w, w ∈ ws ↔ (f.ix = false ∨ ∀ n, n ∈ (mIndex f true).names → indexTagOk true (g.vTag n) = true) ∧
          ∃ l, l < 64 ∧ (effLanes g h).getLsbD l = true ∧
            ∃ a, (a = laneVa f g l ∨ (a = laneVa f g l + BitVec.ofNat 64 (sizeBytes f.size - 1) ∧
              (laneVa f g l).toNat / 65536 ≠ ((laneVa f g l).toNat + sizeBytes f.size - 1) / 65536)) ∧
            w = ⟨dieOfCore g.core, g.core, g.part, a.toNat, 0, 0, 0⟩

/-- R253, R255, R256, R258: cp and cpx queue one copy command with the operands of their block, the device address from S[sa], the offset from
S[sa + 1], length or rows from S[sa + 2], the row pitch from S[sa + 3], the counter from S[sb], and the pages that it touches, enter the
scoreboard with the hull of the command, and count as outstanding. That the pages and the counter's address are fixed when the command is
accepted is the model's choice (log entry 38). -/
def Obligations.CopiesAccepted : Prop :=
  ∀ (i : Instr) (h : Hdr) (f : UR) (x : Option CpxX) (s : State) (g : Group) (p : Plan),
    ((i = .cp h f ∧ x = none) ∨ ∃ e, i = .cpx h f e ∧ x = some e) → i.WellFormed 64 →
    planOf i s = some (h, p) → Issues s g i h p → effLanes g h ≠ 0 →
    ∃ t g' ctr leaves, exec i s = .next t ∧ t.grp? g.gid = some g' ∧
      (let fn := fun (hi lo : Nat) => f.fn.toNat / 2 ^ lo % 2 ^ (hi + 1 - lo)
       let block := fun (k : Nat) => g.s (f.sa.toNat + k)
       let conv := if i = .cp h f then 0 else fn 9 7
       let m := fn 12 10 + 1
       let rows := if i = .cp h f then 1 else (block 2).toNat
       let rowlen := (x.map fun e => e.rowlen.toNat).getD (block 2).toNat
       let sppitch := (x.map fun e => e.sppitch.toNat).getD 0
       let dl := if conv = 1 then rowlen / 128 * (4 * (3 + m)) else if conv = 2 then rowlen / 64 * (4 * (3 + m)) else rowlen
       let off := (block 1).toNat
       let c : CopyCmd := {
         id := s.nextId
         seq := s.seq
         pc := g.pc
         gid := g.gid
         launch := g.launch
         team := g.team
         part := g.part
         pair := pairOfCore g.core
         out := decide (fn 0 0 = 1)
         conv := conv
         m := m
         d := fn 16 13
         cs := fn 2 1
         ctr := ctr
         ctrVa := g.s f.sb.toNat
         va := block 0
         off := off
         rows := rows
         pitch := if i = .cp h f then 0 else (block 3).toInt
         rowlen := rowlen
         sppitch := sppitch
         leaves := leaves
         active := false
         parts := []
         steps := 0 }
       (fn 2 1 ≠ 2 → ctr = (g.s f.sb.toNat).toNat) ∧
       (fn 2 1 = 2 → ∃ e, translate s (dieOfCore g.core) (some g.core) g.part (g.s f.sb.toNat) needW = .ok ctr e) ∧
       (∀ q, q ∈ leaves ↔ ∃ e, e ∈ (copyWalk s g c).used ∧ q = (e.vbase, e.size, e.pbase)) ∧
       Sends s { s with
         copies := s.copies ++ [c]
         scores := s.scores ++
           [⟨s.seq, pairOfCore g.core, g.team, g.gid, some s.nextId, [((off : Int), (off : Int) + ((rows - 1) * sppitch + dl : Nat), !c.out)]⟩]
         nextId := s.nextId + 1 } t g.gid) ∧
      AfterIssue i g g' [] [] [] (g.outst + 1) g.hold

/-- R253, R258, R262, R263, R267: where the team holds a reservation, a matrix instruction answers status 0, queues its command with
the operands of its entry, sets the tag of its tile, enters the scoreboard with its ranges, and counts as outstanding. That the tag is
set when the command is accepted is the model's choice (log entry 41). -/
def Obligations.MatrixCommandsAccepted : Prop :=
  ∀ (i : Instr) (h : Hdr) (f : UR) (op : Group → MxOp) (s : State) (g : Group) (p : Plan) (tm : Team),
    matrixOp i = some (h, f, op) → planOf i s = some (h, p) → Issues s g i h p → effLanes g h ≠ 0 →
    s.team? g.team = some tm → tm.shares ≠ 0 →
    ∃ t g', exec i s = .next t ∧ t.grp? g.gid = some g' ∧
      (let c : MxCmd := {
         id := s.nextId
         seq := s.seq
         pc := g.pc
         gid := g.gid
         launch := g.launch
         team := g.team
         part := g.part
         pair := pairOfCore g.core
         slotNo := slotIndex g
         op := op g
         k := 0
         finished := false }
       Sends s { (match (op g).newTag with
           | some tag => s.modTeam g.team fun t => { t with tiles := t.tiles.modify (op g).tile fun x => { x with tag := tag } }
           | none => s) with
         mxcmds := s.mxcmds ++ [c]
         scores := s.scores ++ [⟨s.seq, c.pair, g.team, g.gid, some c.id, (op g).ranges⟩]
         nextId := s.nextId + 1 } t g.gid) ∧
      AfterIssue i g g' [] [f.sd.toNat] [] (g.outst + 1) g.hold ∧
      (f.sd ≠ 0 → g'.sreg f.sd.toNat = ⟨0, some s.now, false⟩)

/-- R260, R261: mres writes all ones into its predicate where the team then holds as many shares as it asks for, granting them from free
positions of the engine, and zeros otherwise; mrel ends the reservation and answers 0, or 1 where there was none. -/
def Obligations.Reservations : Prop :=
  ∀ (h : Hdr) (f : UR) (s : State) (g : Group) (tm : Team),
    s.team? g.team = some tm → effLanes g h ≠ 0 →
    (Issues s g (.mres h f) h (planMres h f) →
      ∃ t g' tm', exec (.mres h f) s = .next t ∧ t.grp? g.gid = some g' ∧ t.team? g.team = some tm' ∧
        Sends s { s with teams := t.teams, engines := t.engines } t g.gid ∧ (∀ k, k ≠ g.team → t.team? k = s.team? k) ∧
        AfterIssue (.mres h f) g g' [] [] [f.sd.toNat] g.outst g.hold ∧
        (let n := (g.s f.sa.toNat).toNat
         let free := freeShares s (pairOfCore g.core)
         let ok := tm.shares = n ∨ (tm.shares = 0 ∧ n ≤ free)
         (∀ l, l < 64 → l < g.width → ((g'.p f.sd.toNat).getLsbD l = true ↔ ok)) ∧ (g'.pred f.sd.toNat).ready = some (s.now + 8) ∧
         tm'.shares = (if tm.shares = 0 ∧ n ≤ free then n else tm.shares) ∧
         freeShares t (pairOfCore g.core) = (if tm.shares = 0 ∧ n ≤ free then free - n else free))) ∧
    (Issues s g (.mrel h f) h (planMrel f) →
      ∃ t g' tm', exec (.mrel h f) s = .next t ∧ t.grp? g.gid = some g' ∧ t.team? g.team = some tm' ∧
        Sends s { s with teams := t.teams, engines := t.engines } t g.gid ∧ (∀ k, k ≠ g.team → t.team? k = s.team? k) ∧
        AfterIssue (.mrel h f) g g' [] [f.sd.toNat] [] g.outst g.hold ∧ tm'.shares = 0 ∧
        (f.sd ≠ 0 → g'.s f.sd.toNat = if tm.shares = 0 then 1 else 0))

/-- R339: a Ford instruction goes to the input of its die's engine with its tree and operands, its answer's registers are marked empty,
and its group waits. -/
def Obligations.FordInstructionsLeave : Prop :=
  ∀ (i : Instr) (h : Hdr) (f : UR) (dsts : List Nat) (kind : Group → FordKind) (s : State) (g : Group) (p : Plan),
    fordInstr i = some (h, f, dsts, kind) → planOf i s = some (h, p) → Issues s g i h p → effLanes g h ≠ 0 →
    ∃ t g' o, exec i s = .next t ∧ t.grp? g.gid = some g' ∧
      Sends s { s with fords := s.fords ++ [o], nextId := s.nextId + 1 } t g.gid ∧
      AfterIssue i g g' [] (f.sd.toNat :: dsts) [] g.outst (.ford s.nextId) ∧ (∀ r, r ∈ f.sd.toNat :: dsts → Emptied g g' r) ∧
      o.id = s.nextId ∧ o.seq = s.seq ∧ o.gid = g.gid ∧ o.launch = g.launch ∧ o.team = g.team ∧ o.part = g.part ∧
      o.die = dieOfCore g.core ∧ o.kind = kind g ∧ o.header = g.s f.sa.toNat ∧ o.pa = (structAt s g (g.s f.sa.toNat)).1 ∧
      o.sd = f.sd.toNat ∧ o.sb = f.sb.toNat ∧ o.pc = g.pc ∧ o.phase = .input ∧ o.drop = false ∧ o.answered = false

/-- R40 to R43: where the die's port has an entry for the partition, launch takes it with the task and the team count of S[st], the class
of S[st] and the source that says which class counts, and the argument window, and marks its answer's register empty; else it answers
REFUSED with reason 0 at once, which is the value 1. -/
def Obligations.LaunchTakesEntry : Prop :=
  ∀ (h : Hdr) (f : UR) (s : State) (g : Group),
    Issues s g (.launch h f) h (planLaunch h f) → effLanes g h ≠ 0 →
    ∃ t g', exec (.launch h f) s = .next t ∧ t.grp? g.gid = some g' ∧
      AfterIssue (.launch h f) g g' [] [f.sd.toNat] [] g.outst g.hold ∧
      if mayClaim s 64 g.part (portUsed s (dieOfCore g.core)) then
        ∃ e, Sends s { s with ports := s.ports ++ [e], nextId := s.nextId + 1 } t g.gid ∧ Emptied g g' f.sd.toNat ∧
          e.id = s.nextId ∧ e.die = dieOfCore g.core ∧ e.part = g.part ∧ e.gid = g.gid ∧ e.launch = g.launch ∧ e.team = g.team ∧
          e.seq = s.seq ∧ e.task = (g.s f.sa.toNat).toNat % 65536 ∧ e.teams = (g.s f.sa.toNat).toNat / 2 ^ 16 % 2 ^ 20 ∧
          e.cls = (g.s f.sa.toNat).toNat / 2 ^ 36 % 4 ∧ e.clsSel = f.fn.toNat / 2 ^ 27 % 4 ∧ e.sa = f.sb.toNat ∧
          e.window = (launchWindow f).map g.s ∧ e.sd = f.sd.toNat ∧ e.pc = g.pc ∧ e.drop = false ∧ e.held = none
      else Sends s s t g.gid ∧ (f.sd ≠ 0 → g'.sreg f.sd.toNat = ⟨1, some s.now, false⟩)

/-- R106, R295, R298: fence and xfence put their order in force from this place on, nop does nothing; none of them changes anything
else. -/
def Obligations.FencesAndNop : Prop :=
  ∀ (i : Instr) (h : Hdr) (f : UR) (s : State) (g : Group) (p : Plan),
    (i = .fence h f ∨ i = .xfence h f ∨ i = .nop h f) → planOf i s = some (h, p) → Issues s g i h p → effLanes g h ≠ 0 →
    ∃ t g', exec i s = .next t ∧ t.grp? g.gid = some g' ∧ OnlyGroup s t g.gid ∧ AfterIssue i g g' [] [] [] g.outst g.hold ∧
      g'.fences = (g.pruneFences s).fences ++ (if i = .fence h f then [(f.fn.toNat / 8 % 4, s.seq)] else []) ∧
      g'.xfences = (g.pruneFences s).xfences ++ (if i = .xfence h f then [(f.fn.toNat % 8, f.fn.toNat / 8 % 8, s.seq)] else [])

/-- R135: a group arrives at a barrier and parks there; where every group of the team has then exited, has no live lane or has arrived once
more than the barrier has released, the barrier releases: the group and all that were parked at it go on. -/
def Obligations.BarrierArrives : Prop :=
  ∀ (h : Hdr) (f : UR) (s : State) (g : Group) (tm : Team),
    Issues s g (.bar h f) h (planBar f) → effLanes g h ≠ 0 → s.team? g.team = some tm →
    ∃ t g', exec (.bar h f) s = .next t ∧ t.grp? g.gid = some g' ∧
      t = { s with groups := t.groups, teams := t.teams, seq := s.seq + 1 } ∧
      KeepsRegs g g' [] [] [] ∧ KeepsGroup g g' ∧ MovesOn (.bar h f) g g' ∧ g'.fflags = g.fflags ∧ g'.outst = g.outst ∧
      g'.depths = g.depths ∧
      (let n := f.fn.toNat % 8
       let now := tm.arrive g.groupId n
       let there := fun (x : Group) => x.life = .gone ∨ x.live = 0 ∨ arrivals now x.groupId n = tm.barRel.getD n 0 + 1
       let all := there g ∧ ∀ x, x ∈ s.groups → x.gid ≠ g.gid → x.team = g.team → there x
       (all → g'.hold = .none) ∧ (¬all → g'.hold = .bar n) ∧
       ∀ k x, s.grp? k = some x → k ≠ g.gid → ∃ x', t.grp? k = some x' ∧ SameWork x x' ∧
         (x.team = g.team → x.hold = .bar n → (all → x'.hold = .none) ∧ (¬all → x'.hold = .bar n)))

/-- R379, R380: trap writes the SYSCALL entry of reason 1 with its code and operand, and ends its launch. A syscall that has left its group
waits until the earlier accesses of the group are performed; it then writes the SYSCALL entry of reason 0 with its code and operands and
answers with the entry's number, or, at a full queue, writes nothing and answers all ones. That its entry waits for the slice of the fault
queue, behind entries that wait for it, is the model's choice (log entry 79). -/
def Obligations.TrapEnds : Prop :=
  (∀ (h : Hdr) (f : UR) (s : State) (g : Group),
    Issues s g (.trap h f) h (planTrap f) → effLanes g h ≠ 0 →
    ∃ t, exec (.trap h f) s = .next t ∧
      (s.syn = [] →
        t.mem = ((fqEntry g.part (groupEntry s g ⟨.syscall, 1, 0, BitVec.ofNat 32 (f.fn.toNat % 65536), g.s f.sa.toNat, 0, 0⟩ g.pc)).run s).mem) ∧
      LaunchEnded t g.launch ∧ OtherLaunches s t g.launch) ∧
  ∀ (s : State) (r : Req) (code : BitVec 32) (a b c : Word) (sd pc : Nat) (g : Group),
    s.req? r.id = some r → r.op = .syscall code a b c sd pc → r.sp = false → r.pieces = [] → canPerform s r = true →
    s.grp? r.gid = some g →
    (s.pendingAcc r.gid r.seq = true ∨ fqHeld s r.part = true → exec (.homeSliceAccess r.id) s = .next s) ∧
    (s.pendingAcc r.gid r.seq = false → fqHeld s r.part = false →
      ∃ t, exec (.homeSliceAccess r.id) s = .next t ∧ Answered t r ∧
        if fqFull s r.part then t.mem = s.mem ∧ t.parts = s.parts ∧ Told s t r [(sd, BitVec.allOnes 64)]
        else
          (let u := (fqWrite r.part (groupEntry s g ⟨.syscall, 0, 0, code, a, b, c⟩ r.pc)).run s
           t.mem = u.mem ∧ t.parts = u.parts ∧ t.outbox = u.outbox) ∧
          Told s t r [(sd, BitVec.ofNat 64 (fqWritten s r.part))])

/-! ### Structured control -/

/-- R126 to R129: if pushes the active mask and keeps the lanes of its condition, else changes to the lanes that failed it, endif restores
the lanes of the entry that still live and pops it. Where no lane is left active, if and else transfer to their partner. -/
def Obligations.IfElseEndif : Prop :=
  ∀ (h : Hdr) (f : CF) (s : State) (g : Group),
    (CtlIssues s g (.ifC h f) f (ctlIf f) →
      ∃ t g', exec (.ifC h f) s = .next t ∧ t.grp? g.gid = some g' ∧ OnlyGroup s t g.gid ∧ AfterCtl g g' ∧
        (let c := condMask f g
         g'.active = g.active &&& c ∧ g'.live = g.live ∧
         g'.stack = ⟨.ifk, g.active, g.active &&& ~~~c, false, 0, fold16 g.active⟩ :: g.stack ∧
         g'.pc = if g.active &&& c = 0 then offTarget g.pc f.off.toInt else g.pc + 8)) ∧
    ∀ e st, g.stack = e :: st →
      (CtlIssues s g (.elseC h f) f (ctlElse f) →
        ∃ t g', exec (.elseC h f) s = .next t ∧ t.grp? g.gid = some g' ∧ OnlyGroup s t g.gid ∧ AfterCtl g g' ∧
          g'.active = e.xv &&& g.live ∧ g'.live = g.live ∧ g'.stack = { e with elseTaken := true } :: st ∧
          g'.pc = if e.xv &&& g.live = 0 then offTarget g.pc f.off.toInt else g.pc + 8) ∧
      (CtlIssues s g (.endifC h f) f ctlEndif →
        ∃ t g', exec (.endifC h f) s = .next t ∧ t.grp? g.gid = some g' ∧ OnlyGroup s t g.gid ∧ AfterCtl g g' ∧
          g'.active = e.sv &&& g.live ∧ g'.live = g.live ∧ g'.stack = st ∧ g'.pc = g.pc + 8)

/-- R129: loop pushes the active mask and the address of its body; endloop goes round with the lanes that are active or parked and meet
the condition, and where there are none pops the entry and restores its lanes; brk takes lanes out of the innermost loop and cont parks
them in it, both also out of every entry above it. -/
def Obligations.LoopsGoRound : Prop :=
  ∀ (h : Hdr) (f : CF) (s : State) (g : Group),
    (CtlIssues s g (.loopC h f) f ctlLoop →
      ∃ t g', exec (.loopC h f) s = .next t ∧ t.grp? g.gid = some g' ∧ OnlyGroup s t g.gid ∧ AfterCtl g g' ∧
        g'.active = g.active ∧ g'.live = g.live ∧ g'.pc = g.pc + 8 ∧
        g'.stack = ⟨.loop, g.active, 0, false, g.pc + 8, fold16 g.active⟩ :: g.stack) ∧
    (∀ e st, g.stack = e :: st → CtlIssues s g (.endloopC h f) f (ctlEndloop f) →
      ∃ t g', exec (.endloopC h f) s = .next t ∧ t.grp? g.gid = some g' ∧ OnlyGroup s t g.gid ∧ AfterCtl g g' ∧
        (let again := (g.active ||| e.xv) &&& g.live &&& condMask f g
         g'.live = g.live ∧
         if again = 0 then g'.active = e.sv &&& g.live ∧ g'.stack = st ∧ g'.pc = g.pc + 8
         else g'.active = again ∧ g'.stack = { e with xv := 0 } :: st ∧ g'.pc = offTarget g.pc f.off.toInt)) ∧
    ∀ i park k, ((i = Instr.brkC h f ∧ park = false) ∨ (i = Instr.contC h f ∧ park = true)) →
      findEntry .loop (some .call) g.stack = some k → CtlIssues s g i f (ctlLeave f park) →
      ∃ t g', exec i s = .next t ∧ t.grp? g.gid = some g' ∧ OnlyGroup s t g.gid ∧ AfterCtl g g' ∧
        (let q := g.active &&& condMask f g
         g'.active = g.active &&& ~~~q ∧ g'.live = g.live ∧
         (∀ j, j < k → g'.stack[j]? = g.stack[j]?.map fun e =>
           { e with sv := e.sv &&& ~~~q, xv := e.xv &&& ~~~q, check := fold16 (e.sv &&& ~~~q) }) ∧
         g'.stack[k]? = (g.stack[k]?.map fun e => if park then { e with xv := e.xv ||| q } else e) ∧
         g'.stack.drop (k + 1) = g.stack.drop (k + 1) ∧
         g'.pc = if g.active &&& ~~~q = 0 then offTarget g.pc f.off.toInt else g.pc + 8)

/-- R128, R129, R133: call pushes the active mask with the address of the next instruction and transfers; ret takes lanes out of the
entries above the innermost call, and where none stays pops down to it and returns to its address with its lanes; exit ends lanes, and
the group with its last live lane, unless its launch's counter on the core cannot take its outstanding accesses (R50). -/
def Obligations.CallsAndExits : Prop :=
  ∀ (h : Hdr) (f : CF) (s : State) (g : Group),
    (∀ x, CtlIssues s g (.callC h f x) f (ctlCall x) →
      ∃ t g', exec (.callC h f x) s = .next t ∧ t.grp? g.gid = some g' ∧ OnlyGroup s t g.gid ∧ AfterCtl g g' ∧
        g'.active = g.active ∧ g'.live = g.live ∧ g'.taken = true ∧ g'.pc = offTarget g.pc x.toInt ∧
        g'.stack = ⟨.call, g.active, 0, false, g.pc + 16, fold16 g.active⟩ :: g.stack) ∧
    (∀ k e, findEntry .call none g.stack = some k → g.stack[k]? = some e → CtlIssues s g (.retC h f) f (ctlRet f) →
      ∃ t g', exec (.retC h f) s = .next t ∧ t.grp? g.gid = some g' ∧ OnlyGroup s t g.gid ∧ AfterCtl g g' ∧ g'.live = g.live ∧
        (let q := g.active &&& condMask f g
         let stay := g.active &&& ~~~(condMask f g)
         if stay = 0 then g'.active = e.sv &&& g.live ∧ g'.stack = g.stack.drop (k + 1) ∧ g'.pc = e.addr
         else g'.active = stay ∧ g'.pc = g.pc + 8 ∧ g'.stack.drop k = g.stack.drop k ∧
           ∀ j, j < k → g'.stack[j]? = g.stack[j]?.map fun e =>
             { e with sv := e.sv &&& ~~~q, xv := e.xv &&& ~~~q, check := fold16 (e.sv &&& ~~~q) })) ∧
    (CtlIssues s g (.exitC h f) f (ctlExit f) →
      ∃ t g', exec (.exitC h f) s = .next t ∧ t.grp? g.gid = some g' ∧
        (let q := g.active &&& condMask f g
         let left := g.live &&& ~~~q
         (left ≠ 0 → OnlyGroup s t g.gid ∧ AfterCtl g g' ∧ g'.live = left ∧ g'.active = g.active &&& ~~~q ∧ g'.stack = g.stack ∧
           g'.pc = if g.active &&& ~~~q = 0 then offTarget g.pc f.off.toInt else g.pc + 8) ∧
         (left = 0 → launchCtr s g.core g.launch < 1048575 → launchCtr s g.core g.launch + g.outst ≤ 1048575 → g'.life = .gone ∧ g'.live = 0 ∧ t.mem = s.mem ∧
           launchCtr t g.core g.launch = launchCtr s g.core g.launch + g.outst)))

/-- R365: a control instruction whose signature disagrees and is compared replays its region from its checkpoint, with no entry. Where a
comparison has failed before in that region, it raises SIGNATURE, which writes its entry and ends the launch. An RM bit has closed the region
before the instruction (R116). -/
def Obligations.SignatureMismatch : Prop :=
  ∀ (i : Instr) (h : Hdr) (f : CF) (c : Ctl) (s : State) (g : Group),
    ctlOf i = some (h, f, c) → s.issuing = some g → g.hold = .none → g.retryAt ≤ s.now →
    (f.ce = true → g.pFull s.now f.cp.toNat = true) → c.check g = none → g.taken = false → g.poFirst = false → ctlSig g i c ≠ f.sig →
    ∃ t o, exec i s = .next t ∧ (o = g ∨ (h.rm = true ∧ o = g.closeRegion)) ∧ (h.rm = true → g.regionFresh = false → o = g.closeRegion) ∧
      (o.sigFailed = false → OnlyGroup s t g.gid ∧ ∃ g', t.grp? g.gid = some g' ∧ g'.pc = o.regionStart ∧ g'.cur = o.ent ∧
        g'.preds = o.ckpt.preds ∧ g'.stack = o.ckpt.stack ∧ g'.sig = o.ckpt.sig ∧ g'.depths = o.ckpt.depths ∧
        g'.active = o.ckpt.active &&& ~~~g.dead ∧ g'.live = o.ckpt.live &&& ~~~g.dead ∧ g'.sregs = g.sregs ∧
        g'.replays = g.replays + 1 ∧ g'.sigFailed = true) ∧
      (o.sigFailed = true → LaunchStopped t g.launch ∧ OtherLaunches s t g.launch ∧
        (s.syn = [] → t.mem = ((fqEntry g.part (groupEntry s g ⟨.signature, 0, 0, 0, f.sig.setWidth 64, (ctlSig g i c).setWidth 64,
          (maskWord g (c.popped g)).setWidth 64⟩ g.pc)).run s).mem))

/-! ### Encodings and steps -/

/-- R71, R77 to R93, R106: the bytes of every well-formed instruction decode to that instruction, whatever follows them. -/
def Obligations.DecodeEncode : Prop :=
  ∀ (i : Instr) (width : Nat) (bs : List Byte), i.isEvent = false → i.WellFormed width → decode width (encodeBytes i ++ bs) = .instr i

/-- R71, R74: an instruction that is decoded is encoded by the words that it was decoded from: no two words of one length stand for the
same instruction, and no bit of a word is left out of what it stands for. -/
def Obligations.EncodeDecode : Prop :=
  ∀ (width : Nat) (w0 w1 : Word) (i : Instr), decodeWords width w0 w1 = .instr i → encode i = if isLong w0 then [w0, w1] else [w0]

/-- Words written out from the encodings of the spec (in its worked examples) stand for their instructions: `add.i32 v3, v1,
v2.bfly1.last`, `cmp.lt.i32 p3, v1, v2`, `at.add.n32 v5, [s2 + v6], v7`, `add.i64 s5, s3, s4`, `movl s7, 0x0123456789ABCDEF`,
`cp.in.sp.team s4, s10` and `ts.desc s4, s2, s8, s10`. -/
def Obligations.SpecWordsDecode : Prop :=
  decodeWords 64 0x0100018081105140 0 =
    .instr (.addVr ⟨false, false, false, 0⟩ ⟨3, 1, 2, 1, 1, false, true, false, false, 5, 0, false⟩) ∧
  decodeWords 64 0x6000060081000148 0 =
    .instr (.cmp ⟨false, false, false, 0⟩ ⟨3, 1, 2, 0, 0, false, false, false, false, 5, 2, false⟩) ∧
  decodeWords 64 0x900002840D0000C8 0xFF00380000000000 =
    .instr (.atM ⟨false, false, false, 0⟩ ⟨5, 2, 6, true, 0, 0, false, false, false, false, 6, 2, 0⟩
      ⟨0, false, 7, 0, false, false, false, false⟩) ∧
  decodeWords 64 0xA0000A1880000007 0 = .instr (.addUr ⟨false, false, false, 0⟩ ⟨5, 3, 4, 7⟩) ∧
  decodeWords 64 0xE1000E0000000001 0xFF23456789ABCDEF = .instr (.movl ⟨false, false, false, 0⟩ ⟨7, 0, 0, 1⟩ 0x23456789ABCDEF) ∧
  decodeWords 64 0xC00000214000000A 0 = .instr (.cp ⟨false, false, false, 0⟩ ⟨0, 4, 10, 10⟩) ∧
  decodeWords 64 0xD500081100000014 0 = .instr (.tsDesc ⟨false, false, false, 0⟩ ⟨4, 2, 8, 20⟩)

/-- R71, R109: where the words at a group's pc decode to an instruction and it is the group's turn, a step is that instruction of that
group; where it is an operation's turn, a step is that operation. Around it a step only takes the turn from the agenda and counts the
free values; the agenda is the model's (log entry 1). Once a critical condition has stopped the C-dies (R408), the turn of a group or of
work of the C-dies passes with nothing done; which work that is, is the model's choice (log entry 57). -/
def Obligations.StepRunsDecoded : Prop :=
  ∀ (s : State) (rest : List Act),
    (∀ (g : Group) (w0 w1 : Word) (i : Instr), s.agenda = .issue g.gid :: rest → s.grp? g.gid = some g → s.mgmt.stopped = false →
      mayFetch s g = true → codeWord s g g.pc = .word w0 → (isLong w0 = true → codeWord s g (g.pc + 8) = .word w1) →
      (isLong w0 = false → w1 = 0) → decodeWords g.width w0 w1 = .instr i →
      step s = exec i { s with agenda := rest, fresh := s.fresh + 1, cur := some g.gid }) ∧
    (∀ (gid : Nat), s.agenda = .issue gid :: rest → s.mgmt.stopped = true → step s = .next { s with agenda := rest, fresh := s.fresh + 1 }) ∧
    ∀ (i : Instr), s.agenda = .event i :: rest → isOperation i = true →
      step s = if s.mgmt.stopped = true ∧ cdieWork i = true then .next { s with agenda := rest, fresh := s.fresh + 1 }
        else exec i { s with agenda := rest, fresh := s.fresh + 1 }

/-- R120: an instruction with an empty source of EB = 0, and every other that is not ready (R110), leaves the machine as it was: it issues
later. Where a ready instruction has an empty source of EB = 1, it raises EMPTYREAD, but for a collective one of a diverged group, whose
cause comes before (R356): it sends nothing, and its group leaves with what it held. A control instruction treats its condition so. -/
def Obligations.IssueWaits : Prop :=
  (∀ (i : Instr) (h : Hdr) (s : State) (g : Group) (p : Plan), planOf i s = some (h, p) → s.issuing = some g →
      (ready s g h p = false → exec i s = .next s) ∧
      (∀ x, x ∈ p.srcs → x.waits g s.now = true → exec i s = .next s) ∧
      (ready s g h p = true → (p.collective = true → g.active = g.live) → ∀ x, x ∈ p.srcs → x.empty g s.now = true →
        ∃ t r, exec i s = .next t ∧ causeAt i s g h p = some r ∧ r.cause = .emptyread ∧ StopsAsItWas s t g)) ∧
  ∀ (i : Instr) (h : Hdr) (f : CF) (c : Ctl) (s : State) (g : Group), ctlOf i = some (h, f, c) → s.issuing = some g →
    f.ce = true → g.pFull s.now f.cp.toNat = false →
    (f.ebp = false → exec i s = .next s) ∧
    (f.ebp = true → g.hold = .none → g.retryAt ≤ s.now → ∃ t, exec i s = .next t ∧ StopsAsItWas s t g)

/-- R122: a per-group instruction with no effective lane only moves on: it writes no register, sends nothing and parks nothing; names
that it reads for the last time hold nothing. -/
def Obligations.NoLaneNoEffect : Prop :=
  ∀ (i : Instr) (h : Hdr) (s : State) (g : Group) (p : Plan),
    planOf i s = some (h, p) → p.acts = .group → Issues s g i h p → effLanes g h = 0 →
    ∃ t g', exec i s = .next t ∧ t.grp? g.gid = some g' ∧ OnlyGroup s t g.gid ∧
      AfterIssue i g g' (lastNames p.srcs) [] [] g.outst g.hold ∧ ∀ n, n ∈ lastNames p.srcs → g'.preg? n = none

/-- R94, R151, R156, R202, R203, R216, R369 to R371: an effective lane of a lane-wise instruction dies exactly where a lane of a register that
it reads, through a source, as index, as data, or in what its result combines, is marked uncorrectable: it is neither live nor active from
then on, and one UNCORR entry of reason 2 names the lanes that died. The instruction writes nothing for them and sends nothing, and does
for the others what it does where no value is marked: their lanes of registers and predicates, their stacks and their requests are the same,
and the flags are among those. Model's choice: the lanes that are not written after an own last read (log entry 13). -/
def Obligations.MarkedLanesDie : Prop :=
  (∀ (i : Instr) (o : LaneOp) (s : State) (g : Group) (p : Plan),
    laneInstr i = some o → planOf i s = some (o.h, p) → Issues s g i o.h p → g.active &&& ~~~(dying s g o.h p) ≠ 0 →
    g.live &&& ~~~(dying s g o.h p) ≠ 0 →
    ∃ t g', exec i s = .next t ∧ t.grp? g.gid = some g' ∧
      g'.active = g.active &&& ~~~(dying s g o.h p) ∧ g'.live = g.live &&& ~~~(dying s g o.h p) ∧ g'.dead = g.dead ||| dying s g o.h p ∧
      g'.stack = g.stack ∧ g'.pc = g.pc + instrSize i ∧ g'.life = g.life ∧
      ∀ l, l < 64 → ((dying s g o.h p).getLsbD l = true ↔
        (effLanes g o.h).getLsbD l = true ∧ ∃ r, r ∈ o.reads g l ∧ (g.vBad r.1).getLsbD r.2 = true)) ∧
  (∀ (i : Instr) (h : Hdr) (reads : Group → Nat → List (Nat × Nat)) (s : State) (g : Group) (p : Plan),
    marksRead i = some (h, reads) → planOf i s = some (h, p) → Issues s g i h p →
    ∀ l, l < 64 → ((dying s g h p).getLsbD l = true ↔
      (effLanes g h).getLsbD l = true ∧ ∃ r, r ∈ reads g l ∧ (g.vBad r.1).getLsbD r.2 = true)) ∧
  ∀ (i : Instr) (h : Hdr) (s : State) (g : Group) (p p0 : Plan),
    planOf i s = some (h, p) → Issues s g i h p → p.acts = .lanes →
    (let d := dying s g h p
     let on := acting s g h p
     let s0 := s.modGrp g.gid fun _ => g.unmarked
     planOf i s0 = some (h, p0) → Issues s0 g.unmarked i h p0 → g.active &&& ~~~d ≠ 0 → g.live &&& ~~~d ≠ 0 →
     ∃ t t0 g' g0, exec i s = .next t ∧ exec i s0 = .next t0 ∧ t.grp? g.gid = some g' ∧ t0.grp? g.gid = some g0 ∧
       g'.active = g.active &&& ~~~d ∧ g'.live = g.live &&& ~~~d ∧ g'.dead = g.dead ||| d ∧ g'.stack = g.stack ∧
       g'.pc = g.pc + instrSize i ∧ g'.life = g.life ∧
       (∀ l, l < 64 →
         if on.getLsbD l then
           (∀ n, laneOf (g'.vLanes n) l = laneOf (g0.vLanes n) l) ∧ (∀ r, (g'.p r).getLsbD l = (g0.p r).getLsbD l) ∧
             g'.laneStack l = g0.laneStack l
         else
           (∀ n, laneOf (g'.vLanes n) l = laneOf ((g.unmap (lastNames p.srcs)).vLanes n) l) ∧
             (∀ r, (g'.p r).getLsbD l = (g.p r).getLsbD l) ∧ g'.laneStack l = g.laneStack l) ∧
       g.fflags ||| g'.fflags = g'.fflags ∧ g'.fflags ||| g0.fflags = g0.fflags ∧
       ((∀ q, q ∈ s.reqs → q.isParked = false) → t.reqs.map (fun r => { r with id := 0 }) =
         (s.reqs ++ (t0.reqs.drop s.reqs.length).filter fun r => on.getLsbD r.lane).map fun r => { r with id := 0 }) ∧
       (s.syn = [] → if d = 0 then t.mem = s.mem
         else ∀ l, d.getLsbD l = true → (∀ k, k < l → d.getLsbD k = false) →
           t.mem = ((fqEntry g.part (groupEntry s g ⟨.uncorr, 2, l, 0, 0, d, 0⟩ g.pc)).run s).mem))

/-- Memory stays in its canonical form: whatever moves, a step from a state in which device memory is canonical leads to one in which it
is. -/
def Obligations.MemoryStaysCanonical : Prop := ∀ (s t : State), s.Inv → step s = .next t → t.Inv

/-- Every step answers a next state where the machine is not asked to run an instruction without a group, and no refusal is left. -/
def Obligations.StepGoesOn : Prop := ∀ (s : State), GoesOn s

/-- R399, R402, R404: after reset nothing is configured and nothing runs: no launch, team or group exists; no request, copy, matrix
command, Ford instruction, port entry, start, bin launch, bin timer, fill, prefetch, walk or fabric context is in flight; measurement
registers and readiness map are zero; and memory is canonical. That partitions are unconfigured, that no session is open and that no
line, translation or corrected word is counted is the model's choice (log entry 4). -/
def Obligations.ResetLeaves : Prop :=
  State.reset.Inv ∧ (∀ p, (State.reset.part p).state = .none) ∧ State.reset.launches = [] ∧ State.reset.teams = [] ∧ State.reset.groups = [] ∧
    State.reset.reqs = [] ∧ State.reset.copies = [] ∧ State.reset.mxcmds = [] ∧ State.reset.scores = [] ∧ State.reset.fords = [] ∧
    State.reset.ports = [] ∧ State.reset.starts = [] ∧ State.reset.binLaunches = [] ∧ State.reset.binTimers = [] ∧ State.reset.fills = [] ∧
    State.reset.fillFaults = [] ∧ State.reset.prefetches = [] ∧ State.reset.walks = [] ∧ State.reset.fabs = [] ∧
    State.reset.ilines = [] ∧ State.reset.tlb = [] ∧ State.reset.corrected = 0 ∧ State.reset.outbox = [] ∧ State.reset.mgmt.waiting = [] ∧
    State.reset.engines = [] ∧
    State.reset.mgmt.ready = 0 ∧ State.reset.mgmt.meas = List.replicate 8 0 ∧ State.reset.mgmt.session = .none ∧
    State.reset.mgmt.stage = .rom ∧ State.reset.mgmt.stopped = false

/-- R402, R404, R407: but for a module reset, a bit of the readiness map that is set stays set, and a measurement register changes only
when partitions are configured, by extension with the digests of their records: by the command itself, or, at the end of a partition's
reset or as a slice begins to take work, by commands that waited for it, in their order. That a command waits for a slice that takes no work,
and those behind it wait too, is log entry 75, and that waiting commands are served in the step that ends the wait log entry 76, the model's
choices. -/
def Obligations.ManagementRecordsStay : Prop :=
  ∀ (i : Instr) (s t : State), exec i s = .next t → (∀ start flash, i ≠ .moduleReset start flash) →
    (∀ b, s.mgmt.ready.getLsbD b = true → t.mgmt.ready.getLsbD b = true) ∧
    ∃ done : List Instr, (done.Sublist [i] ∨
      (((∃ p, i = .partitionResetComplete p) ∨ (∃ u, i = .unitReady u) ∨ ∃ arr, i = .retentionExit arr) ∧ done.Sublist s.mgmt.waiting)) ∧
      t.mgmt.meas = done.foldl measuredBy s.mgmt.meas

/-- R358, R359, R383, R405: an entry goes to its place in the partition's fault queue, after which `written` counts it; a full queue counts it
in `dropped` instead. Nothing else in memory changes. While the queue's slice takes no work, or an earlier entry waits for it, the entry
waits behind those that do; this order is the model's choice (log entry 79). -/
def Obligations.FaultEntryWritten : Prop :=
  ∀ (s : State) (p : Nat) (e : Entry), s.Inv → s.syn = [] →
    let t := (fqEntry p e).run s
    let fq := (s.part p).fq
    let n := fqWritten s p
    if fqHeld s p then t = s.modPart p fun q => { q with pendEntries := q.pendEntries ++ [(none, e)] }
    else if fqFull s p then WroteBytes s t (fq + 16) (wordBytes (devWord s (fq + 16) + 1))
    else ∀ x, Memory.get t.mem x =
      if fq + 64 + 64 * (n % 512) ≤ x ∧ x < fq + 64 + 64 * (n % 512) + 64 then (wordsBytes e.words).getD (x - (fq + 64 + 64 * (n % 512))) 0
      else if fq ≤ x ∧ x < fq + 8 then (wordBytes (BitVec.ofNat 64 (n + 1))).getD (x - fq) 0
      else Memory.get s.mem x

/-- R21, R120, R129, R135, R178, R228, R241 to R243, R288, R355 to R362: causes at issue. DIVERGED where a
collective instruction's active mask is not its live mask; then EMPTYREAD of the first empty source, which has EB = 1; then UNCORR of a
uniform source. A lane-wise arithmetic instruction then raises FORMAT for the first register of a source whose tag does not pass its
type, and BOUND above the declared peak. A lane-wise access checks the tags of its index and data, then ranges (BOUND), alignment
(ALIGN) and translation (PAGE for an invalid entry, else PROT), the lowest lane first; an access of the group likewise. A control
instruction raises EMPTYREAD for an empty condition with EB = 1, and MASKSTACK where its entry says. A cause that ends the launch writes its
entry, with the place and the pc of the group, and then ends the launch: its groups have left, or hold their slots only for what their
launch's counter cannot take yet (log entry 47), and the groups of other launches go on as they were. A word of a reserved major raises ILLEGAL of reason 1 with the word (R74, R105). PAGE writes its entry and parks its
group on it at the start of its region, with the state of its checkpoint; where the fault queue is full, or its slice takes no work, the group parks
until the entry can be written, and the launch goes on (R358, R364, R366, R405). The model's choices: which of several wrong registers FORMAT
names, and that the peak is checked after the entry's own checks (log entry 20); the value that BOUND names for the peak (log entry 86); that
an entry waits behind an earlier one that waits for the queue's slice (log entry 79). -/
def Obligations.CausesReported : Prop :=
  (∀ (i : Instr) (h : Hdr) (s : State) (g : Group) (p : Plan),
      planOf i s = some (h, p) → ready s g h p = true →
      (isCollective i = true → g.active ≠ g.live → causeAt i s g h p = some ⟨.diverged, 0, 0, 0, word0Of i, g.active, g.live⟩) ∧
      ((isCollective i = true → g.active = g.live) →
        (∀ pre x post, p.srcs = pre ++ x :: post → (∀ y, y ∈ pre → y.empty g s.now = false) → x.empty g s.now = true →
          causeAt i s g h p = some (x.report i) ∧ x.waits g s.now = false) ∧
        ((∀ x, x ∈ p.srcs → x.empty g s.now = false) → ∀ pre r eb post, p.srcs = pre ++ .s r eb :: post → r ≠ 0 → (g.sreg r).bad = true →
          (∀ q b, .s q b ∈ pre → q ≠ 0 → (g.sreg q).bad = false) →
          causeAt i s g h p = some ⟨.uncorr, 3, r, 0, word0Of i, 0, 0⟩))) ∧
  (∀ (i : Instr) (o : LaneOp) (s : State) (g : Group) (p : Plan),
      arithInstr i = some o → planOf i s = some (o.h, p) → (∀ x, x ∈ p.srcs → x.empty g s.now = false) → (∀ r, (g.sreg r).bad = false) →
      (∀ pre x post lo n hi, o.srcs = pre ++ x :: post → x.names = lo ++ n :: hi →
        (∀ y m, y ∈ pre → m ∈ y.names → ¬tagWrong y.type (g.vTag m)) → (∀ m, m ∈ lo → ¬tagWrong x.type (g.vTag m)) →
        tagWrong x.type (g.vTag n) → n < 256 →
        causeAt i s g o.h p = some ⟨.format, (g.vTag n).toNat, n, 0, word0Of i, word1Of i, 0⟩) ∧
      ((∀ x n, x ∈ o.srcs → n ∈ x.names → ¬tagWrong x.type (g.vTag n)) → causeAt i s g o.h p = peakCause i s g o.h p)) ∧
  (∀ (i : Instr) (c : AccessChecks) (s : State) (g : Group) (p : Plan),
      accessChecks i = some c → planOf i s = some (c.h, p) → (∀ x, x ∈ p.srcs → x.empty g s.now = false) → (∀ r, (g.sreg r).bad = false) →
      p.consumed g (effLanes g c.h) = 0 →
      (let index := c.f.ix = true → ∀ n, n ∈ (mIndex c.f c.pairIx).names → g.vTag n ∈ if c.pairIx then [0, 7, 8] else [0, 5, 6]
       let data := ∀ n, n ∈ c.data → ¬tagWrong c.f.type (g.vTag n)
       let lanes := lanesOf (effLanes g c.h)
       let strays := fun l => c.aligned = true ∧ c.place g l % (sizeBytes c.f.size : Int) ≠ 0
       let found := fun l (n : Need) => locate s g.core g.part (BitVec.ofInt 64 (c.place g l)) (sizeBytes c.f.size) n
       (¬(index ∧ data) → ∃ r, causeAt i s g c.h p = some r ∧ r.cause = .format) ∧
       (index → data →
         (∀ lo l hi, lanes = lo ++ l :: hi → (∀ k, k ∈ lo → c.inside s g k) → ¬c.inside s g l →
           causeAt i s g c.h p = some ⟨.bound, 0, l, 0, BitVec.ofInt 64 (c.value g l), word0Of i, word1Of i⟩) ∧
         ((∀ l, l ∈ lanes → c.inside s g l) →
           (∀ lo l hi, lanes = lo ++ l :: hi → (∀ k, k ∈ lo → ¬strays k) → strays l →
             causeAt i s g c.h p = some ⟨.align, 0, l, 0, BitVec.ofInt 64 (c.place g l), word0Of i, word1Of i⟩) ∧
           ((∀ l, l ∈ lanes → ¬strays l) →
             (∀ n lo l hi e, c.need = some n → lanes = lo ++ l :: hi → (∀ k, k ∈ lo → ∃ x, found k n = .ok x) → found l n = .error e →
               causeAt i s g c.h p = some ⟨if e.1 = 2 then .page else .prot, e.1, l, 0, e.2, word0Of i, 0⟩) ∧
             ((∀ n l, c.need = some n → l ∈ lanes → ∃ x, found l n = .ok x) → causeAt i s g c.h p = peakCause i s g c.h p)))))) ∧
  (∀ (i : Instr) (h : Hdr) (f : MF) (aligned : Bool) (n : Need) (s : State) (g : Group) (p : Plan),
      groupChecks i = some (h, f, aligned, n) → planOf i s = some (h, p) → (∀ x, x ∈ p.srcs → x.empty g s.now = false) →
      (∀ r, (g.sreg r).bad = false) → effLanes g h ≠ 0 →
      (let strays := aligned = true ∧ (groupVa f g).toNat % sizeBytes f.size ≠ 0
       (strays → causeAt i s g h p = some ⟨.align, 0, 0, 0, groupVa f g, word0Of i, word1Of i⟩) ∧
       (¬strays → ∀ e, locate s g.core g.part (groupVa f g) (sizeBytes f.size) n = .error e →
         causeAt i s g h p = some ⟨if e.1 = 2 then .page else .prot, e.1, 0, 0, e.2, word0Of i, 0⟩) ∧
       (¬strays → ∀ x, locate s g.core g.part (groupVa f g) (sizeBytes f.size) n = .ok x → causeAt i s g h p = none))) ∧
  (∀ (i : Instr) (h : Hdr) (f : CF) (c : Ctl) (s : State) (g : Group),
      ctlOf i = some (h, f, c) →
      c.check g = maskStackFails i g ∧
      (s.issuing = some g → g.hold = .none → g.retryAt ≤ s.now → s.syn = [] → ∀ r,
        (f.ce = true ∧ f.ebp = true ∧ g.pFull s.now f.cp.toNat = false ∧ r = ⟨.emptyread, 4, f.cp.toNat, 0, word0Of i, word1Of i, 0⟩) ∨
          ((f.ce = true → g.pFull s.now f.cp.toNat = true) ∧
            ∃ n, maskStackFails i g = some n ∧ r = ⟨.maskstack, n, 0, 0, word0Of i, BitVec.ofNat 64 g.stack.length, 0⟩) →
        ∃ t, exec i s = .next t ∧ t.mem = ((fqEntry g.part (groupEntry s g r g.pc)).run s).mem ∧
          LaunchEnded t g.launch ∧ OtherLaunches s t g.launch)) ∧
  (∀ (i : Instr) (h : Hdr) (s : State) (g : Group) (p : Plan) (r : Report),
      planOf i s = some (h, p) → s.issuing = some g → ready s g h p = true → causeAt i s g h p = some r → r.ends = true → s.syn = [] →
      (r.cause = .prot → awakeWords s (p.touches s g (effLanes g h)) = true) →
      ∃ t, exec i s = .next t ∧ t.mem = ((fqEntry g.part (groupEntry s g r g.pc)).run s).mem ∧
        LaunchEnded t g.launch ∧ OtherLaunches s t g.launch) ∧
  (∀ (w : Word) (s : State) (g : Group),
      s.issuing = some g → mayFetch s g = true →
      ∃ t, exec (.reservedMajor w) s = .next t ∧
        t.mem = ((fqEntry g.part (groupEntry s g ⟨.illegal, 1, 0, 0, w, 0, 0⟩ g.pc)).run s).mem ∧
        LaunchEnded t g.launch ∧ OtherLaunches s t g.launch) ∧
  (∀ (i : Instr) (h : Hdr) (s : State) (g : Group) (p : Plan) (r : Report),
      planOf i s = some (h, p) → s.issuing = some g → ready s g h p = true → causeAt i s g h p = some r → r.cause = .page → s.syn = [] →
      awakeWords s (p.touches s g (effLanes g h)) = true →
      (∀ q, q ∈ s.reqs → q.gid = g.gid → q.isParked = true → ∀ v rem, q.op ≠ .waitGe v rem) →
      ∃ t g', exec i s = .next t ∧ t.grp? g.gid = some g' ∧ g'.life = g.life ∧ g'.pc = g.regionStart ∧ g'.cur = g.ent ∧
        g'.preds = g.ckpt.preds ∧ g'.stack = g.ckpt.stack ∧ g'.active = g.ckpt.active &&& ~~~g.dead ∧
        g'.live = g.ckpt.live &&& ~~~g.dead ∧ g'.sregs = g.sregs ∧ g'.replays = g.replays ∧
        (if fqHeld s g.part ∨ fqFull s g.part then g'.hold = .pagePending ∧ t.mem = s.mem ∧
           t.parts = (s.modPart g.part fun q => { q with
             pendEntries := q.pendEntries ++ [(some g.gid, groupEntry s g r g.pc)] }).parts
         else g'.hold = .page (fqWritten s g.part) ∧ t.mem = ((fqEntry g.part (groupEntry s g r g.pc)).run s).mem))

/-! ### Accesses where they are performed -/

/-- R4, R233, R241, R245 to R247, R249, R283, R359, R382: a load whose last piece is performed at its home slice delivers the bytes of memory,
widened, to its lane or uniform register and is answered; a store writes its bytes, lowest first, and nothing else in memory, but for the
words of a fault queue that only the device writes, which stay as they are, and each wait parked on a word that it writes goes on if the word
then meets its target. A diagnostic store writes its word with the check bits that its mask chooses, and its group goes on. Model's choice
(log entry 77): which words are kept, that the rest of such a store is performed, and that other maps in memory are ordinary memory. -/
def Obligations.HomeSlicePerforms : Prop :=
  ∀ (s : State) (r : Req) (p : Piece) (rest : List Piece),
    s.Inv → s.syn = [] → s.req? r.id = some r → r.sp = false → canPerform s r = true → served s r = true → r.pieces = p :: rest →
    (∀ d size signed, r.op = .load d size signed → rest = [] →
      ∃ t, exec (.homeSliceAccess r.id) s = .next t ∧ t.mem = s.mem ∧ Answered t r ∧
        (∀ pids l, d = .lane pids l → Landed s t r pids l (widenLanes size signed (r.got ++ Memory.bytes s.mem p.addr p.len))) ∧
        (∀ x g, d = .uni x → x ≠ 0 → r.drop = false → s.grp? r.gid = some g → ∃ g', t.grp? r.gid = some g' ∧ SameWork g g' ∧
          g'.sreg x = ⟨widenUni size signed (r.got ++ Memory.bytes s.mem p.addr p.len), some s.now, r.bad⟩ ∧
          ∀ y, y ≠ x → g'.sreg y = g.sreg y)) ∧
    (∀ d size signed, r.op = .load d size signed → rest ≠ [] →
      ∃ t, exec (.homeSliceAccess r.id) s = .next t ∧
        t = s.modReq r.id fun q => { q with pieces := rest, got := r.got ++ Memory.bytes s.mem p.addr p.len, bad := r.bad }) ∧
    (∀ data, r.op = .store data →
      ∃ t, exec (.homeSliceAccess r.id) s = .next t ∧
        (∀ x, Memory.get t.mem x =
          if p.addr ≤ x ∧ x < p.addr + (data.take p.len).length ∧ fqKept s x = false then data.getD (x - p.addr) 0 else Memory.get s.mem x) ∧
        (∀ q, q ∈ t.reqs → q.id = r.id → if rest = [] then q.phase = .done else q.pieces = rest ∧ q.op = .store (data.drop p.len)) ∧
        (Writable s p.addr (data.take p.len).length → NoReply s p.addr (data.take p.len).length →
          ∀ w, p.addr < w + 8 → w < p.addr + (data.take p.len).length → WaitsWoken s t (fun q => q.sp = false) w (memWord t w))) ∧
    ∀ data mask, r.op = .diag data mask →
      ∃ t, exec (.homeSliceAccess r.id) s = .next t ∧ Answered t r ∧
        (if fqKept s p.addr then t.mem = s.mem ∧ t.syn = []
         else NoReply s p.addr 8 → WroteBytes s t p.addr (wordBytes data) ∧ t.syn = if mask = 0 then [] else [(p.addr, mask)]) ∧
        (NoReply s p.addr 8 → ∀ g, s.grp? r.gid = some g → g.hold = .diag → ∃ g', t.grp? r.gid = some g' ∧ SameWork g g' ∧ g'.hold = .none)

/-- R235, R238, R239, R245, R246, R249, R283, R303, R382: at the banks of its team's scratchpad the lanes of an instruction that name one bank word are
performed in one access. Each load of it reads the bytes at its offset and, with its last word, delivers them; of the stores the highest
lane leaves its bytes, and the granule that they write is full, where no lane is parked that could empty it again. A lane of a `.fe` load
completes on a full granule, which a take empties, and parks on an empty one, where it leaves the scoreboard (log entry 28, the model's
choice). A store that fills a granule completes every parked lane without take on it, and the lanes of the one taker that parked first,
which empties it again, other takers waiting on; a counter that it writes lets the waits go on whose target it then meets. A diagnostic
store writes its word with the check bits that its mask chooses, and fills nothing (log entry 28). Device memory stays. -/
def Obligations.BanksPerform : Prop :=
  ∀ (s : State) (r : Req) (p : Piece) (rest : List Piece) (tm : Team),
    s.req? r.id = some r → r.sp = true → canPerform s r = true → bankAwake s r = true → r.pieces = p :: rest →
    s.team? r.team = some tm → tm.spSyn = [] → (∀ q, q ∈ together s r → q.team = r.team) →
    ((∃ d size signed, r.op = .load d size signed) →
      ∃ t tm', exec (.bankAccess r.id) s = .next t ∧ t.mem = s.mem ∧ t.team? r.team = some tm' ∧ tm'.sp = tm.sp ∧ tm'.empties = tm.empties ∧
        ∀ q pids l size signed x more, q ∈ together s r → q.op = .load (.lane pids l) size signed → q.pieces = x :: more →
          (∀ o, o ∈ together s r → o.id = q.id → o = q) →
          if more ≠ [] then ∀ o, o ∈ t.reqs → o.id = q.id → o.pieces = more ∧ o.got = q.got ++ Memory.bytes tm.sp x.addr x.len
          else Answered t q ∧
            ((∀ o ps m n b, o ∈ together s r → o.id ≠ q.id → o.op = .load (.lane ps m) n b → m ≠ l) →
              ∀ g, s.grp? q.gid = some g → ∃ g', t.grp? q.gid = some g' ∧ SameWork g g' ∧
                ∀ k pid y, pids.Nodup → pids[k]? = some pid → (g.pregs.find? fun z => z.id == pid) = some y → y.merge = none →
                  y.orphan = false → ∃ z, (g'.pregs.find? fun z => z.id == pid) = some z ∧
                    laneOf z.lanes l = (widenLanes size signed (q.got ++ Memory.bytes tm.sp x.addr x.len)).getD k 0)) ∧
    (∀ d size signed, r.op = .load d size signed → together s r = [r] → rest = [] → ∀ pids l, d = .lane pids l →
      ∃ t, exec (.bankAccess r.id) s = .next t ∧ Landed s t r pids l (widenLanes size signed (r.got ++ Memory.bytes tm.sp p.addr p.len))) ∧
    ((∃ data, r.op = .store data) → (∀ q, q ∈ together s r → (q.putting.1 % 8) + q.putting.2.length ≤ 8) →
      ∃ t tm', exec (.bankAccess r.id) s = .next t ∧ t.mem = s.mem ∧ t.team? r.team = some tm' ∧
        (let covers := fun (q : Req) a => q.putting.1 ≤ a ∧ a < q.putting.1 + q.putting.2.length
         (∀ a lo q hi, together s r = lo ++ q :: hi → covers q a → (∀ o, o ∈ hi → ¬covers o a) →
           Memory.get tm'.sp a = q.putting.2.getD (a - q.putting.1) 0) ∧
         (∀ a, (∀ q, q ∈ together s r → ¬covers q a) → Memory.get tm'.sp a = Memory.get tm.sp a)) ∧
        ((∀ q, q ∈ s.reqs → q.isParked = false) → p.addr / 16 * 16 ∉ tm'.empties) ∧
        ∀ q x more data, q ∈ together s r → q.op = .store data → q.pieces = x :: more → (∀ o, o ∈ together s r → o.id = q.id → o = q) →
          if more = [] then Answered t q else ∀ o, o ∈ t.reqs → o.id = q.id → o.pieces = more ∧ o.op = .store (data.drop x.len)) ∧
    (∀ pids l size signed take, r.op = .fe (.lane pids l) size signed take → together s r = [r] →
      ∃ t tm', exec (.bankAccess r.id) s = .next t ∧ t.mem = s.mem ∧ t.team? r.team = some tm' ∧ tm'.sp = tm.sp ∧
        if p.addr / 16 * 16 ∈ tm.empties then
          tm'.empties = tm.empties ∧ t.req? r.id = some { r with phase := .parked (parkOrder s r) } ∧
          (∀ e, e ∈ t.scores → ¬(e.cmd = none ∧ e.gid = r.gid ∧ e.seq = r.seq))
        else
          Answered t r ∧ Landed s t r pids l (widenLanes size signed (Memory.bytes tm.sp p.addr p.len)) ∧
          (∀ a, a ∈ tm'.empties ↔ a ∈ tm.empties ∨ (take = true ∧ a = p.addr / 16 * 16))) ∧
    (∀ data, r.op = .store data → together s r = [r] → r.putting.2 ≠ [] → p.addr % 8 + r.putting.2.length ≤ 8 →
      ∃ t tm', exec (.bankAccess r.id) s = .next t ∧ t.team? r.team = some tm' ∧
        (let gran := p.addr / 16 * 16
         let parked := fun (q : Req) (take : Bool) => q ∈ s.reqs ∧ (∃ k, q.phase = .parked k) ∧ q.feOn r.team gran = some take
         let first := fun (f : Req) => parked f true ∧ ∀ q k j, parked q true → f.phase = .parked k → q.phase = .parked j →
            k ≤ j ∧ (k = j → sameInstr q f = true)
         (∀ q, parked q false → Completes s t q tm') ∧
         (∀ f q, first f → parked q true → if sameInstr q f then Completes s t q tm' else q ∈ t.reqs) ∧
         ((∃ f, first f) → gran ∈ tm'.empties) ∧ ((∀ q, ¬parked q true) → gran ∉ tm'.empties) ∧
         WaitsWoken s t (fun q => q.sp = true ∧ q.team = r.team) (p.addr / 8 * 8)
           (BitVec.ofNat 64 (bytesNat (Memory.bytes tm'.sp (p.addr / 8 * 8) 8))))) ∧
    ∀ data mask, r.op = .diag data mask →
      ∃ t tm', exec (.bankAccess r.id) s = .next t ∧ t.mem = s.mem ∧ Answered t r ∧ t.team? r.team = some tm' ∧
        tm'.sp = Memory.putBytes tm.sp p.addr (wordBytes data) ∧ tm'.spSyn = (if mask = 0 then [] else [(p.addr, mask)]) ∧
        tm'.empties = tm.empties ∧
        ∀ g, s.grp? r.gid = some g → g.hold = .diag → ∃ g', t.grp? r.gid = some g' ∧ SameWork g g' ∧ g'.hold = .none

/-- R276 to R283, R286 to R288, R322 to R324, R327 to R332, R360: what a request does where it is performed. An atomic that is alone at its
word puts the new value of its operation there and delivers the old one. An add to a counter leaves min(c + v, 2^64 − 1), in scratchpad
without filling a granule, a clamped one writes COUNTER, and each parked wait whose target the sum meets goes on. A wait is satisfied where its counter has reached the target, else parks; a
slice whose 128 watches are taken refuses it for 64 cc. A push puts its record into the queue's entries or, while it is spilled or they
are full, its ring; a pop takes the oldest entry and refills from the ring. A put joins the bin's slot, starts its timer, and closes the
slot with a launch where it fills it. A jetty push appends its token, or hands it to the consumer that parked first; a pop takes the
oldest token, or parks. Each answers its status word and its data. Model's choices: `remain` stays as a put closes a slot (log entry 45), the
COUNTER entry of a clamp names no group but the serial of the launch (log entry 29), an add fills no granule (log entry 90), and the watch and the hold of jy.pop.park (log entry 44). -/
def Obligations.AtomicsPerform : Prop :=
  (∀ (s : State) (r : Req) (p : Piece) (rest : List Piece),
    s.Inv → s.syn = [] → s.req? r.id = some r → r.sp = false → canPerform s r = true → served s r = true → structAwake s r = true →
    r.pieces = p :: rest →
    (∀ (aop type : Nat) (x y : Word) (d : Dest), r.op = .atomic aop type x y d →
      (s.reqs.filter fun q => sameInstr q r && q.undone && (q.pieces.head?.map Piece.addr) == some p.addr) = [r] →
      Writable s p.addr p.len → NoReply s p.addr p.len →
      ∃ t, exec (.homeSliceAccess r.id) s = .next t ∧ Answered t r ∧
        (let old := BitVec.ofNat 64 (bytesNat (Memory.bytes s.mem p.addr p.len))
         let back := natBytes p.len old.toNat
         let size := if p.len = 8 then 3 else 2
         WroteBytes s t p.addr (natBytes p.len (atomicNew aop type old x y).toNat) ∧
         (∀ pids l, d = .lane pids l → Landed s t r pids l (widenLanes size (type == 5) back)) ∧
         (∀ u g, d = .uni u → u ≠ 0 → r.drop = false → s.grp? r.gid = some g →
           ∃ g', t.grp? r.gid = some g' ∧ g'.sreg u = ⟨widenUni size (type == 5) back, some s.now, false⟩))) ∧
    (∀ (v va : Word), r.op = .sigAdd v va → Writable s p.addr 8 → NoReply s p.addr 8 →
      ∃ t m, exec (.homeSliceAccess r.id) s = .next t ∧ (∀ q, q ∈ t.reqs → q.id = r.id → q.phase = .done) ∧
        (let sum := (memWord s p.addr).toNat + v.toNat
         let new := BitVec.ofNat 64 (min sum (2 ^ 64 - 1))
         WroteBytes s { s with mem := m } p.addr (wordBytes new) ∧
         WaitsWoken s t (fun q => q.sp = false) p.addr new ∧
         t.mem = if sum < 2 ^ 64 then m
           else ((fqEntry r.part { report := ⟨.counter, 2, 0, 0, va, v, 0⟩, serial := s.serialOf r.launch }).run { s with mem := m }).mem)) ∧
    (∀ (target : Word) (rem : Bool) (g : Group), r.op = .waitGe target rem → r.drop = false → s.grp? r.gid = some g →
      ∃ t, exec (.homeSliceAccess r.id) s = .next t ∧ t.mem = s.mem ∧
        if target.toNat ≤ (memWord s p.addr).toNat then
          Answered t r ∧ ∃ g', t.grp? r.gid = some g' ∧ SameWork g g' ∧ g'.hold = .none
        else t = s.modReq r.id fun q =>
          if 128 ≤ watchesAt s (homeSlice p.addr) then { q with phase := .rearm (s.now + 64), wt := false }
          else { q with watch := true, phase := .parked (parkOrder s q) }) ∧
    (let ws := memWords s p.addr 8
     let h := QHead.of ws
     let block := 2112 + 64 * h.cap
     p.addr % 64 = 0 → Writable s p.addr block → NoReply s p.addr block →
     (∀ (x : List Word) (sd room : Nat), r.op = .qPush x sd room → x.length = 8 →
       ∃ t, exec (.homeSliceAccess r.id) s = .next t ∧ Answered t r ∧
         if queueBad ws p.addr room = true then t.mem = s.mem ∧ Told s t r [(sd, 0x201)]
         else if h.spill = false ∧ h.qcount < 32 then
           (let e := p.addr + 64 + 64 * ((h.qhead + h.qcount) % 32)
            memWords t e 8 = x ∧ QHead.of (memWords t p.addr 8) = { h with qcount := h.qcount + 1, pushed := h.pushed + 1 } ∧
            WordsKept s t [(p.addr + 8, 24), (e, 64)] ∧ Told s t r [(sd, 0)])
         else if h.rcount = h.cap then t.mem = s.mem ∧ Told s t r [(sd, 2)]
         else
           (let e := p.addr + 2112 + 64 * ((h.rhead + h.rcount) % h.cap)
            memWords t e 8 = x ∧ QHead.of (memWords t p.addr 8) = { h with rcount := h.rcount + 1, spill := true, pushed := h.pushed + 1 } ∧
            WordsKept s t [(p.addr + 8, 24), (e, 64)] ∧ Told s t r [(sd, 0x10000)])) ∧
     (∀ (sd sb room : Nat), r.op = .qPop sd sb room →
       ∃ t, exec (.homeSliceAccess r.id) s = .next t ∧ Answered t r ∧
         (let told := fun (status : Word) (y : List Word) => Told s t r ((sd, status) :: (List.range 8).map fun k => (sb + k, y.getD k 0))
          let e := p.addr + 64 + 64 * h.qhead
          let ring := p.addr + 2112 + 64 * h.rhead
          let tail := p.addr + 64 + 64 * (((h.qhead + 1) % 32 + (h.qcount - 1)) % 32)
          if queueBad ws p.addr room = true then t.mem = s.mem ∧ told 0x201 []
          else if h.qcount = 0 then t.mem = s.mem ∧ told 5 []
          else told 0 (memWords s e 8) ∧
            if h.spill = true then
              QHead.of (memWords t p.addr 8) = { h with
                qhead := (h.qhead + 1) % 32, popped := h.popped + 1, rhead := (h.rhead + 1) % h.cap, rcount := h.rcount - 1,
                spill := decide (1 < h.rcount) } ∧
              memWords t tail 8 = memWords s ring 8 ∧ WordsKept s t [(p.addr + 8, 24), (tail, 64)]
            else
              QHead.of (memWords t p.addr 8) = { h with qhead := (h.qhead + 1) % 32, qcount := h.qcount - 1, popped := h.popped + 1 } ∧
              WordsKept s t [(p.addr + 8, 24)]))) ∧
    (∀ (x : List Word) (va : Word) (sd room : Nat), r.op = .binPut x va sd room → x.length = 8 → p.addr % 128 = 0 →
      (let ws := memWords s p.addr 16
       let h := BinHead.of ws
       let block := 128 + 2048 * (h.nsm1 + 1)
       let rec_ := p.addr + 128 + 2048 * h.cur + 64 * h.fill
       let starts := h.fill = 0 ∧ h.period ≠ 0
       Writable s p.addr block → NoReply s p.addr block →
       ∃ t, exec (.homeSliceAccess r.id) s = .next t ∧ Answered t r ∧
         if binBad ws p.addr room = true then t.mem = s.mem ∧ Told s t r [(sd, 0x201)]
         else if binBusy ws h.cur = true then t.mem = s.mem ∧ Told s t r [(sd, 2)]
         else if starts ∧ 64 ≤ timersAt s (homeSlice p.addr) then t.mem = s.mem ∧ Told s t r [(sd, 0x101)]
         else Told s t r [(sd, 0)] ∧ memWords t rec_ 8 = x ∧ memWord t (p.addr + 16) = memWord s (p.addr + 16) + 1 ∧
           memWord t (p.addr + 64) = va ∧ BinHead.of (memWords t p.addr 16) = { h with
             remain := if starts then h.period else h.remain
             fill := if h.fill + 1 = h.coal then 0 else h.fill + 1
             cur := if h.fill + 1 = h.coal then (h.cur + 1) % (h.nsm1 + 1) else h.cur } ∧
           if h.fill + 1 = h.coal then
             (∀ b, b ∈ t.binTimers → b.pa ≠ p.addr) ∧ memWord t (p.addr + 24) = memWord s (p.addr + 24) + 1 ∧
             memWord t (p.addr + 32 + 8 * (h.cur / 64)) = memWord s (p.addr + 32 + 8 * (h.cur / 64)) ||| BitVec.ofNat 64 (2 ^ (h.cur % 64)) ∧
             WordsKept s t [(p.addr + 8, 24), (p.addr + 32 + 8 * (h.cur / 64), 8), (p.addr + 64, 8), (rec_, 64)] ∧
             ∃ y, t.binLaunches = s.binLaunches ++ [y] ∧ y.slice = homeSlice p.addr ∧ y.part = r.part ∧ y.task = h.task ∧ y.teams = 1 ∧
               y.cls = none ∧ y.args = [va + BitVec.ofNat 64 (128 + 2048 * h.cur), BitVec.ofNat 64 h.coal, va, BitVec.ofNat 64 h.cur] ∧
               y.source = .bin (homeSlice p.addr) p.addr h.cur ∧ y.held = none ∧
               ((∀ a, a ∈ descWords s r.part h.task → Apart a 8 p.addr block) → y.desc = readDesc s r.part h.task)
           else
             t.binLaunches = s.binLaunches ∧ WordsKept s t [(p.addr + 8, 16), (p.addr + 64, 8), (rec_, 64)] ∧
             (starts → ∃ b, b ∈ t.binTimers ∧ b.pa = p.addr) ∧ ∀ b, b.pa = p.addr → b ∈ t.binTimers → b.part = r.part))) ∧
  (∀ (s : State) (r : Req) (p : Piece) (rest : List Piece) (tm : Team),
    s.req? r.id = some r → r.sp = true → canPerform s r = true → bankAwake s r = true → r.pieces = p :: rest →
    s.team? r.team = some tm → tm.spSyn = [] →
    (let c := BitVec.ofNat 64 (bytesNat (Memory.bytes tm.sp p.addr 8))
     (∀ (v va : Word), r.op = .sigAdd v va →
       ∃ t tm', exec (.bankAccess r.id) s = .next t ∧ Answered t r ∧ t.team? r.team = some tm' ∧ tm'.empties = tm.empties ∧
         (let new := BitVec.ofNat 64 (min (c.toNat + v.toNat) (2 ^ 64 - 1))
          tm'.sp = Memory.putBytes tm.sp p.addr (wordBytes new) ∧
          WaitsWoken s t (fun q => q.sp = true ∧ q.team = r.team) p.addr new ∧
          (s.syn = [] → t.mem = if c.toNat + v.toNat < 2 ^ 64 then s.mem
            else ((fqEntry r.part { report := ⟨.counter, 2, 0, 0, va, v, 0⟩, serial := s.serialOf r.launch }).run s).mem))) ∧
     (∀ (target : Word) (rem : Bool) (g : Group), r.op = .waitGe target rem → r.drop = false → s.grp? r.gid = some g →
       ∃ t, exec (.bankAccess r.id) s = .next t ∧ t.mem = s.mem ∧
         if target.toNat ≤ c.toNat then Answered t r ∧ ∃ g', t.grp? r.gid = some g' ∧ SameWork g g' ∧ g'.hold = .none
         else t = s.modReq r.id fun q => { q with watch := false, phase := .parked (parkOrder s q) }))) ∧
  (∀ (s : State) (r : Req) (j : Nat),
    s.Inv → s.syn = [] → s.req? r.id = some r → r.sp = false → canPerform s r = true → served s r = true → structAwake s r = true →
    jettyServed s j = true → heldByJetty s r j = false →
    (let right := fun (push : Bool) => ∃ q, s.jetty? j = some q ∧ r.part = if push then q.prod else q.cons
     let reset := ∃ q, s.jetty? j = some q ∧ (q.prst = true ∨ q.crst = true)
     (∀ (t0 t1 : Word) (sd : Nat), r.op = .jyPush j t0 t1 sd →
       ∃ t, exec (.homeSliceAccess r.id) s = .next t ∧ Answered t r ∧
         (¬right true → t.mem = s.mem ∧ t.jettys = s.jettys ∧ Told s t r [(sd, 0x301)]) ∧
         (right true → reset → t.mem = s.mem ∧ t.jettys = s.jettys ∧ Told s t r [(sd, 4)] ∧
           t.parts = (countEvent r.part 2 s).parts ∧ t.outbox = (countEvent r.part 2 s).outbox) ∧
         ∀ q, right true → ¬reset → s.jetty? j = some q →
           (q.count = q.capm1 + 1 → t.mem = s.mem ∧ t.jettys = s.jettys ∧ Told s t r [(sd, 2)]) ∧
           (q.count ≠ q.capm1 + 1 → Writable s (tokenAt q q.count) 16 → NoReply s (tokenAt q q.count) 16 →
             WroteBytes s t (tokenAt q q.count) (wordsBytes [t0, t1]) ∧
             (firstParked s j = none → Told s t r [(sd, 0)] ∧
               t.jettys = (s.modJetty j fun q => { q with count := q.count + 1, pushed := q.pushed + 1 }).jettys) ∧
             ∀ c csd csb park, firstParked s j = some c → c.op = .jyPop j csd csb park → c.id ≠ r.id → c.gid ≠ r.gid → q.count = 0 →
               Told s t r [(sd, 0)] ∧ Told s t c [(csd, 0), (csb, t0), (csb + 1, t1)] ∧ Answered t c ∧
               (park = true → ∀ g, s.grp? c.gid = some g → g.hold = .jetty → ∃ g', t.grp? c.gid = some g' ∧ g'.hold = .none) ∧
               t.jettys = (s.modJetty j fun q => { q with
                 head := (q.head + 1) % (q.capm1 + 1), pushed := q.pushed + 1, popped := q.popped + 1 }).jettys)) ∧
     (∀ (sd sb : Nat) (park : Bool), r.op = .jyPop j sd sb park →
       ∃ t, exec (.homeSliceAccess r.id) s = .next t ∧ t.mem = s.mem ∧
         (let told := fun (status a b : Word) => Answered t r ∧ Told s t r [(sd, status), (sb, a), (sb + 1, b)] ∧
            ∀ g, park = true → s.grp? r.gid = some g → g.hold = .jetty → ∃ g', t.grp? r.gid = some g' ∧ g'.hold = .none
          (¬right false → told 0x301 0 0 ∧ t.jettys = s.jettys) ∧
          (right false → reset → told 4 0 0 ∧ t.jettys = s.jettys ∧
            t.parts = (countEvent r.part 2 s).parts ∧ t.outbox = (countEvent r.part 2 s).outbox) ∧
          ∀ q, right false → ¬reset → s.jetty? j = some q →
            (q.count ≠ 0 → told 0 (memWord s (tokenAt q 0)) (memWord s (tokenAt q 0 + 8)) ∧
              t.jettys = (s.modJetty j fun q => { q with
                head := (q.head + 1) % (q.capm1 + 1), count := q.count - 1, popped := q.popped + 1 }).jettys) ∧
            (q.count = 0 → (park = false ∨ r.drop = true) → told 5 0 0 ∧ t.jettys = s.jettys) ∧
            (q.count = 0 → park = true → r.drop = false → t = s.modReq r.id fun x =>
              if 128 ≤ watchesAt s (homeSlice q.ringpa) then { x with phase := .rearm (s.now + 64), wt := false }
              else { x with watch := true, pieces := [⟨q.ringpa, 0, false, false⟩], phase := .parked (parkOrder s x) })))))

/-- R291, R293: a continuation atomic with a free Slipway slot and a descriptor of a possible size, which lies in a slice that takes work, puts
the new value into its word, answers the old value and whether its condition held, and where it held leaves a start with the old value, the
address and its argument. Of a resetting partition it answers RESET, without a slot that the partition may take REFUSED of reason 0, and with a
descriptor of no possible size, or no teams, REFUSED of reason 9, with an entry LAUNCH of that reason (R31, R360): the old value reads 0, no
start is left, and memory changes by the entry alone. That the entry holds the old value 0 and no group is log entry 29; that a descriptor in a
slice that takes no work is awaited follows R383 and R405. -/
def Obligations.ContinuationAtomics : Prop :=
  ∀ (s : State) (r : Req) (p : Piece) (rest : List Piece) (aop cond type vt sst : Nat) (x y arg tk va : Word) (g : Group),
    s.Inv → s.syn = [] → s.req? r.id = some r → canPerform s r = true → served s r = true → r.pieces = p :: rest →
    r.op = .atc aop cond type x y arg tk va vt sst → s.grp? r.gid = some g → r.drop = false →
    (let task := tk.toNat % 65536
     let d := readDesc s r.part task
     let asked := tk.toNat / 2 ^ 16 % 2 ^ 20
     let n := if asked = 0 then descTeams d else asked
     let resets := (s.part r.part).state = .resetting
     let room := mayClaim s 64 r.part (slipUsed s (homeSlice p.addr)) = true
     let awake := awakeWords s (descWords s r.part task) = true
     let sized := descSize d ≠ 0 ∧ descSize d ≤ 3072 ∧ n ≠ 0
     let turnedAway := fun (t : State) (reason status : Nat) => exec (.atcSlicePerform r.id) s = .next t ∧ Answered t r ∧ t.starts = s.starts ∧
       ∃ g', t.grp? r.gid = some g' ∧ SameWork g g' ∧ (sst ≠ 0 → g'.s sst = BitVec.ofNat 64 (256 * reason + status)) ∧
         (vt ≠ 0 → vt ≠ sst → g'.s vt = 0)
     (resets → ∃ t, turnedAway t 0 4 ∧ t.mem = s.mem) ∧
     (¬resets → ¬room → ∃ t, turnedAway t 0 1 ∧ t.mem = s.mem) ∧
     (¬resets → room → ¬awake → exec (.atcSlicePerform r.id) s = .next s) ∧
     (¬resets → room → awake → ¬sized → ∃ t, turnedAway t 9 1 ∧
       t.mem = ((fqEntry r.part { report := ⟨.launch, 9, 2, 0, va, 0, BitVec.ofNat 64 (homeSlice p.addr * 2 ^ 32 + task)⟩ }).run s).mem) ∧
     (¬resets → room → awake → sized → NoReply s p.addr p.len → Writable s p.addr p.len →
     ∃ t, exec (.atcSlicePerform r.id) s = .next t ∧ Answered t r ∧
      (let w := opW (BitVec.ofNat 4 type)
       let old := BitVec.ofNat 64 (bytesNat (Memory.bytes s.mem p.addr p.len))
       let new := atomicNew aop type old x y
       let fired := if aop = 8 then cutTo w old == cutTo w y else atcCond type cond new y
       let oldR := widenU (BitVec.ofNat 4 type) old
       WroteBytes s t p.addr (natBytes p.len new.toNat) ∧
       (∃ g', t.grp? r.gid = some g' ∧ SameWork g g' ∧
         (sst ≠ 0 → g'.s sst = if fired then 65536 else 0) ∧ (vt ≠ 0 → vt ≠ sst → g'.s vt = oldR)) ∧
       if fired then ∃ st, t.starts = s.starts ++ [st] ∧ st.slice = homeSlice p.addr ∧ st.part = r.part ∧ st.task = task ∧ st.teams = n ∧
           st.cls = (if tk.getLsbD 38 then some (tk.toNat / 2 ^ 36 % 4) else none) ∧ st.desc = d ∧ st.args = [oldR, va, arg] ∧
           st.source = .slipway (homeSlice p.addr) va oldR ∧ st.held = none
       else t.starts = s.starts)))

/-- R49, R50, R281, R282: an acknowledgement lowers the count of its group when it is the last of its instruction; a group that the wait
table refused competes again when its 64 cc have passed, and a wait whose watch was refused claims an entry and is sent again. -/
def Obligations.AcknowledgementsAndRetries : Prop :=
  ∀ (s : State),
    (∀ (r : Req) (g : Group), s.req? r.id = some r → r.phase = .done → r.counted = true → r.moved = false → s.grp? r.gid = some g →
      g.life = .resident → (∀ x, x ∈ s.groups → x.gid = r.gid → x.live ≠ 0) →
      ∃ t g', exec (.acknowledgementReturn r.id) s = .next t ∧ Answered t r ∧ t.mem = s.mem ∧ t.grp? r.gid = some g' ∧ SameWork g g' ∧
        g'.outst = if ∀ o, o ∈ s.reqs → sameInstr o r = true → o.counted = true → o.id = r.id then g.outst - 1 else g.outst) ∧
    (∀ (g : Group), s.grp? g.gid = some g → g.retryAt ≤ s.now →
      ∃ t, exec (.waitTableRetry g.gid) s = .next t ∧ t = { s with groups := t.groups } ∧ t.grp? g.gid = some { g with retryAt := 0 } ∧
        ∀ k, k ≠ g.gid → t.grp? k = s.grp? k) ∧
    ∀ (r : Req) (at_ : Nat), s.req? r.id = some r → r.phase = .rearm at_ → at_ ≤ s.now → waitTable s r.core < 64 →
      exec (.watchRearm r.id) s = .next (s.modReq r.id fun q => { q with phase := .flying, wt := true })

/-! ### Fetch -/

/-- R64, R65, R69, R70, R228, R230: a demand fill answers every group that waits on the line: where the line is good it is in the level-1
cache of each one's core, and where it is not each will take its cause; the next line is then asked for where it lies in the kernel's
code. A prefetch and a walk for pf install what they find good and raise nothing; a prefetch of a line that the core holds only leaves.
A fill, prefetch or walk is performed where the slices that it reads take work (R383, R405). A group in pass-over goes over an
instruction outside the C format: only its pc moves, and no transfer has reached what follows (R123, R133). That waiting groups of one
partition share a fill (log entry 67), that a fill judges the bytes and the tag that memory holds at its time, where R67 also allows older ones (log entry
7), and that tags are read with X, pf with R, and which address a fault names (log entry 31), are the model's choices. -/
def Obligations.FillsWalksAndPassOver : Prop :=
  (∀ (s : State) (die : Nat), s.syn = [] →
      (∀ (f : Fill) (g : Group) (h : KHeader), (s.fills.find? fun x => x.die == die) = some f → s.grp? f.gid = some g → codeHdr s g = some h →
        f.va % 128 = 0 →
        awakeWords s (fillWalks s die f.core g.part f.va h.codebase h.tagbase ++ fillReads s die f.core g.part f.va h.codebase h.tagbase) = true →
        ∃ t, exec (.instructionFill die) s = .next t ∧ t.mem = s.mem ∧ t.groups = s.groups ∧
          (let waits := fun (x : Fill) => x ∈ s.fills ∧ x.die = die ∧ x.va = f.va ∧ ∃ q, s.grp? x.gid = some q ∧ q.part = g.part
           (∀ x, x ∈ t.fills ↔ x ∈ s.fills ∧ ¬waits x) ∧
           (match fillLine s die f.core g.part f.va h.codebase h.tagbase with
            | .good _ _ => (∀ x, waits x → x.die = dieOfCore x.core → (iline? t x.core (s.part g.part).asidbase f.va).isSome = true) ∧
                t.fillFaults = s.fillFaults
            | .bad r => (∀ x, x ∈ t.fillFaults ↔ x ∈ s.fillFaults ∨ ∃ y, waits y ∧ x = ⟨y.gid, f.va, r⟩) ∧ t.ilines = s.ilines) ∧
           (∀ p, p ∈ t.prefetches ↔ p ∈ s.prefetches ∨ (inCode h (f.va + 128) = true ∧ ∃ x, waits x ∧
              p = ⟨die, x.core, g.part, f.va + 128, h.codebase, h.codebase + h.codelen, h.tagbase⟩)))) ∧
      (∀ (p : Prefetch), (s.prefetches.find? fun x => x.die == die) = some p → die = dieOfCore p.core → p.va % 128 = 0 →
        ((iline? s p.core (s.part p.part).asidbase p.va).isSome = true →
          exec (.sequentialPrefetch die) s = .next { s with prefetches := s.prefetches.erase p }) ∧
        ((iline? s p.core (s.part p.part).asidbase p.va).isSome = false →
          awakeWords s (fillWalks s die p.core p.part p.va p.lo p.tagbase ++ fillReads s die p.core p.part p.va p.lo p.tagbase) = true →
          ∃ t, exec (.sequentialPrefetch die) s = .next t ∧ t.mem = s.mem ∧ t.groups = s.groups ∧ t.fillFaults = s.fillFaults ∧
            t.prefetches = s.prefetches.erase p ∧
            match fillLine s die p.core p.part p.va p.lo p.tagbase with
            | .good _ _ => (iline? t p.core (s.part p.part).asidbase p.va).isSome = true
            | .bad _ => t.ilines = s.ilines)) ∧
      ∀ (p : Prefetch), (s.walks.find? fun x => x.die == die) = some p →
        awakeWords s (transReads s die (some p.core) p.part (BitVec.ofNat 64 p.va) needR) = true →
        ∃ t, exec (.translationWalk die) s = .next t ∧ t.mem = s.mem ∧ t.groups = s.groups ∧ t.walks = s.walks.erase p ∧
          match translate s die (some p.core) p.part (BitVec.ofNat 64 p.va) needR with
          | .ok _ e => ∃ x, x ∈ t.tlb ∧ x.die = die ∧ x.core = some p.core ∧ x.part = e.part ∧ x.vbase = e.vbase
          | .fail _ => t.tlb = s.tlb) ∧
  (∀ (s : State) (g : Group) (i : Instr),
      s.grp? g.gid = some g → mayFetch s g = true → g.po = true → g.active = 0 → fetch s g = .instr i → isCFormat i = false →
      (∀ w, i ≠ .reservedMajor w) →
      ∃ t, exec (.passOver g.gid) s = .next t ∧ t = { s with groups := t.groups } ∧
        t.grp? g.gid = some { g with pc := g.pc + instrSize i, taken := false } ∧ ∀ k, k ≠ g.gid → t.grp? k = s.grp? k)

/-! ### Launches -/

/-- R35 to R38, R405, R408: a send to a command endpoint is answered resource-busy where the partition is resetting or its 128 slots are
taken, whatever its length (the model's choice of order, log entry 32); otherwise it is accepted, and its bytes stand in the slot behind the
commands that wait, once the slot's slice takes work, or where its length is wrong it is a LAUNCH failure of reason 1, with the tag and task
of log entry 71 (the model's choice). A stop and a restart of the task table set and clear tstop and free their slot; a reserved kind is a
LAUNCH failure of reason 1. -/
def Obligations.CommandsActed : Prop :=
  ∀ (s : State) (p : Nat), s.Inv → s.syn = [] →
    (∀ payload : List Byte, reachesPart s p = true →
      (((s.part p).state = .resetting ∨ 128 ≤ (s.part p).cmdCount) →
        exec (.commandSendArrival p payload) s = .next { s with outbox := s.outbox ++ [.busy p] }) ∧
      ((s.part p).state ≠ .resetting → (s.part p).cmdCount < 128 → s.mgmt.stopped = false →
        let told := { s with outbox := s.outbox ++ [.accepted p] }
        let slot := (s.part p).cmdq + 256 * (((s.part p).cmdHead + (s.part p).cmdCount) % 128)
        let tag := BitVec.ofNat 32 (if payload.length < 8 then 0 else bytesNat (payload.take 4))
        if commandNeeds payload ≤ payload.length ∧ payload.length ≤ 256 then
          NoWaiter s slot payload.length → awake s slot payload.length = true →
          ∃ t, exec (.commandSendArrival p payload) s = .next t ∧
            OnlyWrote (told.modPart p fun q => { q with cmdCount := q.cmdCount + 1 }) t slot payload
        else exec (.commandSendArrival p payload) s = .next ((launchFails p (.command tag) 0 1).run told))) ∧
    (mayTake s p 2 = true → exec (.stopTaskTable p) s = .next (s.modPart p fun q => { q.nextCommand with tstop := true })) ∧
    (mayTake s p 3 = true → exec (.restartTaskTable p) s = .next (s.modPart p fun q => { q.nextCommand with tstop := false })) ∧
    (mayTake s p 0 = true → exec (.reservedCommand p) s = .next (((launchFails p
      (.command ((unitWord s ((s.part p).cmdq + 256 * (s.part p).cmdHead)).setWidth 32)) 0 1).run s).modPart p Part.nextCommand))

/-- R31, R36, R42 to R45, R293, R294, R329, R405: a launch that its source may hand over, once the slices that its checks read take work,
and that passes its checks enters the tail of its class queue, with its own serial, and its source is free again: the command's slot, the
port entry, which answers 0, the Slipway slot, the bin's hand-over. Where the queue holds 1,024 launches, or another launch is held for
it, it waits at its source; of those that wait for a class, one of the first source in the order command queue, `launch`, Slipway, Moorings
enters as a place becomes free. One that fails its checks writes its LAUNCH entry and frees its source; a port entry answers with the
reason. Model's choices: a record that names a task brings its own donectr and tags (log entry 72), a launch waits while another is held for
its queue (log entry 32), a port entry is handed over after the group's earlier writes and acquired accesses (log entry 33), the kernel's
header is translated by C-die 0 (log entry 85), and what an entry holds that names no task (log entries 29, 71). -/
def Obligations.LaunchesEnterQueue : Prop :=
  ∀ (s : State), s.syn = [] →
    let reads := fun (rd : List Nat × List Nat) => awakeWords s (rd.1 ++ rd.2) = true
    let seen := fun (rd : List Nat × List Nat) => markTables 0 rd.1 s
    (∀ p, mayTake s p 1 = true →
      let ws := headCommand s p
      let src := Source.command ((ws.getD 0 0).setWidth 32)
      let rd := recordReads s p (ws.drop 1)
      reads rd →
      match recordChecked s p src (ws.drop 1) with
      | .error n => exec (.launchCommand p) s =
          .next (((launchFails p src (recordTask (ws.drop 1)) n).run (seen rd)).modPart p Part.nextCommand)
      | .ok l => exec (.launchCommand p) s = .next
          (if mustWait s p l.cls then (seen rd).modPart p fun q => { q with cmdHeld := some l }
          else (seen rd).withLaunch p l Part.nextCommand)) ∧
    (∀ die e, nextPort s die = some e →
      (∀ r, r ∈ s.reqs → r.gid = e.gid → r.seq < e.seq → r.cls = 0 ∨ r.cls = 3 → r.pending = true → r.writes = false ∧ r.acq = false) → (s.part e.part).state ≠ .resetting →
      let rd := portReads s e
      reads rd →
      match portChecked s e with
      | .error n => exec (.launchPortHandoff die) s =
          .next (((launchFails e.part .group e.task n).run (seen rd)).answerPort e (n * 256 + 1))
      | .ok l => exec (.launchPortHandoff die) s = .next
          (if mustWait s e.part l.cls then
            { seen rd with ports := s.ports.map fun x => if x.id = e.id then { x with held := some l } else x }
          else ((seen rd).withLaunch e.part l id).answerPort e 0)) ∧
    (∀ slice p x, nextStart s slice p = some x → x.held = none → (s.part p).state ≠ .resetting →
      let rd := startReads s x
      reads rd →
      match startChecked s x with
      | .error n => ∃ u, u = (launchFails p x.source x.task n).run (seen rd) ∧
          exec (.slipwayHandoff slice p) s = .next { u with starts := u.starts.filter fun y => y.id != x.id }
      | .ok l => exec (.slipwayHandoff slice p) s = .next
          (if mustWait s p l.cls then
            { seen rd with starts := s.starts.map fun y => if y.id = x.id then { y with held := some l } else y }
          else { (seen rd).withLaunch p l id with starts := s.starts.filter fun y => y.id != x.id })) ∧
    (∀ slice p x, nextBinStart s slice p = some x → x.held = none → (s.part p).state ≠ .resetting → sourceAwake s x.source = true →
      let rd := startReads s x
      reads rd →
      match startChecked s x with
      | .error n => ∃ u, u = (launchFails p x.source x.task n).run (seen rd) ∧
          exec (.binLaunchHandoff slice p) s =
            .next ((freeBinSlot x.source).run { u with binLaunches := u.binLaunches.filter fun y => y.id != x.id })
      | .ok l => exec (.binLaunchHandoff slice p) s = .next
          (if mustWait s p l.cls then
            { seen rd with binLaunches := s.binLaunches.map fun y => if y.id = x.id then { y with held := some l } else y }
          else { (seen rd).withLaunch p l id with binLaunches := s.binLaunches.filter fun y => y.id != x.id })) ∧
    ∀ (l : Launch),
      (mayEnter s 0 l = true → (s.part l.part).cmdHeld = some l →
        exec (.heldLaunchEntry (.command l.part)) s = .next (s.withLaunch l.part l fun q => { q.nextCommand with cmdHeld := none })) ∧
      (∀ die e, (s.ports.find? fun x => x.die == die && x.held.any (mayEnter s 1)) = some e → e.held = some l →
        exec (.heldLaunchEntry (.port die)) s = .next ((s.withLaunch l.part l id).answerPort e 0)) ∧
      (∀ slice x, mayEnter s 2 l = true → nextStart s slice l.part = some x → x.held = some l →
        exec (.heldLaunchEntry (.slipway slice l.part)) s =
          .next { s.withLaunch l.part l id with starts := s.starts.filter fun y => y.id != x.id }) ∧
      (∀ slice x, mayEnter s 3 l = true → nextBinStart s slice l.part = some x → x.held = some l →
        exec (.heldLaunchEntry (.bin slice l.part)) s =
          .next { s.withLaunch l.part l id with binLaunches := s.binLaunches.filter fun y => y.id != x.id }) ∧
      ∀ rank, mayEnter s rank l = true ↔
        (((s.part l.part).queues.getD l.cls []).countP fun e => match e with
          | .launch _ => true
          | .team _ => false) < 1024 ∧
        (0 < rank → ∀ k, (s.part l.part).cmdHeld = some k → k.cls ≠ l.cls) ∧
        (1 < rank → ∀ e k, e ∈ s.ports → e.part = l.part → e.held = some k → k.cls ≠ l.cls) ∧
        (2 < rank → ∀ x k, x ∈ s.starts → x.part = l.part → x.held = some k → k.cls ≠ l.cls) ∧
        (3 < rank → ∀ x k, x ∈ s.binLaunches → x.part = l.part → x.held = some k → k.cls ≠ l.cls)

/-- R18, R23, R45 to R48, R58, R59, R62, R63, R107, R254, R374, R376, R408: admission comes to the highest class whose head does not wait;
a lower one is served only where no place takes the higher head and no discard would help it. Where the head is a launch and a core, or a
pair's two cores, can take a team of it, the launch's next team is placed there: the team with an empty scratchpad and no share, each of
its groups at the kernel's entry in a slot of its core that no resident group holds. The launch leaves its queue with its last team. A head
that was discarded is placed with its saved state and shares, its groups at their checkpoints, and its owed loads are issued again; if the
saved state cannot be read back, its launch ends with PREEMPT. Where no place takes the head, the site that needs the fewest discards, lowest
on a tie, has that many of its listed teams stopped. Model's choices: whether saved state is lost (log entry 36), no further choice while a
team is stopping (log entry 37), owed loads that find a table full wait (log entry 73), and which teams are listed (log entry 87). -/
def Obligations.TeamPlaced : Prop :=
  (∀ (s : State) (p c : Nat) (l : Launch) (rest : List QEntry) (cores : List Nat),
    ServesClass s p c → (s.part p).queues.getD c [] = .launch l.lid :: rest →
    s.launch? l.lid = some l → bestPlace (places s (s.part p) (incomingNew l)) = some cores →
    ∃ t tm gs, exec (.teamPlacement p) s = .next t ∧ t.mem = s.mem ∧ t.teams = s.teams ++ [tm] ∧ t.groups = s.groups ++ gs ∧
      t.launches = (s.modLaunch l.lid fun k => { k with next := k.next + 1 }).launches ∧
      t.parts = (if l.next + 1 = l.teams then
          (s.modPart p fun q => { q with queues := q.queues.modify l.cls fun es => es.filter fun e => e != .launch l.lid }).parts
        else s.parts) ∧
      tm.launch = l.lid ∧ tm.part = l.part ∧ tm.teamId = l.next ∧ tm.cores = cores ∧ tm.status = .placed ∧ tm.sp = [] ∧ tm.empties = [] ∧
      tm.shares = 0 ∧ tm.mxflags = 0 ∧ tm.stall = 0 ∧ tm.tiles.length = (PartWord.of l.hdr.partword).tiles ∧
      (∀ k, k ∈ cores → t.coreWords.lookup k = some l.hdr.partword) ∧
      gs.map Group.groupId = List.range (l.teamSize / l.hdr.width) ∧
      ∀ g, g ∈ gs → AtEntry g l ∧ g.team = tm.tid ∧ g.launch = l.lid ∧ g.part = l.part ∧ g.quadrant < 4 ∧ g.slot < 24 ∧
        cores[if l.teamSize ≤ 1536 ∨ 2 * g.groupId < l.teamSize / l.hdr.width then 0 else 1]? = some g.core ∧
        ∀ x, x ∈ s.groups → x.core = g.core → x.life = .resident → ¬(x.quadrant = g.quadrant ∧ x.slot = g.slot)) ∧
  (∀ (s : State) (p c : Nat) (tm : Team) (l : Launch) (rest : List QEntry) (cores : List Nat),
    ServesClass s p c → (s.part p).queues.getD c [] = .team tm.tid :: rest → s.team? tm.tid = some tm → s.launch? tm.launch = some l →
    l.cls = c → bestPlace (places s (s.part p) (incomingSaved s l tm)) = some cores →
    (Config.saveLost s.fresh = true → ∃ t, exec (.teamPlacement p) s = .next t ∧ LaunchEnded t l.lid ∧
      t.mem = ((logEntry p ⟨.preempt, 1, 0, 0, 0, 0, 0⟩ l.serial).run s).mem) ∧
    (Config.saveLost s.fresh = false →
      (∀ g, g ∈ s.groups → g.team = tm.tid → (∀ v, g.hold ≠ .replied v) ∧ (∀ x, x ∈ s.groups → x.gid = g.gid → x = g) ∧
        (g.life = .saved → g.groupId < l.teamSize / l.hdr.width ∧
          ∀ x, x ∈ s.groups → x.team = tm.tid → x.life = .saved → x.groupId = g.groupId → x = g)) →
      ∃ t tm', exec (.teamPlacement p) s = .next t ∧ t.mem = s.mem ∧ t.team? tm.tid = some tm' ∧
        tm'.cores = cores ∧ tm'.sp = tm.sp ∧ tm'.empties = tm.empties ∧ tm'.tiles = tm.tiles ∧ tm'.shares = tm.shares ∧
        tm'.mxflags = tm.mxflags ∧ tm'.teamId = tm.teamId ∧ tm'.launch = tm.launch ∧
        tm'.status = (if tm'.owed = [] then .placed else .restoring) ∧ (OwedFit s tm cores → tm'.owed = []) ∧
        (OwedFit s tm cores → ∀ o, o ∈ tm.owed → Reissued t tm o) ∧
        t.parts = (s.modPart p fun q => { q with queues := q.queues.modify c fun es => es.filter fun e => e != .team tm.tid }).parts ∧
        (∀ k, k ∈ cores → t.coreWords.lookup k = some l.hdr.partword) ∧
        ∀ g, g ∈ s.groups → if g.team = tm.tid ∧ g.life = .saved then
            ∃ g', t.grp? g.gid = some g' ∧ g' = { g with
                life := .resident
                core := g'.core
                quadrant := g'.quadrant
                slot := g'.slot
                resv := max l.hdr.entryfp g.ent.length
                replays := g.replays + 1
                outst := 0
                retryAt := 0
                stamp := s.now
                admitted := s.now } ∧ g'.quadrant < 4 ∧ g'.slot < 24 ∧
              cores[if l.teamSize ≤ 1536 ∨ 2 * g.groupId < l.teamSize / l.hdr.width then 0 else 1]? = some g'.core ∧
              ∀ x, x ∈ s.groups → x.core = g'.core → x.life = .resident → ¬(x.quadrant = g'.quadrant ∧ x.slot = g'.slot)
          else t.grp? g.gid = s.grp? g.gid)) ∧
  (∀ (s : State) (p c : Nat) (e : QEntry) (rest : List QEntry) (h : Head) (site : List Nat) (vs : List Team) (k : Nat),
    ServesClass s p c → (s.part p).queues.getD c [] = e :: rest → headOf s e = some h →
    (let n := h.incoming s
     places s (s.part p) n = [] → (∀ x, x ∈ s.teams → x.part = p → x.status ≠ .discarding) →
     site ∈ sitesOf (s.part p) n → VictimsOf s p c site vs → 0 < k → k ≤ vs.length → fitsOn (without (vs.take k) s) n site = true →
     (∀ j, 0 < j → j < k → fitsOn (without (vs.take j) s) n site = false) →
     (∀ other us j, other ∈ sitesOf (s.part p) n → VictimsOf s p c other us → 0 < j → j ≤ us.length →
       fitsOn (without (us.take j) s) n other = true → k < j ∨ (k = j ∧ site.headD 0 ≤ other.headD 0)) →
     exec (.teamPlacement p) s = .next { s with
       teams := s.teams.map fun x => if x.tid ∈ (vs.take k).map Team.tid then { x with status := .discarding } else x })) ∧
  ∀ (s : State) (p : Nat) (tm : Team), s.team? tm.tid = some tm → tm.part = p → tm.status = .restoring →
    (∀ x, x ∈ s.teams → x.part = p → x.status = .restoring → x = tm) → (s.part p).state = .running → s.mgmt.stopped = false →
    (∀ k, k ≤ 3 → (s.part p).queues.getD k [] = []) → OwedFit s tm tm.cores →
    ∃ t tm', exec (.teamPlacement p) s = .next t ∧ t.mem = s.mem ∧ t.groups = s.groups ∧ t.team? tm.tid = some tm' ∧
      tm'.status = .placed ∧ tm'.owed = [] ∧ tm'.cores = tm.cores ∧ tm'.sp = tm.sp ∧ ∀ o, o ∈ tm.owed → Reissued t tm o

/-- R26, R47, R51, R254, R261, R315, R329, R362, R363, R373 to R375, R386: a team that may be discarded is saved with its scratchpad, its
tiles and its share count, its groups at their checkpoints, and returns to the head of its class queue; a team whose groups have left and of
which nothing is outstanding retires, and counts for its launch; a launch all of whose teams have retired, or that a fault has ended, and of
which nothing is left adds to its done counter, frees the slot of its bin, and is over. That a save writes no memory and keeps what it saves
in the team and its groups is the model's choice (log entry 36); so are that the addition waits until every access of the launch has been
performed (log entry 47), that it is translated by C-die 0 (log entry 85), and that a lane still parked on scratchpad is withdrawn when its team
retires (log entry 92). -/
def Obligations.TeamsAndLaunchesEnd : Prop :=
  ∀ (s : State),
    (∀ (tid : Nat) (tm : Team), s.team? tid = some tm → mayDiscard s tm = true →
      ∃ t tm', exec (.teamDiscardSave tid) s = .next t ∧ t.mem = s.mem ∧ t.team? tid = some tm' ∧ tm'.status = .saved ∧ tm'.cores = [] ∧
        tm'.sp = tm.sp ∧ tm'.empties = tm.empties ∧ tm'.tiles = tm.tiles ∧ tm'.shares = tm.shares ∧
        t.parts = (s.modPart tm.part fun q => { q with
          queues := q.queues.modify (((s.launch? tm.launch).map Launch.cls).getD 0) fun es => .team tm.tid :: es }).parts ∧
        (∀ e, e ∈ t.engines → some tm.tid ∉ e.wheel) ∧
        ∀ k g, s.grp? k = some g →
          ∃ g', t.grp? k = some g' ∧ if g.team = tm.tid ∧ g.life = .resident then SavedFrom g g' else SameWork g g') ∧
    (∀ (tid : Nat) (tm : Team), s.team? tid = some tm → mayRetire s tm = true →
      ∃ t, exec (.teamRetirement tid) s = .next t ∧ t.mem = s.mem ∧
        t.team? tid = some { tm with status := .retired, tiles := [], shares := 0 } ∧
        t.launches = (s.modLaunch tm.launch fun l => { l with retired := l.retired + 1 }).launches ∧
        (∀ r, r ∈ t.reqs → r.sp = true → r.team ≠ tm.tid) ∧ (∀ e, e ∈ t.engines → some tm.tid ∉ e.wheel) ∧ KeepsWorkOfAll s t) ∧
    ∀ (i : Instr) (v : Nat) (l : Launch), s.Inv → s.syn = [] → s.launch? l.lid = some l →
      countersZero s l.lid = true → launchBusy s l.lid = false → doneAwake s l = true →
      ((i = .launchCompletion l.lid ∧ v = 1 ∧ l.ended = false ∧ l.retired = l.teams) ∨
        (i = .launchFaultEnd l.lid ∧ v = 0x100000001 ∧ l.ended = true ∧ ∀ x, x ∈ s.teams → x.launch = l.lid → x.status = .retired)) →
      let isOver := fun (t : State) => exec i s = .next t ∧ t.launches = (s.launches.filter fun k => k.lid != l.lid) ∧
        t.teams = s.teams.filter fun x => (t.launch? x.launch).isSome
      let adds := fun (t : State) (pa : Nat) => bytesNat (Memory.bytes s.mem pa 8) + v < 2 ^ 64 →
        memWord t pa = memWord s pa + BitVec.ofNat 64 v
      let counter := fun (pa : Nat) => ∃ e, translate s 0 none l.part (BitVec.ofNat 64 l.donectr) needRW = .ok pa e
      ((∀ a b c, l.source ≠ .bin a b c) →
        (l.donectr = 0 → ∃ t, isOver t ∧ t.mem = s.mem) ∧
        ∀ pa, l.donectr ≠ 0 → counter pa → NoWaiter s pa 8 → bytesNat (Memory.bytes s.mem pa 8) + v < 2 ^ 64 →
          ∃ t, isOver t ∧ WroteBytes s t pa (natBytes 8 (bytesNat (Memory.bytes s.mem pa 8) + v))) ∧
      ∀ slice bin k, l.source = .bin slice bin k →
        let slot := bin + 32 + 8 * (k / 64)
        let free := memWord s slot &&& ~~~(BitVec.ofNat 64 (2 ^ (k % 64)))
        NoWaiter s slot 8 →
        (l.donectr = 0 → ∃ t, isOver t ∧ WroteBytes s t slot (wordBytes free)) ∧
        ∀ pa, l.donectr ≠ 0 → counter pa → NoWaiter s pa 8 → bytesNat (Memory.bytes s.mem pa 8) + v < 2 ^ 64 → Apart pa 8 slot 8 →
          ∃ t, isOver t ∧ adds t pa ∧ memWord t slot = free ∧ WordsKept s t [(pa, 8), (slot, 8)]

/-! ### Resets of a partition, timers and replies -/

/-- R36, R38, R52, R54, R55, R254, R261, R294, R301, R329, R333, R378, R393, R407: a reset by command or by Halone takes everything of the
partition out of the machine: its groups, teams, launches, accesses, commands, Ford instructions, port entries, starts, fabric contexts and
cached translations, its queues and its positions of the matrix engines. The ends of its jettys are reset, and the partition is resetting.
The groups of other partitions go on. Memory changes by what is reported alone: each start, bin launch and launch of a continuation atomic
not yet placed that it drops writes an entry LAUNCH of reason 17 (R360), and the slot of a bin is free again. When it completes, the partition
runs with its task table stopped and every slot of its command queue free, the host is told by an event of class 1, and a management command
that waited for it is performed; it does not complete before its entries are written. That everything goes in one step, and where the entries
stand, are the model's choices (log entries 54, 29). -/
def Obligations.PartitionResets : Prop :=
  ∀ (s : State) (p : Nat),
    (∀ (i : Instr) (v : State),
      ((i = .resetPartition p ∧ mayTake s p 4 = true ∧ v = freeSlot p s) ∨
        (i = .managementResetPartition p ∧ s.mgmt.stage = .halone ∧ inSession s = true ∧ s.mgmt.waiting = [] ∧ configured s p = true ∧
          (s.part p).state ≠ .resetting ∧ v = s)) →
      (∀ src : Source, ((∃ x, x ∈ s.starts ++ s.binLaunches ∧ x.part = p ∧ x.source = src) ∨ (∃ l, l ∈ s.launches ∧ l.part = p ∧ l.source = src)) →
        sourceAwake s src = true) →
      let dropped := ((s.starts ++ s.binLaunches).filter fun x => x.part == p).map (fun x => (x.source, x.task)) ++
        (s.launches.filter fun l => l.part == p && reportedDrop l).map fun l => (l.source, l.task)
      let entry := fun (x : Source × Nat) => match x.1 with
        | .slipway slice va old => (⟨.launch, 17, 2, 0, va, old, BitVec.ofNat 64 (slice * 2 ^ 32 + x.2)⟩ : Report)
        | .bin slice _ _ => ⟨.launch, 17, 3, 0, 0, 0, BitVec.ofNat 64 (slice * 2 ^ 32 + x.2)⟩
        | _ => launchReport x.1 x.2 17
      ∃ t, exec i s = .next t ∧
        (∀ x, x ∈ t.groups → x.part ≠ p) ∧ (∀ x, x ∈ t.teams → x.part ≠ p) ∧ (∀ x, x ∈ t.launches → x.part ≠ p) ∧
        (∀ x, x ∈ t.reqs → x.part ≠ p) ∧ (∀ x, x ∈ t.copies → x.part ≠ p) ∧ (∀ x, x ∈ t.mxcmds → x.part ≠ p) ∧
        (∀ x, x ∈ t.fords → x.part ≠ p) ∧ (∀ x, x ∈ t.ports → x.part ≠ p) ∧ (∀ x, x ∈ t.starts → x.part ≠ p) ∧
        (∀ x, x ∈ t.binLaunches → x.part ≠ p) ∧ (∀ x, x ∈ t.fabs → x.part ≠ p) ∧ (∀ x, x ∈ t.tlb → x.part ≠ p) ∧
        (∀ e, e ∈ t.engines → ∀ x, x ∈ s.teams → x.part = p → some x.tid ∉ e.wheel) ∧
        (∀ j, j ∈ t.jettys → (j.prod = p ∨ j.cons = p) → j.prst = true ∧ j.crst = true ∧ j.count = 0) ∧
        (∀ q, q ∈ t.parts → q.num = p → q.state = .resetting ∧ q.queues = [[], [], [], []] ∧ q.cmdHeld = none ∧
          ∀ e, e ∈ q.pendEntries → e.1 = none) ∧
        (∀ k g, s.grp? k = some g → g.part ≠ p → ∃ g', t.grp? k = some g' ∧ SameWork g g') ∧
        (s.syn = [] → t.mem = (dropped.foldl (fun u x => (freeBinSlot x.1).run ((fqEntry p { report := entry x }).run u))
          ((dropWaiting p (dropPartition p v)).modPart p fun q => { q with state := .resetting })).mem) ∧
        (s.syn = [] → dropped = [] → t.mem = s.mem)) ∧
    (∀ q, s.parts[p]? = some q → q.num = p → s.mgmt.stopped = false → (∃ e, e ∈ q.pendEntries ∧ e.1 = none) →
      exec (.partitionResetComplete p) s = .next s) ∧
    ∀ q, s.parts[p]? = some q → q.num = p → q.state = .resetting → q.reachable = true → portReady s = true →
      (∀ e, e ∈ q.pendEntries → e.1 ≠ none) →
      let served := { s with mgmt := { s.mgmt with waiting := [] } }
      ∃ t, exec (.partitionResetComplete p) served = .next t ∧ t = { served with parts := t.parts, outbox := t.outbox } ∧
        (∀ x, x ∈ t.parts → x.num = p → x.state = .running ∧ x.tstop = true ∧ x.cmdCount = 0) ∧
        (t.part p).cmdHead = (q.cmdHead + q.cmdCount) % 128 ∧ (t.part p).oldest = q.oldest ∧
        (q.events[1]? = some (.start 1 65536) → eventMsg p 1 1 0 ∈ t.outbox) ∧
        (s.mgmt.waiting = [] → exec (.partitionResetComplete p) s = .next t) ∧
        ∀ i, s.mgmt.waiting = [i] → changedPart i = some p → waitsForSlice t i = false → exec (.partitionResetComplete p) s = .next (runCommand i t)

/-- R52, R53, R284, R285, R327 to R329, R358, R366, R367: an event timer that has run out sends the message of its class with its count,
which starts again; a watchdog that is due writes its entry and ends the launches of the groups that it finds parked; an entry that
waited, for space or for its slice, is written, or counted as dropped, and a group that parks on it waits for the reply; a reply of 1 lets a group replay its region, and any other but 0 ends its
launch; the reply to a saved group is kept for its restore; a bin timer that has run out closes the slot that holds records: the slot is taken, the bin goes on with the next one, and a
launch of the bin's task with the slot's address and count waits for its hand-over. That an expiry closes the slot without a further test of
the header is log entry 45, and the order and the dropping of entries that waited for their slice log entry 79, the model's choices. -/
def Obligations.TimersAndReplies : Prop :=
  ∀ (s : State) (p : Nat),
    (∀ cls e, (s.part p).events[cls]? = some e → e.timer = some 0 → e.count ≠ 0 → maySend s (s.part p) cls = true →
      let oldest : Word := if cls = 0 then BitVec.ofNat 64 ((s.part p).oldest.getD 0) else 0
      exec (.eventTimerExpiry p cls) s = .next { s with
        parts := s.parts.map fun q =>
          if q.num = p then
            { q with
              events := q.events.set cls { e with count := 0, timer := none }
              oldest := if cls = 0 then none else q.oldest }
          else q
        outbox := s.outbox ++ [.event p (BitVec.ofNat 64 (cls * 2 ^ 56 + p * 2 ^ 48 + e.count)) oldest] }) ∧
    (wdDue s p = true →
      let hit := fun (g : Group) => g ∈ s.groups ∧ g.part = p ∧ g.life = .resident ∧ parkedNoRem s g = true
      ∃ t, exec (.watchdogFire p) s = .next t ∧
        t.mem = ((logEntry p ⟨.watchdog, 0, 0, 0, BitVec.ofNat 64 (s.part p).wdPeriod, 0, 0⟩).run s).mem ∧
        (∀ g, hit g → LaunchEnded t g.launch) ∧ (∀ q, q ∈ t.parts → q.num = p → q.wdCounts = [0, 0, 0, 0]) ∧
        ∀ k x, s.grp? k = some x →
          (∀ g, hit g → (∀ y, y ∈ s.groups → y.gid = k → y.launch ≠ g.launch) ∧ ∀ y, y ∈ s.teams → y.tid = x.team → y.launch ≠ g.launch) →
          ∃ x', t.grp? k = some x' ∧ SameWork x x') ∧
    (∀ lo gid e hi, (s.part p).pendEntries = lo ++ (gid, e) :: hi → (∀ q, s.parts[p]? = some q → q.num = p) → fqAwake s p = true →
      (if fqFull s p then gid = none ∧ ∀ x, x ∈ lo → x.1 ≠ none else lo = []) →
      (∀ q, q ∈ s.reqs → some q.gid = gid → q.isParked = true → ∀ v rem, q.op ≠ .waitGe v rem) →
      ∃ t, exec (.pendingFaultEntry p) s = .next t ∧ t.mem = ((if fqFull s p then fqDrop p else fqWrite p e).run s).mem ∧
        KeepsWorkOfAll s t ∧ (t.part p).pendEntries = lo ++ hi ∧
        ∀ k g, gid = some k → s.grp? k = some g → g.hold = .pagePending → ∃ g', t.grp? k = some g' ∧ g'.hold = .page (fqWritten s p)) ∧
    (∀ n (value : Word) (g : Group), s.Inv → s.syn = [] → (s.groups.filter fun x => x.gid == g.gid) = [g] → g.part = p →
      g.hold = .page n → fqWritten s p ≤ n + 512 → value ≠ 0 → reachesPart s p = true →
      (let a := replyAddr (s.part p) n
       awakeAt s a = true → Writable s a 8 →
       (∀ x, x ∈ s.groups → x.gid ≠ g.gid → ∀ k, x.hold = .page k →
         ¬(a < replyAddr (s.part x.part) k + 8 ∧ replyAddr (s.part x.part) k < a + 8)) →
       (∀ q, q ∈ s.reqs → q.gid = g.gid → q.isParked = true → ∀ v rem, q.op ≠ .waitGe v rem) →
       ∃ t, exec (.pageReply p n value) s = .next t ∧ WroteBytes s t a (wordBytes value) ∧ OtherLaunches s t g.launch ∧
         (g.life = .saved → t.grp? g.gid = some { g with hold := .replied value }) ∧
         (g.life = .resident → value = 1 → ∃ g', t.grp? g.gid = some g' ∧ g'.life = .resident ∧ g'.hold = .none ∧ g'.pc = g.regionStart ∧ g'.cur = g.ent ∧
           g'.preds = g.ckpt.preds ∧ g'.stack = g.ckpt.stack ∧ g'.active = g.ckpt.active &&& ~~~g.dead ∧
           g'.live = g.ckpt.live &&& ~~~g.dead ∧ g'.replays = g.replays + 1) ∧
         (g.life = .resident → value ≠ 1 → LaunchEnded t g.launch))) ∧
    ∀ (x : BinTimer), (s.binTimers.find? fun y => y.id == x.id) = some x → s.Inv → s.syn = [] → NoWaiter s x.pa 72 →
      (let h := BinHead.of (structWords s x.pa 2)
       h.remain = 0 → awakeWords s ([x.pa, x.pa + 56] ++ descWords s x.part h.task) = true →
       (h.fill = 0 → exec (.binTimerExpiry x.id) s = .next { s with binTimers := s.binTimers.filter fun y => y.id != x.id }) ∧
       (h.fill ≠ 0 → ∃ t l, exec (.binTimerExpiry x.id) s = .next t ∧
         (let word := x.pa + 32 + 8 * (h.cur / 64)
          let slot := devWord s (x.pa + 64) + BitVec.ofNat 64 (128 + 2048 * h.cur)
          devWord t word = devWord s word ||| BitVec.ofNat 64 (2 ^ (h.cur % 64)) ∧
          devWord t (x.pa + 24) = devWord s (x.pa + 24) + 1 ∧
          devWord t (x.pa + 8) = ({ h with fill := 0, cur := (h.cur + 1) % (h.nsm1 + 1) } : BinHead).word ∧
          (∀ a, a < x.pa + 8 ∨ (x.pa + 16 ≤ a ∧ a < x.pa + 24) ∨ (x.pa + 32 ≤ a ∧ (a < word ∨ word + 8 ≤ a)) →
            Memory.get t.mem a = Memory.get s.mem a) ∧
          t.binLaunches = s.binLaunches ++ [l] ∧ t.binTimers = (s.binTimers.filter fun y => y.pa != x.pa) ∧ KeepsWorkOfAll s t ∧
          l.slice = homeSlice x.pa ∧ l.part = x.part ∧ l.task = h.task ∧ l.teams = 1 ∧ l.cls = none ∧
          l.desc = readDesc s x.part h.task ∧ l.source = .bin (homeSlice x.pa) x.pa h.cur ∧ l.held = none ∧
          l.args = [slot, BitVec.ofNat 64 h.fill, devWord s (x.pa + 64), BitVec.ofNat 64 h.cur])))

/-! ### The engines -/

/-- R253, R255 to R259, R264, R266, R383, R405: the oldest copy command that waits starts while fewer than eight run. A part of a running
command that nothing of the scoreboard holds, and whose slices and arrays take work, moves its bytes, from the pages of the command to its
row of scratchpad or from there to a page; a conversion makes each run of 32 elements one block, and its flags go to mxflags. When the part
is the next step of the command it is signalled, in a device counter or one in scratchpad, by its byte count. A command all of whose steps
are made completes. No command moves bytes out under a conversion: a cpx that asks for it is ILLEGAL (R255). That the pages and the counter are those of acceptance (log entry 38), and which blocks a part of a conversion writes (log
entry 39), are the model's choices. -/
def Obligations.CopiesPerformed : Prop :=
  ∀ (s : State) (c : CopyCmd),
    (∀ (h : Hdr) (f : UR) (x : CpxX) (g : Group), (Instr.cpx h f x).WellFormed 64 → (copyOf f (some x) s g).out = true →
      (copyOf f (some x) s g).conv = 0) ∧
    ((s.copies.filter fun x => x.pair == c.pair).find? (fun x => !x.active) = some c →
      (s.copies.filter fun x => x.pair == c.pair && x.active).length < 8 →
      exec (.copyCommandStart c.pair) s =
        .next { s with copies := s.copies.map fun x => if x.id = c.id then { x with active := true } else x }) ∧
    (∀ (part : Nat) (tm : Team), (s.copies.find? fun x => x.id == c.id) = some c → c.active = true → c.parts = [] → c.steps ≤ part →
      part < c.total → cmdHeld s c.team c.seq c.id = false → c.awake s part = true → s.Inv → s.syn = [] → s.team? c.team = some tm →
      tm.spSyn = [] →
      (let row := part / c.perRow
       let k := part % c.perRow * 4096
       let n := min 4096 (c.dl - k)
       let moved := fun (t : State) => (t.copies.find? fun x => x.id == c.id) =
         some (if part = c.steps then { c with steps := c.steps + 1 } else { c with parts := [part] })
       let quiet := c.cs = 0 ∨ part ≠ c.steps
       let ends := fun (t : State) (sp : List Host.Cell) (fl : BitVec 8) => exec (.copyCounterStep c.id part) s = .next t ∧ moved t ∧
         KeepsWorkOfAll s t ∧ ∃ tm', t.team? c.team = some tm' ∧ tm'.sp = sp ∧ tm'.mxflags = tm.mxflags ||| fl
       let spSum := fun (sp : List Host.Cell) => bytesNat (Memory.bytes sp c.ctr 8) + n
       let memSum := bytesNat (Memory.bytes s.mem c.ctr 8) + n
       (c.out = false → c.conv ≤ 3 →
         (let u := srcUnit c.conv
          let w := dstUnit c.conv c.m
          let first := (k + w - 1) / w
          let len := ((k + n + w - 1) / w - first) * u
          let src := (pageSpans c.leaves (len / 65536 + 2) (c.devRow row + first * u) len).flatMap fun q => Memory.bytes s.mem q.1 q.2
          let blocks := (List.range (src.length / u)).map fun i => builtBlock c.conv c.m c.d ((src.drop (i * u)).take u)
          let bytes := if c.conv = 0 then src else blocks.flatMap fun q => q.1.flatMap fun x => natBytes 4 x
          let fl := if c.conv = 0 then 0 else (blocks.map Prod.snd).foldl (· ||| ·) 0
          let data := Memory.putBytes tm.sp (c.off + row * c.sppitch + first * w) bytes
          (quiet → ∃ t, ends t data fl ∧ t.mem = s.mem) ∧
          (c.cs = 1 → part = c.steps → spSum data < 2 ^ 64 →
            ∃ t, ends t (Memory.putBytes data c.ctr (natBytes 8 (spSum data))) fl ∧ t.mem = s.mem) ∧
          (c.cs = 2 → part = c.steps → NoWaiter s c.ctr 8 → memSum < 2 ^ 64 →
            ∃ t, ends t data fl ∧ WroteBytes s t c.ctr (natBytes 8 memSum)))) ∧
       ∀ pa, c.out = true → c.conv = 0 → pageSpans c.leaves (n / 65536 + 2) (c.devRow row + k) n = [(pa, n)] → NoWaiter s pa n →
         (let data := Memory.bytes tm.sp (c.off + row * c.sppitch + k) n
          (quiet → ∃ t, ends t tm.sp 0 ∧ WroteBytes s t pa data) ∧
          (c.cs = 1 → part = c.steps → spSum tm.sp < 2 ^ 64 →
            ∃ t, ends t (Memory.putBytes tm.sp c.ctr (natBytes 8 (spSum tm.sp))) 0 ∧ WroteBytes s t pa data) ∧
          (c.cs = 2 → part = c.steps → NoWaiter s c.ctr 8 → Apart pa n c.ctr 8 → memSum < 2 ^ 64 →
            ∃ t, ends t tm.sp 0 ∧ Memory.bytes t.mem pa n = data ∧ bytesNat (Memory.bytes t.mem c.ctr 8) = memSum ∧
              ∀ a, (a < pa ∨ pa + n ≤ a) → (a < c.ctr ∨ c.ctr + 8 ≤ a) → Memory.get t.mem a = Memory.get s.mem a)))) ∧
    ((s.copies.find? fun x => x.id == c.id) = some c → c.total ≤ c.steps →
      ∃ t, exec (.copyCommandComplete c.id) s = .next t ∧ t.copies = (s.copies.filter fun x => x.id != c.id) ∧
        CommandDone s t c.gid c.id)

/-- R253, R259, R261, R263, R267 to R274: an engine serves the command that the wheel and the rotation of slots name next. mzero clears
its tile; mld fills it from rows of scratchpad and mst writes its rows there, raw, as BF16 or as two panels of DX blocks; a K-step of mloop
and of mloop.sp adds the products of its blocks to every cell; osm.max goes through its rows in order, and osm.acc multiplies every cell. A command
that has finished completes. What each raises of mxflags is ORed in (R173, R176, R184, R264): mzero, mld and a raw mst raise nothing; a K-step
of, nv, io and mv; osm of and nv. Where no word of the team's scratchpad is bad, nothing is logged. That a BF16 mst raises nv only, and the tag
and the overlaps of an mst, are log entry 42, and the service order of wheel and slots log entry 43, the model's choices. -/
def Obligations.MatrixCommandsPerformed : Prop :=
  ∀ (s : State) (c : MxCmd),
    (∀ (pair p : Nat) (tm : Team), nextServed s (engineOf s pair) = some (p, c) → (s.mxcmds.filter fun x => x.id == c.id) = [c] →
      s.team? c.team = some tm → tm.spSyn = [] → c.op.tile < tm.tiles.length →
      ∃ t tm' c', exec (.matrixEngineStep pair) s = .next t ∧ t.mem = s.mem ∧ KeepsWorkOfAll s t ∧
        t.team? c.team = some tm' ∧ (∀ k, k ≠ c.team → t.team? k = s.team? k) ∧
        t.mxcmds = (s.mxcmds.map fun x => if x.id = c.id then c' else x) ∧ (engineOf t pair).pos = p ∧
        (engineOf t pair).rot.lookup c.team = some c.slotNo ∧
        (∀ k, k ≠ c.op.tile → tm'.tiles[k]? = tm.tiles[k]?) ∧
        let tile := c.op.tile
        let old := tm.cell tile
        let done := c' = { c with finished := true }
        match c.op with
        | .mzero _ _ => done ∧ tm'.sp = tm.sp ∧ tm'.mxflags = tm.mxflags ∧ ∀ i j, i < 128 → j < 64 → tm'.cell tile i j = 0
        | .mld _ _ off pitch => done ∧ tm'.sp = tm.sp ∧ tm'.mxflags = tm.mxflags ∧ ∀ i j, i < 128 → j < 64 →
          tm'.cell tile i j = BitVec.ofNat 32 (bytesNat (Memory.bytes tm.sp ((off + (i : Int) * pitch).toNat + 4 * j) 4))
        | .mst _ form m d off pitch => done ∧ tm'.tiles = tm.tiles ∧
          (let raw := fun (i j : Nat) => fmtF32.read (old i j).toNat
           let line := fun (i : Nat) (bytes : Nat → List Byte) => ((off + (i : Int) * pitch).toNat, (List.range 64).flatMap bytes)
           let bf := fun (i j : Nat) => fmtBF16.convert 0 (raw i j)
           let blk := fun (h i : Nat) => builtBlock 1 m d ((List.range 32).flatMap fun j => natBytes 4 (old i (32 * h + j)).toNat)
           let all := fun (ws : List (Nat × List Byte)) => ws.foldl (fun (sp : List Host.Cell) w => Memory.putBytes sp w.1 w.2) tm.sp
           (form = 0 → tm'.mxflags = tm.mxflags ∧
             tm'.sp = all ((List.range 128).map fun i => line i fun j => natBytes 4 (old i j).toNat)) ∧
           (form = 1 → tm'.sp = all ((List.range 128).map fun i => line i fun j => natBytes 2 (bf i j).1) ∧
             tm'.mxflags = tm.mxflags ||| if ((List.range 128).any fun i => (List.range 64).any fun j => (bf i j).2.getLsbD 0) then 2 else 0) ∧
           (form = 2 → tm'.sp = all ([0, 1].flatMap fun (h : Nat) => (List.range 128).map fun (i : Nat) =>
               ((off + (h : Int) * pitch).toNat + i * (4 * (3 + m)), (blk h i).1.flatMap fun x => natBytes 4 x)) ∧
             tm'.mxflags = tm.mxflags |||
               ([0, 1].flatMap fun (h : Nat) => (List.range 128).map fun i => (blk h i).2).foldl (· ||| ·) 0))
        | .mloop sparse x a b ai bi mask md mi =>
          c' = { c with k := c.k + 1, finished := decide (x.kcount.toNat ≤ c.k + 1) } ∧ tm'.sp = tm.sp ∧
          (let at_ := fun (base inc : Int) => (base + (c.k : Int) * inc).toNat
           let from_ := fun (i j : Nat) => if x.za = true ∧ c.k = 0 then 0 else old i j
           (x.afmt = 9 → x.bfmt = 9) →
            tm'.mxflags = tm.mxflags ||| mloopMarks tm sparse x (at_ a ai) (at_ b bi) (at_ md mi) from_ ∧
            ∀ i j, i < 128 → j < 64 →
              let v := mloopCell tm sparse x (at_ a ai) (at_ b bi) (at_ md mi) (from_ i j) i j
              let hidden := x.me = true ∧ x.kcount.toNat ≤ c.k + 1 ∧
                (BitVec.ofNat 64 (bytesNat (Memory.bytes tm.sp (mask.toNat + 8 * i) 8))).getLsbD j = false
              (hidden → tm'.cell tile i j = 0xFF800000) ∧ (¬hidden → tm'.cell tile i j = v))
        | .osmMax _ mv lv cv => done ∧
          (Memory.wf tm.sp → mv.toNat % 16 = 0 → lv.toNat % 16 = 0 → cv.toNat % 16 = 0 →
           (let place := fun (v : Int) (i : Nat) => v.toNat + 4 * i
            let elem := fun (sp : List Host.Cell) (v : Int) (i : Nat) => bytesNat (Memory.bytes sp (place v i) 4)
            let row := fun (sp : List Host.Cell) (i : Nat) =>
              osmRow (elem sp mv i) (elem sp lv i) ((List.range 64).map fun j => (old i j).toNat)
            let next := fun (sp : List Host.Cell) (i : Nat) =>
              let r := row sp i
              Memory.putBytes (Memory.putBytes (Memory.putBytes sp (place lv i) (natBytes 4 r.1)) (place mv i) (natBytes 4 r.2.1))
                (place cv i) (natBytes 4 r.2.2.1)
            let upTo := fun (n : Nat) => (List.range n).foldl next tm.sp
            let raised := fun (n i : Nat) => (row (upTo i) i).2.2.2.2.getLsbD n
            (∀ a, Memory.get tm'.sp a = Memory.get (upTo 128) a) ∧
            tm'.mxflags = tm.mxflags ||| (if (List.range 128).any (raised 2) then 1 else 0) ||| (if (List.range 128).any (raised 0) then 2 else 0) ∧
            ∀ i j, i < 128 → j < 64 → tm'.cell tile i j = BitVec.ofNat 32 ((row (upTo i) i).2.2.2.1.getD j 0)))
        | .osmAcc _ cv => done ∧ tm'.sp = tm.sp ∧
          (let scaled := fun (i j : Nat) => fmtF32.mulV 0 (fmtF32.read (old i j).toNat)
             (fmtF32.read (bytesNat (Memory.bytes tm.sp (cv.toNat + 4 * i) 4)))
           let raised := fun (n i j : Nat) => (scaled i j).2.getLsbD n
           (tm.tiles.getD tile ⟨0, []⟩).all.length = 8192 →
            tm'.mxflags = tm.mxflags ||| (if someCell (raised 2) then 1 else 0) ||| (if someCell (raised 0) then 2 else 0) ∧
            ∀ i j, i < 128 → j < 64 → tm'.cell tile i j = BitVec.ofNat 32 (scaled i j).1)) ∧
    ((s.mxcmds.find? fun x => x.id == c.id) = some c → c.finished = true →
      ∃ t, exec (.matrixCommandComplete c.id) s = .next t ∧ t.mxcmds = (s.mxcmds.filter fun x => x.id != c.id) ∧
        CommandDone s t c.gid c.id)

/-- R338 to R341, R343 to R350: a ready engine that holds fewer than 256 instructions accepts one whose tree is its own and valid, and its
group goes on, but under `.t` of ts.exp; an instruction for another engine's tree travels there. Actions, where the slices that they reach
take work: a descent enters its root, and from a node the child with the greatest score, the lowest among equals, adds a virtual loss, and
tests it: it ends there, goes on, or puts the leaf record in the bin, and where it cannot, undoes its losses node by node; a backup counts
the visit and the value, takes a virtual loss away, and goes on to the parent or ends; an expansion reads its records, then takes nodes from
the free list or the end and links them; a re-root cuts the new root off, or is refused while the old one holds losses; ts.anc writes the
word of a row, with the last the zero tail; a freeing action pushes a node of the old chain onto the free list and counts it off. Model's
choices: `pendfree` rises for a late expansion (log entry 48), and an undo leaves 0 at 0 and passes freed ancestors over (log entry 49). -/
def Obligations.FordEnginesAct : Prop :=
  ∀ (s : State) (o : FordOp), s.Inv → s.syn = [] →
    (let ws := structWords s o.pa 8
     let h := THead.of ws
     fordInput s o.die = some o → bitsOf (ws.getD 3 0) 26 6 = 0 → fordReady s o.die = true → awake s o.pa 64 = true →
     (h.die ≠ o.die → exec (.fordAcceptance o.die) s =
       .next { s with fords := (s.fords.filter fun x => x.id != o.id) ++ [{ o with die := h.die }] }) ∧
     (h.die = o.die → fordHeld s o.die < 256 → treeBad ws = false → (∀ i, o.kind.names = some i → i < h.cap) →
       exec (.fordAcceptance o.die) s = .next { s with
         fords := s.fords.map fun x => if x.id = o.id then { x with phase := .accepted } else x
         groups := if o.drop = true ∨ o.kind.holds = true then s.groups
           else s.groups.map fun g => if g.gid = o.gid ∧ g.hold = .ford o.id then { g with hold := .none } else g })) ∧
    ((s.fords.find? fun x => x.id == o.id) = some o → fordWaits s o = false →
     (let h := treeHead s o
      let acts := fun (t : State) => exec (.fordAction o.id) s = .next t
      let left := fun (t : State) => t.fords = s.fords.filter fun x => x.id != o.id
      let on := fun (t : State) (o' : FordOp) => t.groups = s.groups ∧ (t.fords.find? fun x => x.id == o.id) = some o'
      let told := fun (t : State) (vs : List (Nat × Word)) =>
        left t ∧ t.groups = s.groupsTold (o.drop || o.answered) o.gid (.ford o.id) vs
      let replies := fun (t : State) (w : Word) => told t [(o.sd, w)]
      let desc := fun (t : State) (w : Word) (i d token : Nat) =>
        told t [(o.sd, w), (o.sb, BitVec.ofNat 64 i), (o.sb + 1, BitVec.ofNat 64 d), (o.sb + 2, BitVec.ofNat 64 token)]
      (FordServed s o (fordVas s o) → fordBinAwake s o = true → o.phase = .accepted →
        (∀ user i d (c : TNode) pa, o.kind = .desc user →
          ((o.path = [] ∧ i = h.root ∧ d = 0 ∧ nodeAt s o h i = .ok c ∧ c.fr = false) ∨
            ∃ n path tn kids, o.path = n :: path ∧ o.depth < 65535 ∧ d = o.depth + 1 ∧ nodeAt s o h n = .ok tn ∧
              childrenOf s o h tn = .ok kids ∧ (i, c) ∈ kids ∧ c.fr = false ∧ ∀ j e, (j, e) ∈ kids → e.fr = false →
                childScore h (tn.n + tn.v) e ≤ childScore h (tn.n + tn.v) c ∧
                (childScore h (tn.n + tn.v) e = childScore h (tn.n + tn.v) c → i ≤ j ∧ (i = j → e = c))) →
          nodeLoc s o h i = .ok pa → c.v < 65535 → NoWaiter s pa 32 →
          (let o1 := { o with node := i, depth := d, path := i :: o.path }
           let lossy := ({ c with v := c.v + 1 } : TNode)
           let wrote := fun (t : State) => WroteBytes s t pa lossy.bytes
           (c.te = true ∨ (c.ex = true ∧ c.count = 0) →
             ∃ t, acts t ∧ wrote t ∧ desc t (fordWord 0 false false true 0 0) i d c.token) ∧
           (c.te = false → c.ex = true → c.count ≠ 0 → ∃ t, acts t ∧ wrote t ∧ on t o1) ∧
           (c.te = false → c.ex = false → c.pe = true →
             ∃ t, acts t ∧ wrote t ∧ desc t (fordWord 0 false false false 0 3) i d c.token) ∧
           ∀ pb e, c.te = false → c.ex = false → c.pe = false → (∀ u, Rewrote s u [(pa, 32)] → nodeLoc u o h i = .ok pa) →
             (∀ u, Rewrote s u [(pa, 32)] → translate u o.die none o.part (BitVec.ofNat 64 h.bin) needRW = .ok pb e) →
             inSram pb = true → Apart pa 32 pb 128 →
             (let bs := structWords s pb 16
              let b := BinHead.of bs
              (b.task ≠ h.task ∨ b.coal ≠ h.batch →
                ∃ t, acts t ∧ WroteBytes s t pa { lossy with flags := c.flags &&& ~~~4 }.bytes ∧ on t { o1 with phase := .undo 1 }) ∧
              (b.task = h.task → b.coal = h.batch → binBad bs pb (e.vbase + e.size - h.bin) = false → binBusy bs b.cur = false →
                b.fill + 1 < b.coal → (b.fill ≠ 0 ∨ b.period = 0 ∨ timersAt s (homeSlice pb) < 64) →
                (let slot := pb + 128 + 2048 * b.cur + 64 * b.fill
                 NoWaiter s pb 128 → NoWaiter s slot 64 → Apart pa 32 slot 64 →
                 ∃ t, acts t ∧ Memory.bytes t.mem pa 32 = { lossy with flags := c.flags ||| 4 }.bytes ∧
                   memWords t slot 8 = [o.header, BitVec.ofNat 64 i, BitVec.ofNat 64 d, BitVec.ofNat 64 c.token, user, 0, 0, 0] ∧
                   (BinHead.of (memWords t pb 2)).fill = b.fill + 1 ∧ desc t (fordWord 0 false true false 0 0) i d c.token))))) ∧
        (∀ leaf v alt nv tn pa, o.kind = .back leaf v alt nv →
          (let m := if o.depth = 0 then leaf else o.node
           nodeAt s o h m = .ok tn → tn.fr = false → nodeLoc s o h m = .ok pa → NoWaiter s pa 32 →
           ∃ t, acts t ∧
             (let add := BitVec.ofInt 64 (if alt = true ∧ o.depth % 2 = 1 then -v else v)
              let full := tn.n = 2 ^ 32 - 1
              let sa := o.sa || (!nv && decide full) || decide (tn.v = 0)
              WroteBytes s t pa ({ tn with
                n := if nv = true ∨ full then tn.n else tn.n + 1
                w := if nv then tn.w else tn.w + add
                v := tn.v - 1
                flags := if nv = false ∧ o.depth = 0 then tn.flags &&& ~~~4 else tn.flags } : TNode).bytes ∧
              if tn.parent = noNode then replies t (fordWord 0 sa false false 0 0)
              else if o.depth + 1 = 65536 then replies t (fordWord 0 sa false false 6 1)
              else on t { o with node := tn.parent, depth := o.depth + 1, sa := sa }))) ∧
        (∀ n k array tf pa e, o.kind = .exp n k array tf → o.recs = none →
          translate s o.die none o.part array needR = .ok pa e → array.toNat + 8 * k ≤ e.vbase + e.size →
          ∃ t, acts t ∧ t.mem = s.mem ∧ on t { o with recs := some (memWords s pa k) }) ∧
        (∀ n k array tf rs tn at_, o.kind = .exp n k array tf → o.recs = some rs → rs.length = k → Laid s o h at_ →
          nodeAt s o h n = .ok tn → tn.fr = false → tn.ex = false → tn.te = false → (∀ x, x ∈ rs → bitsOf x 17 15 = 0) →
          (k = 0 → ∃ t, acts t ∧ TreeIs s t o h at_
            (fun i => if i = n then some { tn with flags := tn.flags ||| 3, first := noNode } else none) [] ∧
            replies t (fordWord noNode false false false 0 0)) ∧
          ∀ hd, k ≠ 0 → (h.freehead ≠ noNode → nodeAt s o h h.freehead = .ok hd) →
            (let list := h.freehead ≠ noNode ∧ k ≤ hd.count
             let base := if list then h.freehead else h.next
             let late := h.pend ≠ 0 ∧ underRoot s o h n = false
             base + k ≤ h.cap → n < base ∨ base + k ≤ n → (list → k < hd.count → h.freehead + k < h.cap ∧ n ≠ h.freehead + k) →
             ∃ t, acts t ∧ replies t (fordWord base false false false 0 0) ∧ TreeIs s t o h at_
               (fun i =>
                 if i = n then some { tn with first := base, count := k, flags := tn.flags ||| 1 }
                 else if base ≤ i ∧ i < base + k then
                   (let x := rs.getD (i - base) 0
                    some ⟨0, 0, bitsOf x 0 16, 0, noNode, 0, if x.getLsbD 16 then 2 else 0, 0, n, bitsOf x 32 32⟩)
                 else if list ∧ k < hd.count ∧ i = h.freehead + k then
                   some { TNode.freed with first := hd.first, count := hd.count - k }
                 else none)
               ((if list then (1, halves h.cap (if k = hd.count then hd.first else h.freehead + k)) else (6, halves h.root (h.next + k)))
                 :: if late then [(7, halves (h.pend + 1) 0)] else []))) ∧
        (∀ r sync chain rt tn, o.kind = .root r sync → chainToRoot s o h 65536 r = .ok chain → nodeAt s o h h.root = .ok rt →
          nodeAt s o h r = .ok tn →
          (rt.v ≠ 0 → ∃ t, acts t ∧ t.mem = s.mem ∧ replies t (fordWord 0 false false false 4 1)) ∧
          (rt.v = 0 → r = h.root → ∃ t, acts t ∧ t.mem = s.mem ∧ replies t 0) ∧
          ∀ blocks at_, rt.v = 0 → r ≠ h.root → blocksToFree s o h chain = .ok blocks → Laid s o h at_ →
            ∃ t, acts t ∧ TreeIs s t o h at_ (fun i => if i = r then some { tn with parent := noNode } else none)
                [(6, halves r h.next), (7, halves (h.pend + blocks) 0)] ∧
              (t.fords.find? fun x => x.id == o.id) =
                some { o with phase := .freeing, jobs := freeJobs chain, answered := !sync } ∧
              t.groups = s.groupsTold (sync || o.drop || o.answered) o.gid (.ford o.id) [(o.sd, 0)]) ∧
        ∀ rows cols (rl cl mask : Word) pr er pc ec pm chain, o.kind = .anc rows cols rl cl mask → 0 < cols → rows ≤ 128 →
          translate s o.die none o.part (BitVec.ofNat 64 (rl.toNat + 4 * o.node)) needR = .ok pr er →
          rl.toNat + 4 * o.node + 4 ≤ er.vbase + er.size →
          translate s o.die none o.part (BitVec.ofNat 64 cl.toNat) needR = .ok pc ec → cl.toNat + 4 * cols ≤ ec.vbase + ec.size →
          (let row := bytesNat (Memory.bytes s.mem pr 4)
           let last := rows ≤ o.node + 1
           let tail := if last then 128 - rows else 0
           let aux := o.aux + if chain = none then 1 else 0
           rowChain s o h row = .ok chain →
           (∀ k, k ≤ tail → ∃ e, translate s o.die none o.part (mask + BitVec.ofNat 64 (8 * (o.node + k))) needW = .ok (pm + 8 * k) e) →
           NoWaiter s pm (8 + 8 * tail) →
           ∃ t w, acts t ∧ WroteBytes s t pm (wordsBytes (w :: List.replicate tail 0)) ∧
             (∀ j, j < 64 → (w.getLsbD j = true ↔ j < cols ∧ ∃ c, chain = some c ∧ bytesNat (Memory.bytes s.mem (pc + 4 * j) 4) ∈ c)) ∧
             if last then replies t (fordWord aux false false false 0 0) else on t { o with node := o.node + 1, aux := aux })) ∧
      (∀ reason n path tn pa, FordServed s o (fordVas s o) → fordBinAwake s o = true → o.phase = .undo reason → o.path = n :: path →
        nodeAt s o h n = .ok tn → nodeLoc s o h n = .ok pa → NoWaiter s pa 32 →
        ∃ t, acts t ∧ WroteBytes s t pa ({ tn with v := tn.v - 1 } : TNode).bytes ∧
          if path = [] then desc t (fordWord 0 false false false reason 1) noNode o.depth 0 else on t { o with path := path }) ∧
      ∀ a pa, FordServed s o (nodeVas h (nodesBelow s o h h.cap a)) → o.phase = .freeing → o.jobs = [.self a] → nodeLoc s o h a = .ok pa →
        (∃ tn, nodeAt s o h a = .ok tn) → (pa + 32 ≤ o.pa ∨ o.pa + 64 ≤ pa) → NoWaiter s pa 32 → NoWaiter s o.pa 64 →
        ∃ t, exec (.freeingPush o.id) s = .next t ∧
          Memory.bytes t.mem pa 32 = ({ TNode.freed with first := h.freehead, count := 1 } : TNode).bytes ∧
          devWord t (o.pa + 8) = halves h.cap a ∧ devWord t (o.pa + 56) = halves (h.pend - 1) 0 ∧
          (∀ x, (x < pa ∨ pa + 32 ≤ x) → (x < o.pa + 8 ∨ (o.pa + 16 ≤ x ∧ x < o.pa + 56) ∨ o.pa + 64 ≤ x) →
            Memory.get t.mem x = Memory.get s.mem x) ∧ replies t 0))

/-! ### Messages between devices and from hosts -/

/-- R185, R389 to R393: at a switch, `fb.red` and `fb.bcast` are refused with the first reason that holds; a contribution that is accepted, or
a child's partial that names a valid record in its round, is merged into the record's context, or opens it, and counts as arrived. Where it
is the last of the device's round, the root delivers the rounded sums, and another device sends one partial to its parent. A broadcast that
is accepted, and a result from the parent, deliver their bytes: the result, the record at the next round with nothing arrived, the done
counter one higher, a result message for every child. A message whose record is unreachable or invalid, or of another round, is dropped and
logged (PROT, reason 11). Model's choices: the sign of a sum of zeros travels with the partial (log entry 24), acceptance, status and merge
are one action (log entry 51), and a context belongs to the record's physical address (log entry 81). -/
def Obligations.FabricMessages : Prop :=
  ∀ (s : State) (p : Nat) (record round : Word), s.Inv → s.syn = [] →
    (let tables := transReads s 0 none p record needRW
     let seen := markTables 0 tables s
     let msgs := fun (elems : List PartialElem) (payload : List Byte) =>
       [(Instr.partialMessage p record round elems, 0), (.resultMessage p record round payload, 1)]
     let log := fun (sub : Nat) (c : Word) => (logEntry p ⟨.prot, 11, sub, 0, record, round, c⟩).run seen
     reachesPart s p = true → (s.part p).state ≠ .resetting → s.mgmt.stopped = false → awakeWords s tables = true →
     (∀ o elems payload m, translate s 0 none p record needRW = .fail o → m ∈ msgs elems payload →
       exec m.1 s = .next (log m.2 (BitVec.allOnes 64))) ∧
     ∀ pa e elems payload m, translate s 0 none p record needRW = .ok pa e → awakeWords s ((List.range 8).map fun k => pa + 8 * k) = true →
       m ∈ msgs elems payload →
       (let ws := structWords s pa 8
        (record.toNat % 64 ≠ 0 ∨ recordInvalid ws = true → exec m.1 s = .next (log m.2 (BitVec.allOnes 64))) ∧
        (record.toNat % 64 = 0 → recordInvalid ws = false → (FRec.of ws).round ≠ round →
          exec m.1 s = .next (log m.2 (FRec.of ws).round)))) ∧
    ∀ (pa ra da : Nat) (peers : Nat → Word × Word) (ws : List Word) (h : FRec), ws = structWords s pa 8 → h = FRec.of ws →
      (let recVa := record.toNat
       let mine := fun (c : FabCtx) => c.part == p && c.pa == pa
       let sums : List FabElem → List FabElem := fun es => match s.fabs.find? mine with
         | some c => (c.elems.zip es).map fun x => x.1.merge x.2
         | none => es
       let merged : Option Nat → List FabElem → List FabCtx := fun die es =>
         if s.fabs.any mine then
           s.fabs.map fun c => if mine c then
             { c with dies := (c.dies ++ die.toList).eraseDups, elems := (c.elems.zip es).map fun x => x.1.merge x.2 } else c
         else s.fabs ++ [⟨p, pa, h.round, die.toList, es, false⟩]
       let after := fun (t : State) (die : Option Nat) (es : List FabElem) (place : Nat) (w : Word) (last : Prop) (own : Option Nat) =>
         let rs := (sums es).map (rootElem h)
         let bits := (if rs.any fun r => r.2.1 then 2 else 0) + if rs.any fun r => r.2.2 then 1 else 0
         (¬last → WroteBytes s t place (wordBytes w) ∧ t.outbox = s.outbox ∧ t.fabs = merged die es) ∧
         (last → h.parent ≠ 63 → WroteBytes s t place (wordBytes w) ∧
           t.outbox = s.outbox ++ [.partialOut (peers h.parent).1 p (peers h.parent).2 h.round ((sums es).map FabElem.toPartial)] ∧
           t.fabs = (merged die es).map fun c => if mine c then { c with waiting := true } else c) ∧
         (last → h.parent = 63 →
           Delivered s t p pa h ra da peers (rs.flatMap fun r => natBytes h.size r.1) (BitVec.ofNat 64 bits) own)
       FabLaid s p pa h ra da peers → fabAwake s p h true = true → (∀ c, c ∈ s.fabs → mine c = true → c.elems.length = h.elems) →
       (recordInvalid ws = false → record.toNat % 64 = 0 → h.round = round → reachesPart s p = true → (s.part p).state ≠ .resetting →
         s.mgmt.stopped = false → (∃ e, translate s 0 none p record needRW = .ok pa e) →
         awakeWords s (transReads s 0 none p record needRW ++ (List.range 8).map fun k => pa + 8 * k) = true →
         (∀ elems : List PartialElem, elems.length = h.elems →
           ∃ t, exec (.partialMessage p record round elems) s = .next t ∧ t.groups = s.groups ∧
             after t none (elems.map FabElem.ofPartial) (pa + 48) (h.carrived + 1)
               (h.arrived.toNat = h.contributions ∧ (h.carrived + 1).toNat = h.children) none) ∧
         ∀ payload : List Byte, payload.length = h.elems * h.size →
           ∃ t, exec (.resultMessage p record round payload) s = .next t ∧ t.groups = s.groups ∧
             Delivered s t p pa h ra da peers payload 0 none) ∧
       ∀ (r : Req) (pc : Piece) (rest : List Piece) (tm : Team) (bcast : Bool) (count rnd data sd : Nat),
         (s.reqs.filter fun q => q.id == r.id) = [r] → canPerform s r = true → served s r = true → r.part = p → r.sp = false → r.pieces = pc :: rest → pc.addr = pa →
         r.op = (if bcast then .fbBcast recVa count rnd data sd else .fbRed recVa count rnd data sd) → r.phase = .flying →
         heldByData s r data count = false → poolAwake s r.team data (8 * count) = true → s.team? r.team = some tm → tm.spSyn = [] →
         (let why : Option Nat :=
            if recordInvalid ws then some 1
            else if rnd ≠ h.round.toNat then some 2
            else if count ≠ h.elems then some 3
            else if bcast = false ∧ h.arrived.toNat = h.contributions then some 4
            else if bcast = true ∧ (h.parent ≠ 63 ∨ h.contributions ≠ 1) then some 5
            else none
          let bytes := Memory.bytes tm.sp data (count * h.size)
          let adds := (List.range count).map fun k => addendOf h (bytesNat ((bytes.drop (h.size * k)).take h.size))
          data % 8 = 0 → ∃ t, exec (.homeSliceAccess r.id) s = .next t ∧ match why with
            | some n => Answered t r ∧ Told s t r [(sd, statusWord false n 1)] ∧ t.mem = s.mem ∧ t.outbox = s.outbox ∧ t.fabs = s.fabs
            | none => Told s t r [(sd, 0)] ∧
              if bcast then Delivered s t p pa h ra da peers bytes 0 (some r.id)
              else
                (¬((h.arrived + 1).toNat = h.contributions ∧ h.carrived.toNat = h.children) ∨ h.parent ≠ 63 →
                  t.req? r.id = some { r with phase := .contributed }) ∧
                after t (some (dieOfCore r.core)) adds (pa + 40) (h.arrived + 1)
                  ((h.arrived + 1).toNat = h.contributions ∧ h.carrived.toNat = h.children) (some r.id)))

/-- R314, R383, R394, R396, R405: a remote operation whose window grants it and whose pages allow it is performed and answered, once the
slices that it reaches take work: a write stores its bytes, a read returns them, an atomic replaces its word and returns the old one; one
that fails its checks, or an atomic that is not aligned, is answered by an error and does nothing. A packet of another service is refused. -/
def Obligations.RemoteOperations : Prop :=
  ∀ (s : State) (r : RemoteRef), s.Inv → s.syn = [] →
    (∀ service, portReady s = true → exec (.unsupportedUePacket service) s = .next { s with outbox := s.outbox ++ [.unsupported service] }) ∧
    (reachesPart s r.part = true → s.mgmt.stopped = false →
     (let tables := fun (kind : RemoteKind) (n : Nat) => awakeWords s (remoteReads s r kind.need n) = true
      let said := fun (kind : RemoteKind) (n : Nat) (m : HostMsg) =>
        { markTables 0 (remoteReads s r kind.need n) s with outbox := s.outbox ++ [m] }
      (∀ payload : List Byte, tables .write payload.length →
        (remoteSpans s r .write payload.length = none →
          exec (.remoteWrite r payload) s = .next (said .write payload.length (.accessError r.tag))) ∧
        ∀ pa, remoteSpans s r .write payload.length = some [(pa, payload.length)] → spansOpen s [(pa, payload.length)] = true →
          NoWaiter s pa payload.length →
          ∃ t, exec (.remoteWrite r payload) s = .next t ∧ OnlyWrote (said .write payload.length (.writeDone r.tag)) t pa payload) ∧
      (∀ len : Nat, tables .read len →
        (remoteSpans s r .read len = none → exec (.remoteRead r len) s = .next (said .read len (.accessError r.tag))) ∧
        ∀ l, remoteSpans s r .read len = some l → spansOpen s l = true →
          exec (.remoteRead r len) s = .next (said .read len (.readData r.tag (l.flatMap fun x => Memory.bytes s.mem x.1 x.2)))) ∧
      ∀ (i : Instr) (f : Word → Word),
        ((∃ v, i = .remoteFetchAdd r v ∧ f = fun x => x + v) ∨ (∃ v, i = .remoteSwap r v ∧ f = fun _ => v) ∨
          ∃ v c, i = .remoteCompareSwap r v c ∧ f = fun x => if x = c then v else x) →
        (let base := (((s.part r.part).windows.getD r.window none).map Window.base).getD 0
         ((base + r.offset) % 8 ≠ 0 → exec i s = .next { s with outbox := s.outbox ++ [.accessError r.tag] }) ∧
         ((base + r.offset) % 8 = 0 → tables .atomic 8 →
           (remoteSpans s r .atomic 8 = none → exec i s = .next (said .atomic 8 (.accessError r.tag))) ∧
           ∀ pa, remoteSpans s r .atomic 8 = some [(pa, 8)] → spansOpen s [(pa, 8)] = true → NoWaiter s pa 8 →
             ∃ t, exec i s = .next t ∧ OnlyWrote (said .atomic 8 (.atomicDone r.tag (devWord s pa))) t pa (wordBytes (f (devWord s pa)))))))

/-! ### Management, start and power -/

/-- R399, R402, R403, R404, R406: the ROM answers GET_VERSION and GET_CAPABILITIES and no other request; Halone answers every request: with
its algorithms, with the digest of its certificates, with the certificates, with the eight measurement registers. CHALLENGE and a key
exchange that succeeds are answered with a signature of the alias key. A key exchange opens a handshake only where no session is open and
the requester names one of the operator keys; where one is open the answer is ERROR with code Busy. Its answer brings the device's point of
secp384r1, and the secrets of both directions follow from the two ends' points. FINISH opens the session where the requester's signature
verifies under its key and it proves that it holds its secret, and else ends the handshake; KEY_UPDATE replaces secrets; END_SESSION ends the
session, and outside one that and the other requests of a session are an ERROR. The codes, the encodings, the transcript that is signed, the
schedule of the secrets and the remaining contents of the answers are the model's (log entry 18). -/
def Obligations.SpdmAnswers : Prop :=
  ∀ (s : State),
    (let gives := fun (i : Instr) (v : Session) (code : Nat) (data : List Byte) =>
       exec i s = .next { s with mgmt := { s.mgmt with session := v }, outbox := s.outbox ++ [.spdm code data] }
     let told := fun (i : Instr) (v : Session) (first : List Byte) => ∃ code rest, code ≠ 0x7F ∧ gives i v code (first ++ rest)
     let refused := fun (i : Instr) (v : Session) => ∃ rest, gives i v 0x7F rest
     let signed := fun (i : Instr) (v : Session) (sent : List Byte) => ∀ k, s.mgmt.aliasKey = some k → ∃ code body, code ≠ 0x7F ∧
       gives i v code (body ++ edSign (natBytes 32 k.toNat) (Config.spdmTranscript code sent s.fresh))
     let now := s.mgmt.session
     told .getVersion now [] ∧ told .getCapabilities now [] ∧
     (∀ i nonce requester exchange, i ∈ [.negotiateAlgorithms, .getDigests, .getCertificate, .challenge nonce, .getMeasurements,
         .keyExchange requester exchange, .heartbeat, .keyUpdate, .endSession] → s.mgmt.stage = .rom → exec i s = .next s) ∧
     (s.mgmt.stage = .halone →
       told .negotiateAlgorithms now algorithms ∧
       told .getDigests now (sha384 (s.mgmt.idCert ++ s.mgmt.aliasCert)) ∧
       told .getCertificate now (s.mgmt.idCert ++ s.mgmt.aliasCert) ∧
       (∀ nonce, signed (.challenge nonce) now (natBytes 32 nonce.toNat)) ∧
       told .getMeasurements now (s.mgmt.meas.zipIdx.flatMap fun r =>
         natBytes 48 r.1.toNat ++ (if r.2 < 4 then natBytes 4 (s.mgmt.svns.getD r.2 0) else [])) ∧
       (∀ key exchange, let i := Instr.keyExchange key exchange
         let may := s.mgmt.ready.getLsbD 124 = true ∧ key ∈ s.mgmt.opKeys
         (now ≠ .none → gives i now 0x7F [3]) ∧
         (now = .none → may → ∀ q k, EcPoint.of exchange = some q → s.mgmt.aliasKey = some k → ∃ code body, code ≠ 0x7F ∧
           (let sent := Config.spdmTranscript code (natBytes 32 key.toNat ++ exchange) s.fresh
            let d := exchangeNumber s
            let keys := handshakeKeys (ecAgree d q) (sha384 sent)
            gives i (.handshake key keys) code ((EcPoint.mul 384 d ecBase).bytes ++ body ++ edSign (natBytes 32 k.toNat) sent ++
              verifyData keys.response sent))) ∧
         (now = .none → (¬may ∨ EcPoint.of exchange = none) → refused i now)) ∧
       (∀ proof, match now with
         | .handshake key keys =>
           if finishProves s key keys proof then ∃ code rest, code ≠ 0x7F ∧ gives (.finish proof)
             (.opened key (dataKeys keys (sha384 (Config.spdmTranscript code (proof.signature ++ proof.verify) s.fresh)))) code rest
           else refused (.finish proof) .none
         | v => refused (.finish proof) v) ∧
       (∀ i v, (i, v) ∈ [(.heartbeat, now), (.keyUpdate, now.update (Config.keyUpdateOp s.fresh)), (.endSession, .none)] →
         if inSession s then told i v [] else refused i now)))

/-- R407, with R32, R33, R34, R52, R54, R68, R285, R330, R333, R358, R377, R382, R396, R402, R404: inside the session each management command
whose condition holds has its effect and is answered with status 0 and what it returns, and one whose condition fails, or that names a
partition that is not configured, is answered with status 1 and has no effect; so is one outside the session (log entry 76). A command that
changes a partition which is being reset, or whose slice takes no work yet, waits, and later commands wait behind it (R383, R405; log
entry 75). A configuration makes the fault queue's control block
zero, its `consumed` word too (log entry 75), forgets what was cached under the partition's addresses, and counts from zero. What the spec
leaves open of a configuration and a jetty is log entry 56, the model's choice. -/
def Obligations.ManagementCommands : Prop :=
  ∀ (s : State) (p : Nat),
    (let said := fun (t : State) (data : List Byte) =>
       (.next { t with outbox := s.outbox ++ [.mgmt 0 data] } : Host.Outcome State Fault Refusal)
     let failed : Host.Outcome State Fault Refusal := .next { s with outbox := s.outbox ++ [.mgmt 1 []] }
     (∀ i, isCommand i = true →
       (s.mgmt.stage = .rom → exec i s = .next s) ∧
       (s.mgmt.stage = .halone → inSession s = false → exec i s = failed) ∧
       (s.mgmt.stage = .halone → inSession s = true →
         (s.mgmt.waiting ≠ [] ∨ waitsForSlice s i = true ∨ ∃ k, changedPart i = some k ∧ (s.part k).state = .resetting) →
         exec i s = .next { s with mgmt := { s.mgmt with waiting := s.mgmt.waiting ++ [i] } }) ∧
       (s.mgmt.stage = .halone → inSession s = true → s.mgmt.waiting = [] → namedPart i = some p → (∀ ws fq save, i ≠ .configurePartition p ws fq save) →
         (8 ≤ p ∨ (s.part p).state = .none) → (s.part p).state ≠ .resetting → exec i s = failed)) ∧
     (s.mgmt.stage = .halone → inSession s = true → s.mgmt.waiting = [] →
       exec .readReadinessMap s = said s (natBytes 32 s.mgmt.ready.toNat) ∧
       (∃ data, exec .readPowerAndTemperatures s = said s data) ∧
       (∀ j prod cons ringpa capm1, awakeAt s ringpa = true → exec (.createJetty j prod cons ringpa capm1) s =
         if jettyOk j prod cons ringpa capm1 then
           said { s with jettys := (s.jettys.filter fun y => y.num != j) ++ [⟨j, false, false, prod, cons, ringpa, capm1, 0, 0, 0, 0⟩] } []
         else failed) ∧
       (∀ j, (∀ x, s.jetty? j = some x → awakeAt s x.ringpa = true) → exec (.clearJettyReset j) s =
         if (s.jettys.any fun x => x.num == j) then
           said { s with
             jettys := s.jettys.map fun x => if x.num = j then { x with prst := false, crst := false, head := 0, count := 0 } else x } []
         else failed) ∧
       (p < 8 → (s.part p).state ≠ .none →
         exec (.readCodeKey p) s = said s (natBytes 32 (s.part p).codeKey.toNat) ∧
         exec (.readFaultQueueAddresses p) s = said s (natBytes 8 (s.part p).fq ++ natBytes 8 (s.part p).save) ∧
         ((s.part p).state ≠ .resetting →
           (let changed := fun (f : Part → Part) => said { s with parts := s.parts.map fun q => if q.num = p then f q else q } []
            exec (.startPartition p) s = changed (fun q => { q with state := .running }) ∧
            exec (.stopPartition p) s = changed (fun q => { q with state := .stopped }) ∧
            (∀ n, exec (.setWatchdogPeriod p n) s = changed fun q => { q with wdPeriod := n }) ∧
            (∀ b, exec (.grantDiagnostics p b) s = changed fun q => { q with diag := b }) ∧
            (∀ w (x : WindowSpec), exec (.setMemoryWindow p w x) s =
              if w < 16 then
                changed fun q => { q with windows := q.windows.set w (some ⟨x.base, x.length, x.read, x.write, x.atomic, x.key⟩) }
              else failed) ∧
            ∀ cls threshold period, exec (.setEventThresholds p cls threshold period) s =
              if (cls = 0 ∨ cls = 2) ∧ 1 ≤ threshold ∧ threshold ≤ 65535 ∧ 1 ≤ period ∧ period ≤ 16777215 then
                changed fun q => { q with events := q.events.modify cls fun e => { e with threshold := threshold, period := period } }
              else failed))) ∧
       ∀ ws fq save, (s.part p).state ≠ .resetting →
         (configureOk s p ws fq = false → exec (.configurePartition p ws fq save) s = failed) ∧
         (configureOk s p ws fq = true → awake s fq 64 = true → s.syn = [] → NoWait s fq 64 →
           ∃ t, exec (.configurePartition p ws fq save) s = said t [] ∧
             t = { s with
               parts := t.parts, mem := t.mem, tlb := t.tlb, ilines := t.ilines, presT := t.presT, presC := t.presC
               mgmt := { s.mgmt with meas := t.mgmt.meas } } ∧
             t.mgmt.meas = s.mgmt.meas.modify (4 + p / 2) (fun r =>
               BitVec.ofNat 384 (bytesNat (sha384 (natBytes 48 r.toNat ++ sha384 (wordsBytes ws))))) ∧
             WroteBytes s t fq (List.replicate 64 0) ∧ (∀ e, e ∈ t.tlb → e.part ≠ p) ∧
             (∀ l, l ∈ t.ilines → l.asid ≠ (s.part p).asidbase) ∧ OtherParts s t p ∧
             (let w := fun (k : Nat) => (ws.getD k 0).toNat
              ∀ q, q ∈ t.parts → q.num = p →
                q.pairs.toNat = w 1 % 2 ^ 32 * 2 ^ 64 + w 0 ∧ q.ptroot = w 2 % 2 ^ 48 ∧ q.asidbase = w 3 / 2 ^ 48 ∧
                q.tasktab = w 3 % 2 ^ 48 ∧ q.tstop = decide (w 4 / 2 ^ 18 % 2 = 1) ∧ q.taskcount = w 4 % 2 ^ 17 ∧ q.cmdq = w 5 % 2 ^ 48 ∧
                q.weight = w 6 / 2 ^ 8 % 2 ^ 8 ∧ q.state = (if w 7 % 4 = 1 then .running else .stopped) ∧ q.fq = fq ∧ q.save = save ∧
                q.codeKey = Config.codeKey s.fresh ∧ q.entered = 0 ∧ q.oldest = none ∧ q.events = List.replicate 5 (.start 1 65536)))))

/-- R9, R13, R52, R383, R399, R401 to R404, R408: a module reset leaves nothing but device memory (log entry 55, the model's choice) and what has
been told; the management core runs Halone where the seed can be reconstructed and one of the two images is good, has measured that image,
and has derived the identity key from the seed and the alias key from the seed and the measurement, with a certificate that the identity key
signs. A unit that becomes ready, once what it depends on is ready and the Caslan links of its die are trained, sets its bit, a class 3 event
of every configured partition. A hot sample that throttles a further die is a class 4 event; a cool one ends throttling without an event (log
entry 57); a critical one resets every partition at once (log entry 54), counts a class 4 event that is not sent while they reset, and
stops the C-dies. An array enters retention and leaves it, and then a management command that waited for it is performed in that step (log
entries 75 and 76, the model's choice); the idle time is not kept (log entry 74). -/
def Obligations.ModuleAndPower : Prop :=
  ∀ (s : State),
    (∀ (start : StartInputs) (flash : List Image), ∃ m, exec (.moduleReset start flash) s = .next { State.reset with
        mem := s.mem, syn := s.syn, mgmt := m, outbox := s.outbox, now := s.now, seq := s.seq, nextId := s.nextId, fresh := s.fresh } ∧
      m.ready = 0 ∧ m.links = 0 ∧ m.session = .none ∧ m.stopped = false ∧ m.waiting = [] ∧
      (let seed := Config.reconstructSeed start.puf start.helper
       let image := (flash.take 2).find? haloneOk
       (seed = none ∨ image = none → m = .reset) ∧
       ∀ k i, seed = some k → image = some i →
         (let digest := sha384 (List.replicate 48 0 ++ sha384 (wordsBytes i.header ++ i.body))
          let measured : BitVec 384 := BitVec.ofNat 384 (bytesNat digest)
          let derived := fun (salt : List Byte) (label : String) =>
            (BitVec.ofNat 256 (bytesNat (hkdf384 salt (natBytes 32 k.toNat) (ascii label))) : BitVec 256)
          let idKey := derived [] "LX96 ID"
          let aliasKey := derived (natBytes 48 measured.toNat) "LX96 ALIAS"
          let tbs := Config.aliasTbs (edPublic (natBytes 32 idKey.toNat)) (edPublic (natBytes 32 aliasKey.toNat))
          m.stage = .halone ∧ m.meas[0]? = some measured ∧ m.seed = some k ∧ m.idKey = some idKey ∧ m.aliasKey = some aliasKey ∧
          m.idCert = start.cert ∧ m.aliasCert = tbs ++ edSign (natBytes 32 idKey.toNat) tbs))) ∧
    (∀ (u : UnitReport), s.mgmt.stage = .halone → s.mgmt.waiting = [] → unitExists u.unit = true → s.mgmt.ready.getLsbD (readyBit u.unit) = false →
      (let links := s.mgmt.links ||| u.links
       (match u.unit with
         | .sliceGroup n => s.mgmt.ready.getLsbD (96 + n / 4) = true
         | .pair n => links.getLsbD (n / 24) = true
         | .ford n => links.getLsbD n = true
         | .port n => links.getLsbD (4 + n / 6) = true
         | .stack _ => True
         | .mgmt => True) →
       ∃ t, exec (.unitReady u) s = .next t ∧
         t = { s with parts := t.parts, outbox := t.outbox, mgmt := { s.mgmt with links := links, ready := t.mgmt.ready } } ∧
         (∀ b, b < 256 → t.mgmt.ready.getLsbD b = (s.mgmt.ready.getLsbD b || decide (b = readyBit u.unit))) ∧
         (Numbered s → NoticeInAll { s with mgmt := t.mgmt } t 3))) ∧
    (∀ xs, ∃ t, exec (.thermalThrottle xs) s = .next t ∧
      t = { s with parts := t.parts, outbox := t.outbox, mgmt := { s.mgmt with
        samples := addSamples s.mgmt.samples xs
        throttled := s.mgmt.throttled.zipIdx.map fun d => d.1 || throttles (addSamples s.mgmt.samples xs) d.2 } } ∧
      (t.mgmt.throttled = s.mgmt.throttled → t.parts = s.parts ∧ t.outbox = s.outbox) ∧
      (t.mgmt.throttled ≠ s.mgmt.throttled → Numbered s → NoticeInAll s t 4)) ∧
    (∀ xs, exec (.throttleEnd xs) s = .next { s with mgmt := { s.mgmt with
      samples := addSamples s.mgmt.samples xs
      throttled := s.mgmt.throttled.zipIdx.map fun d => d.1 && !cools (addSamples s.mgmt.samples xs) d.2 } }) ∧
    (∀ xs, Numbered s → critical (addSamples s.mgmt.samples xs) = true → s.mgmt.stopped = false →
      ∃ t, exec (.criticalShutdown xs) s = .next t ∧ t.mgmt.stopped = true ∧ t.mgmt.samples = addSamples s.mgmt.samples xs ∧
        (∀ p, p < 8 → (s.part p).state ≠ .none → (s.part p).state ≠ .resetting →
          (t.part p).state = .resetting ∧ (∀ g, g ∈ t.groups → g.part ≠ p) ∧ ∀ l, l ∈ t.launches → l.part ≠ p) ∧
        ∀ p e, p < 8 → (s.part p).state ≠ .none → (s.part p).events[4]? = some e →
          (t.part p).events[4]? = some { e with
            count := min (e.count + 1) 65535, timer := if e.count = 0 then some e.period else e.timer }) ∧
    ∀ arr, (∃ t, exec (.retentionEntry arr) s = .next t ∧ t.retained = (if arr ∈ s.retained then s.retained else s.retained ++ [arr])) ∧
      let left := { s with retained := s.retained.filter fun x => x != arr, mgmt := { s.mgmt with waiting := [] } }
      (s.mgmt.waiting = [] → exec (.retentionExit arr) s = .next left) ∧
      ∀ i, s.mgmt.waiting = [i] → commandWaits left i = false → exec (.retentionExit arr) s = .next (runCommand i left)
end

