-- ==== Sys2Proof/Laws/Encoding.lean ====
section
/-! SUPPORT. Words and fields (R71 to R93): each format's word gives back its header, its fields and its major, and leaves its reserved bits
zero. -/

set_option linter.unusedSimpArgs false

namespace Sys2Proof

set_option Elab.async false

/-- Bits of two words put together. -/
theorem extract_or (a b : Word) (s n : Nat) : (a ||| b).extractLsb' s n = a.extractLsb' s n ||| b.extractLsb' s n := by
  apply BitVec.eq_of_getLsbD_eq
  intro i hi
  simp only [BitVec.getLsbD_extractLsb', BitVec.getLsbD_or]
  cases decide (i < n) <;> simp

/-- A field's bits. -/
theorem fieldAt_getLsbD {n : Nat} (v : BitVec n) (lo i : Nat) :
    (fieldAt v lo).getLsbD i = (decide (i < 64) && !decide (i < lo) && v.getLsbD (i - lo)) := by
  simp only [fieldAt, BitVec.getLsbD_shiftLeft, BitVec.getLsbD_setWidth]
  by_cases h : i < 64
  · have : i - lo < 64 := by omega
    simp [h, this]
  · simp [h]

/-- A field read at its own place. -/
theorem extract_field {n : Nat} (v : BitVec n) (lo : Nat) (h : lo + n ≤ 64) : (fieldAt v lo).extractLsb' lo n = v := by
  apply BitVec.eq_of_getLsbD_eq
  intro i hi
  have h1 : lo + i < 64 := by omega
  simp [BitVec.getLsbD_extractLsb', fieldAt_getLsbD, hi, h1, -BitVec.getLsbD_eq_getElem]

/-- A field read elsewhere. -/
theorem extract_field_off {n : Nat} (v : BitVec n) (lo s k : Nat) (h : lo + n ≤ s ∨ s + k ≤ lo) : (fieldAt v lo).extractLsb' s k = 0#k := by
  apply BitVec.eq_of_getLsbD_eq
  intro i hi
  rcases h with h | h
  · have : v.getLsbD (s + i - lo) = false := BitVec.getLsbD_of_ge v _ (by omega)
    simp [BitVec.getLsbD_extractLsb', fieldAt_getLsbD, this, -BitVec.getLsbD_eq_getElem]
  · have : s + i < lo := by omega
    simp [BitVec.getLsbD_extractLsb', fieldAt_getLsbD, this, -BitVec.getLsbD_eq_getElem]

/-- Part of a field. -/
theorem extract_field_in {n : Nat} (v : BitVec n) (lo s k : Nat) (h : lo ≤ s ∧ s + k ≤ lo + n) (h2 : s + k ≤ 64) :
    (fieldAt v lo).extractLsb' s k = v.extractLsb' (s - lo) k := by
  apply BitVec.eq_of_getLsbD_eq
  intro i hi
  have h1 : ¬ s + i < lo := by omega
  have h3 : s + i < 64 := by omega
  have h4 : s + i - lo = s - lo + i := by omega
  simp [BitVec.getLsbD_extractLsb', fieldAt_getLsbD, h1, h3, h4, hi, -BitVec.getLsbD_eq_getElem]

/-- A field's bit outside it. -/
theorem bit_field_off {n : Nat} (v : BitVec n) (lo i : Nat) (h : lo + n ≤ i ∨ i < lo) : (fieldAt v lo).getLsbD i = false := by
  rw [fieldAt_getLsbD]
  rcases h with h | h
  · simp [BitVec.getLsbD_of_ge v (i - lo) (by omega)]
  · simp [h]

/-- A flag read at its own place. -/
theorem bit_flag (b : Bool) (lo : Nat) (h : lo < 64) : (bitAt b lo).getLsbD lo = b := by
  rw [bitAt, fieldAt_getLsbD]
  simp [h]

/-- A flag read elsewhere. -/
theorem bit_flag_off (b : Bool) (lo i : Nat) (h : i ≠ lo) : (bitAt b lo).getLsbD i = false :=
  bit_field_off _ _ _ (by omega)

/-- A flag's bits elsewhere. -/
theorem extract_flag_off (b : Bool) (lo s k : Nat) (h : lo + 1 ≤ s ∨ s + k ≤ lo) : (bitAt b lo).extractLsb' s k = 0#k :=
  extract_field_off _ _ _ _ h

/-- A field outside a mask. -/
theorem field_mask {n : Nat} (v : BitVec n) (lo : Nat) (m : Word) (h : m.extractLsb' lo n = 0) : fieldAt v lo &&& m = 0#64 := by
  apply BitVec.eq_of_getLsbD_eq
  intro i hi
  rw [BitVec.getLsbD_and, fieldAt_getLsbD]
  by_cases h1 : i < lo
  · simp [h1]
  · by_cases h2 : i - lo < n
    · have := congrArg (fun x => x.getLsbD (i - lo)) h
      simp only [BitVec.getLsbD_extractLsb', h2, decide_true, Bool.true_and] at this
      rw [show lo + (i - lo) = i by omega] at this
      rw [this]
      simp
    · rw [BitVec.getLsbD_of_ge v _ (by omega)]
      simp

/-- A flag outside a mask. -/
theorem flag_mask (b : Bool) (lo : Nat) (m : Word) (h : m.extractLsb' lo 1 = 0) : bitAt b lo &&& m = 0#64 := field_mask _ _ _ h

/-- The bits of two words under a mask. -/
theorem or_mask (a b m : Word) : (a ||| b) &&& m = (a &&& m) ||| (b &&& m) := by
  apply BitVec.eq_of_getLsbD_eq
  intro i hi
  simp only [BitVec.getLsbD_and, BitVec.getLsbD_or, Bool.and_or_distrib_right]


/-- The fields of a VR word. -/
theorem getVR_putVR (m : BitVec 8) (h : Hdr) (f : VR) : getVR (putVR m h f) = f := by
  cases f
  simp only [getVR, putVR, putHdr]
  congr 1
  · simp (disch := decide) only [extract_or, extract_field, extract_field_off, extract_flag_off, BitVec.or_zero, BitVec.zero_or]
  · simp (disch := decide) only [extract_or, extract_field, extract_field_off, extract_flag_off, BitVec.or_zero, BitVec.zero_or]
  · simp (disch := decide) only [extract_or, extract_field, extract_field_off, extract_flag_off, BitVec.or_zero, BitVec.zero_or]
  · simp (disch := decide) only [extract_or, extract_field, extract_field_off, extract_flag_off, BitVec.or_zero, BitVec.zero_or]
  · simp (disch := decide) only [extract_or, extract_field, extract_field_off, extract_flag_off, BitVec.or_zero, BitVec.zero_or]
  · simp (disch := decide) only [BitVec.getLsbD_or, bit_flag, bit_flag_off, bit_field_off, Bool.or_false, Bool.false_or]
  · simp (disch := decide) only [BitVec.getLsbD_or, bit_flag, bit_flag_off, bit_field_off, Bool.or_false, Bool.false_or]
  · simp (disch := decide) only [BitVec.getLsbD_or, bit_flag, bit_flag_off, bit_field_off, Bool.or_false, Bool.false_or]
  · simp (disch := decide) only [BitVec.getLsbD_or, bit_flag, bit_flag_off, bit_field_off, Bool.or_false, Bool.false_or]
  · simp (disch := decide) only [extract_or, extract_field, extract_field_off, extract_flag_off, BitVec.or_zero, BitVec.zero_or]
  · simp (disch := decide) only [extract_or, extract_field, extract_field_off, extract_flag_off, BitVec.or_zero, BitVec.zero_or]
  · simp (disch := decide) only [BitVec.getLsbD_or, bit_flag, bit_flag_off, bit_field_off, Bool.or_false, Bool.false_or]

/-- The header of a VR word. -/
theorem hdrOf_putVR (m : BitVec 8) (h : Hdr) (f : VR) : hdrOf (putVR m h f) = h := by
  cases h
  simp only [hdrOf, putVR, putHdr]
  congr 1
  · simp (disch := decide) only [BitVec.getLsbD_or, bit_flag, bit_flag_off, bit_field_off, Bool.or_false, Bool.false_or]
  · simp (disch := decide) only [BitVec.getLsbD_or, bit_flag, bit_flag_off, bit_field_off, Bool.or_false, Bool.false_or]
  · simp (disch := decide) only [BitVec.getLsbD_or, bit_flag, bit_flag_off, bit_field_off, Bool.or_false, Bool.false_or]
  · simp (disch := decide) only [extract_or, extract_field, extract_field_off, extract_flag_off, BitVec.or_zero, BitVec.zero_or]

/-- The high half of the major of a VR word. -/
theorem majorHi_putVR (m : BitVec 8) (h : Hdr) (f : VR) : (putVR m h f).extractLsb' 60 4 = m.extractLsb' 4 4 := by
  simp only [putVR, putHdr]
  simp (disch := decide) only [extract_or, extract_field_in, extract_field_off, Nat.reduceSub, extract_flag_off, BitVec.or_zero, BitVec.zero_or]

/-- The low half of the major of a VR word. -/
theorem majorLo_putVR (m : BitVec 8) (h : Hdr) (f : VR) : (putVR m h f).extractLsb' 56 4 = m.extractLsb' 0 4 := by
  simp only [putVR, putHdr]
  simp (disch := decide) only [extract_or, extract_field_in, extract_field_off, Nat.reduceSub, extract_flag_off, BitVec.or_zero, BitVec.zero_or]

/-- The reserved bits of a VR word. -/
theorem mask_putVR (m : BitVec 8) (h : Hdr) (f : VR) : putVR m h f &&& (0x3 : Word) = 0#64 := by
  simp only [putVR, putHdr]
  simp (disch := decide) only [or_mask, field_mask, flag_mask, BitVec.or_zero]

/-- The fields of a VI word. -/
theorem getVI_putVI (m : BitVec 8) (h : Hdr) (f : VI) : getVI (putVI m h f) = f := by
  cases f
  simp only [getVI, putVI, putHdr]
  congr 1
  · simp (disch := decide) only [extract_or, extract_field, extract_field_off, extract_flag_off, BitVec.or_zero, BitVec.zero_or]
  · simp (disch := decide) only [extract_or, extract_field, extract_field_off, extract_flag_off, BitVec.or_zero, BitVec.zero_or]
  · simp (disch := decide) only [extract_or, extract_field, extract_field_off, extract_flag_off, BitVec.or_zero, BitVec.zero_or]
  · simp (disch := decide) only [BitVec.getLsbD_or, bit_flag, bit_flag_off, bit_field_off, Bool.or_false, Bool.false_or]
  · simp (disch := decide) only [BitVec.getLsbD_or, bit_flag, bit_flag_off, bit_field_off, Bool.or_false, Bool.false_or]
  · simp (disch := decide) only [extract_or, extract_field, extract_field_off, extract_flag_off, BitVec.or_zero, BitVec.zero_or]
  · simp (disch := decide) only [extract_or, extract_field, extract_field_off, extract_flag_off, BitVec.or_zero, BitVec.zero_or]
  · simp (disch := decide) only [BitVec.getLsbD_or, bit_flag, bit_flag_off, bit_field_off, Bool.or_false, Bool.false_or]
  · simp (disch := decide) only [extract_or, extract_field, extract_field_off, extract_flag_off, BitVec.or_zero, BitVec.zero_or]

/-- The header of a VI word. -/
theorem hdrOf_putVI (m : BitVec 8) (h : Hdr) (f : VI) : hdrOf (putVI m h f) = h := by
  cases h
  simp only [hdrOf, putVI, putHdr]
  congr 1
  · simp (disch := decide) only [BitVec.getLsbD_or, bit_flag, bit_flag_off, bit_field_off, Bool.or_false, Bool.false_or]
  · simp (disch := decide) only [BitVec.getLsbD_or, bit_flag, bit_flag_off, bit_field_off, Bool.or_false, Bool.false_or]
  · simp (disch := decide) only [BitVec.getLsbD_or, bit_flag, bit_flag_off, bit_field_off, Bool.or_false, Bool.false_or]
  · simp (disch := decide) only [extract_or, extract_field, extract_field_off, extract_flag_off, BitVec.or_zero, BitVec.zero_or]

/-- The high half of the major of a VI word. -/
theorem majorHi_putVI (m : BitVec 8) (h : Hdr) (f : VI) : (putVI m h f).extractLsb' 60 4 = m.extractLsb' 4 4 := by
  simp only [putVI, putHdr]
  simp (disch := decide) only [extract_or, extract_field_in, extract_field_off, Nat.reduceSub, extract_flag_off, BitVec.or_zero, BitVec.zero_or]

/-- The low half of the major of a VI word. -/
theorem majorLo_putVI (m : BitVec 8) (h : Hdr) (f : VI) : (putVI m h f).extractLsb' 56 4 = m.extractLsb' 0 4 := by
  simp only [putVI, putHdr]
  simp (disch := decide) only [extract_or, extract_field_in, extract_field_off, Nat.reduceSub, extract_flag_off, BitVec.or_zero, BitVec.zero_or]

/-- The reserved bits of a VI word. -/
theorem mask_putVI (m : BitVec 8) (h : Hdr) (f : VI) : putVI m h f &&& (0x5400 : Word) = 0#64 := by
  simp only [putVI, putHdr]
  simp (disch := decide) only [or_mask, field_mask, flag_mask, BitVec.or_zero]

/-- The fields of a VS word. -/
theorem getVS_putVS (m : BitVec 8) (h : Hdr) (f : VS) : getVS (putVS m h f) = f := by
  cases f
  simp only [getVS, putVS, putHdr]
  congr 1
  · simp (disch := decide) only [extract_or, extract_field, extract_field_off, extract_flag_off, BitVec.or_zero, BitVec.zero_or]
  · simp (disch := decide) only [extract_or, extract_field, extract_field_off, extract_flag_off, BitVec.or_zero, BitVec.zero_or]
  · simp (disch := decide) only [extract_or, extract_field, extract_field_off, extract_flag_off, BitVec.or_zero, BitVec.zero_or]
  · simp (disch := decide) only [extract_or, extract_field, extract_field_off, extract_flag_off, BitVec.or_zero, BitVec.zero_or]
  · simp (disch := decide) only [BitVec.getLsbD_or, bit_flag, bit_flag_off, bit_field_off, Bool.or_false, Bool.false_or]
  · simp (disch := decide) only [BitVec.getLsbD_or, bit_flag, bit_flag_off, bit_field_off, Bool.or_false, Bool.false_or]
  · simp (disch := decide) only [extract_or, extract_field, extract_field_off, extract_flag_off, BitVec.or_zero, BitVec.zero_or]
  · simp (disch := decide) only [extract_or, extract_field, extract_field_off, extract_flag_off, BitVec.or_zero, BitVec.zero_or]
  · simp (disch := decide) only [BitVec.getLsbD_or, bit_flag, bit_flag_off, bit_field_off, Bool.or_false, Bool.false_or]

/-- The header of a VS word. -/
theorem hdrOf_putVS (m : BitVec 8) (h : Hdr) (f : VS) : hdrOf (putVS m h f) = h := by
  cases h
  simp only [hdrOf, putVS, putHdr]
  congr 1
  · simp (disch := decide) only [BitVec.getLsbD_or, bit_flag, bit_flag_off, bit_field_off, Bool.or_false, Bool.false_or]
  · simp (disch := decide) only [BitVec.getLsbD_or, bit_flag, bit_flag_off, bit_field_off, Bool.or_false, Bool.false_or]
  · simp (disch := decide) only [BitVec.getLsbD_or, bit_flag, bit_flag_off, bit_field_off, Bool.or_false, Bool.false_or]
  · simp (disch := decide) only [extract_or, extract_field, extract_field_off, extract_flag_off, BitVec.or_zero, BitVec.zero_or]

/-- The high half of the major of a VS word. -/
theorem majorHi_putVS (m : BitVec 8) (h : Hdr) (f : VS) : (putVS m h f).extractLsb' 60 4 = m.extractLsb' 4 4 := by
  simp only [putVS, putHdr]
  simp (disch := decide) only [extract_or, extract_field_in, extract_field_off, Nat.reduceSub, extract_flag_off, BitVec.or_zero, BitVec.zero_or]

/-- The low half of the major of a VS word. -/
theorem majorLo_putVS (m : BitVec 8) (h : Hdr) (f : VS) : (putVS m h f).extractLsb' 56 4 = m.extractLsb' 0 4 := by
  simp only [putVS, putHdr]
  simp (disch := decide) only [extract_or, extract_field_in, extract_field_off, Nat.reduceSub, extract_flag_off, BitVec.or_zero, BitVec.zero_or]

/-- The reserved bits of a VS word. -/
theorem mask_putVS (m : BitVec 8) (h : Hdr) (f : VS) : putVS m h f &&& (0x1403 : Word) = 0#64 := by
  simp only [putVS, putHdr]
  simp (disch := decide) only [or_mask, field_mask, flag_mask, BitVec.or_zero]

/-- The fields of a V3 word. -/
theorem getV3_putV3 (m : BitVec 8) (h : Hdr) (f : V3) : getV3 (putV3 m h f) = f := by
  cases f
  simp only [getV3, putV3, putHdr]
  congr 1
  · simp (disch := decide) only [extract_or, extract_field, extract_field_off, extract_flag_off, BitVec.or_zero, BitVec.zero_or]
  · simp (disch := decide) only [extract_or, extract_field, extract_field_off, extract_flag_off, BitVec.or_zero, BitVec.zero_or]
  · simp (disch := decide) only [extract_or, extract_field, extract_field_off, extract_flag_off, BitVec.or_zero, BitVec.zero_or]
  · simp (disch := decide) only [extract_or, extract_field, extract_field_off, extract_flag_off, BitVec.or_zero, BitVec.zero_or]
  · simp (disch := decide) only [BitVec.getLsbD_or, bit_flag, bit_flag_off, bit_field_off, Bool.or_false, Bool.false_or]
  · simp (disch := decide) only [BitVec.getLsbD_or, bit_flag, bit_flag_off, bit_field_off, Bool.or_false, Bool.false_or]
  · simp (disch := decide) only [BitVec.getLsbD_or, bit_flag, bit_flag_off, bit_field_off, Bool.or_false, Bool.false_or]
  · simp (disch := decide) only [BitVec.getLsbD_or, bit_flag, bit_flag_off, bit_field_off, Bool.or_false, Bool.false_or]
  · simp (disch := decide) only [BitVec.getLsbD_or, bit_flag, bit_flag_off, bit_field_off, Bool.or_false, Bool.false_or]
  · simp (disch := decide) only [extract_or, extract_field, extract_field_off, extract_flag_off, BitVec.or_zero, BitVec.zero_or]
  · simp (disch := decide) only [extract_or, extract_field, extract_field_off, extract_flag_off, BitVec.or_zero, BitVec.zero_or]
  · simp (disch := decide) only [BitVec.getLsbD_or, bit_flag, bit_flag_off, bit_field_off, Bool.or_false, Bool.false_or]
  · simp (disch := decide) only [BitVec.getLsbD_or, bit_flag, bit_flag_off, bit_field_off, Bool.or_false, Bool.false_or]

/-- The header of a V3 word. -/
theorem hdrOf_putV3 (m : BitVec 8) (h : Hdr) (f : V3) : hdrOf (putV3 m h f) = h := by
  cases h
  simp only [hdrOf, putV3, putHdr]
  congr 1
  · simp (disch := decide) only [BitVec.getLsbD_or, bit_flag, bit_flag_off, bit_field_off, Bool.or_false, Bool.false_or]
  · simp (disch := decide) only [BitVec.getLsbD_or, bit_flag, bit_flag_off, bit_field_off, Bool.or_false, Bool.false_or]
  · simp (disch := decide) only [BitVec.getLsbD_or, bit_flag, bit_flag_off, bit_field_off, Bool.or_false, Bool.false_or]
  · simp (disch := decide) only [extract_or, extract_field, extract_field_off, extract_flag_off, BitVec.or_zero, BitVec.zero_or]

/-- The high half of the major of a V3 word. -/
theorem majorHi_putV3 (m : BitVec 8) (h : Hdr) (f : V3) : (putV3 m h f).extractLsb' 60 4 = m.extractLsb' 4 4 := by
  simp only [putV3, putHdr]
  simp (disch := decide) only [extract_or, extract_field_in, extract_field_off, Nat.reduceSub, extract_flag_off, BitVec.or_zero, BitVec.zero_or]

/-- The low half of the major of a V3 word. -/
theorem majorLo_putV3 (m : BitVec 8) (h : Hdr) (f : V3) : (putV3 m h f).extractLsb' 56 4 = m.extractLsb' 0 4 := by
  simp only [putV3, putHdr]
  simp (disch := decide) only [extract_or, extract_field_in, extract_field_off, Nat.reduceSub, extract_flag_off, BitVec.or_zero, BitVec.zero_or]

/-- The reserved bits of a V3 word. -/
theorem mask_putV3 (m : BitVec 8) (h : Hdr) (f : V3) : putV3 m h f &&& (0x1 : Word) = 0#64 := by
  simp only [putV3, putHdr]
  simp (disch := decide) only [or_mask, field_mask, flag_mask, BitVec.or_zero]

/-- The fields of a VP word. -/
theorem getVP_putVP (m : BitVec 8) (h : Hdr) (f : VP) : getVP (putVP m h f) = f := by
  cases f
  simp only [getVP, putVP, putHdr]
  congr 1
  · simp (disch := decide) only [extract_or, extract_field, extract_field_off, extract_flag_off, BitVec.or_zero, BitVec.zero_or]
  · simp (disch := decide) only [extract_or, extract_field, extract_field_off, extract_flag_off, BitVec.or_zero, BitVec.zero_or]
  · simp (disch := decide) only [extract_or, extract_field, extract_field_off, extract_flag_off, BitVec.or_zero, BitVec.zero_or]
  · simp (disch := decide) only [extract_or, extract_field, extract_field_off, extract_flag_off, BitVec.or_zero, BitVec.zero_or]
  · simp (disch := decide) only [extract_or, extract_field, extract_field_off, extract_flag_off, BitVec.or_zero, BitVec.zero_or]
  · simp (disch := decide) only [BitVec.getLsbD_or, bit_flag, bit_flag_off, bit_field_off, Bool.or_false, Bool.false_or]
  · simp (disch := decide) only [BitVec.getLsbD_or, bit_flag, bit_flag_off, bit_field_off, Bool.or_false, Bool.false_or]
  · simp (disch := decide) only [BitVec.getLsbD_or, bit_flag, bit_flag_off, bit_field_off, Bool.or_false, Bool.false_or]
  · simp (disch := decide) only [BitVec.getLsbD_or, bit_flag, bit_flag_off, bit_field_off, Bool.or_false, Bool.false_or]
  · simp (disch := decide) only [extract_or, extract_field, extract_field_off, extract_flag_off, BitVec.or_zero, BitVec.zero_or]
  · simp (disch := decide) only [extract_or, extract_field, extract_field_off, extract_flag_off, BitVec.or_zero, BitVec.zero_or]
  · simp (disch := decide) only [BitVec.getLsbD_or, bit_flag, bit_flag_off, bit_field_off, Bool.or_false, Bool.false_or]

/-- The header of a VP word. -/
theorem hdrOf_putVP (m : BitVec 8) (h : Hdr) (f : VP) : hdrOf (putVP m h f) = h := by
  cases h
  simp only [hdrOf, putVP, putHdr]
  congr 1
  · simp (disch := decide) only [BitVec.getLsbD_or, bit_flag, bit_flag_off, bit_field_off, Bool.or_false, Bool.false_or]
  · simp (disch := decide) only [BitVec.getLsbD_or, bit_flag, bit_flag_off, bit_field_off, Bool.or_false, Bool.false_or]
  · simp (disch := decide) only [BitVec.getLsbD_or, bit_flag, bit_flag_off, bit_field_off, Bool.or_false, Bool.false_or]
  · simp (disch := decide) only [extract_or, extract_field, extract_field_off, extract_flag_off, BitVec.or_zero, BitVec.zero_or]

/-- The high half of the major of a VP word. -/
theorem majorHi_putVP (m : BitVec 8) (h : Hdr) (f : VP) : (putVP m h f).extractLsb' 60 4 = m.extractLsb' 4 4 := by
  simp only [putVP, putHdr]
  simp (disch := decide) only [extract_or, extract_field_in, extract_field_off, Nat.reduceSub, extract_flag_off, BitVec.or_zero, BitVec.zero_or]

/-- The low half of the major of a VP word. -/
theorem majorLo_putVP (m : BitVec 8) (h : Hdr) (f : VP) : (putVP m h f).extractLsb' 56 4 = m.extractLsb' 0 4 := by
  simp only [putVP, putHdr]
  simp (disch := decide) only [extract_or, extract_field_in, extract_field_off, Nat.reduceSub, extract_flag_off, BitVec.or_zero, BitVec.zero_or]

/-- The reserved bits of a VP word. -/
theorem mask_putVP (m : BitVec 8) (h : Hdr) (f : VP) : putVP m h f &&& (0x18000000001 : Word) = 0#64 := by
  simp only [putVP, putHdr]
  simp (disch := decide) only [or_mask, field_mask, flag_mask, BitVec.or_zero]

/-- The fields of a CV word. -/
theorem getCV_putCV (m : BitVec 8) (h : Hdr) (f : CV) : getCV (putCV m h f) = f := by
  cases f
  simp only [getCV, putCV, putHdr]
  congr 1
  · simp (disch := decide) only [extract_or, extract_field, extract_field_off, extract_flag_off, BitVec.or_zero, BitVec.zero_or]
  · simp (disch := decide) only [extract_or, extract_field, extract_field_off, extract_flag_off, BitVec.or_zero, BitVec.zero_or]
  · simp (disch := decide) only [extract_or, extract_field, extract_field_off, extract_flag_off, BitVec.or_zero, BitVec.zero_or]
  · simp (disch := decide) only [extract_or, extract_field, extract_field_off, extract_flag_off, BitVec.or_zero, BitVec.zero_or]
  · simp (disch := decide) only [extract_or, extract_field, extract_field_off, extract_flag_off, BitVec.or_zero, BitVec.zero_or]
  · simp (disch := decide) only [BitVec.getLsbD_or, bit_flag, bit_flag_off, bit_field_off, Bool.or_false, Bool.false_or]
  · simp (disch := decide) only [BitVec.getLsbD_or, bit_flag, bit_flag_off, bit_field_off, Bool.or_false, Bool.false_or]
  · simp (disch := decide) only [extract_or, extract_field, extract_field_off, extract_flag_off, BitVec.or_zero, BitVec.zero_or]
  · simp (disch := decide) only [BitVec.getLsbD_or, bit_flag, bit_flag_off, bit_field_off, Bool.or_false, Bool.false_or]

/-- The header of a CV word. -/
theorem hdrOf_putCV (m : BitVec 8) (h : Hdr) (f : CV) : hdrOf (putCV m h f) = h := by
  cases h
  simp only [hdrOf, putCV, putHdr]
  congr 1
  · simp (disch := decide) only [BitVec.getLsbD_or, bit_flag, bit_flag_off, bit_field_off, Bool.or_false, Bool.false_or]
  · simp (disch := decide) only [BitVec.getLsbD_or, bit_flag, bit_flag_off, bit_field_off, Bool.or_false, Bool.false_or]
  · simp (disch := decide) only [BitVec.getLsbD_or, bit_flag, bit_flag_off, bit_field_off, Bool.or_false, Bool.false_or]
  · simp (disch := decide) only [extract_or, extract_field, extract_field_off, extract_flag_off, BitVec.or_zero, BitVec.zero_or]

/-- The high half of the major of a CV word. -/
theorem majorHi_putCV (m : BitVec 8) (h : Hdr) (f : CV) : (putCV m h f).extractLsb' 60 4 = m.extractLsb' 4 4 := by
  simp only [putCV, putHdr]
  simp (disch := decide) only [extract_or, extract_field_in, extract_field_off, Nat.reduceSub, extract_flag_off, BitVec.or_zero, BitVec.zero_or]

/-- The low half of the major of a CV word. -/
theorem majorLo_putCV (m : BitVec 8) (h : Hdr) (f : CV) : (putCV m h f).extractLsb' 56 4 = m.extractLsb' 0 4 := by
  simp only [putCV, putHdr]
  simp (disch := decide) only [extract_or, extract_field_in, extract_field_off, Nat.reduceSub, extract_flag_off, BitVec.or_zero, BitVec.zero_or]

/-- The reserved bits of a CV word. -/
theorem mask_putCV (m : BitVec 8) (h : Hdr) (f : CV) : putCV m h f &&& (0x17C3 : Word) = 0#64 := by
  simp only [putCV, putHdr]
  simp (disch := decide) only [or_mask, field_mask, flag_mask, BitVec.or_zero]

/-- The fields of a PR word. -/
theorem getPR_putPR (m : BitVec 8) (h : Hdr) (f : PR) : getPR (putPR m h f) = f := by
  cases f
  simp only [getPR, putPR, putHdr]
  congr 1
  · simp (disch := decide) only [extract_or, extract_field, extract_field_off, extract_flag_off, BitVec.or_zero, BitVec.zero_or]
  · simp (disch := decide) only [extract_or, extract_field, extract_field_off, extract_flag_off, BitVec.or_zero, BitVec.zero_or]
  · simp (disch := decide) only [extract_or, extract_field, extract_field_off, extract_flag_off, BitVec.or_zero, BitVec.zero_or]
  · simp (disch := decide) only [BitVec.getLsbD_or, bit_flag, bit_flag_off, bit_field_off, Bool.or_false, Bool.false_or]
  · simp (disch := decide) only [BitVec.getLsbD_or, bit_flag, bit_flag_off, bit_field_off, Bool.or_false, Bool.false_or]
  · simp (disch := decide) only [extract_or, extract_field, extract_field_off, extract_flag_off, BitVec.or_zero, BitVec.zero_or]

/-- The header of a PR word. -/
theorem hdrOf_putPR (m : BitVec 8) (h : Hdr) (f : PR) : hdrOf (putPR m h f) = h := by
  cases h
  simp only [hdrOf, putPR, putHdr]
  congr 1
  · simp (disch := decide) only [BitVec.getLsbD_or, bit_flag, bit_flag_off, bit_field_off, Bool.or_false, Bool.false_or]
  · simp (disch := decide) only [BitVec.getLsbD_or, bit_flag, bit_flag_off, bit_field_off, Bool.or_false, Bool.false_or]
  · simp (disch := decide) only [BitVec.getLsbD_or, bit_flag, bit_flag_off, bit_field_off, Bool.or_false, Bool.false_or]
  · simp (disch := decide) only [extract_or, extract_field, extract_field_off, extract_flag_off, BitVec.or_zero, BitVec.zero_or]

/-- The high half of the major of a PR word. -/
theorem majorHi_putPR (m : BitVec 8) (h : Hdr) (f : PR) : (putPR m h f).extractLsb' 60 4 = m.extractLsb' 4 4 := by
  simp only [putPR, putHdr]
  simp (disch := decide) only [extract_or, extract_field_in, extract_field_off, Nat.reduceSub, extract_flag_off, BitVec.or_zero, BitVec.zero_or]

/-- The low half of the major of a PR word. -/
theorem majorLo_putPR (m : BitVec 8) (h : Hdr) (f : PR) : (putPR m h f).extractLsb' 56 4 = m.extractLsb' 0 4 := by
  simp only [putPR, putHdr]
  simp (disch := decide) only [extract_or, extract_field_in, extract_field_off, Nat.reduceSub, extract_flag_off, BitVec.or_zero, BitVec.zero_or]

/-- The reserved bits of a PR word. -/
theorem mask_putPR (m : BitVec 8) (h : Hdr) (f : PR) : putPR m h f &&& (0x0 : Word) = 0#64 := by
  simp

/-- The fields of a SV word. -/
theorem getSV_putSV (m : BitVec 8) (h : Hdr) (f : SV) : getSV (putSV m h f) = f := by
  cases f
  simp only [getSV, putSV, putHdr]
  congr 1
  · simp (disch := decide) only [extract_or, extract_field, extract_field_off, extract_flag_off, BitVec.or_zero, BitVec.zero_or]
  · simp (disch := decide) only [extract_or, extract_field, extract_field_off, extract_flag_off, BitVec.or_zero, BitVec.zero_or]
  · simp (disch := decide) only [extract_or, extract_field, extract_field_off, extract_flag_off, BitVec.or_zero, BitVec.zero_or]
  · simp (disch := decide) only [BitVec.getLsbD_or, bit_flag, bit_flag_off, bit_field_off, Bool.or_false, Bool.false_or]
  · simp (disch := decide) only [BitVec.getLsbD_or, bit_flag, bit_flag_off, bit_field_off, Bool.or_false, Bool.false_or]
  · simp (disch := decide) only [extract_or, extract_field, extract_field_off, extract_flag_off, BitVec.or_zero, BitVec.zero_or]

/-- The header of a SV word. -/
theorem hdrOf_putSV (m : BitVec 8) (h : Hdr) (f : SV) : hdrOf (putSV m h f) = h := by
  cases h
  simp only [hdrOf, putSV, putHdr]
  congr 1
  · simp (disch := decide) only [BitVec.getLsbD_or, bit_flag, bit_flag_off, bit_field_off, Bool.or_false, Bool.false_or]
  · simp (disch := decide) only [BitVec.getLsbD_or, bit_flag, bit_flag_off, bit_field_off, Bool.or_false, Bool.false_or]
  · simp (disch := decide) only [BitVec.getLsbD_or, bit_flag, bit_flag_off, bit_field_off, Bool.or_false, Bool.false_or]
  · simp (disch := decide) only [extract_or, extract_field, extract_field_off, extract_flag_off, BitVec.or_zero, BitVec.zero_or]

/-- The high half of the major of a SV word. -/
theorem majorHi_putSV (m : BitVec 8) (h : Hdr) (f : SV) : (putSV m h f).extractLsb' 60 4 = m.extractLsb' 4 4 := by
  simp only [putSV, putHdr]
  simp (disch := decide) only [extract_or, extract_field_in, extract_field_off, Nat.reduceSub, extract_flag_off, BitVec.or_zero, BitVec.zero_or]

/-- The low half of the major of a SV word. -/
theorem majorLo_putSV (m : BitVec 8) (h : Hdr) (f : SV) : (putSV m h f).extractLsb' 56 4 = m.extractLsb' 0 4 := by
  simp only [putSV, putHdr]
  simp (disch := decide) only [extract_or, extract_field_in, extract_field_off, Nat.reduceSub, extract_flag_off, BitVec.or_zero, BitVec.zero_or]

/-- The reserved bits of a SV word. -/
theorem mask_putSV (m : BitVec 8) (h : Hdr) (f : SV) : putSV m h f &&& (0x1800000143F : Word) = 0#64 := by
  simp only [putSV, putHdr]
  simp (disch := decide) only [or_mask, field_mask, flag_mask, BitVec.or_zero]

/-- The fields of a RS word. -/
theorem getRS_putRS (m : BitVec 8) (h : Hdr) (f : RS) : getRS (putRS m h f) = f := by
  cases f
  simp only [getRS, putRS, putHdr]
  congr 1
  · simp (disch := decide) only [extract_or, extract_field, extract_field_off, extract_flag_off, BitVec.or_zero, BitVec.zero_or]
  · simp (disch := decide) only [BitVec.getLsbD_or, bit_flag, bit_flag_off, bit_field_off, Bool.or_false, Bool.false_or]
  · simp (disch := decide) only [extract_or, extract_field, extract_field_off, extract_flag_off, BitVec.or_zero, BitVec.zero_or]

/-- The header of a RS word. -/
theorem hdrOf_putRS (m : BitVec 8) (h : Hdr) (f : RS) : hdrOf (putRS m h f) = h := by
  cases h
  simp only [hdrOf, putRS, putHdr]
  congr 1
  · simp (disch := decide) only [BitVec.getLsbD_or, bit_flag, bit_flag_off, bit_field_off, Bool.or_false, Bool.false_or]
  · simp (disch := decide) only [BitVec.getLsbD_or, bit_flag, bit_flag_off, bit_field_off, Bool.or_false, Bool.false_or]
  · simp (disch := decide) only [BitVec.getLsbD_or, bit_flag, bit_flag_off, bit_field_off, Bool.or_false, Bool.false_or]
  · simp (disch := decide) only [extract_or, extract_field, extract_field_off, extract_flag_off, BitVec.or_zero, BitVec.zero_or]

/-- The high half of the major of a RS word. -/
theorem majorHi_putRS (m : BitVec 8) (h : Hdr) (f : RS) : (putRS m h f).extractLsb' 60 4 = m.extractLsb' 4 4 := by
  simp only [putRS, putHdr]
  simp (disch := decide) only [extract_or, extract_field_in, extract_field_off, Nat.reduceSub, extract_flag_off, BitVec.or_zero, BitVec.zero_or]

/-- The low half of the major of a RS word. -/
theorem majorLo_putRS (m : BitVec 8) (h : Hdr) (f : RS) : (putRS m h f).extractLsb' 56 4 = m.extractLsb' 0 4 := by
  simp only [putRS, putHdr]
  simp (disch := decide) only [extract_or, extract_field_in, extract_field_off, Nat.reduceSub, extract_flag_off, BitVec.or_zero, BitVec.zero_or]

/-- The reserved bits of a RS word. -/
theorem mask_putRS (m : BitVec 8) (h : Hdr) (f : RS) : putRS m h f &&& (0x3000FFFFFF : Word) = 0#64 := by
  simp only [putRS, putHdr]
  simp (disch := decide) only [or_mask, field_mask, flag_mask, BitVec.or_zero]

/-- The fields of a XF word. -/
theorem getXF_putXF (m : BitVec 8) (h : Hdr) (f : XF) : getXF (putXF m h f) = f := by
  cases f
  simp only [getXF, putXF, putHdr]
  congr 1
  · simp (disch := decide) only [extract_or, extract_field, extract_field_off, extract_flag_off, BitVec.or_zero, BitVec.zero_or]
  · simp (disch := decide) only [extract_or, extract_field, extract_field_off, extract_flag_off, BitVec.or_zero, BitVec.zero_or]
  · simp (disch := decide) only [extract_or, extract_field, extract_field_off, extract_flag_off, BitVec.or_zero, BitVec.zero_or]
  · simp (disch := decide) only [BitVec.getLsbD_or, bit_flag, bit_flag_off, bit_field_off, Bool.or_false, Bool.false_or]
  · simp (disch := decide) only [BitVec.getLsbD_or, bit_flag, bit_flag_off, bit_field_off, Bool.or_false, Bool.false_or]
  · simp (disch := decide) only [BitVec.getLsbD_or, bit_flag, bit_flag_off, bit_field_off, Bool.or_false, Bool.false_or]
  · simp (disch := decide) only [BitVec.getLsbD_or, bit_flag, bit_flag_off, bit_field_off, Bool.or_false, Bool.false_or]

/-- The header of a XF word. -/
theorem hdrOf_putXF (m : BitVec 8) (h : Hdr) (f : XF) : hdrOf (putXF m h f) = h := by
  cases h
  simp only [hdrOf, putXF, putHdr]
  congr 1
  · simp (disch := decide) only [BitVec.getLsbD_or, bit_flag, bit_flag_off, bit_field_off, Bool.or_false, Bool.false_or]
  · simp (disch := decide) only [BitVec.getLsbD_or, bit_flag, bit_flag_off, bit_field_off, Bool.or_false, Bool.false_or]
  · simp (disch := decide) only [BitVec.getLsbD_or, bit_flag, bit_flag_off, bit_field_off, Bool.or_false, Bool.false_or]
  · simp (disch := decide) only [extract_or, extract_field, extract_field_off, extract_flag_off, BitVec.or_zero, BitVec.zero_or]

/-- The high half of the major of a XF word. -/
theorem majorHi_putXF (m : BitVec 8) (h : Hdr) (f : XF) : (putXF m h f).extractLsb' 60 4 = m.extractLsb' 4 4 := by
  simp only [putXF, putHdr]
  simp (disch := decide) only [extract_or, extract_field_in, extract_field_off, Nat.reduceSub, extract_flag_off, BitVec.or_zero, BitVec.zero_or]

/-- The low half of the major of a XF word. -/
theorem majorLo_putXF (m : BitVec 8) (h : Hdr) (f : XF) : (putXF m h f).extractLsb' 56 4 = m.extractLsb' 0 4 := by
  simp only [putXF, putHdr]
  simp (disch := decide) only [extract_or, extract_field_in, extract_field_off, Nat.reduceSub, extract_flag_off, BitVec.or_zero, BitVec.zero_or]

/-- The reserved bits of a XF word. -/
theorem mask_putXF (m : BitVec 8) (h : Hdr) (f : XF) : putXF m h f &&& (0x1FFFFF : Word) = 0#64 := by
  simp only [putXF, putHdr]
  simp (disch := decide) only [or_mask, field_mask, flag_mask, BitVec.or_zero]

/-- The fields of a MF word. -/
theorem getMF_putMF (m : BitVec 8) (h : Hdr) (f : MF) : getMF (putMF m h f) = f := by
  cases f
  simp only [getMF, putMF, putHdr]
  congr 1
  · simp (disch := decide) only [extract_or, extract_field, extract_field_off, extract_flag_off, BitVec.or_zero, BitVec.zero_or]
  · simp (disch := decide) only [extract_or, extract_field, extract_field_off, extract_flag_off, BitVec.or_zero, BitVec.zero_or]
  · simp (disch := decide) only [extract_or, extract_field, extract_field_off, extract_flag_off, BitVec.or_zero, BitVec.zero_or]
  · simp (disch := decide) only [BitVec.getLsbD_or, bit_flag, bit_flag_off, bit_field_off, Bool.or_false, Bool.false_or]
  · simp (disch := decide) only [extract_or, extract_field, extract_field_off, extract_flag_off, BitVec.or_zero, BitVec.zero_or]
  · simp (disch := decide) only [extract_or, extract_field, extract_field_off, extract_flag_off, BitVec.or_zero, BitVec.zero_or]
  · simp (disch := decide) only [BitVec.getLsbD_or, bit_flag, bit_flag_off, bit_field_off, Bool.or_false, Bool.false_or]
  · simp (disch := decide) only [BitVec.getLsbD_or, bit_flag, bit_flag_off, bit_field_off, Bool.or_false, Bool.false_or]
  · simp (disch := decide) only [BitVec.getLsbD_or, bit_flag, bit_flag_off, bit_field_off, Bool.or_false, Bool.false_or]
  · simp (disch := decide) only [BitVec.getLsbD_or, bit_flag, bit_flag_off, bit_field_off, Bool.or_false, Bool.false_or]
  · simp (disch := decide) only [extract_or, extract_field, extract_field_off, extract_flag_off, BitVec.or_zero, BitVec.zero_or]
  · simp (disch := decide) only [extract_or, extract_field, extract_field_off, extract_flag_off, BitVec.or_zero, BitVec.zero_or]
  · simp (disch := decide) only [extract_or, extract_field, extract_field_off, extract_flag_off, BitVec.or_zero, BitVec.zero_or]

/-- The header of a MF word. -/
theorem hdrOf_putMF (m : BitVec 8) (h : Hdr) (f : MF) : hdrOf (putMF m h f) = h := by
  cases h
  simp only [hdrOf, putMF, putHdr]
  congr 1
  · simp (disch := decide) only [BitVec.getLsbD_or, bit_flag, bit_flag_off, bit_field_off, Bool.or_false, Bool.false_or]
  · simp (disch := decide) only [BitVec.getLsbD_or, bit_flag, bit_flag_off, bit_field_off, Bool.or_false, Bool.false_or]
  · simp (disch := decide) only [BitVec.getLsbD_or, bit_flag, bit_flag_off, bit_field_off, Bool.or_false, Bool.false_or]
  · simp (disch := decide) only [extract_or, extract_field, extract_field_off, extract_flag_off, BitVec.or_zero, BitVec.zero_or]

/-- The high half of the major of a MF word. -/
theorem majorHi_putMF (m : BitVec 8) (h : Hdr) (f : MF) : (putMF m h f).extractLsb' 60 4 = m.extractLsb' 4 4 := by
  simp only [putMF, putHdr]
  simp (disch := decide) only [extract_or, extract_field_in, extract_field_off, Nat.reduceSub, extract_flag_off, BitVec.or_zero, BitVec.zero_or]

/-- The low half of the major of a MF word. -/
theorem majorLo_putMF (m : BitVec 8) (h : Hdr) (f : MF) : (putMF m h f).extractLsb' 56 4 = m.extractLsb' 0 4 := by
  simp only [putMF, putHdr]
  simp (disch := decide) only [extract_or, extract_field_in, extract_field_off, Nat.reduceSub, extract_flag_off, BitVec.or_zero, BitVec.zero_or]

/-- The reserved bits of a MF word. -/
theorem mask_putMF (m : BitVec 8) (h : Hdr) (f : MF) : putMF m h f &&& (0x0 : Word) = 0#64 := by
  simp

/-- The fields of a UR word. -/
theorem getUR_putUR (m : BitVec 8) (h : Hdr) (f : UR) : getUR (putUR m h f) = f := by
  cases f
  simp only [getUR, putUR, putHdr]
  congr 1
  · simp (disch := decide) only [extract_or, extract_field, extract_field_off, extract_flag_off, BitVec.or_zero, BitVec.zero_or]
  · simp (disch := decide) only [extract_or, extract_field, extract_field_off, extract_flag_off, BitVec.or_zero, BitVec.zero_or]
  · simp (disch := decide) only [extract_or, extract_field, extract_field_off, extract_flag_off, BitVec.or_zero, BitVec.zero_or]
  · simp (disch := decide) only [extract_or, extract_field, extract_field_off, extract_flag_off, BitVec.or_zero, BitVec.zero_or]

/-- The header of a UR word. -/
theorem hdrOf_putUR (m : BitVec 8) (h : Hdr) (f : UR) : hdrOf (putUR m h f) = h := by
  cases h
  simp only [hdrOf, putUR, putHdr]
  congr 1
  · simp (disch := decide) only [BitVec.getLsbD_or, bit_flag, bit_flag_off, bit_field_off, Bool.or_false, Bool.false_or]
  · simp (disch := decide) only [BitVec.getLsbD_or, bit_flag, bit_flag_off, bit_field_off, Bool.or_false, Bool.false_or]
  · simp (disch := decide) only [BitVec.getLsbD_or, bit_flag, bit_flag_off, bit_field_off, Bool.or_false, Bool.false_or]
  · simp (disch := decide) only [extract_or, extract_field, extract_field_off, extract_flag_off, BitVec.or_zero, BitVec.zero_or]

/-- The high half of the major of a UR word. -/
theorem majorHi_putUR (m : BitVec 8) (h : Hdr) (f : UR) : (putUR m h f).extractLsb' 60 4 = m.extractLsb' 4 4 := by
  simp only [putUR, putHdr]
  simp (disch := decide) only [extract_or, extract_field_in, extract_field_off, Nat.reduceSub, extract_flag_off, BitVec.or_zero, BitVec.zero_or]

/-- The low half of the major of a UR word. -/
theorem majorLo_putUR (m : BitVec 8) (h : Hdr) (f : UR) : (putUR m h f).extractLsb' 56 4 = m.extractLsb' 0 4 := by
  simp only [putUR, putHdr]
  simp (disch := decide) only [extract_or, extract_field_in, extract_field_off, Nat.reduceSub, extract_flag_off, BitVec.or_zero, BitVec.zero_or]

/-- The reserved bits of a UR word. -/
theorem mask_putUR (m : BitVec 8) (h : Hdr) (f : UR) : putUR m h f &&& (0x0 : Word) = 0#64 := by
  simp

/-- The fields of a UI word. -/
theorem getUI_putUI (m : BitVec 8) (h : Hdr) (f : UI) : getUI (putUI m h f) = f := by
  cases f
  simp only [getUI, putUI, putHdr]
  congr 1
  · simp (disch := decide) only [extract_or, extract_field, extract_field_off, extract_flag_off, BitVec.or_zero, BitVec.zero_or]
  · simp (disch := decide) only [extract_or, extract_field, extract_field_off, extract_flag_off, BitVec.or_zero, BitVec.zero_or]
  · simp (disch := decide) only [extract_or, extract_field, extract_field_off, extract_flag_off, BitVec.or_zero, BitVec.zero_or]
  · simp (disch := decide) only [extract_or, extract_field, extract_field_off, extract_flag_off, BitVec.or_zero, BitVec.zero_or]

/-- The header of a UI word. -/
theorem hdrOf_putUI (m : BitVec 8) (h : Hdr) (f : UI) : hdrOf (putUI m h f) = h := by
  cases h
  simp only [hdrOf, putUI, putHdr]
  congr 1
  · simp (disch := decide) only [BitVec.getLsbD_or, bit_flag, bit_flag_off, bit_field_off, Bool.or_false, Bool.false_or]
  · simp (disch := decide) only [BitVec.getLsbD_or, bit_flag, bit_flag_off, bit_field_off, Bool.or_false, Bool.false_or]
  · simp (disch := decide) only [BitVec.getLsbD_or, bit_flag, bit_flag_off, bit_field_off, Bool.or_false, Bool.false_or]
  · simp (disch := decide) only [extract_or, extract_field, extract_field_off, extract_flag_off, BitVec.or_zero, BitVec.zero_or]

/-- The high half of the major of a UI word. -/
theorem majorHi_putUI (m : BitVec 8) (h : Hdr) (f : UI) : (putUI m h f).extractLsb' 60 4 = m.extractLsb' 4 4 := by
  simp only [putUI, putHdr]
  simp (disch := decide) only [extract_or, extract_field_in, extract_field_off, Nat.reduceSub, extract_flag_off, BitVec.or_zero, BitVec.zero_or]

/-- The low half of the major of a UI word. -/
theorem majorLo_putUI (m : BitVec 8) (h : Hdr) (f : UI) : (putUI m h f).extractLsb' 56 4 = m.extractLsb' 0 4 := by
  simp only [putUI, putHdr]
  simp (disch := decide) only [extract_or, extract_field_in, extract_field_off, Nat.reduceSub, extract_flag_off, BitVec.or_zero, BitVec.zero_or]

/-- The reserved bits of a UI word. -/
theorem mask_putUI (m : BitVec 8) (h : Hdr) (f : UI) : putUI m h f &&& (0x1 : Word) = 0#64 := by
  simp only [putUI, putHdr]
  simp (disch := decide) only [or_mask, field_mask, flag_mask, BitVec.or_zero]

/-- The fields of a CF word. -/
theorem getCF_putCF (m : BitVec 8) (h : Hdr) (f : CF) : getCF (putCF m h f) = f := by
  cases f
  simp only [getCF, putCF, putHdr]
  congr 1
  · simp (disch := decide) only [extract_or, extract_field, extract_field_off, extract_flag_off, BitVec.or_zero, BitVec.zero_or]
  · simp (disch := decide) only [extract_or, extract_field, extract_field_off, extract_flag_off, BitVec.or_zero, BitVec.zero_or]
  · simp (disch := decide) only [BitVec.getLsbD_or, bit_flag, bit_flag_off, bit_field_off, Bool.or_false, Bool.false_or]
  · simp (disch := decide) only [BitVec.getLsbD_or, bit_flag, bit_flag_off, bit_field_off, Bool.or_false, Bool.false_or]
  · simp (disch := decide) only [BitVec.getLsbD_or, bit_flag, bit_flag_off, bit_field_off, Bool.or_false, Bool.false_or]
  · simp (disch := decide) only [extract_or, extract_field, extract_field_off, extract_flag_off, BitVec.or_zero, BitVec.zero_or]

/-- The header of a CF word. -/
theorem hdrOf_putCF (m : BitVec 8) (h : Hdr) (f : CF) : hdrOf (putCF m h f) = h := by
  cases h
  simp only [hdrOf, putCF, putHdr]
  congr 1
  · simp (disch := decide) only [BitVec.getLsbD_or, bit_flag, bit_flag_off, bit_field_off, Bool.or_false, Bool.false_or]
  · simp (disch := decide) only [BitVec.getLsbD_or, bit_flag, bit_flag_off, bit_field_off, Bool.or_false, Bool.false_or]
  · simp (disch := decide) only [BitVec.getLsbD_or, bit_flag, bit_flag_off, bit_field_off, Bool.or_false, Bool.false_or]
  · simp (disch := decide) only [extract_or, extract_field, extract_field_off, extract_flag_off, BitVec.or_zero, BitVec.zero_or]

/-- The high half of the major of a CF word. -/
theorem majorHi_putCF (m : BitVec 8) (h : Hdr) (f : CF) : (putCF m h f).extractLsb' 60 4 = m.extractLsb' 4 4 := by
  simp only [putCF, putHdr]
  simp (disch := decide) only [extract_or, extract_field_in, extract_field_off, Nat.reduceSub, extract_flag_off, BitVec.or_zero, BitVec.zero_or]

/-- The low half of the major of a CF word. -/
theorem majorLo_putCF (m : BitVec 8) (h : Hdr) (f : CF) : (putCF m h f).extractLsb' 56 4 = m.extractLsb' 0 4 := by
  simp only [putCF, putHdr]
  simp (disch := decide) only [extract_or, extract_field_in, extract_field_off, Nat.reduceSub, extract_flag_off, BitVec.or_zero, BitVec.zero_or]

/-- The reserved bits of a CF word. -/
theorem mask_putCF (m : BitVec 8) (h : Hdr) (f : CF) : putCF m h f &&& (0x3F : Word) = 0#64 := by
  simp only [putCF, putHdr]
  simp (disch := decide) only [or_mask, field_mask, flag_mask, BitVec.or_zero]

/-- The fields of an AtX word. -/
theorem getAtX_putAtX (f : AtX) : getAtX (putAtX f) = f := by
  cases f
  simp only [getAtX, putAtX]
  congr 1
  · simp (disch := decide) only [extract_or, extract_field, extract_field_off, extract_flag_off, BitVec.or_zero, BitVec.zero_or]
  · simp (disch := decide) only [BitVec.getLsbD_or, bit_flag, bit_flag_off, bit_field_off, Bool.or_false, Bool.false_or]
  · simp (disch := decide) only [extract_or, extract_field, extract_field_off, extract_flag_off, BitVec.or_zero, BitVec.zero_or]
  · simp (disch := decide) only [extract_or, extract_field, extract_field_off, extract_flag_off, BitVec.or_zero, BitVec.zero_or]
  · simp (disch := decide) only [BitVec.getLsbD_or, bit_flag, bit_flag_off, bit_field_off, Bool.or_false, Bool.false_or]
  · simp (disch := decide) only [BitVec.getLsbD_or, bit_flag, bit_flag_off, bit_field_off, Bool.or_false, Bool.false_or]
  · simp (disch := decide) only [BitVec.getLsbD_or, bit_flag, bit_flag_off, bit_field_off, Bool.or_false, Bool.false_or]
  · simp (disch := decide) only [BitVec.getLsbD_or, bit_flag, bit_flag_off, bit_field_off, Bool.or_false, Bool.false_or]

/-- The marker of an AtX word. -/
theorem marker_putAtX (f : AtX) : (putAtX f).extractLsb' 56 8 = 0xFF := by
  simp only [putAtX]
  simp (disch := decide) only [extract_or, extract_field_in, extract_field_off, Nat.reduceSub, extract_flag_off, BitVec.or_zero, BitVec.zero_or]
  rfl

/-- The reserved bits of an AtX word. -/
theorem mask_putAtX (f : AtX) : putAtX f &&& (0x7FFFFFFF : Word) = 0#64 := by
  simp only [putAtX]
  simp (disch := decide) only [or_mask, field_mask, flag_mask, BitVec.or_zero]

/-- The fields of an AtcX word. -/
theorem getAtcX_putAtcX (f : AtcX) : getAtcX (putAtcX f) = f := by
  cases f
  simp only [getAtcX, putAtcX]
  congr 1
  · simp (disch := decide) only [extract_or, extract_field, extract_field_off, extract_flag_off, BitVec.or_zero, BitVec.zero_or]
  · simp (disch := decide) only [extract_or, extract_field, extract_field_off, extract_flag_off, BitVec.or_zero, BitVec.zero_or]
  · simp (disch := decide) only [extract_or, extract_field, extract_field_off, extract_flag_off, BitVec.or_zero, BitVec.zero_or]
  · simp (disch := decide) only [extract_or, extract_field, extract_field_off, extract_flag_off, BitVec.or_zero, BitVec.zero_or]
  · simp (disch := decide) only [extract_or, extract_field, extract_field_off, extract_flag_off, BitVec.or_zero, BitVec.zero_or]
  · simp (disch := decide) only [extract_or, extract_field, extract_field_off, extract_flag_off, BitVec.or_zero, BitVec.zero_or]
  · simp (disch := decide) only [extract_or, extract_field, extract_field_off, extract_flag_off, BitVec.or_zero, BitVec.zero_or]
  · simp (disch := decide) only [BitVec.getLsbD_or, bit_flag, bit_flag_off, bit_field_off, Bool.or_false, Bool.false_or]

/-- The marker of an AtcX word. -/
theorem marker_putAtcX (f : AtcX) : (putAtcX f).extractLsb' 56 8 = 0xFF := by
  simp only [putAtcX]
  simp (disch := decide) only [extract_or, extract_field_in, extract_field_off, Nat.reduceSub, extract_flag_off, BitVec.or_zero, BitVec.zero_or]
  rfl

/-- The reserved bits of an AtcX word. -/
theorem mask_putAtcX (f : AtcX) : putAtcX f &&& (0x3FFFF : Word) = 0#64 := by
  simp only [putAtcX]
  simp (disch := decide) only [or_mask, field_mask, flag_mask, BitVec.or_zero]

/-- The fields of an MloopX word. -/
theorem getMloopX_putMloopX (f : MloopX) : getMloopX (putMloopX f) = f := by
  cases f
  simp only [getMloopX, putMloopX]
  congr 1
  · simp (disch := decide) only [extract_or, extract_field, extract_field_off, extract_flag_off, BitVec.or_zero, BitVec.zero_or]
  · simp (disch := decide) only [BitVec.getLsbD_or, bit_flag, bit_flag_off, bit_field_off, Bool.or_false, Bool.false_or]
  · simp (disch := decide) only [BitVec.getLsbD_or, bit_flag, bit_flag_off, bit_field_off, Bool.or_false, Bool.false_or]
  · simp (disch := decide) only [extract_or, extract_field, extract_field_off, extract_flag_off, BitVec.or_zero, BitVec.zero_or]
  · simp (disch := decide) only [extract_or, extract_field, extract_field_off, extract_flag_off, BitVec.or_zero, BitVec.zero_or]
  · simp (disch := decide) only [extract_or, extract_field, extract_field_off, extract_flag_off, BitVec.or_zero, BitVec.zero_or]
  · simp (disch := decide) only [extract_or, extract_field, extract_field_off, extract_flag_off, BitVec.or_zero, BitVec.zero_or]
  · simp (disch := decide) only [extract_or, extract_field, extract_field_off, extract_flag_off, BitVec.or_zero, BitVec.zero_or]
  · simp (disch := decide) only [extract_or, extract_field, extract_field_off, extract_flag_off, BitVec.or_zero, BitVec.zero_or]

/-- The marker of an MloopX word. -/
theorem marker_putMloopX (f : MloopX) : (putMloopX f).extractLsb' 56 8 = 0xFF := by
  simp only [putMloopX]
  simp (disch := decide) only [extract_or, extract_field_in, extract_field_off, Nat.reduceSub, extract_flag_off, BitVec.or_zero, BitVec.zero_or]
  rfl

/-- The reserved bits of an MloopX word. -/
theorem mask_putMloopX (f : MloopX) : putMloopX f &&& (0xFFFFC000000000 : Word) = 0#64 := by
  simp only [putMloopX]
  simp (disch := decide) only [or_mask, field_mask, flag_mask, BitVec.or_zero]

/-- The fields of an CpxX word. -/
theorem getCpxX_putCpxX (f : CpxX) : getCpxX (putCpxX f) = f := by
  cases f
  simp only [getCpxX, putCpxX]
  congr 1
  · simp (disch := decide) only [extract_or, extract_field, extract_field_off, extract_flag_off, BitVec.or_zero, BitVec.zero_or]
  · simp (disch := decide) only [extract_or, extract_field, extract_field_off, extract_flag_off, BitVec.or_zero, BitVec.zero_or]

/-- The marker of an CpxX word. -/
theorem marker_putCpxX (f : CpxX) : (putCpxX f).extractLsb' 56 8 = 0xFF := by
  simp only [putCpxX]
  simp (disch := decide) only [extract_or, extract_field_in, extract_field_off, Nat.reduceSub, extract_flag_off, BitVec.or_zero, BitVec.zero_or]
  rfl

/-- The reserved bits of an CpxX word. -/
theorem mask_putCpxX (f : CpxX) : putCpxX f &&& (0xFF000000000000 : Word) = 0#64 := by
  simp only [putCpxX]
  simp (disch := decide) only [or_mask, field_mask, flag_mask, BitVec.or_zero]

/-! ### Bytes -/

theorem leNat_leBytes (n v : Nat) : leNat (leBytes n v) = v % 256 ^ n := by
  induction n generalizing v with
  | zero => simp [leBytes, leNat, Nat.mod_one]
  | succ n ih =>
    have h : 256 ^ (n + 1) = 256 * 256 ^ n := Nat.pow_succ'
    rw [leBytes, leNat, ih, h, Nat.mod_mul, BitVec.toNat_ofNat]

theorem length_leBytes (n v : Nat) : (leBytes n v).length = n := by
  induction n generalizing v with
  | zero => rfl
  | succ n ih => simp [leBytes, ih]

/-- The first word of the bytes of a word and more. -/
theorem leWord_append (w : Word) (bs : List Byte) : leWord (leBytes 8 w.toNat ++ bs) = w := by
  have h : (leBytes 8 w.toNat ++ bs).take 8 = leBytes 8 w.toNat := by
    rw [List.take_append_of_le_length (by simp [length_leBytes]), List.take_of_length_le (by simp [length_leBytes])]
  rw [leWord, h, leNat_leBytes]
  apply BitVec.eq_of_toNat_eq
  have := w.isLt
  rw [BitVec.toNat_ofNat]
  omega

/-- The bytes after the first word. -/
theorem drop_append (w : Word) (bs : List Byte) : (leBytes 8 w.toNat ++ bs).drop 8 = bs := by
  rw [List.drop_append_of_le_length (by simp [length_leBytes]), List.drop_of_length_le (by simp [length_leBytes]), List.nil_append]

/-- The bytes of a short form decode as its word. -/
theorem decode_short {width : Nat} {w : Word} (bs : List Byte) (h : isLong w = false) :
    decode width (leBytes 8 w.toNat ++ bs) = decodeWords width w 0 := by
  have hl : ¬ 8 + bs.length < 8 := by omega
  simp [decode, leWord_append, instrBytes, h, length_leBytes, hl]

/-- The bytes of a long form decode as its two words. -/
theorem decode_long {width : Nat} {w x : Word} (bs : List Byte) (h : isLong w = true) :
    decode width (leBytes 8 w.toNat ++ (leBytes 8 x.toNat ++ bs)) = decodeWords width w x := by
  have hl : ¬ 8 + (8 + bs.length) < 16 := by omega
  simp [decode, leWord_append, drop_append, instrBytes, h, length_leBytes, hl]

/-- A short form whose reserved bits are zero and whose fields meet no item of R74 decodes to itself. -/
theorem decodeWords_short {width : Nat} {w x : Word} {i : Instr} {m : Word} (h : rawOf w x = ⟨i, m, none⟩) (hm : w &&& m = 0#64)
    (hi : i.WellFormed width) : decodeWords width w x = .instr i := by
  have hi : i.illegalItem width = none := hi
  simp [decodeWords, h, hm, hi]

/-- A long form the same. -/
theorem decodeWords_long {width : Nat} {w x : Word} {i : Instr} {m mx : Word} (h : rawOf w x = ⟨i, m, some mx⟩)
    (hx : x.extractLsb' 56 8 = 0xFF) (hm : w &&& m = 0#64) (hmx : x &&& mx = 0#64) (hi : i.WellFormed width) :
    decodeWords width w x = .instr i := by
  have hi : i.illegalItem width = none := hi
  simp [decodeWords, h, hx, hm, hmx, hi]

end Sys2Proof
end

