-- ==== Sys2Proof/Laws/Memory.lean ====
section
/-! SUPPORT. Device memory: reads after writes, the canonical form, and what a program can do to memory and to the management core. -/

namespace Sys2Proof.Machine

set_option Elab.async false

/-! ### One byte -/

/-- A byte that is written reads back. -/
@[simp] theorem Memory.get_put_self (m : List Host.Cell) (hw : Memory.wf m) (a : Nat) (b : Byte) : Memory.get (Memory.put m a b) a = b := by
  induction m with
  | nil => unfold Memory.put; split <;> simp_all [Memory.get]
  | cons c m ih =>
    obtain ⟨x, y⟩ := c
    obtain ⟨hp, hb⟩ := hw
    have hm : Memory.wf m := ⟨(List.pairwise_cons.1 hp).2, fun c hc => hb c (List.mem_cons_of_mem _ hc)⟩
    have low : ∀ k, k ≤ x → Memory.get m k = Memory.blank := by
      intro k hk
      have : ∀ c ∈ m, k < c.1 := fun c hc => Nat.lt_of_le_of_lt hk ((List.pairwise_cons.1 hp).1 c hc)
      clear ih hb hp hm
      induction m with
      | nil => rfl
      | cons c m ih2 =>
        have h1 : c.1 ≠ k := fun e => by have := this c (by simp); omega
        simp only [Memory.get, if_neg h1]
        exact ih2 fun d hd => this d (by simp [hd])
    unfold Memory.put
    by_cases h1 : a < x
    · by_cases h2 : b = Memory.blank
      · have h3 : x ≠ a := by omega
        simp [h1, h2, Memory.get, h3, low a (by omega)]
      · simp [h1, h2, Memory.get]
    · by_cases h2 : a = x
      · by_cases h3 : b = Memory.blank
        · simp [h2, h3, low x (le_refl _)]
        · simp [h2, h3, Memory.get]
      · have h3 : x ≠ a := fun e => h2 e.symm
        simp [h1, h2, h3, Memory.get, ih hm]

/-- Writing one byte leaves the others. -/
theorem Memory.get_put_ne (m : List Host.Cell) (a k : Nat) (b : Byte) (h : k ≠ a) : Memory.get (Memory.put m a b) k = Memory.get m k := by
  have h' : a ≠ k := fun e => h e.symm
  induction m with
  | nil => unfold Memory.put; split <;> simp [Memory.get, h']
  | cons c m ih =>
    obtain ⟨x, y⟩ := c
    unfold Memory.put
    split
    · split <;> simp [Memory.get, h']
    · split
      · rename_i h1 h2
        subst h2
        split <;> simp [Memory.get, h']
      · simp [Memory.get, ih]

theorem Memory.mem_put (m : List Host.Cell) (a : Nat) (b : Byte) (c : Host.Cell) (h : c ∈ Memory.put m a b) :
    c ∈ m ∨ (c = (a, b) ∧ b ≠ Memory.blank) := by
  induction m with
  | nil => unfold Memory.put at h; split at h <;> simp_all
  | cons d m ih =>
    obtain ⟨x, y⟩ := d
    unfold Memory.put at h
    split at h
    · split at h <;> simp_all; tauto
    · split at h
      · split at h <;> simp_all; tauto
      · rcases List.mem_cons.1 h with h | h
        · exact .inl (by simp [h])
        · exact (ih h).imp (fun h => by simp [h]) id

/-- Writing a byte keeps the canonical form. -/
theorem Memory.put_wf (m : List Host.Cell) (a : Nat) (b : Byte) (hw : Memory.wf m) : Memory.wf (Memory.put m a b) := by
  induction m with
  | nil => unfold Memory.put; split <;> simp_all [Memory.wf]
  | cons c m ih =>
    obtain ⟨x, y⟩ := c
    obtain ⟨hp, hb⟩ := hw
    have hc := List.pairwise_cons.1 hp
    have hm : Memory.wf m := ⟨hc.2, fun c hc => hb c (List.mem_cons_of_mem _ hc)⟩
    unfold Memory.put
    split
    · split
      · exact ⟨hp, hb⟩
      · rename_i h1 h2
        refine ⟨List.pairwise_cons.2 ⟨?_, hp⟩, ?_⟩
        · intro d hd
          rcases List.mem_cons.1 hd with rfl | hd
          · exact h1
          · exact Nat.lt_trans h1 (hc.1 d hd)
        · intro d hd
          rcases List.mem_cons.1 hd with rfl | hd
          · exact h2
          · exact hb d hd
    · split
      · rename_i h1 h2
        subst h2
        split
        · exact hm
        · rename_i h3
          refine ⟨List.pairwise_cons.2 ⟨hc.1, hc.2⟩, ?_⟩
          intro d hd
          rcases List.mem_cons.1 hd with rfl | hd
          · exact h3
          · exact hb d (by simp [hd])
      · rename_i h1 h2
        obtain ⟨ihp, ihb⟩ := ih hm
        refine ⟨List.pairwise_cons.2 ⟨?_, ihp⟩, ?_⟩
        · intro d hd
          rcases Memory.mem_put m a b d hd with hd | ⟨rfl, -⟩
          · exact hc.1 d hd
          · simp; omega
        · intro d hd
          rcases List.mem_cons.1 hd with rfl | hd
          · exact hb _ (by simp)
          · exact ihb d hd

/-! ### Several bytes -/

/-- Writing bytes keeps the canonical form. -/
theorem Memory.putBytes_wf (m : List Host.Cell) (a : Nat) (bs : List Byte) (hw : Memory.wf m) : Memory.wf (Memory.putBytes m a bs) := by
  induction bs generalizing m a with
  | nil => exact hw
  | cons b bs ih => exact ih _ _ (Memory.put_wf m a b hw)

/-- Bytes outside those that are written stay. -/
theorem Memory.get_putBytes_out (m : List Host.Cell) (a k : Nat) (bs : List Byte) (h : k < a ∨ a + bs.length ≤ k) :
    Memory.get (Memory.putBytes m a bs) k = Memory.get m k := by
  induction bs generalizing m a with
  | nil => rfl
  | cons b bs ih =>
    simp only [List.length_cons] at h
    rw [Memory.putBytes, ih _ _ (by omega), Memory.get_put_ne _ _ _ _ (by omega)]

/-- The bytes that are written read back. -/
theorem Memory.get_putBytes_in (m : List Host.Cell) (hw : Memory.wf m) (a i : Nat) (bs : List Byte) (h : i < bs.length) :
    Memory.get (Memory.putBytes m a bs) (a + i) = bs[i] := by
  induction bs generalizing m a i with
  | nil => simp at h
  | cons b bs ih =>
    cases i with
    | zero =>
      rw [Memory.putBytes, Memory.get_putBytes_out _ _ _ _ (by omega)]
      simp [Memory.get_put_self m hw]
    | succ i =>
      have := ih (Memory.put m a b) (Memory.put_wf m a b hw) (a + 1) i (by simpa using h)
      rw [Memory.putBytes, show a + (i + 1) = a + 1 + i by omega, this]
      rfl

/-- A word laid out in bytes is read back as the word. -/
@[simp] theorem natBytes_length (n v : Nat) : (natBytes n v).length = n := by
  induction n generalizing v with
  | zero => rfl
  | succ n ih => simp [natBytes, ih]

theorem bytesNat_natBytes (n v : Nat) : bytesNat (natBytes n v) = v % 256 ^ n := by
  induction n generalizing v with
  | zero => simp [natBytes, bytesNat, Nat.mod_one]
  | succ n ih =>
    simp only [natBytes, bytesNat, ih, BitVec.toNat_ofNat]
    rw [show 256 ^ (n + 1) = 256 * 256 ^ n by ring, Nat.mod_mul]

@[simp] theorem wordBytes_length (w : Word) : (wordBytes w).length = 8 := natBytes_length 8 _

@[simp] theorem bytesNat_wordBytes (w : Word) : bytesNat (wordBytes w) = w.toNat := by
  rw [wordBytes, bytesNat_natBytes]
  exact Nat.mod_eq_of_lt (by have := w.isLt; norm_num; omega)

/-! ### Programs -/

/-- One program after another runs one after another. -/
@[simp] theorem Prog.run_seq (p q : Prog) (s : State) : (p.seq q).run s = q.run (p.run s) := by
  induction p generalizing s with
  | done => rfl
  | poke a b k ih => exact ih _
  | upd f k ih => exact ih _
  | dyn f ih => exact ih s s

@[simp] theorem Prog.run_done (s : State) : Prog.run .done s = s := rfl

@[simp] theorem Prog.run_dyn (f : State → Prog) (s : State) : (Prog.dyn f).run s = (f s).run s := rfl

@[simp] theorem Prog.run_all_nil (s : State) : (Prog.all []).run s = s := rfl

@[simp] theorem Prog.run_all_cons (p : Prog) (ps : List Prog) (s : State) : (Prog.all (p :: ps)).run s = (Prog.all ps).run (p.run s) := by
  simp [Prog.all]

/-- A change that leaves memory and the management core runs as it stands. -/
theorem Prog.run_change (f : State → State) (s : State) (hm : (f s).mem = s.mem) (hg : (f s).mgmt = s.mgmt) :
    (Prog.change f).run s = f s := by
  have : ({ f s with mem := s.mem, mgmt := s.mgmt } : State) = f s := by
    cases hfs : f s
    simp_all
  exact this

/-- Whatever a change does, memory stays. -/
@[simp] theorem Prog.run_change_mem (f : State → State) (s : State) : ((Prog.change f).run s).mem = s.mem := rfl

@[simp] theorem Prog.run_change_mgmt (f : State → State) (s : State) : ((Prog.change f).run s).mgmt = s.mgmt := rfl

theorem Prog.run_when (c : Bool) (p : Prog) (s : State) : (Prog.when c p).run s = if c then p.run s else s := by
  cases c <;> rfl

/-- No program touches the management core. -/
@[simp] theorem Prog.run_mgmt (p : Prog) (s : State) : (p.run s).mgmt = s.mgmt := by
  induction p generalizing s with
  | done => rfl
  | poke a b k ih => exact ih _
  | upd f k ih => exact ih _
  | dyn f ih => exact ih s s

/-- Every program keeps the canonical form of memory. -/
theorem Prog.run_wf (p : Prog) (s : State) (hw : Memory.wf s.mem) : Memory.wf (p.run s).mem := by
  induction p generalizing s with
  | done => exact hw
  | poke a b k ih => exact ih _ (Memory.put_wf _ _ _ hw)
  | upd f k ih => exact ih _ hw
  | dyn f ih => exact ih s s hw

/-- Poked bytes are written in order. -/
theorem Prog.run_pokes (a : Nat) (bs : List Byte) (s : State) : (Prog.pokes a bs).run s = { s with mem := Memory.putBytes s.mem a bs } := by
  induction bs generalizing a s with
  | nil => rfl
  | cons b bs ih => simp [Prog.pokes, Prog.run, ih, Memory.putBytes]

end Sys2Proof.Machine
end

