-- ==== Sys2Proof/Laws/State.lean ====
section
/-! SUPPORT. One lemma for each field and each named update of a state or a group: what the update leaves. -/

namespace Sys2Proof.Machine

set_option Elab.async false


/-! ### modGrp -/

@[simp] theorem State.modGrp_mem (s : State) (k : Nat) (f : Group → Group) : (s.modGrp k f).mem = s.mem := rfl
@[simp] theorem State.modGrp_syn (s : State) (k : Nat) (f : Group → Group) : (s.modGrp k f).syn = s.syn := rfl
@[simp] theorem State.modGrp_corrected (s : State) (k : Nat) (f : Group → Group) : (s.modGrp k f).corrected = s.corrected := rfl
@[simp] theorem State.modGrp_presT (s : State) (k : Nat) (f : Group → Group) : (s.modGrp k f).presT = s.presT := rfl
@[simp] theorem State.modGrp_presC (s : State) (k : Nat) (f : Group → Group) : (s.modGrp k f).presC = s.presC := rfl
@[simp] theorem State.modGrp_retained (s : State) (k : Nat) (f : Group → Group) : (s.modGrp k f).retained = s.retained := rfl
@[simp] theorem State.modGrp_parts (s : State) (k : Nat) (f : Group → Group) : (s.modGrp k f).parts = s.parts := rfl
@[simp] theorem State.modGrp_launches (s : State) (k : Nat) (f : Group → Group) : (s.modGrp k f).launches = s.launches := rfl
@[simp] theorem State.modGrp_teams (s : State) (k : Nat) (f : Group → Group) : (s.modGrp k f).teams = s.teams := rfl
@[simp] theorem State.modGrp_coreWords (s : State) (k : Nat) (f : Group → Group) : (s.modGrp k f).coreWords = s.coreWords := rfl
@[simp] theorem State.modGrp_launchCtrs (s : State) (k : Nat) (f : Group → Group) : (s.modGrp k f).launchCtrs = s.launchCtrs := rfl
@[simp] theorem State.modGrp_tlb (s : State) (k : Nat) (f : Group → Group) : (s.modGrp k f).tlb = s.tlb := rfl
@[simp] theorem State.modGrp_ilines (s : State) (k : Nat) (f : Group → Group) : (s.modGrp k f).ilines = s.ilines := rfl
@[simp] theorem State.modGrp_fills (s : State) (k : Nat) (f : Group → Group) : (s.modGrp k f).fills = s.fills := rfl
@[simp] theorem State.modGrp_prefetches (s : State) (k : Nat) (f : Group → Group) : (s.modGrp k f).prefetches = s.prefetches := rfl
@[simp] theorem State.modGrp_fillFaults (s : State) (k : Nat) (f : Group → Group) : (s.modGrp k f).fillFaults = s.fillFaults := rfl
@[simp] theorem State.modGrp_walks (s : State) (k : Nat) (f : Group → Group) : (s.modGrp k f).walks = s.walks := rfl
@[simp] theorem State.modGrp_reqs (s : State) (k : Nat) (f : Group → Group) : (s.modGrp k f).reqs = s.reqs := rfl
@[simp] theorem State.modGrp_scores (s : State) (k : Nat) (f : Group → Group) : (s.modGrp k f).scores = s.scores := rfl
@[simp] theorem State.modGrp_copies (s : State) (k : Nat) (f : Group → Group) : (s.modGrp k f).copies = s.copies := rfl
@[simp] theorem State.modGrp_mxcmds (s : State) (k : Nat) (f : Group → Group) : (s.modGrp k f).mxcmds = s.mxcmds := rfl
@[simp] theorem State.modGrp_engines (s : State) (k : Nat) (f : Group → Group) : (s.modGrp k f).engines = s.engines := rfl
@[simp] theorem State.modGrp_fords (s : State) (k : Nat) (f : Group → Group) : (s.modGrp k f).fords = s.fords := rfl
@[simp] theorem State.modGrp_ports (s : State) (k : Nat) (f : Group → Group) : (s.modGrp k f).ports = s.ports := rfl
@[simp] theorem State.modGrp_starts (s : State) (k : Nat) (f : Group → Group) : (s.modGrp k f).starts = s.starts := rfl
@[simp] theorem State.modGrp_binLaunches (s : State) (k : Nat) (f : Group → Group) : (s.modGrp k f).binLaunches = s.binLaunches := rfl
@[simp] theorem State.modGrp_binTimers (s : State) (k : Nat) (f : Group → Group) : (s.modGrp k f).binTimers = s.binTimers := rfl
@[simp] theorem State.modGrp_jettys (s : State) (k : Nat) (f : Group → Group) : (s.modGrp k f).jettys = s.jettys := rfl
@[simp] theorem State.modGrp_fabs (s : State) (k : Nat) (f : Group → Group) : (s.modGrp k f).fabs = s.fabs := rfl
@[simp] theorem State.modGrp_mgmt (s : State) (k : Nat) (f : Group → Group) : (s.modGrp k f).mgmt = s.mgmt := rfl
@[simp] theorem State.modGrp_outbox (s : State) (k : Nat) (f : Group → Group) : (s.modGrp k f).outbox = s.outbox := rfl
@[simp] theorem State.modGrp_agenda (s : State) (k : Nat) (f : Group → Group) : (s.modGrp k f).agenda = s.agenda := rfl
@[simp] theorem State.modGrp_now (s : State) (k : Nat) (f : Group → Group) : (s.modGrp k f).now = s.now := rfl
@[simp] theorem State.modGrp_seq (s : State) (k : Nat) (f : Group → Group) : (s.modGrp k f).seq = s.seq := rfl
@[simp] theorem State.modGrp_nextId (s : State) (k : Nat) (f : Group → Group) : (s.modGrp k f).nextId = s.nextId := rfl
@[simp] theorem State.modGrp_fresh (s : State) (k : Nat) (f : Group → Group) : (s.modGrp k f).fresh = s.fresh := rfl
@[simp] theorem State.modGrp_cur (s : State) (k : Nat) (f : Group → Group) : (s.modGrp k f).cur = s.cur := rfl

/-! ### modTeam -/

@[simp] theorem State.modTeam_mem (s : State) (k : Nat) (f : Team → Team) : (s.modTeam k f).mem = s.mem := rfl
@[simp] theorem State.modTeam_syn (s : State) (k : Nat) (f : Team → Team) : (s.modTeam k f).syn = s.syn := rfl
@[simp] theorem State.modTeam_corrected (s : State) (k : Nat) (f : Team → Team) : (s.modTeam k f).corrected = s.corrected := rfl
@[simp] theorem State.modTeam_presT (s : State) (k : Nat) (f : Team → Team) : (s.modTeam k f).presT = s.presT := rfl
@[simp] theorem State.modTeam_presC (s : State) (k : Nat) (f : Team → Team) : (s.modTeam k f).presC = s.presC := rfl
@[simp] theorem State.modTeam_retained (s : State) (k : Nat) (f : Team → Team) : (s.modTeam k f).retained = s.retained := rfl
@[simp] theorem State.modTeam_parts (s : State) (k : Nat) (f : Team → Team) : (s.modTeam k f).parts = s.parts := rfl
@[simp] theorem State.modTeam_launches (s : State) (k : Nat) (f : Team → Team) : (s.modTeam k f).launches = s.launches := rfl
@[simp] theorem State.modTeam_groups (s : State) (k : Nat) (f : Team → Team) : (s.modTeam k f).groups = s.groups := rfl
@[simp] theorem State.modTeam_coreWords (s : State) (k : Nat) (f : Team → Team) : (s.modTeam k f).coreWords = s.coreWords := rfl
@[simp] theorem State.modTeam_launchCtrs (s : State) (k : Nat) (f : Team → Team) : (s.modTeam k f).launchCtrs = s.launchCtrs := rfl
@[simp] theorem State.modTeam_tlb (s : State) (k : Nat) (f : Team → Team) : (s.modTeam k f).tlb = s.tlb := rfl
@[simp] theorem State.modTeam_ilines (s : State) (k : Nat) (f : Team → Team) : (s.modTeam k f).ilines = s.ilines := rfl
@[simp] theorem State.modTeam_fills (s : State) (k : Nat) (f : Team → Team) : (s.modTeam k f).fills = s.fills := rfl
@[simp] theorem State.modTeam_prefetches (s : State) (k : Nat) (f : Team → Team) : (s.modTeam k f).prefetches = s.prefetches := rfl
@[simp] theorem State.modTeam_fillFaults (s : State) (k : Nat) (f : Team → Team) : (s.modTeam k f).fillFaults = s.fillFaults := rfl
@[simp] theorem State.modTeam_walks (s : State) (k : Nat) (f : Team → Team) : (s.modTeam k f).walks = s.walks := rfl
@[simp] theorem State.modTeam_reqs (s : State) (k : Nat) (f : Team → Team) : (s.modTeam k f).reqs = s.reqs := rfl
@[simp] theorem State.modTeam_scores (s : State) (k : Nat) (f : Team → Team) : (s.modTeam k f).scores = s.scores := rfl
@[simp] theorem State.modTeam_copies (s : State) (k : Nat) (f : Team → Team) : (s.modTeam k f).copies = s.copies := rfl
@[simp] theorem State.modTeam_mxcmds (s : State) (k : Nat) (f : Team → Team) : (s.modTeam k f).mxcmds = s.mxcmds := rfl
@[simp] theorem State.modTeam_engines (s : State) (k : Nat) (f : Team → Team) : (s.modTeam k f).engines = s.engines := rfl
@[simp] theorem State.modTeam_fords (s : State) (k : Nat) (f : Team → Team) : (s.modTeam k f).fords = s.fords := rfl
@[simp] theorem State.modTeam_ports (s : State) (k : Nat) (f : Team → Team) : (s.modTeam k f).ports = s.ports := rfl
@[simp] theorem State.modTeam_starts (s : State) (k : Nat) (f : Team → Team) : (s.modTeam k f).starts = s.starts := rfl
@[simp] theorem State.modTeam_binLaunches (s : State) (k : Nat) (f : Team → Team) : (s.modTeam k f).binLaunches = s.binLaunches := rfl
@[simp] theorem State.modTeam_binTimers (s : State) (k : Nat) (f : Team → Team) : (s.modTeam k f).binTimers = s.binTimers := rfl
@[simp] theorem State.modTeam_jettys (s : State) (k : Nat) (f : Team → Team) : (s.modTeam k f).jettys = s.jettys := rfl
@[simp] theorem State.modTeam_fabs (s : State) (k : Nat) (f : Team → Team) : (s.modTeam k f).fabs = s.fabs := rfl
@[simp] theorem State.modTeam_mgmt (s : State) (k : Nat) (f : Team → Team) : (s.modTeam k f).mgmt = s.mgmt := rfl
@[simp] theorem State.modTeam_outbox (s : State) (k : Nat) (f : Team → Team) : (s.modTeam k f).outbox = s.outbox := rfl
@[simp] theorem State.modTeam_agenda (s : State) (k : Nat) (f : Team → Team) : (s.modTeam k f).agenda = s.agenda := rfl
@[simp] theorem State.modTeam_now (s : State) (k : Nat) (f : Team → Team) : (s.modTeam k f).now = s.now := rfl
@[simp] theorem State.modTeam_seq (s : State) (k : Nat) (f : Team → Team) : (s.modTeam k f).seq = s.seq := rfl
@[simp] theorem State.modTeam_nextId (s : State) (k : Nat) (f : Team → Team) : (s.modTeam k f).nextId = s.nextId := rfl
@[simp] theorem State.modTeam_fresh (s : State) (k : Nat) (f : Team → Team) : (s.modTeam k f).fresh = s.fresh := rfl
@[simp] theorem State.modTeam_cur (s : State) (k : Nat) (f : Team → Team) : (s.modTeam k f).cur = s.cur := rfl

/-! ### modLaunch -/

@[simp] theorem State.modLaunch_mem (s : State) (k : Nat) (f : Launch → Launch) : (s.modLaunch k f).mem = s.mem := rfl
@[simp] theorem State.modLaunch_syn (s : State) (k : Nat) (f : Launch → Launch) : (s.modLaunch k f).syn = s.syn := rfl
@[simp] theorem State.modLaunch_corrected (s : State) (k : Nat) (f : Launch → Launch) : (s.modLaunch k f).corrected = s.corrected := rfl
@[simp] theorem State.modLaunch_presT (s : State) (k : Nat) (f : Launch → Launch) : (s.modLaunch k f).presT = s.presT := rfl
@[simp] theorem State.modLaunch_presC (s : State) (k : Nat) (f : Launch → Launch) : (s.modLaunch k f).presC = s.presC := rfl
@[simp] theorem State.modLaunch_retained (s : State) (k : Nat) (f : Launch → Launch) : (s.modLaunch k f).retained = s.retained := rfl
@[simp] theorem State.modLaunch_parts (s : State) (k : Nat) (f : Launch → Launch) : (s.modLaunch k f).parts = s.parts := rfl
@[simp] theorem State.modLaunch_teams (s : State) (k : Nat) (f : Launch → Launch) : (s.modLaunch k f).teams = s.teams := rfl
@[simp] theorem State.modLaunch_groups (s : State) (k : Nat) (f : Launch → Launch) : (s.modLaunch k f).groups = s.groups := rfl
@[simp] theorem State.modLaunch_coreWords (s : State) (k : Nat) (f : Launch → Launch) : (s.modLaunch k f).coreWords = s.coreWords := rfl
@[simp] theorem State.modLaunch_launchCtrs (s : State) (k : Nat) (f : Launch → Launch) : (s.modLaunch k f).launchCtrs = s.launchCtrs := rfl
@[simp] theorem State.modLaunch_tlb (s : State) (k : Nat) (f : Launch → Launch) : (s.modLaunch k f).tlb = s.tlb := rfl
@[simp] theorem State.modLaunch_ilines (s : State) (k : Nat) (f : Launch → Launch) : (s.modLaunch k f).ilines = s.ilines := rfl
@[simp] theorem State.modLaunch_fills (s : State) (k : Nat) (f : Launch → Launch) : (s.modLaunch k f).fills = s.fills := rfl
@[simp] theorem State.modLaunch_prefetches (s : State) (k : Nat) (f : Launch → Launch) : (s.modLaunch k f).prefetches = s.prefetches := rfl
@[simp] theorem State.modLaunch_fillFaults (s : State) (k : Nat) (f : Launch → Launch) : (s.modLaunch k f).fillFaults = s.fillFaults := rfl
@[simp] theorem State.modLaunch_walks (s : State) (k : Nat) (f : Launch → Launch) : (s.modLaunch k f).walks = s.walks := rfl
@[simp] theorem State.modLaunch_reqs (s : State) (k : Nat) (f : Launch → Launch) : (s.modLaunch k f).reqs = s.reqs := rfl
@[simp] theorem State.modLaunch_scores (s : State) (k : Nat) (f : Launch → Launch) : (s.modLaunch k f).scores = s.scores := rfl
@[simp] theorem State.modLaunch_copies (s : State) (k : Nat) (f : Launch → Launch) : (s.modLaunch k f).copies = s.copies := rfl
@[simp] theorem State.modLaunch_mxcmds (s : State) (k : Nat) (f : Launch → Launch) : (s.modLaunch k f).mxcmds = s.mxcmds := rfl
@[simp] theorem State.modLaunch_engines (s : State) (k : Nat) (f : Launch → Launch) : (s.modLaunch k f).engines = s.engines := rfl
@[simp] theorem State.modLaunch_fords (s : State) (k : Nat) (f : Launch → Launch) : (s.modLaunch k f).fords = s.fords := rfl
@[simp] theorem State.modLaunch_ports (s : State) (k : Nat) (f : Launch → Launch) : (s.modLaunch k f).ports = s.ports := rfl
@[simp] theorem State.modLaunch_starts (s : State) (k : Nat) (f : Launch → Launch) : (s.modLaunch k f).starts = s.starts := rfl
@[simp] theorem State.modLaunch_binLaunches (s : State) (k : Nat) (f : Launch → Launch) : (s.modLaunch k f).binLaunches = s.binLaunches := rfl
@[simp] theorem State.modLaunch_binTimers (s : State) (k : Nat) (f : Launch → Launch) : (s.modLaunch k f).binTimers = s.binTimers := rfl
@[simp] theorem State.modLaunch_jettys (s : State) (k : Nat) (f : Launch → Launch) : (s.modLaunch k f).jettys = s.jettys := rfl
@[simp] theorem State.modLaunch_fabs (s : State) (k : Nat) (f : Launch → Launch) : (s.modLaunch k f).fabs = s.fabs := rfl
@[simp] theorem State.modLaunch_mgmt (s : State) (k : Nat) (f : Launch → Launch) : (s.modLaunch k f).mgmt = s.mgmt := rfl
@[simp] theorem State.modLaunch_outbox (s : State) (k : Nat) (f : Launch → Launch) : (s.modLaunch k f).outbox = s.outbox := rfl
@[simp] theorem State.modLaunch_agenda (s : State) (k : Nat) (f : Launch → Launch) : (s.modLaunch k f).agenda = s.agenda := rfl
@[simp] theorem State.modLaunch_now (s : State) (k : Nat) (f : Launch → Launch) : (s.modLaunch k f).now = s.now := rfl
@[simp] theorem State.modLaunch_seq (s : State) (k : Nat) (f : Launch → Launch) : (s.modLaunch k f).seq = s.seq := rfl
@[simp] theorem State.modLaunch_nextId (s : State) (k : Nat) (f : Launch → Launch) : (s.modLaunch k f).nextId = s.nextId := rfl
@[simp] theorem State.modLaunch_fresh (s : State) (k : Nat) (f : Launch → Launch) : (s.modLaunch k f).fresh = s.fresh := rfl
@[simp] theorem State.modLaunch_cur (s : State) (k : Nat) (f : Launch → Launch) : (s.modLaunch k f).cur = s.cur := rfl

/-! ### modPart -/

@[simp] theorem State.modPart_mem (s : State) (k : Nat) (f : Part → Part) : (s.modPart k f).mem = s.mem := rfl
@[simp] theorem State.modPart_syn (s : State) (k : Nat) (f : Part → Part) : (s.modPart k f).syn = s.syn := rfl
@[simp] theorem State.modPart_corrected (s : State) (k : Nat) (f : Part → Part) : (s.modPart k f).corrected = s.corrected := rfl
@[simp] theorem State.modPart_presT (s : State) (k : Nat) (f : Part → Part) : (s.modPart k f).presT = s.presT := rfl
@[simp] theorem State.modPart_presC (s : State) (k : Nat) (f : Part → Part) : (s.modPart k f).presC = s.presC := rfl
@[simp] theorem State.modPart_retained (s : State) (k : Nat) (f : Part → Part) : (s.modPart k f).retained = s.retained := rfl
@[simp] theorem State.modPart_launches (s : State) (k : Nat) (f : Part → Part) : (s.modPart k f).launches = s.launches := rfl
@[simp] theorem State.modPart_teams (s : State) (k : Nat) (f : Part → Part) : (s.modPart k f).teams = s.teams := rfl
@[simp] theorem State.modPart_groups (s : State) (k : Nat) (f : Part → Part) : (s.modPart k f).groups = s.groups := rfl
@[simp] theorem State.modPart_coreWords (s : State) (k : Nat) (f : Part → Part) : (s.modPart k f).coreWords = s.coreWords := rfl
@[simp] theorem State.modPart_launchCtrs (s : State) (k : Nat) (f : Part → Part) : (s.modPart k f).launchCtrs = s.launchCtrs := rfl
@[simp] theorem State.modPart_tlb (s : State) (k : Nat) (f : Part → Part) : (s.modPart k f).tlb = s.tlb := rfl
@[simp] theorem State.modPart_ilines (s : State) (k : Nat) (f : Part → Part) : (s.modPart k f).ilines = s.ilines := rfl
@[simp] theorem State.modPart_fills (s : State) (k : Nat) (f : Part → Part) : (s.modPart k f).fills = s.fills := rfl
@[simp] theorem State.modPart_prefetches (s : State) (k : Nat) (f : Part → Part) : (s.modPart k f).prefetches = s.prefetches := rfl
@[simp] theorem State.modPart_fillFaults (s : State) (k : Nat) (f : Part → Part) : (s.modPart k f).fillFaults = s.fillFaults := rfl
@[simp] theorem State.modPart_walks (s : State) (k : Nat) (f : Part → Part) : (s.modPart k f).walks = s.walks := rfl
@[simp] theorem State.modPart_reqs (s : State) (k : Nat) (f : Part → Part) : (s.modPart k f).reqs = s.reqs := rfl
@[simp] theorem State.modPart_scores (s : State) (k : Nat) (f : Part → Part) : (s.modPart k f).scores = s.scores := rfl
@[simp] theorem State.modPart_copies (s : State) (k : Nat) (f : Part → Part) : (s.modPart k f).copies = s.copies := rfl
@[simp] theorem State.modPart_mxcmds (s : State) (k : Nat) (f : Part → Part) : (s.modPart k f).mxcmds = s.mxcmds := rfl
@[simp] theorem State.modPart_engines (s : State) (k : Nat) (f : Part → Part) : (s.modPart k f).engines = s.engines := rfl
@[simp] theorem State.modPart_fords (s : State) (k : Nat) (f : Part → Part) : (s.modPart k f).fords = s.fords := rfl
@[simp] theorem State.modPart_ports (s : State) (k : Nat) (f : Part → Part) : (s.modPart k f).ports = s.ports := rfl
@[simp] theorem State.modPart_starts (s : State) (k : Nat) (f : Part → Part) : (s.modPart k f).starts = s.starts := rfl
@[simp] theorem State.modPart_binLaunches (s : State) (k : Nat) (f : Part → Part) : (s.modPart k f).binLaunches = s.binLaunches := rfl
@[simp] theorem State.modPart_binTimers (s : State) (k : Nat) (f : Part → Part) : (s.modPart k f).binTimers = s.binTimers := rfl
@[simp] theorem State.modPart_jettys (s : State) (k : Nat) (f : Part → Part) : (s.modPart k f).jettys = s.jettys := rfl
@[simp] theorem State.modPart_fabs (s : State) (k : Nat) (f : Part → Part) : (s.modPart k f).fabs = s.fabs := rfl
@[simp] theorem State.modPart_mgmt (s : State) (k : Nat) (f : Part → Part) : (s.modPart k f).mgmt = s.mgmt := rfl
@[simp] theorem State.modPart_outbox (s : State) (k : Nat) (f : Part → Part) : (s.modPart k f).outbox = s.outbox := rfl
@[simp] theorem State.modPart_agenda (s : State) (k : Nat) (f : Part → Part) : (s.modPart k f).agenda = s.agenda := rfl
@[simp] theorem State.modPart_now (s : State) (k : Nat) (f : Part → Part) : (s.modPart k f).now = s.now := rfl
@[simp] theorem State.modPart_seq (s : State) (k : Nat) (f : Part → Part) : (s.modPart k f).seq = s.seq := rfl
@[simp] theorem State.modPart_nextId (s : State) (k : Nat) (f : Part → Part) : (s.modPart k f).nextId = s.nextId := rfl
@[simp] theorem State.modPart_fresh (s : State) (k : Nat) (f : Part → Part) : (s.modPart k f).fresh = s.fresh := rfl
@[simp] theorem State.modPart_cur (s : State) (k : Nat) (f : Part → Part) : (s.modPart k f).cur = s.cur := rfl

/-! ### modReq -/

@[simp] theorem State.modReq_mem (s : State) (k : Nat) (f : Req → Req) : (s.modReq k f).mem = s.mem := rfl
@[simp] theorem State.modReq_syn (s : State) (k : Nat) (f : Req → Req) : (s.modReq k f).syn = s.syn := rfl
@[simp] theorem State.modReq_corrected (s : State) (k : Nat) (f : Req → Req) : (s.modReq k f).corrected = s.corrected := rfl
@[simp] theorem State.modReq_presT (s : State) (k : Nat) (f : Req → Req) : (s.modReq k f).presT = s.presT := rfl
@[simp] theorem State.modReq_presC (s : State) (k : Nat) (f : Req → Req) : (s.modReq k f).presC = s.presC := rfl
@[simp] theorem State.modReq_retained (s : State) (k : Nat) (f : Req → Req) : (s.modReq k f).retained = s.retained := rfl
@[simp] theorem State.modReq_parts (s : State) (k : Nat) (f : Req → Req) : (s.modReq k f).parts = s.parts := rfl
@[simp] theorem State.modReq_launches (s : State) (k : Nat) (f : Req → Req) : (s.modReq k f).launches = s.launches := rfl
@[simp] theorem State.modReq_teams (s : State) (k : Nat) (f : Req → Req) : (s.modReq k f).teams = s.teams := rfl
@[simp] theorem State.modReq_groups (s : State) (k : Nat) (f : Req → Req) : (s.modReq k f).groups = s.groups := rfl
@[simp] theorem State.modReq_coreWords (s : State) (k : Nat) (f : Req → Req) : (s.modReq k f).coreWords = s.coreWords := rfl
@[simp] theorem State.modReq_launchCtrs (s : State) (k : Nat) (f : Req → Req) : (s.modReq k f).launchCtrs = s.launchCtrs := rfl
@[simp] theorem State.modReq_tlb (s : State) (k : Nat) (f : Req → Req) : (s.modReq k f).tlb = s.tlb := rfl
@[simp] theorem State.modReq_ilines (s : State) (k : Nat) (f : Req → Req) : (s.modReq k f).ilines = s.ilines := rfl
@[simp] theorem State.modReq_fills (s : State) (k : Nat) (f : Req → Req) : (s.modReq k f).fills = s.fills := rfl
@[simp] theorem State.modReq_prefetches (s : State) (k : Nat) (f : Req → Req) : (s.modReq k f).prefetches = s.prefetches := rfl
@[simp] theorem State.modReq_fillFaults (s : State) (k : Nat) (f : Req → Req) : (s.modReq k f).fillFaults = s.fillFaults := rfl
@[simp] theorem State.modReq_walks (s : State) (k : Nat) (f : Req → Req) : (s.modReq k f).walks = s.walks := rfl
@[simp] theorem State.modReq_scores (s : State) (k : Nat) (f : Req → Req) : (s.modReq k f).scores = s.scores := rfl
@[simp] theorem State.modReq_copies (s : State) (k : Nat) (f : Req → Req) : (s.modReq k f).copies = s.copies := rfl
@[simp] theorem State.modReq_mxcmds (s : State) (k : Nat) (f : Req → Req) : (s.modReq k f).mxcmds = s.mxcmds := rfl
@[simp] theorem State.modReq_engines (s : State) (k : Nat) (f : Req → Req) : (s.modReq k f).engines = s.engines := rfl
@[simp] theorem State.modReq_fords (s : State) (k : Nat) (f : Req → Req) : (s.modReq k f).fords = s.fords := rfl
@[simp] theorem State.modReq_ports (s : State) (k : Nat) (f : Req → Req) : (s.modReq k f).ports = s.ports := rfl
@[simp] theorem State.modReq_starts (s : State) (k : Nat) (f : Req → Req) : (s.modReq k f).starts = s.starts := rfl
@[simp] theorem State.modReq_binLaunches (s : State) (k : Nat) (f : Req → Req) : (s.modReq k f).binLaunches = s.binLaunches := rfl
@[simp] theorem State.modReq_binTimers (s : State) (k : Nat) (f : Req → Req) : (s.modReq k f).binTimers = s.binTimers := rfl
@[simp] theorem State.modReq_jettys (s : State) (k : Nat) (f : Req → Req) : (s.modReq k f).jettys = s.jettys := rfl
@[simp] theorem State.modReq_fabs (s : State) (k : Nat) (f : Req → Req) : (s.modReq k f).fabs = s.fabs := rfl
@[simp] theorem State.modReq_mgmt (s : State) (k : Nat) (f : Req → Req) : (s.modReq k f).mgmt = s.mgmt := rfl
@[simp] theorem State.modReq_outbox (s : State) (k : Nat) (f : Req → Req) : (s.modReq k f).outbox = s.outbox := rfl
@[simp] theorem State.modReq_agenda (s : State) (k : Nat) (f : Req → Req) : (s.modReq k f).agenda = s.agenda := rfl
@[simp] theorem State.modReq_now (s : State) (k : Nat) (f : Req → Req) : (s.modReq k f).now = s.now := rfl
@[simp] theorem State.modReq_seq (s : State) (k : Nat) (f : Req → Req) : (s.modReq k f).seq = s.seq := rfl
@[simp] theorem State.modReq_nextId (s : State) (k : Nat) (f : Req → Req) : (s.modReq k f).nextId = s.nextId := rfl
@[simp] theorem State.modReq_fresh (s : State) (k : Nat) (f : Req → Req) : (s.modReq k f).fresh = s.fresh := rfl
@[simp] theorem State.modReq_cur (s : State) (k : Nat) (f : Req → Req) : (s.modReq k f).cur = s.cur := rfl

/-! ### dropReq -/

@[simp] theorem State.dropReq_mem (s : State) (k : Nat) : (s.dropReq k).mem = s.mem := rfl
@[simp] theorem State.dropReq_syn (s : State) (k : Nat) : (s.dropReq k).syn = s.syn := rfl
@[simp] theorem State.dropReq_corrected (s : State) (k : Nat) : (s.dropReq k).corrected = s.corrected := rfl
@[simp] theorem State.dropReq_presT (s : State) (k : Nat) : (s.dropReq k).presT = s.presT := rfl
@[simp] theorem State.dropReq_presC (s : State) (k : Nat) : (s.dropReq k).presC = s.presC := rfl
@[simp] theorem State.dropReq_retained (s : State) (k : Nat) : (s.dropReq k).retained = s.retained := rfl
@[simp] theorem State.dropReq_parts (s : State) (k : Nat) : (s.dropReq k).parts = s.parts := rfl
@[simp] theorem State.dropReq_launches (s : State) (k : Nat) : (s.dropReq k).launches = s.launches := rfl
@[simp] theorem State.dropReq_teams (s : State) (k : Nat) : (s.dropReq k).teams = s.teams := rfl
@[simp] theorem State.dropReq_groups (s : State) (k : Nat) : (s.dropReq k).groups = s.groups := rfl
@[simp] theorem State.dropReq_coreWords (s : State) (k : Nat) : (s.dropReq k).coreWords = s.coreWords := rfl
@[simp] theorem State.dropReq_launchCtrs (s : State) (k : Nat) : (s.dropReq k).launchCtrs = s.launchCtrs := rfl
@[simp] theorem State.dropReq_tlb (s : State) (k : Nat) : (s.dropReq k).tlb = s.tlb := rfl
@[simp] theorem State.dropReq_ilines (s : State) (k : Nat) : (s.dropReq k).ilines = s.ilines := rfl
@[simp] theorem State.dropReq_fills (s : State) (k : Nat) : (s.dropReq k).fills = s.fills := rfl
@[simp] theorem State.dropReq_prefetches (s : State) (k : Nat) : (s.dropReq k).prefetches = s.prefetches := rfl
@[simp] theorem State.dropReq_fillFaults (s : State) (k : Nat) : (s.dropReq k).fillFaults = s.fillFaults := rfl
@[simp] theorem State.dropReq_walks (s : State) (k : Nat) : (s.dropReq k).walks = s.walks := rfl
@[simp] theorem State.dropReq_scores (s : State) (k : Nat) : (s.dropReq k).scores = s.scores := rfl
@[simp] theorem State.dropReq_copies (s : State) (k : Nat) : (s.dropReq k).copies = s.copies := rfl
@[simp] theorem State.dropReq_mxcmds (s : State) (k : Nat) : (s.dropReq k).mxcmds = s.mxcmds := rfl
@[simp] theorem State.dropReq_engines (s : State) (k : Nat) : (s.dropReq k).engines = s.engines := rfl
@[simp] theorem State.dropReq_fords (s : State) (k : Nat) : (s.dropReq k).fords = s.fords := rfl
@[simp] theorem State.dropReq_ports (s : State) (k : Nat) : (s.dropReq k).ports = s.ports := rfl
@[simp] theorem State.dropReq_starts (s : State) (k : Nat) : (s.dropReq k).starts = s.starts := rfl
@[simp] theorem State.dropReq_binLaunches (s : State) (k : Nat) : (s.dropReq k).binLaunches = s.binLaunches := rfl
@[simp] theorem State.dropReq_binTimers (s : State) (k : Nat) : (s.dropReq k).binTimers = s.binTimers := rfl
@[simp] theorem State.dropReq_jettys (s : State) (k : Nat) : (s.dropReq k).jettys = s.jettys := rfl
@[simp] theorem State.dropReq_fabs (s : State) (k : Nat) : (s.dropReq k).fabs = s.fabs := rfl
@[simp] theorem State.dropReq_mgmt (s : State) (k : Nat) : (s.dropReq k).mgmt = s.mgmt := rfl
@[simp] theorem State.dropReq_outbox (s : State) (k : Nat) : (s.dropReq k).outbox = s.outbox := rfl
@[simp] theorem State.dropReq_agenda (s : State) (k : Nat) : (s.dropReq k).agenda = s.agenda := rfl
@[simp] theorem State.dropReq_now (s : State) (k : Nat) : (s.dropReq k).now = s.now := rfl
@[simp] theorem State.dropReq_seq (s : State) (k : Nat) : (s.dropReq k).seq = s.seq := rfl
@[simp] theorem State.dropReq_nextId (s : State) (k : Nat) : (s.dropReq k).nextId = s.nextId := rfl
@[simp] theorem State.dropReq_fresh (s : State) (k : Nat) : (s.dropReq k).fresh = s.fresh := rfl
@[simp] theorem State.dropReq_cur (s : State) (k : Nat) : (s.dropReq k).cur = s.cur := rfl

/-! ### Groups -/

@[simp] theorem Group.kill_gid (g : Group) (m : LaneMask) : (g.kill m).gid = g.gid := rfl
@[simp] theorem Group.kill_team (g : Group) (m : LaneMask) : (g.kill m).team = g.team := rfl
@[simp] theorem Group.kill_launch (g : Group) (m : LaneMask) : (g.kill m).launch = g.launch := rfl
@[simp] theorem Group.kill_part (g : Group) (m : LaneMask) : (g.kill m).part = g.part := rfl
@[simp] theorem Group.kill_groupId (g : Group) (m : LaneMask) : (g.kill m).groupId = g.groupId := rfl
@[simp] theorem Group.kill_width (g : Group) (m : LaneMask) : (g.kill m).width = g.width := rfl
@[simp] theorem Group.kill_core (g : Group) (m : LaneMask) : (g.kill m).core = g.core := rfl
@[simp] theorem Group.kill_quadrant (g : Group) (m : LaneMask) : (g.kill m).quadrant = g.quadrant := rfl
@[simp] theorem Group.kill_slot (g : Group) (m : LaneMask) : (g.kill m).slot = g.slot := rfl
@[simp] theorem Group.kill_life (g : Group) (m : LaneMask) : (g.kill m).life = g.life := rfl
@[simp] theorem Group.kill_hold (g : Group) (m : LaneMask) : (g.kill m).hold = g.hold := rfl
@[simp] theorem Group.kill_pc (g : Group) (m : LaneMask) : (g.kill m).pc = g.pc := rfl
@[simp] theorem Group.kill_sregs (g : Group) (m : LaneMask) : (g.kill m).sregs = g.sregs := rfl
@[simp] theorem Group.kill_preds (g : Group) (m : LaneMask) : (g.kill m).preds = g.preds := rfl
@[simp] theorem Group.kill_cur (g : Group) (m : LaneMask) : (g.kill m).cur = g.cur := rfl
@[simp] theorem Group.kill_ent (g : Group) (m : LaneMask) : (g.kill m).ent = g.ent := rfl
@[simp] theorem Group.kill_pregs (g : Group) (m : LaneMask) : (g.kill m).pregs = g.pregs := rfl
@[simp] theorem Group.kill_nextPid (g : Group) (m : LaneMask) : (g.kill m).nextPid = g.nextPid := rfl
@[simp] theorem Group.kill_resv (g : Group) (m : LaneMask) : (g.kill m).resv = g.resv := rfl
@[simp] theorem Group.kill_stack (g : Group) (m : LaneMask) : (g.kill m).stack = g.stack := rfl
@[simp] theorem Group.kill_sig (g : Group) (m : LaneMask) : (g.kill m).sig = g.sig := rfl
@[simp] theorem Group.kill_taken (g : Group) (m : LaneMask) : (g.kill m).taken = g.taken := rfl
@[simp] theorem Group.kill_po (g : Group) (m : LaneMask) : (g.kill m).po = g.po := rfl
@[simp] theorem Group.kill_poFirst (g : Group) (m : LaneMask) : (g.kill m).poFirst = g.poFirst := rfl
@[simp] theorem Group.kill_depths (g : Group) (m : LaneMask) : (g.kill m).depths = g.depths := rfl
@[simp] theorem Group.kill_fflags (g : Group) (m : LaneMask) : (g.kill m).fflags = g.fflags := rfl
@[simp] theorem Group.kill_replays (g : Group) (m : LaneMask) : (g.kill m).replays = g.replays := rfl
@[simp] theorem Group.kill_regionStart (g : Group) (m : LaneMask) : (g.kill m).regionStart = g.regionStart := rfl
@[simp] theorem Group.kill_regionFresh (g : Group) (m : LaneMask) : (g.kill m).regionFresh = g.regionFresh := rfl
@[simp] theorem Group.kill_regionReads (g : Group) (m : LaneMask) : (g.kill m).regionReads = g.regionReads := rfl
@[simp] theorem Group.kill_sigFailed (g : Group) (m : LaneMask) : (g.kill m).sigFailed = g.sigFailed := rfl
@[simp] theorem Group.kill_ckpt (g : Group) (m : LaneMask) : (g.kill m).ckpt = g.ckpt := rfl
@[simp] theorem Group.kill_outst (g : Group) (m : LaneMask) : (g.kill m).outst = g.outst := rfl
@[simp] theorem Group.kill_fences (g : Group) (m : LaneMask) : (g.kill m).fences = g.fences := rfl
@[simp] theorem Group.kill_xfences (g : Group) (m : LaneMask) : (g.kill m).xfences = g.xfences := rfl
@[simp] theorem Group.kill_retryAt (g : Group) (m : LaneMask) : (g.kill m).retryAt = g.retryAt := rfl
@[simp] theorem Group.kill_stamp (g : Group) (m : LaneMask) : (g.kill m).stamp = g.stamp := rfl
@[simp] theorem Group.kill_admitted (g : Group) (m : LaneMask) : (g.kill m).admitted = g.admitted := rfl
@[simp] theorem Group.unmap_gid (g : Group) (ns : List Nat) : (g.unmap ns).gid = g.gid := rfl
@[simp] theorem Group.unmap_team (g : Group) (ns : List Nat) : (g.unmap ns).team = g.team := rfl
@[simp] theorem Group.unmap_launch (g : Group) (ns : List Nat) : (g.unmap ns).launch = g.launch := rfl
@[simp] theorem Group.unmap_part (g : Group) (ns : List Nat) : (g.unmap ns).part = g.part := rfl
@[simp] theorem Group.unmap_groupId (g : Group) (ns : List Nat) : (g.unmap ns).groupId = g.groupId := rfl
@[simp] theorem Group.unmap_width (g : Group) (ns : List Nat) : (g.unmap ns).width = g.width := rfl
@[simp] theorem Group.unmap_core (g : Group) (ns : List Nat) : (g.unmap ns).core = g.core := rfl
@[simp] theorem Group.unmap_quadrant (g : Group) (ns : List Nat) : (g.unmap ns).quadrant = g.quadrant := rfl
@[simp] theorem Group.unmap_slot (g : Group) (ns : List Nat) : (g.unmap ns).slot = g.slot := rfl
@[simp] theorem Group.unmap_life (g : Group) (ns : List Nat) : (g.unmap ns).life = g.life := rfl
@[simp] theorem Group.unmap_hold (g : Group) (ns : List Nat) : (g.unmap ns).hold = g.hold := rfl
@[simp] theorem Group.unmap_pc (g : Group) (ns : List Nat) : (g.unmap ns).pc = g.pc := rfl
@[simp] theorem Group.unmap_active (g : Group) (ns : List Nat) : (g.unmap ns).active = g.active := rfl
@[simp] theorem Group.unmap_live (g : Group) (ns : List Nat) : (g.unmap ns).live = g.live := rfl
@[simp] theorem Group.unmap_dead (g : Group) (ns : List Nat) : (g.unmap ns).dead = g.dead := rfl
@[simp] theorem Group.unmap_sregs (g : Group) (ns : List Nat) : (g.unmap ns).sregs = g.sregs := rfl
@[simp] theorem Group.unmap_preds (g : Group) (ns : List Nat) : (g.unmap ns).preds = g.preds := rfl
@[simp] theorem Group.unmap_ent (g : Group) (ns : List Nat) : (g.unmap ns).ent = g.ent := rfl
@[simp] theorem Group.unmap_pregs (g : Group) (ns : List Nat) : (g.unmap ns).pregs = g.pregs := rfl
@[simp] theorem Group.unmap_nextPid (g : Group) (ns : List Nat) : (g.unmap ns).nextPid = g.nextPid := rfl
@[simp] theorem Group.unmap_resv (g : Group) (ns : List Nat) : (g.unmap ns).resv = g.resv := rfl
@[simp] theorem Group.unmap_stack (g : Group) (ns : List Nat) : (g.unmap ns).stack = g.stack := rfl
@[simp] theorem Group.unmap_sig (g : Group) (ns : List Nat) : (g.unmap ns).sig = g.sig := rfl
@[simp] theorem Group.unmap_taken (g : Group) (ns : List Nat) : (g.unmap ns).taken = g.taken := rfl
@[simp] theorem Group.unmap_po (g : Group) (ns : List Nat) : (g.unmap ns).po = g.po := rfl
@[simp] theorem Group.unmap_poFirst (g : Group) (ns : List Nat) : (g.unmap ns).poFirst = g.poFirst := rfl
@[simp] theorem Group.unmap_depths (g : Group) (ns : List Nat) : (g.unmap ns).depths = g.depths := rfl
@[simp] theorem Group.unmap_fflags (g : Group) (ns : List Nat) : (g.unmap ns).fflags = g.fflags := rfl
@[simp] theorem Group.unmap_replays (g : Group) (ns : List Nat) : (g.unmap ns).replays = g.replays := rfl
@[simp] theorem Group.unmap_regionStart (g : Group) (ns : List Nat) : (g.unmap ns).regionStart = g.regionStart := rfl
@[simp] theorem Group.unmap_regionFresh (g : Group) (ns : List Nat) : (g.unmap ns).regionFresh = g.regionFresh := rfl
@[simp] theorem Group.unmap_regionReads (g : Group) (ns : List Nat) : (g.unmap ns).regionReads = g.regionReads := rfl
@[simp] theorem Group.unmap_sigFailed (g : Group) (ns : List Nat) : (g.unmap ns).sigFailed = g.sigFailed := rfl
@[simp] theorem Group.unmap_ckpt (g : Group) (ns : List Nat) : (g.unmap ns).ckpt = g.ckpt := rfl
@[simp] theorem Group.unmap_outst (g : Group) (ns : List Nat) : (g.unmap ns).outst = g.outst := rfl
@[simp] theorem Group.unmap_fences (g : Group) (ns : List Nat) : (g.unmap ns).fences = g.fences := rfl
@[simp] theorem Group.unmap_xfences (g : Group) (ns : List Nat) : (g.unmap ns).xfences = g.xfences := rfl
@[simp] theorem Group.unmap_retryAt (g : Group) (ns : List Nat) : (g.unmap ns).retryAt = g.retryAt := rfl
@[simp] theorem Group.unmap_stamp (g : Group) (ns : List Nat) : (g.unmap ns).stamp = g.stamp := rfl
@[simp] theorem Group.unmap_admitted (g : Group) (ns : List Nat) : (g.unmap ns).admitted = g.admitted := rfl
@[simp] theorem Group.modPreg_gid (g : Group) (p : Nat) (f : PReg → PReg) : (g.modPreg p f).gid = g.gid := rfl
@[simp] theorem Group.modPreg_team (g : Group) (p : Nat) (f : PReg → PReg) : (g.modPreg p f).team = g.team := rfl
@[simp] theorem Group.modPreg_launch (g : Group) (p : Nat) (f : PReg → PReg) : (g.modPreg p f).launch = g.launch := rfl
@[simp] theorem Group.modPreg_part (g : Group) (p : Nat) (f : PReg → PReg) : (g.modPreg p f).part = g.part := rfl
@[simp] theorem Group.modPreg_groupId (g : Group) (p : Nat) (f : PReg → PReg) : (g.modPreg p f).groupId = g.groupId := rfl
@[simp] theorem Group.modPreg_width (g : Group) (p : Nat) (f : PReg → PReg) : (g.modPreg p f).width = g.width := rfl
@[simp] theorem Group.modPreg_core (g : Group) (p : Nat) (f : PReg → PReg) : (g.modPreg p f).core = g.core := rfl
@[simp] theorem Group.modPreg_quadrant (g : Group) (p : Nat) (f : PReg → PReg) : (g.modPreg p f).quadrant = g.quadrant := rfl
@[simp] theorem Group.modPreg_slot (g : Group) (p : Nat) (f : PReg → PReg) : (g.modPreg p f).slot = g.slot := rfl
@[simp] theorem Group.modPreg_life (g : Group) (p : Nat) (f : PReg → PReg) : (g.modPreg p f).life = g.life := rfl
@[simp] theorem Group.modPreg_hold (g : Group) (p : Nat) (f : PReg → PReg) : (g.modPreg p f).hold = g.hold := rfl
@[simp] theorem Group.modPreg_pc (g : Group) (p : Nat) (f : PReg → PReg) : (g.modPreg p f).pc = g.pc := rfl
@[simp] theorem Group.modPreg_active (g : Group) (p : Nat) (f : PReg → PReg) : (g.modPreg p f).active = g.active := rfl
@[simp] theorem Group.modPreg_live (g : Group) (p : Nat) (f : PReg → PReg) : (g.modPreg p f).live = g.live := rfl
@[simp] theorem Group.modPreg_dead (g : Group) (p : Nat) (f : PReg → PReg) : (g.modPreg p f).dead = g.dead := rfl
@[simp] theorem Group.modPreg_sregs (g : Group) (p : Nat) (f : PReg → PReg) : (g.modPreg p f).sregs = g.sregs := rfl
@[simp] theorem Group.modPreg_preds (g : Group) (p : Nat) (f : PReg → PReg) : (g.modPreg p f).preds = g.preds := rfl
@[simp] theorem Group.modPreg_cur (g : Group) (p : Nat) (f : PReg → PReg) : (g.modPreg p f).cur = g.cur := rfl
@[simp] theorem Group.modPreg_ent (g : Group) (p : Nat) (f : PReg → PReg) : (g.modPreg p f).ent = g.ent := rfl
@[simp] theorem Group.modPreg_nextPid (g : Group) (p : Nat) (f : PReg → PReg) : (g.modPreg p f).nextPid = g.nextPid := rfl
@[simp] theorem Group.modPreg_resv (g : Group) (p : Nat) (f : PReg → PReg) : (g.modPreg p f).resv = g.resv := rfl
@[simp] theorem Group.modPreg_stack (g : Group) (p : Nat) (f : PReg → PReg) : (g.modPreg p f).stack = g.stack := rfl
@[simp] theorem Group.modPreg_sig (g : Group) (p : Nat) (f : PReg → PReg) : (g.modPreg p f).sig = g.sig := rfl
@[simp] theorem Group.modPreg_taken (g : Group) (p : Nat) (f : PReg → PReg) : (g.modPreg p f).taken = g.taken := rfl
@[simp] theorem Group.modPreg_po (g : Group) (p : Nat) (f : PReg → PReg) : (g.modPreg p f).po = g.po := rfl
@[simp] theorem Group.modPreg_poFirst (g : Group) (p : Nat) (f : PReg → PReg) : (g.modPreg p f).poFirst = g.poFirst := rfl
@[simp] theorem Group.modPreg_depths (g : Group) (p : Nat) (f : PReg → PReg) : (g.modPreg p f).depths = g.depths := rfl
@[simp] theorem Group.modPreg_fflags (g : Group) (p : Nat) (f : PReg → PReg) : (g.modPreg p f).fflags = g.fflags := rfl
@[simp] theorem Group.modPreg_replays (g : Group) (p : Nat) (f : PReg → PReg) : (g.modPreg p f).replays = g.replays := rfl
@[simp] theorem Group.modPreg_regionStart (g : Group) (p : Nat) (f : PReg → PReg) : (g.modPreg p f).regionStart = g.regionStart := rfl
@[simp] theorem Group.modPreg_regionFresh (g : Group) (p : Nat) (f : PReg → PReg) : (g.modPreg p f).regionFresh = g.regionFresh := rfl
@[simp] theorem Group.modPreg_regionReads (g : Group) (p : Nat) (f : PReg → PReg) : (g.modPreg p f).regionReads = g.regionReads := rfl
@[simp] theorem Group.modPreg_sigFailed (g : Group) (p : Nat) (f : PReg → PReg) : (g.modPreg p f).sigFailed = g.sigFailed := rfl
@[simp] theorem Group.modPreg_ckpt (g : Group) (p : Nat) (f : PReg → PReg) : (g.modPreg p f).ckpt = g.ckpt := rfl
@[simp] theorem Group.modPreg_outst (g : Group) (p : Nat) (f : PReg → PReg) : (g.modPreg p f).outst = g.outst := rfl
@[simp] theorem Group.modPreg_fences (g : Group) (p : Nat) (f : PReg → PReg) : (g.modPreg p f).fences = g.fences := rfl
@[simp] theorem Group.modPreg_xfences (g : Group) (p : Nat) (f : PReg → PReg) : (g.modPreg p f).xfences = g.xfences := rfl
@[simp] theorem Group.modPreg_retryAt (g : Group) (p : Nat) (f : PReg → PReg) : (g.modPreg p f).retryAt = g.retryAt := rfl
@[simp] theorem Group.modPreg_stamp (g : Group) (p : Nat) (f : PReg → PReg) : (g.modPreg p f).stamp = g.stamp := rfl
@[simp] theorem Group.modPreg_admitted (g : Group) (p : Nat) (f : PReg → PReg) : (g.modPreg p f).admitted = g.admitted := rfl
@[simp] theorem Group.raiseFlags_gid (g : Group) (f : FFlags) : (g.raiseFlags f).gid = g.gid := rfl
@[simp] theorem Group.raiseFlags_team (g : Group) (f : FFlags) : (g.raiseFlags f).team = g.team := rfl
@[simp] theorem Group.raiseFlags_launch (g : Group) (f : FFlags) : (g.raiseFlags f).launch = g.launch := rfl
@[simp] theorem Group.raiseFlags_part (g : Group) (f : FFlags) : (g.raiseFlags f).part = g.part := rfl
@[simp] theorem Group.raiseFlags_groupId (g : Group) (f : FFlags) : (g.raiseFlags f).groupId = g.groupId := rfl
@[simp] theorem Group.raiseFlags_width (g : Group) (f : FFlags) : (g.raiseFlags f).width = g.width := rfl
@[simp] theorem Group.raiseFlags_core (g : Group) (f : FFlags) : (g.raiseFlags f).core = g.core := rfl
@[simp] theorem Group.raiseFlags_quadrant (g : Group) (f : FFlags) : (g.raiseFlags f).quadrant = g.quadrant := rfl
@[simp] theorem Group.raiseFlags_slot (g : Group) (f : FFlags) : (g.raiseFlags f).slot = g.slot := rfl
@[simp] theorem Group.raiseFlags_life (g : Group) (f : FFlags) : (g.raiseFlags f).life = g.life := rfl
@[simp] theorem Group.raiseFlags_hold (g : Group) (f : FFlags) : (g.raiseFlags f).hold = g.hold := rfl
@[simp] theorem Group.raiseFlags_pc (g : Group) (f : FFlags) : (g.raiseFlags f).pc = g.pc := rfl
@[simp] theorem Group.raiseFlags_active (g : Group) (f : FFlags) : (g.raiseFlags f).active = g.active := rfl
@[simp] theorem Group.raiseFlags_live (g : Group) (f : FFlags) : (g.raiseFlags f).live = g.live := rfl
@[simp] theorem Group.raiseFlags_dead (g : Group) (f : FFlags) : (g.raiseFlags f).dead = g.dead := rfl
@[simp] theorem Group.raiseFlags_sregs (g : Group) (f : FFlags) : (g.raiseFlags f).sregs = g.sregs := rfl
@[simp] theorem Group.raiseFlags_preds (g : Group) (f : FFlags) : (g.raiseFlags f).preds = g.preds := rfl
@[simp] theorem Group.raiseFlags_cur (g : Group) (f : FFlags) : (g.raiseFlags f).cur = g.cur := rfl
@[simp] theorem Group.raiseFlags_ent (g : Group) (f : FFlags) : (g.raiseFlags f).ent = g.ent := rfl
@[simp] theorem Group.raiseFlags_pregs (g : Group) (f : FFlags) : (g.raiseFlags f).pregs = g.pregs := rfl
@[simp] theorem Group.raiseFlags_nextPid (g : Group) (f : FFlags) : (g.raiseFlags f).nextPid = g.nextPid := rfl
@[simp] theorem Group.raiseFlags_resv (g : Group) (f : FFlags) : (g.raiseFlags f).resv = g.resv := rfl
@[simp] theorem Group.raiseFlags_stack (g : Group) (f : FFlags) : (g.raiseFlags f).stack = g.stack := rfl
@[simp] theorem Group.raiseFlags_sig (g : Group) (f : FFlags) : (g.raiseFlags f).sig = g.sig := rfl
@[simp] theorem Group.raiseFlags_taken (g : Group) (f : FFlags) : (g.raiseFlags f).taken = g.taken := rfl
@[simp] theorem Group.raiseFlags_po (g : Group) (f : FFlags) : (g.raiseFlags f).po = g.po := rfl
@[simp] theorem Group.raiseFlags_poFirst (g : Group) (f : FFlags) : (g.raiseFlags f).poFirst = g.poFirst := rfl
@[simp] theorem Group.raiseFlags_depths (g : Group) (f : FFlags) : (g.raiseFlags f).depths = g.depths := rfl
@[simp] theorem Group.raiseFlags_replays (g : Group) (f : FFlags) : (g.raiseFlags f).replays = g.replays := rfl
@[simp] theorem Group.raiseFlags_regionStart (g : Group) (f : FFlags) : (g.raiseFlags f).regionStart = g.regionStart := rfl
@[simp] theorem Group.raiseFlags_regionFresh (g : Group) (f : FFlags) : (g.raiseFlags f).regionFresh = g.regionFresh := rfl
@[simp] theorem Group.raiseFlags_regionReads (g : Group) (f : FFlags) : (g.raiseFlags f).regionReads = g.regionReads := rfl
@[simp] theorem Group.raiseFlags_sigFailed (g : Group) (f : FFlags) : (g.raiseFlags f).sigFailed = g.sigFailed := rfl
@[simp] theorem Group.raiseFlags_ckpt (g : Group) (f : FFlags) : (g.raiseFlags f).ckpt = g.ckpt := rfl
@[simp] theorem Group.raiseFlags_outst (g : Group) (f : FFlags) : (g.raiseFlags f).outst = g.outst := rfl
@[simp] theorem Group.raiseFlags_fences (g : Group) (f : FFlags) : (g.raiseFlags f).fences = g.fences := rfl
@[simp] theorem Group.raiseFlags_xfences (g : Group) (f : FFlags) : (g.raiseFlags f).xfences = g.xfences := rfl
@[simp] theorem Group.raiseFlags_retryAt (g : Group) (f : FFlags) : (g.raiseFlags f).retryAt = g.retryAt := rfl
@[simp] theorem Group.raiseFlags_stamp (g : Group) (f : FFlags) : (g.raiseFlags f).stamp = g.stamp := rfl
@[simp] theorem Group.raiseFlags_admitted (g : Group) (f : FFlags) : (g.raiseFlags f).admitted = g.admitted := rfl
@[simp] theorem Group.setP_gid (g : Group) (r : Nat) (m b : LaneMask) (t : Option Nat) : (g.setP r m b t).gid = g.gid := rfl
@[simp] theorem Group.setP_team (g : Group) (r : Nat) (m b : LaneMask) (t : Option Nat) : (g.setP r m b t).team = g.team := rfl
@[simp] theorem Group.setP_launch (g : Group) (r : Nat) (m b : LaneMask) (t : Option Nat) : (g.setP r m b t).launch = g.launch := rfl
@[simp] theorem Group.setP_part (g : Group) (r : Nat) (m b : LaneMask) (t : Option Nat) : (g.setP r m b t).part = g.part := rfl
@[simp] theorem Group.setP_groupId (g : Group) (r : Nat) (m b : LaneMask) (t : Option Nat) : (g.setP r m b t).groupId = g.groupId := rfl
@[simp] theorem Group.setP_width (g : Group) (r : Nat) (m b : LaneMask) (t : Option Nat) : (g.setP r m b t).width = g.width := rfl
@[simp] theorem Group.setP_core (g : Group) (r : Nat) (m b : LaneMask) (t : Option Nat) : (g.setP r m b t).core = g.core := rfl
@[simp] theorem Group.setP_quadrant (g : Group) (r : Nat) (m b : LaneMask) (t : Option Nat) : (g.setP r m b t).quadrant = g.quadrant := rfl
@[simp] theorem Group.setP_slot (g : Group) (r : Nat) (m b : LaneMask) (t : Option Nat) : (g.setP r m b t).slot = g.slot := rfl
@[simp] theorem Group.setP_life (g : Group) (r : Nat) (m b : LaneMask) (t : Option Nat) : (g.setP r m b t).life = g.life := rfl
@[simp] theorem Group.setP_hold (g : Group) (r : Nat) (m b : LaneMask) (t : Option Nat) : (g.setP r m b t).hold = g.hold := rfl
@[simp] theorem Group.setP_pc (g : Group) (r : Nat) (m b : LaneMask) (t : Option Nat) : (g.setP r m b t).pc = g.pc := rfl
@[simp] theorem Group.setP_active (g : Group) (r : Nat) (m b : LaneMask) (t : Option Nat) : (g.setP r m b t).active = g.active := rfl
@[simp] theorem Group.setP_live (g : Group) (r : Nat) (m b : LaneMask) (t : Option Nat) : (g.setP r m b t).live = g.live := rfl
@[simp] theorem Group.setP_dead (g : Group) (r : Nat) (m b : LaneMask) (t : Option Nat) : (g.setP r m b t).dead = g.dead := rfl
@[simp] theorem Group.setP_sregs (g : Group) (r : Nat) (m b : LaneMask) (t : Option Nat) : (g.setP r m b t).sregs = g.sregs := rfl
@[simp] theorem Group.setP_cur (g : Group) (r : Nat) (m b : LaneMask) (t : Option Nat) : (g.setP r m b t).cur = g.cur := rfl
@[simp] theorem Group.setP_ent (g : Group) (r : Nat) (m b : LaneMask) (t : Option Nat) : (g.setP r m b t).ent = g.ent := rfl
@[simp] theorem Group.setP_pregs (g : Group) (r : Nat) (m b : LaneMask) (t : Option Nat) : (g.setP r m b t).pregs = g.pregs := rfl
@[simp] theorem Group.setP_nextPid (g : Group) (r : Nat) (m b : LaneMask) (t : Option Nat) : (g.setP r m b t).nextPid = g.nextPid := rfl
@[simp] theorem Group.setP_resv (g : Group) (r : Nat) (m b : LaneMask) (t : Option Nat) : (g.setP r m b t).resv = g.resv := rfl
@[simp] theorem Group.setP_stack (g : Group) (r : Nat) (m b : LaneMask) (t : Option Nat) : (g.setP r m b t).stack = g.stack := rfl
@[simp] theorem Group.setP_sig (g : Group) (r : Nat) (m b : LaneMask) (t : Option Nat) : (g.setP r m b t).sig = g.sig := rfl
@[simp] theorem Group.setP_taken (g : Group) (r : Nat) (m b : LaneMask) (t : Option Nat) : (g.setP r m b t).taken = g.taken := rfl
@[simp] theorem Group.setP_po (g : Group) (r : Nat) (m b : LaneMask) (t : Option Nat) : (g.setP r m b t).po = g.po := rfl
@[simp] theorem Group.setP_poFirst (g : Group) (r : Nat) (m b : LaneMask) (t : Option Nat) : (g.setP r m b t).poFirst = g.poFirst := rfl
@[simp] theorem Group.setP_depths (g : Group) (r : Nat) (m b : LaneMask) (t : Option Nat) : (g.setP r m b t).depths = g.depths := rfl
@[simp] theorem Group.setP_fflags (g : Group) (r : Nat) (m b : LaneMask) (t : Option Nat) : (g.setP r m b t).fflags = g.fflags := rfl
@[simp] theorem Group.setP_replays (g : Group) (r : Nat) (m b : LaneMask) (t : Option Nat) : (g.setP r m b t).replays = g.replays := rfl
@[simp] theorem Group.setP_regionStart (g : Group) (r : Nat) (m b : LaneMask) (t : Option Nat) : (g.setP r m b t).regionStart = g.regionStart := rfl
@[simp] theorem Group.setP_regionFresh (g : Group) (r : Nat) (m b : LaneMask) (t : Option Nat) : (g.setP r m b t).regionFresh = g.regionFresh := rfl
@[simp] theorem Group.setP_regionReads (g : Group) (r : Nat) (m b : LaneMask) (t : Option Nat) : (g.setP r m b t).regionReads = g.regionReads := rfl
@[simp] theorem Group.setP_sigFailed (g : Group) (r : Nat) (m b : LaneMask) (t : Option Nat) : (g.setP r m b t).sigFailed = g.sigFailed := rfl
@[simp] theorem Group.setP_ckpt (g : Group) (r : Nat) (m b : LaneMask) (t : Option Nat) : (g.setP r m b t).ckpt = g.ckpt := rfl
@[simp] theorem Group.setP_outst (g : Group) (r : Nat) (m b : LaneMask) (t : Option Nat) : (g.setP r m b t).outst = g.outst := rfl
@[simp] theorem Group.setP_fences (g : Group) (r : Nat) (m b : LaneMask) (t : Option Nat) : (g.setP r m b t).fences = g.fences := rfl
@[simp] theorem Group.setP_xfences (g : Group) (r : Nat) (m b : LaneMask) (t : Option Nat) : (g.setP r m b t).xfences = g.xfences := rfl
@[simp] theorem Group.setP_retryAt (g : Group) (r : Nat) (m b : LaneMask) (t : Option Nat) : (g.setP r m b t).retryAt = g.retryAt := rfl
@[simp] theorem Group.setP_stamp (g : Group) (r : Nat) (m b : LaneMask) (t : Option Nat) : (g.setP r m b t).stamp = g.stamp := rfl
@[simp] theorem Group.setP_admitted (g : Group) (r : Nat) (m b : LaneMask) (t : Option Nat) : (g.setP r m b t).admitted = g.admitted := rfl
@[simp] theorem Group.closeRegion_gid (g : Group) : (g.closeRegion).gid = g.gid := rfl
@[simp] theorem Group.closeRegion_team (g : Group) : (g.closeRegion).team = g.team := rfl
@[simp] theorem Group.closeRegion_launch (g : Group) : (g.closeRegion).launch = g.launch := rfl
@[simp] theorem Group.closeRegion_part (g : Group) : (g.closeRegion).part = g.part := rfl
@[simp] theorem Group.closeRegion_groupId (g : Group) : (g.closeRegion).groupId = g.groupId := rfl
@[simp] theorem Group.closeRegion_width (g : Group) : (g.closeRegion).width = g.width := rfl
@[simp] theorem Group.closeRegion_core (g : Group) : (g.closeRegion).core = g.core := rfl
@[simp] theorem Group.closeRegion_quadrant (g : Group) : (g.closeRegion).quadrant = g.quadrant := rfl
@[simp] theorem Group.closeRegion_slot (g : Group) : (g.closeRegion).slot = g.slot := rfl
@[simp] theorem Group.closeRegion_life (g : Group) : (g.closeRegion).life = g.life := rfl
@[simp] theorem Group.closeRegion_hold (g : Group) : (g.closeRegion).hold = g.hold := rfl
@[simp] theorem Group.closeRegion_pc (g : Group) : (g.closeRegion).pc = g.pc := rfl
@[simp] theorem Group.closeRegion_active (g : Group) : (g.closeRegion).active = g.active := rfl
@[simp] theorem Group.closeRegion_live (g : Group) : (g.closeRegion).live = g.live := rfl
@[simp] theorem Group.closeRegion_dead (g : Group) : (g.closeRegion).dead = g.dead := rfl
@[simp] theorem Group.closeRegion_sregs (g : Group) : (g.closeRegion).sregs = g.sregs := rfl
@[simp] theorem Group.closeRegion_preds (g : Group) : (g.closeRegion).preds = g.preds := rfl
@[simp] theorem Group.closeRegion_cur (g : Group) : (g.closeRegion).cur = g.cur := rfl
@[simp] theorem Group.closeRegion_nextPid (g : Group) : (g.closeRegion).nextPid = g.nextPid := rfl
@[simp] theorem Group.closeRegion_resv (g : Group) : (g.closeRegion).resv = g.resv := rfl
@[simp] theorem Group.closeRegion_stack (g : Group) : (g.closeRegion).stack = g.stack := rfl
@[simp] theorem Group.closeRegion_sig (g : Group) : (g.closeRegion).sig = g.sig := rfl
@[simp] theorem Group.closeRegion_taken (g : Group) : (g.closeRegion).taken = g.taken := rfl
@[simp] theorem Group.closeRegion_po (g : Group) : (g.closeRegion).po = g.po := rfl
@[simp] theorem Group.closeRegion_poFirst (g : Group) : (g.closeRegion).poFirst = g.poFirst := rfl
@[simp] theorem Group.closeRegion_depths (g : Group) : (g.closeRegion).depths = g.depths := rfl
@[simp] theorem Group.closeRegion_fflags (g : Group) : (g.closeRegion).fflags = g.fflags := rfl
@[simp] theorem Group.closeRegion_replays (g : Group) : (g.closeRegion).replays = g.replays := rfl
@[simp] theorem Group.closeRegion_outst (g : Group) : (g.closeRegion).outst = g.outst := rfl
@[simp] theorem Group.closeRegion_fences (g : Group) : (g.closeRegion).fences = g.fences := rfl
@[simp] theorem Group.closeRegion_xfences (g : Group) : (g.closeRegion).xfences = g.xfences := rfl
@[simp] theorem Group.closeRegion_retryAt (g : Group) : (g.closeRegion).retryAt = g.retryAt := rfl
@[simp] theorem Group.closeRegion_stamp (g : Group) : (g.closeRegion).stamp = g.stamp := rfl
@[simp] theorem Group.closeRegion_admitted (g : Group) : (g.closeRegion).admitted = g.admitted := rfl
@[simp] theorem Group.goto_gid (g : Group) (t : Nat) : (g.goto t).gid = g.gid := rfl
@[simp] theorem Group.goto_team (g : Group) (t : Nat) : (g.goto t).team = g.team := rfl
@[simp] theorem Group.goto_launch (g : Group) (t : Nat) : (g.goto t).launch = g.launch := rfl
@[simp] theorem Group.goto_part (g : Group) (t : Nat) : (g.goto t).part = g.part := rfl
@[simp] theorem Group.goto_groupId (g : Group) (t : Nat) : (g.goto t).groupId = g.groupId := rfl
@[simp] theorem Group.goto_width (g : Group) (t : Nat) : (g.goto t).width = g.width := rfl
@[simp] theorem Group.goto_core (g : Group) (t : Nat) : (g.goto t).core = g.core := rfl
@[simp] theorem Group.goto_quadrant (g : Group) (t : Nat) : (g.goto t).quadrant = g.quadrant := rfl
@[simp] theorem Group.goto_slot (g : Group) (t : Nat) : (g.goto t).slot = g.slot := rfl
@[simp] theorem Group.goto_life (g : Group) (t : Nat) : (g.goto t).life = g.life := rfl
@[simp] theorem Group.goto_hold (g : Group) (t : Nat) : (g.goto t).hold = g.hold := rfl
@[simp] theorem Group.goto_active (g : Group) (t : Nat) : (g.goto t).active = g.active := rfl
@[simp] theorem Group.goto_live (g : Group) (t : Nat) : (g.goto t).live = g.live := rfl
@[simp] theorem Group.goto_dead (g : Group) (t : Nat) : (g.goto t).dead = g.dead := rfl
@[simp] theorem Group.goto_sregs (g : Group) (t : Nat) : (g.goto t).sregs = g.sregs := rfl
@[simp] theorem Group.goto_preds (g : Group) (t : Nat) : (g.goto t).preds = g.preds := rfl
@[simp] theorem Group.goto_cur (g : Group) (t : Nat) : (g.goto t).cur = g.cur := rfl
@[simp] theorem Group.goto_ent (g : Group) (t : Nat) : (g.goto t).ent = g.ent := rfl
@[simp] theorem Group.goto_pregs (g : Group) (t : Nat) : (g.goto t).pregs = g.pregs := rfl
@[simp] theorem Group.goto_nextPid (g : Group) (t : Nat) : (g.goto t).nextPid = g.nextPid := rfl
@[simp] theorem Group.goto_resv (g : Group) (t : Nat) : (g.goto t).resv = g.resv := rfl
@[simp] theorem Group.goto_stack (g : Group) (t : Nat) : (g.goto t).stack = g.stack := rfl
@[simp] theorem Group.goto_sig (g : Group) (t : Nat) : (g.goto t).sig = g.sig := rfl
@[simp] theorem Group.goto_po (g : Group) (t : Nat) : (g.goto t).po = g.po := rfl
@[simp] theorem Group.goto_poFirst (g : Group) (t : Nat) : (g.goto t).poFirst = g.poFirst := rfl
@[simp] theorem Group.goto_depths (g : Group) (t : Nat) : (g.goto t).depths = g.depths := rfl
@[simp] theorem Group.goto_fflags (g : Group) (t : Nat) : (g.goto t).fflags = g.fflags := rfl
@[simp] theorem Group.goto_replays (g : Group) (t : Nat) : (g.goto t).replays = g.replays := rfl
@[simp] theorem Group.goto_regionStart (g : Group) (t : Nat) : (g.goto t).regionStart = g.regionStart := rfl
@[simp] theorem Group.goto_regionFresh (g : Group) (t : Nat) : (g.goto t).regionFresh = g.regionFresh := rfl
@[simp] theorem Group.goto_regionReads (g : Group) (t : Nat) : (g.goto t).regionReads = g.regionReads := rfl
@[simp] theorem Group.goto_sigFailed (g : Group) (t : Nat) : (g.goto t).sigFailed = g.sigFailed := rfl
@[simp] theorem Group.goto_ckpt (g : Group) (t : Nat) : (g.goto t).ckpt = g.ckpt := rfl
@[simp] theorem Group.goto_outst (g : Group) (t : Nat) : (g.goto t).outst = g.outst := rfl
@[simp] theorem Group.goto_fences (g : Group) (t : Nat) : (g.goto t).fences = g.fences := rfl
@[simp] theorem Group.goto_xfences (g : Group) (t : Nat) : (g.goto t).xfences = g.xfences := rfl
@[simp] theorem Group.goto_retryAt (g : Group) (t : Nat) : (g.goto t).retryAt = g.retryAt := rfl
@[simp] theorem Group.goto_stamp (g : Group) (t : Nat) : (g.goto t).stamp = g.stamp := rfl
@[simp] theorem Group.goto_admitted (g : Group) (t : Nat) : (g.goto t).admitted = g.admitted := rfl
@[simp] theorem Group.setS_gid (g : Group) (now r : Nat) (v : Word) (b : Bool) : (g.setS now r v b).gid = g.gid := by
  unfold Group.setS; split <;> rfl
@[simp] theorem Group.setS_team (g : Group) (now r : Nat) (v : Word) (b : Bool) : (g.setS now r v b).team = g.team := by
  unfold Group.setS; split <;> rfl
@[simp] theorem Group.setS_launch (g : Group) (now r : Nat) (v : Word) (b : Bool) : (g.setS now r v b).launch = g.launch := by
  unfold Group.setS; split <;> rfl
@[simp] theorem Group.setS_part (g : Group) (now r : Nat) (v : Word) (b : Bool) : (g.setS now r v b).part = g.part := by
  unfold Group.setS; split <;> rfl
@[simp] theorem Group.setS_groupId (g : Group) (now r : Nat) (v : Word) (b : Bool) : (g.setS now r v b).groupId = g.groupId := by
  unfold Group.setS; split <;> rfl
@[simp] theorem Group.setS_width (g : Group) (now r : Nat) (v : Word) (b : Bool) : (g.setS now r v b).width = g.width := by
  unfold Group.setS; split <;> rfl
@[simp] theorem Group.setS_core (g : Group) (now r : Nat) (v : Word) (b : Bool) : (g.setS now r v b).core = g.core := by
  unfold Group.setS; split <;> rfl
@[simp] theorem Group.setS_quadrant (g : Group) (now r : Nat) (v : Word) (b : Bool) : (g.setS now r v b).quadrant = g.quadrant := by
  unfold Group.setS; split <;> rfl
@[simp] theorem Group.setS_slot (g : Group) (now r : Nat) (v : Word) (b : Bool) : (g.setS now r v b).slot = g.slot := by
  unfold Group.setS; split <;> rfl
@[simp] theorem Group.setS_life (g : Group) (now r : Nat) (v : Word) (b : Bool) : (g.setS now r v b).life = g.life := by
  unfold Group.setS; split <;> rfl
@[simp] theorem Group.setS_hold (g : Group) (now r : Nat) (v : Word) (b : Bool) : (g.setS now r v b).hold = g.hold := by
  unfold Group.setS; split <;> rfl
@[simp] theorem Group.setS_pc (g : Group) (now r : Nat) (v : Word) (b : Bool) : (g.setS now r v b).pc = g.pc := by
  unfold Group.setS; split <;> rfl
@[simp] theorem Group.setS_active (g : Group) (now r : Nat) (v : Word) (b : Bool) : (g.setS now r v b).active = g.active := by
  unfold Group.setS; split <;> rfl
@[simp] theorem Group.setS_live (g : Group) (now r : Nat) (v : Word) (b : Bool) : (g.setS now r v b).live = g.live := by
  unfold Group.setS; split <;> rfl
@[simp] theorem Group.setS_dead (g : Group) (now r : Nat) (v : Word) (b : Bool) : (g.setS now r v b).dead = g.dead := by
  unfold Group.setS; split <;> rfl
@[simp] theorem Group.setS_preds (g : Group) (now r : Nat) (v : Word) (b : Bool) : (g.setS now r v b).preds = g.preds := by
  unfold Group.setS; split <;> rfl
@[simp] theorem Group.setS_cur (g : Group) (now r : Nat) (v : Word) (b : Bool) : (g.setS now r v b).cur = g.cur := by
  unfold Group.setS; split <;> rfl
@[simp] theorem Group.setS_ent (g : Group) (now r : Nat) (v : Word) (b : Bool) : (g.setS now r v b).ent = g.ent := by
  unfold Group.setS; split <;> rfl
@[simp] theorem Group.setS_pregs (g : Group) (now r : Nat) (v : Word) (b : Bool) : (g.setS now r v b).pregs = g.pregs := by
  unfold Group.setS; split <;> rfl
@[simp] theorem Group.setS_nextPid (g : Group) (now r : Nat) (v : Word) (b : Bool) : (g.setS now r v b).nextPid = g.nextPid := by
  unfold Group.setS; split <;> rfl
@[simp] theorem Group.setS_resv (g : Group) (now r : Nat) (v : Word) (b : Bool) : (g.setS now r v b).resv = g.resv := by
  unfold Group.setS; split <;> rfl
@[simp] theorem Group.setS_stack (g : Group) (now r : Nat) (v : Word) (b : Bool) : (g.setS now r v b).stack = g.stack := by
  unfold Group.setS; split <;> rfl
@[simp] theorem Group.setS_sig (g : Group) (now r : Nat) (v : Word) (b : Bool) : (g.setS now r v b).sig = g.sig := by
  unfold Group.setS; split <;> rfl
@[simp] theorem Group.setS_taken (g : Group) (now r : Nat) (v : Word) (b : Bool) : (g.setS now r v b).taken = g.taken := by
  unfold Group.setS; split <;> rfl
@[simp] theorem Group.setS_po (g : Group) (now r : Nat) (v : Word) (b : Bool) : (g.setS now r v b).po = g.po := by
  unfold Group.setS; split <;> rfl
@[simp] theorem Group.setS_poFirst (g : Group) (now r : Nat) (v : Word) (b : Bool) : (g.setS now r v b).poFirst = g.poFirst := by
  unfold Group.setS; split <;> rfl
@[simp] theorem Group.setS_depths (g : Group) (now r : Nat) (v : Word) (b : Bool) : (g.setS now r v b).depths = g.depths := by
  unfold Group.setS; split <;> rfl
@[simp] theorem Group.setS_fflags (g : Group) (now r : Nat) (v : Word) (b : Bool) : (g.setS now r v b).fflags = g.fflags := by
  unfold Group.setS; split <;> rfl
@[simp] theorem Group.setS_replays (g : Group) (now r : Nat) (v : Word) (b : Bool) : (g.setS now r v b).replays = g.replays := by
  unfold Group.setS; split <;> rfl
@[simp] theorem Group.setS_regionStart (g : Group) (now r : Nat) (v : Word) (b : Bool) : (g.setS now r v b).regionStart = g.regionStart := by
  unfold Group.setS; split <;> rfl
@[simp] theorem Group.setS_regionFresh (g : Group) (now r : Nat) (v : Word) (b : Bool) : (g.setS now r v b).regionFresh = g.regionFresh := by
  unfold Group.setS; split <;> rfl
@[simp] theorem Group.setS_regionReads (g : Group) (now r : Nat) (v : Word) (b : Bool) : (g.setS now r v b).regionReads = g.regionReads := by
  unfold Group.setS; split <;> rfl
@[simp] theorem Group.setS_sigFailed (g : Group) (now r : Nat) (v : Word) (b : Bool) : (g.setS now r v b).sigFailed = g.sigFailed := by
  unfold Group.setS; split <;> rfl
@[simp] theorem Group.setS_ckpt (g : Group) (now r : Nat) (v : Word) (b : Bool) : (g.setS now r v b).ckpt = g.ckpt := by
  unfold Group.setS; split <;> rfl
@[simp] theorem Group.setS_outst (g : Group) (now r : Nat) (v : Word) (b : Bool) : (g.setS now r v b).outst = g.outst := by
  unfold Group.setS; split <;> rfl
@[simp] theorem Group.setS_fences (g : Group) (now r : Nat) (v : Word) (b : Bool) : (g.setS now r v b).fences = g.fences := by
  unfold Group.setS; split <;> rfl
@[simp] theorem Group.setS_xfences (g : Group) (now r : Nat) (v : Word) (b : Bool) : (g.setS now r v b).xfences = g.xfences := by
  unfold Group.setS; split <;> rfl
@[simp] theorem Group.setS_retryAt (g : Group) (now r : Nat) (v : Word) (b : Bool) : (g.setS now r v b).retryAt = g.retryAt := by
  unfold Group.setS; split <;> rfl
@[simp] theorem Group.setS_stamp (g : Group) (now r : Nat) (v : Word) (b : Bool) : (g.setS now r v b).stamp = g.stamp := by
  unfold Group.setS; split <;> rfl
@[simp] theorem Group.setS_admitted (g : Group) (now r : Nat) (v : Word) (b : Bool) : (g.setS now r v b).admitted = g.admitted := by
  unfold Group.setS; split <;> rfl
@[simp] theorem Group.emptyS_gid (g : Group) (r : Nat) : (g.emptyS r).gid = g.gid := by
  unfold Group.emptyS; split <;> rfl
@[simp] theorem Group.emptyS_team (g : Group) (r : Nat) : (g.emptyS r).team = g.team := by
  unfold Group.emptyS; split <;> rfl
@[simp] theorem Group.emptyS_launch (g : Group) (r : Nat) : (g.emptyS r).launch = g.launch := by
  unfold Group.emptyS; split <;> rfl
@[simp] theorem Group.emptyS_part (g : Group) (r : Nat) : (g.emptyS r).part = g.part := by
  unfold Group.emptyS; split <;> rfl
@[simp] theorem Group.emptyS_groupId (g : Group) (r : Nat) : (g.emptyS r).groupId = g.groupId := by
  unfold Group.emptyS; split <;> rfl
@[simp] theorem Group.emptyS_width (g : Group) (r : Nat) : (g.emptyS r).width = g.width := by
  unfold Group.emptyS; split <;> rfl
@[simp] theorem Group.emptyS_core (g : Group) (r : Nat) : (g.emptyS r).core = g.core := by
  unfold Group.emptyS; split <;> rfl
@[simp] theorem Group.emptyS_quadrant (g : Group) (r : Nat) : (g.emptyS r).quadrant = g.quadrant := by
  unfold Group.emptyS; split <;> rfl
@[simp] theorem Group.emptyS_slot (g : Group) (r : Nat) : (g.emptyS r).slot = g.slot := by
  unfold Group.emptyS; split <;> rfl
@[simp] theorem Group.emptyS_life (g : Group) (r : Nat) : (g.emptyS r).life = g.life := by
  unfold Group.emptyS; split <;> rfl
@[simp] theorem Group.emptyS_hold (g : Group) (r : Nat) : (g.emptyS r).hold = g.hold := by
  unfold Group.emptyS; split <;> rfl
@[simp] theorem Group.emptyS_pc (g : Group) (r : Nat) : (g.emptyS r).pc = g.pc := by
  unfold Group.emptyS; split <;> rfl
@[simp] theorem Group.emptyS_active (g : Group) (r : Nat) : (g.emptyS r).active = g.active := by
  unfold Group.emptyS; split <;> rfl
@[simp] theorem Group.emptyS_live (g : Group) (r : Nat) : (g.emptyS r).live = g.live := by
  unfold Group.emptyS; split <;> rfl
@[simp] theorem Group.emptyS_dead (g : Group) (r : Nat) : (g.emptyS r).dead = g.dead := by
  unfold Group.emptyS; split <;> rfl
@[simp] theorem Group.emptyS_preds (g : Group) (r : Nat) : (g.emptyS r).preds = g.preds := by
  unfold Group.emptyS; split <;> rfl
@[simp] theorem Group.emptyS_cur (g : Group) (r : Nat) : (g.emptyS r).cur = g.cur := by
  unfold Group.emptyS; split <;> rfl
@[simp] theorem Group.emptyS_ent (g : Group) (r : Nat) : (g.emptyS r).ent = g.ent := by
  unfold Group.emptyS; split <;> rfl
@[simp] theorem Group.emptyS_pregs (g : Group) (r : Nat) : (g.emptyS r).pregs = g.pregs := by
  unfold Group.emptyS; split <;> rfl
@[simp] theorem Group.emptyS_nextPid (g : Group) (r : Nat) : (g.emptyS r).nextPid = g.nextPid := by
  unfold Group.emptyS; split <;> rfl
@[simp] theorem Group.emptyS_resv (g : Group) (r : Nat) : (g.emptyS r).resv = g.resv := by
  unfold Group.emptyS; split <;> rfl
@[simp] theorem Group.emptyS_stack (g : Group) (r : Nat) : (g.emptyS r).stack = g.stack := by
  unfold Group.emptyS; split <;> rfl
@[simp] theorem Group.emptyS_sig (g : Group) (r : Nat) : (g.emptyS r).sig = g.sig := by
  unfold Group.emptyS; split <;> rfl
@[simp] theorem Group.emptyS_taken (g : Group) (r : Nat) : (g.emptyS r).taken = g.taken := by
  unfold Group.emptyS; split <;> rfl
@[simp] theorem Group.emptyS_po (g : Group) (r : Nat) : (g.emptyS r).po = g.po := by
  unfold Group.emptyS; split <;> rfl
@[simp] theorem Group.emptyS_poFirst (g : Group) (r : Nat) : (g.emptyS r).poFirst = g.poFirst := by
  unfold Group.emptyS; split <;> rfl
@[simp] theorem Group.emptyS_depths (g : Group) (r : Nat) : (g.emptyS r).depths = g.depths := by
  unfold Group.emptyS; split <;> rfl
@[simp] theorem Group.emptyS_fflags (g : Group) (r : Nat) : (g.emptyS r).fflags = g.fflags := by
  unfold Group.emptyS; split <;> rfl
@[simp] theorem Group.emptyS_replays (g : Group) (r : Nat) : (g.emptyS r).replays = g.replays := by
  unfold Group.emptyS; split <;> rfl
@[simp] theorem Group.emptyS_regionStart (g : Group) (r : Nat) : (g.emptyS r).regionStart = g.regionStart := by
  unfold Group.emptyS; split <;> rfl
@[simp] theorem Group.emptyS_regionFresh (g : Group) (r : Nat) : (g.emptyS r).regionFresh = g.regionFresh := by
  unfold Group.emptyS; split <;> rfl
@[simp] theorem Group.emptyS_regionReads (g : Group) (r : Nat) : (g.emptyS r).regionReads = g.regionReads := by
  unfold Group.emptyS; split <;> rfl
@[simp] theorem Group.emptyS_sigFailed (g : Group) (r : Nat) : (g.emptyS r).sigFailed = g.sigFailed := by
  unfold Group.emptyS; split <;> rfl
@[simp] theorem Group.emptyS_ckpt (g : Group) (r : Nat) : (g.emptyS r).ckpt = g.ckpt := by
  unfold Group.emptyS; split <;> rfl
@[simp] theorem Group.emptyS_outst (g : Group) (r : Nat) : (g.emptyS r).outst = g.outst := by
  unfold Group.emptyS; split <;> rfl
@[simp] theorem Group.emptyS_fences (g : Group) (r : Nat) : (g.emptyS r).fences = g.fences := by
  unfold Group.emptyS; split <;> rfl
@[simp] theorem Group.emptyS_xfences (g : Group) (r : Nat) : (g.emptyS r).xfences = g.xfences := by
  unfold Group.emptyS; split <;> rfl
@[simp] theorem Group.emptyS_retryAt (g : Group) (r : Nat) : (g.emptyS r).retryAt = g.retryAt := by
  unfold Group.emptyS; split <;> rfl
@[simp] theorem Group.emptyS_stamp (g : Group) (r : Nat) : (g.emptyS r).stamp = g.stamp := by
  unfold Group.emptyS; split <;> rfl
@[simp] theorem Group.emptyS_admitted (g : Group) (r : Nat) : (g.emptyS r).admitted = g.admitted := by
  unfold Group.emptyS; split <;> rfl
@[simp] theorem Group.prepare_gid (g : Group) (now : Nat) (k : LaneMask) (b : Lane) (n : Nat) : (g.prepare now k b n).gid = g.gid := by
  unfold Group.prepare; split <;> rfl
@[simp] theorem Group.prepare_team (g : Group) (now : Nat) (k : LaneMask) (b : Lane) (n : Nat) : (g.prepare now k b n).team = g.team := by
  unfold Group.prepare; split <;> rfl
@[simp] theorem Group.prepare_launch (g : Group) (now : Nat) (k : LaneMask) (b : Lane) (n : Nat) : (g.prepare now k b n).launch = g.launch := by
  unfold Group.prepare; split <;> rfl
@[simp] theorem Group.prepare_part (g : Group) (now : Nat) (k : LaneMask) (b : Lane) (n : Nat) : (g.prepare now k b n).part = g.part := by
  unfold Group.prepare; split <;> rfl
@[simp] theorem Group.prepare_groupId (g : Group) (now : Nat) (k : LaneMask) (b : Lane) (n : Nat) : (g.prepare now k b n).groupId = g.groupId := by
  unfold Group.prepare; split <;> rfl
@[simp] theorem Group.prepare_width (g : Group) (now : Nat) (k : LaneMask) (b : Lane) (n : Nat) : (g.prepare now k b n).width = g.width := by
  unfold Group.prepare; split <;> rfl
@[simp] theorem Group.prepare_core (g : Group) (now : Nat) (k : LaneMask) (b : Lane) (n : Nat) : (g.prepare now k b n).core = g.core := by
  unfold Group.prepare; split <;> rfl
@[simp] theorem Group.prepare_quadrant (g : Group) (now : Nat) (k : LaneMask) (b : Lane) (n : Nat) : (g.prepare now k b n).quadrant = g.quadrant := by
  unfold Group.prepare; split <;> rfl
@[simp] theorem Group.prepare_slot (g : Group) (now : Nat) (k : LaneMask) (b : Lane) (n : Nat) : (g.prepare now k b n).slot = g.slot := by
  unfold Group.prepare; split <;> rfl
@[simp] theorem Group.prepare_life (g : Group) (now : Nat) (k : LaneMask) (b : Lane) (n : Nat) : (g.prepare now k b n).life = g.life := by
  unfold Group.prepare; split <;> rfl
@[simp] theorem Group.prepare_hold (g : Group) (now : Nat) (k : LaneMask) (b : Lane) (n : Nat) : (g.prepare now k b n).hold = g.hold := by
  unfold Group.prepare; split <;> rfl
@[simp] theorem Group.prepare_pc (g : Group) (now : Nat) (k : LaneMask) (b : Lane) (n : Nat) : (g.prepare now k b n).pc = g.pc := by
  unfold Group.prepare; split <;> rfl
@[simp] theorem Group.prepare_active (g : Group) (now : Nat) (k : LaneMask) (b : Lane) (n : Nat) : (g.prepare now k b n).active = g.active := by
  unfold Group.prepare; split <;> rfl
@[simp] theorem Group.prepare_live (g : Group) (now : Nat) (k : LaneMask) (b : Lane) (n : Nat) : (g.prepare now k b n).live = g.live := by
  unfold Group.prepare; split <;> rfl
@[simp] theorem Group.prepare_dead (g : Group) (now : Nat) (k : LaneMask) (b : Lane) (n : Nat) : (g.prepare now k b n).dead = g.dead := by
  unfold Group.prepare; split <;> rfl
@[simp] theorem Group.prepare_sregs (g : Group) (now : Nat) (k : LaneMask) (b : Lane) (n : Nat) : (g.prepare now k b n).sregs = g.sregs := by
  unfold Group.prepare; split <;> rfl
@[simp] theorem Group.prepare_preds (g : Group) (now : Nat) (k : LaneMask) (b : Lane) (n : Nat) : (g.prepare now k b n).preds = g.preds := by
  unfold Group.prepare; split <;> rfl
@[simp] theorem Group.prepare_ent (g : Group) (now : Nat) (k : LaneMask) (b : Lane) (n : Nat) : (g.prepare now k b n).ent = g.ent := by
  unfold Group.prepare; split <;> rfl
@[simp] theorem Group.prepare_resv (g : Group) (now : Nat) (k : LaneMask) (b : Lane) (n : Nat) : (g.prepare now k b n).resv = g.resv := by
  unfold Group.prepare; split <;> rfl
@[simp] theorem Group.prepare_stack (g : Group) (now : Nat) (k : LaneMask) (b : Lane) (n : Nat) : (g.prepare now k b n).stack = g.stack := by
  unfold Group.prepare; split <;> rfl
@[simp] theorem Group.prepare_sig (g : Group) (now : Nat) (k : LaneMask) (b : Lane) (n : Nat) : (g.prepare now k b n).sig = g.sig := by
  unfold Group.prepare; split <;> rfl
@[simp] theorem Group.prepare_taken (g : Group) (now : Nat) (k : LaneMask) (b : Lane) (n : Nat) : (g.prepare now k b n).taken = g.taken := by
  unfold Group.prepare; split <;> rfl
@[simp] theorem Group.prepare_po (g : Group) (now : Nat) (k : LaneMask) (b : Lane) (n : Nat) : (g.prepare now k b n).po = g.po := by
  unfold Group.prepare; split <;> rfl
@[simp] theorem Group.prepare_poFirst (g : Group) (now : Nat) (k : LaneMask) (b : Lane) (n : Nat) : (g.prepare now k b n).poFirst = g.poFirst := by
  unfold Group.prepare; split <;> rfl
@[simp] theorem Group.prepare_depths (g : Group) (now : Nat) (k : LaneMask) (b : Lane) (n : Nat) : (g.prepare now k b n).depths = g.depths := by
  unfold Group.prepare; split <;> rfl
@[simp] theorem Group.prepare_fflags (g : Group) (now : Nat) (k : LaneMask) (b : Lane) (n : Nat) : (g.prepare now k b n).fflags = g.fflags := by
  unfold Group.prepare; split <;> rfl
@[simp] theorem Group.prepare_replays (g : Group) (now : Nat) (k : LaneMask) (b : Lane) (n : Nat) : (g.prepare now k b n).replays = g.replays := by
  unfold Group.prepare; split <;> rfl
@[simp] theorem Group.prepare_regionStart (g : Group) (now : Nat) (k : LaneMask) (b : Lane) (n : Nat) : (g.prepare now k b n).regionStart = g.regionStart := by
  unfold Group.prepare; split <;> rfl
@[simp] theorem Group.prepare_regionFresh (g : Group) (now : Nat) (k : LaneMask) (b : Lane) (n : Nat) : (g.prepare now k b n).regionFresh = g.regionFresh := by
  unfold Group.prepare; split <;> rfl
@[simp] theorem Group.prepare_regionReads (g : Group) (now : Nat) (k : LaneMask) (b : Lane) (n : Nat) : (g.prepare now k b n).regionReads = g.regionReads := by
  unfold Group.prepare; split <;> rfl
@[simp] theorem Group.prepare_sigFailed (g : Group) (now : Nat) (k : LaneMask) (b : Lane) (n : Nat) : (g.prepare now k b n).sigFailed = g.sigFailed := by
  unfold Group.prepare; split <;> rfl
@[simp] theorem Group.prepare_ckpt (g : Group) (now : Nat) (k : LaneMask) (b : Lane) (n : Nat) : (g.prepare now k b n).ckpt = g.ckpt := by
  unfold Group.prepare; split <;> rfl
@[simp] theorem Group.prepare_outst (g : Group) (now : Nat) (k : LaneMask) (b : Lane) (n : Nat) : (g.prepare now k b n).outst = g.outst := by
  unfold Group.prepare; split <;> rfl
@[simp] theorem Group.prepare_fences (g : Group) (now : Nat) (k : LaneMask) (b : Lane) (n : Nat) : (g.prepare now k b n).fences = g.fences := by
  unfold Group.prepare; split <;> rfl
@[simp] theorem Group.prepare_xfences (g : Group) (now : Nat) (k : LaneMask) (b : Lane) (n : Nat) : (g.prepare now k b n).xfences = g.xfences := by
  unfold Group.prepare; split <;> rfl
@[simp] theorem Group.prepare_retryAt (g : Group) (now : Nat) (k : LaneMask) (b : Lane) (n : Nat) : (g.prepare now k b n).retryAt = g.retryAt := by
  unfold Group.prepare; split <;> rfl
@[simp] theorem Group.prepare_stamp (g : Group) (now : Nat) (k : LaneMask) (b : Lane) (n : Nat) : (g.prepare now k b n).stamp = g.stamp := by
  unfold Group.prepare; split <;> rfl
@[simp] theorem Group.prepare_admitted (g : Group) (now : Nat) (k : LaneMask) (b : Lane) (n : Nat) : (g.prepare now k b n).admitted = g.admitted := by
  unfold Group.prepare; split <;> rfl
@[simp] theorem Group.writeV_gid (g : Group) (n : Nat) (e : LaneMask) (f : Nat → Lane) (t : BitVec 4) (r : Nat) (k : Lane) : (g.writeV n e f t r k).gid = g.gid := by
  unfold Group.writeV; split <;> rfl
@[simp] theorem Group.writeV_team (g : Group) (n : Nat) (e : LaneMask) (f : Nat → Lane) (t : BitVec 4) (r : Nat) (k : Lane) : (g.writeV n e f t r k).team = g.team := by
  unfold Group.writeV; split <;> rfl
@[simp] theorem Group.writeV_launch (g : Group) (n : Nat) (e : LaneMask) (f : Nat → Lane) (t : BitVec 4) (r : Nat) (k : Lane) : (g.writeV n e f t r k).launch = g.launch := by
  unfold Group.writeV; split <;> rfl
@[simp] theorem Group.writeV_part (g : Group) (n : Nat) (e : LaneMask) (f : Nat → Lane) (t : BitVec 4) (r : Nat) (k : Lane) : (g.writeV n e f t r k).part = g.part := by
  unfold Group.writeV; split <;> rfl
@[simp] theorem Group.writeV_groupId (g : Group) (n : Nat) (e : LaneMask) (f : Nat → Lane) (t : BitVec 4) (r : Nat) (k : Lane) : (g.writeV n e f t r k).groupId = g.groupId := by
  unfold Group.writeV; split <;> rfl
@[simp] theorem Group.writeV_width (g : Group) (n : Nat) (e : LaneMask) (f : Nat → Lane) (t : BitVec 4) (r : Nat) (k : Lane) : (g.writeV n e f t r k).width = g.width := by
  unfold Group.writeV; split <;> rfl
@[simp] theorem Group.writeV_core (g : Group) (n : Nat) (e : LaneMask) (f : Nat → Lane) (t : BitVec 4) (r : Nat) (k : Lane) : (g.writeV n e f t r k).core = g.core := by
  unfold Group.writeV; split <;> rfl
@[simp] theorem Group.writeV_quadrant (g : Group) (n : Nat) (e : LaneMask) (f : Nat → Lane) (t : BitVec 4) (r : Nat) (k : Lane) : (g.writeV n e f t r k).quadrant = g.quadrant := by
  unfold Group.writeV; split <;> rfl
@[simp] theorem Group.writeV_slot (g : Group) (n : Nat) (e : LaneMask) (f : Nat → Lane) (t : BitVec 4) (r : Nat) (k : Lane) : (g.writeV n e f t r k).slot = g.slot := by
  unfold Group.writeV; split <;> rfl
@[simp] theorem Group.writeV_life (g : Group) (n : Nat) (e : LaneMask) (f : Nat → Lane) (t : BitVec 4) (r : Nat) (k : Lane) : (g.writeV n e f t r k).life = g.life := by
  unfold Group.writeV; split <;> rfl
@[simp] theorem Group.writeV_hold (g : Group) (n : Nat) (e : LaneMask) (f : Nat → Lane) (t : BitVec 4) (r : Nat) (k : Lane) : (g.writeV n e f t r k).hold = g.hold := by
  unfold Group.writeV; split <;> rfl
@[simp] theorem Group.writeV_pc (g : Group) (n : Nat) (e : LaneMask) (f : Nat → Lane) (t : BitVec 4) (r : Nat) (k : Lane) : (g.writeV n e f t r k).pc = g.pc := by
  unfold Group.writeV; split <;> rfl
@[simp] theorem Group.writeV_active (g : Group) (n : Nat) (e : LaneMask) (f : Nat → Lane) (t : BitVec 4) (r : Nat) (k : Lane) : (g.writeV n e f t r k).active = g.active := by
  unfold Group.writeV; split <;> rfl
@[simp] theorem Group.writeV_live (g : Group) (n : Nat) (e : LaneMask) (f : Nat → Lane) (t : BitVec 4) (r : Nat) (k : Lane) : (g.writeV n e f t r k).live = g.live := by
  unfold Group.writeV; split <;> rfl
@[simp] theorem Group.writeV_dead (g : Group) (n : Nat) (e : LaneMask) (f : Nat → Lane) (t : BitVec 4) (r : Nat) (k : Lane) : (g.writeV n e f t r k).dead = g.dead := by
  unfold Group.writeV; split <;> rfl
@[simp] theorem Group.writeV_sregs (g : Group) (n : Nat) (e : LaneMask) (f : Nat → Lane) (t : BitVec 4) (r : Nat) (k : Lane) : (g.writeV n e f t r k).sregs = g.sregs := by
  unfold Group.writeV; split <;> rfl
@[simp] theorem Group.writeV_preds (g : Group) (n : Nat) (e : LaneMask) (f : Nat → Lane) (t : BitVec 4) (r : Nat) (k : Lane) : (g.writeV n e f t r k).preds = g.preds := by
  unfold Group.writeV; split <;> rfl
@[simp] theorem Group.writeV_cur (g : Group) (n : Nat) (e : LaneMask) (f : Nat → Lane) (t : BitVec 4) (r : Nat) (k : Lane) : (g.writeV n e f t r k).cur = g.cur := by
  unfold Group.writeV; split <;> rfl
@[simp] theorem Group.writeV_ent (g : Group) (n : Nat) (e : LaneMask) (f : Nat → Lane) (t : BitVec 4) (r : Nat) (k : Lane) : (g.writeV n e f t r k).ent = g.ent := by
  unfold Group.writeV; split <;> rfl
@[simp] theorem Group.writeV_nextPid (g : Group) (n : Nat) (e : LaneMask) (f : Nat → Lane) (t : BitVec 4) (r : Nat) (k : Lane) : (g.writeV n e f t r k).nextPid = g.nextPid := by
  unfold Group.writeV; split <;> rfl
@[simp] theorem Group.writeV_resv (g : Group) (n : Nat) (e : LaneMask) (f : Nat → Lane) (t : BitVec 4) (r : Nat) (k : Lane) : (g.writeV n e f t r k).resv = g.resv := by
  unfold Group.writeV; split <;> rfl
@[simp] theorem Group.writeV_stack (g : Group) (n : Nat) (e : LaneMask) (f : Nat → Lane) (t : BitVec 4) (r : Nat) (k : Lane) : (g.writeV n e f t r k).stack = g.stack := by
  unfold Group.writeV; split <;> rfl
@[simp] theorem Group.writeV_sig (g : Group) (n : Nat) (e : LaneMask) (f : Nat → Lane) (t : BitVec 4) (r : Nat) (k : Lane) : (g.writeV n e f t r k).sig = g.sig := by
  unfold Group.writeV; split <;> rfl
@[simp] theorem Group.writeV_taken (g : Group) (n : Nat) (e : LaneMask) (f : Nat → Lane) (t : BitVec 4) (r : Nat) (k : Lane) : (g.writeV n e f t r k).taken = g.taken := by
  unfold Group.writeV; split <;> rfl
@[simp] theorem Group.writeV_po (g : Group) (n : Nat) (e : LaneMask) (f : Nat → Lane) (t : BitVec 4) (r : Nat) (k : Lane) : (g.writeV n e f t r k).po = g.po := by
  unfold Group.writeV; split <;> rfl
@[simp] theorem Group.writeV_poFirst (g : Group) (n : Nat) (e : LaneMask) (f : Nat → Lane) (t : BitVec 4) (r : Nat) (k : Lane) : (g.writeV n e f t r k).poFirst = g.poFirst := by
  unfold Group.writeV; split <;> rfl
@[simp] theorem Group.writeV_depths (g : Group) (n : Nat) (e : LaneMask) (f : Nat → Lane) (t : BitVec 4) (r : Nat) (k : Lane) : (g.writeV n e f t r k).depths = g.depths := by
  unfold Group.writeV; split <;> rfl
@[simp] theorem Group.writeV_fflags (g : Group) (n : Nat) (e : LaneMask) (f : Nat → Lane) (t : BitVec 4) (r : Nat) (k : Lane) : (g.writeV n e f t r k).fflags = g.fflags := by
  unfold Group.writeV; split <;> rfl
@[simp] theorem Group.writeV_replays (g : Group) (n : Nat) (e : LaneMask) (f : Nat → Lane) (t : BitVec 4) (r : Nat) (k : Lane) : (g.writeV n e f t r k).replays = g.replays := by
  unfold Group.writeV; split <;> rfl
@[simp] theorem Group.writeV_regionStart (g : Group) (n : Nat) (e : LaneMask) (f : Nat → Lane) (t : BitVec 4) (r : Nat) (k : Lane) : (g.writeV n e f t r k).regionStart = g.regionStart := by
  unfold Group.writeV; split <;> rfl
@[simp] theorem Group.writeV_regionFresh (g : Group) (n : Nat) (e : LaneMask) (f : Nat → Lane) (t : BitVec 4) (r : Nat) (k : Lane) : (g.writeV n e f t r k).regionFresh = g.regionFresh := by
  unfold Group.writeV; split <;> rfl
@[simp] theorem Group.writeV_regionReads (g : Group) (n : Nat) (e : LaneMask) (f : Nat → Lane) (t : BitVec 4) (r : Nat) (k : Lane) : (g.writeV n e f t r k).regionReads = g.regionReads := by
  unfold Group.writeV; split <;> rfl
@[simp] theorem Group.writeV_sigFailed (g : Group) (n : Nat) (e : LaneMask) (f : Nat → Lane) (t : BitVec 4) (r : Nat) (k : Lane) : (g.writeV n e f t r k).sigFailed = g.sigFailed := by
  unfold Group.writeV; split <;> rfl
@[simp] theorem Group.writeV_ckpt (g : Group) (n : Nat) (e : LaneMask) (f : Nat → Lane) (t : BitVec 4) (r : Nat) (k : Lane) : (g.writeV n e f t r k).ckpt = g.ckpt := by
  unfold Group.writeV; split <;> rfl
@[simp] theorem Group.writeV_outst (g : Group) (n : Nat) (e : LaneMask) (f : Nat → Lane) (t : BitVec 4) (r : Nat) (k : Lane) : (g.writeV n e f t r k).outst = g.outst := by
  unfold Group.writeV; split <;> rfl
@[simp] theorem Group.writeV_fences (g : Group) (n : Nat) (e : LaneMask) (f : Nat → Lane) (t : BitVec 4) (r : Nat) (k : Lane) : (g.writeV n e f t r k).fences = g.fences := by
  unfold Group.writeV; split <;> rfl
@[simp] theorem Group.writeV_xfences (g : Group) (n : Nat) (e : LaneMask) (f : Nat → Lane) (t : BitVec 4) (r : Nat) (k : Lane) : (g.writeV n e f t r k).xfences = g.xfences := by
  unfold Group.writeV; split <;> rfl
@[simp] theorem Group.writeV_retryAt (g : Group) (n : Nat) (e : LaneMask) (f : Nat → Lane) (t : BitVec 4) (r : Nat) (k : Lane) : (g.writeV n e f t r k).retryAt = g.retryAt := by
  unfold Group.writeV; split <;> rfl
@[simp] theorem Group.writeV_stamp (g : Group) (n : Nat) (e : LaneMask) (f : Nat → Lane) (t : BitVec 4) (r : Nat) (k : Lane) : (g.writeV n e f t r k).stamp = g.stamp := by
  unfold Group.writeV; split <;> rfl
@[simp] theorem Group.writeV_admitted (g : Group) (n : Nat) (e : LaneMask) (f : Nat → Lane) (t : BitVec 4) (r : Nat) (k : Lane) : (g.writeV n e f t r k).admitted = g.admitted := by
  unfold Group.writeV; split <;> rfl
@[simp] theorem Group.ifEmpty_gid (g : Group) (t : Nat) : (g.ifEmpty t).gid = g.gid := by
  unfold Group.ifEmpty; split <;> rfl
@[simp] theorem Group.ifEmpty_team (g : Group) (t : Nat) : (g.ifEmpty t).team = g.team := by
  unfold Group.ifEmpty; split <;> rfl
@[simp] theorem Group.ifEmpty_launch (g : Group) (t : Nat) : (g.ifEmpty t).launch = g.launch := by
  unfold Group.ifEmpty; split <;> rfl
@[simp] theorem Group.ifEmpty_part (g : Group) (t : Nat) : (g.ifEmpty t).part = g.part := by
  unfold Group.ifEmpty; split <;> rfl
@[simp] theorem Group.ifEmpty_groupId (g : Group) (t : Nat) : (g.ifEmpty t).groupId = g.groupId := by
  unfold Group.ifEmpty; split <;> rfl
@[simp] theorem Group.ifEmpty_width (g : Group) (t : Nat) : (g.ifEmpty t).width = g.width := by
  unfold Group.ifEmpty; split <;> rfl
@[simp] theorem Group.ifEmpty_core (g : Group) (t : Nat) : (g.ifEmpty t).core = g.core := by
  unfold Group.ifEmpty; split <;> rfl
@[simp] theorem Group.ifEmpty_quadrant (g : Group) (t : Nat) : (g.ifEmpty t).quadrant = g.quadrant := by
  unfold Group.ifEmpty; split <;> rfl
@[simp] theorem Group.ifEmpty_slot (g : Group) (t : Nat) : (g.ifEmpty t).slot = g.slot := by
  unfold Group.ifEmpty; split <;> rfl
@[simp] theorem Group.ifEmpty_life (g : Group) (t : Nat) : (g.ifEmpty t).life = g.life := by
  unfold Group.ifEmpty; split <;> rfl
@[simp] theorem Group.ifEmpty_hold (g : Group) (t : Nat) : (g.ifEmpty t).hold = g.hold := by
  unfold Group.ifEmpty; split <;> rfl
@[simp] theorem Group.ifEmpty_active (g : Group) (t : Nat) : (g.ifEmpty t).active = g.active := by
  unfold Group.ifEmpty; split <;> rfl
@[simp] theorem Group.ifEmpty_live (g : Group) (t : Nat) : (g.ifEmpty t).live = g.live := by
  unfold Group.ifEmpty; split <;> rfl
@[simp] theorem Group.ifEmpty_dead (g : Group) (t : Nat) : (g.ifEmpty t).dead = g.dead := by
  unfold Group.ifEmpty; split <;> rfl
@[simp] theorem Group.ifEmpty_sregs (g : Group) (t : Nat) : (g.ifEmpty t).sregs = g.sregs := by
  unfold Group.ifEmpty; split <;> rfl
@[simp] theorem Group.ifEmpty_preds (g : Group) (t : Nat) : (g.ifEmpty t).preds = g.preds := by
  unfold Group.ifEmpty; split <;> rfl
@[simp] theorem Group.ifEmpty_cur (g : Group) (t : Nat) : (g.ifEmpty t).cur = g.cur := by
  unfold Group.ifEmpty; split <;> rfl
@[simp] theorem Group.ifEmpty_ent (g : Group) (t : Nat) : (g.ifEmpty t).ent = g.ent := by
  unfold Group.ifEmpty; split <;> rfl
@[simp] theorem Group.ifEmpty_pregs (g : Group) (t : Nat) : (g.ifEmpty t).pregs = g.pregs := by
  unfold Group.ifEmpty; split <;> rfl
@[simp] theorem Group.ifEmpty_nextPid (g : Group) (t : Nat) : (g.ifEmpty t).nextPid = g.nextPid := by
  unfold Group.ifEmpty; split <;> rfl
@[simp] theorem Group.ifEmpty_resv (g : Group) (t : Nat) : (g.ifEmpty t).resv = g.resv := by
  unfold Group.ifEmpty; split <;> rfl
@[simp] theorem Group.ifEmpty_stack (g : Group) (t : Nat) : (g.ifEmpty t).stack = g.stack := by
  unfold Group.ifEmpty; split <;> rfl
@[simp] theorem Group.ifEmpty_sig (g : Group) (t : Nat) : (g.ifEmpty t).sig = g.sig := by
  unfold Group.ifEmpty; split <;> rfl
@[simp] theorem Group.ifEmpty_po (g : Group) (t : Nat) : (g.ifEmpty t).po = g.po := by
  unfold Group.ifEmpty; split <;> rfl
@[simp] theorem Group.ifEmpty_poFirst (g : Group) (t : Nat) : (g.ifEmpty t).poFirst = g.poFirst := by
  unfold Group.ifEmpty; split <;> rfl
@[simp] theorem Group.ifEmpty_depths (g : Group) (t : Nat) : (g.ifEmpty t).depths = g.depths := by
  unfold Group.ifEmpty; split <;> rfl
@[simp] theorem Group.ifEmpty_fflags (g : Group) (t : Nat) : (g.ifEmpty t).fflags = g.fflags := by
  unfold Group.ifEmpty; split <;> rfl
@[simp] theorem Group.ifEmpty_replays (g : Group) (t : Nat) : (g.ifEmpty t).replays = g.replays := by
  unfold Group.ifEmpty; split <;> rfl
@[simp] theorem Group.ifEmpty_regionStart (g : Group) (t : Nat) : (g.ifEmpty t).regionStart = g.regionStart := by
  unfold Group.ifEmpty; split <;> rfl
@[simp] theorem Group.ifEmpty_regionFresh (g : Group) (t : Nat) : (g.ifEmpty t).regionFresh = g.regionFresh := by
  unfold Group.ifEmpty; split <;> rfl
@[simp] theorem Group.ifEmpty_regionReads (g : Group) (t : Nat) : (g.ifEmpty t).regionReads = g.regionReads := by
  unfold Group.ifEmpty; split <;> rfl
@[simp] theorem Group.ifEmpty_sigFailed (g : Group) (t : Nat) : (g.ifEmpty t).sigFailed = g.sigFailed := by
  unfold Group.ifEmpty; split <;> rfl
@[simp] theorem Group.ifEmpty_ckpt (g : Group) (t : Nat) : (g.ifEmpty t).ckpt = g.ckpt := by
  unfold Group.ifEmpty; split <;> rfl
@[simp] theorem Group.ifEmpty_outst (g : Group) (t : Nat) : (g.ifEmpty t).outst = g.outst := by
  unfold Group.ifEmpty; split <;> rfl
@[simp] theorem Group.ifEmpty_fences (g : Group) (t : Nat) : (g.ifEmpty t).fences = g.fences := by
  unfold Group.ifEmpty; split <;> rfl
@[simp] theorem Group.ifEmpty_xfences (g : Group) (t : Nat) : (g.ifEmpty t).xfences = g.xfences := by
  unfold Group.ifEmpty; split <;> rfl
@[simp] theorem Group.ifEmpty_retryAt (g : Group) (t : Nat) : (g.ifEmpty t).retryAt = g.retryAt := by
  unfold Group.ifEmpty; split <;> rfl
@[simp] theorem Group.ifEmpty_stamp (g : Group) (t : Nat) : (g.ifEmpty t).stamp = g.stamp := by
  unfold Group.ifEmpty; split <;> rfl
@[simp] theorem Group.ifEmpty_admitted (g : Group) (t : Nat) : (g.ifEmpty t).admitted = g.admitted := by
  unfold Group.ifEmpty; split <;> rfl
@[simp] theorem Group.opened_gid (g : Group) (h : Hdr) (p : Plan) : (g.opened h p).gid = g.gid := by
  simp only [Group.opened]; split <;> rfl
@[simp] theorem Group.opened_team (g : Group) (h : Hdr) (p : Plan) : (g.opened h p).team = g.team := by
  simp only [Group.opened]; split <;> rfl
@[simp] theorem Group.opened_launch (g : Group) (h : Hdr) (p : Plan) : (g.opened h p).launch = g.launch := by
  simp only [Group.opened]; split <;> rfl
@[simp] theorem Group.opened_part (g : Group) (h : Hdr) (p : Plan) : (g.opened h p).part = g.part := by
  simp only [Group.opened]; split <;> rfl
@[simp] theorem Group.opened_groupId (g : Group) (h : Hdr) (p : Plan) : (g.opened h p).groupId = g.groupId := by
  simp only [Group.opened]; split <;> rfl
@[simp] theorem Group.opened_width (g : Group) (h : Hdr) (p : Plan) : (g.opened h p).width = g.width := by
  simp only [Group.opened]; split <;> rfl
@[simp] theorem Group.opened_core (g : Group) (h : Hdr) (p : Plan) : (g.opened h p).core = g.core := by
  simp only [Group.opened]; split <;> rfl
@[simp] theorem Group.opened_quadrant (g : Group) (h : Hdr) (p : Plan) : (g.opened h p).quadrant = g.quadrant := by
  simp only [Group.opened]; split <;> rfl
@[simp] theorem Group.opened_slot (g : Group) (h : Hdr) (p : Plan) : (g.opened h p).slot = g.slot := by
  simp only [Group.opened]; split <;> rfl
@[simp] theorem Group.opened_life (g : Group) (h : Hdr) (p : Plan) : (g.opened h p).life = g.life := by
  simp only [Group.opened]; split <;> rfl
@[simp] theorem Group.opened_hold (g : Group) (h : Hdr) (p : Plan) : (g.opened h p).hold = g.hold := by
  simp only [Group.opened]; split <;> rfl
@[simp] theorem Group.opened_pc (g : Group) (h : Hdr) (p : Plan) : (g.opened h p).pc = g.pc := by
  simp only [Group.opened]; split <;> rfl
@[simp] theorem Group.opened_active (g : Group) (h : Hdr) (p : Plan) : (g.opened h p).active = g.active := by
  simp only [Group.opened]; split <;> rfl
@[simp] theorem Group.opened_live (g : Group) (h : Hdr) (p : Plan) : (g.opened h p).live = g.live := by
  simp only [Group.opened]; split <;> rfl
@[simp] theorem Group.opened_dead (g : Group) (h : Hdr) (p : Plan) : (g.opened h p).dead = g.dead := by
  simp only [Group.opened]; split <;> rfl
@[simp] theorem Group.opened_sregs (g : Group) (h : Hdr) (p : Plan) : (g.opened h p).sregs = g.sregs := by
  simp only [Group.opened]; split <;> rfl
@[simp] theorem Group.opened_preds (g : Group) (h : Hdr) (p : Plan) : (g.opened h p).preds = g.preds := by
  simp only [Group.opened]; split <;> rfl
@[simp] theorem Group.opened_cur (g : Group) (h : Hdr) (p : Plan) : (g.opened h p).cur = g.cur := by
  simp only [Group.opened]; split <;> rfl
@[simp] theorem Group.opened_nextPid (g : Group) (h : Hdr) (p : Plan) : (g.opened h p).nextPid = g.nextPid := by
  simp only [Group.opened]; split <;> rfl
@[simp] theorem Group.opened_resv (g : Group) (h : Hdr) (p : Plan) : (g.opened h p).resv = g.resv := by
  simp only [Group.opened]; split <;> rfl
@[simp] theorem Group.opened_stack (g : Group) (h : Hdr) (p : Plan) : (g.opened h p).stack = g.stack := by
  simp only [Group.opened]; split <;> rfl
@[simp] theorem Group.opened_sig (g : Group) (h : Hdr) (p : Plan) : (g.opened h p).sig = g.sig := by
  simp only [Group.opened]; split <;> rfl
@[simp] theorem Group.opened_taken (g : Group) (h : Hdr) (p : Plan) : (g.opened h p).taken = g.taken := by
  simp only [Group.opened]; split <;> rfl
@[simp] theorem Group.opened_po (g : Group) (h : Hdr) (p : Plan) : (g.opened h p).po = g.po := by
  simp only [Group.opened]; split <;> rfl
@[simp] theorem Group.opened_poFirst (g : Group) (h : Hdr) (p : Plan) : (g.opened h p).poFirst = g.poFirst := by
  simp only [Group.opened]; split <;> rfl
@[simp] theorem Group.opened_depths (g : Group) (h : Hdr) (p : Plan) : (g.opened h p).depths = g.depths := by
  simp only [Group.opened]; split <;> rfl
@[simp] theorem Group.opened_fflags (g : Group) (h : Hdr) (p : Plan) : (g.opened h p).fflags = g.fflags := by
  simp only [Group.opened]; split <;> rfl
@[simp] theorem Group.opened_replays (g : Group) (h : Hdr) (p : Plan) : (g.opened h p).replays = g.replays := by
  simp only [Group.opened]; split <;> rfl
@[simp] theorem Group.opened_outst (g : Group) (h : Hdr) (p : Plan) : (g.opened h p).outst = g.outst := by
  simp only [Group.opened]; split <;> rfl
@[simp] theorem Group.opened_fences (g : Group) (h : Hdr) (p : Plan) : (g.opened h p).fences = g.fences := by
  simp only [Group.opened]; split <;> rfl
@[simp] theorem Group.opened_xfences (g : Group) (h : Hdr) (p : Plan) : (g.opened h p).xfences = g.xfences := by
  simp only [Group.opened]; split <;> rfl
@[simp] theorem Group.opened_retryAt (g : Group) (h : Hdr) (p : Plan) : (g.opened h p).retryAt = g.retryAt := by
  simp only [Group.opened]; split <;> rfl
@[simp] theorem Group.opened_stamp (g : Group) (h : Hdr) (p : Plan) : (g.opened h p).stamp = g.stamp := by
  simp only [Group.opened]; split <;> rfl
@[simp] theorem Group.opened_admitted (g : Group) (h : Hdr) (p : Plan) : (g.opened h p).admitted = g.admitted := by
  simp only [Group.opened]; split <;> rfl
@[simp] theorem Group.pruneFences_gid (s : State) (g : Group) : (Group.pruneFences s g).gid = g.gid := rfl
@[simp] theorem Group.pruneFences_team (s : State) (g : Group) : (Group.pruneFences s g).team = g.team := rfl
@[simp] theorem Group.pruneFences_launch (s : State) (g : Group) : (Group.pruneFences s g).launch = g.launch := rfl
@[simp] theorem Group.pruneFences_part (s : State) (g : Group) : (Group.pruneFences s g).part = g.part := rfl
@[simp] theorem Group.pruneFences_groupId (s : State) (g : Group) : (Group.pruneFences s g).groupId = g.groupId := rfl
@[simp] theorem Group.pruneFences_width (s : State) (g : Group) : (Group.pruneFences s g).width = g.width := rfl
@[simp] theorem Group.pruneFences_core (s : State) (g : Group) : (Group.pruneFences s g).core = g.core := rfl
@[simp] theorem Group.pruneFences_quadrant (s : State) (g : Group) : (Group.pruneFences s g).quadrant = g.quadrant := rfl
@[simp] theorem Group.pruneFences_slot (s : State) (g : Group) : (Group.pruneFences s g).slot = g.slot := rfl
@[simp] theorem Group.pruneFences_life (s : State) (g : Group) : (Group.pruneFences s g).life = g.life := rfl
@[simp] theorem Group.pruneFences_hold (s : State) (g : Group) : (Group.pruneFences s g).hold = g.hold := rfl
@[simp] theorem Group.pruneFences_pc (s : State) (g : Group) : (Group.pruneFences s g).pc = g.pc := rfl
@[simp] theorem Group.pruneFences_active (s : State) (g : Group) : (Group.pruneFences s g).active = g.active := rfl
@[simp] theorem Group.pruneFences_live (s : State) (g : Group) : (Group.pruneFences s g).live = g.live := rfl
@[simp] theorem Group.pruneFences_dead (s : State) (g : Group) : (Group.pruneFences s g).dead = g.dead := rfl
@[simp] theorem Group.pruneFences_sregs (s : State) (g : Group) : (Group.pruneFences s g).sregs = g.sregs := rfl
@[simp] theorem Group.pruneFences_preds (s : State) (g : Group) : (Group.pruneFences s g).preds = g.preds := rfl
@[simp] theorem Group.pruneFences_cur (s : State) (g : Group) : (Group.pruneFences s g).cur = g.cur := rfl
@[simp] theorem Group.pruneFences_ent (s : State) (g : Group) : (Group.pruneFences s g).ent = g.ent := rfl
@[simp] theorem Group.pruneFences_pregs (s : State) (g : Group) : (Group.pruneFences s g).pregs = g.pregs := rfl
@[simp] theorem Group.pruneFences_nextPid (s : State) (g : Group) : (Group.pruneFences s g).nextPid = g.nextPid := rfl
@[simp] theorem Group.pruneFences_resv (s : State) (g : Group) : (Group.pruneFences s g).resv = g.resv := rfl
@[simp] theorem Group.pruneFences_stack (s : State) (g : Group) : (Group.pruneFences s g).stack = g.stack := rfl
@[simp] theorem Group.pruneFences_sig (s : State) (g : Group) : (Group.pruneFences s g).sig = g.sig := rfl
@[simp] theorem Group.pruneFences_taken (s : State) (g : Group) : (Group.pruneFences s g).taken = g.taken := rfl
@[simp] theorem Group.pruneFences_po (s : State) (g : Group) : (Group.pruneFences s g).po = g.po := rfl
@[simp] theorem Group.pruneFences_poFirst (s : State) (g : Group) : (Group.pruneFences s g).poFirst = g.poFirst := rfl
@[simp] theorem Group.pruneFences_depths (s : State) (g : Group) : (Group.pruneFences s g).depths = g.depths := rfl
@[simp] theorem Group.pruneFences_fflags (s : State) (g : Group) : (Group.pruneFences s g).fflags = g.fflags := rfl
@[simp] theorem Group.pruneFences_replays (s : State) (g : Group) : (Group.pruneFences s g).replays = g.replays := rfl
@[simp] theorem Group.pruneFences_regionStart (s : State) (g : Group) : (Group.pruneFences s g).regionStart = g.regionStart := rfl
@[simp] theorem Group.pruneFences_regionFresh (s : State) (g : Group) : (Group.pruneFences s g).regionFresh = g.regionFresh := rfl
@[simp] theorem Group.pruneFences_regionReads (s : State) (g : Group) : (Group.pruneFences s g).regionReads = g.regionReads := rfl
@[simp] theorem Group.pruneFences_sigFailed (s : State) (g : Group) : (Group.pruneFences s g).sigFailed = g.sigFailed := rfl
@[simp] theorem Group.pruneFences_ckpt (s : State) (g : Group) : (Group.pruneFences s g).ckpt = g.ckpt := rfl
@[simp] theorem Group.pruneFences_outst (s : State) (g : Group) : (Group.pruneFences s g).outst = g.outst := rfl
@[simp] theorem Group.pruneFences_retryAt (s : State) (g : Group) : (Group.pruneFences s g).retryAt = g.retryAt := rfl
@[simp] theorem Group.pruneFences_stamp (s : State) (g : Group) : (Group.pruneFences s g).stamp = g.stamp := rfl
@[simp] theorem Group.pruneFences_admitted (s : State) (g : Group) : (Group.pruneFences s g).admitted = g.admitted := rfl
@[simp] theorem Group.writeResult_gid (g : Group) (p : Bool) (n : Nat) (e : LaneMask) (r : List (Nat × Word)) (t : BitVec 4) (q : Nat) :
    (g.writeResult p n e r t q).gid = g.gid := by
  simp only [Group.writeResult]; split <;> simp
@[simp] theorem Group.writeResult_team (g : Group) (p : Bool) (n : Nat) (e : LaneMask) (r : List (Nat × Word)) (t : BitVec 4) (q : Nat) :
    (g.writeResult p n e r t q).team = g.team := by
  simp only [Group.writeResult]; split <;> simp
@[simp] theorem Group.writeResult_launch (g : Group) (p : Bool) (n : Nat) (e : LaneMask) (r : List (Nat × Word)) (t : BitVec 4) (q : Nat) :
    (g.writeResult p n e r t q).launch = g.launch := by
  simp only [Group.writeResult]; split <;> simp
@[simp] theorem Group.writeResult_part (g : Group) (p : Bool) (n : Nat) (e : LaneMask) (r : List (Nat × Word)) (t : BitVec 4) (q : Nat) :
    (g.writeResult p n e r t q).part = g.part := by
  simp only [Group.writeResult]; split <;> simp
@[simp] theorem Group.writeResult_groupId (g : Group) (p : Bool) (n : Nat) (e : LaneMask) (r : List (Nat × Word)) (t : BitVec 4) (q : Nat) :
    (g.writeResult p n e r t q).groupId = g.groupId := by
  simp only [Group.writeResult]; split <;> simp
@[simp] theorem Group.writeResult_width (g : Group) (p : Bool) (n : Nat) (e : LaneMask) (r : List (Nat × Word)) (t : BitVec 4) (q : Nat) :
    (g.writeResult p n e r t q).width = g.width := by
  simp only [Group.writeResult]; split <;> simp
@[simp] theorem Group.writeResult_core (g : Group) (p : Bool) (n : Nat) (e : LaneMask) (r : List (Nat × Word)) (t : BitVec 4) (q : Nat) :
    (g.writeResult p n e r t q).core = g.core := by
  simp only [Group.writeResult]; split <;> simp
@[simp] theorem Group.writeResult_quadrant (g : Group) (p : Bool) (n : Nat) (e : LaneMask) (r : List (Nat × Word)) (t : BitVec 4) (q : Nat) :
    (g.writeResult p n e r t q).quadrant = g.quadrant := by
  simp only [Group.writeResult]; split <;> simp
@[simp] theorem Group.writeResult_slot (g : Group) (p : Bool) (n : Nat) (e : LaneMask) (r : List (Nat × Word)) (t : BitVec 4) (q : Nat) :
    (g.writeResult p n e r t q).slot = g.slot := by
  simp only [Group.writeResult]; split <;> simp
@[simp] theorem Group.writeResult_life (g : Group) (p : Bool) (n : Nat) (e : LaneMask) (r : List (Nat × Word)) (t : BitVec 4) (q : Nat) :
    (g.writeResult p n e r t q).life = g.life := by
  simp only [Group.writeResult]; split <;> simp
@[simp] theorem Group.writeResult_hold (g : Group) (p : Bool) (n : Nat) (e : LaneMask) (r : List (Nat × Word)) (t : BitVec 4) (q : Nat) :
    (g.writeResult p n e r t q).hold = g.hold := by
  simp only [Group.writeResult]; split <;> simp
@[simp] theorem Group.writeResult_pc (g : Group) (p : Bool) (n : Nat) (e : LaneMask) (r : List (Nat × Word)) (t : BitVec 4) (q : Nat) :
    (g.writeResult p n e r t q).pc = g.pc := by
  simp only [Group.writeResult]; split <;> simp
@[simp] theorem Group.writeResult_active (g : Group) (p : Bool) (n : Nat) (e : LaneMask) (r : List (Nat × Word)) (t : BitVec 4) (q : Nat) :
    (g.writeResult p n e r t q).active = g.active := by
  simp only [Group.writeResult]; split <;> simp
@[simp] theorem Group.writeResult_live (g : Group) (p : Bool) (n : Nat) (e : LaneMask) (r : List (Nat × Word)) (t : BitVec 4) (q : Nat) :
    (g.writeResult p n e r t q).live = g.live := by
  simp only [Group.writeResult]; split <;> simp
@[simp] theorem Group.writeResult_dead (g : Group) (p : Bool) (n : Nat) (e : LaneMask) (r : List (Nat × Word)) (t : BitVec 4) (q : Nat) :
    (g.writeResult p n e r t q).dead = g.dead := by
  simp only [Group.writeResult]; split <;> simp
@[simp] theorem Group.writeResult_sregs (g : Group) (p : Bool) (n : Nat) (e : LaneMask) (r : List (Nat × Word)) (t : BitVec 4) (q : Nat) :
    (g.writeResult p n e r t q).sregs = g.sregs := by
  simp only [Group.writeResult]; split <;> simp
@[simp] theorem Group.writeResult_preds (g : Group) (p : Bool) (n : Nat) (e : LaneMask) (r : List (Nat × Word)) (t : BitVec 4) (q : Nat) :
    (g.writeResult p n e r t q).preds = g.preds := by
  simp only [Group.writeResult]; split <;> simp
@[simp] theorem Group.writeResult_cur (g : Group) (p : Bool) (n : Nat) (e : LaneMask) (r : List (Nat × Word)) (t : BitVec 4) (q : Nat) :
    (g.writeResult p n e r t q).cur = g.cur := by
  simp only [Group.writeResult]; split <;> simp
@[simp] theorem Group.writeResult_ent (g : Group) (p : Bool) (n : Nat) (e : LaneMask) (r : List (Nat × Word)) (t : BitVec 4) (q : Nat) :
    (g.writeResult p n e r t q).ent = g.ent := by
  simp only [Group.writeResult]; split <;> simp
@[simp] theorem Group.writeResult_nextPid (g : Group) (p : Bool) (n : Nat) (e : LaneMask) (r : List (Nat × Word)) (t : BitVec 4) (q : Nat) :
    (g.writeResult p n e r t q).nextPid = g.nextPid := by
  simp only [Group.writeResult]; split <;> simp
@[simp] theorem Group.writeResult_resv (g : Group) (p : Bool) (n : Nat) (e : LaneMask) (r : List (Nat × Word)) (t : BitVec 4) (q : Nat) :
    (g.writeResult p n e r t q).resv = g.resv := by
  simp only [Group.writeResult]; split <;> simp
@[simp] theorem Group.writeResult_stack (g : Group) (p : Bool) (n : Nat) (e : LaneMask) (r : List (Nat × Word)) (t : BitVec 4) (q : Nat) :
    (g.writeResult p n e r t q).stack = g.stack := by
  simp only [Group.writeResult]; split <;> simp
@[simp] theorem Group.writeResult_sig (g : Group) (p : Bool) (n : Nat) (e : LaneMask) (r : List (Nat × Word)) (t : BitVec 4) (q : Nat) :
    (g.writeResult p n e r t q).sig = g.sig := by
  simp only [Group.writeResult]; split <;> simp
@[simp] theorem Group.writeResult_taken (g : Group) (p : Bool) (n : Nat) (e : LaneMask) (r : List (Nat × Word)) (t : BitVec 4) (q : Nat) :
    (g.writeResult p n e r t q).taken = g.taken := by
  simp only [Group.writeResult]; split <;> simp
@[simp] theorem Group.writeResult_po (g : Group) (p : Bool) (n : Nat) (e : LaneMask) (r : List (Nat × Word)) (t : BitVec 4) (q : Nat) :
    (g.writeResult p n e r t q).po = g.po := by
  simp only [Group.writeResult]; split <;> simp
@[simp] theorem Group.writeResult_poFirst (g : Group) (p : Bool) (n : Nat) (e : LaneMask) (r : List (Nat × Word)) (t : BitVec 4) (q : Nat) :
    (g.writeResult p n e r t q).poFirst = g.poFirst := by
  simp only [Group.writeResult]; split <;> simp
@[simp] theorem Group.writeResult_depths (g : Group) (p : Bool) (n : Nat) (e : LaneMask) (r : List (Nat × Word)) (t : BitVec 4) (q : Nat) :
    (g.writeResult p n e r t q).depths = g.depths := by
  simp only [Group.writeResult]; split <;> simp
@[simp] theorem Group.writeResult_fflags (g : Group) (p : Bool) (n : Nat) (e : LaneMask) (r : List (Nat × Word)) (t : BitVec 4) (q : Nat) :
    (g.writeResult p n e r t q).fflags = g.fflags := by
  simp only [Group.writeResult]; split <;> simp
@[simp] theorem Group.writeResult_replays (g : Group) (p : Bool) (n : Nat) (e : LaneMask) (r : List (Nat × Word)) (t : BitVec 4) (q : Nat) :
    (g.writeResult p n e r t q).replays = g.replays := by
  simp only [Group.writeResult]; split <;> simp
@[simp] theorem Group.writeResult_regionStart (g : Group) (p : Bool) (n : Nat) (e : LaneMask) (r : List (Nat × Word)) (t : BitVec 4) (q : Nat) :
    (g.writeResult p n e r t q).regionStart = g.regionStart := by
  simp only [Group.writeResult]; split <;> simp
@[simp] theorem Group.writeResult_regionFresh (g : Group) (p : Bool) (n : Nat) (e : LaneMask) (r : List (Nat × Word)) (t : BitVec 4) (q : Nat) :
    (g.writeResult p n e r t q).regionFresh = g.regionFresh := by
  simp only [Group.writeResult]; split <;> simp
@[simp] theorem Group.writeResult_regionReads (g : Group) (p : Bool) (n : Nat) (e : LaneMask) (r : List (Nat × Word)) (t : BitVec 4) (q : Nat) :
    (g.writeResult p n e r t q).regionReads = g.regionReads := by
  simp only [Group.writeResult]; split <;> simp
@[simp] theorem Group.writeResult_sigFailed (g : Group) (p : Bool) (n : Nat) (e : LaneMask) (r : List (Nat × Word)) (t : BitVec 4) (q : Nat) :
    (g.writeResult p n e r t q).sigFailed = g.sigFailed := by
  simp only [Group.writeResult]; split <;> simp
@[simp] theorem Group.writeResult_ckpt (g : Group) (p : Bool) (n : Nat) (e : LaneMask) (r : List (Nat × Word)) (t : BitVec 4) (q : Nat) :
    (g.writeResult p n e r t q).ckpt = g.ckpt := by
  simp only [Group.writeResult]; split <;> simp
@[simp] theorem Group.writeResult_outst (g : Group) (p : Bool) (n : Nat) (e : LaneMask) (r : List (Nat × Word)) (t : BitVec 4) (q : Nat) :
    (g.writeResult p n e r t q).outst = g.outst := by
  simp only [Group.writeResult]; split <;> simp
@[simp] theorem Group.writeResult_fences (g : Group) (p : Bool) (n : Nat) (e : LaneMask) (r : List (Nat × Word)) (t : BitVec 4) (q : Nat) :
    (g.writeResult p n e r t q).fences = g.fences := by
  simp only [Group.writeResult]; split <;> simp
@[simp] theorem Group.writeResult_xfences (g : Group) (p : Bool) (n : Nat) (e : LaneMask) (r : List (Nat × Word)) (t : BitVec 4) (q : Nat) :
    (g.writeResult p n e r t q).xfences = g.xfences := by
  simp only [Group.writeResult]; split <;> simp
@[simp] theorem Group.writeResult_retryAt (g : Group) (p : Bool) (n : Nat) (e : LaneMask) (r : List (Nat × Word)) (t : BitVec 4) (q : Nat) :
    (g.writeResult p n e r t q).retryAt = g.retryAt := by
  simp only [Group.writeResult]; split <;> simp
@[simp] theorem Group.writeResult_stamp (g : Group) (p : Bool) (n : Nat) (e : LaneMask) (r : List (Nat × Word)) (t : BitVec 4) (q : Nat) :
    (g.writeResult p n e r t q).stamp = g.stamp := by
  simp only [Group.writeResult]; split <;> simp
@[simp] theorem Group.writeResult_admitted (g : Group) (p : Bool) (n : Nat) (e : LaneMask) (r : List (Nat × Word)) (t : BitVec 4) (q : Nat) :
    (g.writeResult p n e r t q).admitted = g.admitted := by
  simp only [Group.writeResult]; split <;> simp

end Sys2Proof.Machine
end

