-- ==== Sys2Proof/Laws/Regs.lean ====
section
/-! SUPPORT. Registers of a group: reads after writes for uniform registers, predicates and the renamed vector registers (R107 to R117). -/

namespace Sys2Proof.Machine

set_option Elab.async false

/-! ### Files of registers -/

theorem getD_putAt {α : Type} (d v : α) (i j : Nat) (l : List α) : (putAt d v i l)[j]?.getD d = if j = i then v else l[j]?.getD d := by
  induction i generalizing j l with
  | zero => cases l <;> cases j <;> simp [putAt]
  | succ i ih =>
    cases l with
    | nil =>
      cases j with
      | zero => simp [putAt]
      | succ j => have := ih j []; simp_all [putAt]
    | cons x l =>
      cases j with
      | zero => simp [putAt]
      | succ j => have := ih j l; simp_all [putAt]

/-- A uniform register after a value has arrived in one (R107, R247). -/
theorem Group.sreg_setS (g : Group) (now r k : Nat) (v : Word) (b : Bool) :
    (g.setS now r v b).sreg k = if r ≠ 0 ∧ k = r then ⟨v, some now, b⟩ else g.sreg k := by
  unfold Group.setS Group.sreg
  split
  · simp_all
  · rename_i h; simp [getD_putAt, h]

theorem Group.s_setS_self (g : Group) (now r : Nat) (v : Word) (b : Bool) (h : r ≠ 0) : (g.setS now r v b).s r = v := by
  simp [Group.s, Group.sreg_setS, h]

/-- S0 reads zero whatever is written (R107). -/
@[simp] theorem Group.s_zero (g : Group) : g.s 0 = 0 := rfl

theorem Group.s_setS_ne (g : Group) (now r k : Nat) (v : Word) (b : Bool) (h : k ≠ r) : (g.setS now r v b).s k = g.s k := by
  simp [Group.s, Group.sreg_setS, h]

/-- A uniform register after one has been marked empty (R110). -/
theorem Group.sreg_emptyS (g : Group) (r k : Nat) :
    (g.emptyS r).sreg k = if r ≠ 0 ∧ k = r then { g.sreg r with ready := none } else g.sreg k := by
  unfold Group.emptyS
  split
  · simp_all
  · rename_i h; simp [Group.sreg, getD_putAt, h]

/-- Predicates after a write (R122). -/
theorem Group.pred_setP (g : Group) (r k : Nat) (m b : LaneMask) (t : Option Nat) :
    (g.setP r m b t).pred k = if k = r then ⟨(g.p r &&& ~~~m) ||| (b &&& m), t⟩ else g.pred k := by
  simp [Group.setP, Group.pred, getD_putAt]

theorem Group.p_setP_self (g : Group) (r : Nat) (m b : LaneMask) (t : Option Nat) :
    (g.setP r m b t).p r = (g.p r &&& ~~~m) ||| (b &&& m) := by
  simp [Group.p, Group.pred_setP]

/-- Uniform registers and predicates are what their lists say. -/
theorem Group.sreg_congr {g g' : Group} (h : g'.sregs = g.sregs) (k : Nat) : g'.sreg k = g.sreg k := by simp [Group.sreg, h]

theorem Group.pred_congr {g g' : Group} (h : g'.preds = g.preds) (k : Nat) : g'.pred k = g.pred k := by simp [Group.pred, h]

/-! ### Vector registers -/

theorem Group.preg?_congr {g g' : Group} (hc : g'.cur = g.cur) (hp : g'.pregs = g.pregs) (n : Nat) : g'.preg? n = g.preg? n := by
  simp [Group.preg?, hc, hp]

theorem keepMapped_cons (m : List (Nat × Nat)) (r : PReg) (rs : List PReg) :
    keepMapped m (r :: rs) =
      if (m.any fun e => e.2 == r.id) || r.pend != 0 || r.merge.isSome then
        (if (m.any fun e => e.2 == r.id) then r else { r with orphan := true }) :: keepMapped m rs
      else keepMapped m rs := by
  simp only [keepMapped, List.filter_cons]
  split <;> simp

theorem find_keepMapped (m : List (Nat × Nat)) (rs : List PReg) (k : Nat) (h : ∃ e ∈ m, e.2 = k) :
    (keepMapped m rs).find? (fun r => r.id == k) = rs.find? fun r => r.id == k := by
  have hk : (m.any fun e => e.2 == k) = true := by simpa using h
  induction rs with
  | nil => rfl
  | cons r rs ih =>
    rw [keepMapped_cons]
    by_cases hr : r.id = k
    · subst hr
      simp [hk]
    · have hne : (r.id == k) = false := by simp [hr]
      split
      · split <;> simp only [List.find?_cons, hne, ih]
      · simp only [List.find?_cons, hne, ih]

theorem lookup_mem {α β : Type} [BEq α] [LawfulBEq α] {l : List (α × β)} {a : α} {b : β} (h : l.lookup a = some b) : (a, b) ∈ l := by
  induction l with
  | nil => simp at h
  | cons e l ih =>
    obtain ⟨x, y⟩ := e
    simp only [List.lookup_cons] at h
    split at h
    · rename_i hx
      simp at hx h
      subst hx h
      simp
    · exact List.mem_cons_of_mem _ (ih h)

/-- The end of a region leaves every name's register (R117). -/
@[simp] theorem Group.preg?_closeRegion (g : Group) (n : Nat) : g.closeRegion.preg? n = g.preg? n := by
  unfold Group.preg? Group.closeRegion
  simp only
  split
  · rename_i pid h
    exact find_keepMapped _ _ _ ⟨_, lookup_mem h, rfl⟩
  · rfl

@[simp] theorem Group.preg?_opened (g : Group) (h : Hdr) (p : Plan) (n : Nat) : (g.opened h p).preg? n = g.preg? n := by
  unfold Group.opened
  simp only
  split <;> simp

@[simp] theorem Group.preg?_pruneFences (s : State) (g : Group) (n : Nat) : (Group.pruneFences s g).preg? n = g.preg? n := rfl

@[simp] theorem Group.preg?_kill (g : Group) (m : LaneMask) (n : Nat) : (g.kill m).preg? n = g.preg? n := rfl

theorem lookup_filter_ne {β : Type} (l : List (Nat × β)) (q : Nat → Bool) (n : Nat) (h : q n = true) :
    (l.filter fun e => q e.1).lookup n = l.lookup n := by
  induction l with
  | nil => rfl
  | cons e l ih =>
    obtain ⟨x, y⟩ := e
    by_cases hx : n = x
    · subst hx; simp [h]
    · have : (n == x) = false := by simp [hx]
      simp only [List.filter_cons]
      split <;> simp [List.lookup_cons, this, ih]

theorem lookup_filter_eq {β : Type} (l : List (Nat × β)) (q : Nat → Bool) (n : Nat) (h : q n = false) :
    (l.filter fun e => q e.1).lookup n = none := by
  induction l with
  | nil => rfl
  | cons e l ih =>
    obtain ⟨x, y⟩ := e
    simp only [List.filter_cons]
    split
    · have : n ≠ x := by rintro rfl; simp_all
      have : (n == x) = false := by simp [this]
      simp [List.lookup_cons, this, ih]
    · exact ih

/-- A last read unmaps its names and no other (R114). -/
theorem Group.preg?_unmap (g : Group) (ns : List Nat) (n : Nat) : (g.unmap ns).preg? n = if n ∈ ns then none else g.preg? n := by
  by_cases h : n ∈ ns
  · have := lookup_filter_eq g.cur (fun k => !ns.contains k) n (by simpa)
    simp only [Group.preg?, Group.unmap, this, if_pos h]
  · have := lookup_filter_ne g.cur (fun k => !ns.contains k) n (by simpa)
    simp only [Group.preg?, Group.unmap, this, if_neg h]

theorem le_foldl_above (ids : List Nat) (m : Nat) : m ≤ ids.foldl (fun m k => max m (k + 1)) m ∧
    ∀ k ∈ ids, k < ids.foldl (fun m k => max m (k + 1)) m := by
  induction ids generalizing m with
  | nil => simp
  | cons x ids ih =>
    obtain ⟨h1, h2⟩ := ih (max m (x + 1))
    simp only [List.foldl_cons]
    refine ⟨by omega, fun k hk => ?_⟩
    rcases List.mem_cons.1 hk with rfl | hk
    · omega
    · exact h2 k hk

/-- The next identifier is above those of the registers and of the map. -/
theorem Group.lt_nextReg (g : Group) : (∀ r ∈ g.pregs, r.id < g.nextReg) ∧ ∀ e ∈ g.cur, e.2 < g.nextReg := by
  obtain ⟨h1, h2⟩ := le_foldl_above (g.pregs.map PReg.id) g.nextPid
  obtain ⟨h3, h4⟩ := le_foldl_above (g.cur.map Prod.snd) ((g.pregs.map PReg.id).foldl (fun m k => max m (k + 1)) g.nextPid)
  refine ⟨fun r hr => ?_, fun e he => ?_⟩
  · exact Nat.lt_of_lt_of_le (h2 _ (List.mem_map_of_mem hr)) h3
  · exact h4 _ (List.mem_map_of_mem he)

/-- The name's register is the name's alone. -/
def Group.Owns (g : Group) (n : Nat) : Prop := ∃ r, g.preg? n = some r ∧ ∀ k, k ≠ n → g.cur.lookup k ≠ some r.id

theorem Group.preg?_id {g : Group} {n : Nat} {r : PReg} (h : g.preg? n = some r) : g.cur.lookup n = some r.id := by
  unfold Group.preg? at h
  split at h
  · rename_i pid hp
    have := List.find?_some h
    simp at this
    rw [hp, this]
  · simp at h

/-- The register that a write to a name takes (R113). -/
theorem Group.prepare_fresh (g : Group) (now : Nat) (k : LaneMask) (b : Lane) (n : Nat) (h : g.needsFresh n = true) :
    ∃ r, (g.prepare now k b n).preg? n = some r ∧ r.id = g.nextReg ∧
      r.lanes = ((g.preg? n).map PReg.lanes).getD (List.replicate 64 0) ∧ r.tag = ((g.preg? n).map PReg.tag).getD 0 ∧
      r.bad = ((g.preg? n).map PReg.bad).getD 0 := by
  have hid : ∀ q ∈ g.pregs, (q.id == g.nextReg) = false := fun q hq => by
    have := g.lt_nextReg.1 q hq
    simp; omega
  have hf : g.pregs.find? (fun q => q.id == g.nextReg) = none := by
    rw [List.find?_eq_none]
    intro q hq
    simpa using hid q hq
  unfold Group.prepare
  rw [if_neg (by simp [h])]
  cases hp : g.preg? n with
  | none =>
    refine ⟨⟨g.nextReg, List.replicate 64 0, 0, some now, 0, 0, none, false⟩, ?_, rfl, rfl, rfl, rfl⟩
    simp [Group.preg?, List.find?_append, hf]
  | some o =>
    refine ⟨⟨g.nextReg, o.lanes, o.tag, some (if k != 0 || b != 0 then max now (o.ready.getD now) else now), o.bad, 0,
      if (o.ready.isNone || o.merge.isSome) && (k != 0 || b != 0) then some (o.id, k, b) else none, false⟩, ?_, rfl, rfl, rfl, rfl⟩
    simp [Group.preg?, List.find?_append, hf]

/-- Preparing a write to one name leaves the registers of the others. -/
theorem Group.preg?_prepare_ne (g : Group) (now : Nat) (k : LaneMask) (b : Lane) (n m : Nat) (h : m ≠ n) :
    (g.prepare now k b n).preg? m = g.preg? m := by
  unfold Group.prepare
  split
  · rfl
  · have hl : (((n, g.nextReg) :: g.cur.filter fun e => e.1 != n).lookup m) = g.cur.lookup m := by
      have hb : (m == n) = false := by simp [h]
      rw [List.lookup_cons, hb]
      exact lookup_filter_ne g.cur (fun k => k != n) m (by simp [h])
    simp only [Group.preg?]
    rw [hl]
    cases hc : g.cur.lookup m with
    | none => rfl
    | some q =>
      have hq : q < g.nextReg := g.lt_nextReg.2 (m, q) (lookup_mem hc)
      have hne : (g.nextReg == q) = false := by simp; omega
      simp only [List.find?_append]
      split <;> simp [hne]

theorem Group.lookup_prepare_ne (g : Group) (now : Nat) (k : LaneMask) (b : Lane) (n m : Nat) (h : m ≠ n) :
    (g.prepare now k b n).cur.lookup m = g.cur.lookup m := by
  unfold Group.prepare
  split
  · rfl
  · have hb : (m == n) = false := by simp [h]
    simp only
    rw [List.lookup_cons, hb]
    exact lookup_filter_ne g.cur (fun k => k != n) m (by simp [h])

/-- After preparing, the name has a register of its own. -/
theorem Group.owns_prepare (g : Group) (now : Nat) (k : LaneMask) (b : Lane) (n : Nat) : (g.prepare now k b n).Owns n := by
  by_cases h : g.needsFresh n = true
  · obtain ⟨r, hr, hid, -⟩ := g.prepare_fresh now k b n h
    refine ⟨r, hr, fun j hj e => ?_⟩
    rw [g.lookup_prepare_ne now k b n j hj] at e
    have := g.lt_nextReg.2 (j, r.id) (lookup_mem e)
    simp at this; omega
  · unfold Group.prepare
    rw [if_pos (by simpa using h)]
    unfold Group.needsFresh at h
    split at h
    · simp at h
    · rename_i r hr
      refine ⟨r, hr, fun j hj e => ?_⟩
      simp only [Bool.not_eq_true, Bool.or_eq_false_iff, List.any_eq_false] at h
      have := h.2 _ (lookup_mem e)
      simp [hj] at this

/-- Preparing another name leaves a register its owner's alone. -/
theorem Group.Owns.prepare {g : Group} {m : Nat} (hm : g.Owns m) (now : Nat) (k : LaneMask) (b : Lane) (n : Nat) :
    (g.prepare now k b n).Owns m := by
  by_cases hn : m = n
  · subst hn; exact g.owns_prepare now k b m
  · obtain ⟨r, hr, ho⟩ := hm
    refine ⟨r, by rw [g.preg?_prepare_ne now k b n m hn, hr], fun j hj e => ?_⟩
    by_cases hj2 : j = n
    · subst hj2
      by_cases h : g.needsFresh j = true
      · obtain ⟨q, hq, hid, -⟩ := g.prepare_fresh now k b j h
        rw [Group.preg?_id hq, hid] at e
        have := g.lt_nextReg.2 (m, r.id) (lookup_mem (Group.preg?_id hr))
        simp at e this; omega
      · unfold Group.prepare at e
        rw [if_pos (by simpa using h)] at e
        exact ho j hj e
    · rw [g.lookup_prepare_ne now k b n j hj2] at e
      exact ho j hj e

/-- Preparing a write changes no contents, tag or mark of any name (R113). -/
theorem Group.vLanes_prepare (g : Group) (now : Nat) (k : LaneMask) (b : Lane) (n m l : Nat) :
    laneOf ((g.prepare now k b n).vLanes m) l = laneOf (g.vLanes m) l := by
  by_cases hn : m = n
  · subst hn
    by_cases h : g.needsFresh m = true
    · obtain ⟨r, hr, -, hl, -⟩ := g.prepare_fresh now k b m h
      simp only [Group.vLanes, hr, Option.map_some, Option.getD_some, hl]
      cases g.preg? m with
      | none =>
        simp only [Option.map_none, Option.getD_none, laneOf]
        rw [List.getD_eq_getElem?_getD, List.getElem?_replicate]
        split <;> rfl
      | some o => rfl
    · unfold Group.prepare; rw [if_pos (by simpa using h)]
  · simp [Group.vLanes, g.preg?_prepare_ne now k b n m hn]

theorem Group.vTag_prepare (g : Group) (now : Nat) (k : LaneMask) (b : Lane) (n m : Nat) : (g.prepare now k b n).vTag m = g.vTag m := by
  by_cases hn : m = n
  · subst hn
    by_cases h : g.needsFresh m = true
    · obtain ⟨r, hr, -, -, ht, -⟩ := g.prepare_fresh now k b m h
      simp [Group.vTag, hr, ht]
    · unfold Group.prepare; rw [if_pos (by simpa using h)]
  · simp [Group.vTag, g.preg?_prepare_ne now k b n m hn]

theorem Group.vBad_prepare (g : Group) (now : Nat) (k : LaneMask) (b : Lane) (n m : Nat) : (g.prepare now k b n).vBad m = g.vBad m := by
  by_cases hn : m = n
  · subst hn
    by_cases h : g.needsFresh m = true
    · obtain ⟨r, hr, -, -, -, hb⟩ := g.prepare_fresh now k b m h
      simp [Group.vBad, hr, hb]
    · unfold Group.prepare; rw [if_pos (by simpa using h)]
  · simp [Group.vBad, g.preg?_prepare_ne now k b n m hn]

/-! ### All the destinations of an instruction -/

/-- What the preparation of an instruction's destinations leaves. -/
structure Group.Prepared (g g' : Group) (ns : List Nat) : Prop where
  owns : ∀ n ∈ ns, g'.Owns n
  others : ∀ n, n ∉ ns → g'.preg? n = g.preg? n
  lanes : ∀ n l, laneOf (g'.vLanes n) l = laneOf (g.vLanes n) l
  tags : ∀ n, g'.vTag n = g.vTag n
  bads : ∀ n, g'.vBad n = g.vBad n

theorem Group.prepared (g : Group) (now : Nat) (k : LaneMask) (b : Lane) (ns : List Nat) :
    g.Prepared (ns.foldl (fun g n => g.prepare now k b n) g) ns := by
  induction ns generalizing g with
  | nil => exact ⟨by simp, fun _ _ => rfl, fun _ _ => rfl, fun _ => rfl, fun _ => rfl⟩
  | cons n ns ih =>
    have h := ih (g.prepare now k b n)
    simp only [List.foldl_cons]
    refine ⟨?_, ?_, ?_, ?_, ?_⟩
    · intro m hm
      rcases List.mem_cons.1 hm with rfl | hm
      · by_cases hin : m ∈ ns
        · exact h.owns m hin
        · clear h ih
          have ho := g.owns_prepare now k b m
          generalize g.prepare now k b m = g1 at ho
          clear hin hm
          induction ns generalizing g1 with
          | nil => exact ho
          | cons x ns ih => exact ih _ (ho.prepare now k b x)
      · exact h.owns m hm
    · intro m hm
      simp only [List.mem_cons, not_or] at hm
      rw [h.others m hm.2, g.preg?_prepare_ne now k b n m hm.1]
    · intro m l; rw [h.lanes, g.vLanes_prepare]
    · intro m; rw [h.tags, g.vTag_prepare]
    · intro m; rw [h.bads, g.vBad_prepare]

/-! ### Writing -/

theorem Group.lookup_writeV (g : Group) (n : Nat) (e : LaneMask) (f : Nat → Lane) (t : BitVec 4) (r : Nat) (k : Lane) (m : Nat) :
    (g.writeV n e f t r k).cur.lookup m = g.cur.lookup m := by simp

theorem find_map_id (rs : List PReg) (f : PReg → PReg) (p q : Nat) (hf : ∀ r, (f r).id = r.id) :
    (rs.map fun r => if r.id == p then f r else r).find? (fun r => r.id == q) =
      if q = p then (rs.find? fun r => r.id == q).map f else rs.find? fun r => r.id == q := by
  induction rs with
  | nil => simp
  | cons r rs ih =>
    simp only [List.map_cons, List.find?_cons]
    by_cases hr : r.id = p
    · subst hr
      by_cases hq : q = r.id
      · subst hq; simp [hf]
      · have h1 : (r.id == q) = false := by simp; exact fun h => hq h.symm
        simp only [beq_self_eq_true, if_true, hf, h1, ih, if_neg hq]
    · have h0 : (r.id == p) = false := by simp [hr]
      simp only [h0, Bool.false_eq_true, if_false]
      by_cases hq : r.id = q
      · have : q ≠ p := fun h => hr (by omega)
        simp [hq, this]
      · have h1 : (r.id == q) = false := by simp [hq]
        simp only [h1]
        exact ih

theorem Group.preg?_modPreg (g : Group) (p : Nat) (f : PReg → PReg) (hf : ∀ r, (f r).id = r.id) (n : Nat) :
    (g.modPreg p f).preg? n = if g.cur.lookup n = some p then (g.preg? n).map f else g.preg? n := by
  simp only [Group.preg?, Group.modPreg]
  cases g.cur.lookup n with
  | none => simp
  | some q => simpa using find_map_id g.pregs f p q hf

/-- A register that its name owns after a write of lanes (R122, R179, R199). -/
theorem Group.preg?_writeV_self (g : Group) (n : Nat) (e : LaneMask) (f : Nat → Lane) (t : BitVec 4) (r : Nat) (k : Lane) {q : PReg}
    (h : g.preg? n = some q) :
    (g.writeV n e f t r k).preg? n = some { q with
      lanes := (List.range 64).map fun l => if e.getLsbD l then (f l &&& ~~~k) ||| (laneOf q.lanes l &&& k) else laneOf q.lanes l
      tag := t
      bad := if k = 0 then q.bad &&& ~~~e else q.bad
      ready := some (max r (q.ready.getD r)) } := by
  have hl := Group.preg?_id h
  unfold Group.writeV
  rw [hl]
  simp only
  rw [Group.preg?_modPreg, if_pos hl, h]
  · rfl
  · exact fun _ => rfl

/-- Writing one name's own register leaves the others. -/
theorem Group.preg?_writeV_ne (g : Group) (n m : Nat) (e : LaneMask) (f : Nat → Lane) (t : BitVec 4) (r : Nat) (k : Lane)
    (ho : g.Owns n) (h : m ≠ n) : (g.writeV n e f t r k).preg? m = g.preg? m := by
  obtain ⟨q, hq, hx⟩ := ho
  have hl := Group.preg?_id hq
  unfold Group.writeV
  rw [hl]
  simp only
  rw [Group.preg?_modPreg, if_neg (hx m h)]
  exact fun _ => rfl

theorem Group.Owns.writeV {g : Group} {m : Nat} (hm : g.Owns m) (n : Nat) (e : LaneMask) (f : Nat → Lane) (t : BitVec 4) (r : Nat) (k : Lane) :
    (g.writeV n e f t r k).Owns m := by
  obtain ⟨q, hq, hx⟩ := hm
  have key : ∃ q', (g.writeV n e f t r k).preg? m = some q' ∧ q'.id = q.id := by
    unfold Group.writeV
    split
    · exact ⟨q, hq, rfl⟩
    · rw [Group.preg?_modPreg, hq]
      · split <;> exact ⟨_, rfl, rfl⟩
      · exact fun _ => rfl
  obtain ⟨q', h1, h2⟩ := key
  exact ⟨q', h1, fun j hj => by rw [g.lookup_writeV, h2]; exact hx j hj⟩

theorem laneOf_range (f : Nat → Lane) (l : Nat) (h : l < 64) : laneOf ((List.range 64).map f) l = f l := by
  simp [laneOf, h]

/-- The lanes of a name after a write to its own register. -/
theorem Group.lane_writeV (g : Group) (n : Nat) (e : LaneMask) (f : Nat → Lane) (t : BitVec 4) (r : Nat) (k : Lane) (ho : g.Owns n) (l : Nat)
    (h : l < 64) : laneOf ((g.writeV n e f t r k).vLanes n) l =
      if e.getLsbD l then (f l &&& ~~~k) ||| (laneOf (g.vLanes n) l &&& k) else laneOf (g.vLanes n) l := by
  obtain ⟨q, hq, -⟩ := ho
  simp only [Group.vLanes, Group.preg?_writeV_self g n e f t r k hq, hq, Option.map_some, Option.getD_some]
  rw [laneOf_range _ _ h]

theorem Group.tag_writeV (g : Group) (n : Nat) (e : LaneMask) (f : Nat → Lane) (t : BitVec 4) (r : Nat) (k : Lane) (ho : g.Owns n) :
    (g.writeV n e f t r k).vTag n = t := by
  obtain ⟨q, hq, -⟩ := ho
  simp [Group.vTag, Group.preg?_writeV_self g n e f t r k hq]

theorem Group.bad_writeV (g : Group) (n : Nat) (e : LaneMask) (f : Nat → Lane) (t : BitVec 4) (r : Nat) (k : Lane) (ho : g.Owns n) :
    (g.writeV n e f t r k).vBad n = if k = 0 then g.vBad n &&& ~~~e else g.vBad n := by
  obtain ⟨q, hq, -⟩ := ho
  simp [Group.vBad, Group.preg?_writeV_self g n e f t r k hq, hq]

end Sys2Proof.Machine
end

