-- ==== Sys2Proof/Laws/Issue.lean ====
section
/-! SUPPORT. The issue of an instruction (R109 to R123): when nothing happens, when a cause is raised, and the state that an instruction
leaves. -/

namespace Sys2Proof.Machine

set_option Elab.async false

/-! ### Groups of a state -/

theorem State.grp?_gid {s : State} {k : Nat} {g : Group} (h : s.grp? k = some g) : g.gid = k := by
  have := List.find?_some h
  simpa using this

/-- The group after a change of the group. -/
theorem State.grp?_modGrp_self (s : State) (k : Nat) (f : Group → Group) (g : Group) (h : s.grp? k = some g)
    (hf : ∀ x, x.gid = k → (f x).gid = k) : (s.modGrp k f).grp? k = some (f g) := by
  have hg := State.grp?_gid h
  unfold State.grp? State.modGrp at *
  simp only at *
  generalize s.groups = l at *
  induction l with
  | nil => simp at h
  | cons x l ih =>
    simp only [List.map_cons, List.find?_cons] at *
    by_cases hx : x.gid = k
    · have hx' : (x.gid == k) = true := by simp [hx]
      simp only [hx'] at h
      injection h with h
      subst h
      simp [hx, hf]
    · have hx' : (x.gid == k) = false := by simp [hx]
      simp only [hx'] at h
      simp only [hx', Bool.false_eq_true, if_false]
      exact ih h

/-- Another group after a change of a group. -/
theorem State.grp?_modGrp_ne (s : State) (k j : Nat) (f : Group → Group) (hf : ∀ x, x.gid = k → (f x).gid = k) (hj : j ≠ k) :
    (s.modGrp k f).grp? j = s.grp? j := by
  unfold State.grp? State.modGrp
  simp only
  induction s.groups with
  | nil => rfl
  | cons x l ih =>
    simp only [List.map_cons, List.find?_cons]
    by_cases hx : x.gid = k
    · have h1 : (x.gid == j) = false := by simp; omega
      have h2 : ((f x).gid == j) = false := by simp [hf x hx]; omega
      have h3 : (x.gid == k) = true := by simp [hx]
      simp only [h3, if_true, h1, h2, ih]
    · have hx' : (x.gid == k) = false := by simp [hx]
      simp only [hx', Bool.false_eq_true, if_false, ih]

/-- Changes of one group one after another. -/
theorem State.modGrp_modGrp (s : State) (k : Nat) (f f' : Group → Group) (hf : ∀ x, x.gid = k → (f x).gid = k) :
    (s.modGrp k f).modGrp k f' = s.modGrp k fun x => f' (f x) := by
  unfold State.modGrp
  simp only [List.map_map]
  congr 1
  apply List.map_congr_left
  intro x hx
  by_cases h : x.gid = k
  · simp [h, hf x h]
  · simp [h]

/-- The issuing group is resident, and found under its identifier. -/
theorem State.issuing_some {s : State} {g : Group} (h : s.issuing = some g) :
    s.cur = some g.gid ∧ s.grp? g.gid = some g ∧ g.life = .resident ∧ s.placed g = true := by
  unfold State.issuing at h
  split at h
  · simp at h
  · rename_i gid hc
    split at h
    · simp at h
    · rename_i g' hg
      split at h
      · rename_i hl
        injection h with h
        subst h
        have := State.grp?_gid hg
        subst this
        simp only [Bool.and_eq_true, beq_iff_eq] at hl
        exact ⟨hc, hg, hl.1, hl.2⟩
      · simp at h

/-! ### The three ways of an attempt -/

/-- An instruction that is not ready does nothing (R110). -/
theorem runPlan_waits {s : State} {g : Group} {i : Instr} {h : Hdr} {p : Plan} (hi : s.issuing = some g) (hr : ready s g h p = false) :
    runPlan i h p s = .next s := by
  obtain ⟨-, hg, -, -⟩ := State.issuing_some hi
  simp [runPlan, hi, commit, attempt, hg, hr]

/-- A cause of R356 is raised in place of the instruction; one that a translation has found, after the words that it read have been read. -/
theorem runPlan_cause {s : State} {g : Group} {i : Instr} {h : Hdr} {p : Plan} {r : Report} (hi : s.issuing = some g)
    (hr : ready s g h p = true) (hc : causeAt i s g h p = some r)
    (hw : r.byWalk = true → awakeWords s (p.touches s g (effLanes g h)) = true) :
    runPlan i h p s = .next ((raise g.gid r).run
      (if r.byWalk then (readTables s (dieOfCore g.core) (p.touches s g (effLanes g h))).run s else s)) := by
  obtain ⟨-, hg, -, -⟩ := State.issuing_some hi
  cases hb : r.byWalk
  · simp [runPlan, hi, commit, attempt, hg, hr, hc, hb]
  · simp [runPlan, hi, commit, attempt, hg, hr, hc, hb, hw hb]

/-- An instruction that issues runs its bookkeeping, its effect and its settlement. -/
theorem runPlan_issues {s : State} {g : Group} {i : Instr} {h : Hdr} {p : Plan} (hi : Issues s g i h p) :
    runPlan i h p s =
      .next ((perform i h p g s).run ((readTables s (dieOfCore g.core) (p.touches s g (effLanes g h))).run s)) := by
  obtain ⟨-, hg, -, -⟩ := State.issuing_some hi.issuing
  have hroom : (p.wt s g (effLanes g h) && decide (waitTable s g.core ≥ 64)) = false := hi.room
  simp only [runPlan, hi.issuing, commit, attempt, Prog.run_dyn, hg, hi.ready, Bool.not_true, Bool.false_eq_true, if_false, hi.clear,
    hi.tables]
  rw [hroom]
  simp

/-- Reading no table word leaves the state. -/
@[simp] theorem readTables_nil (s : State) (die : Nat) (t : State) : (readTables s die []).run t = t := rfl

/-! ### What an issue leaves -/

/-- The region closes after the instruction. -/
def closesAfter (s : State) (g : Group) (h : Hdr) (p : Plan) : Bool :=
  selfWrites p || p.closes s (g.atIssue s h p) (acting s g h p)

@[simp] theorem Group.atIssue_s (g : Group) (s : State) (h : Hdr) (p : Plan) (r : Nat) : (g.atIssue s h p).s r = g.s r := by
  simp [Group.atIssue, Group.s, Group.sreg]

@[simp] theorem Group.atIssue_p (g : Group) (s : State) (h : Hdr) (p : Plan) (r : Nat) : (g.atIssue s h p).p r = g.p r := by
  simp [Group.atIssue, Group.p, Group.pred]

@[simp] theorem Group.atIssue_preg? (g : Group) (s : State) (h : Hdr) (p : Plan) (n : Nat) : (g.atIssue s h p).preg? n = g.preg? n := by
  simp [Group.atIssue]

@[simp] theorem Group.atIssue_vLanes (g : Group) (s : State) (h : Hdr) (p : Plan) (n : Nat) : (g.atIssue s h p).vLanes n = g.vLanes n := by
  simp [Group.vLanes]

@[simp] theorem Group.atIssue_vTag (g : Group) (s : State) (h : Hdr) (p : Plan) (n : Nat) : (g.atIssue s h p).vTag n = g.vTag n := by
  simp [Group.vTag]

@[simp] theorem Group.atIssue_vBad (g : Group) (s : State) (h : Hdr) (p : Plan) (n : Nat) : (g.atIssue s h p).vBad n = g.vBad n := by
  simp [Group.vBad]

@[simp] theorem Group.atIssue_val (g : Group) (s : State) (h : Hdr) (p : Plan) (b : Bool) (n l : Nat) :
    (g.atIssue s h p).val b n l = g.val b n l := by
  simp [Group.val]

@[simp] theorem Group.atIssue_gid (g : Group) (s : State) (h : Hdr) (p : Plan) : (g.atIssue s h p).gid = g.gid := by simp [Group.atIssue]
@[simp] theorem Group.atIssue_width (g : Group) (s : State) (h : Hdr) (p : Plan) : (g.atIssue s h p).width = g.width := by simp [Group.atIssue]
@[simp] theorem Group.atIssue_active (g : Group) (s : State) (h : Hdr) (p : Plan) : (g.atIssue s h p).active = g.active := by simp [Group.atIssue]
@[simp] theorem Group.atIssue_live (g : Group) (s : State) (h : Hdr) (p : Plan) : (g.atIssue s h p).live = g.live := by simp [Group.atIssue]
@[simp] theorem Group.atIssue_dead (g : Group) (s : State) (h : Hdr) (p : Plan) : (g.atIssue s h p).dead = g.dead := by simp [Group.atIssue]
@[simp] theorem Group.atIssue_team (g : Group) (s : State) (h : Hdr) (p : Plan) : (g.atIssue s h p).team = g.team := by simp [Group.atIssue]
@[simp] theorem Group.atIssue_part (g : Group) (s : State) (h : Hdr) (p : Plan) : (g.atIssue s h p).part = g.part := by simp [Group.atIssue]
@[simp] theorem Group.atIssue_core (g : Group) (s : State) (h : Hdr) (p : Plan) : (g.atIssue s h p).core = g.core := by simp [Group.atIssue]
@[simp] theorem Group.atIssue_pc (g : Group) (s : State) (h : Hdr) (p : Plan) : (g.atIssue s h p).pc = g.pc := by simp [Group.atIssue]
@[simp] theorem Group.atIssue_launch (g : Group) (s : State) (h : Hdr) (p : Plan) : (g.atIssue s h p).launch = g.launch := by simp [Group.atIssue]
@[simp] theorem Group.atIssue_sregs (g : Group) (s : State) (h : Hdr) (p : Plan) : (g.atIssue s h p).sregs = g.sregs := by simp [Group.atIssue]
@[simp] theorem Group.atIssue_preds (g : Group) (s : State) (h : Hdr) (p : Plan) : (g.atIssue s h p).preds = g.preds := by simp [Group.atIssue]
@[simp] theorem Group.atIssue_depths (g : Group) (s : State) (h : Hdr) (p : Plan) : (g.atIssue s h p).depths = g.depths := by simp [Group.atIssue]

@[simp] theorem VSrc.read_atIssue (x : VSrc) (g : Group) (s : State) (h : Hdr) (p : Plan) (l : Nat) :
    x.read (g.atIssue s h p) l = x.read g l := by
  simp [VSrc.read, VSrc.laneFor]

@[simp] theorem effLanes_atIssue (g : Group) (s : State) (h : Hdr) (p : Plan) : effLanes (g.atIssue s h p) h = effLanes g h := by
  simp [effLanes]

theorem VSrc.readBad_atIssue (x : VSrc) (g : Group) (s : State) (h : Hdr) (p : Plan) (l : Nat) :
    x.readBad (g.atIssue s h p) l = x.readBad g l := by
  simp [VSrc.readBad, VSrc.laneFor, Group.valBad]

/-- The group after the bookkeeping of an issue in which no lane dies. -/
structure Issued (i : Instr) (s : State) (g g' : Group) (h : Hdr) (p : Plan) : Prop where
  gid : g'.gid = g.gid
  life : g'.life = g.life
  hold : g'.hold = g.hold
  po : g'.po = g.po
  keeps : KeepsGroup g g'
  moves : MovesOn i g g'
  sregs : g'.sregs = g.sregs
  preds : g'.preds = g.preds
  depths : g'.depths = g.depths
  fflags : g'.fflags = g.fflags
  work : KeepsWork g g'
  owns : ∀ n ∈ dstNames p.dsts, g'.Owns n
  others : ∀ n, n ∉ touchedV p → g'.preg? n = g.preg? n
  lasts : ∀ n ∈ lastNames p.srcs, n ∉ dstNames p.dsts → g'.preg? n = none
  lanes : ∀ n l, laneOf (g'.vLanes n) l = laneOf ((g.unmap (lastNames p.srcs)).vLanes n) l
  tags : ∀ n, g'.vTag n = (g.unmap (lastNames p.srcs)).vTag n
  bads : ∀ n, g'.vBad n = (g.unmap (lastNames p.srcs)).vBad n

theorem foldl_prepare_fields (now : Nat) (k : LaneMask) (b : Lane) (ns : List Nat) (g : Group) :
    let g' := ns.foldl (fun g n => g.prepare now k b n) g
    g'.gid = g.gid ∧ g'.life = g.life ∧ g'.hold = g.hold ∧ g'.po = g.po ∧ g'.active = g.active ∧ g'.live = g.live ∧ g'.dead = g.dead ∧
      g'.stack = g.stack ∧ g'.core = g.core ∧ g'.quadrant = g.quadrant ∧ g'.slot = g.slot ∧ g'.team = g.team ∧ g'.launch = g.launch ∧
      g'.part = g.part ∧ g'.width = g.width ∧ g'.replays = g.replays ∧ g'.retryAt = g.retryAt ∧ g'.pc = g.pc ∧ g'.sig = g.sig ∧
      g'.sregs = g.sregs ∧ g'.preds = g.preds ∧ g'.depths = g.depths ∧ g'.fflags = g.fflags ∧ g'.outst = g.outst ∧ g'.groupId = g.groupId ∧
      g'.admitted = g.admitted := by
  induction ns generalizing g with
  | nil => simp
  | cons n ns ih =>
    have := ih (g.prepare now k b n)
    simpa using this

/-- The bookkeeping of an issue in which no lane dies (R113 to R117, R132). -/
theorem issued_spec (i : Instr) (s : State) (g : Group) (h : Hdr) (p : Plan) (eff : LaneMask) :
    Issued i s g ((g.atIssue s h p).issued i s p eff 0) h p := by
  have hk : ((g.atIssue s h p).kill 0) = g.atIssue s h p := by
    unfold Group.kill
    rw [show ~~~(0 : LaneMask) = BitVec.allOnes 64 from rfl, BitVec.and_allOnes, BitVec.and_allOnes, show (g.atIssue s h p).dead ||| (0 : LaneMask) = (g.atIssue s h p).dead from BitVec.or_zero]
  have hu : ∀ n, ((g.atIssue s h p).unmap (lastNames p.srcs)).preg? n = (g.unmap (lastNames p.srcs)).preg? n := by
    intro n; simp [Group.preg?_unmap]
  have hp := ((g.atIssue s h p).unmap (lastNames p.srcs)).prepared s.now ((g.atIssue s h p).otherLanes eff) p.keepBits (dstNames p.dsts)
  have hf := foldl_prepare_fields s.now ((g.atIssue s h p).otherLanes eff) p.keepBits (dstNames p.dsts) ((g.atIssue s h p).unmap (lastNames p.srcs))
  simp only [Group.unmap_gid, Group.unmap_life, Group.unmap_hold, Group.unmap_po, Group.unmap_active, Group.unmap_live, Group.unmap_dead,
    Group.unmap_stack, Group.unmap_core, Group.unmap_quadrant, Group.unmap_slot, Group.unmap_team, Group.unmap_launch, Group.unmap_part,
    Group.unmap_width, Group.unmap_replays, Group.unmap_retryAt, Group.unmap_pc, Group.unmap_sig, Group.unmap_sregs, Group.unmap_preds,
    Group.unmap_depths, Group.unmap_fflags, Group.unmap_outst, Group.unmap_groupId, Group.unmap_admitted] at hf
  unfold Group.issued
  simp only [hk]
  generalize (dstNames p.dsts).foldl (fun q n => q.prepare s.now ((g.atIssue s h p).otherLanes eff) p.keepBits n) ((g.atIssue s h p).unmap (lastNames p.srcs)) = g1 at *
  obtain ⟨h1, h2, h3, h4, h5, h6, h7, h8, h9, h10, h11, h12, h13, h14, h15, h16, h17, h18, h19, h20, h21, h22, h23, h24, h25, h26⟩ := hf
  have hv : ∀ n, ({ g1 with
      pc := g1.pc + instrSize i
      sig := shiftMajor g1.sig (majorOf i)
      taken := false
      regionFresh := false
      regionReads := (g1.regionReads ++ readsOf p.srcs).eraseDups
      stamp := s.now } : Group).preg? n = g1.preg? n := fun _ => rfl
  refine ⟨?_, ?_, ?_, ?_, ⟨⟨?_, ?_, ?_⟩, ?_, ⟨?_, ?_, ?_, ?_, ?_, ?_, ?_, ?_⟩, ⟨?_, ?_⟩⟩, ⟨?_, ?_⟩, ?_, ?_, ?_, ?_, ⟨?_, ?_, ?_, ?_, ?_⟩, ?_, ?_, ?_, ?_, ?_, ?_⟩
  all_goals try (simp_all [Group.atIssue]; done)
  · intro n hn
    obtain ⟨r, hr, ho⟩ := hp.owns n hn
    exact ⟨r, hr, ho⟩
  · intro n hn
    simp only [touchedV, List.mem_append, not_or] at hn
    refine (hv n).trans ?_
    rw [hp.others n hn.1, Group.preg?_unmap, if_neg hn.2, Group.atIssue_preg?]
  · intro n hn hd
    refine (hv n).trans ?_
    rw [hp.others n hd, Group.preg?_unmap, if_pos hn]
  · intro n l
    have := hp.lanes n l
    simp only [Group.vLanes, hv] at *
    rw [this]
    simp [Group.preg?_unmap]
  · intro n
    have := hp.tags n
    simp only [Group.vTag, hv] at *
    rw [this]
    simp [Group.preg?_unmap]
  · intro n
    have := hp.bads n
    simp only [Group.vBad, hv] at *
    rw [this]
    simp [Group.preg?_unmap]

/-- What an effect on the group alone may not touch. -/
structure Quiet (G : Group → Group) : Prop where
  gid : ∀ x, (G x).gid = x.gid
  life : ∀ x, (G x).life = x.life
  live : ∀ x, (G x).live = x.live
  active : ∀ x, (G x).active = x.active

theorem perform_run {s : State} {g : Group} (i : Instr) (h : Hdr) (p : Plan) :
    (perform i h p g s).run s =
      (Prog.change (settle (g.atIssue s h p).gid (closesAfter s g h p))).run
        ((if dying s g h p != 0 then fqEntry (g.atIssue s h p).part (groupEntry s (g.atIssue s h p)
            ⟨.uncorr, 2, lowLane (dying s g h p), 0, 0, dying s g h p, 0⟩ (g.atIssue s h p).pc) else Prog.done).run
          ((if p.acts == .lanes || effLanes g h != 0 then p.effect s (g.atIssue s h p) (acting s g h p) else Prog.done).run
            { s.modGrp g.gid (fun _ => (g.atIssue s h p).issued i s p (acting s g h p) (dying s g h p)) with seq := s.seq + 1 })) := by
  have h1 : (g.opened h p).pruneFences s = g.atIssue s h p := rfl
  have h2 := Prog.run_change (fun s' => { s'.modGrp (g.atIssue s h p).gid
    (fun _ => (g.atIssue s h p).issued i s' p (acting s g h p) (dying s g h p)) with seq := s'.seq + 1 }) s rfl rfl
  simp only [perform, h1, effLanes_atIssue, Prog.run_all_cons, Prog.run_all_nil]
  rw [← Group.atIssue_gid g s h p, ← h2]
  rfl

/-- The settlement of an issue that leaves an active lane. -/
theorem settle_active {s : State} {k : Nat} {g : Group} (close : Bool) (hg : s.grp? k = some g) (hl : g.life = .resident)
    (hv : g.live ≠ 0) (ha : g.active ≠ 0) : settle k close s = if close then s.modGrp k Group.closeRegion else s := by
  unfold settle
  simp only [hg, hl, bne_self_eq_false, Bool.false_eq_true, if_false, if_neg hv]
  rw [if_neg (by simp only [Bool.and_eq_true, decide_eq_true_eq]; exact fun h => ha h.1)]

/-- An instruction whose effect changes only its group, and of which no lane dies: the state it leaves. -/
theorem runPlan_quiet {s : State} {g : Group} {i : Instr} {h : Hdr} {p : Plan} (hi : Issues s g i h p) (hd : dying s g h p = 0)
    (ht : p.touches s g (effLanes g h) = []) (ha : p.acts = .lanes ∨ effLanes g h ≠ 0) (G : Group → Group) (hG : Quiet G)
    (he : p.effect s (g.atIssue s h p) (effLanes g h) = .change fun t => t.modGrp g.gid G) :
    runPlan i h p s = .next { s.modGrp g.gid fun _ =>
      if closesAfter s g h p then (G ((g.atIssue s h p).issued i s p (effLanes g h) 0)).closeRegion
      else G ((g.atIssue s h p).issued i s p (effLanes g h) 0) with seq := s.seq + 1 } := by
  obtain ⟨-, hg, hl, -⟩ := State.issuing_some hi.issuing
  have hS := issued_spec i s g h p (effLanes g h)
  have hact : g.active ≠ 0 := by
    have := hi.ready
    simp only [Machine.ready, Bool.and_eq_true, bne_iff_ne] at this
    tauto
  have hdo : acting s g h p = effLanes g h := by
    unfold acting
    rw [hd, show ~~~(0 : LaneMask) = BitVec.allOnes 64 from rfl, BitVec.and_allOnes]
  have hc : (p.acts == .lanes || effLanes g h != 0) = true := by
    rcases ha with ha | ha
    · simp [ha]
    · rw [bne_iff_ne.2 ha, Bool.or_true]
  rw [runPlan_issues hi, ht, readTables_nil, perform_run, hd, hdo, hc]
  generalize hg1 : (g.atIssue s h p).issued i s p (effLanes g h) 0 = g1 at *
  simp only [bne_self_eq_false, Bool.false_eq_true, if_false, if_true, Prog.run_done, he]
  congr 1
  rw [Prog.run_change (fun t => t.modGrp g.gid G) _ rfl rfl]
  have hid : ∀ x : Group, x.gid = g.gid → g1.gid = g.gid := fun _ _ => hS.gid
  have hm : ({ s.modGrp g.gid (fun _ => g1) with seq := s.seq + 1 } : State).modGrp g.gid G
      = { s.modGrp g.gid (fun _ => G g1) with seq := s.seq + 1 } := by
    have := State.modGrp_modGrp s g.gid (fun _ => g1) G hid
    simp only [State.modGrp] at this ⊢
    simp_all
  rw [hm]
  have hgt : ({ s.modGrp g.gid (fun _ => G g1) with seq := s.seq + 1 } : State).grp? g.gid = some (G g1) :=
    State.grp?_modGrp_self s g.gid (fun _ => G g1) g hg (fun _ _ => by rw [hG.gid, hS.gid])
  rw [Group.atIssue_gid]
  have hst := settle_active (closesAfter s g h p) hgt (by rw [hG.life, hS.life, hl]) (by rw [hG.live, hS.keeps.masks.2.1]; exact hi.alive)
    (by rw [hG.active, hS.keeps.masks.1]; exact hact)
  rw [Prog.run_change _ _ (by rw [hst]; split <;> rfl) (by rw [hst]; split <;> rfl), hst]
  split
  · have := State.modGrp_modGrp s g.gid (fun _ => G g1) Group.closeRegion (fun _ _ => by rw [hG.gid, hS.gid])
    simp only [State.modGrp] at this ⊢
    simp_all
  · rfl

/-! ### Entries of the fault queue -/

/-- Everything that the entry of a cause can do: it waits, is counted as dropped, or is written (R358, R405). -/
theorem fqEntry_run (p : Nat) (e : Entry) (s : State) :
    (fqEntry p e).run s =
      if fqHeld s p then s.modPart p fun q => { q with pendEntries := q.pendEntries ++ [(none, e)] }
      else if fqFull s p then (fqDrop p).run s
      else (fqWrite p e).run s := by
  simp only [fqEntry, Prog.run]
  split
  · rfl
  · split <;> rfl

end Sys2Proof.Machine
end

