-- ==== Sys2Proof/Laws/Lanes.lean ====
section
/-! SUPPORT. What lane-wise instructions, per-group instructions with a uniform result, and predicate writers leave (R122). -/

namespace Sys2Proof.Machine

set_option Elab.async false

/-- The next state of an instruction whose effect changes only its group, named part by part. -/
theorem runPlan_only {s : State} {g : Group} {i : Instr} {h : Hdr} {p : Plan} (hi : Issues s g i h p) (hd : dying s g h p = 0)
    (ht : p.touches s g (effLanes g h) = []) (ha : p.acts = .lanes ∨ effLanes g h ≠ 0) (G : Group → Group) (hG : Quiet G)
    (he : p.effect s (g.atIssue s h p) (effLanes g h) = .change fun t => t.modGrp g.gid G) :
    ∃ t g1 g', runPlan i h p s = .next t ∧ t.grp? g.gid = some g' ∧ OnlyGroup s t g.gid ∧ Issued i s g g1 h p ∧
      (g' = G g1 ∨ g' = (G g1).closeRegion) := by
  obtain ⟨-, hg, -, -⟩ := State.issuing_some hi.issuing
  have hS := issued_spec i s g h p (effLanes g h)
  generalize hg1 : (g.atIssue s h p).issued i s p (effLanes g h) 0 = g1 at hS
  have hr := runPlan_quiet hi hd ht ha G hG he
  rw [hg1] at hr
  have hid : ∀ x : Group, x.gid = g.gid → (if closesAfter s g h p then (G g1).closeRegion else G g1).gid = g.gid := by
    intro x _
    split
    · simpa [hG.gid] using hS.gid
    · rw [hG.gid, hS.gid]
  refine ⟨_, g1, _, hr, State.grp?_modGrp_self s g.gid _ g hg hid, ⟨rfl, fun k hk => State.grp?_modGrp_ne s g.gid k _ hid hk⟩, hS, ?_⟩
  split
  · exact .inr rfl
  · exact .inl rfl

theorem lookup_map_self (f : Nat → Word × FFlags) (ls : List Nat) (l : Nat) (h : l ∈ ls) :
    (((ls.map fun l => (l, f l)).map fun r => (r.1, r.2.1)).lookup l).getD 0 = (f l).1 := by
  induction ls with
  | nil => simp at h
  | cons x ls ih =>
    by_cases hx : l = x
    · subst hx; simp
    · have : (l == x) = false := by simpa using hx
      simp only [List.map_cons, List.lookup_cons, this]
      exact ih (by simpa [hx] using h)

theorem mem_lanesOf {m : LaneMask} {l : Nat} : l ∈ lanesOf m ↔ l < 64 ∧ m.getLsbD l = true := by
  simp [lanesOf]

/-- The halves of a pair put together again. -/
theorem hi_lo (w : Word) : (hiLane w ++ loLane w : BitVec 64) = w := by
  apply BitVec.eq_of_getLsbD_eq
  intro i hi
  simp only [hiLane, loLane, BitVec.getLsbD_append, BitVec.getLsbD_setWidth, BitVec.getLsbD_extractLsb']
  by_cases h : i < 32
  · simp [h]
  · have : i - 32 < 32 := by omega
    simp [h, this, show 32 + (i - 32) = i by omega]

theorem dstNames_dstV (pair : Bool) (vd : Nat) : dstNames (dstV pair vd) = regsOf pair vd := by
  cases pair
  · rfl
  · simp [dstNames, dstV, regsOf, List.eraseDups_cons]

theorem Group.preg?_raiseFlags (g : Group) (f : FFlags) (n : Nat) : (g.raiseFlags f).preg? n = g.preg? n := rfl

theorem touchedV_sub {p : Plan} {n : Nat} (h : n ∈ dstNames p.dsts) : n ∈ touchedV p := by simp [touchedV, h]

/-- The lanes of a name after a write of whole lanes to its own register. -/
theorem Group.lane_writeV0 (g : Group) (n : Nat) (e : LaneMask) (f : Nat → Lane) (t : BitVec 4) (r : Nat) (ho : g.Owns n) (l : Nat)
    (h : l < 64) : laneOf ((g.writeV n e f t r).vLanes n) l = if e.getLsbD l then f l else laneOf (g.vLanes n) l := by
  rw [Group.lane_writeV g n e f t r 0 ho l h]
  split
  · rw [show ~~~(0 : Lane) = BitVec.allOnes 32 from rfl, BitVec.and_allOnes, show laneOf (g.vLanes n) l &&& (0 : Lane) = 0#32 from BitVec.and_zero,
      BitVec.or_zero]
  · rfl

theorem Group.bad_writeV0 (g : Group) (n : Nat) (e : LaneMask) (f : Nat → Lane) (t : BitVec 4) (r : Nat) (ho : g.Owns n) :
    (g.writeV n e f t r).vBad n = g.vBad n &&& ~~~e := by
  rw [Group.bad_writeV g n e f t r 0 ho]
  rfl

theorem Group.vLanes_congr {g g' : Group} (h : ∀ n, g'.preg? n = g.preg? n) (n : Nat) : g'.vLanes n = g.vLanes n := by simp [Group.vLanes, h]
theorem Group.vTag_congr {g g' : Group} (h : ∀ n, g'.preg? n = g.preg? n) (n : Nat) : g'.vTag n = g.vTag n := by simp [Group.vTag, h]
theorem Group.vBad_congr {g g' : Group} (h : ∀ n, g'.preg? n = g.preg? n) (n : Nat) : g'.vBad n = g.vBad n := by simp [Group.vBad, h]
theorem Group.val_congr {g g' : Group} (h : ∀ n, g'.preg? n = g.preg? n) (b : Bool) (n l : Nat) : g'.val b n l = g.val b n l := by
  simp [Group.val, Group.vLanes_congr h]

/-- What closing a region leaves as it was. -/
theorem KeepsGroup.closeRegion {g g' : Group} (h : KeepsGroup g g') : KeepsGroup g g'.closeRegion := ⟨h.masks, h.stack, h.place, h.counts⟩
theorem KeepsWork.closeRegion {g g' : Group} (h : KeepsWork g g') : KeepsWork g g'.closeRegion := ⟨h.depths, h.outst, h.hold, h.place⟩
theorem MovesOn.closeRegion {i : Instr} {g g' : Group} (h : MovesOn i g g') : MovesOn i g g'.closeRegion := ⟨h.pc, h.sig⟩

/-- What the results of a lane-wise instruction leave in the registers. -/
theorem Group.writeResult_spec (g : Group) (pair : Bool) (vd : Nat) (eff : LaneMask) (res : List (Nat × Word)) (tag : BitVec 4) (r : Nat)
    (ho : ∀ n ∈ regsOf pair vd, g.Owns n) :
    (∀ l, l < 64 → eff.getLsbD l = true → (g.writeResult pair vd eff res tag r).val pair vd l =
      if pair then (res.lookup l).getD 0 else (((res.lookup l).getD 0).setWidth 32).setWidth 64) ∧
    (∀ n l, n ∈ regsOf pair vd → l < 64 → eff.getLsbD l = false →
      laneOf ((g.writeResult pair vd eff res tag r).vLanes n) l = laneOf (g.vLanes n) l) ∧
    (∀ n, n ∈ regsOf pair vd → (g.writeResult pair vd eff res tag r).vTag n = tag) ∧
    (∀ n, n ∈ regsOf pair vd → (g.writeResult pair vd eff res tag r).vBad n = g.vBad n &&& ~~~eff) ∧
    (∀ n, n ∉ regsOf pair vd → (g.writeResult pair vd eff res tag r).preg? n = g.preg? n) := by
  cases pair with
  | false =>
    have h0 : g.Owns vd := ho vd (by simp [regsOf])
    simp only [Group.writeResult, Bool.false_eq_true, if_false, regsOf, List.mem_singleton]
    refine ⟨fun l hl he => ?_, fun n l hn hl he => ?_, fun n hn => ?_, fun n hn => ?_, fun n hn => ?_⟩
    · simp only [Group.val, Bool.false_eq_true, if_false]
      rw [Group.lane_writeV0 _ _ _ _ _ _ h0 l hl]
      simp [he, loLane]
    · subst hn
      rw [Group.lane_writeV0 _ _ _ _ _ _ h0 l hl]
      simp [he]
    · subst hn; rw [Group.tag_writeV _ _ _ _ _ _ _ h0]
    · subst hn; rw [Group.bad_writeV0 _ _ _ _ _ _ h0]
    · rw [Group.preg?_writeV_ne _ _ _ _ _ _ _ _ h0 hn]
  | true =>
    have h0 : g.Owns vd := ho vd (by simp [regsOf])
    have h1 : g.Owns (vd + 1) := ho (vd + 1) (by simp [regsOf])
    simp only [Group.writeResult, if_true, regsOf, List.mem_cons, List.not_mem_nil, or_false]
    generalize hA : g.writeV vd eff (fun l => loLane ((res.lookup l).getD 0)) tag r = A
    have h1A : A.Owns (vd + 1) := hA ▸ h1.writeV _ _ _ _ _ _
    have e1 : ∀ n, n ≠ vd → A.preg? n = g.preg? n := fun n hn => by rw [← hA, Group.preg?_writeV_ne _ _ _ _ _ _ _ _ h0 hn]
    have e0 : ∀ (f : Nat → Lane), (A.writeV (vd + 1) eff f tag r).preg? vd = A.preg? vd := fun f =>
      Group.preg?_writeV_ne _ _ _ _ _ _ _ _ h1A (by omega)
    refine ⟨fun l hl he => ?_, fun n l hn hl he => ?_, fun n hn => ?_, fun n hn => ?_, fun n hn => ?_⟩
    · simp only [Group.val, if_true]
      rw [Group.lane_writeV0 _ _ _ _ _ _ h1A l hl]
      simp only [he, if_true]
      have : laneOf ((A.writeV (vd + 1) eff (fun l => hiLane ((res.lookup l).getD 0)) tag r).vLanes vd) l = loLane ((res.lookup l).getD 0) := by
        simp only [Group.vLanes, e0]
        have := Group.lane_writeV0 g vd eff (fun l => loLane ((res.lookup l).getD 0)) tag r h0 l hl
        simp only [Group.vLanes, hA] at this
        rw [this]
        simp [he]
      rw [this, hi_lo]
    · rcases hn with hn | hn
      · subst hn
        simp only [Group.vLanes, e0]
        have := Group.lane_writeV0 g n eff (fun l => loLane ((res.lookup l).getD 0)) tag r h0 l hl
        simp only [Group.vLanes, hA] at this
        rw [this]
        simp [he]
      · subst hn
        rw [Group.lane_writeV0 _ _ _ _ _ _ h1A l hl]
        simp only [he, Bool.false_eq_true, if_false, Group.vLanes, e1 (vd + 1) (by omega)]
    · rcases hn with hn | hn
      · subst hn
        have := Group.tag_writeV g n eff (fun l => loLane ((res.lookup l).getD 0)) tag r 0 h0
        simp only [Group.vTag, hA] at this
        simp only [Group.vTag, e0, this]
      · subst hn; rw [Group.tag_writeV _ _ _ _ _ _ _ h1A]
    · rcases hn with hn | hn
      · subst hn
        have := Group.bad_writeV0 g n eff (fun l => loLane ((res.lookup l).getD 0)) tag r h0
        simp only [Group.vBad, hA] at this
        simp only [Group.vBad, e0, this]
      · subst hn
        rw [Group.bad_writeV0 _ _ _ _ _ _ h1A]
        simp only [Group.vBad, e1 (vd + 1) (by omega)]
    · have hn' : n ≠ vd ∧ n ≠ vd + 1 := by simpa [not_or] using hn
      rw [Group.preg?_writeV_ne _ _ _ _ _ _ _ _ h1A hn'.2, e1 n hn'.1]

/-- A lane-wise instruction without dying lanes (R122, R136, R179, R197). -/
theorem runPlan_lanes {s : State} {g : Group} {i j : Instr} {h : Hdr} {p : Plan} {vd lat : Nat} {pair : Bool} {xs : List VSrc}
    {us : List Src} {tag : Group → BitVec 4} {f : Group → Nat → List Word → Word × FFlags}
    (hp : lanePlan j vd pair xs us tag lat f = p) (hi : Issues s g i h p) (hd : dying s g h p = 0)
    (hf : f (g.atIssue s h p) = f g) (htag : tag (g.atIssue s h p) = tag g) :
    ∃ t g', runPlan i h p s = .next t ∧ t.grp? g.gid = some g' ∧ OnlyGroup s t g.gid ∧
      WroteLanes i g g' h p pair vd (tag g) fun l => f g l (xs.map fun x => x.read g l) := by
  have hacts : p.acts = .lanes := by rw [← hp]; rfl
  have hdst : p.dsts = dstV pair vd := by rw [← hp]; rfl
  have htch : p.touches s g (effLanes g h) = [] := by rw [← hp]; rfl
  let res := (lanesOf (effLanes g h)).map fun l => (l, f g l (xs.map fun x => x.read g l))
  let G := fun x : Group => (x.writeResult pair vd (effLanes g h) (res.map fun r => (r.1, r.2.1)) (tag g) (s.now + lat)).raiseFlags
    (orFlags (res.map fun r => r.2.2))
  have he : p.effect s (g.atIssue s h p) (effLanes g h) = .change fun t => t.modGrp g.gid G := by
    have : p.effect = (lanePlan j vd pair xs us tag lat f).effect := by rw [hp]
    rw [this]
    simp only [lanePlan, Group.atIssue_gid, VSrc.read_atIssue, hf, htag, G, res]
  obtain ⟨t, g1, g', hr, hg', ho, hS, hcl⟩ := runPlan_only hi hd htch (.inl hacts) G
    ⟨fun _ => by simp [G], fun _ => by simp [G], fun _ => by simp [G], fun _ => by simp [G]⟩ he
  refine ⟨t, g', hr, hg', ho, ?_⟩
  have hn : dstNames p.dsts = regsOf pair vd := by rw [hdst, dstNames_dstV]
  obtain ⟨w1, w2, w3, w4, w5⟩ := g1.writeResult_spec pair vd (effLanes g h) (res.map fun r => (r.1, r.2.1)) (tag g) (s.now + lat)
    (fun n hm => hS.owns n (by rw [hn]; exact hm))
  have hpreg : ∀ n, g'.preg? n = (g1.writeResult pair vd (effLanes g h) (res.map fun r => (r.1, r.2.1)) (tag g) (s.now + lat)).preg? n := by
    intro n
    rcases hcl with rfl | rfl
    · rfl
    · rw [Group.preg?_closeRegion]; rfl
  have hres : ∀ l, l < 64 → (effLanes g h).getLsbD l = true → ((res.map fun r => (r.1, r.2.1)).lookup l).getD 0 = (f g l (xs.map fun x => x.read g l)).1 :=
    fun l hl hel => lookup_map_self (fun l => f g l (xs.map fun x => x.read g l)) _ l (mem_lanesOf.2 ⟨hl, hel⟩)
  have hfl : g'.fflags = g.fflags ||| orFlags ((lanesOf (effLanes g h)).map fun l => (f g l (xs.map fun x => x.read g l)).2) := by
    have : (G g1).fflags = g.fflags ||| orFlags (res.map fun r => r.2.2) := by
      simp [G, Group.raiseFlags, hS.fflags]
    have e : (res.map fun r => r.2.2) = (lanesOf (effLanes g h)).map fun l => (f g l (xs.map fun x => x.read g l)).2 := by simp [res, List.map_map, Function.comp_def]
    rw [← e, ← this]
    rcases hcl with rfl | rfl <;> simp
  have hk : KeepsGroup g (G g1) := by
    obtain ⟨⟨a1, a2, a3⟩, b, ⟨c1, c2, c3, c4, c5, c6, c7, c8⟩, d1, d2⟩ := hS.keeps
    exact ⟨⟨by simp [G, a1], by simp [G, a2], by simp [G, a3]⟩, by simp [G, b], ⟨by simp [G, c1], by simp [G, c2], by simp [G, c3],
      by simp [G, c4], by simp [G, c5], by simp [G, c6], by simp [G, c7], by simp [G, c8]⟩, by simp [G, d1], by simp [G, d2]⟩
  have hw : KeepsWork g (G g1) := by
    obtain ⟨a, b, c, d1, d2⟩ := hS.work
    exact ⟨by simp [G, a], by simp [G, b], by simp [G, c], by simp [G, d1], by simp [G, d2]⟩
  have hm : MovesOn i g (G g1) := by
    obtain ⟨a, b⟩ := hS.moves
    exact ⟨by simp [G, a], by simp [G, b]⟩
  have hsr : (G g1).sregs = g.sregs ∧ (G g1).preds = g.preds := ⟨by simp [G, hS.sregs], by simp [G, hS.preds]⟩
  replace hk : KeepsGroup g g' := by rcases hcl with rfl | rfl; exacts [hk, hk.closeRegion]
  replace hw : KeepsWork g g' := by rcases hcl with rfl | rfl; exacts [hw, hw.closeRegion]
  replace hm : MovesOn i g g' := by rcases hcl with rfl | rfl; exacts [hm, hm.closeRegion]
  replace hsr : g'.sregs = g.sregs ∧ g'.preds = g.preds := by rcases hcl with rfl | rfl; exacts [hsr, hsr]
  refine ⟨fun l hl hel => ?_, fun n l hnn hl hel => ?_, fun n hnn => ?_, fun n hnn => ?_, hfl, fun n hnl hnn => ?_, ⟨fun n hnt => ?_, ?_, ?_⟩, hk, hw, hm⟩
  · rw [Group.val_congr hpreg, w1 l hl hel, hres l hl hel]
  · rw [Group.vLanes_congr hpreg, w2 n l hnn hl hel]
    exact hS.lanes n l
  · rw [Group.vTag_congr hpreg, w3 n hnn]
  · rw [Group.vBad_congr hpreg, w4 n hnn, hS.bads n]
  · rw [hpreg, w5 n hnn]
    have h1 := hS.lasts n hnl (by rw [hn]; exact hnn)
    exact h1
  · rw [hpreg, w5 n (fun hm => hnt (by simp [touchedV, hn, hm])), hS.others n hnt]
  · intro r _; exact Group.sreg_congr hsr.1 r
  · intro r _; exact Group.pred_congr hsr.2 r

/-- A per-group instruction that writes a uniform register (R122). -/
theorem runPlan_uniform {s : State} {g : Group} {i : Instr} {h : Hdr} {p : Plan} {sd lat : Nat} {v : Word} (hi : Issues s g i h p)
    (ha : p.acts = .group) (hn : effLanes g h ≠ 0) (htch : p.touches s g (effLanes g h) = []) (hds : p.dsts = [.s sd])
    (he : p.effect s (g.atIssue s h p) (effLanes g h) = .change fun t => t.modGrp g.gid fun x => x.setS (s.now + lat) sd v) :
    ∃ t g', runPlan i h p s = .next t ∧ t.grp? g.gid = some g' ∧ OnlyGroup s t g.gid ∧ WroteUniform i s g g' p sd lat v := by
  have hd : dying s g h p = 0 := by simp [dying, ha]
  let G := fun x : Group => x.setS (s.now + lat) sd v
  obtain ⟨t, g1, g', hr, hg', ho, hS, hcl⟩ := runPlan_only hi hd htch (.inr hn) G
    ⟨fun _ => by simp [G], fun _ => by simp [G], fun _ => by simp [G], fun _ => by simp [G]⟩ he
  have hdn : dstNames p.dsts = [] := by rw [hds]; rfl
  have hk : KeepsGroup g (G g1) := by
    obtain ⟨⟨a1, a2, a3⟩, b, ⟨c1, c2, c3, c4, c5, c6, c7, c8⟩, d1, d2⟩ := hS.keeps
    exact ⟨⟨by simp [G, a1], by simp [G, a2], by simp [G, a3]⟩, by simp [G, b], ⟨by simp [G, c1], by simp [G, c2], by simp [G, c3],
      by simp [G, c4], by simp [G, c5], by simp [G, c6], by simp [G, c7], by simp [G, c8]⟩, by simp [G, d1], by simp [G, d2]⟩
  have hw : KeepsWork g (G g1) := by
    obtain ⟨a, b, c, d1, d2⟩ := hS.work
    exact ⟨by simp [G, a], by simp [G, b], by simp [G, c], by simp [G, d1], by simp [G, d2]⟩
  have hm : MovesOn i g (G g1) := by
    obtain ⟨a, b⟩ := hS.moves
    exact ⟨by simp [G, a], by simp [G, b]⟩
  have hpreg : ∀ n, g'.preg? n = g1.preg? n := by
    intro n
    have : (G g1).preg? n = g1.preg? n := Group.preg?_congr (by simp [G]) (by simp [G]) n
    rcases hcl with rfl | rfl
    · exact this
    · rw [Group.preg?_closeRegion, this]
  have hsr : ∀ r, g'.sreg r = if sd ≠ 0 ∧ r = sd then ⟨v, some (s.now + lat), false⟩ else g.sreg r := by
    intro r
    have h1 : g'.sreg r = (g1.setS (s.now + lat) sd v).sreg r := by rcases hcl with rfl | rfl <;> rfl
    rw [h1, Group.sreg_setS, Group.sreg_congr hS.sregs]
  have hp : g'.preds = g.preds := by
    have : (G g1).preds = g.preds := by simp [G, hS.preds]
    rcases hcl with rfl | rfl <;> exact this
  have hf : g'.fflags = g.fflags := by
    have : (G g1).fflags = g.fflags := by simp [G, hS.fflags]
    rcases hcl with rfl | rfl <;> exact this
  refine ⟨t, g', hr, hg', ho, ⟨?_, fun hz => by rw [hsr, if_pos ⟨hz, rfl⟩], fun n hn => ?_, ⟨fun n hn => ?_, fun r hr => ?_, fun r _ => Group.pred_congr hp r⟩,
    ?_, hf, by rcases hcl with rfl | rfl; exacts [hk, hk.closeRegion], by rcases hcl with rfl | rfl; exacts [hw, hw.closeRegion],
    by rcases hcl with rfl | rfl; exacts [hm, hm.closeRegion]⟩⟩
  · by_cases hz : sd = 0
    · simp [hz]
    · simp [Group.s, hz, hsr]
  · rw [hpreg, hS.lasts n hn (by simp [hdn])]
  · rw [hpreg, hS.others n hn]
  · rw [hsr, if_neg (by simp at hr; simp [hr])]
  · rw [hsr, if_neg (fun h => h.1 h.2.symm)]

/-- A predicate writer without dying lanes (R82, R122). -/
theorem runPlan_predicate {s : State} {g : Group} {i : Instr} {h : Hdr} {p : Plan} {pd : Nat} {m bits : LaneMask} {r : Option Nat} {fl : FFlags}
    (hi : Issues s g i h p) (hd : dying s g h p = 0) (ha : p.acts = .lanes ∨ effLanes g h ≠ 0)
    (htch : p.touches s g (effLanes g h) = []) (hds : p.dsts = [.p pd])
    (he : p.effect s (g.atIssue s h p) (effLanes g h) = .change fun t => t.modGrp g.gid fun x => (x.setP pd m bits r).raiseFlags fl) :
    ∃ t g', runPlan i h p s = .next t ∧ t.grp? g.gid = some g' ∧ OnlyGroup s t g.gid ∧ WrotePredicate i g g' p pd m bits ∧
      g'.fflags = g.fflags ||| fl ∧ (g'.pred pd).ready = r := by
  let G := fun x : Group => (x.setP pd m bits r).raiseFlags fl
  obtain ⟨t, g1, g', hr, hg', ho, hS, hcl⟩ := runPlan_only hi hd htch ha G
    ⟨fun _ => by simp [G], fun _ => by simp [G], fun _ => by simp [G], fun _ => by simp [G]⟩ he
  have hdn : dstNames p.dsts = [] := by rw [hds]; rfl
  have hk : KeepsGroup g (G g1) := by
    obtain ⟨⟨a1, a2, a3⟩, b, ⟨c1, c2, c3, c4, c5, c6, c7, c8⟩, d1, d2⟩ := hS.keeps
    exact ⟨⟨by simp [G, a1], by simp [G, a2], by simp [G, a3]⟩, by simp [G, b], ⟨by simp [G, c1], by simp [G, c2], by simp [G, c3],
      by simp [G, c4], by simp [G, c5], by simp [G, c6], by simp [G, c7], by simp [G, c8]⟩, by simp [G, d1], by simp [G, d2]⟩
  have hw : KeepsWork g (G g1) := by
    obtain ⟨a, b, c, d1, d2⟩ := hS.work
    exact ⟨by simp [G, a], by simp [G, b], by simp [G, c], by simp [G, d1], by simp [G, d2]⟩
  have hm : MovesOn i g (G g1) := by
    obtain ⟨a, b⟩ := hS.moves
    exact ⟨by simp [G, a], by simp [G, b]⟩
  have hpreg : ∀ n, g'.preg? n = g1.preg? n := by
    intro n
    have : (G g1).preg? n = g1.preg? n := Group.preg?_congr (by simp [G]) (by simp [G]) n
    rcases hcl with rfl | rfl
    · exact this
    · rw [Group.preg?_closeRegion, this]
  have hpr : ∀ k, g'.pred k = if k = pd then ⟨(g.p pd &&& ~~~m) ||| (bits &&& m), r⟩ else g.pred k := by
    intro k
    have h1 : g'.pred k = (g1.setP pd m bits r).pred k := by rcases hcl with rfl | rfl <;> rfl
    rw [h1, Group.pred_setP, Group.pred_congr hS.preds, Group.p, Group.pred_congr hS.preds]
    rfl
  have hsr : g'.sregs = g.sregs := by
    have : (G g1).sregs = g.sregs := by simp [G, hS.sregs]
    rcases hcl with rfl | rfl <;> exact this
  have hf : g'.fflags = g.fflags ||| fl := by
    have : (G g1).fflags = g.fflags ||| fl := by simp [G, Group.raiseFlags, hS.fflags]
    rcases hcl with rfl | rfl <;> exact this
  refine ⟨t, g', hr, hg', ho, ⟨fun l hl => ?_, fun n hn => ?_, ⟨fun n hn => ?_, fun r _ => Group.sreg_congr hsr r, fun k hk => ?_⟩,
    by rcases hcl with rfl | rfl; exacts [hk, hk.closeRegion], by rcases hcl with rfl | rfl; exacts [hw, hw.closeRegion],
    by rcases hcl with rfl | rfl; exacts [hm, hm.closeRegion]⟩, hf, by rw [hpr, if_pos rfl]⟩
  · rw [Group.p, hpr, if_pos rfl]
    simp only [BitVec.getLsbD_or, BitVec.getLsbD_and, BitVec.getLsbD_not, hl, decide_true, Bool.true_and]
    cases m.getLsbD l <;> simp
  · rw [hpreg, hS.lasts n hn (by simp [hdn])]
  · rw [hpreg, hS.others n hn]
  · rw [hpr, if_neg (by simpa using hk)]

end Sys2Proof.Machine
end

