-- ==== Sys2Proof/Laws/PerInstr.lean ====
section
/-! SUPPORT. One lemma per constructor of `Instr`: the bytes of a well-formed instruction decode to it (R71 to R93, R103). -/

namespace Sys2Proof.Laws.RoundTrip

set_option Elab.async false

/-- The bytes of a well-formed instruction, whatever follows them, decode to the instruction. -/
def Statement (i : Instr) : Prop :=
  ∀ (width : Nat) (bs : List Byte), i.isEvent = false → i.WellFormed width → decode width (encodeBytes i ++ bs) = .instr i

theorem event {i : Instr} (h : i.isEvent = true) : Statement i := fun _ _ h' => by rw [h] at h'; exact absurd h' (by decide)

theorem short {i : Instr} {w m : Word} (he : encode i = [w]) (hr : ∀ x, rawOf w x = ⟨i, m, none⟩) (hm : w &&& m = 0#64) :
    Statement i := by
  intro width bs _ hw
  have hl : isLong w = false := by simp [isLong, hr]
  simp only [encodeBytes, he, List.flatMap_cons, List.flatMap_nil, List.append_nil]
  rw [decode_short bs hl]
  exact decodeWords_short (hr 0) hm hw

theorem long {i : Instr} {w x m mx : Word} (he : encode i = [w, x]) (hr : rawOf w x = ⟨i, m, some mx⟩) (hl : isLong w = true)
    (hx : x.extractLsb' 56 8 = 0xFF) (hm : w &&& m = 0#64) (hmx : x &&& mx = 0#64) : Statement i := by
  intro width bs _ hw
  simp only [encodeBytes, he, List.flatMap_cons, List.flatMap_nil, List.append_nil, List.append_assoc]
  rw [decode_long bs hl]
  exact decodeWords_long hr hx hm hmx hw

/-- The form bits of a VR word (R220). -/
theorem form_putVR (m : BitVec 8) (h : Hdr) (f : VR) : (putVR m h f).extractLsb' 31 2 = f.va.extractLsb' 0 2 := by
  simp only [putVR, putHdr]
  simp (disch := decide) only [extract_or, extract_field_in, extract_field_off, Nat.reduceSub, extract_flag_off, BitVec.or_zero, BitVec.zero_or]

/-- A well-formed `kpop` has its form's number in va[1:0] (R220). -/
theorem kpop_form {h : Hdr} {f : VR} {n : Nat} (hi : (kpopChecks n h f).item = none) : (f.va.extractLsb' 0 2).toNat = n := by
  have hv : (kpopChecks n h f).vals = true := by
    cases hc : (kpopChecks n h f).vals with
    | true => rfl
    | false =>
      simp only [Checks.item, hc] at hi
      split at hi <;> simp at hi
  simp only [kpopChecks, Bool.and_eq_true, beq_iff_eq] at hv
  rw [BitVec.extractLsb'_toNat, Nat.shiftRight_zero]
  exact hv.2

theorem addVr (h : Hdr) (f : VR) : Statement (.addVr h f) := by
  refine short rfl (fun x => ?_) (mask_putVR _ h f)
  rw [rawOf, majorHi_putVR, majorLo_putVR]
  show rawVR .addVr _ = _
  rw [rawVR, hdrOf_putVR, getVR_putVR]

theorem subVr (h : Hdr) (f : VR) : Statement (.subVr h f) := by
  refine short rfl (fun x => ?_) (mask_putVR _ h f)
  rw [rawOf, majorHi_putVR, majorLo_putVR]
  show rawVR .subVr _ = _
  rw [rawVR, hdrOf_putVR, getVR_putVR]

theorem mulVr (h : Hdr) (f : VR) : Statement (.mulVr h f) := by
  refine short rfl (fun x => ?_) (mask_putVR _ h f)
  rw [rawOf, majorHi_putVR, majorLo_putVR]
  show rawVR .mulVr _ = _
  rw [rawVR, hdrOf_putVR, getVR_putVR]

theorem mulhi (h : Hdr) (f : VR) : Statement (.mulhi h f) := by
  refine short rfl (fun x => ?_) (mask_putVR _ h f)
  rw [rawOf, majorHi_putVR, majorLo_putVR]
  show rawVR .mulhi _ = _
  rw [rawVR, hdrOf_putVR, getVR_putVR]

theorem minVr (h : Hdr) (f : VR) : Statement (.minVr h f) := by
  refine short rfl (fun x => ?_) (mask_putVR _ h f)
  rw [rawOf, majorHi_putVR, majorLo_putVR]
  show rawVR .minVr _ = _
  rw [rawVR, hdrOf_putVR, getVR_putVR]

theorem maxVr (h : Hdr) (f : VR) : Statement (.maxVr h f) := by
  refine short rfl (fun x => ?_) (mask_putVR _ h f)
  rw [rawOf, majorHi_putVR, majorLo_putVR]
  show rawVR .maxVr _ = _
  rw [rawVR, hdrOf_putVR, getVR_putVR]

theorem abs (h : Hdr) (f : VR) : Statement (.abs h f) := by
  refine short rfl (fun x => ?_) (mask_putVR _ h f)
  rw [rawOf, majorHi_putVR, majorLo_putVR]
  show rawVR .abs _ = _
  rw [rawVR, hdrOf_putVR, getVR_putVR]

theorem neg (h : Hdr) (f : VR) : Statement (.neg h f) := by
  refine short rfl (fun x => ?_) (mask_putVR _ h f)
  rw [rawOf, majorHi_putVR, majorLo_putVR]
  show rawVR .neg _ = _
  rw [rawVR, hdrOf_putVR, getVR_putVR]

theorem div (h : Hdr) (f : VR) : Statement (.div h f) := by
  refine short rfl (fun x => ?_) (mask_putVR _ h f)
  rw [rawOf, majorHi_putVR, majorLo_putVR]
  show rawVR .div _ = _
  rw [rawVR, hdrOf_putVR, getVR_putVR]

theorem rem (h : Hdr) (f : VR) : Statement (.rem h f) := by
  refine short rfl (fun x => ?_) (mask_putVR _ h f)
  rw [rawOf, majorHi_putVR, majorLo_putVR]
  show rawVR .rem _ = _
  rw [rawVR, hdrOf_putVR, getVR_putVR]

theorem shlVr (h : Hdr) (f : VR) : Statement (.shlVr h f) := by
  refine short rfl (fun x => ?_) (mask_putVR _ h f)
  rw [rawOf, majorHi_putVR, majorLo_putVR]
  show rawVR .shlVr _ = _
  rw [rawVR, hdrOf_putVR, getVR_putVR]

theorem shrVr (h : Hdr) (f : VR) : Statement (.shrVr h f) := by
  refine short rfl (fun x => ?_) (mask_putVR _ h f)
  rw [rawOf, majorHi_putVR, majorLo_putVR]
  show rawVR .shrVr _ = _
  rw [rawVR, hdrOf_putVR, getVR_putVR]

theorem rshrVr (h : Hdr) (f : VR) : Statement (.rshrVr h f) := by
  refine short rfl (fun x => ?_) (mask_putVR _ h f)
  rw [rawOf, majorHi_putVR, majorLo_putVR]
  show rawVR .rshrVr _ = _
  rw [rawVR, hdrOf_putVR, getVR_putVR]

theorem adiff (h : Hdr) (f : VR) : Statement (.adiff h f) := by
  refine short rfl (fun x => ?_) (mask_putVR _ h f)
  rw [rawOf, majorHi_putVR, majorLo_putVR]
  show rawVR .adiff _ = _
  rw [rawVR, hdrOf_putVR, getVR_putVR]

theorem mad (h : Hdr) (f : V3) : Statement (.mad h f) := by
  refine short rfl (fun x => ?_) (mask_putV3 _ h f)
  rw [rawOf, majorHi_putV3, majorLo_putV3]
  show rawV3 .mad _ = _
  rw [rawV3, hdrOf_putV3, getV3_putV3]

theorem andVr (h : Hdr) (f : VR) : Statement (.andVr h f) := by
  refine short rfl (fun x => ?_) (mask_putVR _ h f)
  rw [rawOf, majorHi_putVR, majorLo_putVR]
  show rawVR .andVr _ = _
  rw [rawVR, hdrOf_putVR, getVR_putVR]

theorem orVr (h : Hdr) (f : VR) : Statement (.orVr h f) := by
  refine short rfl (fun x => ?_) (mask_putVR _ h f)
  rw [rawOf, majorHi_putVR, majorLo_putVR]
  show rawVR .orVr _ = _
  rw [rawVR, hdrOf_putVR, getVR_putVR]

theorem xorVr (h : Hdr) (f : VR) : Statement (.xorVr h f) := by
  refine short rfl (fun x => ?_) (mask_putVR _ h f)
  rw [rawOf, majorHi_putVR, majorLo_putVR]
  show rawVR .xorVr _ = _
  rw [rawVR, hdrOf_putVR, getVR_putVR]

theorem andn (h : Hdr) (f : VR) : Statement (.andn h f) := by
  refine short rfl (fun x => ?_) (mask_putVR _ h f)
  rw [rawOf, majorHi_putVR, majorLo_putVR]
  show rawVR .andn _ = _
  rw [rawVR, hdrOf_putVR, getVR_putVR]

theorem notVr (h : Hdr) (f : VR) : Statement (.notVr h f) := by
  refine short rfl (fun x => ?_) (mask_putVR _ h f)
  rw [rawOf, majorHi_putVR, majorLo_putVR]
  show rawVR .notVr _ = _
  rw [rawVR, hdrOf_putVR, getVR_putVR]

theorem movVr (h : Hdr) (f : VR) : Statement (.movVr h f) := by
  refine short rfl (fun x => ?_) (mask_putVR _ h f)
  rw [rawOf, majorHi_putVR, majorLo_putVR]
  show rawVR .movVr _ = _
  rw [rawVR, hdrOf_putVR, getVR_putVR]

theorem popc (h : Hdr) (f : VR) : Statement (.popc h f) := by
  refine short rfl (fun x => ?_) (mask_putVR _ h f)
  rw [rawOf, majorHi_putVR, majorLo_putVR]
  show rawVR .popc _ = _
  rw [rawVR, hdrOf_putVR, getVR_putVR]

theorem clz (h : Hdr) (f : VR) : Statement (.clz h f) := by
  refine short rfl (fun x => ?_) (mask_putVR _ h f)
  rw [rawOf, majorHi_putVR, majorLo_putVR]
  show rawVR .clz _ = _
  rw [rawVR, hdrOf_putVR, getVR_putVR]

theorem ctz (h : Hdr) (f : VR) : Statement (.ctz h f) := by
  refine short rfl (fun x => ?_) (mask_putVR _ h f)
  rw [rawOf, majorHi_putVR, majorLo_putVR]
  show rawVR .ctz _ = _
  rw [rawVR, hdrOf_putVR, getVR_putVR]

theorem brev (h : Hdr) (f : VR) : Statement (.brev h f) := by
  refine short rfl (fun x => ?_) (mask_putVR _ h f)
  rw [rawOf, majorHi_putVR, majorLo_putVR]
  show rawVR .brev _ = _
  rw [rawVR, hdrOf_putVR, getVR_putVR]

theorem bdep (h : Hdr) (f : VR) : Statement (.bdep h f) := by
  refine short rfl (fun x => ?_) (mask_putVR _ h f)
  rw [rawOf, majorHi_putVR, majorLo_putVR]
  show rawVR .bdep _ = _
  rw [rawVR, hdrOf_putVR, getVR_putVR]

theorem bext (h : Hdr) (f : VR) : Statement (.bext h f) := by
  refine short rfl (fun x => ?_) (mask_putVR _ h f)
  rw [rawOf, majorHi_putVR, majorLo_putVR]
  show rawVR .bext _ = _
  rw [rawVR, hdrOf_putVR, getVR_putVR]

theorem bperm (h : Hdr) (f : VR) : Statement (.bperm h f) := by
  refine short rfl (fun x => ?_) (mask_putVR _ h f)
  rw [rawOf, majorHi_putVR, majorLo_putVR]
  show rawVR .bperm _ = _
  rw [rawVR, hdrOf_putVR, getVR_putVR]

theorem gfmat (h : Hdr) (f : VR) : Statement (.gfmat h f) := by
  refine short rfl (fun x => ?_) (mask_putVR _ h f)
  rw [rawOf, majorHi_putVR, majorLo_putVR]
  show rawVR .gfmat _ = _
  rw [rawVR, hdrOf_putVR, getVR_putVR]

theorem bfx (h : Hdr) (f : VI) : Statement (.bfx h f) := by
  refine short rfl (fun x => ?_) (mask_putVI _ h f)
  rw [rawOf, majorHi_putVI, majorLo_putVI]
  show rawVI .bfx _ = _
  rw [rawVI, hdrOf_putVI, getVI_putVI]

theorem bfi (h : Hdr) (f : V3) : Statement (.bfi h f) := by
  refine short rfl (fun x => ?_) (mask_putV3 _ h f)
  rw [rawOf, majorHi_putV3, majorLo_putV3]
  show rawV3 .bfi _ = _
  rw [rawV3, hdrOf_putV3, getV3_putV3]

theorem addVi (h : Hdr) (f : VI) : Statement (.addVi h f) := by
  refine short rfl (fun x => ?_) (mask_putVI _ h f)
  rw [rawOf, majorHi_putVI, majorLo_putVI]
  show rawVI .addVi _ = _
  rw [rawVI, hdrOf_putVI, getVI_putVI]

theorem rsub (h : Hdr) (f : VI) : Statement (.rsub h f) := by
  refine short rfl (fun x => ?_) (mask_putVI _ h f)
  rw [rawOf, majorHi_putVI, majorLo_putVI]
  show rawVI .rsub _ = _
  rw [rawVI, hdrOf_putVI, getVI_putVI]

theorem mulVi (h : Hdr) (f : VI) : Statement (.mulVi h f) := by
  refine short rfl (fun x => ?_) (mask_putVI _ h f)
  rw [rawOf, majorHi_putVI, majorLo_putVI]
  show rawVI .mulVi _ = _
  rw [rawVI, hdrOf_putVI, getVI_putVI]

theorem andVi (h : Hdr) (f : VI) : Statement (.andVi h f) := by
  refine short rfl (fun x => ?_) (mask_putVI _ h f)
  rw [rawOf, majorHi_putVI, majorLo_putVI]
  show rawVI .andVi _ = _
  rw [rawVI, hdrOf_putVI, getVI_putVI]

theorem orVi (h : Hdr) (f : VI) : Statement (.orVi h f) := by
  refine short rfl (fun x => ?_) (mask_putVI _ h f)
  rw [rawOf, majorHi_putVI, majorLo_putVI]
  show rawVI .orVi _ = _
  rw [rawVI, hdrOf_putVI, getVI_putVI]

theorem xorVi (h : Hdr) (f : VI) : Statement (.xorVi h f) := by
  refine short rfl (fun x => ?_) (mask_putVI _ h f)
  rw [rawOf, majorHi_putVI, majorLo_putVI]
  show rawVI .xorVi _ = _
  rw [rawVI, hdrOf_putVI, getVI_putVI]

theorem shlVi (h : Hdr) (f : VI) : Statement (.shlVi h f) := by
  refine short rfl (fun x => ?_) (mask_putVI _ h f)
  rw [rawOf, majorHi_putVI, majorLo_putVI]
  show rawVI .shlVi _ = _
  rw [rawVI, hdrOf_putVI, getVI_putVI]

theorem shrVi (h : Hdr) (f : VI) : Statement (.shrVi h f) := by
  refine short rfl (fun x => ?_) (mask_putVI _ h f)
  rw [rawOf, majorHi_putVI, majorLo_putVI]
  show rawVI .shrVi _ = _
  rw [rawVI, hdrOf_putVI, getVI_putVI]

theorem rshrVi (h : Hdr) (f : VI) : Statement (.rshrVi h f) := by
  refine short rfl (fun x => ?_) (mask_putVI _ h f)
  rw [rawOf, majorHi_putVI, majorLo_putVI]
  show rawVI .rshrVi _ = _
  rw [rawVI, hdrOf_putVI, getVI_putVI]

theorem minVi (h : Hdr) (f : VI) : Statement (.minVi h f) := by
  refine short rfl (fun x => ?_) (mask_putVI _ h f)
  rw [rawOf, majorHi_putVI, majorLo_putVI]
  show rawVI .minVi _ = _
  rw [rawVI, hdrOf_putVI, getVI_putVI]

theorem maxVi (h : Hdr) (f : VI) : Statement (.maxVi h f) := by
  refine short rfl (fun x => ?_) (mask_putVI _ h f)
  rw [rawOf, majorHi_putVI, majorLo_putVI]
  show rawVI .maxVi _ = _
  rw [rawVI, hdrOf_putVI, getVI_putVI]

theorem movVi (h : Hdr) (f : VI) : Statement (.movVi h f) := by
  refine short rfl (fun x => ?_) (mask_putVI _ h f)
  rw [rawOf, majorHi_putVI, majorLo_putVI]
  show rawVI .movVi _ = _
  rw [rawVI, hdrOf_putVI, getVI_putVI]

theorem addVs (h : Hdr) (f : VS) : Statement (.addVs h f) := by
  refine short rfl (fun x => ?_) (mask_putVS _ h f)
  rw [rawOf, majorHi_putVS, majorLo_putVS]
  show rawVS .addVs _ = _
  rw [rawVS, hdrOf_putVS, getVS_putVS]

theorem subVs (h : Hdr) (f : VS) : Statement (.subVs h f) := by
  refine short rfl (fun x => ?_) (mask_putVS _ h f)
  rw [rawOf, majorHi_putVS, majorLo_putVS]
  show rawVS .subVs _ = _
  rw [rawVS, hdrOf_putVS, getVS_putVS]

theorem mulVs (h : Hdr) (f : VS) : Statement (.mulVs h f) := by
  refine short rfl (fun x => ?_) (mask_putVS _ h f)
  rw [rawOf, majorHi_putVS, majorLo_putVS]
  show rawVS .mulVs _ = _
  rw [rawVS, hdrOf_putVS, getVS_putVS]

theorem andVs (h : Hdr) (f : VS) : Statement (.andVs h f) := by
  refine short rfl (fun x => ?_) (mask_putVS _ h f)
  rw [rawOf, majorHi_putVS, majorLo_putVS]
  show rawVS .andVs _ = _
  rw [rawVS, hdrOf_putVS, getVS_putVS]

theorem orVs (h : Hdr) (f : VS) : Statement (.orVs h f) := by
  refine short rfl (fun x => ?_) (mask_putVS _ h f)
  rw [rawOf, majorHi_putVS, majorLo_putVS]
  show rawVS .orVs _ = _
  rw [rawVS, hdrOf_putVS, getVS_putVS]

theorem xorVs (h : Hdr) (f : VS) : Statement (.xorVs h f) := by
  refine short rfl (fun x => ?_) (mask_putVS _ h f)
  rw [rawOf, majorHi_putVS, majorLo_putVS]
  show rawVS .xorVs _ = _
  rw [rawVS, hdrOf_putVS, getVS_putVS]

theorem shlVs (h : Hdr) (f : VS) : Statement (.shlVs h f) := by
  refine short rfl (fun x => ?_) (mask_putVS _ h f)
  rw [rawOf, majorHi_putVS, majorLo_putVS]
  show rawVS .shlVs _ = _
  rw [rawVS, hdrOf_putVS, getVS_putVS]

theorem shrVs (h : Hdr) (f : VS) : Statement (.shrVs h f) := by
  refine short rfl (fun x => ?_) (mask_putVS _ h f)
  rw [rawOf, majorHi_putVS, majorLo_putVS]
  show rawVS .shrVs _ = _
  rw [rawVS, hdrOf_putVS, getVS_putVS]

theorem minVs (h : Hdr) (f : VS) : Statement (.minVs h f) := by
  refine short rfl (fun x => ?_) (mask_putVS _ h f)
  rw [rawOf, majorHi_putVS, majorLo_putVS]
  show rawVS .minVs _ = _
  rw [rawVS, hdrOf_putVS, getVS_putVS]

theorem maxVs (h : Hdr) (f : VS) : Statement (.maxVs h f) := by
  refine short rfl (fun x => ?_) (mask_putVS _ h f)
  rw [rawOf, majorHi_putVS, majorLo_putVS]
  show rawVS .maxVs _ = _
  rw [rawVS, hdrOf_putVS, getVS_putVS]

theorem movVs (h : Hdr) (f : VS) : Statement (.movVs h f) := by
  refine short rfl (fun x => ?_) (mask_putVS _ h f)
  rw [rawOf, majorHi_putVS, majorLo_putVS]
  show rawVS .movVs _ = _
  rw [rawVS, hdrOf_putVS, getVS_putVS]

theorem lea (h : Hdr) (f : VS) : Statement (.lea h f) := by
  refine short rfl (fun x => ?_) (mask_putVS _ h f)
  rw [rawOf, majorHi_putVS, majorLo_putVS]
  show rawVS .lea _ = _
  rw [rawVS, hdrOf_putVS, getVS_putVS]

theorem fma (h : Hdr) (f : V3) : Statement (.fma h f) := by
  refine short rfl (fun x => ?_) (mask_putV3 _ h f)
  rw [rawOf, majorHi_putV3, majorLo_putV3]
  show rawV3 .fma _ = _
  rw [rawV3, hdrOf_putV3, getV3_putV3]

theorem sqrt (h : Hdr) (f : VR) : Statement (.sqrt h f) := by
  refine short rfl (fun x => ?_) (mask_putVR _ h f)
  rw [rawOf, majorHi_putVR, majorLo_putVR]
  show rawVR .sqrt _ = _
  rw [rawVR, hdrOf_putVR, getVR_putVR]

theorem exp2 (h : Hdr) (f : VR) : Statement (.exp2 h f) := by
  refine short rfl (fun x => ?_) (mask_putVR _ h f)
  rw [rawOf, majorHi_putVR, majorLo_putVR]
  show rawVR .exp2 _ = _
  rw [rawVR, hdrOf_putVR, getVR_putVR]

theorem log2 (h : Hdr) (f : VR) : Statement (.log2 h f) := by
  refine short rfl (fun x => ?_) (mask_putVR _ h f)
  rw [rawOf, majorHi_putVR, majorLo_putVR]
  show rawVR .log2 _ = _
  rw [rawVR, hdrOf_putVR, getVR_putVR]

theorem rcp (h : Hdr) (f : VR) : Statement (.rcp h f) := by
  refine short rfl (fun x => ?_) (mask_putVR _ h f)
  rw [rawOf, majorHi_putVR, majorLo_putVR]
  show rawVR .rcp _ = _
  rw [rawVR, hdrOf_putVR, getVR_putVR]

theorem rsqrt (h : Hdr) (f : VR) : Statement (.rsqrt h f) := by
  refine short rfl (fun x => ?_) (mask_putVR _ h f)
  rw [rawOf, majorHi_putVR, majorLo_putVR]
  show rawVR .rsqrt _ = _
  rw [rawVR, hdrOf_putVR, getVR_putVR]

theorem tanh (h : Hdr) (f : VR) : Statement (.tanh h f) := by
  refine short rfl (fun x => ?_) (mask_putVR _ h f)
  rw [rawOf, majorHi_putVR, majorLo_putVR]
  show rawVR .tanh _ = _
  rw [rawVR, hdrOf_putVR, getVR_putVR]

theorem sigm (h : Hdr) (f : VR) : Statement (.sigm h f) := by
  refine short rfl (fun x => ?_) (mask_putVR _ h f)
  rw [rawOf, majorHi_putVR, majorLo_putVR]
  show rawVR .sigm _ = _
  rw [rawVR, hdrOf_putVR, getVR_putVR]

theorem rndi (h : Hdr) (f : VR) : Statement (.rndi h f) := by
  refine short rfl (fun x => ?_) (mask_putVR _ h f)
  rw [rawOf, majorHi_putVR, majorLo_putVR]
  show rawVR .rndi _ = _
  rw [rawVR, hdrOf_putVR, getVR_putVR]

theorem fclass (h : Hdr) (f : VR) : Statement (.fclass h f) := by
  refine short rfl (fun x => ?_) (mask_putVR _ h f)
  rw [rawOf, majorHi_putVR, majorLo_putVR]
  show rawVR .fclass _ = _
  rw [rawVR, hdrOf_putVR, getVR_putVR]

theorem scale (h : Hdr) (f : VR) : Statement (.scale h f) := by
  refine short rfl (fun x => ?_) (mask_putVR _ h f)
  rw [rawOf, majorHi_putVR, majorLo_putVR]
  show rawVR .scale _ = _
  rw [rawVR, hdrOf_putVR, getVR_putVR]

theorem copysign (h : Hdr) (f : VR) : Statement (.copysign h f) := by
  refine short rfl (fun x => ?_) (mask_putVR _ h f)
  rw [rawOf, majorHi_putVR, majorLo_putVR]
  show rawVR .copysign _ = _
  rw [rawVR, hdrOf_putVR, getVR_putVR]

theorem cvt (h : Hdr) (f : CV) : Statement (.cvt h f) := by
  refine short rfl (fun x => ?_) (mask_putCV _ h f)
  rw [rawOf, majorHi_putCV, majorLo_putCV]
  show rawCV .cvt _ = _
  rw [rawCV, hdrOf_putCV, getCV_putCV]

theorem cvtTodx (h : Hdr) (f : CV) : Statement (.cvtTodx h f) := by
  refine short rfl (fun x => ?_) (mask_putCV _ h f)
  rw [rawOf, majorHi_putCV, majorLo_putCV]
  show rawCV .cvtTodx _ = _
  rw [rawCV, hdrOf_putCV, getCV_putCV]

theorem cvtFromdx (h : Hdr) (f : CV) : Statement (.cvtFromdx h f) := by
  refine short rfl (fun x => ?_) (mask_putCV _ h f)
  rw [rawOf, majorHi_putCV, majorLo_putCV]
  show rawCV .cvtFromdx _ = _
  rw [rawCV, hdrOf_putCV, getCV_putCV]

theorem tagSet (h : Hdr) (f : VI) : Statement (.tagSet h f) := by
  refine short rfl (fun x => ?_) (mask_putVI _ h f)
  rw [rawOf, majorHi_putVI, majorLo_putVI]
  show rawVI .tagSet _ = _
  rw [rawVI, hdrOf_putVI, getVI_putVI]

theorem tagChk (h : Hdr) (f : VP) : Statement (.tagChk h f) := by
  refine short rfl (fun x => ?_) (mask_putVP _ h f)
  rw [rawOf, majorHi_putVP, majorLo_putVP]
  show rawVP .tagChk _ = _
  rw [rawVP, hdrOf_putVP, getVP_putVP]

theorem cmp (h : Hdr) (f : VP) : Statement (.cmp h f) := by
  refine short rfl (fun x => ?_) (mask_putVP _ h f)
  rw [rawOf, majorHi_putVP, majorLo_putVP]
  show rawVP .cmp _ = _
  rw [rawVP, hdrOf_putVP, getVP_putVP]

theorem pand (h : Hdr) (f : PR) : Statement (.pand h f) := by
  refine short rfl (fun x => ?_) (mask_putPR _ h f)
  rw [rawOf, majorHi_putPR, majorLo_putPR]
  show rawPR .pand _ = _
  rw [rawPR, hdrOf_putPR, getPR_putPR]

theorem por (h : Hdr) (f : PR) : Statement (.por h f) := by
  refine short rfl (fun x => ?_) (mask_putPR _ h f)
  rw [rawOf, majorHi_putPR, majorLo_putPR]
  show rawPR .por _ = _
  rw [rawPR, hdrOf_putPR, getPR_putPR]

theorem pxor (h : Hdr) (f : PR) : Statement (.pxor h f) := by
  refine short rfl (fun x => ?_) (mask_putPR _ h f)
  rw [rawOf, majorHi_putPR, majorLo_putPR]
  show rawPR .pxor _ = _
  rw [rawPR, hdrOf_putPR, getPR_putPR]

theorem pnot (h : Hdr) (f : PR) : Statement (.pnot h f) := by
  refine short rfl (fun x => ?_) (mask_putPR _ h f)
  rw [rawOf, majorHi_putPR, majorLo_putPR]
  show rawPR .pnot _ = _
  rw [rawPR, hdrOf_putPR, getPR_putPR]

theorem pmov (h : Hdr) (f : PR) : Statement (.pmov h f) := by
  refine short rfl (fun x => ?_) (mask_putPR _ h f)
  rw [rawOf, majorHi_putPR, majorLo_putPR]
  show rawPR .pmov _ = _
  rw [rawPR, hdrOf_putPR, getPR_putPR]

theorem pset (h : Hdr) (f : PR) : Statement (.pset h f) := by
  refine short rfl (fun x => ?_) (mask_putPR _ h f)
  rw [rawOf, majorHi_putPR, majorLo_putPR]
  show rawPR .pset _ = _
  rw [rawPR, hdrOf_putPR, getPR_putPR]

theorem xv (h : Hdr) (f : XF) : Statement (.xv h f) := by
  refine short rfl (fun x => ?_) (mask_putXF _ h f)
  rw [rawOf, majorHi_putXF, majorLo_putXF]
  show rawXF .xv _ = _
  rw [rawXF, hdrOf_putXF, getXF_putXF]

theorem kpush (h : Hdr) (f : VR) : Statement (.kpush h f) := by
  refine short rfl (fun x => ?_) (mask_putVR _ h f)
  rw [rawOf, majorHi_putVR, majorLo_putVR]
  show rawVR .kpush _ = _
  rw [rawVR, hdrOf_putVR, getVR_putVR]

theorem kpop (h : Hdr) (f : VR) : Statement (.kpop h f) := by
  intro width bs _ hw
  have hv := kpop_form hw
  refine short (m := 0x3) rfl (fun x => ?_) (mask_putVR _ h f) width bs rfl hw
  rw [rawOf, majorHi_putVR, majorLo_putVR]
  show rawKpop _ = _
  rw [rawKpop, form_putVR, hv]
  show rawVR .kpop _ = _
  rw [rawVR, hdrOf_putVR, getVR_putVR]

theorem kpopKeep (h : Hdr) (f : VR) : Statement (.kpopKeep h f) := by
  intro width bs _ hw
  have hv := kpop_form hw
  refine short (m := 0x3) rfl (fun x => ?_) (mask_putVR _ h f) width bs rfl hw
  rw [rawOf, majorHi_putVR, majorLo_putVR]
  show rawKpop _ = _
  rw [rawKpop, form_putVR, hv]
  show rawVR .kpopKeep _ = _
  rw [rawVR, hdrOf_putVR, getVR_putVR]

theorem kpopDepth (h : Hdr) (f : VR) : Statement (.kpopDepth h f) := by
  intro width bs _ hw
  have hv := kpop_form hw
  refine short (m := 0x3) rfl (fun x => ?_) (mask_putVR _ h f) width bs rfl hw
  rw [rawOf, majorHi_putVR, majorLo_putVR]
  show rawKpop _ = _
  rw [rawKpop, form_putVR, hv]
  show rawVR .kpopDepth _ = _
  rw [rawVR, hdrOf_putVR, getVR_putVR]

theorem kclr (h : Hdr) (f : VR) : Statement (.kclr h f) := by
  refine short rfl (fun x => ?_) (mask_putVR _ h f)
  rw [rawOf, majorHi_putVR, majorLo_putVR]
  show rawVR .kclr _ = _
  rw [rawVR, hdrOf_putVR, getVR_putVR]

theorem shflVr (h : Hdr) (f : VR) : Statement (.shflVr h f) := by
  refine short rfl (fun x => ?_) (mask_putVR _ h f)
  rw [rawOf, majorHi_putVR, majorLo_putVR]
  show rawVR .shflVr _ = _
  rw [rawVR, hdrOf_putVR, getVR_putVR]

theorem shflVs (h : Hdr) (f : VS) : Statement (.shflVs h f) := by
  refine short rfl (fun x => ?_) (mask_putVS _ h f)
  rw [rawOf, majorHi_putVS, majorLo_putVS]
  show rawVS .shflVs _ = _
  rw [rawVS, hdrOf_putVS, getVS_putVS]

theorem vote (h : Hdr) (f : PR) : Statement (.vote h f) := by
  refine short rfl (fun x => ?_) (mask_putPR _ h f)
  rw [rawOf, majorHi_putPR, majorLo_putPR]
  show rawPR .vote _ = _
  rw [rawPR, hdrOf_putPR, getPR_putPR]

theorem ballot (h : Hdr) (f : UR) : Statement (.ballot h f) := by
  refine short rfl (fun x => ?_) (mask_putUR _ h f)
  rw [rawOf, majorHi_putUR, majorLo_putUR]
  show rawUR .ballot _ = _
  rw [rawUR, hdrOf_putUR, getUR_putUR]

theorem scan (h : Hdr) (f : VR) : Statement (.scan h f) := by
  refine short rfl (fun x => ?_) (mask_putVR _ h f)
  rw [rawOf, majorHi_putVR, majorLo_putVR]
  show rawVR .scan _ = _
  rw [rawVR, hdrOf_putVR, getVR_putVR]

theorem red (h : Hdr) (f : VR) : Statement (.red h f) := by
  refine short rfl (fun x => ?_) (mask_putVR _ h f)
  rw [rawOf, majorHi_putVR, majorLo_putVR]
  show rawVR .red _ = _
  rw [rawVR, hdrOf_putVR, getVR_putVR]

theorem ld (h : Hdr) (f : MF) : Statement (.ld h f) := by
  refine short rfl (fun x => ?_) (mask_putMF _ h f)
  rw [rawOf, majorHi_putMF, majorLo_putMF]
  show rawMF .ld _ = _
  rw [rawMF, hdrOf_putMF, getMF_putMF]

theorem st (h : Hdr) (f : MF) : Statement (.st h f) := by
  refine short rfl (fun x => ?_) (mask_putMF _ h f)
  rw [rawOf, majorHi_putMF, majorLo_putMF]
  show rawMF .st _ = _
  rw [rawMF, hdrOf_putMF, getMF_putMF]

theorem ldS (h : Hdr) (f : MF) : Statement (.ldS h f) := by
  refine short rfl (fun x => ?_) (mask_putMF _ h f)
  rw [rawOf, majorHi_putMF, majorLo_putMF]
  show rawMF .ldS _ = _
  rw [rawMF, hdrOf_putMF, getMF_putMF]

theorem stS (h : Hdr) (f : MF) : Statement (.stS h f) := by
  refine short rfl (fun x => ?_) (mask_putMF _ h f)
  rw [rawOf, majorHi_putMF, majorLo_putMF]
  show rawMF .stS _ = _
  rw [rawMF, hdrOf_putMF, getMF_putMF]

theorem ldu (h : Hdr) (f : MF) : Statement (.ldu h f) := by
  refine short rfl (fun x => ?_) (mask_putMF _ h f)
  rw [rawOf, majorHi_putMF, majorLo_putMF]
  show rawMF .ldu _ = _
  rw [rawMF, hdrOf_putMF, getMF_putMF]

theorem stu (h : Hdr) (f : MF) : Statement (.stu h f) := by
  refine short rfl (fun x => ?_) (mask_putMF _ h f)
  rw [rawOf, majorHi_putMF, majorLo_putMF]
  show rawMF .stu _ = _
  rw [rawMF, hdrOf_putMF, getMF_putMF]

theorem pf (h : Hdr) (f : MF) : Statement (.pf h f) := by
  refine short rfl (fun x => ?_) (mask_putMF _ h f)
  rw [rawOf, majorHi_putMF, majorLo_putMF]
  show rawMF .pf _ = _
  rw [rawMF, hdrOf_putMF, getMF_putMF]

theorem ldb (h : Hdr) (f : MF) : Statement (.ldb h f) := by
  refine short rfl (fun x => ?_) (mask_putMF _ h f)
  rw [rawOf, majorHi_putMF, majorLo_putMF]
  show rawMF .ldb _ = _
  rw [rawMF, hdrOf_putMF, getMF_putMF]

theorem stb (h : Hdr) (f : MF) : Statement (.stb h f) := by
  refine short rfl (fun x => ?_) (mask_putMF _ h f)
  rw [rawOf, majorHi_putMF, majorLo_putMF]
  show rawMF .stb _ = _
  rw [rawMF, hdrOf_putMF, getMF_putMF]

theorem atM (h : Hdr) (f : MF) (x : AtX) : Statement (.atM h f x) := by
  refine long rfl ?_ ?_ (marker_putAtX x) (mask_putMF _ h f) (mask_putAtX x)
  · rw [rawOf, majorHi_putMF, majorLo_putMF]
    show rawAtX .atM _ _ = _
    rw [rawAtX, hdrOf_putMF, getMF_putMF, getAtX_putAtX]
  · rw [isLong, rawOf, majorHi_putMF, majorLo_putMF]
    rfl

theorem atc (h : Hdr) (f : MF) (x : AtcX) : Statement (.atc h f x) := by
  refine long rfl ?_ ?_ (marker_putAtcX x) (mask_putMF _ h f) (mask_putAtcX x)
  · rw [rawOf, majorHi_putMF, majorLo_putMF]
    show rawAtcX .atc _ _ = _
    rw [rawAtcX, hdrOf_putMF, getMF_putMF, getAtcX_putAtcX]
  · rw [isLong, rawOf, majorHi_putMF, majorLo_putMF]
    rfl

theorem sigAdd (h : Hdr) (f : UR) : Statement (.sigAdd h f) := by
  refine short rfl (fun x => ?_) (mask_putUR _ h f)
  rw [rawOf, majorHi_putUR, majorLo_putUR]
  show rawUR .sigAdd _ = _
  rw [rawUR, hdrOf_putUR, getUR_putUR]

theorem waitGe (h : Hdr) (f : UR) : Statement (.waitGe h f) := by
  refine short rfl (fun x => ?_) (mask_putUR _ h f)
  rw [rawOf, majorHi_putUR, majorLo_putUR]
  show rawUR .waitGe _ = _
  rw [rawUR, hdrOf_putUR, getUR_putUR]

theorem fence (h : Hdr) (f : UR) : Statement (.fence h f) := by
  refine short rfl (fun x => ?_) (mask_putUR _ h f)
  rw [rawOf, majorHi_putUR, majorLo_putUR]
  show rawUR .fence _ = _
  rw [rawUR, hdrOf_putUR, getUR_putUR]

theorem xfence (h : Hdr) (f : UR) : Statement (.xfence h f) := by
  refine short rfl (fun x => ?_) (mask_putUR _ h f)
  rw [rawOf, majorHi_putUR, majorLo_putUR]
  show rawUR .xfence _ = _
  rw [rawUR, hdrOf_putUR, getUR_putUR]

theorem addUr (h : Hdr) (f : UR) : Statement (.addUr h f) := by
  refine short rfl (fun x => ?_) (mask_putUR _ h f)
  rw [rawOf, majorHi_putUR, majorLo_putUR]
  show rawUR .addUr _ = _
  rw [rawUR, hdrOf_putUR, getUR_putUR]

theorem subUr (h : Hdr) (f : UR) : Statement (.subUr h f) := by
  refine short rfl (fun x => ?_) (mask_putUR _ h f)
  rw [rawOf, majorHi_putUR, majorLo_putUR]
  show rawUR .subUr _ = _
  rw [rawUR, hdrOf_putUR, getUR_putUR]

theorem mulUr (h : Hdr) (f : UR) : Statement (.mulUr h f) := by
  refine short rfl (fun x => ?_) (mask_putUR _ h f)
  rw [rawOf, majorHi_putUR, majorLo_putUR]
  show rawUR .mulUr _ = _
  rw [rawUR, hdrOf_putUR, getUR_putUR]

theorem divUr (h : Hdr) (f : UR) : Statement (.divUr h f) := by
  refine short rfl (fun x => ?_) (mask_putUR _ h f)
  rw [rawOf, majorHi_putUR, majorLo_putUR]
  show rawUR .divUr _ = _
  rw [rawUR, hdrOf_putUR, getUR_putUR]

theorem remUr (h : Hdr) (f : UR) : Statement (.remUr h f) := by
  refine short rfl (fun x => ?_) (mask_putUR _ h f)
  rw [rawOf, majorHi_putUR, majorLo_putUR]
  show rawUR .remUr _ = _
  rw [rawUR, hdrOf_putUR, getUR_putUR]

theorem andUr (h : Hdr) (f : UR) : Statement (.andUr h f) := by
  refine short rfl (fun x => ?_) (mask_putUR _ h f)
  rw [rawOf, majorHi_putUR, majorLo_putUR]
  show rawUR .andUr _ = _
  rw [rawUR, hdrOf_putUR, getUR_putUR]

theorem orUr (h : Hdr) (f : UR) : Statement (.orUr h f) := by
  refine short rfl (fun x => ?_) (mask_putUR _ h f)
  rw [rawOf, majorHi_putUR, majorLo_putUR]
  show rawUR .orUr _ = _
  rw [rawUR, hdrOf_putUR, getUR_putUR]

theorem xorUr (h : Hdr) (f : UR) : Statement (.xorUr h f) := by
  refine short rfl (fun x => ?_) (mask_putUR _ h f)
  rw [rawOf, majorHi_putUR, majorLo_putUR]
  show rawUR .xorUr _ = _
  rw [rawUR, hdrOf_putUR, getUR_putUR]

theorem shlUr (h : Hdr) (f : UR) : Statement (.shlUr h f) := by
  refine short rfl (fun x => ?_) (mask_putUR _ h f)
  rw [rawOf, majorHi_putUR, majorLo_putUR]
  show rawUR .shlUr _ = _
  rw [rawUR, hdrOf_putUR, getUR_putUR]

theorem shrUr (h : Hdr) (f : UR) : Statement (.shrUr h f) := by
  refine short rfl (fun x => ?_) (mask_putUR _ h f)
  rw [rawOf, majorHi_putUR, majorLo_putUR]
  show rawUR .shrUr _ = _
  rw [rawUR, hdrOf_putUR, getUR_putUR]

theorem minUr (h : Hdr) (f : UR) : Statement (.minUr h f) := by
  refine short rfl (fun x => ?_) (mask_putUR _ h f)
  rw [rawOf, majorHi_putUR, majorLo_putUR]
  show rawUR .minUr _ = _
  rw [rawUR, hdrOf_putUR, getUR_putUR]

theorem maxUr (h : Hdr) (f : UR) : Statement (.maxUr h f) := by
  refine short rfl (fun x => ?_) (mask_putUR _ h f)
  rw [rawOf, majorHi_putUR, majorLo_putUR]
  show rawUR .maxUr _ = _
  rw [rawUR, hdrOf_putUR, getUR_putUR]

theorem cmpUr (h : Hdr) (f : UR) : Statement (.cmpUr h f) := by
  refine short rfl (fun x => ?_) (mask_putUR _ h f)
  rw [rawOf, majorHi_putUR, majorLo_putUR]
  show rawUR .cmpUr _ = _
  rw [rawUR, hdrOf_putUR, getUR_putUR]

theorem addUi (h : Hdr) (f : UI) : Statement (.addUi h f) := by
  refine short rfl (fun x => ?_) (mask_putUI _ h f)
  rw [rawOf, majorHi_putUI, majorLo_putUI]
  show rawUI .addUi _ = _
  rw [rawUI, hdrOf_putUI, getUI_putUI]

theorem movUi (h : Hdr) (f : UI) : Statement (.movUi h f) := by
  refine short rfl (fun x => ?_) (mask_putUI _ h f)
  rw [rawOf, majorHi_putUI, majorLo_putUI]
  show rawUI .movUi _ = _
  rw [rawUI, hdrOf_putUI, getUI_putUI]

theorem movSv (h : Hdr) (f : SV) : Statement (.movSv h f) := by
  refine short rfl (fun x => ?_) (mask_putSV _ h f)
  rw [rawOf, majorHi_putSV, majorLo_putSV]
  show rawSV .movSv _ = _
  rw [rawSV, hdrOf_putSV, getSV_putSV]

theorem movl (h : Hdr) (f : UR) (x : BitVec 56) : Statement (.movl h f x) := by
  refine long rfl (m := 0) (mx := 0) ?_ ?_ ?_ (by exact BitVec.and_zero) ?_
  · rw [rawOf, majorHi_putUR, majorLo_putUR]
    show rawMovl _ _ = _
    rw [rawMovl, hdrOf_putUR, getUR_putUR]
    simp (disch := decide) only [extract_or, extract_field, extract_field_off, BitVec.zero_or]
  · rw [isLong, rawOf, majorHi_putUR, majorLo_putUR]
    rfl
  · simp (disch := decide) only [extract_or, extract_field, extract_field_off, BitVec.or_zero]
  · simp (disch := decide) only [or_mask, field_mask, BitVec.or_zero]

theorem ifC (h : Hdr) (f : CF) : Statement (.ifC h f) := by
  refine short rfl (fun x => ?_) (mask_putCF _ h f)
  rw [rawOf, majorHi_putCF, majorLo_putCF]
  show rawCF .ifC _ = _
  rw [rawCF, hdrOf_putCF, getCF_putCF]

theorem elseC (h : Hdr) (f : CF) : Statement (.elseC h f) := by
  refine short rfl (fun x => ?_) (mask_putCF _ h f)
  rw [rawOf, majorHi_putCF, majorLo_putCF]
  show rawCF .elseC _ = _
  rw [rawCF, hdrOf_putCF, getCF_putCF]

theorem endifC (h : Hdr) (f : CF) : Statement (.endifC h f) := by
  refine short rfl (fun x => ?_) (mask_putCF _ h f)
  rw [rawOf, majorHi_putCF, majorLo_putCF]
  show rawCF .endifC _ = _
  rw [rawCF, hdrOf_putCF, getCF_putCF]

theorem loopC (h : Hdr) (f : CF) : Statement (.loopC h f) := by
  refine short rfl (fun x => ?_) (mask_putCF _ h f)
  rw [rawOf, majorHi_putCF, majorLo_putCF]
  show rawCF .loopC _ = _
  rw [rawCF, hdrOf_putCF, getCF_putCF]

theorem endloopC (h : Hdr) (f : CF) : Statement (.endloopC h f) := by
  refine short rfl (fun x => ?_) (mask_putCF _ h f)
  rw [rawOf, majorHi_putCF, majorLo_putCF]
  show rawCF .endloopC _ = _
  rw [rawCF, hdrOf_putCF, getCF_putCF]

theorem brkC (h : Hdr) (f : CF) : Statement (.brkC h f) := by
  refine short rfl (fun x => ?_) (mask_putCF _ h f)
  rw [rawOf, majorHi_putCF, majorLo_putCF]
  show rawCF .brkC _ = _
  rw [rawCF, hdrOf_putCF, getCF_putCF]

theorem contC (h : Hdr) (f : CF) : Statement (.contC h f) := by
  refine short rfl (fun x => ?_) (mask_putCF _ h f)
  rw [rawOf, majorHi_putCF, majorLo_putCF]
  show rawCF .contC _ = _
  rw [rawCF, hdrOf_putCF, getCF_putCF]

theorem retC (h : Hdr) (f : CF) : Statement (.retC h f) := by
  refine short rfl (fun x => ?_) (mask_putCF _ h f)
  rw [rawOf, majorHi_putCF, majorLo_putCF]
  show rawCF .retC _ = _
  rw [rawCF, hdrOf_putCF, getCF_putCF]

theorem exitC (h : Hdr) (f : CF) : Statement (.exitC h f) := by
  refine short rfl (fun x => ?_) (mask_putCF _ h f)
  rw [rawOf, majorHi_putCF, majorLo_putCF]
  show rawCF .exitC _ = _
  rw [rawCF, hdrOf_putCF, getCF_putCF]

theorem callC (h : Hdr) (f : CF) (x : BitVec 32) : Statement (.callC h f x) := by
  refine long rfl (m := 0x3F) (mx := 0xFFFFFF00000000) ?_ ?_ ?_ (mask_putCF _ h f) ?_
  · rw [rawOf, majorHi_putCF, majorLo_putCF]
    show rawCall _ _ = _
    rw [rawCall, hdrOf_putCF, getCF_putCF]
    simp (disch := decide) only [extract_or, extract_field, extract_field_off, BitVec.zero_or]
  · rw [isLong, rawOf, majorHi_putCF, majorLo_putCF]
    rfl
  · simp (disch := decide) only [extract_or, extract_field, extract_field_off, BitVec.or_zero]
  · simp (disch := decide) only [or_mask, field_mask, BitVec.or_zero]

theorem launch (h : Hdr) (f : UR) : Statement (.launch h f) := by
  refine short rfl (fun x => ?_) (mask_putUR _ h f)
  rw [rawOf, majorHi_putUR, majorLo_putUR]
  show rawUR .launch _ = _
  rw [rawUR, hdrOf_putUR, getUR_putUR]

theorem bar (h : Hdr) (f : UR) : Statement (.bar h f) := by
  refine short rfl (fun x => ?_) (mask_putUR _ h f)
  rw [rawOf, majorHi_putUR, majorLo_putUR]
  show rawUR .bar _ = _
  rw [rawUR, hdrOf_putUR, getUR_putUR]

theorem nop (h : Hdr) (f : UR) : Statement (.nop h f) := by
  refine short rfl (fun x => ?_) (mask_putUR _ h f)
  rw [rawOf, majorHi_putUR, majorLo_putUR]
  show rawUR .nop _ = _
  rw [rawUR, hdrOf_putUR, getUR_putUR]

theorem rds (h : Hdr) (f : RS) : Statement (.rds h f) := by
  refine short rfl (fun x => ?_) (mask_putRS _ h f)
  rw [rawOf, majorHi_putRS, majorLo_putRS]
  show rawRS .rds _ = _
  rw [rawRS, hdrOf_putRS, getRS_putRS]

theorem cp (h : Hdr) (f : UR) : Statement (.cp h f) := by
  refine short rfl (fun x => ?_) (mask_putUR _ h f)
  rw [rawOf, majorHi_putUR, majorLo_putUR]
  show rawUR .cp _ = _
  rw [rawUR, hdrOf_putUR, getUR_putUR]

theorem cpx (h : Hdr) (f : UR) (x : CpxX) : Statement (.cpx h f x) := by
  refine long rfl ?_ ?_ (marker_putCpxX x) (mask_putUR _ h f) (mask_putCpxX x)
  · rw [rawOf, majorHi_putUR, majorLo_putUR]
    show rawCpxX .cpx _ _ = _
    rw [rawCpxX, hdrOf_putUR, getUR_putUR, getCpxX_putCpxX]
  · rw [isLong, rawOf, majorHi_putUR, majorLo_putUR]
    rfl

theorem mres (h : Hdr) (f : UR) : Statement (.mres h f) := by
  refine short rfl (fun x => ?_) (mask_putUR _ h f)
  rw [rawOf, majorHi_putUR, majorLo_putUR]
  show rawUR .mres _ = _
  rw [rawUR, hdrOf_putUR, getUR_putUR]

theorem mrel (h : Hdr) (f : UR) : Statement (.mrel h f) := by
  refine short rfl (fun x => ?_) (mask_putUR _ h f)
  rw [rawOf, majorHi_putUR, majorLo_putUR]
  show rawUR .mrel _ = _
  rw [rawUR, hdrOf_putUR, getUR_putUR]

theorem mld (h : Hdr) (f : UR) : Statement (.mld h f) := by
  refine short rfl (fun x => ?_) (mask_putUR _ h f)
  rw [rawOf, majorHi_putUR, majorLo_putUR]
  show rawUR .mld _ = _
  rw [rawUR, hdrOf_putUR, getUR_putUR]

theorem mst (h : Hdr) (f : UR) : Statement (.mst h f) := by
  refine short rfl (fun x => ?_) (mask_putUR _ h f)
  rw [rawOf, majorHi_putUR, majorLo_putUR]
  show rawUR .mst _ = _
  rw [rawUR, hdrOf_putUR, getUR_putUR]

theorem mzero (h : Hdr) (f : UR) : Statement (.mzero h f) := by
  refine short rfl (fun x => ?_) (mask_putUR _ h f)
  rw [rawOf, majorHi_putUR, majorLo_putUR]
  show rawUR .mzero _ = _
  rw [rawUR, hdrOf_putUR, getUR_putUR]

theorem osmMax (h : Hdr) (f : UR) : Statement (.osmMax h f) := by
  refine short rfl (fun x => ?_) (mask_putUR _ h f)
  rw [rawOf, majorHi_putUR, majorLo_putUR]
  show rawUR .osmMax _ = _
  rw [rawUR, hdrOf_putUR, getUR_putUR]

theorem osmAcc (h : Hdr) (f : UR) : Statement (.osmAcc h f) := by
  refine short rfl (fun x => ?_) (mask_putUR _ h f)
  rw [rawOf, majorHi_putUR, majorLo_putUR]
  show rawUR .osmAcc _ = _
  rw [rawUR, hdrOf_putUR, getUR_putUR]

theorem mloop (h : Hdr) (f : UR) (x : MloopX) : Statement (.mloop h f x) := by
  refine long rfl ?_ ?_ (marker_putMloopX x) (mask_putUR _ h f) (mask_putMloopX x)
  · rw [rawOf, majorHi_putUR, majorLo_putUR]
    show rawMloopX .mloop _ _ = _
    rw [rawMloopX, hdrOf_putUR, getUR_putUR, getMloopX_putMloopX]
  · rw [isLong, rawOf, majorHi_putUR, majorLo_putUR]
    rfl

theorem mloopSp (h : Hdr) (f : UR) (x : MloopX) : Statement (.mloopSp h f x) := by
  refine long rfl ?_ ?_ (marker_putMloopX x) (mask_putUR _ h f) (mask_putMloopX x)
  · rw [rawOf, majorHi_putUR, majorLo_putUR]
    show rawMloopX .mloopSp _ _ = _
    rw [rawMloopX, hdrOf_putUR, getUR_putUR, getMloopX_putMloopX]
  · rw [isLong, rawOf, majorHi_putUR, majorLo_putUR]
    rfl

theorem fbRed (h : Hdr) (f : UR) : Statement (.fbRed h f) := by
  refine short rfl (fun x => ?_) (mask_putUR _ h f)
  rw [rawOf, majorHi_putUR, majorLo_putUR]
  show rawUR .fbRed _ = _
  rw [rawUR, hdrOf_putUR, getUR_putUR]

theorem fbBcast (h : Hdr) (f : UR) : Statement (.fbBcast h f) := by
  refine short rfl (fun x => ?_) (mask_putUR _ h f)
  rw [rawOf, majorHi_putUR, majorLo_putUR]
  show rawUR .fbBcast _ = _
  rw [rawUR, hdrOf_putUR, getUR_putUR]

theorem qPush (h : Hdr) (f : UR) : Statement (.qPush h f) := by
  refine short rfl (fun x => ?_) (mask_putUR _ h f)
  rw [rawOf, majorHi_putUR, majorLo_putUR]
  show rawUR .qPush _ = _
  rw [rawUR, hdrOf_putUR, getUR_putUR]

theorem qPop (h : Hdr) (f : UR) : Statement (.qPop h f) := by
  refine short rfl (fun x => ?_) (mask_putUR _ h f)
  rw [rawOf, majorHi_putUR, majorLo_putUR]
  show rawUR .qPop _ = _
  rw [rawUR, hdrOf_putUR, getUR_putUR]

theorem binPut (h : Hdr) (f : UR) : Statement (.binPut h f) := by
  refine short rfl (fun x => ?_) (mask_putUR _ h f)
  rw [rawOf, majorHi_putUR, majorLo_putUR]
  show rawUR .binPut _ = _
  rw [rawUR, hdrOf_putUR, getUR_putUR]

theorem jyPush (h : Hdr) (f : UR) : Statement (.jyPush h f) := by
  refine short rfl (fun x => ?_) (mask_putUR _ h f)
  rw [rawOf, majorHi_putUR, majorLo_putUR]
  show rawUR .jyPush _ = _
  rw [rawUR, hdrOf_putUR, getUR_putUR]

theorem jyPop (h : Hdr) (f : UR) : Statement (.jyPop h f) := by
  refine short rfl (fun x => ?_) (mask_putUR _ h f)
  rw [rawOf, majorHi_putUR, majorLo_putUR]
  show rawUR .jyPop _ = _
  rw [rawUR, hdrOf_putUR, getUR_putUR]

theorem tsDesc (h : Hdr) (f : UR) : Statement (.tsDesc h f) := by
  refine short rfl (fun x => ?_) (mask_putUR _ h f)
  rw [rawOf, majorHi_putUR, majorLo_putUR]
  show rawUR .tsDesc _ = _
  rw [rawUR, hdrOf_putUR, getUR_putUR]

theorem tsBack (h : Hdr) (f : UR) : Statement (.tsBack h f) := by
  refine short rfl (fun x => ?_) (mask_putUR _ h f)
  rw [rawOf, majorHi_putUR, majorLo_putUR]
  show rawUR .tsBack _ = _
  rw [rawUR, hdrOf_putUR, getUR_putUR]

theorem tsExp (h : Hdr) (f : UR) : Statement (.tsExp h f) := by
  refine short rfl (fun x => ?_) (mask_putUR _ h f)
  rw [rawOf, majorHi_putUR, majorLo_putUR]
  show rawUR .tsExp _ = _
  rw [rawUR, hdrOf_putUR, getUR_putUR]

theorem tsRoot (h : Hdr) (f : UR) : Statement (.tsRoot h f) := by
  refine short rfl (fun x => ?_) (mask_putUR _ h f)
  rw [rawOf, majorHi_putUR, majorLo_putUR]
  show rawUR .tsRoot _ = _
  rw [rawUR, hdrOf_putUR, getUR_putUR]

theorem tsAnc (h : Hdr) (f : UR) : Statement (.tsAnc h f) := by
  refine short rfl (fun x => ?_) (mask_putUR _ h f)
  rw [rawOf, majorHi_putUR, majorLo_putUR]
  show rawUR .tsAnc _ = _
  rw [rawUR, hdrOf_putUR, getUR_putUR]

theorem trap (h : Hdr) (f : UR) : Statement (.trap h f) := by
  refine short rfl (fun x => ?_) (mask_putUR _ h f)
  rw [rawOf, majorHi_putUR, majorLo_putUR]
  show rawUR .trap _ = _
  rw [rawUR, hdrOf_putUR, getUR_putUR]

theorem syscall (h : Hdr) (f : UR) : Statement (.syscall h f) := by
  refine short rfl (fun x => ?_) (mask_putUR _ h f)
  rw [rawOf, majorHi_putUR, majorLo_putUR]
  show rawUR .syscall _ = _
  rw [rawUR, hdrOf_putUR, getUR_putUR]

theorem diagSt (h : Hdr) (f : MF) : Statement (.diagSt h f) := by
  refine short rfl (fun x => ?_) (mask_putMF _ h f)
  rw [rawOf, majorHi_putMF, majorLo_putMF]
  show rawMF .diagSt _ = _
  rw [rawMF, hdrOf_putMF, getMF_putMF]

theorem commandSendArrival (p : Nat) (payload : List Byte) : Statement (.commandSendArrival p payload) := event rfl

theorem launchCommand (p : Nat) : Statement (.launchCommand p) := event rfl

theorem stopTaskTable (p : Nat) : Statement (.stopTaskTable p) := event rfl

theorem restartTaskTable (p : Nat) : Statement (.restartTaskTable p) := event rfl

theorem resetPartition (p : Nat) : Statement (.resetPartition p) := event rfl

theorem partitionResetComplete (p : Nat) : Statement (.partitionResetComplete p) := event rfl

theorem launchPortHandoff (die : Nat) : Statement (.launchPortHandoff die) := event rfl

theorem heldLaunchEntry (src : HeldSource) : Statement (.heldLaunchEntry src) := event rfl

theorem teamPlacement (p : Nat) : Statement (.teamPlacement p) := event rfl

theorem teamDiscardSave (team : Nat) : Statement (.teamDiscardSave team) := event rfl

theorem acknowledgementReturn (req : Nat) : Statement (.acknowledgementReturn req) := event rfl

theorem teamRetirement (team : Nat) : Statement (.teamRetirement team) := event rfl

theorem launchCompletion (launch : Nat) : Statement (.launchCompletion launch) := event rfl

theorem launchFaultEnd (launch : Nat) : Statement (.launchFaultEnd launch) := event rfl

theorem eventTimerExpiry (p cls : Nat) : Statement (.eventTimerExpiry p cls) := event rfl

theorem instructionFill (die : Nat) : Statement (.instructionFill die) := event rfl

theorem sequentialPrefetch (die : Nat) : Statement (.sequentialPrefetch die) := event rfl

theorem passOver (group : Nat) : Statement (.passOver group) := event rfl

theorem translationWalk (die : Nat) : Statement (.translationWalk die) := event rfl

theorem homeSliceAccess (req : Nat) : Statement (.homeSliceAccess req) := event rfl

theorem waitTableRetry (group : Nat) : Statement (.waitTableRetry group) := event rfl

theorem watchRearm (req : Nat) : Statement (.watchRearm req) := event rfl

theorem watchdogFire (p : Nat) : Statement (.watchdogFire p) := event rfl

theorem pageReply (p entry : Nat) (value : Word) : Statement (.pageReply p entry value) := event rfl

theorem pendingFaultEntry (p : Nat) : Statement (.pendingFaultEntry p) := event rfl

theorem copyCommandStart (pair : Nat) : Statement (.copyCommandStart pair) := event rfl

theorem copyCounterStep (cmd part : Nat) : Statement (.copyCounterStep cmd part) := event rfl

theorem copyCommandComplete (cmd : Nat) : Statement (.copyCommandComplete cmd) := event rfl

theorem matrixEngineStep (pair : Nat) : Statement (.matrixEngineStep pair) := event rfl

theorem atcSlicePerform (req : Nat) : Statement (.atcSlicePerform req) := event rfl

theorem slipwayHandoff (slice p : Nat) : Statement (.slipwayHandoff slice p) := event rfl

theorem binTimerExpiry (bin : Nat) : Statement (.binTimerExpiry bin) := event rfl

theorem binLaunchHandoff (slice p : Nat) : Statement (.binLaunchHandoff slice p) := event rfl

theorem fordAcceptance (die : Nat) : Statement (.fordAcceptance die) := event rfl

theorem fordAction (op : Nat) : Statement (.fordAction op) := event rfl

theorem freeingPush (op : Nat) : Statement (.freeingPush op) := event rfl

theorem partialMessage (p : Nat) (record round : Word) (elems : List PartialElem) : Statement (.partialMessage p record round elems) := event rfl

theorem resultMessage (p : Nat) (record round : Word) (payload : List Byte) : Statement (.resultMessage p record round payload) := event rfl

theorem remoteWrite (r : RemoteRef) (payload : List Byte) : Statement (.remoteWrite r payload) := event rfl

theorem remoteRead (r : RemoteRef) (len : Nat) : Statement (.remoteRead r len) := event rfl

theorem remoteFetchAdd (r : RemoteRef) (value : Word) : Statement (.remoteFetchAdd r value) := event rfl

theorem remoteSwap (r : RemoteRef) (value : Word) : Statement (.remoteSwap r value) := event rfl

theorem remoteCompareSwap (r : RemoteRef) (value compare : Word) : Statement (.remoteCompareSwap r value compare) := event rfl

theorem unsupportedUePacket (service : Nat) : Statement (.unsupportedUePacket service) := event rfl

theorem getVersion : Statement (.getVersion) := event rfl

theorem getCapabilities : Statement (.getCapabilities) := event rfl

theorem negotiateAlgorithms : Statement (.negotiateAlgorithms) := event rfl

theorem getDigests : Statement (.getDigests) := event rfl

theorem getCertificate : Statement (.getCertificate) := event rfl

theorem challenge (nonce : BitVec 256) : Statement (.challenge nonce) := event rfl

theorem getMeasurements : Statement (.getMeasurements) := event rfl

theorem keyExchange (requester : BitVec 256) (exchange : List Byte) : Statement (.keyExchange requester exchange) := event rfl

theorem finish (proof : FinishProof) : Statement (.finish proof) := event rfl

theorem heartbeat : Statement (.heartbeat) := event rfl

theorem keyUpdate : Statement .keyUpdate := event rfl

theorem endSession : Statement (.endSession) := event rfl

theorem readReadinessMap : Statement (.readReadinessMap) := event rfl

theorem configurePartition (p : Nat) (record : List Word) (fq save : Nat) : Statement (.configurePartition p record fq save) := event rfl

theorem startPartition (p : Nat) : Statement (.startPartition p) := event rfl

theorem stopPartition (p : Nat) : Statement (.stopPartition p) := event rfl

theorem managementResetPartition (p : Nat) : Statement (.managementResetPartition p) := event rfl

theorem readCodeKey (p : Nat) : Statement (.readCodeKey p) := event rfl

theorem setWatchdogPeriod (p period : Nat) : Statement (.setWatchdogPeriod p period) := event rfl

theorem createJetty (j prod cons ringpa capm1 : Nat) : Statement (.createJetty j prod cons ringpa capm1) := event rfl

theorem clearJettyReset (j : Nat) : Statement (.clearJettyReset j) := event rfl

theorem setMemoryWindow (p w : Nat) (win : WindowSpec) : Statement (.setMemoryWindow p w win) := event rfl

theorem setEventThresholds (p cls threshold period : Nat) : Statement (.setEventThresholds p cls threshold period) := event rfl

theorem grantDiagnostics (p : Nat) (grant : Bool) : Statement (.grantDiagnostics p grant) := event rfl

theorem readFaultQueueAddresses (p : Nat) : Statement (.readFaultQueueAddresses p) := event rfl

theorem readPowerAndTemperatures : Statement (.readPowerAndTemperatures) := event rfl

theorem moduleReset (start : StartInputs) (flash : List Image) : Statement (.moduleReset start flash) := event rfl

theorem unitReady (u : UnitReport) : Statement (.unitReady u) := event rfl

theorem thermalThrottle (sample : List Sample) : Statement (.thermalThrottle sample) := event rfl

theorem throttleEnd (sample : List Sample) : Statement (.throttleEnd sample) := event rfl

theorem criticalShutdown (sample : List Sample) : Statement (.criticalShutdown sample) := event rfl

theorem retentionEntry (arr : ArrayId) : Statement (.retentionEntry arr) := event rfl

theorem retentionExit (arr : ArrayId) : Statement (.retentionExit arr) := event rfl

theorem bankAccess (req : Nat) : Statement (.bankAccess req) := event rfl

theorem matrixCommandComplete (cmd : Nat) : Statement (.matrixCommandComplete cmd) := event rfl

theorem reservedMajor (w : Word) : Statement (.reservedMajor w) := event rfl

theorem reservedCommand (p : Nat) : Statement (.reservedCommand p) := event rfl

end Sys2Proof.Laws.RoundTrip
end

