-- ==== Sys2Proof/Laws/Values.lean ====
section
/-! SUPPORT. Elements of lanes, exact integers and bits (R136 to R149): what the functions of the model compute, said element by element and
bit by bit. -/

namespace Sys2Proof.Machine

set_option Elab.async false

/-! ### Elements (R136) -/

/-- An element of elements put together. -/
theorem elemNat_joinElems (w : Nat) (es : List Nat) (h : w * es.length ≤ 64) (e : Nat) (he : e < es.length) :
    elemNat w (joinElems w es) e = es.getD e 0 % 2 ^ w := by
  have key : ∀ (es : List Nat), es.foldr (fun e acc => e % 2 ^ w + 2 ^ w * acc) 0 < 2 ^ (w * es.length) := by
    intro es
    induction es with
    | nil => simp
    | cons x es ih =>
      simp only [List.foldr_cons, List.length_cons, Nat.mul_succ, Nat.pow_add]
      have h1 : x % 2 ^ w < 2 ^ w := Nat.mod_lt _ (Nat.two_pow_pos w)
      generalize es.foldr (fun e acc => e % 2 ^ w + 2 ^ w * acc) 0 = a at *
      calc x % 2 ^ w + 2 ^ w * a < 2 ^ w + 2 ^ w * a := by omega
        _ = 2 ^ w * (a + 1) := by ring
        _ ≤ 2 ^ w * 2 ^ (w * es.length) := Nat.mul_le_mul_left _ ih
        _ = _ := by ring
  have hval : (joinElems w es).toNat = es.foldr (fun e acc => e % 2 ^ w + 2 ^ w * acc) 0 := by
    rw [joinElems, BitVec.toNat_ofNat, Nat.mod_eq_of_lt]
    exact Nat.lt_of_lt_of_le (key es) (Nat.pow_le_pow_right (by decide) h)
  rw [elemNat, hval]
  clear hval h
  induction es generalizing e with
  | nil => simp at he
  | cons x es ih =>
    simp only [List.foldr_cons]
    have h1 : x % 2 ^ w < 2 ^ w := Nat.mod_lt _ (Nat.two_pow_pos w)
    cases e with
    | zero =>
      simp only [Nat.mul_zero, Nat.pow_zero, Nat.div_one, Nat.add_mul_mod_self_left, Nat.mod_mod, List.getD_cons_zero]
    | succ e =>
      have : x % 2 ^ w + 2 ^ w * es.foldr (fun e acc => e % 2 ^ w + 2 ^ w * acc) 0 =
          2 ^ w * es.foldr (fun e acc => e % 2 ^ w + 2 ^ w * acc) 0 + x % 2 ^ w := by ring
      rw [Nat.mul_succ, Nat.add_comm (w * e), Nat.pow_add, ← Nat.div_div_eq_div_mul, this, Nat.mul_add_div (Nat.two_pow_pos w),
        Nat.div_eq_of_lt h1, Nat.add_zero, ih e (by simpa using he)]
      rfl

/-- The elements of a type fill its operand (R136). -/
theorem elemW_mul_elemCount (t : BitVec 4) : elemW t * elemCount t ≤ 64 := by revert t; decide

theorem wrapInt_lt (w : Nat) (v : Int) : wrapInt w v < 2 ^ w := by
  have h : (0 : Int) < 2 ^ w := by positivity
  have h1 := Int.emod_nonneg v (ne_of_gt h)
  have h2 := Int.emod_lt_of_pos v h
  unfold wrapInt
  zify
  omega

theorem narrow_lt (sat signed : Bool) (w : Nat) (v : Int) : narrow sat signed w v < 2 ^ w := wrapInt_lt w _

/-- An element of a list of narrowed values. -/
theorem elemNat_map (t : BitVec 4) (f : Nat → Nat) (e : Nat) (he : e < elemCount t) (hf : f e < 2 ^ elemW t) :
    elemNat (elemW t) (joinElems (elemW t) ((List.range (elemCount t)).map f)) e = f e := by
  rw [elemNat_joinElems _ _ (by simpa using elemW_mul_elemCount t) e (by simpa using he)]
  simp [he, Nat.mod_eq_of_lt hf]

/-- An element of an integer result (R138). -/
theorem elemNat_intElems (t : BitVec 4) (sat : Bool) (v : IntFn) (x y : Word) (e : Nat) (he : e < elemCount t) :
    elemNat (elemW t) (intElems t sat v x y) e = narrow sat (isSigned t) (elemW t)
      (v (isSigned t) (elemW t) (readInt (isSigned t) (elemW t) (elemNat (elemW t) x e)) (readInt (isSigned t) (elemW t) (elemNat (elemW t) y e))) :=
  elemNat_map t _ e he (narrow_lt _ _ _ _)

theorem elemNat_lt (w : Nat) (v : Word) (e : Nat) : elemNat w v e < 2 ^ w := Nat.mod_lt _ (Nat.two_pow_pos w)

/-- The range of an element (R137). -/
theorem readInt_bounds (signed : Bool) (w n : Nat) (hw : 0 < w) (h : n < 2 ^ w) : loOf signed w ≤ readInt signed w n ∧ readInt signed w n ≤ hiOf signed w := by
  obtain ⟨k, rfl⟩ : ∃ k, w = k + 1 := ⟨w - 1, by omega⟩
  have h2 : (2 : Int) ^ (k + 1) = 2 * 2 ^ k := by ring
  have h3 : (n : Int) < 2 ^ (k + 1) := by exact_mod_cast h
  cases signed
  · simp [readInt, loOf, hiOf]; omega
  · simp only [readInt, loOf, hiOf, Bool.true_and, decide_eq_true_eq, Nat.add_sub_cancel, if_true]
    split
    · rename_i hn
      have : (2 : Int) ^ k ≤ n := by exact_mod_cast hn
      omega
    · rename_i hn
      have : (n : Int) < 2 ^ k := by exact_mod_cast not_le.1 hn
      have : (0 : Int) < 2 ^ k := by positivity
      omega

/-! ### Shift counts (R137) -/

/-- A left shift by more than the width and two acts as one by the width and two. -/
theorem narrow_shift (sat signed : Bool) (w n : Nat) (hw : 0 < w) (x : Int) (h : loOf signed w ≤ x ∧ x ≤ hiOf signed w) :
    narrow sat signed w (x * 2 ^ min n (w + 2)) = narrow sat signed w (x * 2 ^ n) := by
  by_cases hn : n ≤ w + 2
  · rw [min_eq_left hn]
  · obtain ⟨d, rfl⟩ : ∃ d, n = w + 2 + d := ⟨n - (w + 2), by omega⟩
    rw [min_eq_right (by omega)]
    have hp : (0 : Int) < 2 ^ w := by positivity
    have hd : (1 : Int) ≤ 2 ^ d := by exact_mod_cast Nat.one_le_two_pow
    have e1 : x * 2 ^ (w + 2) = 4 * x * 2 ^ w := by ring
    have e2 : x * 2 ^ (w + 2 + d) = 4 * x * 2 ^ d * 2 ^ w := by ring
    cases sat
    · simp only [narrow, Bool.false_eq_true, if_false, wrapInt, e1, e2, Int.mul_emod_left]
    · simp only [narrow, if_true]
      congr 1
      obtain ⟨k, rfl⟩ : ∃ k, w = k + 1 := ⟨w - 1, by omega⟩
      have hk : (2 : Int) ^ (k + 1) = 2 * 2 ^ k := by ring
      have hk0 : (0 : Int) < 2 ^ k := by positivity
      have hlo : -(2 ^ (k + 1)) ≤ loOf signed (k + 1) ∧ loOf signed (k + 1) ≤ 0 := by
        cases signed <;> simp [loOf]; omega
      have hhi : 0 ≤ hiOf signed (k + 1) ∧ hiOf signed (k + 1) < 2 ^ (k + 1) := by
        cases signed <;> simp [hiOf] <;> omega
      rcases lt_trichotomy x 0 with hx | hx | hx
      · have a1 : x * 2 ^ (k + 1 + 2) < loOf signed (k + 1) := by rw [e1]; nlinarith
        have a2 : x * 2 ^ (k + 1 + 2 + d) < loOf signed (k + 1) := by
          rw [e2]
          have : 4 * x * 2 ^ d ≤ 4 * x := by nlinarith
          nlinarith
        simp [clampInt, a1, a2]
      · subst hx; simp
      · have a1 : hiOf signed (k + 1) < x * 2 ^ (k + 1 + 2) := by rw [e1]; nlinarith
        have a2 : hiOf signed (k + 1) < x * 2 ^ (k + 1 + 2 + d) := by
          rw [e2]
          have : 4 * x ≤ 4 * x * 2 ^ d := by nlinarith
          nlinarith
        have b1 : ¬ x * 2 ^ (k + 1 + 2) < loOf signed (k + 1) := by omega
        have b2 : ¬ x * 2 ^ (k + 1 + 2 + d) < loOf signed (k + 1) := by omega
        simp only [clampInt, a1, a2, b1, b2, if_true, if_false]

/-- A right shift by more than the width and two acts as one by the width and two. -/
theorem ediv_shift (signed : Bool) (w n : Nat) (hw : 0 < w) (x : Int) (h : loOf signed w ≤ x ∧ x ≤ hiOf signed w) :
    x / 2 ^ min n (w + 2) = x / 2 ^ n := by
  by_cases hn : n ≤ w + 2
  · rw [min_eq_left hn]
  · rw [min_eq_right (by omega)]
    obtain ⟨k, rfl⟩ : ∃ k, w = k + 1 := ⟨w - 1, by omega⟩
    have hk : (2 : Int) ^ (k + 1) = 2 * 2 ^ k := by ring
    have hk0 : (0 : Int) < 2 ^ k := by positivity
    have hb : -(2 ^ (k + 1)) ≤ x ∧ x < 2 ^ (k + 1) := by
      cases signed <;> simp [loOf, hiOf] at h <;> omega
    have p1 : (2 : Int) ^ (k + 1) ≤ 2 ^ (k + 1 + 2) := by gcongr <;> omega
    have p2 : (2 : Int) ^ (k + 1) ≤ 2 ^ n := by gcongr <;> omega
    rcases lt_or_ge x 0 with hx | hx
    · have q : ∀ m : Int, 2 ^ (k + 1) ≤ m → x / m = -1 := by
        intro m hm
        have hm0 : 0 < m := by omega
        rw [Int.ediv_eq_iff_of_pos hm0]
        constructor <;> nlinarith
      rw [q _ p1, q _ p2]
    · rw [Int.ediv_eq_zero_of_lt hx (by omega), Int.ediv_eq_zero_of_lt hx (by omega)]

/-- Quotient and remainder of a negative number. -/
theorem neg_ediv_emod (m d : Nat) (hd : 0 < d) :
    (-(m : Int)) / (d : Int) = (if m % d = 0 then -((m / d : Nat) : Int) else -((m / d : Nat) : Int) - 1) ∧
    (-(m : Int)) % (d : Int) = (if m % d = 0 then 0 else ((d - m % d : Nat) : Int)) := by
  have hlt := Nat.mod_lt m hd
  have hm := Nat.div_add_mod m d
  have hd' : (0 : Int) < d := by exact_mod_cast hd
  have key : ∀ q r : Int, -(m : Int) = d * q + r → 0 ≤ r → r < d → (-(m : Int)) / d = q ∧ (-(m : Int)) % d = r := by
    intro q r h h0 h1
    exact ⟨by rw [Int.ediv_eq_iff_of_pos hd']; constructor <;> nlinarith, by
      rw [h, Int.mul_add_emod_self_left, Int.emod_eq_of_lt h0 h1]⟩
  split
  · rename_i h
    refine key _ _ ?_ le_rfl hd'
    rw [h] at hm
    zify at hm ⊢
    linarith
  · rename_i h
    have : ((d - m % d : Nat) : Int) = d - ((m % d : Nat) : Int) := by omega
    rw [this]
    refine key _ _ ?_ (by omega) (by omega)
    zify at hm ⊢
    linarith

/-- The model's rounding of x ÷ 2^k is that of R96. -/
theorem roundTo_shift (rnd : Nat) (x : Int) (k : Nat) :
    (if x < 0 then -((roundTo rnd (decide (x < 0)) x.natAbs 0 false (k : Int)).1 : Int)
      else ((roundTo rnd (decide (x < 0)) x.natAbs 0 false (k : Int)).1 : Int)) = roundShift rnd x k := by
  rcases Nat.eq_zero_or_pos k with rfl | hk
  · have : (roundTo rnd (decide (x < 0)) x.natAbs 0 false ((0 : Nat) : Int)).1 = x.natAbs := by
      simp only [roundTo]
      have hr : roundsUp rnd (decide (x < 0)) (x.natAbs * 2 ^ ((0 : Int) - ((0 : Nat) : Int)).toNat) .lt false = false := by
        unfold roundsUp; split <;> simp
      simp
      simpa using hr
    rw [this]
    have : roundShift rnd x 0 = x := by
      unfold roundShift
      simp only [pow_zero, Int.ediv_one, Int.emod_one]
      split <;> simp
    rw [this]
    split <;> omega
  · obtain ⟨j, rfl⟩ : ∃ j, k = j + 1 := ⟨k - 1, by omega⟩
    have hd : (0 : Nat) < 2 ^ (j + 1) := by positivity
    have hh : 2 ^ (j + 1) = 2 * 2 ^ j := by ring
    have ht : ¬ (((j + 1 : Nat) : Int) ≤ 0) := by omega
    have hs : (((j + 1 : Nat) : Int) - 0).toNat = j + 1 := by omega
    simp only [roundTo, if_neg ht, hs, Nat.add_sub_cancel]
    have hcast : (2 : Int) ^ (j + 1) = ((2 ^ (j + 1) : Nat) : Int) := by push_cast; rfl
    unfold roundShift
    simp only [hcast]
    rcases lt_or_ge x 0 with hx | hx
    · obtain ⟨m, rfl⟩ : ∃ m : Nat, x = -(m : Int) := ⟨x.natAbs, by omega⟩
      obtain ⟨h1, h2⟩ := neg_ediv_emod m (2 ^ (j + 1)) hd
      have hlt := Nat.mod_lt m hd
      simp only [h1, h2, Int.natAbs_neg, Int.natAbs_natCast]
      generalize m / 2 ^ (j + 1) = q at *
      generalize m % 2 ^ (j + 1) = r at *
      simp only [hx, if_true]
      generalize 2 ^ (j + 1) = d at *
      generalize 2 ^ j = half at *
      subst hh
      match rnd with
      | 0 => 
        simp only [roundsUp]
        by_cases h0 : r = 0
        · subst h0
          have : (0 : Nat) < half := by omega
          simp [this]
        · by_cases ha : r < half
          · simp [ha, h0]; omega
          · by_cases hb : r = half
            · simp [hb]; split <;> omega
            · simp [ha, hb, h0]; omega
      | 1 => by_cases h0 : r = 0 <;> simp [roundsUp, h0]; omega
      | 2 => by_cases h0 : r = 0 <;> simp [roundsUp, h0]; omega
      | 3 => by_cases h0 : r = 0 <;> simp [roundsUp, h0]; omega
      | n + 4 =>
        simp only [roundsUp]
        by_cases h0 : r = 0
        · subst h0
          have : (0 : Nat) < half := by omega
          simp [this]
        · by_cases ha : r < half
          · simp [ha, h0]; omega
          · by_cases hb : r = half
            · simp [hb]; omega
            · simp [ha, hb, h0]; omega
    · obtain ⟨m, rfl⟩ : ∃ m : Nat, x = (m : Int) := ⟨x.natAbs, by omega⟩
      obtain ⟨q, r, hlt, rfl⟩ : ∃ q r, r < 2 ^ (j + 1) ∧ m = 2 ^ (j + 1) * q + r :=
        ⟨m / 2 ^ (j + 1), m % 2 ^ (j + 1), Nat.mod_lt m hd, (Nat.div_add_mod m _).symm⟩
      have e1 : (2 ^ (j + 1) * q + r) / 2 ^ (j + 1) = q := by rw [Nat.mul_add_div hd, Nat.div_eq_of_lt hlt, Nat.add_zero]
      have e2 : (2 ^ (j + 1) * q + r) % 2 ^ (j + 1) = r := by rw [Nat.mul_add_mod, Nat.mod_eq_of_lt hlt]
      have hx' : ¬ (((2 ^ (j + 1) * q + r : Nat) : Int) < 0) := by omega
      have e3 : (((2 ^ (j + 1) * q + r : Nat) : Int) / ((2 ^ (j + 1) : Nat) : Int)) = (q : Int) := by rw [← Int.natCast_ediv, e1]
      have e4 : (((2 ^ (j + 1) * q + r : Nat) : Int) % ((2 ^ (j + 1) : Nat) : Int)) = (r : Int) := by rw [← Int.natCast_emod, e2]
      simp only [e3, e4, Int.natAbs_natCast, e1, e2, hx', if_false, decide_false]
      clear e1 e2 e3 e4 hx' hx
      generalize 2 ^ (j + 1) = d at *
      generalize 2 ^ j = half at *
      subst hh
      match rnd with
      | 0 =>
        simp only [roundsUp]
        by_cases ha : r < half
        · simp [ha]
        · by_cases hb : r = half
          · simp [hb]; split <;> omega
          · simp [ha, hb]
      | 1 => simp [roundsUp]
      | 2 => by_cases h0 : r = 0 <;> simp [roundsUp, h0]
      | 3 => simp [roundsUp]
      | n + 4 =>
        simp only [roundsUp]
        by_cases ha : r < half
        · simp [ha]
        · by_cases hb : r = half
          · simp [hb]
          · simp [ha, hb]

/-- Rounding a shift by more than the width and two is rounding one by the width and two. -/
theorem roundShift_cap (signed : Bool) (w n rnd : Nat) (hw : 0 < w) (x : Int) (h : loOf signed w ≤ x ∧ x ≤ hiOf signed w) :
    roundShift rnd x (min n (w + 2)) = roundShift rnd x n := by
  by_cases hn : n ≤ w + 2
  · rw [min_eq_left hn]
  · rw [min_eq_right (by omega)]
    obtain ⟨k, rfl⟩ : ∃ k, w = k + 1 := ⟨w - 1, by omega⟩
    have hk : (2 : Int) ^ (k + 1) = 2 * 2 ^ k := by ring
    have hk0 : (0 : Int) < 2 ^ k := by positivity
    have hb : -(2 ^ (k + 1)) ≤ x ∧ x < 2 ^ (k + 1) := by
      cases signed <;> simp [loOf, hiOf] at h <;> omega
    have p1 : 4 * (2 : Int) ^ (k + 1) ≤ 2 ^ (k + 1 + 2) := by rw [pow_add _ (k + 1)]; omega
    have p2 : 4 * (2 : Int) ^ (k + 1) ≤ 2 ^ n := by
      calc 4 * (2 : Int) ^ (k + 1) = 2 ^ (k + 1 + 2) := by rw [pow_add]; ring
        _ ≤ 2 ^ n := by gcongr <;> omega
    have key : ∀ m : Int, 4 * 2 ^ (k + 1) ≤ m → x / m = (if x < 0 then -1 else 0) ∧ x % m = (if x < 0 then m + x else x) := by
      intro m hm
      have hm0 : 0 < m := by omega
      split
      · have hq : x / m = -1 := by rw [Int.ediv_eq_iff_of_pos hm0]; constructor <;> omega
        refine ⟨hq, ?_⟩
        have := Int.emod_add_mul_ediv x m
        rw [hq] at this
        linarith
      · exact ⟨Int.ediv_eq_zero_of_lt (by omega) (by omega), Int.emod_eq_of_lt (by omega) (by omega)⟩
    have key2 : ∀ j, 4 * (2 : Int) ^ (k + 1) ≤ 2 ^ j → roundShift rnd x j =
        match rnd with
        | 2 => if 0 < x then 1 else 0
        | 3 => if x < 0 then -1 else 0
        | _ => 0 := by
      intro j hj
      obtain ⟨e1, e2⟩ := key _ hj
      unfold roundShift
      simp only [e1, e2]
      generalize (2 : Int) ^ j = m at *
      generalize (2 : Int) ^ (k + 1) = u at *
      rcases lt_or_ge x 0 with hx | hx
      · have hx2 : ¬ 0 < x := by omega
        simp only [hx, hx2, if_true, if_false]
        match rnd with
        | 0 => simp; omega
        | 1 => simp; omega
        | 2 => simp; omega
        | 3 => simp
        | r + 4 => simp; omega
      · have hx2 : ¬ x < 0 := by omega
        simp only [hx2, if_false]
        match rnd with
        | 0 => simp; omega
        | 1 => simp
        | 2 => simp; split <;> split <;> omega
        | 3 => simp
        | r + 4 => simp; omega
    rw [key2 _ p1, key2 _ p2]

/-! ### Exact values (R137) -/

theorem shiftCount_eq (w : Nat) (y : Int) : shiftCount w y = min (countOf w y) (w + 2) := rfl

/-- The model's function behind an entry of R137's table with two operands. -/
def IntOp.fn : IntOp → IntFn
  | .add => xAdd
  | .sub => xSub
  | .rsub => xRsub
  | .mul => xMul
  | .mulhi => xMulhi
  | .min => xMin
  | .max => xMax
  | .abs => fun _ _ x _ => if x < 0 then -x else x
  | .neg => fun _ _ x _ => -x
  | .adiff => xAdiff
  | .div => xDiv
  | .rem => xRem
  | .shl => xShl
  | .shr => xShr
  | .rshr r => xRshr r
  | .mad => fun _ _ x y => x * y

/-- The exact functions of the model give the table of R137 after narrowing. -/
theorem narrow_exact (o : IntOp) (sat signed : Bool) (w : Nat) (hw : 0 < w) (x y z : Int)
    (h : loOf signed w ≤ x ∧ x ≤ hiOf signed w) (hm : o ≠ .mad) :
    narrow sat signed w (o.fn signed w x y) = narrow sat signed w (o.exact signed w x y z) := by
  cases o <;> simp only [IntOp.exact, IntOp.fn]
  all_goals try rfl
  · congr 1; simp only [xMin]; split <;> omega
  · congr 1; simp only [xMax]; split <;> omega
  · congr 1; split <;> omega
  · congr 1; simp only [xAdiff]; split <;> omega
  · simp only [xShl, shiftCount_eq]; exact narrow_shift sat signed w _ hw x h
  · simp only [xShr, shiftCount_eq]; rw [ediv_shift signed w _ hw x h]
  · rename_i r
    simp only [xRshr, shiftCount_eq]
    have := roundTo_shift r x (min (countOf w y) (w + 2))
    push_cast at this ⊢
    rw [this, roundShift_cap signed w _ r hw x h]
  · exact absurd rfl hm

/-! ### Bits (R143 to R149) -/

theorem getLsbD_two_pow (i q : Nat) (hq : q < 64) : (BitVec.ofNat 64 (2 ^ i)).getLsbD q = decide (q = i) := by
  rw [BitVec.getLsbD_ofNat, Nat.testBit_two_pow]
  simp [hq, eq_comm]

/-- The bits of a word made from its bits. -/
theorem getLsbD_ofBits (w : Nat) (b : Nat → Bool) (q : Nat) (hq : q < 64) : (ofBits w b).getLsbD q = (decide (q < w) && b q) := by
  have key : ∀ (n : Nat), ((List.range n).foldl (fun (v : Word) i => if b i then v ||| BitVec.ofNat 64 (2 ^ i) else v) 0).getLsbD q =
      (decide (q < n) && b q) := by
    intro n
    induction n with
    | zero => simp
    | succ n ih =>
      rw [List.range_succ, List.foldl_append, List.foldl_cons, List.foldl_nil]
      by_cases hb : b n = true
      · rw [if_pos hb, BitVec.getLsbD_or, ih, getLsbD_two_pow n q hq]
        by_cases hn : q = n
        · subst hn; simp [hb]
        · have : (q < n + 1) = (q < n) := by apply propext; omega
          simp [hn, this]
      · rw [if_neg hb, ih]
        by_cases hn : q = n
        · subst hn; simp [Bool.eq_false_iff.2 hb]
        · have : (q < n + 1) = (q < n) := by apply propext; omega
          simp [this]
  exact key w

theorem opW_cases (t : BitVec 4) : opW t = 32 ∨ opW t = 64 := by unfold opW; split <;> simp

/-- A result cut to the operand width keeps its bits below it. -/
theorem getLsbD_cutTo (t : BitVec 4) (v : Word) (q : Nat) (hq : q < opW t) : (cutTo (opW t) v).getLsbD q = v.getLsbD q := by
  rcases opW_cases t with h | h
  · rw [h] at hq ⊢
    have : q < 64 := by omega
    simp [cutTo, BitVec.getLsbD_setWidth, hq, this, -BitVec.getLsbD_eq_getElem]
  · rw [h]; simp [cutTo]

theorem opW_le (t : BitVec 4) : opW t ≤ 64 := by rcases opW_cases t with h | h <;> omega

theorem popCount_eq (w : Nat) (v : Word) : popCount w v = onesBelow v w := by
  simp [popCount, onesBelow, List.countP_eq_length_filter]

theorem rankOf_eq (m : Word) (i : Nat) : rankOf m i = onesBelow m i := by
  simp [rankOf, onesBelow, List.countP_eq_length_filter]

/-- The bits of a small number. -/
theorem getLsbD_count (n q : Nat) (hq : q < 64) : (BitVec.ofNat 64 n).getLsbD q = n.testBit q := by
  rw [BitVec.getLsbD_ofNat]; simp [hq]

theorem bitsOf_eq (v : Word) (lo n : Nat) : bitsOf v lo n = v.toNat / 2 ^ lo % 2 ^ n := by
  simp [bitsOf, BitVec.extractLsb'_toNat, Nat.shiftRight_eq_div_pow]

/-- bdep, bit by bit (R145). -/
theorem bit_bdep (w : Nat) (a m : Word) (q : Nat) (hq : q < w) (hw : w ≤ 64) :
    (bdepOf w a m).getLsbD q = BitOp.bdep.bit w a m 0 q := by
  rw [bdepOf, getLsbD_ofBits w _ q (by omega)]
  simp [BitOp.bit, hq, rankOf_eq]

/-- bext, bit by bit (R145). -/
theorem bit_bext (w : Nat) (a m : Word) (q : Nat) (hq : q < w) (hw : w ≤ 64) :
    (bextOf w a m).getLsbD q = BitOp.bext.bit w a m 0 q := by
  simp only [bextOf]
  rw [getLsbD_ofBits w _ q (by omega)]
  simp only [BitOp.bit, hq, decide_true, Bool.true_and] <;> split <;> simp_all

/-- bperm, bit by bit (R146). -/
theorem bit_bperm (a b : Word) (q : Nat) (hq : q < 64) : (bpermOf a b).getLsbD q = BitOp.bperm.bit 64 a b 0 q := by
  simp only [bpermOf]
  rw [getLsbD_ofBits 64 _ q hq]
  have hj : 8 * bitsOf b (3 * (q / 8)) 3 + q % 8 < 64 := by
    rw [bitsOf_eq]
    have := Nat.mod_lt (b.toNat / 2 ^ (3 * (q / 8))) (show 0 < 2 ^ 3 by decide)
    omega
  rw [getLsbD_ofBits 64 _ _ hj]
  simp only [BitOp.bit, hq, hj, decide_true, Bool.true_and]
  simp only [bitsOf_eq, Nat.reducePow]

/-- gfmat, bit by bit (R147). -/
theorem bit_gfmat (a b : Word) (q : Nat) (hq : q < 64) : (gfmatOf a b).getLsbD q = BitOp.gfmat.bit 64 a b 0 q := by
  simp only [gfmatOf]
  rw [getLsbD_ofBits 64 _ q hq]
  simp only [hq, decide_true, Bool.true_and, BitOp.bit]
  have : ∀ (f : Nat → Bool) (l : List Nat) (x : Bool), l.foldl (fun x j => x ^^ f j) x = (x ^^ ((l.filter f).length % 2 == 1)) := by
    intro f l
    induction l with
    | nil => intro x; simp
    | cons j l ih =>
      intro x
      rw [List.foldl_cons, ih, List.filter_cons]
      cases f j
      · simp
      · simp only [if_true, List.length_cons]
        rcases Nat.mod_two_eq_zero_or_one (l.filter f).length with h | h
        · have : ((l.filter f).length + 1) % 2 = 1 := by omega
          simp [h, this]
        · have : ((l.filter f).length + 1) % 2 = 0 := by omega
          simp [h, this]
  rw [this fun j => a.getLsbD (8 * (q / 8) + j) && b.getLsbD (8 * (q % 8) + j)]
  simp

/-- brev, bit by bit (R144). -/
theorem bit_brev (w : Nat) (a : Word) (q : Nat) (hq : q < w) (hw : w ≤ 64) : (brevOf w a).getLsbD q = BitOp.brev.bit w a 0 0 q := by
  rw [brevOf, getLsbD_ofBits w _ q (by omega)]
  simp [BitOp.bit, hq]

/-- The pattern of a field read as a number. -/
theorem testBit_wrapInt (signed : Bool) (w len n q : Nat) (hl : 0 < len) (hn : n < 2 ^ len) (hlw : len ≤ w) (hq : q < w) :
    (wrapInt w (readInt signed len n)).testBit q = if q < len then n.testBit q else signed && n.testBit (len - 1) := by
  have hw : (0 : Int) < 2 ^ w := by positivity
  have hp : 2 ^ len ≤ 2 ^ w := Nat.pow_le_pow_right (by decide) hlw
  by_cases hs : signed = true ∧ 2 ^ (len - 1) ≤ n
  · obtain ⟨rfl, hs⟩ := hs
    have hv : wrapInt w (readInt true len n) = 2 ^ w - 2 ^ len + n := by
      have h1 : readInt true len n = (n : Int) - 2 ^ len := by simp [readInt, hs]
      rw [wrapInt, h1]
      have h2 : ((n : Int) - 2 ^ len) % 2 ^ w = n - 2 ^ len + 2 ^ w := by
        rw [← Int.add_emod_right, Int.emod_eq_of_lt]
        · have : ((2 ^ len : Nat) : Int) ≤ ((2 ^ w : Nat) : Int) := by exact_mod_cast hp
          push_cast at this; omega
        · have : (n : Int) < 2 ^ len := by exact_mod_cast hn
          omega
      rw [h2]
      zify [hp]
      rw [Int.toNat_of_nonneg]
      · ring
      · have : ((2 ^ len : Nat) : Int) ≤ ((2 ^ w : Nat) : Int) := by exact_mod_cast hp
        push_cast at this; omega
    obtain ⟨d, rfl⟩ : ∃ d, w = len + d := ⟨w - len, by omega⟩
    have hv2 : 2 ^ (len + d) - 2 ^ len + n = 2 ^ len * (2 ^ d - 1) + n := by
      rw [Nat.mul_sub, Nat.pow_add, Nat.mul_one]
    rw [hv, hv2, Nat.testBit_two_pow_mul_add _ hn]
    split
    · rfl
    · have h3 : n.testBit (len - 1) = true := by
        have : n = 2 ^ (len - 1) + (n - 2 ^ (len - 1)) := by omega
        have h4 : n - 2 ^ (len - 1) < 2 ^ (len - 1) := by
          have : 2 ^ len = 2 * 2 ^ (len - 1) := by rw [← Nat.pow_succ']; congr 1; omega
          omega
        rw [this, Nat.testBit_two_pow_add_eq, Nat.testBit_lt_two_pow h4]
        rfl
      rw [h3, Nat.testBit_two_pow_sub_one]
      simp; omega
  · have h1 : readInt signed len n = n := by
      unfold readInt
      rw [if_neg]
      simp only [Bool.and_eq_true, decide_eq_true_eq]
      exact hs
    have h2 : wrapInt w (n : Int) = n := by
      unfold wrapInt
      rw [Int.emod_eq_of_lt (by omega)]
      · simp
      · have : n < 2 ^ w := by omega
        exact_mod_cast this
    rw [h1, h2]
    split
    · rfl
    · rename_i hql
      rw [Nat.testBit_lt_two_pow (lt_of_lt_of_le hn (Nat.pow_le_pow_right (by decide) (by omega)))]
      cases signed
      · rfl
      · have : n < 2 ^ (len - 1) := by
          simp only [true_and, not_le] at hs
          exact hs
        rw [Nat.testBit_lt_two_pow this]; rfl

/-- bfx, bit by bit (R148). -/
theorem bit_bfx (t : BitVec 4) (pos len : Nat) (a : Word) (q : Nat) (hl : 0 < len) (hlw : pos + len ≤ opW t) (hq : q < opW t) :
    (bfxOf t pos len a).getLsbD q = (BitOp.bfx (isSigned t) pos len).bit (opW t) a 0 0 q := by
  have := opW_le t
  rw [bfxOf, getLsbD_count _ q (by omega), testBit_wrapInt (isSigned t) (opW t) len _ q hl (Nat.mod_lt _ (Nat.two_pow_pos _)) (by omega) hq]
  simp only [BitOp.bit, Nat.testBit_mod_two_pow, Nat.testBit_div_two_pow, BitVec.getLsbD]
  split
  · rename_i h; simp [h, Nat.add_comm]
  · have : len - 1 < len := by omega
    simp [this, show len - 1 + pos = pos + len - 1 by omega]

/-- bfi, bit by bit (R149). -/
theorem bit_bfi (t : BitVec 4) (a b c : Word) (q : Nat) (hq : q < opW t) :
    (bfiOf (opW t) a b c).getLsbD q = BitOp.bfi.bit (opW t) a b c q := by
  have h64 := opW_le t
  simp only [bfiOf, bitsOf_eq]
  rw [getLsbD_cutTo t _ q hq]
  simp only [BitOp.bit, Nat.pow_zero, Nat.div_one, show (2 : Nat) ^ 6 = 64 from rfl]
  generalize hp : c.toNat % 64 = pos
  generalize hl : c.toNat / 2 ^ 8 % 64 = len
  have hm : (BitVec.ofNat 64 ((2 ^ len - 1) * 2 ^ pos % 2 ^ opW t)).getLsbD q = (decide (pos ≤ q) && decide (q < pos + len)) := by
    rw [BitVec.getLsbD_ofNat, Nat.testBit_mod_two_pow, Nat.mul_comm, Nat.testBit_two_pow_mul, Nat.testBit_two_pow_sub_one]
    have h1 : q < 64 := by omega
    simp only [hq, h1, decide_true, Bool.true_and]
    by_cases h2 : pos ≤ q
    · have : (q - pos < len) = (q < pos + len) := by apply propext; omega
      simp [h2, this]
    · simp [h2]
  have hb : (BitVec.ofNat 64 (b.toNat * 2 ^ pos)).getLsbD q = (decide (pos ≤ q) && b.getLsbD (q - pos)) := by
    rw [BitVec.getLsbD_ofNat, Nat.mul_comm, Nat.testBit_two_pow_mul]
    have h1 : q < 64 := by omega
    simp [h1, BitVec.getLsbD]
  have hq64 : q < 64 := by omega
  have := BitVec.getLsbD_or (x := a &&& ~~~(BitVec.ofNat 64 ((2 ^ len - 1) * 2 ^ pos % 2 ^ opW t)))
    (y := BitVec.ofNat 64 (b.toNat * 2 ^ pos) &&& BitVec.ofNat 64 ((2 ^ len - 1) * 2 ^ pos % 2 ^ opW t)) (i := q)
  refine this.trans ?_
  rw [BitVec.getLsbD_and, BitVec.getLsbD_and, BitVec.getLsbD_not, hm, hb]
  by_cases h1 : pos ≤ q <;> by_cases h2 : q < pos + len <;> simp [h1, h2, hq64]

end Sys2Proof.Machine
end

