-- ==== Sys2Proof/Tests/Slice0.lean ====
section
/-! SUPPORT. Tests of the model's own author: words written out from the spec's encodings, ill-formed terms, single steps with results
taken from the spec, and for every statement a state and operands that meet its hypotheses together. -/

open Sys2Proof Sys2Proof.Machine

namespace Sys2Proof.Tests

set_option Elab.async false

/-! ### Decoding -/

/-- Words (the first, and the extension word or 0) read as instructions of a group of width 64. -/
abbrev ReadsAs (l : List (Word × Word × Instr)) : Prop := ∀ x ∈ l, decodeWords 64 x.1 x.2.1 = .instr x.2.2

abbrev H0 : Hdr := ⟨false, false, false, 0⟩

/-- Words of the VR format composed from R72 and the body table of the format, with the majors of R103. -/
theorem test_decode_vr : ReadsAs [
    (0x016282030410A544, 0x0, .addVr ⟨false, true, true, 5⟩ ⟨4, 6, 8, 1, 2, true, false, false, true, 5, 0, true⟩),
    (0x026282030410A658, 0x0, .subVr ⟨false, true, true, 5⟩ ⟨4, 6, 8, 1, 2, true, false, false, true, 9, 3, false⟩),
    (0x036282030410A440, 0x0, .mulVr ⟨false, true, true, 5⟩ ⟨4, 6, 8, 1, 2, true, false, false, true, 1, 0, false⟩),
    (0x046282030410A600, 0x0, .mulhi ⟨false, true, true, 5⟩ ⟨4, 6, 8, 1, 2, true, false, false, true, 8, 0, false⟩),
    (0x056282030410A680, 0x0, .minVr ⟨false, true, true, 5⟩ ⟨4, 6, 8, 1, 2, true, false, false, true, 10, 0, false⟩),
    (0x066282030410A5C0, 0x0, .maxVr ⟨false, true, true, 5⟩ ⟨4, 6, 8, 1, 2, true, false, false, true, 7, 0, false⟩),
    (0x096282030410A580, 0x0, .div ⟨false, true, true, 5⟩ ⟨4, 6, 8, 1, 2, true, false, false, true, 6, 0, false⟩),
    (0x0A6282030410A540, 0x0, .rem ⟨false, true, true, 5⟩ ⟨4, 6, 8, 1, 2, true, false, false, true, 5, 0, false⟩),
    (0x0B6282030410A4C0, 0x0, .shlVr ⟨false, true, true, 5⟩ ⟨4, 6, 8, 1, 2, true, false, false, true, 3, 0, false⟩),
    (0x0C6282030410A500, 0x0, .shrVr ⟨false, true, true, 5⟩ ⟨4, 6, 8, 1, 2, true, false, false, true, 4, 0, false⟩),
    (0x0D6282030410A4A0, 0x0, .rshrVr ⟨false, true, true, 5⟩ ⟨4, 6, 8, 1, 2, true, false, false, true, 2, 4, false⟩),
    (0x0E6282030410A440, 0x0, .adiff ⟨false, true, true, 5⟩ ⟨4, 6, 8, 1, 2, true, false, false, true, 1, 0, false⟩),
    (0x106282030410A400, 0x0, .andVr ⟨false, true, true, 5⟩ ⟨4, 6, 8, 1, 2, true, false, false, true, 0, 0, false⟩),
    (0x116282030410A700, 0x0, .orVr ⟨false, true, true, 5⟩ ⟨4, 6, 8, 1, 2, true, false, false, true, 12, 0, false⟩),
    (0x126282030410A400, 0x0, .xorVr ⟨false, true, true, 5⟩ ⟨4, 6, 8, 1, 2, true, false, false, true, 0, 0, false⟩),
    (0x136282030410A400, 0x0, .andn ⟨false, true, true, 5⟩ ⟨4, 6, 8, 1, 2, true, false, false, true, 0, 0, false⟩),
    (0x1A6282030410A400, 0x0, .bdep ⟨false, true, true, 5⟩ ⟨4, 6, 8, 1, 2, true, false, false, true, 0, 0, false⟩),
    (0x1B6282030410A400, 0x0, .bext ⟨false, true, true, 5⟩ ⟨4, 6, 8, 1, 2, true, false, false, true, 0, 0, false⟩),
    (0x1C6282030410A700, 0x0, .bperm ⟨false, true, true, 5⟩ ⟨4, 6, 8, 1, 2, true, false, false, true, 12, 0, false⟩),
    (0x1D6282030410A700, 0x0, .gfmat ⟨false, true, true, 5⟩ ⟨4, 6, 8, 1, 2, true, false, false, true, 12, 0, false⟩),
    (0x4A6282030410A640, 0x0, .scale ⟨false, true, true, 5⟩ ⟨4, 6, 8, 1, 2, true, false, false, true, 9, 0, false⟩),
    (0x4B6282030410A6C0, 0x0, .copysign ⟨false, true, true, 5⟩ ⟨4, 6, 8, 1, 2, true, false, false, true, 11, 0, false⟩),
    (0x078005000621D544, 0x0, .abs ⟨true, false, false, 0⟩ ⟨10, 0, 12, 2, 7, false, true, false, true, 5, 0, true⟩),
    (0x088005000621D640, 0x0, .neg ⟨true, false, false, 0⟩ ⟨10, 0, 12, 2, 7, false, true, false, true, 9, 0, false⟩),
    (0x148005000621D400, 0x0, .notVr ⟨true, false, false, 0⟩ ⟨10, 0, 12, 2, 7, false, true, false, true, 0, 0, false⟩),
    (0x158005000621D580, 0x0, .movVr ⟨true, false, false, 0⟩ ⟨10, 0, 12, 2, 7, false, true, false, true, 6, 0, false⟩),
    (0x168005000621D400, 0x0, .popc ⟨true, false, false, 0⟩ ⟨10, 0, 12, 2, 7, false, true, false, true, 0, 0, false⟩),
    (0x178005000621D700, 0x0, .clz ⟨true, false, false, 0⟩ ⟨10, 0, 12, 2, 7, false, true, false, true, 12, 0, false⟩),
    (0x188005000621D400, 0x0, .ctz ⟨true, false, false, 0⟩ ⟨10, 0, 12, 2, 7, false, true, false, true, 0, 0, false⟩),
    (0x198005000621D400, 0x0, .brev ⟨true, false, false, 0⟩ ⟨10, 0, 12, 2, 7, false, true, false, true, 0, 0, false⟩),
    (0x418005000621D640, 0x0, .sqrt ⟨true, false, false, 0⟩ ⟨10, 0, 12, 2, 7, false, true, false, true, 9, 0, false⟩),
    (0x428005000621D640, 0x0, .exp2 ⟨true, false, false, 0⟩ ⟨10, 0, 12, 2, 7, false, true, false, true, 9, 0, false⟩),
    (0x438005000621D640, 0x0, .log2 ⟨true, false, false, 0⟩ ⟨10, 0, 12, 2, 7, false, true, false, true, 9, 0, false⟩),
    (0x448005000621D640, 0x0, .rcp ⟨true, false, false, 0⟩ ⟨10, 0, 12, 2, 7, false, true, false, true, 9, 0, false⟩),
    (0x458005000621D640, 0x0, .rsqrt ⟨true, false, false, 0⟩ ⟨10, 0, 12, 2, 7, false, true, false, true, 9, 0, false⟩),
    (0x468005000621D640, 0x0, .tanh ⟨true, false, false, 0⟩ ⟨10, 0, 12, 2, 7, false, true, false, true, 9, 0, false⟩),
    (0x478005000621D640, 0x0, .sigm ⟨true, false, false, 0⟩ ⟨10, 0, 12, 2, 7, false, true, false, true, 9, 0, false⟩),
    (0x488005000621D650, 0x0, .rndi ⟨true, false, false, 0⟩ ⟨10, 0, 12, 2, 7, false, true, false, true, 9, 2, false⟩),
    (0x498005000621D640, 0x0, .fclass ⟨true, false, false, 0⟩ ⟨10, 0, 12, 2, 7, false, true, false, true, 9, 0, false⟩),
    (0x69000000064FD140, 0x0, .kpush ⟨false, false, false, 0⟩ ⟨0, 0, 12, 4, 63, false, true, false, false, 5, 0, false⟩),
    (0x6A00030000000140, 0x0, .kpop ⟨false, false, false, 0⟩ ⟨6, 0, 0, 0, 0, false, false, false, false, 5, 0, false⟩),
    (0x6B00000000000000, 0x0, .kclr ⟨false, false, false, 0⟩ ⟨0, 0, 0, 0, 0, false, false, false, false, 0, 0, false⟩),
    (0x7000020304002140, 0x0, .shflVr ⟨false, false, false, 0⟩ ⟨4, 6, 8, 0, 0, true, false, false, false, 5, 0, false⟩),
    (0x7400028000821140, 0x0, .scan ⟨false, false, false, 0⟩ ⟨5, 0, 1, 0, 8, false, true, false, false, 5, 0, false⟩),
    (0x7500028000808180, 0x0, .red ⟨false, false, false, 0⟩ ⟨5, 0, 1, 0, 2, false, false, false, false, 6, 0, false⟩),
    (0x6A00038081000240, 0x0, .kpopKeep ⟨false, false, false, 0⟩ ⟨7, 1, 2, 0, 0, false, false, false, false, 9, 0, false⟩),
    (0x6A00040100000180, 0x0, .kpopDepth ⟨false, false, false, 0⟩ ⟨8, 2, 0, 0, 0, false, false, false, false, 6, 0, false⟩)] := by decide +kernel

/-- Words of the VI format composed from R72 and the body table of the format, with the majors of R103. -/
theorem test_decode_vi : ReadsAs [
    (0x1E0002030182A980, 0x0, .bfx ⟨false, false, false, 0⟩ ⟨4, 6, 773, true, true, 6, 0, false, 0⟩),
    (0x200002034000A945, 0x0, .addVi ⟨false, false, false, 0⟩ ⟨4, 6, 32769, true, true, 5, 0, true, 1⟩),
    (0x210002034000A9C2, 0x0, .rsub ⟨false, false, false, 0⟩ ⟨4, 6, 32769, true, true, 7, 0, false, 2⟩),
    (0x220002034000AA4A, 0x0, .mulVi ⟨false, false, false, 0⟩ ⟨4, 6, 32769, true, true, 9, 1, false, 2⟩),
    (0x230002034000A800, 0x0, .andVi ⟨false, false, false, 0⟩ ⟨4, 6, 32769, true, true, 0, 0, false, 0⟩),
    (0x240002034000A800, 0x0, .orVi ⟨false, false, false, 0⟩ ⟨4, 6, 32769, true, true, 0, 0, false, 0⟩),
    (0x250002034000AB00, 0x0, .xorVi ⟨false, false, false, 0⟩ ⟨4, 6, 32769, true, true, 12, 0, false, 0⟩),
    (0x26000203000FA940, 0x0, .shlVi ⟨false, false, false, 0⟩ ⟨4, 6, 31, true, true, 5, 0, false, 0⟩),
    (0x270002030001A980, 0x0, .shrVi ⟨false, false, false, 0⟩ ⟨4, 6, 3, true, true, 6, 0, false, 0⟩),
    (0x2800020300012958, 0x0, .rshrVi ⟨false, false, false, 0⟩ ⟨4, 6, 2, true, true, 5, 3, false, 0⟩),
    (0x290002034000A940, 0x0, .minVi ⟨false, false, false, 0⟩ ⟨4, 6, 32769, true, true, 5, 0, false, 0⟩),
    (0x2A0002034000A980, 0x0, .maxVi ⟨false, false, false, 0⟩ ⟨4, 6, 32769, true, true, 6, 0, false, 0⟩),
    (0x530002030004A800, 0x0, .tagSet ⟨false, false, false, 0⟩ ⟨4, 6, 9, true, true, 0, 0, false, 0⟩),
    (0x2B00020040008182, 0x0, .movVi ⟨false, false, false, 0⟩ ⟨4, 0, 32769, false, false, 6, 0, false, 2⟩)] := by decide +kernel

/-- Words of the VS format composed from R72 and the body table of the format, with the majors of R103. -/
theorem test_decode_vs : ReadsAs [
    (0x300002037E002140, 0x0, .addVs ⟨false, false, false, 0⟩ ⟨4, 6, 63, 0, true, false, 5, 0, false⟩),
    (0x310002037E002240, 0x0, .subVs ⟨false, false, false, 0⟩ ⟨4, 6, 63, 0, true, false, 9, 0, false⟩),
    (0x320002037E0022C0, 0x0, .mulVs ⟨false, false, false, 0⟩ ⟨4, 6, 63, 0, true, false, 11, 0, false⟩),
    (0x330002037E002000, 0x0, .andVs ⟨false, false, false, 0⟩ ⟨4, 6, 63, 0, true, false, 0, 0, false⟩),
    (0x340002037E002300, 0x0, .orVs ⟨false, false, false, 0⟩ ⟨4, 6, 63, 0, true, false, 12, 0, false⟩),
    (0x350002037E002000, 0x0, .xorVs ⟨false, false, false, 0⟩ ⟨4, 6, 63, 0, true, false, 0, 0, false⟩),
    (0x360002037E002140, 0x0, .shlVs ⟨false, false, false, 0⟩ ⟨4, 6, 63, 0, true, false, 5, 0, false⟩),
    (0x370002037E002180, 0x0, .shrVs ⟨false, false, false, 0⟩ ⟨4, 6, 63, 0, true, false, 6, 0, false⟩),
    (0x380002037E002140, 0x0, .minVs ⟨false, false, false, 0⟩ ⟨4, 6, 63, 0, true, false, 5, 0, false⟩),
    (0x390002037E002240, 0x0, .maxVs ⟨false, false, false, 0⟩ ⟨4, 6, 63, 0, true, false, 9, 0, false⟩),
    (0x710002037E002140, 0x0, .shflVs ⟨false, false, false, 0⟩ ⟨4, 6, 63, 0, true, false, 5, 0, false⟩),
    (0x3A0002007E000140, 0x0, .movVs ⟨false, false, false, 0⟩ ⟨4, 0, 63, 0, false, false, 5, 0, false⟩),
    (0x3B0002038400C140, 0x0, .lea ⟨false, false, false, 0⟩ ⟨4, 7, 2, 3, false, false, 5, 0, false⟩)] := by decide +kernel

/-- Words of the V3 format composed from R72 and the body table of the format, with the majors of R103. -/
theorem test_decode_v3 : ReadsAs [
    (0x0F000203047FC942, 0x0, .mad ⟨false, false, false, 0⟩ ⟨4, 6, 8, 255, true, false, false, true, false, 5, 0, false, true⟩),
    (0x1F000203047FC802, 0x0, .bfi ⟨false, false, false, 0⟩ ⟨4, 6, 8, 255, true, false, false, true, false, 0, 0, false, true⟩),
    (0x40000203047FCA42, 0x0, .fma ⟨false, false, false, 0⟩ ⟨4, 6, 8, 255, true, false, false, true, false, 9, 0, false, true⟩)] := by decide +kernel

/-- Words of the VP format composed from R72 and the body table of the format, with the majors of R103. -/
theorem test_decode_vp : ReadsAs [
    (0x60007E030431A25C, 0x0, .cmp ⟨false, false, false, 0⟩ ⟨63, 6, 8, 3, 6, true, false, false, false, 9, 7, false⟩),
    (0x5400040486000004, 0x0, .tagChk ⟨false, false, false, 0⟩ ⟨2, 9, 12, 0, 0, false, false, false, false, 0, 1, false⟩)] := by decide +kernel

/-- Words of the CV format composed from R72 and the body table of the format, with the majors of R103. -/
theorem test_decode_cv : ReadsAs [
    (0x500004828A80A004, 0x0, .cvt ⟨false, false, false, 0⟩ ⟨9, 5, 1, 5, 2, true, false, 0, true⟩),
    (0x51000A02048CC000, 0x0, .cvtTodx ⟨false, false, false, 0⟩ ⟨20, 4, 0, 9, 51, false, false, 0, false⟩),
    (0x52000A02480CC008, 0x0, .cvtFromdx ⟨false, false, false, 0⟩ ⟨20, 4, 9, 0, 51, false, false, 1, false⟩)] := by decide +kernel

/-- Words of the PR format composed from R72 and the body table of the format, with the majors of R103. -/
theorem test_decode_pr : ReadsAs [
    (0x6100080FD8000001, 0x0, .pand ⟨false, false, false, 0⟩ ⟨4, 1, 62, true, true, 1⟩),
    (0x6200080FD8000002, 0x0, .por ⟨false, false, false, 0⟩ ⟨4, 1, 62, true, true, 2⟩),
    (0x6300080FD8000000, 0x0, .pxor ⟨false, false, false, 0⟩ ⟨4, 1, 62, true, true, 0⟩),
    (0x6400080810000000, 0x0, .pnot ⟨false, false, false, 0⟩ ⟨4, 1, 0, true, false, 0⟩),
    (0x6500080800000000, 0x0, .pmov ⟨false, false, false, 0⟩ ⟨4, 1, 0, false, false, 0⟩),
    (0x6600080000000001, 0x0, .pset ⟨false, false, false, 0⟩ ⟨4, 0, 0, false, false, 1⟩),
    (0x7200080800000002, 0x0, .vote ⟨false, false, false, 0⟩ ⟨4, 1, 0, false, false, 2⟩)] := by decide +kernel

/-- Words of the SV format composed from R72 and the body table of the format, with the majors of R103. -/
theorem test_decode_sv : ReadsAs [
    (0xAF000A0300102140, 0x0, .movSv ⟨false, false, false, 0⟩ ⟨5, 6, 64, true, false, 5⟩)] := by decide +kernel

/-- Words of the RS format composed from R72 and the body table of the format, with the majors of R103. -/
theorem test_decode_rs : ReadsAs [
    (0xBC00644001000000, 0x0, .rds ⟨false, false, false, 0⟩ ⟨200, true, 1⟩)] := by decide +kernel

/-- Words of the X format composed from R72 and the body table of the format, with the majors of R103. -/
theorem test_decode_x : ReadsAs [
    (0x6800067C07A00000, 0x0, .xv ⟨false, false, false, 0⟩ ⟨12, 248, 3, true, true, false, true⟩)] := by decide +kernel

/-- Words of the M format composed from R72 and the body table of the format, with the majors of R103. -/
theorem test_decode_m : ReadsAs [
    (0x800002840DFF88A9, 0x0, .ld ⟨false, false, false, 0⟩ ⟨5, 2, 6, true, 255, 4, false, true, false, false, 5, 2, 1⟩),
    (0x810002840D0110A8, 0x0, .st ⟨false, false, false, 0⟩ ⟨5, 2, 6, true, 1, 0, true, false, false, false, 5, 2, 0⟩),
    (0x82000284000000AB, 0x0, .ldS ⟨false, false, false, 0⟩ ⟨5, 2, 0, false, 0, 0, false, false, false, false, 5, 2, 3⟩),
    (0x8300020400000010, 0x0, .stS ⟨false, false, false, 0⟩ ⟨4, 2, 0, false, 0, 0, false, false, false, false, 0, 4, 0⟩),
    (0x84001F84000000A8, 0x0, .ldu ⟨false, false, false, 0⟩ ⟨63, 2, 0, false, 0, 0, false, false, false, false, 5, 2, 0⟩),
    (0x85001F84000004A8, 0x0, .stu ⟨false, false, false, 0⟩ ⟨63, 2, 0, false, 0, 0, false, false, true, false, 5, 2, 0⟩),
    (0x860000040D800008, 0x0, .pf ⟨false, false, false, 0⟩ ⟨0, 2, 6, true, 128, 0, false, false, false, false, 0, 2, 0⟩),
    (0x870002FC0D0000A8, 0x0, .ldb ⟨false, false, false, 0⟩ ⟨5, 62, 6, true, 0, 0, false, false, false, false, 5, 2, 0⟩),
    (0x880002FC0D0000A8, 0x0, .stb ⟨false, false, false, 0⟩ ⟨5, 62, 6, true, 0, 0, false, false, false, false, 5, 2, 0⟩),
    (0xDC0002040C01018D, 0x0, .diagSt ⟨false, false, false, 0⟩ ⟨4, 2, 6, false, 1, 0, false, false, false, false, 12, 3, 1⟩),
    (0x900002840D0000C8, 0xFF80384400000000, .atM ⟨false, false, false, 0⟩ ⟨5, 2, 6, true, 0, 0, false, false, false, false, 6, 2, 0⟩ ⟨8, false, 7, 8, true, false, false, false⟩),
    (0x900002840000A0ED, 0xFF08380000000000, .atM ⟨false, false, false, 0⟩ ⟨5, 2, 0, false, 0, 5, false, false, false, false, 7, 3, 1⟩ ⟨0, true, 7, 0, false, false, false, false⟩),
    (0x910004840000810D, 0xFF3A3905166C0000, .atc ⟨false, false, false, 0⟩ ⟨9, 2, 0, false, 0, 4, false, false, false, false, 8, 3, 1⟩ ⟨3, 5, 7, 8, 10, 11, 13, true⟩)] := by decide +kernel

/-- Words of the UR format composed from R72 and the body table of the format, with the majors of R103. -/
theorem test_decode_ur : ReadsAs [
    (0xA0000A1880000007, 0x0, .addUr ⟨false, false, false, 0⟩ ⟨5, 3, 4, 7⟩),
    (0xA1000A1880000006, 0x0, .subUr ⟨false, false, false, 0⟩ ⟨5, 3, 4, 6⟩),
    (0xA2000A1880000007, 0x0, .mulUr ⟨false, false, false, 0⟩ ⟨5, 3, 4, 7⟩),
    (0xA3000A1880000007, 0x0, .divUr ⟨false, false, false, 0⟩ ⟨5, 3, 4, 7⟩),
    (0xA4000A1880000008, 0x0, .remUr ⟨false, false, false, 0⟩ ⟨5, 3, 4, 8⟩),
    (0xA5000A188000000C, 0x0, .andUr ⟨false, false, false, 0⟩ ⟨5, 3, 4, 12⟩),
    (0xA6000A188000000C, 0x0, .orUr ⟨false, false, false, 0⟩ ⟨5, 3, 4, 12⟩),
    (0xA7000A188000000C, 0x0, .xorUr ⟨false, false, false, 0⟩ ⟨5, 3, 4, 12⟩),
    (0xA8000A1880000007, 0x0, .shlUr ⟨false, false, false, 0⟩ ⟨5, 3, 4, 7⟩),
    (0xA9000A1880000008, 0x0, .shrUr ⟨false, false, false, 0⟩ ⟨5, 3, 4, 8⟩),
    (0xAA000A1880000007, 0x0, .minUr ⟨false, false, false, 0⟩ ⟨5, 3, 4, 7⟩),
    (0xAB000A1880000007, 0x0, .maxUr ⟨false, false, false, 0⟩ ⟨5, 3, 4, 7⟩),
    (0xAC000A1880000207, 0x0, .cmpUr ⟨false, false, false, 0⟩ ⟨5, 3, 4, 519⟩),
    (0x73000A1800000000, 0x0, .ballot ⟨false, false, false, 0⟩ ⟨5, 3, 0, 0⟩),
    (0x9200005160000003, 0x0, .sigAdd ⟨false, false, false, 0⟩ ⟨0, 10, 11, 3⟩),
    (0x9300005180000005, 0x0, .waitGe ⟨false, false, false, 0⟩ ⟨0, 10, 12, 5⟩),
    (0x9400000000000014, 0x0, .fence ⟨false, false, false, 0⟩ ⟨0, 0, 0, 20⟩),
    (0x9500000000000041, 0x0, .xfence ⟨false, false, false, 0⟩ ⟨0, 0, 0, 65⟩),
    (0xB400081100000000, 0x0, .launch ⟨false, false, false, 0⟩ ⟨4, 2, 8, 0⟩),
    (0xBA00000000000003, 0x0, .bar ⟨false, false, false, 0⟩ ⟨0, 0, 0, 3⟩),
    (0xBBDF800000000000, 0x0, .nop ⟨true, true, false, 63⟩ ⟨0, 0, 0, 0⟩),
    (0xC00000214000000A, 0x0, .cp ⟨false, false, false, 0⟩ ⟨0, 4, 10, 10⟩),
    (0xC100061000000000, 0x0, .mres ⟨false, false, false, 0⟩ ⟨3, 2, 0, 0⟩),
    (0xC200060000000000, 0x0, .mrel ⟨false, false, false, 0⟩ ⟨3, 0, 0, 0⟩),
    (0xC300004000000003, 0x0, .mld ⟨false, false, false, 0⟩ ⟨0, 8, 0, 3⟩),
    (0xC400004000000003, 0x0, .mst ⟨false, false, false, 0⟩ ⟨0, 8, 0, 3⟩),
    (0xC500000000000003, 0x0, .mzero ⟨false, false, false, 0⟩ ⟨0, 0, 0, 3⟩),
    (0xC600024000000003, 0x0, .osmMax ⟨false, false, false, 0⟩ ⟨1, 8, 0, 3⟩),
    (0xC700024000000003, 0x0, .osmAcc ⟨false, false, false, 0⟩ ⟨1, 8, 0, 3⟩),
    (0xC800084000000000, 0x0, .fbRed ⟨false, false, false, 0⟩ ⟨4, 8, 0, 0⟩),
    (0xC900084000000000, 0x0, .fbBcast ⟨false, false, false, 0⟩ ⟨4, 8, 0, 0⟩),
    (0xD000081100000000, 0x0, .qPush ⟨false, false, false, 0⟩ ⟨4, 2, 8, 0⟩),
    (0xD100081100000000, 0x0, .qPop ⟨false, false, false, 0⟩ ⟨4, 2, 8, 0⟩),
    (0xD200081100000000, 0x0, .binPut ⟨false, false, false, 0⟩ ⟨4, 2, 8, 0⟩),
    (0xD300081100000000, 0x0, .jyPush ⟨false, false, false, 0⟩ ⟨4, 2, 8, 0⟩),
    (0xD400081100000002, 0x0, .jyPop ⟨false, false, false, 0⟩ ⟨4, 2, 8, 2⟩),
    (0xD500081100000014, 0x0, .tsDesc ⟨false, false, false, 0⟩ ⟨4, 2, 8, 20⟩),
    (0xD6000A1100000002, 0x0, .tsBack ⟨false, false, false, 0⟩ ⟨5, 2, 8, 2⟩),
    (0xD7000C1180000002, 0x0, .tsExp ⟨false, false, false, 0⟩ ⟨6, 2, 12, 2⟩),
    (0xD8000E1200000002, 0x0, .tsRoot ⟨false, false, false, 0⟩ ⟨7, 2, 16, 2⟩),
    (0xD900121280003FFE, 0x0, .tsAnc ⟨false, false, false, 0⟩ ⟨9, 2, 20, 16382⟩),
    (0xDA00002800000007, 0x0, .trap ⟨false, false, false, 0⟩ ⟨0, 5, 0, 7⟩),
    (0xDB00083120000107, 0x0, .syscall ⟨false, false, false, 0⟩ ⟨4, 6, 9, 263⟩),
    (0xE1000E0000000001, 0xFF23456789ABCDEF, .movl ⟨false, false, false, 0⟩ ⟨7, 0, 0, 1⟩ 0x23456789ABCDEF),
    (0xE400002140006C8A, 0xFF00000070000200, .cpx ⟨false, false, false, 0⟩ ⟨0, 4, 10, 27786⟩ ⟨0x70, 0x200⟩),
    (0xE200004000000000, 0xFF000008C90B0010, .mloop ⟨false, false, false, 0⟩ ⟨0, 8, 0, 0⟩ ⟨0, true, false, 3, 2, 4, 1, 3, 16⟩),
    (0xE300024000000001, 0xFF000010E676FFFF, .mloopSp ⟨false, false, false, 0⟩ ⟨1, 8, 0, 1⟩ ⟨1, false, false, 3, 9, 9, 6, 6, 65535⟩)] := by decide +kernel

/-- Words of the UI format composed from R72 and the body table of the format, with the majors of R103. -/
theorem test_decode_ui : ReadsAs [
    (0xAD000A1C0000000A, 0x0, .addUi ⟨false, false, false, 0⟩ ⟨5, 3, 2147483649, 1⟩),
    (0xAE000A000000003C, 0x0, .movUi ⟨false, false, false, 0⟩ ⟨5, 0, 7, 2⟩)] := by decide +kernel

/-- Words of the C format composed from R72 and the body table of the format, with the majors of R103. -/
theorem test_decode_c : ReadsAs [
    (0xB000000207848D00, 0x0, .ifC ⟨false, false, false, 0⟩ ⟨4, 3, true, true, false, 4660⟩),
    (0xB100000200000040, 0x0, .elseC ⟨false, false, false, 0⟩ ⟨4, 0, false, false, false, 1⟩),
    (0xB200000000000040, 0x0, .endifC ⟨false, false, false, 0⟩ ⟨0, 0, false, false, false, 1⟩),
    (0xB300000000000040, 0x0, .loopC ⟨false, false, false, 0⟩ ⟨0, 0, false, false, false, 1⟩),
    (0xB5007FFF07848D00, 0x0, .endloopC ⟨false, false, false, 0⟩ ⟨65534, 3, true, true, false, 4660⟩),
    (0xB600000207848D00, 0x0, .brkC ⟨false, false, false, 0⟩ ⟨4, 3, true, true, false, 4660⟩),
    (0xB700000207848D00, 0x0, .contC ⟨false, false, false, 0⟩ ⟨4, 3, true, true, false, 4660⟩),
    (0xB800000006800040, 0x0, .retC ⟨false, false, false, 0⟩ ⟨0, 3, false, true, false, 1⟩),
    (0xB900000207848D00, 0x0, .exitC ⟨false, false, false, 0⟩ ⟨4, 3, true, true, false, 4660⟩),
    (0xE000000000000040, 0xFF000000FFFFFFFE, .callC ⟨false, false, false, 0⟩ ⟨0, 0, false, false, false, 1⟩ 4294967294)] := by decide +kernel

/-- Words that the spec's worked examples give with the instruction that they stand for: R77, R79, R153, R156, R192, R199, R205, R220 and
the examples of 07 and 12. -/
theorem test_decode_lane_examples : ReadsAs [
    -- add.i32 v3, v1, v2.bfly1.last
    (0x0100018081105140, 0, .addVr H0 ⟨3, 1, 2, 1, 1, false, true, false, false, 5, 0, false⟩),
    -- add.i32 v4, v4, −3 ?!p2 with RM
    (0x20E102027FFE8140, 0, .addVi ⟨true, true, true, 2⟩ ⟨4, 4, 0xFFFD, false, false, 5, 0, false, 0⟩),
    -- cmp.lt.i32 p3, v1, v2; pand p4, p1, !p2
    (0x6000060081000148, 0, .cmp H0 ⟨3, 1, 2, 0, 0, false, false, false, false, 5, 2, false⟩),
    (0x6100080840000002, 0, .pand H0 ⟨4, 1, 2, false, false, 2⟩),
    -- scan.add.excl.i32 v5, v1.last
    (0x7400028000821140, 0, .scan H0 ⟨5, 0, 1, 0, 8, false, true, false, false, 5, 0, false⟩),
    -- mov.n32 v3, v16.bfly2 ?p22; cmp.gt.n32 p7, v16, v3
    (0x154B018008108180, 0, .movVr ⟨false, true, false, 22⟩ ⟨3, 0, 16, 1, 2, false, false, false, false, 6, 0, false⟩),
    (0x60000E0801800190, 0, .cmp H0 ⟨7, 16, 3, 0, 0, false, false, false, false, 6, 4, false⟩),
    -- mul.f32 v6, v5, 0.5; fma.f32 v8, v1, v2, v3
    (0x220003029F800242, 0, .mulVi H0 ⟨6, 5, 0x3F00, false, false, 9, 0, false, 2⟩),
    (0x4000040081018240, 0, .fma H0 ⟨8, 1, 2, 3, false, false, false, false, false, 9, 0, false, false⟩),
    -- cvt.i8.i32.sat v9, v5, 2; tag.chk.eq p2, v9, OPW
    (0x500004828A808004, 0, .cvt H0 ⟨9, 5, 1, 5, 2, false, false, 0, true⟩),
    (0x5400040486000000, 0, .tagChk H0 ⟨2, 9, 12, 0, 0, false, false, false, false, 0, 0, false⟩),
    -- kpop.i32 v6; kpop.keep.f32 v7, 2; kpop.depth v8; kclr
    (0x6A00030000000140, 0, .kpop H0 ⟨6, 0, 0, 0, 0, false, false, false, false, 5, 0, false⟩),
    (0x6A00038081000240, 0, .kpopKeep H0 ⟨7, 1, 2, 0, 0, false, false, false, false, 9, 0, false⟩),
    (0x6A00040100000180, 0, .kpopDepth H0 ⟨8, 2, 0, 0, 0, false, false, false, false, 6, 0, false⟩),
    (0x6B00000000000000, 0, .kclr H0 ⟨0, 0, 0, 0, 0, false, false, false, false, 0, 0, false⟩),
    -- mov.n32 v12, 0x2800_0000 ?p21; or.b32 v13, v13, 0x8000_0000 ?p28; xv p3, v12.last, v16
    (0x2B4A860014000182, 0, .movVi ⟨false, true, false, 21⟩ ⟨12, 0, 0x2800, false, false, 6, 0, false, 2⟩),
    (0x244E0686C0000002, 0, .orVi ⟨false, true, false, 28⟩ ⟨13, 13, 0x8000, false, false, 0, 0, false, 2⟩),
    (0x6800060806800000, 0, .xv H0 ⟨12, 16, 3, false, true, false, false⟩)] := by decide +kernel

/-- Words that the spec's worked examples give with the instruction that they stand for: R40, R160, R163, R255, R268, R277, R279, R286,
R289, R295, R342 to R350, R382. -/
theorem test_decode_group_examples : ReadsAs [
    -- add.i64 s5, s3, s4; movl s7, 0x0123_4567_89AB_CDEF
    (0xA0000A1880000007, 0, .addUr H0 ⟨5, 3, 4, 7⟩),
    (0xE1000E0000000001, 0xFF23456789ABCDEF, .movl H0 ⟨7, 0, 0, 1⟩ 0x23456789ABCDEF),
    -- cp.in.sp.team s4, s10; cpx.in.f32dx.sp.team s4, s10, 512, 112, 4, 3; mloop.dx4.dx2.za s0, s8, m3, 16, 4, 2
    (0xC00000214000000A, 0, .cp H0 ⟨0, 4, 10, 10⟩),
    (0xE400002140006C8A, 0xFF00000070000200, .cpx H0 ⟨0, 4, 10, 0x6C8A⟩ ⟨112, 512⟩),
    (0xE200004000000000, 0xFF000008C90B0010, .mloop H0 ⟨0, 8, 0, 0⟩ ⟨0, true, false, 3, 2, 4, 1, 3, 16⟩),
    -- sig.add.sp.team s10, s11; wait.ge.sp.team s10, s12
    (0x9200005160000003, 0, .sigAdd H0 ⟨0, 10, 11, 3⟩),
    (0x9300005180000005, 0, .waitGe H0 ⟨0, 10, 12, 5⟩),
    -- at.add.n32 v5, [s2 + v6], v7; atc.add.eq.dev.n64 s9, s13, [s2], s7, s8, s10, s11
    (0x900002840D0000C8, 0xFF00380000000000,
      .atM H0 ⟨5, 2, 6, true, 0, 0, false, false, false, false, 6, 2, 0⟩ ⟨0, false, 7, 0, false, false, false, false⟩),
    (0x910004840000810D, 0xFF0039051A580000,
      .atc H0 ⟨9, 2, 0, false, 0, 4, false, false, false, false, 8, 3, 1⟩ ⟨0, 0, 7, 8, 10, 13, 11, false⟩),
    -- fence.rel.dev
    (0x9400000000000014, 0, .fence H0 ⟨0, 0, 0, 20⟩),
    -- launch s4, s2, s8; ts.desc s4, s2, s8, s10; ts.back.alt s5, s2, s8; ts.exp.t s6, s2, s12; ts.root.sync s7, s2, s16
    (0xB400081100000000, 0, .launch H0 ⟨4, 2, 8, 0⟩),
    (0xD500081100000014, 0, .tsDesc H0 ⟨4, 2, 8, 20⟩),
    (0xD6000A1100000002, 0, .tsBack H0 ⟨5, 2, 8, 2⟩),
    (0xD7000C1180000002, 0, .tsExp H0 ⟨6, 2, 12, 2⟩),
    (0xD8000E1200000002, 0, .tsRoot H0 ⟨7, 2, 16, 2⟩),
    -- ts.anc s9, s2, s20, 128, 64
    (0xD900121280003FFE, 0, .tsAnc H0 ⟨9, 2, 20, 0x3FFE⟩),
    -- diag.st.sp s4, [s2 + 8], s6
    (0xDC0002040C01018D, 0, .diagSt H0 ⟨4, 2, 6, false, 1, 0, false, false, false, false, 12, 3, 1⟩),
    -- nop with RM (R106)
    (0xBB80000000000000, 0, .nop ⟨true, false, false, 0⟩ ⟨0, 0, 0, 0⟩)] := by decide +kernel

/-- A word that breaks a rule of R74 is refused by the number of the lowest item that holds; a reserved major is no instruction. -/
theorem test_decode_refuses :
    decodeWords 64 0x0000000000000000 0 = .instr (.reservedMajor 0) ∧
    -- a long form without the marker of its extension word
    decodeWords 64 0xE1000E0000000001 0x0123456789ABCDEF = .reject .extension ∧
    -- GP without GE
    decodeWords 64 0x0101018081105140 0 = .reject .reserved ∧
    -- a reserved swizzle kind
    decodeWords 64 0x0100018081505140 0 = .reject .value ∧
    -- a type code that mulhi refuses
    decodeWords 64 0x0400018081001240 0 = .reject .type ∧
    -- an odd register under a pair type
    decodeWords 64 0x01000180810001C0 0 = .reject .register := by decide +kernel

/-! ### Ill-formed terms -/

/-- Terms with the item of R74 under which they are refused. -/
abbrev Refuses (l : List (Instr × Nat)) : Prop := ∀ x ∈ l, x.1.illegalItem 64 = some x.2

/-- Common parts: a header without GE names no predicate; reserved codes of types, rounding, swizzles and scopes; registers of pairs. -/
theorem test_wf_common : Refuses [
    (.addVr ⟨false, false, true, 0⟩ ⟨3, 1, 2, 0, 0, false, false, false, false, 5, 0, false⟩, 3),
    (.addVr ⟨false, false, false, 1⟩ ⟨3, 1, 2, 0, 0, false, false, false, false, 5, 0, false⟩, 3),
    (.addVr H0 ⟨3, 1, 2, 0, 0, false, false, false, false, 5, 1, false⟩, 3),
    (.addVr H0 ⟨3, 1, 2, 0, 0, false, false, false, false, 9, 5, false⟩, 4),
    (.addVr H0 ⟨3, 1, 2, 0, 0, false, false, false, false, 13, 0, false⟩, 4),
    (.addVr H0 ⟨3, 1, 2, 0, 1, false, false, false, false, 5, 0, false⟩, 4),
    (.addVr H0 ⟨3, 1, 2, 1, 6, false, false, false, false, 5, 0, false⟩, 4),
    (.addVr H0 ⟨3, 1, 2, 5, 0, false, false, false, false, 5, 0, false⟩, 4),
    (.addVr H0 ⟨3, 1, 2, 0, 0, false, false, false, false, 0, 0, false⟩, 5),
    (.addVr H0 ⟨3, 2, 4, 0, 0, false, false, false, false, 7, 0, false⟩, 6),
    (.mulhi H0 ⟨3, 1, 2, 0, 0, false, false, false, false, 5, 0, true⟩, 3),
    (.exp2 H0 ⟨3, 0, 2, 0, 0, false, false, false, false, 9, 1, false⟩, 4)] := by decide +kernel

/-- VR with one source, VI, VS, V3 and the entries of their own. -/
theorem test_wf_lanes : Refuses [
    (.abs H0 ⟨3, 1, 2, 0, 0, false, false, false, false, 5, 0, false⟩, 3),
    (.abs H0 ⟨3, 0, 2, 0, 0, false, false, false, false, 6, 0, false⟩, 5),
    (.addVi H0 ⟨3, 1, 0, false, false, 5, 0, false, 3⟩, 4),
    (.addVi H0 ⟨3, 1, 0, false, false, 1, 0, false, 2⟩, 4),
    (.addVi H0 ⟨3, 1, 0, false, false, 9, 0, false, 0⟩, 4),
    (.addVs H0 ⟨3, 1, 0, 1, false, false, 5, 0, false⟩, 3),
    (.mad H0 ⟨4, 2, 6, 1, false, false, false, false, false, 8, 0, false, false⟩, 6),
    (.movVi H0 ⟨3, 1, 0, false, false, 5, 0, false, 0⟩, 3),
    (.movVs H0 ⟨3, 0, 1, 0, true, false, 5, 0, false⟩, 3),
    (.lea H0 ⟨4, 1, 2, 16, false, false, 5, 0, false⟩, 3),
    (.lea H0 ⟨3, 1, 2, 0, false, false, 5, 0, false⟩, 6),
    (.bfx H0 ⟨3, 1, 0x1000, false, false, 5, 0, false, 0⟩, 3),
    (.bfx H0 ⟨3, 1, 0x07DF, false, false, 5, 0, false, 0⟩, 4),
    (.tagSet H0 ⟨3, 1, 13, false, false, 0, 0, false, 0⟩, 4),
    (.tagSet H0 ⟨3, 2, 7, false, false, 0, 0, false, 0⟩, 6),
    (.tagChk H0 ⟨2, 9, 1, 0, 0, false, false, false, false, 0, 2, false⟩, 4),
    (.cmp H0 ⟨2, 9, 64, 0, 0, false, false, false, false, 5, 0, true⟩, 3),
    (.cmp H0 ⟨2, 9, 1, 0, 0, false, false, false, false, 5, 6, false⟩, 4),
    (.cmp H0 ⟨2, 9, 1, 0, 0, false, false, false, false, 1, 0, false⟩, 5),
    (.cvt H0 ⟨3, 1, 5, 9, 0, false, false, 0, true⟩, 3),
    (.cvt H0 ⟨3, 1, 5, 5, 0, false, false, 0, false⟩, 4),
    (.cvt H0 ⟨3, 1, 1, 5, 4, false, false, 0, false⟩, 3),
    (.cvt H0 ⟨3, 1, 0, 5, 0, false, false, 0, false⟩, 5),
    (.cvt H0 ⟨3, 1, 0, 5, 0, false, false, 1, true⟩, 5),
    (.rsub H0 ⟨3, 1, 0, false, false, 9, 0, false, 0⟩, 5),
    (.div H0 ⟨3, 1, 2, 0, 0, false, false, false, false, 10, 1, false⟩, 3),
    (.cvtTodx H0 ⟨3, 1, 0, 9, 0, false, false, 0, false⟩, 4),
    (.cvtTodx H0 ⟨3, 1, 5, 9, 0x10, false, false, 0, false⟩, 3),
    (.cvtFromdx H0 ⟨3, 1, 9, 0, 0x10, false, false, 0, false⟩, 4)] := by decide +kernel

/-- Predicates, stack entries, shuffles, scans and reads of special values. -/
theorem test_wf_more : Refuses [
    (.pnot H0 ⟨1, 2, 3, false, false, 0⟩, 3),
    (.pand H0 ⟨1, 2, 3, false, false, 4⟩, 3),
    (.vote H0 ⟨1, 2, 0, false, false, 3⟩, 4),
    (.kpush H0 ⟨1, 0, 2, 0, 0, false, false, false, false, 5, 0, false⟩, 3),
    (.kpop H0 ⟨1, 1, 0, 0, 0, false, false, false, false, 5, 0, false⟩, 4),
    (.kpopDepth H0 ⟨1, 2, 0, 0, 0, false, false, false, false, 5, 0, false⟩, 5),
    (.kclr H0 ⟨1, 0, 0, 0, 0, false, false, false, false, 0, 0, false⟩, 3),
    (.xv H0 ⟨12, 249, 3, false, false, false, false⟩, 6),
    (.scan H0 ⟨5, 0, 1, 0, 6, false, false, false, false, 5, 0, false⟩, 4),
    (.scan H0 ⟨5, 0, 1, 0, 3, false, false, false, false, 5, 0, false⟩, 4),
    (.scan H0 ⟨5, 0, 1, 0, 0, false, false, false, false, 12, 0, true⟩, 3),
    (.red H0 ⟨5, 0, 1, 0, 8, false, false, false, false, 5, 0, false⟩, 3),
    (.ballot H0 ⟨1, 2, 3, 0⟩, 3),
    (.movSv H0 ⟨1, 2, 0x41, false, false, 5⟩, 4),
    (.rds H0 ⟨1, true, 0x0D⟩, 4),
    (.rds H0 ⟨64, false, 0⟩, 6)] := by decide +kernel

/-- Accesses, copies, matrix commands, queues and control. -/
theorem test_wf_groups : Refuses [
    (.ld H0 ⟨4, 2, 6, false, 0, 0, false, false, false, false, 5, 2, 0⟩, 3),
    (.ld H0 ⟨4, 2, 0, false, 0, 6, false, false, false, false, 5, 2, 1⟩, 4),
    (.ld H0 ⟨4, 2, 0, false, 0, 0, false, false, false, false, 9, 0, 0⟩, 4),
    (.ld H0 ⟨3, 2, 0, false, 0, 0, false, false, false, false, 8, 3, 0⟩, 6),
    (.ld H0 ⟨6, 2, 0, false, 0, 0, false, false, false, false, 5, 4, 0⟩, 6),
    (.ldb H0 ⟨4, 63, 0, false, 0, 0, false, false, false, false, 5, 2, 0⟩, 6),
    (.ldu H0 ⟨64, 2, 0, false, 0, 0, false, false, false, false, 5, 2, 0⟩, 3),
    (.ldu H0 ⟨4, 2, 0, true, 0, 0, false, false, false, false, 5, 2, 0⟩, 4),
    (.pf H0 ⟨1, 2, 0, false, 0, 0, false, false, false, false, 0, 2, 0⟩, 3),
    (.ldS H0 ⟨4, 2, 0, false, 0, 3, false, false, false, false, 5, 2, 1⟩, 4),
    (.atM H0 ⟨5, 2, 6, true, 0, 0, false, false, false, false, 6, 2, 0⟩ ⟨0, false, 7, 1, false, false, false, false⟩, 3),
    (.atM H0 ⟨5, 2, 6, true, 0, 0, false, false, false, false, 6, 2, 0⟩ ⟨9, false, 7, 0, false, false, false, false⟩, 4),
    (.atc H0 ⟨9, 2, 0, false, 0, 3, false, false, false, false, 8, 3, 1⟩ ⟨0, 0, 7, 8, 10, 13, 11, false⟩, 4),
    (.atc H0 ⟨9, 2, 0, false, 0, 4, false, false, false, false, 8, 3, 0⟩ ⟨0, 0, 7, 8, 10, 13, 11, false⟩, 3),
    (.diagSt H0 ⟨4, 2, 6, false, 1, 0, false, false, false, false, 8, 3, 1⟩, 5),
    (.sigAdd H0 ⟨0, 10, 11, 7⟩, 4), (.fence H0 ⟨0, 0, 0, 24⟩, 4), (.xfence H0 ⟨0, 0, 0, 9⟩, 4),
    (.addUr H0 ⟨5, 3, 4, 9⟩, 5), (.remUr H0 ⟨5, 3, 4, 0x17⟩, 3), (.cmpUr H0 ⟨5, 3, 4, 0x10C⟩, 4), (.addUi H0 ⟨1, 2, 0, 3⟩, 4),
    (.movUi H0 ⟨1, 2, 0, 0⟩, 3),
    (.cp H0 ⟨0, 62, 10, 10⟩, 6), (.cp H0 ⟨0, 4, 10, 6⟩, 4), (.cpx H0 ⟨0, 4, 10, 0x6C8A⟩ ⟨112, 500⟩, 4),
    (.mloop H0 ⟨0, 8, 0, 0⟩ ⟨0, true, false, 3, 2, 9, 1, 3, 16⟩, 4), (.mloop H0 ⟨0, 8, 0, 0⟩ ⟨1, true, false, 3, 2, 4, 1, 3, 16⟩, 3),
    (.mloopSp H0 ⟨0, 58, 0, 0⟩ ⟨0, true, false, 3, 2, 4, 1, 3, 16⟩, 6), (.mst H0 ⟨0, 8, 0, 0x30⟩, 4),
    (.qPush H0 ⟨1, 2, 57, 0⟩, 6), (.launch H0 ⟨4, 2, 8, 1⟩, 3), (.syscall H0 ⟨1, 63, 2, 0⟩, 6), (.nop H0 ⟨1, 0, 0, 0⟩, 3),
    (.ifC H0 ⟨0, 0, false, false, false, 0⟩, 4), (.endifC H0 ⟨1, 0, false, false, false, 0⟩, 3),
    (.ifC ⟨false, true, false, 0⟩ ⟨0, 0, false, true, false, 0⟩, 3)] := by decide +kernel

/-! ### Small states -/

/-- An instruction's group under the launch that places it. -/
def grp : Group := newGroup 2 1 (loaderLaunch 0) 0 0 0 0 0

/-- The machine in which only the given group runs, and it is the group that issues. -/
def at_ (g : Group) : State := { State.reset.withFetchWord 64 0 with cur := some 2, agenda := [], groups := [g] }

/-- A full vector register that holds one value in every lane. -/
def reg (id : Nat) (v : Lane) (tag : BitVec 4) : PReg := ⟨id, List.replicate 64 v, tag, some 0, 0, 0, none, false⟩

/-- The group with vector registers V1, V2, … of the given values and one tag. -/
def grpV (vs : List Lane) (tag : BitVec 4) : Group :=
  { grp with
    pregs := vs.zipIdx.map fun v => reg v.2 v.1 tag
    cur := vs.zipIdx.map fun v => (v.2 + 1, v.2)
    nextPid := vs.length }

/-- The group with uniform registers S1, S2, … of the given values. -/
def grpS (g : Group) (vs : List Word) : Group :=
  { g with sregs := ⟨0, some 0, false⟩ :: (List.range 63).map fun k => ⟨vs.getD k 0, some 0, false⟩ }

/-- A page of 64 KiB that maps virtual address 0x100000 to the first bytes of slice SRAM, cached on core 0. -/
def page : TlbEntry := ⟨0, some 0, 0, 0x100000, 0x10000, sramBase, true, true, false, 0, []⟩

/-- The machine of one group with that page in its core's cache. -/
def atPage (g : Group) : State := { at_ g with tlb := [page] }

/-- All of `Issues` as a computation. -/
def issuesB (s : State) (g : Group) (i : Instr) (h : Hdr) (p : Plan) : Bool :=
  decide (s.issuing = some g) && decide (g.live ≠ 0) && ready s g h p && decide (causeAt i s g h p = none) && awakeWords s (p.touches s g (effLanes g h)) &&
    !(p.wt s g (effLanes g h) && decide (64 ≤ waitTable s g.core))

theorem issues_of {s : State} {g : Group} {i : Instr} {h : Hdr} {p : Plan} (b : issuesB s g i h p = true) : Issues s g i h p := by
  simp only [issuesB, Bool.and_eq_true, decide_eq_true_eq, Bool.not_eq_true'] at b
  exact ⟨b.1.1.1.1.1, b.1.1.1.1.2, b.1.1.1.2, b.1.1.2, b.1.2, b.2⟩

/-- All of `CtlIssues` as a computation. -/
def ctlB (s : State) (g : Group) (i : Instr) (f : CF) (c : Ctl) : Bool :=
  decide (s.issuing = some g) && decide (g.live ≠ 0) && decide (g.hold = .none) && decide (g.retryAt ≤ s.now) &&
    (!f.ce || g.pFull s.now f.cp.toNat) && decide (c.check g = none) && (g.taken || g.poFirst || decide (ctlSig g i c = f.sig))

theorem ctl_of {s : State} {g : Group} {i : Instr} {f : CF} {c : Ctl} (b : ctlB s g i f c = true) : CtlIssues s g i f c := by
  simp only [ctlB, Bool.and_eq_true, Bool.or_eq_true, decide_eq_true_eq, Bool.not_eq_true'] at b
  obtain ⟨⟨⟨⟨⟨⟨h1, h2⟩, h3⟩, h4⟩, h5⟩, h6⟩, h7⟩ := b
  refine ⟨h1, h2, ⟨h3, h4⟩, fun h => ?_, h6, ?_⟩
  · rcases h5 with h5 | h5
    · rw [h5] at h; cases h
    · exact h5
  · exact or_assoc.mp h7

/-- The outcome is a next state with a property. -/
def leads (o : Host.Outcome State Fault Refusal) (P : State → Bool) : Bool :=
  match o with
  | .next t => P t
  | _ => false

theorem next_of {o : Host.Outcome State Fault Refusal} {P : State → Bool} (h : leads o P = true) : ∃ t, o = .next t ∧ P t = true := by
  cases o with
  | next t => exact ⟨t, rfl, h⟩
  | fault => cases h
  | refused => cases h

/-- The answer is there and has a property. -/
theorem some_of {α : Type} {o : Option α} {P : α → Bool} (h : o.any P = true) : ∃ a, o = some a ∧ P a = true := by
  cases o with
  | none => cases h
  | some a => exact ⟨a, rfl, h⟩

/-! ### Every statement's hypotheses are met: instructions -/

/-- add.i32 v3, v1, v2. -/
theorem witness_IntegerLanes : ∃ o x p, let i := Instr.addVr H0 ⟨3, 1, 2, 0, 0, false, false, false, false, 5, 0, false⟩
    let g := grpV [5, 7] 5
    intLaneOp i = some (o, x) ∧ typeIn o.type [0, 1, 2, 3, 4, 5, 6, 7, 8, 12] ∧ planOf i (at_ g) = some (o.h, p) ∧
      Issues (at_ g) g i o.h p ∧ dying (at_ g) g o.h p = 0 :=
  ⟨_, _, _, rfl, by decide +kernel, rfl, issues_of (by decide +kernel), by decide +kernel⟩

/-- and.b32 v3, v1, v2. -/
theorem witness_BitLanes : ∃ o x p, let i := Instr.andVr H0 ⟨3, 1, 2, 0, 0, false, false, false, false, 0, 0, false⟩
    let g := grpV [5, 7] 5
    bitLaneOp i = some (o, x) ∧ i.WellFormed 64 ∧ planOf i (at_ g) = some (o.h, p) ∧ Issues (at_ g) g i o.h p ∧
      dying (at_ g) g o.h p = 0 :=
  ⟨_, _, _, rfl, by decide +kernel, rfl, issues_of (by decide +kernel), by decide +kernel⟩

/-- mul.f32 v3, v1, v2 over 0.1 and 3. -/
theorem witness_FloatLanes : ∃ o rnd p, let i := Instr.mulVr H0 ⟨3, 1, 2, 0, 0, false, false, false, false, 9, 0, false⟩
    let g := grpV [0x3DCCCCCD, 0x40400000] 9
    floatLaneOp i = some (o, rnd) ∧ isFloatType o.type ∧ planOf i (at_ g) = some (o.h, p) ∧ Issues (at_ g) g i o.h p ∧
      dying (at_ g) g o.h p = 0 :=
  ⟨_, _, _, rfl, by decide +kernel, rfl, issues_of (by decide +kernel), by decide +kernel⟩

/-- mov.n32 v3, v1. -/
theorem witness_MoveLanes : ∃ o v p, let i := Instr.movVr H0 ⟨3, 0, 1, 0, 0, false, false, false, false, 6, 0, false⟩
    let g := grpV [5] 6
    moveLaneOp i = some (o, v) ∧ planOf i (at_ g) = some (o.h, p) ∧ Issues (at_ g) g i o.h p ∧ dying (at_ g) g o.h p = 0 :=
  ⟨_, _, _, rfl, rfl, issues_of (by decide +kernel), by decide +kernel⟩

/-- cvt.i8.i32.sat v2, v1, 2. -/
theorem witness_CvtResults : let f : CV := ⟨2, 1, 1, 5, 2, false, false, 0, true⟩
    let g := grpV [300] 5
    Issues (at_ g) g (.cvt H0 f) H0 (planCvt H0 f) ∧ dying (at_ g) g H0 (planCvt H0 f) = 0 :=
  ⟨issues_of (by decide +kernel), by decide +kernel⟩

/-- cvt.todx of F32 into four planes, and cvt.fromdx of a block of zeros back to F32. -/
theorem witness_DxResults :
    (let f : CV := ⟨2, 1, 0, 9, 0x33, false, false, 0, false⟩
     let g := grpV [0x3F800000] 9
     ∃ p, planOf (.cvtTodx H0 f) (at_ g) = some (H0, p) ∧ Issues (at_ g) g (.cvtTodx H0 f) H0 p ∧ dying (at_ g) g H0 p = 0) ∧
    (let f : CV := ⟨2, 1, 9, 0, 0x33, false, false, 0, false⟩
     let g := grpV [0] 0
     ∃ p, planOf (.cvtFromdx H0 f) (at_ g) = some (H0, p) ∧ Issues (at_ g) g (.cvtFromdx H0 f) H0 p ∧ dying (at_ g) g H0 p = 0 ∧
       g.width ∈ [16, 32, 64] ∧ (f.dtype = 9 ∨ f.dtype = 10 ∨ f.dtype = 11)) :=
  ⟨⟨_, rfl, issues_of (by decide +kernel), by decide +kernel⟩,
    ⟨_, rfl, issues_of (by decide +kernel), by decide +kernel, by decide +kernel, by decide +kernel⟩⟩

/-- scan.add.i32 and red.add.i32, red.add.f32, scan.add.f32. -/
theorem witness_ScanRed :
    (let f : VR := ⟨2, 0, 1, 0, 0, false, false, false, false, 5, 0, false⟩
     let g := grpV [3] 5
     ∃ p q, planOf (.scan H0 f) (at_ g) = some (H0, p) ∧ planOf (.red H0 f) (at_ g) = some (H0, q) ∧
       (Instr.scan H0 f).WellFormed 64 ∧ (Instr.red H0 f).WellFormed 64 ∧ f.type ≠ 9 ∧ g.width ≤ 64 ∧
       Issues (at_ g) g (.scan H0 f) H0 p ∧ dying (at_ g) g H0 p = 0 ∧ Issues (at_ g) g (.red H0 f) H0 q ∧ dying (at_ g) g H0 q = 0) ∧
    (let f : VR := ⟨2, 0, 1, 0, 0, false, false, false, false, 9, 0, false⟩
     let g := grpV [0x3DCCCCCD] 9
     ∃ p q, f.type = 9 ∧ planOf (.red H0 f) (at_ g) = some (H0, p) ∧ planOf (.scan H0 f) (at_ g) = some (H0, q) ∧
       g.width ∈ [16, 32, 64] ∧ Issues (at_ g) g (.red H0 f) H0 p ∧ dying (at_ g) g H0 p = 0 ∧
       Issues (at_ g) g (.scan H0 f) H0 q ∧ dying (at_ g) g H0 q = 0) :=
  ⟨⟨_, _, rfl, rfl, by decide +kernel, by decide +kernel, by decide +kernel, by decide +kernel, issues_of (by decide +kernel),
      by decide +kernel, issues_of (by decide +kernel), by decide +kernel⟩,
    ⟨_, _, rfl, rfl, rfl, by decide +kernel, issues_of (by decide +kernel), by decide +kernel, issues_of (by decide +kernel),
      by decide +kernel⟩⟩

/-- rds v1, laneid; rds s1, cycles. -/
theorem witness_ReadSpecial :
    (∃ l tm, (at_ grp).launch? grp.launch = some l ∧ (at_ grp).team? grp.team = some tm ∧
      (∀ lane, (specials (at_ grp) grp l tm lane).lookup 0 = some (BitVec.ofNat 64 lane)) ∧
      ∀ lane, (specials (at_ grp) grp l tm lane).lookup 0x11 = some 0) ∧
    (∃ p, planOf (.rds H0 ⟨1, true, 0⟩) (at_ grp) = some (H0, p) ∧ Issues (at_ grp) grp (.rds H0 ⟨1, true, 0⟩) H0 p) ∧
    ∃ p, planOf (.rds H0 ⟨1, false, 0x11⟩) (at_ grp) = some (H0, p) ∧ Issues (at_ grp) grp (.rds H0 ⟨1, false, 0x11⟩) H0 p ∧
      effLanes grp H0 ≠ 0 :=
  ⟨⟨_, _, rfl, rfl, fun _ => rfl, fun _ => rfl⟩, ⟨_, rfl, issues_of (by decide +kernel)⟩, ⟨_, rfl, issues_of (by decide +kernel), by decide +kernel⟩⟩

/-- add.i64 s5, s3, s4. -/
theorem witness_UniformResults : ∃ h sd lat v p, let i := Instr.addUr H0 ⟨5, 3, 4, 7⟩
    uniformOp i = some (h, sd, lat, v) ∧ i.WellFormed 64 ∧ planOf i (at_ grp) = some (h, p) ∧ Issues (at_ grp) grp i h p ∧
      effLanes grp h ≠ 0 :=
  ⟨_, _, _, _, _, rfl, by decide +kernel, rfl, issues_of (by decide +kernel), by decide +kernel⟩

/-- pand p4, p1, !p2; cmp.eq.n32 p1, s3, s4. -/
theorem witness_PredicateResults :
    (∃ h pd lat lanes bit p, let i := Instr.pand H0 ⟨4, 1, 2, false, false, 2⟩
     predicateOp i = some (h, pd, lat, lanes, bit) ∧ i.WellFormed 64 ∧ planOf i (at_ grp) = some (h, p) ∧ Issues (at_ grp) grp i h p ∧
       dying (at_ grp) grp h p = 0) ∧
    ∃ h pd lat lanes bit p, let i := Instr.cmpUr H0 ⟨1, 3, 4, 6⟩
    predicateOp i = some (h, pd, lat, lanes, bit) ∧ i.WellFormed 64 ∧ planOf i (at_ grp) = some (h, p) ∧ Issues (at_ grp) grp i h p ∧
      dying (at_ grp) grp h p = 0 ∧ effLanes grp h ≠ 0 :=
  ⟨⟨_, _, _, _, _, _, rfl, by decide +kernel, rfl, issues_of (by decide +kernel), by decide +kernel⟩,
    ⟨_, _, _, _, _, _, rfl, by decide +kernel, rfl, issues_of (by decide +kernel), by decide +kernel, by decide +kernel⟩⟩

/-- The group whose lanes hold one entry, 9, on their stacks. -/
def grpK : Group :=
  { grp with pregs := [reg 0 9 5], cur := [(k0, 0)], nextPid := 1, depths := List.replicate 64 1 }

/-- The group with the lane word 0x08000000 (add) in V1 and the stacks 3, 4. -/
def grpXv : Group :=
  { grp with
    pregs := [reg 0 0x08000000 12, reg 1 3 5, reg 2 4 5]
    cur := [(1, 0), (k0, 1), (k0 + 1, 2)]
    nextPid := 3
    depths := List.replicate 64 2 }

/-- xv p3, v1, v16, and one step of a lane. -/
theorem witness_XvSteps :
    (let f : XF := ⟨1, 16, 3, false, false, false, false⟩
     ∃ p, planOf (.xv H0 f) (at_ grpXv) = some (H0, p) ∧ Issues (at_ grpXv) grpXv (.xv H0 f) H0 p ∧ dying (at_ grpXv) grpXv H0 p = 0) ∧
    lopKind ((0x08000000 : Lane).toNat / 2 ^ 24) = some .b ∧ ∃ x, laneStep 0x08000000 [3, 4] 0 = .ok x ∧ x.stack = [7] :=
  ⟨⟨_, rfl, issues_of (by decide +kernel), by decide +kernel⟩, by decide +kernel, _, rfl, by decide +kernel⟩

/-- xv.t p3, v1, v16 with op words of no lane opcode, and with another tag than OPW. -/
theorem witness_XvSteps_causes :
    let f : XF := ⟨1, 16, 3, true, false, false, false⟩
    ∀ w ∈ [reg 0 0x80000000 12, reg 0 0x08000000 5],
      let g := { grpXv with pregs := w :: grpXv.pregs.drop 1 }
      ∃ p, planOf (.xv H0 f) (at_ g) = some (H0, p) ∧ (∀ x ∈ p.srcs, x.empty g (at_ g).now = false) ∧
        peakCause (.xv H0 f) (at_ g) g H0 p = none ∧ (g.vTag 1 = 12 → lanesOf (effLanes g H0) = [] ++ 0 :: (lanesOf (effLanes g H0)).drop 1 ∧
          xvRef f g 0 = .error 1) := by
  intro f w h
  simp only [List.mem_cons, List.not_mem_nil, or_false] at h
  rcases h with rfl | rfl <;> exact ⟨_, rfl, by decide +kernel, by decide +kernel, by decide +kernel⟩

/-- kpush.i32 v1; kpop.i32 v2; kclr. -/
theorem witness_StackResults :
    (let i := Instr.kpush H0 ⟨0, 0, 1, 0, 0, false, false, false, false, 5, 0, false⟩
     let g := grpV [3] 5
     ∃ p, planOf i (at_ g) = some (H0, p) ∧ Issues (at_ g) g i H0 p ∧ dying (at_ g) g H0 p = 0) ∧
    (let i := Instr.kpop H0 ⟨2, 0, 0, 0, 0, false, false, false, false, 5, 0, false⟩
     ∃ p, planOf i (at_ grpK) = some (H0, p) ∧ Issues (at_ grpK) grpK i H0 p ∧ dying (at_ grpK) grpK H0 p = 0) ∧
    let i := Instr.kclr H0 ⟨0, 0, 0, 0, 0, false, false, false, false, 0, 0, false⟩
    ∃ p, planOf i (at_ grpK) = some (H0, p) ∧ Issues (at_ grpK) grpK i H0 p ∧ dying (at_ grpK) grpK H0 p = 0 :=
  ⟨⟨_, rfl, issues_of (by decide +kernel), by decide +kernel⟩, ⟨_, rfl, issues_of (by decide +kernel), by decide +kernel⟩,
    ⟨_, rfl, issues_of (by decide +kernel), by decide +kernel⟩⟩

/-- ld.n32 v4, [s1] from the mapped page; ld.s.n32 v4, [s0]; st.n32 v1, [s1]. -/
theorem witness_LaneAccessesLeave :
    (let f : MF := ⟨4, 1, 0, false, 0, 0, false, false, false, false, 6, 2, 0⟩
     let g := grpS grp [0x100000]
     ∃ x p, laneAccess (.ld H0 f) = some x ∧ x.loads = true ∧ planOf (.ld H0 f) (atPage g) = some (x.h, p) ∧
       Issues (atPage g) g (.ld H0 f) x.h p ∧ dying (atPage g) g x.h p = 0 ∧ effLanes g x.h ≠ 0) ∧
    (let f : MF := ⟨4, 0, 0, false, 0, 0, false, false, false, false, 6, 2, 0⟩
     ∃ x p, laneAccess (.ldS H0 f) = some x ∧ x.sp = true ∧ planOf (.ldS H0 f) (at_ grp) = some (x.h, p) ∧
       Issues (at_ grp) grp (.ldS H0 f) x.h p ∧ dying (at_ grp) grp x.h p = 0) ∧
    let f : MF := ⟨1, 1, 0, false, 0, 0, false, false, false, false, 6, 2, 0⟩
    let g := grpS (grpV [3] 6) [0x100000]
    ∃ x p, laneAccess (.st H0 f) = some x ∧ x.counts = true ∧ planOf (.st H0 f) (atPage g) = some (x.h, p) ∧
      Issues (atPage g) g (.st H0 f) x.h p ∧ dying (atPage g) g x.h p = 0 :=
  ⟨⟨_, _, rfl, rfl, rfl, issues_of (by decide +kernel), by decide +kernel, by decide +kernel⟩,
    ⟨_, _, rfl, rfl, rfl, issues_of (by decide +kernel), by decide +kernel⟩,
    ⟨_, _, rfl, rfl, rfl, issues_of (by decide +kernel), by decide +kernel⟩⟩

/-- ldu.n64 s5, [s1]; sig.add.dev s1, s2; wait.ge.dev s1, s2; bin.put, q.pop and fb.red over a record in the mapped page; syscall. -/
theorem witness_GroupRequestsLeave :
    let g := grpS grp [0x100000, 8]
    ∀ i ∈ [Instr.ldu H0 ⟨5, 1, 0, false, 0, 0, false, false, false, false, 8, 3, 0⟩, .sigAdd H0 ⟨0, 1, 2, 8⟩, .waitGe H0 ⟨0, 1, 2, 16⟩,
        .qPop H0 ⟨5, 1, 10, 0⟩, .binPut H0 ⟨5, 1, 10, 0⟩, .syscall H0 ⟨5, 1, 10, 0⟩],
      ∃ x p, groupSend i = some x ∧ planOf i (atPage g) = some (x.h, p) ∧ Issues (atPage g) g i x.h p ∧ effLanes g x.h ≠ 0 := by
  intro g i hi
  simp only [List.mem_cons, List.not_mem_nil, or_false] at hi
  rcases hi with rfl | rfl | rfl | rfl | rfl | rfl <;>
    exact ⟨_, _, rfl, rfl, issues_of (by decide +kernel), by decide +kernel⟩

/-- pf [s1]. -/
theorem witness_PrefetchAsks :
    let f : MF := ⟨0, 1, 0, false, 0, 0, false, false, false, false, 0, 2, 0⟩
    Issues (at_ grp) grp (.pf H0 f) H0 (planPf f) ∧ dying (at_ grp) grp H0 (planPf f) = 0 :=
  ⟨issues_of (by decide +kernel), by decide +kernel⟩

/-- cp.in s1 of 256 bytes without a counter and with a device counter, and cpx.in of two rows. -/
theorem witness_CopiesAccepted :
    (let f : UR := ⟨0, 1, 0, 0⟩
     let g := grpS grp [0x100000, 0, 256]
     ∃ p, planOf (.cp H0 f) (atPage g) = some (H0, p) ∧ Issues (atPage g) g (.cp H0 f) H0 p ∧ effLanes g H0 ≠ 0 ∧
       (Instr.cp H0 f).WellFormed 64) ∧
    (let f : UR := ⟨0, 1, 4, 4⟩
     let g := grpS grp [0x100000, 0, 256, 0x100800]
     ∃ p e, planOf (.cp H0 f) (atPage g) = some (H0, p) ∧ Issues (atPage g) g (.cp H0 f) H0 p ∧
       translate (atPage g) (dieOfCore g.core) (some g.core) g.part (g.s 4) needW = .ok (sramBase + 0x800) e ∧
       (Instr.cp H0 f).WellFormed 64) ∧
    let f : UR := ⟨0, 1, 0, 0⟩
    let g := grpS grp [0x100000, 0, 2, 512]
    ∃ p, planOf (.cpx H0 f ⟨128, 128⟩) (atPage g) = some (H0, p) ∧ Issues (atPage g) g (.cpx H0 f ⟨128, 128⟩) H0 p ∧ effLanes g H0 ≠ 0 ∧
      (Instr.cpx H0 f ⟨128, 128⟩).WellFormed 64 :=
  ⟨⟨_, rfl, issues_of (by decide +kernel), by decide +kernel, by decide +kernel⟩,
    ⟨_, _, rfl, issues_of (by decide +kernel), rfl, by decide +kernel⟩,
    ⟨_, rfl, issues_of (by decide +kernel), by decide +kernel, by decide +kernel⟩⟩

/-- The machine of one group whose team holds a share of its pair's matrix engine. -/
def atShare (g : Group) : State :=
  { at_ g with
    teams := [{ newTeam 1 (loaderLaunch 0) [0] with shares := 1 }]
    engines := [{ pair := 0, wheel := [some 1, none, none, none], pos := 0, rot := [], old := [] }] }

/-- mzero s5, m0. -/
theorem witness_MatrixCommandsAccepted : ∃ h f op p tm, let i := Instr.mzero H0 ⟨5, 0, 0, 0⟩
    matrixOp i = some (h, f, op) ∧ planOf i (atShare grp) = some (h, p) ∧ Issues (atShare grp) grp i h p ∧ effLanes grp h ≠ 0 ∧
      (atShare grp).team? grp.team = some tm ∧ tm.shares ≠ 0 :=
  ⟨_, _, _, _, _, rfl, rfl, issues_of (by decide +kernel), by decide +kernel, rfl, by decide +kernel⟩

/-- mres p1, s1 and mrel s5. -/
theorem witness_Reservations :
    let g := grpS grp [1]
    (∃ tm, (at_ g).team? g.team = some tm) ∧ effLanes g H0 ≠ 0 ∧ Issues (at_ g) g (.mres H0 ⟨1, 1, 0, 0⟩) H0 (planMres H0 ⟨1, 1, 0, 0⟩) ∧
      Issues (at_ g) g (.mrel H0 ⟨5, 0, 0, 0⟩) H0 (planMrel ⟨5, 0, 0, 0⟩) :=
  ⟨⟨_, rfl⟩, by decide +kernel, issues_of (by decide +kernel), issues_of (by decide +kernel)⟩

/-- ts.desc s4, s1, s8, s10. -/
theorem witness_FordInstructionsLeave : ∃ h f dsts kind p, let i := Instr.tsDesc H0 ⟨4, 1, 8, 20⟩
    let g := grpS grp [0x100000]
    fordInstr i = some (h, f, dsts, kind) ∧ planOf i (atPage g) = some (h, p) ∧ Issues (atPage g) g i h p ∧ effLanes g h ≠ 0 :=
  ⟨_, _, _, _, _, rfl, rfl, issues_of (by decide +kernel), by decide +kernel⟩

/-- An entry at die 0's port. -/
def portEntry : PortEntry where
  id := 5
  die := 0
  part := 0
  gid := 2
  launch := 0
  team := 1
  seq := 0
  task := 0
  teams := 0
  clsSel := 0
  cls := 0
  sa := 0
  window := []
  sd := 4
  pc := 0
  drop := false
  held := none

/-- launch s4, s2, s8 where the port has an entry, and where its 64 are taken. -/
theorem witness_LaunchTakesEntry :
    ∀ n ∈ [0, 64], let s := { at_ grp with ports := List.replicate n portEntry }
      Issues s grp (.launch H0 ⟨4, 2, 8, 0⟩) H0 (planLaunch H0 ⟨4, 2, 8, 0⟩) ∧ effLanes grp H0 ≠ 0 ∧
        mayClaim s 64 grp.part (portUsed s (dieOfCore grp.core)) = decide (n = 0) := by
  intro n h
  simp only [List.mem_cons, List.not_mem_nil, or_false] at h
  rcases h with rfl | rfl <;> exact ⟨issues_of (by decide +kernel), by decide +kernel, by decide +kernel⟩

/-- fence.rel.dev, xfence and nop. -/
theorem witness_FencesAndNop :
    ∀ i ∈ [Instr.fence H0 ⟨0, 0, 0, 20⟩, .xfence H0 ⟨0, 0, 0, 8⟩, .nop H0 ⟨0, 0, 0, 0⟩],
      ∃ p, planOf i (at_ grp) = some (H0, p) ∧ Issues (at_ grp) grp i H0 p ∧ effLanes grp H0 ≠ 0 := by
  intro i hi
  simp only [List.mem_cons, List.not_mem_nil, or_false] at hi
  rcases hi with rfl | rfl | rfl <;> exact ⟨_, rfl, issues_of (by decide +kernel), by decide +kernel⟩

/-- bar 3. -/
theorem witness_BarrierArrives :
    Issues (at_ grp) grp (.bar H0 ⟨0, 0, 0, 3⟩) H0 (planBar ⟨0, 0, 0, 3⟩) ∧ effLanes grp H0 ≠ 0 ∧ ∃ tm, (at_ grp).team? grp.team = some tm :=
  ⟨issues_of (by decide +kernel), by decide +kernel, _, rfl⟩

/-- trap 5, s1. -/
theorem witness_TrapEnds :
    Issues (at_ grp) grp (.trap H0 ⟨0, 1, 0, 5⟩) H0 (planTrap ⟨0, 1, 0, 5⟩) ∧ effLanes grp H0 ≠ 0 ∧ (at_ grp).syn = [] :=
  ⟨issues_of (by decide +kernel), by decide +kernel, rfl⟩

/-- The group inside an `if` whose condition P1 holds in the lower half of the lanes. -/
def grpIf : Group :=
  { grp with
    active := 0xFFFFFFFF
    preds := grp.preds.set 1 ⟨0xFFFFFFFF, some 0⟩
    stack := [⟨.ifk, laneMask 64, 0xFFFFFFFF00000000, false, 0, fold16 (laneMask 64)⟩] }

/-- The group inside a loop, under a second entry of an `if`. -/
def grpLoop : Group :=
  { grp with stack := [⟨.ifk, laneMask 64, 0, false, 0, fold16 (laneMask 64)⟩, ⟨.loop, laneMask 64, 0, false, 8, fold16 (laneMask 64)⟩] }

/-- The group inside a call. -/
def grpCall : Group := { grp with stack := [⟨.call, laneMask 64, 0, false, 0x40, fold16 (laneMask 64)⟩] }

/-- A control body under P1 with the signature that the control word expects. -/
def ctlBody (i : CF → Instr) (c : CF → Ctl) (g : Group) (f : CF) : CF := { f with sig := ctlSig g (i f) (c f) }

/-- if ?p1; else and endif of its entry. -/
theorem witness_IfElseEndif :
    (let g := { grpIf with stack := [], active := laneMask 64 }
     let f := ctlBody (.ifC H0) ctlIf g ⟨2, 1, false, true, false, 0⟩
     CtlIssues (at_ g) g (.ifC H0 f) f (ctlIf f)) ∧
    (∃ e st, grpIf.stack = e :: st ∧
      let f := ctlBody (.elseC H0) ctlElse grpIf ⟨2, 0, false, false, false, 0⟩
      CtlIssues (at_ grpIf) grpIf (.elseC H0 f) f (ctlElse f)) ∧
    ∃ e st, grpIf.stack = e :: st ∧
      let f := ctlBody (.endifC H0) (fun _ => ctlEndif) grpIf ⟨0, 0, false, false, false, 0⟩
      CtlIssues (at_ grpIf) grpIf (.endifC H0 f) f ctlEndif :=
  ⟨ctl_of (by decide +kernel), ⟨_, _, rfl, ctl_of (by decide +kernel)⟩, ⟨_, _, rfl, ctl_of (by decide +kernel)⟩⟩

/-- loop; endloop of its entry; brk and cont from inside an `if` in the loop. -/
theorem witness_LoopsGoRound :
    (let f := ctlBody (.loopC H0) (fun _ => ctlLoop) grp ⟨0, 0, false, false, false, 0⟩
     CtlIssues (at_ grp) grp (.loopC H0 f) f ctlLoop) ∧
    (let g := { grpLoop with stack := grpLoop.stack.drop 1 }
     ∃ e st, g.stack = e :: st ∧
      let f := ctlBody (.endloopC H0) ctlEndloop g ⟨0, 1, true, true, false, 0⟩
      CtlIssues (at_ g) g (.endloopC H0 f) f (ctlEndloop f)) ∧
    ∃ k, findEntry .loop (some .call) grpLoop.stack = some k ∧
      (let f := ctlBody (.brkC H0) (fun f => ctlLeave f false) grpLoop ⟨2, 0, false, false, false, 0⟩
       CtlIssues (at_ grpLoop) grpLoop (.brkC H0 f) f (ctlLeave f false)) ∧
      let f := ctlBody (.contC H0) (fun f => ctlLeave f true) grpLoop ⟨2, 0, false, false, false, 0⟩
      CtlIssues (at_ grpLoop) grpLoop (.contC H0 f) f (ctlLeave f true) :=
  ⟨ctl_of (by decide +kernel), ⟨_, _, rfl, ctl_of (by decide +kernel)⟩,
    ⟨1, rfl, ctl_of (by decide +kernel), ctl_of (by decide +kernel)⟩⟩

/-- call; ret; exit of all lanes, and of the lanes of P1 alone. -/
theorem witness_CallsAndExits :
    (let f := ctlBody (fun f => .callC H0 f 16) (fun _ => ctlCall 16) grp ⟨0, 0, false, false, false, 0⟩
     CtlIssues (at_ grp) grp (.callC H0 f 16) f (ctlCall 16)) ∧
    (∃ k e, findEntry .call none grpCall.stack = some k ∧ grpCall.stack[k]? = some e ∧
      let f := ctlBody (.retC H0) ctlRet grpCall ⟨2, 0, false, false, false, 0⟩
      CtlIssues (at_ grpCall) grpCall (.retC H0 f) f (ctlRet f)) ∧
    (let f := ctlBody (.exitC H0) ctlExit grp ⟨2, 0, false, false, false, 0⟩
     CtlIssues (at_ grp) grp (.exitC H0 f) f (ctlExit f) ∧ grp.live &&& ~~~(grp.active &&& condMask f grp) = 0 ∧
       launchCtr (at_ grp) grp.core grp.launch < 1048575 ∧ launchCtr (at_ grp) grp.core grp.launch + grp.outst ≤ 1048575) ∧
    let g := { grpIf with stack := [], active := laneMask 64 }
    let f := ctlBody (.exitC H0) ctlExit g ⟨2, 1, false, true, false, 0⟩
    CtlIssues (at_ g) g (.exitC H0 f) f (ctlExit f) ∧ g.live &&& ~~~(g.active &&& condMask f g) ≠ 0 :=
  ⟨ctl_of (by decide +kernel), ⟨0, _, rfl, rfl, ctl_of (by decide +kernel)⟩, ⟨ctl_of (by decide +kernel), by decide +kernel, by decide +kernel, by decide +kernel⟩,
    ctl_of (by decide +kernel), by decide +kernel⟩

/-- loop with a signature of zero, without RM and with it inside a region: the first time, and again after a mismatch, which an RM bit
forgets with its region. -/
theorem witness_SignatureMismatch : ∀ rm : Bool, ∃ c, let f : CF := ⟨0, 0, false, false, false, 0⟩
    let i := Instr.loopC { H0 with rm := rm } f
    ctlOf i = some ({ H0 with rm := rm }, f, c) ∧ ∀ failed : Bool, let g := { grp with sigFailed := failed, regionFresh := false }
      (at_ g).issuing = some g ∧ g.hold = .none ∧ g.retryAt ≤ (at_ g).now ∧ c.check g = none ∧ g.taken = false ∧ g.poFirst = false ∧
        ctlSig g i c ≠ f.sig ∧ (if rm then g.closeRegion else g).sigFailed = (failed && !rm) := by
  intro rm
  cases rm <;> exact ⟨_, rfl, by decide +kernel⟩

/-- mul.f32 v6, v5, 0.5; and the words of add.i64. -/
theorem witness_DecodeEncode : let i := Instr.mulVi H0 ⟨6, 5, 0x3F00, false, false, 9, 0, false, 2⟩
    i.isEvent = false ∧ i.WellFormed 32 := by decide +kernel

theorem witness_EncodeDecode : decodeWords 16 0xA0000A1880000007 0 = .instr (.addUr H0 ⟨5, 3, 4, 7⟩) := by decide +kernel

/-- A group at add.i64, and the turn of an operation. -/
theorem witness_StepRunsDecoded :
    (let s := State.reset.withFetchWord 64 0xA0000A1880000007
     ∃ g rest w0 i, s.agenda = .issue g.gid :: rest ∧ s.grp? g.gid = some g ∧ s.mgmt.stopped = false ∧ mayFetch s g = true ∧
       codeWord s g g.pc = .word w0 ∧ isLong w0 = false ∧ decodeWords g.width w0 0 = .instr i) ∧
    (let s := State.reset.withFetchWord 128 (0xE1000E0000000001 + 0xFF23456789ABCDEF * 2 ^ 64)
     ∃ g rest w0 w1 i, s.agenda = .issue g.gid :: rest ∧ s.grp? g.gid = some g ∧ mayFetch s g = true ∧
       codeWord s g g.pc = .word w0 ∧ isLong w0 = true ∧ codeWord s g (g.pc + 8) = .word w1 ∧ decodeWords g.width w0 w1 = .instr i) ∧
    ∃ rest, { State.reset with agenda := [.event .getVersion] }.agenda = .event .getVersion :: rest ∧ isOperation .getVersion = true :=
  ⟨⟨grp, [], 0xA0000A1880000007, .addUr H0 ⟨5, 3, 4, 7⟩, by decide +kernel⟩,
    ⟨grp, [], 0xE1000E0000000001, 0xFF23456789ABCDEF, .movl H0 ⟨7, 0, 0, 1⟩ 0x23456789ABCDEF, by decide +kernel⟩, [], rfl, rfl⟩

/-- The machine whose group reads S3 while it is empty. -/
def grpEmpty : Group := { grp with sregs := grp.sregs.set 3 ⟨0, none, false⟩ }

/-- add.i64 s5, s3, s4 while S3 is empty, with EB = 0 and with EB = 1; endloop under a P3 that is empty. -/
theorem witness_IssueWaits :
    (∀ eb : Bool, ∃ h p, let i := Instr.addUr H0 ⟨5, 3, 4, if eb then 0x27 else 7⟩
      planOf i (at_ grpEmpty) = some (h, p) ∧ (at_ grpEmpty).issuing = some grpEmpty ∧ ready (at_ grpEmpty) grpEmpty h p = eb ∧
        p.collective = false ∧ ∃ x, p.srcs.head? = some x ∧ x.empty grpEmpty (at_ grpEmpty).now = true ∧
          x.waits grpEmpty (at_ grpEmpty).now = !eb) ∧
    let g := { grp with preds := grp.preds.set 3 ⟨0, none⟩ }
    ∀ eb : Bool, let f : CF := ⟨0, 3, false, true, eb, 0⟩
      (∃ c, ctlOf (.endloopC H0 f) = some (H0, f, c)) ∧ (at_ g).issuing = some g ∧ f.ce = true ∧ g.pFull (at_ g).now f.cp.toNat = false ∧
        f.ebp = eb ∧ g.hold = .none ∧ g.retryAt ≤ (at_ g).now := by
  refine ⟨fun eb => ?_, fun eb => ⟨⟨_, rfl⟩, ?_⟩⟩ <;> cases eb
  · exact ⟨_, _, rfl, by decide +kernel, by decide +kernel, rfl, _, rfl, by decide +kernel, by decide +kernel⟩
  · exact ⟨_, _, rfl, by decide +kernel, by decide +kernel, rfl, _, rfl, by decide +kernel, by decide +kernel⟩
  · decide +kernel
  · decide +kernel

/-- add.i64 under a guard that no lane passes. -/
theorem witness_NoLaneNoEffect : ∃ h p, let i := Instr.addUr ⟨false, true, false, 1⟩ ⟨5, 3, 4, 7⟩
    planOf i (at_ grp) = some (h, p) ∧ p.acts = .group ∧ Issues (at_ grp) grp i h p ∧ effLanes grp h = 0 :=
  ⟨_, _, rfl, rfl, issues_of (by decide +kernel), by decide +kernel⟩

/-- The group whose V1 is marked uncorrectable in lane 3. -/
def grpBad : Group := { grpV [5] 5 with pregs := [{ reg 0 5 5 with bad := 8 }] }

/-- abs.i32 v2, v1. -/
theorem witness_MarkedLanesDie : ∃ o p, let i := Instr.abs H0 ⟨2, 0, 1, 0, 0, false, false, false, false, 5, 0, false⟩
    laneInstr i = some o ∧ planOf i (at_ grpBad) = some (o.h, p) ∧ Issues (at_ grpBad) grpBad i o.h p ∧
      grpBad.active &&& ~~~(dying (at_ grpBad) grpBad o.h p) ≠ 0 ∧ grpBad.live &&& ~~~(dying (at_ grpBad) grpBad o.h p) ≠ 0 ∧
      dying (at_ grpBad) grpBad o.h p = 8 :=
  ⟨_, _, rfl, rfl, issues_of (by decide +kernel), by decide +kernel, by decide +kernel, by decide +kernel⟩

/-- The hypotheses of the further clauses, for an instruction of a group with marked lanes, as a computation; `lives` where some lane lives on. -/
abbrev marksB (g : Group) (i : Instr) (lives : Bool) : Bool :=
  let s := atPage g
  let s0 := s.modGrp g.gid fun _ => g.unmarked
  match marksRead i, planOf i s, planOf i s0 with
  | some (h, _), some (h1, p), some (h2, p0) =>
    let d := dying s g h p
    decide (h = h1) && decide (h = h2) && issuesB s g i h p && issuesB s0 g.unmarked i h p0 && p.acts == .lanes && decide (d ≠ 0) &&
      (decide (g.active &&& ~~~d ≠ 0) && decide (g.live &&& ~~~d ≠ 0)) == lives
  | _, _, _ => false

/-- scan.add.excl.i32, cmp, kpush and cvt of V1; cvt.todx and cvt.fromdx; xv with V1 as op words; red, whose lanes all die. -/
theorem witness_MarkedLanesDie_more :
    let bad := fun (tag : BitVec 4) (v : Lane) => { grpV [v] tag with pregs := [{ reg 0 v tag with bad := 8 }] }
    marksB (bad 5 5) (.scan H0 ⟨2, 0, 1, 0, 8, false, false, false, false, 5, 0, false⟩) true ∧
      marksB (bad 5 5) (.cmp H0 ⟨3, 1, 1, 0, 0, false, false, false, false, 5, 2, false⟩) true ∧
      marksB (bad 5 5) (.kpush H0 ⟨0, 0, 1, 0, 0, false, false, false, false, 5, 0, false⟩) true ∧
      marksB (bad 5 5) (.cvt H0 ⟨2, 1, 1, 5, 2, false, false, 0, true⟩) true ∧
      marksB (bad 9 0) (.cvtTodx H0 ⟨2, 1, 0, 9, 0x33, false, false, 0, false⟩) true ∧
      marksB (bad 0 0) (.cvtFromdx H0 ⟨2, 1, 9, 0, 0x33, false, false, 0, false⟩) true ∧
      marksB (bad 12 0) (.xv H0 ⟨1, 16, 3, false, false, false, false⟩) true ∧
      marksB (bad 5 5) (.red H0 ⟨2, 0, 1, 0, 0, false, false, false, false, 5, 0, false⟩) false := by
  decide +kernel

/-- st of V1 to the mapped page, ld.s at the index V1. -/
theorem witness_MarkedLanesDie_accesses :
    let g := grpS { grpV [4] 6 with pregs := [{ reg 0 4 6 with bad := 8 }] } [0x100000]
    marksB g (.st H0 ⟨1, 1, 0, false, 0, 0, false, false, false, false, 6, 2, 0⟩) true ∧
      marksB g (.ldS H0 ⟨4, 0, 1, true, 0, 0, false, false, false, false, 6, 2, 0⟩) true := by
  decide +kernel

/-! ### Every statement's hypotheses are met: memory, faults, requests -/

/-- A step of add.i64 from reset with the instruction placed. -/
theorem witness_MemoryStaysCanonical : let s := State.reset.withFetchWord 64 0xA0000A1880000007
    s.Inv ∧ ∃ t, step s = .next t ∧ decide t.Inv = true :=
  ⟨by decide +kernel, next_of (by decide +kernel)⟩

/-- GET_VERSION, which is no module reset. -/
theorem witness_ManagementRecordsStay : ∃ t : State, exec .getVersion .reset = .next t ∧ ∀ seedOk flash, Instr.getVersion ≠ .moduleReset seedOk flash :=
  ⟨_, rfl, fun _ _ h => by cases h⟩

/-- Partition 0 with its fault queue at 0x10000, empty and full. -/
def withQueue (written : Nat) : State :=
  let s := State.reset.modPart 0 fun q => { q with fq := 0x10000, state := .running }
  { s with mem := Memory.putBytes [] 0x10000 (natBytes 8 written), mgmt := { s.mgmt with ready := BitVec.allOnes 256 } }

theorem witness_FaultEntryWritten :
    (withQueue 3).Inv ∧ (withQueue 3).syn = [] ∧ fqHeld (withQueue 3) 0 = false ∧ fqFull (withQueue 3) 0 = false ∧
      (withQueue 512).Inv ∧ fqHeld (withQueue 512) 0 = false ∧ fqFull (withQueue 512) 0 = true ∧
      (let s := { withQueue 3 with mgmt := .reset }
       s.Inv ∧ s.syn = [] ∧ fqHeld s 0 = true) := by
  decide +kernel

/-- add.i32 over a name tagged F32 raises FORMAT; a reserved major; ldu from an unmapped page raises PAGE, with space in the fault queue,
without, and while an entry waits for the queue's slice. -/
theorem witness_CausesReported :
    (let i := Instr.abs H0 ⟨2, 0, 1, 0, 0, false, false, false, false, 5, 0, false⟩
     let g := grpV [5] 9
     ∃ p, planOf i (at_ g) = some (H0, p) ∧ (at_ g).issuing = some g ∧ ready (at_ g) g H0 p = true ∧
       (∃ r, causeAt i (at_ g) g H0 p = some r ∧ r.ends = true) ∧ (at_ g).syn = [] ∧ mayFetch (at_ g) g = true) ∧
    ∀ n ∈ [0, 512, 1], let i := Instr.ldu H0 ⟨5, 1, 0, false, 0, 0, false, false, false, false, 8, 3, 0⟩
      let g := grpS grp [0x100000]
      let e : Entry := { report := ⟨.prot, 0, 0, 0, 0, 0, 0⟩ }
      let s := { at_ g with
        parts := ((withQueue n).modPart 0 fun q => if n = 1 then { q with pendEntries := [(none, e)] } else q).parts
        mem := (withQueue n).mem }
      ∃ p, planOf i s = some (H0, p) ∧ s.issuing = some g ∧ ready s g H0 p = true ∧
        (∃ r, causeAt i s g H0 p = some r ∧ decide (r.cause = .page) = true) ∧ s.syn = [] ∧ s.reqs = [] ∧
        awakeWords s (p.touches s g (effLanes g H0)) = true ∧ fqFull s g.part = decide (n = 512) ∧ fqHeld s g.part = decide (n = 1) := by
  refine ⟨⟨_, rfl, by decide +kernel, by decide +kernel, some_of (by decide +kernel), rfl, by decide +kernel⟩, ?_⟩
  intro n hn
  simp only [List.mem_cons, List.not_mem_nil, or_false] at hn
  rcases hn with rfl | rfl | rfl <;>
    exact ⟨_, rfl, by decide +kernel, by decide +kernel, some_of (by decide +kernel), rfl, rfl, by decide +kernel, by decide +kernel,
      by decide +kernel⟩

theorem bad_none {g : Group} (h : (g.sregs.all fun x => !x.bad) = true) (r : Nat) : (g.sreg r).bad = false := by
  unfold Group.sreg
  rw [List.getD_eq_getElem?_getD]
  cases k : g.sregs[r]? with
  | none => rfl
  | some x =>
    have := List.all_eq_true.mp h x (List.mem_of_getElem? k)
    simpa using this

/-- bar 3 under half of the live lanes; abs.i32 v2, v1 with EB over an empty V1; add.i64 s5, s3, s4 over a marked S3. -/
theorem witness_CausesReported_issue :
    (let i := Instr.bar H0 ⟨0, 0, 0, 3⟩
     let g := { grp with active := 1 }
     ∃ p, planOf i (at_ g) = some (H0, p) ∧ ready (at_ g) g H0 p = true ∧ isCollective i = true ∧ g.active ≠ g.live) ∧
    (let i := Instr.abs H0 ⟨2, 0, 1, 0, 0, false, false, false, true, 5, 0, false⟩
     let g := { grpV [5] 5 with pregs := [{ reg 0 5 5 with ready := none, pend := 1 }] }
     ∃ p x post, planOf i (at_ g) = some (H0, p) ∧ ready (at_ g) g H0 p = true ∧ isCollective i = false ∧ p.srcs = [] ++ x :: post ∧
       x.empty g (at_ g).now = true) ∧
    let i := Instr.addUr H0 ⟨5, 3, 4, 7⟩
    let g := { grp with sregs := grp.sregs.set 3 ⟨0, some 0, true⟩ }
    ∃ p eb post, planOf i (at_ g) = some (H0, p) ∧ ready (at_ g) g H0 p = true ∧ isCollective i = false ∧
      (∀ x ∈ p.srcs, x.empty g (at_ g).now = false) ∧ p.srcs = [] ++ .s 3 eb :: post ∧ (g.sreg 3).bad = true :=
  ⟨⟨_, rfl, by decide +kernel, rfl, by decide +kernel⟩, ⟨_, _, _, rfl, by decide +kernel, rfl, rfl, by decide +kernel⟩,
    ⟨_, _, _, rfl, by decide +kernel, rfl, by decide +kernel, rfl, by decide +kernel⟩⟩

/-- abs.i32 v2, v1 where V1 is tagged F32, and where it is tagged I32; the latter with a peak of 127 more registers, and of none. -/
theorem witness_CausesReported_arith :
    let i := Instr.abs H0 ⟨2, 0, 1, 0, 0, false, false, false, false, 5, 0, false⟩
    ∀ tag ∈ [(9 : BitVec 4), 5], let g := grpV [5] tag
      ∃ o p x, arithInstr i = some o ∧ planOf i (at_ g) = some (o.h, p) ∧ (∀ y ∈ p.srcs, y.empty g (at_ g).now = false) ∧
        (∀ r, (g.sreg r).bad = false) ∧ o.srcs = [] ++ x :: [] ∧ x.names = [] ++ 1 :: [] ∧
        (tagWrong x.type (g.vTag 1) ↔ tag = 9) ∧ peakCause i (at_ g) g o.h p = none ∧
        peakCause i { at_ g with launches := [{ loaderLaunch 0 with hdr := { (loaderLaunch 0).hdr with peak := 1 } }] } g o.h p ≠ none := by
  intro i tag h
  simp only [List.mem_cons, List.not_mem_nil, or_false] at h
  rcases h with rfl | rfl <;>
    exact ⟨_, _, _, rfl, rfl, by decide +kernel, bad_none (by decide +kernel), rfl, rfl, by unfold tagWrong; decide +kernel,
      by decide +kernel, by decide +kernel⟩

/-- ld.n32 v4, [s1 + v2:v3] with the index tagged F32; ld.s.n32 v4, [s1] out of range, and at 2, and at 4; st.n32 v1, [s1] of an N32
value at an odd address with ordering, at an address without a page, and at the mapped page. -/
theorem witness_CausesReported_access :
    (let f : MF := ⟨4, 1, 2, true, 0, 0, false, false, false, false, 6, 2, 0⟩
     let g := grpV [5, 5, 5] 9
     ∃ c p, accessChecks (.ld H0 f) = some c ∧ planOf (.ld H0 f) (at_ g) = some (c.h, p) ∧
       (∀ x ∈ p.srcs, x.empty g (at_ g).now = false) ∧ (∀ r, (g.sreg r).bad = false) ∧ p.consumed g (effLanes g c.h) = 0 ∧ c.f.ix = true ∧
       ¬∀ n ∈ (mIndex c.f c.pairIx).names, g.vTag n ∈ if c.pairIx then [0, 7, 8] else [0, 5, 6]) ∧
    (∀ n ∈ [4, 2, 0xFFFFFFF0], let f : MF := ⟨4, 1, 0, false, 0, 0, false, false, false, false, 6, 2, 0⟩
     let g := grpS grp [BitVec.ofNat 64 n]
     ∃ c p, accessChecks (.ldS H0 f) = some c ∧ planOf (.ldS H0 f) (at_ g) = some (c.h, p) ∧ c.aligned = true ∧
       (∀ x ∈ p.srcs, x.empty g (at_ g).now = false) ∧ (∀ r, (g.sreg r).bad = false) ∧ p.consumed g (effLanes g c.h) = 0 ∧
       lanesOf (effLanes g c.h) = [] ++ 0 :: (lanesOf (effLanes g c.h)).tail ∧ c.f.ix = false ∧ c.data = [] ∧
       decide (laneOff f g 0 + sizeBytes f.size ≤ (groupLimit (at_ g) g : Int)) = decide (n ≠ 0xFFFFFFF0) ∧
       decide (c.place g 0 % (sizeBytes c.f.size : Int) ≠ 0) = decide (n = 2)) ∧
    ∀ n ∈ [0x100000, 0x100001, 0x500000], let f : MF := ⟨1, 1, 0, false, 0, 0, false, false, false, false, 6, 2, 1⟩
    let g := grpS (grpV [3] 6) [BitVec.ofNat 64 n]
    ∃ c p, accessChecks (.st H0 f) = some c ∧ planOf (.st H0 f) (atPage g) = some (c.h, p) ∧ c.aligned = true ∧ c.need = some needW ∧
      (∀ x ∈ p.srcs, x.empty g (atPage g).now = false) ∧ (∀ r, (g.sreg r).bad = false) ∧ p.consumed g (effLanes g c.h) = 0 ∧
      (∀ k l, c.inside k g l) ∧ (∀ k ∈ c.data, ¬tagWrong c.f.type (g.vTag k)) ∧
      decide (c.place g 0 % (sizeBytes c.f.size : Int) ≠ 0) = decide (n = 0x100001) ∧
      (match locate (atPage g) g.core g.part (BitVec.ofInt 64 (c.place g 0)) (sizeBytes c.f.size) needW with
        | .ok _ => decide (n ≠ 0x500000)
        | .error e => decide (n = 0x500000 ∧ e.1 = 2)) = true := by
  refine ⟨⟨_, _, rfl, rfl, by decide +kernel, bad_none (by decide +kernel), by decide +kernel, rfl, by decide +kernel⟩, ?_, ?_⟩ <;> intro n h <;>
    simp only [List.mem_cons, List.not_mem_nil, or_false] at h <;> rcases h with rfl | rfl | rfl
  · exact ⟨_, _, rfl, rfl, rfl, by decide +kernel, bad_none (by decide +kernel), by decide +kernel, by decide +kernel, rfl, rfl, by decide +kernel, by decide +kernel⟩
  · exact ⟨_, _, rfl, rfl, rfl, by decide +kernel, bad_none (by decide +kernel), by decide +kernel, by decide +kernel, rfl, rfl, by decide +kernel, by decide +kernel⟩
  · exact ⟨_, _, rfl, rfl, rfl, by decide +kernel, bad_none (by decide +kernel), by decide +kernel, by decide +kernel, rfl, rfl, by decide +kernel, by decide +kernel⟩
  · exact ⟨_, _, rfl, rfl, rfl, rfl, by decide +kernel, bad_none (by decide +kernel), by decide +kernel, fun _ _ => trivial, by unfold tagWrong; decide +kernel, by decide +kernel, by decide +kernel⟩
  · exact ⟨_, _, rfl, rfl, rfl, rfl, by decide +kernel, bad_none (by decide +kernel), by decide +kernel, fun _ _ => trivial, by unfold tagWrong; decide +kernel, by decide +kernel, by decide +kernel⟩
  · exact ⟨_, _, rfl, rfl, rfl, rfl, by decide +kernel, bad_none (by decide +kernel), by decide +kernel, fun _ _ => trivial, by unfold tagWrong; decide +kernel, by decide +kernel, by decide +kernel⟩

/-- ldu.n64 s5, [s1] with ordering at the mapped page, at an odd address and at one without a page. -/
theorem witness_CausesReported_group :
    ∀ n ∈ [0x100000, 0x100001, 0x500000], let f : MF := ⟨5, 1, 0, false, 0, 0, false, false, false, false, 8, 3, 1⟩
      let g := grpS grp [BitVec.ofNat 64 n]
      ∃ p, groupChecks (.ldu H0 f) = some (H0, f, true, needR) ∧ planOf (.ldu H0 f) (atPage g) = some (H0, p) ∧
        (∀ x ∈ p.srcs, x.empty g (atPage g).now = false) ∧ (∀ r, (g.sreg r).bad = false) ∧ effLanes g H0 ≠ 0 ∧
        decide ((groupVa f g).toNat % sizeBytes f.size ≠ 0) = decide (n = 0x100001) ∧
        (match locate (atPage g) g.core g.part (groupVa f g) (sizeBytes f.size) needR with
          | .ok _ => decide (n ≠ 0x500000)
          | .error e => decide (n = 0x500000 ∧ e.1 = 2)) = true := by
  intro n h
  simp only [List.mem_cons, List.not_mem_nil, or_false] at h
  rcases h with rfl | rfl | rfl <;>
    exact ⟨_, rfl, rfl, by decide +kernel, bad_none (by decide +kernel), by decide +kernel, by decide +kernel, by decide +kernel⟩

/-- if under an empty P1 with EB; endif without an entry. -/
theorem witness_CausesReported_control :
    (let f : CF := ⟨2, 1, false, true, true, 0⟩
     let g := { grp with preds := grp.preds.set 1 ⟨0, none⟩ }
     ctlOf (.ifC H0 f) = some (H0, f, ctlIf f) ∧ (at_ g).issuing = some g ∧ g.hold = .none ∧ g.retryAt ≤ (at_ g).now ∧
       (at_ g).syn = [] ∧ f.ce = true ∧ f.ebp = true ∧ g.pFull (at_ g).now f.cp.toNat = false) ∧
    let f : CF := ⟨0, 0, false, false, false, 0⟩
    ctlOf (.endifC H0 f) = some (H0, f, ctlEndif) ∧ (at_ grp).issuing = some grp ∧ grp.hold = .none ∧ grp.retryAt ≤ (at_ grp).now ∧
      (at_ grp).syn = [] ∧ f.ce = false ∧ maskStackFails (.endifC H0 f) grp = some 2 :=
  ⟨⟨rfl, by decide +kernel⟩, rfl, by decide +kernel⟩

/-! ### A configured machine -/

/-- The kernel header of the tests at virtual address 0x100000: width 64, 4,096 bytes of code at 0x100800, no arguments. -/
def headerWords : List Word :=
  [0x5A4B010200001000, 0x100800, 0x0000000040408010, 0x0000008000200000, 0x100400, 0, 0, 0]

/-- A descriptor of the kernel: valid, class 1, two teams of 64 lanes. -/
def taskWords : List Word := [0x8400000000100000, 0x0000004000000002, 0, 0]

/-- The command in slot 0: a launch command of tag 7 with a record of kind 1, class 1, two teams of 64 lanes. -/
def commandWords : List Word := [0x0100000000000007, 0x1400000000100000, 0x0000004000000002, 0, 0]

/-- The machine with every unit ready, an open management session, and partition 0 running with pair 0: its fault queue at 0x10000, its
command queue at 0x20000, its task table of four entries at 0x30000, and a page of slice SRAM at virtual address 0x100000 that holds the
kernel header. -/
def sys : State :=
  let s := State.reset
  let part : Part := { Part.unset 0 with
    pairs := 1, state := .running, fq := 0x10000, save := 0x8000, cmdq := 0x20000, tasktab := 0x30000, taskcount := 4, weight := 1 }
  { s with
    mem := Memory.putBytes (Memory.putBytes (Memory.putBytes [] 0x20000 (wordsBytes commandWords)) 0x30000 (wordsBytes taskWords)) sramBase
      (wordsBytes headerWords)
    parts := part :: s.parts.drop 1
    mgmt := { s.mgmt with ready := BitVec.allOnes 256, stage := .halone, session := .opened 5 ⟨0, 1, 2⟩ }
    tlb := [page, { page with core := none }] }

/-- That machine with the one group of the tests. -/
def sysG (g : Group) : State :=
  { sys with
    launches := [loaderLaunch 0]
    teams := [newTeam 1 (loaderLaunch 0) [0]]
    groups := [g]
    coreWords := [(0, (loaderLaunch 0).hdr.partword)]
    nextId := 3 }

/-- A request of the group for eight bytes at the start of slice SRAM, in flight. -/
def rq (op : ReqOp) : Req where
  id := 9
  seq := 0
  gid := 2
  launch := 0
  team := 1
  part := 0
  core := 0
  pc := 0
  lane := 0
  cls := 0
  sp := false
  pieces := [⟨sramBase, 8, false, false⟩]
  got := []
  bad := false
  op := op
  acq := false
  rel := false
  wt := false
  watch := false
  counted := false
  moved := false
  drop := false
  phase := .flying

/-- That machine with one request. -/
def sysR (g : Group) (r : Req) : State := { sysG g with reqs := [r] }

/-- No group waits for a page, and no request is parked. -/
abbrev quiet (s : State) : Bool :=
  (s.groups.all fun q => match q.hold with
    | .page _ => false
    | _ => true) && s.reqs.all fun r => decide (r.phase = .flying)

theorem noReply_of {s : State} (h : quiet s = true) (a n : Nat) : NoReply s a n := by
  simp only [Bool.and_eq_true, List.all_eq_true, decide_eq_true_eq] at h
  intro q hq k hk
  have := h.1 q hq
  rw [hk] at this
  cases this

theorem noReply_at {s : State} (h : (s.groups.all fun q => match q.hold with
    | .page _ => false
    | _ => true) = true) (a n : Nat) : NoReply s a n := by
  intro q hq k hk
  have := List.all_eq_true.mp h q hq
  rw [hk] at this
  cases this

theorem noWait_of {s : State} (h : quiet s = true) (a n : Nat) : NoWait s a n := by
  simp only [Bool.and_eq_true, List.all_eq_true, decide_eq_true_eq] at h
  intro r hr v rem k p rest _ hk
  rw [h.2 r hr] at hk
  cases hk

/-- A place lies outside every fault queue. -/
abbrev openB (s : State) (a n : Nat) : Bool :=
  s.parts.all fun q => q.state == .none || decide (a + n ≤ q.fq) || decide (q.fq + 64 + 64 * 512 ≤ a)

theorem writable_of {s : State} {a n : Nat} (h : openB s a n = true) : Writable s a n := by
  intro i hi
  rw [fqKept, List.any_eq_false]
  intro q hq k
  have := List.all_eq_true.mp h q hq
  simp only [Bool.and_eq_true, Bool.or_eq_true, decide_eq_true_eq, bne_iff_ne, beq_iff_eq] at this k
  obtain ⟨⟨k0, k1⟩, k2⟩ := k
  rcases this with (h0 | h0) | h0
  · exact k0 h0
  · omega
  · split at k2
    · omega
    · have := Bool.and_eq_true _ _ ▸ k2
      simp only [decide_eq_true_eq] at this
      omega

theorem noWaiter_of {s : State} {a n : Nat} (h : (quiet s && openB s a n) = true) : NoWaiter s a n := by
  have k := Bool.and_eq_true _ _ ▸ h
  exact ⟨writable_of k.2, noReply_of k.1 a n, noWait_of k.1 a n⟩

/-! ### Every statement's hypotheses are met: accesses where they are performed -/

theorem witness_HomeSlicePerforms :
    ∀ op ∈ [ReqOp.load (.lane [0] 3) 2 false, .load (.uni 5) 3 false, .store [1, 2, 3, 4, 5, 6, 7, 8]],
      ∀ ps ∈ [[Piece.mk sramBase 8 false false], [Piece.mk sramBase 4 false false, ⟨sramBase + 4, 4, false, false⟩]],
        let r := { rq op with pieces := ps }
        let s := sysR grp r
        s.Inv ∧ s.syn = [] ∧ s.req? r.id = some r ∧ r.sp = false ∧ canPerform s r = true ∧ served s r = true ∧ r.pieces ≠ [] ∧
          r.drop = false ∧ s.grp? r.gid = some grp := by
  decide +kernel

/-- Diagnostic stores, to slice SRAM and to a word of the fault queue that only the device writes; a store at whose word a wait that it
satisfies, and one that it does not, are parked. -/
theorem witness_HomeSlicePerforms_more :
    (∀ a ∈ [sramBase, 0x10000],
      let r := { rq (.diag 5 3) with pieces := [⟨a, 8, false, false⟩] }
      let s := sysR { grp with hold := .diag } r
      s.Inv ∧ s.syn = [] ∧ s.req? r.id = some r ∧ canPerform s r = true ∧ served s r = true ∧ NoReply s a 8 ∧
        (fqKept s a = true ↔ a = 0x10000)) ∧
    ∀ target ∈ [(4 : Word), 0xFFFFFFFFFFFFFFFF],
      let r := rq (.store [5, 0, 0, 0, 0, 0, 0, 0])
      let q := { rq (.waitGe target false) with id := 10, gid := 7, phase := .parked 0, watch := true }
      let s := { sysR grp r with reqs := [r, q] }
      s.Inv ∧ s.syn = [] ∧ s.req? r.id = some r ∧ canPerform s r = true ∧ served s r = true ∧ Writable s sramBase 8 ∧ NoReply s sramBase 8 ∧
        q ∈ s.reqs ∧ ∀ o ∈ s.reqs, o.id = q.id → o = q := by
  refine ⟨?_, ?_⟩
  · intro a h
    simp only [List.mem_cons, List.not_mem_nil, or_false] at h
    rcases h with rfl | rfl <;>
      exact ⟨by decide +kernel, rfl, by decide +kernel, by decide +kernel, by decide +kernel, noReply_of (by decide +kernel) _ _,
        by decide +kernel⟩
  · intro target h
    simp only [List.mem_cons, List.not_mem_nil, or_false] at h
    rcases h with rfl | rfl <;>
      exact ⟨by decide +kernel, rfl, by decide +kernel, by decide +kernel, by decide +kernel, writable_of (by decide +kernel),
        noReply_at (by decide +kernel) _ _, by decide +kernel, by decide +kernel⟩

/-- A syscall that is performed, one that waits behind a load, and one at a full queue. -/
theorem witness_TrapEnds_syscall :
    ∀ k ∈ [0, 1, 2],
      let r := { rq (.syscall 7 1 2 3 6 0) with pieces := [], cls := 7, seq := 1 }
      let q := { rq (.load (.uni 5) 3 false) with id := 10 }
      let s := { sysR grp r with reqs := if k = 1 then [r, q] else [r] }
      let s := if k = 2 then { s with mem := Memory.putBytes s.mem 0x10000 (wordBytes 512) } else s
      s.req? r.id = some r ∧ canPerform s r = true ∧ s.grp? r.gid = some grp ∧ s.pendingAcc r.gid r.seq = (k == 1) ∧
        fqHeld s r.part = false ∧ fqFull s r.part = (k == 2) := by
  decide +kernel

/-- A store on a granule on which a plain lane and two takers are parked, and a wait on its word; a diagnostic store. -/
theorem witness_BanksPerform_parked :
    (let at_ : Req → Req := fun r => { r with sp := true, pieces := [⟨0x40, 8, false, false⟩] }
     let r := at_ (rq (.store [1, 2, 3, 4, 5, 6, 7, 8]))
     let plain := { at_ (rq (.fe (.lane [0, 1] 3) 3 false false)) with id := 10, phase := .parked 4 }
     let take := fun (k : Nat) => { at_ (rq (.fe (.lane [0, 1] 4) 3 false true)) with id := 11 + k, seq := 1 + k, gid := 3 + k, phase := .parked k }
     let wait := { at_ (rq (.waitGe 4 false)) with id := 14, gid := 9, phase := .parked 4 }
     let tm := { newTeam 1 (loaderLaunch 0) [0] with empties := [0x40] }
     let s := { sysR grp r with teams := [tm], reqs := [r, plain, take 0, take 1, wait] }
     s.req? r.id = some r ∧ canPerform s r = true ∧ bankAwake s r = true ∧ s.team? r.team = some tm ∧ tm.spSyn = [] ∧
       together s r = [r] ∧ (∀ q ∈ together s r, q.team = r.team) ∧ r.putting.2 ≠ [] ∧ 0x40 % 8 + r.putting.2.length ≤ 8 ∧
       plain.feOn 1 0x40 = some false ∧ (take 0).feOn 1 0x40 = some true ∧ (take 1).feOn 1 0x40 = some true ∧
       sameInstr (take 1) (take 0) = false ∧ [0, 1].Nodup ∧ ∀ q ∈ s.reqs, ∀ o ∈ s.reqs, o.id = q.id → o = q) ∧
    (let r := { rq (.diag 5 3) with sp := true, pieces := [⟨0x40, 8, false, false⟩] }
     let s := sysR { grp with hold := .diag } r
     s.req? r.id = some r ∧ canPerform s r = true ∧ bankAwake s r = true ∧ (∀ q ∈ together s r, q.team = r.team) ∧
       (s.team? r.team).map Team.spSyn = some []) := by
  decide +kernel

/-- A load, a store, a `.fe` load and a take of one lane, on a full granule and on an empty one; a load and a store of two lanes at one
bank word. -/
theorem witness_BanksPerform :
    (∀ op ∈ [ReqOp.load (.lane [0] 3) 2 false, .store [1, 2, 3, 4], .fe (.lane [0] 3) 2 false false, .fe (.lane [0] 3) 2 false true],
      ∀ es ∈ [[], [0x40]],
        let r := { rq op with sp := true, pieces := [⟨0x40, 4, false, false⟩] }
        let tm := { newTeam 1 (loaderLaunch 0) [0] with empties := es }
        let s := { sysR grp r with teams := [tm] }
        s.req? r.id = some r ∧ canPerform s r = true ∧ bankAwake s r = true ∧ s.team? r.team = some tm ∧ tm.spSyn = [] ∧
          together s r = [r] ∧ r.putting.1 % 8 + r.putting.2.length ≤ 8 ∧ ∀ q ∈ s.reqs, q.isParked = false) ∧
    ∀ op ∈ [fun (l : Nat) => ReqOp.load (.lane [0] l) 2 false, fun l => .store [BitVec.ofNat 8 l, 2, 3, 4]],
      let r := fun (l : Nat) => { rq (op l) with id := 9 + l, lane := l, sp := true, pieces := [⟨0x40, 4, false, false⟩] }
      let s := { sysR grp (r 0) with reqs := [r 0, r 1] }
      s.req? 9 = some (r 0) ∧ canPerform s (r 0) = true ∧ bankAwake s (r 0) = true ∧ together s (r 0) = [] ++ r 0 :: [r 1] ∧
        (∀ q ∈ together s (r 0), q.team = (r 0).team ∧ q.putting.1 % 8 + q.putting.2.length ≤ 8) ∧
        ∀ q ∈ together s (r 0), ∀ o ∈ together s (r 0), o.id = q.id → o = q := by
  decide +kernel

/-- An add of 5 into lane 3, and into S5; adds of 1 and of 2^64 − 1 to a counter; waits for its value and for more. -/
theorem witness_AtomicsPerform_words :
    (∀ d ∈ [Dest.lane [0, 1] 3, .uni 5],
      let r := rq (.atomic 0 8 5 0 d)
      (sysR grp r).reqs.filter (fun q => sameInstr q r && q.undone && (q.pieces.head?.map Piece.addr) == some sramBase) = [r]) ∧
    ∀ op ∈ [ReqOp.atomic 0 8 5 0 (.lane [0, 1] 3), .atomic 0 8 5 0 (.uni 5), .sigAdd 1 0x100000, .sigAdd 0xFFFFFFFFFFFFFFFF 0x100000,
        .waitGe 1 false, .waitGe 0xFFFFFFFFFFFFFFFF true],
      let r := rq op
      let s := sysR grp r
      (s.Inv ∧ s.syn = [] ∧ s.req? r.id = some r ∧ r.sp = false ∧ r.drop = false ∧ s.grp? r.gid = some grp ∧ canPerform s r = true ∧
        served s r = true ∧ structAwake s r = true) ∧ Writable s sramBase 8 ∧ NoReply s sramBase 8 := by
  refine ⟨by decide +kernel, ?_⟩
  intro op h
  simp only [List.mem_cons, List.not_mem_nil, or_false] at h
  rcases h with rfl | rfl | rfl | rfl | rfl | rfl <;>
    exact ⟨by decide +kernel, writable_of (by decide +kernel), noReply_of (by decide +kernel) _ _⟩

/-- The same at the banks. -/
theorem witness_AtomicsPerform_banks :
    ∀ op ∈ [ReqOp.sigAdd 1 0x40, .sigAdd 0xFFFFFFFFFFFFFFFF 0x40, .waitGe 0 false, .waitGe 5 true],
      let r := { rq op with sp := true, pieces := [⟨0x40, 8, false, false⟩] }
      let s := sysR grp r
      s.req? r.id = some r ∧ r.drop = false ∧ s.grp? r.gid = some grp ∧ canPerform s r = true ∧ bankAwake s r = true ∧ s.syn = [] ∧
        ∃ tm, s.team? r.team = some tm ∧ decide (tm.spSyn = []) = true := by
  intro op h
  simp only [List.mem_cons, List.not_mem_nil, or_false] at h
  rcases h with rfl | rfl | rfl | rfl <;>
    exact ⟨by decide +kernel, by decide +kernel, by decide +kernel, by decide +kernel, by decide +kernel, rfl, some_of (by decide +kernel)⟩

/-- The machine with words at the start of slice SRAM and one request there. -/
def sysW (ws : List Word) (op : ReqOp) : State :=
  let s := sysR grp (rq op)
  { s with mem := Memory.putBytes s.mem sramBase (wordsBytes ws) }

/-- Pushes and pops of a queue of capacity 4 that is empty, holds an entry, is spilled with room and without, and of one with no valid
header. -/
theorem witness_AtomicsPerform_queues :
    ∀ w ∈ [(0, 4), (1, 4), (0x18020, 4), (0x48020, 4), (0, 0)], ∀ push : Bool,
      let op := if push then ReqOp.qPush [1, 2, 3, 4, 5, 6, 7, 8] 4 0x10000 else .qPop 4 8 0x10000
      let s := sysW [BitVec.ofNat 64 w.2, BitVec.ofNat 64 w.1, 0, 0, 0, 0, 0, 0] op
      let ws := memWords s sramBase 8
      let h := QHead.of ws
      (s.Inv ∧ s.syn = [] ∧ s.req? 9 = some (rq op) ∧ canPerform s (rq op) = true ∧ served s (rq op) = true ∧
        structAwake s (rq op) = true ∧ sramBase % 64 = 0 ∧ queueBad ws sramBase 0x10000 = decide (w.2 = 0) ∧
        h.spill = decide (0x8000 ≤ w.1) ∧ (h.rcount = h.cap ↔ w.1 = 0x48020 ∨ w.2 = 0) ∧ (h.qcount < 32 ↔ w.1 < 32) ∧
        (h.qcount = 0 ↔ w.1 = 0)) ∧
      Writable s sramBase (2112 + 64 * h.cap) ∧ NoReply s sramBase (2112 + 64 * h.cap) := by
  intro w hw push
  simp only [List.mem_cons, List.not_mem_nil, or_false] at hw
  rcases hw with rfl | rfl | rfl | rfl | rfl <;> cases push <;>
    exact ⟨by decide +kernel, writable_of (by decide +kernel), noReply_of (by decide +kernel) _ _⟩

/-- Puts into a bin of two slots of four records: the first record, a later one, one that closes the slot, one where the slot is busy, and
one under an invalid header. -/
theorem witness_AtomicsPerform_bins :
    ∀ w ∈ [(0x0000040100000100, 0, 0), (0x0000040100000100, 0x0000000200000000, 0), (0x0000040100000100, 0x0000000300000000, 0),
        (0x0000040100000100, 0, 1), (0, 0, 0)],
      let op := ReqOp.binPut [1, 2, 3, 4, 5, 6, 7, 8] 0x100000 4 0x10000
      let s := sysW [BitVec.ofNat 64 w.1, BitVec.ofNat 64 w.2.1, 0, 0, BitVec.ofNat 64 w.2.2, 0, 0, 0, 0x100000, 0, 0, 0, 0, 0, 0, 0] op
      let ws := memWords s sramBase 16
      let h := BinHead.of ws
      (s.Inv ∧ s.syn = [] ∧ s.req? 9 = some (rq op) ∧ canPerform s (rq op) = true ∧ served s (rq op) = true ∧
        structAwake s (rq op) = true ∧ sramBase % 128 = 0 ∧ binBad ws sramBase 0x10000 = decide (w.1 = 0) ∧
        binBusy ws h.cur = decide (w.2.2 = 1) ∧ timersAt s (homeSlice sramBase) = 0 ∧
        decide (h.fill + 1 = h.coal) = decide (w.2.1 = 0x0000000300000000)) ∧
      (∀ a ∈ Sys2Proof.Machine.descWords s 0 h.task, Apart a 8 sramBase (128 + 2048 * (h.nsm1 + 1))) ∧
      Writable s sramBase (128 + 2048 * (h.nsm1 + 1)) ∧ NoReply s sramBase (128 + 2048 * (h.nsm1 + 1)) := by
  intro w hw
  simp only [List.mem_cons, List.not_mem_nil, or_false] at hw
  rcases hw with rfl | rfl | rfl | rfl | rfl <;>
    exact ⟨by decide +kernel, by unfold Apart; decide +kernel, writable_of (by decide +kernel), noReply_of (by decide +kernel) _ _⟩

/-- A jetty of two tokens with partition 0 at both ends. -/
def jetty (count : Nat) (prst : Bool) (cons : Nat) : Jetty := ⟨3, prst, false, 0, cons, sramBase + 0x8000, 1, 0, count, 0, 0⟩

/-- A request to that jetty, and a pop of another group that is parked there. -/
def jettyReq (op : ReqOp) : Req := { rq op with pieces := [] }

def parkedPop : Req := { jettyReq (.jyPop 3 6 8 true) with id := 8, gid := 7, phase := .parked 0 }

/-- Pushes and pops at a jetty that is empty, full, reset, and none of this partition; pushes to a parked consumer. -/
theorem witness_AtomicsPerform_jettys :
    ∀ j ∈ [jetty 0 false 0, jetty 2 false 0, jetty 0 true 0, jetty 1 false 4],
      ∀ op ∈ [ReqOp.jyPush 3 1 2 4, .jyPop 3 4 8 false, .jyPop 3 4 8 true], ∀ qs ∈ [[], [parkedPop]],
        let r := jettyReq op
        let s := { sysG { grp with hold := .jetty } with jettys := [j], reqs := qs ++ [r] }
        (s.Inv ∧ s.syn = [] ∧ s.req? r.id = some r ∧ r.sp = false ∧ canPerform s r = true ∧ served s r = true ∧ structAwake s r = true ∧
          jettyServed s 3 = true ∧ heldByJetty s r 3 = false ∧ s.jetty? 3 = some j ∧ firstParked s 3 = qs.head? ∧ parkedPop.id ≠ r.id ∧
          parkedPop.gid ≠ r.gid) ∧ openB s (tokenAt j j.count) 16 = true := by
  decide +kernel

/-- A store that has been performed; a group that the wait table refused; a wait whose watch was refused. -/
theorem witness_AcknowledgementsAndRetries :
    (let r := { rq (.store []) with phase := .done, counted := true }
     let g := { grp with outst := 1 }
     let s := sysR g r
     s.req? r.id = some r ∧ r.phase = .done ∧ r.counted = true ∧ r.moved = false ∧ s.grp? r.gid = some g ∧ g.life = .resident ∧
       (∀ x ∈ s.groups, x.gid = r.gid → x.live ≠ 0) ∧ ∀ o ∈ s.reqs, sameInstr o r = true → o.counted = true → o.id = r.id) ∧
    (let g := { grp with retryAt := 64 }
     let s := { sysG g with now := 64 }
     s.grp? g.gid = some g ∧ g.retryAt ≤ s.now) ∧
    let r := { rq (.waitGe 5 false) with phase := .rearm 64 }
    let s := { sysR grp r with now := 64 }
    s.req? r.id = some r ∧ r.phase = .rearm 64 ∧ 64 ≤ s.now ∧ waitTable s r.core < 64 := by
  decide +kernel

/-- A line of code that die 0 has checked, held by no core or by core 0. -/
def codeLine (mask : BitVec 48) : ILine := ⟨0, sramBase + 0x800, 0x100800, 0, mask⟩

/-- The kernel of the tests with its code in an executable page, its group, and that line. -/
def sysCode (mask : BitVec 48) : State :=
  let l := { loaderLaunch 0 with hdr := { (loaderLaunch 0).hdr with codebase := 0x100800, tagbase := 0x100400 } }
  { sysG grp with launches := [l], ilines := [codeLine mask], tlb := [{ page with x := true }, { page with core := some 1, x := true }] }

/-- Demand fills of the checked line, for two cores, and of a line without a page; a prefetch of a line that the core holds, of one that it does not and
of one without a page; a walk that finds its page and one that does not; a group that passes over. -/
theorem witness_FillsWalksAndPassOver :
    (∀ va ∈ [0x100800, 0x500000],
      let s := { sysCode 0 with fills := [⟨0, 0, 2, va⟩, ⟨0, 1, 2, va⟩] }
      s.syn = [] ∧ (s.fills.find? fun x => x.die == 0) = some ⟨0, 0, 2, va⟩ ∧ s.grp? 2 = some grp ∧ va % 128 = 0 ∧
        (match codeHdr s grp with
          | some h => awakeWords s (fillWalks s 0 0 0 va h.codebase h.tagbase ++ fillReads s 0 0 0 va h.codebase h.tagbase)
          | none => false) = true ∧
        (match fillLine s 0 0 0 va 0x100800 0x100400 with
          | .good _ _ => decide (va = 0x100800)
          | .bad _ => decide (va = 0x500000)) = true) ∧
    (∀ x ∈ [(0x100800, true), (0x100800, false), (0x500000, false)],
      let w : Prefetch := ⟨0, 0, 0, x.1, 0x100800, 0x101800, 0x100400⟩
      let s := { sysCode (if x.2 then 1 else 0) with prefetches := [w] }
      (s.prefetches.find? fun y => y.die == 0) = some w ∧ 0 = dieOfCore w.core ∧ w.va % 128 = 0 ∧
        (iline? s w.core (s.part w.part).asidbase w.va).isSome = x.2 ∧
        awakeWords s (fillWalks s 0 w.core w.part w.va w.lo w.tagbase ++ fillReads s 0 w.core w.part w.va w.lo w.tagbase) = true) ∧
    (∀ va ∈ [0x100000, 0x500000],
      let w : Prefetch := ⟨0, 0, 0, va, 0, 0, 0⟩
      let s := { sysG grp with walks := [w] }
      s.syn = [] ∧ (s.walks.find? fun x => x.die == 0) = some w ∧
        awakeWords s (transReads s 0 (some w.core) w.part (BitVec.ofNat 64 w.va) needR) = true) ∧
    let g := { grp with po := true, active := 0 }
    let i := Instr.addUr H0 ⟨5, 3, 4, 7⟩
    let s := { State.reset.withFetchWord 64 0xA0000A1880000007 with groups := [g] }
    (s.grp? g.gid = some g ∧ mayFetch s g = true ∧ g.po = true ∧ g.active = 0 ∧ fetch s g = .instr i ∧ isCFormat i = false) ∧
      ∀ w, i ≠ .reservedMajor w :=
  ⟨by decide +kernel, by decide +kernel, by decide +kernel, by decide +kernel, fun _ h => by cases h⟩

/-! ### Every statement's hypotheses are met: launches -/

/-- The machine whose command queue holds one command with the given words. -/
def withCommand (ws : List Word) : State :=
  { sys.modPart 0 fun q => { q with cmdCount := 1 } with mem := Memory.putBytes sys.mem 0x20000 (wordsBytes ws) }

/-- A send while the partition resets, while its slots are taken, of a stop command, and of a short one; stop, restart and reserved
commands at the head. -/
theorem witness_CommandsActed :
    (sys.Inv ∧ sys.syn = [] ∧ reachesPart sys 0 = true ∧ (sys.part 0).state ≠ .resetting ∧ (sys.part 0).cmdCount < 128 ∧
      commandNeeds (natBytes 8 0x0200000000000007) ≤ (natBytes 8 0x0200000000000007).length ∧
      (natBytes 8 0x0200000000000007).length ≤ 256 ∧ ¬(commandNeeds [0] ≤ 1) ∧ sys.mgmt.stopped = false ∧
      awake sys ((sys.part 0).cmdq + 256 * 0) 8 = true) ∧
    NoWaiter sys ((sys.part 0).cmdq + 256 * 0) 8 ∧
    (let s := sys.modPart 0 fun q => { q with state := .resetting }
     s.Inv ∧ reachesPart s 0 = true ∧ (s.part 0).state = .resetting) ∧
    (let s := sys.modPart 0 fun q => { q with cmdCount := 128 }
     reachesPart s 0 = true ∧ 128 ≤ (s.part 0).cmdCount) ∧
    mayTake (withCommand [0x0200000000000007]) 0 2 = true ∧ mayTake (withCommand [0x0300000000000007]) 0 3 = true ∧
    mayTake (withCommand [0x0900000000000007]) 0 0 = true :=
  ⟨by decide +kernel, noWaiter_of (by decide +kernel), by decide +kernel, by decide +kernel, by decide +kernel, by decide +kernel,
    by decide +kernel⟩

/-- A launch is accepted. -/
abbrev accepts {ε : Type} (x : Except ε Launch) : Bool :=
  match x with
  | .ok _ => true
  | .error _ => false

/-- A start of task 0. -/
def start : Start where
  id := 5
  slice := 0
  part := 0
  task := 0
  teams := 1
  cls := none
  desc := taskWords
  args := []
  source := .slipway 0 0 0
  held := none

/-- An add under the condition eq that starts task 0 where it holds, with an argument for which it holds and one for which it fails; one in a
partition that is resetting; one whose slice has no slot left, one whose descriptor has the team size 0, and one whose descriptor lies in a slice
in retention. -/
theorem witness_ContinuationAtomics :
    (∀ y ∈ [(0x5A4B010200001005 : Word), 0],
      let r := rq (.atc 0 0 8 5 y 1 0 0x100000 6 7)
      let s := sysR grp r
      (s.Inv ∧ s.syn = [] ∧ s.req? r.id = some r ∧ canPerform s r = true ∧ served s r = true ∧ (s.part r.part).state ≠ .resetting ∧
        mayClaim s 64 r.part (slipUsed s (homeSlice sramBase)) = true ∧ s.grp? r.gid = some grp ∧ r.drop = false ∧
        (let d := readDesc s r.part 0
         descSize d ≠ 0 ∧ descSize d ≤ 3072 ∧ descTeams d ≠ 0) ∧ awakeWords s (Sys2Proof.Machine.descWords s r.part 0) = true ∧
        atcCond 8 0 (atomicNew 0 8 0x5A4B010200001000 5 y) y = decide (y ≠ 0)) ∧ Writable s sramBase 8 ∧ NoReply s sramBase 8) ∧
    (let r := rq (.atc 0 0 8 5 0 1 0 0x100000 6 7)
     let s := sysR grp r
     let meets := fun (u : State) => u.Inv ∧ u.syn = [] ∧ u.req? r.id = some r ∧ canPerform u r = true ∧ served u r = true ∧
       u.grp? r.gid = some grp
     let room := fun (u : State) => mayClaim u 64 r.part (slipUsed u (homeSlice sramBase))
     let resets := s.modPart 0 fun q => { q with state := .resetting }
     let full := { s with starts := List.replicate 64 { start with slice := homeSlice sramBase } }
     let small := { s with mem := Memory.putBytes s.mem (descAddr s 0 0) (List.replicate 32 0) }
     let sleeps := { s with mgmt := { s.mgmt with ready := s.mgmt.ready &&& ~~~(BitVec.ofNat _ (2 ^ 134)) } }
     r.drop = false ∧ (meets sleeps ∧ room sleeps = true ∧ awakeWords sleeps (Sys2Proof.Machine.descWords sleeps r.part 0) = false) ∧ meets resets ∧ meets full ∧ meets small ∧ (full.part 0).state ≠ .resetting ∧ room full = false ∧
     (small.part 0).state ≠ .resetting ∧ room small = true ∧ descSize (readDesc small r.part 0) = 0 ∧
       awakeWords small (Sys2Proof.Machine.descWords small r.part 0) = true) := by
  refine ⟨fun y h => ?_, by decide +kernel⟩
  simp only [List.mem_cons, List.not_mem_nil, or_false] at h
  rcases h with rfl | rfl <;> exact ⟨by decide +kernel, writable_of (by decide +kernel), noReply_of (by decide +kernel) _ _⟩

/-- Launches that their checks accept and refuse, from a command, a port entry, a Slipway start and a bin, where the class queue has a place
and where it is full; held ones, of which the command's enters first. -/
theorem witness_LaunchesEnterQueue :
    let reads := fun (s : State) (rd : List Nat × List Nat) => awakeWords s (rd.1 ++ rd.2)
    let full := fun (s : State) => s.modPart 0 fun q => { q with queues := List.replicate 4 (List.replicate 1024 (.launch 0)) }
    (∀ ws ∈ [commandWords, [0x0100000000000007, 0, 0, 0, 0]], ∀ f : Bool,
      let s := if f then full (withCommand ws) else withCommand ws
      mayTake s 0 1 = true ∧ accepts (recordChecked s 0 .group ((headCommand s 0).drop 1)) = decide (ws = commandWords) ∧
        reads s (recordReads s 0 ((headCommand s 0).drop 1)) = true ∧ mustWait s 0 1 = f) ∧
    (∀ t ∈ [0, 9],
      let e := { portEntry with task := t }
      let s := { sysG grp with ports := [e] }
      nextPort s 0 = some e ∧ (∀ r ∈ s.reqs, r.gid ≠ e.gid) ∧ (s.part e.part).state ≠ .resetting ∧
        accepts (portChecked s e) = decide (t = 0) ∧ reads s (portReads s e) = true) ∧
    (∀ t ∈ [0, 9],
      let x := { start with task := t }
      let s := { sysG grp with starts := [x], binLaunches := [x] }
      nextStart s 0 0 = some x ∧ nextBinStart s 0 0 = some x ∧ x.held = none ∧ (s.part 0).state ≠ .resetting ∧
        sourceAwake s x.source = true ∧ accepts (startChecked s x) = decide (t = 0) ∧ reads s (startReads s x) = true) ∧
    let l := loaderLaunch 0
    let e := { portEntry with held := some l }
    let x := { start with held := some l }
    (let s := sys.modPart 0 fun q => { q with cmdHeld := some l, cmdCount := 1 }
     let s := { s with ports := [e] }
     mayEnter s 0 l = true ∧ (s.part l.part).cmdHeld = some l ∧ mayEnter s 1 l = false) ∧
    (let s := { sysG grp with ports := [e] }
     (s.ports.find? fun x => x.die == 0 && x.held.any (mayEnter s 1)) = some e ∧ e.held = some l) ∧
    (let s := { sysG grp with starts := [x] }
     mayEnter s 2 l = true ∧ nextStart s 0 l.part = some x ∧ x.held = some l) ∧
    let s := { sysG grp with binLaunches := [x] }
    mayEnter s 3 l = true ∧ nextBinStart s 0 l.part = some x ∧ x.held = some l := by
  decide +kernel

/-- Partition 0 with the kernel's launch of two teams at the head of its class queue, one placed. -/
def sysQueue (next : Nat) : State :=
  let l := { loaderLaunch 7 with teams := 2, next := next }
  { sys.modPart 0 fun q => { q with queues := [[.launch 7], [], [], []] } with launches := [l], nextId := 20 }

/-- What `ServesClass` asks of a state where every higher class is empty, as a computation. -/
abbrev servesB (s : State) (p c : Nat) : Bool :=
  (s.part p).state == .running && !s.mgmt.stopped && decide (c ≤ 3) && (s.teams.all fun x => x.part != p || x.status != .restoring) &&
    decide (s.teams.map Team.tid).Nodup && (s.teams.all fun x => s.teams.all fun y => x.launch != y.launch || x.teamId != y.teamId || x == y)

theorem serves_of {s : State} {p c : Nat} (h : servesB s p c = true)
    (high : ∀ k, c < k → k ≤ 3 → ∀ e es h, (s.part p).queues.getD k [] = e :: es → headOf s e = some h → Waits s p k (h.incoming s)) :
    ServesClass s p c := by
  simp only [servesB, Bool.and_eq_true, decide_eq_true_eq, List.all_eq_true, Bool.or_eq_true, bne_iff_ne, beq_iff_eq, Bool.not_eq_true'] at h
  obtain ⟨⟨⟨⟨⟨h1, h2⟩, h3⟩, h4⟩, h5⟩, h6⟩ := h
  refine ⟨⟨h1, h2, h3⟩, fun x hx hp => (h4 x hx).resolve_left fun k => k hp, ⟨h5, fun x y hx hy a b => ?_⟩, high⟩
  rcases h6 x hx y hy with (k | k) | k
  · exact absurd a k
  · exact absurd b k
  · exact k

theorem serves_top {s : State} {p c : Nat} (h : servesB s p c = true)
    (e : ((List.range 4).all fun k => decide (k ≤ c) || (s.part p).queues.getD k [] == []) = true) : ServesClass s p c :=
  serves_of h fun k hk h3 x xs y hx => by
    have := List.all_eq_true.mp e k (List.mem_range.mpr (by omega))
    simp only [Bool.or_eq_true, decide_eq_true_eq, beq_iff_eq] at this
    rcases this with this | this
    · omega
    · rw [this] at hx; cases hx

/-- The head of class 0 is a launch, of which the next team is not, or is, its last. -/
theorem witness_TeamPlaced : ∀ next ∈ [0, 1],
    let s := sysQueue next
    let l := { loaderLaunch 7 with teams := 2, next := next }
    ServesClass s 0 0 ∧ (s.part 0).queues.getD 0 [] = .launch l.lid :: [] ∧ s.launch? l.lid = some l ∧
      bestPlace (places s (s.part 0) (incomingNew l)) = some [0] := by
  intro next h
  simp only [List.mem_cons, List.not_mem_nil, or_false] at h
  rcases h with rfl | rfl <;>
    exact ⟨serves_top (by decide +kernel) (by decide +kernel), by decide +kernel, by decide +kernel, by decide +kernel⟩

/-- Core 0 holds a team that is stopping; the head of class 1 needs a pair, the head of class 0 a core. -/
def sysLower : State :=
  { sys.modPart 0 fun q => { q with queues := [[.launch 7], [.launch 8], [], []] } with
    launches := [loaderLaunch 0, loaderLaunch 7, { loaderLaunch 8 with cls := 1, teamSize := 1600 }]
    teams := [{ newTeam 1 (loaderLaunch 0) [0] with status := .discarding }]
    coreWords := [(0, (loaderLaunch 0).hdr.partword)]
    nextId := 20 }

/-- A lower class is served where the higher head waits. -/
theorem witness_TeamPlaced_lower :
    ServesClass sysLower 0 0 ∧ (sysLower.part 0).queues.getD 0 [] = .launch 7 :: [] ∧ sysLower.launch? 7 = some (loaderLaunch 7) ∧
      bestPlace (places sysLower (sysLower.part 0) (incomingNew (loaderLaunch 7))) = some [1] := by
  refine ⟨serves_of (by decide +kernel) fun k hk h3 e es h he hh => ?_, by decide +kernel, by decide +kernel, by decide +kernel⟩
  have q : (sysLower.part 0).queues = [[.launch 7], [.launch 8], [], []] := by decide +kernel
  rw [q] at he
  have : k = 1 ∨ k = 2 ∨ k = 3 := by omega
  rcases this with rfl | rfl | rfl
  · cases he
    have f : headOf sysLower (.launch 8) = some (.fresh { loaderLaunch 8 with cls := 1, teamSize := 1600 }) := by decide +kernel
    rw [f] at hh
    cases hh
    exact ⟨by decide +kernel, .inl ⟨{ newTeam 1 (loaderLaunch 0) [0] with status := .discarding }, List.mem_singleton.mpr rfl, rfl, rfl⟩⟩
  · cases he
  · cases he

/-- A team that was discarded while a lane of it was parked, and its group. -/
def savedTeam : Team := { newTeam 1 (loaderLaunch 0) [] with status := .saved, owed := [(2, ⟨0, 0x40, 4, [0], 3, 2, false, false⟩)] }
def savedGroup : Group := { grpV [5] 6 with life := .saved }
def sysSaved : State :=
  { sys.modPart 0 fun q => { q with queues := [[.team 1], [], [], []] } with
    launches := [loaderLaunch 0]
    teams := [savedTeam]
    groups := [savedGroup]
    nextId := 20 }

/-- It is the head of class 0, and its tables have room. -/
theorem witness_TeamPlaced_saved :
    ServesClass sysSaved 0 0 ∧ (sysSaved.part 0).queues.getD 0 [] = .team 1 :: [] ∧ sysSaved.team? 1 = some savedTeam ∧
      sysSaved.launch? savedTeam.launch = some (loaderLaunch 0) ∧ (loaderLaunch 0).cls = 0 ∧
      bestPlace (places sysSaved (sysSaved.part 0) (incomingSaved sysSaved (loaderLaunch 0) savedTeam)) = some [0] ∧
      (∀ g ∈ sysSaved.groups, g.hold = .none ∧ g.life = .saved ∧ g.groupId < (loaderLaunch 0).teamSize / (loaderLaunch 0).hdr.width ∧
        ∀ x ∈ sysSaved.groups, x = g) ∧ OwedFit sysSaved savedTeam [0] := by
  refine ⟨serves_top (by decide +kernel) (by decide +kernel), by decide +kernel, by decide +kernel, by decide +kernel, rfl, by decide +kernel,
    by decide +kernel, fun o ho => ⟨savedGroup, ?_⟩, by decide +kernel⟩
  cases List.mem_singleton.mp ho
  exact ⟨by decide +kernel, rfl⟩

/-- It has been placed and still owes its load. -/
theorem witness_TeamPlaced_restoring :
    let tm := { savedTeam with status := .restoring, cores := [0] }
    let s := { sysG (grpV [5] 6) with teams := [tm] }
    s.team? tm.tid = some tm ∧ tm.part = 0 ∧ (∀ x ∈ s.teams, x = tm) ∧ (s.part 0).state = .running ∧ s.mgmt.stopped = false ∧
      (∀ k, k < 4 → (s.part 0).queues.getD k [] = []) ∧ OwedFit s tm tm.cores := by
  refine ⟨by decide +kernel, rfl, by decide +kernel, by decide +kernel, rfl, by decide +kernel, fun o ho => ⟨grpV [5] 6, ?_⟩, by decide +kernel⟩
  cases List.mem_singleton.mp ho
  exact ⟨by decide +kernel, rfl⟩

/-- Both cores of the partition hold a team of class 0, and the head of class 1 waits. -/
def lowTeam (tid core : Nat) : Team := { newTeam tid (loaderLaunch 0) [core] with teamId := core }
def sysFull : State :=
  { sys.modPart 0 fun q => { q with queues := [[], [.launch 7], [], []] } with
    launches := [loaderLaunch 0, { loaderLaunch 7 with cls := 1 }]
    teams := [lowTeam 1 0, lowTeam 2 1]
    groups := [newGroup 11 1 (loaderLaunch 0) 0 0 0 0 0, newGroup 12 2 (loaderLaunch 0) 0 1 0 0 0]
    coreWords := [(0, (loaderLaunch 0).hdr.partword), (1, (loaderLaunch 0).hdr.partword)]
    nextId := 20 }

theorem victim_of {s : State} {p c : Nat} {site : List Nat} {v : Team}
    (h : (s.teams.filter fun t => decide (t.part = p ∧ (t.status = .placed ∨ t.status = .restoring) ∧
      ((s.launch? t.launch).map Launch.cls).getD 0 < c ∧ (∃ x, x ∈ t.cores ∧ x ∈ site) ∧ ∃ g, g ∈ s.groups ∧ g.team = t.tid ∧ g.life = .resident)) =
        [v]) : VictimsOf s p c site [v] := by
  refine ⟨fun t => ?_, List.pairwise_singleton _ _⟩
  rw [← h, List.mem_filter, decide_eq_true_eq]

/-- One discard on core 0 makes room. -/
theorem witness_TeamPlaced_discards :
    let n := incomingNew { loaderLaunch 7 with cls := 1 }
    ServesClass sysFull 0 1 ∧ (sysFull.part 0).queues.getD 1 [] = .launch 7 :: [] ∧
      headOf sysFull (.launch 7) = some (.fresh { loaderLaunch 7 with cls := 1 }) ∧ places sysFull (sysFull.part 0) n = [] ∧
      (∀ x ∈ sysFull.teams, x.status ≠ .discarding) ∧ [0] ∈ sitesOf (sysFull.part 0) n ∧ VictimsOf sysFull 0 1 [0] [lowTeam 1 0] ∧
      fitsOn (without [lowTeam 1 0] sysFull) n [0] = true ∧
      ∀ (other : List Nat) (j : Nat), 0 < j → 1 < j ∨ (1 = j ∧ [0].headD 0 ≤ other.headD 0) :=
  ⟨serves_top (by decide +kernel) (by decide +kernel), by decide +kernel, by decide +kernel, by decide +kernel, by decide +kernel,
    by decide +kernel, victim_of (by decide +kernel), by decide +kernel, fun _ j h => by
      rcases Nat.lt_or_ge 1 j with k | k
      · exact .inl k
      · exact .inr ⟨by omega, Nat.zero_le _⟩⟩

/-- A launch that has completed, or that a fault has ended, from a command or from slot 1 of a bin at the end of the page, without a done
counter or with one in the mapped page. -/
def doneLaunch (ended : Bool) (ctr : Nat) (bin : Bool) : Launch :=
  { loaderLaunch 0 with
    ended := ended, retired := if ended then 0 else 1, donectr := ctr
    source := if bin then .bin (homeSlice (sramBase + 0x8000)) (sramBase + 0x8000) 1 else .command 7 }

def sysDone (ended : Bool) (ctr : Nat) (bin : Bool) : State :=
  { sys with
    launches := [doneLaunch ended ctr bin]
    teams := [{ newTeam 1 (loaderLaunch 0) [0] with status := .retired }] }

theorem ok_translate {s : State} {die part : Nat} {core : Option Nat} {va : Word} {need : Need} {pa : Nat}
    (h : (match translate s die core part va need with
      | .ok a _ => a == pa
      | .fail _ => false) = true) : ∃ e, translate s die core part va need = .ok pa e := by
  cases k : translate s die core part va need with
  | ok a e => rw [k] at h; exact ⟨e, by rw [beq_iff_eq.mp h]⟩
  | fail f => rw [k] at h; cases h

/-- A team that stops for a discard; one whose group has exited; launches that have completed or that a fault has ended. -/
theorem witness_TeamsAndLaunchesEnd :
    (let tm := { newTeam 1 (loaderLaunch 0) [0] with status := .discarding }
     let s := { sysG grp with teams := [tm] }
     s.team? 1 = some tm ∧ mayDiscard s tm = true) ∧
    (let tm := newTeam 1 (loaderLaunch 0) [0]
     let s := sysG { grp with life := .gone, live := 0 }
     s.team? 1 = some tm ∧ mayRetire s tm = true) ∧
    ∀ ended bin : Bool, ∀ ctr ∈ [0, 0x100200],
      let s := sysDone ended ctr bin
      let l := doneLaunch ended ctr bin
      s.Inv ∧ s.syn = [] ∧ s.launch? 0 = some l ∧ l.ended = ended ∧ (ended = false → l.retired = l.teams) ∧
        (∀ x ∈ s.teams, x.launch = 0 → x.status = .retired) ∧ countersZero s 0 = true ∧ launchBusy s 0 = false ∧ doneAwake s l = true := by
  decide +kernel

/-- The further hypotheses of a bin's slot and of a done counter. -/
theorem witness_TeamsAndLaunchesEnd_words (ended bin : Bool) :
    let s := sysDone ended 0x100200 bin
    ((∀ a b c, (doneLaunch ended 0x100200 false).source ≠ .bin a b c) ∧
      (doneLaunch ended 0x100200 true).source = .bin (homeSlice (sramBase + 0x8000)) (sramBase + 0x8000) 1) ∧
    (∃ e, translate s 0 none 0 (BitVec.ofNat 64 0x100200) needRW = .ok (sramBase + 0x200) e) ∧ NoWaiter s (sramBase + 0x200) 8 ∧
    NoWaiter s (sramBase + 0x8000 + 32) 8 ∧ Apart (sramBase + 0x200) 8 (sramBase + 0x8000 + 32) 8 ∧
    bytesNat (Memory.bytes s.mem (sramBase + 0x200) 8) + 0x100000001 < 2 ^ 64 := by
  cases ended <;> cases bin <;>
    exact ⟨⟨(by intro a b c h; cases h), rfl⟩, ok_translate (by decide +kernel), noWaiter_of (by decide +kernel), noWaiter_of (by decide +kernel),
      by unfold Apart; decide +kernel, by decide +kernel⟩

/-- The machine with a reset command at the head, and a group, a launch, a start and a bin's launch of the partition. -/
def sysReset : State :=
  { withCommand [0x0400000000000007] with
    groups := [grp], launches := [loaderLaunch 0], starts := [start]
    binLaunches := [{ start with source := .bin (homeSlice (sramBase + 0x8000)) (sramBase + 0x8000) 1 }] }

/-- A reset by command and one by Halone, whose sources take work; the end of a reset, which waits for an entry. -/
theorem witness_PartitionResets :
    (mayTake sysReset 0 4 = true ∧ sysReset.mgmt.stage = .halone ∧ inSession sysReset = true ∧ sysReset.mgmt.waiting = [] ∧
      configured sysReset 0 = true ∧ (sysReset.part 0).state ≠ .resetting ∧ sysReset.syn = []) ∧
    (∀ src ∈ (sysReset.starts ++ sysReset.binLaunches).map Start.source ++ sysReset.launches.map Launch.source, sourceAwake sysReset src = true) ∧
    (let s := withCommand [0x0400000000000007]
     mayTake s 0 4 = true ∧ (∀ x ∈ s.starts ++ s.binLaunches, x.part ≠ 0) ∧ ∀ l ∈ s.launches, l.part = 0 → reportedDrop l = false) ∧
    (changedPart (.setWatchdogPeriod 0 5) = some 0 ∧ isCommand (.setWatchdogPeriod 0 5) = true ∧
      waitsForSlice sys (.setWatchdogPeriod 0 5) = false) ∧
    (let s := sys.modPart 0 fun q => { q with pendEntries := [(none, { report := launchReport (.slipway 0 0 0) 0 17 })] }
     s.mgmt.stopped = false ∧ ∃ q, s.parts[0]? = some q ∧ decide (q.num = 0 ∧ (∃ e ∈ q.pendEntries, e.1 = none)) = true) ∧
    let s := sys.modPart 0 fun q => { q with state := .resetting }
    portReady s = true ∧ ∃ q, s.parts[0]? = some q ∧
      decide (q.num = 0 ∧ q.state = .resetting ∧ q.reachable = true ∧ q.pendEntries = [] ∧ q.events[1]? = some (.start 1 65536)) = true :=
  ⟨by decide +kernel, by decide +kernel, by decide +kernel, by decide +kernel, ⟨by decide +kernel, some_of (by decide +kernel)⟩,
    by decide +kernel, some_of (by decide +kernel)⟩

/-- A bin header at 0x300000: task 0, up to 4 records a slot, two slots, with two records in slot 0. -/
def binWords : List Word := [0x0000040100000000, 0x0000000200000000, 0, 0, 0, 0, 0, 0, 0x100400, 0, 0, 0, 0, 0, 0, 0]

/-- An event timer that has run out; a watchdog that is due over a group at a barrier; an entry that waits for space. -/
theorem witness_TimersAndReplies_timers :
    (let s := sys.modPart 0 fun q => { q with events := q.events.set 1 ⟨2, 65536, 1, some 0⟩ }
     ∃ e, (s.part 0).events[1]? = some e ∧ decide (e.timer = some 0 ∧ e.count ≠ 0 ∧ maySend s (s.part 0) 1 = true) = true) ∧
    (let g := { grp with hold := .bar 0 }
     let s := (sysG g).modPart 0 fun q => { q with wdPeriod := 1, wdCounts := [65536, 0, 0, 0] }
     wdDue s 0 = true ∧ g ∈ s.groups ∧ parkedNoRem s g = true) ∧
    (let e : Entry := { report := ⟨.page, 0, 0, 0, 0, 0, 0⟩ }
     ∀ full : Bool, let s := (sysG { grp with hold := .pagePending }).modPart 0 fun q => { q with pendEntries := [(some 2, e), (none, e)] }
      let s := if full then { s with mem := Memory.putBytes s.mem 0x10000 (natBytes 8 512) } else s
      (∀ q, s.parts[0]? = some q → q.num = 0) ∧ (s.part 0).pendEntries = [(some 2, e), (none, e)] ∧ fqAwake s 0 = true ∧
        fqFull s 0 = full ∧ s.reqs = []) := by
  refine ⟨some_of (by decide +kernel), by decide +kernel, fun full => ⟨fun q h => ?_, by cases full <;> decide +kernel⟩⟩
  cases full <;> exact Option.some.inj h ▸ rfl

/-- A reply to a group that is parked on entry 0, resident or saved: 1, and 2. -/
theorem witness_TimersAndReplies_replies :
    (∀ life ∈ [Life.resident, .saved], let g := { grp with hold := .page 0, life := life }
     let s := sysG g
     s.Inv ∧ s.syn = [] ∧ (s.groups.filter fun x => x.gid == g.gid) = [g] ∧ g.part = 0 ∧ g.life = life ∧ g.hold = .page 0 ∧
        reachesPart s 0 = true ∧ awakeAt s (replyAddr (s.part 0) 0) = true ∧ fqWritten s 0 ≤ 0 + 512 ∧ (1 : Word) ≠ 0 ∧ (2 : Word) ≠ 0 ∧ (∀ x ∈ s.groups, x.gid = g.gid) ∧ s.reqs = []) ∧
    Writable sys (replyAddr (sys.part 0) 0) 8 := by
  refine ⟨by decide +kernel, ?_⟩
  unfold Writable
  decide +kernel

/-- A bin timer that has run out over a slot with the given w1. -/
def sysBin (w : Word) : State :=
  { sys with binTimers := [⟨3, 0x300000, 0⟩], mem := Memory.putBytes sys.mem 0x300000 (wordsBytes (binWords.set 1 w)) }

/-- An empty slot, and one with two records. -/
theorem witness_TimersAndReplies_bins :
    (∀ n ∈ [0, 0x0000000200000000], let w := BitVec.ofNat 64 n
      ((sysBin w).binTimers.find? fun y => y.id == 3) = some ⟨3, 0x300000, 0⟩ ∧ (sysBin w).Inv ∧ (sysBin w).syn = [] ∧
        (BinHead.of (structWords (sysBin w) 0x300000 2)).remain = 0 ∧
        ((BinHead.of (structWords (sysBin w) 0x300000 2)).fill = 0 ↔ w = 0) ∧
        awakeWords (sysBin w) ([0x300000, 0x300038] ++ Sys2Proof.Machine.descWords (sysBin w) 0 0) = true) ∧
    NoWaiter (sysBin 0x0000000200000000) 0x300000 72 :=
  ⟨by decide +kernel, noWaiter_of (by decide +kernel)⟩

/-! ### Every statement's hypotheses are met: engines -/

/-- A copy of 256 bytes in one part, converted as `conv` says, with its counter at 0x800 of scratchpad or in the mapped page. -/
def copy (out : Bool) (conv cs : Nat) : CopyCmd where
  id := 4
  seq := 0
  pc := 0
  gid := 2
  launch := 0
  team := 1
  part := 0
  pair := 0
  out := out
  conv := conv
  m := 1
  d := 1
  cs := cs
  ctr := if cs = 1 then 0x800 else sramBase + 0x800
  ctrVa := 0
  va := 0x100000
  off := 0
  rows := 1
  pitch := 256
  rowlen := 256
  sppitch := 256
  leaves := [(0x100000, 0x10000, sramBase)]
  active := true
  parts := []
  steps := 0

/-- A copy that waits; parts of copies in without and with a conversion, and of copies out, without a counter, with one in scratchpad and
with a device counter; a copy all of whose steps are made. -/
theorem witness_CopiesPerformed :
    (let c := { copy false 0 0 with active := false }
     let s := { sysG grp with copies := [c] }
     (s.copies.filter fun x => x.pair == c.pair).find? (fun x => !x.active) = some c ∧
       (s.copies.filter fun x => x.pair == c.pair && x.active).length < 8) ∧
    (∀ conv ∈ [0, 1, 2, 3], ∀ cs ∈ [0, 1, 2], ∀ out : Bool,
      let c := copy out conv cs
      let s := { sysG grp with copies := [c] }
      (s.copies.find? fun x => x.id == c.id) = some c ∧ c.active = true ∧ c.parts = [] ∧ c.steps ≤ 0 ∧ 0 < c.total ∧
        cmdHeld s c.team c.seq c.id = false ∧ c.awake s 0 = true ∧ s.Inv ∧ s.syn = [] ∧
        s.team? c.team = some (newTeam 1 (loaderLaunch 0) [0]) ∧
        (conv = 0 → pageSpans c.leaves (256 / 65536 + 2) (c.devRow (0 / c.perRow) + 0 % c.perRow * 4096) (min 4096 (c.dl - 0)) = [(sramBase, 256)]) ∧
        bytesNat (Memory.bytes s.mem (sramBase + 0x800) 8) + 256 < 2 ^ 64) ∧
    let c := { copy false 0 0 with steps := 1 }
    let s := { sysG grp with copies := [c] }
    (s.copies.find? fun x => x.id == c.id) = some c ∧ c.total ≤ c.steps := by
  decide +kernel

/-- The further hypotheses of a part that is signalled in scratchpad, and of the places in memory. -/
theorem witness_CopiesPerformed_places :
    (newTeam 1 (loaderLaunch 0) [0]).spSyn = [] ∧
    (∀ conv ∈ [0, 1, 2, 3], ∀ bs ∈ [List.replicate 256 (0xFF : Byte)],
      bytesNat (Memory.bytes (Memory.putBytes [] 0 bs) 0x800 8) + (copy false conv 1).dl < 2 ^ 64) ∧
    NoWaiter { sysG grp with copies := [copy true 0 2] } sramBase 256 ∧
    NoWaiter { sysG grp with copies := [copy true 0 2] } (sramBase + 0x800) 8 ∧ Apart sramBase 256 (sramBase + 0x800) 8 :=
  ⟨rfl, by decide +kernel, noWaiter_of (by decide +kernel), noWaiter_of (by decide +kernel), by unfold Apart; decide +kernel⟩

/-- A matrix command of the group. -/
def matrix (op : MxOp) : MxCmd where
  id := 4
  seq := 0
  pc := 0
  gid := 2
  launch := 0
  team := 1
  part := 0
  pair := 0
  slotNo := 0
  op := op
  k := 0
  finished := false

/-- Every kind of matrix command as the one served next, and one that has finished. -/
theorem witness_MatrixCommandsPerformed :
    (∀ op ∈ [MxOp.mzero 3 true, .mld 3 true 0 256, .mst 3 0 1 1 0 256, .mst 3 1 1 1 0 128,
        .mst 3 2 1 1 0 0x4000, .mloop false ⟨0, true, false, 3, 2, 4, 1, 3, 16⟩ 0 0 32 32 0 0 0,
        .mloop true ⟨0, true, true, 3, 2, 4, 1, 3, 16⟩ 0 0 32 32 0 0 0, .osmMax 3 0 512 1024, .osmAcc 3 0],
      let c := matrix op
      let s := { atShare grp with mxcmds := [c] }
      (∃ p, nextServed s (engineOf s 0) = some p ∧ decide (p.2 = c) = true) ∧ (s.mxcmds.filter fun x => x.id == c.id) = [c] ∧
        ∃ tm, s.team? c.team = some tm ∧ decide (tm.spSyn = [] ∧ Memory.wf tm.sp ∧ c.op.tile < tm.tiles.length) = true) ∧
    let c := { matrix (.mzero 3 true) with finished := true }
    let s := { atShare grp with mxcmds := [c] }
    (s.mxcmds.find? fun x => x.id == c.id) = some c ∧ c.finished = true := by
  refine ⟨?_, by decide +kernel⟩
  intro op h
  simp only [List.mem_cons, List.not_mem_nil, or_false] at h
  rcases h with rfl | rfl | rfl | rfl | rfl | rfl | rfl | rfl | rfl <;>
    exact ⟨some_of (by decide +kernel), by decide +kernel, some_of (by decide +kernel)⟩

/-! ### A machine that walks its tables -/

/-- A computed answer is there. -/
abbrev isOk {ε α : Type} [DecidableEq α] (x : Except ε α) (a : α) : Bool :=
  match x with
  | .ok b => decide (b = a)
  | .error _ => false

theorem ok_of {ε α : Type} [DecidableEq α] {x : Except ε α} {a : α} (h : isOk x a = true) : x = .ok a := by
  cases x with
  | ok b => rw [of_decide_eq_true h]
  | error e => cases h

theorem any_ok {ε α : Type} {x : Except ε α} (h : x.toOption.isSome = true) : ∃ a, x = .ok a := by
  cases x with
  | ok b => exact ⟨b, rfl⟩
  | error e => cases h

/-- Memory cells for some bytes from an address up. -/
def cells (a : Nat) (bs : List Byte) : List Host.Cell := (bs.zipIdx.map fun x => (a + x.2, x.1)).filter fun c => c.2 != 0

/-- The machine with the group whose tables, at 0x40000 and 0x48000, map the virtual addresses below 2^30 to slice SRAM; no cache holds a
translation. -/
def sysT (g : Group) : State :=
  let s := (sysG g).modPart 0 fun q => { q with ptroot := 0x40000 }
  { s with mem := cells 0x40000 (wordsBytes [0x48003]) ++ cells 0x48000 (wordsBytes [0xF00000004D]), tlb := [] }

/-- The machine has those tables. -/
def tabled (s : State) : Bool :=
  decide ((s.part 0).ptroot = 0x40000 ∧ s.tlb = [] ∧ s.syn = []) && decide (devWord s 0x40000 = 0x48003) &&
    decide (devWord s 0x48000 = 0xF00000004D)

/-- The leaf of those tables. -/
def leaf (die : Nat) : TlbEntry := ⟨die, none, 0, 0, 2 ^ 30, sramBase, true, true, true, 0, [0x48000, 0x40000]⟩

theorem devWord_of_rewrote {s u : State} {ps : List (Nat × Nat)} (h : Rewrote s u ps) (hs : s.syn = []) (hp : ∀ p ∈ ps, sramBase ≤ p.1)
    {a : Nat} (ha : a + 8 ≤ sramBase) : devWord u a = devWord s a := by
  unfold devWord devBytes
  congr 2
  apply List.map_congr_left
  intro i hi
  rw [List.mem_range] at hi
  simp only [devByte, h.syn, hs, List.isEmpty_nil, if_true]
  exact h.bytes _ fun p hp' => Or.inl (by have := hp p hp'; omega)

theorem tabled_of_rewrote {s u : State} {ps : List (Nat × Nat)} (h : Rewrote s u ps) (hs : tabled s = true)
    (hp : (ps.all fun p => decide (sramBase ≤ p.1)) = true) : tabled u = true := by
  have hp' : ∀ p ∈ ps, sramBase ≤ p.1 := fun p k => of_decide_eq_true (List.all_eq_true.mp hp p k)
  simp only [tabled, Bool.and_eq_true, decide_eq_true_eq] at hs ⊢
  obtain ⟨⟨⟨a, b, c⟩, d⟩, e⟩ := hs
  refine ⟨⟨⟨?_, ?_, h.syn⟩, ?_⟩, ?_⟩
  · unfold State.part
    rw [h.parts]
    exact a
  · have := h.tlb
    rw [b] at this
    exact List.sublist_nil.mp this
  · rw [devWord_of_rewrote h c hp' (by decide), d]
  · rw [devWord_of_rewrote h c hp' (by decide), e]

/-- What those tables translate. -/
theorem tabled_translate {s : State} (h : tabled s = true) (die : Nat) (core : Option Nat) (va : Nat) (need : Need)
    (hn : need.ok true true true = true) (hv : va < 0x30000000) :
    translate s die core 0 (BitVec.ofNat 64 va) need = .ok (sramBase + va) (leaf die) := by
  simp only [tabled, Bool.and_eq_true, decide_eq_true_eq] at h
  obtain ⟨⟨⟨a, b, c⟩, d⟩, e⟩ := h
  have hva : (BitVec.ofNat 64 va).toNat = va := by
    rw [BitVec.toNat_ofNat]
    omega
  have h12 : bitsOf (BitVec.ofNat 64 va) 52 12 = 0 := by
    rw [bitsOf, BitVec.extractLsb'_toNat, hva, Nat.shiftRight_eq_div_pow]
    omega
  have i4 : levelIndex 4 va = 0 := by
    simp only [levelIndex]
    omega
  have i3 : levelIndex 3 va = 0 := by
    simp only [levelIndex]
    omega
  have u4 : unitWord s 0x40000 = 0x48003 := by rw [unitWord, devBad, c]; simpa using d
  have u3 : unitWord s 0x48000 = 0xF00000004D := by rw [unitWord, devBad, c]; simpa using e
  have w4 : walkEntry 4 0x48003 va need = .ok (true, 0x48000) := by simp +decide [walkEntry]
  have w3 : walkEntry 3 0xF00000004D va need = .ok (false, sramBase) := by
    have m : va % 2 ^ 30 = va := by omega
    have k : backed (sramBase + va) = true := by
      have l : sramBase ≤ sramBase + va := Nat.le_add_right _ _
      have u : sramBase + va < sramEnd := by
        simp only [sramBase, sramEnd]
        omega
      simp [backed, l, u]
    have q : bitsOf 0xF00000004D#64 8 40 * 256 = sramBase := by decide
    have m' : va % 1073741824 = va := m
    simp +decide [walkEntry, q, m', k, hn]
  unfold Machine.translate
  rw [h12, cached?, b, List.find?_nil, walk, h12]
  simp only [bne_self_eq_false, Bool.false_eq_true, if_false]
  rw [hva, a, walkFrom]
  simp only [i4, Nat.mul_zero, Nat.add_zero]
  rw [u4, w4]
  simp only []
  rw [walkFrom]
  simp only [i3, Nat.mul_zero, Nat.add_zero]
  rw [u3, w3]
  have m : va % 2 ^ 30 = va := by omega
  have z : va / 2 ^ 30 * 2 ^ 30 = 0 := by omega
  simp only [m, z]
  rfl

theorem writable_hi {s : State} (h : (s.parts.all fun q => decide (q.fq + 64 + 64 * 512 ≤ sramBase)) = true) {a : Nat} (n : Nat)
    (ha : sramBase ≤ a) : Writable s a n := by
  apply writable_of
  rw [List.all_eq_true] at h ⊢
  intro q hq
  have := of_decide_eq_true (h q hq)
  have k : q.fq + 64 + 64 * 512 ≤ a := by omega
  simp [k]

theorem noWaiter_hi {s : State} (h : (quiet s && s.parts.all fun q => decide (q.fq + 64 + 64 * 512 ≤ sramBase)) = true) {a : Nat} (n : Nat)
    (ha : sramBase ≤ a) : NoWaiter s a n := by
  have k := Bool.and_eq_true _ _ ▸ h
  exact ⟨writable_hi k.2 n ha, noReply_of k.1 a n, noWait_of k.1 a n⟩

/-! ### Every statement's hypotheses are met: the tree engine -/

/-- Tree header at 0x104000: arena 0x105000, capacity 8, the given free list, exploration constant 2^16, engine 0, its bin at 0x10C000 with
two records in a batch of task 0, root 0, next 5, the given number of blocks that still go back. -/
def treeWords (freehead pend : Nat) : List Word :=
  [0x105000, BitVec.ofNat 64 (0x800000000 + freehead), 0x0001000000000000, 0, 0x10C000, 0x0000020000000000, 5, BitVec.ofNat 64 (pend * 2 ^ 32)]

/-- A node without children, visits and losses. -/
def node (parent token : Nat) (flags : Byte) : TNode := ⟨0, 0, 50, 0, 0, 0, flags, 0, parent, token⟩

/-- Nodes: the root with the losses `v` and the children 1 and 2, node 1 with the children 3 and 4, and a free block at 5. -/
def nodes (v : Nat) (leaf : Byte) : List TNode :=
  [⟨2, 0, 0, v, 1, 2, 1, 0, noNode, 10⟩, ⟨1, 5, 100, 0, 3, 2, 1, 0, 0, 11⟩, ⟨1, 9, 100, 1, 0, 0, 0, 0, 0, 12⟩, node 1 13 leaf, node 1 14 leaf,
    { TNode.freed with first := noNode, count := 2 }, TNode.freed, TNode.freed]

/-- A bin of one slot of two records. -/
def treeBin (task : Nat) : List Word := [BitVec.ofNat 64 (task * 2 ^ 48 + 0x0000020000000100), 0, 0, 0, 0, 0, 0, 0, 0x10C000, 0, 0, 0, 0, 0, 0, 0]

/-- A Ford instruction of the group at that tree. -/
def ford (kind : FordKind) : FordOp where
  id := 4
  seq := 0
  gid := 2
  launch := 0
  team := 1
  part := 0
  die := 0
  kind := kind
  recs := none
  header := 0x104000
  pa := sramBase + 0x104000
  sd := 4
  sb := 8
  instr := 0
  pc := 0
  phase := .accepted
  node := 0
  depth := 0
  path := []
  sa := false
  aux := 0
  jobs := []
  answered := false
  drop := false

/-- The machine with a tree, its bin and one Ford instruction. -/
@[irreducible] def sysF (ws : List Word) (ns : List TNode) (bin : List Word) (o : FordOp) : State :=
  let s := sysT { grp with hold := .ford 4 }
  { s with
    fords := [o]
    mem := s.mem ++ cells (sramBase + 0x104000) (wordsBytes ws) ++ cells (sramBase + 0x105000) (ns.flatMap TNode.bytes) ++
      cells (sramBase + 0x10C000) (wordsBytes bin) }

/-- The tree of the tests with the given leaves, and one Ford instruction. -/
def sysTree (leaf : Byte) (o : FordOp) : State := sysF (treeWords noNode 0) (nodes 1 leaf) (treeBin 0) o

/-- The state is canonical, walks its tables, has the tree's instruction alone, and its next action reaches slices that take work. -/
abbrev fordB (s : State) (o : FordOp) (h : THead) : Bool :=
  decide (s.Inv) && tabled s && decide ((s.fords.find? fun x => x.id == o.id) = some o) && !fordWaits s o && decide (treeHead s o = h) &&
    (awake s o.pa 64 && awakeWords s ((fordReads s o (fordVas s o)).1 ++ (fordReads s o (fordVas s o)).2)) && fordBinAwake s o &&
    (quiet s && s.parts.all fun q => decide (q.fq + 64 + 64 * 512 ≤ sramBase))

/-- What `fordB` computes. -/
structure FordAt (s : State) (o : FordOp) (h : THead) : Prop where
  inv : s.Inv
  syn : s.syn = []
  here : (s.fords.find? fun x => x.id == o.id) = some o
  first : fordWaits s o = false
  head : treeHead s o = h
  served : FordServed s o (fordVas s o)
  bin : fordBinAwake s o = true
  free : ∀ a n, sramBase ≤ a → NoWaiter s a n
  steady : ∀ u ps, Rewrote s u ps → (∀ p ∈ ps, sramBase ≤ p.1) → tabled u = true
  tables : tabled s = true

theorem fordAt_of {s : State} {o : FordOp} {h : THead} (b : fordB s o h = true) : FordAt s o h := by
  simp only [fordB, Bool.and_eq_true, decide_eq_true_eq, Bool.not_eq_true'] at b
  obtain ⟨⟨⟨⟨⟨⟨⟨b1, b2⟩, b3⟩, b4⟩, b5⟩, b6⟩, b7⟩, b8⟩ := b
  have c : s.syn = [] := by
    simp only [tabled, Bool.and_eq_true, decide_eq_true_eq] at b2
    exact b2.1.1.2.2
  exact ⟨b1, c, b3, b4, b5, b6, b7,
    fun a n h => noWaiter_hi (by simp only [Bool.and_eq_true]; exact b8) n h,
    fun u ps r hp => tabled_of_rewrote r b2 (List.all_eq_true.mpr fun p k => decide_eq_true (hp p k)), b2⟩

/-- Where the nodes of the tests' trees lie. -/
def nodePa (i : Nat) : Nat := sramBase + 0x105000 + 32 * i

theorem nodeLoc_tabled {s : State} {o : FordOp} {h : THead} (t : tabled s = true) (hp : o.part = 0) (ha : h.arena = 0x105000) (hc : h.cap = 8)
    {i : Nat} (hi : i < 8) : nodeLoc s o h i = .ok (nodePa i) := by
  have k := tabled_translate t o.die none (0x105000 + 32 * i) needRW rfl (by omega)
  unfold nodeLoc
  rw [hc, if_neg (by omega), ha, hp, k]
  simp only [nodePa, Nat.add_assoc]

theorem laid_of {s : State} {o : FordOp} {h : THead} (f : FordAt s o h) (hp : o.part = 0) (ho : o.pa = sramBase + 0x104000)
    (ha : h.arena = 0x105000) (hc : h.cap = 8) : Laid s o h nodePa := by
  refine ⟨f.free _ _ (by omega), fun i hi => ⟨f.free _ _ (by unfold nodePa; omega), ?_, fun j hj hij => ?_, fun u r => ?_⟩⟩
  · unfold Apart nodePa
    omega
  · unfold Apart nodePa
    omega
  · refine nodeLoc_tabled (f.steady u _ r ?_) hp ha hc (hc ▸ hi)
    intro p k
    rcases List.mem_cons.mp k with rfl | k
    · show sramBase ≤ o.pa
      omega
    · obtain ⟨j, _, rfl⟩ := List.mem_map.mp k
      show sramBase ≤ nodePa j
      unfold nodePa
      omega

/-- The header of the tests' trees. -/
def head (freehead pend : Nat) : THead := ⟨0x105000, 8, freehead, 65536, 0, 0, 0, 0x10C000, 0, 2, 0, 5, pend⟩

/-- Instructions at the input of the tree's engine, and of another one. -/
theorem witness_FordEnginesAct_accept :
    ∀ d ∈ [0, 1], ∀ k ∈ [FordKind.desc 0, .exp 3 2 0x10E000 true],
      let o := { ford k with phase := .input, die := d }
      let s := sysTree 0 o
      let ws := structWords s o.pa 8
      s.Inv ∧ s.syn = [] ∧ fordInput s o.die = some o ∧ bitsOf (ws.getD 3 0) 26 6 = 0 ∧ fordReady s o.die = true ∧ awake s o.pa 64 = true ∧
        ((THead.of ws).die = o.die ↔ d = 0) ∧ fordHeld s o.die < 256 ∧ treeBad ws = false ∧
        (o.kind.names.all fun i => decide (i < (THead.of ws).cap)) = true := by
  decide +kernel

/-- A descent that enters its root. -/
theorem witness_FordEnginesAct_enter :
    let o := ford (.desc 7)
    let s := sysTree 0 o
    FordAt s o (head noNode 0) ∧ o.phase = .accepted ∧ o.path = [] ∧ nodeAt s o (head noNode 0) 0 = .ok ⟨2, 0, 0, 1, 1, 2, 1, 0, noNode, 10⟩ ∧
      nodeLoc s o (head noNode 0) 0 = .ok (nodePa 0) ∧ NoWaiter s (nodePa 0) 32 :=
  let f := fordAt_of (by decide +kernel)
  ⟨f, rfl, rfl, ok_of (by decide +kernel), ok_of (by decide +kernel), f.free _ _ (by decide)⟩

/-- The descent at node 1, and its tree with the given leaves and task of the bin. -/
def descOp : FordOp := { ford (.desc 7) with path := [1, 0], depth := 1, node := 1 }

def descSys (x : Byte × Nat) : State := sysF (treeWords noNode 0) (nodes 1 x.1) (treeBin x.2) descOp

/-- Leaves: a terminal node, an expanded one without children, one that waits, and new ones; the bin is of the tree's task or of another. -/
def descCases : List (Byte × Nat) := [(2, 0), (1, 0), (4, 0), (0, 0), (0, 3)]

theorem descAt : ∀ x ∈ descCases, fordB (descSys x) descOp (head noNode 0) = true := by decide +kernel

/-- The descent goes from node 1 to its child 3. -/
theorem witness_FordEnginesAct_descend :
    ∀ x ∈ descCases, FordAt (descSys x) descOp (head noNode 0) ∧
      (isOk (nodeAt (descSys x) descOp (head noNode 0) 1) ⟨1, 5, 100, 0, 3, 2, 1, 0, 0, 11⟩ &&
        isOk (childrenOf (descSys x) descOp (head noNode 0) ⟨1, 5, 100, 0, 3, 2, 1, 0, 0, 11⟩) [(3, node 1 13 x.1), (4, node 1 14 x.1)] &&
        isOk (nodeLoc (descSys x) descOp (head noNode 0) 3) (nodePa 3)) = true ∧
      (node 1 13 x.1).fr = false ∧ (node 1 13 x.1).v < 65535 ∧
      childScore (head noNode 0) 1 (node 1 14 x.1) = childScore (head noNode 0) 1 (node 1 13 x.1) ∧ NoWaiter (descSys x) (nodePa 3) 32 := by
  intro x hx
  have f := fordAt_of (descAt x hx)
  refine ⟨f, ?_, ?_, ?_, ?_, f.free _ _ (by unfold nodePa; omega)⟩ <;> clear f <;> revert x
  · decide +kernel
  · decide +kernel
  · decide +kernel
  · decide +kernel

/-- The bin of the tree takes the leaf's record, or is of another task. -/
theorem witness_FordEnginesAct_put :
    ∀ x ∈ descCases,
      (∀ u, Rewrote (descSys x) u [(nodePa 3, 32)] → nodeLoc u descOp (head noNode 0) 3 = .ok (nodePa 3) ∧
        Machine.translate u descOp.die none descOp.part (BitVec.ofNat 64 (head noNode 0).bin) needRW = .ok (sramBase + 0x10C000) (leaf 0)) ∧
      (inSram (sramBase + 0x10C000) = true ∧
        let bs := structWords (descSys x) (sramBase + 0x10C000) 16
        let b := BinHead.of bs
        (b.task = (head noNode 0).task ↔ x.2 = 0) ∧ b.coal = (head noNode 0).batch ∧
          binBad bs (sramBase + 0x10C000) ((leaf 0).vbase + (leaf 0).size - (head noNode 0).bin) = false ∧ binBusy bs b.cur = false ∧
          b.fill + 1 < b.coal ∧ b.period ≠ 0 ∧ timersAt (descSys x) (homeSlice (sramBase + 0x10C000)) < 64) ∧
      Apart (nodePa 3) 32 (sramBase + 0x10C000) 128 ∧ Apart (nodePa 3) 32 (sramBase + 0x10C080) 64 ∧
      NoWaiter (descSys x) (sramBase + 0x10C000) 128 ∧ NoWaiter (descSys x) (sramBase + 0x10C080) 64 := by
  intro x hx
  have f := fordAt_of (descAt x hx)
  refine ⟨fun u r => ?_, ?_, by unfold Apart; decide, by unfold Apart; decide, f.free _ _ (by omega), f.free _ _ (by omega)⟩
  · have t := f.steady u _ r (by simp only [List.mem_singleton, forall_eq]; unfold nodePa; omega)
    exact ⟨nodeLoc_tabled t rfl rfl rfl (by decide), tabled_translate t 0 none 0x10C000 needRW rfl (by decide)⟩
  · clear f
    revert x
    decide +kernel

/-- A descent that takes its losses back, from node 3 and at its last node. -/
def undoOp (last : Bool) : FordOp := { ford (.desc 7) with path := if last then [3] else [3, 1, 0], depth := 2, node := 3, phase := .undo 1 }

theorem undoAt : ∀ last, fordB (sysTree 0 (undoOp last)) (undoOp last) (head noNode 0) = true := by decide +kernel

theorem witness_FordEnginesAct_undo : ∀ last,
    FordAt (sysTree 0 (undoOp last)) (undoOp last) (head noNode 0) ∧ (undoOp last).phase = .undo 1 ∧
      (undoOp last).path = 3 :: (if last then [] else [1, 0]) ∧
      (isOk (nodeAt (sysTree 0 (undoOp last)) (undoOp last) (head noNode 0) 3) (node 1 13 0) &&
        isOk (nodeLoc (sysTree 0 (undoOp last)) (undoOp last) (head noNode 0) 3) (nodePa 3)) = true ∧
      NoWaiter (sysTree 0 (undoOp last)) (nodePa 3) 32 := by
  intro last
  have f := fordAt_of (undoAt last)
  refine ⟨f, ?_, ?_, ?_, f.free _ _ (by unfold nodePa; omega)⟩ <;> clear f <;> revert last
  · decide +kernel
  · decide +kernel
  · decide +kernel

/-- A backup of 2^29 at its leaf, node 3, at node 1, at the root, and at a depth that ends it. -/
def backOp (x : Nat × Nat) : FordOp := { ford (.back 3 536870912 true false) with depth := x.1, node := x.2 }

def backCases : List (Nat × Nat) := [(0, 3), (1, 1), (2, 0), (65535, 1)]

theorem backAt : ∀ x ∈ backCases, fordB (sysTree 0 (backOp x)) (backOp x) (head noNode 0) = true := by decide +kernel

theorem witness_FordEnginesAct_backup : ∀ x ∈ backCases,
    FordAt (sysTree 0 (backOp x)) (backOp x) (head noNode 0) ∧
      ((if (backOp x).depth = 0 then 3 else (backOp x).node) = x.2 ∧
        isOk (nodeAt (sysTree 0 (backOp x)) (backOp x) (head noNode 0) x.2) ((nodes 1 0).getD x.2 TNode.freed) = true ∧
        ((nodes 1 0).getD x.2 TNode.freed).fr = false ∧
        isOk (nodeLoc (sysTree 0 (backOp x)) (backOp x) (head noNode 0) x.2) (nodePa x.2) = true) ∧
      NoWaiter (sysTree 0 (backOp x)) (nodePa x.2) 32 := by
  intro x hx
  have f := fordAt_of (backAt x hx)
  refine ⟨f, ?_, f.free _ _ (by unfold nodePa; omega)⟩
  clear f
  revert x
  decide +kernel

/-- An expansion of node 3 that reads two records. -/
def recsOp : FordOp := ford (.exp 3 2 0x10E000 true)

theorem recsAt : fordB (sysTree 0 recsOp) recsOp (head noNode 0) = true := by decide +kernel

theorem witness_FordEnginesAct_records :
    FordAt (sysTree 0 recsOp) recsOp (head noNode 0) ∧ recsOp.recs = none ∧
      Machine.translate (sysTree 0 recsOp) recsOp.die none recsOp.part (BitVec.ofNat 64 0x10E000) needR = .ok (sramBase + 0x10E000) (leaf 0) ∧
      0x10E000 + 8 * 2 ≤ (leaf 0).vbase + (leaf 0).size :=
  ⟨fordAt_of recsAt, rfl, tabled_translate (fordAt_of recsAt).tables 0 none 0x10E000 needR rfl (by decide), by decide⟩

/-- Expansions by none, one and two, from the end of the arena and from the free list, all of it and a part, with and without blocks that
still go back. -/
def expOp (x : Nat × Nat × Nat) : FordOp := { ford (.exp 3 x.1 0x10E000 true) with recs := some (List.replicate x.1 5) }

def expSys (x : Nat × Nat × Nat) : State := sysF (treeWords x.2.1 x.2.2) (nodes 1 0) (treeBin 0) (expOp x)

def expCases : List (Nat × Nat × Nat) := [(0, noNode, 0), (2, noNode, 0), (2, noNode, 1), (1, 5, 0), (2, 5, 1)]

theorem expAt : ∀ x ∈ expCases, fordB (expSys x) (expOp x) (head x.2.1 x.2.2) = true := by decide +kernel

theorem witness_FordEnginesAct_expand : ∀ x ∈ expCases,
    FordAt (expSys x) (expOp x) (head x.2.1 x.2.2) ∧ (expOp x).recs = some (List.replicate x.1 5) ∧
      (isOk (nodeAt (expSys x) (expOp x) (head x.2.1 x.2.2) 3) (node 1 13 0) &&
        isOk (nodeAt (expSys x) (expOp x) (head x.2.1 x.2.2) 5) { TNode.freed with first := noNode, count := 2 }) = true ∧
      (∀ r ∈ List.replicate x.1 (5 : Word), bitsOf r 17 15 = 0) ∧
      ((head x.2.1 x.2.2).freehead = noNode ∨ (head x.2.1 x.2.2).freehead = 5) ∧ (head x.2.1 x.2.2).next = 5 ∧ 5 + x.1 ≤ 8 ∧
      Laid (expSys x) (expOp x) (head x.2.1 x.2.2) nodePa := by
  intro x hx
  have f := fordAt_of (expAt x hx)
  refine ⟨f, rfl, ?_, ?_, ?_, rfl, ?_, laid_of f rfl rfl rfl rfl⟩ <;> clear f
  · revert x
    decide +kernel
  · intro r h
    rw [List.eq_of_mem_replicate h]
    decide
  all_goals
    simp only [expCases, List.mem_cons, List.not_mem_nil, or_false] at hx
    rcases hx with rfl | rfl | rfl | rfl | rfl <;> simp [head]

/-- Re-roots: to node 1 while the root has losses and while it has none, and to the root itself. -/
def rootOp (x : Nat × Nat) : FordOp := ford (.root x.2 true)

def rootSys (x : Nat × Nat) : State := sysF (treeWords noNode 0) (nodes x.1 0) (treeBin 0) (rootOp x)

def rootCases : List (Nat × Nat) := [(1, 1), (0, 1), (0, 0)]

theorem rootAt : ∀ x ∈ rootCases, fordB (rootSys x) (rootOp x) (head noNode 0) = true := by decide +kernel

theorem witness_FordEnginesAct_reroot : ∀ x ∈ rootCases,
    FordAt (rootSys x) (rootOp x) (head noNode 0) ∧
      (let chain := if x.2 = 0 then [0] else [1, 0]
       isOk (chainToRoot (rootSys x) (rootOp x) (head noNode 0) 65536 x.2) chain &&
         isOk (nodeAt (rootSys x) (rootOp x) (head noNode 0) 0) ((nodes x.1 0).getD 0 TNode.freed) &&
         isOk (nodeAt (rootSys x) (rootOp x) (head noNode 0) x.2) ((nodes x.1 0).getD x.2 TNode.freed) &&
         isOk (blocksToFree (rootSys x) (rootOp x) (head noNode 0) chain) (if x.2 = 0 then 0 else 2) &&
         decide (((nodes x.1 0).getD 0 TNode.freed).v = x.1)) = true ∧
      Laid (rootSys x) (rootOp x) (head noNode 0) nodePa := by
  intro x hx
  have f := fordAt_of (rootAt x hx)
  refine ⟨f, ?_, laid_of f rfl rfl rfl rfl⟩
  clear f
  revert x
  decide +kernel

/-- The last row, and an earlier one, of two rows of a mask over two columns; the rows name node 3 and the columns the nodes 1 and 2. -/
def ancOp (row : Nat) : FordOp := { ford (.anc 2 2 0x10E000 0x10E100 0x10E200) with node := row }

def ancSys (row : Nat) : State :=
  let s := sysTree 0 (ancOp row)
  { s with mem := s.mem ++ cells (sramBase + 0x10E000) (natBytes 4 3 ++ natBytes 4 3) ++ cells (sramBase + 0x10E100) (natBytes 4 1 ++ natBytes 4 2) }

theorem ancAt : ∀ row ∈ [0, 1], fordB (ancSys row) (ancOp row) (head noNode 0) = true := by decide +kernel

theorem witness_FordEnginesAct_anc : ∀ row ∈ [0, 1],
    FordAt (ancSys row) (ancOp row) (head noNode 0) ∧
      (decide (bytesNat (Memory.bytes (ancSys row).mem (sramBase + 0x10E000 + 4 * row) 4) = 3) &&
        isOk (rowChain (ancSys row) (ancOp row) (head noNode 0) 3) (some [3, 1, 0])) = true ∧
      (∀ va need, va < 0x10F000 → need.ok true true true = true →
        Machine.translate (ancSys row) (ancOp row).die none (ancOp row).part (BitVec.ofNat 64 va) need = .ok (sramBase + va) (leaf 0)) ∧
      (leaf 0).vbase + (leaf 0).size = 0x40000000 ∧
      NoWaiter (ancSys row) (sramBase + 0x10E200 + 8 * row) (8 + 8 * if 2 ≤ row + 1 then 128 - 2 else 0) := by
  intro row hr
  have f := fordAt_of (ancAt row hr)
  refine ⟨f, ?_, fun va need hv hn => tabled_translate f.tables 0 none va need hn (by omega), by decide, f.free _ _ (by omega)⟩
  clear f
  revert row
  decide +kernel

/-- A freeing push of node 2. -/
def freeOp : FordOp := { ford (.root 1 false) with phase := .freeing, jobs := [.self 2] }

def freeSys : State := sysF (treeWords noNode 1) (nodes 0 0) (treeBin 0) freeOp

theorem freeAt : fordB freeSys freeOp (head noNode 1) = true := by decide +kernel

theorem witness_FordEnginesAct_free :
    FordAt freeSys freeOp (head noNode 1) ∧ FordServed freeSys freeOp (nodeVas (head noNode 1) (nodesBelow freeSys freeOp (head noNode 1) 8 2)) ∧
      nodeLoc freeSys freeOp (head noNode 1) 2 = .ok (nodePa 2) ∧ (∃ tn, nodeAt freeSys freeOp (head noNode 1) 2 = .ok tn) ∧
      (nodePa 2 + 32 ≤ freeOp.pa ∨ freeOp.pa + 64 ≤ nodePa 2) ∧
      NoWaiter freeSys (nodePa 2) 32 ∧ NoWaiter freeSys freeOp.pa 64 :=
  let f := fordAt_of freeAt
  ⟨f, by unfold FordServed; decide +kernel, ok_of (by decide +kernel), any_ok (by decide +kernel), by decide +kernel, f.free _ _ (by unfold nodePa; omega),
    f.free _ _ (by decide)⟩

/-! ### Every statement's hypotheses are met: collectives -/

/-- A collective record at 0x108000: result at 0x109000, done counter at 0x10A000, peer table at 0x10B000, one child, four
elements, round 7, with the given parent, type (I32, F32, or 4, which is none), contributions and arrivals. -/
def recordWords (parent type contributions arrived carrived : Nat) : List Word :=
  [0x109000, 0x10A000, BitVec.ofNat 64 (contributions * 2 ^ 48 + 2 ^ 44 + parent * 2 ^ 38 + type * 2 ^ 30 + 3 * 2 ^ 21), 7, 0x10B000,
    BitVec.ofNat 64 arrived, BitVec.ofNat 64 carrived, 0]

/-- The record as the device reads it. -/
def fabRec (parent type contributions arrived carrived : Nat) : FRec :=
  ⟨0x109000, 0x10A000, contributions, 1, parent, 0, false, type, 4, 7, 0x10B000, BitVec.ofNat 64 arrived, BitVec.ofNat 64 carrived⟩

/-- The peers of its table: device 0x20 with its record at 0x1000, and device 0x21 with its record at 0x2000. -/
def fabPeers (k : Nat) : Word × Word := (0x20 + BitVec.ofNat 64 k, 0x1000 + 0x1000 * BitVec.ofNat 64 k)

/-- The machine with that record, its peer table and the given requests and contexts. -/
@[irreducible] def sysRec (ws : List Word) (rs : List Req) (ctxs : List FabCtx) : State :=
  let s := sysT grp
  { s with
    reqs := rs
    fabs := ctxs
    mem := s.mem ++ cells (sramBase + 0x108000) (wordsBytes ws) ++ cells (sramBase + 0x10B000) (wordsBytes [0x20, 0x1000, 0x21, 0x2000]) }

/-- Where the record, its result and its done counter lie. -/
def recPa : Nat := sramBase + 0x108000

/-- The words of the record and of its peer table, the tables, the units and the queues. -/
abbrev recB (s : State) (ws : List Word) (h : FRec) : Bool :=
  decide s.Inv && tabled s && decide (structWords s recPa 8 = ws) && decide (FRec.of ws = h) && fabAwake s 0 h true &&
    decide (s.mgmt.stopped = false ∧ reachesPart s 0 = true ∧ (s.part 0).state ≠ .resetting) &&
    decide ((List.range 4).map (fun k => devWord s (sramBase + 0x10B000 + 8 * k)) = [0x20, 0x1000, 0x21, 0x2000]) &&
    (awakeWords s (transReads s 0 none 0 0x108000 needRW) && awakeWords s ((List.range 8).map fun k => recPa + 8 * k)) &&
    decide ((memWord s (sramBase + 0x10A000)).toNat + 1 < 2 ^ 64) &&
    (quiet s && s.parts.all fun q => decide (q.fq + 64 + 64 * 512 ≤ sramBase))

theorem devWord_kept {s u : State} {ps : List (Nat × Nat)} (h : Rewrote s u ps) (hs : s.syn = []) {a : Nat}
    (ha : ∀ p ∈ ps, Apart a 8 p.1 p.2) : devWord u a = devWord s a := by
  unfold devWord devBytes
  congr 2
  apply List.map_congr_left
  intro i hi
  rw [List.mem_range] at hi
  simp only [devByte, h.syn, hs, List.isEmpty_nil, if_true]
  exact h.bytes _ fun p hp => by have := ha p hp; unfold Apart at this; omega

theorem peer_tabled {s : State} {h : FRec} (t : tabled s = true) (hp : h.peers = 0x10B000)
    (hw : (List.range 4).map (fun k => devWord s (sramBase + 0x10B000 + 8 * k)) = [0x20, 0x1000, 0x21, 0x2000]) {k : Nat} (hk : k < 2) :
    peerEntry s 0 h k = some (fabPeers k) := by
  have c : s.syn = [] := by
    simp only [tabled, Bool.and_eq_true, decide_eq_true_eq] at t
    exact t.1.1.2.2
  have v : (0x10B000 : Word) + BitVec.ofNat 64 (16 * k) = BitVec.ofNat 64 (0x10B000 + 16 * k) := by
    rw [BitVec.ofNat_add]
    rfl
  have r := tabled_translate t 0 none (0x10B000 + 16 * k) needR rfl (by omega)
  simp only [List.range_succ_eq_map, List.range_zero, List.map_nil, List.map_cons, List.cons.injEq, and_true] at hw
  simp only [Nat.succ_eq_add_one, Nat.mul_zero, Nat.add_zero, Nat.zero_add, Nat.mul_one, Nat.reduceAdd, Nat.reduceMul] at hw
  obtain ⟨w0, w1, w2, w3⟩ := hw
  unfold peerEntry readVa
  rw [hp, v, r]
  have e : k = 0 ∨ k = 1 := by omega
  rcases e with rfl | rfl <;>
    simp +decide [devBad, c, fabPeers, w0, w1, w2, w3, List.range_succ_eq_map]

theorem peers_kept {s u : State} (h : Rewrote s u [(recPa, 64), (sramBase + 0x109000, 16), (sramBase + 0x10A000, 8)]) (hs : s.syn = []) :
    (List.range 4).map (fun k => devWord u (sramBase + 0x10B000 + 8 * k)) =
      (List.range 4).map fun k => devWord s (sramBase + 0x10B000 + 8 * k) := by
  have e : ∀ k, k < 4 → ∀ a, sramBase + 0x10B000 + 8 * k = a → devWord u a = devWord s a := by
    intro k hk a ha
    refine devWord_kept h hs fun p hp => ?_
    unfold Apart
    rcases List.mem_cons.mp hp with rfl | hp
    · unfold recPa
      dsimp only
      omega
    rcases List.mem_cons.mp hp with rfl | hp
    · dsimp only
      omega
    rw [List.mem_singleton.mp hp]
    dsimp only
    omega
  exact List.map_congr_left fun k hk => e k (List.mem_range.mp hk) _ rfl

/-- Everything that `recB` computes, and that the record's places lie apart whatever they hold. -/
structure RecAt (s : State) (ws : List Word) (h : FRec) : Prop where
  inv : s.Inv
  syn : s.syn = []
  words : ws = structWords s recPa 8 ∧ h = FRec.of ws
  laid : FabLaid s 0 recPa h (sramBase + 0x109000) (sramBase + 0x10A000) fabPeers
  awake : fabAwake s 0 h true = true
  up : s.mgmt.stopped = false ∧ reachesPart s 0 = true ∧ (s.part 0).state ≠ .resetting
  there : ∃ e, Machine.translate s 0 none 0 0x108000 needRW = .ok recPa e
  open_ : awakeWords s (transReads s 0 none 0 0x108000 needRW) = true ∧ awakeWords s ((List.range 8).map fun k => recPa + 8 * k) = true
  opens : awakeWords s (transReads s 0 none 0 0x108000 needRW ++ (List.range 8).map fun k => recPa + 8 * k) = true

theorem recAt_of {s : State} {ws : List Word} {h : FRec} (b : recB s ws h = true)
    (g : h.result = 0x109000 ∧ h.doneVa = 0x10A000 ∧ h.peers = 0x10B000 ∧ h.elems = 4 ∧ h.size = 4 ∧ ∀ k ∈ h.peerNumbers, k < 2) :
    RecAt s ws h := by
  simp only [recB, Bool.and_eq_true, decide_eq_true_eq] at b
  obtain ⟨⟨⟨⟨⟨⟨⟨⟨⟨b1, b2⟩, b3⟩, b4⟩, b6⟩, b7⟩, b8⟩, b9⟩, b10⟩, b11⟩ := b
  obtain ⟨g1, g2, g3, g4, g5, g6⟩ := g
  have c : s.syn = [] := by
    simp only [tabled, Bool.and_eq_true, decide_eq_true_eq] at b2
    exact b2.1.1.2.2
  have n : h.elems * h.size = 16 := by rw [g4, g5]
  have free : ∀ a n, sramBase ≤ a → NoWaiter s a n :=
    fun a n h => noWaiter_hi (by simp only [Bool.and_eq_true]; exact b11) n h
  refine ⟨b1, c, ⟨b3.symm, b4.symm⟩, ⟨?_, ?_, b10, fun u r => ?_⟩, b6, b7, ⟨_, tabled_translate b2 0 none 0x108000 needRW rfl (by decide)⟩,
    b9, ?_⟩
  · rw [n]
    unfold Apart recPa
    omega
  · exact ⟨free _ _ (by unfold recPa; omega), free _ _ (by omega), free _ _ (by omega)⟩
  · rw [n] at r ⊢
    have t := tabled_of_rewrote r b2 (by decide)
    refine ⟨?_, ⟨leaf 0, ?_⟩, fun k hk => peer_tabled t g3 ?_ (g6 k hk)⟩
    · have q := tabled_translate t 0 none 0x109000 needW rfl (by decide)
      rw [g1, vaSpans]
      simp only [BitVec.ofNat_eq_ofNat] at q ⊢
      rw [q]
      simp +decide
    · have q := tabled_translate t 0 none 0x10A000 needRW rfl (by decide)
      rw [g2]
      exact q
    · exact (peers_kept r c).trans b8
  · unfold awakeWords at b9 ⊢
    rw [List.all_append, b9.1, b9.2]
    rfl

/-- An open context of the record. -/
def recCtx : FabCtx := ⟨0, recPa, 7, [0], List.replicate 4 ⟨1, 1, false, false, false, false⟩, false⟩

/-- Records of parent, type, contributions and arrivals: at the root and below another device, where the next message is the last and
where it is not; one of a type that there is not. -/
def recCases : List (Nat × Nat × Nat × Nat × Nat) :=
  [(63, 5, 2, 2, 0), (63, 9, 2, 0, 0), (1, 5, 2, 2, 0), (1, 9, 2, 1, 0), (63, 5, 2, 1, 1), (1, 5, 2, 1, 1), (63, 9, 1, 0, 0), (63, 4, 1, 0, 0)]

/-- A collective request of the group for that record: four elements at address 0 of scratchpad, in round 7. -/
def recRq (bcast : Bool) (round count : Nat) : Req :=
  { rq (if bcast then .fbBcast 0x108000 count round 0 4 else .fbRed 0x108000 count round 0 4) with pieces := [⟨recPa, 64, false, false⟩] }

abbrev recS (x : Nat × Nat × Nat × Nat × Nat) (rs : List Req) (cs : List FabCtx) : State := sysRec (recordWords x.1 x.2.1 x.2.2.1 x.2.2.2.1 x.2.2.2.2) rs cs
abbrev recH (x : Nat × Nat × Nat × Nat × Nat) : FRec := fabRec x.1 x.2.1 x.2.2.1 x.2.2.2.1 x.2.2.2.2

theorem recBs : ∀ x ∈ recCases, ∀ cs ∈ [[], [recCtx]], recB (recS x [] cs) (recordWords x.1 x.2.1 x.2.2.1 x.2.2.2.1 x.2.2.2.2) (recH x) = true := by
  decide +kernel

theorem recInvalid : ∀ x ∈ recCases, recordInvalid (recordWords x.1 x.2.1 x.2.2.1 x.2.2.2.1 x.2.2.2.2) = decide (x.2.1 = 4) := by
  decide +kernel

theorem recGs : ∀ x ∈ recCases, (recH x).result = 0x109000 ∧ (recH x).doneVa = 0x10A000 ∧ (recH x).peers = 0x10B000 ∧ (recH x).elems = 4 ∧
    (recH x).size = 4 ∧ ∀ k ∈ (recH x).peerNumbers, k < 2 := by
  decide +kernel

/-- Messages that open a context or meet one. -/
theorem witness_FabricMessages :
    ∀ x ∈ recCases, ∀ cs ∈ [[], [recCtx]],
      RecAt (recS x [] cs) (recordWords x.1 x.2.1 x.2.2.1 x.2.2.2.1 x.2.2.2.2) (recH x) ∧
        recordInvalid (recordWords x.1 x.2.1 x.2.2.1 x.2.2.2.1 x.2.2.2.2) = decide (x.2.1 = 4) ∧ (recH x).round = 7 ∧
        (∀ c ∈ cs, c.elems.length = (recH x).elems) ∧ (0x108000 : Word).toNat % 64 = 0 :=
  fun x hx cs hc => ⟨recAt_of (recBs x hx cs hc) (recGs x hx), recInvalid x hx, rfl, by
    simp only [List.mem_cons, List.not_mem_nil, or_false] at hc
    rcases hc with rfl | rfl
    · exact fun _ h => nomatch h
    · intro c h
      rw [List.mem_singleton.mp h]
      rfl, by decide⟩

/-- Messages that are dropped: of another round, to a record that is not aligned, is invalid, or is not mapped. -/
theorem witness_FabricMessages_dropped :
    (fabRec 63 5 2 2 0).round ≠ 8 ∧
    (∃ e, Machine.translate (recS (63, 5, 2, 2, 0) [] []) 0 none 0 0x108008 needRW = .ok (recPa + 8) e) ∧ (0x108008 : Word).toNat % 64 ≠ 0 ∧
    recordInvalid (recordWords 63 4 1 0 0) = true ∧
    (let s := sys
     s.Inv ∧ s.syn = [] ∧ reachesPart s 0 = true ∧ (s.part 0).state ≠ .resetting ∧ s.mgmt.stopped = false ∧
       awakeWords s (transReads s 0 none 0 0x900000 needRW) = true ∧
       (match Machine.translate s 0 none 0 0x900000 needRW with
        | .fail _ => true
        | .ok .. => false) = true) := by
  refine ⟨by decide, ⟨_, tabled_translate ?_ 0 none 0x108008 needRW rfl (by decide)⟩, by decide, by decide +kernel, by decide +kernel⟩
  have b := recBs (63, 5, 2, 2, 0) (by decide) [] (by decide)
  simp only [recB, Bool.and_eq_true] at b
  exact b.1.1.1.1.1.1.1.1.2

/-- Requests: accepted, refused for the round, the count and what has come, and broadcasts. -/
def reqCases : List (Bool × Nat × Nat) := [(false, 7, 4), (false, 8, 4), (false, 7, 3), (true, 7, 4), (true, 8, 4)]

theorem recRqBs : ∀ x ∈ recCases, ∀ y ∈ reqCases,
    recB (recS x [recRq y.1 y.2.1 y.2.2] []) (recordWords x.1 x.2.1 x.2.2.1 x.2.2.2.1 x.2.2.2.2) (recH x) = true := by
  decide +kernel

theorem witness_FabricMessages_requests : ∀ x ∈ recCases, ∀ y ∈ reqCases,
    let r := recRq y.1 y.2.1 y.2.2
    let s := recS x [r] []
    RecAt s (recordWords x.1 x.2.1 x.2.2.1 x.2.2.2.1 x.2.2.2.2) (recH x) ∧
      ((s.reqs.filter fun q => q.id == r.id) = [r] ∧ canPerform s r = true ∧ served s r = true ∧ r.part = 0 ∧ r.sp = false ∧
        heldByData s r 0 y.2.2 = false ∧ poolAwake s r.team 0 (8 * y.2.2) = true) ∧
      s.team? r.team = some (newTeam 1 (loaderLaunch 0) [0]) := by
  intro x hx y hy
  refine ⟨recAt_of (recRqBs x hx y hy) (recGs x hx), ?_, ?_⟩
  · revert y
    revert x
    decide +kernel
  · revert y
    revert x
    decide +kernel

/-- Partition 0 with a window of 4 KiB at virtual address 0x100000 under the key 9. -/
def sysWin : State :=
  sys.modPart 0 fun q => { q with windows := q.windows.set 2 (some ⟨0x100000, 4096, true, true, true, 9⟩) }

/-- The window's page is cached: an operation reads no table. -/
theorem witness_RemoteOperations_tables :
    remoteReads sysWin ⟨0, 2, 8, 0x10, 1⟩ needW 4 = [] ∧ remoteReads sysWin ⟨0, 2, 8, 0x10, 1⟩ needR 4 = [] ∧
      remoteReads sysWin ⟨0, 2, 8, 0x10, 1⟩ needRW 8 = [] ∧ remoteReads sysWin ⟨0, 2, 9, 0x10, 1⟩ needW 4 = [] ∧
      remoteReads sysWin ⟨0, 2, 9, 0x10, 1⟩ needR 4 = [] ∧ remoteReads sysWin ⟨0, 2, 9, 0x10, 1⟩ needRW 8 = [] ∧
      awakeWords sysWin [] = true := by
  decide +kernel

/-- Operations that the window grants, under another key, and an unaligned atomic. -/
theorem witness_RemoteOperations :
    (sysWin.Inv ∧ sysWin.syn = [] ∧ portReady sysWin = true ∧ reachesPart sysWin 0 = true ∧ sysWin.mgmt.stopped = false ∧
      remoteSpans sysWin ⟨0, 2, 9, 0x10, 1⟩ .write 4 = some [(sramBase + 0x10, 4)] ∧
      remoteSpans sysWin ⟨0, 2, 9, 0x10, 1⟩ .read 4 = some [(sramBase + 0x10, 4)] ∧
      remoteSpans sysWin ⟨0, 2, 9, 0x10, 1⟩ .atomic 8 = some [(sramBase + 0x10, 8)] ∧
      (0x100000 + 0x10) % 8 = 0 ∧ (0x100000 + 0x14) % 8 ≠ 0 ∧
      spansOpen sysWin [(sramBase + 0x10, 8)] = true ∧ spansOpen sysWin [(sramBase + 0x10, 4)] = true ∧
      remoteSpans sysWin ⟨0, 2, 8, 0x10, 1⟩ .write 4 = none ∧ remoteSpans sysWin ⟨0, 2, 8, 0x10, 1⟩ .read 4 = none ∧
      remoteSpans sysWin ⟨0, 2, 8, 0x10, 1⟩ .atomic 8 = none) ∧
    NoWaiter sysWin (sramBase + 0x10) 8 ∧ NoWaiter sysWin (sramBase + 0x10) 4 :=
  ⟨by decide +kernel, noWaiter_of (by decide +kernel), noWaiter_of (by decide +kernel)⟩

/-! ### Every statement's hypotheses are met: management -/

/-- The ROM, and Halone with no session, a handshake and an open session, with an alias key. -/
theorem witness_SpdmAnswers :
    State.reset.mgmt.stage = .rom ∧ sys.mgmt.stage = .halone ∧ inSession sys = true ∧
      (let m := { sys.mgmt with session := .none, opKeys := [5], aliasKey := some 3 }
       m.stage = .halone ∧ m.session = .none ∧ m.aliasKey = some 3 ∧ m.ready.getLsbD 124 = true ∧ (5 : BitVec 256) ∈ m.opKeys) ∧
      { sys.mgmt with session := .handshake 5 ⟨0, 1, 2⟩ }.session = .handshake 5 ⟨0, 1, 2⟩ ∧
      ((EcPoint.of ecBase.bytes).map EcPoint.bytes = some ecBase.bytes) ∧ EcPoint.of [] = none := by
  decide +kernel

/-- A partition record for partition 1: pair 1, table root 0x1000, address space 1, task table and command queue in slice SRAM, running. -/
def partRecord : List Word :=
  [2, 0, 0x1000, 0x0100000000000000 + BitVec.ofNat 64 (sramBase + 0x20000), 4, BitVec.ofNat 64 (sramBase + 0x30000), 0x101, 1]

/-- Commands in the session, out of it, behind another command and to a partition that is being reset or is not configured. -/
theorem witness_ManagementCommands :
    sys.mgmt.stage = .halone ∧ inSession sys = true ∧ sys.mgmt.waiting = [] ∧ (sys.part 0).state ≠ .none ∧ (sys.part 0).state ≠ .resetting ∧
      (sys.part 1).state = .none ∧ sys.syn = [] ∧ isCommand (.startPartition 1) = true ∧ namedPart (.startPartition 1) = some 1 ∧
      changedPart (.startPartition 1) = some 1 ∧
      configureOk sys 1 partRecord (sramBase + 0x40000) = true ∧ configureOk sys 1 [] (sramBase + 0x40000) = false ∧
      configureOk sys 1 partRecord 0 = false ∧
      awakeAt sys sramBase = true ∧ awake sys (sramBase + 0x40000) 64 = true ∧ jettyOk 3 0 1 sramBase 15 = true ∧
      (let s := { sys with mgmt := { sys.mgmt with ready := 0 } }
       s.mgmt.stage = .halone ∧ inSession s = true ∧ isCommand (.createJetty 3 0 1 sramBase 15) = true ∧
         waitsForSlice s (.createJetty 3 0 1 sramBase 15) = true) ∧ jettyOk 3 0 1 0 15 = false ∧
      inSession { sys with mgmt := { sys.mgmt with session := .none } } = false ∧
      { sys.mgmt with waiting := [.startPartition 1] }.waiting ≠ [] ∧
      ((sys.modPart 1 fun q => { q with state := .resetting }).part 1).state = .resetting := by
  decide +kernel

theorem witness_ManagementCommands_queue : NoWait sys (sramBase + 0x40000) 64 := noWait_of (by decide +kernel) _ _

/-- An image that is well formed but for its signatures, which the model can check but not make. -/
def image : Image := ⟨[0x484C4E4500000000, 0x0000000100000001, 0, 0, 0, 0, 0, 0], [0], List.replicate 64 0, List.replicate 3309 0⟩

theorem haloneOk_image : haloneOk image = imageSigned image := by
  have e : (imageKind image == 0 && (image.header.length == 8 && bitsOf (image.header.getD 0 0) 32 32 == 0x484C4E45 &&
      decide (imageKind image ≤ 3) && bitsOf (image.header.getD 0 0) 0 24 == 0 && ((List.range 6).all fun k => image.header.getD (2 + k) 0 == 0)
      && bitsOf (image.header.getD 1 0) 0 32 == image.body.length && decide (1 ≤ image.body.length) && decide (image.body.length ≤ 2 ^ 24)
      && image.ed25519.length == 64 && image.mldsa.length == 3309)) = true := by decide +kernel
  unfold haloneOk imageAccepted
  rw [← Bool.and_assoc, e, Bool.true_and]

theorem find_single (i : Image) : ([i].take 2).find? haloneOk = if haloneOk i then some i else none := by
  cases h : haloneOk i <;> simp [h]

/-- Whether the image is taken is for its signatures to say; units become ready; samples below and at the critical temperature. -/
theorem witness_ModuleAndPower :
    (([image].take 2).find? haloneOk = if imageSigned image then some image else none) ∧ ([].take 2).find? haloneOk = none ∧
    (let s := { sys with mgmt := { sys.mgmt with ready := 1 <<< 97, links := 0b010000 } }
     s.mgmt.stage = .halone ∧ s.mgmt.waiting = [] ∧
      ∀ u ∈ [UnitReport.mk (.ford 2) 0b000100, ⟨.sliceGroup 5, 0⟩, ⟨.pair 25, 0b000010⟩, ⟨.port 5, 0⟩, ⟨.stack 0, 0⟩, ⟨.mgmt, 0⟩],
        unitExists u.unit = true ∧ s.mgmt.ready.getLsbD (readyBit u.unit) = false ∧
        let links := s.mgmt.links ||| u.links
        (match u.unit with
         | .sliceGroup n => s.mgmt.ready.getLsbD (96 + n / 4) = true
         | .pair n => links.getLsbD (n / 24) = true
         | .ford n => links.getLsbD n = true
         | .port n => links.getLsbD (4 + n / 6) = true
         | .stack _ => True
         | .mgmt => True)) ∧
    critical (addSamples sys.mgmt.samples [.junction 0 105]) = true ∧ critical (addSamples sys.mgmt.samples [.junction 0 104]) = false ∧
    sys.mgmt.stopped = false ∧ (sys.part 0).state ≠ .none ∧ (sys.part 0).state ≠ .resetting ∧ sys.mgmt.waiting = [] ∧
    commandWaits sys (.createJetty 3 0 1 sramBase 15) = false := by
  refine ⟨?_, rfl, ?_, by decide +kernel⟩
  · rw [find_single, haloneOk_image]
  · refine ⟨rfl, rfl, fun u h => ?_⟩
    simp only [List.mem_cons, List.not_mem_nil, or_false] at h
    rcases h with rfl | rfl | rfl | rfl | rfl | rfl <;> exact ⟨rfl, by decide +kernel, by trivial⟩

theorem sys_parts_numbered (p : Nat) (q : Part) (h : sys.parts[p]? = some q) : q.num = p := by
  have k : ∀ n, n < 8 → (sys.parts[n]?.map Part.num) = some n := by decide +kernel
  have l : p < 8 := by
    have := (List.getElem?_eq_some_iff.mp h).1
    exact this
  have := k p l
  rw [h] at this
  exact Option.some.inj this

/-- Partitions that stand at their places; a sample that throttles a die, and one that does not. -/
theorem witness_ModuleAndPower_events :
    Numbered sys ∧ (∃ t, exec (.thermalThrottle [.junction 0 95]) sys = .next t ∧ decide (t.mgmt.throttled ≠ sys.mgmt.throttled) = true) ∧
      (∃ t, exec (.thermalThrottle [.junction 0 94]) sys = .next t ∧ decide (t.mgmt.throttled = sys.mgmt.throttled) = true) ∧
      (sys.part 0).events[4]?.isSome = true :=
  ⟨sys_parts_numbered, next_of (by decide +kernel), next_of (by decide +kernel), by decide +kernel⟩

/-! ### Single steps -/

/-- The group after an instruction that it issues on the machine of one group. -/
def after (i : Instr) (g : Group) : Option Group :=
  match exec i (at_ g) with
  | .next t => t.grp? 2
  | _ => none

/-- The group of width 32. -/
def grp32 : Group := { grp with width := 32, active := laneMask 32, live := laneMask 32 }

/-- A register with the given lanes from lane 0 up, and zero in the others. -/
def lanes (id : Nat) (vs : List Lane) (tag : BitVec 4) : PReg := { reg id 0 tag with lanes := (List.range 64).map fun l => vs.getD l 0 }

/-- R137: add.i32 wraps; under SAT it clamps. -/
theorem test_add_wraps :
    ((after (.addVr H0 ⟨3, 1, 2, 0, 0, false, false, false, false, 5, 0, false⟩) (grpV [0x7FFFFFFF, 1] 5)).map fun g => g.val false 3 7) =
      some 0x80000000 := by decide +kernel
theorem test_add_saturates :
    ((after (.addVr H0 ⟨3, 1, 2, 0, 0, false, false, false, false, 5, 0, true⟩) (grpV [0x7FFFFFFF, 1] 5)).map fun g => g.val false 3 7) =
      some 0x7FFFFFFF := by decide +kernel

/-- R137: a register that is source and destination is read before it is written; sub takes B from A. -/
theorem test_sub_order :
    ((after (.subVr H0 ⟨1, 1, 2, 0, 0, false, false, false, false, 5, 0, false⟩) (grpV [10, 3] 5)).map fun g => g.val false 1 0) =
      some 7 := by decide +kernel

/-- R137: a division by zero gives the greatest value of the type; −7 ÷ 2 truncates toward zero; the remainder has the dividend's sign. -/
theorem test_div :
    ((after (.div H0 ⟨3, 1, 2, 0, 0, false, false, false, false, 6, 0, false⟩) (grpV [5, 0] 6)).map fun g => g.val false 3 0) =
        some 0xFFFFFFFF ∧
      ((after (.div H0 ⟨3, 1, 2, 0, 0, false, false, false, false, 5, 0, false⟩) (grpV [0xFFFFFFF9, 2] 5)).map fun g => g.val false 3 0) =
        some 0xFFFFFFFD := by decide +kernel
theorem test_rem :
    ((after (.rem H0 ⟨3, 1, 2, 0, 0, false, false, false, false, 5, 0, false⟩) (grpV [0xFFFFFFF9, 2] 5)).map fun g => g.val false 3 0) =
      some 0xFFFFFFFF := by decide +kernel

/-- R137: packed bytes do not carry into each other. -/
theorem test_add_bytes :
    ((after (.addVr H0 ⟨3, 1, 2, 0, 0, false, false, false, false, 2, 0, false⟩) (grpV [0x00FF00FF, 0x00010001] 2)).map
      fun g => g.val false 3 0) = some 0 := by decide +kernel

/-- R137: a shift by the width or more leaves nothing of N32, and copies of the sign of I32. -/
theorem test_shifts :
    ((after (.shlVr H0 ⟨3, 1, 2, 0, 0, false, false, false, false, 6, 0, false⟩) (grpV [1, 32] 6)).map fun g => g.val false 3 0) = some 0 ∧
      ((after (.shrVr H0 ⟨3, 1, 2, 0, 0, false, false, false, false, 5, 0, false⟩) (grpV [0x80000000, 40] 5)).map fun g => g.val false 3 0) =
        some 0xFFFFFFFF := by decide +kernel

/-- R144: counts of one zero word and of 0x00F0. -/
theorem test_counts :
    ((after (.clz H0 ⟨3, 0, 1, 0, 0, false, false, false, false, 0, 0, false⟩) (grpV [0] 0)).map fun g => g.val false 3 0) = some 32 ∧
      ((after (.ctz H0 ⟨3, 0, 1, 0, 0, false, false, false, false, 0, 0, false⟩) (grpV [0xF0] 0)).map fun g => g.val false 3 0) = some 4 ∧
      ((after (.popc H0 ⟨3, 0, 1, 0, 0, false, false, false, false, 0, 0, false⟩) (grpV [0xF0] 0)).map fun g => g.val false 3 0) = some 4 := by
  decide +kernel

/-- R188, R191: 0.5 × 3.0 = 1.5; 1 × 1 − 1 is +0 in one rounding. -/
theorem test_float :
    ((after (.mulVi H0 ⟨3, 1, 0x3F00, false, false, 9, 0, false, 2⟩) (grpV [0x40400000] 9)).map fun g => g.val false 3 0) =
        some 0x3FC00000 ∧
      ((after (.fma H0 ⟨4, 1, 2, 3, false, false, false, false, false, 9, 0, false, false⟩) (grpV [0x3F800000, 0x3F800000, 0xBF800000] 9)).map
        fun g => g.val false 4 0) = some 0 := by decide +kernel

/-- R179: a source under another tag raises FORMAT, which ends the launch: nothing is written (R355). -/
theorem test_format :
    ((after (.addVr H0 ⟨6, 1, 2, 0, 0, false, false, false, false, 9, 0, false⟩) (grpV [1, 1] 5)).map fun g => (g.life, (g.preg? 6).isSome)) =
      some (.gone, false) := by decide +kernel

/-- The worked example of R199: the values 300, −7, 12 and −200 as I8, in byte 2. -/
theorem test_cvt_example :
    ((after (.cvt H0 ⟨9, 5, 1, 5, 2, false, false, 0, true⟩)
      { grp with pregs := [lanes 0 [300, 0xFFFFFFF9, 12, 0xFFFFFF38] 5], cur := [(5, 0)], nextPid := 1 }).map fun g =>
        [g.val false 9 0, g.val false 9 1, g.val false 9 2, g.val false 9 3]) =
      some [0x007F0000, 0x00F90000, 0x000C0000, 0x00800000] := by decide +kernel

/-- The worked example of R202: 13.0, 5.0, 0.75 and −0.1875 as a DX block of four planes, Eb − Ea at 3. -/
theorem test_todx_example :
    ((after (.cvtTodx H0 ⟨20, 4, 0, 9, 0x33, false, false, 0, false⟩)
      { grp32 with pregs := [lanes 0 [0x41500000, 0x40A00000, 0x3F400000, 0xBE400000] 9], cur := [(4, 0)], nextPid := 1 }).map fun g =>
        (List.range 8).map fun l => g.val false 20 l) =
      some [0x0000827F, 0x00000003, 0x00000008, 0x00000001, 0x00000007, 0x0000000C, 0x00000003, 0] := by decide +kernel

/-- The same block read back with two planes: 12.0, 4.0, 0.5 and +0. -/
theorem test_fromdx_example :
    ((after (.cvtFromdx H0 ⟨21, 20, 9, 0, 0x13, false, false, 0, false⟩)
      { grp32 with
        pregs := [lanes 0 [0x0000827F, 0x00000003, 0x00000008, 0x00000001, 0x00000007, 0x0000000C, 0x00000003, 0] 0]
        cur := [(20, 0)]
        nextPid := 1 }).map fun g => (List.range 5).map fun l => g.val false 21 l) =
      some [0x41400000, 0x40800000, 0x3F000000, 0, 0] := by decide +kernel

/-- R155: an exclusive sum of ones gives each lane its number; red gives all of them the sum. -/
theorem test_scan_excl :
    ((after (.scan H0 ⟨5, 0, 1, 0, 8, false, false, false, false, 5, 0, false⟩) (grpV [1] 5)).map fun g =>
      [g.val false 5 0, g.val false 5 1, g.val false 5 63]) = some [0, 1, 63] := by decide +kernel
theorem test_red :
    ((after (.red H0 ⟨5, 0, 1, 0, 0, false, false, false, false, 5, 0, false⟩) (grpV [1] 5)).map fun g => g.val false 5 17) = some 64 := by
  decide +kernel

/-- R97, R76: a butterfly of parameter 0 reads the neighbour; a last read frees its name. -/
theorem test_swizzle_last :
    ((after (.movVr H0 ⟨3, 0, 1, 1, 0, false, true, false, false, 6, 0, false⟩)
      { grp with pregs := [lanes 0 [10, 20] 6], cur := [(1, 0)], nextPid := 1 }).map fun g =>
        (g.val false 3 0, g.val false 3 1, (g.preg? 1).isSome)) = some (20, 10, false) := by decide +kernel

/-- R160, R163: uniform arithmetic on 64 bits; movl loads 64 bits; S0 stays zero. -/
theorem test_uniform :
    ((after (.addUr H0 ⟨5, 3, 4, 7⟩) (grpS grp [0, 0, 0xFFFFFFFFFFFFFFFF, 2])).map fun g => g.s 5) = some 1 ∧
      ((after (.movl H0 ⟨7, 0, 0, 1⟩ 0x23456789ABCDEF) grp).map fun g => g.s 7) = some 0x0123456789ABCDEF ∧
      ((after (.addUr H0 ⟨0, 3, 4, 7⟩) (grpS grp [0, 0, 1, 2])).map fun g => g.s 0) = some 0 := by decide +kernel

/-- R124: an unordered comparison with NaN fails `le`; R125: pand with the second source inverted. -/
theorem test_cmp_nan :
    ((after (.cmp H0 ⟨3, 1, 2, 0, 0, false, false, false, false, 9, 3, false⟩) (grpV [0x7FC00000, 0] 9)).map fun g => g.p 3) = some 0 := by
  decide +kernel
theorem test_pand :
    ((after (.pand H0 ⟨4, 1, 2, false, false, 2⟩) { grp with preds := (grp.preds.set 1 ⟨0xFF, some 0⟩).set 2 ⟨0x0F, some 0⟩ }).map
      fun g => g.p 4) = some 0xF0 := by decide +kernel

/-- R132, its worked examples: the signatures that brk and endif carry. -/
theorem test_signature :
    crcBits 16 0 (shiftMajor (shiftMajor (shiftMajor 0xFFFF 0x20) 0x60) 0xB6) = 0x0C35 ∧
      crcBits 16 0 (shiftMajor (shiftMajor 0xFFFF 0x01) 0xB2) = 0x62EB := by decide +kernel

/-- R129: `if` keeps the lanes of P1 and pushes the mask; R133: an exit of all lanes ends the group. -/
theorem test_if :
    (let g := { grpIf with stack := [], active := laneMask 64 }
     let f := ctlBody (.ifC H0) ctlIf g ⟨2, 1, false, true, false, 0⟩
     (after (.ifC H0 f) g).map fun g => (g.active, g.pc, g.stack.length)) = some (0xFFFFFFFF, 8, 1) := by decide +kernel
theorem test_exit :
    (let f := ctlBody (.exitC H0) ctlExit grp ⟨2, 0, false, false, false, 0⟩
     (after (.exitC H0 f) grp).map fun g => (g.life, g.live)) = some (.gone, 0) := by decide +kernel

/-- R217: add on the stack 3, 4 with B popped leaves 7, sets the lane's status and consumes one entry. -/
theorem test_xv_add :
    ((after (.xv H0 ⟨1, 16, 3, false, false, false, false⟩) grpXv).map fun g => (g.laneStack 5, (g.p 3).getLsbD 5)) = some ([7], true) := by
  decide +kernel

/-- R219, R220: what is pushed is popped. -/
theorem test_kpush :
    ((after (.kpush H0 ⟨0, 0, 1, 0, 0, false, false, false, false, 5, 0, false⟩) (grpV [3] 5)).map fun g => g.laneStack 9) = some [3] := by
  decide +kernel
theorem test_kpop :
    ((after (.kpop H0 ⟨2, 0, 0, 0, 0, false, false, false, false, 5, 0, false⟩) grpK).map fun g => (g.val false 2 9, g.laneStack 9)) =
      some (9, []) := by decide +kernel

/-- R236, its worked example: width 32, four bytes at 256 × l cost 15; a pitch of 264 and one word for all lanes cost nothing. -/
theorem test_bank_cost :
    (let cost := fun (p : Int) => bankCost 1048576 4 ((List.range 32).map fun l => (l, p * l))
     (cost 256, cost 264, cost 0)) = (15, 0, 0) := by decide +kernel

/-- R11, R232, the worked example: the home slice of PA 0x0000_0012_3456_7000. -/
theorem test_home_slice : homeSlice 0x1234567000 = 105 := by decide +kernel

/-- R341, its worked example: scores at T = 9, and at T = 10 with a virtual loss on child 1. -/
theorem test_ford_scores :
    (let h : THead := ⟨0, 8, 0, 0x30000000, 0x20000000, 0, 0, 0, 0, 1, 0, 4, 0⟩
     let c := fun (n : Nat) (w : Word) (p v : Nat) => ({ TNode.freed with n := n, w := w, p := p, v := v, flags := 0 } : TNode)
     [childScore h 9 (c 4 1073741824 32768 0), childScore h 9 (c 3 805306368 16384 0), childScore h 9 (c 1 134217728 16384 0),
       childScore h 10 (c 4 1073741824 32768 1), childScore h 10 (c 3 805306368 16384 0), childScore h 10 (c 1 134217728 16384 0)]) =
      [510027366, 419430400, 436207616, 319591014, 427598080, 452542976] := by decide +kernel

/-- R185, its worked example: 2^100, 1.0 and −2^100 in any order. -/
theorem test_fabric_sum :
    (let h : FRec := ⟨0, 0, 3, 0, 63, 0, false, 9, 1, 0, 0, 0, 0⟩
     let a := addendOf h 0x71800000
     let b := addendOf h 0x3F800000
     let c := addendOf h 0xF1800000
     [(rootElem h ((a.merge b).merge c)).1, (rootElem h ((a.merge c).merge b)).1]) = [0x3F800000, 0x3F800000] := by decide +kernel

/-- R287: an atomic add of 5 to the word at the start of slice SRAM returns the old word and leaves the sum. -/
theorem test_atomic_add :
    leads (exec (.homeSliceAccess 9) (sysR grp (rq (.atomic 0 8 5 0 (.uni 5))))) (fun t =>
      decide (devWord t sramBase = 0x5A4B010200001005) && decide ((t.grp? 2).map (fun g => g.s 5) = some 0x5A4B010200001000)) = true := by
  decide +kernel

/-- R245: a load of two bytes sign-extended under I32. -/
theorem test_load_signed : widenLanes 1 true [0x00, 0x80] = [0xFFFF8000] := by decide +kernel

/-- R272: mzero clears the tile. -/
theorem test_mzero :
    leads (exec (.matrixEngineStep 0) { atShare grp with mxcmds := [matrix (.mzero 3 true)] }) (fun t =>
      decide ((t.mxcmds.map MxCmd.finished) = [true])) = true := by decide +kernel

/-- R343: a descent at node 1 goes to its child 3, which then holds one virtual loss. -/
theorem test_descent :
    leads (exec (.fordAction 4) (descSys (2, 0))) (fun t =>
      decide (Memory.bytes t.mem (nodePa 3) 32 = { node 1 13 2 with v := 1 }.bytes)) = true := by decide +kernel

/-- R27, R32: a task table that runs past the end of slice SRAM is refused, one that ends there is not. -/
theorem test_task_table_held :
    (let at_ := fun (n : Nat) => partRecord.set 3 (0x0100000000000000 + BitVec.ofNat 64 (sramEnd - 32 * n))
     partRecordBad 1 (at_ 3) = true ∧ partRecordBad 1 (at_ 4) = false) := by decide +kernel

/-- R4, R257: a line over a fault queue's control block is marked in `consumed` alone. -/
theorem test_poison_kept : ((poisonLine 0x10000 sys).syn.map fun x => x.1) = [0x10008] := by decide +kernel

/-- R401: an image under another magic is not accepted. -/
theorem test_image_magic : imageAccepted { image with header := image.header.set 0 0x484C4E4600000000 } = false := by decide +kernel

/-- FIPS 180-4, its example: SHA-384 of "abc" (R402). -/
theorem test_sha384 :
    sha384 [0x61, 0x62, 0x63] =
      (natBytes 48 0xcb00753f45a35e8bb5a03d699ac65007272c32ab0eded1631a8b605a43ff5bed8086072ba1e7cc2358baeca134c825a7).reverse := by
  decide +kernel

/-- RFC 8032, 7.1, test 1: the public key of a secret key (R403). -/
theorem test_ed_public :
    edPublic (natBytes 32 0x9d61b19deffd5a60ba844af492ec2cc44449c5697b326919703bac031cae7f60).reverse =
      (natBytes 32 0xd75a980182b10ab7d54bfed3c964073a0ee172f3daa62325af021a68f707511a).reverse := by
  decide +kernel

/-- RFC 5903, 8.2: the x coordinate of an initiator's point of secp384r1 (R406). -/
theorem test_ec_point :
    ecAgree 0x099F3C7034D4A2C699884D73A375A67F7624EF7C6B3C0F160647B67414DCE655E35B538041E649EE3FAEF896783AB194 ecBase =
      (natBytes 48 0x667842D7D180AC2CDE6F74F37551F55755C7645C20EF73E31634FE72B4C55EE6DE3AC808ACB4BDB4C88732AEE95F41AA).reverse := by
  decide +kernel

end Sys2Proof.Tests
end

section
/-! PROOFS. What a write to device memory leaves (R66, R231, R283, R366), value landing in registers (R245), and requests performed at their
home slice (R233). -/

namespace Sys2Proof.Machine

set_option Elab.async false

/-! ### Memory after writes -/

/-- A byte after bytes were written from an address up. -/
theorem Memory.get_putBytes {m : List Host.Cell} (hw : Memory.wf m) (a x : Nat) (bs : List Byte) :
    Memory.get (Memory.putBytes m a bs) x = if a ≤ x ∧ x < a + bs.length then bs.getD (x - a) 0 else Memory.get m x := by
  split
  · next h =>
    have hx : x - a < bs.length := by omega
    have := Memory.get_putBytes_in m hw a (x - a) bs hx
    rw [show a + (x - a) = x by omega] at this
    simp [this, hx]
  · next h => exact Memory.get_putBytes_out m a x bs (by omega)

/-- Memory after some runs of bytes were written, one after another. -/
def Memory.putRuns (m : List Host.Cell) (rs : List (Nat × List Byte)) : List Host.Cell :=
  rs.foldl (fun m r => Memory.putBytes m r.1 r.2) m

@[simp] theorem Memory.putRuns_nil (m : List Host.Cell) : Memory.putRuns m [] = m := rfl

@[simp] theorem Memory.putRuns_cons (m : List Host.Cell) (r : Nat × List Byte) (rs : List (Nat × List Byte)) :
    Memory.putRuns m (r :: rs) = Memory.putRuns (Memory.putBytes m r.1 r.2) rs := rfl

/-- Cutting bytes into runs leaves memory as if each byte that is not skipped had been written alone. -/
theorem Memory.putRuns_keepRuns_cons (m : List Host.Cell) (skip : Nat → Bool) (a : Nat) (b : Byte) (bs : List Byte) :
    Memory.putRuns m (keepRuns skip a (b :: bs)) =
      Memory.putRuns (if skip a then m else Memory.put m a b) (keepRuns skip (a + 1) bs) := by
  rw [keepRuns]
  cases skip a with
  | true => rfl
  | false =>
    match keepRuns skip (a + 1) bs with
    | [] => rfl
    | (j, r) :: rest =>
      by_cases hj : j = a + 1
      · subst hj; simp [Memory.putBytes]
      · simp [hj, Memory.putBytes]

/-- Of the bytes from an address up, those that are not skipped are written. -/
theorem Memory.get_putRuns_keepRuns {m : List Host.Cell} (hw : Memory.wf m) (skip : Nat → Bool) (a x : Nat) (bs : List Byte) :
    Memory.get (Memory.putRuns m (keepRuns skip a bs)) x =
      if a ≤ x ∧ x < a + bs.length ∧ skip x = false then bs.getD (x - a) 0 else Memory.get m x := by
  induction bs generalizing m a with
  | nil => simp [keepRuns]; omega
  | cons b bs ih =>
    have hw' : Memory.wf (if skip a then m else Memory.put m a b) := by
      split
      · exact hw
      · exact Memory.put_wf m a b hw
    rw [Memory.putRuns_keepRuns_cons, ih hw']
    rcases Nat.lt_trichotomy x a with hx | rfl | hx
    · simp only [show ¬a + 1 ≤ x by omega, show ¬a ≤ x by omega, false_and, if_false]
      split
      · rfl
      · exact Memory.get_put_ne _ _ _ _ (by omega)
    · cases skip x <;> simp [Memory.get_put_self m hw]
    · have hd : (b :: bs).getD (x - a) 0 = bs.getD (x - (a + 1)) 0 := by
        rw [show x - a = x - (a + 1) + 1 by omega, List.getD_cons_succ]
      have hm : Memory.get (if skip a then m else Memory.put m a b) x = Memory.get m x := by
        split
        · rfl
        · exact Memory.get_put_ne _ _ _ _ (by omega)
      simp only [hd, hm, List.length_cons, show a + 1 ≤ x ↔ a ≤ x by omega, show x < a + 1 + bs.length ↔ x < a + (bs.length + 1) by omega]

/-! ### Reads where every check code is good -/

section
variable {s : State} (hs : s.syn = [])
include hs

theorem devSyndrome_good (w : Nat) : devSyndrome s w = .good := by
  simp [devSyndrome, synOf, hs, classify]

theorem devBytes_eq (a n : Nat) : devBytes s a n = Memory.bytes s.mem a n := by
  simp [devBytes, devByte, Memory.bytes, hs]

theorem devBad_eq_false (a n : Nat) : devBad s a n = false := by
  simp [devBad, hs]

theorem unitWord_eq (a : Nat) : unitWord s a = memWord s a := by
  simp [unitWord, devBad_eq_false hs, devWord, devBytes_eq hs, memWord]

theorem badLines_eq_nil (a n : Nat) : badLines s a n = [] := by
  simp [badLines, devSyndrome_good hs]

/-- Reading words leaves everything as it is. -/
theorem readWords_run (ws : List Nat) : (readWords ws).run s = s := by
  simp [readWords, hs]

end

/-! ### Groups and requests found by identifier -/

/-- A group after a change of every group that keeps the identifiers. -/
theorem State.grp?_map {s t : State} (f : Group → Group) (hf : ∀ x, (f x).gid = x.gid) (ht : t.groups = s.groups.map f) (k : Nat) :
    t.grp? k = (s.grp? k).map f := by
  simp [State.grp?, ht, List.find?_map, hf]

theorem State.mem_of_req? {s : State} {k : Nat} {r : Req} (h : s.req? k = some r) : r ∈ s.reqs := List.mem_of_find?_eq_some h

/-- A group that waits for nothing more. -/
def Group.released (g : Group) : Group := { g with hold := .none }

theorem SameWork.refl (g : Group) : SameWork g g := ⟨rfl, rfl, rfl, rfl, rfl, rfl, rfl, rfl, rfl, rfl⟩

theorem SameWork.trans {g g' g'' : Group} (h : SameWork g g') (h' : SameWork g' g'') : SameWork g g'' := by
  unfold SameWork at *
  simp_all

theorem SameWork.released (g : Group) : SameWork g g.released := ⟨rfl, rfl, rfl, rfl, rfl, rfl, rfl, rfl, rfl, rfl⟩

theorem SameWork.setS (g : Group) (now r : Nat) (v : Word) (bad : Bool) : SameWork g (g.setS now r v bad) := by
  unfold Group.setS
  split
  · exact .refl g
  · exact ⟨rfl, rfl, rfl, rfl, rfl, rfl, rfl, rfl, rfl, rfl⟩

theorem SameWork.land (g : Group) (now : Nat) (pids : List Nat) (l : Nat) (vals : List Lane) (bad : Bool) :
    SameWork g (g.land now pids l vals bad) := ⟨rfl, rfl, rfl, rfl, rfl, rfl, rfl, rfl, rfl, rfl⟩

/-! ### Waits that a write satisfies (R283) -/

/-- A request is a wait parked on a device word that a write of `n` bytes at `a` touches, and the word meets its target. -/
def waitMet (s : State) (a n : Nat) (r : Req) : Bool :=
  match r.op, r.phase, r.pieces with
  | .waitGe t _, .parked _, p :: _ =>
    !r.sp && a < p.addr + 8 && p.addr < a + n && decide (t.toNat ≤ (unitWord s p.addr).toNat)
  | _, _, _ => false

theorem waitMet_of_wait {s : State} {a n : Nat} {q : Req} {target : Word} {rem : Bool} {k : Nat} {x : Piece} {more : List Piece}
    (ho : q.op = .waitGe target rem) (hk : q.phase = .parked k) (hx : q.pieces = x :: more) :
    waitMet s a n q = (!q.sp && a < x.addr + 8 && x.addr < a + n && decide (target.toNat ≤ (unitWord s x.addr).toNat)) := by
  simp [waitMet, ho, hk, hx]

/-- What a group is after the owners of some requests go on. -/
def Group.wokenBy (rs : List Req) (g : Group) : Group := if g.gid ∈ rs.map Req.gid then g.released else g

@[simp] theorem Group.wokenBy_gid (rs : List Req) (g : Group) : (g.wokenBy rs).gid = g.gid := by
  unfold Group.wokenBy; split <;> rfl

theorem Group.wokenBy_of_mem {rs : List Req} {r : Req} {g : Group} (hr : r ∈ rs) (hg : g.gid = r.gid) : g.wokenBy rs = g.released :=
  if_pos (hg ▸ List.mem_map_of_mem hr)

theorem SameWork.wokenBy (rs : List Req) (g : Group) : SameWork g (g.wokenBy rs) := by
  unfold Group.wokenBy
  split
  · exact .released g
  · exact .refl g

/-- A group that some requests wake waits for nothing, or for what it waited for before. -/
theorem Group.wokenBy_hold (rs : List Req) (g : Group) : (g.wokenBy rs).hold = .none ∨ (g.wokenBy rs).hold = g.hold := by
  unfold Group.wokenBy
  split
  · exact .inl rfl
  · exact .inr rfl

theorem Group.released_wokenBy (rs : List Req) (r : Req) (g : Group) :
    Group.wokenBy rs (if g.gid == r.gid then g.released else g) = g.wokenBy (r :: rs) := by
  by_cases h1 : g.gid = r.gid <;> by_cases h2 : g.gid ∈ rs.map Req.gid <;>
    simp_all [Group.wokenBy, Group.released]

/-- The owners of some requests go on. -/
theorem foldl_unpark (rs : List Req) (s : State) :
    rs.foldl (fun s r => unpark r.gid s) s = { s with groups := s.groups.map (Group.wokenBy rs) } := by
  induction rs generalizing s with
  | nil =>
    have : Group.wokenBy [] = id := rfl
    simp [this]
  | cons r rs ih =>
    have : Group.wokenBy (r :: rs) = Group.wokenBy rs ∘ fun g => if g.gid == r.gid then g.released else g :=
      funext fun g => (Group.released_wokenBy rs r g).symm
    rw [List.foldl_cons, ih, this, ← List.map_map]
    rfl

theorem wakeDevWaits_eq (a n : Nat) (s : State) :
    wakeDevWaits a n s =
      { s with
        reqs := s.reqs.filter fun r => !waitMet s a n r
        groups := s.groups.map (Group.wokenBy (s.reqs.filter (waitMet s a n))) } :=
  foldl_unpark (s.reqs.filter (waitMet s a n)) { s with reqs := s.reqs.filter fun r => !waitMet s a n r }

/-- What follows from a write changes only copies of what was there, and the waits that it satisfies with their groups (R66, R231,
R283). -/
theorem afterWrite_eq (a n : Nat) (s : State) :
    ∃ tlb il pt pc, afterWrite a n s =
      { s with
        tlb := tlb, ilines := il, presT := pt, presC := pc
        reqs := s.reqs.filter fun r => !waitMet s a n r
        groups := s.groups.map (Group.wokenBy (s.reqs.filter (waitMet s a n))) } := by
  have hT : ∃ tlb il pt, (if s.presT.isEmpty then s else dropTranslations (linesOf 64 a n) s) =
      { s with tlb := tlb, ilines := il, presT := pt } := by
    split <;> exact ⟨_, _, _, rfl⟩
  obtain ⟨tlb, il, pt, hT⟩ := hT
  have hC : ∀ u : State, ∃ il pc, (if u.presC.isEmpty then u else dropCode (linesOf 128 a n) u) = { u with ilines := il, presC := pc } := by
    intro u
    split <;> exact ⟨_, _, rfl⟩
  obtain ⟨il', pc, hC⟩ := hC { s with tlb := tlb, ilines := il, presT := pt }
  refine ⟨tlb, il', pt, pc, ?_⟩
  simp only [afterWrite, hT, hC, wakeDevWaits_eq]
  rfl

theorem afterWrite_mem (a n : Nat) (s : State) : (afterWrite a n s).mem = s.mem := by
  obtain ⟨_, _, _, _, h⟩ := afterWrite_eq a n s
  rw [h]

theorem afterWrite_mgmt (a n : Nat) (s : State) : (afterWrite a n s).mgmt = s.mgmt := by
  obtain ⟨_, _, _, _, h⟩ := afterWrite_eq a n s
  rw [h]

theorem afterWrite_syn (a n : Nat) (s : State) : (afterWrite a n s).syn = s.syn := by
  obtain ⟨_, _, _, _, h⟩ := afterWrite_eq a n s
  rw [h]

theorem afterWrite_parts (a n : Nat) (s : State) : (afterWrite a n s).parts = s.parts := by
  obtain ⟨_, _, _, _, h⟩ := afterWrite_eq a n s
  rw [h]

theorem afterWrite_reqs (a n : Nat) (s : State) : (afterWrite a n s).reqs = s.reqs.filter fun r => !waitMet s a n r := by
  obtain ⟨_, _, _, _, h⟩ := afterWrite_eq a n s
  rw [h]

theorem afterWrite_groups (a n : Nat) (s : State) :
    (afterWrite a n s).groups = s.groups.map (Group.wokenBy (s.reqs.filter (waitMet s a n))) := by
  obtain ⟨_, _, _, _, h⟩ := afterWrite_eq a n s
  rw [h]

/-- No group comes to wait on a reply word by what follows from a write. -/
theorem NoReply.afterWrite {s : State} {a n : Nat} (h : NoReply s a n) (b k : Nat) : NoReply (afterWrite b k s) a n := by
  intro q hq e he
  rw [afterWrite_groups] at hq
  obtain ⟨g, hg, rfl⟩ := List.mem_map.1 hq
  have hp : (g.wokenBy (s.reqs.filter (waitMet s b k))).part = g.part := (SameWork.wokenBy _ g).2.2.2.2.2.2.2.2.2
  rcases Group.wokenBy_hold (s.reqs.filter (waitMet s b k)) g with hh | hh
  · simp [hh] at he
  · rw [hp, State.part, afterWrite_parts]
    exact h g hg e (hh ▸ he)

/-! ### Replies that a write carries (R366) -/

/-- The reply that a group takes with a write of `n` bytes at `a`. -/
def replyTaken (a n : Nat) (s : State) (g : Group) : Option (Group × Word) :=
  match g.hold with
  | .page k =>
    let w := replyAddr (s.part g.part) k
    if a < w + 8 && w < a + n && fqWritten s g.part ≤ k + 512 then (if devWord s w = 0 then none else some (g, devWord s w)) else none
  | _ => none

theorem takeReplies_eq (a n : Nat) (s : State) :
    takeReplies a n s = (s.groups.filterMap (replyTaken a n s)).foldl (fun u h =>
      if h.1.life == .saved then u.modGrp h.1.gid fun g => { g with hold := .replied h.2 } else takeReply h.1.gid h.2 u) s := rfl

/-- Where no group waits on a reply word among the bytes, a write carries no reply. -/
theorem takeReplies_of_noReply {s : State} {a n : Nat} (h : NoReply s a n) : takeReplies a n s = s := by
  have none_taken : s.groups.filterMap (replyTaken a n s) = [] := by
    rw [List.filterMap_eq_nil_iff]
    intro g hg
    unfold replyTaken
    split
    · next k hk =>
      simp only [Bool.and_eq_true, decide_eq_true_eq]
      rw [if_neg fun c => h g hg k hk c.1]
    · rfl
  rw [takeReplies_eq, none_taken, List.foldl_nil]

/-- A part of a state that no step of a loop changes is as it was after the loop. -/
theorem foldl_keeps {α σ γ : Type} (π : σ → γ) (f : σ → α → σ) (hf : ∀ s x, π (f s x) = π s) (xs : List α) (s : σ) :
    π (xs.foldl f s) = π s := by
  induction xs generalizing s with
  | nil => rfl
  | cons x xs ih => rw [List.foldl_cons, ih, hf]

/-- A result that arrives changes only groups. -/
theorem deliver_eq (r : Req) (d : Dest) (size : Nat) (signed : Bool) (bs : List Byte) (bad : Bool) (s : State) :
    ∃ gs, deliver r d size signed bs bad s = { s with groups := gs } := by
  cases d with
  | none => exact ⟨_, rfl⟩
  | lane pids l => exact ⟨_, rfl⟩
  | uni x =>
    simp only [deliver]
    split <;> exact ⟨_, rfl⟩

theorem deliver_syn (r : Req) (d : Dest) (size : Nat) (signed : Bool) (bs : List Byte) (bad : Bool) (s : State) :
    (deliver r d size signed bs bad s).syn = s.syn := by
  obtain ⟨gs, h⟩ := deliver_eq r d size signed bs bad s
  rw [h]

theorem deliver_mem (r : Req) (d : Dest) (size : Nat) (signed : Bool) (bs : List Byte) (bad : Bool) (s : State) :
    (deliver r d size signed bs bad s).mem = s.mem := by
  obtain ⟨gs, h⟩ := deliver_eq r d size signed bs bad s
  rw [h]

theorem deliver_mgmt (r : Req) (d : Dest) (size : Nat) (signed : Bool) (bs : List Byte) (bad : Bool) (s : State) :
    (deliver r d size signed bs bad s).mgmt = s.mgmt := by
  obtain ⟨gs, h⟩ := deliver_eq r d size signed bs bad s
  rw [h]

theorem dropAnswers_syn (mine : Req → Bool) (s : State) : (dropAnswers mine s).syn = s.syn := by
  unfold dropAnswers
  refine foldl_keeps State.syn _ (fun u r => ?_) _ s
  split
  · exact deliver_syn ..
  · rfl

theorem endGroup_syn (s : State) (g : Group) : (endGroup s g).syn = s.syn := by
  unfold endGroup addLaunchCtr
  split
  · split <;> rfl
  · rfl

theorem endLaunch_syn (lid : Nat) (s : State) : (endLaunch lid s).syn = s.syn := by
  unfold endLaunch
  exact (dropAnswers_syn _ _).trans (foldl_keeps State.syn endGroup endGroup_syn _ _)

theorem takeReply_syn (gid : Nat) (v : Word) (s : State) : (takeReply gid v s).syn = s.syn := by
  unfold takeReply
  split
  · rfl
  · split
    · rfl
    · exact endLaunch_syn _ s

theorem takeReplies_syn (a n : Nat) (s : State) : (takeReplies a n s).syn = s.syn := by
  rw [takeReplies_eq]
  refine foldl_keeps State.syn _ (fun u r => ?_) _ s
  split
  · rfl
  · exact takeReply_syn ..

/-! ### Writes to device memory -/

/-- A write where every check code is good puts its bytes, and what follows from it happens. -/
theorem devWrite_run {s : State} (hs : s.syn = []) (a : Nat) (bs : List Byte) :
    (devWrite a bs).run s = afterWrite a bs.length { s with mem := Memory.putBytes s.mem a bs } := by
  have hw : (Prog.change (writeSyn a bs.length)).run s = s := by
    have h : writeSyn a bs.length s = s := by simp [writeSyn, hs]
    rw [Prog.run_change _ _ (by rw [h]) (by rw [h]), h]
  simp only [devWrite, Prog.run_all_cons, Prog.run_all_nil, readWords_run hs, hw, Prog.run_pokes]
  exact Prog.run_change _ _ (afterWrite_mem ..) (afterWrite_mgmt ..)

theorem devWrite_mem {s : State} (hs : s.syn = []) (a : Nat) (bs : List Byte) :
    ((devWrite a bs).run s).mem = Memory.putBytes s.mem a bs := by
  rw [devWrite_run hs, afterWrite_mem]

theorem devWrite_syn {s : State} (hs : s.syn = []) (a : Nat) (bs : List Byte) : ((devWrite a bs).run s).syn = [] := by
  rw [devWrite_run hs, afterWrite_syn, hs]

/-- Runs of bytes that are written one after another, each with the replies that it carries. -/
theorem devWrites_mem (rs : List (Nat × List Byte)) {s : State} (hs : s.syn = []) :
    ((Prog.all (rs.map fun r => .all [devWrite r.1 r.2, .change (takeReplies r.1 r.2.length)])).run s).mem = Memory.putRuns s.mem rs := by
  induction rs generalizing s with
  | nil => rfl
  | cons r rs ih =>
    have hr : ((Prog.change (takeReplies r.1 r.2.length)).run ((devWrite r.1 r.2).run s)).syn = [] :=
      (takeReplies_syn _ _ _).trans (devWrite_syn hs r.1 r.2)
    simp only [List.map_cons, Prog.run_all_cons, Prog.run_all_nil, ih hr, Prog.run_change_mem, devWrite_mem hs, Memory.putRuns_cons]

/-- Memory after a write by a host, a group or an engine: its bytes, but for those in the words of a fault queue that only the device
writes (R4). -/
theorem agentWrite_mem {s : State} (hs : s.syn = []) (hw : s.Inv) (a : Nat) (bs : List Byte) (x : Nat) :
    Memory.get ((agentWrite a bs).run s).mem x =
      if a ≤ x ∧ x < a + bs.length ∧ fqKept s x = false then bs.getD (x - a) 0 else Memory.get s.mem x := by
  rw [agentWrite, Prog.run_dyn]
  split
  · rw [devWrites_mem _ hs, Memory.get_putRuns_keepRuns hw]
  · next hk =>
    have free : a ≤ x → x < a + bs.length → fqKept s x = false := by
      intro h1 h2
      simp only [List.any_eq_true, List.mem_range, not_exists, not_and] at hk
      have := hk (x - a) (by omega)
      rwa [show a + (x - a) = x by omega, Bool.not_eq_true] at this
    rw [Prog.run_all_cons, Prog.run_all_cons, Prog.run_all_nil, Prog.run_change_mem, devWrite_mem hs, Memory.get_putBytes hw]
    have : (a ≤ x ∧ x < a + bs.length ∧ fqKept s x = false) ↔ (a ≤ x ∧ x < a + bs.length) :=
      ⟨fun h => ⟨h.1, h.2.1⟩, fun h => ⟨h.1, h.2, free h.1 h.2⟩⟩
    simp only [this]

/-- Such a write where every byte may be written and no group waits on a reply word there. -/
theorem agentWrite_run {s : State} (hs : s.syn = []) {a : Nat} {bs : List Byte} (hw : Writable s a bs.length)
    (hr : NoReply s a bs.length) :
    (agentWrite a bs).run s = afterWrite a bs.length { s with mem := Memory.putBytes s.mem a bs } := by
  have hk : ((List.range bs.length).any fun i => fqKept s (a + i)) = false := by
    simpa [Writable] using hw
  have ht : takeReplies a bs.length ((devWrite a bs).run s) = (devWrite a bs).run s := by
    rw [devWrite_run hs]
    exact takeReplies_of_noReply (NoReply.afterWrite (s := { s with mem := Memory.putBytes s.mem a bs }) hr a bs.length)
  rw [agentWrite, Prog.run_dyn, hk]
  simp only [Bool.false_eq_true, if_false, Prog.run_all_cons, Prog.run_all_nil]
  rw [Prog.run_change _ _ (by rw [ht]) (by rw [ht]), ht, devWrite_run hs]

/-- After a write the waits on the words that it touches have gone on where the new word meets their target (R283). -/
theorem waitsWoken_afterWrite {s : State} (hs : s.syn = []) (m : List Host.Cell) {a n w : Nat} (h1 : a < w + 8) (h2 : w < a + n) :
    WaitsWoken s (afterWrite a n { s with mem := m }) (fun q => q.sp = false) w (memWord { s with mem := m } w) := by
  intro q target rem k x more hq huniq ho hk hsp hx hxw
  have hmet : waitMet { s with mem := m } a n q = decide (target.toNat ≤ (memWord { s with mem := m } w).toNat) := by
    rw [waitMet_of_wait ho hk hx, hxw, unitWord_eq (s := { s with mem := m }) hs]
    simp [hsp, h1, h2]
  split
  · next hv =>
    have hmet : waitMet { s with mem := m } a n q = true := by simpa [hmet] using hv
    refine ⟨fun o hmem he => ?_, fun g hgrp => ?_⟩
    · rw [afterWrite_reqs, List.mem_filter] at hmem
      obtain rfl := huniq o hmem.1 he
      simp [hmet] at hmem
    · have hf := State.grp?_map _ (Group.wokenBy_gid _) (afterWrite_groups a n { s with mem := m }) q.gid
      refine ⟨g.released, ?_, .released g, rfl⟩
      rw [hf]
      simp only [State.grp?] at hgrp ⊢
      rw [hgrp, Option.map_some, Group.wokenBy_of_mem (List.mem_filter.2 ⟨hq, hmet⟩) (State.grp?_gid hgrp)]
  · next hv =>
    rw [afterWrite_reqs, List.mem_filter]
    exact ⟨hq, by simpa [hmet] using hv⟩

/-- A change of a request that is no wait leaves the waits as they are. -/
theorem WaitsWoken.modReq {s t : State} {on : Req → Prop} {w : Nat} {v : Word} (h : WaitsWoken s t on w v) {r : Req} (hr : r ∈ s.reqs)
    (hop : ∀ target rem, r.op ≠ .waitGe target rem) (f : Req → Req) (hf : ∀ q, (f q).id = q.id) :
    WaitsWoken s (t.modReq r.id f) on w v := by
  intro q target rem k x more hq huniq ho hk hon hx hxw
  have hne : q.id ≠ r.id := fun e => hop target rem (huniq r hr e.symm ▸ ho)
  have := h q target rem k x more hq huniq ho hk hon hx hxw
  split
  · next hv =>
    rw [if_pos hv] at this
    refine ⟨fun o hmem => ?_, this.2⟩
    obtain ⟨q', hq', rfl⟩ := List.mem_map.1 hmem
    have := this.1 q' hq'
    split
    · rwa [hf]
    · exact this
  · next hv =>
    rw [if_neg hv] at this
    exact List.mem_map.2 ⟨q, this, by simp [hne]⟩

/-! ### Values landing in registers (R245) -/

/-- A register after a lane of the registers `pids` has landed. -/
def PReg.landed (now : Nat) (pids : List Nat) (lane : Nat) (vals : List Lane) (bad : Bool) (r : PReg) : PReg :=
  match pids.findIdx? (· == r.id) with
  | some i =>
    { r with
      lanes := setLane r.lanes lane (vals.getD i 0)
      bad := if bad then r.bad ||| maskOf [lane] else r.bad &&& ~~~maskOf [lane]
      pend := r.pend - 1
      ready := if r.pend ≤ 1 then some now else none }
  | none => r

theorem Group.land_pregs (g : Group) (now : Nat) (pids : List Nat) (l : Nat) (vals : List Lane) (bad : Bool) :
    (g.land now pids l vals bad).pregs =
      (settleMerges now (g.pregs.map (PReg.landed now pids l vals bad)).length (g.pregs.map (PReg.landed now pids l vals bad))).filter
        fun r => !(r.orphan && r.pend == 0 && r.merge.isNone) := rfl

@[simp] theorem PReg.landed_id (now : Nat) (pids : List Nat) (l : Nat) (vals : List Lane) (bad : Bool) (r : PReg) :
    (r.landed now pids l vals bad).id = r.id := by
  unfold PReg.landed; split <;> rfl

/-- The `k`-th register of a load takes the `k`-th value. -/
theorem PReg.landed_of_get {pids : List Nat} {k : Nat} {r : PReg} (hn : pids.Nodup) (hk : pids[k]? = some r.id) (now l : Nat)
    (vals : List Lane) (bad : Bool) :
    r.landed now pids l vals bad =
      { r with
        lanes := setLane r.lanes l (vals.getD k 0)
        bad := if bad then r.bad ||| maskOf [l] else r.bad &&& ~~~maskOf [l]
        pend := r.pend - 1
        ready := if r.pend ≤ 1 then some now else none } := by
  obtain ⟨hlt, hget⟩ := List.getElem?_eq_some_iff.1 hk
  have hi : pids.findIdx? (· == r.id) = some k := by
    rw [List.findIdx?_eq_some_iff_getElem]
    refine ⟨hlt, by simp [hget], fun j hj => ?_⟩
    have : pids[j] ≠ pids[k] := fun e => absurd ((List.Nodup.getElem_inj_iff hn).1 e) (by omega)
    simpa [hget] using this
  simp [PReg.landed, hi]

theorem laneOf_setLane (ls : List Lane) (l m : Nat) (v : Lane) : laneOf (setLane ls l v) m = if m = l then v else laneOf ls m := by
  simp [laneOf, setLane, getD_putAt]

/-- A register after the parts that it waits for from register `pid` have come from `src` (R116, R117). -/
def PReg.mergedFrom (now pid : Nat) (src r : PReg) : PReg :=
  match r.merge with
  | some (p, m, k) =>
    if p == pid then
      { r with
        lanes := mixLanes m k src.lanes r.lanes
        bad := (r.bad &&& ~~~m) ||| (if k = 0 then src.bad &&& m else src.bad)
        merge := none
        ready := r.ready.map fun t => max t now }
    else r
  | none => r

@[simp] theorem PReg.mergedFrom_id (now pid : Nat) (src r : PReg) : (PReg.mergedFrom now pid src r).id = r.id := by
  unfold PReg.mergedFrom
  split
  · split <;> rfl
  · rfl

theorem PReg.mergedFrom_of_merge {r : PReg} (h : r.merge = none) (now pid : Nat) (src : PReg) : PReg.mergedFrom now pid src r = r := by
  simp [PReg.mergedFrom, h]

theorem mergeFrom_eq (now pid : Nat) (rs : List PReg) :
    mergeFrom now pid rs = (rs.find? fun r => r.id == pid).elim rs fun src => rs.map (PReg.mergedFrom now pid src) := by
  unfold mergeFrom
  split
  · next h => rw [h]; rfl
  · next h => rw [h]; rfl

/-- A register that waits for no other keeps its contents while others take the parts that they wait for. -/
theorem find_mergeFrom {rs : List PReg} {q : Nat} {x : PReg} (hx : rs.find? (fun r => r.id == q) = some x) (hm : x.merge = none)
    (now pid : Nat) : (mergeFrom now pid rs).find? (fun r => r.id == q) = some x := by
  rw [mergeFrom_eq]
  cases rs.find? fun r => r.id == pid with
  | none => exact hx
  | some src => simp [List.find?_map, hx, PReg.mergedFrom_of_merge hm]

theorem find_settleMerges {q : Nat} {x : PReg} (hm : x.merge = none) (now k : Nat) (rs : List PReg)
    (hx : rs.find? (fun r => r.id == q) = some x) : (settleMerges now k rs).find? (fun r => r.id == q) = some x := by
  induction k generalizing rs with
  | zero => exact hx
  | succ k ih =>
    unfold settleMerges
    split
    · exact ih _ (find_mergeFrom hx hm _ _)
    · exact hx

/-- What is found first is still found first among what is kept, if it is kept. -/
theorem find_filter {α : Type} {p q : α → Bool} {xs : List α} {x : α} (hx : xs.find? q = some x) (hp : p x = true) :
    (xs.filter p).find? q = some x := by
  obtain ⟨hq, as, bs, rfl, has⟩ := List.find?_eq_some_iff_append.1 hx
  rw [List.filter_append, List.filter_cons_of_pos hp, List.find?_append, List.find?_cons_of_pos hq,
    List.find?_eq_none.2 fun a ha => by simpa using has a (List.mem_filter.1 ha).1]
  rfl

/-- Values that land leave each of their registers that waits for no other with the value in the lane (R245). -/
theorem Group.find_land {g : Group} {pids : List Nat} {k pid : Nat} {x : PReg} (hn : pids.Nodup) (hk : pids[k]? = some pid)
    (hx : g.pregs.find? (fun r => r.id == pid) = some x) (hm : x.merge = none) (ho : x.orphan = false) (now l : Nat) (vals : List Lane)
    (bad : Bool) :
    ((g.land now pids l vals bad).pregs.find? fun r => r.id == pid) = some (x.landed now pids l vals bad) := by
  have hid : x.id = pid := by simpa using List.find?_some hx
  have hl := PReg.landed_of_get hn (hid ▸ hk) now l vals bad
  rw [Group.land_pregs]
  refine find_filter (find_settleMerges (by simp [hl, hm]) _ _ _ ?_) (by simp [hl, ho])
  simp [List.find?_map, hx]

/-- A machine in which the group of a request has taken its values. -/
theorem landed_of_land {s t : State} {r : Req} {pids : List Nat} {l : Nat} {vals : List Lane} {bad : Bool}
    (ht : t.groups = (s.modGrp r.gid fun g => g.land s.now pids l vals bad).groups) : Landed s t r pids l vals := by
  intro g hg
  refine ⟨g.land s.now pids l vals bad, ?_, .land .., fun k pid x hn hk hx hm ho => ?_⟩
  · have := State.grp?_modGrp_self s r.gid (fun g => g.land s.now pids l vals bad) g hg fun _ h => h
    simpa only [State.grp?, ht] using this
  · have hid : x.id = pid := by simpa using List.find?_some hx
    refine ⟨_, Group.find_land hn hk hx hm ho s.now l vals bad, ?_⟩
    rw [PReg.landed_of_get hn (hid ▸ hk)]
    exact ⟨by simp [laneOf_setLane], fun m hml => by simp [laneOf_setLane, hml], rfl, rfl⟩

/-! ### Requests at their home slice (R233) -/

/-- A request that is answered in full is in flight no more. -/
theorem answered_finishReq (r : Req) (s : State) : Answered (finishReq r.id s) r := by
  intro q hq
  simpa using (List.mem_filter.1 hq).2

/-- A request that nothing holds and whose slices take work is performed. -/
theorem exec_homeSliceAccess {s : State} {r : Req} (hr : s.req? r.id = some r) (hsp : r.sp = false) (hc : canPerform s r = true)
    (hv : served s r = true) (ha : structAwake s r = true) :
    exec (.homeSliceAccess r.id) s = .next ((homeAccess r).run s) := by
  have : s.reqs.find? (fun q => q.id == r.id) = some r := hr
  show Host.Outcome.next _ = _
  simp [this, hsp, hc, hv, ha]

/-- A piece of a load where every check code is good: its bytes are delivered with the last, and else kept with the request (R249). -/
theorem loadPiece_run {s : State} (hs : s.syn = []) (r : Req) (p : Piece) (rest : List Piece) (d : Dest) (size : Nat) (signed : Bool) :
    (loadPiece r p rest d size signed).run s =
      if rest = [] then finishReq r.id (deliver r d size signed (r.got ++ Memory.bytes s.mem p.addr p.len) r.bad s)
      else s.modReq r.id fun q => { q with pieces := rest, got := r.got ++ Memory.bytes s.mem p.addr p.len, bad := r.bad } := by
  simp only [loadPiece, Prog.run_dyn, Prog.run_all_cons, Prog.run_all_nil, badLines_eq_nil hs, List.map_nil, devReadEffect,
    readWords_run hs, devBytes_eq hs, devBad_eq_false hs, Bool.or_false, List.isEmpty_iff]
  rw [Prog.run_change]
  · split
    · exact deliver_mem ..
    · rfl
  · split
    · exact deliver_mgmt ..
    · rfl

/-- What a store's request is after its next piece: done with the last, and else the rest of its pieces with the rest of its bytes. -/
def Req.stored (p : Piece) (rest : List Piece) (data : List Byte) (q : Req) : Req :=
  { q with
    pieces := if rest.isEmpty then [p] else rest
    op := .store (data.drop p.len)
    phase := if rest.isEmpty then .done else .flying }

theorem storePiece_run (s : State) (r : Req) (p : Piece) (rest : List Piece) (data : List Byte) :
    (storePiece r p rest data).run s =
      ((agentWrite p.addr (data.take p.len)).run s).modReq r.id (Req.stored p rest data) := by
  rw [storePiece, Prog.run_all_cons, Prog.run_all_cons, Prog.run_all_nil, Prog.run_change _ _ rfl rfl]
  rfl

/-- A group that waited for its diagnostic store goes on (R382). -/
def Group.diagDone (g : Group) : Group := if g.hold == .diag then g.released else g

@[simp] theorem Group.diagDone_gid (g : Group) : g.diagDone.gid = g.gid := by
  unfold Group.diagDone; split <;> rfl

theorem SameWork.diagDone (g : Group) : SameWork g g.diagDone := by
  unfold Group.diagDone
  split
  · exact .released g
  · exact .refl g

theorem Group.diagDone_hold {g : Group} (h : g.hold = .none ∨ g.hold = .diag) : g.diagDone.hold = .none := by
  rcases h with h | h <;> simp [Group.diagDone, Group.released, h]

/-- The diagnostic store of a request is answered, and its group goes on. -/
def diagDone (r : Req) (s : State) : State := (finishReq r.id s).modGrp r.gid Group.diagDone

/-- A diagnostic store is ignored at a word of a fault queue that only the device writes (R4), and elsewhere is performed, with the check
code that its mask chooses (R382). It is answered all the same. -/
theorem diagAt_run {s : State} (hs : s.syn = []) {r : Req} {p : Piece} {rest : List Piece} (hp : r.pieces = p :: rest) (hsp : r.sp = false)
    (data : Word) (mask : Nat) :
    ∃ u, (diagAt r data mask).run s = diagDone r u ∧ (fqKept s p.addr = true → u = s) ∧
      (fqKept s p.addr = false → NoReply s p.addr 8 → u = afterWrite p.addr 8
        { s with mem := Memory.putBytes s.mem p.addr (wordBytes data), syn := if mask = 0 then [] else [(p.addr, mask)] }) := by
  have go : ∀ u, (Prog.change fun s => (finishReq r.id s).modGrp r.gid fun g =>
      if g.hold == .diag then { g with hold := .none } else g).run u = diagDone r u := fun u => Prog.run_change _ u rfl rfl
  have hsyn : synSet s.syn p.addr mask = if mask = 0 then [] else [(p.addr, mask)] := by simp [synSet, hs]
  have put (m : List Host.Cell) : (Prog.change fun u => afterWrite p.addr 8 { u with syn := synSet u.syn p.addr mask }).run
      { s with mem := m } = afterWrite p.addr 8 { s with mem := m, syn := if mask = 0 then [] else [(p.addr, mask)] } := by
    rw [← hsyn]
    exact Prog.run_change _ _ (afterWrite_mem ..) (afterWrite_mgmt ..)
  unfold diagAt
  simp only [hp, hsp, Bool.false_eq_true, if_false, Prog.run_dyn]
  cases hk : fqKept s p.addr with
  | true => exact ⟨s, go s, fun _ => rfl, nofun⟩
  | false =>
    simp only [Bool.false_eq_true, if_false, Prog.run_all_cons, Prog.run_all_nil, Prog.run_pokes, put, go]
    refine ⟨_, rfl, nofun, fun _ hr => ?_⟩
    have ht := takeReplies_of_noReply (NoReply.afterWrite (s := { s with
      mem := Memory.putBytes s.mem p.addr (wordBytes data), syn := if mask = 0 then [] else [(p.addr, mask)] }) hr p.addr 8)
    rw [Prog.run_change _ _ (by rw [ht]) (by rw [ht]), ht]

/-- The group of a diagnostic store goes on once the store is done, whatever groups the write has woken. -/
theorem diagDone_goesOn {s u : State} {r : Req} {rs : List Req} (hu : u.groups = s.groups.map (Group.wokenBy rs)) {g : Group}
    (hg : s.grp? r.gid = some g) (hd : g.hold = .diag) :
    ∃ g', (diagDone r u).grp? r.gid = some g' ∧ SameWork g g' ∧ g'.hold = .none := by
  have hu' : (finishReq r.id u).grp? r.gid = some (g.wokenBy rs) := by
    have := State.grp?_map (t := finishReq r.id u) _ (Group.wokenBy_gid rs) hu r.gid
    rw [this, hg, Option.map_some]
  refine ⟨(g.wokenBy rs).diagDone, State.grp?_modGrp_self _ _ _ _ hu' (by simp), (SameWork.wokenBy rs g).trans (.diagDone _), ?_⟩
  exact Group.diagDone_hold (hd ▸ Group.wokenBy_hold rs g)

/-! ### Loads and stores performed at their home slice -/

section
variable {s : State} {r : Req} {p : Piece} {rest : List Piece}

/-- The last piece of a load (R245, R247). -/
theorem loadPiece_answers (hs : s.syn = []) (d : Dest) (size : Nat) (signed : Bool) :
    let t := (loadPiece r p [] d size signed).run s
    t.mem = s.mem ∧ Answered t r ∧
      (∀ pids l, d = .lane pids l → Landed s t r pids l (widenLanes size signed (r.got ++ Memory.bytes s.mem p.addr p.len))) ∧
      ∀ x g, d = .uni x → x ≠ 0 → r.drop = false → s.grp? r.gid = some g → ∃ g', t.grp? r.gid = some g' ∧ SameWork g g' ∧
        g'.sreg x = ⟨widenUni size signed (r.got ++ Memory.bytes s.mem p.addr p.len), some s.now, r.bad⟩ ∧
        ∀ y, y ≠ x → g'.sreg y = g.sreg y := by
  intro t
  have ht : t = finishReq r.id (deliver r d size signed (r.got ++ Memory.bytes s.mem p.addr p.len) r.bad s) := by
    simp only [t, loadPiece_run hs, if_true]
  rw [ht]
  refine ⟨deliver_mem .., answered_finishReq r _, ?_, ?_⟩
  · rintro pids l rfl
    exact landed_of_land rfl
  · rintro x g rfl hx hdrop hg
    refine ⟨g.setS s.now x (widenUni size signed (r.got ++ Memory.bytes s.mem p.addr p.len)) r.bad, ?_, .setS .., ?_, ?_⟩
    · have := State.grp?_modGrp_self s r.gid
        (fun g => g.setS s.now x (widenUni size signed (r.got ++ Memory.bytes s.mem p.addr p.len)) r.bad) g hg
        fun y hy => by simpa [Group.setS, hx] using hy
      simp only [deliver, hdrop]
      exact this
    · simp [Group.sreg_setS, hx]
    · intro y hy
      simp [Group.sreg_setS, hy]

/-- A piece of a store (R4, R246, R283). -/
theorem storePiece_writes (hs : s.syn = []) (hw : s.Inv) (hr : s.req? r.id = some r) {data : List Byte} (hop : r.op = .store data) :
    let t := (storePiece r p rest data).run s
    (∀ x, Memory.get t.mem x =
      if p.addr ≤ x ∧ x < p.addr + (data.take p.len).length ∧ fqKept s x = false then data.getD (x - p.addr) 0 else Memory.get s.mem x) ∧
    (∀ q, q ∈ t.reqs → q.id = r.id → if rest = [] then q.phase = .done else q.pieces = rest ∧ q.op = .store (data.drop p.len)) ∧
    (Writable s p.addr (data.take p.len).length → NoReply s p.addr (data.take p.len).length →
      ∀ w, p.addr < w + 8 → w < p.addr + (data.take p.len).length → WaitsWoken s t (fun q => q.sp = false) w (memWord t w)) := by
  intro t
  have ht : t = ((agentWrite p.addr (data.take p.len)).run s).modReq r.id (Req.stored p rest data) := storePiece_run ..
  rw [ht]
  refine ⟨fun x => ?_, fun q hq hid => ?_, fun hfree hreply w h1 h2 => ?_⟩
  · rw [State.modReq_mem, agentWrite_mem hs hw]
    split
    · next h =>
      have hlt : x - p.addr < p.len := by
        have := h.2.1
        rw [List.length_take] at this
        omega
      simp [List.getD_eq_getElem?_getD, hlt]
    · rfl
  · obtain ⟨q', -, rfl⟩ := List.mem_map.1 hq
    have hq' : q'.id = r.id := by
      split at hid
      · next h => simpa using h
      · exact hid
    cases rest <;> simp [hq', Req.stored]
  · rw [agentWrite_run hs hfree hreply]
    have := (waitsWoken_afterWrite hs (Memory.putBytes s.mem p.addr (data.take p.len)) h1 h2).modReq (State.mem_of_req? hr)
      (by simp [hop]) (Req.stored p rest data) fun _ => rfl
    simpa only [memWord, State.modReq_mem, afterWrite_mem] using this

/-- A diagnostic store (R4, R382). -/
theorem diagAt_writes (hs : s.syn = []) (hw : s.Inv) (hp : r.pieces = p :: rest) (hsp : r.sp = false) (data : Word) (mask : Nat) :
    let t := (diagAt r data mask).run s
    Answered t r ∧
      (if fqKept s p.addr then t.mem = s.mem ∧ t.syn = []
       else NoReply s p.addr 8 → WroteBytes s t p.addr (wordBytes data) ∧ t.syn = if mask = 0 then [] else [(p.addr, mask)]) ∧
      (NoReply s p.addr 8 → ∀ g, s.grp? r.gid = some g → g.hold = .diag → ∃ g', t.grp? r.gid = some g' ∧ SameWork g g' ∧ g'.hold = .none) := by
  obtain ⟨u, ht, kept, written⟩ := diagAt_run hs hp hsp data mask
  simp only [ht]
  refine ⟨answered_finishReq r _, ?_, fun hr g hg hd => ?_⟩
  · split
    · next hk =>
      rw [kept hk]
      exact ⟨rfl, hs⟩
    · next hk =>
      intro hr
      rw [written (by simpa using hk) hr]
      refine ⟨fun x => ?_, (afterWrite_syn ..)⟩
      exact (congrArg (Memory.get · x) (afterWrite_mem ..)).trans (Memory.get_putBytes hw ..)
  · cases hk : fqKept s p.addr with
    | true =>
      have woken : u.groups = s.groups.map (Group.wokenBy []) := by
        have : Group.wokenBy [] = id := rfl
        simp [kept hk, this]
      exact diagDone_goesOn woken hg hd
    | false =>
      rw [written hk hr]
      exact diagDone_goesOn (afterWrite_groups ..) hg hd

end

/-- Settles O41, by the kind of the request: `loadPiece_answers`, `loadPiece_run`, `storePiece_writes` and `diagAt_writes` say what each
does. -/
theorem homeSlicePerforms : Obligations.HomeSlicePerforms := by
  unfold Obligations.HomeSlicePerforms
  intro s r p rest hw hs hr hsp hc hv hp
  refine ⟨fun d size signed hop hrest => ?_, fun d size signed hop hrest => ?_, fun data hop => ?_, fun data mask hop => ?_⟩
  · subst hrest
    refine ⟨_, exec_homeSliceAccess hr hsp hc hv (by simp [structAwake, hop]), ?_⟩
    simp only [homeAccess, lsPiece, hop, hp]
    exact loadPiece_answers hs d size signed
  · refine ⟨_, exec_homeSliceAccess hr hsp hc hv (by simp [structAwake, hop]), ?_⟩
    simp only [homeAccess, lsPiece, hop, hp]
    rw [loadPiece_run hs, if_neg hrest]
  · refine ⟨_, exec_homeSliceAccess hr hsp hc hv (by simp [structAwake, hop]), ?_⟩
    simp only [homeAccess, lsPiece, hop, hp]
    exact storePiece_writes hs hw hr hop
  · refine ⟨_, exec_homeSliceAccess hr hsp hc hv (by simp [structAwake, hop]), ?_⟩
    simp only [homeAccess, hop]
    exact diagAt_writes hs hw hp hsp data mask

end Sys2Proof.Machine
end

section
/-! PROOFS. One event of a class in a partition, and in every configured partition (R52, R53). -/

namespace Sys2Proof.Machine

set_option Elab.async false

/-! ### Partitions at their places -/

theorem State.part_of_get {s : State} {p : Nat} {q : Part} (h : s.parts[p]? = some q) : s.part p = q := by
  simp [State.part, List.getD_eq_getElem?_getD, h]

theorem State.get_of_part {s : State} {p : Nat} (h : (s.part p).state ≠ .none) : s.parts[p]? = some (s.part p) := by
  cases hq : s.parts[p]? with
  | none => exact absurd (by simp [State.part, List.getD_eq_getElem?_getD, hq, Part.unset]) h
  | some q => rw [State.part_of_get hq]

theorem Numbered.of_nums {s t : State} (h : Numbered s) (ht : t.parts.map Part.num = s.parts.map Part.num) : Numbered t := by
  intro p q hq
  have hn : (s.parts.map Part.num)[p]? = some q.num := by rw [← ht, List.getElem?_map, hq]; rfl
  rw [List.getElem?_map, Option.map_eq_some_iff] at hn
  obtain ⟨x, hx, hxq⟩ := hn
  exact hxq ▸ h p x hx

/-- The partition of a number is the one at its place. -/
theorem Numbered.eq_of_mem {s : State} (h : Numbered s) {p : Nat} {q x : Part} (hq : s.parts[p]? = some q) (hx : x ∈ s.parts)
    (hn : x.num = p) : x = q := by
  obtain ⟨i, hi⟩ := List.mem_iff_getElem?.1 hx
  have : i = p := (h i x hi).symm.trans hn
  subst this
  exact Option.some.inj (hi.symm.trans hq)

theorem State.get_modPart {s : State} (h : Numbered s) {p : Nat} {q : Part} (hq : s.parts[p]? = some q) (x : Nat) (f : Part → Part) :
    (s.modPart x f).parts[p]? = some (if p = x then f q else q) := by
  simp [State.modPart, hq, h p q hq]

/-- A change of the partition at a place that is said of that one partition only. -/
theorem State.modPart_congr {s : State} (h : Numbered s) {p : Nat} {q : Part} (hq : s.parts[p]? = some q) {f g : Part → Part}
    (hfg : f q = g q) : s.modPart p f = s.modPart p g := by
  have : (s.parts.map fun x => if x.num == p then f x else x) = s.parts.map fun x => if x.num == p then g x else x := by
    refine List.map_congr_left fun x hx => ?_
    by_cases hn : x.num = p
    · rw [h.eq_of_mem hq hx hn, hfg]
    · simp [hn]
  simp only [State.modPart, this]

theorem State.modPart_modPart (s : State) (p : Nat) (f g : Part → Part) (hf : ∀ q, (f q).num = q.num) :
    (s.modPart p f).modPart p g = s.modPart p fun q => g (f q) := by
  have : (fun q : Part => if q.num == p then g q else q) ∘ (fun q : Part => if q.num == p then f q else q) =
      fun q => if q.num == p then g (f q) else q := by
    funext q
    by_cases h : q.num = p <;> simp [h, hf]
  simp only [State.modPart, List.map_map, this]

/-! ### One event of a class (R52, R53) -/

@[simp] theorem afterEvent_num (s : State) (cls : Nat) (q : Part) : (afterEvent s cls q).1.num = q.num := by
  unfold afterEvent
  split
  · rfl
  · dsimp only
    split <;> rfl

/-- A partition to which a message of a class, other than 0, was sent. -/
def Part.eventSent (cls : Nat) (e : EvClass) (q : Part) : Part := { q with events := q.events.set cls { e with count := 0, timer := none } }

/-- A partition in which an event of a class was counted. -/
def Part.eventCounted (cls : Nat) (e : EvClass) (q : Part) : Part :=
  { q with
    events := q.events.set cls { e with
      count := min (e.count + 1) 65535, timer := if e.count = 0 then some e.period else e.timer } }

theorem countEvent_of_none {s : State} {p cls : Nat} (he : (s.part p).events[cls]? = none) : countEvent p cls s = s := by
  simp only [countEvent, he]

/-- An event is counted, and where the message may be sent it is sent (R52). -/
theorem countEvent_of_some {s : State} {p cls : Nat} {e : EvClass} (he : (s.part p).events[cls]? = some e) :
    countEvent p cls s =
      if decide (e.threshold ≤ min (e.count + 1) 65535) && maySend s (s.part p) cls then
        sendEvent p cls (s.modPart p (Part.eventCounted cls e)) else s.modPart p (Part.eventCounted cls e) := by
  simp only [countEvent, he]
  rfl

/-- A change of a partition beside some messages. -/
def State.tell (s : State) (p : Nat) (f : Part → Part) (ms : List HostMsg) : State := { s.modPart p f with outbox := s.outbox ++ ms }

theorem State.tell_nil (s : State) (p : Nat) (f : Part → Part) : s.tell p f [] = s.modPart p f := by
  simp only [State.tell, List.append_nil]
  rfl

theorem State.tell_congr {s : State} (h : Numbered s) {p : Nat} {q : Part} (hq : s.parts[p]? = some q) {f g : Part → Part}
    (hfg : f q = g q) (ms : List HostMsg) : s.tell p f ms = s.tell p g ms := by
  simp only [State.tell, State.modPart_congr h hq hfg]

/-- The message of a class other than 0, whose state of events is `e` (R53). -/
theorem sendEvent_eq {s : State} {p cls : Nat} {q : Part} {e : EvClass} (hc : cls ≠ 0) (hq : s.parts[p]? = some q)
    (he : q.events[cls]? = some e) : sendEvent p cls s = s.tell p (Part.eventSent cls e) [eventMsg p cls e.count 0] := by
  simp only [sendEvent, State.part_of_get hq, he, hc, if_false]
  rfl

/-- An event that is counted and sent leaves the partition with its count cleared. -/
theorem sendEvent_modPart {s : State} (h : Numbered s) {p cls : Nat} {q : Part} {e : EvClass} (hc : cls ≠ 0) (hq : s.parts[p]? = some q)
    (he : q.events[cls]? = some e) :
    sendEvent p cls (s.modPart p (Part.eventCounted cls e)) =
      s.tell p (Part.eventSent cls e) [eventMsg p cls (min (e.count + 1) 65535) 0] := by
  have hlt : cls < q.events.length := (List.getElem?_eq_some_iff.1 he).1
  have hget := State.get_modPart h hq p (Part.eventCounted cls e)
  rw [if_pos rfl] at hget
  rw [sendEvent_eq hc hget (by simp [Part.eventCounted, hlt]; rfl)]
  have hcomp : (s.modPart p (Part.eventCounted cls e)).modPart p (Part.eventSent cls { e with
      count := min (e.count + 1) 65535, timer := if e.count = 0 then some e.period else e.timer }) =
      s.modPart p (Part.eventSent cls e) := by
    rw [State.modPart_modPart _ _ (Part.eventCounted cls e) _ fun _ => rfl]
    exact State.modPart_congr h hq (by simp [Part.eventSent, Part.eventCounted])
  simp only [State.tell, hcomp]
  rfl

/-- An event of a class other than 0 leaves the partition at its place, and the messages, as R52 says. -/
theorem countEvent_eq {s : State} (h : Numbered s) {p cls : Nat} {q : Part} (hc : cls ≠ 0) (hq : s.parts[p]? = some q) :
    countEvent p cls s = s.tell p (fun q => (afterEvent s cls q).1) (afterEvent s cls q).2 := by
  cases he : q.events[cls]? with
  | none =>
    have hafter : afterEvent s cls q = (q, []) := by simp [afterEvent, he]
    have hsame : s.modPart p (fun q => (afterEvent s cls q).1) = s := by
      rw [State.modPart_congr h hq (g := id) (by simp [hafter])]
      simp [State.modPart]
    rw [countEvent_of_none (by rw [State.part_of_get hq, he]), hafter, State.tell_nil, hsame]
  | some e =>
    have hsend : (decide (e.threshold ≤ min (e.count + 1) 65535) && maySend s q cls) = true ↔
        e.threshold ≤ min (e.count + 1) 65535 ∧ portReady s = true ∧ q.reachable = true ∧ (q.state = .resetting → cls = 1) := by
      simp only [maySend, Bool.and_eq_true, decide_eq_true_eq, Bool.or_eq_true, bne_iff_ne, beq_iff_eq, ← imp_iff_not_or, and_assoc, ne_eq]
    have hafter : afterEvent s cls q =
        if (decide (e.threshold ≤ min (e.count + 1) 65535) && maySend s q cls) = true then
          (q.eventSent cls e, [eventMsg p cls (min (e.count + 1) 65535) 0]) else (q.eventCounted cls e, []) := by
      rw [← h p q hq]
      simp only [afterEvent, he, hsend]
      rfl
    rw [countEvent_of_some (by rw [State.part_of_get hq, he]), State.part_of_get hq]
    split at hafter
    · next hs =>
      rw [if_pos hs, sendEvent_modPart h hc hq he, hafter]
      exact State.tell_congr h hq (by simp [hafter]) _
    · next hs =>
      rw [if_neg hs, hafter, State.tell_nil]
      exact State.modPart_congr h hq (by simp [hafter])

/-- A partition after one event of a class, where it is configured. -/
def Part.told (s : State) (cls : Nat) (q : Part) : Part × List HostMsg := if q.state = .none then (q, []) else afterEvent s cls q

@[simp] theorem Part.told_num (s : State) (cls : Nat) (q : Part) : (q.told s cls).1.num = q.num := by
  unfold Part.told
  split
  · rfl
  · exact afterEvent_num ..

/-- Whether a message may be sent depends on the ports only. -/
theorem Part.told_congr {s t : State} (h : t.mgmt = s.mgmt) (cls : Nat) (q : Part) : q.told t cls = q.told s cls := by
  have hport : portReady t = portReady s := by simp only [portReady, h]
  unfold Part.told afterEvent
  rw [hport]

/-- One event of a class in a partition, where it is configured. -/
def countIn (cls : Nat) (s : State) (p : Nat) : State := if (s.part p).state == .none then s else countEvent p cls s

theorem countIn_told {s : State} (h : Numbered s) {cls : Nat} (hc : cls ≠ 0) (p : Nat) :
    (countIn cls s p).parts = (s.parts.map fun q => if q.num = p then (q.told s cls).1 else q) ∧
      (countIn cls s p).outbox = s.outbox ++ s.parts[p]?.toList.flatMap fun q => (q.told s cls).2 := by
  cases hs : (s.part p).state == .none with
  | true =>
    have hsame : countIn cls s p = s := by simp only [countIn, hs, if_true]
    have hnone : (s.part p).state = .none := by simpa using hs
    rw [hsame]
    constructor
    · have : ∀ q ∈ s.parts, (if q.num = p then (q.told s cls).1 else q) = id q := by
        intro q hq
        obtain ⟨i, hi⟩ := List.mem_iff_getElem?.1 hq
        split
        · next hn =>
          have : q.state = .none := by rw [← hnone, ← hn, h i q hi, State.part_of_get hi]
          simp [Part.told, this]
        · rfl
      rw [List.map_congr_left this, List.map_id]
    · cases hq : s.parts[p]? with
      | none => simp
      | some q =>
        have : q.state = .none := by rw [← hnone, State.part_of_get hq]
        simp [Part.told, this]
  | false =>
    have hconf : (s.part p).state ≠ .none := by simpa using hs
    have hq := State.get_of_part hconf
    have htold : (s.part p).told s cls = afterEvent s cls (s.part p) := if_neg hconf
    have hstep : countIn cls s p = s.tell p (fun q => (q.told s cls).1) ((s.part p).told s cls).2 := by
      rw [countIn, hs, htold, if_neg Bool.false_ne_true, countEvent_eq h hc hq]
      exact State.tell_congr h hq (by rw [htold]) _
    rw [hstep, hq]
    simp [State.tell, State.modPart]

/-! ### One event in every partition (R404, R408) -/

/-- A machine but for its partitions and messages. -/
def State.others (s : State) : State := { s with parts := [], outbox := [] }

theorem State.eq_of_others {s t : State} (h : t.others = s.others) : t = { s with parts := t.parts, outbox := t.outbox } :=
  congrArg (fun u : State => { u with parts := t.parts, outbox := t.outbox }) h

theorem State.mgmt_of_others {s t : State} (h : t.others = s.others) : t.mgmt = s.mgmt :=
  show t.others.mgmt = s.others.mgmt from h ▸ rfl

theorem State.modPart_others (s : State) (p : Nat) (f : Part → Part) : (s.modPart p f).others = s.others := rfl

theorem sendEvent_others (p cls : Nat) (s : State) : (sendEvent p cls s).others = s.others := by
  unfold sendEvent
  dsimp only
  split <;> rfl

theorem countEvent_others (p cls : Nat) (s : State) : (countEvent p cls s).others = s.others := by
  cases he : (s.part p).events[cls]? with
  | none => rw [countEvent_of_none he]
  | some e =>
    rw [countEvent_of_some he]
    split
    · exact (sendEvent_others ..).trans (State.modPart_others ..)
    · exact State.modPart_others ..

theorem countIn_others (cls : Nat) (s : State) (p : Nat) : (countIn cls s p).others = s.others := by
  unfold countIn
  split
  · rfl
  · exact countEvent_others ..

/-- One event of a class in the partitions below a number. -/
def countBelow (cls n : Nat) (s : State) : State := (List.range n).foldl (countIn cls) s

theorem countAll_eq (cls : Nat) (s : State) : countAll cls s = countBelow cls 8 s := rfl

theorem countBelow_succ (cls n : Nat) (s : State) : countBelow cls (n + 1) s = countIn cls (countBelow cls n s) n := by
  rw [countBelow, List.range_succ, List.foldl_append]
  rfl

/-- Partitions and messages are all that events change. -/
theorem countBelow_others (cls n : Nat) (s : State) : (countBelow cls n s).others = s.others :=
  foldl_keeps State.others (countIn cls) (countIn_others cls) (List.range n) s

theorem countAll_others (cls : Nat) (s : State) : (countAll cls s).others = s.others := countBelow_others cls 8 s

/-- Of a list whose members stand at their numbers, those below a number. -/
theorem flatMap_below {s : State} (h : Numbered s) {β : Type} (f : Part → List β) (n : Nat) :
    (s.parts.flatMap fun q => if q.num < n then f q else []) = (s.parts.take n).flatMap f := by
  have hlow : ∀ q ∈ s.parts.take n, q.num < n := by
    intro q hq
    obtain ⟨i, hi, rfl⟩ := List.mem_take_iff_getElem.1 hq
    have := h i _ (List.getElem?_eq_getElem (by omega))
    omega
  have hhigh : ∀ q ∈ s.parts.drop n, ¬q.num < n := by
    intro q hq
    obtain ⟨i, hi⟩ := List.mem_iff_getElem?.1 hq
    rw [List.getElem?_drop] at hi
    have := h _ q hi
    omega
  calc (s.parts.flatMap fun q => if q.num < n then f q else [])
      = (s.parts.take n ++ s.parts.drop n).flatMap fun q => if q.num < n then f q else [] := by rw [List.take_append_drop]
    _ = (s.parts.take n).flatMap f := by
      rw [List.flatMap_append, List.flatMap_congr (g := f) fun q hq => if_pos (hlow q hq),
        List.flatMap_congr (g := fun _ => []) fun q hq => if_neg (hhigh q hq)]
      simp

/-- The configured partitions below a number have had the event, in the order of their numbers. -/
theorem countBelow_told {s : State} (h : Numbered s) {cls : Nat} (hc : cls ≠ 0) (n : Nat) :
    (countBelow cls n s).parts = (s.parts.map fun q => if q.num < n then (q.told s cls).1 else q) ∧
      (countBelow cls n s).outbox = s.outbox ++ (s.parts.take n).flatMap fun q => (q.told s cls).2 := by
  induction n with
  | zero => simp [countBelow]
  | succ n ih =>
    obtain ⟨hparts, hout⟩ := ih
    have hnums : Numbered (countBelow cls n s) := h.of_nums (by
      rw [hparts, List.map_map]
      refine List.map_congr_left fun q _ => ?_
      by_cases hn : q.num < n <;> simp [hn])
    obtain ⟨hp, ho⟩ := countIn_told hnums hc n
    simp only [Part.told_congr (State.mgmt_of_others (countBelow_others cls n s))] at hp ho
    rw [countBelow_succ, hp, ho, hparts, hout, List.map_map]
    constructor
    · refine List.map_congr_left fun q _ => ?_
      rcases Nat.lt_trichotomy q.num n with hn | hn | hn
      · simp [hn, show q.num ≠ n by omega, show q.num < n + 1 by omega]
      · simp [hn]
      · simp [show ¬q.num < n by omega, show q.num ≠ n by omega, show ¬q.num < n + 1 by omega]
    · have hget : (s.parts.map fun q => if q.num < n then (q.told s cls).1 else q)[n]? = s.parts[n]? := by
        rw [List.getElem?_map]
        cases hq : s.parts[n]? with
        | none => rfl
        | some q => simp [h n q hq]
      rw [hget, List.take_add_one, List.flatMap_append, List.append_assoc]

/-- Every configured partition has had one event of a class (R404, R408). -/
theorem countAll_notice {s : State} (h : Numbered s) {cls : Nat} (hc : cls ≠ 0) : NoticeInAll s (countAll cls s) cls := by
  obtain ⟨hparts, hout⟩ := countBelow_told h hc 8
  have htold (q : Part) : (if q.num < 8 ∧ q.state ≠ .none then afterEvent s cls q else (q, [])) =
      if q.num < 8 then q.told s cls else (q, []) := by
    by_cases h1 : q.num < 8 <;> by_cases h2 : q.state = .none <;> simp [Part.told, h1, h2]
  unfold NoticeInAll
  simp only [htold, countAll_eq, hparts, hout, ← flatMap_below h]
  refine ⟨List.map_congr_left fun q _ => ?_, congrArg _ (List.flatMap_congr fun q _ => ?_)⟩ <;> split <;> rfl

end Sys2Proof.Machine
end

section
/-! PROOFS. What writes, answers and logged entries leave of partitions, groups, launches and retained arrays; the beginning of a reset
(R54, R55) and the re-encoding of an array (R383). -/

namespace Sys2Proof.Machine

set_option Elab.async false

/-! ### What the device's own bookkeeping leaves -/

/-- What tells how a partition stands: its number, its state and its class 4 events. -/
def Part.standing (q : Part) : Nat × PState × Option EvClass := (q.num, q.state, q.events[4]?)

/-- From `s` to `t` no partition has changed how it stands, no partition has got a group or a launch that had none, and the same arrays are
retained. -/
structure Settled (s t : State) : Prop where
  parts : t.parts.map Part.standing = s.parts.map Part.standing
  groups : t.groups.map Group.part ⊆ s.groups.map Group.part
  launches : t.launches.map Launch.part ⊆ s.launches.map Launch.part
  retained : t.retained = s.retained

theorem Settled.of_same {s t : State} (hp : t.parts = s.parts) (hg : t.groups = s.groups) (hl : t.launches = s.launches)
    (hr : t.retained = s.retained) : Settled s t :=
  ⟨by rw [hp], by rw [hg]; exact List.Subset.refl _, by rw [hl]; exact List.Subset.refl _, hr⟩

theorem Settled.refl (s : State) : Settled s s := .of_same rfl rfl rfl rfl

theorem Settled.trans {s t u : State} (h : Settled s t) (h' : Settled t u) : Settled s u :=
  ⟨h'.parts.trans h.parts, fun _ hx => h.groups (h'.groups hx), fun _ hx => h.launches (h'.launches hx), h'.retained.trans h.retained⟩

theorem Settled.foldl {α : Type} {f : State → α → State} (hf : ∀ s x, Settled s (f s x)) (xs : List α) (s : State) :
    Settled s (xs.foldl f s) := by
  induction xs generalizing s with
  | nil => exact .refl s
  | cons x xs ih => exact (hf s x).trans (ih _)

theorem Settled.modPart (s : State) (p : Nat) {f : Part → Part} (hf : ∀ q, (f q).standing = q.standing) : Settled s (s.modPart p f) := by
  refine ⟨?_, List.Subset.refl _, List.Subset.refl _, rfl⟩
  rw [State.modPart, List.map_map]
  refine List.map_congr_left fun q _ => ?_
  simp only [Function.comp_apply]
  split
  · exact hf q
  · rfl

theorem Settled.mapGroups (s : State) {f : Group → Group} (hf : ∀ g, (f g).part = g.part) :
    Settled s { s with groups := s.groups.map f } := by
  refine ⟨rfl, ?_, List.Subset.refl _, rfl⟩
  have : Group.part ∘ f = Group.part := funext hf
  rw [List.map_map, this]
  exact List.Subset.refl _

theorem Settled.modGrp (s : State) (k : Nat) {f : Group → Group} (hf : ∀ g, (f g).part = g.part) : Settled s (s.modGrp k f) :=
  .mapGroups s fun g => by split <;> simp [hf]

theorem Settled.modLaunch (s : State) (k : Nat) {f : Launch → Launch} (hf : ∀ l, (f l).part = l.part) : Settled s (s.modLaunch k f) := by
  refine ⟨rfl, List.Subset.refl _, ?_, rfl⟩
  have : (Launch.part ∘ fun l => if l.lid == k then f l else l) = Launch.part := funext fun l => by
    simp only [Function.comp_apply]
    split
    · exact hf l
    · rfl
  rw [State.modLaunch, List.map_map, this]
  exact List.Subset.refl _

/-! ### Programs -/

/-- A program that only keeps the books, from every state. -/
def Prog.Settles (p : Prog) : Prop := ∀ s, Settled s (p.run s)

theorem Prog.settles_done : Prog.Settles .done := Settled.refl

theorem Prog.settles_dyn {f : State → Prog} (h : ∀ s, (f s).Settles) : (Prog.dyn f).Settles := fun s => h s s

theorem Prog.settles_change {f : State → State} (h : ∀ s, Settled s (f s)) : (Prog.change f).Settles := fun s =>
  ⟨(h s).parts, (h s).groups, (h s).launches, (h s).retained⟩

theorem Prog.settles_poke (a : Nat) (b : Byte) {k : Prog} (h : k.Settles) : (Prog.poke a b k).Settles := fun s =>
  (Settled.of_same rfl rfl rfl rfl : Settled s { s with mem := Memory.put s.mem a b }).trans (h _)

theorem Prog.settles_pokes (a : Nat) (bs : List Byte) : (Prog.pokes a bs).Settles := by
  induction bs generalizing a with
  | nil => exact Prog.settles_done
  | cons b bs ih => exact Prog.settles_poke a b (ih _)

theorem Prog.settles_all {ps : List Prog} (h : ∀ p ∈ ps, p.Settles) : (Prog.all ps).Settles := by
  induction ps with
  | nil => exact Prog.settles_done
  | cons p ps ih =>
    intro s
    rw [Prog.run_all_cons]
    exact (h p List.mem_cons_self s).trans (ih (fun q hq => h q (List.mem_cons_of_mem _ hq)) _)

theorem Prog.settles_all_map {α : Type} (xs : List α) {f : α → Prog} (h : ∀ x, (f x).Settles) : (Prog.all (xs.map f)).Settles :=
  Prog.settles_all fun p hp => by
    obtain ⟨x, _, rfl⟩ := List.mem_map.1 hp
    exact h x

theorem Prog.settles_pair {p q : Prog} (hp : p.Settles) (hq : q.Settles) : (Prog.all [p, q]).Settles := fun s => by
  rw [Prog.run_all_cons, Prog.run_all_cons, Prog.run_all_nil]
  exact (hp s).trans (hq _)

theorem Prog.settles_when (c : Bool) {p : Prog} (h : p.Settles) : (Prog.when c p).Settles := by
  cases c with
  | true => exact h
  | false => exact Prog.settles_done

/-! ### Answers and the end of a launch (R362, R366) -/

@[simp] theorem Group.land_part (g : Group) (now : Nat) (pids : List Nat) (l : Nat) (vals : List Lane) (bad : Bool) :
    (g.land now pids l vals bad).part = g.part := rfl

@[simp] theorem Group.wokenBy_part (rs : List Req) (g : Group) : (g.wokenBy rs).part = g.part := by
  unfold Group.wokenBy; split <;> rfl

theorem settled_deliver (r : Req) (d : Dest) (size : Nat) (signed : Bool) (bs : List Byte) (bad : Bool) (s : State) :
    Settled s (deliver r d size signed bs bad s) := by
  cases d with
  | none => exact .refl s
  | lane pids l => exact .modGrp s _ fun g => Group.land_part ..
  | uni x =>
    simp only [deliver]
    split
    · exact .refl s
    · exact .modGrp s _ fun g => Group.setS_part ..

theorem settled_dropAnswers (mine : Req → Bool) (s : State) : Settled s (dropAnswers mine s) := by
  unfold dropAnswers
  refine Settled.trans (Settled.foldl (fun u r => ?_) _ s) (.of_same rfl rfl rfl rfl)
  split
  · exact settled_deliver ..
  · exact .refl u

theorem settled_endGroup (s : State) (g : Group) : Settled s (endGroup s g) := by
  unfold endGroup addLaunchCtr
  split
  · refine (Settled.modGrp s g.gid (f := Group.leave) fun g => rfl).trans ?_
    split
    · exact .refl _
    · exact .of_same rfl rfl rfl rfl
  · exact .modGrp s _ fun g => rfl

theorem settled_forgetOwed (lid : Nat) (s : State) : Settled s (forgetOwed lid s) :=
  (Settled.mapGroups s fun g => by split <;> rfl).trans (.of_same rfl rfl rfl rfl)

theorem settled_endLaunch (lid : Nat) (s : State) : Settled s (endLaunch lid s) := by
  have hend : Settled s (s.modLaunch lid fun l => { l with ended := true }) := .modLaunch s lid fun l => rfl
  have howed := hend.trans (settled_forgetOwed lid _)
  have hstop (gs : List Group) := (howed.trans (Settled.foldl settled_endGroup gs _)).trans (settled_dropAnswers (fun r => r.launch == lid) _)
  refine (hstop _).trans (t := dropAnswers (fun r => r.launch == lid) _) ⟨?_, (List.filter_sublist.map _).subset, List.Subset.refl _, rfl⟩
  exact List.map_map.trans rfl

theorem settled_takeReply (gid : Nat) (v : Word) (s : State) : Settled s (takeReply gid v s) := by
  unfold takeReply
  split
  · exact .refl s
  · split
    · exact .modGrp s _ fun g => rfl
    · exact settled_endLaunch _ s

theorem settled_takeReplies (a n : Nat) (s : State) : Settled s (takeReplies a n s) := by
  rw [takeReplies_eq]
  refine Settled.foldl (fun u h => ?_) _ s
  split
  · exact .modGrp u _ fun g => rfl
  · exact settled_takeReply ..

/-! ### Writes to device memory (R231, R283, R369) -/

theorem settled_afterWrite (a n : Nat) (s : State) : Settled s (afterWrite a n s) := by
  obtain ⟨_, _, _, _, h⟩ := afterWrite_eq a n s
  rw [h]
  exact (Settled.mapGroups s fun g => Group.wokenBy_part _ g).trans (.of_same rfl rfl rfl rfl)

theorem settled_synSet (w n : Nat) (s : State) : Settled s { s with syn := synSet s.syn w n } := .of_same rfl rfl rfl rfl

theorem settled_poisonLines (ws : List Nat) (s : State) : Settled s (poisonLines ws s) :=
  Settled.foldl (fun u l => Settled.foldl (fun v w => settled_synSet w _ v) (wordsOf l 64) u) _ s

theorem settles_fixWords (s : State) (ws : List Nat) : (fixWords s ws).Settles := by
  refine Prog.settles_all_map ws fun w => ?_
  split
  · exact Prog.settles_poke _ _ (Prog.settles_change fun s => .of_same rfl rfl rfl rfl)
  · exact Prog.settles_done

theorem settles_readWords (ws : List Nat) : (readWords ws).Settles := by
  refine Prog.settles_dyn fun s => ?_
  split
  · exact Prog.settles_done
  · exact Prog.settles_pair (settles_fixWords s ws) (Prog.settles_change (settled_poisonLines ws))

theorem settles_touchWords (s : State) (ws : List Nat) : (touchWords s ws).Settles := by
  unfold touchWords
  split
  · exact Prog.settles_done
  · exact Prog.settles_all_map ws fun a => settles_readWords _

theorem settles_devWrite (a : Nat) (bs : List Byte) : (devWrite a bs).Settles := by
  have hsyn (s : State) : Settled s (writeSyn a bs.length s) := by
    unfold writeSyn
    split
    · exact .refl s
    · exact .of_same rfl rfl rfl rfl
  refine Prog.settles_all fun p hp => ?_
  simp only [List.mem_cons, List.not_mem_nil, or_false] at hp
  rcases hp with rfl | rfl | rfl | rfl
  · exact settles_readWords _
  · exact Prog.settles_change hsyn
  · exact Prog.settles_pokes a bs
  · exact Prog.settles_change (settled_afterWrite a bs.length)

theorem settles_agentWrite (a : Nat) (bs : List Byte) : (agentWrite a bs).Settles := by
  have one (b : Nat) (cs : List Byte) : (Prog.all [devWrite b cs, .change (takeReplies b cs.length)]).Settles :=
    Prog.settles_pair (settles_devWrite b cs) (Prog.settles_change (settled_takeReplies b cs.length))
  refine Prog.settles_dyn fun s => ?_
  split
  · exact Prog.settles_all_map _ fun r => one r.1 r.2
  · exact one a bs

/-! ### Events and entries (R52, R358) -/

theorem Part.standing_set {q : Part} {cls : Nat} (hc : cls ≠ 4) (e : EvClass) (o : Option Nat) :
    Part.standing { q with events := q.events.set cls e, oldest := o } = q.standing := by
  simp [Part.standing, List.getElem?_set_ne hc]

theorem settled_sendEvent {cls : Nat} (hc : cls ≠ 4) (p : Nat) (s : State) : Settled s (sendEvent p cls s) := by
  unfold sendEvent
  dsimp only
  split
  · exact .refl s
  · exact (Settled.modPart s p fun q => Part.standing_set hc _ _).trans (.of_same rfl rfl rfl rfl)

/-- An event of another class leaves the class 4 events. -/
theorem settled_countEvent {cls : Nat} (hc : cls ≠ 4) (p : Nat) (s : State) : Settled s (countEvent p cls s) := by
  cases he : (s.part p).events[cls]? with
  | none => rw [countEvent_of_none he]; exact .refl s
  | some e =>
    have hcount : Settled s (s.modPart p (Part.eventCounted cls e)) := .modPart s p fun q => Part.standing_set hc _ _
    rw [countEvent_of_some he]
    split
    · exact hcount.trans (settled_sendEvent hc p _)
    · exact hcount

theorem settles_fqWrite (p : Nat) (e : Entry) : (fqWrite p e).Settles := by
  refine Prog.settles_dyn fun s => Prog.settles_all fun x hx => ?_
  simp only [List.mem_cons, List.not_mem_nil, or_false] at hx
  rcases hx with rfl | rfl | rfl
  · exact settles_devWrite _ _
  · exact settles_devWrite _ _
  · refine Prog.settles_change fun u => .trans (t := u.modPart p fun q => { q with oldest := some (q.oldest.getD (fqWritten s p)) })
      (.modPart u p fun q => rfl) ?_
    exact settled_countEvent (cls := 0) (by decide) p _

/-- An entry of a cause, or of a log, however it ends. -/
theorem settles_fqEntry (p : Nat) (e : Entry) : (fqEntry p e).Settles := by
  intro s
  rw [fqEntry_run]
  split
  · exact .modPart s p fun q => rfl
  · split
    · exact Prog.settles_dyn (fun s => settles_devWrite _ _) s
    · exact settles_fqWrite p e s

theorem settles_launchFails (p : Nat) (src : Source) (task reason : Nat) : (launchFails p src task reason).Settles := settles_fqEntry _ _

/-! ### Slots of bins and jettys (R329, R333) -/

theorem settles_freeBinSlot (src : Source) : (freeBinSlot src).Settles := by
  cases src with
  | bin slice pa k => exact Prog.settles_dyn fun s => Prog.settles_pair (settles_touchWords s _) (settles_agentWrite _ _)
  | _ => exact Prog.settles_done

theorem settled_finishReq (id : Nat) (s : State) : Settled s (finishReq id s) := .of_same rfl rfl rfl rfl

theorem settled_answerRegs (r : Req) (vs : List (Nat × Word × Bool)) (s : State) : Settled s (answerRegs r vs s) := by
  have hset (s : State) (g : Group) : (vs.foldl (fun g v => g.setS s.now v.1 v.2.1 v.2.2) g).part = g.part :=
    foldl_keeps Group.part _ (fun g v => Group.setS_part ..) vs g
  unfold answerRegs
  refine Settled.trans ?_ (settled_finishReq r.id _)
  split
  · exact .refl s
  · exact .modGrp s _ (hset s)

theorem settled_answerPop (r : Req) (sd sb v : Nat) (t : Nat → Word × Bool) (s : State) : Settled s (answerPop r sd sb v t s) := by
  unfold answerPop
  dsimp only
  have hregs := settled_answerRegs r [(sd, BitVec.ofNat 64 v, false), (sb, t 0), (sb + 1, t 1)] s
  split
  · exact hregs.trans (.modGrp _ _ fun g => by split <;> rfl)
  · exact hregs

theorem settled_resetJetty (j : Nat) (s : State) : Settled s (resetJetty j s) := by
  unfold resetJetty
  refine Settled.trans (.of_same (t := s.modJetty j _) rfl rfl rfl rfl) (Settled.foldl (fun u r => ?_) _ _)
  split
  · exact (settled_answerPop ..).trans (settled_countEvent (by decide) _ _)
  · exact .refl u

/-! ### Re-encoding (R383) -/

theorem settles_reencode (arr : ArrayId) : (reencode arr).Settles := by
  have log (p : Nat) (r : Report) : (logEntry p r).Settles := settles_fqEntry _ _
  cases arr with
  | slice slice sub =>
    refine Prog.settles_dyn fun s => Prog.settles_all fun x hx => ?_
    simp only [List.mem_cons, List.not_mem_nil, or_false] at hx
    rcases hx with rfl | rfl | rfl
    · exact settles_fixWords s _
    · exact Prog.settles_change fun s => .of_same rfl rfl rfl rfl
    · exact Prog.settles_when _ (Prog.settles_all_map _ fun w => log _ _)
  | pool core unit =>
    refine Prog.settles_dyn fun s => ?_
    dsimp only
    split
    · exact Prog.settles_done
    · split
      · exact Prog.settles_done
      · exact Prog.settles_pair (Prog.settles_change fun s => .of_same rfl rfl rfl rfl) (Prog.settles_all_map _ fun w => log _ _)

/-! ### The beginning of a reset (R54, R55) -/

/-- A partition that has been cleared, before anything of it is reported. -/
def cleared (p : Nat) (s : State) : State := (dropWaiting p (dropPartition p s)).modPart p fun q => { q with state := .resetting }

/-- Beside the clearing, a reset keeps the books only. -/
theorem settled_beginReset (p : Nat) (s : State) : Settled (cleared p s) ((beginReset p).run s) := by
  have hreport : ∀ xs : List (Source × Nat), (Prog.all (xs.map fun x =>
      .all [launchFails p x.1 x.2 17, Prog.when (sourceAwake s x.1) (freeBinSlot x.1)])).Settles := fun xs =>
    Prog.settles_all_map xs fun x => Prog.settles_pair (settles_launchFails _ _ _ _) (Prog.settles_when _ (settles_freeBinSlot _))
  have hjettys : ∀ js : List Nat, (Prog.change fun s => js.foldl (fun s j => resetJetty j s) s).Settles := fun js =>
    Prog.settles_change (Settled.foldl (fun s j => settled_resetJetty j s) js)
  have hclear : (Prog.change fun s => (dropWaiting p (dropPartition p s)).modPart p fun q => { q with state := .resetting }).run s =
      cleared p s := Prog.run_change _ s rfl rfl
  simp only [beginReset, Prog.run_dyn, Prog.run_all_cons, Prog.run_all_nil, hclear]
  exact (hreport _ _).trans (hjettys _ _)

end Sys2Proof.Machine
end

section
/-! PROOFS. The start of the management core (R399 to R403), and the module's readiness, cooling and retention (R383, R404, R408). -/

namespace Sys2Proof.Machine

set_option Elab.async false

/-! ### The start of the management core (R399 to R403) -/

/-- What an image other than Halone leaves of the management core as it was: everything but later measurements, versions and operator
keys. -/
def Mgmt.rooted (m : Mgmt) : Mgmt × Option (BitVec 384) := ({ m with meas := [], svns := [], opKeys := [] }, m.meas[0]?)

theorem Mgmt.of_rooted {m m' : Mgmt} (h : m.rooted = m'.rooted) :
    ∃ meas svns keys, m = { m' with meas := meas, svns := svns, opKeys := keys } ∧ meas[0]? = m'.meas[0]? :=
  ⟨m.meas, m.svns, m.opKeys, congrArg (fun x : Mgmt × Option (BitVec 384) =>
    ({ x.1 with meas := m.meas, svns := m.svns, opKeys := m.opKeys } : Mgmt)) h, congrArg Prod.snd h⟩

theorem measure_rooted {i : Image} (hk : imageKind i ≠ 0) (m : Mgmt) : (measure i m).rooted = m.rooted := by
  simp [measure, extendMeas, Mgmt.rooted, hk]

theorem takeImage_rooted (flash : List Image) {k : Nat} (hk : k ≠ 0) (m : Mgmt) : (takeImage flash k m).rooted = m.rooted := by
  unfold takeImage
  split
  · rfl
  · next i hi =>
    have hkind : imageKind i = k := by simpa using List.find?_some hi
    have hmeas := measure_rooted (hkind ▸ hk : imageKind i ≠ 0) m
    split
    · rfl
    · dsimp only
      split
      · exact hmeas
      · exact hmeas

/-- Without a seed or without a Halone image the ROM stays (R399). -/
theorem startMgmt_rom {start : StartInputs} {flash : List Image}
    (h : Config.reconstructSeed start.puf start.helper = none ∨ (flash.take 2).find? haloneOk = none) : startMgmt start flash = .reset := by
  unfold startMgmt
  split
  · next k i hk hi => rw [hk, hi] at h; simp at h
  · rfl

/-- With both, Halone runs with the keys that it has derived, and takes the other images (R399). -/
theorem startMgmt_halone {start : StartInputs} {flash : List Image} {k : BitVec 256} {i : Image}
    (hk : Config.reconstructSeed start.puf start.helper = some k) (hi : (flash.take 2).find? haloneOk = some i) :
    ∃ meas svns keys, startMgmt start flash =
        { deriveIdentity k start.cert { measure i .reset with stage := .halone } with meas := meas, svns := svns, opKeys := keys } ∧
      meas[0]? = (measure i .reset).meas[0]? := by
  have hroot : (startMgmt start flash).rooted = (deriveIdentity k start.cert { measure i .reset with stage := .halone }).rooted := by
    simp only [startMgmt, hk, hi, List.foldl_cons, List.foldl_nil]
    rw [takeImage_rooted flash (by decide), takeImage_rooted flash (by decide), takeImage_rooted flash (by decide)]
  exact Mgmt.of_rooted hroot

/-- The measurement of a Halone image (R402). -/
theorem measure_halone {i : Image} (h : haloneOk i = true) :
    (measure i .reset).meas[0]? = some (BitVec.ofNat 384 (bytesNat (sha384 (List.replicate 48 0 ++ sha384 (imageBytes i))))) := by
  have hkind : imageKind i = 0 := by
    simp only [haloneOk, Bool.and_eq_true, beq_iff_eq] at h
    exact h.1
  have hzero : measBytes 0#384 = List.replicate 48 0 := by
    rw [measBytes, BitVec.toNat_zero]
    rfl
  rw [← hzero, measure, hkind]
  rfl

/-- Nothing is ready, connected or waiting after the start. -/
theorem startMgmt_idle (start : StartInputs) (flash : List Image) :
    let m := startMgmt start flash
    m.ready = 0 ∧ m.links = 0 ∧ m.session = .none ∧ m.stopped = false ∧ m.waiting = [] := by
  intro m
  by_cases h : Config.reconstructSeed start.puf start.helper = none ∨ (flash.take 2).find? haloneOk = none
  · rw [show m = .reset from startMgmt_rom h]
    exact ⟨rfl, rfl, rfl, rfl, rfl⟩
  · rw [not_or, ← ne_eq, ← ne_eq, Option.ne_none_iff_exists', Option.ne_none_iff_exists'] at h
    obtain ⟨⟨k, hk⟩, i, hi⟩ := h
    obtain ⟨meas, svns, keys, hm, -⟩ := startMgmt_halone hk hi
    rw [show m = _ from hm]
    exact ⟨rfl, rfl, rfl, rfl, rfl⟩

/-! ### Partitions after steps that keep the books -/

theorem Settled.standing {s t : State} (h : Settled s t) (p : Nat) : (t.part p).standing = (s.part p).standing := by
  rw [State.part, State.part, ← List.getD_map _ _ Part.standing, ← List.getD_map _ _ Part.standing, h.parts]

theorem Settled.numbered {s t : State} (h : Settled s t) (hs : Numbered s) : Numbered t := by
  have hnum (ps : List Part) : ps.map Part.num = (ps.map Part.standing).map Prod.fst := by
    rw [List.map_map]
    rfl
  exact hs.of_nums (by rw [hnum, hnum, h.parts])

/-! ### Every partition reset at once (R408) -/

theorem cleared_eq (x : Nat) (s : State) :
    cleared x s = (dropPartition x s).modPart x fun q => { q with
      queues := [[], [], [], []], pendEntries := q.pendEntries.filter fun e => e.1.isNone, wdCounts := [0, 0, 0, 0], cmdHeld := none
      state := .resetting } :=
  State.modPart_modPart _ x _ _ fun _ => rfl

theorem cleared_numbered {s : State} (h : Numbered s) (x : Nat) : Numbered (cleared x s) := h.of_nums (by
  rw [cleared_eq, State.modPart, List.map_map]
  refine List.map_congr_left fun q _ => ?_
  simp only [Function.comp_apply]
  split <;> rfl)

theorem cleared_standing {s : State} (h : Numbered s) {p : Nat} {q : Part} (hq : s.parts[p]? = some q) (x : Nat) :
    ((cleared x s).part p).standing = (q.num, if p = x then .resetting else q.state, q.events[4]?) := by
  rw [cleared_eq, State.part_of_get (State.get_modPart (s := dropPartition x s) h hq x _)]
  split <;> rfl

/-- A partition has no group and no launch. -/
structure Vacant (p : Nat) (s : State) : Prop where
  groups : p ∉ s.groups.map Group.part
  launches : p ∉ s.launches.map Launch.part

theorem vacant_cleared (p : Nat) (s : State) : Vacant p (cleared p s) := by
  rw [cleared_eq]
  constructor <;> simp [dropPartition]

theorem Vacant.settled {p : Nat} {s t : State} (h : Vacant p s) (hst : Settled s t) : Vacant p t :=
  ⟨fun hp => h.groups (hst.groups hp), fun hp => h.launches (hst.launches hp)⟩

/-- The clearing of another partition. -/
theorem Vacant.cleared {p : Nat} {s : State} (h : Vacant p s) (x : Nat) : Vacant p (cleared x s) := by
  rw [cleared_eq]
  exact ⟨fun hp => h.groups ((List.filter_sublist.map _).subset hp), fun hp => h.launches ((List.filter_sublist.map _).subset hp)⟩

/-- A reset of a partition that is configured and not being reset. -/
def criticalReset (p : Nat) : Prog :=
  .dyn fun s => if (s.part p).state == .none || (s.part p).state == .resetting then .done else beginReset p

theorem criticalReset_idle {s : State} {p : Nat} (h : (s.part p).state = .none ∨ (s.part p).state = .resetting) :
    (criticalReset p).run s = s := by
  have : ((s.part p).state == .none || (s.part p).state == .resetting) = true := by simpa using h
  rw [criticalReset, Prog.run_dyn, this]
  rfl

theorem criticalReset_begins {s : State} {p : Nat} (h : (s.part p).state ≠ .none) (h' : (s.part p).state ≠ .resetting) :
    (criticalReset p).run s = (beginReset p).run s := by
  have : ((s.part p).state == .none || (s.part p).state == .resetting) = false := by simp [h, h']
  rw [criticalReset, Prog.run_dyn, this]
  rfl

/-- A critical reset does nothing, or clears its partition and keeps the books. -/
theorem criticalReset_cases (s : State) (x : Nat) :
    (criticalReset x).run s = s ∧ ((s.part x).state = .none ∨ (s.part x).state = .resetting) ∨
      Settled (cleared x s) ((criticalReset x).run s) ∧ (s.part x).state ≠ .none ∧ (s.part x).state ≠ .resetting := by
  by_cases h : (s.part x).state = .none ∨ (s.part x).state = .resetting
  · exact .inl ⟨criticalReset_idle h, h⟩
  · rw [not_or] at h
    exact .inr ⟨criticalReset_begins h.1 h.2 ▸ settled_beginReset x s, h⟩

/-- From `s` to `t` the partitions `xs` have come to be reset, where they are configured, and none has had a class 4 event. -/
structure Resets (xs : List Nat) (s t : State) : Prop where
  numbered : Numbered t
  standing : ∀ p, (s.part p).state ≠ .none →
    (t.part p).standing = ((s.part p).num, if p ∈ xs then .resetting else (s.part p).state, (s.part p).events[4]?)
  vacant : ∀ p, (s.part p).state ≠ .none → Vacant p s ∨ p ∈ xs ∧ (s.part p).state ≠ .resetting → Vacant p t

theorem Resets.state {xs : List Nat} {s t : State} (h : Resets xs s t) {p : Nat} (hp : (s.part p).state ≠ .none) :
    (t.part p).state = if p ∈ xs then .resetting else (s.part p).state := congrArg (fun x => x.2.1) (h.standing p hp)

theorem Resets.configured {xs : List Nat} {s t : State} (h : Resets xs s t) {p : Nat} (hp : (s.part p).state ≠ .none) :
    (t.part p).state ≠ .none := by
  rw [h.state hp]
  split
  · nofun
  · exact hp

theorem criticalReset_resets {s : State} (h : Numbered s) (x : Nat) : Resets [x] s ((criticalReset x).run s) := by
  rcases criticalReset_cases s x with ⟨hrun, hx⟩ | ⟨hst, hx, hx'⟩
  · rw [hrun]
    refine ⟨h, fun p hp => ?_, fun p hp hv => ?_⟩
    · split
      · next hpx =>
        obtain rfl := List.mem_singleton.1 hpx
        have hres : (s.part p).state = .resetting := hx.resolve_left hp
        rw [← hres]
        rfl
      · rfl
    · refine hv.resolve_right fun ⟨hpx, hres⟩ => ?_
      obtain rfl := List.mem_singleton.1 hpx
      exact hx.elim hp hres
  · refine ⟨hst.numbered (cleared_numbered h x), fun p hp => ?_, fun p hp hv => ?_⟩
    · rw [hst.standing, cleared_standing h (State.get_of_part hp)]
      simp only [List.mem_singleton]
    · rcases hv with hv | ⟨hpx, -⟩
      · exact (hv.cleared x).settled hst
      · obtain rfl := List.mem_singleton.1 hpx
        exact (vacant_cleared p s).settled hst

theorem Resets.trans {xs ys : List Nat} {s t u : State} (h : Resets xs s t) (h' : Resets ys t u) : Resets (xs ++ ys) s u := by
  refine ⟨h'.numbered, fun p hp => ?_, fun p hp hv => ?_⟩
  · have hst := h.standing p hp
    obtain ⟨hnum, hstate, hev⟩ : (t.part p).num = _ ∧ (t.part p).state = _ ∧ (t.part p).events[4]? = _ := by
      simpa only [Part.standing, Prod.mk.injEq] using hst
    rw [h'.standing p (h.configured hp), hnum, hev, hstate]
    by_cases hx : p ∈ xs <;> by_cases hy : p ∈ ys <;> simp [hx, hy]
  · refine h'.vacant p (h.configured hp) ?_
    by_cases hx : p ∈ xs
    · exact .inl (h.vacant p hp (hv.imp_right fun hr => ⟨hx, hr.2⟩))
    · rcases hv with hv | ⟨hm, hr⟩
      · exact .inl (h.vacant p hp (.inl hv))
      · refine .inr ⟨(List.mem_append.1 hm).resolve_left hx, ?_⟩
        rwa [h.state hp, if_neg hx]

/-- Partitions that are reset one after another. -/
theorem criticalResets {s : State} (h : Numbered s) (xs : List Nat) : Resets xs s ((Prog.all (xs.map criticalReset)).run s) := by
  induction xs generalizing s with
  | nil => exact ⟨h, fun p _ => rfl, fun p _ hv => hv.resolve_right fun hm => List.not_mem_nil hm.1⟩
  | cons x xs ih =>
    have hx := criticalReset_resets h x
    rw [List.map_cons, Prog.run_all_cons]
    exact hx.trans (ih hx.numbered)

/-! ### The event of a critical shutdown (R52, R408) -/

/-- An event of a class that may not be sent while the partition is being reset is counted. -/
theorem told_resetting (s : State) {cls : Nat} (hc : cls ≠ 1) {q : Part} (hq : q.state = .resetting) :
    (q.told s cls).1.state = .resetting ∧
      ∀ e, q.events[cls]? = some e → (q.told s cls).1.events[cls]? = some { e with
        count := min (e.count + 1) 65535, timer := if e.count = 0 then some e.period else e.timer } := by
  have htold : q.told s cls = afterEvent s cls q := if_neg (by rw [hq]; nofun)
  rw [htold]
  cases he : q.events[cls]? with
  | none => exact ⟨by simp [afterEvent, he, hq], nofun⟩
  | some e =>
    have hlt : cls < q.events.length := (List.getElem?_eq_some_iff.1 he).1
    have : afterEvent s cls q = (q.eventCounted cls e, []) := by
      simp only [afterEvent, he]
      exact if_neg fun hm => hc (hm.2.2.2 hq)
    rw [this]
    refine ⟨hq, fun e' he' => ?_⟩
    obtain rfl := Option.some.inj he'
    simp [Part.eventCounted, hlt]

theorem countAll_part {s : State} (h : Numbered s) {cls : Nat} (hc : cls ≠ 0) {p : Nat} (hp : p < 8) (hs : (s.part p).state ≠ .none) :
    (countAll cls s).part p = ((s.part p).told s cls).1 := by
  have hq := State.get_of_part hs
  refine State.part_of_get ?_
  rw [countAll_eq, (countBelow_told h hc 8).1, List.getElem?_map, hq, Option.map_some, h p _ hq, if_pos hp]

/-! ### Commands that waited (R407) -/

theorem serveAll_of_none {s : State} (h : s.mgmt.waiting = []) : serveAll s = s := by
  rw [serveAll, h]
  rfl

/-- Whether a command waits does not depend on what waits behind it. -/
theorem commandWaits_waiting (s : State) (is : List Instr) (i : Instr) :
    commandWaits { s with mgmt := { s.mgmt with waiting := is } } i = commandWaits s i := by
  cases i <;> rfl

/-- One command that waited and need wait no more. -/
theorem serveAll_of_one {s : State} {i : Instr} (h : s.mgmt.waiting = [i]) (hw : commandWaits s i = false) :
    serveAll s = runCommand i { s with mgmt := { s.mgmt with waiting := [] } } := by
  rw [serveAll, h]
  simp only [List.length_cons, List.length_nil, serveWaiting, h, hw, Bool.false_eq_true, if_false]

/-! ### Readiness (R404) -/

/-- One bit more of the readiness map. -/
theorem getLsbD_or_two_pow (m : BitVec 256) {b : Nat} (hb : b < 256) (k : Nat) :
    (m ||| BitVec.ofNat 256 (2 ^ k)).getLsbD b = (m.getLsbD b || decide (b = k)) := by
  rw [BitVec.getLsbD_or, BitVec.getLsbD_ofNat, Nat.testBit_two_pow]
  simp [hb, eq_comm]

/-- The machine as a unit's report leaves it, before the event is counted. -/
def State.unitIn (s : State) (u : UnitReport) : State :=
  { s with mgmt := { s.mgmt with
    links := s.mgmt.links ||| u.links, ready := s.mgmt.ready ||| BitVec.ofNat 256 (2 ^ readyBit u.unit) } }

/-- A unit becomes ready: its bit is set, an event of class 3, and no command waits for it. -/
theorem exec_unitReady {s : State} {u : UnitReport} (hstage : s.mgmt.stage = .halone) (hwait : s.mgmt.waiting = [])
    (hex : unitExists u.unit = true) (hbit : s.mgmt.ready.getLsbD (readyBit u.unit) = false)
    (hmay : unitMayBeReady { s.mgmt with links := s.mgmt.links ||| u.links } u.unit = true) :
    exec (.unitReady u) s = .next (countAll 3 (s.unitIn u)) := by
  have hserve : serveAll (countAll 3 (s.unitIn u)) = countAll 3 (s.unitIn u) :=
    serveAll_of_none (by rw [State.mgmt_of_others (countAll_others 3 (s.unitIn u))]; exact hwait)
  have hcond : (unitExists u.unit && unitMayBeReady { s.mgmt with links := s.mgmt.links ||| u.links } u.unit &&
      !s.mgmt.ready.getLsbD (readyBit u.unit)) = true := by
    rw [hex, hmay, hbit]
    rfl
  have hrom : ¬(s.mgmt.stage != .halone) = true := by
    rw [hstage]
    decide
  calc exec (.unitReady u) s
      = execUnitReady u s := rfl
    _ = .next (serveAll (countAll 3 (s.unitIn u))) := (if_neg hrom).trans (if_pos hcond)
    _ = .next (countAll 3 (s.unitIn u)) := congrArg _ hserve

/-! ### Cooling (R408) -/

/-- The dies that are throttled after some samples. -/
def State.throttledBy (s : State) (xs : List Sample) : List Bool :=
  s.mgmt.throttled.zipIdx.map fun d => d.1 || throttles (addSamples s.mgmt.samples xs) d.2

/-- A sample that throttles no further die counts no event. -/
theorem exec_thermalThrottle (xs : List Sample) (s : State) :
    exec (.thermalThrottle xs) s =
      .next { (if s.throttledBy xs = s.mgmt.throttled then s else countAll 4 s) with mgmt := { s.mgmt with
        samples := addSamples s.mgmt.samples xs, throttled := s.throttledBy xs } } := by
  have hexec : exec (.thermalThrottle xs) s =
      .next (let u := if s.throttledBy xs == s.mgmt.throttled then s else countAll 4 s
        { u with mgmt := { u.mgmt with samples := addSamples s.mgmt.samples xs, throttled := s.throttledBy xs } }) := rfl
  rw [hexec]
  by_cases h : s.throttledBy xs = s.mgmt.throttled
  · simp only [h, beq_self_eq_true, if_true]
  · have hne : (s.throttledBy xs == s.mgmt.throttled) = false := by simpa using h
    simp only [hne, Bool.false_eq_true, if_false, if_neg h, State.mgmt_of_others (countAll_others 4 s)]

/-- A critical sample resets every partition, counts the event in each, and stops the C-dies. -/
theorem exec_criticalShutdown {xs : List Sample} {s : State} (hc : critical (addSamples s.mgmt.samples xs) = true)
    (hs : s.mgmt.stopped = false) :
    exec (.criticalShutdown xs) s =
      .next (let u := countAll 4 ((Prog.all ((List.range 8).map criticalReset)).run s)
        { u with mgmt := { u.mgmt with samples := addSamples s.mgmt.samples xs, stopped := true } }) := by
  have hcond : (critical (addSamples s.mgmt.samples xs) && !s.mgmt.stopped) = true := by
    rw [hc, hs]
    rfl
  unfold criticalReset
  exact if_pos hcond

/-! ### Retention (R383) -/

theorem exec_retentionEntry (arr : ArrayId) (s : State) :
    ∃ t, exec (.retentionEntry arr) s = .next t ∧ t.retained = if arr ∈ s.retained then s.retained else s.retained ++ [arr] := by
  refine ⟨_, rfl, ?_⟩
  rw [Prog.run_dyn]
  by_cases h : arr ∈ s.retained
  · rw [if_pos (List.contains_iff_mem.2 h), if_pos h]
    rfl
  · rw [if_neg (by simpa using h), if_neg h, Prog.run_all_cons, Prog.run_all_cons, Prog.run_all_nil, ← (settles_reencode arr s).retained]
    rfl

/-- The machine as an array leaves retention, before a command that waited for it. -/
def State.woken (s : State) (arr : ArrayId) : State := { s with retained := s.retained.filter (· != arr) }

theorem exec_retentionExit (arr : ArrayId) (s : State) : exec (.retentionExit arr) s = .next (serveAll (s.woken arr)) := rfl

/-! ### The module as a whole -/

/-- What the management core holds after its start: the keys that R403 derives from the seed and the measured image, or the ROM's empty
state. -/
theorem startMgmt_keys (start : StartInputs) (flash : List Image) :
    let m := startMgmt start flash
    let seed := Config.reconstructSeed start.puf start.helper
    let image := (flash.take 2).find? haloneOk
    (seed = none ∨ image = none → m = .reset) ∧
    ∀ k i, seed = some k → image = some i →
      let measured : BitVec 384 := BitVec.ofNat 384 (bytesNat (sha384 (List.replicate 48 0 ++ sha384 (imageBytes i))))
      let idKey := deriveKey k [] "LX96 ID"
      let aliasKey := deriveKey k (measBytes measured) "LX96 ALIAS"
      let tbs := Config.aliasTbs (edPublic (keyBytes idKey)) (edPublic (keyBytes aliasKey))
      m.stage = .halone ∧ m.meas[0]? = some measured ∧ m.seed = some k ∧ m.idKey = some idKey ∧ m.aliasKey = some aliasKey ∧
        m.idCert = start.cert ∧ m.aliasCert = tbs ++ edSign (keyBytes idKey) tbs := by
  refine ⟨startMgmt_rom, fun k i hk hi => ?_⟩
  have hmeas := measure_halone (List.find?_some hi)
  obtain ⟨meas, svns, keys, hm, h0⟩ := startMgmt_halone hk hi
  have hget : (measure i .reset).meas.getD 0 0 = BitVec.ofNat 384 (bytesNat (sha384 (List.replicate 48 0 ++ sha384 (imageBytes i)))) := by
    rw [List.getD_eq_getElem?_getD, hmeas, Option.getD_some]
  rw [hmeas] at h0
  simp only [hm, deriveIdentity, hget, publicOf, signWith, Option.map_some, Option.getD_some]
  exact ⟨trivial, h0, trivial, trivial, trivial, trivial, trivial⟩

/-- A unit that may be ready by now sets its bit, and nothing else; the change is a class 3 event of every configured partition (R404). -/
theorem unitReady_bit {s : State} {u : UnitReport} (hstage : s.mgmt.stage = .halone) (hwait : s.mgmt.waiting = [])
    (hex : unitExists u.unit = true) (hbit : s.mgmt.ready.getLsbD (readyBit u.unit) = false)
    (hmay : unitMayBeReady { s.mgmt with links := s.mgmt.links ||| u.links } u.unit = true) :
    ∃ t, exec (.unitReady u) s = .next t ∧
      t = { s with parts := t.parts, outbox := t.outbox, mgmt := { s.mgmt with
        links := s.mgmt.links ||| u.links, ready := t.mgmt.ready } } ∧
      (∀ b, b < 256 → t.mgmt.ready.getLsbD b = (s.mgmt.ready.getLsbD b || decide (b = readyBit u.unit))) ∧
      (Numbered s → NoticeInAll { s with mgmt := t.mgmt } t 3) := by
  have hothers := countAll_others 3 (s.unitIn u)
  have hmgmt := State.mgmt_of_others hothers
  refine ⟨countAll 3 (s.unitIn u), exec_unitReady hstage hwait hex hbit hmay, ?_, fun b hb => ?_, fun hn => ?_⟩
  · rw [hmgmt]
    exact State.eq_of_others hothers
  · rw [hmgmt]
    exact getLsbD_or_two_pow _ hb _
  · rw [hmgmt]
    exact countAll_notice (s := s.unitIn u) hn (by decide)

/-- A hot sample is a class 4 event where it throttles a further die (R408). -/
theorem thermalThrottle_notice (xs : List Sample) (s : State) :
    ∃ t, exec (.thermalThrottle xs) s = .next t ∧
      t = { s with parts := t.parts, outbox := t.outbox, mgmt := { s.mgmt with
        samples := addSamples s.mgmt.samples xs, throttled := s.throttledBy xs } } ∧
      (t.mgmt.throttled = s.mgmt.throttled → t.parts = s.parts ∧ t.outbox = s.outbox) ∧
      (t.mgmt.throttled ≠ s.mgmt.throttled → Numbered s → NoticeInAll s t 4) := by
  refine ⟨_, exec_thermalThrottle xs s, ?_⟩
  by_cases h : s.throttledBy xs = s.mgmt.throttled
  · rw [if_pos h]
    exact ⟨rfl, fun _ => ⟨rfl, rfl⟩, fun hne => absurd h hne⟩
  · rw [if_neg h]
    have hothers := countAll_others 4 s
    have hnotice : Numbered s → NoticeInAll s (countAll 4 s) 4 := fun hn => countAll_notice hn (by decide)
    generalize countAll 4 s = u at hothers hnotice ⊢
    refine ⟨?_, fun heq => absurd heq h, fun _ => hnotice⟩
    rw [State.eq_of_others hothers]

/-- A critical sample resets every configured partition, whose class 4 event is counted and not sent (R408). -/
theorem criticalShutdown_resets {xs : List Sample} {s : State} (hn : Numbered s) (hc : critical (addSamples s.mgmt.samples xs) = true)
    (hs : s.mgmt.stopped = false) :
    ∃ t, exec (.criticalShutdown xs) s = .next t ∧ t.mgmt.stopped = true ∧ t.mgmt.samples = addSamples s.mgmt.samples xs ∧
      (∀ p, p < 8 → (s.part p).state ≠ .none → (s.part p).state ≠ .resetting → (t.part p).state = .resetting ∧ Vacant p t) ∧
      ∀ p e, p < 8 → (s.part p).state ≠ .none → (s.part p).events[4]? = some e →
        (t.part p).events[4]? = some { e with
          count := min (e.count + 1) 65535, timer := if e.count = 0 then some e.period else e.timer } := by
  have hexec := exec_criticalShutdown hc hs
  have hall := criticalResets hn (List.range 8)
  generalize (Prog.all ((List.range 8).map criticalReset)).run s = u at hexec hall
  have htold (p : Nat) (hp : p < 8) (hst : (s.part p).state ≠ .none) :
      (countAll 4 u).part p = ((u.part p).told u 4).1 ∧ (u.part p).state = .resetting := by
    refine ⟨countAll_part hall.numbered (by decide) hp (hall.configured hst), ?_⟩
    rw [hall.state hst, if_pos (List.mem_range.2 hp)]
  have hothers := countAll_others 4 u
  generalize countAll 4 u = v at hexec htold hothers
  have hvacant (p : Nat) (h : Vacant p u) : Vacant p v := by
    rw [State.eq_of_others hothers]
    exact ⟨h.groups, h.launches⟩
  refine ⟨_, hexec, rfl, rfl, fun p hp hst hst' => ?_, fun p e hp hst he => ?_⟩
  · obtain ⟨hpart, hres⟩ := htold p hp hst
    obtain ⟨hgroups, hlaunches⟩ := hvacant p (hall.vacant p hst (.inr ⟨List.mem_range.2 hp, hst'⟩))
    exact ⟨(congrArg Part.state hpart).trans (told_resetting u (by decide) hres).1, hgroups, hlaunches⟩
  · obtain ⟨hpart, hres⟩ := htold p hp hst
    have hev : (u.part p).events[4]? = some e := (congrArg (fun x => x.2.2) (hall.standing p hst)).trans he
    exact (congrArg (fun q : Part => q.events[4]?) hpart).trans ((told_resetting u (by decide) hres).2 e hev)

/-- Settles O60: `startMgmt_idle` and `startMgmt_keys` say what a module reset leaves, `unitReady_bit`, `thermalThrottle_notice` and
`criticalShutdown_resets` what the reports and samples do, and `exec_retentionEntry` and `serveAll_of_one` speak of retention. -/
theorem moduleAndPower : Obligations.ModuleAndPower := by
  unfold Obligations.ModuleAndPower
  intro s
  refine ⟨fun start flash => ?_, fun u hstage hwait hex hbit hlinks => ?_, fun xs => thermalThrottle_notice xs s, fun xs => rfl,
    fun xs hn hc hs => ?_, fun arr => ⟨exec_retentionEntry arr s, fun hwait => ?_, fun i hwait hserved => ?_⟩⟩
  · obtain ⟨hready, hlinks, hsession, hstopped, hwaiting⟩ := startMgmt_idle start flash
    exact ⟨startMgmt start flash, rfl, hready, hlinks, hsession, hstopped, hwaiting, startMgmt_keys start flash⟩
  · obtain ⟨unit, links⟩ := u
    refine unitReady_bit hstage hwait hex hbit ?_
    cases unit with
    | pair n => exact hlinks
    | mgmt => rfl
    | ford n => exact hlinks
    | port n => exact hlinks
    | stack n => rfl
    | sliceGroup n => exact hlinks
  · obtain ⟨t, hexec, hstopped, hsamples, hreset, hevents⟩ := criticalShutdown_resets hn hc hs
    refine ⟨t, hexec, hstopped, hsamples, fun p hp hst hst' => ?_, hevents⟩
    obtain ⟨hstate, hgroups, hlaunches⟩ := hreset p hp hst hst'
    exact ⟨hstate, fun g hg he => hgroups (he ▸ List.mem_map_of_mem hg), fun l hl he => hlaunches (he ▸ List.mem_map_of_mem hl)⟩
  · rw [exec_retentionExit, serveAll_of_none (show (s.woken arr).mgmt.waiting = [] from hwait), ← hwait]
    rfl
  · have hserved' : commandWaits (s.woken arr) i = false := (commandWaits_waiting (s.woken arr) [] i).symm.trans hserved
    rw [exec_retentionExit, serveAll_of_one (show (s.woken arr).mgmt.waiting = [i] from hwait) hserved']
    rfl

end Sys2Proof.Machine
end

section
/-! PROOFS. The checks of R31 as the model makes them are those that R20 to R31 ask for, for each source of a launch. -/

namespace Sys2Proof.Machine
set_option Elab.async false

/-! ### Fields of words and first reasons -/

theorem field_eq_bitsOf (w : Word) (hi lo : Nat) : field w hi lo = bitsOf w lo (hi + 1 - lo) := by
  simp [field, bitsOf, Nat.shiftRight_eq_div_pow]

/-- Bits of a word, as a word, are their number. -/
theorem extractLsb'_setWidth_eq (w : Word) (lo len n : Nat) : (w.extractLsb' lo len).setWidth n = BitVec.ofNat n (bitsOf w lo len) :=
  (BitVec.ofNat_toNat _ _).symm

theorem setWidth_eq_field (w : Word) : w.setWidth 32 = BitVec.ofNat 32 (field w 31 0) := by
  apply BitVec.eq_of_toNat_eq
  simp [field]

/-- The low half of a word holds its bits below 32. -/
theorem extractLsb'_setWidth (w : Word) {lo len : Nat} (h : lo + len ≤ 32) :
    ((w.setWidth 32).extractLsb' lo len).toNat = bitsOf w lo len := by
  congr 1
  ext i hi
  simp [show lo + i < 32 by omega]

theorem PartWord.of_setWidth (w : Word) : PartWord.of (w.setWidth 32) = ⟨bitsOf w 24 8, bitsOf w 16 8, bitsOf w 11 5, bitsOf w 4 7⟩ := by
  have h (lo len : Nat) (hl : lo + len ≤ 32) := extractLsb'_setWidth w hl
  rw [PartWord.of, h 24 8 (by decide), h 16 8 (by decide), h 11 5 (by decide), h 4 7 (by decide)]

/-- R57 on the low half of a word. -/
theorem partWordOk_setWidth (w : Word) : (!partWordOk (w.setWidth 32)) = decide (bitsOf w 0 4 ≠ 0 ∨ bitsOf w 24 8 < 16 ∨ 192 < bitsOf w 24 8 ∨
    176 < bitsOf w 16 8 ∨ 16 < bitsOf w 11 5 ∨ bitsOf w 4 7 < 1 ∨ 96 < bitsOf w 4 7 ∨
    192 < bitsOf w 24 8 + bitsOf w 4 7 * (bitsOf w 16 8 + (bitsOf w 11 5 + 1) / 2)) := by
  have hzero : ((w.setWidth 32).extractLsb' 0 4 == 0) = decide (bitsOf w 0 4 = 0) := by
    rw [← extractLsb'_setWidth w (show 0 + 4 ≤ 32 by decide), beq_eq_decide]
    exact decide_eq_decide.2 BitVec.toNat_eq
  simp only [partWordOk, PartWord.of_setWidth, PartWord.acc, hzero]
  rw [Bool.eq_iff_iff]
  simp
  omega

/-- The first answer of reasons that each hold or not. -/
theorem firstSome_reasons (xs : List (Nat × Bool)) :
    firstSome (xs.map fun x => if x.2 then some x.1 else none) = (xs.find? Prod.snd).map Prod.fst := by
  induction xs with
  | nil => rfl
  | cons x xs ih =>
    obtain ⟨n, b⟩ := x
    cases b
    · simpa [firstSome] using ih
    · simp [firstSome]

/-- The header's own conditions, 4 to 8 of R31. -/
def ownReasons (q : Part) (a : LaunchAsk) (w : Nat → Word) : List (Nat × Bool) := (headerReasons q a w).take 5

/-- The conditions of R31 that weigh the header against what the source asks for, 9 to 11. -/
def askReasons (q : Part) (a : LaunchAsk) (w : Nat → Word) : List (Nat × Bool) := (headerReasons q a w).drop 5

theorem headerReasons_eq (q : Part) (a : LaunchAsk) (w : Nat → Word) : headerReasons q a w = ownReasons q a w ++ askReasons q a w :=
  (List.take_append_drop 5 _).symm

theorem headerFail_eq (q : Part) (a : LaunchAsk) (ws : List Word) :
    headerFail ws = ((ownReasons q a fun k => ws.getD k 0).find? Prod.snd).map Prod.fst := by
  rw [← firstSome_reasons]
  simp only [ownReasons, headerReasons, List.take_succ_cons, List.take_zero, List.map_cons, List.map_nil, field_eq_bitsOf, headerFail,
    partWordOk_setWidth]
  congr 1
  simp [or_assoc]

/-- A header that its own conditions pass declares at most 16 arguments. -/
theorem argc_le_of_ownReasons {q : Part} {a : LaunchAsk} {w : Nat → Word} (h : (ownReasons q a w).find? Prod.snd = none) :
    field (w 6) 4 0 ≤ 16 := by
  have h5 := (List.find?_eq_none.1 h) _ (List.getElem_mem (l := ownReasons q a w) (n := 1) (by simp [ownReasons, headerReasons]))
  simp [ownReasons, headerReasons] at h5
  omega

/-! ### What a source asks for -/

/-- A request of the model asks for what `a` says. -/
structure Asks (r : Request) (a : LaunchAsk) : Prop where
  header : r.header = BitVec.ofNat 64 a.header
  teams : r.teams = a.teams
  teamSize : r.teamSize = a.teamSize
  cls : r.cls = a.cls
  donectr : r.donectr = a.donectr
  argc : ∀ n, n ≤ 16 → (r.argc = n ↔ ∀ c, c ∈ a.argcs → c = n)
  argtags : r.argtags = a.argtags
  args : r.args = a.args

/-- Arguments beyond those that a source brings are zero (R30). -/
theorem take_append_zeros (xs : List Word) {n : Nat} (h : n ≤ 16) :
    (xs ++ List.replicate 16 0).take n = (List.range n).map fun i => xs.getD i 0 := by
  apply List.ext_getElem
  · simp; omega
  · intro i h1 h2
    simp only [List.getElem_take, List.getElem_append, List.getElem_map, List.getElem_range, List.getD_eq_getElem?_getD, List.getElem_replicate]
    split <;> simp [*]

/-- Two tags pass R24 where neither is above 12 and they agree as far as both are given. -/
theorem tagPair_eq (a b : Nat) : (decide (a < 13) && decide (b < 13) && (a == b || a == 0 || b == 0)) =
    !(decide (12 < a) || decide (12 < b) || (a != b && a != 0 && b != 0)) := by
  rw [Bool.eq_iff_iff]
  simp
  omega

theorem tagsPass_eq (supplied declared : Word) (argc : Nat) : tagsPass supplied declared argc = !((List.range argc).any fun i =>
    12 < field supplied (4 * i + 3) (4 * i) || 12 < field declared (4 * i + 3) (4 * i) ||
      (field supplied (4 * i + 3) (4 * i) != field declared (4 * i + 3) (4 * i) && field supplied (4 * i + 3) (4 * i) != 0 &&
        field declared (4 * i + 3) (4 * i) != 0)) := by
  have hfield (t : Word) (i : Nat) : field t (4 * i + 3) (4 * i) = argTag t i := by
    rw [field_eq_bitsOf, show 4 * i + 3 + 1 - 4 * i = 4 by omega, argTag]
  simp only [hfield, List.not_any_eq_all_not]
  exact congrArg (List.range argc).all (funext fun i => tagPair_eq _ _)

theorem countP_low_half (g n : Nat) : ((List.range n).countP fun i => decide (2 * i < g)) = min n ((g + 1) / 2) := by
  induction n with
  | zero => simp
  | succ n ih =>
    rw [List.range_succ, List.countP_append, ih]
    by_cases h : 2 * n < g <;> simp [h] <;> omega

theorem groupsOnCores_eq (size width : Nat) : groupsOnCores size width = groupSplit size width := by
  have hlow := countP_low_half (size / width) (size / width)
  have hall := List.length_eq_countP_add_countP (fun i => decide (2 * i < size / width)) (l := List.range (size / width))
  simp only [List.length_range, decide_eq_true_eq, Nat.not_lt] at hall
  simp only [groupsOnCores, groupSplit]
  split
  · rfl
  · simp only [List.cons.injEq, and_true]
    omega

theorem neverPlaced_eq (q : Part) (h : KHeader) (size k : Nat) (hk : h.width = 16 * 2 ^ k) :
    neverPlaced q h size = (q.pairs == 0 || (groupsOnCores size h.width).any fun n =>
      (PartWord.of h.partword).regu * 1024 < n * (h.entryfp * h.width / 16) + if n = 0 then 0 else h.peak * h.width / 16) := by
  have hdiv (a : Nat) : a * h.width / 16 = a * (h.width / 16) := by
    rw [hk, Nat.mul_div_assoc a ⟨2 ^ k, rfl⟩]
  rw [neverPlaced, groupsOnCores_eq]
  simp only [hdiv, Part.holdsPair, bne, Bool.not_not]
  congr 2
  funext n
  congr 2
  split <;> ring

/-- The model's own record of a header. -/
theorem headerOf_eq (ws : List Word) (p : Nat) (source : Source) (task : Nat) (a : LaunchAsk) :
    headerOf ws = (askedLaunch p source task a fun k => ws.getD k 0).hdr := by
  simp only [headerOf, askedLaunch, field_eq_bitsOf, setWidth_eq_field]

/-- What R31 asks of a header and a source together, as the model checks it. -/
theorem askReasons_eq (q : Part) (ws : List Word) {r : Request} {a : LaunchAsk} (h : Asks r a) (hargc : (headerOf ws).argc ≤ 16) :
    (askReasons q a fun k => ws.getD k 0) =
      [(9, decide (r.teams = 0) || decide (r.teamSize = 0) || decide (3072 < r.teamSize) || r.teamSize % (headerOf ws).width != 0),
        (10, r.argc != (headerOf ws).argc || !tagsPass r.argtags (headerOf ws).argtags (headerOf ws).argc),
        (11, neverPlaced q (headerOf ws) r.teamSize)] := by
  have hcount : (r.argc != (headerOf ws).argc) = a.argcs.any (· != (headerOf ws).argc) := by
    rw [Bool.eq_iff_iff]
    simpa using not_congr (h.argc _ hargc)
  have hregu : (PartWord.of (headerOf ws).partword).regu = field (ws.getD 2 0) 31 24 := by
    rw [field_eq_bitsOf]
    exact congrArg PartWord.regu (PartWord.of_setWidth (ws.getD 2 0))
  rw [neverPlaced_eq q (headerOf ws) r.teamSize _ rfl, hregu, hcount, tagsPass_eq, Bool.not_not, headerOf_eq ws 0 .group 0 a, h.teams,
    h.teamSize, h.argtags]
  simp only [askReasons, headerReasons, askedLaunch, List.drop_succ_cons, List.drop_zero, List.cons.injEq, Prod.mk.injEq, true_and, and_true]
  rw [Bool.eq_iff_iff]
  simp
  tauto

/-- The checks of the model give what R31 asks of the header that a source names. -/
theorem checkRequest_eq (s : State) (p : Nat) (source : Source) (task : Nat) {r : Request} {a : LaunchAsk} (h : Asks r a) :
    checkRequest s p source task r = launchChecked s p source task [] a [] := by
  simp only [checkRequest, launchChecked, h.header, List.append_nil, List.find?_nil]
  cases readVa s p (BitVec.ofNat 64 a.header) 8 with
  | none => rfl
  | some ws =>
    simp only [headerFail_eq (s.part p) a, headerReasons_eq, List.find?_append]
    cases hown : (ownReasons (s.part p) a fun k => ws.getD k 0).find? Prod.snd with
    | some x => rfl
    | none =>
      have hargc : (headerOf ws).argc ≤ 16 := by
        rw [headerOf_eq ws p source task a]
        exact argc_le_of_ownReasons hown
      have hargs : (r.args ++ List.replicate 16 0).take (headerOf ws).argc = (List.range (headerOf ws).argc).map fun i => a.args.getD i 0 := by
        rw [take_append_zeros _ hargc, h.args]
      simp only [Option.map_none, Option.none_or, askReasons_eq (s.part p) ws h hargc, hargs]
      generalize hb1 : (decide (r.teams = 0) || decide (r.teamSize = 0) || decide (3072 < r.teamSize) ||
        r.teamSize % (headerOf ws).width != 0) = b1
      generalize hb2 : (r.argc != (headerOf ws).argc || !tagsPass r.argtags (headerOf ws).argtags (headerOf ws).argc) = b2
      generalize hb3 : neverPlaced (s.part p) (headerOf ws) r.teamSize = b3
      cases b1
      · cases b2
        · cases b3
          · simp [headerOf_eq ws p source task a, h.cls, h.teams, h.teamSize, h.donectr, askedLaunch]
          · rfl
        · rfl
      · rfl

/-! ### The checks of each source -/

/-- A condition of the source that fails gives its reason (R31). -/
theorem launchChecked_of_before {s : State} {p : Nat} {source : Source} {task : Nat} {before after : List (Nat × Bool)} {a : LaunchAsk}
    {x : Nat × Bool} (h : before.find? Prod.snd = some x) : launchChecked s p source task before a after = .error x.1 := by
  simp only [launchChecked, h]

/-- Where the source's own conditions hold, the header decides. -/
theorem launchChecked_before {s : State} {p : Nat} {source : Source} {task : Nat} {before after : List (Nat × Bool)} {a : LaunchAsk}
    (h : before.find? Prod.snd = none) : launchChecked s p source task before a after = launchChecked s p source task [] a after := by
  simp only [launchChecked, h, List.find?_nil]

/-- What a source adds fails last. -/
theorem launchChecked_after (s : State) (p : Nat) (source : Source) (task : Nat) (a : LaunchAsk) (n : Nat) (b : Bool) :
    launchChecked s p source task [] a [(n, b)] = match launchChecked s p source task [] a [] with
      | .error k => .error k
      | .ok l => if b then .error n else .ok l := by
  simp only [launchChecked, List.find?_nil, List.append_nil, List.find?_append]
  cases readVa s p (BitVec.ofNat 64 a.header) 8 with
  | none => rfl
  | some ws =>
    dsimp only
    cases (headerReasons (s.part p) a fun k => ws.getD k 0).find? Prod.snd with
    | some x => rfl
    | none => cases b <;> rfl

/-- R28 on the words of a descriptor. -/
theorem taskFail_eq (s : State) (p task : Nat) (d : List Word) :
    taskFail s p task d = ((taskReasons (s.part p) task fun k => d.getD k 0).find? Prod.snd).map Prod.fst := by
  have htop : (!(d.getD 0 0).getLsbD 63) = (bitsOf (d.getD 0 0) 63 1 == 0) := by
    generalize d.getD 0 0 = w
    rw [bitsOf, Bool.eq_iff_iff]
    simp [BitVec.getLsbD, Nat.testBit, Nat.shiftRight_eq_div_pow, Nat.one_and_eq_mod_two]
  rw [← firstSome_reasons]
  simp only [taskReasons, field_eq_bitsOf, List.map_cons, List.map_nil, taskFail, descBad, htop]
  cases (s.part p).tstop <;> simp [or_assoc]
  all_goals split <;> simp_all [firstSome]

section
variable {s : State} (hs : s.syn = [])
include hs

theorem readDesc_getD (p task : Nat) {k : Nat} (hk : k < 4) : (readDesc s p task).getD k 0 = descOf s p task k := by
  simp [readDesc, descWords, descAddr, descOf, hk, unitWord_eq hs]

theorem taskFail_readDesc (p task : Nat) :
    taskFail s p task (readDesc s p task) = ((taskReasons (s.part p) task (descOf s p task)).find? Prod.snd).map Prod.fst := by
  rw [taskFail_eq]
  simp only [taskReasons, readDesc_getD hs p task (show 0 < 4 by decide), readDesc_getD hs p task (show 1 < 4 by decide),
    readDesc_getD hs p task (show 3 < 4 by decide)]

end

/-- R25 on the words of a record. -/
theorem recordBad_eq (r : List Word) : recordBad r =
    (let w := fun k => r.getD k 0
     let kind := field (w 0) 63 60
     (kind != 1 && kind != 2) || field (w 0) 57 52 != 0 || (kind == 1 && field (w 0) 5 0 != 0) || (kind == 2 && field (w 0) 51 16 != 0) ||
        16 < field (w 1) 63 59 || field (w 1) 58 44 != 0 || (kind == 2 && field (w 1) 43 32 != 0) || field (w 1) 31 20 != 0 ||
        field (w 2) 63 52 != 0 || field (w 2) 2 0 != 0) := by
  simp only [recordBad, field_eq_bitsOf]
  rw [Bool.eq_iff_iff]
  simp
  tauto

/-- What the model takes from a record that it checks (R25). -/
def recordRequest (s : State) (p : Nat) (r : List Word) : Request :=
  let w := fun k => r.getD k 0
  let d := readDesc s p (recordTask r)
  let byTask := bitsOf (w 0) 60 4 == 2
  let argc := bitsOf (w 1) 59 5
  { header := if byTask then ((d.getD 0 0).extractLsb' 0 52).setWidth 64 else ((w 0).extractLsb' 0 52).setWidth 64
    teams := bitsOf (w 1) 0 20
    teamSize := if byTask then descSize d else bitsOf (w 1) 32 12
    cls := bitsOf (w 0) 58 2
    donectr := bitsOf (w 2) 0 52
    argc := if byTask && descArgc d != argc then 31 else argc
    argtags := w 3
    args := (r.drop 4).take argc }

/-- What a record asks for (R25). -/
def recordAsk (s : State) (p : Nat) (r : List Word) : LaunchAsk :=
  let w := fun k => r.getD k 0
  let byTask := field (w 0) 63 60 = 2
  let d := descOf s p (recordTask r)
  { header := if byTask then field (d 0) 51 0 else field (w 0) 51 0
    teams := field (w 1) 19 0
    teamSize := if byTask then field (d 1) 43 32 else field (w 1) 43 32
    cls := field (w 0) 59 58
    donectr := field (w 2) 51 0
    argcs := if byTask then [field (w 1) 63 59, field (d 1) 63 59] else [field (w 1) 63 59]
    argtags := w 3
    args := (r.drop 4).take (field (w 1) 63 59) }

theorem checkRecord_eq (s : State) (p : Nat) (src : Source) (r : List Word) : checkRecord s p src r =
    if recordBad r then .error 1
    else match if bitsOf (r.getD 0 0) 60 4 == 2 then taskFail s p (recordTask r) (readDesc s p (recordTask r)) else none with
      | some n => .error n
      | none => checkRequest s p src (recordTask r) (recordRequest s p r) := by
  unfold checkRecord
  rfl

theorem recordTask_eq (r : List Word) : recordTask r = if field (r.getD 0 0) 63 60 = 2 then field (r.getD 0 0) 15 0 else 0 := by
  simp only [recordTask, field_eq_bitsOf]

theorem recordChecked_eq (s : State) (p : Nat) (src : Source) (r : List Word) : recordChecked s p src r =
    launchChecked s p src (recordTask r)
      ((1, recordBad r) :: if field (r.getD 0 0) 63 60 = 2 then taskReasons (s.part p) (recordTask r) (descOf s p (recordTask r)) else [])
      (recordAsk s p r) [] := by
  rw [recordBad_eq, recordAsk, recordTask_eq]
  by_cases hkind : field (r.getD 0 0) 63 60 = 2 <;> simp only [recordChecked, hkind, if_true, if_false]

theorem asks_record {s : State} (hs : s.syn = []) (p : Nat) (r : List Word) : Asks (recordRequest s p r) (recordAsk s p r) := by
  have hdesc (k : Nat) (hk : k < 4) := readDesc_getD hs p (recordTask r) hk
  rw [recordRequest, recordAsk]
  simp only [field_eq_bitsOf, descSize, descArgc, hdesc 0 (by decide), hdesc 1 (by decide), beq_iff_eq, Bool.and_eq_true]
  constructor <;> dsimp only
  case header => split <;> exact extractLsb'_setWidth_eq _ _ _ _
  case argc =>
    intro n hn
    split <;> split <;> simp_all
    omega

/-- The checks of a launch record (R25, R31). -/
theorem checkRecord_eq_recordChecked {s : State} (hs : s.syn = []) (p : Nat) (src : Source) (r : List Word) :
    checkRecord s p src r = recordChecked s p src r := by
  rw [checkRecord_eq, recordChecked_eq, taskFail_readDesc hs, checkRequest_eq s p src _ (asks_record hs p r), field_eq_bitsOf]
  cases recordBad r with
  | true => exact (launchChecked_of_before (x := (1, true)) (List.find?_cons_of_pos rfl)).symm
  | false =>
    by_cases hkind : bitsOf (r.getD 0 0) 60 4 = 2
    · simp only [Bool.false_eq_true, if_false, hkind, beq_self_eq_true, if_true]
      cases htask : (taskReasons (s.part p) (recordTask r) (descOf s p (recordTask r))).find? Prod.snd with
      | some x => exact (launchChecked_of_before htask).symm
      | none => exact (launchChecked_before htask).symm
    · simp only [Bool.false_eq_true, if_false, hkind, beq_iff_eq]
      exact (launchChecked_before rfl).symm

/-- What a descriptor asks for, with what its source brings (R28, R30). -/
theorem asks_descriptor (d : List Word) (teams : Nat) (cls : Option Nat) (tags : Word) (args : List Word) :
    Asks (descRequest d teams cls tags args) (descAsk (fun k => d.getD k 0) teams cls tags args) := by
  simp only [descRequest, descAsk, descTeams, descSize, descPrio, descArgc, field_eq_bitsOf]
  constructor <;> dsimp only
  case header => exact extractLsb'_setWidth_eq _ _ _ _
  case argc => simp

/-- The checks of a start (R291, R294, R329). -/
theorem checkStart_eq (s : State) (x : Start) : checkStart s x = startChecked s x := by
  unfold checkStart startChecked
  rw [taskFail_eq, checkRequest_eq s x.part x.source x.task (asks_descriptor x.desc x.teams x.cls 0 x.args)]
  cases htask : (taskReasons (s.part x.part) x.task fun k => x.desc.getD k 0).find? Prod.snd with
  | some y => exact (launchChecked_of_before htask).symm
  | none => exact (launchChecked_before htask).symm

/-- A descriptor asks for the same through its four words. -/
theorem descAsk_readDesc {s : State} (hs : s.syn = []) (p task teams : Nat) (cls : Option Nat) (tags : Word) (args : List Word) :
    descAsk (fun k => (readDesc s p task).getD k 0) teams cls tags args = descAsk (descOf s p task) teams cls tags args := by
  simp only [descAsk, readDesc_getD hs p task (show 0 < 4 by decide), readDesc_getD hs p task (show 1 < 4 by decide),
    readDesc_getD hs p task (show 3 < 4 by decide)]

/-- The class of a launch from a port: the descriptor's (none), that of S[st], or the issuing launch's own (R41). -/
def portClass (s : State) (e : PortEntry) : Option Nat :=
  match e.clsSel with
  | 1 => some e.cls
  | 2 => some (((s.launch? e.launch).map Launch.cls).getD 0)
  | _ => none

/-- The checks of a port entry (R40 to R42). -/
theorem checkPort_eq {s : State} (hs : s.syn = []) (e : PortEntry) : checkPort s e = portChecked s e := by
  have hreq := checkRequest_eq s e.part .group e.task
    (asks_descriptor (readDesc s e.part e.task) e.teams (portClass s e) ((readDesc s e.part e.task).getD 2 0) e.window)
  have hafter := launchChecked_after s e.part .group e.task
    (descAsk (descOf s e.part e.task) e.teams (portClass s e) (descOf s e.part e.task 2) e.window) 10
    (e.sa != 0 && decide (63 < e.sa + field (descOf s e.part e.task 1) 63 59 - 1))
  rw [descAsk_readDesc hs, readDesc_getD hs _ _ (by decide)] at hreq
  rw [← hreq, field_eq_bitsOf] at hafter
  unfold checkPort portChecked
  dsimp only
  rw [taskFail_readDesc hs, descArgc, readDesc_getD hs _ _ (show 1 < 4 by decide), readDesc_getD hs _ _ (show 2 < 4 by decide)]
  rw [field_eq_bitsOf]
  cases htask : (taskReasons (s.part e.part) e.task (descOf s e.part e.task)).find? Prod.snd with
  | some y => exact (launchChecked_of_before htask).symm
  | none => exact (hafter.symm.trans (launchChecked_before htask).symm)

end Sys2Proof.Machine
end

section
/-! PROOFS. What LAUNCH_COMMAND, the hand-overs of ports, slices and bins, and the entry of a held launch do (R31, R36, R42 to R45, R293,
R294, R329). -/

namespace Sys2Proof.Machine
set_option Elab.async false

/-! ### Reading for a launch's checks, and the class queues -/

section
variable {s : State} (hs : s.syn = [])
include hs

/-- Words read for a unit where every check code is good leave everything as it is. -/
theorem touchWords_run (ws : List Nat) : (touchWords s ws) = .done := by
  simp [touchWords, hs]

/-- What the table words of a walk leave where every check code is good: their lines are marked (R231). -/
theorem readTables_run (die : Nat) (ws : List Nat) : (readTables s die ws).run s = markTables die ws s := by
  unfold readTables
  rw [touchWords_run hs]
  cases ws with
  | nil => rfl
  | cons a as => rfl

/-- The checks of a launch go on once their words have been read. -/
theorem reading_run {rd : List Nat × List Nat} (hw : awakeWords s (rd.1 ++ rd.2) = true) (k : Prog) :
    (reading s rd k).run s = k.run (markTables 0 rd.1 s) := by
  rw [reading, if_pos hw, Prog.run_all_cons, Prog.run_all_cons, Prog.run_all_nil, readProg, Prog.run_all_cons, readTables_run hs,
    touchWords_run hs]
  rfl

/-- The command at the head of a queue is taken. -/
theorem takeCommand_run {p kind : Nat} (h : mayTake s p kind = true) (act : List Word → Prog) :
    (takeCommand p kind act).run s = (act (headCommand s p)).run s := by
  rw [takeCommand, Prog.run_dyn, if_pos h, touchWords_run hs]
  simp

end

theorem freeSlot_eq (p : Nat) (s : State) : freeSlot p s = s.modPart p Part.nextCommand := rfl

/-- A launch enters its queue, and the partition changes besides in what does not concern its queues. -/
theorem enterQueue_modPart (s : State) (l : Launch) {f : Part → Part}
    (hf : ∀ q n es, f { q with entered := n, queues := es } = { f q with entered := n, queues := es }) :
    (enterQueue l s).modPart l.part f = s.withLaunch l.part l f := by
  simp only [enterQueue, State.withLaunch, State.modPart, List.map_map]
  congr 1
  refine List.map_congr_left fun q _ => ?_
  by_cases h : q.num = l.part
  · have hb : (q.num == l.part) = true := beq_iff_eq.2 h
    simp only [Function.comp_apply, if_pos hb, if_pos h]
    exact hf q _ _
  · simp [h]

theorem enterQueue_eq (s : State) (l : Launch) : enterQueue l s = s.withLaunch l.part l id := by
  rw [← enterQueue_modPart s l (f := id) fun _ _ _ => rfl]
  simp [State.modPart]

theorem portAnswer_eq (e : PortEntry) (v : Nat) (s : State) : portAnswer e v s = s.answerPort e v := by
  simp only [portAnswer, State.answerPort, State.modGrp, beq_iff_eq]
  cases e.drop <;> rfl

/-! ### Launches made by the checks carry their partition -/

theorem launchChecked_part {s : State} {p : Nat} {source : Source} {task : Nat} {before after : List (Nat × Bool)} {a : LaunchAsk} {l : Launch}
    (h : launchChecked s p source task before a after = .ok l) : l.part = p := by
  unfold launchChecked at h
  split at h
  · cases h
  · cases h
  · split at h
    · cases h
    · cases h
      rfl

theorem recordChecked_part {s : State} {p : Nat} {src : Source} {r : List Word} {l : Launch} (h : recordChecked s p src r = .ok l) :
    l.part = p := launchChecked_part h

theorem portChecked_part {s : State} {e : PortEntry} {l : Launch} (h : portChecked s e = .ok l) : l.part = e.part := launchChecked_part h

theorem startChecked_part {s : State} {x : Start} {l : Launch} (h : startChecked s x = .ok l) : l.part = x.part := launchChecked_part h

/-! ### The command queue hands over (R36, R37) -/

section
variable {s : State} (hs : s.syn = []) {p : Nat} (ht : mayTake s p 1 = true)
include hs ht

/-- What LAUNCH_COMMAND does with the checked record at the head. -/
theorem exec_launchCommand (hw : awakeWords s ((recordReads s p ((headCommand s p).drop 1)).1 ++
      (recordReads s p ((headCommand s p).drop 1)).2) = true) :
    exec (.launchCommand p) s =
      let src := Source.command (((headCommand s p).getD 0 0).setWidth 32)
      let r := (headCommand s p).drop 1
      .next ((match recordChecked s p src r with
        | .error n => Prog.all [launchFails p src (recordTask r) n, .change (freeSlot p)]
        | .ok l => if mustWait s p l.cls then .change fun s => s.modPart p fun q => { q with cmdHeld := some l }
          else .change fun s => freeSlot p (enterQueue l s)).run (markTables 0 (recordReads s p r).1 s)) := by
  refine congrArg Host.Outcome.next ?_
  refine (takeCommand_run hs ht _).trans ?_
  rw [Prog.run_dyn]
  dsimp only
  rw [checkRecord_eq_recordChecked hs, reading_run hs hw] <;> rfl

end

/-- A change that comes to a known state, with memory and the management core as they were. -/
theorem Prog.run_change_of_eq {f : State → State} {s t : State} (h : f s = t) (hm : t.mem = s.mem) (hg : t.mgmt = s.mgmt) :
    (Prog.change f).run s = t := by
  rw [Prog.run_change f s (by rw [h, hm]) (by rw [h, hg]), h]

/-- A program and then a change that leaves memory and the management core. -/
theorem Prog.run_all_change (q : Prog) {f : State → State} (hm : ∀ u, (f u).mem = u.mem) (hg : ∀ u, (f u).mgmt = u.mgmt) (s : State) :
    (Prog.all [q, .change f]).run s = f (q.run s) := by
  rw [Prog.run_all_cons, Prog.run_all_cons, Prog.run_all_nil, Prog.run_change _ _ (hm _) (hg _)]

/-- The start that a slice's list names for a partition is the partition's. -/
theorem start_part {xs : List Start} {slice p : Nat} {x : Start} (h : (xs.find? fun x => x.slice == slice && x.part == p) = some x) :
    x.part = p := by
  have := List.find?_some h
  simp only [Bool.and_eq_true, beq_iff_eq] at this
  exact this.2

/-! ### Ports, slices and bins hand over (R43, R293, R329) -/

section
variable {s : State} (hs : s.syn = [])
include hs

/-- What LAUNCH_PORT_HANDOFF does with the entry that a die hands over next. -/
theorem exec_launchPortHandoff {die : Nat} {e : PortEntry} (hn : nextPort s die = some e) (hp : s.pendingForChild e.gid e.seq = false)
    (hr : (s.part e.part).state ≠ .resetting) (hw : awakeWords s ((portReads s e).1 ++ (portReads s e).2) = true) :
    exec (.launchPortHandoff die) s = .next ((match portChecked s e with
        | .error n => Prog.all [launchFails e.part .group e.task n, .change (portAnswer e (n * 256 + 1))]
        | .ok l => if mustWait s e.part l.cls then
            .change fun (s : State) => { s with ports := s.ports.map fun (x : PortEntry) => if x.id == e.id then { x with held := some l } else x }
          else .change fun s => portAnswer e 0 (enterQueue l s)).run (markTables 0 (portReads s e).1 s)) := by
  refine congrArg Host.Outcome.next ?_
  rw [Prog.run_dyn, hn]
  dsimp only
  rw [hp, if_neg Bool.false_ne_true, if_neg (by simpa using hr), reading_run hs hw, checkPort_eq hs] <;> rfl

/-- What SLIPWAY_HANDOFF does with a partition's first start at a slice. -/
theorem exec_slipwayHandoff {slice p : Nat} {x : Start} (hn : nextStart s slice p = some x) (hh : x.held = none)
    (hr : (s.part p).state ≠ .resetting) (hw : awakeWords s ((startReads s x).1 ++ (startReads s x).2) = true) :
    exec (.slipwayHandoff slice p) s = .next ((match startChecked s x with
        | .error n => Prog.all [launchFails p x.source x.task n, .change (dropStart x.id)]
        | .ok l => if mustWait s p l.cls then
            .change fun (s : State) => { s with starts := s.starts.map fun (y : Start) => if y.id == x.id then { y with held := some l } else y }
          else .change fun s => dropStart x.id (enterQueue l s)).run (markTables 0 (startReads s x).1 s)) := by
  refine congrArg Host.Outcome.next ?_
  rw [Prog.run_dyn, hn]
  dsimp only
  rw [hh, if_neg (by simpa using hr), reading_run hs hw, checkStart_eq] <;> rfl

/-- What BIN_LAUNCH_HANDOFF does with the first launch that a slice's bins hand over for a partition. -/
theorem exec_binLaunchHandoff {slice p : Nat} {x : Start} (hn : nextBinStart s slice p = some x) (hh : x.held = none)
    (hr : (s.part p).state ≠ .resetting) (ha : sourceAwake s x.source = true)
    (hw : awakeWords s ((startReads s x).1 ++ (startReads s x).2) = true) :
    exec (.binLaunchHandoff slice p) s = .next ((match startChecked s x with
        | .error n => Prog.all [launchFails p x.source x.task n, .change (dropBinStart x.id), freeBinSlot x.source]
        | .ok l => if mustWait s p l.cls then
            .change fun (s : State) => { s with binLaunches := s.binLaunches.map fun (y : Start) => if y.id == x.id then { y with held := some l } else y }
          else .change fun s => dropBinStart x.id (enterQueue l s)).run (markTables 0 (startReads s x).1 s)) := by
  refine congrArg Host.Outcome.next ?_
  rw [Prog.run_dyn, hn]
  dsimp only
  rw [hh, ha, if_neg (by simpa using hr), reading_run hs hw, checkStart_eq] <;> rfl

end

/-! ### Launches that wait at their sources (R45) -/

theorem mem_heldLaunches {s : State} {p k : Nat} {l : Launch} : (k, l) ∈ heldLaunches s p ↔
    ((k = 0 ∧ (s.part p).cmdHeld = some l) ∨ (k = 1 ∧ ∃ e, e ∈ s.ports ∧ e.part = p ∧ e.held = some l)) ∨
    (k = 2 ∧ ∃ x, x ∈ s.starts ∧ x.part = p ∧ x.held = some l) ∨ (k = 3 ∧ ∃ x, x ∈ s.binLaunches ∧ x.part = p ∧ x.held = some l) := by
  have hopt (n : Nat) (x : Option Launch) : x.map (fun l => (n, l)) = some (k, l) ↔ k = n ∧ x = some l := by
    cases x <;> simp [eq_comm]
  simp only [heldLaunches, List.mem_append, List.mem_filterMap, Option.mem_toList, beq_iff_eq, Option.ite_none_right_eq_some, hopt]
  grind

theorem classFull_eq_false {s : State} {p c : Nat} : classFull s p c = false ↔
    (((s.part p).queues.getD c []).countP fun e => match e with
      | .launch _ => true
      | .team _ => false) < 1024 := decide_eq_false_iff_not.trans Nat.not_le

/-- A held launch may enter where a place is free and no source before its own holds one of its class (R45). -/
theorem mayEnter_iff {s : State} {rank : Nat} {l : Launch} : mayEnter s rank l = true ↔
    classFull s l.part l.cls = false ∧
      (0 < rank → ∀ k, (s.part l.part).cmdHeld = some k → k.cls ≠ l.cls) ∧
      (1 < rank → ∀ e k, e ∈ s.ports → e.part = l.part → e.held = some k → k.cls ≠ l.cls) ∧
      (2 < rank → ∀ x k, x ∈ s.starts → x.part = l.part → x.held = some k → k.cls ≠ l.cls) ∧
      (3 < rank → ∀ x k, x ∈ s.binLaunches → x.part = l.part → x.held = some k → k.cls ≠ l.cls) := by
  have hall : mayEnter s rank l = true ↔ classFull s l.part l.cls = false ∧
      ∀ n k, (n, k) ∈ heldLaunches s l.part → n < rank → k.cls ≠ l.cls := by
    simp only [mayEnter, Bool.and_eq_true, Bool.not_eq_true', List.all_eq_true, Prod.forall, Bool.or_eq_true, bne_iff_ne, decide_eq_true_eq]
    grind
  rw [hall]
  simp only [mem_heldLaunches]
  grind

/-- A change of the partition that keeps its number and its queues, and then a launch that enters. -/
theorem withLaunch_modPart (s : State) (p : Nat) (l : Launch) {f : Part → Part} (g : Part → Part) (hn : ∀ q, (f q).num = q.num)
    (he : ∀ q, (f q).entered = q.entered) (hq : ∀ q, (f q).queues = q.queues) :
    (s.modPart p f).withLaunch p l g = s.withLaunch p l fun q => g (f q) := by
  have hentered : ((s.modPart p f).part p).entered = (s.part p).entered := by
    simp only [State.part, State.modPart, List.getD_eq_getElem?_getD, List.getElem?_map]
    cases s.parts[p]? with
    | none => rfl
    | some q =>
      simp only [Option.map_some, Option.getD_some]
      split
      · exact he q
      · rfl
  rw [State.withLaunch, hentered]
  simp only [State.withLaunch, State.modPart, List.map_map]
  congr 1
  refine List.map_congr_left fun q _ => ?_
  by_cases h : q.num = p <;> simp [h, hn, he, hq]

section
variable {s : State} {l : Launch}

/-- A launch that its partition's command queue holds enters. -/
theorem exec_heldCommand (hm : mayEnter s 0 l = true) (hh : (s.part l.part).cmdHeld = some l) :
    exec (.heldLaunchEntry (.command l.part)) s =
      .next (s.withLaunch l.part l fun q => { q.nextCommand with cmdHeld := none }) := by
  refine congrArg Host.Outcome.next (Prog.run_change_of_eq ?_ rfl rfl)
  simp only [hh, hm, Bool.not_true, Bool.false_eq_true, if_false]
  rw [freeSlot_eq, enterQueue_modPart _ l fun _ _ _ => rfl]
  exact withLaunch_modPart s l.part l (f := fun q => { q with cmdHeld := none }) _ (fun _ => rfl) (fun _ => rfl) fun _ => rfl

/-- A launch that a die's port holds enters. -/
theorem exec_heldPort {die : Nat} {e : PortEntry} (hf : (s.ports.find? fun x => x.die == die && x.held.any (mayEnter s 1)) = some e)
    (hh : e.held = some l) :
    exec (.heldLaunchEntry (.port die)) s = .next ((s.withLaunch l.part l id).answerPort e 0) := by
  have hany : (fun x : PortEntry => x.die == die && x.held.any (mayEnter s 1)) = fun x => x.die == die && match x.held with
      | some l => mayEnter s 1 l
      | none => false := by
    funext x
    cases x.held <;> rfl
  rw [hany] at hf
  refine congrArg Host.Outcome.next (Prog.run_change_of_eq ?_ rfl rfl)
  rw [← enterQueue_eq, ← portAnswer_eq]
  calc _ = (match some e with
      | some e => (match e.held with
        | some l => portAnswer e 0 (enterQueue l s)
        | none => s)
      | none => s) := by rw [← hf] <;> rfl
    _ = portAnswer e 0 (enterQueue l s) := by simp only [hh]

/-- A launch that a slice holds enters. -/
theorem exec_heldStart {slice : Nat} {x : Start} (hm : mayEnter s 2 l = true) (hn : nextStart s slice l.part = some x) (hh : x.held = some l) :
    exec (.heldLaunchEntry (.slipway slice l.part)) s =
      .next { s.withLaunch l.part l id with starts := s.starts.filter fun y => y.id != x.id } := by
  refine congrArg Host.Outcome.next (Prog.run_change_of_eq ?_ rfl rfl)
  simp only [hn, hh, hm, Bool.not_true, Bool.false_eq_true, if_false]
  rw [enterQueue_eq]
  rfl

/-- A launch that a slice's bins hold enters. -/
theorem exec_heldBin {slice : Nat} {x : Start} (hm : mayEnter s 3 l = true) (hn : nextBinStart s slice l.part = some x)
    (hh : x.held = some l) :
    exec (.heldLaunchEntry (.bin slice l.part)) s =
      .next { s.withLaunch l.part l id with binLaunches := s.binLaunches.filter fun y => y.id != x.id } := by
  refine congrArg Host.Outcome.next (Prog.run_change_of_eq ?_ rfl rfl)
  simp only [hn, hh, hm, Bool.not_true, Bool.false_eq_true, if_false]
  rw [enterQueue_eq]
  rfl

end

/-! ### Every hand-over (R45) -/

/-- A change that depends on whether a launch must wait. -/
theorem Prog.run_ite_change {c : Prop} [Decidable c] {f g : State → State} {s : State} (hf : (f s).mem = s.mem ∧ (f s).mgmt = s.mgmt)
    (hg : (g s).mem = s.mem ∧ (g s).mgmt = s.mgmt) :
    (if c then Prog.change f else Prog.change g).run s = if c then f s else g s := by
  split
  · exact Prog.run_change f s hf.1 hf.2
  · exact Prog.run_change g s hg.1 hg.2

/-- Settles O48: `exec_launchCommand`, `exec_launchPortHandoff`, `exec_slipwayHandoff` and `exec_binLaunchHandoff` say what each source does
with what its checks give, and `exec_heldCommand` and its kin what a launch that waits there does. -/
theorem launchesEnterQueue : Obligations.LaunchesEnterQueue := by
  unfold Obligations.LaunchesEnterQueue
  intro s hs
  refine ⟨fun p ht hw => ?_, fun die e hn hr hres hw => ?_, fun slice p x hn hh hr hw => ?_, fun slice p x hn hh hr ha hw => ?_, fun l =>
    ⟨exec_heldCommand, fun die e => exec_heldPort, fun slice x => exec_heldStart, fun slice x => exec_heldBin, fun rank => ?_⟩⟩
  · have hexec := exec_launchCommand hs ht hw
    dsimp only at hexec ⊢
    split
    · next n hc =>
      simp only [hc] at hexec
      rw [Prog.run_all_change (f := freeSlot p) _ (fun _ => rfl) fun _ => rfl] at hexec
      exact hexec
    · next l hc =>
      simp only [hc] at hexec
      rw [Prog.run_ite_change ⟨rfl, rfl⟩ ⟨rfl, rfl⟩, freeSlot_eq, ← recordChecked_part hc, enterQueue_modPart _ l fun _ _ _ => rfl] at hexec
      rw [← recordChecked_part hc]
      exact hexec
  · have hp : s.pendingForChild e.gid e.seq = false := by
      simp only [State.pendingForChild, List.any_eq_false, Bool.and_eq_true, Bool.or_eq_true, beq_iff_eq, decide_eq_true_eq]
      rintro r hmem ⟨⟨⟨⟨hgid, hseq⟩, hcls⟩, hpend⟩, hwr⟩
      obtain ⟨hw, ha⟩ := hr r hmem hgid hseq hcls hpend
      simp [hw, ha] at hwr
    have hexec := exec_launchPortHandoff hs hn hp hres hw
    dsimp only at hexec ⊢
    split
    · next n hc =>
      simp only [hc] at hexec
      rw [Prog.run_all_change _ (fun _ => by rw [portAnswer_eq]; rfl) fun _ => by rw [portAnswer_eq]; rfl, portAnswer_eq] at hexec
      exact hexec
    · next l hc =>
      simp only [hc, beq_iff_eq, portAnswer_eq, enterQueue_eq] at hexec
      rw [Prog.run_ite_change ⟨rfl, rfl⟩ ⟨rfl, rfl⟩, portChecked_part hc] at hexec
      exact hexec
  · have hexec := exec_slipwayHandoff hs hn hh hr hw
    dsimp only at hexec ⊢
    split
    · next n hc =>
      simp only [hc] at hexec
      rw [Prog.run_all_change (f := dropStart x.id) _ (fun _ => rfl) fun _ => rfl] at hexec
      exact ⟨_, rfl, hexec⟩
    · next l hc =>
      simp only [hc, beq_iff_eq, enterQueue_eq] at hexec
      rw [Prog.run_ite_change ⟨rfl, rfl⟩ ⟨rfl, rfl⟩, startChecked_part hc, start_part hn] at hexec
      exact hexec
  · have hexec := exec_binLaunchHandoff hs hn hh hr ha hw
    dsimp only at hexec ⊢
    split
    · next n hc =>
      simp only [hc, Prog.run_all_cons, Prog.run_all_nil] at hexec
      rw [Prog.run_change _ _ rfl rfl] at hexec
      exact ⟨_, rfl, hexec⟩
    · next l hc =>
      simp only [hc, beq_iff_eq, enterQueue_eq] at hexec
      rw [Prog.run_ite_change ⟨rfl, rfl⟩ ⟨rfl, rfl⟩, startChecked_part hc, start_part hn] at hexec
      exact hexec
  · exact mayEnter_iff.trans (and_congr classFull_eq_false Iff.rfl)

end Sys2Proof.Machine
end

section
/-! PROOFS. What a discard saves (R373 to R375), what a retirement frees (R386), and what the end of a launch leaves (R26, R51, R362). -/

namespace Sys2Proof.Machine

set_option Elab.async false

/-! ### Groups but for their registers and waits -/

/-- A group but for the contents of its registers and what it waits for. -/
def Group.bare (g : Group) : Group := { g with sregs := [], pregs := [], hold := .none }

theorem Group.bare_setS (g : Group) (now r : Nat) (v : Word) (b : Bool) : (g.setS now r v b).bare = g.bare := by
  unfold Group.setS
  split <;> rfl

theorem Group.bare_land (g : Group) (now : Nat) (pids : List Nat) (l : Nat) (vals : List Lane) (bad : Bool) :
    (g.land now pids l vals bad).bare = g.bare := rfl

theorem SameWork.of_bare {g g' : Group} (h : g'.bare = g.bare) : SameWork g g' := by
  have hbare : SameWork g.bare g'.bare := h ▸ SameWork.refl _
  exact hbare

/-- From `s` to `u` teams, partitions, launches and engines have stayed, groups may have been added at the end, and those of before have
changed at most in registers and waits. -/
structure Stands (s u : State) : Prop where
  teams : u.teams = s.teams
  parts : u.parts = s.parts
  launches : u.launches = s.launches
  engines : u.engines = s.engines
  groups : s.groups.map Group.bare <+: u.groups.map Group.bare

theorem Stands.of_same {s u : State} (ht : u.teams = s.teams) (hp : u.parts = s.parts) (hl : u.launches = s.launches)
    (he : u.engines = s.engines) (hg : u.groups = s.groups) : Stands s u :=
  ⟨ht, hp, hl, he, hg ▸ List.prefix_rfl⟩

theorem Stands.refl (s : State) : Stands s s := .of_same rfl rfl rfl rfl rfl

theorem Stands.trans {s t u : State} (h : Stands s t) (h' : Stands t u) : Stands s u :=
  ⟨h'.teams.trans h.teams, h'.parts.trans h.parts, h'.launches.trans h.launches, h'.engines.trans h.engines, h.groups.trans h'.groups⟩

theorem Stands.foldl {α : Type} {f : State → α → State} (hf : ∀ s x, Stands s (f s x)) (xs : List α) (s : State) : Stands s (xs.foldl f s) := by
  induction xs generalizing s with
  | nil => exact .refl s
  | cons x xs ih => exact (hf s x).trans (ih _)

theorem Stands.modGrp (s : State) (k : Nat) {f : Group → Group} (hf : ∀ g, (f g).bare = g.bare) : Stands s (s.modGrp k f) := by
  refine ⟨rfl, rfl, rfl, rfl, ?_⟩
  have : (s.modGrp k f).groups.map Group.bare = s.groups.map Group.bare := by
    rw [State.modGrp, List.map_map]
    refine List.map_congr_left fun g _ => ?_
    simp only [Function.comp_apply]
    split
    · exact hf g
    · rfl
  rw [this]

/-- A group of before is still found, with its registers and waits changed at most. -/
theorem Stands.grp? {s u : State} (h : Stands s u) {k : Nat} {g : Group} (hg : s.grp? k = some g) :
    ∃ g', u.grp? k = some g' ∧ g'.bare = g.bare := by
  have hfind (v : State) : (v.groups.map Group.bare).find? (fun x => x.gid == k) = (v.grp? k).map Group.bare := by
    rw [List.find?_map]
    rfl
  obtain ⟨more, hmore⟩ := h.groups
  have hu := hfind u
  rw [← hmore, List.find?_append, hfind s, hg] at hu
  cases hk : u.grp? k with
  | none => simp [hk] at hu
  | some g' =>
    refine ⟨g', rfl, ?_⟩
    simpa [hk] using hu.symm

theorem Stands.deliver (r : Req) (d : Dest) (size : Nat) (signed : Bool) (bs : List Byte) (bad : Bool) (s : State) :
    Stands s (deliver r d size signed bs bad s) := by
  cases d with
  | none => exact .refl s
  | lane pids l => exact .modGrp s r.gid fun g => Group.bare_land g _ _ _ _ _
  | uni x =>
    unfold Machine.deliver
    dsimp only
    split
    · exact .refl s
    · exact .modGrp s r.gid fun g => Group.bare_setS g _ _ _ _

theorem Stands.addLaunchCtr (core lid n : Nat) (s : State) : Stands s (addLaunchCtr core lid n s) := by
  unfold Machine.addLaunchCtr
  split <;> exact .of_same rfl rfl rfl rfl rfl

theorem Stands.leaveBehind (g : Group) (s : State) : Stands s (leaveBehind g s) := by
  unfold Machine.leaveBehind
  split
  · exact .refl s
  · refine ⟨rfl, rfl, rfl, rfl, ?_⟩
    rw [List.map_append]
    exact List.prefix_append _ _

/-! ### A discard (R373 to R375) -/

/-- A group as a discard saves it, with what its team owes. -/
def Group.savedAs (owed : List (Nat × OwedFe)) (g : Group) : Group :=
  let r := g.rollback
  { r with
    life := .saved
    outst := 0
    pregs := (r.pregs.filter fun q => !q.orphan || g.inEntry q.id).map fun q =>
      { q with pend := owed.countP fun o => o.1 == g.gid && o.2.pids.contains q.id }
    hold := match g.hold with
      | .bar n => .bar n
      | .page n => .page n
      | .replied v => .replied v
      | .pagePending => .pagePending
      | _ => .none }

theorem savedFrom_savedAs (owed : List (Nat × OwedFe)) (g : Group) : SavedFrom g (g.savedAs owed) :=
  ⟨rfl, ⟨rfl, rfl, rfl⟩, ⟨rfl, rfl, rfl, rfl⟩, ⟨rfl, rfl, rfl⟩, ⟨rfl, rfl, rfl, rfl, rfl⟩⟩

theorem SavedFrom.of_bare {g g' x : Group} (h : g'.bare = g.bare) (hx : SavedFrom g' x) : SavedFrom g x := by
  have hbare : SavedFrom g.bare x := h ▸ ⟨hx.life, hx.place, hx.ckpt, hx.lanes, hx.rest⟩
  exact ⟨hbare.life, hbare.place, hbare.ckpt, hbare.lanes, hbare.rest⟩

/-- What a save leaves of groups, engines, partitions and teams. -/
theorem saveTeam_eq (tm : Team) (s : State) : ∃ u owed, Stands s u ∧
    (saveTeam tm s).groups = u.groups.map (fun g => if g.team == tm.tid && g.life == .resident then g.savedAs (owed ++ tm.owed) else g) ∧
    (saveTeam tm s).engines = u.engines.map (dropShare tm.tid) ∧
    (saveTeam tm s).parts = (u.modPart tm.part fun q => { q with
      queues := q.queues.modify (((s.launch? tm.launch).map Launch.cls).getD 0) fun es => .team tm.tid :: es }).parts ∧
    (saveTeam tm s).teams = (((u.modTeam tm.tid fun x => { x with shares := 0 }).modTeam tm.tid fun x => { x with shares := tm.shares }).modTeam
      tm.tid fun x => { x with status := .saved, cores := [], owed := owed ++ x.owed }).teams := by
  obtain ⟨w, hw⟩ : ∃ w, w = saveTeam tm s := ⟨_, rfl⟩
  rw [← hw]
  unfold saveTeam at hw
  extract_lets gs isMine inEnt owed gone pops cls s1 s2 lost s3 s4 s5 s6 s7 s8 at hw
  subst hw
  have hpops : Stands s s1 := Stands.foldl (fun u r => by
    split
    · exact .modGrp u r.gid fun g => by simp only [Group.bare, Group.setS]; split <;> split <;> split <;> rfl
    · exact .refl u) pops s
  have hcounts : Stands s1 s2 := Stands.foldl (fun u g => .addLaunchCtr g.core g.launch g.outst u) gs s1
  have hlost : Stands s2 s3 := Stands.foldl (fun u r => by
    split
    · exact .deliver r _ _ _ _ _ u
    · exact .refl u) lost s2
  have hbehind : Stands s4 s5 := Stands.foldl (fun u g => .leaveBehind g u) _ s4
  have hstands : Stands s s5 := hpops.trans (hcounts.trans (hlost.trans ((Stands.of_same rfl rfl rfl rfl rfl : Stands s3 s4).trans hbehind)))
  clear hpops hcounts hlost hbehind
  clear_value s5 owed isMine gs
  exact ⟨s5, owed, hstands, rfl, rfl, rfl, rfl⟩


theorem State.team?_tid {s : State} {tid : Nat} {tm : Team} (h : s.team? tid = some tm) : tm.tid = tid := by
  have := List.find?_some h
  simpa using this

/-- A team after a change of every team that keeps the identifiers. -/
theorem State.team?_map {s t : State} (f : Team → Team) (hf : ∀ x, (f x).tid = x.tid) (ht : t.teams = s.teams.map f) (k : Nat) :
    t.team? k = (s.team? k).map f := by
  simp [State.team?, ht, List.find?_map, hf]

theorem State.team?_modTeam {s : State} {tid : Nat} {tm : Team} (h : s.team? tid = some tm) {f : Team → Team} (hf : ∀ x, (f x).tid = x.tid) :
    (s.modTeam tid f).team? tid = some (f tm) := by
  rw [State.team?_map (s := s) (fun x => if x.tid == tid then f x else x) (fun x => by split <;> simp [hf]) rfl, h, Option.map_some,
    if_pos (beq_iff_eq.2 (State.team?_tid h))]

theorem some_notMem_dropShare (tid : Nat) (e : MxEngine) : some tid ∉ (dropShare tid e).wheel := by
  simp [dropShare]

/-- A team that may be discarded is saved (R373 to R375). -/
theorem exec_teamDiscardSave {s : State} {tid : Nat} {tm : Team} (ht : s.team? tid = some tm) (hm : mayDiscard s tm = true) :
    ∃ t tm', exec (.teamDiscardSave tid) s = .next t ∧ t.mem = s.mem ∧ t.team? tid = some tm' ∧ tm'.status = .saved ∧ tm'.cores = [] ∧
      tm'.sp = tm.sp ∧ tm'.empties = tm.empties ∧ tm'.tiles = tm.tiles ∧ tm'.shares = tm.shares ∧
      t.parts = (s.modPart tm.part fun q => { q with
        queues := q.queues.modify (((s.launch? tm.launch).map Launch.cls).getD 0) fun es => .team tm.tid :: es }).parts ∧
      (∀ e, e ∈ t.engines → some tm.tid ∉ e.wheel) ∧
      ∀ k g, s.grp? k = some g →
        ∃ g', t.grp? k = some g' ∧ if g.team = tm.tid ∧ g.life = .resident then SavedFrom g g' else SameWork g g' := by
  obtain rfl : tm.tid = tid := State.team?_tid ht
  obtain ⟨u, owed, hu, hgroups, hengines, hparts, hteams⟩ := saveTeam_eq tm s
  have hexec : exec (.teamDiscardSave tm.tid) s = .next ((Prog.change (saveTeam tm)).run s) := by
    refine congrArg Host.Outcome.next ?_
    rw [Prog.run_dyn, ht]
    dsimp only
    rw [if_pos hm]
  refine ⟨_, { tm with status := .saved, cores := [], owed := owed ++ tm.owed }, hexec, rfl, ?_, rfl, rfl, rfl, rfl, rfl, rfl,
    hparts.trans (by rw [State.modPart, State.modPart, hu.parts]), fun e he => ?_, fun k g hg => ?_⟩
  · have h0 : u.team? tm.tid = some tm := (congrArg (List.find? _) hu.teams).trans ht
    have h1 := State.team?_modTeam (State.team?_modTeam (State.team?_modTeam h0 (f := fun x => { x with shares := 0 }) fun _ => rfl)
      (f := fun x => { x with shares := tm.shares }) fun _ => rfl)
      (f := fun x => { x with status := .saved, cores := [], owed := owed ++ x.owed }) fun _ => rfl
    exact (congrArg (List.find? _) hteams).trans h1
  · obtain ⟨x, -, rfl⟩ := List.mem_map.1 (hengines ▸ he)
    exact some_notMem_dropShare tm.tid x
  · obtain ⟨g', hg', hbare⟩ := hu.grp? hg
    have hsame := SameWork.of_bare hbare
    have hcond : (g'.team == tm.tid && g'.life == .resident) = true ↔ g.team = tm.tid ∧ g.life = .resident := by
      obtain ⟨-, -, -, -, -, -, hlife, hteam, -, -⟩ := hsame
      simp [hlife, hteam]
    refine ⟨_, (State.grp?_map _ (fun x => ?_) hgroups k).trans (congrArg _ hg'), ?_⟩
    · split <;> rfl
    · simp only [hcond]
      split
      · exact .of_bare hbare (savedFrom_savedAs _ g')
      · exact hsame

/-! ### A retirement (R386) -/

/-- What a team's lanes that are still parked leave when they are withdrawn. -/
theorem retireTeam_eq (tm : Team) (s : State) : ∃ u, Stands s u ∧ (retireTeam tm s).groups = u.groups ∧
    (∀ r, r ∈ (retireTeam tm s).reqs → r.sp = true → r.team ≠ tm.tid) ∧
    (retireTeam tm s).engines = u.engines.map (dropShare tm.tid) ∧
    (retireTeam tm s).launches = (u.modLaunch tm.launch fun l => { l with retired := l.retired + 1 }).launches ∧
    (retireTeam tm s).teams = ((u.modTeam tm.tid fun x => { x with shares := 0 }).modTeam tm.tid fun x =>
      { x with status := .retired, tiles := [] }).teams := by
  obtain ⟨w, hw⟩ : ∃ w, w = retireTeam tm s := ⟨_, rfl⟩
  rw [← hw]
  unfold retireTeam at hw
  extract_lets mine s1 s2 s3 at hw
  subst hw
  have hstands : Stands s s1 := Stands.foldl (fun u r => by
    split
    · exact .deliver r _ _ _ _ _ u
    · exact .refl u) mine s
  clear_value s1
  refine ⟨s1, hstands, rfl, fun r hr hsp => ?_, rfl, rfl, rfl⟩
  have hr' : r ∈ s1.reqs.filter fun r => !(r.sp && r.team == tm.tid) := hr
  simpa [hsp] using (List.mem_filter.1 hr').2

/-- A team whose groups have left and of which nothing is outstanding retires (R386). -/
theorem exec_teamRetirement {s : State} {tid : Nat} {tm : Team} (ht : s.team? tid = some tm) (hm : mayRetire s tm = true) :
    ∃ t, exec (.teamRetirement tid) s = .next t ∧ t.mem = s.mem ∧
      t.team? tid = some { tm with status := .retired, tiles := [], shares := 0 } ∧
      t.launches = (s.modLaunch tm.launch fun l => { l with retired := l.retired + 1 }).launches ∧
      (∀ r, r ∈ t.reqs → r.sp = true → r.team ≠ tm.tid) ∧ (∀ e, e ∈ t.engines → some tm.tid ∉ e.wheel) ∧ KeepsWorkOfAll s t := by
  obtain rfl : tm.tid = tid := State.team?_tid ht
  obtain ⟨u, hu, hgroups, hreqs, hengines, hlaunches, hteams⟩ := retireTeam_eq tm s
  have hexec : exec (.teamRetirement tm.tid) s = .next ((Prog.change (retireTeam tm)).run s) := by
    refine congrArg Host.Outcome.next ?_
    rw [Prog.run_dyn, ht]
    dsimp only
    rw [if_pos hm]
  refine ⟨_, hexec, rfl, ?_, hlaunches.trans (by rw [State.modLaunch, State.modLaunch, hu.launches]), hreqs, fun e he => ?_, fun k g hg => ?_⟩
  · have h0 : u.team? tm.tid = some tm := (congrArg (List.find? _) hu.teams).trans ht
    have h1 := State.team?_modTeam (State.team?_modTeam h0 (f := fun x => { x with shares := 0 }) fun _ => rfl)
      (f := fun x => { x with status := .retired, tiles := [] }) fun _ => rfl
    exact (congrArg (List.find? _) hteams).trans h1
  · obtain ⟨x, -, rfl⟩ := List.mem_map.1 (hengines ▸ he)
    exact some_notMem_dropShare tm.tid x
  · obtain ⟨g', hg', hbare⟩ := hu.grp? hg
    exact ⟨g', (congrArg (List.find? _) hgroups).trans hg', .of_bare hbare⟩

end Sys2Proof.Machine
end

section
/-! PROOFS. Words of device memory that the device writes for a launch that ends, and the ends themselves (R26, R51, R315, R329, R362). -/

namespace Sys2Proof.Machine

set_option Elab.async false

/-! ### Words that are written where nothing waits -/

/-- Memory of `u` is that of `s` with some bytes written at `a`; launches, teams and partitions are as before, every check code is good, and
no group has come to wait on a reply word. -/
structure Wrote (s u : State) (a : Nat) (bs : List Byte) : Prop where
  bytes : WroteBytes s u a bs
  syn : u.syn = []
  launches : u.launches = s.launches
  teams : u.teams = s.teams
  parts : u.parts = s.parts
  replies : ∀ b n, NoReply s b n → NoReply u b n

section
variable {s : State} (hs : s.syn = []) (hw : s.Inv)
include hs hw

theorem agentWrite_wrote {a : Nat} {bs : List Byte} (hf : Writable s a bs.length) (hr : NoReply s a bs.length) :
    Wrote s ((agentWrite a bs).run s) a bs := by
  rw [agentWrite_run hs hf hr]
  obtain ⟨tlb, il, pt, pc, h⟩ := afterWrite_eq a bs.length { s with mem := Memory.putBytes s.mem a bs }
  refine ⟨fun x => ?_, ?_, ?_, ?_, ?_, fun b n hb => NoReply.afterWrite (s := { s with mem := Memory.putBytes s.mem a bs }) hb _ _⟩
  · rw [afterWrite_mem]
    exact Memory.get_putBytes hw a x bs
  all_goals rw [h]
  exact hs

end

theorem NoWaiter.of_wrote {s u : State} {a : Nat} {bs : List Byte} (h : Wrote s u a bs) {b n : Nat} (hf : Writable s b n) (hr : NoReply s b n) :
    Writable u b n ∧ NoReply u b n := by
  refine ⟨fun i hi => ?_, h.replies b n hr⟩
  rw [← hf i hi]
  simp only [fqKept, h.parts]

/-- The word at the place of a write of eight bytes. -/
theorem WroteBytes.memWord_self {s u : State} {a : Nat} {bs : List Byte} (h : WroteBytes s u a bs) (hl : bs.length = 8) :
    memWord u a = BitVec.ofNat 64 (bytesNat bs) := by
  have hbytes : Memory.bytes u.mem a 8 = bs := by
    apply List.ext_getElem
    · simp [Memory.bytes, hl]
    · intro i h1 h2
      have := h (a + i)
      rw [if_pos (by omega)] at this
      simp [Memory.bytes, this, h2]
  rw [memWord, hbytes]

/-- A word away from a write. -/
theorem WroteBytes.memWord_apart {s u : State} {a : Nat} {bs : List Byte} (h : WroteBytes s u a bs) {b : Nat} (hb : Apart b 8 a bs.length) :
    memWord u b = memWord s b := by
  have hbytes : Memory.bytes u.mem b 8 = Memory.bytes s.mem b 8 := by
    refine List.map_congr_left fun i hi => ?_
    have hi := List.mem_range.1 hi
    rw [h (b + i), if_neg]
    unfold Apart at hb
    omega
  rw [memWord, hbytes, memWord]

/-! ### What the end of a launch writes (R26, R329) -/

section
variable {s : State} (hs : s.syn = []) (hw : s.Inv)
include hs hw

/-- The addition to a launch's donectr, at the physical address of the counter (R26). -/
theorem addDone_wrote {l : Launch} {v : Nat} (hd : l.donectr ≠ 0) {pa : Nat} {e : TlbEntry}
    (ht : translate s 0 none l.part (BitVec.ofNat 64 l.donectr) needRW = .ok pa e) (hn : NoWaiter s pa 8)
    (hv : bytesNat (Memory.bytes s.mem pa 8) + v < 2 ^ 64) :
    Wrote s ((addDone l (BitVec.ofNat 64 v)).run s) pa (natBytes 8 (bytesNat (Memory.bytes s.mem pa 8) + v)) := by
  have hsum : counterSum (devWord s pa) (BitVec.ofNat 64 v) =
      (BitVec.ofNat 64 (bytesNat (Memory.bytes s.mem pa 8) + v), false) := by
    rw [devWord, devBytes_eq hs, counterSum, if_neg]
    · rw [BitVec.ofNat_add]
    · simp
      omega
  have hword : wordBytes (BitVec.ofNat 64 (bytesNat (Memory.bytes s.mem pa 8) + v)) = natBytes 8 (bytesNat (Memory.bytes s.mem pa 8) + v) := by
    rw [wordBytes, BitVec.toNat_ofNat, Nat.mod_eq_of_lt hv]
  rw [addDone, if_neg hd, Prog.run_dyn]
  simp only [ht]
  rw [Prog.run_all_cons, Prog.run_all_cons, Prog.run_all_nil, readTables_run hs, counterAddDev, Prog.run_dyn, devBad_eq_false (s := markTables 0 _ s) hs,
    show devWord (markTables 0 (doneReads s l).1 s) pa = devWord s pa from rfl, hsum]
  simp only [Bool.false_eq_true, if_false, Prog.run_all_cons, Prog.run_all_nil, Prog.run_done, hword]
  rw [devReadEffect, readWords_run (s := markTables 0 _ s) hs]
  obtain ⟨hfree, hreply, -⟩ := hn
  have hwrote := agentWrite_wrote (s := markTables 0 (doneReads s l).1 s) hs hw (bs := natBytes 8 (bytesNat (Memory.bytes s.mem pa 8) + v))
    (a := pa) (by rw [natBytes_length]; exact hfree) (by rw [natBytes_length]; exact hreply)
  exact ⟨hwrote.bytes, hwrote.syn, hwrote.launches, hwrote.teams, hwrote.parts, hwrote.replies⟩

/-- The slot of a bin's launch is free again (R329). -/
theorem freeBinSlot_wrote {slice bin k : Nat} (hf : Writable s (bin + 32 + 8 * (k / 64)) 8) (hr : NoReply s (bin + 32 + 8 * (k / 64)) 8) :
    Wrote s ((freeBinSlot (.bin slice bin k)).run s) (bin + 32 + 8 * (k / 64))
      (wordBytes (memWord s (bin + 32 + 8 * (k / 64)) &&& ~~~(BitVec.ofNat 64 (2 ^ (k % 64))))) := by
  have hwords (w : Word) : wordsBytes [w] = wordBytes w := List.append_nil _
  simp only [freeBinSlot, Prog.run_dyn, Prog.run_all_cons, Prog.run_all_nil, touchWords_run hs, Prog.run_done, writeWords, hwords, unitWord_eq hs]
  exact agentWrite_wrote hs hw (by simpa using hf) (by simpa using hr)

end

/-! ### Launches that are over -/

/-- A launch that is over: its record goes, and with it what is kept of its teams. -/
theorem finishLaunch_run (l : Launch) (v : Word) {s u : State} (hu : (freeBinSlot l.source).run ((addDone l v).run s) = u) :
    (finishLaunch l v).run s = sweep { u with launches := u.launches.filter fun x => x.lid != l.lid } := by
  rw [finishLaunch, Prog.run_all_cons, Prog.run_all_cons, Prog.run_all_cons, Prog.run_all_nil, hu]
  exact Prog.run_change _ _ rfl rfl

/-- A launch of which nothing is left ends, whether its teams have all retired or a fault has ended it (R51, R362). -/
theorem exec_launchEnd {s : State} {i : Instr} {v : Nat} {l : Launch} (hl : s.launch? l.lid = some l) (hz : countersZero s l.lid = true)
    (hb : launchBusy s l.lid = false) (ha : doneAwake s l = true)
    (hi : (i = .launchCompletion l.lid ∧ v = 1 ∧ l.ended = false ∧ l.retired = l.teams) ∨
      (i = .launchFaultEnd l.lid ∧ v = 0x100000001 ∧ l.ended = true ∧ ∀ x, x ∈ s.teams → x.launch = l.lid → x.status = .retired)) :
    exec i s = .next ((finishLaunch l (BitVec.ofNat 64 v)).run s) := by
  rcases hi with ⟨rfl, rfl, hended, hretired⟩ | ⟨rfl, rfl, hended, hretired⟩
  · refine congrArg Host.Outcome.next ?_
    rw [Prog.run_dyn, hl]
    simp only [hended, hretired, hz, hb, ha]
    rfl
  · have hall : (s.teams.all fun t => t.launch != l.lid || t.status == .retired) = true := by
      simp only [List.all_eq_true, Bool.or_eq_true, bne_iff_ne, beq_iff_eq]
      exact fun x hx => or_iff_not_imp_left.2 fun h => hretired x hx (not_not.1 h)
    refine congrArg Host.Outcome.next ?_
    rw [Prog.run_dyn, hl]
    simp only [hended, hall, hz, hb, ha]
    rfl

/-- What is kept after the end of a launch, where launches and teams were as before. -/
theorem sweep_over {s u : State} (l : Launch) (hl : u.launches = s.launches) (ht : u.teams = s.teams) :
    let t := sweep { u with launches := u.launches.filter fun x => x.lid != l.lid }
    t.launches = (s.launches.filter fun k => k.lid != l.lid) ∧ t.teams = s.teams.filter fun x => (t.launch? x.launch).isSome := by
  refine ⟨?_, ?_⟩
  · rw [← hl]
    rfl
  · rw [← ht]
    rfl

/-- Settles O50: `exec_teamDiscardSave`, `exec_teamRetirement` and `exec_launchEnd` say what each end does, and `addDone_wrote` and
`freeBinSlot_wrote` what the end of a launch writes. -/
theorem teamsAndLaunchesEnd : Obligations.TeamsAndLaunchesEnd := by
  unfold Obligations.TeamsAndLaunchesEnd
  intro s
  refine ⟨fun tid tm => exec_teamDiscardSave, fun tid tm => exec_teamRetirement, fun i v l hw hs hl hz hb ha hi => ?_⟩
  have hexec := exec_launchEnd hl hz hb ha hi
  have hover {u : State} (hu : (freeBinSlot l.source).run ((addDone l (BitVec.ofNat 64 v)).run s) = u) (hul : u.launches = s.launches)
      (hut : u.teams = s.teams) : ∃ t, (exec i s = .next t ∧ t.launches = (s.launches.filter fun k => k.lid != l.lid) ∧
        t.teams = s.teams.filter fun x => (t.launch? x.launch).isSome) ∧ t.mem = u.mem :=
    ⟨_, ⟨hexec.trans (congrArg _ (finishLaunch_run l _ hu)), sweep_over l hul hut⟩, rfl⟩
  refine ⟨fun hbin => ?_, fun slice bin k hsrc => ?_⟩
  · have hfree : freeBinSlot l.source = .done := by
      cases hsrc : l.source with
      | bin a b c => exact absurd hsrc (hbin a b c)
      | command tag => rfl
      | group => rfl
      | slipway a b c => rfl
    refine ⟨fun hd => ?_, fun pa hd hc hn hv => ?_⟩
    · have hdone : addDone l (BitVec.ofNat 64 v) = .done := by rw [addDone, if_pos hd]
      exact hover (by rw [hfree, hdone]; rfl) rfl rfl
    · obtain ⟨e, he⟩ := hc
      have hwrote := addDone_wrote hs hw hd he hn hv
      obtain ⟨t, ht, hmem⟩ := hover (by rw [hfree]; rfl) hwrote.launches hwrote.teams
      exact ⟨t, ht, fun x => by rw [hmem]; exact hwrote.bytes x⟩
  · intro slot free hslot
    obtain ⟨hsf, hsr, -⟩ := hslot
    refine ⟨fun hd => ?_, fun pa hd hc hn hv hapart => ?_⟩
    · have hdone : addDone l (BitVec.ofNat 64 v) = .done := by rw [addDone, if_pos hd]
      have hwrote := freeBinSlot_wrote hs hw (slice := slice) hsf hsr
      obtain ⟨t, ht, hmem⟩ := hover (by rw [hsrc, hdone]; rfl) hwrote.launches hwrote.teams
      exact ⟨t, ht, fun x => by rw [hmem]; exact hwrote.bytes x⟩
    · obtain ⟨e, he⟩ := hc
      have hadd := addDone_wrote hs hw hd he hn hv
      have hinv : ((addDone l (BitVec.ofNat 64 v)).run s).Inv := Prog.run_wf _ s hw
      obtain ⟨huf, hur⟩ := NoWaiter.of_wrote hadd hsf hsr
      have hfreed := freeBinSlot_wrote hadd.syn hinv (slice := slice) huf hur
      obtain ⟨t, ht, hmem⟩ := hover (by rw [hsrc]) (hfreed.launches.trans hadd.launches) (hfreed.teams.trans hadd.teams)
      have hword (a : Nat) : memWord t a = memWord ((freeBinSlot (.bin slice bin k)).run ((addDone l (BitVec.ofNat 64 v)).run s)) a := by
        rw [memWord, hmem, memWord]
      refine ⟨t, ht, fun _ => ?_, ?_, fun a ha hp => ?_⟩
      · rw [hword, hfreed.bytes.memWord_apart (by rwa [wordBytes_length]), hadd.bytes.memWord_self (natBytes_length 8 _), bytesNat_natBytes,
          Nat.mod_eq_of_lt (b := 256 ^ 8) hv, memWord, BitVec.ofNat_add]
      · rw [hword, hfreed.bytes.memWord_self (wordBytes_length _), bytesNat_wordBytes, BitVec.ofNat_toNat, BitVec.setWidth_eq,
          hadd.bytes.memWord_apart (by rw [natBytes_length]; exact hapart.symm)]
      · rw [hword, hfreed.bytes.memWord_apart (by rw [wordBytes_length]; exact hp (slot, 8) (by simp)),
          hadd.bytes.memWord_apart (by rw [natBytes_length]; exact hp (pa, 8) (by simp))]

end Sys2Proof.Machine
end

section
/-! PROOFS. Admission of a team that still owes loads, in a machine that lists it twice (R376). -/

namespace Sys2Proof.Machine

set_option Elab.async false

/-- A team that has been placed again and owes one load. -/
def owingTeam : Team := { newTeam 1 (loaderLaunch 0) [0] with
  status := .restoring, owed := [(2, ⟨0, 0x40, 4, [0], 3, 2, false, false⟩)] }

/-- A machine whose list of teams holds this team two times, and whose pair has one entry of its scoreboard left. -/
def twiceListed : State :=
  { State.reset with
    parts := [{ Part.unset 0 with state := .running }]
    teams := [owingTeam, owingTeam]
    groups := [newGroup 2 1 (loaderLaunch 0) 0 0 0 0 0]
    scores := List.replicate 63 ⟨0, 0, 0, 0, none, []⟩ }

/-- Admission takes the team up twice there: the first time its load is issued again, and the second time the scoreboard has no room for it. -/
theorem twiceListed_restoring (t : State) (h : exec (.teamPlacement 0) twiceListed = .next t) :
    (t.team? 1).map Team.status = some .restoring := by
  have hrun : (match exec (.teamPlacement 0) twiceListed with
    | .next t => (t.team? 1).map Team.status
    | _ => none) = some .restoring := by decide +kernel
  rw [h] at hrun
  exact hrun

/-- Refutes O49: its last clause lets a machine list the restoring team more than once, and then admission goes on with it more than once. In
`twiceListed` its load is issued again, and then owed again, since the one free entry of the scoreboard is taken: the team is not placed. -/
theorem not_teamPlaced : ¬ Obligations.TeamPlaced := by
  unfold Obligations.TeamPlaced
  rintro ⟨-, -, -, hrestoring⟩
  obtain ⟨t, tm, hexec, -, -, hteam, hstatus, -⟩ := hrestoring twiceListed 0 owingTeam rfl rfl rfl
    (fun x hx _ _ => by simpa [twiceListed] using hx) rfl rfl (by decide) ⟨fun o ho => ⟨newGroup 2 1 (loaderLaunch 0) 0 0 0 0 0, by
      simp only [owingTeam, List.mem_singleton] at ho
      subst ho
      exact ⟨rfl, rfl⟩⟩, by decide⟩
  have hleft := twiceListed_restoring t hexec
  rw [show t.team? 1 = some tm from hteam, Option.map_some, hstatus] at hleft
  exact absurd hleft (by decide)

end Sys2Proof.Machine
end

section
/-! PROOFS. The causes at issue in the order of R356: what an attempt finds first of collective lanes, sources, tags, the declared peak, ranges,
alignment and translations. -/

namespace Sys2Proof.Machine

set_option Elab.async false

/-! ### The first of some answers -/

theorem firstSome_eq_findSome? {α : Type} (xs : List (Option α)) : firstSome xs = xs.findSome? id := by
  induction xs with
  | nil => rfl
  | cons x xs ih => cases x <;> simp [firstSome, ih]

theorem firstSome_map {α β : Type} (f : α → Option β) (xs : List α) : firstSome (xs.map f) = xs.findSome? f := by
  rw [firstSome_eq_findSome?, List.findSome?_map, Function.id_comp]

theorem firstSome_flatMap {α β : Type} (f : α → List (Option β)) (xs : List α) :
    firstSome (xs.flatMap f) = xs.findSome? fun x => firstSome (f x) := by
  simp only [firstSome_eq_findSome?]
  induction xs with
  | nil => rfl
  | cons x xs ih =>
    rw [List.flatMap_cons, List.findSome?_append, ih, List.findSome?_cons]
    cases (f x).findSome? id <;> rfl

theorem findSome?_append_cons {α β : Type} {f : α → Option β} {lo hi : List α} {x : α} {b : β} (hlo : ∀ k, k ∈ lo → f k = none)
    (hx : f x = some b) : (lo ++ x :: hi).findSome? f = some b := by
  rw [List.findSome?_append, List.findSome?_eq_none_iff.2 hlo, List.findSome?_cons, hx]
  rfl

@[simp] theorem firstSome_none_cons {α : Type} (xs : List (Option α)) : firstSome (none :: xs) = firstSome xs := rfl

@[simp] theorem firstSome_some_cons {α : Type} (a : α) (xs : List (Option α)) : firstSome (some a :: xs) = some a := rfl

theorem firstSome_skip {α : Type} (a : Option α) (xs : List (Option α)) : firstSome (a :: none :: xs) = firstSome (a :: xs) := by
  cases a <;> rfl

theorem firstSome_concat_none {α : Type} (xs : List (Option α)) : firstSome (xs ++ [none]) = firstSome xs := by
  simp [firstSome_eq_findSome?, List.findSome?_append]

@[simp] theorem firstSome_nil {α : Type} : firstSome ([] : List (Option α)) = none := rfl

/-! ### What issues, and where it is collective -/

/-- An instruction with a plan does what the plan says. -/
theorem exec_of_planOf {i : Instr} {s : State} {h : Hdr} {p : Plan} (hp : planOf i s = some (h, p)) : exec i s = runPlan i h p s := by
  cases i <;> cases hp <;> rfl

theorem planAtM_collective (h : Hdr) (f : MF) (x : AtX) : (planAtM h f x).collective = false := by
  unfold planAtM
  split <;> rfl

theorem planRds_collective (f : RS) : (planRds f).collective = false := by
  unfold planRds
  split <;> rfl

theorem collective_of_planOf {i : Instr} {s : State} {h : Hdr} {p : Plan} (hp : planOf i s = some (h, p)) :
    p.collective = isCollective i := by
  cases i
  case atM f x => cases hp; exact planAtM_collective h f x
  case rds f => cases hp; exact planRds_collective f
  all_goals cases hp <;> rfl

/-! ### Lanes and sources (R120, R135, R369) -/

/-- The report of a source that is a marked uniform register (R369). -/
def Src.uncorr (i : Instr) (g : Group) : Src → Option Report
  | .s r _ => if r != 0 && (g.sreg r).bad then some ⟨.uncorr, 3, r, 0, word0Of i, 0, 0⟩ else none
  | _ => none

/-- The lanes on which the entry's own checks are made (R370). -/
def checkedLanes (g : Group) (h : Hdr) (p : Plan) : LaneMask := effLanes g h &&& ~~~(p.consumed g (effLanes g h))

theorem causeAt_eq (i : Instr) (s : State) (g : Group) (h : Hdr) (p : Plan) :
    causeAt i s g h p = firstSome [
      if p.collective && g.active != g.live then some ⟨.diverged, 0, 0, 0, word0Of i, g.active, g.live⟩ else none,
      (p.srcs.find? fun x => x.empty g s.now).map fun x => x.report i,
      p.srcs.findSome? (Src.uncorr i g),
      (p.check s g (checkedLanes g h p)).filter fun r => r.cause != .xvlane,
      peakCause i s g h p,
      p.check s g (checkedLanes g h p)] := by
  have hpeak : peakCause i s g h p =
      if freshCount (g.opened h p) p.srcs p.dsts != 0 && s.peak g < (g.opened h p).pregs.length + freshCount (g.opened h p) p.srcs p.dsts
      then some ⟨.bound, 0, 0, 0, BitVec.ofNat 64 ((g.opened h p).pregs.length + freshCount (g.opened h p) p.srcs p.dsts), word0Of i, word1Of i⟩
      else none := by
    simp [peakCause]
  rw [hpeak, ← firstSome_map]
  unfold causeAt
  dsimp only
  congr 5

section
variable {i : Instr} {s : State} {g : Group} {h : Hdr} {p : Plan}

theorem causeAt_diverged (hc : p.collective = true) (hm : g.active ≠ g.live) :
    causeAt i s g h p = some ⟨.diverged, 0, 0, 0, word0Of i, g.active, g.live⟩ := by
  rw [causeAt_eq, if_pos (by simp [hc, hm])]
  rfl

/-- Without DIVERGED, the first empty source is reported. -/
theorem causeAt_emptyread (hc : p.collective = true → g.active = g.live) {pre post : List Src} {x : Src} (hs : p.srcs = pre ++ x :: post)
    (hpre : ∀ y, y ∈ pre → y.empty g s.now = false) (hx : x.empty g s.now = true) : causeAt i s g h p = some (x.report i) := by
  have hfind : p.srcs.find? (fun x => x.empty g s.now) = some x := by
    rw [hs, List.find?_append, List.find?_eq_none.2 (by simpa using hpre), List.find?_cons_of_pos hx]
    rfl
  rw [causeAt_eq, if_neg (by simpa using hc), hfind]
  rfl

/-- With every source full, the first uniform source that is marked is reported. -/
theorem causeAt_uncorr (hc : p.collective = true → g.active = g.live) (hfull : ∀ x, x ∈ p.srcs → x.empty g s.now = false)
    {pre post : List Src} {r : Nat} {eb : Bool} (hs : p.srcs = pre ++ .s r eb :: post) (hr : r ≠ 0) (hbad : (g.sreg r).bad = true)
    (hpre : ∀ q b, .s q b ∈ pre → q ≠ 0 → (g.sreg q).bad = false) :
    causeAt i s g h p = some ⟨.uncorr, 3, r, 0, word0Of i, 0, 0⟩ := by
  have hfirst : p.srcs.findSome? (Src.uncorr i g) = some ⟨.uncorr, 3, r, 0, word0Of i, 0, 0⟩ := by
    rw [hs]
    refine findSome?_append_cons (fun y hy => ?_) (by simp [Src.uncorr, hr, hbad])
    cases y with
    | s q b => simpa [Src.uncorr] using hpre q b hy
    | v n l e => rfl
    | p n e => rfl
  rw [causeAt_eq, if_neg (by simpa using hc), List.find?_eq_none.2 (by simpa using hfull), hfirst]
  rfl

/-- With every source full and no uniform register marked, the entry's own checks come next. -/
theorem causeAt_checks (hc : p.collective = true → g.active = g.live) (hfull : ∀ x, x ∈ p.srcs → x.empty g s.now = false)
    (hbad : ∀ r, (g.sreg r).bad = false) :
    causeAt i s g h p = firstSome [(p.check s g (checkedLanes g h p)).filter fun r => r.cause != .xvlane, peakCause i s g h p,
      p.check s g (checkedLanes g h p)] := by
  have hgood : p.srcs.findSome? (Src.uncorr i g) = none := by
    refine List.findSome?_eq_none_iff.2 fun y _ => ?_
    cases y with
    | s q b => simp [Src.uncorr, hbad]
    | v n l e => rfl
    | p n e => rfl
  rw [causeAt_eq, if_neg (by simpa using hc), List.find?_eq_none.2 (by simpa using hfull), hgood]
  rfl

theorem causeAt_of_check (hc : p.collective = true → g.active = g.live) (hfull : ∀ x, x ∈ p.srcs → x.empty g s.now = false)
    (hbad : ∀ r, (g.sreg r).bad = false) {r : Report} (hr : p.check s g (checkedLanes g h p) = some r) (hx : r.cause ≠ .xvlane) :
    causeAt i s g h p = some r := by
  rw [causeAt_checks hc hfull hbad, hr]
  simp [Option.filter, hx]

theorem causeAt_of_no_check (hc : p.collective = true → g.active = g.live) (hfull : ∀ x, x ∈ p.srcs → x.empty g s.now = false)
    (hbad : ∀ r, (g.sreg r).bad = false) (hr : p.check s g (checkedLanes g h p) = none) :
    causeAt i s g h p = peakCause i s g h p := by
  rw [causeAt_checks hc hfull hbad, hr]
  cases peakCause i s g h p <;> rfl

end

/-! ### Tags (R178) -/

theorem tagPasses_iff (type tag : BitVec 4) : tagPasses type tag = true ↔ ¬tagWrong type tag := by
  unfold tagPasses tagWrong
  simp only [Bool.or_eq_true, beq_iff_eq]
  tauto

/-- The report of a register whose tag a type does not take. -/
def tagReport (i : Instr) (g : Group) (n : Nat) : Report := ⟨.format, (g.vTag n).toNat, n % 256, 0, word0Of i, word1Of i, 0⟩

theorem tagReport_of_lt {i : Instr} {g : Group} {n : Nat} (hn : n < 256) :
    tagReport i g n = ⟨.format, (g.vTag n).toNat, n, 0, word0Of i, word1Of i, 0⟩ := by
  rw [tagReport, Nat.mod_eq_of_lt hn]

/-- The report of a register that a source is read from, where its tag is wrong. -/
def tagFail (i : Instr) (g : Group) (type : BitVec 4) (n : Nat) : Option Report :=
  if tagPasses type (g.vTag n) then none else some (tagReport i g n)

theorem tagFail_none {i : Instr} {g : Group} {type : BitVec 4} {n : Nat} (h : ¬tagWrong type (g.vTag n)) : tagFail i g type n = none :=
  if_pos ((tagPasses_iff _ _).2 h)

theorem tagFail_some {i : Instr} {g : Group} {type : BitVec 4} {n : Nat} (h : tagWrong type (g.vTag n)) :
    tagFail i g type n = some (tagReport i g n) :=
  if_neg fun hp => (tagPasses_iff _ _).1 hp h

theorem formatCheck_eq (i : Instr) (g : Group) (xs : List VSrc) :
    formatCheck i g xs = xs.findSome? fun x => x.names.findSome? (tagFail i g x.type) := by
  simp only [formatCheck, firstSome_flatMap, firstSome_map]
  rfl

/-- The first wrong tag among the registers of some sources is reported. -/
theorem formatCheck_first {i : Instr} {g : Group} {pre post : List VSrc} {x : VSrc} {lo hi : List Nat} {n : Nat}
    (hn : x.names = lo ++ n :: hi) (hpre : ∀ y m, y ∈ pre → m ∈ y.names → ¬tagWrong y.type (g.vTag m))
    (hlo : ∀ m, m ∈ lo → ¬tagWrong x.type (g.vTag m)) (hw : tagWrong x.type (g.vTag n)) :
    formatCheck i g (pre ++ x :: post) = some (tagReport i g n) := by
  rw [formatCheck_eq]
  refine findSome?_append_cons (fun y hy => List.findSome?_eq_none_iff.2 fun m hm => tagFail_none (hpre y m hy hm)) ?_
  rw [hn]
  exact findSome?_append_cons (fun m hm => tagFail_none (hlo m hm)) (tagFail_some hw)

theorem formatCheck_none {i : Instr} {g : Group} {xs : List VSrc} (h : ∀ x n, x ∈ xs → n ∈ x.names → ¬tagWrong x.type (g.vTag n)) :
    formatCheck i g xs = none := by
  rw [formatCheck_eq]
  exact List.findSome?_eq_none_iff.2 fun x hx => List.findSome?_eq_none_iff.2 fun n hn => tagFail_none (h x n hx hn)

/-- The lane-wise arithmetic instructions check the tags of their sources, and nothing else. -/
theorem check_of_arithInstr {i : Instr} {o : LaneOp} {s : State} {p : Plan} (ho : arithInstr i = some o) (hp : planOf i s = some (o.h, p)) :
    p.collective = false ∧ p.check = fun _ g _ => formatCheck i g o.srcs := by
  cases i <;> cases ho <;> cases hp <;> exact ⟨rfl, rfl⟩

/-! ### Accesses (R243, R247, R288) -/

/-- The answers of the checks of ranges, alignment and translation for a lane. -/
structure LaneReports (i : Instr) (c : AccessChecks) (s : State) (g : Group) (range align trans : Nat → Option Report) : Prop where
  inside : ∀ l, c.inside s g l → range l = none
  outside : ∀ l, ¬c.inside s g l → range l = some ⟨.bound, 0, l, 0, BitVec.ofInt 64 (c.value g l), word0Of i, word1Of i⟩
  aligned : ∀ l, ¬(c.aligned = true ∧ c.place g l % (sizeBytes c.f.size : Int) ≠ 0) → align l = none
  strays : ∀ l, c.aligned = true ∧ c.place g l % (sizeBytes c.f.size : Int) ≠ 0 →
    align l = some ⟨.align, 0, l, 0, BitVec.ofInt 64 (c.place g l), word0Of i, word1Of i⟩
  mapped : (c.need = none → ∀ l, trans l = none) ∧ ∀ n, c.need = some n → ∀ l x,
    locate s g.core g.part (BitVec.ofInt 64 (c.place g l)) (sizeBytes c.f.size) n = .ok x → trans l = none
  unmapped : ∀ n, c.need = some n → ∀ l e, locate s g.core g.part (BitVec.ofInt 64 (c.place g l)) (sizeBytes c.f.size) n = .error e →
    trans l = some ⟨if e.1 = 2 then .page else .prot, e.1, l, 0, e.2, word0Of i, 0⟩

/-- FORMAT of the data of an access: the first register whose tag its type does not take. -/
def AccessChecks.dataCheck (c : AccessChecks) (i : Instr) (g : Group) : Option Report := c.data.findSome? (tagFail i g c.f.type)

/-- ALIGN of a lane, where the access must be aligned. -/
def alignFail (i : Instr) (aligned : Bool) (b l : Nat) (place : Int) : Option Report :=
  if aligned = true ∧ place % (b : Int) ≠ 0 then some (addrReport .align i l (BitVec.ofInt 64 place)) else none

/-- The failed translation of a lane. -/
def transFail (i : Instr) (s : State) (g : Group) (b : Nat) (n : Need) (l : Nat) (a : Word) : Option Report :=
  match locate s g.core g.part a b n with
  | .error f => some (transReport i l f)
  | .ok _ => none

theorem transFail_ok {i : Instr} {s : State} {g : Group} {b : Nat} {n : Need} {l : Nat} {a : Word} {x : Found}
    (h : locate s g.core g.part a b n = .ok x) : transFail i s g b n l a = none := by
  rw [transFail, h]

theorem transFail_error {i : Instr} {s : State} {g : Group} {b : Nat} {n : Need} {l : Nat} {a : Word} {e : Nat × Word}
    (h : locate s g.core g.part a b n = .error e) :
    transFail i s g b n l a = some ⟨if e.1 = 2 then .page else .prot, e.1, l, 0, e.2, word0Of i, 0⟩ := by
  rw [transFail, h]
  rfl

theorem transCheck_eq (i : Instr) (s : State) (g : Group) (b : Nat) (n : Need) (as : List (Nat × Word)) :
    transCheck i s g b n as = as.findSome? fun a => transFail i s g b n a.1 a.2 := by
  rw [transCheck, firstSome_map]
  rfl

theorem transCheck_vasOf (i : Instr) (s : State) (g : Group) (b : Nat) (n : Need) (va : Group → Nat → Word) (eff : LaneMask) :
    transCheck i s g b n (vasOf va g eff) = (lanesOf eff).findSome? fun l => transFail i s g b n l (va g l) := by
  rw [transCheck_eq, vasOf, List.findSome?_map]
  rfl

theorem alignCheck_eq (i : Instr) (b : Nat) (as : List (Nat × Word)) :
    alignCheck i b as = as.findSome? fun a => alignFail i true b a.1 (a.2.toNat : Int) := by
  rw [alignCheck, firstSome_map]
  congr 1
  funext a
  have hint : ((a.2.toNat : Int) % (b : Int) ≠ 0) ↔ ¬a.2.toNat % b = 0 := by omega
  simp only [alignFail, true_and, hint, ite_not, BitVec.ofInt_natCast, BitVec.ofNat_toNat, BitVec.setWidth_eq]

theorem alignCheck_vasOf (i : Instr) (b : Nat) (va : Group → Nat → Word) (g : Group) (eff : LaneMask) (aligned : Bool) :
    (if aligned = true then alignCheck i b (vasOf va g eff) else none) =
      (lanesOf eff).findSome? fun l => alignFail i aligned b l ((va g l).toNat : Int) := by
  cases aligned with
  | true =>
    rw [if_pos rfl, alignCheck_eq, vasOf, List.findSome?_map]
    rfl
  | false => exact (List.findSome?_eq_none_iff.2 fun l _ => by simp [alignFail]).symm

theorem alignFail_none {i : Instr} {aligned : Bool} {b l : Nat} {place : Int} (h : ¬(aligned = true ∧ place % (b : Int) ≠ 0)) :
    alignFail i aligned b l place = none := if_neg h

theorem alignFail_some {i : Instr} {aligned : Bool} {b l : Nat} {place : Int} (h : aligned = true ∧ place % (b : Int) ≠ 0) :
    alignFail i aligned b l place = some ⟨.align, 0, l, 0, BitVec.ofInt 64 place, word0Of i, word1Of i⟩ := if_pos h

/-- The lanes of an access of device memory. -/
theorem LaneReports.device {i : Instr} {c : AccessChecks} {s : State} {g : Group} {range : Nat → Option Report} {n : Need}
    {va : Group → Nat → Word} (hneed : c.need = some n) (hplace : ∀ l, c.place g l = ((va g l).toNat : Int))
    (hin : ∀ l, c.inside s g l → range l = none)
    (hout : ∀ l, ¬c.inside s g l → range l = some ⟨.bound, 0, l, 0, BitVec.ofInt 64 (c.value g l), word0Of i, word1Of i⟩) :
    LaneReports i c s g range (fun l => alignFail i c.aligned (sizeBytes c.f.size) l ((va g l).toNat : Int))
      fun l => transFail i s g (sizeBytes c.f.size) n l (va g l) := by
  have hva (l : Nat) : BitVec.ofInt 64 (c.place g l) = va g l := by simp [hplace]
  refine ⟨hin, hout, fun l hl => ?_, fun l hl => ?_, ⟨fun hno => ?_, fun m hm l x hx => ?_⟩, fun m hm l e he => ?_⟩
  · rw [hplace] at hl
    exact alignFail_none hl
  · rw [hplace] at hl ⊢
    exact alignFail_some hl
  · simp [hno] at hneed
  · obtain rfl : n = m := Option.some.inj (hneed.symm.trans hm)
    rw [hva] at hx
    exact transFail_ok hx
  · obtain rfl : n = m := Option.some.inj (hneed.symm.trans hm)
    rw [hva] at he
    exact transFail_error he

theorem formatCheck_dataSrcs (i : Instr) (g : Group) (f : MF) : formatCheck i g (dataSrcs f) = (mRegs f).findSome? (tagFail i g f.type) := by
  rw [formatCheck_eq, dataSrcs, List.findSome?_map]
  congr 1
  funext n
  simp [VSrc.names, Function.comp_apply]

/-- Sources of one type are checked as one run of registers. -/
theorem formatCheck_of_type {i : Instr} {g : Group} {type : BitVec 4} {xs : List VSrc} (h : ∀ x, x ∈ xs → x.type = type) :
    formatCheck i g xs = (xs.flatMap VSrc.names).findSome? (tagFail i g type) := by
  rw [formatCheck_eq]
  induction xs with
  | nil => rfl
  | cons x xs ih =>
    rw [List.findSome?_cons, List.flatMap_cons, List.findSome?_append, ih fun y hy => h y (List.mem_cons_of_mem x hy),
      h x List.mem_cons_self]
    cases x.names.findSome? (tagFail i g type) <;> rfl

theorem formatCheck_atData (i : Instr) (g : Group) (f : MF) (x : AtX) :
    formatCheck i g (atData f x) = (regsOf (isPairType f.type) x.x.toNat ++
      if x.aop = 8 then regsOf (isPairType f.type) x.y.toNat else []).findSome? (tagFail i g f.type) := by
  have htype : ∀ y, y ∈ atData f x → y.type = f.type := by
    unfold atData
    split <;> simp [atSrc, srcA]
  have hnames : (atData f x).flatMap VSrc.names = regsOf (isPairType f.type) x.x.toNat ++
      if x.aop = 8 then regsOf (isPairType f.type) x.y.toNat else [] := by
    by_cases h8 : x.aop = 8#4 <;> simp [atData, h8, VSrc.names, regsOf, atSrc, srcA]
  rw [formatCheck_of_type htype, hnames]

/-! ### The checks of each access -/

theorem check_devLoad (i : Instr) (f : MF) (pair : Bool) (va : Group → Nat → Word) (more : List Src)
    (bound : Group → LaneMask → Option Report) (s : State) (g : Group) (eff : LaneMask) :
    (devLoad i f pair va more bound).check s g eff = firstSome [indexCheck i f pair g, none, bound g eff,
      (lanesOf eff).findSome? fun l => alignFail i (decide (f.sync = 1)) (sizeBytes f.size) l ((va g l).toNat : Int),
      (lanesOf eff).findSome? fun l => transFail i s g (sizeBytes f.size) needR l (va g l)] := by
  rw [firstSome_skip, ← alignCheck_vasOf, ← transCheck_vasOf]
  simp only [decide_eq_true_eq]
  rfl

theorem check_devStore (i : Instr) (f : MF) (pair : Bool) (va : Group → Nat → Word) (more : List Src)
    (bound : Group → LaneMask → Option Report) (s : State) (g : Group) (eff : LaneMask) :
    (devStore i f pair va more bound).check s g eff = firstSome [indexCheck i f pair g, (mRegs f).findSome? (tagFail i g f.type), bound g eff,
      (lanesOf eff).findSome? fun l => alignFail i (decide (f.sync = 1)) (sizeBytes f.size) l ((va g l).toNat : Int),
      (lanesOf eff).findSome? fun l => transFail i s g (sizeBytes f.size) needW l (va g l)] := by
  rw [← alignCheck_vasOf, ← transCheck_vasOf, ← formatCheck_dataSrcs]
  simp only [decide_eq_true_eq]
  rfl

theorem check_atLanes (i : Instr) (f : MF) (x : AtX) (s : State) (g : Group) (eff : LaneMask) :
    (atLanes i f x).check s g eff = firstSome [indexCheck i f true g, (regsOf (isPairType f.type) x.x.toNat ++
        if x.aop = 8 then regsOf (isPairType f.type) x.y.toNat else []).findSome? (tagFail i g f.type), none,
      (lanesOf eff).findSome? fun l => alignFail i true (sizeBytes f.size) l ((laneVa f g l).toNat : Int),
      (lanesOf eff).findSome? fun l => transFail i s g (sizeBytes f.size) needRW l (laneVa f g l)] := by
  rw [← alignCheck_vasOf i _ (laneVa f) g eff true, ← transCheck_vasOf, ← formatCheck_atData]
  cases h : indexCheck i f true g <;> cases h' : formatCheck i g (atData f x) <;> simp [atLanes, h, h']

/-- BOUND of a lane of the bounded forms. -/
def elemFail (i : Instr) (f : MF) (g : Group) (l : Nat) : Option Report :=
  if 0 ≤ laneElem f g l ∧ laneElem f g l < ((g.s (f.sb.toNat + 1)).toNat : Int) then none
  else some (addrReport .bound i l (BitVec.ofInt 64 (laneElem f g l)))

theorem elemCheck_eq (i : Instr) (f : MF) (g : Group) (eff : LaneMask) :
    elemCheck i f g eff = (lanesOf eff).findSome? (elemFail i f g) := by
  rw [elemCheck, firstSome_map]
  rfl

/-- BOUND of a lane of scratchpad. -/
def offFail (i : Instr) (f : MF) (s : State) (g : Group) (l : Nat) : Option Report :=
  if 0 ≤ laneOff f g l ∧ laneOff f g l + sizeBytes f.size ≤ (groupLimit s g : Int) then none
  else some (addrReport .bound i l (BitVec.ofInt 64 (laneOff f g l)))

theorem offCheck_eq (i : Instr) (f : MF) (s : State) (g : Group) (eff : LaneMask) :
    offCheck i s g (sizeBytes f.size) (offsOf f g eff) = (lanesOf eff).findSome? (offFail i f s g) := by
  rw [offCheck, firstSome_map, offsOf, List.findSome?_map]
  congr 1
  funext l
  simp [offFail, inRange]

theorem offAlign_eq (i : Instr) (f : MF) (g : Group) (eff : LaneMask) :
    offAlign i (sizeBytes f.size) (offsOf f g eff) =
      (lanesOf eff).findSome? fun l => alignFail i true (sizeBytes f.size) l (laneOff f g l) := by
  rw [offAlign, firstSome_map, offsOf, List.findSome?_map]
  congr 1
  funext l
  simp [alignFail]

theorem check_planLdS (h : Hdr) (f : MF) (s : State) (g : Group) (eff : LaneMask) :
    (planLdS h f).check s g eff = firstSome [indexCheck (.ldS h f) f false g, none, offCheck (.ldS h f) s g (sizeBytes f.size) (offsOf f g eff),
      offAlign (.ldS h f) (sizeBytes f.size) (offsOf f g eff), none] := by
  rw [firstSome_skip]
  exact (firstSome_concat_none [_, _, _]).symm

theorem check_planStS (h : Hdr) (f : MF) (s : State) (g : Group) (eff : LaneMask) :
    (planStS h f).check s g eff = firstSome [indexCheck (.stS h f) f false g, (mRegs f).findSome? (tagFail (.stS h f) g f.type),
      offCheck (.stS h f) s g (sizeBytes f.size) (offsOf f g eff), offAlign (.stS h f) (sizeBytes f.size) (offsOf f g eff), none] := by
  rw [← formatCheck_dataSrcs]
  exact (firstSome_concat_none [_, _, _, _]).symm

/-- The lanes of an access of scratchpad. -/
theorem LaneReports.scratchpad (i : Instr) (h : Hdr) (f : MF) (data : List Nat) (s : State) (g : Group) :
    LaneReports i (spChecks h f data) s g (offFail i f s g) (fun l => alignFail i true (sizeBytes f.size) l (laneOff f g l)) fun _ => none :=
  ⟨fun _ hl => if_pos hl, fun _ hl => if_neg hl, fun _ hl => alignFail_none hl, fun _ hl => alignFail_some hl, ⟨fun _ _ => rfl, nofun⟩, nofun⟩

/-- The lanes of a plain access of device memory. -/
theorem LaneReports.plain (i : Instr) (h : Hdr) (f : MF) (data : List Nat) (aligned : Bool) (n : Need) (s : State) (g : Group) :
    LaneReports i (plainChecks h f data aligned n) s g (fun _ => none)
      (fun l => alignFail i aligned (sizeBytes f.size) l ((laneVa f g l).toNat : Int))
      fun l => transFail i s g (sizeBytes f.size) n l (laneVa f g l) :=
  .device rfl (fun _ => rfl) (fun _ _ => rfl) fun _ hl => absurd trivial hl

/-- The lanes of a bounded access. -/
theorem LaneReports.bounded (i : Instr) (h : Hdr) (f : MF) (data : List Nat) (n : Need) (s : State) (g : Group) :
    LaneReports i (boundedChecks h f data n) s g (elemFail i f g)
      (fun l => alignFail i (decide (f.sync = 1)) (sizeBytes f.size) l ((boundedVa f g l).toNat : Int))
      fun l => transFail i s g (sizeBytes f.size) n l (boundedVa f g l) :=
  .device rfl (fun _ => rfl) (fun _ hl => if_pos hl) fun _ hl => if_neg hl

theorem findSome?_none (eff : LaneMask) : ((lanesOf eff).findSome? fun _ => (none : Option Report)) = none :=
  List.findSome?_eq_none_iff.2 fun _ _ => rfl

/-- A lane-wise access checks its index, its data, and then its lanes, each check the lowest lane first. -/
theorem check_of_accessChecks {i : Instr} {c : AccessChecks} {s : State} {p : Plan} (hc : accessChecks i = some c)
    (hp : planOf i s = some (c.h, p)) (g : Group) (eff : LaneMask) :
    p.collective = false ∧ ∃ range align trans, LaneReports i c s g range align trans ∧
      p.check s g eff = firstSome [indexCheck i c.f c.pairIx g, c.dataCheck i g, (lanesOf eff).findSome? range,
        (lanesOf eff).findSome? align, (lanesOf eff).findSome? trans] := by
  cases i
  case ld h f =>
    cases hc; cases hp
    refine ⟨rfl, _, _, _, .plain _ h f _ _ _ s g, ?_⟩
    rw [findSome?_none]
    exact check_devLoad ..
  case st h f =>
    cases hc; cases hp
    refine ⟨rfl, _, _, _, .plain _ h f _ _ _ s g, ?_⟩
    rw [findSome?_none]
    exact check_devStore ..
  case ldb h f =>
    cases hc; cases hp
    refine ⟨rfl, _, _, _, .bounded _ h f _ _ s g, ?_⟩
    rw [← elemCheck_eq]
    exact check_devLoad ..
  case stb h f =>
    cases hc; cases hp
    refine ⟨rfl, _, _, _, .bounded _ h f _ _ s g, ?_⟩
    rw [← elemCheck_eq]
    exact check_devStore ..
  case ldS h f =>
    cases hc; cases hp
    refine ⟨rfl, _, _, _, .scratchpad _ h f _ s g, ?_⟩
    rw [← offCheck_eq, ← offAlign_eq, findSome?_none]
    exact check_planLdS ..
  case stS h f =>
    cases hc; cases hp
    refine ⟨rfl, _, _, _, .scratchpad _ h f _ s g, ?_⟩
    rw [← offCheck_eq, ← offAlign_eq, findSome?_none]
    exact check_planStS ..
  case atM h f x =>
    cases hu : x.uni with
    | true => simp [accessChecks, hu] at hc
    | false =>
      simp only [accessChecks, hu] at hc
      cases hc; cases hp
      have hplan : planAtM h f x = atLanes (.atM h f x) f x := if_neg (by simp [hu])
      rw [hplan]
      refine ⟨rfl, _, _, _, .plain _ h f _ _ _ s g, ?_⟩
      rw [findSome?_none]
      exact check_atLanes ..
  all_goals cases hc

theorem indexCheck_eq (i : Instr) (f : MF) (pair : Bool) (g : Group) :
    indexCheck i f pair g = if f.ix then (mIndex f pair).names.findSome? fun n =>
      if indexTagOk pair (g.vTag n) then none else some ⟨.format, (g.vTag n).toNat, n, 0, word0Of i, word1Of i, 0⟩ else none := by
  rw [indexCheck, firstSome_map]

/-- The tags of an index that its instruction takes. -/
def indexTagsOk (f : MF) (pair : Bool) (g : Group) : Prop :=
  f.ix = true → ∀ n, n ∈ (mIndex f pair).names → g.vTag n ∈ if pair then [0, 7, 8] else [0, 5, 6]

theorem indexTagOk_iff (pair : Bool) (tag : BitVec 4) : indexTagOk pair tag = true ↔ tag ∈ if pair then [0, 7, 8] else [0, 5, 6] := by
  revert pair tag
  decide

theorem indexCheck_none {i : Instr} {f : MF} {pair : Bool} {g : Group} (h : indexTagsOk f pair g) : indexCheck i f pair g = none := by
  rw [indexCheck_eq]
  split
  · next hix => exact List.findSome?_eq_none_iff.2 fun n hn => if_pos ((indexTagOk_iff _ _).2 (h hix n hn))
  · rfl

/-- A check that some register fails, and whose answers all have a cause, answers with this cause. -/
theorem findSome?_cause {xs : List Nat} {f : Nat → Option Report} {k : Cause} {n : Nat} {r : Report} (hn : n ∈ xs) (hr : f n = some r)
    (hk : ∀ m q, f m = some q → q.cause = k) : ∃ q, xs.findSome? f = some q ∧ q.cause = k := by
  have hsome : (xs.findSome? f).isSome = true := List.findSome?_isSome_iff.2 ⟨n, hn, by simp [hr]⟩
  obtain ⟨q, hq⟩ := Option.isSome_iff_exists.1 hsome
  obtain ⟨m, -, hm⟩ := List.exists_of_findSome?_eq_some hq
  exact ⟨q, hq, hk m q hm⟩

theorem indexCheck_some {i : Instr} {f : MF} {pair : Bool} {g : Group} (h : ¬indexTagsOk f pair g) :
    ∃ r, indexCheck i f pair g = some r ∧ r.cause = .format := by
  unfold indexTagsOk at h
  push Not at h
  obtain ⟨hix, n, hn, hbad⟩ := h
  rw [indexCheck_eq, if_pos hix]
  refine findSome?_cause hn (if_neg fun hok => hbad ((indexTagOk_iff _ _).1 hok)) fun m q hq => ?_
  split at hq
  · cases hq
  · cases hq
    rfl

theorem AccessChecks.dataCheck_none {c : AccessChecks} {i : Instr} {g : Group} (h : ∀ n, n ∈ c.data → ¬tagWrong c.f.type (g.vTag n)) :
    c.dataCheck i g = none := List.findSome?_eq_none_iff.2 fun n hn => tagFail_none (h n hn)

theorem AccessChecks.dataCheck_some {c : AccessChecks} {i : Instr} {g : Group} (h : ¬∀ n, n ∈ c.data → ¬tagWrong c.f.type (g.vTag n)) :
    ∃ r, c.dataCheck i g = some r ∧ r.cause = .format := by
  push Not at h
  obtain ⟨n, hn, hw⟩ := h
  refine findSome?_cause hn (tagFail_some hw) fun m q hq => ?_
  unfold tagFail at hq
  split at hq
  · cases hq
  · cases hq
    rfl

theorem checkedLanes_of_consumed {g : Group} {h : Hdr} {p : Plan} (hn : p.consumed g (effLanes g h) = 0) :
    checkedLanes g h p = effLanes g h := by
  rw [checkedLanes, hn]
  exact BitVec.and_allOnes

/-- What a lane-wise access answers at issue. -/
theorem causeAt_access {i : Instr} {c : AccessChecks} {s : State} {g : Group} {p : Plan} (hc : accessChecks i = some c)
    (hp : planOf i s = some (c.h, p)) (hfull : ∀ x, x ∈ p.srcs → x.empty g s.now = false) (hbad : ∀ r, (g.sreg r).bad = false)
    (hnone : p.consumed g (effLanes g c.h) = 0) :
    ∃ range align trans, LaneReports i c s g range align trans ∧
      let found := firstSome [indexCheck i c.f c.pairIx g, c.dataCheck i g, (lanesOf (effLanes g c.h)).findSome? range,
        (lanesOf (effLanes g c.h)).findSome? align, (lanesOf (effLanes g c.h)).findSome? trans]
      (∀ r, found = some r → r.cause ≠ .xvlane → causeAt i s g c.h p = some r) ∧
        (found = none → causeAt i s g c.h p = peakCause i s g c.h p) := by
  obtain ⟨hcol, range, align, trans, hreports, hcheck⟩ := check_of_accessChecks hc hp g (effLanes g c.h)
  have hlanes : checkedLanes g c.h p = effLanes g c.h := checkedLanes_of_consumed hnone
  have hmask : p.collective = true → g.active = g.live := by simp [hcol]
  refine ⟨range, align, trans, hreports, fun r hr hx => ?_, fun hr => ?_⟩
  · exact causeAt_of_check hmask hfull hbad (by rw [hlanes, hcheck, hr]) hx
  · exact causeAt_of_no_check hmask hfull hbad (by rw [hlanes, hcheck, hr])

/-- What a lane-wise access raises: FORMAT, BOUND, ALIGN, PAGE or PROT, in this order, the lowest lane first (R243). -/
theorem access_causes {i : Instr} {c : AccessChecks} {s : State} {g : Group} {p : Plan} (hc : accessChecks i = some c)
    (hp : planOf i s = some (c.h, p)) (hfull : ∀ x, x ∈ p.srcs → x.empty g s.now = false) (hbad : ∀ r, (g.sreg r).bad = false)
    (hnone : p.consumed g (effLanes g c.h) = 0) :
    let index := indexTagsOk c.f c.pairIx g
    let data := ∀ n, n ∈ c.data → ¬tagWrong c.f.type (g.vTag n)
    let lanes := lanesOf (effLanes g c.h)
    let strays := fun l => c.aligned = true ∧ c.place g l % (sizeBytes c.f.size : Int) ≠ 0
    let found := fun l (n : Need) => locate s g.core g.part (BitVec.ofInt 64 (c.place g l)) (sizeBytes c.f.size) n
    (¬(index ∧ data) → ∃ r, causeAt i s g c.h p = some r ∧ r.cause = .format) ∧
    (index → data →
      (∀ lo l hi, lanes = lo ++ l :: hi → (∀ k, k ∈ lo → c.inside s g k) → ¬c.inside s g l →
        causeAt i s g c.h p = some ⟨.bound, 0, l, 0, BitVec.ofInt 64 (c.value g l), word0Of i, word1Of i⟩) ∧
      ((∀ l, l ∈ lanes → c.inside s g l) →
        (∀ lo l hi, lanes = lo ++ l :: hi → (∀ k, k ∈ lo → ¬strays k) → strays l →
          causeAt i s g c.h p = some ⟨.align, 0, l, 0, BitVec.ofInt 64 (c.place g l), word0Of i, word1Of i⟩) ∧
        ((∀ l, l ∈ lanes → ¬strays l) →
          (∀ n lo l hi e, c.need = some n → lanes = lo ++ l :: hi → (∀ k, k ∈ lo → ∃ x, found k n = .ok x) → found l n = .error e →
            causeAt i s g c.h p = some ⟨if e.1 = 2 then .page else .prot, e.1, l, 0, e.2, word0Of i, 0⟩) ∧
          ((∀ n l, c.need = some n → l ∈ lanes → ∃ x, found l n = .ok x) → causeAt i s g c.h p = peakCause i s g c.h p)))) := by
  intro index data lanes strays found
  obtain ⟨range, align, trans, hreports, hsome, hnoneFound⟩ := causeAt_access hc hp hfull hbad hnone
  refine ⟨fun hbadTags => ?_, fun hindex hdata => ?_⟩
  · by_cases hindex : index
    · obtain ⟨r, hr, hk⟩ := AccessChecks.dataCheck_some (i := i) fun hdata => hbadTags ⟨hindex, hdata⟩
      exact ⟨r, hsome r (by rw [indexCheck_none hindex, hr]; rfl) (by rw [hk]; decide), hk⟩
    · obtain ⟨r, hr, hk⟩ := indexCheck_some (i := i) hindex
      exact ⟨r, hsome r (by rw [hr]; rfl) (by rw [hk]; decide), hk⟩
  have hI : indexCheck i c.f c.pairIx g = none := indexCheck_none hindex
  have hD : c.dataCheck i g = none := AccessChecks.dataCheck_none hdata
  rw [hI, hD] at hsome hnoneFound
  refine ⟨fun lo l hi hl hlo hout => ?_, fun hinside => ?_⟩
  · have hB := findSome?_append_cons (hi := hi) (fun k hk => hreports.inside k (hlo k hk)) (hreports.outside l hout)
    rw [← hl] at hB
    exact hsome _ (by rw [hB]; rfl) nofun
  have hB : lanes.findSome? range = none := List.findSome?_eq_none_iff.2 fun l hl => hreports.inside l (hinside l hl)
  rw [hB] at hsome hnoneFound
  refine ⟨fun lo l hi hl hlo hstray => ?_, fun haligned => ?_⟩
  · have hA := findSome?_append_cons (hi := hi) (fun k hk => hreports.aligned k (hlo k hk)) (hreports.strays l hstray)
    rw [← hl] at hA
    exact hsome _ (by rw [hA]; rfl) nofun
  have hA : lanes.findSome? align = none := List.findSome?_eq_none_iff.2 fun l hl => hreports.aligned l (haligned l hl)
  rw [hA] at hsome hnoneFound
  refine ⟨fun n lo l hi e hn hl hlo he => ?_, fun hok => hnoneFound ?_⟩
  · have hfirst : ∀ k, k ∈ lo → trans k = none := fun k hk => by
      obtain ⟨x, hx⟩ := hlo k hk
      exact hreports.mapped.2 n hn k x hx
    have hT := findSome?_append_cons (hi := hi) hfirst (hreports.unmapped n hn l e he)
    rw [← hl] at hT
    exact hsome _ (by rw [hT]; rfl) (by dsimp only; split <;> decide)
  · have hT : lanes.findSome? trans = none := List.findSome?_eq_none_iff.2 fun l hl => by
      cases hn : c.need with
      | none => exact hreports.mapped.1 hn l
      | some n =>
        obtain ⟨x, hx⟩ := hok n l hn hl
        exact hreports.mapped.2 n hn l x hx
    rw [hT]
    rfl

/-! ### Accesses of the group (R247, R288) -/

/-- An access of the group checks its alignment and then its translation; it writes no vector register. -/
theorem check_of_groupChecks {i : Instr} {h : Hdr} {f : MF} {aligned : Bool} {n : Need} {s : State} {p : Plan}
    (hc : groupChecks i = some (h, f, aligned, n)) (hp : planOf i s = some (h, p)) :
    p.collective = false ∧ (∀ g eff, p.consumed g eff = 0) ∧ dstNames p.dsts = [] ∧ ∀ g eff, eff ≠ 0 →
      p.check s g eff = firstSome [alignFail i aligned (sizeBytes f.size) 0 ((groupVa f g).toNat : Int),
        transFail i s g (sizeBytes f.size) n 0 (groupVa f g)] := by
  have hgroup (g : Group) : groupCheck i f n aligned s g = firstSome [alignFail i aligned (sizeBytes f.size) 0 ((groupVa f g).toNat : Int),
      transFail i s g (sizeBytes f.size) n 0 (groupVa f g)] := by
    rw [groupCheck, transCheck_eq, alignCheck_eq]
    cases aligned with
    | true => simp
    | false => simp [alignFail]
  cases i
  case ldu h f =>
    cases hc; cases hp
    exact ⟨rfl, fun _ _ => rfl, rfl, fun g eff heff => (if_neg heff).trans (hgroup g)⟩
  case stu h f =>
    cases hc; cases hp
    exact ⟨rfl, fun _ _ => rfl, rfl, fun g eff heff => (if_neg heff).trans (hgroup g)⟩
  case atM h f x =>
    cases hu : x.uni with
    | false => simp [groupChecks, hu] at hc
    | true =>
      simp only [groupChecks, hu] at hc
      cases hc; cases hp
      have hplan : planAtM h f x = atUni (.atM h f x) f x := if_pos hu
      rw [hplan]
      exact ⟨rfl, fun _ _ => rfl, rfl, fun g eff heff => (if_neg heff).trans (hgroup g)⟩
  all_goals cases hc

theorem peakCause_of_no_vector {i : Instr} {s : State} {g : Group} {h : Hdr} {p : Plan} (hd : dstNames p.dsts = []) :
    peakCause i s g h p = none := by
  simp [peakCause, freshCount, hd]

theorem group_causes {i : Instr} {h : Hdr} {f : MF} {aligned : Bool} {n : Need} {s : State} {g : Group} {p : Plan}
    (hc : groupChecks i = some (h, f, aligned, n)) (hp : planOf i s = some (h, p)) (hfull : ∀ x, x ∈ p.srcs → x.empty g s.now = false)
    (hbad : ∀ r, (g.sreg r).bad = false) (heff : effLanes g h ≠ 0) :
    let strays := aligned = true ∧ (groupVa f g).toNat % sizeBytes f.size ≠ 0
    (strays → causeAt i s g h p = some ⟨.align, 0, 0, 0, groupVa f g, word0Of i, word1Of i⟩) ∧
    (¬strays → ∀ e, locate s g.core g.part (groupVa f g) (sizeBytes f.size) n = .error e →
      causeAt i s g h p = some ⟨if e.1 = 2 then .page else .prot, e.1, 0, 0, e.2, word0Of i, 0⟩) ∧
    (¬strays → ∀ x, locate s g.core g.part (groupVa f g) (sizeBytes f.size) n = .ok x → causeAt i s g h p = none) := by
  intro strays
  obtain ⟨hcol, hnone, hdst, hcheck⟩ := check_of_groupChecks hc hp
  have hmask : p.collective = true → g.active = g.live := by simp [hcol]
  have hfound := hcheck g _ heff
  rw [← checkedLanes_of_consumed (p := p) (hnone g _)] at hfound
  have hint : (aligned = true ∧ ((groupVa f g).toNat : Int) % (sizeBytes f.size : Int) ≠ 0) ↔ strays := by
    have : (((groupVa f g).toNat : Int) % (sizeBytes f.size : Int) ≠ 0) ↔ (groupVa f g).toNat % sizeBytes f.size ≠ 0 := by omega
    rw [this]
  refine ⟨fun hs => ?_, fun hs e he => ?_, fun hs x hx => ?_⟩
  · rw [alignFail_some (hint.2 hs)] at hfound
    simpa using causeAt_of_check hmask hfull hbad hfound nofun
  · rw [alignFail_none (mt hint.1 hs), transFail_error he] at hfound
    exact causeAt_of_check hmask hfull hbad hfound (by dsimp only; split <;> decide)
  · rw [alignFail_none (mt hint.1 hs), transFail_ok hx] at hfound
    rw [causeAt_of_no_check hmask hfull hbad hfound, peakCause_of_no_vector hdst]

end Sys2Proof.Machine
end

section
/-! PROOFS. What the end of a launch leaves of its groups, its teams and the groups of other launches (R50, R362). -/

namespace Sys2Proof.Machine

set_option Elab.async false

/-! ### Groups but for the contents of registers -/

/-- A group but for the contents of its registers. -/
def Group.unread (g : Group) : Group := { g with sregs := [], pregs := [] }

theorem Group.unread_setS (g : Group) (now r : Nat) (v : Word) (b : Bool) : (g.setS now r v b).unread = g.unread := by
  unfold Group.setS
  split <;> rfl

theorem Group.bare_of_unread {g g' : Group} (h : g'.unread = g.unread) : g'.bare = g.bare :=
  congrArg (fun x : Group => { x with hold := .none }) h

/-- From `s` to `u` the groups have changed at most in the contents of registers, and teams, launches and counters have stayed. -/
structure OnlyRegisters (s u : State) : Prop where
  groups : u.groups.map Group.unread = s.groups.map Group.unread
  teams : u.teams = s.teams
  launches : u.launches = s.launches
  counters : u.launchCtrs = s.launchCtrs

theorem OnlyRegisters.refl (s : State) : OnlyRegisters s s := ⟨rfl, rfl, rfl, rfl⟩

theorem OnlyRegisters.trans {s t u : State} (h : OnlyRegisters s t) (h' : OnlyRegisters t u) : OnlyRegisters s u :=
  ⟨h'.groups.trans h.groups, h'.teams.trans h.teams, h'.launches.trans h.launches, h'.counters.trans h.counters⟩

theorem OnlyRegisters.foldl {α : Type} {f : State → α → State} (hf : ∀ s x, OnlyRegisters s (f s x)) (xs : List α) (s : State) :
    OnlyRegisters s (xs.foldl f s) := by
  induction xs generalizing s with
  | nil => exact .refl s
  | cons x xs ih => exact (hf s x).trans (ih _)

theorem OnlyRegisters.modGrp (s : State) (k : Nat) {f : Group → Group} (hf : ∀ g, (f g).unread = g.unread) : OnlyRegisters s (s.modGrp k f) := by
  refine ⟨?_, rfl, rfl, rfl⟩
  rw [State.modGrp, List.map_map]
  refine List.map_congr_left fun g _ => ?_
  simp only [Function.comp_apply]
  split
  · exact hf g
  · rfl

theorem OnlyRegisters.deliver (r : Req) (d : Dest) (size : Nat) (signed : Bool) (bs : List Byte) (bad : Bool) (s : State) :
    OnlyRegisters s (deliver r d size signed bs bad s) := by
  cases d with
  | none => exact .refl s
  | lane pids l => exact .modGrp s r.gid fun g => rfl
  | uni x =>
    unfold Machine.deliver
    dsimp only
    split
    · exact .refl s
    · exact .modGrp s r.gid fun g => Group.unread_setS g _ _ _ _

theorem OnlyRegisters.dropAnswers (mine : Req → Bool) (s : State) : OnlyRegisters s (dropAnswers mine s) := by
  unfold Machine.dropAnswers
  refine .trans (.foldl (fun u r => ?_) _ s) ⟨rfl, rfl, rfl, rfl⟩
  split
  · exact .deliver r _ _ _ _ _ u
  · exact .refl u

/-! ### Counters (R50) -/

theorem launchCtr_addLaunchCtr (c l c' l' n : Nat) (s : State) : launchCtr s c' l' ≤ launchCtr (addLaunchCtr c l n s) c' l' := by
  unfold addLaunchCtr
  split
  · exact Nat.le_refl _
  · by_cases hk : c = c' ∧ l = l'
    · obtain ⟨rfl, rfl⟩ := hk
      simp [launchCtr]
    · have hne : (c == c' && l == l') = false := by simpa using hk
      have hfind : (s.launchCtrs.filter fun e => !(e.1 == c && e.2.1 == l)).find? (fun e => e.1 == c' && e.2.1 == l') =
          s.launchCtrs.find? fun e => e.1 == c' && e.2.1 == l' := by
        rw [List.find?_filter]
        congr 1
        funext e
        rw [Bool.eq_iff_iff, decide_eq_true_iff, and_iff_right_iff_imp, Bool.and_eq_true, beq_iff_eq, beq_iff_eq]
        rintro ⟨h1, h2⟩
        rw [h1, h2, Bool.beq_comm (a := c'), Bool.beq_comm (a := l'), hne]
        rfl
      rw [launchCtr, launchCtr, List.find?_cons, hne, hfind]

theorem launchCtr_endGroup (s : State) (g : Group) (c l : Nat) : launchCtr s c l ≤ launchCtr (endGroup s g) c l := by
  unfold endGroup
  split
  · exact launchCtr_addLaunchCtr (s := s.modGrp g.gid Group.leave) ..
  · exact Nat.le_refl _

/-- A counter that cannot take a count does not take it after more groups have ended. -/
theorem ctrTakes_foldl_endGroup (gs : List Group) (s : State) (c l n : Nat) (h : ctrTakes s c l n = false) :
    ctrTakes (gs.foldl endGroup s) c l n = false := by
  induction gs generalizing s with
  | nil => exact h
  | cons g gs ih =>
    refine ih _ ?_
    have := launchCtr_endGroup s g c l
    simp only [ctrTakes, Bool.and_eq_false_iff, decide_eq_false_iff_not] at h ⊢
    omega

theorem ctrTakes_congr {s t : State} (h : t.launchCtrs = s.launchCtrs) (c l n : Nat) : ctrTakes t c l n = ctrTakes s c l n := by
  have hctr : launchCtr t c l = launchCtr s c l := by rw [launchCtr, launchCtr, h]
  rw [ctrTakes, ctrTakes, hctr]

/-! ### The groups of the launch -/

/-- A group of an ended launch that holds its slot. -/
def Group.stopped (g : Group) : Group := { g with hold := .none, live := 0, active := 0 }

/-- A group that is still resident after the end of a group `z`: another one, or one of this identifier whose counter was full. -/
theorem resident_endGroup {s : State} {z x : Group} (hx : x ∈ (endGroup s z).groups) (hl : x.life = .resident) :
    ∃ y, y ∈ s.groups ∧ (x = y ∧ y.gid ≠ z.gid ∨ x = y.stopped ∧ ctrTakes s z.core z.launch z.outst = false) := by
  have hgroups : (endGroup s z).groups = s.groups.map fun y => if y.gid == z.gid then
      (if ctrTakes s z.core z.launch z.outst then y.leave else y.stopped) else y := by
    unfold endGroup addLaunchCtr
    split
    · split <;> rfl
    · rfl
  rw [hgroups] at hx
  obtain ⟨y, hy, rfl⟩ := List.mem_map.1 hx
  refine ⟨y, hy, ?_⟩
  by_cases hk : y.gid = z.gid
  · simp only [hk, beq_self_eq_true, if_true] at hl ⊢
    split at hl
    · cases hl
    · next hc => exact .inr ⟨if_neg hc, by simpa using hc⟩
  · simp [hk]

theorem resident_endGroups (gs : List Group) {s : State} {x : Group} (hx : x ∈ (gs.foldl endGroup s).groups) (hl : x.life = .resident) :
    ∃ y, y ∈ s.groups ∧ (x = y ∨ x = y.stopped) ∧ ∀ z, z ∈ gs → z.gid = x.gid →
      x = y.stopped ∧ ctrTakes (gs.foldl endGroup s) z.core z.launch z.outst = false := by
  induction gs generalizing s with
  | nil => exact ⟨x, hx, .inl rfl, fun z hz => absurd hz List.not_mem_nil⟩
  | cons w gs ih =>
    rw [List.foldl_cons] at hx
    obtain ⟨y', hy', hxy, hz⟩ := ih hx
    have hlife : x.life = y'.life := by rcases hxy with h | h <;> rw [h]; rfl
    have hgid : x.gid = y'.gid := by rcases hxy with h | h <;> rw [h]; rfl
    obtain ⟨y, hy, ⟨hsame, hne⟩ | ⟨hstop, hfull⟩⟩ := resident_endGroup hy' (hlife ▸ hl)
    · subst hsame
      refine ⟨y', hy, hxy, fun z hmem hk => ?_⟩
      rcases List.mem_cons.1 hmem with rfl | hmem
      · exact absurd (hgid.symm.trans hk.symm) hne
      · exact hz z hmem hk
    · have hx' : x = y.stopped := by rcases hxy with h | h <;> rw [h, hstop]; rfl
      refine ⟨y, hy, .inr hx', fun z hmem hk => ⟨hx', ?_⟩⟩
      rcases List.mem_cons.1 hmem with rfl | hmem
      · exact ctrTakes_foldl_endGroup (z :: gs) s _ _ _ hfull
      · exact (hz z hmem hk).2

/-! ### The parts of an end (R362) -/

/-- What the end of a launch leaves: `a` is the state with the launch marked and what its teams owe given up, and `u` the state in which its
groups have stopped and its answers are dropped. -/
theorem endLaunch_eq (lid : Nat) (s : State) : ∃ a u, a = forgetOwed lid (s.modLaunch lid fun l => { l with ended := true }) ∧
    OnlyRegisters ((a.groups.filter fun g => g.launch == lid && g.life == .resident).foldl endGroup a) u ∧
    (endLaunch lid s).launches = u.launches ∧ (endLaunch lid s).launchCtrs = u.launchCtrs ∧
    (endLaunch lid s).teams = (u.teams.filter fun t =>
      !((u.teams.filter fun t => t.launch == lid && t.status == .saved).map Team.tid).contains t.tid) ∧
    (endLaunch lid s).groups = u.groups.filter fun g =>
      !(((u.teams.filter fun t => t.launch == lid && t.status == .saved).map Team.tid).contains g.team && g.life == .saved) :=
  ⟨_, _, rfl, .dropAnswers (fun r => r.launch == lid) _, rfl, rfl, rfl, rfl⟩

theorem endGroups_rest (gs : List Group) (s : State) :
    (gs.foldl endGroup s).launches = s.launches ∧ (gs.foldl endGroup s).teams = s.teams :=
  Prod.mk.inj (foldl_keeps (fun u : State => (u.launches, u.teams)) endGroup (fun s g => by
    unfold endGroup addLaunchCtr
    split
    · split <;> rfl
    · rfl) gs s)

/-- After its end a launch holds no group that goes on, no saved team, and is marked as ended. -/
theorem launchEnded_endLaunch (lid : Nat) (s : State) : LaunchEnded (endLaunch lid s) lid := by
  obtain ⟨a, u, ha, hu, hlaunches, hctrs, hteams, hgroups⟩ := endLaunch_eq lid s
  refine ⟨fun x hx hl hres => ?_, fun x hx hl hsaved => ?_, fun l hl hlid => ?_⟩
  · have hxu : x ∈ u.groups := (List.mem_filter.1 (hgroups ▸ hx)).1
    have hread : x.unread ∈ ((a.groups.filter fun g => g.launch == lid && g.life == .resident).foldl endGroup a).groups.map Group.unread :=
      hu.groups ▸ List.mem_map_of_mem hxu
    obtain ⟨x', hx', hsame⟩ := List.mem_map.1 hread
    have hl' : x'.launch = lid := (congrArg Group.launch hsame).trans hl
    have hres' : x'.life = .resident := (congrArg Group.life hsame).trans hres
    obtain ⟨y, hy, hxy, hstop⟩ := resident_endGroups _ hx' hres'
    have hkept : y.launch = x'.launch ∧ y.life = x'.life ∧ y.gid = x'.gid := by
      rcases hxy with h | h <;> rw [h] <;> exact ⟨rfl, rfl, rfl⟩
    obtain ⟨hyl, hylife, hygid⟩ := hkept
    obtain ⟨hx'', hfull⟩ := hstop y (List.mem_filter.2 ⟨hy, by simp [hyl, hylife, hl', hres']⟩) hygid
    rw [hx''] at hsame
    refine ⟨(congrArg Group.live hsame).symm, (congrArg Group.active hsame).symm, (congrArg Group.hold hsame).symm, ?_⟩
    have hcore : y.core = x.core := (congrArg Group.core hsame :)
    have houtst : y.outst = x.outst := (congrArg Group.outst hsame :)
    rw [ctrTakes_congr (hctrs.trans hu.counters), ← hfull, hyl, hl', hcore, houtst]
  · rw [hteams] at hx
    obtain ⟨hxu, hout⟩ := List.mem_filter.1 hx
    have : x.tid ∈ (u.teams.filter fun t => t.launch == lid && t.status == .saved).map Team.tid :=
      List.mem_map_of_mem (List.mem_filter.2 ⟨hxu, by simp [hl, hsaved]⟩)
    simp [this] at hout
  · rw [hlaunches, hu.launches, (endGroups_rest _ a).1, ha] at hl
    obtain ⟨m, -, rfl⟩ := List.mem_map.1 hl
    split at hlid
    · next hk => simp [hk]
    · next hk => simp [hlid] at hk

/-! ### Groups of other launches -/

/-- From `s` to `u` the groups of an identifier have changed at most in registers and waits. -/
def KeepsNamed (k : Nat) (s u : State) : Prop :=
  (u.groups.filter fun g => g.gid == k).map Group.bare = (s.groups.filter fun g => g.gid == k).map Group.bare

theorem KeepsNamed.trans {k : Nat} {s t u : State} (h : KeepsNamed k s t) (h' : KeepsNamed k t u) : KeepsNamed k s u := Eq.trans h' h

theorem KeepsNamed.of_bare {s u : State} (h : u.groups.map Group.bare = s.groups.map Group.bare) (k : Nat) : KeepsNamed k s u := by
  have hfilter (v : State) : (v.groups.filter fun g => g.gid == k).map Group.bare = (v.groups.map Group.bare).filter fun g => g.gid == k := by
    rw [List.filter_map]
    rfl
  rw [KeepsNamed, hfilter, hfilter, h]

theorem KeepsNamed.modGrp_ne {k j : Nat} (hne : j ≠ k) (s : State) {f : Group → Group} (hf : ∀ g, (f g).gid = g.gid) :
    KeepsNamed k s (s.modGrp j f) := by
  have hpred : (fun g : Group => g.gid == k) ∘ (fun g => if g.gid == j then f g else g) = fun g => g.gid == k := funext fun g => by
    simp only [Function.comp_apply]
    split
    · rw [hf]
    · rfl
  rw [KeepsNamed, State.modGrp, List.filter_map, List.map_map, hpred]
  refine List.map_congr_left fun g hg => ?_
  obtain rfl : g.gid = k := by simpa using (List.mem_filter.1 hg).2
  simp [hne.symm]

theorem KeepsNamed.grp? {k : Nat} {s u : State} (h : KeepsNamed k s u) {g : Group} (hg : s.grp? k = some g) :
    ∃ g', u.grp? k = some g' ∧ g'.bare = g.bare := by
  have hhead (v : State) : v.grp? k = (v.groups.filter fun g => g.gid == k).head? := by
    rw [List.head?_filter]
    rfl
  have heq := congrArg List.head? h
  rw [List.head?_map, List.head?_map, ← hhead, ← hhead, hg] at heq
  cases hk : u.grp? k with
  | none => simp [hk] at heq
  | some g' => exact ⟨g', rfl, by simpa [hk] using heq⟩

theorem KeepsNamed.endGroup {k : Nat} (s : State) {g : Group} (hne : g.gid ≠ k) : KeepsNamed k s (endGroup s g) := by
  unfold Machine.endGroup addLaunchCtr
  split
  · split
    · exact .modGrp_ne hne s fun _ => rfl
    · exact .trans (.modGrp_ne hne s (f := Group.leave) fun _ => rfl) rfl
  · exact .modGrp_ne hne s fun _ => rfl

theorem KeepsNamed.endGroups {k : Nat} (gs : List Group) (s : State) (hne : ∀ g, g ∈ gs → g.gid ≠ k) :
    KeepsNamed k s (gs.foldl Machine.endGroup s) := by
  induction gs generalizing s with
  | nil => exact rfl
  | cons g gs ih => exact (KeepsNamed.endGroup s (hne g List.mem_cons_self)).trans (ih _ fun x hx => hne x (List.mem_cons_of_mem g hx))

theorem OnlyRegisters.keepsNamed {s u : State} (h : OnlyRegisters s u) (k : Nat) : KeepsNamed k s u := by
  refine .of_bare ?_ k
  have hread := congrArg (List.map fun x : Group => { x with hold := .none }) h.groups
  rwa [List.map_map, List.map_map] at hread

theorem forgetOwed_groups (lid : Nat) (s : State) : (forgetOwed lid s).groups.map Group.bare = s.groups.map Group.bare := by
  rw [forgetOwed, List.map_map]
  refine List.map_congr_left fun g _ => ?_
  simp only [Function.comp_apply]
  split <;> rfl

/-- A team of a launch is, but for what it owes, a team of the machine before. -/
theorem mem_forgetOwed_teams {lid : Nat} {s : State} {x : Team} (hx : x ∈ (forgetOwed lid s).teams) :
    ∃ y, y ∈ s.teams ∧ y.tid = x.tid ∧ y.launch = x.launch ∧ y.status = x.status := by
  obtain ⟨y, hy, rfl⟩ := List.mem_map.1 hx
  refine ⟨y, hy, ?_⟩
  split <;> exact ⟨rfl, rfl, rfl⟩

/-- The end of a launch leaves the work of the groups of other launches. -/
theorem otherLaunches_endLaunch (lid : Nat) (s : State) : OtherLaunches s (endLaunch lid s) lid := by
  intro k g hg hgid hteam
  obtain ⟨a, u, ha, hu, -, -, -, hgroups⟩ := endLaunch_eq lid s
  have hbare : a.groups.map Group.bare = s.groups.map Group.bare := ha ▸ forgetOwed_groups lid _
  have hmine : ∀ x, x ∈ (a.groups.filter fun g => g.launch == lid && g.life == .resident) → x.gid ≠ k := fun x hx hk => by
    obtain ⟨hxa, hcond⟩ := List.mem_filter.1 hx
    obtain ⟨y, hy, hsame⟩ := List.mem_map.1 (hbare ▸ List.mem_map_of_mem (f := Group.bare) hxa)
    have hl : x.launch = lid := by simpa using (Bool.and_eq_true_iff.1 hcond).1
    exact hgid y hy ((congrArg Group.gid hsame).trans hk) ((congrArg Group.launch hsame).trans hl)
  have hkept : KeepsNamed k s u := .trans (.of_bare hbare k) (.trans (.endGroups _ a hmine) (hu.keepsNamed k))
  obtain ⟨g', hg', hsame⟩ := hkept.grp? hg
  refine ⟨g', ?_, .of_bare hsame⟩
  have hstay : g'.team ∉ (u.teams.filter fun t => t.launch == lid && t.status == .saved).map Team.tid := fun hmem => by
    obtain ⟨x, hx, htid⟩ := List.mem_map.1 hmem
    obtain ⟨hxu, hcond⟩ := List.mem_filter.1 hx
    rw [hu.teams, (endGroups_rest _ a).2, ha] at hxu
    obtain ⟨y, hy, hytid, hyl, -⟩ := mem_forgetOwed_teams hxu
    have hl : x.launch = lid := by simpa using (Bool.and_eq_true_iff.1 hcond).1
    exact hteam y hy (hytid.trans (htid.trans (congrArg Group.team hsame :))) (hyl.trans hl)
  have hfind : (endLaunch lid s).grp? k = (u.groups.filter fun g =>
      !(((u.teams.filter fun t => t.launch == lid && t.status == .saved).map Team.tid).contains g.team && g.life == .saved)).find?
      fun g => g.gid == k := congrArg (List.find? _) hgroups
  rw [hfind]
  exact find_filter hg' (by simp [hstay])

end Sys2Proof.Machine
end

section
/-! PROOFS. What taking a cause leaves: its entry, the end of its launch, or the wait for a reply to PAGE (R355 to R366); and O40. -/

namespace Sys2Proof.Machine

set_option Elab.async false

/-! ### Programs that leave the work of groups -/

/-- The teams and the groups but for registers and waits. -/
def State.work (s : State) : List Team × List Group := (s.teams, s.groups.map Group.bare)

/-- A program leaves teams, and groups but for registers and waits, from every state. -/
def Prog.KeepsWork (p : Prog) : Prop := ∀ s, (p.run s).work = s.work

theorem Prog.keepsWork_done : Prog.KeepsWork .done := fun _ => rfl

theorem Prog.keepsWork_dyn {f : State → Prog} (h : ∀ s, (f s).KeepsWork) : (Prog.dyn f).KeepsWork := fun s => h s s

theorem Prog.keepsWork_change {f : State → State} (h : ∀ s, (f s).work = s.work) : (Prog.change f).KeepsWork := h

theorem Prog.keepsWork_pokes (a : Nat) (bs : List Byte) : (Prog.pokes a bs).KeepsWork := fun s => by rw [Prog.run_pokes]; rfl

theorem Prog.keepsWork_all {ps : List Prog} (h : ∀ p ∈ ps, p.KeepsWork) : (Prog.all ps).KeepsWork := by
  induction ps with
  | nil => exact Prog.keepsWork_done
  | cons p ps ih =>
    intro s
    rw [Prog.run_all_cons, ih (fun q hq => h q (List.mem_cons_of_mem _ hq)), h p List.mem_cons_self]

theorem keepsWork_readWords (ws : List Nat) : (readWords ws).KeepsWork := by
  refine Prog.keepsWork_dyn fun s => ?_
  split
  · exact Prog.keepsWork_done
  · refine Prog.keepsWork_all fun p hp => ?_
    simp only [List.mem_cons, List.not_mem_nil, or_false] at hp
    rcases hp with rfl | rfl
    · refine Prog.keepsWork_all fun p hp => ?_
      obtain ⟨w, -, rfl⟩ := List.mem_map.1 hp
      split
      · exact fun s => rfl
      · exact Prog.keepsWork_done
    · refine Prog.keepsWork_change fun s => ?_
      unfold poisonLines
      refine foldl_keeps State.work _ (fun u l => ?_) _ s
      refine foldl_keeps State.work _ (fun v w => ?_) _ u
      rfl

theorem afterWrite_work (a n : Nat) (s : State) : (afterWrite a n s).work = s.work := by
  obtain ⟨_, _, _, _, h⟩ := afterWrite_eq a n s
  have hbare (rs : List Req) : Group.bare ∘ Group.wokenBy rs = Group.bare := funext fun g => by
    simp only [Function.comp_apply, Group.wokenBy]
    split <;> rfl
  rw [h]
  exact Prod.ext rfl (List.map_map.trans (by rw [hbare]; rfl))

theorem keepsWork_devWrite (a : Nat) (bs : List Byte) : (devWrite a bs).KeepsWork := by
  refine Prog.keepsWork_all fun p hp => ?_
  simp only [List.mem_cons, List.not_mem_nil, or_false] at hp
  rcases hp with rfl | rfl | rfl | rfl
  · exact keepsWork_readWords _
  · refine Prog.keepsWork_change fun s => ?_
    unfold writeSyn
    split <;> rfl
  · exact Prog.keepsWork_pokes a bs
  · exact Prog.keepsWork_change (afterWrite_work a bs.length)

theorem countEvent_work (p cls : Nat) (s : State) : (countEvent p cls s).work = s.work :=
  (congrArg State.work (countEvent_others p cls s) :)

/-- An entry, however it ends, leaves the work of every group. -/
theorem keepsWork_fqEntry (p : Nat) (e : Entry) : (fqEntry p e).KeepsWork := by
  intro s
  rw [fqEntry_run]
  split
  · rfl
  · split
    · exact keepsWork_devWrite _ _ s
    · refine Prog.keepsWork_dyn (fun s => Prog.keepsWork_all fun p hp => ?_) s
      simp only [List.mem_cons, List.not_mem_nil, or_false] at hp
      rcases hp with rfl | rfl | rfl
      · exact keepsWork_devWrite _ _
      · exact keepsWork_devWrite _ _
      · exact Prog.keepsWork_change fun u => countEvent_work _ _ _

/-! ### What an entry writes -/

/-- Memory after an entry, where every check code is good. -/
theorem fqEntry_mem {s : State} (hs : s.syn = []) (p : Nat) (e : Entry) :
    ((fqEntry p e).run s).mem =
      if fqHeld s p then s.mem
      else if fqFull s p then Memory.putBytes s.mem ((s.part p).fq + 16) (wordBytes (devWord s ((s.part p).fq + 16) + 1))
      else Memory.putBytes (Memory.putBytes s.mem ((s.part p).fq + 64 + 64 * (fqWritten s p % 512)) (wordsBytes e.words)) (s.part p).fq
        (wordBytes (BitVec.ofNat 64 (fqWritten s p + 1))) := by
  rw [fqEntry_run]
  split
  · rfl
  · split
    · rw [fqDrop, Prog.run_dyn, devWriteWord, devWrite_mem hs]
    · rw [fqWrite, Prog.run_dyn, Prog.run_all_cons, Prog.run_all_cons, Prog.run_all_cons, Prog.run_all_nil, Prog.run_change_mem, devWriteWord,
        devWrite_mem (devWrite_syn hs _ _), devWrite_mem hs]

/-! ### A cause that ends the launch (R355, R362) -/

theorem OtherLaunches.of_work {s u t : State} {lid : Nat} (hw : u.work = s.work) (h : OtherLaunches u t lid) : OtherLaunches s t lid := by
  obtain ⟨hteams, hgroups⟩ := Prod.mk.inj hw
  intro k g hg hgid hteam
  obtain ⟨g', hg', hbare⟩ := (KeepsNamed.of_bare hgroups k).grp? hg
  obtain ⟨g'', hg'', hsame⟩ := h k g' hg' (fun x hx hk hl => by
    obtain ⟨y, hy, hxy⟩ := List.mem_map.1 (hgroups ▸ List.mem_map_of_mem (f := Group.bare) hx)
    exact hgid y hy ((congrArg Group.gid hxy).trans hk) ((congrArg Group.launch hxy).trans hl)) fun x hx htid =>
      hteam x (hteams ▸ hx) (htid.trans (congrArg Group.team hbare :))
  exact ⟨g'', hg'', (SameWork.of_bare hbare).trans hsame⟩

theorem LaunchEnded.of_change {f : State → State} {s : State} {lid : Nat} (h : LaunchEnded (f s) lid) :
    LaunchEnded ((Prog.change f).run s) lid := h

theorem OtherLaunches.of_change {f : State → State} {s t : State} {lid : Nat} (h : OtherLaunches s (f t) lid) :
    OtherLaunches s ((Prog.change f).run t) lid := h

/-- Taking a cause that ends the launch: its entry is written, and then the launch ends. -/
theorem raise_ends {s : State} {g : Group} {r : Report} (hg : s.grp? g.gid = some g) (hr : r.ends = true) :
    ((raise g.gid r).run s).mem = ((fqEntry g.part (groupEntry s g r g.pc)).run s).mem ∧
      LaunchEnded ((raise g.gid r).run s) g.launch ∧ OtherLaunches s ((raise g.gid r).run s) g.launch := by
  have hcause : (r.cause == .page) = false := by
    cases hk : r.cause <;> simp_all [Report.ends]
  have hrun : (raise g.gid r).run s = (Prog.change (endLaunch g.launch)).run ((fqEntry g.part (groupEntry s g r g.pc)).run s) := by
    simp only [raise, raiseAt, Prog.run_dyn, hg, hcause, Prog.run_all_cons, Prog.run_all_nil, Prog.run_when, hr, if_true, Bool.false_eq_true,
      if_false]
  rw [hrun]
  exact ⟨Prog.run_change_mem _ _, .of_change (launchEnded_endLaunch g.launch _),
    .of_work (keepsWork_fqEntry _ _ s) (.of_change (otherLaunches_endLaunch g.launch _))⟩

/-- What reading table words changes of an entry: nothing. -/
theorem fqEntry_mem_markTables {s : State} (hs : s.syn = []) (die : Nat) (ws : List Nat) (p : Nat) (e : Entry) :
    ((fqEntry p e).run (markTables die ws s)).mem = ((fqEntry p e).run s).mem := by
  rw [fqEntry_mem hs, fqEntry_mem (s := markTables die ws s) hs]
  rfl

theorem byWalk_of_ends {r : Report} (hb : r.byWalk = true) (he : r.ends = true) : r.cause = .prot := by
  unfold Report.byWalk at hb
  unfold Report.ends at he
  cases hk : r.cause <;> simp_all

/-- A cause at issue that ends the launch (R355, R356). -/
theorem exec_cause_ends {i : Instr} {h : Hdr} {s : State} {g : Group} {p : Plan} {r : Report} (hp : planOf i s = some (h, p))
    (hi : s.issuing = some g) (hready : ready s g h p = true) (hc : causeAt i s g h p = some r) (hr : r.ends = true) (hs : s.syn = [])
    (hw : r.cause = .prot → awakeWords s (p.touches s g (effLanes g h)) = true) :
    ∃ t, exec i s = .next t ∧ t.mem = ((fqEntry g.part (groupEntry s g r g.pc)).run s).mem ∧ LaunchEnded t g.launch ∧
      OtherLaunches s t g.launch := by
  obtain ⟨-, hg, -, -⟩ := State.issuing_some hi
  refine ⟨_, (exec_of_planOf hp).trans (runPlan_cause hi hready hc fun hb => hw (byWalk_of_ends hb hr)), ?_⟩
  split
  · rw [readTables_run hs]
    obtain ⟨hmem, hended, hothers⟩ := raise_ends (s := markTables (dieOfCore g.core) (p.touches s g (effLanes g h)) s) (r := r) hg hr
    exact ⟨hmem.trans (fqEntry_mem_markTables hs _ _ _ _), hended, .of_work rfl hothers⟩
  · exact raise_ends hg hr

/-- A word of a reserved major (R74, R105). -/
theorem exec_reservedMajor {w : Word} {s : State} {g : Group} (hi : s.issuing = some g) (hf : mayFetch s g = true) :
    exec (.reservedMajor w) s = .next ((raise g.gid ⟨.illegal, 1, 0, 0, w, 0, 0⟩).run s) := by
  have hexec : exec (.reservedMajor w) s = execReservedMajor w s := rfl
  rw [hexec, execReservedMajor, hi]
  dsimp only
  rw [if_pos hf]
  rfl

/-! ### Control instructions (R129) -/

theorem findEntry_cons (kind : MaskKind) (stop : Option MaskKind) (e : MaskEntry) (st : List MaskEntry) :
    (findEntry kind stop (e :: st)).isSome =
      if e.kind == kind then true else if some e.kind == stop then false else (findEntry kind stop st).isSome := by
  unfold findEntry
  rw [List.findIdx?_cons]
  by_cases hk : e.kind = kind
  · simp [hk]
  · by_cases hs : some e.kind = stop
    · simp [hk, ← hs]
    · cases st.findIdx? (fun e => e.kind == kind || some e.kind == stop) with
      | none => simp [hk, hs]
      | some k =>
        simp only [beq_eq_false_iff_ne.2 hk, beq_eq_false_iff_ne.2 hs, Bool.or_self, Bool.false_eq_true, if_false, Option.map_some,
          List.map_cons, List.getElem?_cons_succ]
        split <;> rfl

theorem findEntry_loop (st : List MaskEntry) :
    (findEntry .loop (some .call) st).isSome = (st.takeWhile fun e => e.kind != .call).any fun e => e.kind == .loop := by
  induction st with
  | nil => rfl
  | cons e st ih =>
    rw [findEntry_cons, ih]
    cases hk : e.kind <;> simp [hk]

theorem findEntry_call (st : List MaskEntry) : (findEntry .call none st).isSome = st.any fun e => e.kind == .call := by
  induction st with
  | nil => rfl
  | cons e st ih =>
    rw [findEntry_cons, ih]
    cases hk : e.kind <;> simp [hk]

theorem topCheck_eq (ok : MaskEntry → Bool) (g : Group) : topCheck ok g = if (g.stack.take 1).any ok then none else some 2 := by
  unfold topCheck
  cases g.stack <;> simp

/-- Each control instruction checks its entry as R129 says. -/
theorem check_of_ctlOf {i : Instr} {h : Hdr} {f : CF} {c : Ctl} (hc : ctlOf i = some (h, f, c)) (g : Group) :
    c.check g = maskStackFails i g := by
  have hleave : findCheck .loop (some .call) g =
      if (g.stack.takeWhile fun e => e.kind != .call).any fun e => e.kind == .loop then none else some 2 := by
    rw [findCheck, findEntry_loop]
  have hret : findCheck .call none g = if g.stack.any fun e => e.kind == .call then none else some 2 := by
    rw [findCheck, findEntry_call]
  cases i
  case ifC h f => cases hc; rfl
  case loopC h f => cases hc; rfl
  case callC h f x => cases hc; rfl
  case exitC h f => cases hc; rfl
  case elseC h f => cases hc; exact topCheck_eq _ g
  case endifC h f => cases hc; exact topCheck_eq _ g
  case endloopC h f => cases hc; exact topCheck_eq _ g
  case brkC h f => cases hc; exact hleave
  case contC h f => cases hc; exact hleave
  case retC h f => cases hc; exact hret
  all_goals cases hc

theorem exec_of_ctlOf {i : Instr} {h : Hdr} {f : CF} {c : Ctl} (hc : ctlOf i = some (h, f, c)) (s : State) : exec i s = runCtl i h f c s := by
  cases i <;> cases hc <;> rfl

theorem maskStackFails_opened (i : Instr) (g : Group) (h : Hdr) (p : Plan) : maskStackFails i (g.opened h p) = maskStackFails i g := by
  simp [maskStackFails]

theorem Group.pFull_opened (g : Group) (h : Hdr) (p : Plan) (now r : Nat) : (g.opened h p).pFull now r = g.pFull now r := by
  simp [Group.pFull, Group.pred]

/-- The causes of a control instruction: an empty condition with EB = 1, and then what its entry says (R120, R129). -/
theorem exec_ctl_cause {i : Instr} {h : Hdr} {f : CF} {c : Ctl} {s : State} {g : Group} {r : Report} (hc : ctlOf i = some (h, f, c))
    (hi : s.issuing = some g) (hhold : g.hold = .none) (hretry : g.retryAt ≤ s.now)
    (hr : (f.ce = true ∧ f.ebp = true ∧ g.pFull s.now f.cp.toNat = false ∧ r = ⟨.emptyread, 4, f.cp.toNat, 0, word0Of i, word1Of i, 0⟩) ∨
      ((f.ce = true → g.pFull s.now f.cp.toNat = true) ∧
        ∃ n, maskStackFails i g = some n ∧ r = ⟨.maskstack, n, 0, 0, word0Of i, BitVec.ofNat 64 g.stack.length, 0⟩)) :
    exec i s = .next ((raise g.gid r).run s) := by
  obtain ⟨-, hg, -, -⟩ := State.issuing_some hi
  rw [exec_of_ctlOf hc]
  have hlate : ¬s.now < g.retryAt := by omega
  rcases hr with ⟨hce, heb, hempty, rfl⟩ | ⟨hfull, n, hn, rfl⟩
  · simp [runCtl, hi, commit, ctlAttempt, hg, ctlSrcs, hce, heb, hhold, hlate, Src.waits, Src.empty, Group.pFull_opened, hempty, Src.report]
  · by_cases hce : f.ce = true
    · simp [runCtl, hi, commit, ctlAttempt, hg, ctlSrcs, hce, hhold, hlate, Src.waits, Src.empty, Group.pFull_opened, hfull hce,
        check_of_ctlOf hc, maskStackFails_opened, hn]
    · simp [runCtl, hi, commit, ctlAttempt, hg, ctlSrcs, hce, hhold, hlate, check_of_ctlOf hc, maskStackFails_opened, hn]

/-! ### PAGE (R358, R364, R366) -/

/-- No wait of a group is parked. -/
def NoneParked (s : State) (gid : Nat) : Prop := ∀ q, q ∈ s.reqs → q.gid = gid → q.isParked = true → ∀ v rem, q.op ≠ .waitGe v rem

theorem NoneParked.waitMet {s : State} {gid : Nat} (h : NoneParked s gid) {a n : Nat} {u : State} {q : Req} (hq : q ∈ s.reqs) (hk : q.gid = gid) :
    waitMet u a n q = false := by
  unfold Machine.waitMet
  split
  · next hop hphase _ => exact absurd hop (h q hq hk (by simp [Req.isParked, hphase]) _ _)
  · rfl

/-- A write leaves a group none of whose waits is parked as it is. -/
theorem devWrite_grp? {s : State} {gid : Nat} (hs : s.syn = []) (h : NoneParked s gid) (a : Nat) (bs : List Byte) :
    ((devWrite a bs).run s).grp? gid = s.grp? gid ∧ NoneParked ((devWrite a bs).run s) gid := by
  obtain ⟨u, hu⟩ : ∃ u : State, u = { s with mem := Memory.putBytes s.mem a bs } := ⟨_, rfl⟩
  have hrun : (devWrite a bs).run s = afterWrite a bs.length u := hu ▸ devWrite_run hs a bs
  have hreqs : u.reqs = s.reqs := hu ▸ rfl
  rw [hrun]
  constructor
  · rw [State.grp?_map (s := u) _ (Group.wokenBy_gid _) (afterWrite_groups a bs.length u)]
    have hgrp : u.grp? gid = s.grp? gid := hu ▸ rfl
    rw [hgrp]
    cases hg : s.grp? gid with
    | none => rfl
    | some g =>
      refine congrArg some (if_neg fun hmem => ?_)
      obtain ⟨q, hq, hk⟩ := List.mem_map.1 hmem
      obtain ⟨hqu, hmet⟩ := List.mem_filter.1 hq
      rw [h.waitMet (hreqs ▸ hqu) (hk.trans (State.grp?_gid hg))] at hmet
      exact absurd hmet (by decide)
  · intro q hq
    rw [afterWrite_reqs, hreqs] at hq
    exact h q (List.mem_filter.1 hq).1

theorem countEvent_grp? (p cls : Nat) (s : State) (gid : Nat) : (countEvent p cls s).grp? gid = s.grp? gid :=
  (congrArg (fun u : State => u.grp? gid) (countEvent_others p cls s) :)

theorem fqWrite_grp? {s : State} {gid : Nat} (hs : s.syn = []) (h : NoneParked s gid) (p : Nat) (e : Entry) :
    ((fqWrite p e).run s).grp? gid = s.grp? gid := by
  obtain ⟨hgrp, hnone⟩ := devWrite_grp? hs h ((s.part p).fq + 64 + 64 * (fqWritten s p % 512)) (wordsBytes e.words)
  have hgrp' := (devWrite_grp? (devWrite_syn hs _ _) hnone (s.part p).fq (wordBytes (BitVec.ofNat 64 (fqWritten s p + 1)))).1
  rw [fqWrite, Prog.run_dyn, Prog.run_all_cons, Prog.run_all_cons, Prog.run_all_cons, Prog.run_all_nil, devWriteWord]
  exact (countEvent_grp? p 0 _ gid).trans (hgrp'.trans hgrp)

/-- An entry that is written writes the same whatever its group waits for. -/
theorem fqWrite_mem_modGrp {s : State} (hs : s.syn = []) {p : Nat} (hheld : ¬fqHeld s p = true) (hfull : ¬fqFull s p = true) (e : Entry)
    (gid : Nat) (f : Group → Group) : ((fqWrite p e).run (s.modGrp gid f)).mem = ((fqEntry p e).run s).mem := by
  have hrun : (fqEntry p e).run (s.modGrp gid f) = (fqWrite p e).run (s.modGrp gid f) := by
    rw [fqEntry_run, if_neg (show ¬fqHeld (s.modGrp gid f) p = true from hheld), if_neg (show ¬fqFull (s.modGrp gid f) p = true from hfull)]
  rw [← hrun, fqEntry_mem (s := s.modGrp gid f) hs, fqEntry_mem hs]
  rfl

/-- Taking PAGE: the group goes back to the start of its region and parks on its entry, or until the entry can be written. -/
theorem raise_page {s : State} {g : Group} {r : Report} (hg : s.grp? g.gid = some g) (hr : r.cause = .page) (hs : s.syn = [])
    (h : NoneParked s g.gid) :
    ∃ hold, ((raise g.gid r).run s).grp? g.gid = some { g.rollback with hold := hold } ∧
      if fqHeld s g.part ∨ fqFull s g.part then hold = .pagePending ∧ ((raise g.gid r).run s).mem = s.mem ∧
        ((raise g.gid r).run s).parts = (s.modPart g.part fun q => { q with
          pendEntries := q.pendEntries ++ [(some g.gid, groupEntry s g r g.pc)] }).parts
      else hold = .page (fqWritten s g.part) ∧ ((raise g.gid r).run s).mem = ((fqEntry g.part (groupEntry s g r g.pc)).run s).mem := by
  have hraise : (raise g.gid r).run s = (raisePage g.gid r).run s := by
    simp only [raise, raiseAt, Prog.run_dyn, hg, hr, beq_self_eq_true, if_true]
  rw [hraise, raisePage, Prog.run_dyn, hg]
  by_cases hheld : fqHeld s g.part ∨ fqFull s g.part
  · have hcond : (fqHeld s g.part || fqFull s g.part) = true := by simpa using hheld
    dsimp only
    rw [if_pos hcond]
    refine ⟨.pagePending, ?_, (if_pos hheld).mpr ⟨rfl, rfl, rfl⟩⟩
    exact State.grp?_modGrp_self (s.modPart g.part _) g.gid (fun g => { g.rollback with hold := .pagePending }) g hg fun _ hx => hx
  · have hcond : ¬(fqHeld s g.part || fqFull s g.part) = true := by simpa using hheld
    dsimp only
    rw [if_neg hcond, Prog.run_all_cons, Prog.run_all_cons, Prog.run_all_nil]
    have hparked : (s.modGrp g.gid fun x => { x.rollback with hold := .page (fqWritten s g.part) }).grp? g.gid =
        some { g.rollback with hold := .page (fqWritten s g.part) } := State.grp?_modGrp_self s g.gid _ g hg fun _ hx => hx
    refine ⟨_, (fqWrite_grp? (s := s.modGrp g.gid _) hs h _ _).trans hparked, (if_neg hheld).mpr ⟨rfl, ?_⟩⟩
    exact fqWrite_mem_modGrp hs (fun hh => hheld (.inl hh)) (fun hh => hheld (.inr hh)) _ _ _

/-- PAGE at issue (R366). -/
theorem exec_cause_page {i : Instr} {h : Hdr} {s : State} {g : Group} {p : Plan} {r : Report} (hp : planOf i s = some (h, p))
    (hi : s.issuing = some g) (hready : ready s g h p = true) (hc : causeAt i s g h p = some r) (hr : r.cause = .page) (hs : s.syn = [])
    (hw : awakeWords s (p.touches s g (effLanes g h)) = true) (hn : NoneParked s g.gid) :
    ∃ t hold, exec i s = .next t ∧ t.grp? g.gid = some { g.rollback with hold := hold } ∧
      if fqHeld s g.part ∨ fqFull s g.part then hold = .pagePending ∧ t.mem = s.mem ∧
        t.parts = (s.modPart g.part fun q => { q with pendEntries := q.pendEntries ++ [(some g.gid, groupEntry s g r g.pc)] }).parts
      else hold = .page (fqWritten s g.part) ∧ t.mem = ((fqEntry g.part (groupEntry s g r g.pc)).run s).mem := by
  obtain ⟨-, hg, -, -⟩ := State.issuing_some hi
  have hb : r.byWalk = true := by simp [Report.byWalk, hr]
  have hexec := (exec_of_planOf hp).trans (runPlan_cause hi hready hc fun _ => hw)
  rw [if_pos hb, readTables_run hs] at hexec
  obtain ⟨hold, hgrp, hout⟩ := raise_page (s := markTables (dieOfCore g.core) (p.touches s g (effLanes g h)) s) (r := r) hg hr hs hn
  refine ⟨_, hold, hexec, hgrp, ?_⟩
  have hmark := fqEntry_mem_markTables hs (dieOfCore g.core) (p.touches s g (effLanes g h)) g.part (groupEntry s g r g.pc)
  by_cases hheld : fqHeld s g.part ∨ fqFull s g.part
  · exact (if_pos hheld).mpr ((if_pos hheld).mp hout)
  · obtain ⟨hhold, hmem⟩ := (if_neg hheld).mp hout
    exact (if_neg hheld).mpr ⟨hhold, hmem.trans hmark⟩

theorem not_waits_of_ready {s : State} {g : Group} {h : Hdr} {p : Plan} (hr : ready s g h p = true) {x : Src} (hx : x ∈ p.srcs) :
    x.waits g s.now = false := by
  cases hw : x.waits g s.now with
  | false => rfl
  | true =>
    have hany : (p.srcs.any fun x => x.waits g s.now) = true := List.any_eq_true.2 ⟨x, hx, hw⟩
    simp [ready, hany] at hr

/-- Settles O40: each cause as the order of R356 finds it, and what taking it leaves. -/
theorem causesReported : Obligations.CausesReported := by
  unfold Obligations.CausesReported
  refine ⟨fun i h s g p hp hready => ?_, fun i o s g p ho hp hfull hbad => ?_, fun i c s g p hc hp hfull hbad hnone => ?_,
    fun i h f aligned n s g p hc hp hfull hbad heff => ?_, fun i h f c s g hc => ?_, fun i h s g p r hp hi hready hc hr hs hw => ?_,
    fun w s g hi hf => ?_, fun i h s g p r hp hi hready hc hr hs hw hn => ?_⟩
  · have hcol := collective_of_planOf hp
    refine ⟨fun hc hm => causeAt_diverged (hcol.trans hc) hm, fun hm => ⟨fun pre x post hsrcs hpre hx => ⟨?_, ?_⟩, ?_⟩⟩
    · exact causeAt_emptyread (fun hc => hm (hcol ▸ hc)) hsrcs hpre hx
    · exact not_waits_of_ready hready (by simp [hsrcs])
    · exact fun hfull pre r eb post hsrcs hr hbad hpre => causeAt_uncorr (fun hc => hm (hcol ▸ hc)) hfull hsrcs hr hbad hpre
  · obtain ⟨hcol, hcheck⟩ := check_of_arithInstr ho hp
    have hmask : p.collective = true → g.active = g.live := by simp [hcol]
    refine ⟨fun pre x post lo n hi hsrcs hnames hpre hlo hw hn => ?_, fun hok => ?_⟩
    · have hfirst := formatCheck_first (i := i) (post := post) hnames hpre hlo hw
      rw [← hsrcs, tagReport_of_lt hn] at hfirst
      exact causeAt_of_check hmask hfull hbad (by rw [hcheck]; exact hfirst) nofun
    · exact causeAt_of_no_check hmask hfull hbad (by rw [hcheck]; exact formatCheck_none hok)
  · exact access_causes hc hp hfull hbad hnone
  · exact group_causes hc hp hfull hbad heff
  · refine ⟨check_of_ctlOf hc g, fun hi hhold hretry hs r hr => ⟨_, exec_ctl_cause hc hi hhold hretry hr, ?_⟩⟩
    refine raise_ends (State.issuing_some hi).2.1 ?_
    rcases hr with ⟨-, -, -, rfl⟩ | ⟨-, n, -, rfl⟩ <;> rfl
  · exact exec_cause_ends hp hi hready hc hr hs hw
  · exact ⟨_, exec_reservedMajor hi hf, raise_ends (State.issuing_some hi).2.1 rfl⟩
  · obtain ⟨t, hold, hexec, hgrp, hout⟩ := exec_cause_page hp hi hready hc hr hs hw hn
    exact ⟨t, _, hexec, hgrp, rfl, rfl, rfl, rfl, rfl, rfl, rfl, rfl, rfl, hout⟩

end Sys2Proof.Machine
end

section
/-! PROOFS. Per-group instructions that change one uniform register of their group and something beside the groups; `launch` (R40 to R43). -/

namespace Sys2Proof.Machine

set_option Elab.async false

/-! ### Instructions that answer in a uniform register -/

/-- A change of a group in its uniform registers only. -/
def OnlyUniforms (G : Group → Group) : Prop := ∀ x, G x = { x with sregs := (G x).sregs }

theorem onlyUniforms_setS (now r : Nat) (v : Word) : OnlyUniforms fun x => x.setS now r v := fun x => by
  unfold Group.setS
  split <;> rfl

theorem onlyUniforms_emptyS (r : Nat) : OnlyUniforms fun x => x.emptyS r := fun x => by
  unfold Group.emptyS
  split <;> rfl

theorem OnlyUniforms.quiet {G : Group → Group} (hG : OnlyUniforms G) : Quiet G :=
  ⟨fun x => by rw [hG x], fun x => by rw [hG x], fun x => by rw [hG x], fun x => by rw [hG x]⟩

/-- A group of which an instruction has changed one uniform register beside the bookkeeping of its issue. -/
theorem Issued.afterUniform {i : Instr} {s : State} {g g1 g' : Group} {h : Hdr} {p : Plan} (hS : Issued i s g g1 h p) (hv : touchedV p = [])
    {G : Group → Group} (hG : OnlyUniforms G) {sd : Nat} (hsd : ∀ r, r ≠ sd → (G g1).sreg r = g1.sreg r)
    (hcl : g' = G g1 ∨ g' = (G g1).closeRegion) : AfterIssue i g g' [] [sd] [] g.outst g.hold := by
  have hopen : AfterIssue i g (G g1) [] [sd] [] g.outst g.hold := by
    obtain ⟨hmasks, hstack, hplace, hcounts⟩ := hS.keeps
    obtain ⟨hdepths, houtst, hhold, hid⟩ := hS.work
    obtain ⟨hpc, hsig⟩ := hS.moves
    refine ⟨⟨fun n _ => ?_, fun r hr => ?_, fun r _ => ?_⟩, ?_, ?_, ?_, ?_, ?_, ?_⟩
    · have hn : n ∉ touchedV p := by simp [hv]
      rw [← hS.others n hn]
      exact Group.preg?_congr (by rw [hG g1]) (by rw [hG g1]) n
    · rw [hsd r (by simpa using hr), Group.sreg_congr hS.sregs]
    · exact Group.pred_congr (by rw [hG g1]; exact hS.preds) r
    all_goals rw [hG g1]
    · exact hS.fflags
    · exact ⟨hmasks, hstack, hplace, hcounts⟩
    · exact ⟨hdepths, rfl, rfl, hid⟩
    · exact houtst
    · exact hhold
    · exact ⟨hpc, hsig⟩
  rcases hcl with rfl | rfl
  · exact hopen
  · obtain ⟨⟨hvec, huni, hpred⟩, hflags, hkeeps, hwork, hcount, hwaits, hmoves⟩ := hopen
    exact ⟨⟨fun n hn => (Group.preg?_closeRegion _ n).trans (hvec n hn), huni, hpred⟩, hflags, hkeeps.closeRegion, ⟨hwork.depths, rfl, rfl, hwork.place⟩,
      hcount, hwaits, hmoves.closeRegion⟩

/-- The machine after the bookkeeping of an issue, in which the group of an identifier has become `g1`. -/
def State.booked (s : State) (gid : Nat) (g1 : Group) : State := { s.modGrp gid (fun _ => g1) with seq := s.seq + 1 }

/-- The next state of a per-group instruction whose effect `F` changes its group by `G`, beside what it does outside the groups. -/
theorem runPlan_effect {s : State} {g : Group} {i : Instr} {h : Hdr} {p : Plan} (hi : Issues s g i h p) (ha : p.acts = .group)
    (hn : effLanes g h ≠ 0) (ht : p.touches s g (effLanes g h) = []) {F : State → State} {G : Group → Group} (hG : Quiet G)
    (he : p.effect s (g.atIssue s h p) (effLanes g h) = .change F)
    (hF : ∀ g1, let u := s.booked g.gid g1
      (F u).groups = (u.modGrp g.gid G).groups ∧ (F u).mem = s.mem ∧ (F u).mgmt = s.mgmt) :
    ∃ t g1 g', runPlan i h p s = .next t ∧ t.grp? g.gid = some g' ∧ Issued i s g g1 h p ∧ (g' = G g1 ∨ g' = (G g1).closeRegion) ∧
      t = { F (s.booked g.gid g1) with groups := t.groups } ∧ ∀ k, k ≠ g.gid → t.grp? k = s.grp? k := by
  obtain ⟨-, hg, hl, -⟩ := State.issuing_some hi.issuing
  have hS := issued_spec i s g h p (effLanes g h)
  have hact : g.active ≠ 0 := by
    have := hi.ready
    simp only [Machine.ready, Bool.and_eq_true, bne_iff_ne] at this
    tauto
  have hdying : dying s g h p = 0 := by simp [dying, ha]
  have hacting : acting s g h p = effLanes g h := by
    unfold acting
    rw [hdying, show ~~~(0 : LaneMask) = BitVec.allOnes 64 from rfl, BitVec.and_allOnes]
  have hdoes : (p.acts == .lanes || effLanes g h != 0) = true := by rw [bne_iff_ne.2 hn, Bool.or_true]
  generalize hg1 : (g.atIssue s h p).issued i s p (effLanes g h) 0 = g1 at hS
  obtain ⟨u, hu⟩ : ∃ u, u = s.booked g.gid g1 := ⟨_, rfl⟩
  obtain ⟨hgroups, hmem, hmgmt⟩ := hF g1
  rw [← hu] at hgroups hmem hmgmt
  have hfound : (F u).grp? g.gid = some (G g1) := by
    have hgrp : (F u).grp? g.gid = (u.modGrp g.gid G).grp? g.gid := congrArg (List.find? _) hgroups
    have hself : u.grp? g.gid = some g1 := hu ▸ State.grp?_modGrp_self s g.gid (fun _ => g1) g hg fun _ _ => hS.gid
    rw [hgrp, State.grp?_modGrp_self u g.gid G g1 hself fun x hx => (hG.gid x).trans hx]
  have hother : ∀ k, k ≠ g.gid → (F u).grp? k = s.grp? k := fun k hk => by
    have hgrp : (F u).grp? k = (u.modGrp g.gid G).grp? k := congrArg (List.find? _) hgroups
    have hbook : u.grp? k = s.grp? k := hu ▸ State.grp?_modGrp_ne s g.gid k (fun _ => g1) (fun _ _ => hS.gid) hk
    rw [hgrp, State.grp?_modGrp_ne u g.gid k G (fun x hx => (hG.gid x).trans hx) hk, hbook]
  have hsettle := settle_active (closesAfter s g h p) hfound (by rw [hG.life, hS.life, hl]) (by rw [hG.live, hS.keeps.masks.2.1]; exact hi.alive)
    (by rw [hG.active, hS.keeps.masks.1]; exact hact)
  have hrun : runPlan i h p s = .next (if closesAfter s g h p then (F u).modGrp g.gid Group.closeRegion else F u) := by
    rw [runPlan_issues hi, ht, readTables_nil, perform_run, hdying, hacting, hdoes]
    simp only [bne_self_eq_false, Bool.false_eq_true, if_false, if_true, Prog.run_done, he, hg1]
    rw [← State.booked, ← hu, Prog.run_change F u (hmem.trans (hu ▸ rfl)) (hmgmt.trans (hu ▸ rfl)), Group.atIssue_gid, Prog.run_change _ _ (by rw [hsettle]; split <;> rfl) (by rw [hsettle]; split <;> rfl),
      hsettle]
  by_cases hc : closesAfter s g h p = true
  · rw [if_pos hc] at hrun
    exact ⟨_, g1, _, hrun, State.grp?_modGrp_self _ g.gid _ _ hfound fun _ hx => hx, hS, .inr rfl, hu ▸ rfl,
      fun k hk => (State.grp?_modGrp_ne _ g.gid k Group.closeRegion (fun _ hx => hx) hk).trans (hother k hk)⟩
  · rw [if_neg hc] at hrun
    exact ⟨_, g1, _, hrun, hfound, hS, .inl rfl, hu ▸ rfl, hother⟩

/-! ### launch (R40 to R43) -/

theorem SameMemory.of_same {s t : State} (hm : t.mem = s.mem) (hs : t.syn = s.syn) : SameMemory s t :=
  ⟨fun a _ => by simp only [devByte, devSyndrome, hm, hs], fun h => ⟨hm, hs.trans h⟩⟩

/-- The entry that `launch` takes at the port of its group's die (R41, R42). -/
def launchEntry (f : UR) (s : State) (g : Group) (id : Nat) : PortEntry where
  id := id
  die := dieOfCore g.core
  part := g.part
  gid := g.gid
  launch := g.launch
  team := g.team
  seq := s.seq
  task := bitsOf (g.s f.sa.toNat) 0 16
  teams := bitsOf (g.s f.sa.toNat) 16 20
  clsSel := (f.fn.extractLsb' 27 2).toNat
  cls := bitsOf (g.s f.sa.toNat) 36 2
  sa := f.sb.toNat
  window := (launchWindow f).map g.s
  sd := f.sd.toNat
  pc := g.pc
  drop := false
  held := none

/-- What `launch` does: it takes an entry, or is answered 1 at once. -/
def launchEffect (f : UR) (s : State) (g : Group) (t : State) : State :=
  if !mayClaim t 64 g.part (portUsed t (dieOfCore g.core)) then t.modGrp g.gid fun x => x.setS s.now f.sd.toNat 1
  else { t.modGrp g.gid fun x => x.emptyS f.sd.toNat with ports := t.ports ++ [launchEntry f s g t.nextId], nextId := t.nextId + 1 }

theorem planLaunch_effect (h : Hdr) (f : UR) (s : State) (g : Group) (m : LaneMask) :
    (planLaunch h f).effect s g m = .change (launchEffect f s g) := rfl

theorem launchEffect_atIssue (f : UR) (s : State) (g : Group) (h : Hdr) (p : Plan) :
    launchEffect f s (g.atIssue s h p) = launchEffect f s g := by
  have hentry (id : Nat) : launchEntry f s (g.atIssue s h p) id = launchEntry f s g id := by simp [launchEntry]
  funext t
  simp only [launchEffect, hentry, Group.atIssue_part, Group.atIssue_core, Group.atIssue_gid]

theorem touchedV_planLaunch (h : Hdr) (f : UR) : touchedV (planLaunch h f) = [] := by
  have hwindow (rs : List Nat) (eb : Bool) : lastNames (rs.map fun r => Src.s r eb) = [] := by
    simp [lastNames, List.filterMap_map]
  exact hwindow (f.sa.toNat :: launchWindow f) (f.fn.getLsbD 26)

section
variable {f : UR} {s : State} {g : Group}

/-- Where the port has an entry for the partition, `launch` takes it and marks its answer's register empty. -/
theorem launchEffect_takes (hc : mayClaim s 64 g.part (portUsed s (dieOfCore g.core)) = true) (g1 : Group) :
    launchEffect f s g (s.booked g.gid g1) = { (s.booked g.gid g1).modGrp g.gid fun x => x.emptyS f.sd.toNat with
      ports := s.ports ++ [launchEntry f s g s.nextId], nextId := s.nextId + 1 } := by
  have hclaim : mayClaim (s.booked g.gid g1) 64 g.part (portUsed (s.booked g.gid g1) (dieOfCore g.core)) = true := hc
  exact if_neg (by rw [hclaim]; decide)

/-- Else it answers 1 at once. -/
theorem launchEffect_refused (hc : mayClaim s 64 g.part (portUsed s (dieOfCore g.core)) = false) (g1 : Group) :
    launchEffect f s g (s.booked g.gid g1) = (s.booked g.gid g1).modGrp g.gid fun x => x.setS s.now f.sd.toNat 1 := by
  have hclaim : mayClaim (s.booked g.gid g1) 64 g.part (portUsed (s.booked g.gid g1) (dieOfCore g.core)) = false := hc
  exact if_pos (by rw [hclaim]; rfl)

/-- The fields of the entry that S[st] and the instruction give (R40, R41). -/
theorem launchEntry_fields (id : Nat) :
    let e := launchEntry f s g id
    let st := (g.s f.sa.toNat).toNat
    e.task = st % 65536 ∧ e.teams = st / 2 ^ 16 % 2 ^ 20 ∧ e.cls = st / 2 ^ 36 % 4 ∧ e.clsSel = f.fn.toNat / 2 ^ 27 % 4 := by
  refine ⟨?_, bitsOf_eq _ 16 20, bitsOf_eq _ 36 2, ?_⟩
  · exact (bitsOf_eq _ 0 16).trans (by rw [Nat.pow_zero, Nat.div_one]; rfl)
  · rw [launchEntry, BitVec.extractLsb'_toNat, Nat.shiftRight_eq_div_pow]

end

/-- Settles O20: `runPlan_effect` carries the bookkeeping of the issue, and `launchEffect` is what `launch` does with the port. -/
theorem launchTakesEntry : Obligations.LaunchTakesEntry := by
  unfold Obligations.LaunchTakesEntry
  intro h f s g hi hn
  have hexec : exec (.launch h f) s = runPlan (.launch h f) h (planLaunch h f) s := rfl
  have heffect := (planLaunch_effect h f s (g.atIssue s h (planLaunch h f)) (effLanes g h)).trans (by rw [launchEffect_atIssue])
  have hbelow := touchedV_planLaunch h f
  cases hclaim : mayClaim s 64 g.part (portUsed s (dieOfCore g.core)) with
  | true =>
    have htakes := launchEffect_takes (f := f) hclaim
    obtain ⟨t, g1, g', hrun, hg', hS, hcl, ht, hothers⟩ := runPlan_effect hi rfl hn rfl (onlyUniforms_emptyS f.sd.toNat).quiet heffect
      fun g1 => by dsimp only; rw [htakes]; exact ⟨rfl, rfl, rfl⟩
    have hafter := hS.afterUniform hbelow (onlyUniforms_emptyS f.sd.toNat) (fun r hr => by rw [Group.sreg_emptyS, if_neg fun hc => hr hc.2]) hcl
    have hsreg (r : Nat) : g'.sreg r = if f.sd.toNat ≠ 0 ∧ r = f.sd.toNat then { g.sreg f.sd.toNat with ready := none } else g.sreg r := by
      rw [← Group.sreg_congr hS.sregs, ← Group.sreg_congr hS.sregs r, ← Group.sreg_emptyS]
      rcases hcl with rfl | rfl <;> rfl
    have hemptied : Emptied g g' f.sd.toNat := by
      unfold Emptied
      split
      · next h0 => rw [hsreg, if_neg fun hc => hc.1 h0]
      · next h0 => rw [hsreg, if_pos ⟨h0, rfl⟩]
    obtain ⟨htask, hteams, hcls, hsel⟩ := launchEntry_fields (f := f) (s := s) (g := g) s.nextId
    rw [htakes] at ht
    exact ⟨t, g', hexec.trans hrun, hg', hafter, (if_pos rfl).mpr ⟨launchEntry f s g s.nextId,
      ⟨by rw [ht]; rfl, hothers, .of_same (by rw [ht]; rfl) (by rw [ht]; rfl)⟩, hemptied, rfl, rfl, rfl, rfl, rfl, rfl, rfl, htask, hteams,
      hcls, hsel, rfl, rfl, rfl, rfl, rfl, rfl⟩⟩
  | false =>
    have hrefused := launchEffect_refused (f := f) hclaim
    obtain ⟨t, g1, g', hrun, hg', hS, hcl, ht, hothers⟩ := runPlan_effect hi rfl hn rfl (onlyUniforms_setS s.now f.sd.toNat 1).quiet heffect
      fun g1 => by dsimp only; rw [hrefused]; exact ⟨rfl, rfl, rfl⟩
    have hafter := hS.afterUniform hbelow (onlyUniforms_setS s.now f.sd.toNat 1) (fun r hr => by rw [Group.sreg_setS, if_neg fun hc => hr hc.2]) hcl
    have hsreg : g'.sreg f.sd.toNat = (g1.setS s.now f.sd.toNat 1).sreg f.sd.toNat := by rcases hcl with rfl | rfl <;> rfl
    rw [hrefused] at ht
    refine ⟨t, g', hexec.trans hrun, hg', hafter, (if_neg Bool.false_ne_true).mpr
      ⟨⟨by rw [ht]; rfl, hothers, .of_same (by rw [ht]; rfl) (by rw [ht]; rfl)⟩, fun hsd => ?_⟩⟩
    rw [hsreg, Group.sreg_setS, if_pos ⟨fun h0 => hsd (BitVec.eq_of_toNat_eq h0), rfl⟩]

end Sys2Proof.Machine
end

section
/-! PROOFS. Acknowledgements (R49, R50), and waits that the wait table or a watch refused (R281, R282). -/

namespace Sys2Proof.Machine

set_option Elab.async false

/-! ### Groups that leave late (R50) -/

/-- Barriers that are released change only what groups wait for. -/
theorem releaseBars_kept (tid : Nat) (s : State) :
    (releaseBars tid s).groups.map Group.bare = s.groups.map Group.bare ∧ (releaseBars tid s).reqs = s.reqs :=
  Prod.mk.inj (foldl_keeps (fun u : State => (u.groups.map Group.bare, u.reqs)) _ (fun u n => by
    split
    · rfl
    · split
      · refine Prod.ext (List.map_map.trans (List.map_congr_left fun g _ => ?_)) rfl
        simp only [Function.comp_apply]
        split <;> rfl
      · rfl) (List.range 8) s)

theorem addLaunchCtr_groups (core lid n : Nat) (s : State) : (addLaunchCtr core lid n s).groups = s.groups := by
  unfold addLaunchCtr
  split <;> rfl

theorem addLaunchCtr_reqs (core lid n : Nat) (s : State) : (addLaunchCtr core lid n s).reqs = s.reqs := by
  unfold addLaunchCtr
  split <;> rfl

theorem exitGroup_reqs (j : Nat) (s : State) : (exitGroup j s).reqs = s.reqs := by
  unfold exitGroup
  split
  · rfl
  · split
    · exact (releaseBars_kept _ s).2
    · exact (releaseBars_kept _ _).2.trans (addLaunchCtr_reqs ..)

theorem KeepsNamed.exitGroup {j k : Nat} (hne : j ≠ k) (s : State) : KeepsNamed k s (exitGroup j s) := by
  unfold Machine.exitGroup
  split
  · exact rfl
  · next g _ =>
    split
    · exact .of_bare (releaseBars_kept _ s).1 k
    · have hctr : KeepsNamed k (s.modGrp j Group.leave) (addLaunchCtr g.core g.launch g.outst (s.modGrp j Group.leave)) :=
        .of_bare (by rw [addLaunchCtr_groups]) k
      exact ((KeepsNamed.modGrp_ne hne s (f := Group.leave) fun _ => rfl).trans hctr).trans (.of_bare (releaseBars_kept _ _).1 k)

theorem leaveLate_reqs (core : Nat) (s : State) : (leaveLate core s).reqs = s.reqs :=
  foldl_keeps State.reqs (fun u (g : Group) => exitGroup g.gid u) (fun u g => exitGroup_reqs g.gid u) _ s

/-- Groups that leave late leave a group with a live lane as it is, but for a barrier that it waits at. -/
theorem KeepsNamed.leaveLate {k : Nat} {s : State} (hlive : ∀ x, x ∈ s.groups → x.gid = k → x.live ≠ 0) (core : Nat) :
    KeepsNamed k s (leaveLate core s) := by
  have hfold (gs : List Group) (hgs : ∀ x, x ∈ gs → x.gid ≠ k) (u : State) :
      KeepsNamed k u (gs.foldl (fun u g => Machine.exitGroup g.gid u) u) := by
    induction gs generalizing u with
    | nil => exact rfl
    | cons g gs ih =>
      exact (KeepsNamed.exitGroup (hgs g List.mem_cons_self) u).trans (ih (fun x hx => hgs x (List.mem_cons_of_mem g hx)) _)
  refine hfold _ (fun x hx hk => ?_) s
  obtain ⟨hmem, hcond⟩ := List.mem_filter.1 hx
  exact hlive x hmem hk (by simpa using (Bool.and_eq_true_iff.1 hcond).2)

/-! ### An acknowledgement returns (R49) -/

/-- What an acknowledgement leaves: the request is gone, and the count falls where it was the last of its instruction. -/
theorem acknowledge_eq {s : State} {r : Req} (hr : s.req? r.id = some r) (hp : r.phase = .done) (hc : r.counted = true) :
    acknowledge r.id s = if ∀ o, o ∈ s.reqs → sameInstr o r = true → o.counted = true → o.id = r.id
      then leaveLate r.core (uncountOne r.gid r.core r.launch r.moved (finishReq r.id s)) else finishReq r.id s := by
  have hfind : s.reqs.find? (fun q => q.id == r.id) = some r := hr
  have hrest : ((finishReq r.id s).reqs.any fun o => sameInstr o r && o.counted) = false ↔
      ∀ o, o ∈ s.reqs → sameInstr o r = true → o.counted = true → o.id = r.id := by
    simp only [show (finishReq r.id s).reqs = s.reqs.filter fun q => q.id != r.id from rfl, List.any_eq_false, List.mem_filter, bne_iff_ne,
      Bool.and_eq_true]
    exact forall_congr' fun o => ⟨fun h hm hs hn => by_contra fun hne => h ⟨hm, hne⟩ ⟨hs, hn⟩, fun h hm hsn => hm.2 (h hm.1 hsn.1 hsn.2)⟩
  simp only [acknowledge, hfind, hp, hc, beq_self_eq_true, Bool.and_self, Bool.not_true, Bool.false_eq_true, if_false]
  by_cases hlast : ∀ o, o ∈ s.reqs → sameInstr o r = true → o.counted = true → o.id = r.id
  · rw [if_pos hlast, hrest.2 hlast, if_neg Bool.false_ne_true]
  · rw [if_neg hlast, if_pos (by simpa using mt hrest.1 hlast)]

/-- An acknowledgement of a group that is on its core (R49). -/
theorem acknowledge_counts {s : State} {r : Req} {g : Group} (hr : s.req? r.id = some r) (hp : r.phase = .done) (hc : r.counted = true)
    (hm : r.moved = false) (hg : s.grp? r.gid = some g) (hl : g.life = .resident) (hlive : ∀ x, x ∈ s.groups → x.gid = r.gid → x.live ≠ 0) :
    let t := acknowledge r.id s
    Answered t r ∧ ∃ g', t.grp? r.gid = some g' ∧ SameWork g g' ∧
      g'.outst = if ∀ o, o ∈ s.reqs → sameInstr o r = true → o.counted = true → o.id = r.id then g.outst - 1 else g.outst := by
  have hanswered := answered_finishReq r s
  intro t
  have ht : t = _ := acknowledge_eq hr hp hc
  split at ht
  · next hlast =>
    have hcount : uncountOne r.gid r.core r.launch r.moved (finishReq r.id s) =
        (finishReq r.id s).modGrp r.gid fun g => { g with outst := g.outst - 1 } := by
      have hfound : (finishReq r.id s).grp? r.gid = some g := hg
      simp [uncountOne, hfound, hl, hm]
    have hself := State.grp?_modGrp_self (finishReq r.id s) r.gid (fun g => { g with outst := g.outst - 1 }) g hg fun _ hx => hx
    rw [hcount] at ht
    obtain ⟨g', hg', hbare⟩ := (KeepsNamed.leaveLate (s := (finishReq r.id s).modGrp r.gid fun g => { g with outst := g.outst - 1 })
      (fun x hx hk => by
        obtain ⟨y, hy, rfl⟩ := List.mem_map.1 hx
        have hkept : (if y.gid == r.gid then { y with outst := y.outst - 1 } else y).gid = y.gid ∧
            (if y.gid == r.gid then { y with outst := y.outst - 1 } else y).live = y.live := by split <;> exact ⟨rfl, rfl⟩
        exact hkept.2 ▸ hlive y hy (hkept.1 ▸ hk)) r.core).grp? hself
    refine ⟨fun q hq => hanswered q ?_, g', ht ▸ hg', .trans (g' := { g with outst := g.outst - 1 }) (.refl g) (.of_bare hbare),
      (congrArg Group.outst hbare :).trans (if_pos hlast).symm⟩
    rwa [ht, leaveLate_reqs] at hq
  · next hlast => exact ⟨ht ▸ hanswered, g, ht ▸ hg, .refl g, (if_neg hlast).symm⟩

/-- Settles O45: `acknowledge_counts` for the acknowledgement; the other two change one group and one request. -/
theorem acknowledgementsAndRetries : Obligations.AcknowledgementsAndRetries := by
  unfold Obligations.AcknowledgementsAndRetries
  refine fun s => ⟨fun r g hr hp hc hm hg hl hlive => ?_, fun g hg hdue => ?_, fun r at_ hr hp hdue hroom => ?_⟩
  · obtain ⟨hanswered, g', hg', hsame, hcount⟩ := acknowledge_counts hr hp hc hm hg hl hlive
    exact ⟨(Prog.change (acknowledge r.id)).run s, g', rfl, hanswered, rfl, hg', hsame, hcount⟩
  · obtain ⟨retried, hf⟩ : ∃ f : Group → Group, f = fun x => if x.retryAt ≤ s.now then { x with retryAt := 0 } else x := ⟨_, rfl⟩
    have hgid (x : Group) : (retried x).gid = x.gid := by rw [hf]; dsimp only; split <;> rfl
    have hexec : exec (.waitTableRetry g.gid) s = .next (s.modGrp g.gid retried) := hf ▸ rfl
    have hself := State.grp?_modGrp_self s g.gid retried g hg fun x hx => (hgid x).trans hx
    rw [show retried g = { g with retryAt := 0 } by rw [hf]; exact if_pos hdue] at hself
    exact ⟨_, hexec, rfl, hself, fun k hk => State.grp?_modGrp_ne s g.gid k retried (fun x hx => (hgid x).trans hx) hk⟩
  · have hfind : s.reqs.find? (fun q => q.id == r.id) = some r := hr
    have hcond : (decide (at_ ≤ s.now) && decide (waitTable s r.core < 64)) = true := by simp [hdue, hroom]
    refine congrArg Host.Outcome.next (Prog.run_change_of_eq ?_ rfl rfl)
    simp only [hfind, hp, hcond, if_true]

end Sys2Proof.Machine
end

section
/-! PROOFS. Sends to a command endpoint, and the commands that stop and restart the task table (R35 to R38). -/

namespace Sys2Proof.Machine

set_option Elab.async false

/-! ### Writes where nothing waits -/

/-- A write where every byte may be written and nothing waits does nothing but write (R66, R231). -/
theorem agentWrite_only {s : State} (hs : s.syn = []) (hw : s.Inv) {a : Nat} {bs : List Byte} (hn : NoWaiter s a bs.length) :
    OnlyWrote s ((agentWrite a bs).run s) a bs := by
  obtain ⟨hfree, hreply, hwait⟩ := hn
  obtain ⟨u, hu⟩ : ∃ u : State, u = { s with mem := Memory.putBytes s.mem a bs } := ⟨_, rfl⟩
  have hmet : ∀ r ∈ s.reqs, waitMet u a bs.length r = false := fun r hr => by
    unfold waitMet
    split
    · next ho hk hp =>
      rcases hwait r hr _ _ _ _ _ ho hk hp with hsp | hapart
      · simp [hsp]
      · simp only [Bool.and_eq_false_iff, decide_eq_false_iff_not]
        tauto
    · rfl
  have hnone : s.reqs.filter (waitMet u a bs.length) = [] := List.filter_eq_nil_iff.2 fun r hr => by simp [hmet r hr]
  have hall : (s.reqs.filter fun r => !waitMet u a bs.length r) = s.reqs := List.filter_eq_self.2 fun r hr => by simp [hmet r hr]
  have hgroups : s.groups.map (Group.wokenBy []) = s.groups := List.map_id s.groups
  obtain ⟨tlb, il, pt, pc, hafter⟩ := afterWrite_eq a bs.length u
  rw [show u.reqs = s.reqs from hu ▸ rfl, show u.groups = s.groups from hu ▸ rfl, hnone, hall, hgroups] at hafter
  rw [agentWrite_run hs hfree hreply, ← hu]
  refine ⟨fun x => ?_, ?_⟩
  · rw [afterWrite_mem, hu]
    exact Memory.get_putBytes hw a x bs
  · rw [hafter, hu]

/-! ### A send arrives (R35) -/

/-- The machine after a message has been sent. -/
def State.said (s : State) (m : HostMsg) : State := { s with outbox := s.outbox ++ [m] }

theorem say_run (s : State) (m : HostMsg) : (Prog.change fun s => s.said m).run s = s.said m := Prog.run_change _ s rfl rfl

/-- The tag of the entry of a send whose length is wrong (log entry 71). -/
def sendTag (payload : List Byte) : BitVec 32 := BitVec.ofNat 32 (if payload.length < 8 then 0 else bytesNat (payload.take 4))

section
variable {s : State} {p : Nat} {payload : List Byte} (hr : reachesPart s p = true)
include hr

theorem exec_commandSend : exec (.commandSendArrival p payload) s = .next ((commandSend p payload).run s) :=
  congrArg Host.Outcome.next (by rw [if_pos hr])

theorem exec_send_busy (hb : (s.part p).state = .resetting ∨ 128 ≤ (s.part p).cmdCount) :
    exec (.commandSendArrival p payload) s = .next (s.said (.busy p)) := by
  have hcond : ((s.part p).state == .resetting || decide (128 ≤ (s.part p).cmdCount)) = true := by simpa using hb
  rw [exec_commandSend hr, commandSend, Prog.run_dyn]
  dsimp only
  rw [if_pos hcond]
  exact congrArg _ (say_run s (.busy p))

variable (hstate : (s.part p).state ≠ .resetting) (hroom : (s.part p).cmdCount < 128) (hm : s.mgmt.stopped = false)
include hstate hroom hm

theorem exec_send_wrong (hlen : ¬(commandNeeds payload ≤ payload.length ∧ payload.length ≤ 256)) :
    exec (.commandSendArrival p payload) s = .next ((launchFails p (.command (sendTag payload)) 0 1).run (s.said (.accepted p))) := by
  have hcond : ¬((s.part p).state == .resetting || decide (128 ≤ (s.part p).cmdCount)) = true := by
    simp only [Bool.or_eq_true, beq_iff_eq, decide_eq_true_eq, not_or]
    exact ⟨hstate, by omega⟩
  have hwrong : (decide (256 < payload.length) || decide (payload.length < commandNeeds payload)) = true := by
    simp only [Bool.or_eq_true, decide_eq_true_eq]
    omega
  have htag : (if payload.length < 8 then 0 else BitVec.ofNat 32 (bytesNat (payload.take 4))) = sendTag payload := by
    unfold sendTag
    split <;> rfl
  rw [exec_commandSend hr, commandSend, Prog.run_dyn]
  dsimp only
  rw [if_neg hcond, hm, if_neg Bool.false_ne_true, if_pos hwrong, htag, Prog.run_all_cons, Prog.run_all_cons, Prog.run_all_nil]
  rw [show (Prog.change fun s => { s with outbox := s.outbox ++ [.accepted p] }).run s = s.said (.accepted p) from say_run s (.accepted p)]

theorem exec_send_accepted (hlen : commandNeeds payload ≤ payload.length ∧ payload.length ≤ 256)
    (ha : awake s (nextSlot (s.part p)) payload.length = true) :
    exec (.commandSendArrival p payload) s = .next ((((agentWrite (nextSlot (s.part p)) payload).run s).modPart p fun q =>
      { q with cmdCount := q.cmdCount + 1 }).said (.accepted p)) := by
  have hcond : ¬((s.part p).state == .resetting || decide (128 ≤ (s.part p).cmdCount)) = true := by
    simp only [Bool.or_eq_true, beq_iff_eq, decide_eq_true_eq, not_or]
    exact ⟨hstate, by omega⟩
  have hright : ¬(decide (256 < payload.length) || decide (payload.length < commandNeeds payload)) = true := by
    simp only [Bool.or_eq_true, decide_eq_true_eq]
    omega
  rw [exec_commandSend hr, commandSend, Prog.run_dyn]
  dsimp only
  rw [if_neg hcond, hm, if_neg Bool.false_ne_true, if_neg hright, ha, if_neg (by decide), Prog.run_all_cons, Prog.run_all_cons, Prog.run_all_cons,
    Prog.run_all_nil, Prog.run_change (fun s => s.modPart p fun q => { q with cmdCount := q.cmdCount + 1 }) _ rfl rfl]
  exact congrArg _ (say_run _ (.accepted p))

end

/-- Settles O47: `exec_send_busy`, `exec_send_wrong` and `exec_send_accepted` for the sends, `takeCommand_run` for the commands. -/
theorem commandsActed : Obligations.CommandsActed := by
  unfold Obligations.CommandsActed
  intro s p hw hs
  refine ⟨fun payload hr => ⟨exec_send_busy hr, fun hstate hroom hm => ?_⟩, fun ht => ?_, fun ht => ?_, fun ht => ?_⟩
  · intro told slot tag
    split
    · next hlen =>
      intro hn ha
      refine ⟨_, exec_send_accepted hr hstate hroom hm hlen ha, ?_⟩
      obtain ⟨hbytes, hrest⟩ := agentWrite_only hs hw hn
      exact ⟨hbytes, by rw [show slot = nextSlot (s.part p) from rfl] at hrest; rw [hrest]; rfl⟩
    · next hlen => exact exec_send_wrong hr hstate hroom hm hlen
  · refine congrArg Host.Outcome.next ((takeCommand_run hs ht _).trans (Prog.run_change_of_eq ?_ rfl rfl))
    exact State.modPart_modPart s p (fun q => { q with tstop := true }) Part.nextCommand fun _ => rfl
  · refine congrArg Host.Outcome.next ((takeCommand_run hs ht _).trans (Prog.run_change_of_eq ?_ rfl rfl))
    exact State.modPart_modPart s p (fun q => { q with tstop := false }) Part.nextCommand fun _ => rfl
  · refine congrArg Host.Outcome.next ((takeCommand_run hs ht _).trans ?_)
    exact Prog.run_all_change (f := freeSlot p) _ (fun _ => rfl) (fun _ => rfl) s

end Sys2Proof.Machine
end

section
/-! PROOFS. A reset that frees the slot of a bin over a reply word of another partition's fault queue (R54, R329, R366). -/

namespace Sys2Proof.Machine

set_option Elab.async false

/-! ### The counterexample -/

/-- A group of partition 1 that is parked on entry 0 of its fault queue (R366). -/
def parkedGroup : Group where
  gid := 0
  team := 0
  launch := 0
  part := 1
  groupId := 0
  width := 16
  core := 0
  quadrant := 0
  slot := 0
  life := .resident
  hold := .page 0
  pc := 64
  active := 1
  live := 1
  dead := 0
  sregs := []
  preds := []
  cur := []
  ent := []
  pregs := []
  nextPid := 0
  resv := 0
  stack := []
  sig := 0xFFFF
  taken := false
  po := false
  poFirst := false
  depths := []
  fflags := 0
  replays := 0
  regionStart := 64
  regionFresh := true
  regionReads := []
  sigFailed := false
  ckpt := ⟨[], [], 1, 1, 0xFFFF, [], false, false, false⟩
  outst := 0
  fences := []
  xfences := []
  retryAt := 0
  stamp := 0
  admitted := 0

/-- A launch of slot 0 of a bin of partition 0; its busy bits (R327) lie at `sramBase + 120`, the reply word of entry 0 of the fault queue at
`sramBase`. -/
def binOverReply : Start where
  id := 1
  slice := 0
  part := 0
  task := 0
  teams := 1
  cls := none
  desc := []
  args := []
  source := .bin 0 (sramBase + 88) 0
  held := none

/-- Two partitions, of which the second has its fault queue at `sramBase`; slots 0 and 1 of the bin are busy. -/
def resetOverReply : State := { State.reset with
  mem := [(sramBase + 120, 3)]
  parts := [{ Part.unset 0 with state := .running, fq := sramBase + 0x10000 }, { Part.unset 1 with state := .running, fq := sramBase }]
  groups := [parkedGroup]
  binLaunches := [binOverReply]
  mgmt := { Mgmt.reset with stage := .halone, ready := BitVec.allOnes 256, session := .opened 0 ⟨0, 0, 0⟩ } }

/-- Where the group of an identifier stands after a step. -/
def lifeAfter (o : Host.Outcome State Fault Refusal) (gid : Nat) : Option Life :=
  match o with
  | .next t => (t.grp? gid).map Group.life
  | _ => none

/-- The freed slot leaves the word 2, which the group takes as the reply that ends its launch (R366). -/
theorem resetOverReply_ends : lifeAfter (exec (.managementResetPartition 0) resetOverReply) 0 = some .gone := by decide +kernel

/-- Refutes O51: a reset frees the slots of the bins whose launches it drops, and where the slot's word is the reply word of an entry that a
group of another partition is parked on, the group takes the word as its reply. -/
theorem not_partitionResets : ¬Obligations.PartitionResets := by
  unfold Obligations.PartitionResets
  intro h
  obtain ⟨hreset, -⟩ := h resetOverReply 0
  have hcommand : resetOverReply.mgmt.stage = .halone ∧ inSession resetOverReply = true ∧ resetOverReply.mgmt.waiting = [] ∧
      configured resetOverReply 0 = true ∧ (resetOverReply.part 0).state ≠ .resetting := by decide +kernel
  obtain ⟨hstage, hsession, hwaiting, hconf, hstate⟩ := hcommand
  have hawake : sourceAwake resetOverReply binOverReply.source = true := by decide +kernel
  obtain ⟨t, hexec, -, -, -, -, -, -, -, -, -, -, -, -, -, -, -, hothers, -⟩ := hreset (.managementResetPartition 0) resetOverReply
    (.inr ⟨rfl, hstage, hsession, hwaiting, hconf, hstate, rfl⟩) fun src hsrc => by
      rcases hsrc with ⟨x, hx, -, rfl⟩ | ⟨l, hl, -⟩
      · obtain rfl := List.mem_singleton.1 hx
        exact hawake
      · exact absurd hl List.not_mem_nil
  obtain ⟨g', hg', hsame⟩ := hothers 0 parkedGroup rfl (by decide)
  obtain ⟨-, -, -, -, -, -, hlife : g'.life = .resident, -⟩ := hsame
  have hends := resetOverReply_ends
  rw [hexec, lifeAfter, hg', Option.map_some, hlife] at hends
  exact absurd hends (by decide)

end Sys2Proof.Machine
end

section
/-! PROOFS. Event timers (R52) and the watchdog, with what the ends of several launches leave (R284, R285, R362). -/

namespace Sys2Proof.Machine

set_option Elab.async false

/-! ### Event timers (R52) -/

/-- A timer that has run out sends the message of its class. -/
theorem exec_eventTimerExpiry {s : State} {p cls : Nat} {e : EvClass} (he : (s.part p).events[cls]? = some e) (ht : e.timer = some 0)
    (hc : e.count ≠ 0) (hm : maySend s (s.part p) cls = true) : exec (.eventTimerExpiry p cls) s = .next (sendEvent p cls s) := by
  have hcond : (e.timer == some 0 && e.count != 0 && maySend s (s.part p) cls) = true := by simp [ht, hc, hm]
  have hmem : (sendEvent p cls s).mem = s.mem := (congrArg State.mem (sendEvent_others p cls s) :)
  refine congrArg Host.Outcome.next (Prog.run_change_of_eq ?_ hmem (State.mgmt_of_others (sendEvent_others p cls s)))
  simp only [he, hcond, if_true]

theorem sendEvent_of_some {s : State} {p cls : Nat} {e : EvClass} (he : (s.part p).events[cls]? = some e) :
    let oldest : Word := if cls = 0 then BitVec.ofNat 64 ((s.part p).oldest.getD 0) else 0
    sendEvent p cls s = { s with
      parts := s.parts.map fun q =>
        if q.num = p then
          { q with
            events := q.events.set cls { e with count := 0, timer := none }
            oldest := if cls = 0 then none else q.oldest }
        else q
      outbox := s.outbox ++ [.event p (BitVec.ofNat 64 (cls * 2 ^ 56 + p * 2 ^ 48 + e.count)) oldest] } := by
  simp only [sendEvent, he, State.modPart, eventMsg, beq_iff_eq]

/-! ### The ends of several launches (R362) -/

theorem forgetOwed_unread (lid : Nat) (s : State) : (forgetOwed lid s).groups.map Group.unread = s.groups.map Group.unread := by
  rw [forgetOwed, List.map_map]
  refine List.map_congr_left fun g _ => ?_
  simp only [Function.comp_apply]
  split <;> rfl

/-- A launch that has ended stays so while another one ends. -/
theorem LaunchEnded.endLaunch {s : State} {l : Nat} (h : LaunchEnded s l) (lid : Nat) : LaunchEnded (endLaunch lid s) l := by
  obtain ⟨hgroups, hteams, hlaunches⟩ := h
  obtain ⟨a, u, ha, hu, hlaunches', hctrs, hteams', hgroups'⟩ := endLaunch_eq lid s
  refine ⟨fun x hx hl hres => ?_, fun x hx hl => ?_, fun m hm hml => ?_⟩
  · have hxu : x ∈ u.groups := (List.mem_filter.1 (hgroups' ▸ hx)).1
    obtain ⟨x', hx', hsame⟩ := List.mem_map.1 (hu.groups ▸ List.mem_map_of_mem (f := Group.unread) hxu)
    obtain ⟨y, hy, hxy, -⟩ := resident_endGroups _ hx' ((congrArg Group.life hsame).trans hres)
    have hread : a.groups.map Group.unread = s.groups.map Group.unread := ha ▸ forgetOwed_unread lid _
    obtain ⟨z, hz, hzy⟩ := List.mem_map.1 (hread ▸ List.mem_map_of_mem (f := Group.unread) hy)
    have hkept : (z.launch, z.life, z.core, z.outst) = (x.launch, x.life, x.core, x.outst) := by
      have hzy' := congrArg (fun g : Group => (g.launch, g.life, g.core, g.outst)) hzy
      have hyx' : (y.launch, y.life, y.core, y.outst) = (x'.launch, x'.life, x'.core, x'.outst) := by rcases hxy with rfl | rfl <;> rfl
      exact hzy'.trans (hyx'.trans (congrArg (fun g : Group => (g.launch, g.life, g.core, g.outst)) hsame :))
    obtain ⟨hzl, hzr, hzc, hzo⟩ : z.launch = x.launch ∧ z.life = x.life ∧ z.core = x.core ∧ z.outst = x.outst := by simpa using hkept
    obtain ⟨hlive, hactive, hhold, hfull⟩ := hgroups z hz (hzl.trans hl) (hzr.trans hres)
    have hstill : x'.live = 0 ∧ x'.active = 0 ∧ x'.hold = .none := by
      rcases hxy with rfl | rfl
      · exact ⟨(congrArg Group.live hzy).symm.trans hlive, (congrArg Group.active hzy).symm.trans hactive, (congrArg Group.hold hzy).symm.trans hhold⟩
      · exact ⟨rfl, rfl, rfl⟩
    obtain ⟨hlive', hactive', hhold'⟩ := hstill
    refine ⟨(congrArg Group.live hsame).symm.trans hlive', (congrArg Group.active hsame).symm.trans hactive',
      (congrArg Group.hold hsame).symm.trans hhold', ?_⟩
    rw [ctrTakes_congr (hctrs.trans hu.counters), ← hzc, ← hzo]
    exact ctrTakes_foldl_endGroup _ a _ _ _ ((ctrTakes_congr (ha ▸ rfl) _ _ _).trans hfull)
  · have hxu : x ∈ u.teams := (List.mem_filter.1 (hteams' ▸ hx)).1
    rw [hu.teams, (endGroups_rest _ a).2, ha] at hxu
    obtain ⟨y, hy, -, hyl, hstatus⟩ := mem_forgetOwed_teams hxu
    exact hstatus ▸ hteams y hy (hyl.trans hl)
  · rw [hlaunches', hu.launches, (endGroups_rest _ a).1, ha] at hm
    obtain ⟨k, hk, rfl⟩ := List.mem_map.1 hm
    split at hml
    · next hlid => simp [hlid]
    · next hlid => simpa [hlid] using hlaunches k hk hml

/-- Some launches end, one after another. -/
def endLaunches (ls : List Nat) (s : State) : State := ls.foldl (fun s l => endLaunch l s) s

theorem LaunchEnded.endLaunches {s : State} {l : Nat} (h : LaunchEnded s l) (ls : List Nat) : LaunchEnded (endLaunches ls s) l := by
  induction ls generalizing s with
  | nil => exact h
  | cons m ls ih => exact ih (h.endLaunch m)

theorem launchEnded_endLaunches {l : Nat} {ls : List Nat} (hl : l ∈ ls) (s : State) : LaunchEnded (endLaunches ls s) l := by
  induction ls generalizing s with
  | nil => exact absurd hl List.not_mem_nil
  | cons m ls ih =>
    rcases List.mem_cons.1 hl with rfl | hl
    · exact (launchEnded_endLaunch l s).endLaunches ls
    · exact ih hl _

/-- A group of an identifier and the teams of an identifier are of other launches. -/
structure Elsewhere (s : State) (gid tid lid : Nat) : Prop where
  groups : ∀ x, x ∈ s.groups → x.gid = gid → x.launch ≠ lid
  teams : ∀ x, x ∈ s.teams → x.tid = tid → x.launch ≠ lid

theorem Elsewhere.of_work {s u : State} (hw : u.work = s.work) {k tid lid : Nat} (h : Elsewhere s k tid lid) : Elsewhere u k tid lid := by
  obtain ⟨hteams, hgroups⟩ := Prod.mk.inj hw
  refine ⟨fun x hx hk hl => ?_, fun x hx => h.teams x (hteams ▸ hx)⟩
  obtain ⟨y, hy, hxy⟩ := List.mem_map.1 (hgroups ▸ List.mem_map_of_mem (f := Group.bare) hx)
  exact h.groups y hy ((congrArg Group.gid hxy).trans hk) ((congrArg Group.launch hxy).trans hl)

/-- The end of a launch makes no group and no team. -/
theorem Elsewhere.endLaunch {s : State} {k tid l : Nat} (h : Elsewhere s k tid l) (lid : Nat) : Elsewhere (endLaunch lid s) k tid l := by
  obtain ⟨a, u, ha, hu, -, -, hteams, hgroups⟩ := endLaunch_eq lid s
  constructor
  · intro x hx hk hl
    have hends (s : State) (g : Group) : ((endGroup s g).groups.map fun x => (x.gid, x.launch)) = s.groups.map fun x => (x.gid, x.launch) := by
      have hmap (f : Group → Group) (hf : ∀ x, (f x).gid = x.gid ∧ (f x).launch = x.launch) :
          ((s.modGrp g.gid f).groups.map fun x => (x.gid, x.launch)) = s.groups.map fun x => (x.gid, x.launch) := by
        refine List.map_map.trans (List.map_congr_left fun x _ => ?_)
        simp only [Function.comp_apply]
        split
        · rw [(hf x).1, (hf x).2]
        · rfl
      unfold endGroup
      split
      · rw [addLaunchCtr_groups]
        exact hmap Group.leave fun _ => ⟨rfl, rfl⟩
      · exact hmap _ fun _ => ⟨rfl, rfl⟩
    have howners (gs hs : List Group) (he : gs.map Group.unread = hs.map Group.unread) :
        (gs.map fun x => (x.gid, x.launch)) = hs.map fun x => (x.gid, x.launch) := by
      have := congrArg (List.map fun x : Group => (x.gid, x.launch)) he
      rwa [List.map_map, List.map_map] at this
    have hsame : (u.groups.map fun x => (x.gid, x.launch)) = s.groups.map fun x => (x.gid, x.launch) :=
      ((howners _ _ hu.groups).trans (foldl_keeps (fun u : State => u.groups.map fun x => (x.gid, x.launch)) endGroup hends _ a)).trans
        (howners _ _ (ha ▸ forgetOwed_unread lid _))
    obtain ⟨y, hy, hxy⟩ := List.mem_map.1 (hsame ▸ List.mem_map_of_mem (f := fun x : Group => (x.gid, x.launch))
      (List.mem_filter.1 (hgroups ▸ hx)).1)
    obtain ⟨hgid, hlaunch⟩ := Prod.mk.inj hxy
    exact h.groups y hy (hgid.trans hk) (hlaunch.trans hl)
  · intro x hx hk hl
    have hxu : x ∈ u.teams := (List.mem_filter.1 (hteams ▸ hx)).1
    rw [hu.teams, (endGroups_rest _ a).2, ha] at hxu
    obtain ⟨y, hy, hytid, hyl, -⟩ := mem_forgetOwed_teams hxu
    exact h.teams y hy (hytid.trans hk) (hyl.trans hl)

/-- The ends of some launches leave the work of a group of none of them. -/
theorem endLaunches_sameWork (ls : List Nat) {s : State} {k : Nat} {g : Group} (hg : s.grp? k = some g)
    (h : ∀ l, l ∈ ls → Elsewhere s k g.team l) : ∃ g', (endLaunches ls s).grp? k = some g' ∧ SameWork g g' := by
  induction ls generalizing s g with
  | nil => exact ⟨g, hg, .refl g⟩
  | cons l ls ih =>
    have hl := h l List.mem_cons_self
    obtain ⟨g1, hg1, hsame⟩ := otherLaunches_endLaunch l s k g hg hl.groups hl.teams
    have hteam : g1.team = g.team := hsame.2.2.2.2.2.2.2.1
    obtain ⟨g', hg', hsame'⟩ := ih hg1 fun m hm => hteam ▸ (h m (List.mem_cons_of_mem l hm)).endLaunch l
    exact ⟨g', hg', hsame.trans hsame'⟩

/-! ### The watchdog (R284, R285) -/

/-- The groups that the watchdog of a partition finds parked. -/
def wdHit (s : State) (p : Nat) : List Group := s.groups.filter fun g => g.part == p && g.life == .resident && parkedNoRem s g

theorem mem_wdHit {s : State} {p : Nat} {g : Group} :
    g ∈ wdHit s p ↔ g ∈ s.groups ∧ g.part = p ∧ g.life = .resident ∧ parkedNoRem s g = true := by
  simp [wdHit, and_assoc]

/-- The entry that the watchdog of a partition writes (R285, R360). -/
def wdEntry (s : State) (p : Nat) : Prog := logEntry p ⟨.watchdog, 0, 0, 0, BitVec.ofNat 64 (s.part p).wdPeriod, 0, 0⟩

theorem exec_watchdogFire {s : State} {p : Nat} (hd : wdDue s p = true) :
    exec (.watchdogFire p) s = .next ((Prog.change fun u => (endLaunches ((wdHit s p).map Group.launch).eraseDups u).modPart p fun q =>
      { q with wdCounts := [0, 0, 0, 0] }).run ((wdEntry s p).run s)) := by
  refine congrArg Host.Outcome.next ?_
  rw [Prog.run_dyn, hd, if_neg (by decide), Prog.run_all_cons, Prog.run_all_cons, Prog.run_all_nil]
  rfl

/-- A watchdog that is due (R285). -/
theorem watchdogFire_ends {s : State} {p : Nat} (hd : wdDue s p = true) :
    let hit := fun (g : Group) => g ∈ s.groups ∧ g.part = p ∧ g.life = .resident ∧ parkedNoRem s g = true
    ∃ t, exec (.watchdogFire p) s = .next t ∧
      t.mem = ((logEntry p ⟨.watchdog, 0, 0, 0, BitVec.ofNat 64 (s.part p).wdPeriod, 0, 0⟩).run s).mem ∧
      (∀ g, hit g → LaunchEnded t g.launch) ∧ (∀ q, q ∈ t.parts → q.num = p → q.wdCounts = [0, 0, 0, 0]) ∧
      ∀ k x, s.grp? k = some x →
        (∀ g, hit g → (∀ y, y ∈ s.groups → y.gid = k → y.launch ≠ g.launch) ∧ ∀ y, y ∈ s.teams → y.tid = x.team → y.launch ≠ g.launch) →
        ∃ x', t.grp? k = some x' ∧ SameWork x x' := by
  have hmem (l : Nat) : l ∈ ((wdHit s p).map Group.launch).eraseDups ↔ ∃ g, g ∈ wdHit s p ∧ g.launch = l := by
    rw [List.mem_eraseDups, List.mem_map]
  refine ⟨_, exec_watchdogFire hd, rfl, fun g hg => ?_, fun q hq hn => ?_, fun k x hx hother => ?_⟩
  · exact launchEnded_endLaunches ((hmem _).2 ⟨g, mem_wdHit.2 hg, rfl⟩) _
  · obtain ⟨q0, -, rfl⟩ := List.mem_map.1 hq
    split at hn
    · next hp => simp [hp]
    · next hp => simp [hn] at hp
  · have hwork : ((wdEntry s p).run s).work = s.work := keepsWork_fqEntry _ _ s
    obtain ⟨x1, hx1, hbare⟩ := (KeepsNamed.of_bare (Prod.mk.inj hwork).2 k).grp? hx
    have hteam : x1.team = x.team := (congrArg Group.team hbare :)
    obtain ⟨x', hx', hsame⟩ := endLaunches_sameWork _ hx1 fun l hl => by
      obtain ⟨g, hg, rfl⟩ := (hmem l).1 hl
      obtain ⟨hgroups, hteams⟩ := hother g (mem_wdHit.1 hg)
      exact hteam ▸ Elsewhere.of_work hwork ⟨hgroups, hteams⟩
    exact ⟨x', hx', (SameWork.of_bare hbare).trans hsame⟩

end Sys2Proof.Machine
end

section
/-! PROOFS. Writes whatever the check codes, and the entries of a fault queue that waited (R358, R366, R367). -/

namespace Sys2Proof.Machine

set_option Elab.async false

/-! ### Programs over device memory and its check codes -/

/-- A state with other device memory, check codes and count of corrections. -/
def State.stored (s : State) (m : List Host.Cell) (syn : List (Nat × Nat)) (c : Nat) : State := { s with mem := m, syn := syn, corrected := c }

/-- Device memory with its check codes. -/
def State.store (s : State) : List Host.Cell × List (Nat × Nat) := (s.mem, s.syn)

/-- A program changes at most device memory, check codes and the count of corrections, and what it makes of the first two depends on them
alone. -/
def Prog.OnStore (p : Prog) : Prop :=
  ∀ s u, u.store = s.store → ∃ m syn c d, p.run s = s.stored m syn c ∧ p.run u = u.stored m syn d

theorem Prog.onStore_done : Prog.OnStore .done := fun s u h => by
  obtain ⟨hm, hs⟩ := Prod.mk.inj h
  exact ⟨s.mem, s.syn, s.corrected, u.corrected, rfl, by rw [← hm, ← hs]; rfl⟩

theorem Prog.onStore_pokes (a : Nat) (bs : List Byte) : (Prog.pokes a bs).OnStore := fun s u h => by
  obtain ⟨hm, hs⟩ := Prod.mk.inj h
  refine ⟨Memory.putBytes s.mem a bs, s.syn, s.corrected, u.corrected, Prog.run_pokes a bs s, ?_⟩
  rw [Prog.run_pokes, ← hm, ← hs]
  rfl

theorem Prog.onStore_dyn {f : State → Prog} (hf : ∀ s u, u.store = s.store → f u = f s) (h : ∀ s, (f s).OnStore) : (Prog.dyn f).OnStore :=
  fun s u hsu => by
    rw [Prog.run_dyn, Prog.run_dyn, hf s u hsu]
    exact h s s u hsu

theorem Prog.onStore_all {ps : List Prog} (h : ∀ p ∈ ps, p.OnStore) : (Prog.all ps).OnStore := by
  induction ps with
  | nil => exact Prog.onStore_done
  | cons p ps ih =>
    intro s u hsu
    obtain ⟨m, syn, c, d, hs, hu⟩ := h p List.mem_cons_self s u hsu
    obtain ⟨m', syn', c', d', hs', hu'⟩ := ih (fun q hq => h q (List.mem_cons_of_mem _ hq)) (s.stored m syn c) (u.stored m syn d) rfl
    exact ⟨m', syn', c', d', by rw [Prog.run_all_cons, hs, hs']; rfl, by rw [Prog.run_all_cons, hu, hu']; rfl⟩

/-- A change of check codes that depends on memory and check codes alone. -/
theorem Prog.onStore_change {f : State → State} (g : State → List (Nat × Nat)) (hf : ∀ s, f s = s.stored s.mem (g s) s.corrected)
    (hg : ∀ s u, u.store = s.store → g u = g s) : (Prog.change f).OnStore := fun s u h => by
  refine ⟨s.mem, g s, s.corrected, u.corrected, Prog.run_change_of_eq (hf s) rfl rfl, Prog.run_change_of_eq ?_ (Prod.mk.inj h).1.symm rfl⟩
  rw [hf u, hg s u h, (Prod.mk.inj h).1]

theorem devSyndrome_congr {s u : State} (h : u.store = s.store) (w : Nat) : devSyndrome u w = devSyndrome s w := by
  rw [devSyndrome, (Prod.mk.inj h).2]
  rfl

theorem fixWords_congr {s u : State} (h : u.store = s.store) (ws : List Nat) : fixWords u ws = fixWords s ws := by
  unfold fixWords
  rw [(Prod.mk.inj h).1]
  exact congrArg Prog.all (List.map_congr_left fun w _ => by rw [devSyndrome_congr h])

/-- A word is corrected. -/
theorem onStore_fixWords (s : State) (ws : List Nat) : (fixWords s ws).OnStore := by
  refine Prog.onStore_all fun p hp => ?_
  obtain ⟨w, -, rfl⟩ := List.mem_map.1 hp
  split
  · next i _ =>
    intro u v h
    obtain ⟨hm, hs⟩ := Prod.mk.inj h
    refine ⟨_, synSet u.syn w 0, u.corrected + 1, v.corrected + 1, rfl, ?_⟩
    rw [← hm, ← hs]
    rfl
  · exact Prog.onStore_done

/-- The check codes of the words of some lines after the lines are poisoned (R369). -/
def poisonedSyn (lines : List Nat) (syn : List (Nat × Nat)) : List (Nat × Nat) :=
  lines.foldl (fun y l => (wordsOf l 64).foldl (fun y w => synSet y w (if inSram w then 0xFF else 0xFFFF)) y) syn

/-- The lines of the uncorrectable words among some words (R369). -/
def badLinesOf (ws : List Nat) (s : State) : List Nat :=
  ws.filterMap fun w => if devSyndrome s w == .uncorrectable then some (w / 64 * 64) else none

theorem poisonLines_eq (ws : List Nat) (s : State) :
    poisonLines ws s = s.stored s.mem (poisonedSyn (badLinesOf ws s) s.syn) s.corrected := by
  let coded (y : List (Nat × Nat)) : State := s.stored s.mem y s.corrected
  have hword (ws : List Nat) (y : List (Nat × Nat)) :
      ws.foldl (fun u w => { u with syn := synSet u.syn w (if inSram w then 0xFF else 0xFFFF) }) (coded y) =
        coded (ws.foldl (fun y w => synSet y w (if inSram w then 0xFF else 0xFFFF)) y) := List.foldl_hom coded fun y w => rfl
  exact List.foldl_hom coded (l := badLinesOf ws s) (init := s.syn) fun y l => hword (wordsOf l 64) y

theorem onStore_readWords (ws : List Nat) : (readWords ws).OnStore := by
  refine Prog.onStore_dyn (fun s u h => ?_) fun s => ?_
  · rw [(Prod.mk.inj h).2, fixWords_congr h]
  · split
    · exact Prog.onStore_done
    · refine Prog.onStore_all fun p hp => ?_
      simp only [List.mem_cons, List.not_mem_nil, or_false] at hp
      rcases hp with rfl | rfl
      · exact onStore_fixWords s ws
      · refine Prog.onStore_change (fun s => poisonedSyn (badLinesOf ws s) s.syn) (poisonLines_eq ws) fun s u h => ?_
        rw [(Prod.mk.inj h).2]
        exact congrArg (poisonedSyn · s.syn) (List.filterMap_congr fun w _ => by rw [devSyndrome_congr h])

theorem onStore_writeSyn (a n : Nat) : (Prog.change (writeSyn a n)).OnStore := by
  refine Prog.onStore_change (fun s => (writeSyn a n s).syn) (fun s => ?_) fun s u h => ?_
  · unfold writeSyn
    split <;> rfl
  · unfold writeSyn
    simp only [devSyndrome_congr h, (Prod.mk.inj h).2]
    split
    · exact (Prod.mk.inj h).2
    · rfl

/-- A write, whatever the check codes: other memory and check codes, and what follows from the write. -/
theorem devWrite_stored {s u : State} (h : u.store = s.store) (a : Nat) (bs : List Byte) :
    ∃ m syn c d, (devWrite a bs).run s = afterWrite a bs.length (s.stored m syn c) ∧
      (devWrite a bs).run u = afterWrite a bs.length (u.stored m syn d) := by
  have hstore : (Prog.all [readWords (partWords a bs.length), .change (writeSyn a bs.length), Prog.pokes a bs]).OnStore := by
    refine Prog.onStore_all fun p hp => ?_
    simp only [List.mem_cons, List.not_mem_nil, or_false] at hp
    rcases hp with rfl | rfl | rfl
    · exact onStore_readWords _
    · exact onStore_writeSyn _ _
    · exact Prog.onStore_pokes _ _
  have hsplit (v : State) : (devWrite a bs).run v = afterWrite a bs.length
      ((Prog.all [readWords (partWords a bs.length), .change (writeSyn a bs.length), Prog.pokes a bs]).run v) := by
    simp only [devWrite, Prog.run_all_cons, Prog.run_all_nil]
    exact Prog.run_change _ _ (afterWrite_mem ..) (afterWrite_mgmt ..)
  obtain ⟨m, syn, c, d, hs, hu⟩ := hstore s u h
  exact ⟨m, syn, c, d, by rw [hsplit, hs], by rw [hsplit, hu]⟩

theorem devWrite_store {s u : State} (h : u.store = s.store) (a : Nat) (bs : List Byte) :
    ((devWrite a bs).run u).store = ((devWrite a bs).run s).store := by
  obtain ⟨m, syn, c, d, hs, hu⟩ := devWrite_stored h a bs
  rw [hs, hu, State.store, State.store, afterWrite_mem, afterWrite_mem, afterWrite_syn, afterWrite_syn]
  rfl

theorem devWrite_parts (s : State) (a : Nat) (bs : List Byte) : ((devWrite a bs).run s).parts = s.parts := by
  obtain ⟨m, syn, c, -, hs, -⟩ := devWrite_stored (s := s) rfl a bs
  rw [hs, afterWrite_parts]
  rfl

/-- What follows from a write leaves a group none of whose waits is parked as it is. -/
theorem NoneParked.afterWrite {s : State} {gid : Nat} (h : NoneParked s gid) (a n : Nat) :
    (afterWrite a n s).grp? gid = s.grp? gid ∧ NoneParked (afterWrite a n s) gid := by
  constructor
  · rw [State.grp?_map (s := s) _ (Group.wokenBy_gid _) (afterWrite_groups a n s)]
    cases hg : s.grp? gid with
    | none => rfl
    | some g =>
      refine congrArg some (if_neg fun hmem => ?_)
      obtain ⟨q, hq, hk⟩ := List.mem_map.1 hmem
      obtain ⟨hqs, hmet⟩ := List.mem_filter.1 hq
      rw [h.waitMet hqs (hk.trans (State.grp?_gid hg))] at hmet
      exact absurd hmet (by decide)
  · intro q hq
    rw [afterWrite_reqs] at hq
    exact h q (List.mem_filter.1 hq).1

theorem NoneParked.devWrite {s : State} {gid : Nat} (h : NoneParked s gid) (a : Nat) (bs : List Byte) :
    ((devWrite a bs).run s).grp? gid = s.grp? gid ∧ NoneParked ((devWrite a bs).run s) gid := by
  obtain ⟨m, syn, c, -, hs, -⟩ := devWrite_stored (s := s) rfl a bs
  rw [hs]
  exact NoneParked.afterWrite (s := s.stored m syn c) h a bs.length

/-! ### The counters and the entries of a fault queue (R358) -/

theorem devWord_congr {s u : State} (h : u.store = s.store) (a : Nat) : devWord u a = devWord s a := by
  obtain ⟨hm, hs⟩ := Prod.mk.inj h
  have hbyte (x : Nat) : devByte u x = devByte s x := by
    unfold devByte
    simp only [hm, hs, devSyndrome_congr h]
  simp only [devWord, devBytes, hbyte]

/-- What a change of one partition leaves of every partition. -/
theorem State.part_modPart {α : Type} (π : Part → α) {f : Part → Part} (hf : ∀ q, π (f q) = π q) (s : State) (p k : Nat) :
    π ((s.modPart p f).part k) = π (s.part k) := by
  rw [State.part, State.part, State.modPart, List.getD_eq_getElem?_getD, List.getD_eq_getElem?_getD, List.getElem?_map]
  cases s.parts[k]? with
  | none => rfl
  | some q =>
    simp only [Option.map_some, Option.getD_some]
    split
    · exact hf q
    · rfl

/-- The change of the partition at its place. -/
theorem State.part_modPart_self {s : State} {p : Nat} {q : Part} (hq : s.parts[p]? = some q) (hn : q.num = p) (f : Part → Part) :
    (s.modPart p f).part p = f q := by
  refine State.part_of_get ?_
  simp [State.modPart, hq, hn]

theorem countEvent_pendEntries (p cls : Nat) (s : State) (k : Nat) : ((countEvent p cls s).part k).pendEntries = (s.part k).pendEntries := by
  have hsend (u : State) : ((sendEvent p cls u).part k).pendEntries = (u.part k).pendEntries := by
    unfold sendEvent
    dsimp only
    split
    · rfl
    · exact State.part_modPart Part.pendEntries (fun _ => by rfl) u p k
  cases he : (s.part p).events[cls]? with
  | none => rw [countEvent_of_none he]
  | some e =>
    rw [countEvent_of_some he]
    have hcount : ((s.modPart p (Part.eventCounted cls e)).part k).pendEntries = (s.part k).pendEntries :=
      State.part_modPart Part.pendEntries (fun _ => by rfl) s p k
    split
    · exact (hsend _).trans hcount
    · exact hcount

theorem countEvent_modPart_others (p cls : Nat) (s : State) (f : Part → Part) : (countEvent p cls (s.modPart p f)).others = s.others :=
  (countEvent_others p cls _).trans (State.modPart_others s p f)

theorem countEvent_modPart_mem (p cls : Nat) (s : State) (f : Part → Part) : (countEvent p cls (s.modPart p f)).mem = s.mem :=
  (congrArg State.mem (countEvent_modPart_others p cls s f) :)

/-- The entry is written and counted, and the class 0 event counted (R358). -/
theorem fqWrite_run (p : Nat) (e : Entry) (s : State) :
    ∃ f : Part → Part, (∀ q, (f q).pendEntries = q.pendEntries) ∧
      (fqWrite p e).run s = countEvent p 0 (((devWrite (s.part p).fq (wordBytes (BitVec.ofNat 64 (fqWritten s p + 1)))).run
        ((devWrite ((s.part p).fq + 64 + 64 * (fqWritten s p % 512)) (wordsBytes e.words)).run s)).modPart p f) := by
  refine ⟨fun q => { q with oldest := some (q.oldest.getD (fqWritten s p)) }, fun _ => rfl, ?_⟩
  rw [fqWrite, Prog.run_dyn, Prog.run_all_cons, Prog.run_all_cons, Prog.run_all_cons, Prog.run_all_nil, devWriteWord]
  exact Prog.run_change _ _ (countEvent_modPart_mem ..) (State.mgmt_of_others (countEvent_modPart_others ..))

/-- What serves an entry that waited: it is counted as dropped where the queue is full, and otherwise written. -/
def serveEntry (full : Bool) (p : Nat) (e : Entry) : Prog := if full then fqDrop p else fqWrite p e

/-- What serving an entry makes of memory depends on memory, check codes and the place of the queue alone. -/
theorem serveEntry_mem {s u : State} (h : u.store = s.store) {p : Nat} (hfq : (u.part p).fq = (s.part p).fq) (full : Bool) (e : Entry) :
    ((serveEntry full p e).run u).mem = ((serveEntry full p e).run s).mem := by
  have hwritten : fqWritten u p = fqWritten s p := by rw [fqWritten, fqWritten, hfq, devWord_congr h]
  unfold serveEntry
  split
  · simp only [fqDrop, Prog.run_dyn, hfq, devWord_congr h]
    exact (Prod.mk.inj (devWrite_store h _ _)).1
  · obtain ⟨f, -, hu⟩ := fqWrite_run p e u
    obtain ⟨f', -, hs⟩ := fqWrite_run p e s
    rw [hu, hs, hfq, hwritten, countEvent_modPart_mem, countEvent_modPart_mem]
    exact (Prod.mk.inj (devWrite_store (devWrite_store h _ _) _ _)).1

theorem keepsWork_serveEntry (full : Bool) (p : Nat) (e : Entry) : (serveEntry full p e).KeepsWork := by
  unfold serveEntry
  split
  · exact Prog.keepsWork_dyn fun s => keepsWork_devWrite _ _
  · intro s
    obtain ⟨f, -, hs⟩ := fqWrite_run p e s
    rw [hs]
    exact (countEvent_work p 0 _).trans ((keepsWork_devWrite _ _ _).trans (keepsWork_devWrite _ _ s))

theorem serveEntry_pendEntries (full : Bool) (p : Nat) (e : Entry) (s : State) (k : Nat) :
    (((serveEntry full p e).run s).part k).pendEntries = (s.part k).pendEntries := by
  have hwrite (u : State) (a : Nat) (bs : List Byte) : (((devWrite a bs).run u).part k).pendEntries = (u.part k).pendEntries := by
    rw [State.part, State.part, devWrite_parts]
  unfold serveEntry
  split
  · exact hwrite s _ _
  · obtain ⟨f, hf, hs⟩ := fqWrite_run p e s
    rw [hs]
    refine (countEvent_pendEntries p 0 _ k).trans ((State.part_modPart Part.pendEntries hf _ p k).trans ?_)
    exact (hwrite _ _ _).trans (hwrite s _ _)

/-- Serving an entry leaves a group none of whose waits is parked as it is. -/
theorem serveEntry_grp? {s : State} {gid : Nat} (h : NoneParked s gid) (full : Bool) (p : Nat) (e : Entry) :
    ((serveEntry full p e).run s).grp? gid = s.grp? gid := by
  unfold serveEntry
  split
  · exact (h.devWrite _ _).1
  · obtain ⟨f, -, hs⟩ := fqWrite_run p e s
    obtain ⟨hgrp, hnone⟩ := h.devWrite ((s.part p).fq + 64 + 64 * (fqWritten s p % 512)) (wordsBytes e.words)
    rw [hs]
    exact (countEvent_grp? p 0 _ gid).trans ((hnone.devWrite _ _).1.trans hgrp)

/-! ### Entries that waited (R358, R367) -/

/-- An entry that waits is the first that may be served. -/
theorem first_served {lo : List (Option Nat × Entry)} {gid : Option Nat} {full : Bool}
    (h : if full then gid = none ∧ ∀ x, x ∈ lo → x.1 ≠ none else lo = []) (e : Entry) (hi : List (Option Nat × Entry)) :
    (lo ++ (gid, e) :: hi).find? (mayServe full) = some (gid, e) ∧ (lo ++ (gid, e) :: hi).eraseP (mayServe full) = lo ++ hi := by
  have hx : mayServe full (gid, e) = true := by
    cases full with
    | false => rfl
    | true => simp [mayServe, ((if_pos rfl).mp h).1]
  have hlo : ∀ y ∈ lo, ¬mayServe full y = true := fun y hy => by
    cases full with
    | false => exact absurd ((if_neg Bool.false_ne_true).mp h ▸ hy) List.not_mem_nil
    | true => simpa [mayServe, Option.isNone_iff_eq_none] using ((if_pos rfl).mp h).2 y hy
  constructor
  · rw [List.find?_append, List.find?_eq_none.2 hlo, Option.none_or, List.find?_cons_of_pos hx]
  · rw [List.eraseP_append_right _ hlo, List.eraseP_cons_of_pos hx]

/-- The group of an entry, where it has one, is linked to a number. -/
def linkOf (gid : Option Nat) (n : Nat) (s : State) : State :=
  match gid with
  | none => s
  | some k => linkPage k n s

theorem linkOf_eq (gid : Option Nat) (n : Nat) (s : State) : ∃ gs, linkOf gid n s = { s with groups := gs } ∧
    gs.map Group.bare = s.groups.map Group.bare := by
  cases gid with
  | none => exact ⟨s.groups, rfl, rfl⟩
  | some k =>
    refine ⟨_, rfl, List.map_map.trans (List.map_congr_left fun g _ => ?_)⟩
    simp only [Function.comp_apply]
    split
    · split <;> rfl
    · rfl

/-- A partition of which the first entry that may be served waits no more. -/
def Part.served (full : Bool) (q : Part) : Part := { q with pendEntries := q.pendEntries.eraseP (mayServe full) }

theorem exec_pendingFaultEntry {s : State} {p : Nat} {x : Option Nat × Entry} (ha : fqAwake s p = true)
    (hx : (s.part p).pendEntries.find? (mayServe (fqFull s p)) = some x) :
    exec (.pendingFaultEntry p) s =
      .next ((serveEntry (fqFull s p) p x.2).run (linkOf x.1 (fqWritten s p) (s.modPart p (Part.served (fqFull s p))))) := by
  refine congrArg Host.Outcome.next ?_
  rw [Prog.run_dyn, ha]
  dsimp only
  rw [if_neg (by decide), hx, Prog.run_all_cons, Prog.run_all_cons, Prog.run_all_cons, Prog.run_all_nil]
  refine congrArg (Prog.run (serveEntry (fqFull s p) p x.2)) ?_
  obtain ⟨gid, e⟩ := x
  cases gid <;> rfl

/-- An entry that waited is served, and its group waits for the reply to it (R358, R367). -/
theorem pendingFaultEntry_serves {s : State} {p : Nat} {full : Bool} (hfull : fqFull s p = full)
    {lo hi : List (Option Nat × Entry)} {gid : Option Nat} {e : Entry} (hp : (s.part p).pendEntries = lo ++ (gid, e) :: hi)
    (hnum : ∀ q, s.parts[p]? = some q → q.num = p) (ha : fqAwake s p = true)
    (hfirst : if full then gid = none ∧ ∀ x, x ∈ lo → x.1 ≠ none else lo = [])
    (hparked : ∀ q, q ∈ s.reqs → some q.gid = gid → q.isParked = true → ∀ v rem, q.op ≠ .waitGe v rem) :
    ∃ t, exec (.pendingFaultEntry p) s = .next t ∧ t.mem = ((if full then fqDrop p else fqWrite p e).run s).mem ∧
      KeepsWorkOfAll s t ∧ (t.part p).pendEntries = lo ++ hi ∧
      ∀ k g, gid = some k → s.grp? k = some g → g.hold = .pagePending → ∃ g', t.grp? k = some g' ∧ g'.hold = .page (fqWritten s p) := by
  obtain ⟨hfind, herase⟩ := first_served hfirst e hi
  have hexec := exec_pendingFaultEntry (x := (gid, e)) ha (by rw [hfull, hp]; exact hfind)
  rw [hfull] at hexec
  obtain ⟨u, hu⟩ : ∃ u, u = linkOf gid (fqWritten s p) (s.modPart p (Part.served full)) := ⟨_, rfl⟩
  obtain ⟨gs, hlink, hbare⟩ := linkOf_eq gid (fqWritten s p) (s.modPart p (Part.served full))
  rw [← hu] at hexec hlink
  have hparts : u.parts = (s.modPart p (Part.served full)).parts := hlink ▸ rfl
  have hpart : u.part p = (s.modPart p (Part.served full)).part p := by rw [State.part, State.part, hparts]
  have hwork : ((serveEntry full p e).run u).groups.map Group.bare = s.groups.map Group.bare :=
    (Prod.mk.inj (keepsWork_serveEntry full p e u)).2.trans ((congrArg (fun v : State => v.groups.map Group.bare) hlink).trans hbare)
  refine ⟨_, hexec, ?_, fun k g hg => ?_, ?_, fun k g hk hg hhold => ?_⟩
  · refine serveEntry_mem (hlink ▸ rfl) ?_ full e
    rw [hpart]
    exact State.part_modPart Part.fq (fun _ => by rfl) s p p
  · obtain ⟨g', hg', hsame⟩ := (KeepsNamed.of_bare hwork k).grp? hg
    exact ⟨g', hg', .of_bare hsame⟩
  · rw [serveEntry_pendEntries, hpart]
    cases hq : s.parts[p]? with
    | none =>
      have hnil : (s.part p).pendEntries = [] := by simp [State.part, List.getD_eq_getElem?_getD, hq, Part.unset]
      simp [hnil] at hp
    | some q =>
      rw [State.part_modPart_self hq (hnum q hq), ← herase, ← hp, State.part_of_get hq]
      rfl
  · subst hk
    have hnone : NoneParked u k := fun q hq hqk => hparked q (by rw [hlink] at hq; exact hq) (congrArg some hqk)
    have hlinked : u.grp? k = some (if g.hold == .pagePending then { g with hold := .page (fqWritten s p) } else g) :=
      hu ▸ State.grp?_modGrp_self (s.modPart p _) k _ g hg fun x hx => by split <;> exact hx
    exact ⟨_, (serveEntry_grp? hnone full p e).trans hlinked, by simp [hhold]⟩

end Sys2Proof.Machine
end

section
/-! PROOFS. The reply of the host to a PAGE entry (R366, R367). -/

namespace Sys2Proof.Machine

set_option Elab.async false

theorem devWord_eq {s : State} (hs : s.syn = []) (a : Nat) : devWord s a = memWord s a := by
  rw [devWord, devBytes_eq hs, memWord]

/-! ### One group takes a reply -/

theorem filterMap_of_filter {α β : Type} {f : α → Option β} {p : α → Bool} {xs : List α} {x : α} {y : β} (hx : xs.filter p = [x])
    (hy : f x = some y) (hf : ∀ z, z ∈ xs → p z = false → f z = none) : xs.filterMap f = [y] := by
  have hp : xs.filterMap f = (xs.filter p).filterMap f := by
    rw [List.filterMap_filter]
    refine List.filterMap_congr fun z hz => ?_
    split
    · rfl
    · next h => exact hf z hz (Bool.not_eq_true _ ▸ h)
  rw [hp, hx, List.filterMap_cons_some hy, List.filterMap_nil]

/-- A write that carries a reply to one group is taken by that group: a saved one keeps it for its restore (R366, R367). -/
theorem takeReplies_one {u : State} {a n : Nat} {g : Group} {v : Word} (hg : (u.groups.filter fun x => x.gid == g.gid) = [g])
    (ht : replyTaken a n u g = some (g, v)) (hno : ∀ x, x ∈ u.groups → x.gid ≠ g.gid → replyTaken a n u x = none) :
    takeReplies a n u =
      if g.life = .saved then u.modGrp g.gid fun x => { x with hold := .replied v }
      else if v = 1 then u.modGrp g.gid fun x => { x.replay with hold := .none }
      else endLaunch g.launch u := by
  have hfound : u.grp? g.gid = some g := by rw [State.grp?, ← List.head?_filter, hg, List.head?_cons]
  rw [takeReplies_eq, filterMap_of_filter hg ht fun x hx hne => hno x hx (by simpa using hne), List.foldl_cons, List.foldl_nil, takeReply]
  simp only [beq_iff_eq, hfound]

/-- A change of a group of a launch leaves the groups of other launches. -/
theorem OtherLaunches.modGrp {u : State} {g : Group} (hg : g ∈ u.groups) {f : Group → Group} (hf : ∀ x, (f x).gid = x.gid) :
    OtherLaunches u (u.modGrp g.gid f) g.launch := fun k x hx hgroups _ =>
  ⟨x, (State.grp?_modGrp_ne u g.gid k f (fun y hy => (hf y).trans hy) fun hk => hgroups g hg hk.symm rfl).trans hx, .refl x⟩

/-- What a group that has taken a reply is (R366, R367). -/
structure TookReply (t : State) (g : Group) (v : Word) : Prop where
  saved : g.life = .saved → t.grp? g.gid = some { g with hold := .replied v }
  replays : g.life = .resident → v = 1 → t.grp? g.gid = some { g.replay with hold := .none }
  ends : g.life = .resident → v ≠ 1 → LaunchEnded t g.launch

theorem takeReplies_took {u : State} {a n : Nat} {g : Group} {v : Word} (hg : (u.groups.filter fun x => x.gid == g.gid) = [g])
    (ht : replyTaken a n u g = some (g, v)) (hno : ∀ x, x ∈ u.groups → x.gid ≠ g.gid → replyTaken a n u x = none) :
    TookReply (takeReplies a n u) g v ∧ OtherLaunches u (takeReplies a n u) g.launch := by
  have hmem : g ∈ u.groups := (List.mem_filter.1 (hg ▸ List.mem_singleton_self g)).1
  have hfound : u.grp? g.gid = some g := by rw [State.grp?, ← List.head?_filter, hg, List.head?_cons]
  rw [takeReplies_one hg ht hno]
  by_cases hl : g.life = .saved
  · rw [if_pos hl]
    exact ⟨⟨fun _ => State.grp?_modGrp_self u g.gid _ g hfound fun _ h => h, fun hr => by simp [hl] at hr, fun hr => by simp [hl] at hr⟩,
      .modGrp hmem fun _ => rfl⟩
  · rw [if_neg hl]
    by_cases hv : v = 1
    · rw [if_pos hv]
      exact ⟨⟨fun h => absurd h hl, fun _ _ => State.grp?_modGrp_self u g.gid (fun x => { x.replay with hold := .none }) g hfound fun _ h => h,
        fun _ h => absurd hv h⟩, .modGrp hmem fun _ => rfl⟩
    · rw [if_neg hv]
      exact ⟨⟨fun h => absurd h hl, fun _ h => absurd h hv, fun _ _ => launchEnded_endLaunch g.launch u⟩, otherLaunches_endLaunch g.launch u⟩

theorem TookReply.of_change {f : State → State} {u : State} {g : Group} {v : Word} (h : TookReply (f u) g v) :
    TookReply ((Prog.change f).run u) g v := ⟨h.saved, h.replays, h.ends⟩

/-! ### The host writes the reply word (R366) -/

/-- A group that waits for a reply, which the host may write. -/
structure AwaitsReply (s : State) (g : Group) (n : Nat) : Prop where
  inv : s.Inv
  syn : s.syn = []
  only : (s.groups.filter fun x => x.gid == g.gid) = [g]
  hold : g.hold = .page n
  fresh : fqWritten s g.part ≤ n + 512
  free : Writable s (replyAddr (s.part g.part) n) 8
  others : ∀ x, x ∈ s.groups → x.gid ≠ g.gid → ∀ k, x.hold = .page k →
    ¬(replyAddr (s.part g.part) n < replyAddr (s.part x.part) k + 8 ∧ replyAddr (s.part x.part) k < replyAddr (s.part g.part) n + 8)
  parked : NoneParked s g.gid

/-- The machine after the reply word of an entry was written, and what follows from the write, but for the reply itself. -/
def State.replyWritten (s : State) (a : Nat) (v : Word) : State := afterWrite a 8 { s with mem := Memory.putBytes s.mem a (wordBytes v) }

theorem State.replyWritten_part (s : State) (a : Nat) (v : Word) (p : Nat) : (s.replyWritten a v).part p = s.part p := by
  rw [State.part, State.replyWritten, afterWrite_parts]
  rfl

theorem State.replyWritten_work (s : State) (a : Nat) (v : Word) : (s.replyWritten a v).work = s.work := (afterWrite_work ..).trans rfl

theorem devWrite_replyWritten {s : State} (hs : s.syn = []) (a : Nat) (v : Word) : (devWrite a (wordBytes v)).run s = s.replyWritten a v := by
  rw [devWrite_run hs, wordBytes_length]
  rfl

section
variable {s : State} {g : Group} {n : Nat} (h : AwaitsReply s g n) (v : Word)
include h

theorem AwaitsReply.wrote :
    WroteBytes s (s.replyWritten (replyAddr (s.part g.part) n) v) (replyAddr (s.part g.part) n) (wordBytes v) := fun x => by
  rw [State.replyWritten, afterWrite_mem]
  exact Memory.get_putBytes h.inv _ x _

theorem AwaitsReply.syn_written : (s.replyWritten (replyAddr (s.part g.part) n) v).syn = [] := (afterWrite_syn ..).trans h.syn

/-- The write wakes no wait of the group. -/
theorem AwaitsReply.only_written :
    ((s.replyWritten (replyAddr (s.part g.part) n) v).groups.filter fun x => x.gid == g.gid) = [g] := by
  have hgid (rs : List Req) : (fun x : Group => x.gid == g.gid) ∘ Group.wokenBy rs = fun x => x.gid == g.gid :=
    funext fun x => by simp only [Function.comp_apply, Group.wokenBy_gid]
  rw [State.replyWritten, afterWrite_groups, List.filter_map, hgid, h.only, List.map_singleton]
  refine congrArg (fun x => [x]) (if_neg fun hmem => ?_)
  obtain ⟨q, hq, hk⟩ := List.mem_map.1 hmem
  obtain ⟨hqs, hmet⟩ := List.mem_filter.1 hq
  rw [h.parked.waitMet hqs hk] at hmet
  exact absurd hmet (by decide)

/-- Another group takes no reply from the write. -/
theorem AwaitsReply.others_written {x : Group} (hx : x ∈ (s.replyWritten (replyAddr (s.part g.part) n) v).groups) (hne : x.gid ≠ g.gid) :
    replyTaken (replyAddr (s.part g.part) n) 8 (s.replyWritten (replyAddr (s.part g.part) n) v) x = none := by
  obtain ⟨rs, hgroups⟩ : ∃ rs, (s.replyWritten (replyAddr (s.part g.part) n) v).groups = s.groups.map (Group.wokenBy rs) :=
    ⟨_, afterWrite_groups ..⟩
  obtain ⟨y, hy, rfl⟩ := List.mem_map.1 (hgroups ▸ hx)
  have hpart : (y.wokenBy rs).part = y.part := (SameWork.wokenBy rs y).2.2.2.2.2.2.2.2.2
  unfold replyTaken
  split
  · next k hk =>
    have hk : y.hold = .page k := by
      rcases Group.wokenBy_hold rs y with hold | hold
      · simp [hold] at hk
      · exact hold ▸ hk
    have hapart := h.others y hy (Group.wokenBy_gid rs y ▸ hne) k hk
    simp only [hpart, State.replyWritten_part]
    rw [if_neg]
    simp only [Bool.and_eq_true, decide_eq_true_eq]
    exact fun hc => hapart hc.1
  · rfl

theorem AwaitsReply.taken (hv : v ≠ 0) :
    replyTaken (replyAddr (s.part g.part) n) 8 (s.replyWritten (replyAddr (s.part g.part) n) v) g = some (g, v) := by
  have hword : devWord (s.replyWritten (replyAddr (s.part g.part) n) v) (replyAddr (s.part g.part) n) = v := by
    rw [devWord_eq (h.syn_written v), (h.wrote v).memWord_self (wordBytes_length v), bytesNat_wordBytes, BitVec.ofNat_toNat, BitVec.setWidth_eq]
  have hwritten : fqWritten (s.replyWritten (replyAddr (s.part g.part) n) v) g.part = fqWritten s g.part := by
    have hapart : Apart (s.part g.part).fq 8 (replyAddr (s.part g.part) n) (wordBytes v).length := by
      rw [Apart, replyAddr]
      omega
    rw [fqWritten, fqWritten, State.replyWritten_part, devWord_eq (h.syn_written v), devWord_eq h.syn, (h.wrote v).memWord_apart hapart]
  unfold replyTaken
  simp only [h.hold, State.replyWritten_part, hword, hwritten, hv, if_false]
  rw [if_pos (by simp [h.fresh])]

/-- The write of the reply word, and the reply that the group takes with it. -/
theorem AwaitsReply.run (hv : v ≠ 0) :
    ∃ t, (agentWrite (replyAddr (s.part g.part) n) (wordBytes v)).run s = t ∧
      WroteBytes s t (replyAddr (s.part g.part) n) (wordBytes v) ∧ TookReply t g v ∧ OtherLaunches s t g.launch := by
  have hfree : ¬((List.range (wordBytes v).length).any fun i => fqKept s (replyAddr (s.part g.part) n + i)) = true := by
    simpa [Writable] using h.free
  obtain ⟨htook, hothers⟩ := takeReplies_took (h.only_written v) (h.taken v hv) fun x hx hne => h.others_written v hx hne
  refine ⟨_, rfl, ?_⟩
  rw [agentWrite, Prog.run_dyn, if_neg hfree, Prog.run_all_cons, Prog.run_all_cons, Prog.run_all_nil, devWrite_replyWritten h.syn,
    wordBytes_length]
  exact ⟨h.wrote v, htook.of_change, .of_work (State.replyWritten_work ..) hothers.of_change⟩

end

theorem exec_pageReply {s : State} {p : Nat} (n : Nat) (v : Word) (hr : reachesPart s p = true)
    (ha : awakeAt s (replyAddr (s.part p) n) = true) :
    exec (.pageReply p n v) s = .next ((agentWrite (replyAddr (s.part p) n) (wordBytes v)).run s) :=
  congrArg Host.Outcome.next (by rw [Prog.run_dyn, hr]; dsimp only; rw [ha]; rfl)

end Sys2Proof.Machine
end

section
/-! PROOFS. Bin timers that run out (R328, R329); and O52. -/

namespace Sys2Proof.Machine

set_option Elab.async false

/-! ### Writes one after another where nothing waits -/

theorem NoWaiter.sub {s : State} {a n : Nat} (h : NoWaiter s a n) {b m : Nat} (hab : a ≤ b) (hbm : b + m ≤ a + n) : NoWaiter s b m := by
  obtain ⟨hfree, hreply, hwait⟩ := h
  refine ⟨fun i hi => ?_, fun q hq k hk hc => ?_, fun q hq v rem k p rest ho hp hx => ?_⟩
  · have := hfree (b - a + i) (by omega)
    rwa [show a + (b - a + i) = b + i by omega] at this
  · exact hreply q hq k hk (by omega)
  · rcases hwait q hq v rem k p rest ho hp hx with hsp | hapart
    · exact .inl hsp
    · exact .inr (by omega)

theorem NoWaiter.of_onlyWrote {s u : State} {b : Nat} {bs : List Byte} (hu : OnlyWrote s u b bs) {a n : Nat} (h : NoWaiter s a n) :
    NoWaiter u a n := by
  rw [hu.rest]
  exact h

/-- A word is written where nothing waits, and nothing else happens. -/
theorem writeWord_only {s : State} (hs : s.syn = []) (hw : s.Inv) {a n : Nat} (hn : NoWaiter s a n) {b : Nat} (hab : a ≤ b)
    (hbn : b + 8 ≤ a + n) (w : Word) :
    OnlyWrote s ((writeWords b [w]).run s) b (wordBytes w) ∧ ((writeWords b [w]).run s).syn = [] ∧ ((writeWords b [w]).run s).Inv ∧
      NoWaiter ((writeWords b [w]).run s) a n := by
  have honly : OnlyWrote s ((writeWords b [w]).run s) b (wordBytes w) := by
    rw [writeWords, wordsBytes, List.flatMap_singleton]
    exact agentWrite_only hs hw (by rw [wordBytes_length]; exact hn.sub hab hbn)
  refine ⟨honly, ?_, Prog.run_wf _ s hw, hn.of_onlyWrote honly⟩
  rw [honly.rest]
  exact hs

theorem WroteBytes.memWord_written {s u : State} {a : Nat} {w : Word} (h : WroteBytes s u a (wordBytes w)) : memWord u a = w := by
  rw [h.memWord_self (wordBytes_length w), bytesNat_wordBytes, BitVec.ofNat_toNat, BitVec.setWidth_eq]

/-! ### The slot of a bin is closed (R329) -/

theorem structWords_getD (s : State) (pa : Nat) {n k : Nat} (hk : k < n) : (structWords s pa n).getD k 0 = unitWord s (pa + 8 * k) := by
  simp [structWords, List.getD_eq_getElem?_getD, hk]

/-- The header of a bin is in its first two words. -/
theorem binHead_of_structWords (s : State) (pa : Nat) {n : Nat} (hn : 2 ≤ n) :
    BinHead.of (structWords s pa n) = BinHead.of (structWords s pa 2) := by
  simp only [BinHead.of, structWords_getD s pa (show 0 < n by omega), structWords_getD s pa (show 1 < n by omega),
    structWords_getD s pa (show 0 < 2 by decide), structWords_getD s pa (show 1 < 2 by decide)]

theorem binHead_cur_lt (ws : List Word) : (BinHead.of ws).cur < 256 := BitVec.isLt _

/-- The place of the busy bit of the slot in use. -/
def BinHead.busyAt (h : BinHead) (pa : Nat) : Nat := pa + 32 + 8 * (h.cur / 64)

/-- The header of a bin that goes on with its next slot. -/
def BinHead.next (h : BinHead) : BinHead := { h with fill := 0, cur := (h.cur + 1) % (h.nsm1 + 1) }

/-- The launch of a slot that is closed, of a bin with records at a virtual address. -/
def BinHead.start (h : BinHead) (p pa id : Nat) (base : Word) (desc : List Word) : Start where
  id := id
  slice := homeSlice pa
  part := p
  task := h.task
  teams := 1
  cls := none
  desc := desc
  args := [base + BitVec.ofNat 64 (128 + 2048 * h.cur), BitVec.ofNat 64 h.fill, base, BitVec.ofNat 64 h.cur]
  source := .bin (homeSlice pa) pa h.cur
  held := none

/-- The launch of a bin waits for its hand-over, and the bin's timer runs no more. -/
def State.binLeft (u : State) (pa : Nat) (l : Start) : State :=
  { u with
    binLaunches := u.binLaunches ++ [l]
    binTimers := u.binTimers.filter fun y => y.pa != pa
    nextId := u.nextId + 1 }

/-- The three words that closing a slot writes: the busy bits, the count of closed slots and the header. -/
def closeWords (h : BinHead) (pa : Nat) (busy closed : Word) : Prog :=
  .all [
    writeWords (h.busyAt pa) [busy ||| BitVec.ofNat 64 (2 ^ (h.cur % 64))],
    writeWords (pa + 24) [closed + 1],
    writeWords (pa + 8) [h.next.word]]

/-- Closing a slot, with what a slice has read of the bin. -/
def closeSlot (h : BinHead) (p pa slice : Nat) (busy closed base : Word) (desc : List Word) : Prog :=
  .all [
    writeWords (pa + 32 + 8 * (h.cur / 64)) [busy ||| BitVec.ofNat 64 (2 ^ (h.cur % 64))],
    writeWords (pa + 24) [closed + 1],
    writeWords (pa + 8) [{ h with fill := 0, cur := (h.cur + 1) % (h.nsm1 + 1) }.word],
    .change fun s =>
      let x : Start := {
        id := s.nextId
        slice := slice
        part := p
        task := h.task
        teams := 1
        cls := none
        desc := desc
        args := [base + BitVec.ofNat 64 (128 + 2048 * h.cur), BitVec.ofNat 64 h.fill, base, BitVec.ofNat 64 h.cur]
        source := .bin slice pa h.cur
        held := none }
      { s with
        binLaunches := s.binLaunches ++ [x]
        binTimers := s.binTimers.filter fun t => t.pa != pa
        nextId := s.nextId + 1 }]

theorem binClose_eq (p pa : Nat) :
    binClose p pa = .dyn fun s =>
      let ws := structWords s pa 9
      let h := BinHead.of ws
      (touchWords s (((List.range 9).map fun k => pa + 8 * k) ++ descWords s p h.task)).seq
        (closeSlot h p pa (homeSlice pa) (ws.getD (4 + h.cur / 64) 0) (ws.getD 3 0) (ws.getD 8 0) (readDesc s p h.task)) := by
  unfold binClose closeSlot
  rfl

/-- The words of a slot that is closed, and then its launch. -/
theorem closeSlot_eq (h : BinHead) (p pa : Nat) (busy closed base : Word) (desc : List Word) :
    closeSlot h p pa (homeSlice pa) busy closed base desc =
      .all [
        writeWords (h.busyAt pa) [busy ||| BitVec.ofNat 64 (2 ^ (h.cur % 64))],
        writeWords (pa + 24) [closed + 1],
        writeWords (pa + 8) [h.next.word],
        .change fun u => u.binLeft pa (h.start p pa u.nextId base desc)] := rfl

theorem run_change_binLeft (pa : Nat) (l : State → Start) (s : State) :
    (Prog.change fun u => u.binLeft pa (l u)).run s = s.binLeft pa (l s) := Prog.run_change _ _ rfl rfl

theorem Prog.run_all_last (p q r k : Prog) (s : State) : (Prog.all [p, q, r, k]).run s = k.run ((Prog.all [p, q, r]).run s) := by
  simp only [Prog.run_all_cons, Prog.run_all_nil]

theorem closeSlot_run (h : BinHead) (p pa : Nat) (busy closed base : Word) (desc : List Word) (s : State) :
    (closeSlot h p pa (homeSlice pa) busy closed base desc).run s =
      ((closeWords h pa busy closed).run s).binLeft pa (h.start p pa ((closeWords h pa busy closed).run s).nextId base desc) := by
  rw [closeSlot_eq, Prog.run_all_last, run_change_binLeft]
  rfl

/-- What closing a slot whose header is `h` has written (R329). -/
structure ClosedSlot (s t : State) (h : BinHead) (pa : Nat) : Prop where
  busy : memWord t (h.busyAt pa) = memWord s (h.busyAt pa) ||| BitVec.ofNat 64 (2 ^ (h.cur % 64))
  closed : memWord t (pa + 24) = memWord s (pa + 24) + 1
  header : memWord t (pa + 8) = h.next.word
  others : ∀ a, a < pa + 8 ∨ (pa + 16 ≤ a ∧ a < pa + 24) ∨ (pa + 32 ≤ a ∧ (a < h.busyAt pa ∨ h.busyAt pa + 8 ≤ a)) →
    Memory.get t.mem a = Memory.get s.mem a

theorem BinHead.busyAt_within {h : BinHead} (hc : h.cur < 256) (pa : Nat) : pa + 32 ≤ h.busyAt pa ∧ h.busyAt pa + 8 ≤ pa + 64 := by
  unfold BinHead.busyAt
  omega

theorem WroteBytes.get_outside {s u : State} {b : Nat} {w : Word} (h : WroteBytes s u b (wordBytes w)) {a : Nat} (ha : a < b ∨ b + 8 ≤ a) :
    Memory.get u.mem a = Memory.get s.mem a := by
  rw [h a, wordBytes_length, if_neg (by omega)]

/-- Closing a slot where nothing waits writes its words, and does nothing else. -/
theorem closeWords_run {s : State} (hs : s.syn = []) (hw : s.Inv) {h : BinHead} (hc : h.cur < 256) {pa : Nat} (hn : NoWaiter s pa 72) :
    ClosedSlot s ((closeWords h pa (memWord s (h.busyAt pa)) (memWord s (pa + 24))).run s) h pa ∧
      ∃ m tlb il pt pc, (closeWords h pa (memWord s (h.busyAt pa)) (memWord s (pa + 24))).run s =
        { s with mem := m, tlb := tlb, ilines := il, presT := pt, presC := pc } := by
  obtain ⟨hlo, hhi⟩ := BinHead.busyAt_within hc pa
  have apart {a b : Nat} (w : Word) (hab : a + 8 ≤ b ∨ b + 8 ≤ a) : Apart a 8 b (wordBytes w).length := by rwa [wordBytes_length]
  rw [closeWords, Prog.run_all_cons, Prog.run_all_cons, Prog.run_all_cons, Prog.run_all_nil]
  obtain ⟨h1, hs1, hw1, hn1⟩ := writeWord_only hs hw hn (b := h.busyAt pa) (by omega) (by omega)
    (memWord s (h.busyAt pa) ||| BitVec.ofNat 64 (2 ^ (h.cur % 64)))
  generalize (writeWords (h.busyAt pa) _).run s = s1 at h1 hs1 hw1 hn1 ⊢
  obtain ⟨h2, hs2, hw2, hn2⟩ := writeWord_only hs1 hw1 hn1 (b := pa + 24) (by omega) (by omega) (memWord s (pa + 24) + 1)
  generalize (writeWords (pa + 24) _).run s1 = s2 at h2 hs2 hw2 hn2 ⊢
  obtain ⟨h3, -, -, -⟩ := writeWord_only hs2 hw2 hn2 (b := pa + 8) (by omega) (by omega) h.next.word
  generalize (writeWords (pa + 8) _).run s2 = s3 at h3 ⊢
  obtain ⟨hb1, hr1⟩ := h1
  obtain ⟨hb2, hr2⟩ := h2
  obtain ⟨hb3, hr3⟩ := h3
  refine ⟨⟨?_, ?_, hb3.memWord_written, fun a ha => ?_⟩, s3.mem, s3.tlb, s3.ilines, s3.presT, s3.presC, ?_⟩
  · rw [hb3.memWord_apart (apart _ (by omega)), hb2.memWord_apart (apart _ (by omega)), hb1.memWord_written]
  · rw [hb3.memWord_apart (apart _ (by omega)), hb2.memWord_written]
  · rw [hb3.get_outside (by omega), hb2.get_outside (by omega), hb1.get_outside (by omega)]
  · rw [hr3, hr2, hr1]

theorem exec_binTimerExpiry {s : State} {x : BinTimer} (hx : (s.binTimers.find? fun y => y.id == x.id) = some x) {h : BinHead}
    (hh : BinHead.of (structWords s x.pa 2) = h) (hr : h.remain = 0)
    (ha : awakeWords s ([x.pa, x.pa + 56] ++ descWords s x.part h.task) = true) :
    exec (.binTimerExpiry x.id) s = .next (if h.fill = 0 then { s with binTimers := s.binTimers.filter fun y => y.id != x.id }
      else (binClose x.part x.pa).run s) := by
  refine congrArg Host.Outcome.next ?_
  rw [Prog.run_dyn, hx]
  dsimp only
  rw [hh, ha, hr, if_neg (by decide)]
  split
  · exact Prog.run_change _ _ rfl rfl
  · rfl

/-- The slot of a bin is closed where nothing waits on its header. -/
theorem binClose_closes {s : State} (hs : s.syn = []) (hw : s.Inv) (p : Nat) {pa : Nat} (hn : NoWaiter s pa 72) {h : BinHead}
    (hh : BinHead.of (structWords s pa 2) = h) :
    ∃ u, (binClose p pa).run s = State.binLeft u pa (h.start p pa u.nextId (memWord s (pa + 64)) (readDesc s p h.task)) ∧
      ClosedSlot s u h pa ∧ ∃ m tlb il pt pc, u = { s with mem := m, tlb := tlb, ilines := il, presT := pt, presC := pc } := by
  have hc : h.cur < 256 := hh ▸ binHead_cur_lt _
  have hhead : BinHead.of (structWords s pa 9) = h := (binHead_of_structWords s pa (by decide)).trans hh
  have hbusy : (structWords s pa 9).getD (4 + h.cur / 64) 0 = memWord s (h.busyAt pa) := by
    rw [structWords_getD s pa (by omega), unitWord_eq hs, BinHead.busyAt]
    exact congrArg (memWord s) (by omega)
  have hclosed : (structWords s pa 9).getD 3 0 = memWord s (pa + 24) := (structWords_getD s pa (by decide)).trans (unitWord_eq hs _)
  have hbase : (structWords s pa 9).getD 8 0 = memWord s (pa + 64) := (structWords_getD s pa (by decide)).trans (unitWord_eq hs _)
  refine ⟨_, ?_, closeWords_run hs hw hc hn⟩
  rw [binClose_eq, Prog.run_dyn]
  dsimp only
  rw [Prog.run_seq, touchWords_run hs, Prog.run_done, hhead, hbusy, hclosed, hbase, closeSlot_run]

/-! ### O52 -/

/-- A reply lets a group replay its region or ends its launch (R366). -/
theorem pageReply_answers {s : State} {p n : Nat} {v : Word} {g : Group} (hp : g.part = p) (h : AwaitsReply s g n) (hv : v ≠ 0)
    (hr : reachesPart s p = true) (ha : awakeAt s (replyAddr (s.part p) n) = true) :
    ∃ t, exec (.pageReply p n v) s = .next t ∧ WroteBytes s t (replyAddr (s.part p) n) (wordBytes v) ∧ TookReply t g v ∧
      OtherLaunches s t g.launch := by
  subst hp
  obtain ⟨t, hrun, hwrote, htook, hothers⟩ := h.run v hv
  exact ⟨t, hrun ▸ exec_pageReply n v hr ha, hwrote, htook, hothers⟩

/-- A bin timer that runs out closes the slot that holds records (R328, R329; log entry 45). -/
theorem binTimerExpiry_closes {s : State} {x : BinTimer} (hx : (s.binTimers.find? fun y => y.id == x.id) = some x) (hw : s.Inv)
    (hs : s.syn = []) (hn : NoWaiter s x.pa 72) {h : BinHead} (hh : BinHead.of (structWords s x.pa 2) = h) (hr : h.remain = 0)
    (ha : awakeWords s ([x.pa, x.pa + 56] ++ descWords s x.part h.task) = true) (hf : h.fill ≠ 0) :
    ∃ (t : State) (l : Start), exec (.binTimerExpiry x.id) s = .next t ∧
      (let word := x.pa + 32 + 8 * (h.cur / 64)
       let slot := devWord s (x.pa + 64) + BitVec.ofNat 64 (128 + 2048 * h.cur)
       devWord t word = devWord s word ||| BitVec.ofNat 64 (2 ^ (h.cur % 64)) ∧
       devWord t (x.pa + 24) = devWord s (x.pa + 24) + 1 ∧
       devWord t (x.pa + 8) = ({ h with fill := 0, cur := (h.cur + 1) % (h.nsm1 + 1) } : BinHead).word ∧
       (∀ a, a < x.pa + 8 ∨ (x.pa + 16 ≤ a ∧ a < x.pa + 24) ∨ (x.pa + 32 ≤ a ∧ (a < word ∨ word + 8 ≤ a)) →
         Memory.get t.mem a = Memory.get s.mem a) ∧
       t.binLaunches = s.binLaunches ++ [l] ∧ t.binTimers = (s.binTimers.filter fun y => y.pa != x.pa) ∧ KeepsWorkOfAll s t ∧
       l.slice = homeSlice x.pa ∧ l.part = x.part ∧ l.task = h.task ∧ l.teams = 1 ∧ l.cls = none ∧
       l.desc = readDesc s x.part h.task ∧ l.source = .bin (homeSlice x.pa) x.pa h.cur ∧ l.held = none ∧
       l.args = [slot, BitVec.ofNat 64 h.fill, devWord s (x.pa + 64), BitVec.ofNat 64 h.cur]) := by
  obtain ⟨u, hrun, hclosed, m, tlb, il, pt, pc, hu⟩ := binClose_closes hs hw x.part hn hh
  refine ⟨State.binLeft u x.pa (h.start x.part x.pa u.nextId (memWord s (x.pa + 64)) (readDesc s x.part h.task)),
    h.start x.part x.pa u.nextId (memWord s (x.pa + 64)) (readDesc s x.part h.task), ?_, ?_⟩
  · rw [exec_binTimerExpiry hx hh hr ha, if_neg hf, hrun]
  have hsyn : u.syn = [] := hu ▸ hs
  have hword (l : Start) (a : Nat) : devWord (State.binLeft u x.pa l) a = memWord u a := devWord_eq (s := State.binLeft u x.pa l) hsyn a
  have hbins : u.binLaunches = s.binLaunches := hu ▸ rfl
  have htimers : u.binTimers = s.binTimers := hu ▸ rfl
  have hgroups : u.groups = s.groups := hu ▸ rfl
  intro word slot
  simp only [hword, devWord_eq hs]
  refine ⟨hclosed.busy, hclosed.closed, hclosed.header, hclosed.others, congrArg (· ++ _) hbins, congrArg (List.filter _) htimers,
    fun k g hg => ⟨g, (congrArg (List.find? _) hgroups).trans hg, .refl g⟩, rfl, rfl, rfl, rfl, rfl, rfl, rfl, rfl, ?_⟩
  rw [show slot = memWord s (x.pa + 64) + BitVec.ofNat 64 (128 + 2048 * h.cur) from congrArg (· + _) (devWord_eq hs _)]
  rfl

/-- Settles O52: `exec_eventTimerExpiry` for the event timers, `watchdogFire_ends` for the watchdog, `pendingFaultEntry_serves` for the
entries that waited, `pageReply_answers` for the replies, and `binTimerExpiry_closes` for the bin timers. -/
theorem timersAndReplies : Obligations.TimersAndReplies := by
  unfold Obligations.TimersAndReplies
  intro s p
  refine ⟨fun cls e he ht hc hm => (exec_eventTimerExpiry he ht hc hm).trans (congrArg _ (sendEvent_of_some he)), watchdogFire_ends,
    fun lo gid e hi => pendingFaultEntry_serves rfl, ?_, ?_⟩
  · intro n value g hw hs hg hp hhold hfresh hv hr a ha hfree hothers hparked
    obtain ⟨t, hexec, hwrote, htook, hlaunches⟩ := pageReply_answers hp
      ⟨hw, hs, hg, hhold, hp ▸ hfresh, hp ▸ hfree, hp ▸ hothers, hparked⟩ hv hr ha
    refine ⟨t, hexec, hwrote, hlaunches, htook.saved, fun hl h1 => ⟨_, htook.replays hl h1, hl, ?_⟩, htook.ends⟩
    exact ⟨rfl, rfl, rfl, rfl, rfl, rfl, rfl, rfl⟩
  · intro x hx hw hs hn h hr ha
    exact ⟨fun hf => by rw [exec_binTimerExpiry hx rfl hr ha, if_pos hf], binTimerExpiry_closes hx hw hs hn rfl hr ha⟩

end Sys2Proof.Machine
end

section
/-! PROOFS. Demand fills, prefetches, walks for `pf`, and pass-over (R64, R65, R69, R70, R123, R133, R228, R230); and O46. -/

namespace Sys2Proof.Machine

set_option Elab.async false

/-! ### Changes to the caches alone (R64, R65, R230) -/

/-- A state with the translations, lines and presence bits of another. -/
def State.withCaches (s t : State) : State :=
  { s with tlb := t.tlb, ilines := t.ilines, presT := t.presT, presC := t.presC, fresh := t.fresh }

/-- Only the caches change from one state to another. -/
def OnlyCaches (s t : State) : Prop := t = s.withCaches t

theorem OnlyCaches.refl (s : State) : OnlyCaches s s := rfl

theorem OnlyCaches.trans {s t u : State} (h : OnlyCaches s t) (h' : OnlyCaches t u) : OnlyCaches s u :=
  Eq.trans h' ((congrArg (State.withCaches · u) h : t.withCaches u = (s.withCaches t).withCaches u).trans rfl)

/-- What is no cache stays. -/
theorem OnlyCaches.keeps {α : Type} {s t : State} (h : OnlyCaches s t) (field : State → α)
    (hfield : ∀ u v, field (State.withCaches u v) = field u := by exact fun _ _ => rfl) : field t = field s :=
  (congrArg field h).trans (hfield s t)

theorem markTables_onlyCaches (die : Nat) (ws : List Nat) (s : State) : OnlyCaches s (markTables die ws s) := rfl

theorem installLeaf_onlyCaches (core : Option Nat) (e : TlbEntry) (s : State) : OnlyCaches s (installLeaf core e s) := by
  unfold installLeaf
  split <;> rfl

theorem installLine_onlyCaches (die pa va asid : Nat) (s : State) : OnlyCaches s (installLine die pa va asid s) := rfl

theorem holdLine_onlyCaches (die core pa : Nat) (s : State) : OnlyCaches s (holdLine die core pa s) := by
  unfold holdLine
  split <;> rfl

theorem installCode_onlyCaches (die core part : Nat) (vas : List Nat) (s : State) : OnlyCaches s (installCode die core part vas s) :=
  List.foldlRecOn _ _ (.refl s) fun u hu va _ => hu.trans <| by
    split
    · exact installLeaf_onlyCaches ..
    · exact .refl u

/-! ### Translations (R228, R230) -/

@[simp] theorem installLeaf_ilines (core : Option Nat) (e : TlbEntry) (s : State) : (installLeaf core e s).ilines = s.ilines := by
  unfold installLeaf
  split <;> rfl

@[simp] theorem installCode_ilines (die core part : Nat) (vas : List Nat) (s : State) :
    (installCode die core part vas s).ilines = s.ilines :=
  List.foldlRecOn (motive := fun u : State => u.ilines = s.ilines) _ _ rfl fun u hu va _ => by
    split
    · exact (installLeaf_ilines ..).trans hu
    · exact hu

/-- A leaf that a core installs is in its cache, brought now or held already. -/
theorem mem_installLeaf (c : Nat) (e : TlbEntry) (s : State) :
    ∃ x, x ∈ (installLeaf (some c) e s).tlb ∧ x.die = e.die ∧ x.core = some c ∧ x.part = e.part ∧ x.vbase = e.vbase := by
  unfold installLeaf
  split
  next held =>
    obtain ⟨x, hx, hsame⟩ := List.any_eq_true.1 held
    simp only [Bool.and_eq_true, beq_iff_eq] at hsame
    obtain ⟨⟨⟨hdie, hcore⟩, hpart⟩, hbase⟩ := hsame
    exact ⟨x, hx, hdie, hcore, hpart, hbase⟩
  next => exact ⟨_, List.mem_cons_self, rfl, rfl, rfl, rfl⟩

/-! ### Lines of code (R64, R65) -/

/-- A line that a core comes to hold carries its bit besides those that it had; the line that makes room is another. -/
theorem mem_holdLine {s : State} {l : ILine} (hl : l ∈ s.ilines) (core : Nat) :
    { l with mask := l.mask ||| BitVec.ofNat 48 (2 ^ (core % 48)) } ∈ (holdLine l.die core l.pa s).ilines := by
  unfold holdLine
  split
  next none => exact absurd (List.find?_eq_none.1 none l hl) (by simp)
  next => exact List.mem_map.2 ⟨l, hl, by simp⟩

theorem getLsbD_or_coreBit (m : BitVec 48) (core : Nat) :
    (m ||| BitVec.ofNat 48 (2 ^ (core % 48))).getLsbD (core % 48) = true := by
  simp only [BitVec.getLsbD_or, BitVec.getLsbD_ofNat, Nat.testBit_two_pow_self, Nat.mod_lt core (by decide : 0 < 48), decide_true, Bool.and_self,
    Bool.or_true]

/-- A line that several cores come to hold carries the bit of each. -/
theorem mem_foldl_holdLine {s : State} {l : ILine} (hl : l ∈ s.ilines) (cores : List Nat) :
    ∃ m : BitVec 48, { l with mask := m } ∈ (cores.foldl (fun u c => holdLine l.die c l.pa u) s).ilines ∧
      (∀ i, l.mask.getLsbD i = true → m.getLsbD i = true) ∧ ∀ c ∈ cores, m.getLsbD (c % 48) = true := by
  induction cores generalizing s l with
  | nil => exact ⟨l.mask, hl, fun _ h => h, fun _ h => absurd h List.not_mem_nil⟩
  | cons c cs ih =>
    obtain ⟨m, hm, hkeep, hall⟩ := ih (mem_holdLine hl c)
    refine ⟨m, hm, fun i hi => hkeep i (by simp [hi]), fun x hx => ?_⟩
    rcases List.mem_cons.1 hx with rfl | hx
    · exact hkeep _ (getLsbD_or_coreBit ..)
    · exact hall x hx

/-- A good line of a partition enters the die's instruction level, where it must be installed, and some cores come to hold it. -/
def holdGood (die part pa va : Nat) (install : Bool) (cores : List Nat) (s : State) : State :=
  cores.foldl (fun u c => holdLine die c pa u) (if install then installLine die pa va (s.part part).asidbase s else s)

theorem holdGood_onlyCaches (die part pa va : Nat) (install : Bool) (cores : List Nat) (s : State) :
    OnlyCaches s (holdGood die part pa va install cores s) :=
  List.foldlRecOn _ _ (by
    split
    · exact installLine_onlyCaches ..
    · exact .refl s) fun _ hu _ _ => hu.trans (holdLine_onlyCaches ..)

/-- A line that a fill finds good and need not install has been checked under this address and identifier (R65). -/
theorem checkedLine_of_fillLine {s : State} {die core part va cb tb pa : Nat} (h : fillLine s die core part va cb tb = .good pa false) :
    checkedLine s die part pa va = true := by
  unfold fillLine at h
  split at h
  next => cases h
  next pa' _ _ =>
    by_cases hc : checkedLine s die part pa' va = true
    · rw [if_pos hc] at h
      cases h
      exact hc
    · rw [if_neg hc] at h
      dsimp only at h
      split at h
      next => cases h
      next =>
        split at h <;> cases h

/-- The line that a fill finds good stands in the die's instruction level once it is installed where it must be. -/
theorem exists_goodLine {s u : State} {die core part va cb tb pa : Nat} {install : Bool}
    (h : fillLine s die core part va cb tb = .good pa install) (hu : u.ilines = s.ilines) (hp : u.part part = s.part part) :
    ∃ l, l ∈ (if install then installLine die pa va (u.part part).asidbase u else u).ilines ∧
      l.die = die ∧ l.pa = pa ∧ l.va = va ∧ l.asid = (s.part part).asidbase := by
  cases install with
  | true => exact ⟨_, List.mem_cons_self, rfl, rfl, rfl, by rw [hp]⟩
  | false =>
    obtain ⟨l, hl, hsame⟩ := List.any_eq_true.1 (checkedLine_of_fillLine h)
    simp only [Bool.and_eq_true, beq_iff_eq] at hsame
    obtain ⟨⟨⟨hdie, hpa⟩, hva⟩, hasid⟩ := hsame
    exact ⟨l, hu.symm ▸ hl, hdie, hpa, hva, hasid⟩

/-- The level-1 cache of each core that comes to hold a good line has it under its address (R64). -/
theorem iline?_holdGood {s u : State} {die core part va cb tb pa : Nat} {install : Bool}
    (h : fillLine s die core part va cb tb = .good pa install) (hu : u.ilines = s.ilines) (hp : u.part part = s.part part)
    (hva : va % 128 = 0) {cores : List Nat} {c : Nat} (hc : c ∈ cores) (hd : die = dieOfCore c) :
    (iline? (holdGood die part pa va install cores u) c (s.part part).asidbase va).isSome = true := by
  obtain ⟨l, hl, rfl, rfl, rfl, hasid⟩ := exists_goodLine h hu hp
  obtain ⟨m, hm, _, hall⟩ := mem_foldl_holdLine hl cores
  refine List.find?_isSome.2 ⟨_, hm, ?_⟩
  simp [hd, hasid, hall c hc, Nat.div_mul_cancel (Nat.dvd_of_mod_eq_zero hva)]

/-! ### Demand fills (R69, R70; log entry 67) -/

/-- The fills that one fill of a line answers: those of the partition's groups that wait on it. -/
def waitingFills (s : State) (die va part : Nat) : List Fill :=
  s.fills.filter fun x => x.die == die && x.va == va && ((s.grp? x.gid).map Group.part) == some part

theorem mem_waitingFills {s : State} {die va part : Nat} {x : Fill} :
    x ∈ waitingFills s die va part ↔ x ∈ s.fills ∧ x.die = die ∧ x.va = va ∧ ∃ q, s.grp? x.gid = some q ∧ q.part = part := by
  simp [waitingFills, and_assoc]

/-- What a fill leaves in the caches of lines. -/
def FillResult.cached (res : FillResult) (die part va : Nat) (cores : List Nat) (s : State) : State :=
  match res with
  | .good pa install => holdGood die part pa va install cores s
  | .bad _ => s

theorem FillResult.cached_onlyCaches (res : FillResult) (die part va : Nat) (cores : List Nat) (s : State) :
    OnlyCaches s (res.cached die part va cores s) := by
  cases res with
  | good pa install => exact holdGood_onlyCaches ..
  | bad r => exact .refl s

/-- The causes that the groups of some fills will take. -/
def FillResult.faults (res : FillResult) (va : Nat) (ws : List Fill) : List FillFault :=
  match res with
  | .good _ _ => []
  | .bad r => ws.map fun x => ⟨x.gid, va, r⟩

/-- The prefetches of the line after a fill's, where it lies in the kernel's code (R70). -/
def nextLines (die part va : Nat) (h : KHeader) (ws : List Fill) : List Prefetch :=
  if inCode h (va + 128) then
    (ws.map Fill.core).eraseDups.map fun c => ⟨die, c, part, va + 128, h.codebase, h.codebase + h.codelen, h.tagbase⟩
  else []

theorem mem_nextLines {die part va : Nat} {h : KHeader} {ws : List Fill} {p : Prefetch} :
    p ∈ nextLines die part va h ws ↔ inCode h (va + 128) = true ∧
      ∃ x ∈ ws, p = ⟨die, x.core, part, va + 128, h.codebase, h.codebase + h.codelen, h.tagbase⟩ := by
  unfold nextLines
  split
  next hin => simp [hin, List.mem_eraseDups, eq_comm]
  next hout => simp [hout]

section
variable (s : State) (die : Nat) (f : Fill) (part : Nat) (h : KHeader)

/-- What the demand fill finds. -/
def demandFound : FillResult := fillLine s die f.core part f.va h.codebase h.tagbase

/-- The state once the demand fill has answered its fills and filled the caches. -/
def demandCached : State :=
  let ws := waitingFills s die f.va part
  (demandFound s die f part h).cached die part f.va (ws.map Fill.core).eraseDups
    (installCode die f.core part (fillVas s die f.core part f.va h.codebase h.tagbase)
      { markTables die (fillWalks s die f.core part f.va h.codebase h.tagbase) s with fills := s.fills.filter fun x => !ws.contains x })

/-- The state after the demand fill: besides, the causes that it leaves and the prefetches that it asks for. -/
def demandFilled : State :=
  let u := demandCached s die f part h
  { u with
    fillFaults := u.fillFaults ++ (demandFound s die f part h).faults f.va (waitingFills s die f.va part)
    prefetches := u.prefetches ++ nextLines die part f.va h (waitingFills s die f.va part) }

end

section
variable {s : State} {die : Nat} {f : Fill} {part : Nat} {h : KHeader}

theorem demandCached_onlyCaches :
    OnlyCaches { s with fills := s.fills.filter fun x => !(waitingFills s die f.va part).contains x } (demandCached s die f part h) :=
  (markTables_onlyCaches ..).trans ((installCode_onlyCaches ..).trans (FillResult.cached_onlyCaches ..))

/-- The fills that the demand fill answers go, and no others. -/
theorem mem_fills_demandFilled {x : Fill} :
    x ∈ (demandFilled s die f part h).fills ↔ x ∈ s.fills ∧ x ∉ waitingFills s die f.va part := by
  rw [show (demandFilled s die f part h).fills = _ from demandCached_onlyCaches.keeps State.fills]
  simp

theorem fillFaults_demandFilled : (demandFilled s die f part h).fillFaults =
    s.fillFaults ++ (demandFound s die f part h).faults f.va (waitingFills s die f.va part) :=
  congrArg (· ++ _) (demandCached_onlyCaches.keeps State.fillFaults)

theorem prefetches_demandFilled : (demandFilled s die f part h).prefetches =
    s.prefetches ++ nextLines die part f.va h (waitingFills s die f.va part) :=
  congrArg (· ++ _) (demandCached_onlyCaches.keeps State.prefetches)

/-- A demand fill of a good line gives it to the core of each group that waits, and leaves no cause. -/
theorem demandFilled_of_good {pa : Nat} {install : Bool} (hres : fillLine s die f.core part f.va h.codebase h.tagbase = .good pa install)
    (hva : f.va % 128 = 0) :
    (∀ x ∈ waitingFills s die f.va part, die = dieOfCore x.core →
        (iline? (demandFilled s die f part h) x.core (s.part part).asidbase f.va).isSome = true) ∧
      (demandFilled s die f part h).fillFaults = s.fillFaults := by
  have hfound : demandFound s die f part h = .good pa install := hres
  refine ⟨fun x hx hd => ?_, by simp [fillFaults_demandFilled, hfound, FillResult.faults]⟩
  have hcore : x.core ∈ ((waitingFills s die f.va part).map Fill.core).eraseDups := List.mem_eraseDups.2 (List.mem_map_of_mem hx)
  change (iline? (demandCached s die f part h) x.core (s.part part).asidbase f.va).isSome = true
  rw [demandCached, hfound]
  refine iline?_holdGood hres ?_ ?_ hva hcore hd
  · exact installCode_ilines ..
  · exact (installCode_onlyCaches ..).keeps (State.part · part)

/-- A demand fill of a line that is not good leaves its cause to each group that waits, and no line. -/
theorem demandFilled_of_bad {r : Report} (hres : fillLine s die f.core part f.va h.codebase h.tagbase = .bad r) :
    (∀ x, x ∈ (demandFilled s die f part h).fillFaults ↔
        x ∈ s.fillFaults ∨ ∃ y ∈ waitingFills s die f.va part, x = ⟨y.gid, f.va, r⟩) ∧
      (demandFilled s die f part h).ilines = s.ilines := by
  have hfound : demandFound s die f part h = .bad r := hres
  constructor
  · intro x
    simp [fillFaults_demandFilled, hfound, FillResult.faults, eq_comm]
  · change (demandCached s die f part h).ilines = s.ilines
    rw [demandCached, hfound]
    exact installCode_ilines ..

/-- What INSTRUCTION_FILL does where the slices that it reads take work. -/
theorem exec_instructionFill {g : Group} (hs : s.syn = []) (hf : (s.fills.find? fun x => x.die == die) = some f)
    (hg : s.grp? f.gid = some g) (hh : codeHdr s g = some h)
    (hw : awakeWords s (fillWalks s die f.core g.part f.va h.codebase h.tagbase ++
      fillReads s die f.core g.part f.va h.codebase h.tagbase) = true) :
    exec (.instructionFill die) s = .next (demandFilled s die f g.part h) := by
  have hgh : ((s.grp? f.gid).bind fun g => (codeHdr s g).map fun h => (g, h)) = some (g, h) := by simp [hg, hh]
  refine congrArg Host.Outcome.next ?_
  rw [demandFill, Prog.run_dyn, hf]
  dsimp only
  rw [hgh]
  dsimp only
  rw [hw, touchWords_run hs]
  simp only [Bool.not_true, Bool.false_eq_true, if_false, Prog.run_all_cons, Prog.run_all_nil, readTables_run hs, Prog.run_done]
  refine Prog.run_change_of_eq ?_ (demandCached_onlyCaches.keeps State.mem) (demandCached_onlyCaches.keeps State.mgmt)
  rw [demandFilled, demandCached, demandFound, nextLines]
  cases fillLine s die f.core g.part f.va h.codebase h.tagbase <;> cases inCode h (f.va + 128) <;>
    simp only [FillResult.faults, List.append_nil, Bool.false_eq_true, if_false] <;> rfl

end

/-! ### Prefetches (R70) -/

/-- The state once a prefetch has left, with what it found good in the caches. -/
def prefetched (s : State) (p : Prefetch) : State :=
  let u := { markTables p.die (fillWalks s p.die p.core p.part p.va p.lo p.tagbase) s with prefetches := s.prefetches.erase p }
  match fillLine s p.die p.core p.part p.va p.lo p.tagbase with
  | .good pa install =>
    holdGood p.die p.part pa p.va install [p.core] (installCode p.die p.core p.part (fillVas s p.die p.core p.part p.va p.lo p.tagbase) u)
  | .bad _ => u

section
variable {s : State} {p : Prefetch}

theorem prefetched_onlyCaches : OnlyCaches { s with prefetches := s.prefetches.erase p } (prefetched s p) := by
  refine (markTables_onlyCaches p.die (fillWalks s p.die p.core p.part p.va p.lo p.tagbase) _).trans ?_
  unfold prefetched
  split
  · exact (installCode_onlyCaches ..).trans (holdGood_onlyCaches ..)
  · exact .refl _

/-- A good line that is prefetched is in the level-1 cache of its core. -/
theorem iline?_prefetched {pa : Nat} {install : Bool} (hres : fillLine s p.die p.core p.part p.va p.lo p.tagbase = .good pa install)
    (hd : p.die = dieOfCore p.core) (hva : p.va % 128 = 0) :
    (iline? (prefetched s p) p.core (s.part p.part).asidbase p.va).isSome = true := by
  rw [prefetched, hres]
  refine iline?_holdGood hres ?_ ?_ hva List.mem_cons_self hd
  · exact installCode_ilines ..
  · exact (installCode_onlyCaches ..).keeps (State.part · p.part)

/-- A line that is not good brings none. -/
theorem ilines_prefetched_of_bad {r : Report} (hres : fillLine s p.die p.core p.part p.va p.lo p.tagbase = .bad r) :
    (prefetched s p).ilines = s.ilines := by
  rw [prefetched, hres]
  rfl

variable (hp : (s.prefetches.find? fun x => x.die == p.die) = some p)
include hp

/-- A prefetch of a line that its core holds only leaves. -/
theorem exec_sequentialPrefetch_held (hheld : (iline? s p.core (s.part p.part).asidbase p.va).isSome = true) :
    exec (.sequentialPrefetch p.die) s = .next { s with prefetches := s.prefetches.erase p } := by
  refine congrArg Host.Outcome.next ?_
  rw [prefetchLine, Prog.run_dyn, hp]
  dsimp only
  rw [if_pos hheld]
  rfl

/-- What SEQUENTIAL_PREFETCH does with another line where the slices that it reads take work. -/
theorem exec_sequentialPrefetch (hs : s.syn = []) (hheld : (iline? s p.core (s.part p.part).asidbase p.va).isSome = false)
    (hw : awakeWords s (fillWalks s p.die p.core p.part p.va p.lo p.tagbase ++
      fillReads s p.die p.core p.part p.va p.lo p.tagbase) = true) :
    exec (.sequentialPrefetch p.die) s = .next (prefetched s p) := by
  refine congrArg Host.Outcome.next ?_
  rw [prefetchLine, Prog.run_dyn, hp]
  dsimp only
  rw [hheld, hw, touchWords_run hs]
  simp only [Bool.not_true, Bool.false_eq_true, if_false, Prog.run_all_cons, Prog.run_all_nil, readTables_run hs, Prog.run_done]
  have hmem := (prefetched_onlyCaches (s := s) (p := p)).keeps State.mem
  have hmgmt := (prefetched_onlyCaches (s := s) (p := p)).keeps State.mgmt
  rw [prefetched] at hmem hmgmt ⊢
  cases hres : fillLine s p.die p.core p.part p.va p.lo p.tagbase with
  | good pa install =>
    rw [hres] at hmem hmgmt
    exact Prog.run_change_of_eq rfl hmem hmgmt
  | bad r => rfl

end

/-! ### Walks for pf (R228, R230) -/

/-- The state once a walk for pf has left, with the leaf that it found good in the caches. -/
def walked (s : State) (p : Prefetch) : State :=
  let u := { markTables p.die (transReads s p.die (some p.core) p.part (BitVec.ofNat 64 p.va) needR) s with walks := s.walks.erase p }
  match translate s p.die (some p.core) p.part (BitVec.ofNat 64 p.va) needR with
  | .ok _ e => installLeaf (some p.core) { e with die := p.die } u
  | .fail _ => u

section
variable {s : State} {p : Prefetch}

theorem walked_onlyCaches : OnlyCaches { s with walks := s.walks.erase p } (walked s p) := by
  refine (markTables_onlyCaches p.die (transReads s p.die (some p.core) p.part (BitVec.ofNat 64 p.va) needR) _).trans ?_
  unfold walked
  split
  · exact installLeaf_onlyCaches ..
  · exact .refl _

/-- The leaf that a walk finds good is in the cache of its core. -/
theorem mem_tlb_walked {pa : Nat} {e : TlbEntry}
    (h : translate s p.die (some p.core) p.part (BitVec.ofNat 64 p.va) needR = .ok pa e) :
    ∃ x, x ∈ (walked s p).tlb ∧ x.die = p.die ∧ x.core = some p.core ∧ x.part = e.part ∧ x.vbase = e.vbase := by
  rw [walked, h]
  exact mem_installLeaf ..

/-- A walk that ends with another outcome brings none. -/
theorem tlb_walked_of_fail {o : Nat} (h : translate s p.die (some p.core) p.part (BitVec.ofNat 64 p.va) needR = .fail o) :
    (walked s p).tlb = s.tlb := by
  rw [walked, h]
  rfl

/-- What TRANSLATION_WALK does where the slices that it reads take work. -/
theorem exec_translationWalk (hs : s.syn = []) (hp : (s.walks.find? fun x => x.die == p.die) = some p)
    (hw : awakeWords s (transReads s p.die (some p.core) p.part (BitVec.ofNat 64 p.va) needR) = true) :
    exec (.translationWalk p.die) s = .next (walked s p) := by
  refine congrArg Host.Outcome.next ?_
  rw [prefetchWalk, Prog.run_dyn, hp]
  dsimp only
  rw [hw, Bool.not_true, if_neg Bool.false_ne_true, Prog.run_all_cons, Prog.run_all_cons, Prog.run_all_nil, readTables_run hs]
  exact Prog.run_change_of_eq rfl (walked_onlyCaches.keeps State.mem) (walked_onlyCaches.keeps State.mgmt)

end

/-! ### Pass-over (R123, R133) -/

/-- What PASS_OVER does with an instruction outside the C format. -/
theorem exec_passOver {s : State} {g : Group} {i : Instr} (hg : s.grp? g.gid = some g) (hm : mayFetch s g = true) (hpo : g.po = true)
    (hactive : g.active = 0) (hi : fetch s g = .instr i) (hc : isCFormat i = false) (hr : ∀ w, i ≠ .reservedMajor w) :
    exec (.passOver g.gid) s = .next (s.modGrp g.gid fun h => { h with pc := h.pc + instrSize i, taken := false }) := by
  refine congrArg Host.Outcome.next ?_
  rw [passOne, Prog.run_dyn, hg]
  dsimp only
  rw [hm, hpo, hactive, hi]
  split
  next h => exact absurd h (by decide)
  next =>
    split
    next w h => exact absurd (Fetched.instr.inj h) (hr w)
    next h =>
      cases h
      rw [hc]
      rfl
    next _ h => exact absurd rfl (h _)

/-! ### O46 -/

/-- Settles O46: `exec_instructionFill`, `exec_sequentialPrefetch`, `exec_translationWalk` and `exec_passOver` say which state each move
leads to, and the lemmas on `demandFilled`, `prefetched` and `walked` what it holds. -/
theorem fillsWalksAndPassOver : Obligations.FillsWalksAndPassOver := by
  unfold Obligations.FillsWalksAndPassOver
  refine ⟨fun s die hs => ⟨?_, ?_, ?_⟩, ?_⟩
  · intro f g h hf hg hh hva hw
    refine ⟨_, exec_instructionFill hs hf hg hh hw, demandCached_onlyCaches.keeps State.mem, demandCached_onlyCaches.keeps State.groups, ?_⟩
    intro waits
    have hwaits (x : Fill) : x ∈ waitingFills s die f.va g.part ↔ waits x := mem_waitingFills
    refine ⟨fun x => by rw [mem_fills_demandFilled, hwaits], ?_, fun p => ?_⟩
    · split
      next hres =>
        obtain ⟨hlines, hfaults⟩ := demandFilled_of_good hres hva
        exact ⟨fun x hx hd => hlines x ((hwaits x).2 hx) (hx.2.1.symm.trans hd), hfaults⟩
      next hres =>
        obtain ⟨hfaults, hlines⟩ := demandFilled_of_bad hres
        exact ⟨fun x => (hfaults x).trans (by simp only [hwaits]), hlines⟩
    · rw [prefetches_demandFilled, List.mem_append, mem_nextLines]
      simp only [hwaits]
  · intro p hp hd hva
    obtain rfl : p.die = die := by simpa using List.find?_some hp
    refine ⟨exec_sequentialPrefetch_held hp, fun hheld hw => ⟨_, exec_sequentialPrefetch hp hs hheld hw,
      prefetched_onlyCaches.keeps State.mem, prefetched_onlyCaches.keeps State.groups, prefetched_onlyCaches.keeps State.fillFaults,
      prefetched_onlyCaches.keeps State.prefetches, ?_⟩⟩
    split
    next hres => exact iline?_prefetched hres hd hva
    next hres => exact ilines_prefetched_of_bad hres
  · intro p hp hw
    obtain rfl : p.die = die := by simpa using List.find?_some hp
    refine ⟨_, exec_translationWalk hs hp hw, walked_onlyCaches.keeps State.mem, walked_onlyCaches.keeps State.groups,
      walked_onlyCaches.keeps State.walks, ?_⟩
    split
    next hleaf => exact mem_tlb_walked hleaf
    next hfail => exact tlb_walked_of_fail hfail
  · intro s g i hg hm hpo hactive hi hc hr
    exact ⟨_, exec_passOver hg hm hpo hactive hi hc hr, rfl, State.grp?_modGrp_self _ _ _ _ hg fun _ hx => hx,
      fun k hk => State.grp?_modGrp_ne _ _ _ _ (fun _ hx => hx) hk⟩

end Sys2Proof.Machine
end

section
/-! PROOFS. The bytes of every instruction decode to it (R71, R77 to R93, R106), put together from the laws of its formats; O28. -/

namespace Sys2Proof.Laws.RoundTrip

set_option Elab.async false

/-- The round trip of every instruction of the opcode map, by its own law; an operation of the part stands for no bytes. -/
theorem of_instr (i : Instr) : Statement i := by
  cases i with
  | addVr h f => exact addVr h f
  | subVr h f => exact subVr h f
  | mulVr h f => exact mulVr h f
  | mulhi h f => exact mulhi h f
  | minVr h f => exact minVr h f
  | maxVr h f => exact maxVr h f
  | abs h f => exact abs h f
  | neg h f => exact neg h f
  | div h f => exact div h f
  | rem h f => exact rem h f
  | shlVr h f => exact shlVr h f
  | shrVr h f => exact shrVr h f
  | rshrVr h f => exact rshrVr h f
  | adiff h f => exact adiff h f
  | mad h f => exact mad h f
  | andVr h f => exact andVr h f
  | orVr h f => exact orVr h f
  | xorVr h f => exact xorVr h f
  | andn h f => exact andn h f
  | notVr h f => exact notVr h f
  | movVr h f => exact movVr h f
  | popc h f => exact popc h f
  | clz h f => exact clz h f
  | ctz h f => exact ctz h f
  | brev h f => exact brev h f
  | bdep h f => exact bdep h f
  | bext h f => exact bext h f
  | bperm h f => exact bperm h f
  | gfmat h f => exact gfmat h f
  | bfx h f => exact bfx h f
  | bfi h f => exact bfi h f
  | addVi h f => exact addVi h f
  | rsub h f => exact rsub h f
  | mulVi h f => exact mulVi h f
  | andVi h f => exact andVi h f
  | orVi h f => exact orVi h f
  | xorVi h f => exact xorVi h f
  | shlVi h f => exact shlVi h f
  | shrVi h f => exact shrVi h f
  | rshrVi h f => exact rshrVi h f
  | minVi h f => exact minVi h f
  | maxVi h f => exact maxVi h f
  | movVi h f => exact movVi h f
  | addVs h f => exact addVs h f
  | subVs h f => exact subVs h f
  | mulVs h f => exact mulVs h f
  | andVs h f => exact andVs h f
  | orVs h f => exact orVs h f
  | xorVs h f => exact xorVs h f
  | shlVs h f => exact shlVs h f
  | shrVs h f => exact shrVs h f
  | minVs h f => exact minVs h f
  | maxVs h f => exact maxVs h f
  | movVs h f => exact movVs h f
  | lea h f => exact lea h f
  | fma h f => exact fma h f
  | sqrt h f => exact sqrt h f
  | exp2 h f => exact exp2 h f
  | log2 h f => exact log2 h f
  | rcp h f => exact rcp h f
  | rsqrt h f => exact rsqrt h f
  | tanh h f => exact tanh h f
  | sigm h f => exact sigm h f
  | rndi h f => exact rndi h f
  | fclass h f => exact fclass h f
  | scale h f => exact scale h f
  | copysign h f => exact copysign h f
  | cvt h f => exact cvt h f
  | cvtTodx h f => exact cvtTodx h f
  | cvtFromdx h f => exact cvtFromdx h f
  | tagSet h f => exact tagSet h f
  | tagChk h f => exact tagChk h f
  | cmp h f => exact cmp h f
  | pand h f => exact pand h f
  | por h f => exact por h f
  | pxor h f => exact pxor h f
  | pnot h f => exact pnot h f
  | pmov h f => exact pmov h f
  | pset h f => exact pset h f
  | xv h f => exact xv h f
  | kpush h f => exact kpush h f
  | kpop h f => exact kpop h f
  | kpopKeep h f => exact kpopKeep h f
  | kpopDepth h f => exact kpopDepth h f
  | kclr h f => exact kclr h f
  | shflVr h f => exact shflVr h f
  | shflVs h f => exact shflVs h f
  | vote h f => exact vote h f
  | ballot h f => exact ballot h f
  | scan h f => exact scan h f
  | red h f => exact red h f
  | ld h f => exact ld h f
  | st h f => exact st h f
  | ldS h f => exact ldS h f
  | stS h f => exact stS h f
  | ldu h f => exact ldu h f
  | stu h f => exact stu h f
  | pf h f => exact pf h f
  | ldb h f => exact ldb h f
  | stb h f => exact stb h f
  | atM h f x => exact atM h f x
  | atc h f x => exact atc h f x
  | sigAdd h f => exact sigAdd h f
  | waitGe h f => exact waitGe h f
  | fence h f => exact fence h f
  | xfence h f => exact xfence h f
  | addUr h f => exact addUr h f
  | subUr h f => exact subUr h f
  | mulUr h f => exact mulUr h f
  | divUr h f => exact divUr h f
  | remUr h f => exact remUr h f
  | andUr h f => exact andUr h f
  | orUr h f => exact orUr h f
  | xorUr h f => exact xorUr h f
  | shlUr h f => exact shlUr h f
  | shrUr h f => exact shrUr h f
  | minUr h f => exact minUr h f
  | maxUr h f => exact maxUr h f
  | cmpUr h f => exact cmpUr h f
  | addUi h f => exact addUi h f
  | movUi h f => exact movUi h f
  | movSv h f => exact movSv h f
  | movl h f x => exact movl h f x
  | ifC h f => exact ifC h f
  | elseC h f => exact elseC h f
  | endifC h f => exact endifC h f
  | loopC h f => exact loopC h f
  | endloopC h f => exact endloopC h f
  | brkC h f => exact brkC h f
  | contC h f => exact contC h f
  | retC h f => exact retC h f
  | exitC h f => exact exitC h f
  | callC h f x => exact callC h f x
  | launch h f => exact launch h f
  | bar h f => exact bar h f
  | nop h f => exact nop h f
  | rds h f => exact rds h f
  | cp h f => exact cp h f
  | cpx h f x => exact cpx h f x
  | mres h f => exact mres h f
  | mrel h f => exact mrel h f
  | mld h f => exact mld h f
  | mst h f => exact mst h f
  | mzero h f => exact mzero h f
  | osmMax h f => exact osmMax h f
  | osmAcc h f => exact osmAcc h f
  | mloop h f x => exact mloop h f x
  | mloopSp h f x => exact mloopSp h f x
  | fbRed h f => exact fbRed h f
  | fbBcast h f => exact fbBcast h f
  | qPush h f => exact qPush h f
  | qPop h f => exact qPop h f
  | binPut h f => exact binPut h f
  | jyPush h f => exact jyPush h f
  | jyPop h f => exact jyPop h f
  | tsDesc h f => exact tsDesc h f
  | tsBack h f => exact tsBack h f
  | tsExp h f => exact tsExp h f
  | tsRoot h f => exact tsRoot h f
  | tsAnc h f => exact tsAnc h f
  | trap h f => exact trap h f
  | syscall h f => exact syscall h f
  | diagSt h f => exact diagSt h f
  | _ => exact event rfl

end Sys2Proof.Laws.RoundTrip

namespace Sys2Proof.Machine

/-- Settles O28, by cases on the instruction: each is the round trip of its entry in the opcode map. -/
theorem decodeEncode : Obligations.DecodeEncode := fun i => Laws.RoundTrip.of_instr i

end Sys2Proof.Machine
end

section
/-! PROOFS. A word is made of the fields that it is read into, where its reserved bits are zero (R71 to R93), and what is decoded encodes to
what it was decoded from; O29. -/

namespace Sys2Proof

set_option Elab.async false

/-! ### Fields put back in their places -/

/-- A field put back where it was read is the word under the field's mask. -/
theorem fieldAt_extract (w : Word) (lo n : Nat) : fieldAt (w.extractLsb' lo n) lo = w &&& fieldAt (BitVec.allOnes n) lo := by
  apply BitVec.eq_of_getLsbD_eq
  intro i hi
  rw [BitVec.getLsbD_and, fieldAt_getLsbD, fieldAt_getLsbD, BitVec.getLsbD_extractLsb', BitVec.getLsbD_allOnes]
  by_cases h : i < lo
  · simp [h]
  · rw [show lo + (i - lo) = i by omega]
    simp [hi, h, Bool.and_comm]

/-- A flag the same. -/
theorem bitAt_getLsbD (w : Word) (lo : Nat) : bitAt (w.getLsbD lo) lo = w &&& bitAt true lo := by
  have h : BitVec.ofBool (w.getLsbD lo) = w.extractLsb' lo 1 := by
    apply BitVec.eq_of_getLsbD_eq
    intro i hi
    obtain rfl : i = 0 := by omega
    simp
  rw [bitAt, h, fieldAt_extract]
  rfl

/-- A word is what it shows under a mask, where the bits outside the mask are zero. -/
theorem and_eq_self (w m r : Word) (h : w &&& r = 0) (hc : m ||| r = BitVec.allOnes 64) : w &&& m = w := by
  calc w &&& m = w &&& m ||| w &&& r := by rw [h]; exact BitVec.or_zero.symm
    _ = w &&& (m ||| r) := BitVec.and_or_distrib_left.symm
    _ = w := by rw [hc, BitVec.and_allOnes]

/-! ### The words of the formats -/

section
variable {w : Word} {m : BitVec 8}

theorem putVR_getVR (hm : w.extractLsb' 56 8 = m) (h : w &&& 0x3 = 0) : putVR m (hdrOf w) (getVR w) = w := by
  subst hm
  simp only [putVR, putHdr, hdrOf, getVR, fieldAt_extract, bitAt_getLsbD, ← BitVec.and_or_distrib_left]
  exact and_eq_self _ _ _ h (by decide)

theorem putVI_getVI (hm : w.extractLsb' 56 8 = m) (h : w &&& 0x5400 = 0) : putVI m (hdrOf w) (getVI w) = w := by
  subst hm
  simp only [putVI, putHdr, hdrOf, getVI, fieldAt_extract, bitAt_getLsbD, ← BitVec.and_or_distrib_left]
  exact and_eq_self _ _ _ h (by decide)

theorem putVS_getVS (hm : w.extractLsb' 56 8 = m) (h : w &&& 0x1403 = 0) : putVS m (hdrOf w) (getVS w) = w := by
  subst hm
  simp only [putVS, putHdr, hdrOf, getVS, fieldAt_extract, bitAt_getLsbD, ← BitVec.and_or_distrib_left]
  exact and_eq_self _ _ _ h (by decide)

theorem putV3_getV3 (hm : w.extractLsb' 56 8 = m) (h : w &&& 0x1 = 0) : putV3 m (hdrOf w) (getV3 w) = w := by
  subst hm
  simp only [putV3, putHdr, hdrOf, getV3, fieldAt_extract, bitAt_getLsbD, ← BitVec.and_or_distrib_left]
  exact and_eq_self _ _ _ h (by decide)

theorem putVP_getVP (hm : w.extractLsb' 56 8 = m) (h : w &&& 0x18000000001 = 0) : putVP m (hdrOf w) (getVP w) = w := by
  subst hm
  simp only [putVP, putHdr, hdrOf, getVP, fieldAt_extract, bitAt_getLsbD, ← BitVec.and_or_distrib_left]
  exact and_eq_self _ _ _ h (by decide)

theorem putCV_getCV (hm : w.extractLsb' 56 8 = m) (h : w &&& 0x17C3 = 0) : putCV m (hdrOf w) (getCV w) = w := by
  subst hm
  simp only [putCV, putHdr, hdrOf, getCV, fieldAt_extract, bitAt_getLsbD, ← BitVec.and_or_distrib_left]
  exact and_eq_self _ _ _ h (by decide)

theorem putPR_getPR (hm : w.extractLsb' 56 8 = m) (h : w &&& 0x0 = 0) : putPR m (hdrOf w) (getPR w) = w := by
  subst hm
  simp only [putPR, putHdr, hdrOf, getPR, fieldAt_extract, bitAt_getLsbD, ← BitVec.and_or_distrib_left]
  exact and_eq_self _ _ _ h (by decide)

theorem putSV_getSV (hm : w.extractLsb' 56 8 = m) (h : w &&& 0x1800000143F = 0) : putSV m (hdrOf w) (getSV w) = w := by
  subst hm
  simp only [putSV, putHdr, hdrOf, getSV, fieldAt_extract, bitAt_getLsbD, ← BitVec.and_or_distrib_left]
  exact and_eq_self _ _ _ h (by decide)

theorem putRS_getRS (hm : w.extractLsb' 56 8 = m) (h : w &&& 0x3000FFFFFF = 0) : putRS m (hdrOf w) (getRS w) = w := by
  subst hm
  simp only [putRS, putHdr, hdrOf, getRS, fieldAt_extract, bitAt_getLsbD, ← BitVec.and_or_distrib_left]
  exact and_eq_self _ _ _ h (by decide)

theorem putXF_getXF (hm : w.extractLsb' 56 8 = m) (h : w &&& 0x1FFFFF = 0) : putXF m (hdrOf w) (getXF w) = w := by
  subst hm
  simp only [putXF, putHdr, hdrOf, getXF, fieldAt_extract, bitAt_getLsbD, ← BitVec.and_or_distrib_left]
  exact and_eq_self _ _ _ h (by decide)

theorem putMF_getMF (hm : w.extractLsb' 56 8 = m) (h : w &&& 0x0 = 0) : putMF m (hdrOf w) (getMF w) = w := by
  subst hm
  simp only [putMF, putHdr, hdrOf, getMF, fieldAt_extract, bitAt_getLsbD, ← BitVec.and_or_distrib_left]
  exact and_eq_self _ _ _ h (by decide)

theorem putUR_getUR (hm : w.extractLsb' 56 8 = m) (h : w &&& 0x0 = 0) : putUR m (hdrOf w) (getUR w) = w := by
  subst hm
  simp only [putUR, putHdr, hdrOf, getUR, fieldAt_extract, bitAt_getLsbD, ← BitVec.and_or_distrib_left]
  exact and_eq_self _ _ _ h (by decide)

theorem putUI_getUI (hm : w.extractLsb' 56 8 = m) (h : w &&& 0x1 = 0) : putUI m (hdrOf w) (getUI w) = w := by
  subst hm
  simp only [putUI, putHdr, hdrOf, getUI, fieldAt_extract, bitAt_getLsbD, ← BitVec.and_or_distrib_left]
  exact and_eq_self _ _ _ h (by decide)

theorem putCF_getCF (hm : w.extractLsb' 56 8 = m) (h : w &&& 0x3F = 0) : putCF m (hdrOf w) (getCF w) = w := by
  subst hm
  simp only [putCF, putHdr, hdrOf, getCF, fieldAt_extract, bitAt_getLsbD, ← BitVec.and_or_distrib_left]
  exact and_eq_self _ _ _ h (by decide)

theorem putAtX_getAtX (hm : w.extractLsb' 56 8 = 0xFF) (h : w &&& 0x7FFFFFFF = 0) : putAtX (getAtX w) = w := by
  simp only [putAtX, getAtX, ← hm, fieldAt_extract, bitAt_getLsbD, ← BitVec.and_or_distrib_left]
  exact and_eq_self _ _ _ h (by decide)

theorem putAtcX_getAtcX (hm : w.extractLsb' 56 8 = 0xFF) (h : w &&& 0x3FFFF = 0) : putAtcX (getAtcX w) = w := by
  simp only [putAtcX, getAtcX, ← hm, fieldAt_extract, bitAt_getLsbD, ← BitVec.and_or_distrib_left]
  exact and_eq_self _ _ _ h (by decide)

theorem putMloopX_getMloopX (hm : w.extractLsb' 56 8 = 0xFF) (h : w &&& 0xFFFFC000000000 = 0) : putMloopX (getMloopX w) = w := by
  simp only [putMloopX, getMloopX, ← hm, fieldAt_extract, bitAt_getLsbD, ← BitVec.and_or_distrib_left]
  exact and_eq_self _ _ _ h (by decide)

theorem putCpxX_getCpxX (hm : w.extractLsb' 56 8 = 0xFF) (h : w &&& 0xFF000000000000 = 0) : putCpxX (getCpxX w) = w := by
  simp only [putCpxX, getCpxX, ← hm, fieldAt_extract, ← BitVec.and_or_distrib_left]
  exact and_eq_self _ _ _ h (by decide)

/-- An extension word without a table of its own: `n` low bits under the marker (R92, R163). -/
theorem marker_low (n : Nat) (r : Word) (hm : w.extractLsb' 56 8 = 0xFF) (h : w &&& r = 0)
    (hc : fieldAt (BitVec.allOnes 8) 56 ||| fieldAt (BitVec.allOnes n) 0 ||| r = BitVec.allOnes 64) :
    fieldAt (0xFF : BitVec 8) 56 ||| fieldAt (w.extractLsb' 0 n) 0 = w := by
  rw [← hm, fieldAt_extract, fieldAt_extract, ← BitVec.and_or_distrib_left]
  exact and_eq_self _ _ _ h hc

end

/-! ### The opcode map -/

/-- What the opcode map may make of the words `w` and `x` under a major: an entry of a format whose encoding has that major (R76, R93,
R103), or a reserved major (R105). -/
inductive ReadUnder (m : BitVec 8) (w x : Word) : Raw → Prop
  | vr (c : Hdr → VR → Instr) (hc : ∀ h f, encode (c h f) = [putVR m h f]) : ReadUnder m w x (rawVR c w)
  | vi (c : Hdr → VI → Instr) (hc : ∀ h f, encode (c h f) = [putVI m h f]) : ReadUnder m w x (rawVI c w)
  | vs (c : Hdr → VS → Instr) (hc : ∀ h f, encode (c h f) = [putVS m h f]) : ReadUnder m w x (rawVS c w)
  | v3 (c : Hdr → V3 → Instr) (hc : ∀ h f, encode (c h f) = [putV3 m h f]) : ReadUnder m w x (rawV3 c w)
  | vp (c : Hdr → VP → Instr) (hc : ∀ h f, encode (c h f) = [putVP m h f]) : ReadUnder m w x (rawVP c w)
  | cv (c : Hdr → CV → Instr) (hc : ∀ h f, encode (c h f) = [putCV m h f]) : ReadUnder m w x (rawCV c w)
  | pr (c : Hdr → PR → Instr) (hc : ∀ h f, encode (c h f) = [putPR m h f]) : ReadUnder m w x (rawPR c w)
  | sv (c : Hdr → SV → Instr) (hc : ∀ h f, encode (c h f) = [putSV m h f]) : ReadUnder m w x (rawSV c w)
  | rs (c : Hdr → RS → Instr) (hc : ∀ h f, encode (c h f) = [putRS m h f]) : ReadUnder m w x (rawRS c w)
  | xf (c : Hdr → XF → Instr) (hc : ∀ h f, encode (c h f) = [putXF m h f]) : ReadUnder m w x (rawXF c w)
  | mf (c : Hdr → MF → Instr) (hc : ∀ h f, encode (c h f) = [putMF m h f]) : ReadUnder m w x (rawMF c w)
  | ur (c : Hdr → UR → Instr) (hc : ∀ h f, encode (c h f) = [putUR m h f]) : ReadUnder m w x (rawUR c w)
  | ui (c : Hdr → UI → Instr) (hc : ∀ h f, encode (c h f) = [putUI m h f]) : ReadUnder m w x (rawUI c w)
  | cf (c : Hdr → CF → Instr) (hc : ∀ h f, encode (c h f) = [putCF m h f]) : ReadUnder m w x (rawCF c w)
  | atX (c : Hdr → MF → AtX → Instr) (hc : ∀ h f e, encode (c h f e) = [putMF m h f, putAtX e]) : ReadUnder m w x (rawAtX c w x)
  | atcX (c : Hdr → MF → AtcX → Instr) (hc : ∀ h f e, encode (c h f e) = [putMF m h f, putAtcX e]) : ReadUnder m w x (rawAtcX c w x)
  | mloopX (c : Hdr → UR → MloopX → Instr) (hc : ∀ h f e, encode (c h f e) = [putUR m h f, putMloopX e]) :
    ReadUnder m w x (rawMloopX c w x)
  | cpxX (c : Hdr → UR → CpxX → Instr) (hc : ∀ h f e, encode (c h f e) = [putUR m h f, putCpxX e]) : ReadUnder m w x (rawCpxX c w x)
  | movl (hm : m = 0xE1) : ReadUnder m w x (rawMovl w x)
  | call (hm : m = 0xE0) : ReadUnder m w x (rawCall w x)
  | reserved : ReadUnder m w x (rawReserved w)

/-- The words that a reading stands for, where it is read from `w` and `x`. -/
def Raw.words (r : Raw) (w x : Word) : List Word := if r.ext.isSome then [w, x] else [w]

/-- The conditions of R71 and R73 on the bits outside the fields: no reserved bit, and the marker in an extension word. -/
def Raw.Plain (r : Raw) (w x : Word) : Prop := w &&& r.mask = 0 ∧ ∀ e, r.ext = some e → x.extractLsb' 56 8 = 0xFF ∧ x &&& e = 0

theorem ReadUnder.encode_instr {m : BitVec 8} {w x : Word} {r : Raw} (hr : ReadUnder m w x r) (hm : w.extractLsb' 56 8 = m)
    (hp : r.Plain w x) : encode r.instr = r.words w x := by
  obtain ⟨hw, hx⟩ := hp
  cases hr with
  | vr c hc => exact (hc _ _).trans (congrArg (fun v => [v]) (putVR_getVR hm hw))
  | vi c hc => exact (hc _ _).trans (congrArg (fun v => [v]) (putVI_getVI hm hw))
  | vs c hc => exact (hc _ _).trans (congrArg (fun v => [v]) (putVS_getVS hm hw))
  | v3 c hc => exact (hc _ _).trans (congrArg (fun v => [v]) (putV3_getV3 hm hw))
  | vp c hc => exact (hc _ _).trans (congrArg (fun v => [v]) (putVP_getVP hm hw))
  | cv c hc => exact (hc _ _).trans (congrArg (fun v => [v]) (putCV_getCV hm hw))
  | pr c hc => exact (hc _ _).trans (congrArg (fun v => [v]) (putPR_getPR hm hw))
  | sv c hc => exact (hc _ _).trans (congrArg (fun v => [v]) (putSV_getSV hm hw))
  | rs c hc => exact (hc _ _).trans (congrArg (fun v => [v]) (putRS_getRS hm hw))
  | xf c hc => exact (hc _ _).trans (congrArg (fun v => [v]) (putXF_getXF hm hw))
  | mf c hc => exact (hc _ _).trans (congrArg (fun v => [v]) (putMF_getMF hm hw))
  | ur c hc => exact (hc _ _).trans (congrArg (fun v => [v]) (putUR_getUR hm hw))
  | ui c hc => exact (hc _ _).trans (congrArg (fun v => [v]) (putUI_getUI hm hw))
  | cf c hc => exact (hc _ _).trans (congrArg (fun v => [v]) (putCF_getCF hm hw))
  | atX c hc => exact (hc _ _ _).trans (congrArg₂ (fun v y => [v, y]) (putMF_getMF hm hw) (putAtX_getAtX (hx _ rfl).1 (hx _ rfl).2))
  | atcX c hc => exact (hc _ _ _).trans (congrArg₂ (fun v y => [v, y]) (putMF_getMF hm hw) (putAtcX_getAtcX (hx _ rfl).1 (hx _ rfl).2))
  | mloopX c hc =>
    exact (hc _ _ _).trans (congrArg₂ (fun v y => [v, y]) (putUR_getUR hm hw) (putMloopX_getMloopX (hx _ rfl).1 (hx _ rfl).2))
  | cpxX c hc => exact (hc _ _ _).trans (congrArg₂ (fun v y => [v, y]) (putUR_getUR hm hw) (putCpxX_getCpxX (hx _ rfl).1 (hx _ rfl).2))
  | movl h => exact congrArg₂ (fun v y => [v, y]) (putUR_getUR (hm.trans h) hw) (marker_low 56 _ (hx _ rfl).1 (hx _ rfl).2 (by decide))
  | call h => exact congrArg₂ (fun v y => [v, y]) (putCF_getCF (hm.trans h) hw) (marker_low 32 _ (hx _ rfl).1 (hx _ rfl).2 (by decide))
  | reserved => rfl

theorem rawKpop_under (w x : Word) : ReadUnder 0x6A w x (rawKpop w) := by
  unfold rawKpop
  split
  · exact .vr _ fun _ _ => rfl
  · exact .vr _ fun _ _ => rfl
  · exact .vr _ fun _ _ => rfl

/-! ### The rows of the opcode map

In each major the map has an entry of a format, and the entry's encoding has that major. -/

theorem rawRow0_under (w x : Word) (n : Nat) : ReadUnder (0x0#4 ++ BitVec.ofNat 4 n) w x (rawRow0 n w x) := by
  unfold rawRow0
  split <;> constructor <;> intros <;> rfl

theorem rawRow1_under (w x : Word) (n : Nat) : ReadUnder (0x1#4 ++ BitVec.ofNat 4 n) w x (rawRow1 n w x) := by
  unfold rawRow1
  split <;> constructor <;> intros <;> rfl

theorem rawRow2_under (w x : Word) (n : Nat) : ReadUnder (0x2#4 ++ BitVec.ofNat 4 n) w x (rawRow2 n w x) := by
  unfold rawRow2
  split <;> constructor <;> intros <;> rfl

theorem rawRow3_under (w x : Word) (n : Nat) : ReadUnder (0x3#4 ++ BitVec.ofNat 4 n) w x (rawRow3 n w x) := by
  unfold rawRow3
  split <;> constructor <;> intros <;> rfl

theorem rawRow4_under (w x : Word) (n : Nat) : ReadUnder (0x4#4 ++ BitVec.ofNat 4 n) w x (rawRow4 n w x) := by
  unfold rawRow4
  split <;> constructor <;> intros <;> rfl

theorem rawRow5_under (w x : Word) (n : Nat) : ReadUnder (0x5#4 ++ BitVec.ofNat 4 n) w x (rawRow5 n w x) := by
  unfold rawRow5
  split <;> constructor <;> intros <;> rfl

theorem rawRow6_under (w x : Word) (n : Nat) : ReadUnder (0x6#4 ++ BitVec.ofNat 4 n) w x (rawRow6 n w x) := by
  unfold rawRow6
  split
  case h_10 => exact rawKpop_under w x
  all_goals constructor <;> intros <;> rfl

theorem rawRow7_under (w x : Word) (n : Nat) : ReadUnder (0x7#4 ++ BitVec.ofNat 4 n) w x (rawRow7 n w x) := by
  unfold rawRow7
  split <;> constructor <;> intros <;> rfl

theorem rawRow8_under (w x : Word) (n : Nat) : ReadUnder (0x8#4 ++ BitVec.ofNat 4 n) w x (rawRow8 n w x) := by
  unfold rawRow8
  split <;> constructor <;> intros <;> rfl

theorem rawRow9_under (w x : Word) (n : Nat) : ReadUnder (0x9#4 ++ BitVec.ofNat 4 n) w x (rawRow9 n w x) := by
  unfold rawRow9
  split <;> constructor <;> intros <;> rfl

theorem rawRowA_under (w x : Word) (n : Nat) : ReadUnder (0xA#4 ++ BitVec.ofNat 4 n) w x (rawRowA n w x) := by
  unfold rawRowA
  split <;> constructor <;> intros <;> rfl

theorem rawRowB_under (w x : Word) (n : Nat) : ReadUnder (0xB#4 ++ BitVec.ofNat 4 n) w x (rawRowB n w x) := by
  unfold rawRowB
  split <;> constructor <;> intros <;> rfl

theorem rawRowC_under (w x : Word) (n : Nat) : ReadUnder (0xC#4 ++ BitVec.ofNat 4 n) w x (rawRowC n w x) := by
  unfold rawRowC
  split <;> constructor <;> intros <;> rfl

theorem rawRowD_under (w x : Word) (n : Nat) : ReadUnder (0xD#4 ++ BitVec.ofNat 4 n) w x (rawRowD n w x) := by
  unfold rawRowD
  split <;> constructor <;> intros <;> rfl

theorem rawRowE_under (w x : Word) (n : Nat) : ReadUnder (0xE#4 ++ BitVec.ofNat 4 n) w x (rawRowE n w x) := by
  unfold rawRowE
  split <;> constructor <;> intros <;> rfl

/-- The opcode map (R103). -/
theorem rawOf_under (w x : Word) : ReadUnder (w.extractLsb' 56 8) w x (rawOf w x) := by
  have hm : w.extractLsb' 56 8 = BitVec.ofNat 4 (w.extractLsb' 60 4).toNat ++ BitVec.ofNat 4 (w.extractLsb' 56 4).toNat := by
    rw [BitVec.ofNat_toNat, BitVec.ofNat_toNat, BitVec.setWidth_eq, BitVec.setWidth_eq]
    apply BitVec.eq_of_getLsbD_eq
    intro i hi
    rw [BitVec.getLsbD_append]
    simp only [BitVec.getLsbD_extractLsb']
    split
    · simp [*]
    · rw [show 60 + (i - 4) = 56 + i by omega]
      simp [hi, show i - 4 < 4 by omega]
  rw [hm, rawOf]
  generalize (w.extractLsb' 60 4).toNat = hi
  split
  · exact rawRow0_under w x _
  · exact rawRow1_under w x _
  · exact rawRow2_under w x _
  · exact rawRow3_under w x _
  · exact rawRow4_under w x _
  · exact rawRow5_under w x _
  · exact rawRow6_under w x _
  · exact rawRow7_under w x _
  · exact rawRow8_under w x _
  · exact rawRow9_under w x _
  · exact rawRowA_under w x _
  · exact rawRowB_under w x _
  · exact rawRowC_under w x _
  · exact rawRowD_under w x _
  · exact rawRowE_under w x _
  · exact .reserved

/-- Whether a word starts a long form does not hang on the word after it (R71). -/
theorem isSome_ext_rawOf (w x y : Word) : (rawOf w x).ext.isSome = (rawOf w y).ext.isSome := by
  simp only [rawOf]
  split
  case h_10 =>
    unfold rawRow9
    split <;> rfl
  case h_15 =>
    unfold rawRowE
    split <;> rfl
  all_goals rfl

/-- What the decoder gives is the entry of the opcode map, whose bits outside the fields are plain. -/
theorem decodeWords_instr {width : Nat} {w x : Word} {i : Instr} (h : decodeWords width w x = .instr i) :
    (rawOf w x).instr = i ∧ (rawOf w x).Plain w x := by
  have plain_iff {m : Word} {v : Word} : ¬ (v &&& m != 0) = true ↔ v &&& m = 0 := by simp
  unfold decodeWords at h
  unfold Raw.Plain
  cases he : (rawOf w x).ext with
  | none =>
    simp only [he] at h
    split at h
    next => cases h
    next hw =>
      split at h
      next => exact ⟨Decoded.instr.inj h, plain_iff.1 hw, fun e h => nomatch h⟩
      next => cases h
  | some e =>
    simp only [he] at h
    split at h
    next => cases h
    next hx =>
      split at h
      next => cases h
      next hw =>
        rw [Bool.or_eq_true, not_or, plain_iff, plain_iff] at hw
        split at h
        next =>
          refine ⟨Decoded.instr.inj h, hw.1, fun e' h => ?_⟩
          obtain rfl := Option.some.inj h
          exact ⟨by simpa using hx, hw.2⟩
        next => cases h

namespace Machine

/-- Settles O29: the entry that was read encodes to the fields put back in their places, and the reserved bits, which the fields leave out,
are zero in what is decoded. -/
theorem encodeDecode : Obligations.EncodeDecode := by
  intro width w x i h
  obtain ⟨rfl, hp⟩ := decodeWords_instr h
  rw [(rawOf_under w x).encode_instr rfl hp, Raw.words, isLong, isSome_ext_rawOf w x 0]

end Machine
end Sys2Proof
end

section
/-! PROOFS. The words of the worked examples (R77 to R93, R163, R286, R342), O30; and what a step runs (R71, R109, R408), O31. -/

namespace Sys2Proof.Machine

set_option Elab.async false

/-- Settles O30, by decoding each word. -/
theorem specWordsDecode : Obligations.SpecWordsDecode := ⟨rfl, rfl, rfl, rfl, rfl, rfl, rfl⟩

/-! ### A step -/

theorem step_run {s t : State} {i : Instr} (h : todo s = .run i t) : step s = exec i t := by rw [step, h]

theorem step_rest {s t : State} (h : todo s = .rest t) : step s = .next t := by rw [step, h]

/-- What moves next where the agenda names it (log entry 1). -/
theorem nextMove_agenda {s : State} {a : Act} {rest : List Act} (h : s.agenda = a :: rest) :
    nextMove s = (a, { s with agenda := rest, fresh := s.fresh + 1 }) := by
  rw [nextMove, h]

/-- A group finds at its pc what its words decode to (R71, R93). -/
theorem fetch_instr {s : State} {g : Group} {w0 w1 : Word} {i : Instr} (h0 : codeWord s g g.pc = .word w0)
    (h1 : isLong w0 = true → codeWord s g (g.pc + 8) = .word w1) (hz : isLong w0 = false → w1 = 0)
    (hi : decodeWords g.width w0 w1 = .instr i) : fetch s g = .instr i := by
  have hd : decodeFetched g.width w0 w1 = .instr i := by rw [decodeFetched, hi]
  cases hl : isLong w0 with
  | true => simp only [fetch, h0, hl, h1 hl, if_true, hd]
  | false =>
    obtain rfl := hz hl
    simp only [fetch, h0, hl, Bool.false_eq_true, if_false, hd]

/-- The turn of a group that fetches an instruction (R109). -/
theorem groupTurn_instr {s : State} {g : Group} {i : Instr} (hg : s.grp? g.gid = some g) (hs : s.mgmt.stopped = false)
    (hm : mayFetch s g = true) (hf : fetch s g = .instr i) : groupTurn g.gid s = .run i { s with cur := some g.gid } := by
  rw [groupTurn, hg]
  simp only [hs, hm, hf, Bool.not_true, Bool.or_self, Bool.false_eq_true, if_false]

/-- The turn of a group once the C-dies have stopped (R408). -/
theorem groupTurn_stopped {s : State} (k : Nat) (hs : s.mgmt.stopped = true) : groupTurn k s = .rest s := by
  unfold groupTurn
  split
  · rfl
  · rw [hs, Bool.true_or, if_pos rfl]

/-- Settles O31, through what is to do next: the agenda names the turn, a group's turn runs what it fetched, and a stopped machine rests. -/
theorem stepRunsDecoded : Obligations.StepRunsDecoded := by
  intro s rest
  refine ⟨fun g w0 w1 i ha hg hs hm h0 h1 hz hi => step_run ?_, fun k ha hs => step_rest ?_, fun i ha ho => ?_⟩
  · rw [todo, nextMove_agenda ha]
    exact groupTurn_instr (s := { s with agenda := rest, fresh := s.fresh + 1 }) hg hs hm (fetch_instr h0 h1 hz hi)
  · rw [todo, nextMove_agenda ha]
    exact groupTurn_stopped (s := { s with agenda := rest, fresh := s.fresh + 1 }) k hs
  · split
    next hc =>
      refine step_rest ?_
      rw [todo, nextMove_agenda ha]
      simp only [ho, hc.1, hc.2, Bool.and_self, Bool.not_true, Bool.and_false, Bool.false_eq_true, if_false]
    next hc =>
      refine step_run ?_
      rw [todo, nextMove_agenda ha]
      simp only [ho, Bool.true_and, Bool.not_eq_true', Bool.and_eq_false_imp]
      rw [if_pos fun hs => by simpa [hs] using hc]

end Sys2Proof.Machine
end

section
/-! PROOFS. The fences and nop: instructions that change nothing but the fences of their group (R106, R295, R298); O21. -/

namespace Sys2Proof.Machine

set_option Elab.async false

/-- The group with more fences and cross-path fences in force. -/
def Group.withFences (fs : List (Nat × Nat)) (xs : List (Nat × Nat × Nat)) (g : Group) : Group :=
  { g with fences := g.fences ++ fs, xfences := g.xfences ++ xs }

theorem Group.withFences_quiet (fs : List (Nat × Nat)) (xs : List (Nat × Nat × Nat)) : Quiet (Group.withFences fs xs) :=
  ⟨fun _ => rfl, fun _ => rfl, fun _ => rfl, fun _ => rfl⟩

theorem Group.withFences_fence (fs : List (Nat × Nat)) :
    (fun g : Group => { g with fences := g.fences ++ fs }) = Group.withFences fs [] := by
  funext g
  simp [Group.withFences]

theorem Group.withFences_xfence (xs : List (Nat × Nat × Nat)) :
    (fun g : Group => { g with xfences := g.xfences ++ xs }) = Group.withFences [] xs := by
  funext g
  simp [Group.withFences]

theorem Group.withFences_none : Group.withFences [] [] = id := by
  funext g
  simp [Group.withFences]

/-- A plan without operands, whose effect puts fences in force for its group. -/
structure PutsFences (p : Plan) (s : State) (g : Group) (fs : List (Nat × Nat)) (xs : List (Nat × Nat × Nat)) : Prop where
  acts : p.acts = .group
  srcs : p.srcs = []
  dsts : p.dsts = []
  closes : p.closes = fun _ _ _ => false
  touches : p.touches = fun _ _ _ => []
  effect : ∀ g' eff, g'.gid = g.gid → p.effect s g' eff = .change fun t => t.modGrp g.gid (Group.withFences fs xs)

theorem planFence_puts (f : UR) (s : State) (g : Group) : PutsFences (planFence f) s g [(f.fn.toNat / 8 % 4, s.seq)] [] := by
  refine ⟨rfl, rfl, rfl, rfl, rfl, fun g' eff hg => ?_⟩
  simp [planFence, hg, ← Group.withFences_fence, BitVec.extractLsb'_toNat, Nat.shiftRight_eq_div_pow]

theorem planXfence_puts (f : UR) (s : State) (g : Group) :
    PutsFences (planXfence f) s g [] [(f.fn.toNat % 8, f.fn.toNat / 8 % 8, s.seq)] := by
  refine ⟨rfl, rfl, rfl, rfl, rfl, fun g' eff hg => ?_⟩
  simp [planXfence, hg, ← Group.withFences_xfence, BitVec.extractLsb'_toNat, Nat.shiftRight_eq_div_pow]

/-- Bookkeeping of an issue without destinations leaves the fences that still hold something. -/
theorem issued_fences (i : Instr) (s : State) (g : Group) (h : Hdr) (p : Plan) (eff : LaneMask) (hd : p.dsts = []) :
    ((g.atIssue s h p).issued i s p eff 0).fences = (g.pruneFences s).fences ∧
      ((g.atIssue s h p).issued i s p eff 0).xfences = (g.pruneFences s).xfences := by
  simp [Group.issued, hd, dstNames, Group.atIssue, Group.pruneFences, Group.kill, Group.unmap]

/-- The bookkeeping alone, and fences put in force after it, leave the registers, the flags and the work of the group. -/
theorem Issued.withFences {i : Instr} {s : State} {g g1 : Group} {h : Hdr} {p : Plan} (hS : Issued i s g g1 h p) (hv : touchedV p = [])
    (fs : List (Nat × Nat)) (xs : List (Nat × Nat × Nat)) : AfterIssue i g (g1.withFences fs xs) [] [] [] g.outst g.hold where
  regs := ⟨fun n _ => hS.others n (by simp [hv]), fun r _ => Group.sreg_congr hS.sregs r, fun r _ => Group.pred_congr hS.preds r⟩
  flags := hS.fflags
  keeps := ⟨hS.keeps.masks, hS.keeps.stack, hS.keeps.place, hS.keeps.counts⟩
  work := ⟨hS.work.depths, rfl, rfl, hS.work.place⟩
  count := hS.work.outst
  waits := hS.work.hold
  moves := ⟨hS.moves.pc, hS.moves.sig⟩

/-- What a plan does that puts fences in force for its group (R295, R298). -/
theorem runPlan_fences {s : State} {g : Group} {i : Instr} {h : Hdr} {p : Plan} {fs : List (Nat × Nat)} {xs : List (Nat × Nat × Nat)}
    (hp : PutsFences p s g fs xs) (hi : Issues s g i h p) (hn : effLanes g h ≠ 0) :
    ∃ t g', runPlan i h p s = .next t ∧ t.grp? g.gid = some g' ∧ OnlyGroup s t g.gid ∧ AfterIssue i g g' [] [] [] g.outst g.hold ∧
      g'.fences = (g.pruneFences s).fences ++ fs ∧ g'.xfences = (g.pruneFences s).xfences ++ xs := by
  obtain ⟨hacts, hsrcs, hdsts, hcloses, htouches, heffect⟩ := hp
  obtain ⟨-, hg, -, -⟩ := State.issuing_some hi.issuing
  have hS := issued_spec i s g h p (effLanes g h)
  have hopen : closesAfter s g h p = false := by simp [closesAfter, selfWrites, writesOf, hdsts, hcloses]
  have hrun := runPlan_quiet hi (by simp [dying, hacts]) (by rw [htouches]) (.inr hn) _ (Group.withFences_quiet fs xs)
    (heffect _ _ (Group.atIssue_gid g s h p))
  rw [if_neg (by simp [hopen])] at hrun
  obtain ⟨hfences, hxfences⟩ := issued_fences i s g h p (effLanes g h) hdsts
  refine ⟨_, _, hrun, State.grp?_modGrp_self s g.gid _ g hg fun _ _ => hS.gid,
    ⟨rfl, fun k hk => State.grp?_modGrp_ne s g.gid k _ (fun _ _ => hS.gid) hk⟩,
    hS.withFences (by simp [touchedV, hdsts, hsrcs, dstNames, lastNames]) fs xs, ?_, ?_⟩
  · exact congrArg (· ++ fs) hfences
  · exact congrArg (· ++ xs) hxfences

/-! ### nop -/

/-- An instruction that issues does the same under every effect that leaves the same states. -/
theorem runPlan_congr {s : State} {g : Group} {i : Instr} {h : Hdr} {p : Plan} (hi : Issues s g i h p)
    (ht : p.touches s g (effLanes g h) = []) (e : State → Group → LaneMask → Prog)
    (he : ∀ g' eff u, (e s g' eff).run u = (p.effect s g' eff).run u) : runPlan i h { p with effect := e } s = runPlan i h p s := by
  have hi' : Issues s g i h { p with effect := e } := ⟨hi.issuing, hi.alive, hi.ready, hi.clear, hi.tables, hi.room⟩
  rw [runPlan_issues hi, runPlan_issues hi', ht, readTables_nil, perform_run, perform_run]
  have he' (c : Bool) (u : State) (g' : Group) (eff : LaneMask) :
      (if c then e s g' eff else Prog.done).run u = (if c then p.effect s g' eff else Prog.done).run u := by
    cases c
    · rfl
    · exact he g' eff u
  exact congrArg _ (congrArg _ (congrArg _ (he' _ _ _ _)))

/-- The plan of nop, said as a change that puts no fence in force. -/
def nopAsChange : Plan := { planNop with effect := fun _ g _ => .change fun t => t.modGrp g.gid (Group.withFences [] []) }

theorem State.modGrp_id (s : State) (k : Nat) : s.modGrp k id = s := by simp [State.modGrp]

/-- nop runs as that change does. -/
theorem runPlan_nop {s : State} {g : Group} {i : Instr} {h : Hdr} (hi : Issues s g i h planNop) :
    runPlan i h nopAsChange s = runPlan i h planNop s := by
  refine runPlan_congr hi rfl _ fun g' eff u => ?_
  rw [Group.withFences_none, Prog.run_change _ _ (by rw [State.modGrp_id]) (by rw [State.modGrp_id]), State.modGrp_id]
  rfl

theorem nopAsChange_puts (s : State) (g : Group) : PutsFences nopAsChange s g [] [] :=
  ⟨rfl, rfl, rfl, rfl, rfl, fun g' _ hg => by rw [← hg]; rfl⟩

/-- Settles O21: each of the three puts fences in force for its group and changes nothing else, nop none. -/
theorem fencesAndNop : Obligations.FencesAndNop := by
  unfold Obligations.FencesAndNop
  rintro i h f s g p (rfl | rfl | rfl) hplan hi hn <;> obtain rfl := (Prod.ext_iff.1 (Option.some.inj hplan)).2
  case inl => simpa [exec, execFence] using runPlan_fences (planFence_puts f s g) hi hn
  case inr.inl => simpa [exec, execXfence] using runPlan_fences (planXfence_puts f s g) hi hn
  case inr.inr =>
    have hrun := runPlan_fences (nopAsChange_puts s g) ⟨hi.issuing, hi.alive, hi.ready, hi.clear, hi.tables, hi.room⟩ hn
    rw [runPlan_nop hi] at hrun
    simpa [exec, execNop] using hrun

end Sys2Proof.Machine
end

section
/-! PROOFS. A last read of an odd pair at V255 frees K0, the stack register, for every lane (R95, R114, R208); O34. -/

namespace Sys2Proof.Machine

set_option Elab.async false

/-- A group in which lane 0 is active and lane 1, which is not, has one entry on its stack, the value 7 in K0; no register is marked. -/
def stackedGroup : Group :=
  { newGroup 2 1 (loaderLaunch 0) 0 0 0 0 0 with
    active := 1, pregs := [⟨0, [0, 7], 0, some 0, 0, 0, none, false⟩], cur := [(k0, 0)], nextPid := 1, depths := [0, 1] }

/-- The machine of that group. -/
def stackedMachine : State := { State.reset.withFetchWord 64 0 with cur := some 2, agenda := [], groups := [stackedGroup] }

/-- `mov` of a 64-bit pair with `.last` of V255, a register that is not even (R95): the pair's high half is name 256, that of K0. -/
def lastPair : VR := ⟨2, 0, 255, 0, 0, false, true, false, false, 7, 0, false⟩

/-- The header of an instruction with no region mark and no guard. -/
def bareHdr : Hdr := ⟨false, false, false, 0⟩

/-- The plan of this `mov`. -/
def lastPairPlan : Plan := planMovVr bareHdr lastPair

theorem lastPair_issues : Issues stackedMachine stackedGroup (.movVr bareHdr lastPair) bareHdr lastPairPlan :=
  ⟨by decide +kernel, by decide +kernel, by decide +kernel, by decide +kernel, by decide +kernel, by decide +kernel⟩

/-- The stack of lane 1 after an outcome. -/
def stackAfter (o : Host.Outcome State Fault Refusal) : Option (List Lane) :=
  match o with
  | .next t => (t.grp? 2).map fun g => g.laneStack 1
  | _ => none

/-- The last read frees K0: the stack of lane 1, on which the instruction does not act, loses its value. -/
theorem lastPair_frees : stackAfter (exec (.movVr bareHdr lastPair) stackedMachine) = some [0] := by decide +kernel

/-- Refutes O34: its last clause is about every instruction, ill-formed ones included. `mov` with `.last` of the 64-bit pair at V255, on a
group with no marked value, frees the pair's high half, name 256, which is K0: lane 1, on which the instruction does not act, has stack
[7] before it and [0] after it, where the clause keeps the lane's stack. -/
theorem not_markedLanesDie : ¬ Obligations.MarkedLanesDie := by
  unfold Obligations.MarkedLanesDie
  rintro ⟨-, -, hclause⟩
  obtain ⟨t, _, g', _, hexec, -, hg', -, -, -, -, -, -, -, hlanes, -⟩ :=
    hclause (.movVr bareHdr lastPair) bareHdr stackedMachine stackedGroup lastPairPlan lastPairPlan rfl lastPair_issues rfl rfl
      lastPair_issues (by decide +kernel) (by decide +kernel)
  have hstack := hlanes 1 (by decide)
  rw [if_neg (by decide +kernel)] at hstack
  have hfrees := lastPair_frees
  rw [hexec, stackAfter, show t.grp? 2 = some g' from hg', Option.map_some, hstack.2.2] at hfrees
  exact absurd hfrees (by decide +kernel)

end Sys2Proof.Machine
end

section
/-! PROOFS. Barriers (R135). -/

namespace Sys2Proof.Machine

set_option Elab.async false

/-! ### Barriers that release (R135) -/

/-- Barrier `n` of the team of an identifier is ready to release. -/
def barOpens (tid n : Nat) (s : State) : Bool :=
  match s.team? tid with
  | none => false
  | some t => barReady s t n

/-- A team whose barrier `n` has released once more. -/
def Team.released (n : Nat) (t : Team) : Team := { t with barRel := t.barRel.set n (t.barRel.getD n 0 + 1) }

/-- A group of the team that was parked at barrier `n` goes on. -/
def Group.passBar (tid n : Nat) (g : Group) : Group := if g.team == tid && g.hold == .bar n then { g with hold := .none } else g

/-- Barrier `n` of a team releases where it is ready. -/
def releaseBar (tid : Nat) (s : State) (n : Nat) : State :=
  if barOpens tid n s then { s.modTeam tid (Team.released n) with groups := s.groups.map (Group.passBar tid n) } else s

theorem releaseBars_eq (tid : Nat) (s : State) : releaseBars tid s = (List.range 8).foldl (releaseBar tid) s := by
  unfold releaseBars
  congr 1
  funext u n
  unfold releaseBar barOpens
  cases u.team? tid <;> rfl

/-- What neither teams nor groups are. -/
theorem State.eq_of_rest {s t : State} (h : ({ t with teams := [], groups := [] } : State) = { s with teams := [], groups := [] }) :
    t = { s with teams := t.teams, groups := t.groups } := by
  cases s
  cases t
  simp only [State.mk.injEq, true_and] at h ⊢
  exact h

/-- A release changes teams and groups alone. -/
theorem releaseBars_rest (tid : Nat) (s : State) :
    releaseBars tid s = { s with teams := (releaseBars tid s).teams, groups := (releaseBars tid s).groups } := by
  have hkeep : ({ releaseBars tid s with teams := [], groups := [] } : State) = { s with teams := [], groups := [] } := by
    rw [releaseBars_eq]
    refine foldl_keeps (fun u : State => ({ u with teams := [], groups := [] } : State)) (releaseBar tid) (fun u n => ?_) _ s
    unfold releaseBar
    split <;> rfl
  exact State.eq_of_rest hkeep

theorem Group.passBar_cases (tid n : Nat) (g : Group) :
    (g.team = tid ∧ g.hold = .bar n ∧ g.passBar tid n = g.released) ∨ (¬(g.team = tid ∧ g.hold = .bar n) ∧ g.passBar tid n = g) := by
  by_cases h : g.team = tid ∧ g.hold = .bar n
  · exact .inl ⟨h.1, h.2, by simp [Group.passBar, h, Group.released]⟩
  · exact .inr ⟨h, if_neg (by simpa using h)⟩

/-- A group that passes one barrier is as it was for every other. -/
theorem Group.passBar_keeps (tid n : Nat) (g : Group) :
    (g.passBar tid n).gid = g.gid ∧ (g.passBar tid n).team = g.team ∧ (g.passBar tid n).life = g.life ∧ (g.passBar tid n).live = g.live ∧
      (g.passBar tid n).groupId = g.groupId ∧ ∀ m, m ≠ n → ((g.passBar tid n).hold = .bar m ↔ g.hold = .bar m) := by
  obtain ⟨-, hhold, h⟩ | ⟨-, h⟩ := g.passBar_cases tid n <;> rw [h]
  · exact ⟨rfl, rfl, rfl, rfl, rfl, fun m hm => by simp [Group.released, hhold, hm.symm]⟩
  · exact ⟨rfl, rfl, rfl, rfl, rfl, fun _ _ => .rfl⟩

/-- The release of one barrier leaves whether another is ready. -/
theorem barOpens_releaseBar {tid m n : Nat} (hne : m ≠ n) (s : State) : barOpens tid m (releaseBar tid s n) = barOpens tid m s := by
  unfold releaseBar
  split
  case isFalse => rfl
  case isTrue =>
    have hgroups (t : Team) : ({ s.modTeam tid (Team.released n) with groups := s.groups.map (Group.passBar tid n) } : State).teamGroups t.tid =
        (s.teamGroups t.tid).map (Group.passBar tid n) := by
      have hfun : (fun g : Group => g.team == t.tid) ∘ Group.passBar tid n = fun g => g.team == t.tid :=
        funext fun g => by simp [(g.passBar_keeps tid n).2.1]
      simp only [State.teamGroups, List.filter_map, hfun]
    cases hteam : s.team? tid with
    | none => simp_all [barOpens]
    | some t =>
      have hteam' : ({ s.modTeam tid (Team.released n) with groups := s.groups.map (Group.passBar tid n) } : State).team? tid =
          some (t.released n) := State.team?_modTeam hteam fun _ => rfl
      unfold barOpens
      rw [hteam, hteam']
      have hholds (g : Group) : ((g.passBar tid n).hold == .bar m) = (g.hold == .bar m) := by
        rw [Bool.eq_iff_iff, beq_iff_eq, beq_iff_eq]
        exact (g.passBar_keeps tid n).2.2.2.2.2 m hne
      have hgroups' := hgroups t
      simp only [barReady, show (Team.released n t).tid = t.tid from rfl, hgroups', List.any_map, List.all_map, Function.comp_def, hholds,
        (Group.passBar_keeps tid n _).2.2.1, (Group.passBar_keeps tid n _).2.2.2.1, (Group.passBar_keeps tid n _).2.2.2.2.1]
      have hrel : (Team.released n t).barRel.getD m 0 = t.barRel.getD m 0 := by
        simp [Team.released, List.getD_eq_getElem?_getD, List.getElem?_set_ne hne.symm]
      rw [hrel]
      rfl

/-- A group of the team after the release of every ready barrier among some. -/
def Group.past (tid : Nat) (s : State) (ns : List Nat) (g : Group) : Group :=
  if g.team = tid ∧ ∃ n, n ∈ ns ∧ g.hold = .bar n ∧ barOpens tid n s = true then g.released else g

theorem groups_releaseBar (tid n : Nat) (s : State) : (releaseBar tid s n).groups = s.groups.map (Group.past tid s [n]) := by
  have hpast (g : Group) : g.past tid s [n] = if barOpens tid n s then g.passBar tid n else g := by
    cases h : barOpens tid n s <;> simp [Group.past, Group.passBar, Group.released, h]
  unfold releaseBar
  simp only [funext hpast]
  split
  · rfl
  · simp

theorem Group.past_cons {tid n : Nat} {ns : List Nat} (hn : n ∉ ns) (s : State) (g : Group) :
    (g.past tid s [n]).past tid (releaseBar tid s n) ns = g.past tid s (n :: ns) := by
  have hopens (m : Nat) (hm : m ∈ ns) : barOpens tid m (releaseBar tid s n) = barOpens tid m s :=
    barOpens_releaseBar (fun h => hn (by rwa [← h])) s
  have hrest (x : Group) : (∃ m, m ∈ ns ∧ x.hold = .bar m ∧ barOpens tid m (releaseBar tid s n) = true) ↔
      ∃ m, m ∈ ns ∧ x.hold = .bar m ∧ barOpens tid m s = true :=
    exists_congr fun m => and_congr_right fun hm => by rw [hopens m hm]
  by_cases h : g.team = tid ∧ g.hold = .bar n ∧ barOpens tid n s = true
  · simp [Group.past, h, Group.released]
  · have hone : g.past tid s [n] = g := if_neg (by simpa using h)
    rw [hone]
    unfold Group.past
    refine if_congr (and_congr_right fun ht => ?_) rfl rfl
    rw [hrest]
    simp only [List.mem_cons, exists_eq_or_imp]
    exact (or_iff_right fun hh => h ⟨ht, hh⟩).symm

/-- The groups after every ready barrier of a team has released. -/
theorem groups_releaseBars (tid : Nat) (s : State) : (releaseBars tid s).groups = s.groups.map (Group.past tid s (List.range 8)) := by
  have hfold (ns : List Nat) (hns : ns.Nodup) (u : State) : (ns.foldl (releaseBar tid) u).groups = u.groups.map (Group.past tid u ns) := by
    induction ns generalizing u with
    | nil => exact (List.map_id'' (fun g => if_neg (by simp)) _).symm
    | cons n ns ih =>
      obtain ⟨hn, hns⟩ := List.nodup_cons.1 hns
      rw [List.foldl_cons, ih hns, groups_releaseBar, List.map_map]
      exact List.map_congr_left fun g _ => Group.past_cons hn u g
  rw [releaseBars_eq]
  exact hfold _ List.nodup_range s

theorem ready_active {s : State} {g : Group} {h : Hdr} {p : Plan} (hr : ready s g h p = true) : g.active ≠ 0 := by
  simp only [Machine.ready, Bool.and_eq_true, bne_iff_ne] at hr
  tauto

/-- The next state of a per-group instruction whose effect `F` leaves the masks of its group. -/
theorem runPlan_groupChange {s : State} {g : Group} {i : Instr} {h : Hdr} {p : Plan} (hi : Issues s g i h p) (ha : p.acts = .group)
    (hn : effLanes g h ≠ 0) (ht : p.touches s g (effLanes g h) = []) {F : State → State}
    (he : p.effect s (g.atIssue s h p) (effLanes g h) = .change F) (hF : ∀ u, (F u).mem = u.mem ∧ (F u).mgmt = u.mgmt) :
    ∃ g1, Issued i s g g1 h p ∧ ∀ g2, (F (s.booked g.gid g1)).grp? g.gid = some g2 → g2.life = g.life → g2.live = g.live →
      g2.active = g.active → runPlan i h p s = .next (if closesAfter s g h p then (F (s.booked g.gid g1)).modGrp g.gid Group.closeRegion
        else F (s.booked g.gid g1)) := by
  obtain ⟨-, hg, hl, -⟩ := State.issuing_some hi.issuing
  have hdying : dying s g h p = 0 := by simp [dying, ha]
  have hacting : acting s g h p = effLanes g h := by
    unfold acting
    rw [hdying, show ~~~(0 : LaneMask) = BitVec.allOnes 64 from rfl, BitVec.and_allOnes]
  have hdoes : (p.acts == .lanes || effLanes g h != 0) = true := by rw [bne_iff_ne.2 hn, Bool.or_true]
  refine ⟨_, issued_spec i s g h p (effLanes g h), fun g2 hg2 hlife hlive hactive => ?_⟩
  have hsettle := settle_active (closesAfter s g h p) hg2 (hlife.trans hl) (hlive ▸ hi.alive) (hactive ▸ ready_active hi.ready)
  rw [runPlan_issues hi, ht, readTables_nil, perform_run, hdying, hacting, hdoes, he, ← State.booked]
  simp only [bne_self_eq_false, Bool.false_eq_true, if_false, if_true, Prog.run_done, Group.atIssue_gid]
  rw [Prog.run_change F _ (hF _).1 (hF _).2, Prog.run_change _ _ (by rw [hsettle]; split <;> rfl) (by rw [hsettle]; split <;> rfl), hsettle]

/-! ### A group arrives (R135) -/

/-- A group parked at a barrier. -/
def Group.parked (n : Nat) (g : Group) : Group := { g with hold := .bar n }

/-- The arrival of a group at barrier `n` of its team, and what the barriers of the team then do. -/
def arriveAt (g : Group) (n : Nat) (u : State) : State :=
  releaseBars g.team ((u.modTeam g.team fun t => t.arrive g.groupId n).modGrp g.gid (Group.parked n))

theorem Group.past_cases (tid : Nat) (s : State) (ns : List Nat) (g : Group) : g.past tid s ns = g ∨ g.past tid s ns = g.released := by
  unfold Group.past
  split
  · exact .inr rfl
  · exact .inl rfl

/-- A group of the team that is parked at a barrier goes on where the barrier releases. -/
theorem Group.past_parked {tid n : Nat} {g : Group} (hteam : g.team = tid) (hhold : g.hold = .bar n) (hn : n < 8) (s : State) :
    g.past tid s (List.range 8) = if barOpens tid n s then g.released else g := by
  refine if_congr ⟨?_, fun h => ⟨hteam, n, List.mem_range.2 hn, hhold, h⟩⟩ rfl rfl
  rintro ⟨-, m, -, hm, hopens⟩
  rw [hhold] at hm
  cases hm
  exact hopens

theorem Group.past_gid (tid : Nat) (s : State) (ns : List Nat) (g : Group) : (g.past tid s ns).gid = g.gid := by
  obtain h | h := g.past_cases tid s ns <;> rw [h]
  rfl

/-- A group has exited, has no live lane or has arrived once more than the barrier has released (R135). -/
def atBarrier (tm now : Team) (n : Nat) (x : Group) : Prop :=
  x.life = .gone ∨ x.live = 0 ∨ arrivals now x.groupId n = tm.barRel.getD n 0 + 1

/-- The barrier is ready once its last group is there. -/
theorem barOpens_arrive {s u : State} {g g1 : Group} {tm : Team} {n : Nat} (hg : s.grp? g.gid = some g) (htm : s.team? g.team = some tm)
    (hres : g.life = .resident)
    (hteams : u.teams = (s.modTeam g.team fun t => t.arrive g.groupId n).teams) (hgroups : u.groups = (s.modGrp g.gid fun _ => g1).groups)
    (hhold : g1.hold = .bar n) (hteam : g1.team = g.team) (hlife : g1.life = g.life) (hlive : g1.live = g.live) (hid : g1.groupId = g.groupId) :
    barOpens g.team n u = true ↔ atBarrier tm (tm.arrive g.groupId n) n g ∧
      ∀ x, x ∈ s.groups → x.gid ≠ g.gid → x.team = g.team → atBarrier tm (tm.arrive g.groupId n) n x := by
  have hteam? : u.team? g.team = some (tm.arrive g.groupId n) :=
    (congrArg (List.find? _) hteams).trans (State.team?_modTeam htm fun _ => rfl)
  have hmem : g ∈ s.groups := List.mem_of_find?_eq_some hg
  have hmem1 : g1 ∈ u.groups := by
    rw [hgroups]
    exact List.mem_map.2 ⟨g, hmem, if_pos (beq_self_eq_true _)⟩
  have htid : (tm.arrive g.groupId n).tid = g.team := State.team?_tid hteam?
  have hthere : atBarrier tm (tm.arrive g.groupId n) n g1 ↔ atBarrier tm (tm.arrive g.groupId n) n g := by
    rw [atBarrier, atBarrier, hlife, hlive, hid]
  have hin (x : Group) : x ∈ u.groups ↔ x = g1 ∨ x ∈ s.groups ∧ x.gid ≠ g.gid := by
    rw [hgroups]
    simp only [State.modGrp, List.mem_map]
    constructor
    · rintro ⟨y, hy, rfl⟩
      by_cases hyg : y.gid = g.gid
      · exact .inl (if_pos (beq_iff_eq.2 hyg))
      · rw [if_neg (by simpa using hyg)]
        exact .inr ⟨hy, hyg⟩
    · rintro (rfl | ⟨hx, hne⟩)
      · exact ⟨g, hmem, if_pos (beq_self_eq_true _)⟩
      · exact ⟨x, hx, if_neg (by simpa using hne)⟩
  have hopens : barOpens g.team n u = true ↔ ∀ x, x ∈ u.groups → x.team = g.team → atBarrier tm (tm.arrive g.groupId n) n x := by
    have hany : (u.teamGroups g.team).any (fun g => g.hold == .bar n && g.life != .gone) = true :=
      List.any_eq_true.2 ⟨g1, List.mem_filter.2 ⟨hmem1, beq_iff_eq.2 hteam⟩, by simp [hhold, hlife, hres]⟩
    unfold barOpens
    rw [hteam?]
    simp only [barReady, htid, hany, Bool.true_and, List.all_eq_true, Bool.or_eq_true, beq_iff_eq, atBarrier, arrivals, or_assoc,
      show (tm.arrive g.groupId n).barRel = tm.barRel from rfl]
    simp only [State.teamGroups, List.mem_filter, beq_iff_eq, and_imp]
  rw [hopens]
  constructor
  · exact fun h => ⟨hthere.1 (h g1 hmem1 hteam), fun x hx hne => h x ((hin x).2 (.inr ⟨hx, hne⟩))⟩
  · rintro ⟨h, hother⟩ x hx hxt
    obtain rfl | ⟨hx, hne⟩ := (hin x).1 hx
    · exact hthere.2 h
    · exact hother x hx hne hxt

theorem arriveAt_rest (g : Group) (n : Nat) (u : State) :
    arriveAt g n u = { u with teams := (arriveAt g n u).teams, groups := (arriveAt g n u).groups } :=
  releaseBars_rest ..

/-- The groups after an arrival. -/
theorem groups_arriveAt (g : Group) (n : Nat) (u : State) :
    ∃ v : State, v.groups = (u.modGrp g.gid (Group.parked n)).groups ∧ v.teams = (u.modTeam g.team fun t => t.arrive g.groupId n).teams ∧
      (arriveAt g n u).groups = v.groups.map (Group.past g.team v (List.range 8)) :=
  ⟨(u.modTeam g.team fun t => t.arrive g.groupId n).modGrp g.gid (Group.parked n), rfl, rfl, groups_releaseBars ..⟩

theorem barIndex_eq (fn : BitVec 29) : (fn.extractLsb' 0 3).toNat = fn.toNat % 8 := by
  simp [BitVec.extractLsb'_toNat]

theorem closesAfter_bar (f : UR) (s : State) (g : Group) (h : Hdr) : closesAfter s g h (planBar f) = true := Bool.or_true _

/-- The plan's effect is the arrival. -/
theorem planBar_effect (f : UR) (s : State) (g : Group) (h : Hdr) (eff : LaneMask) :
    (planBar f).effect s (g.atIssue s h (planBar f)) eff = .change (arriveAt g (f.fn.toNat % 8)) := by
  have hid : (g.atIssue s h (planBar f)).groupId = g.groupId := by simp [Group.atIssue]
  have hchange : (planBar f).effect s (g.atIssue s h (planBar f)) eff = .change (arriveAt (g.atIssue s h (planBar f)) (f.fn.extractLsb' 0 3).toNat) :=
    rfl
  rw [hchange, barIndex_eq]
  unfold arriveAt
  simp only [Group.atIssue_team, Group.atIssue_gid, hid]

/-- The bookkeeping alone, with the group held: its region closes. -/
theorem Issued.holding {i : Instr} {s : State} {g g1 : Group} {h : Hdr} {p : Plan} (hS : Issued i s g g1 h p) (hv : touchedV p = []) (w : Hold) :
    AfterIssue i g ({ g1 with hold := w } : Group).closeRegion [] [] [] g.outst w where
  regs := ⟨fun n _ => (Group.preg?_closeRegion _ n).trans (hS.others n (by simp [hv])), fun r _ => Group.sreg_congr hS.sregs r,
    fun r _ => Group.pred_congr hS.preds r⟩
  flags := hS.fflags
  keeps := ⟨hS.keeps.masks, hS.keeps.stack, hS.keeps.place, hS.keeps.counts⟩
  work := ⟨hS.work.depths, rfl, rfl, hS.work.place⟩
  count := hS.work.outst
  waits := rfl
  moves := ⟨hS.moves.pc, hS.moves.sig⟩

/-- Settles O22: the group arrives and parks, and the barrier releases exactly where every group of the team is there. -/
theorem barrierArrives : Obligations.BarrierArrives := by
  unfold Obligations.BarrierArrives
  intro h f s g tm hi hn htm
  obtain ⟨-, hg, hlife, hhold⟩ := State.issuing_some hi.issuing
  obtain ⟨n, hndef⟩ : ∃ n, n = f.fn.toNat % 8 := ⟨_, rfl⟩
  have hn8 : n < 8 := by omega
  obtain ⟨g1, hS, hrun⟩ := runPlan_groupChange hi rfl hn rfl (planBar_effect f s g h _)
    fun u => ⟨by rw [arriveAt_rest], by rw [arriveAt_rest]⟩
  rw [← hndef] at hrun ⊢
  obtain ⟨v, hvg, hvt, hgroups⟩ := groups_arriveAt g n (s.booked g.gid g1)
  have hvg' : v.groups = (s.modGrp g.gid fun _ => g1.parked n).groups := by
    rw [hvg]
    exact (congrArg State.groups (State.modGrp_modGrp s g.gid (fun _ => g1) (Group.parked n) fun _ _ => hS.gid) :)
  have hopens := barOpens_arrive (u := v) (n := n) hg htm hlife hvt hvg' rfl hS.keeps.place.2.2.2.1 hS.life hS.keeps.masks.2.1 hS.work.place.1
  obtain ⟨g2, hg2⟩ : ∃ g2, g2 = if barOpens g.team n v then (g1.parked n).released else g1.parked n := ⟨_, rfl⟩
  have hown : (arriveAt g n (s.booked g.gid g1)).grp? g.gid = some g2 := by
    have hv : v.grp? g.gid = some (g1.parked n) :=
      (congrArg (List.find? _) hvg').trans (State.grp?_modGrp_self s g.gid (fun _ => g1.parked n) g hg fun _ _ => hS.gid)
    rw [State.grp?_map _ (Group.past_gid g.team v _) hgroups, hv, Option.map_some, hg2]
    exact congrArg some (Group.past_parked (g := g1.parked n) hS.keeps.place.2.2.2.1 rfl hn8 v)
  have hother (k : Nat) (x : Group) (hx : s.grp? k = some x) (hk : k ≠ g.gid) :
      (arriveAt g n (s.booked g.gid g1)).grp? k = some (x.past g.team v (List.range 8)) := by
    have hv : v.grp? k = some x :=
      (congrArg (List.find? _) hvg').trans ((State.grp?_modGrp_ne s g.gid k (fun _ => g1.parked n) (fun _ _ => hS.gid) hk).trans hx)
    rw [State.grp?_map _ (Group.past_gid g.team v _) hgroups, hv, Option.map_some]
  have hkeeps : g2 = { g1 with hold := g2.hold } ∧ g2.hold = if barOpens g.team n v then .none else .bar n := by
    rw [hg2]
    split <;> exact ⟨rfl, rfl⟩
  have hlast := hrun g2 hown (by rw [hkeeps.1]; exact hS.life) (by rw [hkeeps.1]; exact hS.keeps.masks.2.1) (by rw [hkeeps.1]; exact hS.keeps.masks.1)
  rw [if_pos (closesAfter_bar f s g h)] at hlast
  have hgid2 : g2.gid = g.gid := State.grp?_gid hown
  have hafter : AfterIssue (.bar h f) g g2.closeRegion [] [] [] g.outst g2.hold := by
    rw [hkeeps.1]
    exact hS.holding rfl _
  refine ⟨_, _, hlast, State.grp?_modGrp_self _ _ _ g2 hown fun _ hx => hx, ?_, hafter.regs, hafter.keeps, hafter.moves, hafter.flags, hafter.count,
    hafter.work.depths, fun hall => ?_, fun hall => ?_, fun k x hx hk => ?_⟩
  · have hrest := arriveAt_rest g n (s.booked g.gid g1)
    generalize arriveAt g n (s.booked g.gid g1) = w at hrest
    exact congrArg (fun u : State => u.modGrp g.gid Group.closeRegion) hrest
  · exact hkeeps.2.trans (if_pos (hopens.2 hall))
  · exact hkeeps.2.trans (if_neg (mt hopens.1 hall))
  · refine ⟨_, (State.grp?_modGrp_ne (arriveAt g n (s.booked g.gid g1)) g.gid k Group.closeRegion (fun _ hx => hx) hk).trans (hother k x hx hk), ?_, fun hteam hbar => ?_⟩
    · obtain h | h := x.past_cases g.team v (List.range 8) <;> rw [h]
      · exact .refl x
      · exact .released x
    · rw [Group.past_parked hteam hbar hn8]
      exact ⟨fun hall => by rw [if_pos (hopens.2 hall)]; rfl, fun hall => by rw [if_neg (mt hopens.1 hall)]; exact hbar⟩

end Sys2Proof.Machine
end

section
/-! PROOFS. Control instructions that issue (R123, R126 to R133). -/

namespace Sys2Proof.Machine

set_option Elab.async false

/-! ### A control instruction that issues (R126 to R133) -/

/-- The group to which the effect of a control instruction is applied: its region opened, its signature started again, its pc moved on. -/
def Group.ctlBegun (g : Group) (i : Instr) (now : Nat) : Group :=
  { g with sig := 0xFFFF, taken := false, poFirst := false, regionFresh := false, stamp := now, pc := g.pc + instrSize i }

/-- The plan that stands for the sources of a control instruction. -/
def ctlPlan (f : CF) : Plan := { srcs := ctlSrcs f, effect := fun _ _ _ => .done }

/-- The group that a control instruction leaves, before its end where no lane is left. -/
def ctlLeaves (i : Instr) (h : Hdr) (f : CF) (c : Ctl) (s : State) (g : Group) : Group :=
  (c.effect ((g.opened h (ctlPlan f)).ctlBegun i s.now)).afterCtl (c.restores (g.opened h (ctlPlan f)))

theorem exitGroup_quiet (k : Nat) (s : State) : (exitGroup k s).mem = s.mem ∧ (exitGroup k s).mgmt = s.mgmt := by
  have hctr (core lid n : Nat) (u : State) : (addLaunchCtr core lid n u).mem = u.mem ∧ (addLaunchCtr core lid n u).mgmt = u.mgmt := by
    unfold addLaunchCtr
    split <;> exact ⟨rfl, rfl⟩
  unfold exitGroup
  split
  · exact ⟨rfl, rfl⟩
  · rw [releaseBars_rest]
    split
    · exact ⟨rfl, rfl⟩
    · rw [releaseBars_rest]
      exact hctr ..

theorem condMask_congr {f : CF} {g g' : Group} (hw : g'.width = g.width) (hp : g'.preds = g.preds) : condMask f g' = condMask f g := by
  simp [condMask, Group.p, Group.pred, hw, hp]

/-- Masks that decide what a control instruction pops do not depend on the region. -/
theorem popped_opened {i : Instr} {h : Hdr} {f : CF} {c : Ctl} (hc : ctlOf i = some (h, f, c)) (g : Group) (p : Plan) :
    c.popped (g.opened h p) = c.popped g := by
  have hcond : condMask f (g.opened h p) = condMask f g := condMask_congr (by simp) (by simp)
  have hagain : loopAgain f (g.opened h p) = loopAgain f g := by simp only [loopAgain, hcond, Group.opened_stack, Group.opened_active, Group.opened_live]
  have hstay : retStay f (g.opened h p) = retStay f g := by simp only [retStay, hcond, Group.opened_active]
  cases i <;> cases hc
  case endifC => simp [ctlEndif]
  case endloopC => simp [ctlEndloop, hagain]
  case retC => simp [ctlRet, hstay]
  all_goals rfl

/-- A control instruction that issues has its effect on its group; a group left without a live lane ends (R129). -/
theorem exec_ctl {i : Instr} {h : Hdr} {f : CF} {c : Ctl} {s : State} {g : Group} (hc : ctlOf i = some (h, f, c)) (hi : CtlIssues s g i f c) :
    exec i s = .next (if (ctlLeaves i h f c s g).live = 0 then exitGroup g.gid (s.booked g.gid (ctlLeaves i h f c s g))
      else s.booked g.gid (ctlLeaves i h f c s g)) := by
  obtain ⟨hissuing, -, ⟨hhold, hretry⟩, hcond, hstack, hsig⟩ := hi
  obtain ⟨-, hg, -, -⟩ := State.issuing_some hissuing
  have hlate : ¬s.now < g.retryAt := by omega
  have hcheck : c.check (g.opened h (ctlPlan f)) = none := by
    rw [check_of_ctlOf hc, maskStackFails_opened, ← check_of_ctlOf hc, hstack]
  have hwaits : (ctlSrcs f).any (fun x => x.waits (g.opened h (ctlPlan f)) s.now) = false := by
    by_cases hce : f.ce = true <;> simp [ctlSrcs, hce, Src.waits, Group.pFull_opened, hcond]
  have hempty : (ctlSrcs f).find? (fun x => x.empty (g.opened h (ctlPlan f)) s.now) = none := by
    by_cases hce : f.ce = true <;> simp [ctlSrcs, hce, Src.empty, Group.pFull_opened, hcond]
  have hagrees : ((g.opened h (ctlPlan f)).taken || (g.opened h (ctlPlan f)).poFirst ||
      crcBits 16 (maskWord (g.opened h (ctlPlan f)) (c.popped (g.opened h (ctlPlan f)))).toNat
        (shiftMajor (g.opened h (ctlPlan f)).sig (majorOf i)) == f.sig) = true := by
    have hword : maskWord (g.opened h (ctlPlan f)) (c.popped g) = maskWord g (c.popped g) := by simp [maskWord]
    rw [popped_opened hc, hword, Group.opened_taken, Group.opened_poFirst, Group.opened_sig]
    simpa [ctlSig, or_assoc] using hsig
  have hfree : ((g.opened h (ctlPlan f)).hold != .none || decide (s.now < (g.opened h (ctlPlan f)).retryAt) ||
      (ctlSrcs f).any (fun x => x.waits (g.opened h (ctlPlan f)) s.now)) = false := by
    rw [hwaits]
    simp [hhold, hlate]
  rw [exec_of_ctlOf hc, runCtl, hissuing]
  simp only [commit, ctlAttempt, Prog.run_dyn, hg]
  rw [show ({ srcs := ctlSrcs f, effect := fun _ _ _ => .done } : Plan) = ctlPlan f from rfl, hfree,
    hempty, hcheck, Option.map_none, Option.map_none, firstSome_none_cons, firstSome_none_cons, firstSome_nil]
  simp only [hagrees, if_true, Bool.false_eq_true, if_false]
  have hquiet (u : State) : (if (ctlLeaves i h f c s g).live = 0 then exitGroup g.gid u else u).mem = u.mem ∧
      (if (ctlLeaves i h f c s g).live = 0 then exitGroup g.gid u else u).mgmt = u.mgmt := by
    split
    · exact exitGroup_quiet g.gid u
    · exact ⟨rfl, rfl⟩
  exact congrArg _ (Prog.run_change (fun u => if (ctlLeaves i h f c s g).live = 0 then exitGroup g.gid (u.booked g.gid (ctlLeaves i h f c s g))
      else u.booked g.gid (ctlLeaves i h f c s g)) s (hquiet _).1 (hquiet _).2)

/-- Only masks, stack, pc and the mark of a transfer are changed by the effect of a control instruction (R126 to R129). -/
theorem Ctl.effect_only {i : Instr} {h : Hdr} {f : CF} {c : Ctl} (hc : ctlOf i = some (h, f, c)) (x : Group) :
    ∃ active live stack pc taken, c.effect x = { x with active := active, live := live, stack := stack, pc := pc, taken := taken } := by
  have hgoto (x y : Group) (n : Nat) (hy : ∃ active live stack pc taken,
      y = { x with active := active, live := live, stack := stack, pc := pc, taken := taken }) : ∃ active live stack pc taken,
      y.ifEmpty n = { x with active := active, live := live, stack := stack, pc := pc, taken := taken } := by
    obtain ⟨_, _, _, _, _, rfl⟩ := hy
    unfold Group.ifEmpty
    split <;> exact ⟨_, _, _, _, _, rfl⟩
  cases i <;> cases hc
  case ifC => exact hgoto _ _ _ ⟨_, _, _, _, _, rfl⟩
  case elseC =>
    dsimp only [ctlElse]
    split
    · exact hgoto _ _ _ ⟨_, _, _, _, _, rfl⟩
    · exact ⟨_, _, _, _, _, rfl⟩
  case endifC =>
    dsimp only [ctlEndif]
    split <;> exact ⟨_, _, _, _, _, rfl⟩
  case loopC => exact ⟨_, _, _, _, _, rfl⟩
  case endloopC =>
    dsimp only [ctlEndloop]
    split
    · split <;> exact ⟨_, _, _, _, _, rfl⟩
    · exact ⟨_, _, _, _, _, rfl⟩
  case retC =>
    dsimp only [ctlRet]
    split
    · split
      · split <;> exact ⟨_, _, _, _, _, rfl⟩
      · exact ⟨_, _, _, _, _, rfl⟩
    · exact ⟨_, _, _, _, _, rfl⟩
  case exitC =>
    dsimp only [ctlExit]
    split
    · exact ⟨_, _, _, _, _, rfl⟩
    · exact hgoto _ _ _ ⟨_, _, _, _, _, rfl⟩
  case callC => exact ⟨_, _, _, _, _, rfl⟩
  all_goals
    dsimp only [ctlLeave]
    split
    · exact hgoto _ _ _ ⟨_, _, _, _, _, rfl⟩
    · exact ⟨_, _, _, _, _, rfl⟩

/-- The pass-over that begins or ends after a control instruction changes nothing else (R123). -/
theorem Group.afterCtl_eq (x : Group) (b : Bool) : ∃ po poFirst, x.afterCtl b = { x with po := po, poFirst := poFirst } := by
  unfold Group.afterCtl
  split
  · exact ⟨_, _, rfl⟩
  · split <;> exact ⟨_, _, rfl⟩

/-- The effect of a control instruction on its group, before the pass-over. -/
def ctlEffect (i : Instr) (h : Hdr) (f : CF) (c : Ctl) (s : State) (g : Group) : Group := c.effect ((g.opened h (ctlPlan f)).ctlBegun i s.now)

/-- Control instructions leave the registers, the flags and the place of their group. -/
theorem afterCtl_ctlLeaves {i : Instr} {h : Hdr} {f : CF} {c : Ctl} (hc : ctlOf i = some (h, f, c)) (s : State) (g : Group) :
    AfterCtl g (ctlLeaves i h f c s g) ∧ (ctlLeaves i h f c s g).gid = g.gid ∧
      (ctlLeaves i h f c s g).active = (ctlEffect i h f c s g).active ∧ (ctlLeaves i h f c s g).live = (ctlEffect i h f c s g).live ∧
      (ctlLeaves i h f c s g).stack = (ctlEffect i h f c s g).stack ∧ (ctlLeaves i h f c s g).pc = (ctlEffect i h f c s g).pc ∧
      (ctlLeaves i h f c s g).taken = (ctlEffect i h f c s g).taken := by
  unfold ctlLeaves ctlEffect
  obtain ⟨po, poFirst, hpass⟩ := (c.effect ((g.opened h (ctlPlan f)).ctlBegun i s.now)).afterCtl_eq (c.restores (g.opened h (ctlPlan f)))
  rw [hpass]
  obtain ⟨active, live, stack, pc, taken, heffect⟩ := Ctl.effect_only hc ((g.opened h (ctlPlan f)).ctlBegun i s.now)
  rw [heffect]
  refine ⟨⟨⟨fun n _ => Group.preg?_opened g h (ctlPlan f) n, fun r _ => ?_, fun r _ => ?_⟩, ?_, rfl, ?_, ⟨?_, ?_, ?_, ?_, ?_, ?_, ?_, ?_⟩, ?_, ?_, ?_⟩,
    ?_, rfl, rfl, rfl, rfl, rfl⟩
  · exact Group.sreg_congr (Group.opened_sregs ..) r
  · exact Group.pred_congr (Group.opened_preds ..) r
  all_goals simp [Group.ctlBegun]

/-- A control instruction that issues and leaves a live lane. -/
theorem exec_ctl_goesOn {i : Instr} {h : Hdr} {f : CF} {c : Ctl} {s : State} {g : Group} (hc : ctlOf i = some (h, f, c))
    (hi : CtlIssues s g i f c) (hlive : (ctlEffect i h f c s g).live ≠ 0) :
    ∃ t g', exec i s = .next t ∧ t.grp? g.gid = some g' ∧ OnlyGroup s t g.gid ∧ AfterCtl g g' ∧
      g'.active = (ctlEffect i h f c s g).active ∧ g'.live = (ctlEffect i h f c s g).live ∧ g'.stack = (ctlEffect i h f c s g).stack ∧
      g'.pc = (ctlEffect i h f c s g).pc ∧ g'.taken = (ctlEffect i h f c s g).taken := by
  obtain ⟨-, hg, -, -⟩ := State.issuing_some hi.issuing
  obtain ⟨hafter, hgid, hactive, hleft, hrest⟩ := afterCtl_ctlLeaves hc s g
  have hexec := exec_ctl hc hi
  rw [if_neg (hleft ▸ hlive)] at hexec
  exact ⟨_, _, hexec, State.grp?_modGrp_self s g.gid (fun _ => ctlLeaves i h f c s g) g hg fun _ _ => hgid,
    ⟨rfl, fun k hk => State.grp?_modGrp_ne s g.gid k _ (fun _ _ => hgid) hk⟩, hafter, hactive, hleft, hrest⟩

/-! ### The group to which an effect is applied -/

section
variable (g : Group) (h : Hdr) (f : CF) (i : Instr) (now : Nat)

@[simp] theorem ctlBegun_active : ((g.opened h (ctlPlan f)).ctlBegun i now).active = g.active := by simp [Group.ctlBegun]
@[simp] theorem ctlBegun_live : ((g.opened h (ctlPlan f)).ctlBegun i now).live = g.live := by simp [Group.ctlBegun]
@[simp] theorem ctlBegun_stack : ((g.opened h (ctlPlan f)).ctlBegun i now).stack = g.stack := by simp [Group.ctlBegun]
@[simp] theorem ctlBegun_pc : ((g.opened h (ctlPlan f)).ctlBegun i now).pc = g.pc + instrSize i := by simp [Group.ctlBegun]
@[simp] theorem condMask_ctlBegun (f' : CF) : condMask f' ((g.opened h (ctlPlan f)).ctlBegun i now) = condMask f' g :=
  condMask_congr (by simp [Group.ctlBegun]) (by simp [Group.ctlBegun])
end

@[simp] theorem Group.ifEmpty_pc (g : Group) (n : Nat) : (g.ifEmpty n).pc = if g.active = 0 then n else g.pc := by
  unfold Group.ifEmpty; split <;> rfl

/-- The partner of an instruction of one word that the pc has passed. -/
theorem partnerOf_past {f : CF} {x : Group} {pc : Nat} (h : x.pc = pc + 8) : partnerOf f x = offTarget pc f.off.toInt := by
  rw [partnerOf, h, Nat.add_sub_cancel]

/-- Settles O24: the effects of `if`, `else` and `endif`. -/
theorem ifElseEndif : Obligations.IfElseEndif := by
  unfold Obligations.IfElseEndif
  intro h f s g
  refine ⟨fun hi => ?_, fun e st hst => ⟨fun hi => ?_, fun hi => ?_⟩⟩
  · obtain ⟨t, g', hexec, hfound, honly, hafter, hactive, hlive, hstack, hpc, -⟩ :=
      exec_ctl_goesOn (i := .ifC h f) (h := h) rfl hi (by simpa [ctlEffect, ctlIf] using hi.alive)
    refine ⟨t, g', hexec, hfound, honly, hafter, hactive.trans ?_, hlive.trans ?_, hstack.trans ?_, hpc.trans ?_⟩
    all_goals simp [ctlEffect, ctlIf, newEntry, partnerOf, show instrSize (.ifC h f) = 8 from rfl]
  · obtain ⟨t, g', hexec, hfound, honly, hafter, hactive, hlive, hstack, hpc, -⟩ :=
      exec_ctl_goesOn (i := .elseC h f) (h := h) rfl hi (by simpa [ctlEffect, ctlElse, hst] using hi.alive)
    refine ⟨t, g', hexec, hfound, honly, hafter, hactive.trans ?_, hlive.trans ?_, hstack.trans ?_, hpc.trans ?_⟩
    all_goals simp [ctlEffect, ctlElse, hst, partnerOf, show instrSize (.elseC h f) = 8 from rfl]
  · obtain ⟨t, g', hexec, hfound, honly, hafter, hactive, hlive, hstack, hpc, -⟩ :=
      exec_ctl_goesOn (i := .endifC h f) (h := h) rfl hi (by simpa [ctlEffect, ctlEndif, hst] using hi.alive)
    refine ⟨t, g', hexec, hfound, honly, hafter, hactive.trans ?_, hlive.trans ?_, hstack.trans ?_, hpc.trans ?_⟩
    all_goals simp [ctlEffect, ctlEndif, hst, show instrSize (.endifC h f) = 8 from rfl]

/-! ### Lanes taken out of the upper entries (R129) -/

/-- An entry without some lanes. -/
def MaskEntry.without (q : LaneMask) (e : MaskEntry) : MaskEntry :=
  { e with sv := e.sv &&& ~~~q, xv := e.xv &&& ~~~q, check := fold16 (e.sv &&& ~~~q) }

theorem stripTop_eq (k : Nat) (q : LaneMask) (st : List MaskEntry) : stripTop k q st = (st.take k).map (MaskEntry.without q) ++ st.drop k := rfl

theorem getElem?_stripTop_lt {j k : Nat} (hj : j < k) (q : LaneMask) (st : List MaskEntry) :
    (stripTop k q st)[j]? = st[j]?.map (MaskEntry.without q) := by
  rw [stripTop_eq]
  by_cases hlen : j < st.length
  · rw [List.getElem?_append_left (by simp; omega), List.getElem?_map, List.getElem?_take_of_lt hj]
  · rw [List.drop_eq_nil_of_le (by omega), List.append_nil, List.getElem?_map, List.getElem?_take_of_lt hj]

theorem drop_stripTop {k : Nat} {st : List MaskEntry} (hk : k ≤ st.length) (q : LaneMask) : (stripTop k q st).drop k = st.drop k := by
  rw [stripTop_eq]
  exact List.drop_left' (by simp [hk])

theorem getElem?_stripTop_le {j k : Nat} {st : List MaskEntry} (hk : k ≤ st.length) (hj : k ≤ j) (q : LaneMask) :
    (stripTop k q st)[j]? = st[j]? := by
  have hdrop := congrArg (·[j - k]?) (drop_stripTop hk q)
  simpa [Nat.add_sub_cancel' hj] using hdrop

theorem findEntry_lt {kind : MaskKind} {stop : Option MaskKind} {st : List MaskEntry} {k : Nat} (h : findEntry kind stop st = some k) :
    k < st.length := by
  unfold findEntry at h
  split at h
  case h_1 m hm =>
    split at h
    · cases h
      exact (List.findIdx?_eq_some_iff_getElem.1 hm).1
    · cases h
  case h_2 => cases h

/-- The stack that brk and, with the parking step, cont leave. -/
def leftStack (park : Bool) (k : Nat) (q : LaneMask) (st : List MaskEntry) : List MaskEntry :=
  if park then (stripTop k q st).modify k fun e => { e with xv := e.xv ||| q } else stripTop k q st

theorem getElem?_leftStack_lt {j k : Nat} (hj : j < k) (park : Bool) (q : LaneMask) (st : List MaskEntry) :
    (leftStack park k q st)[j]? = st[j]?.map (MaskEntry.without q) := by
  unfold leftStack
  split
  · rw [List.getElem?_modify_ne _ _ (by omega), getElem?_stripTop_lt hj]
  · exact getElem?_stripTop_lt hj q st

theorem getElem?_leftStack_self {k : Nat} {st : List MaskEntry} (hk : k ≤ st.length) (park : Bool) (q : LaneMask) :
    (leftStack park k q st)[k]? = st[k]?.map fun e => if park then { e with xv := e.xv ||| q } else e := by
  cases park
  · exact (getElem?_stripTop_le hk (Nat.le_refl k) q).trans (by simp)
  · simp [leftStack, getElem?_stripTop_le hk]

theorem drop_leftStack {k : Nat} {st : List MaskEntry} (hk : k ≤ st.length) (park : Bool) (q : LaneMask) :
    (leftStack park k q st).drop (k + 1) = st.drop (k + 1) := by
  refine List.ext_getElem? fun j => ?_
  have hrest : (stripTop k q st)[k + 1 + j]? = st[k + 1 + j]? := getElem?_stripTop_le hk (by omega) q
  rw [List.getElem?_drop, List.getElem?_drop, ← hrest]
  unfold leftStack
  split
  · exact List.getElem?_modify_ne _ _ (by omega)
  · rfl

/-- The effect of brk and cont on the group. -/
theorem ctlLeave_effect {f : CF} {park : Bool} {x : Group} {k : Nat} (hk : findEntry .loop (some .call) x.stack = some k) :
    (ctlLeave f park).effect x = ({ x with
      active := x.active &&& ~~~(x.active &&& condMask f x)
      stack := leftStack park k (x.active &&& condMask f x) x.stack } : Group).ifEmpty (partnerOf f x) := by
  simp only [ctlLeave, hk]
  cases park <;> rfl

/-- The lanes that go round again. -/
theorem loopAgain_eq {f : CF} {x : Group} {e : MaskEntry} {st : List MaskEntry} (h : x.stack = e :: st) :
    loopAgain f x = (x.active ||| e.xv) &&& x.live &&& condMask f x := by simp only [loopAgain, h]

/-- Settles O25: the effects of `loop`, `endloop`, `brk` and `cont`. -/
theorem loopsGoRound : Obligations.LoopsGoRound := by
  unfold Obligations.LoopsGoRound
  intro h f s g
  refine ⟨fun hi => ?_, fun e st hst hi => ?_, fun i park k hipark hk hi => ?_⟩
  case refine_1 =>
    obtain ⟨t, g', hexec, hfound, honly, hafter, hactive, hlive, hstack, hpc, -⟩ :=
      exec_ctl_goesOn (i := .loopC h f) (h := h) rfl hi (by simpa [ctlEffect, ctlLoop] using hi.alive)
    refine ⟨t, g', hexec, hfound, honly, hafter, hactive.trans ?_, hlive.trans ?_, hpc.trans ?_, hstack.trans ?_⟩
    all_goals simp [ctlEffect, ctlLoop, newEntry, show instrSize (.loopC h f) = 8 from rfl]
  case refine_2 =>
    have hlive : (ctlEffect (.endloopC h f) h f (ctlEndloop f) s g).live = g.live := by
      simp only [ctlEffect, ctlEndloop, ctlBegun_stack, hst]
      split <;> simp [Group.goto]
    obtain ⟨t, g', hexec, hfound, honly, hafter, hactive, hlive', hstack, hpc, -⟩ :=
      exec_ctl_goesOn (i := .endloopC h f) (h := h) rfl hi (hlive ▸ hi.alive)
    have hagain : loopAgain f ((g.opened h (ctlPlan f)).ctlBegun (.endloopC h f) s.now) = (g.active ||| e.xv) &&& g.live &&& condMask f g := by
      rw [loopAgain_eq (by simpa using hst)]
      simp
    refine ⟨t, g', hexec, hfound, honly, hafter, hlive'.trans hlive, ?_⟩
    rw [hactive, hstack, hpc]
    simp only [ctlEffect, ctlEndloop, ctlBegun_stack, hst, hagain]
    split
    · simp; rfl
    · simp [Group.goto]
      exact partnerOf_past (ctlBegun_pc g h f _ _)
  case refine_3 =>
    have hbegun : findEntry .loop (some .call) ((g.opened h (ctlPlan f)).ctlBegun i s.now).stack = some k := by rw [ctlBegun_stack]; exact hk
    have hlen := Nat.le_of_lt (findEntry_lt hk)
    have hsize : instrSize i = 8 := by obtain ⟨rfl, -⟩ | ⟨rfl, -⟩ := hipark <;> rfl
    have hc : ctlOf i = some (h, f, ctlLeave f park) := by obtain ⟨rfl, rfl⟩ | ⟨rfl, rfl⟩ := hipark <;> rfl
    obtain ⟨t, g', hexec, hfound, honly, hafter, hactive, hlive, hstack, hpc, -⟩ := exec_ctl_goesOn hc hi
      (by simpa [ctlEffect, ctlLeave_effect hbegun] using hi.alive)
    simp only [ctlEffect, ctlLeave_effect hbegun, Group.ifEmpty_active, Group.ifEmpty_live, Group.ifEmpty_stack, Group.ifEmpty_pc,
      ctlBegun_active, ctlBegun_live, ctlBegun_stack, ctlBegun_pc, condMask_ctlBegun, hsize] at hactive hlive hstack hpc
    refine ⟨t, g', hexec, hfound, honly, hafter, hactive, hlive, fun j hj => ?_, ?_, ?_, hpc.trans ?_⟩
    · exact (congrArg (·[j]?) hstack).trans (getElem?_leftStack_lt hj ..)
    · exact (congrArg (·[k]?) hstack).trans (getElem?_leftStack_self hlen ..)
    · exact (congrArg (List.drop (k + 1)) hstack).trans (drop_leftStack hlen ..)
    · rw [partnerOf_past (hsize ▸ ctlBegun_pc g h f i s.now)]

/-! ### Groups that end (R50, R129) -/

theorem State.grp?_releaseBars (tid k : Nat) (s : State) :
    (releaseBars tid s).grp? k = (s.grp? k).map (Group.past tid s (List.range 8)) :=
  State.grp?_map _ (Group.past_gid tid s _) (groups_releaseBars tid s) k

theorem launchCtr_releaseBars (tid core lid : Nat) (s : State) : launchCtr (releaseBars tid s) core lid = launchCtr s core lid := by
  rw [releaseBars_rest]
  rfl

theorem launchCtr_addLaunchCtr_self (core lid n : Nat) (s : State) : launchCtr (addLaunchCtr core lid n s) core lid = launchCtr s core lid + n := by
  unfold addLaunchCtr
  split
  case isTrue h => rw [h, Nat.add_zero]
  case isFalse => simp [launchCtr]

theorem State.grp?_addLaunchCtr (core lid n k : Nat) (s : State) : (addLaunchCtr core lid n s).grp? k = s.grp? k := by
  rw [State.grp?, addLaunchCtr_groups, State.grp?]

/-- A group that exits stays known; where its launch's counter takes what it has outstanding, it has left its slot (R50). -/
theorem grp?_exitGroup {k : Nat} {s : State} {g : Group} (hg : s.grp? k = some g) :
    ∃ g', (exitGroup k s).grp? k = some g' ∧ (ctrTakes s g.core g.launch g.outst = true → g'.life = .gone ∧ g'.live = 0 ∧
      launchCtr (exitGroup k s) g.core g.launch = launchCtr s g.core g.launch + g.outst) := by
  have hgid := State.grp?_gid hg
  unfold exitGroup
  simp only [hg]
  by_cases htakes : ctrTakes s g.core g.launch g.outst = true
  · rw [if_neg (by simp [htakes]), State.grp?_releaseBars, State.grp?_addLaunchCtr,
      State.grp?_modGrp_self s k Group.leave g hg fun _ hx => hx, launchCtr_releaseBars, launchCtr_addLaunchCtr_self]
    refine ⟨_, rfl, fun _ => ?_⟩
    obtain h | h := g.leave.past_cases g.team (addLaunchCtr g.core g.launch g.outst (s.modGrp k Group.leave)) (List.range 8) <;>
      rw [h] <;> exact ⟨rfl, rfl, rfl⟩
  · rw [if_pos (by simp [htakes]), State.grp?_releaseBars, hg]
    exact ⟨_, rfl, fun h => absurd h htakes⟩

/-- What `ret` does with the innermost call entry. -/
theorem ctlRet_effect {f : CF} {x : Group} {k : Nat} {e : MaskEntry} (hk : findEntry .call none x.stack = some k) (he : x.stack[k]? = some e) :
    (ctlRet f).effect x = if retStay f x = 0 then ({ x with active := e.sv &&& x.live, stack := x.stack.drop (k + 1) } : Group).goto e.addr
      else { x with active := retStay f x, stack := stripTop k (x.active &&& condMask f x) x.stack } := by
  have hlen := findEntry_lt hk
  have hdrop : (stripTop k (x.active &&& condMask f x) x.stack).drop k = e :: x.stack.drop (k + 1) := by
    rw [drop_stripTop (Nat.le_of_lt hlen), List.drop_eq_getElem_cons hlen, (List.getElem_eq_iff hlen).2 he]
  simp only [ctlRet, hk, hdrop]

/-- What `exit` does where a lane stays live. -/
theorem ctlExit_effect {f : CF} {x : Group} (h : x.live &&& ~~~(x.active &&& condMask f x) ≠ 0) :
    (ctlExit f).effect x = ({ x with
      active := x.active &&& ~~~(x.active &&& condMask f x)
      live := x.live &&& ~~~(x.active &&& condMask f x) } : Group).ifEmpty (partnerOf f x) := if_neg h

/-- Settles O26: the effects of `call`, `ret` and `exit`. -/
theorem callsAndExits : Obligations.CallsAndExits := by
  unfold Obligations.CallsAndExits
  intro h f s g
  refine ⟨fun x hi => ?_, fun k e hk he hi => ?_, fun hi => ?_⟩
  case refine_1 =>
    obtain ⟨t, g', hexec, hfound, honly, hafter, hactive, hlive, hstack, hpc, htaken⟩ :=
      exec_ctl_goesOn (i := .callC h f x) (h := h) rfl hi (by simpa [ctlEffect, ctlCall, Group.goto] using hi.alive)
    refine ⟨t, g', hexec, hfound, honly, hafter, hactive.trans ?_, hlive.trans ?_, htaken.trans ?_, hpc.trans ?_, hstack.trans ?_⟩
    all_goals simp [ctlEffect, ctlCall, Group.goto, newEntry, show instrSize (.callC h f x) = 16 from rfl]
  case refine_2 =>
    have hstay : retStay f ((g.opened h (ctlPlan f)).ctlBegun (.retC h f) s.now) = g.active &&& ~~~(condMask f g) := by simp [retStay]
    have heffect : ctlEffect (.retC h f) h f (ctlRet f) s g = _ := ctlRet_effect (k := k) (e := e) (by simpa using hk) (by simpa using he)
    rw [hstay] at heffect
    have hlive : (ctlEffect (.retC h f) h f (ctlRet f) s g).live = g.live := by
      rw [heffect]
      split <;> simp [Group.goto]
    obtain ⟨t, g', hexec, hfound, honly, hafter, hactive, hlive', hstack, hpc, -⟩ :=
      exec_ctl_goesOn (i := .retC h f) (h := h) rfl hi (hlive ▸ hi.alive)
    refine ⟨t, g', hexec, hfound, honly, hafter, hlive'.trans hlive, ?_⟩
    rw [heffect] at hactive hstack hpc
    have hlen := Nat.le_of_lt (findEntry_lt hk)
    dsimp only
    split at hactive
    case isTrue h0 =>
      rw [if_pos h0] at hstack hpc ⊢
      exact ⟨hactive.trans (by simp [Group.goto]), hstack.trans (by simp [Group.goto]), hpc⟩
    case isFalse h0 =>
      rw [if_neg h0] at hstack hpc ⊢
      simp only [ctlBegun_active, ctlBegun_stack, condMask_ctlBegun] at hstack
      exact ⟨hactive, hpc.trans (ctlBegun_pc g h f (.retC h f) s.now), (congrArg (List.drop k) hstack).trans (drop_stripTop hlen _),
        fun j hj => (congrArg (·[j]?) hstack).trans (getElem?_stripTop_lt hj ..)⟩
  case refine_3 =>
    have hlive : (ctlEffect (.exitC h f) h f (ctlExit f) s g).live = g.live &&& ~~~(g.active &&& condMask f g) := by
      simp only [ctlEffect, ctlExit]
      split <;> simp
    by_cases hleft : g.live &&& ~~~(g.active &&& condMask f g) = 0
    · obtain ⟨-, hg, -, -⟩ := State.issuing_some hi.issuing
      obtain ⟨hafter, hgid, -, hleaves, -⟩ := afterCtl_ctlLeaves (i := .exitC h f) (c := ctlExit f) rfl s g
      obtain ⟨x, hx⟩ : ∃ x, x = ctlLeaves (.exitC h f) h f (ctlExit f) s g := ⟨_, rfl⟩
      have hexec := exec_ctl (i := .exitC h f) (h := h) rfl hi
      rw [if_pos (hleaves.trans (hlive.trans hleft)), ← hx] at hexec
      rw [← hx] at hafter hgid
      obtain ⟨hcore, -, -, -, hlaunch, -⟩ := hafter.place
      have hbooked : (s.booked g.gid x).grp? g.gid = some x := State.grp?_modGrp_self s g.gid (fun _ => x) g hg fun _ _ => hgid
      obtain ⟨g', hfound, hends⟩ := grp?_exitGroup hbooked
      refine ⟨_, g', hexec, hfound, fun h => absurd hleft h, fun _ hlt hle => ?_⟩
      rw [hcore, hlaunch, hafter.counts.2.1] at hends
      obtain ⟨hgone, hlive0, hctr⟩ := hends (by
        simp only [ctrTakes, Bool.and_eq_true, decide_eq_true_eq]
        exact ⟨hlt, hle⟩)
      exact ⟨hgone, hlive0, (exitGroup_quiet ..).1, hctr⟩
    · obtain ⟨t, g', hexec, hfound, honly, hafter, hactive, hlive', hstack, hpc, -⟩ :=
        exec_ctl_goesOn (i := .exitC h f) (h := h) rfl hi (hlive ▸ hleft)
      refine ⟨t, g', hexec, hfound, fun _ => ⟨honly, hafter, hlive'.trans hlive, hactive.trans ?_, hstack.trans ?_, hpc.trans ?_⟩, fun h => absurd h hleft⟩
      all_goals simp [ctlEffect, ctlExit_effect (x := (g.opened h (ctlPlan f)).ctlBegun (.exitC h f) s.now) (by simpa using hleft), partnerOf, show instrSize (.exitC h f) = 8 from rfl]

end Sys2Proof.Machine
end

section
/-! PROOFS. Integer lane instructions (R136 to R139). -/

namespace Sys2Proof.Machine

set_option Elab.async false

/-! ### What the plan of a lane-wise instruction computes (R136) -/

/-- The plan `p` writes `r` of the operands of each effective lane, under the tag of `o`; the bookkeeping of its issue changes neither. -/
def LaneOp.Does (o : LaneOp) (p : Plan) (r : List Word → Word × FFlags) : Prop :=
  ∃ j us lat f, lanePlan j o.vd o.pair o.srcs us o.tag lat f = p ∧
    (∀ (g : Group) s h q, f (g.atIssue s h q) = f g ∧ o.tag (g.atIssue s h q) = o.tag g) ∧
    ∀ g l, f g l (o.srcs.map fun x => x.read g l) = r (o.args g l)

/-- A function of the operands A and B. -/
def ofTwo (op : Word → Word → Word × FFlags) (xs : List Word) : Word × FFlags := op (xs.getD 0 0) (xs.getD 1 0)

/-- A function of the operands A, B and C. -/
def ofThree (op : Word → Word → Word → Word × FFlags) (xs : List Word) : Word × FFlags := op (xs.getD 0 0) (xs.getD 1 0) (xs.getD 2 0)

/-- What such an instruction leaves where no lane dies. -/
theorem runPlan_does {o : LaneOp} {i : Instr} {s : State} {g : Group} {p : Plan} {r : List Word → Word × FFlags} (hdoes : o.Does p r)
    (hp : planOf i s = some (o.h, p)) (hi : Issues s g i o.h p) (hd : dying s g o.h p = 0) :
    ∃ t g', exec i s = .next t ∧ t.grp? g.gid = some g' ∧ OnlyGroup s t g.gid ∧
      WroteLanes i g g' o.h p o.pair o.vd (o.tag g) fun l => r (o.args g l) := by
  obtain ⟨j, us, lat, f, hplan, hkeeps, hvalue⟩ := hdoes
  obtain ⟨hf, htag⟩ := hkeeps g s o.h p
  obtain ⟨t, g', hrun, hfound, honly, hwrote⟩ := runPlan_lanes hplan hi hd hf htag
  simp only [hvalue] at hwrote
  exact ⟨t, g', (exec_of_planOf hp).trans hrun, hfound, honly, hwrote⟩

theorem tagOr_atIssue (t : BitVec 4) (n : Nat) (g : Group) (s : State) (h : Hdr) (q : Plan) : tagOr t n (g.atIssue s h q) = tagOr t n g := by
  rw [tagOr, tagOr, Group.atIssue_vTag]

section
variable {i : Instr} {h : Hdr} {b : Bool} {lat : Nat}

theorem laneVR_does {f : VR} {tag : Group → BitVec 4} (htag : ∀ (g : Group) s h q, tag (g.atIssue s h q) = tag g)
    (op : Word → Word → Word × FFlags) : ({ laneVR h f with sat := b, tag := tag } : LaneOp).Does
      (lanePlan i f.vd.toNat (isPairType f.type) [vrA f, vrB f] [] tag lat fun _ _ xs => op (xs.getD 0 0) (xs.getD 1 0)) (ofTwo op) :=
  ⟨i, [], lat, _, rfl, fun g s h q => ⟨rfl, htag g s h q⟩, fun _ _ => rfl⟩

theorem laneVR1_does {f : VR} {tag : Group → BitVec 4} (htag : ∀ (g : Group) s h q, tag (g.atIssue s h q) = tag g)
    (op : Word → Word × FFlags) : ({ laneVR1 h f with sat := b, tag := tag } : LaneOp).Does (vr1Plan i f tag lat op) (ofTwo fun x _ => op x) :=
  ⟨i, [], lat, _, rfl, fun g s h q => ⟨rfl, htag g s h q⟩, fun _ _ => rfl⟩

theorem laneVI_does {f : VI} {tag : Group → BitVec 4} (htag : ∀ (g : Group) s h q, tag (g.atIssue s h q) = tag g)
    (op : Word → Word → Word × FFlags) : ({ laneVI h f with sat := b, tag := tag } : LaneOp).Does
      (lanePlan i f.vd.toNat (isPairType f.type) [srcA f.va f.lra f.eba f.type] [] tag lat
        fun _ _ xs => op (xs.getD 0 0) (viOperand f.type f.imm f.ik)) (ofTwo op) :=
  ⟨i, [], lat, _, rfl, fun g s h q => ⟨rfl, htag g s h q⟩, fun _ _ => rfl⟩

theorem laneVS_does {f : VS} (op : Word → Word → Word × FFlags) : ({ laneVS h f with sat := b } : LaneOp).Does (vsPlan i f op) (ofTwo op) :=
  ⟨i, [.s f.sb.toNat false], 0, _, rfl, fun g s h q => ⟨by simp only [Group.atIssue_s], tagOr_atIssue f.type f.va.toNat g s h q⟩, fun _ _ => rfl⟩

theorem laneV3_does {f : V3} (op : Word → Word → Word → Word × FFlags) : (laneV3 h f).Does (v3Plan i f op) (ofThree op) :=
  ⟨i, [], 0, _, rfl, fun g s h q => ⟨rfl, tagOr_atIssue f.type f.va.toNat g s h q⟩, fun _ _ => rfl⟩

end

/-! ### Integers (R137) -/

/-- A function of two operands that is integer arithmetic at the types that are not floating. -/
def IsIntFn (t : BitVec 4) (sat : Bool) (v : IntFn) (op : Word → Word → Word × FFlags) : Prop :=
  isFloatType t = false → ∀ x y, op x y = intOp t sat v x y

theorem intOp_isIntFn {t : BitVec 4} {sat : Bool} {v : IntFn} : IsIntFn t sat v (intOp t sat v) := fun _ _ _ => rfl

theorem arith_isIntFn {t : BitVec 4} {sat : Bool} {v : IntFn} {fl : Fmt → FV → FV → Nat × FFlags} : IsIntFn t sat v (arith t sat v fl) :=
  fun ht x y => by rw [arith, ht]; rfl

theorem absOp_isIntFn {t : BitVec 4} {sat : Bool} : IsIntFn t sat IntOp.abs.fn fun x _ => absOp t sat x :=
  fun ht x y => by simp only [absOp, ht]; rfl

theorem negOp_isIntFn {t : BitVec 4} {sat : Bool} : IsIntFn t sat IntOp.neg.fn fun x _ => negOp t sat x :=
  fun ht x y => by simp only [negOp, ht]; rfl

/-- The plan of an integer instruction but for `mad` is integer arithmetic on its operands. -/
theorem intLaneOp_does {i : Instr} {o : LaneOp} {x : IntOp} {s : State} {p : Plan} (ho : intLaneOp i = some (o, x))
    (hp : planOf i s = some (o.h, p)) (hmad : x ≠ .mad) : ∃ op, o.Does p (ofTwo op) ∧ IsIntFn o.type o.sat x.fn op := by
  have htag (t : BitVec 4) (n : Nat) := tagOr_atIssue t n
  cases i <;> cases ho <;> cases hp
  case mad => exact absurd rfl hmad
  case abs h f => exact ⟨_, laneVR1_does (fun _ _ _ _ => rfl) _, absOp_isIntFn⟩
  case neg h f => exact ⟨_, laneVR1_does (fun _ _ _ _ => rfl) _, negOp_isIntFn⟩
  case adiff h f => exact ⟨_, laneVR_does (fun _ _ _ _ => rfl) _, intOp_isIntFn⟩
  case addVr | subVr | mulVr | minVr | maxVr | div => exact ⟨_, laneVR_does (htag _ _) _, arith_isIntFn⟩
  case mulhi | rem | shlVr | shrVr | rshrVr => exact ⟨_, laneVR_does (htag _ _) _, intOp_isIntFn⟩
  case addVi | mulVi | minVi | maxVi => exact ⟨_, laneVI_does (htag _ _) _, arith_isIntFn⟩
  case shlVi | shrVi | rshrVi | rsub => exact ⟨_, laneVI_does (htag _ _) _, intOp_isIntFn⟩
  case addVs | subVs | mulVs | minVs | maxVs => exact ⟨_, laneVS_does _, arith_isIntFn⟩
  case shlVs | shrVs => exact ⟨_, laneVS_does _, intOp_isIntFn⟩

theorem mad_does {h : Hdr} {f : V3} : (laneV3 h f).Does (planMad h f) (ofThree (madOp f.type f.sat)) := laneV3_does _

theorem elemW_pos (t : BitVec 4) : 0 < elemW t := by
  revert t
  decide

theorem isFloatType_of_typeIn {t : BitVec 4} : typeIn t [0, 1, 2, 3, 4, 5, 6, 7, 8, 12] = true → isFloatType t = false := by
  revert t
  decide

/-- Elements of an integer instruction's result. -/
theorem elemNat_isIntFn {t : BitVec 4} {sat : Bool} {x : IntOp} {op : Word → Word → Word × FFlags} (hop : IsIntFn t sat x.fn op)
    (ht : isFloatType t = false) (hmad : x ≠ .mad) (a b : Word) (z : Int) {e : Nat} (he : e < elemCount t) :
    elemNat (elemW t) (op a b).1 e = narrow sat (isSigned t) (elemW t) (x.exact (isSigned t) (elemW t)
      (readInt (isSigned t) (elemW t) (elemNat (elemW t) a e)) (readInt (isSigned t) (elemW t) (elemNat (elemW t) b e)) z) := by
  rw [hop ht]
  exact (elemNat_intElems t sat x.fn a b e he).trans
    (narrow_exact x sat _ _ (elemW_pos t) _ _ z (readInt_bounds _ _ _ (elemW_pos t) (elemNat_lt _ _ _)) hmad)

/-- Elements of `mad`'s result. -/
theorem elemNat_madOp {t : BitVec 4} (sat : Bool) (a b c : Word) {e : Nat} (he : e < elemCount t) :
    elemNat (elemW t) (madOp t sat a b c).1 e = narrow sat (isSigned t) (elemW t) (IntOp.mad.exact (isSigned t) (elemW t)
      (readInt (isSigned t) (elemW t) (elemNat (elemW t) a e)) (readInt (isSigned t) (elemW t) (elemNat (elemW t) b e))
      (readInt (isSigned t) (elemW t) (elemNat (elemW t) c e))) :=
  elemNat_map t _ e he (narrow_lt _ _ _ _)

/-- Settles O1: the model's arithmetic of every integer instruction gives the exact value of R137, narrowed. -/
theorem integerLanes : Obligations.IntegerLanes := by
  unfold Obligations.IntegerLanes
  intro i o x s g p ho htype hp hi hd
  by_cases hmad : x = .mad
  · have hdoes : o.Does p (ofThree (madOp o.type o.sat)) := by
      subst hmad
      cases i <;> cases ho
      cases hp
      exact mad_does
    obtain ⟨t, g', hexec, hfound, honly, hwrote⟩ := runPlan_does hdoes hp hi hd
    subst hmad
    exact ⟨t, g', _, hexec, hfound, honly, hwrote, fun l => ⟨rfl, fun e he => elemNat_madOp o.sat _ _ _ he⟩⟩
  · obtain ⟨op, hdoes, hop⟩ := intLaneOp_does ho hp hmad
    obtain ⟨t, g', hexec, hfound, honly, hwrote⟩ := runPlan_does hdoes hp hi hd
    have ht := isFloatType_of_typeIn htype
    refine ⟨t, g', _, hexec, hfound, honly, hwrote, fun l => ⟨?_, fun e he => elemNat_isIntFn hop ht hmad _ _ _ he⟩⟩
    rw [ofTwo, hop ht]
    rfl

end Sys2Proof.Machine
end

section
/-! PROOFS. Bit instructions (R143 to R149). -/

namespace Sys2Proof.Machine

set_option Elab.async false

/-! ### Bits (R143 to R149) -/

/-- A function of the operands gives every bit of an instruction's result, and raises no flag. -/
def BitOp.Gives (x : BitOp) (t : BitVec 4) (r : List Word → Word × FFlags) : Prop :=
  ∀ xs, (r xs).2 = ffNone ∧ ∀ q, q < opW t → (r xs).1.getLsbD q = x.bit (opW t) (xs.getD 0 0) (xs.getD 1 0) (xs.getD 2 0) q

theorem BitOp.gives_bitOp {x : BitOp} {t : BitVec 4} {op : Word → Word → Word}
    (hop : ∀ a b c q, q < opW t → q < 64 → (op a b).getLsbD q = x.bit (opW t) a b c q) : x.Gives t (ofTwo (bitOp t op)) :=
  fun _ => ⟨rfl, fun q hq => (getLsbD_cutTo t _ q hq).trans (hop _ _ _ q hq (Nat.lt_of_lt_of_le hq (opW_le t)))⟩

theorem BitOp.gives_two {x : BitOp} {t : BitVec 4} {op : Word → Word → Word}
    (hop : ∀ a b c q, q < opW t → (op a b).getLsbD q = x.bit (opW t) a b c q) : x.Gives t (ofTwo fun a b => (op a b, ffNone)) :=
  fun _ => ⟨rfl, fun q hq => hop _ _ _ q hq⟩

/-- The bits of a count of the operand width. -/
theorem BitOp.gives_count {x : BitOp} {t : BitVec 4} {n : Word → Nat}
    (hn : ∀ a b c q, (n a).testBit q = x.bit (opW t) a b c q) : x.Gives t (ofTwo fun a _ => (BitVec.ofNat 64 (n a), ffNone)) :=
  fun _ => ⟨rfl, fun q hq => (getLsbD_count _ q (Nat.lt_of_lt_of_le hq (opW_le t))).trans (hn _ _ _ q)⟩

/-- The plan of a count, whose tag the model gives by `countTag`. -/
theorem laneVR1_counts {i : Instr} {h : Hdr} {f : VR} (n : Word → Nat) :
    ({ laneVR1 h f with tag := fun _ => if f.type = 12 then 8 else 6 } : LaneOp).Does
      (vr1Plan i f (countTag f.type) 0 fun y => (BitVec.ofNat 64 (n y), ffNone)) (ofTwo fun a _ => (BitVec.ofNat 64 (n a), ffNone)) := by
  have htag : countTag f.type = fun _ => if f.type = 12 then 8 else 6 := by
    funext
    simp [countTag]
  rw [htag]
  exact laneVR1_does (fun _ _ _ _ => rfl) _

/-- A well-formed instruction meets neither item 4 nor item 5 of R74. -/
theorem Checks.holds_of_item {c : Checks} (h : c.item = none) : c.vals = true ∧ c.types = true := by
  cases hv : c.vals <;> cases ht : c.types <;> simp [Checks.item, hv, ht] at h ⊢ <;> split at h <;> cases h

theorem type_of_wellFormed {u : RndUse} {b : Bool} {h : Hdr} {f : VR} (hwf : (vr2Checks [12] u b h f).item = none) : f.type = 12 := by
  have htypes := (Checks.holds_of_item hwf).2
  simpa [vr2Checks, typeIn, BitVec.toNat_eq] using htypes

theorem field_of_wellFormed {h : Hdr} {f : VI} (hwf : (bfxChecks h f).item = none) :
    (f.imm.extractLsb' 0 6).toNat + ((f.imm.extractLsb' 6 6).toNat + 1) ≤ opW f.type := by
  have hvals := (Checks.holds_of_item hwf).1
  simp only [bfxChecks, Bool.and_eq_true, decide_eq_true_eq] at hvals
  exact hvals.2

/-- The plan of a bit instruction gives the bits of R143 to R149 of its operands. -/
theorem bitLaneOp_does {i : Instr} {o : LaneOp} {x : BitOp} {s : State} {p : Plan} (ho : bitLaneOp i = some (o, x))
    (hp : planOf i s = some (o.h, p)) (hwf : i.WellFormed 64) : ∃ r, o.Does p r ∧ x.Gives o.type r := by
  have htag (t : BitVec 4) (n : Nat) := tagOr_atIssue t n
  cases i <;> cases ho <;> cases hp
  case andVr => exact ⟨_, laneVR_does (htag _ _) _, BitOp.gives_bitOp fun _ _ _ _ _ _ => BitVec.getLsbD_and⟩
  case orVr => exact ⟨_, laneVR_does (htag _ _) _, BitOp.gives_bitOp fun _ _ _ _ _ _ => BitVec.getLsbD_or⟩
  case xorVr => exact ⟨_, laneVR_does (htag _ _) _, BitOp.gives_bitOp fun _ _ _ _ _ _ => BitVec.getLsbD_xor⟩
  case andVi => exact ⟨_, laneVI_does (htag _ _) _, BitOp.gives_bitOp fun _ _ _ _ _ _ => BitVec.getLsbD_and⟩
  case orVi => exact ⟨_, laneVI_does (htag _ _) _, BitOp.gives_bitOp fun _ _ _ _ _ _ => BitVec.getLsbD_or⟩
  case xorVi => exact ⟨_, laneVI_does (htag _ _) _, BitOp.gives_bitOp fun _ _ _ _ _ _ => BitVec.getLsbD_xor⟩
  case andVs => exact ⟨_, laneVS_does _, BitOp.gives_bitOp fun _ _ _ _ _ _ => BitVec.getLsbD_and⟩
  case orVs => exact ⟨_, laneVS_does _, BitOp.gives_bitOp fun _ _ _ _ _ _ => BitVec.getLsbD_or⟩
  case xorVs => exact ⟨_, laneVS_does _, BitOp.gives_bitOp fun _ _ _ _ _ _ => BitVec.getLsbD_xor⟩
  case andn => exact ⟨_, laneVR_does (htag _ _) _, BitOp.gives_bitOp fun a b _ q _ hq => by simp [BitOp.bit, hq]⟩
  case notVr =>
    refine ⟨_, laneVR1_does (htag _ _) _, fun xs => ⟨rfl, fun q hq => (getLsbD_cutTo _ _ q hq).trans ?_⟩⟩
    simp [BitOp.bit, Nat.lt_of_lt_of_le hq (opW_le _)]
  case popc => exact ⟨_, laneVR1_counts _, BitOp.gives_count fun a _ _ q => by rw [popCount_eq]; rfl⟩
  case clz => exact ⟨_, laneVR1_counts _, BitOp.gives_count fun _ _ _ _ => rfl⟩
  case ctz => exact ⟨_, laneVR1_counts _, BitOp.gives_count fun _ _ _ _ => rfl⟩
  case brev => exact ⟨_, laneVR1_does (htag _ _) fun a => (brevOf _ a, ffNone), BitOp.gives_two (op := fun a _ => brevOf _ a) fun a _ _ q hq => bit_brev _ a q hq (opW_le _)⟩
  case bdep => exact ⟨_, laneVR_does (htag _ _) fun a b => (bdepOf _ a b, ffNone), BitOp.gives_two fun a b _ q hq => bit_bdep _ a b q hq (opW_le _)⟩
  case bext => exact ⟨_, laneVR_does (htag _ _) fun a b => (bextOf _ a b, ffNone), BitOp.gives_two fun a b _ q hq => bit_bext _ a b q hq (opW_le _)⟩
  case bperm h f =>
    have ht : f.type = 12 := type_of_wellFormed hwf
    exact ⟨_, laneVR_does (htag _ _) fun a b => (bpermOf a b, ffNone), BitOp.gives_two fun a b _ q hq => by
      rw [show opW (laneVR h f).type = 64 from congrArg opW ht] at hq ⊢
      exact bit_bperm a b q hq⟩
  case gfmat h f =>
    have ht : f.type = 12 := type_of_wellFormed hwf
    exact ⟨_, laneVR_does (htag _ _) fun a b => (gfmatOf a b, ffNone), BitOp.gives_two fun a b _ q hq => by
      rw [show opW (laneVR h f).type = 64 from congrArg opW ht] at hq ⊢
      exact bit_gfmat a b q hq⟩
  case bfx h f =>
    have hfield : (f.imm.extractLsb' 0 6).toNat + ((f.imm.extractLsb' 6 6).toNat + 1) ≤ opW f.type := field_of_wellFormed hwf
    exact ⟨_, laneVI_does (fun _ _ _ _ => rfl) fun a _ => (bfxOf f.type _ _ a, ffNone), BitOp.gives_two fun a _ _ q hq => bit_bfx _ _ _ a q (Nat.succ_pos _) hfield hq⟩
  case bfi => exact ⟨_, laneV3_does fun a b c => (bfiOf _ a b c, ffNone), fun xs => ⟨rfl, fun q hq => bit_bfi _ _ _ _ q hq⟩⟩

/-- Settles O2: every bit of every bit instruction's result. -/
theorem bitLanes : Obligations.BitLanes := by
  unfold Obligations.BitLanes
  intro i o x s g p ho hwf hp hi hd
  obtain ⟨r, hdoes, hgives⟩ := bitLaneOp_does ho hp hwf
  obtain ⟨t, g', hexec, hfound, honly, hwrote⟩ := runPlan_does hdoes hp hi hd
  exact ⟨t, g', _, hexec, hfound, honly, hwrote, fun l => hgives (o.args g l)⟩

end Sys2Proof.Machine
end

section
/-! PROOFS. rds (R134). -/

namespace Sys2Proof.Machine

set_option Elab.async false

/-- An instruction that issues does the same under every effect that leaves the same states once its issue is booked. -/
theorem runPlan_congr_booked {s : State} {g : Group} {i : Instr} {h : Hdr} {p : Plan} (hi : Issues s g i h p)
    (ht : p.touches s g (effLanes g h) = []) (e : State → Group → LaneMask → Prog)
    (he : ∀ g1 eff, (e s (g.atIssue s h p) eff).run (s.booked g.gid g1) = (p.effect s (g.atIssue s h p) eff).run (s.booked g.gid g1)) :
    runPlan i h { p with effect := e } s = runPlan i h p s := by
  have hi' : Issues s g i h { p with effect := e } := ⟨hi.issuing, hi.alive, hi.ready, hi.clear, hi.tables, hi.room⟩
  rw [runPlan_issues hi, runPlan_issues hi', ht, readTables_nil, perform_run, perform_run]
  have he' (c : Bool) (g1 : Group) (eff : LaneMask) : (if c then e s (g.atIssue s h p) eff else Prog.done).run (s.booked g.gid g1) =
      (if c then p.effect s (g.atIssue s h p) eff else Prog.done).run (s.booked g.gid g1) := by
    cases c
    · rfl
    · exact he g1 eff
  exact congrArg _ (congrArg _ (congrArg _ (he' _ _ _)))

/-- The value for a uniform register, with the cc of the issue. -/
theorem setUniform_booked (s : State) (gid sd lat : Nat) (v : Word) (k : Nat) (g1 : Group) :
    (setUniform gid sd lat v).run (s.booked k g1) =
      (Prog.change fun t => t.modGrp gid fun x => x.setS (s.now + lat) sd v).run (s.booked k g1) := by
  rw [setUniform, Prog.run_change _ _ rfl rfl, Prog.run_change _ _ rfl rfl]
  rfl

/-! ### The named values (R134) -/

/-- The model's value of a name is that of the table. -/
theorem rdsValue_of_specials {s : State} {g : Group} {l : Launch} {tm : Team} (hl : s.launch? g.launch = some l) (ht : s.team? g.team = some tm)
    {name lane : Nat} {v : Word} (h : (specials s g l tm lane).lookup name = some v) : rdsValue s g name lane = v := by
  have hmem := lookup_mem h
  simp only [specials, List.mem_cons, Prod.mk.injEq, List.not_mem_nil, or_false] at hmem
  obtain ⟨rfl, rfl⟩ | ⟨rfl, rfl⟩ | ⟨rfl, rfl⟩ | ⟨rfl, rfl⟩ | ⟨rfl, rfl⟩ | ⟨rfl, rfl⟩ | ⟨rfl, rfl⟩ | ⟨rfl, rfl⟩ | ⟨rfl, rfl⟩ | ⟨rfl, rfl⟩ |
    ⟨rfl, rfl⟩ | ⟨rfl, rfl⟩ | ⟨rfl, rfl⟩ | ⟨rfl, rfl⟩ | ⟨rfl, rfl⟩ | ⟨rfl, rfl⟩ | ⟨rfl, rfl⟩ | ⟨rfl, rfl⟩ | ⟨rfl, rfl⟩ | ⟨rfl, rfl⟩ | ⟨rfl, rfl⟩ := hmem
  all_goals simp only [rdsValue, hl, ht, Option.map_some, Option.getD_some, pairOfCore, dieOfCore]

/-- The bookkeeping of an issue changes no named value. -/
theorem rdsValue_atIssue (s : State) (g : Group) (s' : State) (h : Hdr) (p : Plan) (name lane : Nat) :
    rdsValue s (g.atIssue s' h p) name lane = rdsValue s g name lane := by
  simp [rdsValue, Group.atIssue]

/-! ### rds into a vector register -/

theorem Group.writeV_congr (g : Group) (name : Nat) {eff : LaneMask} {f f' : Nat → Lane} (tag : BitVec 4) (ready : Nat)
    (h : ∀ l, l ∈ lanesOf eff → f l = f' l) : g.writeV name eff f tag ready = g.writeV name eff f' tag ready := by
  have hlanes (r : PReg) : ((List.range 64).map fun l =>
      if eff.getLsbD l then (f l &&& ~~~(0 : Lane)) ||| (laneOf r.lanes l &&& 0) else laneOf r.lanes l) =
      (List.range 64).map fun l => if eff.getLsbD l then (f' l &&& ~~~(0 : Lane)) ||| (laneOf r.lanes l &&& 0) else laneOf r.lanes l := by
    refine List.map_congr_left fun l hl => ?_
    split
    case isTrue he => rw [h l (mem_lanesOf.2 ⟨List.mem_range.1 hl, he⟩)]
    case isFalse => rfl
  simp only [Group.writeV, hlanes]

theorem orFlags_none {ls : List Nat} {f : Nat → FFlags} (h : ∀ l, f l = ffNone) : orFlags (ls.map f) = ffNone := by
  unfold orFlags
  induction ls with
  | nil => rfl
  | cons l ls ih => simpa [h, ffNone] using ih

/-- rds into a V register as a lane-wise plan without sources. -/
def rdsLanes (h : Hdr) (f : RS) (s : State) : Plan :=
  lanePlan (.rds h f) f.d.toNat false [] [] (fun _ => 6) 0 fun g l _ => (rdsValue s g f.name.toNat l, ffNone)

theorem consumedBy_nil : consumedBy [] = fun _ _ => 0 := by
  funext g eff
  simp only [consumedBy, List.any_nil, List.filter_false]
  split <;> rfl

theorem planRds_lanes {f : RS} (hdv : f.dv = true) (h : Hdr) (s : State) :
    planRds f = { rdsLanes h f s with effect := (planRds f).effect } := by
  simp only [planRds, hdv, if_true, rdsLanes, lanePlan, consumedBy_nil]
  rfl

/-- What that plan does is what `rds` does. -/
theorem planRds_effect {f : RS} (hdv : f.dv = true) (h : Hdr) (s : State) (g : Group) (eff : LaneMask) (u : State) :
    ((planRds f).effect s g eff).run u = ((rdsLanes h f s).effect s g eff).run u := by
  have hwrite (x : Group) : x.writeV f.d.toNat eff (fun l => (rdsValue s g f.name.toNat l).setWidth 32) 6 s.now =
      (x.writeResult false f.d.toNat eff ((lanesOf eff).map fun l => (l, rdsValue s g f.name.toNat l)) 6 (s.now + 0)).raiseFlags ffNone := by
    have hraise (y : Group) : y.raiseFlags ffNone = y := by simp [Group.raiseFlags, ffNone]
    rw [hraise]
    refine Group.writeV_congr x _ _ _ fun l hl => ?_
    have hlookup := lookup_map_self (fun l => (rdsValue s g f.name.toNat l, ffNone)) (lanesOf eff) l hl
    simp only [List.map_map, Function.comp_def] at hlookup
    exact (congrArg loLane hlookup).symm
  simp only [planRds, hdv, if_true, rdsLanes, lanePlan, List.map_map, Function.comp_def, orFlags_none fun _ => rfl, hwrite]

/-! ### rds into a uniform register -/

/-- rds into a uniform register, with the cc of the issue. -/
def rdsUniform (f : RS) : Plan where
  acts := .group
  dsts := [.s f.d.toNat]
  effect := fun s g _ => .change fun t => t.modGrp g.gid fun x => x.setS (s.now + 0) f.d.toNat (rdsValue s g f.name.toNat 0)

theorem planRds_uniform {f : RS} (hdv : f.dv = false) :
    planRds f = { rdsUniform f with effect := fun s g _ => setUniform g.gid f.d.toNat 0 (rdsValue s g f.name.toNat 0) } := by
  simp [planRds, hdv, rdsUniform]

/-- Settles O8: each name's value is that of the table, in every effective lane or once. -/
theorem readSpecial : Obligations.ReadSpecial := by
  unfold Obligations.ReadSpecial
  intro h f s g l tm p v hp hi hn hl ht hv
  obtain rfl : p = planRds f := by cases hp; rfl
  have hvalue (lane : Nat) : rdsValue s g f.name.toNat lane = v lane := rdsValue_of_specials hl ht (hv lane)
  rw [exec_of_planOf hp]
  cases hdv : f.dv
  case true =>
    have hsame := planRds_lanes hdv h s
    have hi' : Issues s g (.rds h f) h (rdsLanes h f s) := by
      rw [hsame] at hi
      exact ⟨hi.issuing, hi.alive, hi.ready, hi.clear, hi.tables, hi.room⟩
    have hdying : dying s g h (rdsLanes h f s) = 0 := by simp [dying, rdsLanes, lanePlan, consumedBy_nil]
    obtain ⟨t, g', hrun, hfound, honly, hwrote⟩ := runPlan_lanes (p := rdsLanes h f s) rfl hi' hdying
      (funext fun k => funext fun _ => by rw [rdsValue_atIssue]) rfl
    have hcongr := runPlan_congr hi' rfl (planRds f).effect fun g' eff u => planRds_effect hdv h s g' eff u
    rw [← hsame] at hcongr
    simp only [hvalue] at hwrote
    refine ⟨t, g', hcongr.trans hrun, hfound, honly, ?_⟩
    rw [if_pos rfl, hsame]
    exact ⟨hwrote.value, hwrote.others, hwrote.tags, hwrote.marks, hwrote.flags, hwrote.freed, hwrote.regs, hwrote.keeps, hwrote.work, hwrote.moves⟩
  case false =>
    have hsame := planRds_uniform hdv
    have hi' : Issues s g (.rds h f) h (rdsUniform f) := by
      rw [hsame] at hi
      exact ⟨hi.issuing, hi.alive, hi.ready, hi.clear, hi.tables, hi.room⟩
    obtain ⟨t, g', hrun, hfound, honly, hwrote⟩ := runPlan_uniform (sd := f.d.toNat) (lat := 0) (v := v 0) hi' rfl (hn hdv) rfl rfl
      (by simp only [rdsUniform, Group.atIssue_gid, rdsValue_atIssue, hvalue])
    have hcongr := runPlan_congr_booked hi' rfl (fun s g _ => setUniform g.gid f.d.toNat 0 (rdsValue s g f.name.toNat 0))
      fun g1 _ => setUniform_booked ..
    rw [← hsame] at hcongr
    refine ⟨t, g', hcongr.trans hrun, hfound, honly, ?_⟩
    rw [if_neg Bool.false_ne_true, hsame]
    exact ⟨hwrote.value, hwrote.full, hwrote.freed, hwrote.regs, hwrote.zero, hwrote.flags, hwrote.keeps, hwrote.work, hwrote.moves⟩

end Sys2Proof.Machine
end

section
/-! PROOFS. Predicate writers (R124, R125, R153, R161, R205). -/

namespace Sys2Proof.Machine

set_option Elab.async false

/-! ### Masks made of bits -/

theorem getLsbD_maskOf (ls : List Nat) {l : Nat} (hl : l < 64) : (maskOf ls).getLsbD l = decide (l ∈ ls) := by
  have hfold (m : LaneMask) : (ls.foldl (fun m l => m ||| BitVec.ofNat 64 (2 ^ l)) m).getLsbD l = (m.getLsbD l || decide (l ∈ ls)) := by
    induction ls generalizing m with
    | nil => simp
    | cons x ls ih =>
      have hbit : (BitVec.ofNat 64 (2 ^ x)).getLsbD l = decide (l = x) := by
        rw [getLsbD_count _ l hl, Nat.testBit_two_pow]
        simp [eq_comm]
      rw [List.foldl_cons, ih, BitVec.getLsbD_or, hbit, Bool.or_assoc]
      simp
  exact (hfold 0).trans (by simp)

theorem getLsbD_negIf (b : Bool) (m : LaneMask) {l : Nat} (hl : l < 64) : (negIf b m).getLsbD l = (m.getLsbD l ^^ b) := by
  cases b <;> simp [negIf, hl]

/-- A mask of some lanes, written or not, has a written lane exactly where it is written. -/
theorem getLsbD_ite_mask (c : Bool) {m : LaneMask} {l : Nat} (h : m.getLsbD l = true) : (if c then m else (0 : LaneMask)).getLsbD l = c := by
  cases c
  · exact BitVec.getLsbD_zero
  · exact h

theorem and_beq_zero (q m : LaneMask) : (q &&& m == 0) = (lanesOf q).all fun l => !m.getLsbD l := by
  rw [Bool.eq_iff_iff, beq_iff_eq, List.all_eq_true]
  constructor
  · intro h l hl
    obtain ⟨-, hq⟩ := mem_lanesOf.1 hl
    have hbit := congrArg (·.getLsbD l) h
    simp only [BitVec.getLsbD_and, hq, Bool.true_and] at hbit
    simpa using hbit
  · intro h
    refine BitVec.eq_of_getLsbD_eq fun l hl => ?_
    have hbit := h l
    simp only [mem_lanesOf, hl, true_and, Bool.not_eq_true'] at hbit
    rw [BitVec.getLsbD_and, show (0 : LaneMask).getLsbD l = false from BitVec.getLsbD_zero]
    cases hq : q.getLsbD l
    · rfl
    · rw [hbit hq]; rfl

theorem and_not_beq_zero (q m : LaneMask) : (q &&& ~~~m == 0) = (lanesOf q).all fun l => m.getLsbD l := by
  rw [and_beq_zero, Bool.eq_iff_iff, List.all_eq_true, List.all_eq_true]
  refine forall_congr' fun l => forall_congr' fun hl => ?_
  simp [(mem_lanesOf.1 hl).1]

/-- `vote` asks whether all lanes, or some lane, have their bit set (R153). -/
theorem voteBit_any (q m : LaneMask) : voteBit 1 q m = (lanesOf q).any fun l => m.getLsbD l := by
  rw [voteBit, bne, and_beq_zero, List.not_all_eq_any_not]
  simp

/-! ### Predicate writers (R82, R122) -/

/-- The effect of an instruction that issues is to set lanes of one predicate, each to its bit. -/
def SetsPredicate (s : State) (g : Group) (h : Hdr) (p : Plan) (pd lat : Nat) (lanes : LaneMask) (bit : Nat → Bool) : Prop :=
  p.dsts = [.p pd] ∧ p.touches s g (effLanes g h) = [] ∧ ∃ bits : LaneMask,
    p.effect s (g.atIssue s h p) (effLanes g h) = .change (fun t => t.modGrp g.gid fun x => x.setP pd lanes bits (some (s.now + lat))) ∧
    ∀ l, l < 64 → lanes.getLsbD l = true → bits.getLsbD l = bit l

theorem setsPredicate_pr {f : PR} {srcs : List Src} {op : LaneMask → LaneMask → LaneMask} (s : State) (g : Group) (h : Hdr) :
    SetsPredicate s g h (prPlan f srcs op) f.pd.toNat 0 (effLanes g h) fun l => (op (g.p f.pa.toNat) (g.p f.pb.toNat)).getLsbD l :=
  ⟨rfl, rfl, _, by simp only [prPlan, Group.atIssue_gid, Group.atIssue_p, Nat.add_zero], fun _ _ _ => rfl⟩

theorem setsPredicate_congr {s : State} {g : Group} {h : Hdr} {p : Plan} {pd lat : Nat} {lanes : LaneMask} {bit bit' : Nat → Bool}
    (hsets : SetsPredicate s g h p pd lat lanes bit) (hbit : ∀ l, l < 64 → bit l = bit' l) : SetsPredicate s g h p pd lat lanes bit' := by
  obtain ⟨hd, ht, bits, he, hb⟩ := hsets
  exact ⟨hd, ht, bits, he, fun l hl hm => (hb l hl hm).trans (hbit l hl)⟩

theorem setsPredicate_vote (s : State) (g : Group) (h : Hdr) (f : PR) :
    SetsPredicate s g h (planVote f) f.pd.toNat 2 (effLanes g h) fun _ => voteBit (f.fn.toNat % 4) (effLanes g h) (g.p f.pa.toNat) :=
  ⟨rfl, rfl, _, by simp only [planVote, Group.atIssue_gid, Group.atIssue_p], fun _ _ hm => getLsbD_ite_mask _ hm⟩

theorem setsPredicate_tagChk (s : State) (g : Group) (h : Hdr) (f : VP) :
    SetsPredicate s g h (planTagChk f) f.pd.toNat (tagChkLat g.width) (effLanes g h)
      fun _ => (g.vTag f.va.toNat == f.vb.extractLsb' 0 4) != (f.cond == 1) :=
  ⟨rfl, rfl, _, by simp only [planTagChk, Group.atIssue_gid, Group.atIssue_vTag, Group.atIssue_width], fun _ _ hm => getLsbD_ite_mask _ hm⟩

theorem setsPredicate_cmpUr (s : State) (g : Group) (h : Hdr) (f : UR) :
    SetsPredicate s g h (planCmpUr f) f.sd.toNat 1 (laneMask g.width) fun _ => condInt (f.fn.extractLsb' 7 4).toNat
      (readInt (isSigned (uType f)) (opW (uType f)) (elemNat (opW (uType f)) (g.s f.sa.toNat) 0))
      (readInt (isSigned (uType f)) (opW (uType f)) (elemNat (opW (uType f)) (g.s f.sb.toNat) 0)) :=
  ⟨rfl, rfl, _, by simp only [planCmpUr, Group.atIssue_gid, Group.atIssue_s, Group.atIssue_width], fun _ _ hm => getLsbD_ite_mask _ hm⟩

/-- The operands of `cmp` (R82, R124). -/
def cmpA (f : VP) (g : Group) (l : Nat) : Word := (srcA f.va f.lra f.eba f.type).read g l
def cmpB (f : VP) (g : Group) (l : Nat) : Word :=
  if f.bs then uniOperand f.type (g.s (f.vb.extractLsb' 0 6).toNat)
  else ({ srcA f.vb f.lrb f.ebb f.type with swk := f.swk, swp := f.swp } : VSrc).read g l

theorem setsPredicate_cmp (s : State) (g : Group) (h : Hdr) (f : VP) :
    SetsPredicate s g h (planCmp h f) f.pd.toNat (cmpLat f.type) (effLanes g h)
      fun l => cmpBit f.type f.cond.toNat (cmpA f g l) (cmpB f g l) := by
  refine ⟨rfl, rfl, maskOf ((lanesOf (effLanes g h)).filter fun l => cmpBit f.type f.cond.toNat (cmpA f g l) (cmpB f g l)), ?_, fun l hl hm => ?_⟩
  · simp only [planCmp, vpSrcs, Group.atIssue_gid, Group.atIssue_s, cmpA, cmpB]
    cases f.bs <;> simp
  · rw [getLsbD_maskOf _ hl]
    simp [mem_lanesOf, hl, hm]

/-- An instruction whose effect is to set lanes of one predicate. -/
theorem runPlan_setsPredicate {i : Instr} {s : State} {g : Group} {h : Hdr} {p : Plan} {pd lat : Nat} {lanes : LaneMask} {bit : Nat → Bool}
    (hsets : SetsPredicate s g h p pd lat lanes bit) (hi : Issues s g i h p) (hd : dying s g h p = 0)
    (ha : p.acts = .lanes ∨ effLanes g h ≠ 0) :
    ∃ t g' bits, runPlan i h p s = .next t ∧ t.grp? g.gid = some g' ∧ OnlyGroup s t g.gid ∧ WrotePredicate i g g' p pd lanes bits ∧
      (∀ l, l < 64 → lanes.getLsbD l = true → bits.getLsbD l = bit l) ∧ g'.fflags = g.fflags ∧ (g'.pred pd).ready = some (s.now + lat) := by
  obtain ⟨hdst, htouch, bits, heffect, hbits⟩ := hsets
  have hraise (x : Group) : x.raiseFlags 0 = x := by simp [Group.raiseFlags]
  obtain ⟨t, g', hrun, hfound, honly, hwrote, hflags, hready⟩ := runPlan_predicate (m := lanes) (bits := bits) (r := some (s.now + lat)) (fl := 0) hi hd ha htouch hdst
    (heffect.trans (by simp only [hraise]))
  exact ⟨t, g', bits, hrun, hfound, honly, hwrote, hbits, hflags.trans (by simp), hready⟩

/-- The predicate writers set the bits of their rules. -/
theorem predicateOp_sets {i : Instr} {h : Hdr} {pd : Nat} {lat : Group → Nat} {lanes : Group → LaneMask} {bit : Group → Nat → Bool}
    {s : State} {g : Group} {p : Plan} (ho : predicateOp i = some (h, pd, lat, lanes, bit)) (hp : planOf i s = some (h, p)) :
    SetsPredicate s g h p pd (lat g) (lanes g) (bit g) := by
  cases i <;> cases ho <;> cases hp
  case pand | por | pxor =>
    refine setsPredicate_congr (setsPredicate_pr s g _) fun l hl => ?_
    simp only [BitVec.getLsbD_and, BitVec.getLsbD_or, BitVec.getLsbD_xor, getLsbD_negIf _ _ hl]
  case pnot => exact setsPredicate_congr (setsPredicate_pr s g _) fun l hl => by simp [hl]
  case pmov => exact setsPredicate_pr s g _
  case pset f =>
    refine setsPredicate_congr (setsPredicate_pr s g _) fun l hl => ?_
    cases f.fn.getLsbD 0
    · exact BitVec.getLsbD_zero
    · exact (BitVec.getLsbD_allOnes ..).trans (decide_eq_true hl)
  case vote f =>
    refine setsPredicate_congr (setsPredicate_vote s g _ f) fun l hl => ?_
    generalize f.fn.toNat % 4 = kind
    match kind with
    | 0 => exact and_not_beq_zero ..
    | 1 => exact voteBit_any ..
    | n + 2 => exact congrArg₂ or (and_not_beq_zero ..) (and_beq_zero ..)
  case cmp f =>
    refine setsPredicate_congr (setsPredicate_cmp s g _ f) fun l hl => ?_
    by_cases ht : f.type = 9
    · exact (if_pos (beq_iff_eq.2 ht)).trans (if_pos ht).symm
    · exact (if_neg (by simpa using ht)).trans (if_neg ht).symm
  case tagChk f => exact setsPredicate_congr (setsPredicate_tagChk s g _ f) fun l hl => rfl
  case cmpUr f => exact setsPredicate_congr (setsPredicate_cmpUr s g _ f) fun l hl => rfl

/-- Among the predicate writers only `cmp` on uniform registers acts for its group. -/
theorem predicateOp_acts {i : Instr} {h : Hdr} {pd : Nat} {lat : Group → Nat} {lanes : Group → LaneMask} {bit : Group → Nat → Bool}
    {s : State} {p : Plan} (ho : predicateOp i = some (h, pd, lat, lanes, bit)) (hp : planOf i s = some (h, p)) :
    p.acts = .lanes ∨ ∃ f, i = .cmpUr h f := by
  cases i <;> cases ho <;> cases hp
  case cmpUr => exact .inr ⟨_, rfl⟩
  all_goals exact .inl rfl

/-- Settles O10: each predicate writer sets the lanes of its rule to their bits. -/
theorem predicateResults : Obligations.PredicateResults := by
  unfold Obligations.PredicateResults
  intro i h pd lat lanes bit s g p ho _ hp hi hd hn
  rw [exec_of_planOf hp]
  exact runPlan_setsPredicate (predicateOp_sets ho hp) hi hd ((predicateOp_acts ho hp).imp_right hn)

end Sys2Proof.Machine
end

section
/-! PROOFS. Per-group instructions without an effective lane (R122). -/

namespace Sys2Proof.Machine

set_option Elab.async false

/-! ### A per-group instruction with no effective lane (R122) -/

/-- Plans of per-group instructions name no vector destination, and without an effective lane they touch no table word. -/
theorem group_plan {i : Instr} {s : State} {g : Group} {h : Hdr} {p : Plan} (hp : planOf i s = some (h, p)) (ha : p.acts = .group) :
    dstNames p.dsts = [] ∧ p.touches s g 0 = [] := by
  cases i <;> cases hp
  case atM f x =>
    revert ha
    unfold planAtM
    split <;> intro ha
    · exact ⟨rfl, rfl⟩
    · cases ha
  case rds f =>
    revert ha
    unfold planRds
    split <;> intro ha
    · cases ha
    · exact ⟨rfl, rfl⟩
  all_goals cases ha
  all_goals exact ⟨rfl, rfl⟩

/-- A per-group instruction with no effective lane does its bookkeeping alone. -/
theorem runPlan_noLane {s : State} {g : Group} {i : Instr} {h : Hdr} {p : Plan} (hi : Issues s g i h p) (ha : p.acts = .group)
    (hn : effLanes g h = 0) (ht : p.touches s g 0 = []) :
    ∃ g1, Issued i s g g1 h p ∧ runPlan i h p s = .next (if closesAfter s g h p then (s.booked g.gid g1).modGrp g.gid Group.closeRegion
      else s.booked g.gid g1) := by
  obtain ⟨-, hg, hl, -⟩ := State.issuing_some hi.issuing
  have hdying : dying s g h p = 0 := by simp [dying, ha]
  have hacting : acting s g h p = 0 := by simp [acting, hn]
  have hnot : (p.acts == .lanes || effLanes g h != 0) = false := by rw [ha, hn]; rfl
  have hS := issued_spec i s g h p 0
  refine ⟨_, hS, ?_⟩
  have hfound := State.grp?_modGrp_self s g.gid (fun _ => (g.atIssue s h p).issued i s p 0 0) g hg fun _ _ => hS.gid
  have hsettle := settle_active (s := s.booked g.gid ((g.atIssue s h p).issued i s p 0 0)) (closesAfter s g h p) hfound (hS.life.trans hl)
    (hS.keeps.masks.2.1 ▸ hi.alive) (hS.keeps.masks.1 ▸ ready_active hi.ready)
  rw [runPlan_issues hi, hn, ht, readTables_nil, perform_run, hdying, hacting, hnot, ← State.booked]
  simp only [bne_self_eq_false, Bool.false_eq_true, if_false, Prog.run_done, Group.atIssue_gid]
  rw [Prog.run_change _ _ (by rw [hsettle]; split <;> rfl) (by rw [hsettle]; split <;> rfl), hsettle]

/-- The bookkeeping of an issue without vector destinations. -/
theorem Issued.movesOn {i : Instr} {s : State} {g g1 : Group} {h : Hdr} {p : Plan} (hS : Issued i s g g1 h p) (hd : dstNames p.dsts = []) :
    AfterIssue i g g1 (lastNames p.srcs) [] [] g.outst g.hold ∧ ∀ n, n ∈ lastNames p.srcs → g1.preg? n = none :=
  ⟨⟨⟨fun n hn => hS.others n (by simpa [touchedV, hd] using hn), fun r _ => Group.sreg_congr hS.sregs r, fun r _ => Group.pred_congr hS.preds r⟩,
    hS.fflags, hS.keeps, ⟨hS.work.depths, rfl, rfl, hS.work.place⟩, hS.work.outst, hS.work.hold, hS.moves⟩,
    fun n hn => hS.lasts n hn (by simp [hd])⟩

/-- The end of a region changes no register and no work. -/
theorem AfterIssue.closeRegion {i : Instr} {g g' : Group} {vs ss ps : List Nat} {outst : Nat} {hold : Hold}
    (h : AfterIssue i g g' vs ss ps outst hold) : AfterIssue i g g'.closeRegion vs ss ps outst hold :=
  ⟨⟨fun n hn => (Group.preg?_closeRegion _ n).trans (h.regs.vectors n hn), h.regs.uniforms, h.regs.predicates⟩, h.flags, h.keeps.closeRegion,
    ⟨h.work.depths, rfl, rfl, h.work.place⟩, h.count, h.waits, h.moves.closeRegion⟩

/-- Settles O33: without an effective lane only the bookkeeping of the issue is left. -/
theorem noLaneNoEffect : Obligations.NoLaneNoEffect := by
  unfold Obligations.NoLaneNoEffect
  intro i h s g p hp ha hi hn
  obtain ⟨hdst, htouch⟩ := group_plan (g := g) hp ha
  obtain ⟨-, hg, -, -⟩ := State.issuing_some hi.issuing
  obtain ⟨g1, hS, hrun⟩ := runPlan_noLane hi ha hn htouch
  obtain ⟨hafter, hlast⟩ := hS.movesOn hdst
  have hfound : (s.booked g.gid g1).grp? g.gid = some g1 := State.grp?_modGrp_self s g.gid (fun _ => g1) g hg fun _ _ => hS.gid
  have hother (k : Nat) (hk : k ≠ g.gid) : (s.booked g.gid g1).grp? k = s.grp? k :=
    State.grp?_modGrp_ne s g.gid k (fun _ => g1) (fun _ _ => hS.gid) hk
  rw [exec_of_planOf hp]
  cases hclose : closesAfter s g h p <;> rw [hclose] at hrun
  case false => exact ⟨_, g1, hrun, hfound, ⟨rfl, hother⟩, hafter, hlast⟩
  case true =>
    exact ⟨_, _, hrun, State.grp?_modGrp_self _ g.gid Group.closeRegion g1 hfound fun _ hx => hx,
      ⟨rfl, fun k hk => (State.grp?_modGrp_ne _ g.gid k Group.closeRegion (fun _ hx => hx) hk).trans (hother k hk)⟩, hafter.closeRegion,
      fun n hn => (Group.preg?_closeRegion _ n).trans (hlast n hn)⟩

end Sys2Proof.Machine
end

section
/-! PROOFS. Every step goes on. -/

namespace Sys2Proof.Machine

set_option Elab.async false

/-! ### Every instruction, operation and event goes on -/

/-- The outcome is a next state. -/
def IsNext (o : Host.Outcome State Fault Refusal) : Prop := ∃ t, o = .next t

theorem runPlan_next {s : State} {g : Group} (hi : s.issuing = some g) (i : Instr) (h : Hdr) (p : Plan) : IsNext (runPlan i h p s) := by
  rw [runPlan, hi]
  exact ⟨_, rfl⟩

theorem runCtl_next {s : State} {g : Group} (hi : s.issuing = some g) (i : Instr) (h : Hdr) (f : CF) (c : Ctl) : IsNext (runCtl i h f c s) := by
  rw [runCtl, hi]
  exact ⟨_, rfl⟩

/-- What is neither an operation nor an event has a plan or is a control instruction. -/
theorem planOf_or_ctlOf (i : Instr) (s : State) : (i.isEvent || (planOf i s).isSome || (ctlOf i).isSome) = true := by
  cases i <;> rfl

/-- The issuing group's instruction goes on. -/
theorem exec_next_of_issuing {i : Instr} {s : State} {g : Group} (hi : s.issuing = some g) (hop : isOperation i = false) : IsNext (exec i s) := by
  cases hevent : i.isEvent
  case false =>
    have hshape := planOf_or_ctlOf i s
    rw [hevent, Bool.false_or, Bool.or_eq_true, Option.isSome_iff_exists, Option.isSome_iff_exists] at hshape
    obtain ⟨⟨h, p⟩, hp⟩ | ⟨⟨h, f, c⟩, hc⟩ := hshape
    · rw [exec_of_planOf hp]
      exact runPlan_next hi i h p
    · rw [exec_of_ctlOf hc]
      exact runCtl_next hi i h f c
  case true =>
    have hmajor : ∃ w, i = .reservedMajor w := by
      unfold isOperation at hop
      rw [hevent, Bool.true_and] at hop
      split at hop
      · exact ⟨_, rfl⟩
      · cases hop
    obtain ⟨w, rfl⟩ := hmajor
    show IsNext (execReservedMajor w s)
    rw [execReservedMajor, hi]
    exact ⟨_, rfl⟩

/-! ### The management core -/

theorem arrive_next (i : Instr) (s : State) : IsNext (arrive i s) := by
  unfold arrive
  split
  · exact ⟨_, rfl⟩
  · split
    · exact ⟨_, rfl⟩
    · split <;> exact ⟨_, rfl⟩

theorem haloneAnswer_next (s : State) (code : Nat) (known : List Byte) : IsNext (haloneAnswer s code known) := by
  unfold haloneAnswer
  split <;> exact ⟨_, rfl⟩

theorem sessionAnswer_next (s : State) (code : Nat) (m : Mgmt) : IsNext (sessionAnswer s code m) := by
  unfold sessionAnswer
  split
  · exact ⟨_, rfl⟩
  · split <;> exact ⟨_, rfl⟩

theorem execChallenge_next (nonce : BitVec 256) (s : State) : IsNext (execChallenge nonce s) := by
  unfold execChallenge
  split <;> exact ⟨_, rfl⟩

theorem execKeyExchange_next (requester : BitVec 256) (exchange : List Byte) (s : State) : IsNext (execKeyExchange requester exchange s) := by
  unfold execKeyExchange
  split
  · exact ⟨_, rfl⟩
  · split
    · exact ⟨_, rfl⟩
    · split
      · split <;> exact ⟨_, rfl⟩
      · exact ⟨_, rfl⟩

theorem execFinish_next (proof : FinishProof) (s : State) : IsNext (execFinish proof s) := by
  unfold execFinish
  split <;> split <;> exact ⟨_, rfl⟩

theorem execPartitionResetComplete_next (p : Nat) (s : State) : IsNext (execPartitionResetComplete p s) := by
  unfold execPartitionResetComplete
  split <;> exact ⟨_, rfl⟩

theorem execUnitReady_next (u : UnitReport) (s : State) : IsNext (execUnitReady u s) := by
  unfold execUnitReady
  split
  · exact ⟨_, rfl⟩
  · dsimp only
    split <;> exact ⟨_, rfl⟩

theorem execCriticalShutdown_next (sample : List Sample) (s : State) : IsNext (execCriticalShutdown sample s) := by
  unfold execCriticalShutdown
  dsimp only
  split <;> exact ⟨_, rfl⟩

/-- The part's own operations and events go on. -/
theorem exec_next_of_operation {i : Instr} (hop : isOperation i = true) (s : State) : IsNext (exec i s) := by
  cases i
  case negotiateAlgorithms | getDigests | getCertificate | getMeasurements => exact haloneAnswer_next ..
  case heartbeat | keyUpdate | endSession => exact sessionAnswer_next ..
  case challenge => exact execChallenge_next ..
  case keyExchange => exact execKeyExchange_next ..
  case finish => exact execFinish_next ..
  case partitionResetComplete => exact execPartitionResetComplete_next ..
  case unitReady => exact execUnitReady_next ..
  case criticalShutdown => exact execCriticalShutdown_next ..
  case readReadinessMap | configurePartition | startPartition | stopPartition | managementResetPartition | readCodeKey | setWatchdogPeriod |
      createJetty | clearJettyReset | setMemoryWindow | setEventThresholds | grantDiagnostics | readFaultQueueAddresses |
      readPowerAndTemperatures => exact arrive_next ..
  case commandSendArrival | launchCommand | stopTaskTable | restartTaskTable | resetPartition | reservedCommand | launchPortHandoff |
      heldLaunchEntry | teamPlacement | teamDiscardSave | acknowledgementReturn | teamRetirement | launchCompletion | launchFaultEnd |
      eventTimerExpiry | instructionFill | sequentialPrefetch | passOver | translationWalk | homeSliceAccess | waitTableRetry | watchRearm |
      watchdogFire | pageReply | pendingFaultEntry | copyCommandStart | copyCounterStep | copyCommandComplete | matrixEngineStep |
      atcSlicePerform | slipwayHandoff | binTimerExpiry | binLaunchHandoff | fordAcceptance | fordAction | freeingPush | partialMessage |
      resultMessage | remoteWrite | remoteRead | remoteFetchAdd | remoteSwap | remoteCompareSwap | unsupportedUePacket | getVersion |
      getCapabilities | moduleReset | thermalThrottle | throttleEnd | retentionEntry | retentionExit | bankAccess |
      matrixCommandComplete => exact ⟨_, rfl⟩
  all_goals cases hop

/-! ### A step -/

/-- A group that may fetch is the issuing group of what it fetches. -/
theorem issuing_of_mayFetch {s : State} {g : Group} {gid : Nat} (hg : s.grp? gid = some g) (h : mayFetch s g = true) :
    ({ s with cur := some gid } : State).issuing = some g := by
  simp only [mayFetch, Bool.and_eq_true] at h
  obtain ⟨⟨⟨⟨hlife, hplaced⟩, -⟩, -⟩, -⟩ := h
  have hg' : ({ s with cur := some gid } : State).grp? gid = some g := hg
  have hplaced' : ({ s with cur := some gid } : State).placed g = true := hplaced
  unfold State.issuing
  simp only [hg', hplaced', hlife, Bool.and_self, if_true]

/-- The instruction that a group's turn runs goes on. -/
theorem groupTurn_next {gid : Nat} {s u : State} {i : Instr} (h : groupTurn gid s = .run i u) : IsNext (exec i u) := by
  unfold groupTurn at h
  split at h
  case h_1 => cases h
  case h_2 g hg =>
    split at h
    case isTrue => cases h
    case isFalse hfree =>
      have hmay : mayFetch s g = true := by
        simp only [Bool.or_eq_true, not_or, Bool.not_eq_true', Bool.not_eq_false] at hfree
        exact hfree.2
      split at h
      case h_1 =>
        cases h
        cases hop : isOperation i
        · exact exec_next_of_issuing (issuing_of_mayFetch hg hmay) hop
        · exact exec_next_of_operation hop _
      case h_2 => cases h

/-- Settles O36: a turn runs an instruction only with its group issuing, and every operation goes on. -/
theorem stepGoesOn : Obligations.StepGoesOn := by
  unfold Obligations.StepGoesOn
  intro s
  have hrun {i : Instr} {u : State} (h : todo s = .run i u) : IsNext (exec i u) := by
    unfold todo at h
    split at h
    case h_1 => exact groupTurn_next h
    case h_2 =>
      split at h
      case isTrue hop =>
        cases h
        exact exec_next_of_operation (Bool.and_eq_true_iff.1 hop).1 _
      case isFalse => cases h
    case h_3 => cases h
  unfold GoesOn step
  split
  case h_1 h => exact hrun h
  case h_2 => exact ⟨_, rfl⟩

end Sys2Proof.Machine
end

section
/-! PROOFS. Instructions that wait, and empty sources (R110, R120). -/

namespace Sys2Proof.Machine

set_option Elab.async false

/-! ### What an entry of the fault queue leaves (R283, R358) -/

/-- From `s` to `t` groups at most stop waiting, requests at most go, and commands stay. -/
structure OnlyWakes (s t : State) : Prop where
  groups : t.groups.map Group.released = s.groups.map Group.released
  reqs : ∀ r, r ∈ t.reqs → r ∈ s.reqs
  commands : t.copies = s.copies ∧ t.mxcmds = s.mxcmds ∧ t.fords = s.fords

theorem OnlyWakes.refl (s : State) : OnlyWakes s s := ⟨rfl, fun _ h => h, rfl, rfl, rfl⟩

theorem OnlyWakes.trans {s t u : State} (h : OnlyWakes s t) (h' : OnlyWakes t u) : OnlyWakes s u := by
  obtain ⟨hg, hr, hc, hm, hf⟩ := h
  obtain ⟨hg', hr', hc', hm', hf'⟩ := h'
  exact ⟨hg'.trans hg, fun r hin => hr r (hr' r hin), hc'.trans hc, hm'.trans hm, hf'.trans hf⟩

/-- States that agree but for partitions and what has been told. -/
theorem OnlyWakes.of_others {s t : State} (h : t.others = s.others) : OnlyWakes s t := by
  rw [State.eq_of_others h]
  exact ⟨rfl, fun _ h => h, rfl, rfl, rfl⟩

/-- A program only wakes, from every state. -/
def Prog.OnlyWakes (p : Prog) : Prop := ∀ s, Machine.OnlyWakes s (p.run s)

theorem Prog.onlyWakes_done : Prog.OnlyWakes .done := .refl

theorem Prog.onlyWakes_dyn {f : State → Prog} (h : ∀ s, (f s).OnlyWakes) : (Prog.dyn f).OnlyWakes := fun s => h s s

theorem Prog.onlyWakes_change {f : State → State} (h : ∀ s, Machine.OnlyWakes s (f s)) : (Prog.change f).OnlyWakes := fun s =>
  ⟨(h s).groups, (h s).reqs, (h s).commands⟩

theorem Prog.onlyWakes_all {ps : List Prog} (h : ∀ p ∈ ps, p.OnlyWakes) : (Prog.all ps).OnlyWakes := by
  induction ps with
  | nil => exact Prog.onlyWakes_done
  | cons p ps ih =>
    intro s
    rw [Prog.run_all_cons]
    exact (h p List.mem_cons_self s).trans (ih (fun q hq => h q (List.mem_cons_of_mem _ hq)) _)

theorem OnlyWakes.foldl {α : Type} {f : State → α → State} (hf : ∀ s x, OnlyWakes s (f s x)) (xs : List α) (s : State) :
    OnlyWakes s (xs.foldl f s) := by
  induction xs generalizing s with
  | nil => exact .refl s
  | cons x xs ih => exact (hf s x).trans (ih _)

theorem onlyWakes_readWords (ws : List Nat) : (readWords ws).OnlyWakes := by
  refine Prog.onlyWakes_dyn fun s => ?_
  split
  · exact Prog.onlyWakes_done
  · refine Prog.onlyWakes_all fun p hp => ?_
    simp only [List.mem_cons, List.not_mem_nil, or_false] at hp
    rcases hp with rfl | rfl
    · refine Prog.onlyWakes_all fun p hp => ?_
      obtain ⟨w, -, rfl⟩ := List.mem_map.1 hp
      split
      · exact fun s => ⟨rfl, fun _ h => h, rfl, rfl, rfl⟩
      · exact Prog.onlyWakes_done
    · refine Prog.onlyWakes_change fun s => .foldl (fun u l => .foldl (fun v w => ?_) _ u) _ s
      exact ⟨rfl, fun _ h => h, rfl, rfl, rfl⟩

theorem onlyWakes_afterWrite (a n : Nat) (s : State) : OnlyWakes s (afterWrite a n s) := by
  obtain ⟨_, _, _, _, h⟩ := afterWrite_eq a n s
  have hreleased (rs : List Req) : Group.released ∘ Group.wokenBy rs = Group.released := funext fun g => by
    simp only [Function.comp_apply, Group.wokenBy]
    split <;> rfl
  rw [h]
  exact ⟨List.map_map.trans (by rw [hreleased]), fun r hr => (List.mem_filter.1 hr).1, rfl, rfl, rfl⟩

theorem onlyWakes_devWrite (a : Nat) (bs : List Byte) : (devWrite a bs).OnlyWakes := by
  refine Prog.onlyWakes_all fun p hp => ?_
  simp only [List.mem_cons, List.not_mem_nil, or_false] at hp
  rcases hp with rfl | rfl | rfl | rfl
  · exact onlyWakes_readWords _
  · refine Prog.onlyWakes_change fun s => ?_
    unfold writeSyn
    split <;> exact ⟨rfl, fun _ h => h, rfl, rfl, rfl⟩
  · intro s
    rw [Prog.run_pokes]
    exact ⟨rfl, fun _ h => h, rfl, rfl, rfl⟩
  · exact Prog.onlyWakes_change (onlyWakes_afterWrite a bs.length)

/-- An entry, however it ends, at most wakes waits. -/
theorem onlyWakes_fqEntry (p : Nat) (e : Entry) : (fqEntry p e).OnlyWakes := by
  intro s
  rw [fqEntry_run]
  split
  · exact .of_others rfl
  · split
    · exact onlyWakes_devWrite _ _ s
    · refine Prog.onlyWakes_dyn (fun s => Prog.onlyWakes_all fun p hp => ?_) s
      simp only [List.mem_cons, List.not_mem_nil, or_false] at hp
      rcases hp with rfl | rfl | rfl
      · exact onlyWakes_devWrite _ _
      · exact onlyWakes_devWrite _ _
      · exact Prog.onlyWakes_change fun u => .of_others (countEvent_others _ _ _)

/-! ### What the end of its launch leaves of a group (R362) -/

/-- A group of an ended launch, with what it held: its pc, its masks of the program and, where `u` holds, its uniform registers. -/
structure Halts (u : Prop) (g g' : Group) : Prop where
  held : g'.pc = g.pc ∧ g'.preds = g.preds ∧ g'.stack = g.stack ∧ g'.fflags = g.fflags ∧ g'.sig = g.sig ∧ g'.depths = g.depths
  life : g.life ≠ .saved → g'.life ≠ .saved
  uniforms : u → g'.sregs = g.sregs

theorem Halts.refl (u : Prop) (g : Group) : Halts u g g := ⟨⟨rfl, rfl, rfl, rfl, rfl, rfl⟩, fun h => h, fun _ => rfl⟩

theorem Halts.trans {u : Prop} {g g' g'' : Group} (h : Halts u g g') (h' : Halts u g' g'') : Halts u g g'' := by
  obtain ⟨⟨hpc, hpreds, hstack, hflags, hsig, hdepths⟩, hlife, huni⟩ := h
  obtain ⟨⟨hpc', hpreds', hstack', hflags', hsig', hdepths'⟩, hlife', huni'⟩ := h'
  exact ⟨⟨hpc'.trans hpc, hpreds'.trans hpreds, hstack'.trans hstack, hflags'.trans hflags, hsig'.trans hsig, hdepths'.trans hdepths⟩,
    fun h => hlife' (hlife h), fun h => (huni' h).trans (huni h)⟩

/-- The group that an identifier finds has halted from `s` to `t`. -/
def HaltsNamed (u : Prop) (k : Nat) (s t : State) : Prop := ∀ g, s.grp? k = some g → ∃ g', t.grp? k = some g' ∧ Halts u g g'

theorem HaltsNamed.refl (u : Prop) (k : Nat) (s : State) : HaltsNamed u k s s := fun g hg => ⟨g, hg, .refl u g⟩

theorem HaltsNamed.trans {u : Prop} {k : Nat} {s t v : State} (h : HaltsNamed u k s t) (h' : HaltsNamed u k t v) : HaltsNamed u k s v := by
  intro g hg
  obtain ⟨g', hg', hh⟩ := h g hg
  obtain ⟨g'', hg'', hh'⟩ := h' g' hg'
  exact ⟨g'', hg'', hh.trans hh'⟩

theorem HaltsNamed.of_map {u : Prop} {s t : State} {f : Group → Group} (ht : t.groups = s.groups.map f) (hid : ∀ g, (f g).gid = g.gid)
    (hf : ∀ g, Halts u g (f g)) (k : Nat) : HaltsNamed u k s t :=
  fun g hg => ⟨f g, by rw [State.grp?_map f hid ht, hg]; rfl, hf g⟩

theorem HaltsNamed.modGrp {u : Prop} (s : State) (j : Nat) {f : Group → Group} (hid : ∀ g, (f g).gid = g.gid) (hf : ∀ g, Halts u g (f g)) (k : Nat) :
    HaltsNamed u k s (s.modGrp j f) :=
  .of_map rfl (fun g => by split <;> simp [hid]) (fun g => by split; exacts [hf g, .refl u g]) k

theorem HaltsNamed.foldl {α : Type} {u : Prop} {k : Nat} {f : State → α → State} {xs : List α} (hf : ∀ s x, x ∈ xs → HaltsNamed u k s (f s x))
    (s : State) : HaltsNamed u k s (xs.foldl f s) := by
  induction xs generalizing s with
  | nil => exact .refl u k s
  | cons x xs ih => exact (hf s x List.mem_cons_self).trans (ih (fun t y hy => hf t y (List.mem_cons_of_mem x hy)) _)

theorem OnlyWakes.haltsNamed {s t : State} (h : OnlyWakes s t) (u : Prop) (k : Nat) : HaltsNamed u k s t := by
  intro g hg
  have hfind (v : State) : (v.grp? k).map Group.released = (v.groups.map Group.released).find? fun g => g.gid == k := by
    rw [List.find?_map]
    rfl
  have hsame : (t.grp? k).map Group.released = some g.released := by rw [hfind, h.groups, ← hfind, hg]; rfl
  obtain ⟨g', hg', hreleased⟩ := Option.map_eq_some_iff.1 hsame
  have hhalts : Halts u g.released g'.released := hreleased ▸ .refl u _
  exact ⟨g', hg', hhalts.held, hhalts.life, hhalts.uniforms⟩

theorem haltsNamed_forgetOwed (u : Prop) (k lid : Nat) (s : State) : HaltsNamed u k s (forgetOwed lid s) :=
  .of_map rfl (fun g => by split <;> rfl) (fun g => by split; exacts [⟨⟨rfl, rfl, rfl, rfl, rfl, rfl⟩, fun h => h, fun _ => rfl⟩, .refl u g]) k

theorem haltsNamed_endGroup (u : Prop) (k : Nat) (s : State) (g : Group) : HaltsNamed u k s (endGroup s g) := by
  have hleave : HaltsNamed u k s (s.modGrp g.gid Group.leave) :=
    .modGrp s g.gid (f := Group.leave) (fun _ => rfl) (fun _ => ⟨⟨rfl, rfl, rfl, rfl, rfl, rfl⟩, fun _ => Life.noConfusion, fun _ => rfl⟩) k
  unfold endGroup addLaunchCtr
  split
  · split
    · exact hleave
    · exact hleave
  · exact .modGrp s g.gid (f := Group.stopped) (fun _ => rfl) (fun _ => ⟨⟨rfl, rfl, rfl, rfl, rfl, rfl⟩, fun h => h, fun _ => rfl⟩) k

theorem haltsNamed_deliver {u : Prop} (k : Nat) (r : Req) {d : Dest} (hd : u → ∃ pids l, d = .lane pids l) (size : Nat) (signed : Bool)
    (bs : List Byte) (bad : Bool) (s : State) : HaltsNamed u k s (deliver r d size signed bs bad s) := by
  cases d with
  | none => exact .refl u k s
  | lane pids l => exact .modGrp s r.gid (f := fun g => g.land s.now pids l (widenLanes size signed bs) bad) (fun _ => rfl) (fun _ => ⟨⟨rfl, rfl, rfl, rfl, rfl, rfl⟩, fun h => h, fun _ => rfl⟩) k
  | uni x =>
    unfold deliver
    dsimp only
    split
    · exact .refl u k s
    · refine .modGrp s r.gid (fun g => Group.setS_gid ..) (fun g => ?_) k
      have hset : ∀ v b, Halts u g (g.setS s.now x v b) := fun v b => by
        unfold Group.setS
        split
        · exact .refl u g
        · exact ⟨⟨rfl, rfl, rfl, rfl, rfl, rfl⟩, fun h => h, fun hu => by obtain ⟨_, _, h⟩ := hd hu; cases h⟩
      exact hset _ _

/-- Every load that a parked `ld.s` waits for lands in a lane. -/
def LandsInLanes (s : State) : Prop := ∀ q d size signed take, q ∈ s.reqs → q.op = .fe d size signed take → ∃ pids l, d = .lane pids l

theorem haltsNamed_dropAnswers {u : Prop} {s : State} (hu : u → LandsInLanes s) (mine : Req → Bool) (k : Nat) :
    HaltsNamed u k s (dropAnswers mine s) := by
  unfold dropAnswers
  refine .trans (.foldl (fun v r hr => ?_) s) (.of_map (f := id) (List.map_id _).symm (fun _ => rfl) (.refl u) k)
  split
  case h_1 d size signed take hop =>
    exact haltsNamed_deliver k r (fun h => hu h r d size signed take (List.mem_filter.1 hr).1 hop) size signed [] false v
  case h_2 => exact .refl u k v

/-- The requests, commands and Ford instructions of a state. -/
def State.sent (s : State) : List Req × List CopyCmd × List MxCmd × List FordOp := (s.reqs, s.copies, s.mxcmds, s.fords)

theorem foldl_endGroup_sent (gs : List Group) (s : State) : (gs.foldl endGroup s).sent = s.sent := by
  refine foldl_keeps State.sent endGroup (fun v g => ?_) gs s
  unfold endGroup addLaunchCtr
  split
  · split <;> rfl
  · rfl

theorem deliver_sent (r : Req) (d : Dest) (size : Nat) (signed : Bool) (bs : List Byte) (bad : Bool) (s : State) :
    (deliver r d size signed bs bad s).sent = s.sent := by
  obtain ⟨gs, h⟩ := deliver_eq r d size signed bs bad s
  rw [h]
  rfl

/-- After the end of its launch a group is found with what it held. -/
theorem haltsNamed_endLaunch {u : Prop} {s : State} (hu : u → LandsInLanes s) {k lid : Nat} {g : Group} (hg : s.grp? k = some g)
    (hlife : g.life ≠ .saved) : ∃ g', (endLaunch lid s).grp? k = some g' ∧ Halts u g g' := by
  obtain ⟨a, ha⟩ : ∃ a, a = forgetOwed lid (s.modLaunch lid fun l => { l with ended := true }) := ⟨_, rfl⟩
  obtain ⟨b, hb⟩ : ∃ b, b = (a.groups.filter fun g => g.launch == lid && g.life == .resident).foldl endGroup a := ⟨_, rfl⟩
  have hreqs : b.reqs = s.reqs := by
    rw [hb]
    exact (congrArg Prod.fst (foldl_endGroup_sent _ a)).trans (ha ▸ rfl)
  have hkept : HaltsNamed u k s (dropAnswers (fun r => r.launch == lid) b) := by
    have hfirst : HaltsNamed u k s a := ha ▸ haltsNamed_forgetOwed u k lid (s.modLaunch lid fun l => { l with ended := true })
    have hgroups : HaltsNamed u k a b := hb ▸ .foldl (fun v x _ => haltsNamed_endGroup u k v x) a
    refine (hfirst.trans hgroups).trans (haltsNamed_dropAnswers (fun h => ?_) _ k)
    unfold LandsInLanes
    rw [hreqs]
    exact hu h
  obtain ⟨g', hg', hhalts⟩ := hkept g hg
  refine ⟨g', ?_, hhalts⟩
  have hstays : (g'.life == .saved) = false := beq_eq_false_iff_ne.2 (hhalts.life hlife)
  subst ha hb
  exact find_filter hg' (by rw [hstays, Bool.and_false]; rfl)

/-- Answers that are dropped: some requests are withdrawn, others lose their answer. -/
theorem dropAnswers_eq (mine : Req → Bool) (s : State) : ∃ (v : State) (stays : Req → Bool), v.sent = s.sent ∧
    dropAnswers mine s = { v with reqs := (v.reqs.filter stays).map fun r => if mine r then { r with drop := true } else r } := by
  refine ⟨_, _, foldl_keeps State.sent _ (fun v r => ?_) _ s, rfl⟩
  split
  · exact deliver_sent ..
  · rfl

theorem dropAnswers_sends (mine : Req → Bool) (s : State) : (∀ r, r ∈ (dropAnswers mine s).reqs → ∃ q, q ∈ s.reqs ∧ q.id = r.id) ∧
    (dropAnswers mine s).copies = s.copies ∧ (dropAnswers mine s).mxcmds = s.mxcmds ∧ (dropAnswers mine s).fords = s.fords := by
  obtain ⟨v, stays, hsent, heq⟩ := dropAnswers_eq mine s
  rw [heq]
  obtain ⟨hreqs, hsent⟩ := Prod.mk.inj hsent
  obtain ⟨hcopies, hsent⟩ := Prod.mk.inj hsent
  obtain ⟨hmx, hfords⟩ := Prod.mk.inj hsent
  refine ⟨fun r hr => ?_, hcopies, hmx, hfords⟩
  obtain ⟨q, hq, rfl⟩ := List.mem_map.1 hr
  refine ⟨q, hreqs ▸ (List.mem_filter.1 hq).1, ?_⟩
  split <;> rfl

/-- The end of a launch sends nothing. -/
theorem endLaunch_sends (lid : Nat) (s : State) : (∀ r, r ∈ (endLaunch lid s).reqs → ∃ q, q ∈ s.reqs ∧ q.id = r.id) ∧
    (endLaunch lid s).copies = s.copies ∧ (endLaunch lid s).mxcmds = s.mxcmds ∧
    (endLaunch lid s).fords.map FordOp.id = s.fords.map FordOp.id := by
  obtain ⟨a, ha⟩ : ∃ a, a = forgetOwed lid (s.modLaunch lid fun l => { l with ended := true }) := ⟨_, rfl⟩
  obtain ⟨b, hb⟩ : ∃ b, b = (a.groups.filter fun g => g.launch == lid && g.life == .resident).foldl endGroup a := ⟨_, rfl⟩
  have hsent : b.sent = s.sent := by
    rw [hb, foldl_endGroup_sent, ha]
    rfl
  obtain ⟨hreqs, hsent⟩ := Prod.mk.inj hsent
  obtain ⟨hcopies, hsent⟩ := Prod.mk.inj hsent
  obtain ⟨hmx, hfords⟩ := Prod.mk.inj hsent
  obtain ⟨hreqs', hcopies', hmx', hfords'⟩ := dropAnswers_sends (fun r => r.launch == lid) b
  have hmap : (endLaunch lid s).fords = (dropAnswers (fun r => r.launch == lid) b).fords.map
      fun f => if f.launch == lid then { f with drop := true } else f := by rw [hb, ha]; rfl
  refine ⟨fun r hr => ?_, ?_, ?_, ?_⟩
  · rw [← hreqs]
    subst hb ha
    exact hreqs' r hr
  · subst hb ha
    exact hcopies'.trans hcopies
  · subst hb ha
    exact hmx'.trans hmx
  · rw [hmap, hfords', hfords, List.map_map]
    refine List.map_congr_left fun f _ => ?_
    simp only [Function.comp_apply]
    split <;> rfl

/-- Taking a cause that ends the launch: its entry, and then the end. -/
theorem raise_run {s : State} {g : Group} {r : Report} (hg : s.grp? g.gid = some g) (hr : r.ends = true) :
    (raise g.gid r).run s = (Prog.change (endLaunch g.launch)).run ((fqEntry g.part (groupEntry s g r g.pc)).run s) := by
  have hcause : (r.cause == .page) = false := by
    cases hk : r.cause <;> simp_all [Report.ends]
  simp only [raise, raiseAt, Prog.run_dyn, hg, hcause, Prog.run_all_cons, Prog.run_all_nil, Prog.run_when, hr, if_true, Bool.false_eq_true,
    if_false]

/-- Taking a cause that ends the launch stops the group as it was (R355, R362). -/
theorem raise_stopsAsItWas {s : State} {g : Group} {r : Report} (hi : s.issuing = some g) (hr : r.ends = true) :
    StopsAsItWas s ((raise g.gid r).run s) g := by
  obtain ⟨-, hg, hlife, -⟩ := State.issuing_some hi
  obtain ⟨-, hended, hothers⟩ := raise_ends hg hr
  have hwakes := onlyWakes_fqEntry g.part (groupEntry s g r g.pc) s
  obtain ⟨v, hv⟩ : ∃ v, v = (fqEntry g.part (groupEntry s g r g.pc)).run s := ⟨_, rfl⟩
  have hrun := raise_run hg hr
  rw [← hv] at hrun hwakes
  have hlands : LandsInLanes s → LandsInLanes v := fun h q d size signed take hq hop => h q d size signed take (hwakes.reqs q hq) hop
  have hhalts : ∃ g', ((raise g.gid r).run s).grp? g.gid = some g' ∧ Halts (LandsInLanes s) g g' := by
    obtain ⟨g1, hg1, hh1⟩ := hwakes.haltsNamed (LandsInLanes s) g.gid g hg
    obtain ⟨g2, hg2, hh2⟩ := haltsNamed_endLaunch hlands (lid := g.launch) hg1 (hh1.life (by rw [hlife]; exact Life.noConfusion))
    exact ⟨g2, by rw [hrun]; exact hg2, hh1.trans hh2⟩
  obtain ⟨g', hg', hheld, -, huni⟩ := hhalts
  have hown {x : Group} (hx : ((raise g.gid r).run s).grp? g.gid = some x) : x = g' := Option.some.inj (hx.symm.trans hg')
  obtain ⟨hreqs, hcopies, hmx, hfords⟩ := endLaunch_sends g.launch v
  obtain ⟨hcopies', hmx', hfords'⟩ := hwakes.commands
  refine ⟨⟨fun x hx hl hres => (hended.1 x hx hl hres).1, hended.2.2⟩, hothers, fun x hx => by rw [hown hx]; exact hheld,
    fun hu x hx => by rw [hown hx]; exact huni hu, fun q hq => ?_, ?_⟩
  · rw [hrun] at hq
    obtain ⟨q', hq', hid⟩ := hreqs q hq
    exact ⟨q', hwakes.reqs q' hq', hid⟩
  · rw [hrun]
    exact ⟨hcopies.trans hcopies', hmx.trans hmx', hfords.trans (congrArg _ hfords')⟩

/-! ### Sources that are empty (R120) -/

theorem Src.report_cause (i : Instr) (x : Src) : (x.report i).cause = .emptyread := by cases x <;> rfl

theorem Src.report_ends (i : Instr) (x : Src) : (x.report i).ends = true := by cases x <;> rfl

theorem Src.report_byWalk (i : Instr) (x : Src) : (x.report i).byWalk = false := by cases x <;> rfl

/-- A ready instruction with an empty source reports the first (R120, R356). -/
theorem causeAt_first_empty {i : Instr} {s : State} {g : Group} {h : Hdr} {p : Plan} (hc : p.collective = true → g.active = g.live) {x : Src}
    (hx : x ∈ p.srcs) (hempty : x.empty g s.now = true) : ∃ y : Src, causeAt i s g h p = some (y.report i) := by
  have hsome : (p.srcs.find? fun x => x.empty g s.now).isSome = true := by
    rw [List.find?_isSome]
    exact ⟨x, hx, hempty⟩
  obtain ⟨y, hy⟩ := Option.isSome_iff_exists.1 hsome
  obtain ⟨hyempty, pre, post, hsrcs, hpre⟩ := List.find?_eq_some_iff_append.1 hy
  exact ⟨y, causeAt_emptyread hc hsrcs (fun z hz => by simpa using hpre z hz) hyempty⟩

/-- A control instruction waits for its condition (R120). -/
theorem exec_ctl_waits {i : Instr} {h : Hdr} {f : CF} {c : Ctl} {s : State} {g : Group} (hc : ctlOf i = some (h, f, c)) (hi : s.issuing = some g)
    (hce : f.ce = true) (hempty : g.pFull s.now f.cp.toNat = false) (heb : f.ebp = false) : exec i s = .next s := by
  obtain ⟨-, hg, -, -⟩ := State.issuing_some hi
  rw [exec_of_ctlOf hc]
  simp [runCtl, hi, commit, ctlAttempt, hg, ctlSrcs, hce, heb, Src.waits, Group.pFull_opened, hempty]

/-- Settles O32: what is not ready changes nothing, and an empty source of a ready instruction ends its launch with EMPTYREAD. -/
theorem issueWaits : Obligations.IssueWaits := by
  unfold Obligations.IssueWaits
  refine ⟨fun i h s g p hp hi => ⟨fun hr => ?_, fun x hx hw => ?_, fun hr hcollective x hx hempty => ?_⟩,
    fun i h f c s g hc hi hce hempty => ⟨fun heb => exec_ctl_waits hc hi hce hempty heb, fun heb hhold hretry => ?_⟩⟩
  · exact (exec_of_planOf hp).trans (runPlan_waits hi hr)
  · have hr : ready s g h p = false := by
      cases hready : ready s g h p
      · rfl
      · rw [not_waits_of_ready hready hx] at hw
        cases hw
    exact (exec_of_planOf hp).trans (runPlan_waits hi hr)
  · obtain ⟨y, hy⟩ := causeAt_first_empty (i := i) (h := h) hcollective hx hempty
    have hrun := runPlan_cause hi hr hy (fun hb => by rw [Src.report_byWalk] at hb; cases hb)
    rw [if_neg (by rw [Src.report_byWalk]; exact Bool.false_ne_true)] at hrun
    exact ⟨_, _, (exec_of_planOf hp).trans hrun, hy, Src.report_cause i y, raise_stopsAsItWas hi (Src.report_ends i y)⟩
  · exact ⟨_, exec_ctl_cause hc hi hhold hretry (.inl ⟨hce, heb, hempty, rfl⟩), raise_stopsAsItWas hi rfl⟩

end Sys2Proof.Machine
end

section
/-! PROOFS. Moves, addresses, tags, shuffles and stack reads (R141, R142, R152, R204, R220). -/

namespace Sys2Proof.Machine

set_option Elab.async false

/-! ### An instruction that writes one value into each effective lane (R122) -/

/-- Where no cause is raised with checks of the entry, none is raised without them. -/
theorem causeAt_unchecked {i : Instr} {s : State} {g : Group} {h : Hdr} {q : Plan} {check : State → Group → LaneMask → Option Report}
    {consumed : Group → LaneMask → LaneMask} {effect : State → Group → LaneMask → Prog} (hcheck : ∀ eff, q.check s g eff = none)
    (hclear : causeAt i s g h { q with check := check, consumed := consumed, effect := effect } = none) : causeAt i s g h q = none := by
  rw [causeAt, firstSome_eq_findSome?, List.findSome?_eq_none_iff] at hclear ⊢
  simp only [List.forall_mem_cons, id_eq] at hclear ⊢
  obtain ⟨hmasks, hsources, hmarks, -, hpeak, -⟩ := hclear
  exact ⟨hmasks, hsources, hmarks, by rw [hcheck]; rfl, hpeak, hcheck _, by simp⟩

/-- The group with the results of the lanes `eff` written and their flags raised (R122, R197). -/
def Group.putResults (eff : LaneMask) (pair : Bool) (vd : Nat) (tag : BitVec 4) (ready : Nat) (res : Nat → Word × FFlags) (g : Group) : Group :=
  (g.writeResult pair vd eff ((lanesOf eff).map fun l => (l, (res l).1)) tag ready).raiseFlags (orFlags ((lanesOf eff).map fun l => (res l).2))

theorem Group.putResults_quiet (eff : LaneMask) (pair : Bool) (vd : Nat) (tag : BitVec 4) (ready : Nat) (res : Nat → Word × FFlags) :
    Quiet (Group.putResults eff pair vd tag ready res) :=
  ⟨fun _ => by simp [putResults], fun _ => by simp [putResults], fun _ => by simp [putResults], fun _ => by simp [putResults]⟩

/-- The lane-wise plan without vector operands that writes `res`, with the sources `srcs`. -/
def resultPlan (i : Instr) (vd : Nat) (pair : Bool) (srcs : List Src) (tag : BitVec 4) (lat : Nat) (res : Nat → Word × FFlags) : Plan :=
  lanePlan i vd pair [] srcs (fun _ => tag) lat fun _ l _ => res l

/-- The plan of a group's instruction writes `res` into the effective lanes, and is but for its checks, its effect and the marked values
that it reads the plan that does so without vector operands. -/
def Plan.Writes (p : Plan) (s : State) (g : Group) (h : Hdr) (pair : Bool) (vd : Nat) (tag : BitVec 4) (res : Nat → Word × FFlags) : Prop :=
  ∃ i lat, p = { resultPlan i vd pair p.srcs tag lat res with check := p.check, consumed := p.consumed, effect := p.effect } ∧
    p.effect s (g.atIssue s h p) (effLanes g h) =
      .change fun t => t.modGrp g.gid (Group.putResults (effLanes g h) pair vd tag (s.now + lat) res)

theorem resultPlan_effect {i : Instr} {vd : Nat} {pair : Bool} {srcs : List Src} {tag : BitVec 4} {lat : Nat} {res : Nat → Word × FFlags}
    (s : State) (g : Group) (eff : LaneMask) : (resultPlan i vd pair srcs tag lat res).effect s g eff =
      .change fun t => t.modGrp g.gid (Group.putResults eff pair vd tag (s.now + lat) res) := by
  simp only [resultPlan, lanePlan, List.map_map, Function.comp_def]
  rfl

/-- What such an instruction leaves where no lane dies. -/
theorem runPlan_writes {i : Instr} {s : State} {g : Group} {h : Hdr} {p : Plan} {pair : Bool} {vd : Nat} {tag : BitVec 4}
    {res : Nat → Word × FFlags} (hw : p.Writes s g h pair vd tag res) (hi : Issues s g i h p) (hd : dying s g h p = 0) :
    ∃ t g', runPlan i h p s = .next t ∧ t.grp? g.gid = some g' ∧ OnlyGroup s t g.gid ∧ WroteLanes i g g' h p pair vd tag res := by
  obtain ⟨j, lat, hp, heffect⟩ := hw
  generalize p.srcs = srcs, p.check = check, p.consumed = consumed, p.effect = effect at hp heffect
  subst hp
  have hi' : Issues s g i h (resultPlan j vd pair srcs tag lat res) :=
    ⟨hi.issuing, hi.alive, hi.ready, causeAt_unchecked (fun _ => rfl) hi.clear, hi.tables, hi.room⟩
  have hd' : dying s g h (resultPlan j vd pair srcs tag lat res) = 0 := by simp [dying, resultPlan, lanePlan, consumedBy_nil]
  obtain ⟨t, g', hrun, hfound, honly, hwrote⟩ := runPlan_lanes (p := resultPlan j vd pair srcs tag lat res) rfl hi' hd' rfl rfl
  have hsame := runPlan_quiet hi hd rfl (.inl rfl) _ (Group.putResults_quiet ..) heffect
  have hsame' := runPlan_quiet hi' hd' rfl (.inl rfl) _ (Group.putResults_quiet ..) (by rw [resultPlan_effect, Group.atIssue_gid])
  exact ⟨t, g', hsame.trans (hsame'.symm.trans hrun), hfound, honly, hwrote.value, hwrote.others, hwrote.tags, hwrote.marks, hwrote.flags,
    hwrote.freed, hwrote.regs, hwrote.keeps, hwrote.work, hwrote.moves⟩

/-- The plan of a lane-wise instruction over vector sources writes its function of the operands. -/
theorem lanePlan_writes {j : Instr} {vd lat : Nat} {pair : Bool} {xs : List VSrc} {us : List Src} {tag : Group → BitVec 4}
    {f : Group → Nat → List Word → Word × FFlags} {s : State} {g : Group} {h : Hdr}
    (hf : ∀ q, f (g.atIssue s h q) = f g) (htag : ∀ q, tag (g.atIssue s h q) = tag g) :
    (lanePlan j vd pair xs us tag lat f).Writes s g h pair vd (tag g) fun l => f g l (xs.map fun x => x.read g l) := by
  refine ⟨j, lat, rfl, ?_⟩
  simp only [lanePlan, Group.atIssue_gid, VSrc.read_atIssue, hf, htag, List.map_map, Function.comp_def]
  rfl

/-- Results without flags are written and raise none. -/
theorem Group.putResults_noFlag (eff : LaneMask) (pair : Bool) (vd : Nat) (tag : BitVec 4) (ready : Nat) (v : Nat → Word) :
    Group.putResults eff pair vd tag ready (fun l => (v l, ffNone)) =
      fun g => g.writeResult pair vd eff ((lanesOf eff).map fun l => (l, v l)) tag ready := by
  funext g
  have hflags (x : Group) : x.raiseFlags ffNone = x := by simp [raiseFlags, ffNone]
  rw [putResults, orFlags_none fun _ => rfl, hflags]

/-- A write of one register is that of a result that is no pair. -/
theorem Group.putResults_writeV (eff : LaneMask) (vd : Nat) (tag : BitVec 4) (ready : Nat) (v : Nat → Word) :
    Group.putResults eff false vd tag ready (fun l => (v l, ffNone)) = fun g => g.writeV vd eff (fun l => loLane (v l)) tag ready := by
  rw [putResults_noFlag]
  funext g
  refine Group.writeV_congr g _ _ _ fun l hl => ?_
  have hlookup := lookup_map_self (fun l => (v l, ffNone)) (lanesOf eff) l hl
  simp only [List.map_map, Function.comp_def] at hlookup
  exact congrArg loLane hlookup

/-! ### shfl (R152) -/

theorem shflRead_atIssue (g : Group) (s : State) (h : Hdr) (q : Plan) (pair : Bool) (name index : Nat) :
    shflRead (g.atIssue s h q) pair name index = shflRead g pair name index := by
  simp [shflRead]

/-- What the model reads for `shfl` is what the rule names. -/
theorem shflRead_eq_fromLane (g : Group) (pair : Bool) (name index : Nat) : shflRead g pair name index = fromLane g pair name index := rfl

/-- `shfl` writes the value of the lane at its index. -/
theorem shflPlan_writes {i : Instr} {a : VSrc} {vd : Nat} {more : List Src} {check : Group → Option Report} {index : Group → Nat → Nat}
    {indexBad : Group → Nat → Bool} {s : State} {g : Group} {h : Hdr} (hindex : ∀ q, index (g.atIssue s h q) = index g) :
    (shflPlan i a vd more check index indexBad).Writes s g h a.pair vd (tagOr a.type a.name g)
      fun l => (fromLane g a.pair a.name (index g l), ffNone) := by
  refine ⟨i, 4, rfl, ?_⟩
  rw [Group.putResults_noFlag]
  simp only [shflPlan, hindex, ← shflRead_eq_fromLane, shflRead_atIssue, tagOr_atIssue, Group.atIssue_gid]

theorem planShflVr_writes (h : Hdr) (f : VR) (s : State) (g : Group) :
    (planShflVr h f).Writes s g h (isPairType f.type) f.vd.toNat (tagOr f.type f.va.toNat g)
      fun l => (fromLane g (isPairType f.type) f.va.toNat ((shflIndex f).read g l).toNat, ffNone) :=
  shflPlan_writes (a := vrA f) (index := fun g l => ((shflIndex f).read g l).toNat) fun _ => by simp only [VSrc.read_atIssue]

theorem planShflVs_writes (h : Hdr) (f : VS) (s : State) (g : Group) :
    (planShflVs h f).Writes s g h (isPairType f.type) f.vd.toNat (tagOr f.type f.va.toNat g)
      fun _ => (fromLane g (isPairType f.type) f.va.toNat ((g.s f.sb.toNat).toNat % 2 ^ 32), ffNone) :=
  shflPlan_writes (a := srcA f.va f.lra f.eba f.type) (index := fun g _ => (g.s f.sb.toNat).toNat % 2 ^ 32)
    fun _ => by simp only [Group.atIssue_s]

/-! ### Reads of the stacks (R220) -/

@[simp] theorem Group.laneStack_atIssue (g : Group) (s : State) (h : Hdr) (q : Plan) (l : Nat) : (g.atIssue s h q).laneStack l = g.laneStack l := by
  simp [Group.laneStack, Group.depth]

theorem planKpopKeep_writes (h : Hdr) (f : VR) (s : State) (g : Group) :
    (planKpopKeep h f).Writes s g h false f.vd.toNat (if f.type = 0 then g.vTag k0 else f.type)
      fun l => (((g.laneStack l).getD (f.vb.toNat % 8) 0).setWidth 64, ffNone) := by
  refine ⟨.kpopKeep h f, 0, rfl, ?_⟩
  rw [Group.putResults_writeV]
  simp [planKpopKeep, tagOrRaw, loLane]

theorem planKpopDepth_writes (h : Hdr) (f : VR) (s : State) (g : Group) :
    (planKpopDepth f).Writes s g h false f.vd.toNat 6 fun l => (BitVec.ofNat 64 (g.depth l), ffNone) := by
  refine ⟨.kpopDepth h f, 0, rfl, ?_⟩
  rw [Group.putResults_writeV]
  simp [planKpopDepth, loLane, Group.depth]

/-! ### Moves, the address of lea, and tags (R141, R142, R204) -/

theorem readInt_signed {w : Nat} (x : BitVec (w + 1)) : readInt true (w + 1) x.toNat = x.toInt := by
  have hpow : 2 ^ (w + 1) = 2 * 2 ^ w := Nat.pow_succ'
  simp only [readInt, Bool.true_and, decide_eq_true_eq, Nat.add_sub_cancel, BitVec.toInt_eq_toNat_cond]
  split <;> split
  · omega
  · push_cast; rfl
  · rfl
  · omega

/-- The low bits of a word, read as signed or not and widened. -/
theorem ofInt_readInt (w : Nat) (sg : Bool) (v : Word) : BitVec.ofInt 64 (readInt sg (w + 1) (elemNat (w + 1) v 0)) =
    if sg then (v.setWidth (w + 1)).signExtend 64 else (v.setWidth (w + 1)).setWidth 64 := by
  have hlow : elemNat (w + 1) v 0 = (v.setWidth (w + 1)).toNat := by simp [elemNat]
  rw [hlow]
  cases sg
  case false => exact (BitVec.ofInt_natCast ..).trans (BitVec.ofNat_toNat ..)
  case true => rw [readInt_signed]; rfl

/-- The index of `lea` moved left is the index times the power of two. -/
theorem leaAddr_eq (t : BitVec 4) (base lane : Word) (sh : Nat) :
    leaAddr t base sh lane =
      base + (if isSigned t then (lane.setWidth 32).signExtend 64 else (lane.setWidth 32).setWidth 64 : Word) <<< sh := by
  rw [leaAddr, BitVec.ofInt_mul, ofInt_readInt 31, BitVec.shiftLeft_eq_mul_twoPow]
  have hpow : BitVec.ofInt 64 (2 ^ sh) = BitVec.twoPow 64 sh := by
    have hcast : (2 ^ sh : Int) = ((2 ^ sh : Nat) : Int) := by push_cast; rfl
    rw [hcast, BitVec.ofInt_natCast]
    exact BitVec.eq_of_toNat_eq (by rw [BitVec.toNat_ofNat, BitVec.toNat_twoPow])
  rw [hpow]

theorem planMovVr_writes (h : Hdr) (f : VR) (s : State) (g : Group) :
    (planMovVr h f).Writes s g h (isPairType f.type) f.vd.toNat (rawTag f.type f.vb.toNat g) fun l => ((vrB f).read g l, ffNone) :=
  lanePlan_writes (f := fun _ _ xs => (xs.getD 0 0, ffNone)) (fun _ => rfl) fun q => tagOr_atIssue f.type f.vb.toNat g s h q

theorem planMovVi_writes (h : Hdr) (f : VI) (s : State) (g : Group) :
    (planMovVi h f).Writes s g h (isPairType f.type) f.vd.toNat f.type fun _ => (viOperand f.type f.imm f.ik, ffNone) :=
  lanePlan_writes (f := fun _ _ _ => (viOperand f.type f.imm f.ik, ffNone)) (fun _ => rfl) fun _ => rfl

theorem planMovVs_writes (h : Hdr) (f : VS) (s : State) (g : Group) :
    (planMovVs h f).Writes s g h (isPairType f.type) f.vd.toNat (if f.type = 12 then 0 else f.type)
      fun _ => (uniOperand f.type (g.s f.sb.toNat), ffNone) := by
  have htag : (if f.type = 12 then 0 else f.type) = if f.type == 12 then 0 else f.type := by simp
  rw [htag]
  exact lanePlan_writes (tag := fun _ => if f.type == 12 then 0 else f.type) (f := fun g _ _ => (uniOperand f.type (g.s f.sb.toNat), ffNone))
    (fun q => by simp only [Group.atIssue_s]) fun _ => rfl

theorem planTagSet_writes (h : Hdr) (f : VI) (s : State) (g : Group) :
    let t : BitVec 4 := f.imm.extractLsb' 0 4
    (planTagSet h f).Writes s g h (t = 7 || t = 8) f.vd.toNat t fun l => (g.val (t = 7 || t = 8) f.va.toNat l, ffNone) :=
  lanePlan_writes (f := fun _ _ xs => (xs.getD 0 0, ffNone)) (fun _ => rfl) fun _ => rfl

theorem planLea_writes (h : Hdr) (f : VS) (s : State) (g : Group) :
    (planLea h f).Writes s g h true f.vd.toNat 8
      fun l => (leaAddr f.type (g.s f.sb.toNat) (f.fn.toNat % 16) ((srcA f.va f.lra f.eba f.type).read g l), ffNone) :=
  lanePlan_writes (f := fun g _ xs => (leaAddr f.type (g.s f.sb.toNat) (f.fn.toNat % 16) (xs.getD 0 0), ffNone))
    (fun q => by simp only [Group.atIssue_s]) fun _ => rfl

/-- The plan of a move writes the value that its rule names. -/
theorem moveLaneOp_writes {i : Instr} {o : LaneOp} {v : Group → Nat → Word} {s : State} {g : Group} {p : Plan}
    (ho : moveLaneOp i = some (o, v)) (hp : planOf i s = some (o.h, p)) :
    p.Writes s g o.h o.pair o.vd (o.tag g) fun l => (v g l, ffNone) := by
  cases i <;> cases ho <;> cases hp
  case movVr h f => exact planMovVr_writes h f s g
  case movVi h f => exact planMovVi_writes h f s g
  case movVs h f => exact planMovVs_writes h f s g
  case lea h f =>
    have hwrites := planLea_writes h f s g
    simp only [leaAddr_eq] at hwrites
    exact hwrites
  case tagSet h f => exact planTagSet_writes h f s g
  case shflVr h f => exact planShflVr_writes h f s g
  case shflVs h f => exact planShflVs_writes h f s g
  case kpopKeep h f => exact planKpopKeep_writes h f s g
  case kpopDepth h f => exact planKpopDepth_writes h f s g

/-- Settles O4: each of these instructions writes the value of its rule into the effective lanes. -/
theorem moveLanes : Obligations.MoveLanes := by
  unfold Obligations.MoveLanes
  intro i o v s g p ho hp hi hd
  rw [exec_of_planOf hp]
  exact runPlan_writes (moveLaneOp_writes ho hp) hi hd

end Sys2Proof.Machine
end

section
/-! PROOFS. Instructions with a uniform result (R154, R158 to R163). -/

namespace Sys2Proof.Machine

set_option Elab.async false

/-! ### A per-group instruction that sets one uniform register (R122) -/

/-- The plan of a group's instruction sets one uniform register, whatever the effective lanes, to the value that `v` gives for them. -/
structure Plan.SetsUniform (p : Plan) (s : State) (g : Group) (h : Hdr) (sd lat : Nat) (v : LaneMask → Word) : Prop where
  acts : p.acts = .group
  touches : p.touches s g (effLanes g h) = []
  dsts : p.dsts = [.s sd]
  effect : ∀ eff, p.effect s (g.atIssue s h p) eff = setUniform g.gid sd lat (v eff)

/-- What such an instruction leaves where a lane is effective. -/
theorem runPlan_setsUniform {i : Instr} {s : State} {g : Group} {h : Hdr} {p : Plan} {sd lat : Nat} {v : LaneMask → Word}
    (hsets : p.SetsUniform s g h sd lat v) (hi : Issues s g i h p) (hn : effLanes g h ≠ 0) :
    ∃ t g', runPlan i h p s = .next t ∧ t.grp? g.gid = some g' ∧ OnlyGroup s t g.gid ∧ WroteUniform i s g g' p sd lat (v (effLanes g h)) := by
  obtain ⟨hacts, htouch, hdst, heffect⟩ := hsets
  have hsame := runPlan_congr_booked hi htouch
    (fun s g eff => .change fun t => t.modGrp g.gid fun x => x.setS (s.now + lat) sd (v eff))
    fun g1 eff => by rw [heffect, setUniform_booked, Group.atIssue_gid]
  obtain ⟨t, g', hrun, hfound, honly, hwrote⟩ := runPlan_uniform (i := i)
    (p := { p with effect := fun s g eff => .change fun t => t.modGrp g.gid fun x => x.setS (s.now + lat) sd (v eff) })
    ⟨hi.issuing, hi.alive, hi.ready, hi.clear, hi.tables, hi.room⟩ hacts hn htouch hdst
    (by simp only [Group.atIssue_gid]; rfl)
  exact ⟨t, g', hsame.symm.trans hrun, hfound, honly, hwrote.value, hwrote.full, hwrote.freed, hwrote.regs, hwrote.zero, hwrote.flags,
    hwrote.keeps, hwrote.work, hwrote.moves⟩

theorem uniPlan_sets {srcs : List Src} {sd lat : Nat} {f : Group → Word} {s : State} {g : Group} {h : Hdr}
    (hf : ∀ q, f (g.atIssue s h q) = f g) : (uniPlan srcs sd lat f).SetsUniform s g h sd lat fun _ => f g :=
  ⟨rfl, rfl, rfl, fun _ => by simp only [uniPlan, hf, Group.atIssue_gid]⟩

/-! ### Exact values on uniform registers (R159, R160) -/

theorem uniType_cases {t : BitVec 4} (ht : typeIn t [5, 6, 7, 8, 12] = true) : t = 5 ∨ t = 6 ∨ t = 7 ∨ t = 8 ∨ t = 12 := by
  revert t
  decide

/-- The element of a uniform operand is the whole operand. -/
theorem elemW_uniType {t : BitVec 4} (ht : typeIn t [5, 6, 7, 8, 12] = true) : elemW t = opW t ∧ 0 < elemCount t := by
  revert t
  decide

/-- A word read as signed or not is its number. -/
theorem ofInt_readInt_word (sg : Bool) (v : Word) : BitVec.ofInt 64 (readInt sg 64 (elemNat 64 v 0)) = v := by
  refine (ofInt_readInt 63 sg v).trans ?_
  cases sg <;> simp

/-- The widening of R160 keeps the number that the type reads. -/
theorem widenU_eq {t : BitVec 4} (ht : typeIn t [5, 6, 7, 8, 12] = true) (v : Word) :
    widenU t v = BitVec.ofInt 64 (readInt (isSigned t) (opW t) (elemNat (opW t) v 0)) := by
  obtain rfl | rfl | rfl | rfl | rfl := uniType_cases ht
  · exact (ofInt_readInt 31 true v).symm
  · exact (ofInt_readInt 31 false v).symm
  · exact (ofInt_readInt_word true v).symm
  · exact (ofInt_readInt_word false v).symm
  · exact (ofInt_readInt_word false v).symm

theorem uniInt_eq_uniExact {f : UR} (ht : typeIn (uType f) [5, 6, 7, 8, 12] = true) {o : IntOp} (hmad : o ≠ .mad) (g : Group) :
    uniInt (uType f) (f.fn.getLsbD 4) o.fn (g.s f.sa.toNat) (g.s f.sb.toNat) = uniExact f o g := by
  obtain ⟨hwidth, hcount⟩ := elemW_uniType ht
  have helem := elemNat_intElems (uType f) (f.fn.getLsbD 4) o.fn (g.s f.sa.toNat) (g.s f.sb.toNat) 0 hcount
  have hpos := elemW_pos (uType f)
  rw [hwidth] at helem hpos
  rw [uniInt, widenU_eq ht, helem, narrow_exact o _ _ _ hpos _ _ 0 (readInt_bounds _ _ _ hpos (elemNat_lt _ _ _)) hmad]
  rfl

theorem uType_of_wellFormed {types : List Nat} {sat : BitVec 4 → Bool} {h : Hdr} {f : UR} (hwf : (uniChecks types sat h f).item = none)
    (htypes : types ⊆ [5, 6, 7, 8, 12]) : typeIn (uType f) [5, 6, 7, 8, 12] = true := by
  have hin : typeIn (uType f) types = true := (Checks.holds_of_item hwf).2
  simp only [typeIn, List.contains_iff_mem] at hin ⊢
  exact htypes hin

/-- Well-formed uniform arithmetic sets its register to the exact value of R137, narrowed and widened. -/
theorem uniArith_sets {types : List Nat} {sat : BitVec 4 → Bool} {h : Hdr} {f : UR} {s : State} {g : Group} (o : IntOp)
    (hwf : (uniChecks types sat h f).item = none) (htypes : types ⊆ [5, 6, 7, 8, 12]) (hmad : o ≠ .mad) :
    ∃ u, (uniArith f o.fn).SetsUniform s g h f.sd.toNat 0 u ∧ u (effLanes g h) = uniExact f o g :=
  ⟨_, uniPlan_sets fun q => by simp only [Group.atIssue_s], uniInt_eq_uniExact (uType_of_wellFormed hwf htypes) hmad g⟩

theorem uniLogic_sets {f : UR} (op : Word → Word → Word) (s : State) (g : Group) (h : Hdr) :
    (uniLogic f op).SetsUniform s g h f.sd.toNat 0 fun _ => op (g.s f.sa.toNat) (g.s f.sb.toNat) :=
  uniPlan_sets fun q => by simp only [Group.atIssue_s]

/-! ### ballot and mov (R154, R158, R162, R163) -/

theorem planBallot_sets (f : UR) (s : State) (g : Group) (h : Hdr) :
    (planBallot f).SetsUniform s g h f.sd.toNat 2 fun eff => eff &&& g.p f.sa.toNat :=
  ⟨rfl, rfl, rfl, fun _ => by simp only [planBallot, Group.atIssue_gid, Group.atIssue_p]⟩

theorem planMovSv_sets (h : Hdr) (f : SV) (s : State) (g : Group) : (planMovSv h f).SetsUniform s g h f.sd.toNat 2 fun _ => movSvValue f g :=
  ⟨rfl, rfl, rfl, fun _ => by
    simp only [planMovSv, movSvValue, movSvLane, shflRead_atIssue, Group.atIssue_gid, Group.atIssue_active, Group.atIssue_width]⟩

/-- The two parts of the immediate of `movl` put together. -/
theorem append_eq_or (a : BitVec 8) (b : BitVec 56) : (a ++ b : BitVec 64) = a.setWidth 64 <<< 56 ||| b.setWidth 64 := by
  refine BitVec.eq_of_getLsbD_eq fun q hq => (BitVec.getLsbD_append (x := a) (y := b)).trans ?_
  simp only [BitVec.getLsbD_or, BitVec.getLsbD_shiftLeft, BitVec.getLsbD_setWidth]
  by_cases hlow : q < 56
  · simp [hlow, show q < 64 from hq]
  · have hnone : b.getLsbD q = false := BitVec.getLsbD_of_ge b q (not_lt.1 hlow)
    simp [hlow, hnone, show q < 64 from hq, show q - 56 < 64 by omega]

/-- The plan of an instruction with a uniform result sets its register to the value of its rule. -/
theorem uniformOp_sets {i : Instr} {h : Hdr} {sd lat : Nat} {v : Group → Word} {s : State} {g : Group} {p : Plan}
    (ho : uniformOp i = some (h, sd, lat, v)) (hwf : i.WellFormed 64) (hp : planOf i s = some (h, p)) :
    ∃ u, p.SetsUniform s g h sd lat u ∧ u (effLanes g h) = v g := by
  cases i <;> cases ho <;> cases hp
  case addUr => exact uniArith_sets .add hwf (by decide) nofun
  case subUr => exact uniArith_sets .sub hwf (by decide) nofun
  case mulUr => exact uniArith_sets .mul hwf (by decide) nofun
  case divUr => exact uniArith_sets .div hwf (by decide) nofun
  case remUr => exact uniArith_sets .rem hwf (by decide) nofun
  case shlUr => exact uniArith_sets .shl hwf (by decide) nofun
  case shrUr => exact uniArith_sets .shr hwf (by decide) nofun
  case minUr => exact uniArith_sets .min hwf (by decide) nofun
  case maxUr => exact uniArith_sets .max hwf (by decide) nofun
  case andUr | orUr | xorUr => exact ⟨_, uniLogic_sets _ s g h, rfl⟩
  case addUi => exact ⟨_, uniPlan_sets fun q => by simp only [Group.atIssue_s], rfl⟩
  case movUi => exact ⟨_, uniPlan_sets fun q => rfl, rfl⟩
  case movl => exact ⟨_, uniPlan_sets fun q => rfl, append_eq_or _ _⟩
  case ballot f => exact ⟨_, planBallot_sets f s g h, rfl⟩
  case movSv f => exact ⟨_, planMovSv_sets h f s g, by simp [movSvValue, movSvLane, shflRead_eq_fromLane]⟩

/-- Settles O9: each of these instructions sets its uniform register to the value of its rule. -/
theorem uniformResults : Obligations.UniformResults := by
  unfold Obligations.UniformResults
  intro i h sd lat v s g p ho hwf hp hi hn
  obtain ⟨u, hsets, hu⟩ := uniformOp_sets ho hwf hp
  rw [exec_of_planOf hp, ← hu]
  exact runPlan_setsUniform hsets hi hn

end Sys2Proof.Machine
end

section
/-! PROOFS. Scans and reductions (R155 to R157, R182). -/

namespace Sys2Proof.Machine

set_option Elab.async false

/-! ### Folds over the lanes (R156) -/

/-- The lanes of a mask below a bound. -/
theorem filter_lanesOf_lt {n : Nat} (hn : n ≤ 64) (m : LaneMask) :
    (lanesOf m).filter (fun k => decide (k < n)) = (List.range n).filter fun k => m.getLsbD k := by
  obtain ⟨d, hd⟩ := Nat.exists_eq_add_of_le hn
  have hbelow : (List.range 64).filter (fun k => decide (k < n)) = List.range n := by
    rw [hd, List.range_add, List.filter_append, List.filter_eq_self.2 (by simp), List.filter_eq_nil_iff.2 (by simp), List.append_nil]
  rw [lanesOf, List.filter_filter, ← hbelow, List.filter_filter]
  exact List.filter_congr fun k _ => Bool.and_comm ..

/-- The result of lane `l` covers the effective lanes below this bound. -/
def coveredCount (isRed ex : Bool) (width l : Nat) : Nat := if isRed then width else if ex then l else l + 1

theorem coveredCount_le {isRed ex : Bool} {width l : Nat} (hl : l < width) : coveredCount isRed ex width l ≤ width := by
  unfold coveredCount
  split <;> [skip; split] <;> omega

theorem covered_eq {isRed ex : Bool} {eff : LaneMask} {width l : Nat} (hw : width ≤ 64) (hl : l < width) :
    covered isRed ex eff width l = (List.range (coveredCount isRed ex width l)).filter fun k => eff.getLsbD k := by
  rw [← filter_lanesOf_lt ((coveredCount_le hl).trans hw), covered]
  refine List.filter_congr fun k _ => ?_
  cases isRed <;> cases ex <;> simp [coveredCount] <;> omega

/-- A fold may leave out the places that hold a value which changes no accumulator in `P`. -/
theorem foldl_skip {α β : Type} {f : α → β → α} {one : β} (P : α → Prop) (q : Nat → Bool) (x : Nat → β)
    (hkeep : ∀ a k, P a → P (f a (x k))) (hone : ∀ a, P a → f a one = a) (ls : List Nat) {a : α} (ha : P a) :
    (ls.map fun k => if q k then x k else one).foldl f a = ((ls.filter q).map x).foldl f a := by
  induction ls generalizing a with
  | nil => rfl
  | cons k ls ih =>
    cases hk : q k
    · simpa [hk, hone a ha] using ih ha
    · simpa [hk] using ih (hkeep a k ha)

/-- The running results of the model's scan are those of the list's own. -/
theorem foldl_running {α β : Type} (f : α → β → α) (ts : List β) (a : α) (acc : List α) :
    (ts.foldl (fun (r : α × List α) x => let v := f r.1 x; (v, r.2 ++ [v])) (a, acc)).2 = acc ++ (ts.scanl f a).tail := by
  induction ts generalizing a acc with
  | nil => simp
  | cons x ts ih =>
    rw [List.foldl_cons, ih, List.scanl_cons, List.tail_cons, List.append_assoc]
    cases ts <;> simp

/-! ### Integer and bitwise combinations (R155) -/

theorem scanInt_eq_combine (op : Nat) : scanInt op = combine op := by
  funext x y
  match op with
  | 0 => rfl
  | 1 => simp only [scanInt, combine]; omega
  | 2 => simp only [scanInt, combine]; omega
  | 3 => rfl
  | 4 => rfl
  | _ + 5 => rfl

/-- The number that a lane gives to a combination that is not floating. -/
def scanElem (t : BitVec 4) (v : Word) : Int := readInt (isSigned t) (opW t) (elemNat (opW t) v 0)

/-- The accumulator of a combination: in the range of the type, but for sums, which are exact. -/
def InScan (op : Nat) (t : BitVec 4) (a : Int) : Prop := op = 0 ∨ loOf (isSigned t) (opW t) ≤ a ∧ a ≤ hiOf (isSigned t) (opW t)

theorem opW_pos (t : BitVec 4) : 0 < opW t := by
  rcases opW_cases t with h | h <;> omega

/-- Without a sign, the range of the type is that of its patterns. -/
theorem inScan_unsigned {op : Nat} {t : BitVec 4} {a : Int} (ht : isSigned t = false) (hop : op ≠ 0) :
    InScan op t a ↔ ∃ n : Nat, n < 2 ^ opW t ∧ a = n := by
  simp only [InScan, hop, false_or, ht, loOf, hiOf, Bool.false_eq_true, if_false]
  have hcast : ((2 ^ opW t : Nat) : Int) = 2 ^ opW t := by push_cast; rfl
  constructor
  · exact fun ⟨hlo, hhi⟩ => ⟨a.toNat, by omega, by omega⟩
  · rintro ⟨n, hn, rfl⟩
    omega

section
variable {op : Nat} {t : BitVec 4} (hop : op < 3 ∨ isSigned t = false)
include hop

theorem inScan_identity : InScan op t (scanIdInt op t) := by
  have hrange := readInt_bounds (isSigned t) (opW t) 0 (opW_pos t) (Nat.two_pow_pos _)
  match op, hop with
  | 0, _ => exact .inl rfl
  | 1, _ => exact .inr ⟨hrange.1.trans hrange.2, le_rfl⟩
  | 2, _ => exact .inr ⟨le_rfl, hrange.1.trans hrange.2⟩
  | 3, .inr ht =>
    refine (inScan_unsigned ht (by decide)).2 ⟨2 ^ opW t - 1, Nat.sub_lt (Nat.two_pow_pos _) one_pos, ?_⟩
    rw [Nat.cast_sub Nat.one_le_two_pow]
    push_cast
    rfl
  | n + 4, .inr ht => exact (inScan_unsigned ht (Nat.succ_ne_zero _)).2 ⟨0, Nat.two_pow_pos _, rfl⟩

theorem inScan_combine {a : Int} (ha : InScan op t a) (v : Word) : InScan op t (combine op a (scanElem t v)) := by
  obtain ⟨hlo, hhi⟩ : loOf (isSigned t) (opW t) ≤ scanElem t v ∧ scanElem t v ≤ hiOf (isSigned t) (opW t) :=
    readInt_bounds _ _ _ (opW_pos t) (elemNat_lt ..)
  have hbits {n : Nat} (ht : isSigned t = false) (f : Nat → Nat → Nat) (hn : n ≠ 0) (ha : InScan n t a)
      (hf : ∀ x y w, x < 2 ^ w → y < 2 ^ w → f x y < 2 ^ w) :
      InScan n t (f a.toNat (scanElem t v).toNat : Nat) := by
    obtain ⟨x, hx, rfl⟩ := (inScan_unsigned ht hn).1 ha
    obtain ⟨y, hy, hread⟩ := (inScan_unsigned ht hn).1 (.inr ⟨hlo, hhi⟩)
    rw [hread]
    exact (inScan_unsigned ht hn).2 ⟨_, hf x y _ hx hy, rfl⟩
  match op, hop, ha with
  | 0, _, _ => exact .inl rfl
  | 1, _, .inr ⟨_, _⟩ => exact .inr ⟨le_min ‹_› hlo, (min_le_left ..).trans ‹_›⟩
  | 2, _, .inr ⟨_, _⟩ => exact .inr ⟨le_max_of_le_left ‹_›, max_le ‹_› hhi⟩
  | 3, .inr ht, ha => exact hbits ht (· &&& ·) (by decide) ha fun x _ _ _ hy => Nat.and_lt_two_pow x hy
  | 4, .inr ht, ha => exact hbits ht (· ||| ·) (by decide) ha fun _ _ _ hx hy => Nat.or_lt_two_pow hx hy
  | n + 5, .inr ht, ha => exact hbits ht (· ^^^ ·) (Nat.succ_ne_zero _) ha fun _ _ _ hx hy => Nat.xor_lt_two_pow hx hy

theorem combine_identity {a : Int} (ha : InScan op t a) : combine op a (scanIdInt op t) = a := by
  match op, hop, ha with
  | 0, _, _ => exact Int.add_zero a
  | 1, _, .inr ⟨_, _⟩ => exact min_eq_left ‹_›
  | 2, _, .inr ⟨_, _⟩ => exact max_eq_left ‹_›
  | 3, .inr ht, ha =>
    obtain ⟨n, hn, rfl⟩ := (inScan_unsigned ht (by decide)).1 ha
    have hones : ((2 : Int) ^ opW t - 1).toNat = 2 ^ opW t - 1 := by
      have hcast : ((2 ^ opW t : Nat) : Int) = 2 ^ opW t := by push_cast; rfl
      omega
    simp only [combine, scanIdInt, hones, Int.toNat_natCast, Nat.and_two_pow_sub_one_of_lt_two_pow hn]
  | 4, .inr ht, ha =>
    obtain ⟨n, -, rfl⟩ := (inScan_unsigned ht (by decide)).1 ha
    simp [combine, scanIdInt]
  | k + 5, .inr ht, ha =>
    obtain ⟨n, -, rfl⟩ := (inScan_unsigned ht (Nat.succ_ne_zero _)).1 ha
    simp [combine, scanIdInt]

end

/-! ### The result of a lane (R156) -/

theorem getD_map_take {α β : Type} {rs : List α} {r : α} {l n : Nat} (hl : l < n) (hr : rs[l]? = some r) (F : α → β) (d : β) :
    ((rs.take n).map F).getD l d = F r := by
  simp [List.getD_eq_getElem?_getD, hl, hr]

/-- The combination for lane `l` in `red`, and in `scan` without and with EX. -/
theorem getElem?_running {α β : Type} {f : α → β → α} {one : α} {ts : List β} {isRed ex : Bool} {l : Nat} (hl : l < ts.length)
    (hex : isRed = true → ex = false) :
    (if isRed then List.replicate ts.length (ts.foldl f one)
      else
        let pre := (ts.foldl (fun (a : α × List α) x => let v := f a.1 x; (v, a.2 ++ [v])) (one, [])).2
        if ex then one :: pre else pre)[l]? = some ((ts.take (coveredCount isRed ex ts.length l)).foldl f one) := by
  rw [foldl_running, List.nil_append]
  cases isRed
  case true => simp [coveredCount, hl]
  case false =>
    cases ex
    case false =>
      have hnext : l + 1 ≤ ts.length := hl
      simp [coveredCount, hnext]
    case true =>
      have hall : one :: (ts.scanl f one).tail = ts.scanl f one := by cases ts <;> simp
      simp [coveredCount, hall, hl.le]

/-- The result of lane `l` of an integer or bitwise scan or reduction is the narrowed combination of the lanes that it covers. -/
theorem scanAll_int {isRed ex sat : Bool} {t : BitVec 4} {op rnd width l : Nat} {val : Nat → Option Word} (ht : t ≠ 9) (hl : l < width)
    (hex : isRed = true → ex = false) :
    (scanAll isRed t op rnd sat ex width val).getD l (0, 0) =
      (BitVec.ofNat 64 (narrow sat (isSigned t) (opW t) (((List.range (coveredCount isRed ex width l)).map fun k =>
        ((val k).map (scanElem t)).getD (scanIdInt op t)).foldl (combine op) (scanIdInt op t))), 0) := by
  have hrun := getElem?_running (f := combine op) (one := scanIdInt op t)
    (ts := (List.range width).map fun k => ((val k).map (scanElem t)).getD (scanIdInt op t)) (l := l) (by simpa using hl) hex
  simp only [List.length_map, List.length_range, ← List.map_take, List.take_range, Nat.min_eq_left (coveredCount_le hl)] at hrun
  rw [scanAll, if_neg (by simpa using ht), scanInt_eq_combine]
  exact getD_map_take hl hrun _ _

theorem map_getD_ite {α β : Type} (c : Bool) (v : α) (F : α → β) (d : β) :
    ((if c then some v else none).map F).getD d = if c then F v else d := by
  cases c <;> rfl

/-- Counting the lanes that are not effective as the identity combines the covered lanes. -/
theorem fold_covered {op : Nat} {t : BitVec 4} (hop : op < 3 ∨ isSigned t = false) {isRed ex : Bool} {eff : LaneMask} {width l : Nat}
    (hw : width ≤ 64) (hl : l < width) (val : Nat → Word) :
    ((List.range (coveredCount isRed ex width l)).map fun k =>
        ((if eff.getLsbD k then some (val k) else none).map (scanElem t)).getD (scanIdInt op t)).foldl (combine op) (scanIdInt op t) =
      ((covered isRed ex eff width l).map fun k => scanElem t (val k)).foldl (combine op) (scanIdInt op t) := by
  rw [covered_eq hw hl, ← foldl_skip (InScan op t) _ _ (fun a k ha => inScan_combine hop ha (val k)) (fun a ha => combine_identity hop ha) _
    (inScan_identity hop)]
  simp only [map_getD_ite]

/-! ### Type 9 (R156, R182) -/

theorem pairUp_ne_nil {f : Nat × FFlags → Nat × FFlags → Nat × FFlags} {xs : List (Nat × FFlags)} (hx : xs ≠ []) : pairUp f xs ≠ [] := by
  match xs with
  | [_] => simp [pairUp]
  | _ :: _ :: _ => simp [pairUp]

theorem treeOf_ne_nil {f : Nat × FFlags → Nat × FFlags → Nat × FFlags} (k : Nat) {xs : List (Nat × FFlags)} (hx : xs ≠ []) :
    treeOf f k xs ≠ [] := by
  induction k generalizing xs with
  | zero => exact hx
  | succ k ih => exact ih (pairUp_ne_nil hx)

/-- Every lane of a reduction gets the root of the tree over all lanes of the width. -/
theorem scanAll_redF32 {sat ex : Bool} {op rnd width l : Nat} {val : Nat → Option Word} (hl : l < width) :
    (scanAll true 9 op rnd sat ex width val).getD l (0, 0) =
      let root := (treeOf (scanF32 op rnd) 6 ((List.range width).map fun k => ((val k).map scanLeaf).getD (scanIdF32 op, 0))).getD 0 (0, 0)
      (BitVec.ofNat 64 root.1, root.2) := by
  obtain ⟨ts, hts⟩ : ∃ ts, ((List.range width).map fun k => ((val k).map scanLeaf).getD (scanIdF32 op, 0)) = ts := ⟨_, rfl⟩
  have hne : ts ≠ [] := by
    rw [← hts, Ne, List.map_eq_nil_iff, List.range_eq_nil]
    omega
  have hroot : (treeOf (scanF32 op rnd) 6 ts).getD 0 (scanIdF32 op, 0) = (treeOf (scanF32 op rnd) 6 ts).getD 0 (0, 0) := by
    cases htree : treeOf (scanF32 op rnd) 6 ts
    case nil => exact absurd htree (treeOf_ne_nil 6 hne)
    case cons => rfl
  rw [scanAll, if_pos (beq_self_eq_true (9 : BitVec 4))]
  simp only [if_true, hts, hroot]
  exact getD_map_take hl (List.getElem?_replicate_of_lt hl) _ _

/-- A round over a list of the lanes' values. -/
theorem scanStep_map (f : Nat × FFlags → Nat × FFlags → Nat × FFlags) (d n : Nat) (u : Nat → Nat × FFlags) :
    scanStep f d ((List.range n).map u) = (List.range n).map fun l => if d ≤ l then f (u (l - d)) (u l) else u l := by
  have hget {k : Nat} (hk : k < n) : ((List.range n).map u).getD k (0, 0) = u k := by simp [List.getD_eq_getElem?_getD, hk]
  rw [scanStep, List.length_map, List.length_range]
  refine List.map_congr_left fun l hl => ?_
  have hlt : l < n := List.mem_range.1 hl
  simp only [hget hlt, hget (Nat.lt_of_le_of_lt (Nat.sub_le l d) hlt)]

/-- The rounds at the distances below the width. -/
theorem foldl_scanStep (f : Nat × FFlags → Nat × FFlags → Nat × FFlags) (n : Nat) (ds : List Nat) (u : Nat → Nat × FFlags) :
    ds.foldl (fun us d => if d < n then scanStep f d us else us) ((List.range n).map u) =
      (List.range n).map (scanRounds f (ds.filter (· < n)) u) := by
  induction ds generalizing u with
  | nil => rfl
  | cons d ds ih =>
    by_cases hd : d < n
    · rw [List.foldl_cons, if_pos hd, scanStep_map, ih, List.filter_cons_of_pos (by simpa using hd)]
      rfl
    · rw [List.foldl_cons, if_neg hd, ih, List.filter_cons_of_neg (by simpa using hd)]

/-- Lane `l` of a scan gets its partial combination, under EX that of the lane below. -/
theorem scanAll_scanF32 {sat ex : Bool} {op rnd width l : Nat} {val : Nat → Option Word} (hl : l < width) :
    (scanAll false 9 op rnd sat ex width val).getD l (0, 0) =
      let one := (scanIdF32 op, 0)
      let incl := scanRounds (scanF32 op rnd) ([1, 2, 4, 8, 16, 32].filter (· < width)) fun k => ((val k).map scanLeaf).getD one
      let out := if ex then (if l = 0 then one else incl (l - 1)) else incl l
      (BitVec.ofNat 64 out.1, out.2) := by
  rw [scanAll, if_pos (beq_self_eq_true (9 : BitVec 4))]
  simp only [Bool.false_eq_true, if_false, foldl_scanStep]
  refine getD_map_take hl ?_ _ _
  cases ex
  case false => simp [hl]
  case true =>
    cases l with
    | zero => rfl
    | succ l => simp [Nat.lt_of_succ_lt hl]

/-! ### The instructions (R155 to R157) -/

/-- What the model gives lane `l` of a group in `scan` and `red`. -/
def scanResult (isRed : Bool) (f : VR) (g : Group) (h : Hdr) (l : Nat) : Word × FFlags :=
  (scanAll isRed f.type (scanOpOf f) f.rnd.toNat f.sat (!isRed && scanEx f) g.width fun k =>
    if (effLanes g h).getLsbD k then some (g.val (isPairType f.type) f.vb.toNat k) else none).getD l (0, 0)

theorem scanPlan_writes (i : Instr) (isRed : Bool) (f : VR) (s : State) (g : Group) (h : Hdr) :
    (scanPlan i isRed f).Writes s g h (isPairType f.type) f.vd.toNat (tagOr f.type f.vb.toNat g) (scanResult isRed f g h) := by
  refine ⟨i, scanLat f.type (scanOpOf f) g.width, ?_, ?_⟩
  · simp only [scanPlan, resultPlan, lanePlan, List.flatMap_nil, List.nil_append]
  · simp only [scanPlan, Group.atIssue_gid, Group.atIssue_width, Group.atIssue_val, tagOr_atIssue, List.map_map, Function.comp_def]
    rfl

/-- A well-formed `scan` or `red` with a bitwise operation is of an unsigned type. -/
theorem scanOp_of_wellFormed {isRed : Bool} {h : Hdr} {f : VR} (hwf : (scanChecks isRed h f).item = none) :
    scanOpOf f < 3 ∨ isSigned f.type = false := by
  have hvals := (Checks.holds_of_item hwf).1
  simp only [scanChecks, Bool.and_eq_true] at hvals
  by_cases hop : scanOpOf f < 3
  · exact .inl hop
  · have htype := hvals.2
    rw [if_neg (show ¬(f.swp.extractLsb' 0 3).toNat < 3 from hop)] at htype
    right
    revert htype
    generalize f.type = t
    revert t
    decide

/-- A narrowed number in a word. -/
theorem elemNat_narrow (sat : Bool) (t : BitVec 4) (v : Int) :
    elemNat (opW t) (BitVec.ofNat 64 (narrow sat (isSigned t) (opW t) v)) 0 = narrow sat (isSigned t) (opW t) v := by
  have hlt := narrow_lt sat (isSigned t) (opW t) v
  have hword := Nat.lt_of_lt_of_le hlt (Nat.pow_le_pow_right (by decide) (opW_le t))
  simp [elemNat, Nat.mod_eq_of_lt hword, Nat.mod_eq_of_lt hlt]

/-- `scan` (with `isRed` false) or `red` (with `isRed` true). -/
def IsScan (i : Instr) (h : Hdr) (f : VR) (isRed : Bool) : Prop := (i = .scan h f ∧ isRed = false) ∨ (i = .red h f ∧ isRed = true)

theorem IsScan.plan {i : Instr} {h : Hdr} {f : VR} {isRed : Bool} {s : State} {p : Plan} (hi : IsScan i h f isRed)
    (hp : planOf i s = some (h, p)) : p = scanPlan i isRed f := by
  obtain ⟨rfl, rfl⟩ | ⟨rfl, rfl⟩ := hi <;> cases hp <;> rfl

theorem IsScan.wellFormed {i : Instr} {h : Hdr} {f : VR} {isRed : Bool} (hi : IsScan i h f isRed) (hwf : i.WellFormed 64) :
    (scanChecks isRed h f).item = none := by
  obtain ⟨rfl, rfl⟩ | ⟨rfl, rfl⟩ := hi <;> exact hwf

/-- What `scan` and `red` leave where no lane dies. -/
theorem IsScan.leaves {i : Instr} {h : Hdr} {f : VR} {isRed : Bool} {s : State} {g : Group} {p : Plan} (hi : IsScan i h f isRed)
    (hp : planOf i s = some (h, p)) (hissue : Issues s g i h p) (hd : dying s g h p = 0) :
    ∃ t g', exec i s = .next t ∧ t.grp? g.gid = some g' ∧ OnlyGroup s t g.gid ∧
      WroteLanes i g g' h p (isPairType f.type) f.vd.toNat (tagOr f.type f.vb.toNat g) (scanResult isRed f g h) := by
  rw [exec_of_planOf hp]
  exact runPlan_writes (hi.plan hp ▸ scanPlan_writes i isRed f s g h) hissue hd

/-- What they give lane `l` under a type that is not floating. -/
theorem scanResult_int {isRed : Bool} {f : VR} {g : Group} {h : Hdr} {l : Nat} (hop : scanOpOf f < 3 ∨ isSigned f.type = false)
    (ht : f.type ≠ 9) (hw : g.width ≤ 64) (hl : l < g.width) : (scanResult isRed f g h l).2 = ffNone ∧
      elemNat (opW f.type) (scanResult isRed f g h l).1 0 = narrow f.sat (isSigned f.type) (opW f.type)
        (((covered isRed (!isRed && scanEx f) (effLanes g h) g.width l).map fun k => scanElem f.type (g.val (isPairType f.type) f.vb.toNat k)).foldl
          (combine (scanOpOf f)) (scanIdInt (scanOpOf f) f.type)) := by
  rw [scanResult, scanAll_int ht hl fun h => by rw [h]; rfl, fold_covered hop hw hl]
  exact ⟨rfl, elemNat_narrow ..⟩

theorem scanResult_redF32 {f : VR} {g : Group} {h : Hdr} {l : Nat} (ht : f.type = 9) (hl : l < g.width) :
    scanResult true f g h l =
      let leaf := fun k => if (effLanes g h).getLsbD k then scanLeaf (g.val false f.vb.toNat k) else (scanIdF32 (scanOpOf f), 0)
      let root := (treeOf (scanF32 (scanOpOf f) f.rnd.toNat) 6 ((List.range g.width).map leaf)).getD 0 (0, 0)
      (BitVec.ofNat 64 root.1, root.2) := by
  rw [scanResult, ht, scanAll_redF32 hl]
  simp only [map_getD_ite]
  rfl

theorem scanResult_scanF32 {f : VR} {g : Group} {h : Hdr} {l : Nat} (ht : f.type = 9) (hl : l < g.width) :
    scanResult false f g h l =
      let one := (scanIdF32 (scanOpOf f), 0)
      let leaf := fun k => if (effLanes g h).getLsbD k then scanLeaf (g.val false f.vb.toNat k) else one
      let incl := scanRounds (scanF32 (scanOpOf f) f.rnd.toNat) ([1, 2, 4, 8, 16, 32].filter (· < g.width)) leaf
      let out := if scanEx f then (if l = 0 then one else incl (l - 1)) else incl l
      (BitVec.ofNat 64 out.1, out.2) := by
  rw [scanResult, ht, scanAll_scanF32 hl]
  simp only [map_getD_ite]
  rfl

/-- Settles O7: the integer and bitwise combinations, the tree of `red` and the rounds of `scan` under type 9. -/
theorem scanRed : Obligations.ScanRed := by
  unfold Obligations.ScanRed
  refine ⟨fun i h f isRed s g p hi hwf ht hp hissue hd hw => ?_, fun h f s g p ht hp hissue hd _ => ?_, fun h f s g p ht hp hissue hd _ => ?_⟩
  · obtain ⟨t, g', hexec, hfound, honly, hwrote⟩ := IsScan.leaves hi hp hissue hd
    exact ⟨t, g', _, hexec, hfound, honly, hwrote,
      fun l hl _ => scanResult_int (scanOp_of_wellFormed (IsScan.wellFormed hi hwf)) ht hw hl⟩
  · obtain ⟨t, g', hexec, hfound, honly, hwrote⟩ := IsScan.leaves (.inr ⟨rfl, rfl⟩) hp hissue hd
    rw [ht] at hwrote
    exact ⟨t, g', _, hexec, hfound, honly, hwrote, fun l hl => scanResult_redF32 ht hl⟩
  · obtain ⟨t, g', hexec, hfound, honly, hwrote⟩ := IsScan.leaves (.inl ⟨rfl, rfl⟩) hp hissue hd
    rw [ht] at hwrote
    exact ⟨t, g', _, hexec, hfound, honly, hwrote, fun l hl => scanResult_scanF32 ht hl⟩

end Sys2Proof.Machine
end

section
/-! PROOFS. Conversions to and from DX blocks (R170 to R176, R201 to R203); O6. -/

namespace Sys2Proof.Machine

set_option Elab.async false

/-! ### Flags ORed together (R197) -/

/-- A bit of some flags ORed together is set where one of them sets it. -/
theorem getLsbD_foldl_or {n : Nat} (fs : List (BitVec n)) (a : BitVec n) (i : Nat) :
    (fs.foldl (· ||| ·) a).getLsbD i = (a.getLsbD i || fs.any fun f => f.getLsbD i) := by
  induction fs generalizing a with
  | nil => simp
  | cons f fs ih => rw [List.foldl_cons, ih, BitVec.getLsbD_or, List.any_cons, Bool.or_assoc]

/-- Which flags are ORed together matters, and not how often nor in which order. -/
theorem orFlags_congr {fs gs : List FFlags} (h : ∀ f, f ∈ fs ↔ f ∈ gs) : orFlags fs = orFlags gs := by
  refine BitVec.eq_of_getLsbD_eq fun i _ => ?_
  rw [orFlags, orFlags, getLsbD_foldl_or, getLsbD_foldl_or, Bool.eq_iff_iff]
  simp only [Bool.or_eq_true, List.any_eq_true, h]

/-! ### Collective instructions that write lanes (R202, R203) -/

/-- A plan as if its instruction did not ask for a converged group. -/
def Plan.solo (p : Plan) : Plan := { p with collective := false }

theorem causeAt_solo {i : Instr} {s : State} {g : Group} {h : Hdr} {p : Plan} (hclear : causeAt i s g h p = none) :
    causeAt i s g h p.solo = none := by
  rw [causeAt, firstSome_eq_findSome?, List.findSome?_eq_none_iff] at hclear ⊢
  simp only [List.forall_mem_cons, id_eq] at hclear ⊢
  obtain ⟨-, hrest⟩ := hclear
  exact ⟨rfl, hrest⟩

theorem Issues.solo {s : State} {g : Group} {i : Instr} {h : Hdr} {p : Plan} (hi : Issues s g i h p) : Issues s g i h p.solo :=
  ⟨hi.issuing, hi.alive, hi.ready, causeAt_solo hi.clear, hi.tables, hi.room⟩

/-- A collective instruction that issues does what it would do if it did not ask for a converged group. -/
theorem runPlan_solo {s : State} {g : Group} {i : Instr} {h : Hdr} {p : Plan} (hi : Issues s g i h p) :
    runPlan i h p s = runPlan i h p.solo s := by
  rw [runPlan_issues hi, runPlan_issues hi.solo]
  rfl

/-- What a collective instruction leaves that writes `res` into the effective lanes, where no lane dies. -/
theorem runPlan_soloWrites {i : Instr} {s : State} {g : Group} {h : Hdr} {p : Plan} {pair : Bool} {vd : Nat} {tag : BitVec 4}
    {res : Nat → Word × FFlags} (hw : p.solo.Writes s g h pair vd tag res) (hi : Issues s g i h p) (hd : dying s g h p = 0) :
    ∃ t g', runPlan i h p s = .next t ∧ t.grp? g.gid = some g' ∧ OnlyGroup s t g.gid ∧ WroteLanes i g g' h p pair vd tag res := by
  obtain ⟨t, g', hrun, hfound, honly, hwrote⟩ := runPlan_writes hw hi.solo hd
  exact ⟨t, g', (runPlan_solo hi).trans hrun, hfound, honly, hwrote.value, hwrote.others, hwrote.tags, hwrote.marks, hwrote.flags,
    hwrote.freed, hwrote.regs, hwrote.keeps, hwrote.work, hwrote.moves⟩

/-- Results that are no pair are a write of one register, and their flags. -/
theorem Group.putResults_single (eff : LaneMask) (vd : Nat) (tag : BitVec 4) (ready : Nat) (res : Nat → Word × FFlags) :
    Group.putResults eff false vd tag ready res = fun g =>
      (g.writeV vd eff (fun l => loLane (res l).1) tag ready).raiseFlags (orFlags ((lanesOf eff).map fun l => (res l).2)) := by
  funext g
  refine congrArg (Group.raiseFlags · _) (Group.writeV_congr g _ _ _ fun l hl => ?_)
  have hlookup := lookup_map_self res (lanesOf eff) l hl
  simp only [List.map_map, Function.comp_def] at hlookup
  exact congrArg loLane hlookup

/-! ### cvt.todx (R202) -/

theorem getD_map_range {α : Type} (f : Nat → α) (n k : Nat) (d : α) : ((List.range n).map f).getD k d = if k < n then f k else d := by
  split
  · next h => simp [List.getD_eq_getElem?_getD, h]
  · next h => simp [List.getD_eq_getElem?_getD, h]

theorem dxTake_atIssue (t : BitVec 4) (name : Nat) (g : Group) (s : State) (h : Hdr) (q : Plan) :
    dxTake t name (g.atIssue s h q) = dxTake t name g := by
  funext b j
  simp only [dxTake, Group.atIssue_width, Group.atIssue_active, Group.atIssue_val]

/-- The block that `cvt.todx` builds from segment `b` of a group. -/
def todxBlock (f : CV) (g : Group) (b : Nat) : List Nat × FFlags :=
  dxBuild ((f.aux.extractLsb' 0 4).toNat + 1) (f.aux.extractLsb' 4 4).toNat ((List.range 32).map (dxTake f.stype f.va.toNat g b))

/-- What `cvt.todx` gives lane `l`: the word of that number of its segment's block, with the block's flags. -/
def todxResult (f : CV) (g : Group) (l : Nat) : Word × FFlags :=
  if l / dxSeg f.stype < max 1 (g.width / dxSeg f.stype) then
    (BitVec.ofNat 64 ((todxBlock f g (l / dxSeg f.stype)).1.getD (l % dxSeg f.stype) 0), (todxBlock f g (l / dxSeg f.stype)).2)
  else (0, 0)

theorem planCvtTodx_writes (h : Hdr) (f : CV) (s : State) (g : Group) :
    (planCvtTodx h f s).solo.Writes s g h false f.vd.toNat 0 (todxResult f g) := by
  refine ⟨.cvtTodx h f, dxLat g.width, rfl, ?_⟩
  have hword (l : Nat) : loLane (todxResult f g l).1 = BitVec.ofNat 32
      ((((List.range (max 1 (g.width / dxSeg f.stype))).map (todxBlock f g)).getD (l / dxSeg f.stype) ([], 0)).1.getD (l % dxSeg f.stype) 0) := by
    rw [getD_map_range, todxResult]
    split
    · simp [loLane]
    · rfl
  have hflags (l : Nat) : (todxResult f g l).2 =
      (((List.range (max 1 (g.width / dxSeg f.stype))).map (todxBlock f g)).getD (l / dxSeg f.stype) ([], 0)).2 := by
    rw [getD_map_range, todxResult]
    split <;> rfl
  rw [Group.putResults_single]
  simp only [Plan.solo, planCvtTodx, dxTake_atIssue, Group.atIssue_gid, Group.atIssue_width, hword, hflags]
  rfl

/-! ### cvt.fromdx (R203) -/

/-- The elements, with their blocks, that lie in lane `l` of the destination. -/
def dxElems (t : BitVec 4) (width l : Nat) : List (Nat × Nat) :=
  if dxPair t width then [(0, l), (0, 16 + l)]
  else if t == 9 then [(l / 32, l % 32)]
  else [(l / 16, 2 * (l % 16)), (l / 16, 2 * (l % 16) + 1)]

/-- The elements of a lane are those whose place is in it (R201). -/
theorem mem_dxElems {t : BitVec 4} {width l : Nat} (hw : width ∈ [16, 32, 64]) (hl : l < width) (b j : Nat) :
    (b, j) ∈ dxElems t width l ↔ b < max 1 (width / dxSeg t) ∧ j < 32 ∧ (dxPlace t width b j).1 = l := by
  have hw' : width = 16 ∨ width = 32 ∨ width = 64 := by simpa using hw
  by_cases ht : t = 9
  · subst ht
    by_cases hw16 : width = 16
    · subst hw16
      simp [dxElems, dxPair, dxPlace, dxSeg]
      omega
    · simp [dxElems, dxPair, dxPlace, dxSeg, hw16]
      omega
  · have hseg : dxSeg t = 16 := if_neg (by simpa using ht)
    have hnine : (t == 9) = false := by simpa using ht
    simp only [dxElems, dxPair, dxPlace, hseg, hnine, Bool.false_and, Bool.false_eq_true, if_false, List.mem_cons, Prod.mk.injEq,
      List.not_mem_nil, or_false]
    omega

/-- An element is found in its lane at its register of a pair, or at its element of the lane. -/
theorem dxElems_getElem? {t : BitVec 4} {width b j lane reg e : Nat} (hw : width ∈ [16, 32, 64]) (hb : b < max 1 (width / dxSeg t))
    (hj : j < 32) (hp : dxPlace t width b j = (lane, reg, e)) :
    (dxElems t width lane)[if dxPair t width then reg else e]? = some (b, j) := by
  have hw' : width = 16 ∨ width = 32 ∨ width = 64 := by simpa using hw
  unfold dxPlace at hp
  unfold dxElems
  split at hp
  case isTrue hpair =>
    obtain ⟨rfl, rfl, rfl⟩ := hp
    obtain ⟨ht, hw16⟩ : t = 9 ∧ width = 16 := by simpa [dxPair] using hpair
    subst ht hw16
    have hb0 : b = 0 := by simpa [dxSeg] using hb
    rcases Nat.lt_or_ge j 16 with hlow | hhigh
    · rw [if_pos hpair, if_pos hpair, Nat.div_eq_of_lt hlow, Nat.mod_eq_of_lt hlow, hb0]
      rfl
    · rw [if_pos hpair, if_pos hpair, show j / 16 = 1 by omega, show j % 16 = j - 16 by omega, hb0]
      simp [Nat.add_sub_cancel' hhigh]
  case isFalse hpair =>
    split at hp
    case isTrue ht =>
      obtain ⟨rfl, rfl, rfl⟩ := hp
      rw [if_neg hpair, if_neg hpair, if_pos ht, show (32 * b + j) / 32 = b by omega, show (32 * b + j) % 32 = j by omega]
      rfl
    case isFalse ht =>
      obtain ⟨rfl, rfl, rfl⟩ := hp
      rw [if_neg hpair, if_neg hpair, if_neg ht, show (16 * b + j / 2) / 16 = b by omega, show 2 * ((16 * b + j / 2) % 16) = j / 2 * 2 by omega]
      rcases Nat.mod_two_eq_zero_or_one j with hj2 | hj2
      · rw [hj2, show j / 2 * 2 = j by omega]
        rfl
      · rw [hj2, show j / 2 * 2 + 1 = j by omega]
        rfl

/-- The words of block `b` as `cvt.fromdx` reads them of a group: none beyond the group's blocks. -/
def fromdxWords (f : CV) (g : Group) (b : Nat) : List Nat :=
  if b < max 1 (g.width / dxSeg f.dtype) then dxWords f.dtype f.va.toNat ((f.aux.extractLsb' 0 4).toNat + 1) g b else []

/-- The value of an element of a block that `cvt.fromdx` reads, with its flags. -/
def fromdxValue (f : CV) (g : Group) (x : Nat × Nat) : Nat × FFlags :=
  fromDxElem f.dtype f.rnd.toNat f.sat ((f.aux.extractLsb' 4 4).toNat + 1) (fromdxWords f g x.1) x.2

/-- What `cvt.fromdx` gives lane `l`: the elements at its place, with their flags. -/
def fromdxResult (f : CV) (g : Group) (l : Nat) : Word × FFlags :=
  (joinElems (elemW f.dtype) ((dxElems f.dtype g.width l).map fun x => (fromdxValue f g x).1),
    orFlags ((dxElems f.dtype g.width l).map fun x => (fromdxValue f g x).2))

theorem dxWords_atIssue (t : BitVec 4) (name m : Nat) (g : Group) (s : State) (h : Hdr) (q : Plan) :
    dxWords t name m (g.atIssue s h q) = dxWords t name m g := by
  funext b
  simp only [dxWords, Group.atIssue_active, Group.atIssue_val]

theorem planCvtFromdx_writes {h : Hdr} {f : CV} {s : State} {g : Group} (hi : s.issuing = some g) :
    (planCvtFromdx h f s).solo.Writes s g h (dxPair f.dtype g.width) f.vd.toNat f.dtype (fromdxResult f g) := by
  have hwidth : issuingWidth s = g.width := by rw [issuingWidth, hi]; rfl
  have hresult (l : Nat) :
      let blocks := (List.range (max 1 (g.width / dxSeg f.dtype))).map (dxWords f.dtype f.va.toNat ((f.aux.extractLsb' 0 4).toNat + 1) g)
      let elem := fun b j => fromDxElem f.dtype f.rnd.toNat f.sat ((f.aux.extractLsb' 4 4).toNat + 1) (blocks.getD b []) j
      let es := if dxPair f.dtype g.width then [elem 0 l, elem 0 (16 + l)]
        else if f.dtype == 9 then [elem (l / dxSeg f.dtype) (l % 32)]
        else [elem (l / dxSeg f.dtype) (2 * (l % 16)), elem (l / dxSeg f.dtype) (2 * (l % 16) + 1)]
      es = (dxElems f.dtype g.width l).map (fromdxValue f g) := by
    simp only [getD_map_range]
    unfold dxElems
    split
    · rfl
    · split
      · next ht => rw [show dxSeg f.dtype = 32 from if_pos ht]; simp only [fromdxValue, fromdxWords, List.map, show dxSeg f.dtype = 32 from if_pos ht]
      · next ht => rw [show dxSeg f.dtype = 16 from if_neg ht]; simp only [fromdxValue, fromdxWords, List.map, show dxSeg f.dtype = 16 from if_neg ht]
  refine ⟨.cvtFromdx h f, dxLat g.width, ?_, ?_⟩
  · simp only [Plan.solo, planCvtFromdx, hwidth, resultPlan, lanePlan, List.flatMap_nil, List.nil_append]
  · simp only [Plan.solo, planCvtFromdx, hwidth, dxWords_atIssue, Group.atIssue_gid, Group.atIssue_width, List.map_map, Function.comp_def]
    simp only [hresult, List.map_map, Function.comp_def]
    rfl

/-- An element of a lane as the group holds it. -/
theorem fromdxValue_of_lt {f : CV} {g : Group} {b : Nat} (hb : b < max 1 (g.width / dxSeg f.dtype)) (j : Nat) :
    fromdxValue f g (b, j) = fromDxElem f.dtype f.rnd.toNat f.sat ((f.aux.extractLsb' 4 4).toNat + 1)
      (dxWords f.dtype f.va.toNat ((f.aux.extractLsb' 0 4).toNat + 1) g b) j := by
  rw [fromdxValue, fromdxWords, if_pos hb]

theorem elemW_mul_dxElems {t : BitVec 4} (ht : t = 9 ∨ t = 10 ∨ t = 11) (width l : Nat) : elemW t * (dxElems t width l).length ≤ 64 := by
  have hwidth : elemW t ≤ 32 := by rcases ht with rfl | rfl | rfl <;> decide
  have hcount : (dxElems t width l).length ≤ 2 := by
    unfold dxElems
    split
    · exact le_rfl
    · split <;> simp
  exact Nat.mul_le_mul hwidth hcount

/-- Every element is in its lane at its place. -/
theorem fromdxResult_elem {f : CV} {g : Group} {b j lane reg e : Nat} (hw : g.width ∈ [16, 32, 64])
    (ht : f.dtype = 9 ∨ f.dtype = 10 ∨ f.dtype = 11) (hb : b < max 1 (g.width / dxSeg f.dtype))
    (hp : dxPlace f.dtype g.width b j = (lane, reg, e)) (hj : j < 32) :
    elemNat (elemW f.dtype) (fromdxResult f g lane).1 (if dxPair f.dtype g.width then reg else e) =
      (fromdxValue f g (b, j)).1 % 2 ^ elemW f.dtype := by
  have hget := dxElems_getElem? hw hb hj hp
  obtain ⟨hlt, -⟩ := List.getElem?_eq_some_iff.1 hget
  rw [fromdxResult, elemNat_joinElems _ _ (by rw [List.length_map]; exact elemW_mul_dxElems ht ..) _ (by rw [List.length_map]; exact hlt),
    List.getD_eq_getElem?_getD, List.getElem?_map, hget]
  rfl

/-- The flags of a lane are those of the elements whose place is in it. -/
theorem fromdxResult_flags {f : CV} {g : Group} {lane : Nat} (hw : g.width ∈ [16, 32, 64]) (hl : lane < g.width) :
    (fromdxResult f g lane).2 =
      orFlags ((List.range (max 1 (g.width / dxSeg f.dtype))).flatMap fun b => (List.range 32).filterMap fun j =>
        if (dxPlace f.dtype g.width b j).1 = lane then
          some (fromDxElem f.dtype f.rnd.toNat f.sat ((f.aux.extractLsb' 4 4).toNat + 1)
            (dxWords f.dtype f.va.toNat ((f.aux.extractLsb' 0 4).toNat + 1) g b) j).2
        else none) := by
  refine orFlags_congr fun v => ?_
  simp only [List.mem_map, Prod.exists, mem_dxElems hw hl, List.mem_flatMap, List.mem_filterMap, List.mem_range, Option.ite_none_right_eq_some,
    Option.some.injEq]
  constructor
  · rintro ⟨b, j, ⟨hb, hj, hplace⟩, rfl⟩
    exact ⟨b, hb, j, hj, hplace, by rw [fromdxValue_of_lt hb]⟩
  · rintro ⟨b, hb, j, hj, hplace, rfl⟩
    exact ⟨b, j, ⟨hb, hj, hplace⟩, by rw [fromdxValue_of_lt hb]⟩

/-- Settles O6: both conversions are collective instructions that write `todxResult` and `fromdxResult` into the effective lanes. -/
theorem dxResults : Obligations.DxResults := by
  unfold Obligations.DxResults
  refine ⟨fun h f s g p hp hi hd => ?_, fun h f s g p hp hi hd hw ht => ?_⟩
  · rw [exec_of_planOf hp]
    cases hp
    exact runPlan_soloWrites (planCvtTodx_writes h f s g) hi hd
  · rw [exec_of_planOf hp]
    cases hp
    obtain ⟨t, g', hrun, hfound, honly, hwrote⟩ := runPlan_soloWrites (planCvtFromdx_writes hi.issuing) hi hd
    refine ⟨t, g', _, hrun, hfound, honly, hwrote, fun b j lane reg e hb hp hj _ _ => ?_, fun lane hl _ => fromdxResult_flags hw hl⟩
    rw [fromdxResult_elem hw ht hb hp hj, fromdxValue_of_lt hb]

end Sys2Proof.Machine
end

section
/-! PROOFS. Scratchpad where every check code is good (R369, R381). -/

namespace Sys2Proof.Machine

set_option Elab.async false

/-! ### Bytes and numbers (R2) -/

theorem bytesNat_lt (bs : List Byte) : bytesNat bs < 256 ^ bs.length := by
  induction bs with
  | nil => exact Nat.one_pos
  | cons b bs ih =>
    have := b.isLt
    rw [bytesNat, List.length_cons, Nat.pow_succ]
    omega

theorem natBytes_bytesNat (bs : List Byte) : natBytes bs.length (bytesNat bs) = bs := by
  induction bs with
  | nil => rfl
  | cons b bs ih =>
    have hlt := b.isLt
    have hdiv : (b.toNat + 256 * bytesNat bs) / 256 = bytesNat bs := by omega
    rw [bytesNat, List.length_cons, natBytes, hdiv, ih]
    congr 1
    apply BitVec.eq_of_toNat_eq
    rw [BitVec.toNat_ofNat]
    omega

/-- Eight bytes as a word and back. -/
theorem wordBytes_ofNat_bytesNat {bs : List Byte} (h : bs.length = 8) : wordBytes (BitVec.ofNat 64 (bytesNat bs)) = bs := by
  have hlt := bytesNat_lt bs
  rw [h] at hlt
  rw [wordBytes, BitVec.toNat_ofNat, Nat.mod_eq_of_lt (by norm_num at hlt ⊢; omega), ← h, natBytes_bytesNat]

@[simp] theorem Memory.bytes_length (m : List Host.Cell) (a n : Nat) : (Memory.bytes m a n).length = n := by
  rw [Memory.bytes, List.length_map, List.length_range]

theorem Memory.bytes_add (m : List Host.Cell) (a n k : Nat) : Memory.bytes m a (n + k) = Memory.bytes m a n ++ Memory.bytes m (a + n) k := by
  simp only [Memory.bytes, List.range_add, List.map_append, List.map_map, Function.comp_def, Nat.add_assoc]

theorem Memory.bytes_take (m : List Host.Cell) (a : Nat) {n k : Nat} (h : n ≤ k) : (Memory.bytes m a k).take n = Memory.bytes m a n := by
  obtain ⟨d, rfl⟩ := Nat.exists_eq_add_of_le h
  rw [Memory.bytes_add, List.take_left' (Memory.bytes_length ..)]

theorem Memory.bytes_drop (m : List Host.Cell) (a n k : Nat) : (Memory.bytes m a (n + k)).drop n = Memory.bytes m (a + n) k := by
  rw [Memory.bytes_add, List.drop_left' (Memory.bytes_length ..)]

theorem Memory.bytes_congr {m m' : List Host.Cell} {a n : Nat} (h : ∀ x, a ≤ x → x < a + n → Memory.get m' x = Memory.get m x) :
    Memory.bytes m' a n = Memory.bytes m a n :=
  List.map_congr_left fun _ hi => h _ (Nat.le_add_right ..) (Nat.add_lt_add_left (List.mem_range.1 hi) a)

/-- Bytes within those of a write. -/
theorem Memory.bytes_putBytes_within {m : List Host.Cell} (hw : Memory.wf m) (a : Nat) (bs : List Byte) {i n : Nat} (h : i + n ≤ bs.length) :
    Memory.bytes (Memory.putBytes m a bs) (a + i) n = (bs.drop i).take n := by
  apply List.ext_getElem
  · simp only [Memory.bytes_length, List.length_take, List.length_drop]
    omega
  · intro k hk _
    have hkn : k < n := by simpa using hk
    have hbyte := Memory.get_putBytes hw a (a + i + k) bs
    rw [if_pos (by omega), show a + i + k - a = i + k by omega] at hbyte
    simp [Memory.bytes, hbyte, show i + k < bs.length by omega]

/-- Bytes apart from those of a write. -/
theorem Memory.bytes_putBytes_apart (m : List Host.Cell) {a b n : Nat} {bs : List Byte} (h : b + n ≤ a ∨ a + bs.length ≤ b) :
    Memory.bytes (Memory.putBytes m a bs) b n = Memory.bytes m b n :=
  Memory.bytes_congr fun x h1 h2 => Memory.get_putBytes_out m a x bs (by omega)

/-- The pieces of `n` bytes at an address. -/
theorem Memory.flatMap_bytes (m : List Host.Cell) (a n count : Nat) :
    ((List.range count).flatMap fun k => Memory.bytes m (a + n * k) n) = Memory.bytes m a (n * count) := by
  induction count with
  | zero => rfl
  | succ count ih => rw [List.range_succ, List.flatMap_append, ih, List.flatMap_singleton, Nat.mul_succ, Memory.bytes_add]

/-! ### Reads -/

section
variable {t : Team} (ht : t.spSyn = [])
include ht

theorem spSyndrome_good (w : Nat) : spSyndrome t w = .good := by
  simp [spSyndrome, synOf, ht, classify]

theorem spBytes_eq (a n : Nat) : spBytes t a n = Memory.bytes t.sp a n := by
  simp [spBytes, spByte, Memory.bytes, spSyndrome_good ht]

theorem spBad_eq_false (a n : Nat) : spBad t a n = false := by
  simp [spBad, spSyndrome_good ht]

theorem spWord_eq (a : Nat) : spWord t a = BitVec.ofNat 64 (bytesNat (Memory.bytes t.sp a 8)) := by
  rw [spWord, spBytes_eq ht]

theorem spUnitWord_eq (s : State) (a : Nat) : spUnitWord s t a = BitVec.ofNat 64 (bytesNat (Memory.bytes t.sp a 8)) := by
  rw [spUnitWord, spBad_eq_false ht, if_neg Bool.false_ne_true, spWord_eq ht]

theorem wordBytes_spUnitWord (s : State) (a : Nat) : wordBytes (spUnitWord s t a) = Memory.bytes t.sp a 8 := by
  rw [spUnitWord_eq ht, wordBytes_ofNat_bytesNat (Memory.bytes_length ..)]

theorem spBadWords_eq_nil (a n : Nat) : spBadWords t a n = [] := by
  simp [spBadWords, spSyndrome_good ht]

variable {s : State} {tid : Nat} (hteam : s.team? tid = some t)
include hteam

/-- Reading leaves the machine as it is. -/
theorem spReadWords_good (ws : List Nat) : spReadWords tid ws s = s := by
  simp [spReadWords, hteam, ht]

theorem spRead_good (a n : Nat) : spRead tid a n s = s := spReadWords_good ht hteam _

end

end Sys2Proof.Machine
end

section
/-! PROOFS. Steps that change only device memory and what is cached of it (R66, R231), with what translations read of them (R228, R230). -/

namespace Sys2Proof.Machine

set_option Elab.async false

/-! ### Bytes and words after a write -/

/-- A word of memory of which no byte has changed. -/
theorem memWord_congr {s t : State} {a : Nat} (h : ∀ x, a ≤ x → x < a + 8 → Memory.get t.mem x = Memory.get s.mem x) :
    memWord t a = memWord s a := by
  rw [memWord, Memory.bytes_congr h, memWord]

/-- The bytes that a write has left within its place. -/
theorem WroteBytes.bytes_within {s u : State} {a : Nat} {bs : List Byte} (h : WroteBytes s u a bs) {i n : Nat} (hin : i + n ≤ bs.length) :
    Memory.bytes u.mem (a + i) n = (bs.drop i).take n := by
  apply List.ext_getElem
  · simp only [Memory.bytes, List.length_map, List.length_range, List.length_take, List.length_drop]
    omega
  · intro k hk _
    have hkn : k < n := by simpa [Memory.bytes] using hk
    have hbyte := h (a + i + k)
    rw [if_pos (by omega), show a + i + k - a = i + k by omega] at hbyte
    simp [Memory.bytes, hbyte, show i + k < bs.length by omega]

/-- The bytes that a write has left. -/
theorem WroteBytes.bytes_written {s u : State} {a : Nat} {bs : List Byte} (h : WroteBytes s u a bs) {n : Nat} (hn : n = bs.length) :
    Memory.bytes u.mem a n = bs := by
  have := h.bytes_within (i := 0) (n := n) (by omega)
  rwa [Nat.add_zero, List.drop_zero, List.take_of_length_le (by omega)] at this

/-- A byte outside a write. -/
theorem WroteBytes.get_apart {s u : State} {a : Nat} {bs : List Byte} (h : WroteBytes s u a bs) {x : Nat} (hx : x < a ∨ a + bs.length ≤ x) :
    Memory.get u.mem x = Memory.get s.mem x := by
  rw [h x, if_neg (by omega)]

theorem structWords_eq {s : State} (hs : s.syn = []) (pa n : Nat) : structWords s pa n = memWords s pa n := by
  simp only [structWords, memWords, unitWord_eq hs]

/-! ### Steps that change only memory and caches -/

/-- `t` is `s` but for device memory and the caches of it, from which translations may only have gone. -/
structure MemOnly (s t : State) : Prop where
  rest : t = { s with mem := t.mem, tlb := t.tlb, ilines := t.ilines, presT := t.presT, presC := t.presC }
  tlb : t.tlb.Sublist s.tlb
  inv : t.Inv

namespace MemOnly

variable {s t u : State}

theorem trans (h : MemOnly s t) (h' : MemOnly t u) : MemOnly s u := by
  obtain ⟨hrest, htlb, -⟩ := h
  obtain ⟨hrest', htlb', hinv⟩ := h'
  exact ⟨by rw [hrest', hrest], htlb'.trans htlb, hinv⟩

theorem refl (hw : s.Inv) : MemOnly s s := ⟨rfl, .refl _, hw⟩

theorem syn (h : MemOnly s t) : t.syn = s.syn := by rw [h.rest]
theorem parts (h : MemOnly s t) : t.parts = s.parts := by rw [h.rest]
theorem groups (h : MemOnly s t) : t.groups = s.groups := by rw [h.rest]
theorem reqs (h : MemOnly s t) : t.reqs = s.reqs := by rw [h.rest]
theorem fabs (h : MemOnly s t) : t.fabs = s.fabs := by rw [h.rest]
theorem outbox (h : MemOnly s t) : t.outbox = s.outbox := by rw [h.rest]

theorem noWaiter (h : MemOnly s t) {a n : Nat} (hn : NoWaiter s a n) : NoWaiter t a n := by
  rw [h.rest]
  exact hn

theorem rewrote (h : MemOnly s t) (hs : s.syn = []) {places : List (Nat × Nat)}
    (hb : ∀ x, (∀ p, p ∈ places → x < p.1 ∨ p.1 + p.2 ≤ x) → Memory.get t.mem x = Memory.get s.mem x) : Rewrote s t places :=
  ⟨h.parts, h.syn.trans hs, h.tlb, hb⟩

end MemOnly

theorem markTables_memOnly {s : State} (hw : s.Inv) (die : Nat) (ws : List Nat) : MemOnly s (markTables die ws s) := ⟨rfl, .refl _, hw⟩

theorem markTables_rewrote {s : State} (hs : s.syn = []) (die : Nat) (ws : List Nat) (places : List (Nat × Nat)) :
    Rewrote s (markTables die ws s) places := ⟨rfl, hs, .refl _, fun _ _ => rfl⟩

theorem afterWrite_tlb (a n : Nat) (s : State) : (afterWrite a n s).tlb.Sublist s.tlb := by
  have hcode (u : State) : (if u.presC.isEmpty then u else dropCode (linesOf 128 a n) u).tlb = u.tlb := by split <;> rfl
  simp only [afterWrite, wakeDevWaits_eq, hcode]
  split
  · exact .refl _
  · exact List.filter_sublist

/-- A write where every byte may be written and nothing waits changes only memory and caches. -/
theorem agentWrite_memOnly {s : State} (hs : s.syn = []) (hw : s.Inv) {a : Nat} {bs : List Byte} (hn : NoWaiter s a bs.length) :
    MemOnly s ((agentWrite a bs).run s) ∧ WroteBytes s ((agentWrite a bs).run s) a bs := by
  obtain ⟨hbytes, hrest⟩ := agentWrite_only hs hw hn
  refine ⟨⟨hrest, ?_, Prog.run_wf _ s hw⟩, hbytes⟩
  rw [agentWrite_run hs hn.1 hn.2.1]
  exact afterWrite_tlb a bs.length { s with mem := Memory.putBytes s.mem a bs }

/-! ### Marks on table lines change no translation (R231) -/

section
variable (s : State) (die : Nat) (ws : List Nat)

theorem walkFrom_markTables (d part va : Nat) (need : Need) (level table : Nat) (lines : List Nat) :
    walkFrom (markTables die ws s) d part va need level table lines = walkFrom s d part va need level table lines := by
  induction level generalizing table lines with
  | zero => rfl
  | succ level ih => simp only [walkFrom, ih]; rfl

theorem walkReads_markTables (va : Nat) (need : Need) (level table : Nat) :
    walkReads (markTables die ws s) va need level table = walkReads s va need level table := by
  induction level generalizing table with
  | zero => rfl
  | succ level ih => simp only [walkReads, ih]; rfl

theorem translate_markTables (d : Nat) (core : Option Nat) (part : Nat) (va : Word) (need : Need) :
    translate (markTables die ws s) d core part va need = translate s d core part va need := by
  simp only [translate, walk, walkFrom_markTables]
  rfl

theorem transReads_markTables (d : Nat) (core : Option Nat) (part : Nat) (va : Word) (need : Need) :
    transReads (markTables die ws s) d core part va need = transReads s d core part va need := by
  simp only [transReads, walkReads_markTables]
  rfl

theorem vaSpans_markTables (p : Nat) (need : Need) (k : Nat) (va : Word) (n : Nat) :
    vaSpans (markTables die ws s) p need k va n = vaSpans s p need k va n := by
  induction k generalizing va n with
  | zero => rfl
  | succ k ih => simp only [vaSpans, translate_markTables, ih]

theorem fabAwake_markTables (p : Nat) (h : FRec) (delivers : Bool) : fabAwake (markTables die ws s) p h delivers = fabAwake s p h delivers := by
  simp only [fabAwake, deliverAwake, deliverTables, vaReads, peerReads, vaSpans_markTables, translate_markTables, transReads_markTables]
  rfl

theorem peerReads_markTables (p : Nat) (h : FRec) : peerReads (markTables die ws s) p h = peerReads s p h := by
  simp only [peerReads, translate_markTables, transReads_markTables]

end

/-- What reading for a unit leaves where every check code is good: the lines of the table words are marked (R231). -/
theorem readProg_run {s : State} (hs : s.syn = []) (rd : List Nat × List Nat) (u : State) :
    (readProg s rd).run u = markTables 0 rd.1 u := by
  rw [readProg, Prog.run_all_cons, Prog.run_all_cons, Prog.run_all_nil, touchWords_run hs, Prog.run_done]
  unfold readTables
  rw [touchWords_run hs]
  cases rd.1 <;> rfl

end Sys2Proof.Machine
end

section
/-! PROOFS. Collectives at their switch (R185, R389 to R393); O56. -/

namespace Sys2Proof.Machine

set_option Elab.async false

/-! ### The record (R387) -/

/-- A record of which only the counts of arrivals have been written. -/
theorem fRec_of_arrivals {s u : State} (hs : s.syn = []) (hu : u.syn = []) {pa : Nat}
    (hkept : ∀ k, k < 5 → memWord u (pa + 8 * k) = memWord s (pa + 8 * k)) :
    FRec.of (structWords u pa 8) =
      { FRec.of (structWords s pa 8) with arrived := memWord u (pa + 40), carrived := memWord u (pa + 48) } := by
  have hw (k : Nat) (hk : k < 5) : (structWords u pa 8).getD k 0 = (structWords s pa 8).getD k 0 := by
    rw [structWords_getD _ _ (by omega), structWords_getD _ _ (by omega), unitWord_eq hs, unitWord_eq hu, hkept k hk]
  simp only [FRec.of, hw 0 (by decide), hw 1 (by decide), hw 2 (by decide), hw 3 (by decide), hw 4 (by decide)]
  rw [structWords_getD u pa (by decide : 5 < 8), structWords_getD u pa (by decide : 6 < 8), unitWord_eq hu, unitWord_eq hu]

/-- A record of which no word that has a field has been written. -/
theorem fRec_of_kept {s u : State} (hs : s.syn = []) (hu : u.syn = []) {pa : Nat}
    (hkept : ∀ k, k < 7 → memWord u (pa + 8 * k) = memWord s (pa + 8 * k)) : FRec.of (structWords u pa 8) = FRec.of (structWords s pa 8) := by
  have hw (k : Nat) (hk : k < 7) : (structWords u pa 8).getD k 0 = (structWords s pa 8).getD k 0 := by
    rw [structWords_getD _ _ (by omega), structWords_getD _ _ (by omega), unitWord_eq hs, unitWord_eq hu, hkept k hk]
  simp only [FRec.of, hw 0 (by decide), hw 1 (by decide), hw 2 (by decide), hw 3 (by decide), hw 4 (by decide), hw 5 (by decide),
    hw 6 (by decide)]

/-- A change of memory at the record alone leaves what it leads to as it lies. -/
theorem FabLaid.of_rewrote {s u : State} {p pa ra da : Nat} {h : FRec} {peers : Nat → Word × Word} (hl : FabLaid s p pa h ra da peers)
    (hr : Rewrote s u [(pa, 64)]) (hn : ∀ a n, NoWaiter s a n → NoWaiter u a n) : FabLaid u p pa h ra da peers := by
  obtain ⟨⟨hrp, hdp, hrd⟩, ⟨hfp, hfr, hfd⟩, hroom, hsteady⟩ := hl
  have hda : memWord u da = memWord s da := memWord_congr fun x h1 h2 => hr.bytes x fun q hq => by
    rw [List.mem_singleton.1 hq]
    unfold Apart at hdp
    omega
  refine ⟨⟨hrp, hdp, hrd⟩, ⟨hn _ _ hfp, hn _ _ hfr, hn _ _ hfd⟩, by rwa [hda], fun v hv => hsteady v ?_⟩
  refine ⟨hv.parts.trans hr.parts, hv.syn, hv.tlb.trans hr.tlb, fun x hx => ?_⟩
  rw [hv.bytes x hx, hr.bytes x fun q hq => hx q (by rw [List.mem_singleton.1 hq]; exact List.mem_cons_self)]

/-- Where the peers of a record lie. -/
theorem FabLaid.peer {s : State} {p pa ra da : Nat} {h : FRec} {peers : Nat → Word × Word} (hl : FabLaid s p pa h ra da peers)
    (hs : s.syn = []) {k : Nat} (hk : k ∈ h.peerNumbers) : peerEntry s p h k = some (peers k) :=
  (hl.steady s ⟨rfl, hs, .refl _, fun _ _ => rfl⟩).2.2 k hk

theorem FRec.child_mem_peerNumbers {h : FRec} {k : Nat} (hk : k < h.children) : k ∈ h.peerNumbers :=
  List.mem_append_left _ (List.mem_range.2 hk)

theorem FRec.parent_mem_peerNumbers {h : FRec} (hp : h.parent < 63) : h.parent ∈ h.peerNumbers :=
  List.mem_append_right _ (by rw [if_pos hp]; exact List.mem_singleton_self _)

theorem fRec_of_parent_lt (ws : List Word) : (FRec.of ws).parent < 64 := BitVec.isLt _

/-! ### Delivery (R390) -/

/-- The bytes that a delivery writes: the result, the record at the next round with nothing arrived, and the done counter. -/
structure DeliveredBytes (s t : State) (pa : Nat) (h : FRec) (ra da : Nat) (bs : List Byte) : Prop where
  result : Memory.bytes t.mem ra (h.elems * h.size) = bs
  record : memWord t (pa + 24) = h.round + 1 ∧ memWord t (pa + 40) = 0 ∧ memWord t (pa + 48) = 0
  done : memWord t da = memWord s da + 1
  rest : ∀ x, (x < ra ∨ ra + h.elems * h.size ≤ x) → (x < da ∨ da + 8 ≤ x) → (x < pa + 24 ∨ (pa + 32 ≤ x ∧ x < pa + 40) ∨ pa + 56 ≤ x) →
    Memory.get t.mem x = Memory.get s.mem x

/-- The writes of a delivery. -/
def deliveryWrites (p pa ra da : Nat) (h : FRec) (bs : List Byte) : Prog :=
  .all [
    writeSpans [(ra, bs.length)] bs,
    writeWords (pa + 24) [h.round + 1],
    writeWords (pa + 40) [0, 0],
    counterAddDev p da h.doneVa 1 none (logEntry p ⟨.uncorr, 7, 0, 0, BitVec.ofNat 64 da, 0, 0⟩)]

/-- One added to a counter that is below its greatest value (R276). -/
theorem counterAddDev_one {s : State} (hs : s.syn = []) {p a : Nat} {va : Word} {log : Prog} (hroom : (memWord s a).toNat + 1 < 2 ^ 64) :
    (counterAddDev p a va 1 none log).run s = (agentWrite a (wordBytes (memWord s a + 1))).run s := by
  have hsum : counterSum (memWord s a) 1 = (memWord s a + 1, false) := by
    rw [counterSum, if_neg]
    show ¬2 ^ 64 ≤ (memWord s a).toNat + 1
    omega
  rw [counterAddDev, Prog.run_dyn, devBad_eq_false hs, if_neg Bool.false_ne_true]
  dsimp only
  rw [devWord_eq hs, hsum, Prog.run_all_cons, Prog.run_all_cons, Prog.run_all_cons, Prog.run_all_nil, devReadEffect, readWords_run hs]
  rfl

theorem wordsBytes_length (ws : List Word) : (wordsBytes ws).length = 8 * ws.length := by
  simp [wordsBytes, List.length_flatMap, Nat.mul_comm]

theorem wordsBytes_zeros : wordsBytes [0, 0] = List.replicate 16 0 := by decide

/-- Words written where nothing waits change only memory and caches. -/
theorem writeWords_memOnly {s : State} (hs : s.syn = []) (hw : s.Inv) {a : Nat} (ws : List Word) (hn : NoWaiter s a (8 * ws.length)) :
    MemOnly s ((writeWords a ws).run s) ∧ WroteBytes s ((writeWords a ws).run s) a (wordsBytes ws) :=
  agentWrite_memOnly hs hw (by rwa [wordsBytes_length])

/-- The writes of a delivery where what the record leads to lies apart and nothing waits. -/
theorem deliveryWrites_run {s : State} (hs : s.syn = []) (hw : s.Inv) {p pa ra da : Nat} {h : FRec} {peers : Nat → Word × Word}
    (hl : FabLaid s p pa h ra da peers) {bs : List Byte} (hb : bs.length = h.elems * h.size) :
    MemOnly s ((deliveryWrites p pa ra da h bs).run s) ∧ DeliveredBytes s ((deliveryWrites p pa ra da h bs).run s) pa h ra da bs := by
  obtain ⟨⟨hrp, hdp, hrd⟩, ⟨hfp, hfr, hfd⟩, hroom, -⟩ := hl
  unfold Apart at hrp hdp hrd
  rw [deliveryWrites, Prog.run_all_cons, Prog.run_all_cons, Prog.run_all_cons, Prog.run_all_cons, Prog.run_all_nil, writeSpans, writeSpans,
    Prog.run_all_cons, Prog.run_all_cons, Prog.run_all_nil, Prog.run_done, List.take_of_length_le (by omega)]
  obtain ⟨m1, b1⟩ := agentWrite_memOnly hs hw (a := ra) (bs := bs) (by rwa [hb])
  generalize (agentWrite ra bs).run s = s1 at m1 b1 ⊢
  have hs1 := m1.syn.trans hs
  obtain ⟨m2, b2⟩ := writeWords_memOnly hs1 m1.inv (a := pa + 24) [h.round + 1] ((m1.noWaiter hfp).sub (by omega) (by simp))
  generalize (writeWords (pa + 24) [h.round + 1]).run s1 = s2 at m2 b2 ⊢
  have m12 := m1.trans m2
  have hs2 := m12.syn.trans hs
  obtain ⟨m3, b3⟩ := writeWords_memOnly hs2 m2.inv (a := pa + 40) [0, 0] ((m12.noWaiter hfp).sub (by omega) (by simp))
  generalize (writeWords (pa + 40) [0, 0]).run s2 = s3 at m3 b3 ⊢
  have m13 := m12.trans m3
  have hs3 := m13.syn.trans hs
  have l2 : (wordsBytes [h.round + 1]).length = 8 := wordsBytes_length _
  have l3 : (wordsBytes [0, 0]).length = 16 := by rw [wordsBytes_zeros, List.length_replicate]
  have hda : memWord s3 da = memWord s da := memWord_congr fun x h1 h2 => by
    rw [b3.get_apart (by omega), b2.get_apart (by omega), b1.get_apart (by omega)]
  rw [counterAddDev_one hs3 (by rwa [hda]), hda]
  obtain ⟨m4, b4⟩ := agentWrite_memOnly hs3 m3.inv (a := da) (bs := wordBytes (memWord s da + 1))
    (by rw [wordBytes_length]; exact m13.noWaiter hfd)
  generalize (agentWrite da (wordBytes (memWord s da + 1))).run s3 = s4 at m4 b4 ⊢
  have l4 : (wordBytes (memWord s da + 1)).length = 8 := wordBytes_length _
  have hword (x k : Nat) (hx : pa + 40 ≤ x) (hk : x = pa + 40 + 8 * k) (hlt : k < 2) : memWord s4 x = 0 := by
    have hzero : Memory.bytes s4.mem x 8 = List.replicate 8 0 := by
      have := b3.bytes_within (i := 8 * k) (n := 8) (by omega)
      rw [← hk, wordsBytes_zeros, List.drop_replicate, List.take_replicate, show min 8 (16 - 8 * k) = 8 by omega] at this
      rw [← this]
      exact Memory.bytes_congr fun y h1 h2 => b4.get_apart (by omega)
    rw [memWord, hzero]
    rfl
  refine ⟨m13.trans m4, ?_, ⟨?_, hword _ 0 (by omega) (by omega) (by decide), hword _ 1 (by omega) (by omega) (by decide)⟩, b4.memWord_written, ?_⟩
  · rw [← b1.bytes_written hb.symm]
    exact Memory.bytes_congr fun x h1 h2 => by rw [b4.get_apart (by omega), b3.get_apart (by omega), b2.get_apart (by omega)]
  · have hround : memWord s2 (pa + 24) = h.round + 1 := by
      rw [wordsBytes, List.flatMap_singleton] at b2
      exact b2.memWord_written
    rw [← hround]
    exact memWord_congr fun x h1 h2 => by rw [b4.get_apart (by omega), b3.get_apart (by omega)]
  · intro x hxr hxd hxp
    rw [b4.get_apart (by omega), b3.get_apart (by omega), b2.get_apart (by omega), b1.get_apart (by omega)]

/-- The end of a delivery: what the peer table says of the children is read only now. -/
def fabFinish (p pa : Nat) (h : FRec) (bs : List Byte) (s : State) : State :=
  { s with
    outbox := s.outbox ++ (List.range h.children).filterMap fun k => (peerEntry s p h k).map fun e => HostMsg.resultOut e.1 p e.2 h.round bs
    fabs := s.fabs.filter fun c => !c.of p pa
    reqs := s.reqs.filter fun r => !contributedTo p pa r }

theorem fabFinish_run (p pa : Nat) (h : FRec) (bs : List Byte) (s : State) :
    (Prog.change (fabFinish p pa h bs)).run s = fabFinish p pa h bs s := Prog.run_change _ s rfl rfl

/-- The machine after the end of a delivery: the children are told, the context is free and the round's contributions are performed. -/
def fabEnd (p pa : Nat) (h : FRec) (peers : Nat → Word × Word) (bs : List Byte) (s : State) : State :=
  { s with
    outbox := s.outbox ++ (List.range h.children).map fun k => .resultOut (peers k).1 p (peers k).2 h.round bs
    fabs := s.fabs.filter fun c => !c.of p pa
    reqs := s.reqs.filter fun r => !contributedTo p pa r }

theorem Prog.run_all_snoc (ps : List Prog) (k : Prog) (s : State) : (Prog.all (ps ++ [k])).run s = k.run ((Prog.all ps).run s) := by
  induction ps generalizing s with
  | nil => rw [List.nil_append, run_all_cons, run_all_nil, run_all_nil]
  | cons p ps ih => rw [List.cons_append, run_all_cons, run_all_cons, ih]

/-- A delivery marks the lines of its table words, writes, and finishes. -/
theorem fabDeliver_parts {s : State} (hs : s.syn = []) {p pa ra da : Nat} {h : FRec} (hh : FRec.of (structWords s pa 8) = h) (recVa : Nat)
    {bs : List Byte} (hspans : vaSpans s p needW 3 h.result bs.length = .ok [(ra, bs.length)]) {e : TlbEntry}
    (hdone : translate s 0 none p h.doneVa needRW = .ok da e) :
    (fabDeliver p recVa pa bs).run s =
      fabFinish p pa h bs ((deliveryWrites p pa ra da h bs).run (markTables 0 (deliverTables s p h) s)) := by
  rw [fabDeliver, Prog.run_dyn]
  dsimp only
  rw [hh, hspans, hdone]
  dsimp only
  rw [Prog.run_all_cons, readTables_run hs]
  exact (Prog.run_all_snoc [_, _, _, _] (.change (fabFinish p pa h bs)) _).trans (fabFinish_run p pa h bs _)

theorem fabDeliver_eq {s : State} (hs : s.syn = []) (hw : s.Inv) {p pa ra da : Nat} {h : FRec} {peers : Nat → Word × Word}
    (hl : FabLaid s p pa h ra da peers) (hh : FRec.of (structWords s pa 8) = h) (recVa : Nat) {bs : List Byte}
    (hb : bs.length = h.elems * h.size) :
    (fabDeliver p recVa pa bs).run s =
      fabEnd p pa h peers bs ((deliveryWrites p pa ra da h bs).run (markTables 0 (deliverTables s p h) s)) := by
  obtain ⟨hspans, ⟨e, hdone⟩, -⟩ := hl.steady s ⟨rfl, hs, .refl _, fun _ _ => rfl⟩
  rw [fabDeliver_parts hs hh recVa (by rw [hb]; exact hspans) hdone]
  have hm := markTables_memOnly hw 0 (deliverTables s p h)
  obtain ⟨hmem, hbytes⟩ := deliveryWrites_run (s := markTables 0 (deliverTables s p h) s) (hm.syn.trans hs) hm.inv (p := p)
    (hl.of_rewrote (markTables_rewrote hs ..) fun _ _ => hm.noWaiter) hb
  have hkept := (hm.trans hmem).rewrote hs (places := [(pa, 64), (ra, h.elems * h.size), (da, 8)]) fun x hx => by
    simp only [List.forall_mem_cons] at hx
    obtain ⟨hxp, hxr, hxd, -⟩ := hx
    exact hbytes.rest x hxr hxd (by omega)
  generalize (deliveryWrites p pa ra da h bs).run (markTables 0 (deliverTables s p h) s) = u at hkept ⊢
  have houts : (List.range h.children).filterMap (fun k => (peerEntry u p h k).map fun e => HostMsg.resultOut e.1 p e.2 h.round bs) =
      (List.range h.children).map fun k => .resultOut (peers k).1 p (peers k).2 h.round bs := by
    rw [← List.filterMap_eq_map]
    refine List.filterMap_congr fun k hk => ?_
    rw [(hl.steady u hkept).2.2 k (FRec.child_mem_peerNumbers (List.mem_range.1 hk))]
    rfl
  rw [fabFinish, houts, fabEnd]

theorem FabCtx.of_iff {p pa : Nat} {c : FabCtx} : c.of p pa = true ↔ c.part = p ∧ c.pa = pa := by
  simp [FabCtx.of]

/-- A round of a record that lies apart is delivered. -/
theorem fabDeliver_delivers {s : State} (hs : s.syn = []) (hw : s.Inv) {p pa ra da : Nat} {h : FRec} {peers : Nat → Word × Word}
    (hl : FabLaid s p pa h ra da peers) (hh : FRec.of (structWords s pa 8) = h) (recVa : Nat) {bs : List Byte}
    (hb : bs.length = h.elems * h.size) :
    ((fabDeliver p recVa pa bs).run s).groups = s.groups ∧ Delivered s ((fabDeliver p recVa pa bs).run s) p pa h ra da peers bs 0 none := by
  have hm := markTables_memOnly hw 0 (deliverTables s p h)
  obtain ⟨hmem, hbytes⟩ := deliveryWrites_run (s := markTables 0 (deliverTables s p h) s) (hm.syn.trans hs) hm.inv (p := p)
    (hl.of_rewrote (markTables_rewrote hs ..) fun _ _ => hm.noWaiter) hb
  rw [fabDeliver_eq hs hw hl hh recVa hb]
  generalize (deliveryWrites p pa ra da h bs).run (markTables 0 (deliverTables s p h) s) = u at hmem hbytes ⊢
  obtain ⟨hresult, ⟨hround, harrived, hcarrived⟩, hdone, hrest⟩ := hbytes
  obtain ⟨⟨hrp, hdp, -⟩, -, -, -⟩ := hl
  unfold Apart at hrp hdp
  have hw7 : memWord u (pa + 56) = memWord s (pa + 56) := memWord_congr fun x h1 h2 => hrest x (by omega) (by omega) (by omega)
  refine ⟨hmem.groups, hresult, ⟨hround, harrived, hcarrived, hw7.trans (BitVec.or_zero).symm⟩, hdone, fun x h1 h2 h3 => hrest x h1 h2 (by omega),
    congrArg (· ++ _) hmem.outbox, fun c => ?_, fun q => ?_⟩
  · simp only [fabEnd, List.mem_filter, hmem.fabs, Bool.not_eq_true', ← Bool.not_eq_true, FabCtx.of_iff]
    rfl
  · simp only [fabEnd, List.mem_filter, hmem.reqs, Bool.not_eq_true']
    simp [markTables]

/-! ### Contributions and partials are merged (R390) -/

/-- The sums of a record after new ones have come. -/
def fabSums (s : State) (p pa : Nat) (es : List FabElem) : List FabElem :=
  match s.fabs.find? fun c => c.part == p && c.pa == pa with
  | some c => (c.elems.zip es).map fun x => x.1.merge x.2
  | none => es

/-- The contexts after new sums have been merged into the record's, or have opened it. -/
def fabMerged (s : State) (p pa : Nat) (h : FRec) (die : Option Nat) (es : List FabElem) : List FabCtx :=
  if s.fabs.any fun c => c.part == p && c.pa == pa then
    s.fabs.map fun c => if c.part == p && c.pa == pa then
      { c with dies := (c.dies ++ die.toList).eraseDups, elems := (c.elems.zip es).map fun x => x.1.merge x.2 } else c
  else s.fabs ++ [⟨p, pa, h.round, die.toList, es, false⟩]

theorem fabMerge_eq (p pa : Nat) (die : Option Nat) (h : FRec) (es : List FabElem) (s : State) :
    fabMerge p pa die h es s = { s with fabs := fabMerged s p pa h die es } := by
  by_cases hopen : s.fabs.any (FabCtx.of p pa) = true
  · rw [fabMerge, fabMerged, if_pos hopen]
    exact congrArg (fun fs => { s with fabs := fs }) (if_pos hopen).symm
  · rw [fabMerge, fabMerged, if_neg hopen]
    exact congrArg (fun fs => { s with fabs := fs }) (if_neg hopen).symm

/-- The context of the record after a merge holds the sums. -/
theorem find?_fabMerged (s : State) (p pa : Nat) (h : FRec) (die : Option Nat) (es : List FabElem) :
    ∃ c, (fabMerged s p pa h die es).find? (FabCtx.of p pa) = some c ∧ c.elems = fabSums s p pa es := by
  unfold fabMerged fabSums
  cases hfind : s.fabs.find? fun c => c.part == p && c.pa == pa with
  | none =>
    have hnone : (s.fabs.any fun c => c.part == p && c.pa == pa) = false := by
      rw [List.any_eq_false]
      exact List.find?_eq_none.1 hfind
    rw [hnone, if_neg Bool.false_ne_true]
    refine ⟨⟨p, pa, h.round, die.toList, es, false⟩, ?_, rfl⟩
    rw [List.find?_append, show s.fabs.find? (FabCtx.of p pa) = none from hfind]
    simp [FabCtx.of]
  | some c =>
    have hmine : (c.part == p && c.pa == pa) = true := List.find?_some (p := fun c : FabCtx => c.part == p && c.pa == pa) hfind
    rw [if_pos (List.any_eq_true.2 ⟨c, List.mem_of_find?_eq_some hfind, hmine⟩)]
    refine ⟨{ c with dies := (c.dies ++ die.toList).eraseDups, elems := (c.elems.zip es).map fun x => x.1.merge x.2 }, ?_, rfl⟩
    rw [List.find?_map]
    have hkeep : (FabCtx.of p pa ∘ fun c : FabCtx => if c.part == p && c.pa == pa then
        { c with dies := (c.dies ++ die.toList).eraseDups, elems := (c.elems.zip es).map fun x => x.1.merge x.2 } else c) =
        fun c => c.part == p && c.pa == pa := by
      funext x
      simp only [Function.comp_apply, FabCtx.of]
      split <;> rfl
    rw [hkeep, hfind, Option.map_some, if_pos hmine]

/-- A merge changes the record's context alone. -/
theorem mem_fabMerged_other {s : State} {p pa : Nat} {h : FRec} {die : Option Nat} {es : List FabElem} (c : FabCtx) :
    (c ∈ fabMerged s p pa h die es ∧ ¬(c.part = p ∧ c.pa = pa)) ↔ c ∈ s.fabs ∧ ¬(c.part = p ∧ c.pa = pa) := by
  unfold fabMerged
  split
  · simp only [List.mem_map]
    constructor
    · rintro ⟨⟨x, hx, rfl⟩, hne⟩
      by_cases hm : (x.part == p && x.pa == pa) = true
      · rw [if_pos hm] at hne
        exact absurd (by simpa using hm) hne
      · rw [if_neg hm] at hne ⊢
        exact ⟨hx, hne⟩
    · rintro ⟨hc, hne⟩
      exact ⟨⟨c, hc, if_neg (by simpa using hne)⟩, hne⟩
  · simp only [List.mem_append, List.mem_singleton]
    constructor
    · rintro ⟨hc | rfl, hne⟩
      · exact ⟨hc, hne⟩
      · exact absurd ⟨rfl, rfl⟩ hne
    · rintro ⟨hc, hne⟩
      exact ⟨.inl hc, hne⟩

/-- As many sums as elements come of as many. -/
theorem fabSums_length {s : State} {p pa n : Nat} {es : List FabElem} (hes : es.length = n)
    (hctx : ∀ c, c ∈ s.fabs → (c.part == p && c.pa == pa) = true → c.elems.length = n) : (fabSums s p pa es).length = n := by
  unfold fabSums
  split
  · next c hfind =>
    have hmine : (c.part == p && c.pa == pa) = true := List.find?_some (p := fun c : FabCtx => c.part == p && c.pa == pa) hfind
    rw [List.length_map, List.length_zip, hctx c (List.mem_of_find?_eq_some hfind) hmine, hes, Nat.min_self]
  · exact hes

/-! ### A round closes (R390) -/

/-- The bits of w7 that the results of a round set, and their bytes. -/
def fabBits (rs : List (Nat × Bool × Bool)) : Nat := (if rs.any fun r => r.2.1 then 2 else 0) + if rs.any fun r => r.2.2 then 1 else 0

/-- What a contribution or a partial leaves whose sums are `es`, once the word `w` at `place` of the record has been written. -/
def FabAfter (s : State) (p pa : Nat) (h : FRec) (ra da : Nat) (peers : Nat → Word × Word) (t : State) (die : Option Nat)
    (es : List FabElem) (place : Nat) (w : Word) (last : Prop) (own : Option Nat) : Prop :=
  (¬last → WroteBytes s t place (wordBytes w) ∧ t.outbox = s.outbox ∧ t.fabs = fabMerged s p pa h die es) ∧
  (last → h.parent ≠ 63 → WroteBytes s t place (wordBytes w) ∧
    t.outbox = s.outbox ++ [.partialOut (peers h.parent).1 p (peers h.parent).2 h.round ((fabSums s p pa es).map FabElem.toPartial)] ∧
    t.fabs = (fabMerged s p pa h die es).map fun c => if c.part == p && c.pa == pa then { c with waiting := true } else c) ∧
  (last → h.parent = 63 → Delivered s t p pa h ra da peers (((fabSums s p pa es).map (rootElem h)).flatMap fun r => natBytes h.size r.1)
    (BitVec.ofNat 64 (fabBits ((fabSums s p pa es).map (rootElem h)))) own)

/-- The machine after a device has sent its partial to its parent. -/
def fabSent (p pa : Nat) (h : FRec) (peer : Word × Word) (es : List FabElem) (s : State) : State :=
  { s with
    outbox := s.outbox ++ [.partialOut peer.1 p peer.2 h.round (es.map FabElem.toPartial)]
    fabs := s.fabs.map fun x => if x.of p pa then { x with waiting := true } else x }

section
variable {u : State} (hu : u.syn = []) {p pa ra da : Nat} {h : FRec} {peers : Nat → Word × Word} (hl : FabLaid u p pa h ra da peers)
  (hh : FRec.of (structWords u pa 8) = h) {c : FabCtx} (hc : u.fabs.find? (FabCtx.of p pa) = some c) (recVa : Nat)
include hh hc

/-- A round of which something is still to come does not close. -/
theorem fabClose_open (hlast : ¬(h.arrived.toNat = h.contributions ∧ h.carrived.toNat = h.children)) :
    (fabClose p recVa pa).run u = u := by
  have hopen : (h.arrived.toNat != h.contributions || h.carrived.toNat != h.children) = true := by
    simpa [bne_iff_ne, ← not_and_or] using hlast
  rw [fabClose, Prog.run_dyn, hh]
  dsimp only
  rw [hc]
  dsimp only
  rw [if_pos hopen]
  rfl

variable (hlast : h.arrived.toNat = h.contributions ∧ h.carrived.toNat = h.children)
include hlast hu hl

/-- A device below another sends one partial. -/
theorem fabClose_sends (hparent : h.parent ≠ 63) : (fabClose p recVa pa).run u = fabSent p pa h (peers h.parent) c.elems u := by
  have hlt : h.parent < 63 := by
    have : h.parent < 64 := hh ▸ fRec_of_parent_lt _
    omega
  rw [fabClose, Prog.run_dyn, hh]
  dsimp only
  rw [hc]
  dsimp only
  rw [hlast.1, hlast.2, if_neg (by simp), if_neg hparent]
  refine Prog.run_change_of_eq ?_ rfl rfl
  rw [hl.peer hu (FRec.parent_mem_peerNumbers hlt)]
  rfl

/-- The root delivers the rounded sums, once the bits that they set are in w7. -/
theorem fabClose_root (hparent : h.parent = 63) (hw : u.Inv) (helems : c.elems.length = h.elems) :
    ((fabClose p recVa pa).run u).groups = u.groups ∧
      Delivered u ((fabClose p recVa pa).run u) p pa h ra da peers ((c.elems.map (rootElem h)).flatMap fun r => natBytes h.size r.1)
        (BitVec.ofNat 64 (fabBits (c.elems.map (rootElem h)))) none := by
  have hlen : ((c.elems.map (rootElem h)).flatMap fun r => natBytes h.size r.1).length = h.elems * h.size := by
    rw [List.length_flatMap]
    simp [Function.comp_def, helems]
  obtain ⟨v, hv, hclose⟩ : ∃ v, v = (Prog.when (fabBits (c.elems.map (rootElem h)) != 0)
      (writeWords (pa + 56) [memWord u (pa + 56) ||| BitVec.ofNat 64 (fabBits (c.elems.map (rootElem h)))])).run u ∧
      (fabClose p recVa pa).run u = (fabDeliver p recVa pa ((c.elems.map (rootElem h)).flatMap fun r => natBytes h.size r.1)).run v := by
    refine ⟨_, rfl, ?_⟩
    rw [fabClose, Prog.run_dyn, hh]
    dsimp only
    rw [hc]
    dsimp only
    rw [hlast.1, hlast.2, if_neg (by simp), if_pos hparent, Prog.run_all_cons, Prog.run_all_cons, Prog.run_all_nil, unitWord_eq hu]
    rfl
  generalize hbits : BitVec.ofNat 64 (fabBits (c.elems.map (rootElem h))) = bits at hv ⊢
  have hword : MemOnly u v ∧ (∀ x, x < pa + 56 ∨ pa + 64 ≤ x → Memory.get v.mem x = Memory.get u.mem x) ∧
      memWord v (pa + 56) = memWord u (pa + 56) ||| bits := by
    rw [Prog.run_when] at hv
    split at hv
    · obtain ⟨hmem, hbytes⟩ := writeWords_memOnly hu hw (a := pa + 56) [memWord u (pa + 56) ||| bits] (hl.free.1.sub (by omega) (by simp))
      rw [hv]
      refine ⟨hmem, fun x hx => hbytes.get_apart (by rw [wordsBytes_length]; exact hx), ?_⟩
      rw [wordsBytes, List.flatMap_singleton] at hbytes
      exact hbytes.memWord_written
    · next hzero =>
      have hnone : fabBits (c.elems.map (rootElem h)) = 0 := by simpa using hzero
      rw [hv, ← hbits, hnone]
      exact ⟨.refl hw, fun _ _ => rfl, BitVec.or_zero.symm⟩
  obtain ⟨hmem, hkept, hw7⟩ := hword
  have hrec : FRec.of (structWords v pa 8) = h := by
    rw [fRec_of_kept hu (hmem.syn.trans hu) fun k hk => memWord_congr fun x h1 h2 => hkept x (by omega), hh]
  have hlaid := hl.of_rewrote (hmem.rewrote hu (places := [(pa, 64)]) fun x hx => hkept x (by
    have := hx _ (List.mem_singleton_self _)
    omega)) fun _ _ => hmem.noWaiter
  obtain ⟨hgroups, hd⟩ := fabDeliver_delivers (hmem.syn.trans hu) hmem.inv hlaid hrec recVa hlen
  rw [hclose]
  obtain ⟨⟨hrp, hdp, -⟩, -, -, -⟩ := hl
  unfold Apart at hrp hdp
  refine ⟨hgroups.trans hmem.groups, hd.result, ?_, ?_, fun x h1 h2 h3 => ?_, by rw [hd.sent, hmem.outbox], fun x => by rw [hd.contexts, hmem.fabs],
    fun q => by rw [hd.requests, hmem.reqs]⟩
  · obtain ⟨h1, h2, h3, h4⟩ := hd.record
    exact ⟨h1, h2, h3, by rw [h4, hw7]; exact BitVec.or_zero⟩
  · rw [hd.done, memWord_congr fun x h1 h2 => hkept x (by omega)]
  · rw [hd.rest x h1 h2 h3, hkept x (by omega)]

end

/-! ### What stands while a contribution is taken (R390) -/

/-- `v` is `s` but for what is no part of collectives: memory, check codes, partitions and messages stand, no translation has come, and
nothing waits where nothing waited. -/
structure Undisturbed (s v : State) : Prop where
  mem : v.mem = s.mem
  syn : v.syn = s.syn
  parts : v.parts = s.parts
  tlb : v.tlb.Sublist s.tlb
  outbox : v.outbox = s.outbox
  waiters : ∀ a n, NoWaiter s a n → NoWaiter v a n
  inv : v.Inv

/-- Nothing waits where nothing waited, where requests have gone or are parked no more and the groups that are parked are the same. -/
theorem NoWaiter.of_fewer {s v : State} (hparts : v.parts = s.parts)
    (hgroups : ∀ g, g ∈ v.groups → ∃ q, q ∈ s.groups ∧ g.hold = q.hold ∧ g.part = q.part)
    (hreqs : ∀ q k, q ∈ v.reqs → q.phase = .parked k → q ∈ s.reqs) {a n : Nat} (hn : NoWaiter s a n) : NoWaiter v a n := by
  obtain ⟨hfree, hreply, hwait⟩ := hn
  refine ⟨fun i hi => ?_, fun g hg k hk => ?_, fun q hq t rem k x rest ho hp => hwait q (hreqs q k hq hp) t rem k x rest ho hp⟩
  · rw [← hfree i hi]
    simp only [fqKept, hparts]
  · obtain ⟨q, hq, hhold, hpart⟩ := hgroups g hg
    rw [State.part, hparts, hpart]
    exact hreply q hq k (hhold ▸ hk)

/-- A record of which one count of arrivals has been written. -/
theorem fRec_of_counted {s u : State} (hs : s.syn = []) (hu : u.syn = []) {pa place : Nat} {h h' : FRec} {w : Word}
    (hh : FRec.of (structWords s pa 8) = h) (hwrote : WroteBytes s u place (wordBytes w))
    (hplace : (place = pa + 40 ∧ h' = { h with arrived := w }) ∨ (place = pa + 48 ∧ h' = { h with carrived := w })) :
    FRec.of (structWords u pa 8) = h' := by
  have hlen : (wordBytes w).length = 8 := wordBytes_length w
  have hword (k : Nat) (hk : place + 8 ≤ pa + 8 * k ∨ pa + 8 * k + 8 ≤ place) : memWord u (pa + 8 * k) = memWord s (pa + 8 * k) :=
    memWord_congr fun x h1 h2 => hwrote.get_apart (by omega)
  have hcounts : h.arrived = memWord s (pa + 40) ∧ h.carrived = memWord s (pa + 48) := by
    subst hh
    exact ⟨(structWords_getD s pa (by decide : 5 < 8)).trans (unitWord_eq hs _), (structWords_getD s pa (by decide : 6 < 8)).trans (unitWord_eq hs _)⟩
  rw [fRec_of_arrivals hs hu fun k hk => hword k (by rcases hplace with ⟨h3, -⟩ | ⟨h3, -⟩ <;> omega), hh]
  rcases hplace with ⟨rfl, rfl⟩ | ⟨rfl, rfl⟩
  · rw [hwrote.memWord_written, show memWord u (pa + 48) = h.carrived from (hword 6 (.inl (by omega))).trans hcounts.2.symm]
  · rw [hwrote.memWord_written, show memWord u (pa + 40) = h.arrived from (hword 5 (.inr (by omega))).trans hcounts.1.symm]

/-- A delivery after the counts of arrivals of the record have changed, and the requests and contexts of its round. -/
theorem Delivered.of_counted {s u t : State} {p pa ra da : Nat} {h : FRec} {peers : Nat → Word × Word} {bs : List Byte} {bits : Word}
    {own : Option Nat} (hd : Delivered u t p pa h ra da peers bs bits none) (hl : FabLaid s p pa h ra da peers)
    (hkept : ∀ x, x < pa + 40 ∨ pa + 56 ≤ x → Memory.get u.mem x = Memory.get s.mem x) (hout : u.outbox = s.outbox)
    (hfabs : ∀ c, (c ∈ u.fabs ∧ ¬(c.part = p ∧ c.pa = pa)) ↔ c ∈ s.fabs ∧ ¬(c.part = p ∧ c.pa = pa))
    (hreqs : ∀ q, (q ∈ u.reqs ∧ contributedTo p pa q = false) ↔ q ∈ s.reqs ∧ contributedTo p pa q = false ∧ own ≠ some q.id) :
    Delivered s t p pa h ra da peers bs bits own := by
  obtain ⟨⟨hrp, hdp, -⟩, -, -, -⟩ := hl
  unfold Apart at hrp hdp
  obtain ⟨hresult, ⟨hround, harrived, hcarrived, hw7⟩, hdone, hrest, hsent, hcontexts, hrequests⟩ := hd
  refine ⟨hresult, ⟨hround, harrived, hcarrived, ?_⟩, ?_, fun x h1 h2 h3 => ?_, ?_, fun c => ?_, fun q => ?_⟩
  · rw [hw7, memWord_congr fun x h1 h2 => hkept x (by omega)]
  · rw [hdone, memWord_congr fun x h1 h2 => hkept x (by omega)]
  · rw [hrest x h1 h2 h3, hkept x (by omega)]
  · rw [hsent, hout]
  · rw [hcontexts, hfabs]
  · rw [hrequests, ← hreqs]
    simp

/-- The sums that have come close the round, or leave it open. -/
theorem fabClose_after {s v : State} {p pa ra da : Nat} {h h' : FRec} {peers : Nat → Word × Word} (hs : s.syn = [])
    (hl : FabLaid s p pa h ra da peers) (hh : FRec.of (structWords s pa 8) = h) (hv : Undisturbed s v) {die : Option Nat}
    {es : List FabElem} (hfabs : v.fabs = fabMerged s p pa h die es) (hes : es.length = h.elems)
    (hctx : ∀ c, c ∈ s.fabs → (c.part == p && c.pa == pa) = true → c.elems.length = h.elems) {own : Option Nat}
    (hreqs : ∀ q, (q ∈ v.reqs ∧ contributedTo p pa q = false) ↔ q ∈ s.reqs ∧ contributedTo p pa q = false ∧ own ≠ some q.id) {place : Nat}
    {w : Word} (hplace : (place = pa + 40 ∧ h' = { h with arrived := w }) ∨ (place = pa + 48 ∧ h' = { h with carrived := w })) (recVa : Nat) :
    let t := (fabClose p recVa pa).run ((writeWords place [w]).run v)
    let last := h'.arrived.toNat = h.contributions ∧ h'.carrived.toNat = h.children
    t.groups = v.groups ∧ (¬last ∨ h.parent ≠ 63 → t.reqs = v.reqs) ∧ FabAfter s p pa h ra da peers t die es place w last own := by
  intro t last
  have hvs : v.syn = [] := hv.syn.trans hs
  have hin : pa + 40 ≤ place ∧ place + 8 ≤ pa + 56 := by rcases hplace with ⟨h1, -⟩ | ⟨h1, -⟩ <;> omega
  obtain ⟨hmem, hbytes⟩ := writeWords_memOnly hvs hv.inv (a := place) [w]
    ((hv.waiters _ _ hl.free.1).sub (by omega) (by simp only [List.length_singleton]; omega))
  rw [wordsBytes, List.flatMap_singleton] at hbytes
  have hwrote : WroteBytes s ((writeWords place [w]).run v) place (wordBytes w) := fun x => by rw [hbytes x, hv.mem]
  have ht : t = (fabClose p recVa pa).run ((writeWords place [w]).run v) := rfl
  generalize (writeWords place [w]).run v = u at hmem hwrote ht
  have hkept (x : Nat) (hx : x < pa + 40 ∨ pa + 56 ≤ x) : Memory.get u.mem x = Memory.get s.mem x :=
    hwrote.get_apart (by rw [wordBytes_length]; omega)
  have hus := hmem.syn.trans hvs
  have hlu : FabLaid u p pa h ra da peers := hl.of_rewrote
    ⟨hmem.parts.trans hv.parts, hus, hmem.tlb.trans hv.tlb, fun x hx => hkept x (by
      have := hx _ (List.mem_singleton_self _)
      omega)⟩ fun a n hn => hmem.noWaiter (hv.waiters a n hn)
  have hhu : FRec.of (structWords u pa 8) = h' := fRec_of_counted hs hus hh hwrote hplace
  obtain ⟨c, hc, helems⟩ := find?_fabMerged s p pa h die es
  have hcu : u.fabs.find? (FabCtx.of p pa) = some c := by rw [hmem.fabs, hfabs, hc]
  have hout := hmem.outbox.trans hv.outbox
  have hlu' : FabLaid u p pa h' ra da peers := by
    rcases hplace with ⟨-, rfl⟩ | ⟨-, rfl⟩ <;> exact ⟨hlu.apart, hlu.free, hlu.room, hlu.steady⟩
  obtain ⟨hcontributions, hchildren, hparent, hround, helems'⟩ : h'.contributions = h.contributions ∧ h'.children = h.children ∧
      h'.parent = h.parent ∧ h'.round = h.round ∧ h'.elems = h.elems := by
    rcases hplace with ⟨-, rfl⟩ | ⟨-, rfl⟩ <;> exact ⟨rfl, rfl, rfl, rfl, rfl⟩
  by_cases hlast : last
  · have hlast' : h'.arrived.toNat = h'.contributions ∧ h'.carrived.toNat = h'.children := by rwa [hcontributions, hchildren]
    by_cases hp : h.parent = 63
    · obtain ⟨hgroups, hd⟩ := fabClose_root hus hlu' hhu hcu recVa hlast' (hparent.trans hp) hmem.inv
        (by rw [helems, helems', fabSums_length hes hctx])
      rw [← ht, helems] at hd
      have hdu : Delivered u t p pa h ra da peers (((fabSums s p pa es).map (rootElem h)).flatMap fun r => natBytes h.size r.1)
          (BitVec.ofNat 64 (fabBits ((fabSums s p pa es).map (rootElem h)))) none := by
        rcases hplace with ⟨-, rfl⟩ | ⟨-, rfl⟩ <;>
          exact ⟨hd.result, hd.record, hd.done, hd.rest, hd.sent, hd.contexts, hd.requests⟩
      refine ⟨(ht ▸ hgroups).trans hmem.groups, fun hno => absurd hno (by simp [hlast, hp]), fun hno => absurd hlast hno,
        fun _ hno => absurd hp hno, fun _ _ => hdu.of_counted hl hkept hout (fun c => ?_) fun q => ?_⟩
      · rw [hmem.fabs, hfabs, mem_fabMerged_other]
      · rw [hmem.reqs, hreqs]
    · have hsends := fabClose_sends hus hlu' hhu hcu recVa hlast' (by rwa [hparent])
      rw [← ht] at hsends
      rw [hsends]
      refine ⟨hmem.groups, fun _ => hmem.reqs, fun hno => absurd hlast hno, fun _ _ => ⟨hwrote, ?_, ?_⟩, fun _ hno => absurd hno hp⟩
      · rw [fabSent, hparent, hround, helems, hout]
      · rw [← hfabs, ← hmem.fabs]
        rfl
  · have hopen := fabClose_open hhu hcu recVa (by rwa [hcontributions, hchildren])
    rw [← ht] at hopen
    rw [hopen]
    exact ⟨hmem.groups, fun _ => hmem.reqs, fun _ => ⟨hwrote, hout, hmem.fabs.trans hfabs⟩, fun hno => absurd hno hlast, fun hno => absurd hno hlast⟩

/-! ### Messages between devices (R392) -/

theorem awakeWords_append (s : State) (ws ws' : List Nat) : awakeWords s (ws ++ ws') = (awakeWords s ws && awakeWords s ws') := List.all_append

/-- A record is named by a message where it lies on a boundary of 64 bytes, is valid and stands in the message's round. -/
def namesRecord (record round : Word) (ws : List Word) : Bool := record.toNat % 64 == 0 && !recordInvalid ws && (FRec.of ws).round == round

section
variable {s : State} (hs : s.syn = []) {p : Nat} {record : Word} (hreach : reachesPart s p = true)
  (hstate : (s.part p).state ≠ .resetting) (hstop : s.mgmt.stopped = false)
  (htables : awakeWords s (transReads s 0 none p record needRW) = true) (round : Word) (sub : Nat) (k : Nat → FRec → Prog)
include hs hreach hstate hstop htables

/-- A message whose record is unreachable is logged. -/
theorem fabMessage_fails {o : Nat} (hfail : translate s 0 none p record needRW = .fail o) :
    (fabMessage p record round sub k).run s =
      (logEntry p ⟨.prot, 11, sub, 0, record, round, BitVec.allOnes 64⟩).run (markTables 0 (transReads s 0 none p record needRW) s) := by
  rw [fabMessage, Prog.run_dyn, hfail]
  dsimp only
  rw [if_neg (by simp [hreach, hstate, hstop, htables]), Prog.run_all_cons, Prog.run_all_cons, Prog.run_all_nil, readProg_run hs]

section
variable {pa : Nat} {e : TlbEntry} (hok : translate s 0 none p record needRW = .ok pa e)
  (hrecord : awakeWords s ((List.range 8).map fun k => pa + 8 * k) = true)
include hok hrecord

/-- A message whose record is reachable is logged, or its record is served. -/
theorem fabMessage_reached :
    (fabMessage p record round sub k).run s =
      (if record.toNat % 64 != 0 || recordInvalid (structWords s pa 8) then
        logEntry p ⟨.prot, 11, sub, 0, record, round, BitVec.allOnes 64⟩
      else if (FRec.of (structWords s pa 8)).round != round then
        logEntry p ⟨.prot, 11, sub, 0, record, round, (FRec.of (structWords s pa 8)).round⟩
      else .dyn fun u => if fabAwake u p (FRec.of (structWords s pa 8)) true then
        .all [readProg u (peerReads u p (FRec.of (structWords s pa 8))), k pa (FRec.of (structWords s pa 8))] else .done).run
        (markTables 0 (transReads s 0 none p record needRW) s) := by
  rw [fabMessage, Prog.run_dyn, hok]
  dsimp only
  rw [if_neg (by simp [hreach, hstate, hstop, awakeWords_append, htables, hrecord]), Prog.run_all_cons, Prog.run_all_cons, Prog.run_all_nil,
    readProg_run hs]

theorem fabMessage_bad (hbad : record.toNat % 64 ≠ 0 ∨ recordInvalid (structWords s pa 8) = true) :
    (fabMessage p record round sub k).run s =
      (logEntry p ⟨.prot, 11, sub, 0, record, round, BitVec.allOnes 64⟩).run (markTables 0 (transReads s 0 none p record needRW) s) := by
  rw [fabMessage_reached hs hreach hstate hstop htables round sub k hok hrecord, if_pos (by simpa [bne_iff_ne] using hbad)]

theorem fabMessage_otherRound (halign : record.toNat % 64 = 0) (hvalid : recordInvalid (structWords s pa 8) = false)
    (hround : (FRec.of (structWords s pa 8)).round ≠ round) :
    (fabMessage p record round sub k).run s =
      (logEntry p ⟨.prot, 11, sub, 0, record, round, (FRec.of (structWords s pa 8)).round⟩).run
        (markTables 0 (transReads s 0 none p record needRW) s) := by
  rw [fabMessage_reached hs hreach hstate hstop htables round sub k hok hrecord, if_neg (by simp [halign, hvalid]),
    if_pos (by simpa [bne_iff_ne] using hround)]

/-- A record that is named is served once the words that lead to its peers have been read. -/
theorem fabMessage_serves {h : FRec} (hh : FRec.of (structWords s pa 8) = h) (halign : record.toNat % 64 = 0)
    (hvalid : recordInvalid (structWords s pa 8) = false) (hround : h.round = round) (hawake : fabAwake s p h true = true) :
    (fabMessage p record round sub k).run s =
      (k pa h).run (markTables 0 (peerReads s p h).1 (markTables 0 (transReads s 0 none p record needRW) s)) := by
  rw [fabMessage_reached hs hreach hstate hstop htables round sub k hok hrecord, hh, if_neg (by simp [halign, hvalid]),
    if_neg (by simp [hround]), Prog.run_dyn, fabAwake_markTables, if_pos hawake, peerReads_markTables, Prog.run_all_cons, Prog.run_all_cons,
    Prog.run_all_nil, readProg_run (s := markTables 0 (transReads s 0 none p record needRW) s) hs]

end
end

theorem fabMerged_congr {s v : State} (hfabs : v.fabs = s.fabs) (p pa : Nat) (h : FRec) (die : Option Nat) (es : List FabElem) :
    fabMerged v p pa h die es = fabMerged s p pa h die es := by
  rw [fabMerged, fabMerged, hfabs]

theorem Undisturbed.of_memOnly {s v : State} (h : MemOnly s v) (hmem : v.mem = s.mem) : Undisturbed s v :=
  ⟨hmem, h.syn, h.parts, h.tlb, h.outbox, fun _ _ => h.noWaiter, h.inv⟩

/-- A delivery on a machine of which only caches have changed. -/
theorem Delivered.of_memOnly {s u t : State} {p pa ra da : Nat} {h : FRec} {peers : Nat → Word × Word} {bs : List Byte} {bits : Word}
    {own : Option Nat} (hd : Delivered u t p pa h ra da peers bs bits own) (hu : MemOnly s u) (hmem : u.mem = s.mem) :
    Delivered s t p pa h ra da peers bs bits own := by
  have hword (a : Nat) : memWord u a = memWord s a := by rw [memWord, memWord, hmem]
  obtain ⟨hresult, hrecord, hdone, hrest, hsent, hcontexts, hrequests⟩ := hd
  rw [hword] at hdone hrecord
  rw [hmem] at hrest
  rw [hu.outbox] at hsent
  rw [hu.fabs] at hcontexts
  rw [hu.reqs] at hrequests
  exact ⟨hresult, hrecord, hdone, hrest, hsent, hcontexts, hrequests⟩

section
variable {s : State} (hs : s.syn = []) {p pa ra da : Nat} {h : FRec} {peers : Nat → Word × Word} (hl : FabLaid s p pa h ra da peers)
  (hh : FRec.of (structWords s pa 8) = h) {u : State} (hu : MemOnly s u) (hmem : u.mem = s.mem) (recVa : Nat)
include hs hl hh hu hmem

omit hl in
theorem fRec_of_memOnly : FRec.of (structWords u pa 8) = h := by
  rw [structWords_eq (hu.syn.trans hs), ← hh, structWords_eq hs]
  simp only [memWords, memWord, hmem]

/-- A partial of as many elements as the record has is merged and counted, and closes the round where it is the last. -/
theorem partial_after {es : List FabElem} (hes : es.length = h.elems)
    (hctx : ∀ c, c ∈ s.fabs → (c.part == p && c.pa == pa) = true → c.elems.length = h.elems) :
    let t := (fabClose p recVa pa).run ((writeWords (pa + 48) [h.carrived + 1]).run ((Prog.change (fabMerge p pa none h es)).run u))
    t.groups = s.groups ∧ FabAfter s p pa h ra da peers t none es (pa + 48) (h.carrived + 1)
      (h.arrived.toNat = h.contributions ∧ (h.carrived + 1).toNat = h.children) none := by
  have hv : (Prog.change (fabMerge p pa none h es)).run u = { u with fabs := fabMerged s p pa h none es } := by
    refine Prog.run_change_of_eq ?_ rfl rfl
    rw [fabMerge_eq, fabMerged_congr hu.fabs]
  have hbase := Undisturbed.of_memOnly hu hmem
  have hund : Undisturbed s { u with fabs := fabMerged s p pa h none es } :=
    ⟨hbase.mem, hbase.syn, hbase.parts, hbase.tlb, hbase.outbox, hbase.waiters, hbase.inv⟩
  rw [hv]
  obtain ⟨hgroups, -, hafter⟩ := fabClose_after (v := { u with fabs := fabMerged s p pa h none es }) hs hl hh hund rfl hes hctx (own := none)
    (fun q => by simp [hu.reqs]) (.inr ⟨rfl, rfl⟩) recVa
  exact ⟨hgroups.trans hu.groups, hafter⟩

/-- A result of as many bytes as the record has is delivered. -/
theorem result_delivered {bs : List Byte} (hb : bs.length = h.elems * h.size) :
    ((fabDeliver p recVa pa bs).run u).groups = s.groups ∧ Delivered s ((fabDeliver p recVa pa bs).run u) p pa h ra da peers bs 0 none := by
  obtain ⟨hgroups, hd⟩ := fabDeliver_delivers (hu.syn.trans hs) hu.inv
    (hl.of_rewrote (hu.rewrote hs fun _ _ => by rw [hmem]) fun _ _ => hu.noWaiter) (fRec_of_memOnly hs hh hu hmem) recVa hb
  exact ⟨hgroups.trans hu.groups, hd.of_memOnly hu hmem⟩

end

/-! ### fb.red and fb.bcast at their switch (R389 to R391) -/

/-- The bytes that a switch reads where every check code is good. -/
theorem fabBytes_eq {s : State} {tid : Nat} {tm : Team} (hteam : s.team? tid = some tm) (ht : tm.spSyn = []) (data n : Nat) :
    fabBytes s tid data n = Memory.bytes tm.sp data n := by
  rw [fabBytes, hteam]
  dsimp only
  simp only [wordBytes_spUnitWord ht, Memory.flatMap_bytes]
  exact Memory.bytes_take _ _ (by omega)

/-- The reason for which a switch refuses where every peer is found (R389). -/
def fabWhy (ws : List Word) (bcast : Bool) (count rnd : Nat) : Option Nat :=
  if recordInvalid ws then some 1
  else if rnd ≠ (FRec.of ws).round.toNat then some 2
  else if count ≠ (FRec.of ws).elems then some 3
  else if bcast = false ∧ (FRec.of ws).arrived.toNat = (FRec.of ws).contributions then some 4
  else if bcast = true ∧ ((FRec.of ws).parent ≠ 63 ∨ (FRec.of ws).contributions ≠ 1) then some 5
  else none

theorem fabReason_eq_fabWhy {s : State} {p : Nat} {ws : List Word}
    (hpeers : ∀ k, k ∈ (FRec.of ws).peerNumbers → (peerEntry s p (FRec.of ws) k).isNone = false) (bcast : Bool) (count rnd : Nat) :
    fabReason s p ws bcast count rnd = fabWhy ws bcast count rnd := by
  have hany : ((FRec.of ws).peerNumbers.any fun k => (peerEntry s p (FRec.of ws) k).isNone) = false :=
    List.any_eq_false.2 fun k hk => by rw [hpeers k hk]; exact Bool.false_ne_true
  unfold fabReason fabWhy
  simp [hany]

theorem fabWhy_eq_none {ws : List Word} {bcast : Bool} {count rnd : Nat} (h : fabWhy ws bcast count rnd = none) :
    count = (FRec.of ws).elems := by
  unfold fabWhy at h
  by_contra hne
  simp only [hne, ne_eq, not_false_eq_true, if_true] at h
  split at h
  · cases h
  · split at h <;> cases h

/-- The register of a request's group takes a value, unless the answer is dropped. -/
def saidReg (r : Req) (sd : Nat) (w : Word) (s : State) : State := if r.drop then s else s.modGrp r.gid fun g => g.setS s.now sd w

theorem saidReg_eq (r : Req) (sd : Nat) (w : Word) (s : State) : saidReg r sd w s = { s with groups := (saidReg r sd w s).groups } := by
  unfold saidReg
  split <;> rfl

theorem saidReg_markTables (r : Req) (sd : Nat) (w : Word) (l : List Nat) (s : State) :
    saidReg r sd w (markTables 0 l s) = { s with presT := (markTables 0 l s).presT, groups := (saidReg r sd w s).groups } := by
  unfold saidReg
  split <;> rfl

theorem hold_of_mem_saidReg {r : Req} {sd : Nat} {w : Word} {s : State} {g : Group} (hg : g ∈ (saidReg r sd w s).groups) :
    ∃ q, q ∈ s.groups ∧ g.hold = q.hold ∧ g.part = q.part := by
  unfold saidReg at hg
  split at hg
  · exact ⟨g, hg, rfl, rfl⟩
  · obtain ⟨q, hq, rfl⟩ := List.mem_map.1 hg
    refine ⟨q, hq, ?_⟩
    split
    · exact ⟨Group.setS_hold .., Group.setS_part ..⟩
    · exact ⟨rfl, rfl⟩

/-- The machine once a switch has answered a request; the lines of table words, contexts, requests and scores are as given. -/
def switchAnswered (s : State) (r : Req) (sd : Nat) (presT : List (Nat × Nat)) (fabs : List FabCtx) (reqs : List Req) (scores : List Score) :
    State :=
  { s with presT := presT, groups := (saidReg r sd 0 s).groups, fabs := fabs, reqs := reqs, scores := scores }

/-- An answer disturbs no collective where of the requests only some are parked no more. -/
theorem undisturbed_switchAnswered {s : State} (hw : s.Inv) (r : Req) (sd : Nat) (presT : List (Nat × Nat)) (fabs : List FabCtx)
    {reqs : List Req} (scores : List Score) (hreqs : ∀ q k, q ∈ reqs → q.phase = .parked k → q ∈ s.reqs) :
    Undisturbed s (switchAnswered s r sd presT fabs reqs scores) :=
  ⟨rfl, rfl, rfl, .refl _, rfl,
    fun _ _ hn => hn.of_fewer (s := s) (v := switchAnswered s r sd presT fabs reqs scores) rfl (fun _ => hold_of_mem_saidReg) hreqs, hw⟩

theorem told_of_saidReg {s t : State} {r : Req} {sd : Nat} {w : Word} (ht : t.groups = (saidReg r sd w s).groups) : Told s t r [(sd, w)] := by
  intro hdrop _ g hg
  refine ⟨g.setS s.now sd w, ?_, .setS .., ?_, fun x hx => ?_⟩
  · have hself := State.grp?_modGrp_self s r.gid (fun g => g.setS s.now sd w) g hg fun x hx => (Group.setS_gid ..).trans hx
    rwa [State.grp?, ht, saidReg, hdrop, if_neg Bool.false_ne_true]
  · simp only [List.forall_mem_singleton]
    intro hsd
    rw [Group.sreg_setS, if_pos ⟨hsd, rfl⟩]
  · rw [Group.sreg_setS, if_neg fun h => hx (by simp [h.2])]

/-- The requests once one of them has contributed. -/
def withContributed (r : Req) (reqs : List Req) : List Req := reqs.map fun q => if q.id == r.id then { q with phase := .contributed } else q

section
variable {r : Req} {reqs : List Req} (hown : (reqs.filter fun q => q.id == r.id) = [r])
include hown

theorem eq_of_only {q : Req} (hq : q ∈ reqs) (hid : q.id = r.id) : q = r := by
  have : q ∈ reqs.filter fun q => q.id == r.id := List.mem_filter.2 ⟨hq, by simp [hid]⟩
  rw [hown] at this
  exact List.mem_singleton.1 this

theorem find?_of_only : (reqs.find? fun q => q.id == r.id) = some r := by
  rw [← List.head?_filter, hown]
  rfl

theorem find?_withContributed : ((withContributed r reqs).find? fun q => q.id == r.id) = some { r with phase := .contributed } := by
  have hid : ((fun q : Req => q.id == r.id) ∘ fun q : Req => if q.id == r.id then { q with phase := .contributed } else q) =
      fun q => q.id == r.id := by
    funext q
    simp only [Function.comp_apply]
    split <;> rfl
  rw [withContributed, List.find?_map, hid, find?_of_only hown, Option.map_some, if_pos (beq_self_eq_true r.id)]

/-- The requests that have not contributed to the round once this one has. -/
theorem mem_withContributed {p pa : Nat} (hmine : contributedTo p pa { r with phase := .contributed } = true) (q : Req) :
    (q ∈ withContributed r reqs ∧ contributedTo p pa q = false) ↔ q ∈ reqs ∧ contributedTo p pa q = false ∧ some r.id ≠ some q.id := by
  rw [withContributed, List.mem_map]
  constructor
  · rintro ⟨⟨x, hx, rfl⟩, hnot⟩
    by_cases hid : (x.id == r.id) = true
    · rw [if_pos hid, eq_of_only hown hx (by simpa using hid), hmine] at hnot
      cases hnot
    · rw [if_neg hid] at hnot ⊢
      exact ⟨hx, hnot, fun he => hid (by simpa using (Option.some.inj he).symm)⟩
  · rintro ⟨hq, hnot, hne⟩
    exact ⟨⟨q, hq, if_neg fun he => hne (congrArg some (by simpa using he : q.id = r.id).symm)⟩, hnot⟩

end

section
variable {s : State} (hs : s.syn = []) {r : Req} {pc : Piece} {rest : List Piece} (hpieces : r.pieces = pc :: rest) {data count : Nat} {tm : Team}
  (hheld : heldByData s r data count = false) (hpool : poolAwake s r.team data (8 * count) = true) (hteam : s.team? r.team = some tm)
  (ht : tm.spSyn = []) {h : FRec} (hh : FRec.of (structWords s pc.addr 8) = h) (hawake : fabAwake s r.part h true = true)
  (hpeers : ∀ k, k ∈ h.peerNumbers → (peerEntry s r.part h k).isNone = false) (bcast : Bool) (recVa rnd sd : Nat)
include hs hpieces hheld hpool hteam ht hh hawake hpeers

/-- A switch that serves a request marks the lines of table words, and refuses or accepts. -/
theorem fabAccept_served : ∃ l, (fabAccept r bcast recVa count rnd data sd).run s = (match fabWhy (structWords s pc.addr 8) bcast count rnd with
    | some n => Prog.change (answerRegs r [(sd, statusWord false n 1, false)])
    | none =>
      if bcast then .all [.change fun s => finishReq r.id (saidReg r sd 0 (spRead r.team data (count * h.size) s)),
        fabDeliver r.part recVa pc.addr (Memory.bytes tm.sp data (count * h.size))]
      else .all [
        .change fun s => settleScores ((fabMerge r.part pc.addr (some (dieOfCore r.core)) h
          ((elemsOf h (Memory.bytes tm.sp data (count * h.size))).map (addendOf h))
          (saidReg r sd 0 (spRead r.team data (count * h.size) s))).modReq r.id fun q => { q with phase := .contributed }),
        writeWords (pc.addr + 40) [h.arrived + 1],
        fabClose r.part recVa pc.addr]).run (markTables 0 l s) := by
  subst hh
  refine ⟨if recordInvalid (structWords s pc.addr 8) then [] else (peerReads s r.part (FRec.of (structWords s pc.addr 8))).1, ?_⟩
  rw [fabAccept, Prog.run_dyn, hpieces]
  dsimp only
  rw [if_neg (by simp [hheld, hpool, hawake]), Prog.run_all_cons, Prog.run_all_cons, Prog.run_all_cons, Prog.run_all_nil, touchWords_run hs,
    Prog.run_done, Prog.run_when, fabReason_eq_fabWhy hpeers, fabBytes_eq hteam ht, readProg_run hs]
  cases recordInvalid (structWords s pc.addr 8) <;> rfl

/-- A request that is refused is answered with the reason, and nothing is merged or sent. -/
theorem fabAccept_refused {n : Nat} (hwhy : fabWhy (structWords s pc.addr 8) bcast count rnd = some n) :
    let t := (fabAccept r bcast recVa count rnd data sd).run s
    Answered t r ∧ Told s t r [(sd, statusWord false n 1)] ∧ t.mem = s.mem ∧ t.outbox = s.outbox ∧ t.fabs = s.fabs := by
  intro t
  obtain ⟨l, hl⟩ := fabAccept_served hs hpieces hheld hpool hteam ht hh hawake hpeers bcast recVa rnd sd
  rw [hwhy] at hl
  have hanswer : t = finishReq r.id (saidReg r sd (statusWord false n 1) (markTables 0 l s)) := hl.trans <| by
    refine Prog.run_change_of_eq rfl ?_ ?_ <;> rw [saidReg_eq] <;> rfl
  rw [hanswer]
  refine ⟨answered_finishReq r _, told_of_saidReg (s := s) ?_, ?_, ?_, ?_⟩
  · unfold saidReg
    cases r.drop <;> rfl
  all_goals
    rw [saidReg_eq]
    rfl


section
variable {da ra : Nat} {peers : Nat → Word × Word} (hl : FabLaid s r.part pc.addr h ra da peers) (hw : s.Inv)
include hl hw

/-- A broadcast that is accepted answers, and is delivered. -/
theorem fabAccept_bcast (hwhy : fabWhy (structWords s pc.addr 8) true count rnd = none) :
    let t := (fabAccept r true recVa count rnd data sd).run s
    Told s t r [(sd, 0)] ∧ Delivered s t r.part pc.addr h ra da peers (Memory.bytes tm.sp data (count * h.size)) 0 (some r.id) := by
  intro t
  obtain ⟨l, hrun⟩ := fabAccept_served hs hpieces hheld hpool hteam ht hh hawake hpeers true recVa rnd sd
  have hcount : count = h.elems := hh ▸ fabWhy_eq_none hwhy
  obtain ⟨v, hv, hsay⟩ : ∃ v, v = switchAnswered s r sd (markTables 0 l s).presT s.fabs (s.reqs.filter fun q => q.id != r.id) v.scores ∧
      (Prog.change fun s => finishReq r.id (saidReg r sd 0 (spRead r.team data (count * h.size) s))).run (markTables 0 l s) = v := by
    refine ⟨finishReq r.id (saidReg r sd 0 (markTables 0 l s)), ?_, Prog.run_change_of_eq ?_ ?_ ?_⟩
    · rw [saidReg_markTables]
      rfl
    · rw [spRead_good (s := markTables 0 l s) ht hteam]
    · rw [saidReg_markTables]
      rfl
    · rw [saidReg_markTables]
      rfl
  rw [hwhy] at hrun
  dsimp only at hrun
  rw [if_pos rfl, Prog.run_all_cons, Prog.run_all_cons, Prog.run_all_nil, hsay] at hrun
  have hund : Undisturbed s v := hv ▸ undisturbed_switchAnswered hw r sd (markTables 0 l s).presT s.fabs v.scores
    fun q k hq _ => (List.mem_filter.1 hq).1
  have hgroups : v.groups = (saidReg r sd 0 s).groups := by rw [hv, switchAnswered]
  have hfabs : v.fabs = s.fabs := by rw [hv, switchAnswered]
  have hreqs : v.reqs = s.reqs.filter fun q => q.id != r.id := by rw [hv, switchAnswered]
  have hmem (x : Nat) : Memory.get v.mem x = Memory.get s.mem x := by rw [hund.mem]
  have hvs := hund.syn.trans hs
  have hlv := hl.of_rewrote ⟨hund.parts, hvs, hund.tlb, fun x _ => hmem x⟩ hund.waiters
  have hhv : FRec.of (structWords v pc.addr 8) = h := by
    rw [fRec_of_kept hs hvs fun k _ => memWord_congr fun x _ _ => hmem x, hh]
  obtain ⟨hkept, hd⟩ := fabDeliver_delivers hvs hund.inv hlv hhv recVa (bs := Memory.bytes tm.sp data (count * h.size))
    (by rw [Memory.bytes_length, hcount])
  rw [← hrun] at hkept hd
  refine ⟨told_of_saidReg (hkept.trans hgroups), hd.of_counted hl (fun x _ => hmem x) hund.outbox (fun c => by rw [hfabs]) fun q => ?_⟩
  rw [hreqs, List.mem_filter]
  simp only [bne_iff_ne, ne_eq, Option.some.injEq]
  tauto

/-- A contribution that is accepted answers, is merged and counts, and closes the round where it is the last. -/
theorem fabAccept_red {recVa' : Nat} (hop : r.op = .fbRed recVa' count rnd data sd) (hown : (s.reqs.filter fun q => q.id == r.id) = [r])
    (hctx : ∀ c, c ∈ s.fabs → (c.part == r.part && c.pa == pc.addr) = true → c.elems.length = h.elems)
    (hwhy : fabWhy (structWords s pc.addr 8) false count rnd = none) :
    let t := (fabAccept r false recVa count rnd data sd).run s
    let last := (h.arrived + 1).toNat = h.contributions ∧ h.carrived.toNat = h.children
    Told s t r [(sd, 0)] ∧ (¬last ∨ h.parent ≠ 63 → t.req? r.id = some { r with phase := .contributed }) ∧
      FabAfter s r.part pc.addr h ra da peers t (some (dieOfCore r.core))
        ((elemsOf h (Memory.bytes tm.sp data (count * h.size))).map (addendOf h)) (pc.addr + 40) (h.arrived + 1) last (some r.id) := by
  intro t last
  obtain ⟨l, hrun⟩ := fabAccept_served hs hpieces hheld hpool hteam ht hh hawake hpeers false recVa rnd sd
  generalize hes : (elemsOf h (Memory.bytes tm.sp data (count * h.size))).map (addendOf h) = es at hrun ⊢
  have helems : es.length = h.elems := by rw [← hes, List.length_map, elemsOf, List.length_map, List.length_range]
  obtain ⟨v, hv, htake⟩ : ∃ v, v = switchAnswered s r sd (markTables 0 l s).presT (fabMerged s r.part pc.addr h (some (dieOfCore r.core)) es)
        (withContributed r s.reqs) v.scores ∧
      (Prog.change fun s => settleScores ((fabMerge r.part pc.addr (some (dieOfCore r.core)) h es
        (saidReg r sd 0 (spRead r.team data (count * h.size) s))).modReq r.id fun q => { q with phase := .contributed })).run
        (markTables 0 l s) = v := by
    refine ⟨settleScores ((fabMerge r.part pc.addr (some (dieOfCore r.core)) h es
      (saidReg r sd 0 (markTables 0 l s))).modReq r.id fun q => { q with phase := .contributed }), ?_, Prog.run_change_of_eq ?_ ?_ ?_⟩
    · rw [saidReg_markTables, fabMerge_eq]
      rfl
    · rw [spRead_good (s := markTables 0 l s) ht hteam]
    · rw [saidReg_markTables, fabMerge_eq]
      rfl
    · rw [saidReg_markTables, fabMerge_eq]
      rfl
  rw [hwhy] at hrun
  dsimp only at hrun
  rw [if_neg Bool.false_ne_true, Prog.run_all_cons, Prog.run_all_cons, Prog.run_all_cons, Prog.run_all_nil, htake] at hrun
  have hund : Undisturbed s v := hv ▸ undisturbed_switchAnswered hw r sd (markTables 0 l s).presT _ v.scores fun q k hq hp => by
    obtain ⟨x, hx, rfl⟩ := List.mem_map.1 hq
    by_cases hid : (x.id == r.id) = true
    · rw [if_pos hid] at hp
      cases hp
    · rw [if_neg hid]
      exact hx
  have hgroups : v.groups = (saidReg r sd 0 s).groups := by rw [hv, switchAnswered]
  have hfabs : v.fabs = fabMerged s r.part pc.addr h (some (dieOfCore r.core)) es := by rw [hv, switchAnswered]
  have hreqs : v.reqs = withContributed r s.reqs := by rw [hv, switchAnswered]
  have hmine : contributedTo r.part pc.addr { r with phase := .contributed } = true := by
    simp [contributedTo, hpieces, hop]
  obtain ⟨hkept, hsame, hafter⟩ := fabClose_after (h' := { h with arrived := h.arrived + 1 }) hs hl hh hund hfabs helems hctx (own := some r.id)
    (fun q => by rw [hreqs, mem_withContributed hown hmine]) (.inl ⟨rfl, rfl⟩) recVa
  rw [← hrun] at hkept hsame hafter
  refine ⟨told_of_saidReg (hkept.trans hgroups), fun hopen => ?_, hafter⟩
  rw [State.req?, hsame hopen, hreqs, find?_withContributed hown]

end
end

/-! ### O56 -/

/-- A message whose record is unreachable, invalid or in another round is dropped and logged. -/
theorem fabricMessages_dropped {s : State} (hs : s.syn = []) {p : Nat} {record round : Word} (hreach : reachesPart s p = true)
    (hstate : (s.part p).state ≠ .resetting) (hstop : s.mgmt.stopped = false)
    (htables : awakeWords s (transReads s 0 none p record needRW) = true) {elems : List PartialElem} {payload : List Byte} {m : Instr × Nat}
    (hm : m ∈ [(Instr.partialMessage p record round elems, 0), (.resultMessage p record round payload, 1)]) :
    let log := fun (c : Word) =>
      (logEntry p ⟨.prot, 11, m.2, 0, record, round, c⟩).run (markTables 0 (transReads s 0 none p record needRW) s)
    (∀ o, translate s 0 none p record needRW = .fail o → exec m.1 s = .next (log (BitVec.allOnes 64))) ∧
      ∀ pa e, translate s 0 none p record needRW = .ok pa e → awakeWords s ((List.range 8).map fun k => pa + 8 * k) = true →
        (record.toNat % 64 ≠ 0 ∨ recordInvalid (structWords s pa 8) = true → exec m.1 s = .next (log (BitVec.allOnes 64))) ∧
        (record.toNat % 64 = 0 → recordInvalid (structWords s pa 8) = false → (FRec.of (structWords s pa 8)).round ≠ round →
          exec m.1 s = .next (log (FRec.of (structWords s pa 8)).round)) := by
  intro log
  obtain ⟨k, hk⟩ : ∃ k, exec m.1 s = .next ((fabMessage p record round m.2 k).run s) := by
    simp only [List.mem_cons, List.not_mem_nil, or_false] at hm
    rcases hm with rfl | rfl <;> exact ⟨_, rfl⟩
  rw [hk]
  refine ⟨fun o hfail => ?_, fun pa e hok hrecord => ⟨fun hbad => ?_, fun halign hvalid hround => ?_⟩⟩
  · rw [fabMessage_fails hs hreach hstate hstop htables round m.2 k hfail]
  · rw [fabMessage_bad hs hreach hstate hstop htables round m.2 k hok hrecord hbad]
  · rw [fabMessage_otherRound hs hreach hstate hstop htables round m.2 k hok hrecord halign hvalid hround]

/-- Settles O56: a message and an instruction read the record and its peer table, and then merge, deliver or answer; a round that closes
does so on a machine of which only the count of arrivals and the contexts have changed. -/
theorem fabricMessages : Obligations.FabricMessages := by
  unfold Obligations.FabricMessages
  intro s p record round hw hs
  refine ⟨fun hreach hstate hstop htables => ⟨fun o elems payload m hfail hm => ?_, fun pa e elems payload m hok hrecord hm => ?_⟩, ?_⟩
  · exact (fabricMessages_dropped hs hreach hstate hstop htables hm).1 o hfail
  · exact (fabricMessages_dropped hs hreach hstate hstop htables hm).2 pa e hok hrecord
  · intro pa ra da peers ws h hws hh recVa _ _ _ _ hl hawake hctx
    subst hws
    refine ⟨fun hvalid halign hround hreach hstate hstop ⟨e, hok⟩ hwords => ?_, ?_⟩
    · rw [awakeWords_append, Bool.and_eq_true] at hwords
      have hserves (sub : Nat) (k : Nat → FRec → Prog) := fabMessage_serves hs hreach hstate hstop hwords.1 round sub k hok hwords.2 hh.symm halign
        hvalid hround hawake
      have hmarks : MemOnly s (markTables 0 (peerReads s p h).1 (markTables 0 (transReads s 0 none p record needRW) s)) :=
        (markTables_memOnly hw _ _).trans (markTables_memOnly (markTables_memOnly hw _ _).inv _ _)
      refine ⟨fun elems helems => ⟨_, congrArg Host.Outcome.next (hserves 0 _), ?_⟩, fun payload hlen =>
        ⟨_, congrArg Host.Outcome.next (hserves 1 _), ?_⟩⟩
      · rw [if_neg (by simp [helems]), Prog.run_all_cons, Prog.run_all_cons, Prog.run_all_cons, Prog.run_all_nil]
        exact partial_after hs hl hh.symm hmarks rfl record.toNat (by rw [List.length_map, helems]) hctx
      · rw [if_neg (by simp [hlen])]
        exact result_delivered hs hl hh.symm hmarks rfl record.toNat hlen
    · intro r pc rest tm bcast count rnd data sd hown hperform hserved hpart hsp hpieces hpc hop _ hheld hpool hteam ht why bytes adds _
      subst hpart hpc
      have hexec : exec (.homeSliceAccess r.id) s = .next ((fabAccept r bcast recVa count rnd data sd).run s) := by
        rw [exec_homeSliceAccess (find?_of_only hown) hsp hperform hserved (by cases bcast <;> simp [structAwake, hop]), homeAccess, hop]
        cases bcast <;> simp [fabPerform, hop]
      have hpeers : ∀ k, k ∈ h.peerNumbers → (peerEntry s r.part h k).isNone = false := fun k hk => by rw [hl.peer hs hk]; rfl
      refine ⟨_, hexec, ?_⟩
      have hwhy : why = fabWhy (structWords s pc.addr 8) bcast count rnd := by
        subst hh
        rfl
      rw [hwhy]
      cases hreason : fabWhy (structWords s pc.addr 8) bcast count rnd with
      | some n => exact fabAccept_refused hs hpieces hheld hpool hteam ht hh.symm hawake hpeers bcast recVa rnd sd hreason
      | none =>
        have hcount : count = h.elems := hh ▸ fabWhy_eq_none hreason
        cases bcast with
        | true => exact fabAccept_bcast hs hpieces hheld hpool hteam ht hh.symm hawake hpeers recVa rnd sd hl hw hreason
        | false =>
          have hadds : adds = (elemsOf h bytes).map (addendOf h) := by
            rw [elemsOf, List.map_map, ← hcount]
            rfl
          obtain ⟨htold, hreq, hafter⟩ := fabAccept_red hs hpieces hheld hpool hteam ht hh.symm hawake hpeers recVa rnd sd hl hw hop hown hctx
            hreason
          rw [hadds]
          exact ⟨htold, hreq, hafter⟩

end Sys2Proof.Machine
end

section
/-! PROOFS. Writes to scratchpad where every check code is good, and what they wake (R238, R239, R283). -/

namespace Sys2Proof.Machine

set_option Elab.async false

/-! ### Steps that change one team -/

/-- From `s` to `t` at most the team `tid`, requests and the scoreboard have changed, and groups in their registers and waits. -/
structure TeamOnly (tid : Nat) (s t : State) : Prop where
  mem : t.mem = s.mem
  mgmt : t.mgmt = s.mgmt
  mxcmds : t.mxcmds = s.mxcmds
  engines : t.engines = s.engines
  groups : t.groups.map Group.bare = s.groups.map Group.bare
  teams : ∀ k, k ≠ tid → t.team? k = s.team? k

namespace TeamOnly

variable {tid : Nat} {s t u : State}

theorem refl : TeamOnly tid s s := ⟨rfl, rfl, rfl, rfl, rfl, fun _ _ => rfl⟩

theorem trans (h : TeamOnly tid s t) (h' : TeamOnly tid t u) : TeamOnly tid s u :=
  ⟨h'.mem.trans h.mem, h'.mgmt.trans h.mgmt, h'.mxcmds.trans h.mxcmds, h'.engines.trans h.engines, h'.groups.trans h.groups,
    fun k hk => (h'.teams k hk).trans (h.teams k hk)⟩

/-- Groups, requests and the scoreboard may be other ones. -/
theorem of_waits {gs : List Group} (hgs : gs.map Group.bare = s.groups.map Group.bare) (reqs : List Req) (scores : List Score) :
    TeamOnly tid s { s with groups := gs, reqs := reqs, scores := scores } := ⟨rfl, rfl, rfl, rfl, hgs, fun _ _ => rfl⟩

theorem modTeam (s : State) {f : Team → Team} (hf : ∀ x, (f x).tid = x.tid) : TeamOnly tid s (s.modTeam tid f) := by
  refine ⟨rfl, rfl, rfl, rfl, rfl, fun k hk => ?_⟩
  rw [State.team?_map (s := s) (fun x => if x.tid == tid then f x else x) (fun x => by split <;> simp [hf]) rfl]
  cases hfind : s.team? k with
  | none => rfl
  | some x =>
    have hx := State.team?_tid hfind
    rw [Option.map_some, if_neg (by simpa [hx] using hk)]

theorem keepsWork (h : TeamOnly tid s t) : KeepsWorkOfAll s t := fun k g hg => by
  obtain ⟨g', hg', hbare⟩ := (KeepsNamed.of_bare h.groups k).grp? hg
  exact ⟨g', hg', .of_bare hbare⟩

end TeamOnly

/-- From `s` to `t` the team `tid` has changed at most in which granules are empty, and the others not. -/
structure Filled (tid : Nat) (s t : State) : Prop extends TeamOnly tid s t where
  own : ∀ tm, s.team? tid = some tm → ∃ es, t.team? tid = some { tm with empties := es }

namespace Filled

variable {tid : Nat} {s t u : State}

theorem refl : Filled tid s s := ⟨.refl, fun tm h => ⟨tm.empties, h⟩⟩

theorem trans (h : Filled tid s t) (h' : Filled tid t u) : Filled tid s u := by
  refine ⟨h.toTeamOnly.trans h'.toTeamOnly, fun tm htm => ?_⟩
  obtain ⟨es, hes⟩ := h.own tm htm
  obtain ⟨es', hes'⟩ := h'.own _ hes
  exact ⟨es', hes'⟩

theorem of_waits {gs : List Group} (hgs : gs.map Group.bare = s.groups.map Group.bare) (reqs : List Req) (scores : List Score) :
    Filled tid s { s with groups := gs, reqs := reqs, scores := scores } :=
  ⟨.of_waits hgs reqs scores, fun tm h => ⟨tm.empties, h⟩⟩

theorem modEmpties (s : State) (f : List Nat → List Nat) : Filled tid s (s.modTeam tid fun t => { t with empties := f t.empties }) :=
  ⟨.modTeam s fun _ => rfl, fun tm h => ⟨f tm.empties, State.team?_modTeam h fun _ => rfl⟩⟩

/-- Every check code of the team is still good. -/
theorem good (h : Filled tid s t) (hs : ∃ tm, s.team? tid = some tm ∧ tm.spSyn = []) : ∃ tm, t.team? tid = some tm ∧ tm.spSyn = [] := by
  obtain ⟨tm, htm, hgood⟩ := hs
  obtain ⟨es, hes⟩ := h.own tm htm
  exact ⟨_, hes, hgood⟩

/-- Steps one after another, each of which needs that every check code is good. -/
theorem foldl {α : Type} {f : State → α → State} {xs : List α}
    (hf : ∀ x, x ∈ xs → ∀ s, (∃ tm, s.team? tid = some tm ∧ tm.spSyn = []) → Filled tid s (f s x))
    (hs : ∃ tm, s.team? tid = some tm ∧ tm.spSyn = []) : Filled tid s (xs.foldl f s) := by
  induction xs generalizing s with
  | nil => exact .refl
  | cons x xs ih =>
    have hx := hf x List.mem_cons_self s hs
    exact hx.trans (ih (fun y hy => hf y (List.mem_cons_of_mem x hy)) (hx.good hs))

end Filled

/-! ### What a write wakes -/

theorem deliver_bare (r : Req) (d : Dest) (size : Nat) (signed : Bool) (bs : List Byte) (bad : Bool) (s : State) :
    (deliver r d size signed bs bad s).groups.map Group.bare = s.groups.map Group.bare := by
  have hmod (f : Group → Group) (hf : ∀ g, (f g).bare = g.bare) : (s.modGrp r.gid f).groups.map Group.bare = s.groups.map Group.bare := by
    rw [State.modGrp, List.map_map]
    refine List.map_congr_left fun g _ => ?_
    simp only [Function.comp_apply]
    split
    · exact hf g
    · rfl
  cases d with
  | none => rfl
  | lane pids l => exact hmod _ fun g => Group.bare_land g ..
  | uni x =>
    unfold deliver
    dsimp only
    split
    · rfl
    · exact hmod _ fun g => Group.bare_setS g ..

/-- A `.fe` lane of the team completes. -/
theorem filled_feComplete {tid : Nat} {s : State} {r : Req} (hr : r.team = tid) (hs : ∃ tm, s.team? tid = some tm ∧ tm.spSyn = []) :
    Filled tid s (feComplete r s) := by
  obtain ⟨tm, htm, hgood⟩ := hs
  unfold feComplete
  split
  · next d size signed _ p _ t _ _ _ =>
    obtain ⟨gs, hgs⟩ := deliver_eq r d size signed (spBytes t p.addr p.len) (spBad t p.addr p.len) s
    have hbare := deliver_bare r d size signed (spBytes t p.addr p.len) (spBad t p.addr p.len) s
    rw [hr, spRead_good hgood (by rw [hgs]; exact htm)]
    rw [hgs] at hbare ⊢
    exact .of_waits hbare _ s.scores
  · exact .refl

theorem Req.team_of_feOn {r : Req} {tid gran : Nat} {take : Bool} (h : (r.feOn tid gran == some take) = true) : r.team = tid := by
  unfold Req.feOn at h
  split at h
  · split at h
    · next hcond => simp_all
    · cases h
  · cases h

theorem team_of_mem_feWoken {s : State} {tid gran : Nat} {r : Req} (h : r ∈ (feWoken s tid gran).1) : r.team = tid := by
  have hplain (k : Bool) (c : Req → Bool) (h : r ∈ s.reqs.filter fun r => c r && r.feOn tid gran == some k) : r.team = tid :=
    Req.team_of_feOn (Bool.and_eq_true_iff.1 (List.mem_filter.1 h).2).2
  unfold feWoken at h
  dsimp only at h
  split at h
  · exact hplain false _ h
  · rcases List.mem_append.1 h with h | h
    · exact hplain false _ h
    · exact Req.team_of_feOn (Bool.and_eq_true_iff.1 (Bool.and_eq_true_iff.1 (List.mem_filter.1 h).2).1).2

theorem filled_settleScores (tid : Nat) (s : State) : Filled tid s (settleScores s) := .of_waits rfl s.reqs (settleScores s).scores

/-- A granule is filled. -/
theorem filled_fillGranule {tid gran : Nat} {s : State} (hs : ∃ tm, s.team? tid = some tm ∧ tm.spSyn = []) :
    Filled tid s (fillGranule tid gran s) := by
  unfold fillGranule
  dsimp only
  split
  · exact .refl
  · have hwoken : Filled tid s ((feWoken s tid gran).1.foldl (fun s r => feComplete r s) s) :=
      .foldl (fun r hr u hu => filled_feComplete (team_of_mem_feWoken hr) hu) hs
    have hsettled := hwoken.trans (filled_settleScores tid _)
    split
    · exact hsettled.trans (.modEmpties _ fun es => gran :: es.filter (· != gran))
    · exact hsettled

theorem filled_wakeSpWaits (tid a n : Nat) (s : State) : Filled tid s (wakeSpWaits tid a n s) := by
  unfold wakeSpWaits
  dsimp only
  rw [foldl_unpark]
  refine .of_waits ?_ _ s.scores
  rw [List.map_map]
  refine List.map_congr_left fun g _ => ?_
  simp only [Function.comp_apply, Group.wokenBy]
  split <;> rfl

theorem filled_afterSpWrite (fill : Bool) {tid : Nat} (a n : Nat) {s : State} (hs : ∃ tm, s.team? tid = some tm ∧ tm.spSyn = []) :
    Filled tid s (afterSpWrite fill tid a n s) := by
  unfold afterSpWrite
  split
  · have hfull : Filled tid s (s.modTeam tid (spFill a n)) := .modEmpties s _
    exact (hfull.trans (.foldl (fun _ _ u hu => filled_fillGranule hu) (hfull.good hs))).trans (filled_wakeSpWaits ..)
  · exact filled_wakeSpWaits ..

/-! ### Writes -/

theorem badReads_eq_nil {t : Team} (ht : t.spSyn = []) (rs : List Req) : badReads t rs = [] := by
  unfold badReads
  refine congrArg (List.foldl _ []) (List.flatMap_eq_nil_iff.2 fun q _ => ?_)
  split
  · rw [spBadWords_eq_nil ht, List.map_nil]
  · rfl

/-- The bytes are written, and what waits for them goes on. -/
theorem spWriteLogged_run {s : State} {tid : Nat} {tm : Team} (hteam : s.team? tid = some tm) (ht : tm.spSyn = []) (fill : Bool) (a : Nat)
    (bs : List Byte) :
    (spWriteLogged fill tid a bs).run s = afterSpWrite fill tid a bs.length (s.modTeam tid (spPut a bs)) := by
  have hput : (s.modTeam tid (spPut a bs)).team? tid = some (spPut a bs tm) := State.team?_modTeam hteam fun _ => rfl
  have hgood : (spPut a bs tm).spSyn = [] := by simp [spPut, ht]
  have hfilled := (filled_afterSpWrite fill a bs.length ⟨_, hput, hgood⟩).toTeamOnly
  rw [spWriteLogged, spChange, Prog.run_dyn, Prog.run_all_cons, Prog.run_all_cons, Prog.run_all_nil, spReadWords_good ht hteam, hput]
  dsimp only
  rw [badReads_eq_nil hgood, List.map_nil, Prog.run_all_nil]
  refine Prog.run_change_of_eq ?_ hfilled.mem hfilled.mgmt
  rw [spReadWords_good ht hteam]

/-- A write to the scratchpad of the team. -/
theorem spWriteLogged_writes {s : State} {tid : Nat} {tm : Team} (hteam : s.team? tid = some tm) (ht : tm.spSyn = []) (fill : Bool) (a : Nat)
    (bs : List Byte) :
    TeamOnly tid s ((spWriteLogged fill tid a bs).run s) ∧
      ∃ es, ((spWriteLogged fill tid a bs).run s).team? tid = some { tm with sp := Memory.putBytes tm.sp a bs, empties := es } := by
  have hput : (s.modTeam tid (spPut a bs)).team? tid = some (spPut a bs tm) := State.team?_modTeam hteam fun _ => rfl
  have hsyn : spPut a bs tm = { tm with sp := Memory.putBytes tm.sp a bs } := by
    cases tm
    simp only [spPut] at ht ⊢
    subst ht
    rfl
  rw [hsyn] at hput
  have hfilled := filled_afterSpWrite fill a bs.length ⟨_, hput, ht⟩
  rw [spWriteLogged_run hteam ht]
  exact ⟨(TeamOnly.modTeam s (f := spPut a bs) fun _ => rfl).trans hfilled.toTeamOnly, hfilled.own _ hput⟩

/-- Writes to the scratchpad of the team, one after another. -/
theorem spWrites {s : State} {tid : Nat} {tm : Team} (hteam : s.team? tid = some tm) (ht : tm.spSyn = []) (fill : Bool)
    (ws : List (Nat × List Byte)) :
    TeamOnly tid s ((Prog.all (ws.map fun w => spWriteLogged fill tid w.1 w.2)).run s) ∧
      ∃ es, ((Prog.all (ws.map fun w => spWriteLogged fill tid w.1 w.2)).run s).team? tid =
        some { tm with sp := ws.foldl (fun (sp : List Host.Cell) w => Memory.putBytes sp w.1 w.2) tm.sp, empties := es } := by
  induction ws generalizing s tm with
  | nil => exact ⟨.refl, tm.empties, hteam⟩
  | cons w ws ih =>
    rw [List.map_cons, Prog.run_all_cons, List.foldl_cons]
    obtain ⟨honly, es, hes⟩ := spWriteLogged_writes hteam ht fill w.1 w.2
    obtain ⟨honly', hown⟩ := ih hes ht
    exact ⟨honly.trans honly', hown⟩

end Sys2Proof.Machine
end

section
/-! PROOFS. Tiles of a team, and the matrix commands that fill or store one (R264, R271, R272). -/

namespace Sys2Proof.Machine

set_option Elab.async false

/-! ### Rows of lists -/

theorem zipIdx_map_range {α : Type} (f : Nat → α) (n : Nat) : ((List.range n).map f).zipIdx = (List.range n).map fun i => (f i, i) := by
  apply List.ext_getElem
  · simp
  · intro i h1 h2
    simp

theorem map_range_pairs {α β : Type} (f : Nat → α) (g : Nat → β) (n : Nat) :
    ((List.range n).map f).zip ((List.range n).map g) = (List.range n).map fun i => (f i, g i) := List.zip_map' ..

/-- An element of rows of one length. -/
theorem getD_flatMap_range {α : Type} {f : Nat → List α} {w : Nat} (hf : ∀ i, (f i).length = w) {n i j : Nat} (hi : i < n) (hj : j < w) (d : α) :
    ((List.range n).flatMap f).getD (w * i + j) d = (f i).getD j d := by
  have hlen (m : Nat) : ((List.range m).flatMap f).length = w * m := by
    rw [List.length_flatMap, show (fun a => (f a).length) = fun _ => w from funext hf]
    simp [Nat.mul_comm]
  induction n with
  | zero => omega
  | succ n ih =>
    rw [List.range_succ, List.flatMap_append, List.flatMap_singleton]
    rcases Nat.lt_or_ge i n with hlt | hge
    · have : w * i + j < w * n := by
        have := Nat.mul_le_mul_left w hlt
        rw [Nat.mul_succ] at this
        omega
      rw [List.getD_append _ _ _ _ (by rw [hlen]; exact this), ih hlt]
    · obtain rfl : i = n := by omega
      rw [List.getD_append_right _ _ _ _ (by rw [hlen]; omega), hlen, Nat.add_sub_cancel_left]

/-- An element of a grid. -/
theorem getD_grid {α : Type} (f : Nat → Nat → α) {n w i j : Nat} (hi : i < n) (hj : j < w) (d : α) :
    ((List.range n).flatMap fun i => (List.range w).map (f i)).getD (w * i + j) d = f i j := by
  rw [getD_flatMap_range (f := fun i => (List.range w).map (f i)) (fun i => by simp) hi hj, getD_map_range, if_pos hj]

theorem toArray_getD {α : Type} (l : List α) (i : Nat) (d : α) : l.toArray.getD i d = l.getD i d := by
  simp [Array.getD_eq_getD_getElem?, List.getD_eq_getElem?_getD]

/-! ### A tile and the flags of its team -/

/-- A team whose tile has other cells, and to whose `mxflags` some bits have come. -/
def Team.worked (tm : Team) (k : Nat) (cs : List Lane) (f : BitVec 8) : Team :=
  { tm with tiles := tm.tiles.modify k fun x => { x with cells := cs }, mxflags := tm.mxflags ||| f }

theorem Team.worked_tiles_other (tm : Team) (cs : List Lane) (f : BitVec 8) {k j : Nat} (h : j ≠ k) :
    (tm.worked k cs f).tiles[j]? = tm.tiles[j]? := by
  simp [Team.worked, Ne.symm h]

theorem Team.worked_cell {tm : Team} {k : Nat} (hk : k < tm.tiles.length) (cs : List Lane) (f : BitVec 8) (i j : Nat) :
    (tm.worked k cs f).cell k i j = (Tile.all ⟨(tm.tiles.getD k ⟨0, []⟩).tag, cs⟩).getD (64 * i + j) 0 := by
  have htile : (tm.worked k cs f).tiles.getD k ⟨0, []⟩ = ⟨(tm.tiles.getD k ⟨0, []⟩).tag, cs⟩ := by
    simp [Team.worked, List.getD_eq_getElem?_getD, hk]
  rw [Team.cell, htile]

theorem Team.worked_mxflags (tm : Team) (k : Nat) (cs : List Lane) (f : BitVec 8) : (tm.worked k cs f).mxflags = tm.mxflags ||| f := rfl

theorem Tile.all_empty_getD (t : BitVec 4) (n : Nat) : (Tile.all ⟨t, []⟩).getD n 0 = 0 := by
  rw [Tile.all, if_pos (show ([] : List Lane).isEmpty = true from rfl), List.getD_eq_getElem?_getD, List.getElem?_replicate]
  split <;> rfl

theorem Tile.all_of_ne {t : Tile} (h : t.cells ≠ []) : t.all = t.cells := by
  rw [Tile.all, if_neg (by simpa using h)]

/-- A cell of a tile whose cells are a grid. -/
theorem Team.worked_cell_grid {tm : Team} {k : Nat} (hk : k < tm.tiles.length) (cell : Nat → Nat → Lane) (f : BitVec 8) {i j : Nat} (hi : i < 128)
    (hj : j < 64) : (tm.worked k ((List.range 128).flatMap fun i => (List.range 64).map (cell i)) f).cell k i j = cell i j := by
  have hne : ((List.range 128).flatMap fun i => (List.range 64).map (cell i)) ≠ [] := by
    intro h
    have hlen := congrArg List.length h
    simp [List.length_flatMap] at hlen
  rw [Team.worked_cell hk, Tile.all_of_ne hne, getD_grid cell hi hj]

section
variable {s : State} {tid : Nat} {tm : Team} (hteam : s.team? tid = some tm)
include hteam

/-- The cells of a tile are set and flags are raised. -/
theorem raise_setCells (k : Nat) (cs : List Lane) (f : BitVec 8) :
    TeamOnly tid s (raiseMx tid f (setCells tid k cs s)) ∧ (raiseMx tid f (setCells tid k cs s)).team? tid = some (tm.worked k cs f) := by
  have hset : (setCells tid k cs s).team? tid = some { tm with tiles := tm.tiles.modify k fun x => { x with cells := cs } } :=
    State.team?_modTeam hteam (f := fun t => { t with tiles := t.tiles.modify k fun x => { x with cells := cs } }) fun _ => rfl
  have honly : TeamOnly tid s (setCells tid k cs s) :=
    .modTeam s (f := fun t => { t with tiles := t.tiles.modify k fun x => { x with cells := cs } }) fun _ => rfl
  unfold raiseMx
  split
  · next hf =>
    refine ⟨honly, hset.trans ?_⟩
    rw [Team.worked, hf, show tm.mxflags ||| (0 : BitVec 8) = tm.mxflags from BitVec.or_zero]
  · exact ⟨honly.trans (.modTeam _ fun _ => rfl), State.team?_modTeam hset fun _ => rfl⟩

/-- Flags are raised alone. -/
theorem raiseMx_leaves (f : BitVec 8) :
    TeamOnly tid s (raiseMx tid f s) ∧ (raiseMx tid f s).team? tid = some { tm with mxflags := tm.mxflags ||| f } := by
  unfold raiseMx
  split
  · next hf =>
    refine ⟨.refl, hteam.trans ?_⟩
    rw [hf, show tm.mxflags ||| (0 : BitVec 8) = tm.mxflags from BitVec.or_zero]
  · exact ⟨.modTeam _ fun _ => rfl, State.team?_modTeam hteam fun _ => rfl⟩

theorem spTouch_good (ht : tm.spSyn = []) (rs : List (Nat × Nat)) : spTouch tid rs s = s := by
  unfold spTouch
  induction rs with
  | nil => rfl
  | cons r rs ih => rw [List.foldl_cons, spRead_good ht hteam, ih]

end

/-- A program that changes the team of a command into `tm'`, and no other. -/
def Leaves (p : Prog) (s : State) (tid : Nat) (tm' : Team) : Prop := TeamOnly tid s (p.run s) ∧ (p.run s).team? tid = some tm'

/-- A program that sets the cells of a tile, raises flags and reads scratchpad. -/
theorem leaves_worked {s : State} {tid : Nat} {tm : Team} (hteam : s.team? tid = some tm) (ht : tm.spSyn = []) (k : Nat) (cs : List Lane)
    (f : BitVec 8) (rs : List (Nat × Nat)) :
    Leaves (.change fun s => spTouch tid rs (raiseMx tid f (setCells tid k cs s))) s tid (tm.worked k cs f) := by
  obtain ⟨honly, hown⟩ := raise_setCells hteam k cs f
  have hrun : (Prog.change fun s => spTouch tid rs (raiseMx tid f (setCells tid k cs s))).run s = raiseMx tid f (setCells tid k cs s) :=
    Prog.run_change_of_eq (spTouch_good hown ht rs) honly.mem honly.mgmt
  rw [Leaves, hrun]
  exact ⟨honly, hown⟩

/-! ### mzero and mld (R267, R272) -/

section
variable {s : State} {c : MxCmd} {tm : Team} (hteam : s.team? c.team = some tm) (ht : tm.spSyn = [])
include hteam

theorem setCells_leaves (k : Nat) : Leaves (.change (setCells c.team k [])) s c.team (tm.worked k [] 0) := by
  obtain ⟨honly, hown⟩ := raise_setCells hteam k [] 0
  have hrun : (Prog.change (setCells c.team k [])).run s = raiseMx c.team 0 (setCells c.team k [] s) :=
    Prog.run_change_of_eq rfl honly.mem honly.mgmt
  rw [Leaves, hrun]
  exact ⟨honly, hown⟩

include ht

omit hteam in
/-- A cell of a row that mld reads. -/
theorem spCell_eq (a : Nat) : (if spBad tm a 4 then (0 : Nat) else bytesNat (spBytes tm a 4)) = bytesNat (Memory.bytes tm.sp a 4) := by
  rw [spBad_eq_false ht, if_neg Bool.false_ne_true, spBytes_eq ht]

/-- The cells that mld reads. -/
def mldCell (tm : Team) (off pitch : Int) (i j : Nat) : Lane :=
  BitVec.ofNat 32 (bytesNat (Memory.bytes tm.sp ((off + (i : Int) * pitch).toNat + 4 * j) 4))

theorem stepMld_leaves (k : Nat) (off pitch : Int) :
    Leaves (stepMld c k off pitch) s c.team (tm.worked k ((List.range 128).flatMap fun i => (List.range 64).map (mldCell tm off pitch i)) 0) := by
  have hw := leaves_worked hteam ht k ((List.range 128).flatMap fun i => (List.range 64).map (mldCell tm off pitch i)) 0
    ((List.range 128).map fun (i : Nat) => ((off + (i : Int) * pitch).toNat, 256))
  unfold Leaves at hw ⊢
  rw [stepMld, Prog.run_dyn, hteam]
  dsimp only
  rw [if_pos (by rw [ht]; rfl), List.map_nil, Prog.run_all_cons, Prog.run_all_nil, Prog.run_all_cons, Prog.run_all_nil, List.isEmpty_nil, if_pos rfl]
  simp only [spCell_eq ht]
  exact hw

end

end Sys2Proof.Machine
end

section
/-! PROOFS. What `mst` writes (R175, R176, R272). -/

namespace Sys2Proof.Machine

set_option Elab.async false

/-! ### Flags as `mxflags` keeps them (R176, R264) -/

theorem and_ffNv_ne_zero (f : FFlags) : (f &&& ffNv != 0) = f.getLsbD 0 := by
  revert f
  decide

theorem and_ffOf_ne_zero (f : FFlags) : (f &&& ffOf != 0) = f.getLsbD 2 := by
  revert f
  decide

theorem and_ffSa_ne_zero (f : FFlags) : (f &&& ffSa != 0) = f.getLsbD 5 := by
  revert f
  decide

/-- A block that is built raises sa and nv alone. -/
theorem mxOfFlags_dxBuild (m d : Nat) (xs : List FV) :
    mxOfFlags (dxBuild m d xs).2 = (if (dxBuild m d xs).2.getLsbD 5 then (4 : BitVec 8) else 0) ||| if (dxBuild m d xs).2.getLsbD 0 then 2 else 0 := by
  obtain ⟨sa, nv, hflags⟩ : ∃ sa nv : Bool, (dxBuild m d xs).2 = (if sa then ffSa else 0) ||| (if nv then ffNv else 0) := ⟨_, _, rfl⟩
  rw [hflags]
  cases sa <;> cases nv <;> rfl

/-- The bytes of a piece of some pieces of one length. -/
theorem take_drop_flatMap_range {α : Type} {f : Nat → List α} {w : Nat} (hf : ∀ i, (f i).length = w) {n j : Nat} (hj : j < n) :
    (((List.range n).flatMap f).drop (w * j)).take w = f j := by
  have hlen (m : Nat) : ((List.range m).flatMap f).length = w * m := by
    rw [List.length_flatMap, show (fun a => (f a).length) = fun _ => w from funext hf]
    simp [Nat.mul_comm]
  obtain ⟨k, rfl⟩ := Nat.exists_eq_add_of_lt hj
  rw [show j + k + 1 = j + (1 + k) by omega, List.range_add, List.flatMap_append, List.drop_left' (hlen j), List.range_add, List.map_append,
    List.flatMap_append, List.take_left' (by simp [hf])]
  simp

/-- The block that is built of 32 values in F32. -/
theorem builtBlock_f32 (m d : Nat) (v : Nat → Lane) :
    builtBlock 1 m d ((List.range 32).flatMap fun j => natBytes 4 (v j).toNat) =
      let b := dxBuild m d ((List.range 32).map fun j => fmtF32.read (v j).toNat)
      (b.1, mxOfFlags b.2) := by
  have hvals : ((List.range 32).map fun j => fmtF32.read (bytesNat
      ((((List.range 32).flatMap fun j => natBytes 4 (v j).toNat).drop (4 * j)).take 4))) =
      (List.range 32).map fun j => fmtF32.read (v j).toNat := by
    refine List.map_congr_left fun j hj => ?_
    have hlt : (v j).toNat < 256 ^ 4 := (v j).isLt
    rw [take_drop_flatMap_range (f := fun j => natBytes 4 (v j).toNat) (fun _ => natBytes_length ..) (List.mem_range.1 hj), bytesNat_natBytes,
      Nat.mod_eq_of_lt hlt]
  unfold builtBlock
  dsimp only
  rw [hvals]
  exact Prod.ext rfl (mxOfFlags_dxBuild ..).symm

/-! ### The rows and panels of `mst` (R272) -/

section
variable (m d : Nat) (off pitch : Int) (tm : Team) (k : Nat)

theorem mstRows_raw : mstRows 0 m d off pitch (tm.tiles.getD k ⟨0, []⟩).all =
    ((List.range 128).map fun (i : Nat) => ((off + (i : Int) * pitch).toNat, (List.range 64).flatMap fun j =>
      natBytes 4 (tm.cell k i j).toNat), 0) := by
  simp only [mstRows, toArray_getD, Team.cell]

theorem mstRows_bf16 : mstRows 1 m d off pitch (tm.tiles.getD k ⟨0, []⟩).all =
    ((List.range 128).map fun (i : Nat) => ((off + (i : Int) * pitch).toNat, (List.range 64).flatMap fun j =>
      natBytes 2 (fmtBF16.convert 0 (fmtF32.read (tm.cell k i j).toNat)).1),
      if (List.range 128).any fun i => (List.range 64).any fun j =>
        (fmtBF16.convert 0 (fmtF32.read (tm.cell k i j).toNat)).2.getLsbD 0 then 2 else 0) := by
  simp only [mstRows, toArray_getD, zipIdx_map_range, List.map_map, List.any_map, Function.comp_def, List.flatMap_map, and_ffNv_ne_zero]
  rfl

theorem mstRows_dx : mstRows 2 m d off pitch (tm.tiles.getD k ⟨0, []⟩).all =
    let block := fun (h i : Nat) => builtBlock 1 m d ((List.range 32).flatMap fun j => natBytes 4 (tm.cell k i (32 * h + j)).toNat)
    ([0, 1].flatMap fun (h : Nat) => (List.range 128).map fun (i : Nat) =>
      ((off + (h : Int) * pitch).toNat + i * (4 * (3 + m)), (block h i).1.flatMap fun x => natBytes 4 x),
    ([0, 1].flatMap fun (h : Nat) => (List.range 128).map fun (i : Nat) => (block h i).2).foldl (· ||| ·) 0) := by
  simp only [mstRows, toArray_getD, List.map_flatMap, List.map_map, Function.comp_def, builtBlock_f32 m d fun j => tm.cell k _ (_ + j)]
  rfl

end

/-- A team to whose scratchpad some rows have been written. -/
def Team.stored (tm : Team) (ws : List (Nat × List Byte)) (es : List Nat) : Team :=
  { tm with sp := ws.foldl (fun (sp : List Host.Cell) w => Memory.putBytes sp w.1 w.2) tm.sp, empties := es }

theorem Team.stored_sp (tm : Team) (ws : List (Nat × List Byte)) (es : List Nat) :
    (tm.stored ws es).sp = ws.foldl (fun (sp : List Host.Cell) w => Memory.putBytes sp w.1 w.2) tm.sp := rfl

theorem Team.stored_mxflags (tm : Team) (ws : List (Nat × List Byte)) (es : List Nat) : (tm.stored ws es).mxflags = tm.mxflags := rfl

theorem stepMst_leaves {s : State} {c : MxCmd} {tm : Team} (hteam : s.team? c.team = some tm) (ht : tm.spSyn = []) (k form m d : Nat)
    (off pitch : Int) :
    let r := mstRows form m d off pitch (tm.tiles.getD k ⟨0, []⟩).all
    ∃ es, Leaves (stepMst c k form m d off pitch) s c.team ({ tm with mxflags := tm.mxflags ||| r.2 }.stored r.1 es) := by
  intro r
  obtain ⟨honly, hown⟩ := raiseMx_leaves hteam r.2
  have hraise : (Prog.change (raiseMx c.team r.2)).run s = raiseMx c.team r.2 s := Prog.run_change_of_eq rfl honly.mem honly.mgmt
  obtain ⟨hwrites, es, hsp⟩ := spWrites hown ht true r.1
  refine ⟨es, ?_⟩
  rw [Leaves, stepMst, Prog.run_dyn, hteam]
  dsimp only
  rw [Prog.run_all_cons, Prog.run_all_cons, Prog.run_all_nil, hraise]
  exact ⟨honly.trans hwrites, hsp⟩

end Sys2Proof.Machine
end

section
/-! PROOFS. What `osm.acc` leaves (R274). -/

namespace Sys2Proof.Machine

set_option Elab.async false

/-! ### Lists as grids -/

/-- A list of as many elements as a grid is the grid of its elements. -/
theorem eq_grid {α : Type} {l : List α} {n w : Nat} (hlen : l.length = w * n) (d : α) :
    l = (List.range n).flatMap fun i => (List.range w).map fun j => l.getD (w * i + j) d := by
  have hgrid : ((List.range n).flatMap fun i => (List.range w).map fun j => l.getD (w * i + j) d).length = w * n := by
    rw [List.length_flatMap]
    simp [Nat.mul_comm]
  refine List.ext_getElem (hlen.trans hgrid.symm) fun k h1 h2 => ?_
  have hw : 0 < w := Nat.pos_of_ne_zero fun h0 => by rw [hlen, h0, Nat.zero_mul] at h1; omega
  have hk : w * (k / w) + k % w = k := Nat.div_add_mod k w
  have hg := getD_grid (fun i j => l.getD (w * i + j) d) (i := k / w) (j := k % w) (n := n) (w := w)
    (Nat.div_lt_of_lt_mul (by omega)) (Nat.mod_lt k hw) d
  rw [hk, List.getD_eq_getElem _ _ h2, List.getD_eq_getElem _ _ h1] at hg
  exact hg.symm

/-- A list of as many elements as a grid, changed by the place of each element. -/
theorem zipIdx_map_grid {α β : Type} {l : List α} {n w : Nat} (hlen : l.length = w * n) (g : α × Nat → β) (d : α) :
    l.zipIdx.map g = (List.range n).flatMap fun i => (List.range w).map fun j => g (l.getD (w * i + j) d, w * i + j) := by
  have hl : (l.zipIdx.map g).length = w * n := by rw [List.length_map, List.length_zipIdx, hlen]
  rw [eq_grid hl (g (d, 0))]
  refine List.flatMap_congr fun i hi => List.map_congr_left fun j hj => ?_
  have hlt : w * i + j < l.length := by
    have h1 := List.mem_range.1 hi
    have h2 := List.mem_range.1 hj
    have h3 := Nat.mul_le_mul_left w h1
    rw [Nat.mul_succ] at h3
    omega
  rw [List.getD_eq_getElem _ _ (by rw [List.length_map, List.length_zipIdx]; exact hlt), List.getD_eq_getElem _ _ hlt]
  simp

theorem zipIdx_map_eq_range {α β : Type} (l : List α) (g : α × Nat → β) (d : α) :
    l.zipIdx.map g = (List.range l.length).map fun k => g (l.getD k d, k) := by
  apply List.ext_getElem
  · simp
  · intro k h1 h2
    simp at h1
    simp [h1]

theorem any_grid {α : Type} (f : Nat → Nat → α) (p : α → Bool) :
    ((List.range 128).flatMap fun i => (List.range 64).map (f i)).any p = someCell fun i j => p (f i j) := by
  simp only [someCell, List.any_flatMap, List.any_map, Function.comp_def]

/-! ### Vectors -/

section
variable {tm : Team} (ht : tm.spSyn = [])
include ht

theorem readVec_good (off : Nat) : readVec tm off = (List.range 128).map fun i => (bytesNat (Memory.bytes tm.sp (off + 4 * i) 4), false) := by
  simp only [readVec, spBad_eq_false ht, spBytes_eq ht, Bool.false_eq_true, if_false]

end

theorem logVec_good (c : MxCmd) {v : List (Nat × Bool)} (hv : ∀ e, e ∈ v → e.2 = false) : logVec c v = [] := by
  refine List.filterMap_eq_nil_iff.2 fun e he => ?_
  have hmem : e.1 ∈ v := by
    obtain ⟨x, k⟩ := e
    exact (List.mem_zipIdx' he).2 ▸ List.getElem_mem _
  rw [hv _ hmem]
  rfl

theorem osmFlags_eq (f : FFlags) : osmFlags f = (if f.getLsbD 2 then (1 : BitVec 8) else 0) ||| if f.getLsbD 0 then 2 else 0 := by
  revert f
  decide

theorem getLsbD_orFlags (fs : List FFlags) (i : Nat) : (orFlags fs).getLsbD i = fs.any fun f => f.getLsbD i := by
  simp [orFlags, getLsbD_foldl_or]

/-! ### osm.acc -/

/-- The product that `osm.acc` leaves in a cell, with its flags. -/
def accCell (tm : Team) (k cv i j : Nat) : Nat × FFlags :=
  fmtF32.mulV 0 (fmtF32.read (tm.cell k i j).toNat) (fmtF32.read (bytesNat (Memory.bytes tm.sp (cv + 4 * i) 4)))

theorem stepOsmAcc_leaves {s : State} {c : MxCmd} {tm : Team} (hteam : s.team? c.team = some tm) (ht : tm.spSyn = []) (k cv : Nat) :
    ∃ cs f, Leaves (stepOsmAcc c k cv) s c.team (tm.worked k cs f) ∧ ((tm.tiles.getD k ⟨0, []⟩).all.length = 8192 →
      (cs = (List.range 128).flatMap fun i => (List.range 64).map fun j => BitVec.ofNat 32 (accCell tm k cv i j).1) ∧
      f = (if someCell fun i j => (accCell tm k cv i j).2.getLsbD 2 then 1 else 0) |||
        if someCell fun i j => (accCell tm k cv i j).2.getLsbD 0 then 2 else 0) := by
  obtain ⟨res, hres⟩ : ∃ res, res = (tm.tiles.getD k ⟨0, []⟩).all.zipIdx.map fun x =>
    fmtF32.mulV 0 (fmtF32.read x.1.toNat) (fmtF32.read ((readVec tm cv).getD (x.2 / 64) (0, false)).1) := ⟨_, rfl⟩
  refine ⟨res.map fun r => BitVec.ofNat 32 r.1, osmFlags (orFlags (res.map Prod.snd)), ?_, fun hlen => ?_⟩
  · have hgood : ∀ e, e ∈ readVec tm cv → e.2 = false := by
      rw [readVec_good ht]
      exact List.forall_mem_map.2 fun _ _ => rfl
    have hue : (readVec tm cv).any Prod.snd = false := List.any_eq_false.2 fun e he => by rw [hgood e he]; exact Bool.false_ne_true
    have hw := leaves_worked hteam ht k (res.map fun r => BitVec.ofNat 32 r.1) (osmFlags (orFlags (res.map Prod.snd))) [(cv, 512)]
    unfold Leaves at hw ⊢
    rw [stepOsmAcc, Prog.run_dyn, hteam]
    simp only [toArray_getD, logVec_good c hgood, hue, ← hres]
    rw [Prog.run_all_cons, Prog.run_all_nil, Prog.run_all_cons, Prog.run_all_nil, if_neg Bool.false_ne_true,
      show osmFlags (orFlags (res.map Prod.snd)) ||| (0 : BitVec 8) = osmFlags (orFlags (res.map Prod.snd)) from BitVec.or_zero]
    exact hw
  · have hgrid : res = (List.range 128).flatMap fun i => (List.range 64).map (accCell tm k cv i) := by
      rw [hres, zipIdx_map_grid (n := 128) (w := 64) hlen _ 0]
      refine List.flatMap_congr fun i hi => List.map_congr_left fun j hj => ?_
      have hj' := List.mem_range.1 hj
      rw [readVec_good ht, getD_map_range, if_pos (by have := List.mem_range.1 hi; omega), show (64 * i + j) / 64 = i by omega]
      rfl
    rw [osmFlags_eq, getLsbD_orFlags, getLsbD_orFlags, hgrid, List.any_map, List.any_map, any_grid, any_grid, List.map_flatMap]
    exact ⟨by simp only [List.map_map, Function.comp_def], rfl⟩

end Sys2Proof.Machine
end

section
/-! PROOFS. A K-step of `mloop` and `mloop.sp` (R173, R183, R184, R266, R269, R270). -/

namespace Sys2Proof.Machine

set_option Elab.async false

theorem bits_or_zero (f : BitVec 8) : f ||| 0 = f := BitVec.or_zero

theorem any_congr_mem {α : Type} {l : List α} {p q : α → Bool} (h : ∀ a, a ∈ l → p a = q a) : l.any p = l.any q := by
  rw [Bool.eq_iff_iff]
  simp only [List.any_eq_true]
  exact exists_congr fun a => and_congr_right fun ha => by rw [h a ha]

/-! ### Blocks -/

/-- The header of a block fails: one of its bytes 2 and 3 is not zero (R173). -/
def headerFails (tm : Team) (fmt : BitVec 4) (q : Nat) : Bool := fmt != 9 && bytesNat (Memory.bytes tm.sp (q + 2) 2) != 0

section
variable {tm : Team} (ht : tm.spSyn = [])
include ht

/-- The words of a block that a read takes. -/
theorem readBlock_good (fmt : BitVec 4) (p a : Nat) :
    readBlock tm fmt p a =
      let ws := (List.range (fetchedWords fmt p)).map fun i => bytesNat (Memory.bytes tm.sp (a + 4 * i) 4)
      ⟨(List.range 32).map fun j => if fmt == 9 then i8Elem p ws j else dxElem p ws j, false, fmt != 9 && dxBadHeader ws⟩ := by
  simp only [readBlock, spBad_eq_false ht, spBytes_eq ht, Bool.false_eq_true, if_false]

theorem readBlock_bad (fmt : BitVec 4) (p a : Nat) : (readBlock tm fmt p a).bad = false := by
  rw [readBlock_good ht]

theorem readBlock_elems_length (fmt : BitVec 4) (p a : Nat) : (readBlock tm fmt p a).elems.length = 32 := by
  rw [readBlock_good ht]
  simp

theorem readBlock_header (fmt : BitVec 4) {p : Nat} (hp : 0 < p) (a : Nat) :
    (readBlock tm fmt p a).header = headerFails tm fmt a := by
  have hn : 0 < fetchedWords fmt p := by
    unfold fetchedWords
    split <;> omega
  have hword : (((List.range (fetchedWords fmt p)).map fun i => bytesNat (Memory.bytes tm.sp (a + 4 * i) 4)).getD 0 0) % 2 ^ 32 / 2 ^ 16 =
      bytesNat (Memory.bytes tm.sp (a + 2) 2) := by
    rw [getD_map_range, if_pos hn]
    have h0 := (Memory.get tm.sp a).isLt
    have h1 := (Memory.get tm.sp (a + 1)).isLt
    have h2 := (Memory.get tm.sp (a + 2)).isLt
    have h3 := (Memory.get tm.sp (a + 3)).isLt
    simp only [Memory.bytes, List.range_succ, List.range_zero, List.nil_append, List.cons_append, List.map_cons, List.map_nil, bytesNat,
      Nat.mul_zero, Nat.add_zero]
    rw [show a + 2 + 1 = a + 3 from rfl]
    omega
  rw [readBlock_good ht, headerFails]
  dsimp only
  rw [dxBadHeader, dxWord, hword]

end

/-- The pattern of a sparse group: the place of a stored element, and whether its indices rise. -/
theorem sparsePos_eq {v : Nat} (hv : v < 2 ^ 64) (pat : BitVec 2) (e : Nat) :
    sparsePos pat.toNat (BitVec.ofNat 64 v) e =
      (if pat = 0 then 4 * (e / 2) + v / 2 ^ (2 * e) % 4 else 4 * e + v / 2 ^ (2 * e) % 4,
        pat != 0 || decide (v / 2 ^ (2 * (e / 2 * 2)) % 4 < v / 2 ^ (2 * (e / 2 * 2 + 1)) % 4)) := by
  have hbits (e : Nat) : bitsOf (BitVec.ofNat 64 v) (2 * e) 2 = v / 2 ^ (2 * e) % 4 := by
    rw [bitsOf_eq, BitVec.toNat_ofNat, Nat.mod_eq_of_lt hv]; rfl
  have hzero : pat.toNat = 0 ↔ pat = 0 := ⟨fun h => BitVec.eq_of_toNat_eq h, fun h => by rw [h]; rfl⟩
  simp only [sparsePos, hbits, hzero]
  by_cases h : pat = 0
  · have hne : (pat != 0) = false := by simp [h]
    rw [if_pos h, if_pos h, hne, Bool.false_or]
  · rw [if_neg h, if_neg h, bne_iff_ne.2 h, Bool.true_or]

/-! ### The cells of a K-step -/

theorem bytesNat_lt_word (m : List Host.Cell) (a : Nat) : bytesNat (Memory.bytes m a 8) < 2 ^ 64 := by
  have h := bytesNat_lt (Memory.bytes m a 8)
  rwa [Memory.bytes_length, show 256 ^ 8 = 2 ^ 64 by norm_num] at h

/-- What a K-step leaves in a cell, with its flags. -/
def kCell (tm : Team) (sparse : Bool) (x : MloopX) (a b md : Nat) (old : Lane) (i j : Nat) : Lane × BitVec 8 :=
  let ps := mloopPairs tm sparse x a b md i j
  let e := dot (ps.map Prod.fst) (ps.map Prod.snd)
  if x.afmt == 9 then cellI32 old e else cellF32 old e

section
variable {tm : Team} (ht : tm.spSyn = []) (c : MxCmd) (sparse : Bool) (x : MloopX) (a b md : Nat) (cells : List Lane)
include ht

/-- The metadata of a row as a K-step reads it. -/
theorem mds_getD {i : Nat} (hi : i < 128) :
    ((List.range 128).map fun i => if sparse then (spWord tm (md + 8 * i), spBad tm (md + 8 * i) 8) else (0, false)).getD i (0, false) =
      if sparse then (BitVec.ofNat 64 (bytesNat (Memory.bytes tm.sp (md + 8 * i) 8)), false) else (0, false) := by
  rw [getD_map_range, if_pos hi, spWord_eq ht, spBad_eq_false ht]

/-- Whether the group of a stored element counts (R270). -/
def mloopGood (tm : Team) (sparse : Bool) (x : MloopX) (md i e : Nat) : Bool :=
  let idx := fun (e : Nat) => bytesNat (Memory.bytes tm.sp (md + 8 * i) 8) / 2 ^ (2 * e) % 4
  !sparse || x.pat != 0 || decide (idx (e / 2 * 2) < idx (e / 2 * 2 + 1))

theorem sparsePos_mds {i : Nat} (hi : i < 128) (e : Nat) :
    (!sparse || (sparsePos x.pat.toNat (((List.range 128).map fun i =>
      if sparse then (spWord tm (md + 8 * i), spBad tm (md + 8 * i) 8) else (0, false)).getD i (0, false)).1 e).2) = mloopGood tm sparse x md i e := by
  rw [mds_getD ht sparse md hi, mloopGood]
  cases sparse with
  | false => rfl
  | true => rw [if_pos rfl, sparsePos_eq (bytesNat_lt_word tm.sp (md + 8 * i))]; rfl

/-- The elements of a row of A that count in a K-step. -/
def kRow (tm : Team) (sparse : Bool) (x : MloopX) (a md i : Nat) : List FV :=
  (List.range 32).map fun e => if mloopGood tm sparse x md i e then
    (readBlock tm x.afmt (x.pa.toNat + 1) (a + i * fmtBytes x.afmt)).elems.getD e (.fin false 0 0) else .fin false 0 0

/-- The place in a column of B of a stored element (R270). -/
def kPlace (tm : Team) (sparse : Bool) (x : MloopX) (md i e : Nat) : Nat :=
  let idx := bytesNat (Memory.bytes tm.sp (md + 8 * i) 8) / 2 ^ (2 * e) % 4
  if sparse then (if x.pat = 0 then 4 * (e / 2) + idx else 4 * e + idx) else e

/-- A column of B. -/
def kCol (tm : Team) (sparse : Bool) (x : MloopX) (b j : Nat) : List FV :=
  (List.range (bBlocks sparse x)).flatMap fun k =>
    (readBlock tm x.bfmt (x.pb.toNat + 1) (b + (j * bBlocks sparse x + k) * fmtBytes x.bfmt)).elems

omit ht in
theorem mloopPairs_eq (i j : Nat) : mloopPairs tm sparse x a b md i j = (List.range 32).map fun e =>
    (if mloopGood tm sparse x md i e then (readBlock tm x.afmt (x.pa.toNat + 1) (a + i * fmtBytes x.afmt)).elems.getD e (.fin false 0 0)
      else .fin false 0 0, (kCol tm sparse x b j).getD (kPlace tm sparse x md i e) (.fin false 0 0)) := by
  cases sparse <;> rfl

omit ht in
theorem kCell_of_dot {xs ys : List FV} {old : Lane} {i j : Nat} (hx : xs = (mloopPairs tm sparse x a b md i j).map Prod.fst)
    (hy : ys = (mloopPairs tm sparse x a b md i j).map Prod.snd) :
    (if x.afmt == 9 then cellI32 old (dot xs ys) else cellF32 old (dot xs ys)) = kCell tm sparse x a b md old i j := by
  rw [hx, hy, kCell]

/-- A K-step where every check code is good. -/
theorem kStep_good : ∃ ranges, kStep c tm sparse x a b md cells =
    let res := (List.range 128).flatMap fun i => (List.range 64).map fun j => kCell tm sparse x a b md (cells.getD (64 * i + j) 0) i j
    (res.map Prod.fst, (res.map Prod.snd).foldl (· ||| ·) 0
      ||| (if sparse && (List.range 128).any fun i => (List.range 32).any fun e => !mloopGood tm sparse x md i e then mxMv else 0)
      ||| (if ((List.range 128).any fun i => headerFails tm x.afmt (a + i * fmtBytes x.afmt)) ||
          (List.range 64).any fun j => (List.range (bBlocks sparse x)).any fun k =>
            headerFails tm x.bfmt (b + (j * bBlocks sparse x + k) * fmtBytes x.bfmt) then mxNv else 0), [], ranges) := by
  unfold kStep
  extract_lets pa pb nb la lb arows bcols mds ok rows poss cols old res mv header badRows badMd badCols ue res'
  have hmds (i : Nat) (hi : i < 128) : (mds.getD i (0, false)).2 = false := by
    rw [mds_getD ht sparse md hi]
    split <;> rfl
  have hok (i : Nat) (hi : i < 128) (e : Nat) : ok i e = mloopGood tm sparse x md i e := sparsePos_mds ht sparse x md hi e
  have hrow (i : Nat) (hi : i < 128) : arows.getD i ⟨[], true, false⟩ = readBlock tm x.afmt pa (a + i * fmtBytes x.afmt) := by
    rw [getD_map_range, if_pos hi]
  have hrow' (i : Nat) (hi : i < 128) : arows.getD i ⟨[], false, false⟩ = readBlock tm x.afmt pa (a + i * fmtBytes x.afmt) := by
    rw [getD_map_range, if_pos hi]
  have hrows : rows = (List.range 128).map (kRow tm sparse x a md) := List.map_congr_left fun i hi => by
    have hi' := List.mem_range.1 hi
    dsimp only
    rw [hrow i hi', zipIdx_map_eq_range _ _ (.fin false 0 0), readBlock_elems_length ht]
    refine List.map_congr_left fun e _ => ?_
    rw [hok i hi', hmds i hi', Bool.not_false, Bool.and_true]
  have hposs : poss = (List.range 128).map fun i => (List.range 32).map (kPlace tm sparse x md i) := List.map_congr_left fun i hi =>
    List.map_congr_left fun e _ => by
      rw [mds_getD ht sparse md (List.mem_range.1 hi), kPlace]
      cases sparse with
      | false => rfl
      | true =>
        rw [if_pos rfl, if_pos rfl, sparsePos_eq (bytesNat_lt_word tm.sp (md + 8 * i))]
        rfl
  have hcols : cols = (List.range 64).map fun j => (kCol tm sparse x b j).toArray := by
    show List.map _ (List.map _ _) = _
    rw [List.map_map]
    refine List.map_congr_left fun j _ => ?_
    rw [Function.comp_apply, List.flatMap_map]
    rfl
  have hres : res = res' := by
    show List.flatMap _ _ = List.flatMap _ _
    rw [hrows, hposs, map_range_pairs, zipIdx_map_range, List.flatMap_map]
    refine List.flatMap_congr fun i hi => ?_
    rw [hcols, zipIdx_map_range, List.map_map]
    refine List.map_congr_left fun j hj => ?_
    have hcell : old.getD (64 * i + j) 0 = cells.getD (64 * i + j) 0 := toArray_getD ..
    simp only [Function.comp_apply, hcell, toArray_getD]
    refine kCell_of_dot sparse x a b md ?_ ?_
    · rw [mloopPairs_eq, List.map_map]
      rfl
    · rw [mloopPairs_eq, List.map_map, List.map_map]
      rfl
  have hmv : mv = (sparse && (List.range 128).any fun i => (List.range 32).any fun e => !mloopGood tm sparse x md i e) := by
    refine congrArg (sparse && ·) (any_congr_mem fun i hi => ?_)
    have hi' := List.mem_range.1 hi
    rw [hmds i hi', Bool.not_false, Bool.true_and]
    simp only [hok i hi']
  have hheader : header = (((List.range 128).any fun i => headerFails tm x.afmt (a + i * fmtBytes x.afmt)) ||
          (List.range 64).any fun j => (List.range (bBlocks sparse x)).any fun k =>
            headerFails tm x.bfmt (b + (j * bBlocks sparse x + k) * fmtBytes x.bfmt)) := by
    have ha (q : Nat) : (readBlock tm x.afmt pa q).header = headerFails tm x.afmt q := readBlock_header ht _ (Nat.succ_pos _) q
    have hb (q : Nat) : (readBlock tm x.bfmt pb q).header = headerFails tm x.bfmt q := readBlock_header ht _ (Nat.succ_pos _) q
    show (List.any (List.map _ _) _ || List.any (List.map _ _) _) = _
    simp only [List.any_map, Function.comp_def, ha, hb]
    rfl
  have hbadRows : badRows = [] := by
    refine List.filter_eq_nil_iff.2 fun i hi => ?_
    rw [hrow' i (List.mem_range.1 hi), readBlock_bad ht]
    exact Bool.false_ne_true
  have hbadMd : badMd = [] := by
    refine List.filter_eq_nil_iff.2 fun i hi => ?_
    rw [hmds i (List.mem_range.1 hi)]
    exact Bool.false_ne_true
  have hbadCols : badCols = [] := by
    show List.flatMap _ (List.zipIdx (List.map _ _)) = _
    rw [zipIdx_map_range, List.flatMap_map]
    refine List.flatMap_eq_nil_iff.2 fun j _ => ?_
    dsimp only
    rw [List.filter_eq_nil_iff.2, List.map_nil]
    exact List.forall_mem_map.2 fun k _ => by rw [readBlock_bad ht]; exact Bool.false_ne_true
  have hue : ue = false := by
    show (!(badRows.isEmpty && badCols.isEmpty && badMd.isEmpty)) = false
    rw [hbadRows, hbadMd, hbadCols]
    rfl
  rw [hres, hmv, hheader, hbadRows, hbadMd, hbadCols, hue, if_neg Bool.false_ne_true, bits_or_zero]
  exact ⟨_, rfl⟩

end

end Sys2Proof.Machine
end

section
/-! PROOFS. The cells and the flags that a K-step leaves (R183, R184, R264, R269). -/

namespace Sys2Proof.Machine

set_option Elab.async false

/-! ### Integers among the values (R184, R266) -/

/-- An integer as the elements of a block of the I8 plane form hold it. -/
def FV.IsInt (v : FV) : Prop := ∃ n m, v = .fin n m 0

theorem FV.isInt_zero : (FV.fin false 0 0).IsInt := ⟨_, _, rfl⟩

/-- A product added to a sum of integers. -/
theorem FV.plus_times_int {e x y : FV} (he : e.IsInt) (hx : x.IsInt) (hy : y.IsInt) :
    (e.plus (x.times y)).IsInt ∧ (e.plus (x.times y)).int = e.int + x.int * y.int := by
  obtain ⟨n, m, rfl⟩ := he
  obtain ⟨n1, m1, rfl⟩ := hx
  obtain ⟨n2, m2, rfl⟩ := hy
  have hsum : (FV.fin n m 0).plus ((FV.fin n1 m1 0).times (FV.fin n2 m2 0)) =
      .fin (decide ((FV.fin n m 0).int + (FV.fin n1 m1 0).int * (FV.fin n2 m2 0).int < 0))
        ((FV.fin n m 0).int + (FV.fin n1 m1 0).int * (FV.fin n2 m2 0).int).natAbs 0 := by
    have hval : (exactSum n m 0 (n1 ^^ n2) (m1 * m2) (0 + 0)) = ((FV.fin n m 0).int + (FV.fin n1 m1 0).int * (FV.fin n2 m2 0).int, 0) := by
      cases n <;> cases n1 <;> cases n2 <;> simp [exactSum, FV.int]
    simp only [FV.times, FV.plus, hval]
  rw [hsum]
  refine ⟨⟨_, _, rfl⟩, ?_⟩
  generalize (FV.fin n m 0).int + (FV.fin n1 m1 0).int * (FV.fin n2 m2 0).int = z
  simp only [FV.int]
  split
  · next h =>
    have := of_decide_eq_true h
    simp only [Int.toNat_zero, pow_zero, mul_one]
    omega
  · next h =>
    have : ¬z < 0 := fun hz => h (decide_eq_true hz)
    simp only [Int.toNat_zero, pow_zero, mul_one]
    omega

/-- An exact sum of products of integers (R184). -/
theorem dot_int {ps : List (FV × FV)} (hps : ∀ p, p ∈ ps → p.1.IsInt ∧ p.2.IsInt) :
    (dot (ps.map Prod.fst) (ps.map Prod.snd)).int = (ps.map fun p => p.1.int * p.2.int).foldl (· + ·) 0 := by
  have hfold (e : FV) (he : e.IsInt) :
      (ps.foldl (fun e p => e.plus (p.1.times p.2)) e).int = (ps.map fun p => p.1.int * p.2.int).foldl (· + ·) e.int := by
    induction ps generalizing e with
    | nil => rfl
    | cons p ps ih =>
      obtain ⟨h1, h2⟩ := hps p List.mem_cons_self
      obtain ⟨hint, hval⟩ := FV.plus_times_int he h1 h2
      rw [List.foldl_cons, List.map_cons, List.foldl_cons, ← hval]
      exact ih (fun q hq => hps q (List.mem_cons_of_mem p hq)) _ hint
  rw [dot, List.zip_map', List.map_id' ps]
  exact hfold _ FV.isInt_zero

theorem of_getD {α : Type} {P : α → Prop} {l : List α} {d : α} (hl : ∀ v, v ∈ l → P v) (hd : P d) (n : Nat) : P (l.getD n d) := by
  rw [List.getD_eq_getElem?_getD]
  cases h : l[n]? with
  | none => exact hd
  | some v => exact hl v (List.mem_of_getElem? h)

section
variable {tm : Team} (ht : tm.spSyn = []) (sparse : Bool) {x : MloopX} (a b md : Nat) (old : Lane) (i j : Nat)
include ht

theorem isInt_of_mem_readBlock {p q : Nat} {v : FV} (hv : v ∈ (readBlock tm 9 p q).elems) : v.IsInt := by
  rw [readBlock_good ht] at hv
  obtain ⟨k, -, rfl⟩ := List.mem_map.1 hv
  exact ⟨_, _, rfl⟩

theorem isInt_of_mem_mloopPairs (ha : x.afmt = 9) (hb : x.bfmt = 9) {p : FV × FV} (hp : p ∈ mloopPairs tm sparse x a b md i j) :
    p.1.IsInt ∧ p.2.IsInt := by
  rw [mloopPairs_eq] at hp
  obtain ⟨e, -, rfl⟩ := List.mem_map.1 hp
  constructor
  · dsimp only
    split
    · rw [ha]
      exact of_getD (fun v hv => isInt_of_mem_readBlock ht hv) FV.isInt_zero e
    · exact FV.isInt_zero
  · refine of_getD (fun v hv => ?_) FV.isInt_zero _
    obtain ⟨k, -, hk⟩ := List.mem_flatMap.1 hv
    rw [hb] at hk
    exact isInt_of_mem_readBlock ht hk

/-! ### Cells and flags -/

theorem kCell_int (ha : x.afmt = 9) (hb : x.bfmt = 9) :
    let v := mloopInt (mloopPairs tm sparse x a b md i j) old
    kCell tm sparse x a b md old i j = (BitVec.ofInt 32 v, if v < -2147483648 || 2147483647 < v then mxIo else 0) := by
  have hdot := dot_int fun p hp => isInt_of_mem_mloopPairs ht sparse a b md i j ha hb (p := p) hp
  rw [kCell, if_pos (by rw [ha]; rfl), cellI32, hdot]
  rfl

omit ht in
theorem kCell_f32 (ha : x.afmt ≠ 9) :
    let r := mloopF32 (mloopPairs tm sparse x a b md i j) old
    kCell tm sparse x a b md old i j = (BitVec.ofNat 32 r.1, (if r.2.getLsbD 2 then mxOf else 0) ||| if r.2.getLsbD 0 then mxNv else 0) := by
  rw [kCell, if_neg (by simpa using ha)]
  simp only [cellF32, and_ffOf_ne_zero, and_ffNv_ne_zero]
  rfl

theorem kCell_fst (hfmt : x.afmt = 9 → x.bfmt = 9) : (kCell tm sparse x a b md old i j).1 = mloopCell tm sparse x a b md old i j := by
  by_cases ha : x.afmt = 9
  · rw [kCell_int ht sparse a b md old i j ha (hfmt ha), mloopCell, if_pos ha]
  · rw [kCell_f32 sparse a b md old i j ha, mloopCell, if_neg ha]

/-- The bits of `mxflags` that the cells of a K-step set: of, nv and io. -/
def cellMarks (overflow invalid out : Bool) : BitVec 8 := (if overflow then 1 else 0) ||| (if invalid then 2 else 0) ||| if out then 16 else 0

/-- What the F32 sum of a cell raises. -/
def raisesF32 (tm : Team) (sparse : Bool) (x : MloopX) (a b md n : Nat) (old : Lane) (i j : Nat) : Bool :=
  x.afmt != 9 && (mloopF32 (mloopPairs tm sparse x a b md i j) old).2.getLsbD n

/-- The I32 sum of a cell leaves its range. -/
def leavesI32 (tm : Team) (sparse : Bool) (x : MloopX) (a b md : Nat) (old : Lane) (i j : Nat) : Bool :=
  let v := mloopInt (mloopPairs tm sparse x a b md i j) old
  x.afmt == 9 && (decide (v < -2 ^ 31) || decide (2 ^ 31 ≤ v))

theorem kCell_snd (hfmt : x.afmt = 9 → x.bfmt = 9) : (kCell tm sparse x a b md old i j).2 =
    cellMarks (raisesF32 tm sparse x a b md 2 old i j) (raisesF32 tm sparse x a b md 0 old i j) (leavesI32 tm sparse x a b md old i j) := by
  by_cases ha : x.afmt = 9
  · have hne : (x.afmt != 9) = false := by simp [ha]
    have hrange (v : Int) : (decide (v < -2147483648) || decide (2147483647 < v)) = (decide (v < -2 ^ 31) || decide (2 ^ 31 ≤ v)) := by
      rw [show (2 : Int) ^ 31 = 2147483648 by norm_num, Bool.eq_iff_iff]
      simp only [Bool.or_eq_true, decide_eq_true_eq]
      omega
    rw [kCell_int ht sparse a b md old i j ha (hfmt ha), raisesF32, raisesF32, leavesI32, hne, Bool.false_and, Bool.false_and, hrange,
      beq_iff_eq.2 ha, Bool.true_and]
    have hbit (o : Bool) : (if o then mxIo else 0) = cellMarks false false o := by cases o <;> rfl
    exact hbit _
  · have heq : (x.afmt == 9) = false := by simpa using ha
    rw [kCell_f32 sparse a b md old i j ha, raisesF32, raisesF32, leavesI32, heq, Bool.false_and, bne_iff_ne.2 ha, Bool.true_and, Bool.true_and]
    have hbits (o v : Bool) : ((if o then mxOf else 0) ||| if v then mxNv else 0) = cellMarks o v false := by cases o <;> cases v <;> rfl
    exact hbits _ _

end

theorem cellMarks_or (p q r p' q' r' : Bool) : cellMarks p q r ||| cellMarks p' q' r' = cellMarks (p || p') (q || q') (r || r') := by
  revert p q r p' q' r'
  decide

/-- The bits that some cells set. -/
theorem foldl_cellMarks {α : Type} (l : List α) (p q r : α → Bool) :
    (l.map fun x => cellMarks (p x) (q x) (r x)).foldl (· ||| ·) 0 = cellMarks (l.any p) (l.any q) (l.any r) := by
  have hfold (u v w : Bool) : (l.map fun x => cellMarks (p x) (q x) (r x)).foldl (· ||| ·) (cellMarks u v w) =
      cellMarks (u || l.any p) (v || l.any q) (w || l.any r) := by
    induction l generalizing u v w with
    | nil => simp
    | cons x l ih => rw [List.map_cons, List.foldl_cons, cellMarks_or, ih, List.any_cons, List.any_cons, List.any_cons, Bool.or_assoc,
        Bool.or_assoc, Bool.or_assoc]
  exact hfold false false false

end Sys2Proof.Machine
end

section
/-! PROOFS. One step of a command, and `mloop` and `mloop.sp` (R263, R269, R270). -/

namespace Sys2Proof.Machine

set_option Elab.async false

/-! ### What a step does to its command -/

/-- A program that performs a step of a command: it leaves the team as `tm'` and changes the command by `f`. -/
def Steps (p : Prog) (s : State) (c : MxCmd) (f : MxCmd → MxCmd) (tm' : Team) : Prop :=
  ∃ u, TeamOnly c.team s u ∧ u.team? c.team = some tm' ∧ p.run s = u.modMx c.id f

/-- A command whose work is done. -/
def MxCmd.ended (c : MxCmd) : MxCmd := { c with finished := true }

theorem steps_of_leaves {p : Prog} {s : State} {c : MxCmd} {tm' : Team} (h : Leaves p s c.team tm') :
    Steps (.all [p, .change fun s => s.modMx c.id MxCmd.ended]) s c MxCmd.ended tm' := by
  refine ⟨p.run s, h.1, h.2, ?_⟩
  rw [Prog.run_all_cons, Prog.run_all_cons, Prog.run_all_nil]
  exact Prog.run_change_of_eq rfl rfl rfl

/-- A change that works on the team, counts the command, and reads scratchpad. -/
theorem run_countedTouch {s u : State} {tid id : Nat} {tm : Team} {f : MxCmd → MxCmd} {g : State → State} {rs : List (Nat × Nat)} (honly : TeamOnly tid s u)
    (hown : u.team? tid = some tm) (ht : tm.spSyn = []) (hg : g s = spTouch tid rs (u.modMx id f)) : (Prog.change g).run s = u.modMx id f :=
  Prog.run_change_of_eq (hg.trans (spTouch_good (s := u.modMx id f) hown ht rs)) honly.mem honly.mgmt

/-! ### The flags of a K-step -/

theorem any_range_mul (m n : Nat) (p : Nat → Bool) :
    (List.range (m * n)).any p = (List.range m).any fun j => (List.range n).any fun k => p (j * n + k) := by
  rw [Bool.eq_iff_iff]
  simp only [List.any_eq_true, List.mem_range]
  constructor
  · rintro ⟨q, hq, hp⟩
    have hn : 0 < n := Nat.pos_of_ne_zero fun h => by rw [h, Nat.mul_zero] at hq; omega
    refine ⟨q / n, Nat.div_lt_of_lt_mul (by rwa [Nat.mul_comm]), q % n, Nat.mod_lt q hn, ?_⟩
    rwa [Nat.mul_comm, Nat.div_add_mod]
  · rintro ⟨j, hj, k, hk, hp⟩
    refine ⟨j * n + k, ?_, hp⟩
    have := Nat.mul_le_mul_right n hj
    rw [Nat.succ_mul] at this
    omega

section
variable (tm : Team) (sparse : Bool) (x : MloopX) (a b md : Nat)

/-- Some group of two has indices that do not rise (R270). -/
def unsortedGroup (tm : Team) (sparse : Bool) (x : MloopX) (md : Nat) : Bool :=
  let idx := fun (i e : Nat) => bytesNat (Memory.bytes tm.sp (md + 8 * i) 8) / 2 ^ (2 * e) % 4
  sparse && x.pat == 0 && (List.range 128).any fun i => (List.range 16).any fun q => decide (idx i (2 * q + 1) ≤ idx i (2 * q))

theorem any_not_mloopGood :
    (sparse && (List.range 128).any fun i => (List.range 32).any fun e => !mloopGood tm sparse x md i e) = unsortedGroup tm sparse x md := by
  cases sparse with
  | false => rfl
  | true =>
    by_cases hp : x.pat = 0
    · rw [unsortedGroup, beq_iff_eq.2 hp, Bool.true_and, Bool.true_and, Bool.true_and]
      refine any_congr_mem fun i _ => ?_
      have hne : (x.pat != 0) = false := by simp [hp]
      rw [show 32 = 16 * 2 from rfl, any_range_mul]
      refine any_congr_mem fun q _ => ?_
      have hgroup (k : Nat) (hk : k < 2) : (q * 2 + k) / 2 * 2 = 2 * q := by omega
      simp only [List.range_succ, List.range_zero, List.nil_append, List.cons_append, List.any_cons, List.any_nil, mloopGood, hne,
        hgroup 0 (by decide), hgroup 1 (by decide), Bool.not_true, Bool.false_or, Bool.or_false, Bool.or_self, ← decide_not, not_lt]
    · rw [unsortedGroup, show (x.pat == 0) = false by simpa using hp, Bool.and_false, Bool.false_and, Bool.true_and, List.any_eq_false]
      intro i _
      have hgood (e : Nat) : mloopGood tm true x md i e = true := by
        rw [mloopGood, bne_iff_ne.2 hp]
        rfl
      simp [hgood]

/-- The bits that a K-step sets are those of its cells, of the headers of its blocks and of its metadata. -/
theorem marks_eq_mloopMarks (old : Nat → Nat → Lane) :
    cellMarks (someCell fun i j => raisesF32 tm sparse x a b md 2 (old i j) i j) (someCell fun i j => raisesF32 tm sparse x a b md 0 (old i j) i j)
        (someCell fun i j => leavesI32 tm sparse x a b md (old i j) i j)
      ||| (if unsortedGroup tm sparse x md then mxMv else 0)
      ||| (if ((List.range 128).any fun i => headerFails tm x.afmt (a + i * fmtBytes x.afmt)) ||
          (List.range 64).any fun j => (List.range (bBlocks sparse x)).any fun k =>
            headerFails tm x.bfmt (b + (j * bBlocks sparse x + k) * fmtBytes x.bfmt) then mxNv else 0) =
      mloopMarks tm sparse x a b md old := by
  rw [← any_range_mul 64 (bBlocks sparse x) fun k => headerFails tm x.bfmt (b + k * fmtBytes x.bfmt)]
  have hbits (p q r m h : Bool) : cellMarks p q r ||| (if m then mxMv else 0) ||| (if h then mxNv else 0) =
      (if p then (1 : BitVec 8) else 0) ||| (if q || h then 2 else 0) ||| (if r then 16 else 0) ||| (if m then 128 else 0) := by
    revert p q r m h
    decide
  exact hbits _ _ _ _ _

end

/-- The cells and the bits of a K-step. -/
theorem kStep_values {tm : Team} (ht : tm.spSyn = []) (c : MxCmd) (sparse : Bool) (x : MloopX) (a b md : Nat) (cells : List Lane)
    (hfmt : x.afmt = 9 → x.bfmt = 9) :
    (kStep c tm sparse x a b md cells).1 = ((List.range 128).flatMap fun i => (List.range 64).map fun j =>
      mloopCell tm sparse x a b md (cells.getD (64 * i + j) 0) i j) ∧
    (kStep c tm sparse x a b md cells).2.1 = mloopMarks tm sparse x a b md fun i j => cells.getD (64 * i + j) 0 := by
  obtain ⟨ranges, hstep⟩ := kStep_good ht c sparse x a b md cells
  rw [hstep]
  dsimp only
  rw [List.map_flatMap, List.map_flatMap]
  simp only [List.map_map, Function.comp_def, kCell_fst ht _ _ _ _ _ _ _ hfmt, kCell_snd ht _ _ _ _ _ _ _ hfmt]
  refine ⟨trivial, ?_⟩
  rw [← marks_eq_mloopMarks, any_not_mloopGood]
  have hcells := foldl_cellMarks ((List.range 128).flatMap fun i => (List.range 64).map fun j => (i, j))
    (fun ij => raisesF32 tm sparse x a b md 2 (cells.getD (64 * ij.1 + ij.2) 0) ij.1 ij.2)
    (fun ij => raisesF32 tm sparse x a b md 0 (cells.getD (64 * ij.1 + ij.2) 0) ij.1 ij.2)
    fun ij => leavesI32 tm sparse x a b md (cells.getD (64 * ij.1 + ij.2) 0) ij.1 ij.2
  rw [any_grid, any_grid, any_grid, List.map_flatMap] at hcells
  simp only [List.map_map, Function.comp_def] at hcells
  rw [hcells]

/-! ### A step of mloop -/

section
variable {s : State} {c : MxCmd} {tm : Team} (hteam : s.team? c.team = some tm) (ht : tm.spSyn = []) (sparse : Bool) (x : MloopX)
  (hfmt : x.afmt = 9 → x.bfmt = 9)

/-- A cell that the tree mask hides (R269). -/
def maskHides (tm : Team) (mask : Int) (i j : Nat) : Bool :=
  !(BitVec.ofNat 64 (bytesNat (Memory.bytes tm.sp (mask.toNat + 8 * i) 8))).getLsbD j

include ht in
theorem applyMask_grid (mask : Int) (cell : Nat → Nat → Lane) :
    applyMask s tm mask.toNat ((List.range 128).flatMap fun i => (List.range 64).map (cell i)) =
      (List.range 128).flatMap fun i => (List.range 64).map fun j => if maskHides tm mask i j then 0xFF800000 else cell i j := by
  have hlen : ((List.range 128).flatMap fun i => (List.range 64).map (cell i)).length = 64 * 128 := by
    simp [List.length_flatMap]
  rw [applyMask, zipIdx_map_grid hlen _ 0]
  refine List.flatMap_congr fun i hi => List.map_congr_left fun j hj => ?_
  have hj' := List.mem_range.1 hj
  rw [getD_grid cell (List.mem_range.1 hi) hj', spUnitWord_eq ht, show (64 * i + j) / 64 = i by omega, show (64 * i + j) % 64 = j by omega, maskHides]
  generalize BitVec.getLsbD _ j = shown
  cases shown <;> rfl

/-- What a K-step leaves in a cell that held `old`. -/
def stepCell (tm : Team) (c : MxCmd) (sparse : Bool) (x : MloopX) (a b ai bi mask md mi : Int) (old : Lane) (i j : Nat) : Lane :=
  let at_ := fun (base inc : Int) => (base + (c.k : Int) * inc).toNat
  if x.me && decide (x.kcount.toNat ≤ c.k + 1) && maskHides tm mask i j then 0xFF800000
  else mloopCell tm sparse x (at_ a ai) (at_ b bi) (at_ md mi) old i j

/-- The cells that a K-step starts from. -/
def stepOld (tm : Team) (c : MxCmd) (x : MloopX) (i j : Nat) : Lane := if x.za = true ∧ c.k = 0 then 0 else tm.cell x.tile.toNat i j

theorem stepOld_eq (i j : Nat) :
    (if x.za && decide (c.k = 0) then List.replicate 8192 0 else (tm.tiles.getD x.tile.toNat ⟨0, []⟩).all).getD (64 * i + j) 0 =
      stepOld tm c x i j := by
  unfold stepOld
  by_cases h : x.za = true ∧ c.k = 0
  · rw [if_pos (by simpa using h), if_pos h, List.getD_eq_getElem?_getD, List.getElem?_replicate]
    split <;> rfl
  · rw [if_neg (by simpa using h), if_neg h]
    rfl

include hteam ht

/-- A K-step sets the cells, raises the bits, and counts. -/
theorem stepMloop_steps (a b ai bi mask md mi : Int) :
    let at_ := fun (base inc : Int) => (base + (c.k : Int) * inc).toNat
    ∃ cs f, Steps (stepMloop c sparse x a b ai bi mask md mi) s c
        (fun q => { q with k := q.k + 1, finished := decide (x.kcount.toNat ≤ c.k + 1) }) (tm.worked x.tile.toNat cs f) ∧
      ((x.afmt = 9 → x.bfmt = 9) →
        (cs = (List.range 128).flatMap fun i => (List.range 64).map fun j =>
          stepCell tm c sparse x a b ai bi mask md mi (stepOld tm c x i j) i j) ∧
        f = mloopMarks tm sparse x (at_ a ai) (at_ b bi) (at_ md mi) (stepOld tm c x)) := by
  intro at_
  generalize hcells : (if x.za && decide (c.k = 0) then List.replicate 8192 0 else (tm.tiles.getD x.tile.toNat ⟨0, []⟩).all) = cells
  obtain ⟨ranges, hstep⟩ := kStep_good ht c sparse x (at_ a ai) (at_ b bi) (at_ md mi) cells
  generalize hr : kStep c tm sparse x (at_ a ai) (at_ b bi) (at_ md mi) cells = r at hstep
  refine ⟨if decide (x.kcount.toNat ≤ c.k + 1) && x.me then applyMask s tm mask.toNat r.1 else r.1, r.2.1, ?_, fun hfmt => ?_⟩
  · obtain ⟨honly, hown⟩ := raise_setCells hteam x.tile.toNat (if decide (x.kcount.toNat ≤ c.k + 1) && x.me then applyMask s tm mask.toNat r.1 else r.1) r.2.1
    refine ⟨_, honly, hown, ?_⟩
    rw [stepMloop, Prog.run_dyn, hteam]
    dsimp only
    rw [hcells, hr, show r.2.2.1 = [] by rw [hstep], Prog.run_all_cons, Prog.run_all_cons, Prog.run_all_nil, Prog.run_all_nil]
    exact run_countedTouch honly hown ht rfl
  · have hold (i j : Nat) : cells.getD (64 * i + j) 0 = stepOld tm c x i j := hcells ▸ stepOld_eq x i j
    obtain ⟨hcell, hmarks⟩ := kStep_values ht c sparse x (at_ a ai) (at_ b bi) (at_ md mi) cells hfmt
    rw [hr] at hcell hmarks
    simp only [hold] at hcell hmarks
    refine ⟨?_, hmarks⟩
    rw [hcell, applyMask_grid ht]
    unfold stepCell
    by_cases hlast : (decide (x.kcount.toNat ≤ c.k + 1) && x.me) = true
    · rw [if_pos hlast]
      simp only [Bool.and_comm x.me, hlast, Bool.true_and]
      rfl
    · rw [if_neg hlast]
      simp only [Bool.and_comm x.me, hlast, Bool.false_and, Bool.false_eq_true, if_false]
      rfl

end

end Sys2Proof.Machine
end

section
/-! PROOFS. What `osm.max` leaves (R273). -/

namespace Sys2Proof.Machine

set_option Elab.async false

/-! ### Words of scratchpad -/

/-- The element of four bytes at an offset. -/
def elemAt (sp : List Host.Cell) (a : Nat) : Nat := bytesNat (Memory.bytes sp a 4)

theorem elemAt_mod (sp : List Host.Cell) (a : Nat) : elemAt sp a % 2 ^ 32 = elemAt sp a := by
  have h := bytesNat_lt (Memory.bytes sp a 4)
  rw [Memory.bytes_length] at h
  exact Nat.mod_eq_of_lt h

/-- An element at a boundary of four bytes after an element has been written at one. -/
theorem elemAt_putBytes {m : List Host.Cell} (hw : Memory.wf m) {p q : Nat} (hp : p % 4 = 0) (hq : q % 4 = 0) (v : Nat) :
    elemAt (Memory.putBytes m q (natBytes 4 v)) p = if p = q then v % 2 ^ 32 else elemAt m p := by
  split
  · next h =>
    have hin := Memory.bytes_putBytes_within hw q (natBytes 4 v) (i := 0) (n := 4) (by simp)
    rw [Nat.add_zero, List.drop_zero, List.take_of_length_le (by simp)] at hin
    rw [elemAt, h, hin, bytesNat_natBytes]
    rfl
  · next h =>
    rw [elemAt, Memory.bytes_putBytes_apart m (by rw [natBytes_length]; omega), elemAt]

/-- An element at a boundary of four bytes after a vector has been written at one. -/
theorem elemAt_putVec {m : List Host.Cell} (hw : Memory.wf m) {p v : Nat} (hp : p % 4 = 0) (hv : v % 4 = 0) (f : Nat → Nat) (n : Nat) :
    elemAt (Memory.putBytes m v (vecBytes ((List.range n).map f))) p = if v ≤ p ∧ p < v + 4 * n then f ((p - v) / 4) % 2 ^ 32 else elemAt m p := by
  have hbytes : vecBytes ((List.range n).map f) = (List.range n).flatMap fun i => natBytes 4 (f i) := List.flatMap_map ..
  have hlen : ((List.range n).flatMap fun i => natBytes 4 (f i)).length = 4 * n := by
    simp [List.length_flatMap, Nat.mul_comm]
  rw [hbytes]
  split
  · next h =>
    have hin := Memory.bytes_putBytes_within hw v ((List.range n).flatMap fun i => natBytes 4 (f i)) (i := 4 * ((p - v) / 4)) (n := 4)
      (by rw [hlen]; omega)
    rw [take_drop_flatMap_range (f := fun i => natBytes 4 (f i)) (fun _ => natBytes_length ..) (by omega), show v + 4 * ((p - v) / 4) = p by omega] at hin
    rw [elemAt, hin, bytesNat_natBytes]
    rfl
  · next h =>
    rw [elemAt, Memory.bytes_putBytes_apart m (by rw [hlen]; omega), elemAt]

/-- Bytes agree where the elements at boundaries of four bytes do. -/
theorem get_eq_of_elemAt {m m' : List Host.Cell} (h : ∀ p, p % 4 = 0 → elemAt m p = elemAt m' p) (a : Nat) : Memory.get m a = Memory.get m' a := by
  have hword := h (4 * (a / 4)) (by omega)
  have hbytes : Memory.bytes m (4 * (a / 4)) 4 = Memory.bytes m' (4 * (a / 4)) 4 := by
    have h1 := natBytes_bytesNat (Memory.bytes m (4 * (a / 4)) 4)
    have h2 := natBytes_bytesNat (Memory.bytes m' (4 * (a / 4)) 4)
    rw [Memory.bytes_length] at h1 h2
    rw [← h1, ← h2]
    exact congrArg (natBytes 4) hword
  have hget (m : List Host.Cell) : (Memory.bytes m (4 * (a / 4)) 4).getD (a % 4) 0 = Memory.get m a := by
    rw [Memory.bytes, getD_map_range, if_pos (Nat.mod_lt _ (by decide)), Nat.div_add_mod]
  rw [← hget m, ← hget m', hbytes]

theorem lookup_cons_eq {α β : Type} [DecidableEq α] (l : List (α × β)) (p q : α) (v : β) :
    ((q, v) :: l).lookup p = if p = q then some v else l.lookup p := by
  rw [List.lookup_cons]
  by_cases h : p = q
  · rw [h, beq_self_eq_true, if_pos rfl]
  · rw [beq_false_of_ne h, if_neg h]

/-! ### A row -/

theorem fmtF32_read_mod (b : Nat) : fmtF32.read (b % 2 ^ 32) = fmtF32.read b := by
  have hneg : (b % 2 ^ 32).testBit 31 = b.testBit 31 := by
    rw [Nat.testBit_mod_two_pow]
    rfl
  have hex : b % 2 ^ 32 / 2 ^ 23 % 2 ^ 8 = b / 2 ^ 23 % 2 ^ 8 := by omega
  have hfr : b % 2 ^ 32 % 2 ^ 23 = b % 2 ^ 23 := by omega
  unfold Fmt.read
  simp only [fmtF32, hneg, hex, hfr, show 8 + 23 = 31 from rfl]
  rfl

/-- A row depends on the lower 32 bits of the old maximum and sum. -/
theorem osmRow_mod (mo lo : Nat) {cells : List Nat} (hc : cells ≠ []) : osmRow (mo % 2 ^ 32) (lo % 2 ^ 32) cells = osmRow mo lo cells := by
  cases cells with
  | nil => exact absurd rfl hc
  | cons x xs =>
    simp only [osmRow, List.foldl_cons, fmtF32_read_mod]
    rfl

theorem osmRow_cells_length (mo lo : Nat) (cells : List Nat) : (osmRow mo lo cells).2.2.2.1.length = cells.length := by
  simp [osmRow]

/-- The scratchpad after the three vectors of `osm.max`. -/
def osmStored (tm : Team) (o : OsmRun) (mv lv cv : Nat) : List Host.Cell :=
  let vec := fun (v : Nat) => vecBytes ((List.range 128).map fun i => (o.out.lookup (v + 4 * i)).getD 0)
  Memory.putBytes (Memory.putBytes (Memory.putBytes tm.sp lv (vec lv)) mv (vec mv)) cv (vec cv)

/-! ### The rows one after another -/

section
variable (tm : Team) (k mv lv cv : Nat)

/-- What a row of `osm.max` makes of the elements of mv and lv as they stand. -/
def osmRowOf (sp : List Host.Cell) (i : Nat) : Nat × Nat × Nat × List Nat × FFlags :=
  osmRow (elemAt sp (mv + 4 * i)) (elemAt sp (lv + 4 * i)) ((List.range 64).map fun j => (tm.cell k i j).toNat)

/-- The scratchpad after a row. -/
def osmWrote (sp : List Host.Cell) (i : Nat) : List Host.Cell :=
  let r := osmRowOf tm k mv lv sp i
  Memory.putBytes (Memory.putBytes (Memory.putBytes sp (lv + 4 * i) (natBytes 4 r.1)) (mv + 4 * i) (natBytes 4 r.2.1)) (cv + 4 * i)
    (natBytes 4 r.2.2.1)

/-- The scratchpad after some rows. -/
def osmUpTo (n : Nat) : List Host.Cell := (List.range n).foldl (osmWrote tm k mv lv cv) tm.sp

theorem osmUpTo_succ (n : Nat) : osmUpTo tm k mv lv cv (n + 1) = osmWrote tm k mv lv cv (osmUpTo tm k mv lv cv n) n := by
  rw [osmUpTo, List.range_succ, List.foldl_append]
  rfl

theorem osmUpTo_wf (hw : Memory.wf tm.sp) (n : Nat) : Memory.wf (osmUpTo tm k mv lv cv n) := by
  induction n with
  | zero => exact hw
  | succ n ih =>
    rw [osmUpTo_succ]
    exact Memory.putBytes_wf _ _ _ (Memory.putBytes_wf _ _ _ (Memory.putBytes_wf _ _ _ ih))

/-- What the engine has kept of some rows: the elements that they wrote, the cells and the flags. -/
structure OsmDone (n : Nat) (o : OsmRun) : Prop where
  words : ∀ p, p % 4 = 0 → elemAt (osmUpTo tm k mv lv cv n) p = (o.out.lookup p).getD (elemAt tm.sp p) % 2 ^ 32
  keys : ∀ p, (o.out.lookup p).isSome = true ↔ ∃ i, i < n ∧ (p = cv + 4 * i ∨ p = mv + 4 * i ∨ p = lv + 4 * i)
  cells : o.cells = (List.range n).flatMap fun i => (osmRowOf tm k mv lv (osmUpTo tm k mv lv cv i) i).2.2.2.1.map fun x => BitVec.ofNat 32 x
  flags : o.flags = orFlags ((List.range n).map fun i => (osmRowOf tm k mv lv (osmUpTo tm k mv lv cv i) i).2.2.2.2)

theorem osmDone_zero : OsmDone tm k mv lv cv 0 ⟨[], [], [], [], 0⟩ :=
  ⟨fun p _ => (elemAt_mod tm.sp p).symm, fun p => by simp, rfl, rfl⟩

variable (hw : Memory.wf tm.sp) (hmv : mv % 4 = 0) (hlv : lv % 4 = 0) (hcv : cv % 4 = 0) (ht : tm.spSyn = [])
include hw hmv hlv hcv ht

/-- One row keeps it. -/
theorem osmDone_succ {n : Nat} (hn : n < 128) {o : OsmRun} (h : OsmDone tm k mv lv cv n o) :
    OsmDone tm k mv lv cv (n + 1)
      (osmNext (readVec tm mv) (readVec tm lv) ((tm.tiles.getD k ⟨0, []⟩).all.map BitVec.toNat).toArray mv lv cv o n) := by
  obtain ⟨hwords, hkeys, hcells, hflags⟩ := h
  have hread (v : Nat) : osmElem o.out (v + 4 * n) ((readVec tm v).getD n (0, false)) =
      ((o.out.lookup (v + 4 * n)).getD (elemAt tm.sp (v + 4 * n)), false) := by
    rw [readVec_good ht, getD_map_range, if_pos hn, osmElem]
    cases o.out.lookup (v + 4 * n) <;> rfl
  have htile : ((List.range 64).map fun j => ((tm.tiles.getD k ⟨0, []⟩).all.map BitVec.toNat).toArray.getD (64 * n + j) 0) =
      (List.range 64).map fun j => (tm.cell k n j).toNat := List.map_congr_left fun j _ => by
    rw [toArray_getD, Team.cell]
    exact List.getD_map _ (0 : Lane) BitVec.toNat
  have hrow : osmRow ((o.out.lookup (mv + 4 * n)).getD (elemAt tm.sp (mv + 4 * n))) ((o.out.lookup (lv + 4 * n)).getD (elemAt tm.sp (lv + 4 * n)))
      ((List.range 64).map fun j => (tm.cell k n j).toNat) = osmRowOf tm k mv lv (osmUpTo tm k mv lv cv n) n := by
    rw [osmRowOf, hwords _ (by omega), hwords _ (by omega), osmRow_mod _ _ (by simp)]
  unfold osmNext
  rw [hread mv, hread lv, htile]
  dsimp only
  rw [hrow]
  generalize hr : osmRowOf tm k mv lv (osmUpTo tm k mv lv cv n) n = r
  have hwf := osmUpTo_wf tm k mv lv cv hw n
  refine ⟨fun p hp => ?_, fun p => ?_, ?_, ?_⟩
  · rw [osmUpTo_succ, osmWrote, hr]
    dsimp only
    rw [elemAt_putBytes (Memory.putBytes_wf _ _ _ (Memory.putBytes_wf _ _ _ hwf)) hp (by omega),
      elemAt_putBytes (Memory.putBytes_wf _ _ _ hwf) hp (by omega), elemAt_putBytes hwf hp (by omega), hwords p hp]
    rw [lookup_cons_eq, lookup_cons_eq, lookup_cons_eq]
    split_ifs <;> rfl
  · rw [lookup_cons_eq, lookup_cons_eq, lookup_cons_eq, Nat.exists_lt_succ_right, ← hkeys]
    split_ifs with h1 h2 h3
    · simp [h1]
    · simp [h2]
    · simp [h3]
    · simp [h1, h2, h3]
  · rw [List.range_succ, List.flatMap_append, ← hcells, List.flatMap_singleton, hr]
  · rw [List.range_succ, List.map_append, orFlags, List.foldl_append, ← orFlags, ← hflags, List.map_singleton, hr]
    rfl

theorem osmDone_rows :
    OsmDone tm k mv lv cv 128
      (osmRows (readVec tm mv) (readVec tm lv) ((tm.tiles.getD k ⟨0, []⟩).all.map BitVec.toNat).toArray mv lv cv) := by
  have hupTo (n : Nat) (hn : n ≤ 128) : OsmDone tm k mv lv cv n ((List.range n).foldl
      (osmNext (readVec tm mv) (readVec tm lv) ((tm.tiles.getD k ⟨0, []⟩).all.map BitVec.toNat).toArray mv lv cv) ⟨[], [], [], [], 0⟩) := by
    induction n with
    | zero => exact osmDone_zero tm k mv lv cv
    | succ n ih =>
      rw [List.range_succ, List.foldl_append]
      exact osmDone_succ tm k mv lv cv hw hmv hlv hcv ht hn (ih (by omega))
  exact hupTo 128 (Nat.le_refl 128)

omit ht in
/-- The three vectors that the engine writes leave the scratchpad as the rows do. -/
theorem osmStored_get {o : OsmRun} (h : OsmDone tm k mv lv cv 128 o) (a : Nat) :
    Memory.get (osmStored tm o mv lv cv) a = Memory.get (osmUpTo tm k mv lv cv 128) a := by
  unfold osmStored
  extract_lets vec
  refine get_eq_of_elemAt (fun p hp => ?_) a
  have hwl := Memory.putBytes_wf tm.sp lv (vec lv) hw
  have hwm := Memory.putBytes_wf _ mv (vec mv) hwl
  rw [elemAt_putVec hwm hp hcv, elemAt_putVec hwl hp hmv, elemAt_putVec hw hp hlv, h.words p hp]
  have hhit (v : Nat) (hv : v % 4 = 0) (hin : v ≤ p ∧ p < v + 4 * 128) (hkey : ∀ i, i < 128 → p = v + 4 * i → (o.out.lookup p).isSome = true) :
      (o.out.lookup (v + 4 * ((p - v) / 4))).getD 0 % 2 ^ 32 = (o.out.lookup p).getD (elemAt tm.sp p) % 2 ^ 32 := by
    have hplace : v + 4 * ((p - v) / 4) = p := by omega
    obtain ⟨x, hx⟩ := Option.isSome_iff_exists.1 (hkey ((p - v) / 4) (by omega) hplace.symm)
    rw [hplace, hx]
    rfl
  split
  · next hin => exact hhit cv hcv hin fun i hi he => (h.keys p).2 ⟨i, hi, .inl he⟩
  · next hc =>
    split
    · next hin => exact hhit mv hmv hin fun i hi he => (h.keys p).2 ⟨i, hi, .inr (.inl he)⟩
    · next hm =>
      split
      · next hin => exact hhit lv hlv hin fun i hi he => (h.keys p).2 ⟨i, hi, .inr (.inr he)⟩
      · next hl =>
        have hnone : o.out.lookup p = none := by
          rw [← Option.not_isSome_iff_eq_none, h.keys]
          rintro ⟨i, hi, he⟩
          omega
        rw [hnone]
        exact (elemAt_mod tm.sp p).symm

end

/-! ### osm.max -/

/-- What `osm.max` reads is good, whatever its rows do. -/
theorem osmRows_good {tm : Team} (ht : tm.spSyn = []) (cells : Array Nat) (mv lv cv : Nat) :
    (∀ e, e ∈ (osmRows (readVec tm mv) (readVec tm lv) cells mv lv cv).ms → e.2 = false) ∧
      ∀ e, e ∈ (osmRows (readVec tm mv) (readVec tm lv) cells mv lv cv).ls → e.2 = false := by
  have hread (out : List (Nat × Nat)) (v a i : Nat) : (osmElem out a ((readVec tm v).getD i (0, false))).2 = false := by
    rw [readVec_good ht, getD_map_range, osmElem]
    cases out.lookup a with
    | none => exact (apply_ite Prod.snd _ _ _).trans (ite_self false)
    | some v => rfl
  have hfold (l : List Nat) (o : OsmRun) (ho : (∀ e, e ∈ o.ms → e.2 = false) ∧ ∀ e, e ∈ o.ls → e.2 = false) :
      (∀ e, e ∈ (l.foldl (osmNext (readVec tm mv) (readVec tm lv) cells mv lv cv) o).ms → e.2 = false) ∧
        ∀ e, e ∈ (l.foldl (osmNext (readVec tm mv) (readVec tm lv) cells mv lv cv) o).ls → e.2 = false := by
    induction l generalizing o with
    | nil => exact ho
    | cons i l ih =>
      exact ih _ ⟨List.forall_mem_append.2 ⟨ho.1, List.forall_mem_singleton.2 (hread _ mv _ i)⟩,
        List.forall_mem_append.2 ⟨ho.2, List.forall_mem_singleton.2 (hread _ lv _ i)⟩⟩
  exact hfold _ _ ⟨fun _ h => absurd h List.not_mem_nil, fun _ h => absurd h List.not_mem_nil⟩

theorem stepOsmMax_leaves {s : State} {c : MxCmd} {tm : Team} (hteam : s.team? c.team = some tm) (ht : tm.spSyn = []) {k mv lv cv : Nat} {o : OsmRun}
    (ho : osmRows (readVec tm mv) (readVec tm lv) ((tm.tiles.getD k ⟨0, []⟩).all.map BitVec.toNat).toArray mv lv cv = o) :
    ∃ es, Leaves (stepOsmMax c k mv lv cv) s c.team
      { tm.worked k o.cells (osmFlags o.flags) with sp := osmStored tm o mv lv cv, empties := es } := by
  obtain ⟨hms, hls⟩ := osmRows_good ht ((tm.tiles.getD k ⟨0, []⟩).all.map BitVec.toNat).toArray mv lv cv
  rw [ho] at hms hls
  obtain ⟨honly, hown⟩ := leaves_worked hteam ht k o.cells (osmFlags o.flags) [(mv, 512), (lv, 512)]
  have hbad : (o.ms.any Prod.snd || o.ls.any Prod.snd) = false := by
    rw [Bool.or_eq_false_iff, List.any_eq_false, List.any_eq_false]
    exact ⟨fun e he => by rw [hms e he]; exact Bool.false_ne_true, fun e he => by rw [hls e he]; exact Bool.false_ne_true⟩
  have hlogs : logVec c o.ms ++ logVec c o.ls = [] := by rw [logVec_good c hms, logVec_good c hls, List.append_nil]
  obtain ⟨hl, esl, hspl⟩ := spWriteLogged_writes hown ht true lv (vecBytes ((List.range 128).map fun i => (o.out.lookup (lv + 4 * i)).getD 0))
  obtain ⟨hm, esm, hspm⟩ := spWriteLogged_writes hspl ht true mv (vecBytes ((List.range 128).map fun i => (o.out.lookup (mv + 4 * i)).getD 0))
  obtain ⟨hc, es, hspc⟩ := spWriteLogged_writes hspm ht true cv (vecBytes ((List.range 128).map fun i => (o.out.lookup (cv + 4 * i)).getD 0))
  refine ⟨es, ?_⟩
  unfold Leaves
  rw [stepOsmMax, Prog.run_dyn, hteam]
  dsimp only
  rw [ho, hlogs, hbad, if_neg Bool.false_ne_true, show osmFlags o.flags ||| (0 : BitVec 8) = osmFlags o.flags from BitVec.or_zero,
    Prog.run_all_cons, Prog.run_all_cons, Prog.run_all_cons, Prog.run_all_cons, Prog.run_all_cons, Prog.run_all_nil, Prog.run_all_nil]
  refine ⟨((honly.trans hl).trans hm).trans hc, hspc.trans ?_⟩
  simp only [osmStored, Team.worked]

end Sys2Proof.Machine
end

section
/-! PROOFS. Steps of a matrix engine and completions of its commands (R253, R258, R263); O54. -/

namespace Sys2Proof.Machine

set_option Elab.async false

/-! ### What each kind of command leaves -/

section
variable {s : State} {c : MxCmd} {tm : Team} (hteam : s.team? c.team = some tm) (ht : tm.spSyn = [])
include hteam

theorem steps_mzero {k : Nat} {f32 : Bool} (hop : c.op = .mzero k f32) : Steps (stepMx c) s c MxCmd.ended (tm.worked k [] 0) := by
  rw [stepMx, hop]
  exact steps_of_leaves (setCells_leaves hteam k)

include ht

theorem steps_mld {k : Nat} {f32 : Bool} {off pitch : Int} (hop : c.op = .mld k f32 off pitch) :
    Steps (stepMx c) s c MxCmd.ended (tm.worked k ((List.range 128).flatMap fun i => (List.range 64).map (mldCell tm off pitch i)) 0) := by
  rw [stepMx, hop]
  exact steps_of_leaves (stepMld_leaves hteam ht k off pitch)

theorem steps_mst {k form m d : Nat} {off pitch : Int} (hop : c.op = .mst k form m d off pitch) :
    let r := mstRows form m d off pitch (tm.tiles.getD k ⟨0, []⟩).all
    ∃ es, Steps (stepMx c) s c MxCmd.ended ({ tm with mxflags := tm.mxflags ||| r.2 }.stored r.1 es) := by
  obtain ⟨es, h⟩ := stepMst_leaves hteam ht k form m d off pitch
  refine ⟨es, ?_⟩
  rw [stepMx, hop]
  exact steps_of_leaves h

theorem steps_osmMax {k : Nat} {mv lv cv : Int} (hop : c.op = .osmMax k mv lv cv) {o : OsmRun}
    (ho : osmRows (readVec tm mv.toNat) (readVec tm lv.toNat) ((tm.tiles.getD k ⟨0, []⟩).all.map BitVec.toNat).toArray mv.toNat lv.toNat
      cv.toNat = o) :
    ∃ es, Steps (stepMx c) s c MxCmd.ended
      { tm.worked k o.cells (osmFlags o.flags) with sp := osmStored tm o mv.toNat lv.toNat cv.toNat, empties := es } := by
  obtain ⟨es, h⟩ := stepOsmMax_leaves hteam ht ho
  refine ⟨es, ?_⟩
  rw [stepMx, hop]
  exact steps_of_leaves h

end

/-! ### What `osm.max` makes of the rows -/

section
variable {tm : Team} (ht : tm.spSyn = []) {k : Nat} (hk : k < tm.tiles.length) {mv lv cv : Nat} {o : OsmRun} (h : OsmDone tm k mv lv cv 128 o)
include h

theorem osmMax_flags : osmFlags o.flags =
    (if (List.range 128).any fun i => (osmRowOf tm k mv lv (osmUpTo tm k mv lv cv i) i).2.2.2.2.getLsbD 2 then 1 else 0) |||
      if (List.range 128).any fun i => (osmRowOf tm k mv lv (osmUpTo tm k mv lv cv i) i).2.2.2.2.getLsbD 0 then 2 else 0 := by
  rw [osmFlags_eq, h.flags, getLsbD_orFlags, getLsbD_orFlags, List.any_map, List.any_map]
  rfl

include hk

theorem osmMax_cell (f : BitVec 8) {i j : Nat} (hi : i < 128) (hj : j < 64) :
    (tm.worked k o.cells f).cell k i j = BitVec.ofNat 32 ((osmRowOf tm k mv lv (osmUpTo tm k mv lv cv i) i).2.2.2.1.getD j 0) := by
  have hlen (i : Nat) : ((osmRowOf tm k mv lv (osmUpTo tm k mv lv cv i) i).2.2.2.1.map fun x => BitVec.ofNat 32 x).length = 64 := by
    simp [osmRowOf, osmRow_cells_length]
  have hne : o.cells ≠ [] := fun h0 => by
    have hcells := congrArg List.length (h.cells.symm.trans h0)
    rw [List.length_flatMap, List.map_congr_left fun i _ => hlen i] at hcells
    simp at hcells
  rw [Team.worked_cell hk, Tile.all_of_ne hne, h.cells, getD_flatMap_range hlen hi hj]
  exact List.getD_map _ 0 fun x => BitVec.ofNat 32 x

end

/-! ### A step of the engine -/

/-- The machine once the engine has turned to a command. -/
def turnedTo (s : State) (pair p : Nat) (c : MxCmd) : State :=
  modEngine pair (fun e => { e with pos := p, rot := (c.team, c.slotNo) :: e.rot.filter fun r => r.1 != c.team }) s

theorem engineOf_pair (s : State) (pair : Nat) : (engineOf s pair).pair = pair := by
  unfold engineOf
  cases h : s.engines.find? fun e => e.pair == pair with
  | none => rfl
  | some e => simpa using List.find?_some h

theorem engineOf_turnedTo (s : State) (pair p : Nat) (c : MxCmd) :
    (engineOf (turnedTo s pair p c) pair).pos = p ∧ (engineOf (turnedTo s pair p c) pair).rot.lookup c.team = some c.slotNo := by
  have hfound : engineOf (turnedTo s pair p c) pair =
      { engineOf s pair with pos := p, rot := (c.team, c.slotNo) :: (engineOf s pair).rot.filter fun r => r.1 != c.team } := by
    rw [engineOf, turnedTo, modEngine, List.find?_cons_of_pos (by simp [engineOf_pair]), Option.getD_some]
  rw [hfound]
  exact ⟨rfl, List.lookup_cons_self⟩

theorem modMx_mxcmds {s : State} {c : MxCmd} (hone : (s.mxcmds.filter fun x => x.id == c.id) = [c]) (f : MxCmd → MxCmd) :
    (s.modMx c.id f).mxcmds = s.mxcmds.map fun x => if x.id = c.id then f c else x := by
  refine List.map_congr_left fun x hx => ?_
  by_cases hid : x.id = c.id
  · have hmem : x ∈ s.mxcmds.filter fun x => x.id == c.id := List.mem_filter.2 ⟨hx, by simp [hid]⟩
    rw [hone, List.mem_singleton] at hmem
    rw [if_pos hid, if_pos (by simp [hid]), hmem]
  · rw [if_neg hid, if_neg (by simpa using hid)]

/-- A step of an engine, from what the step of its command does. -/
theorem matrixEngineStep_of_steps {s : State} {c : MxCmd} {pair p : Nat} {tm : Team} {Q : Team → MxCmd → Prop}
    (hnext : nextServed s (engineOf s pair) = some (p, c)) (hone : (s.mxcmds.filter fun x => x.id == c.id) = [c])
    (h : ∃ tm' f, Steps (stepMx c) (turnedTo s pair p c) c f tm' ∧ (∀ k, k ≠ c.op.tile → tm'.tiles[k]? = tm.tiles[k]?) ∧ Q tm' (f c)) :
    ∃ t tm' c', exec (.matrixEngineStep pair) s = .next t ∧ t.mem = s.mem ∧ KeepsWorkOfAll s t ∧
      t.team? c.team = some tm' ∧ (∀ k, k ≠ c.team → t.team? k = s.team? k) ∧
      t.mxcmds = (s.mxcmds.map fun x => if x.id = c.id then c' else x) ∧ (engineOf t pair).pos = p ∧
      (engineOf t pair).rot.lookup c.team = some c.slotNo ∧
      (∀ k, k ≠ c.op.tile → tm'.tiles[k]? = tm.tiles[k]?) ∧ Q tm' c' := by
  obtain ⟨tm', f, ⟨u, honly, hown, hrun⟩, htiles, hq⟩ := h
  have hexec : exec (.matrixEngineStep pair) s = .next (u.modMx c.id f) := by
    refine congrArg Host.Outcome.next ?_
    rw [Prog.run_dyn, hnext]
    dsimp only
    rw [Prog.run_all_cons, Prog.run_all_cons, Prog.run_all_nil, Prog.run_change_of_eq (t := turnedTo s pair p c) rfl rfl rfl, hrun]
  have hengine : engineOf (u.modMx c.id f) pair = engineOf (turnedTo s pair p c) pair := by
    rw [engineOf, engineOf, ← honly.engines]
    rfl
  obtain ⟨hpos, hrot⟩ := engineOf_turnedTo s pair p c
  refine ⟨u.modMx c.id f, tm', f c, hexec, honly.mem, honly.keepsWork, hown, honly.teams, ?_, hengine ▸ hpos, hengine ▸ hrot, htiles, hq⟩
  rw [modMx_mxcmds (by rw [honly.mxcmds]; exact hone), honly.mxcmds]
  rfl

/-! ### Completion (R253, R258) -/

/-- What a completion leaves as it is, but for its own changes. -/
def State.commandParts (s : State) : List Host.Cell × Mgmt × List Score × List MxCmd := (s.mem, s.mgmt, s.scores, s.mxcmds)

theorem exitGroup_commandParts (k : Nat) (s : State) : (exitGroup k s).commandParts = s.commandParts := by
  have hctr (core lid n : Nat) (u : State) : (addLaunchCtr core lid n u).commandParts = u.commandParts := by
    unfold addLaunchCtr
    split <;> rfl
  have hbars (tid : Nat) (u : State) : (releaseBars tid u).commandParts = u.commandParts := by
    rw [releaseBars_rest]
    rfl
  have hgrp (f : Group → Group) (u : State) : (u.modGrp k f).commandParts = u.commandParts := rfl
  unfold exitGroup
  split
  · rfl
  · split
    · exact hbars ..
    · exact (hbars ..).trans ((hctr ..).trans (hgrp ..))

theorem leaveLate_commandParts (core : Nat) (s : State) : (leaveLate core s).commandParts = s.commandParts :=
  foldl_keeps State.commandParts (fun u (g : Group) => exitGroup g.gid u) (fun u g => exitGroup_commandParts g.gid u) _ s

theorem uncountOne_commandParts (gid core launch : Nat) (moved : Bool) (s : State) :
    (uncountOne gid core launch moved s).commandParts = s.commandParts := by
  unfold uncountOne
  split
  · split <;> rfl
  · rfl

/-- Nothing leaves late where every group has a live lane. -/
theorem leaveLate_of_live {core : Nat} {s : State} (h : ∀ x, x ∈ s.groups → x.core = core → x.live ≠ 0) : leaveLate core s = s := by
  have hnone : (s.groups.filter fun g => g.core == core && g.life == .resident && g.live == 0) = [] :=
    List.filter_eq_nil_iff.2 fun x hx hc => by
      simp only [Bool.and_eq_true, beq_iff_eq] at hc
      exact h x hx hc.1.1 hc.2
  rw [leaveLate, hnone, List.foldl_nil]

theorem cmdDone_commandParts (gid launch id : Nat) (s : State) :
    (cmdDone gid launch id s).commandParts = (s.mem, s.mgmt, s.scores.filter fun e => e.cmd != some id, s.mxcmds) := by
  unfold cmdDone
  dsimp only
  split
  · rw [leaveLate_commandParts, uncountOne_commandParts]
    rfl
  · rfl

/-- The count of the group of a command falls (R49, R253). -/
theorem cmdDone_counts {s : State} {gid : Nat} {g : Group} (hg : s.grp? gid = some g) (hlife : g.life = .resident)
    (hlive : ∀ x, x ∈ s.groups → x.core = g.core → x.live ≠ 0) (launch id : Nat) :
    (cmdDone gid launch id s).groups = s.groups.map fun x => if x.gid = gid then { x with outst := x.outst - 1 } else x := by
  obtain ⟨u, hu⟩ : ∃ u : State, u = { s with scores := s.scores.filter fun e => e.cmd != some id } := ⟨_, rfl⟩
  have hgu : u.grp? gid = some g := by rw [hu]; exact hg
  have hcount : uncountOne gid g.core launch false u = u.modGrp gid fun g => { g with outst := g.outst - 1 } := by
    simp [uncountOne, hgu, hlife]
  have hgroups : (u.modGrp gid fun g => { g with outst := g.outst - 1 }).groups =
      s.groups.map fun x => if x.gid = gid then { x with outst := x.outst - 1 } else x := by
    rw [State.modGrp, hu]
    refine List.map_congr_left fun x _ => ?_
    simp only [beq_iff_eq]
  have hdone : cmdDone gid launch id s = leaveLate g.core (uncountOne gid g.core launch false u) := by
    rw [cmdDone, ← hu, hgu]
  rw [hdone, hcount, leaveLate_of_live fun x hx hcore => ?_, hgroups]
  rw [hgroups] at hx
  obtain ⟨y, hy, rfl⟩ := List.mem_map.1 hx
  have hkept : (if y.gid = gid then { y with outst := y.outst - 1 } else y).live = y.live ∧
      (if y.gid = gid then { y with outst := y.outst - 1 } else y).core = y.core := by split <;> exact ⟨rfl, rfl⟩
  rw [hkept.1]
  exact hlive y hy (hkept.2 ▸ hcore)

/-- A command that has finished completes. -/
theorem exec_matrixCommandComplete {s : State} {c : MxCmd} (hc : (s.mxcmds.find? fun x => x.id == c.id) = some c) (hf : c.finished = true) :
    ∃ t, exec (.matrixCommandComplete c.id) s = .next t ∧ t.mxcmds = (s.mxcmds.filter fun x => x.id != c.id) ∧ CommandDone s t c.gid c.id := by
  obtain ⟨u, hu⟩ : ∃ u : State, u = { s with mxcmds := s.mxcmds.filter fun x => x.id != c.id } := ⟨_, rfl⟩
  have hparts := cmdDone_commandParts c.gid c.launch c.id u
  have hmem : (cmdDone c.gid c.launch c.id u).mem = s.mem := (Prod.mk.inj hparts).1.trans (by rw [hu])
  have hmgmt : (cmdDone c.gid c.launch c.id u).mgmt = s.mgmt := (Prod.mk.inj (Prod.mk.inj hparts).2).1.trans (by rw [hu])
  have hscores : (cmdDone c.gid c.launch c.id u).scores = s.scores.filter fun e => e.cmd != some c.id :=
    (Prod.mk.inj (Prod.mk.inj (Prod.mk.inj hparts).2).2).1.trans (by rw [hu])
  have hcmds : (cmdDone c.gid c.launch c.id u).mxcmds = s.mxcmds.filter fun x => x.id != c.id :=
    (Prod.mk.inj (Prod.mk.inj (Prod.mk.inj hparts).2).2).2.trans (by rw [hu])
  refine ⟨returnShares c.team (cmdDone c.gid c.launch c.id u), congrArg Host.Outcome.next (Prog.run_change_of_eq ?_ hmem hmgmt), hcmds, hscores,
    fun g hg hlife hlive => ?_, hmem⟩
  · rw [hc]
    dsimp only
    rw [hf, Bool.not_true, if_neg Bool.false_ne_true, hu]
  · have hcounts := cmdDone_counts (s := u) (gid := c.gid) (g := g) (by rw [hu]; exact hg) hlife (by rw [hu]; exact hlive) c.launch c.id
    rw [hu] at hcounts
    rw [hu]
    exact hcounts

/-! ### O54 -/

theorem MxCmd.ended_of_op {c : MxCmd} {op : MxOp} (h : c.op = op) : c.ended = { c with op := op, finished := true } := by
  rw [← h]
  rfl

theorem stepCell_hides {tm : Team} {c : MxCmd} {x : MloopX} {mask : Int} {i j : Nat} :
    (x.me && decide (x.kcount.toNat ≤ c.k + 1) && maskHides tm mask i j) = true ↔ x.me = true ∧ x.kcount.toNat ≤ c.k + 1 ∧
      (BitVec.ofNat 64 (bytesNat (Memory.bytes tm.sp (mask.toNat + 8 * i) 8))).getLsbD j = false := by
  simp only [maskHides, Bool.and_eq_true, decide_eq_true_eq, Bool.not_eq_true', and_assoc]

/-- Settles O54: the engine turns to the command that is next; `steps_mzero`, `steps_mld`, `steps_mst`, `steps_osmMax`, `stepOsmAcc_leaves` and
`stepMloop_steps` say what a step of each kind leaves of the team, and `exec_matrixCommandComplete` what a completion leaves. -/
theorem matrixCommandsPerformed : Obligations.MatrixCommandsPerformed := by
  unfold Obligations.MatrixCommandsPerformed
  intro s c
  refine ⟨fun pair p tm hnext hone hteam ht hlen => ?_, fun hc hf => exec_matrixCommandComplete hc hf⟩
  refine matrixEngineStep_of_steps (tm := tm) hnext hone ?_
  have hturned : (turnedTo s pair p c).team? c.team = some tm := hteam
  cases hop : c.op with
  | mzero k f32 =>
    rw [hop] at hlen
    refine ⟨_, _, steps_mzero hturned hop, fun j hj => Team.worked_tiles_other tm [] 0 hj, MxCmd.ended_of_op hop, rfl, bits_or_zero _,
      fun i j hi hj => ?_⟩
    exact (Team.worked_cell hlen [] 0 i j).trans (Tile.all_empty_getD _ _)
  | mld k f32 off pitch =>
    rw [hop] at hlen
    exact ⟨_, _, steps_mld hturned ht hop, fun j hj => Team.worked_tiles_other tm _ 0 hj, MxCmd.ended_of_op hop, rfl, bits_or_zero _,
      fun i j hi hj => Team.worked_cell_grid hlen _ 0 hi hj⟩
  | mst k form m d off pitch =>
    obtain ⟨es, h⟩ := steps_mst hturned ht hop
    refine ⟨_, _, h, fun j hj => rfl, MxCmd.ended_of_op hop, rfl, fun hform => ?_, fun hform => ?_, fun hform => ?_⟩
    · subst hform
      exact ⟨(Team.stored_mxflags ..).trans (bits_or_zero _), (Team.stored_sp ..).trans (congrArg _ (congrArg Prod.fst (mstRows_raw ..)))⟩
    · subst hform
      rw [mstRows_bf16]
      refine ⟨Team.stored_sp .., (Team.stored_mxflags ..).trans ?_⟩
      rfl
    · subst hform
      rw [mstRows_dx]
      refine ⟨Team.stored_sp .., (Team.stored_mxflags ..).trans ?_⟩
      dsimp only
      rfl
  | mloop sparse x a b ai bi mask md mi =>
    rw [hop] at hlen
    obtain ⟨cs, f, hsteps, hvals⟩ := stepMloop_steps hturned ht sparse x a b ai bi mask md mi
    refine ⟨_, _, by rw [stepMx, hop]; exact hsteps, fun j hj => Team.worked_tiles_other tm cs f hj, by rw [← hop], rfl, fun hfmt => ?_⟩
    obtain ⟨rfl, rfl⟩ := hvals hfmt
    refine ⟨Team.worked_mxflags .., fun i j hi hj => ?_⟩
    have hcell := Team.worked_cell_grid hlen (fun i j => stepCell tm c sparse x a b ai bi mask md mi (stepOld tm c x i j) i j)
      (mloopMarks tm sparse x (a + (c.k : Int) * ai).toNat (b + (c.k : Int) * bi).toNat (md + (c.k : Int) * mi).toNat (stepOld tm c x)) hi hj
    exact ⟨fun hidden => hcell.trans (if_pos (stepCell_hides.2 hidden)), fun hshown => hcell.trans (if_neg fun h => hshown (stepCell_hides.1 h))⟩
  | osmMax k mv lv cv =>
    rw [hop] at hlen
    obtain ⟨o, ho⟩ : ∃ o, osmRows (readVec tm mv.toNat) (readVec tm lv.toNat) ((tm.tiles.getD k ⟨0, []⟩).all.map BitVec.toNat).toArray mv.toNat
      lv.toNat cv.toNat = o := exists_eq'
    obtain ⟨es, h⟩ := steps_osmMax hturned ht hop ho
    generalize hsp : osmStored tm o mv.toNat lv.toNat cv.toNat = sp at h
    refine ⟨_, _, h, fun j hj => Team.worked_tiles_other (k := k) tm o.cells (osmFlags o.flags) hj, MxCmd.ended_of_op hop, fun hw hmv hlv hcv => ?_⟩
    intro place elem row next upTo raised
    have hdone := osmDone_rows tm k mv.toNat lv.toNat cv.toNat hw (by omega) (by omega) (by omega) ht
    rw [ho] at hdone
    have hupTo (n : Nat) : upTo n = osmUpTo tm k mv.toNat lv.toNat cv.toNat n := rfl
    have hraised (n : Nat) : raised n = fun i => (osmRowOf tm k mv.toNat lv.toNat (osmUpTo tm k mv.toNat lv.toNat cv.toNat i) i).2.2.2.2.getLsbD n := rfl
    refine ⟨fun a => ?_, ?_, fun i j hi hj => ?_⟩
    · rw [hupTo, ← osmStored_get tm k mv.toNat lv.toNat cv.toNat hw (by omega) (by omega) (by omega) hdone a, hsp]
    · rw [hraised, hraised]
      exact (congrArg (tm.mxflags ||| ·) (osmMax_flags hdone)).trans (BitVec.or_assoc ..).symm
    · rw [hupTo]
      exact osmMax_cell hlen hdone (osmFlags o.flags) hi hj
  | osmAcc k cv =>
    rw [hop] at hlen
    obtain ⟨cs, f, h, hvals⟩ := stepOsmAcc_leaves hturned ht k cv.toNat
    refine ⟨_, _, by rw [stepMx, hop]; exact steps_of_leaves h, fun j hj => Team.worked_tiles_other tm cs f hj, MxCmd.ended_of_op hop, rfl,
      fun hfull => ?_⟩
    obtain ⟨rfl, rfl⟩ := hvals hfull
    exact ⟨(BitVec.or_assoc ..).symm, fun i j hi hj => Team.worked_cell_grid hlen _ _ hi hj⟩

end Sys2Proof.Machine
end
